-- ==== Sys2Proof/Word.lean ====
section
/-! DEFINITION. The words of the machine and its one sparse container.

A register, a flag word and a mask are bit vectors (R6, R141); an address that a cell is keyed by, a
count and an identifier are natural numbers. `FMap` is the list of (index, value) pairs that memory,
the register file and every indexed kind of state use: indices strictly rising, and no entry equal
to the value an unlisted index reads as. -/

namespace Sys2Proof

/-- A byte of memory (R6). -/
abbrev Byte := BitVec 8
/-- A 32-bit register word (R141). -/
abbrev Word := BitVec 32
/-- A 64-bit register pair, or a control register (R144, R342). -/
abbrev DWord := BitVec 64

/-- A sparse map from natural numbers. An index that is not listed reads as a default `d` that the
reader names. -/
abbrev FMap (α : Type) := List (Nat × α)

namespace FMap

variable {α : Type}

/-- The value at index `k`: the listed one, or the default `d`. -/
def get (d : α) : FMap α → Nat → α
  | [], _ => d
  | (j, v) :: t, k => if k = j then v else get d t k

/-- List `v` at index `k`, keeping the indices in rising order. -/
def insert (k : Nat) (v : α) : FMap α → FMap α
  | [] => [(k, v)]
  | (j, w) :: t =>
    if k < j then (k, v) :: (j, w) :: t
    else if k = j then (k, v) :: t
    else (j, w) :: insert k v t

/-- Remove index `k`, so that it reads as the default. -/
def erase (k : Nat) (m : FMap α) : FMap α := m.filter fun c => c.1 != k

/-- Write `v` at index `k`: writing the default removes the entry. -/
def set [DecidableEq α] (d : α) (m : FMap α) (k : Nat) (v : α) : FMap α :=
  if v = d then erase k m else insert k v m

/-- Replace the value at `k` by `f` of it. -/
def modify [DecidableEq α] (d : α) (m : FMap α) (k : Nat) (f : α → α) : FMap α :=
  set d m k (f (get d m k))

/-- The listed indices. -/
def keys (m : FMap α) : List Nat := m.map (·.1)

/-- Indices strictly rise, starting above `lo` (`lo = none`: from anywhere). -/
def risingFrom : Option Nat → FMap α → Bool
  | _, [] => true
  | none, (j, _) :: t => risingFrom (some j) t
  | some lo, (j, _) :: t => lo < j && risingFrom (some j) t

/-- The canonical form: indices strictly rise and no entry holds the default. -/
def wf [DecidableEq α] (d : α) (m : FMap α) : Bool :=
  risingFrom none m && m.all fun c => c.2 != d

end FMap

/-- Bits `lo` to `lo + w - 1` of `x` (the bit ranges of R6). -/
def bits (x lo w : Nat) : Nat := (x / 2 ^ lo) % 2 ^ w

/-- Bit `i` of `x`. -/
def bit (x i : Nat) : Bool := bits x i 1 = 1

/-- 1 for true, 0 for false. -/
def b2n (b : Bool) : Nat := if b then 1 else 0

/-- The two's-complement value of the low `w` bits of `x`. -/
def sint (w x : Nat) : Int :=
  let y := x % 2 ^ w
  if y < 2 ^ (w - 1) then (y : Int) else (y : Int) - 2 ^ w

/-- The low `w` bits of an integer, as a natural number (results are written modulo 2^w). -/
def wrap (w : Nat) (x : Int) : Nat := (x % (2 ^ w : Int)).toNat

/-- The little-endian number whose bytes are listed, lowest address first (R6). -/
def leNat : List Byte → Nat
  | [] => 0
  | b :: t => b.toNat + 256 * leNat t

/-- The low `n` bytes of a number, lowest address first (R6). -/
def leBytes : Nat → Nat → List Byte
  | 0, _ => []
  | n + 1, x => BitVec.ofNat 8 x :: leBytes n (x / 256)

/-- Rounding up to a multiple of `a`. -/
def roundUp (x a : Nat) : Nat := (x + a - 1) / a * a

/-- The quotient rounded up. -/
def ceilDiv (x a : Nat) : Nat := (x + a - 1) / a

end Sys2Proof
end

