-- ==== Sys2Proof/Syntax.lean ====
section
/-! DEFINITION. The instructions of Henzen 3, and the events of the device's other agents: one
constructor of `Instr` per row of spec/opcode_table.json.

A row that a team issues carries its header (settle bit and guard, R14, R19) and its operands in the
order of its assembly form. A row that is an event of an agent carries the numbers that say which
thing the agent acts on. -/

namespace Sys2Proof

/-- A register field: v0 to v255 (R14). -/
abbrev Reg := Fin 256
/-- A label id field: 12 bits (R185). -/
abbrev Lbl := Fin 4096
/-- A predicate number: p0 to p127 (R142). -/
abbrev Pred := Fin 128

/-- What every slot carries: the settle bit S and the guard GN, GP (R14, R19). -/
structure Hdr where
  s : Bool
  gn : Bool
  gp : Pred
  deriving DecidableEq, Repr

/-- A predicate source: a predicate number and its negate bit (R169). -/
structure PSrc where
  neg : Bool
  n : Pred
  deriving DecidableEq, Repr

/-- Integer operand type of `.i32` or `.n32` (R172). -/
inductive ITy | i32 | n32
  deriving DecidableEq, Repr

/-- Conditions of `icmp` (R172). -/
inductive Cond | eq | ne | lt | le | gt | ge
  deriving DecidableEq, Repr

/-- Conditions of `cmp64`: signed 2 to 5, unsigned 6 to 9 (R172). -/
inductive Cond64 | eq | ne | lt | le | gt | ge | ltu | leu | gtu | geu
  deriving DecidableEq, Repr

/-- Operation of `pbit` (R172). -/
inductive PbOp | and | or | xor
  deriving DecidableEq, Repr

/-- Scale of an index: 1, 2, 4, 8 or 16 (R172, R123). -/
inductive Scale | s1 | s2 | s4 | s8 | s16
  deriving DecidableEq, Repr

/-- Element type of the arithmetic instructions 0x180 to 0x193 (R176). -/
inductive FTy | f32 | h2 | b2
  deriving DecidableEq, Repr

/-- Rounding modes (R154). -/
inductive Rnd | rne | rtz | rup | rdn | rna | rto
  deriving DecidableEq, Repr

/-- Conditions of `fcmp` (R176). -/
inductive FCond | eq | ne | lt | le | gt | ge | num | nan
  deriving DecidableEq, Repr

/-- Type codes of the conversion instructions (R179). -/
inductive TyCode
  | f32 | f16 | bf16 | e4m3 | e5m2 | e2m1 | i8 | n8 | i16 | n16 | i32 | n32 | i64 | n64 | h2 | b2
  deriving DecidableEq, Repr

/-- Address spaces (R31 to R34). -/
inductive Space | global | stash | cstash | const
  deriving DecidableEq, Repr

/-- Order modifiers (R24, R100). -/
inductive Ord | plain | acq | rel | acqrel
  deriving DecidableEq, Repr

/-- Scope codes 0 to 5 (R114). -/
inductive Scope | device | team | block | cluster | die | system
  deriving DecidableEq, Repr

/-- Cache modifiers (R68, R115). -/
inductive Cache | keep | stream | noalloc
  deriving DecidableEq, Repr

/-- Access sizes and extensions of `ld`, `st`, `ldg`, `stg` (R115). -/
inductive Sz | i32 | i8 | n8 | i16 | n16 | i64 | w4
  deriving DecidableEq, Repr

/-- Operations of `atom` and `red` (R119). -/
inductive AtomOp | add | min | max | and | or | xor | exch | cas | inc | dec
  deriving DecidableEq, Repr

/-- Types of `atom` and `red` (R118). -/
inductive AtomTy | i32 | n32 | i64 | n64 | f32 | h2 | b2
  deriving DecidableEq, Repr

/-- Index widths of `ldg` and `stg` (R123). -/
inductive IxW | ix32 | ix8 | ix16 | ix64
  deriving DecidableEq, Repr

/-- Register counts of `ldft`: 1, 2 or 4 (R125). -/
inductive FtCount | x1 | x2 | x4
  deriving DecidableEq, Repr

/-- Variants of `pfd` (R131). -/
inductive PfVar | l1 | l2 | fill
  deriving DecidableEq, Repr

/-- The eight paths that have an arrival counter (R102, R132). -/
inductive Path | g | s | c | x | l | m | t | q
  deriving DecidableEq, Repr

/-- Variants of `shuf` (R220). -/
inductive ShufVar | idx | up | down | xor
  deriving DecidableEq, Repr

/-- Variants of `qswap` (R220). -/
inductive QsVar | h | v | d
  deriving DecidableEq, Repr

/-- Variants of `vote` (R220). -/
inductive VoteVar | all | any | uni
  deriving DecidableEq, Repr

/-- Operations of `ired` and `iscan` (R220). -/
inductive RedOp | add | min | max | and | or | xor
  deriving DecidableEq, Repr

/-- Operations of `fred` and `fscan` (R220). -/
inductive FRedOp | add | min | max
  deriving DecidableEq, Repr

/-- Segment field: the default, or an explicit segment of 4 to 1,024 lanes (R221). -/
inductive Seg | sgd | sg4 | sg8 | sg16 | sg32 | sg64 | sg128 | sg256 | sg512 | sg1024
  deriving DecidableEq, Repr

/-- Sources of `sread` (R145). -/
inductive SReg
  | lane | quad | team | part | block | cluster | launch | width | wl | sweeps | tick | core | die
  | blane | help | nblk | ev0 | ev1 | ev2 | ev3 | ev4 | ev5 | ev6 | ev7
  deriving DecidableEq, Repr

/-- Element types of matrix operands (R282). -/
inductive MTy | f16 | bf16 | e4m3 | e5m2 | e2m1 | i8 | bp
  deriving DecidableEq, Repr

/-- Centring of bit-plane operands: from the image, off or on (R282). -/
inductive Cen | img | off | on
  deriving DecidableEq, Repr

/-- Group and point counts of `had`: 16, 32 or 64 (R286). -/
inductive HadN | n16 | n32 | n64
  deriving DecidableEq, Repr

/-- A barrier operand: `bN`, or `cN` when `cl` (R242). -/
structure BarRef where
  cl : Bool
  ix : Fin 16
  deriving DecidableEq, Repr

/-- The length operand of `cpy`: an immediate or a register (R247). -/
inductive LenOp
  | imm (n : BitVec 32)
  | reg (r : Reg)
  deriving DecidableEq, Repr

/-- The spaces, order, scope, barrier and cache fields of `cpy` and `cpyg` (R247). -/
structure CpyOps where
  dsp : Space
  ssp : Space
  ord : Ord
  sco : Scope
  bar : Option BarRef
  ca : Cache
  deriving DecidableEq, Repr

/-- Slot 1 of `mma` and `mmap` (R282). A plane count is 0 where the operand is not bit-plane. -/
structure MmaOps where
  b : Reg
  sa : Reg
  sb : Reg
  ta : MTy
  tb : MTy
  aMem : Bool
  bMem : Bool
  sca : Bool
  scb : Bool
  sel : Bool
  ka : Fin 16
  kb : Fin 16
  cen : Cen
  stash : Bool
  acq : Bool
  sco : Scope
  ca : Cache
  deriving DecidableEq, Repr

/-- The form of `acld` and `acst`: memory with its fields, or registers (R288). -/
inductive AcForm
  | mem (pitch : Reg) (sp : Space) (ordered : Bool) (sco : Scope) (ca : Cache)
  | reg
  deriving DecidableEq, Repr

/-- Slot 1 of `trav` and `tres` (R303). -/
structure TravOps where
  ent : Lbl
  lea : Lbl
  vr : Reg
  prn : Lbl
  don : Lbl
  acq : Bool
  sco : Scope
  stash : Bool
  ca : Cache
  deriving DecidableEq, Repr

/-- The slot-1 fields of `tcut` (R306). -/
structure TcutOps where
  stash : Bool
  rel : Bool
  sco : Scope
  bar : Option BarRef
  ca : Cache
  deriving DecidableEq, Repr

/-- The operands of `tinv`: the count register, the SPID register and the function (R339, R345). -/
structure TinvOps where
  a : Reg
  sp : Reg
  n : Reg
  vf : Fin 64
  deriving DecidableEq, Repr

/-- The slot of a certificate chain and the byte of it that a request asks from (R367). -/
structure CertAsk where
  slot : Nat
  offset : Nat
  deriving DecidableEq, Repr

/-- The certificate slot and the nonce of a challenge (R367). -/
structure ChallengeAsk where
  slot : Nat
  nonce : Nat
  deriving DecidableEq, Repr

/-- The instructions, one constructor per row of spec/opcode_table.json.
The names `iand`, `ior` and `ixor` stand for the rows AND, OR and XOR. -/
inductive Instr
  /- Control (R199) -/
  | nop (h : Hdr)
  | go (h : Hdr) (l : Lbl)
  | goi (h : Hdr) (a : Reg)
  | gosel (h : Hdr) (p : PSrc) (l1 l2 : Lbl)
  | call (h : Hdr) (d : Reg) (f ret : Lbl)
  | calli (h : Hdr) (d a : Reg) (ret : Lbl)
  | exit (h : Hdr)
  | beat (h : Hdr)
  | ipref (h : Hdr) (l : Lbl) (n : Fin 16)
  | trap (h : Hdr) (code : BitVec 16)
  | brk (h : Hdr) (code : BitVec 16)
  /- Team width (R214) -/
  | split (h : Hdr) (d : Reg) (n : Fin 16)
  | fuse (h : Hdr) (d : Reg) (l : Lbl)
  | fuset (h : Hdr) (d : Reg) (l : Lbl)
  /- Integer and logic (R172) -/
  | iadd (h : Hdr) (d a b : Reg) (ty : ITy) (sat : Bool)
  | isub (h : Hdr) (d a b : Reg) (ty : ITy) (sat : Bool)
  | iadc (h : Hdr) (d a b : Reg) (c : Pred) (sub : Bool)
  | imul (h : Hdr) (d a b : Reg) (ty : ITy) (sat : Bool)
  | imulh (h : Hdr) (d a b : Reg) (ty : ITy)
  | imad (h : Hdr) (d a b c : Reg) (ty : ITy) (sat : Bool)
  | imadw (h : Hdr) (d a b c : Reg) (ty : ITy)
  | imin (h : Hdr) (d a b : Reg) (ty : ITy)
  | imax (h : Hdr) (d a b : Reg) (ty : ITy)
  | iabs (h : Hdr) (d a : Reg) (sat : Bool)
  | ineg (h : Hdr) (d a : Reg) (sat : Bool)
  | icmp (h : Hdr) (p : Pred) (a b : Reg) (ty : ITy) (c : Cond)
  | sel (h : Hdr) (d a b : Reg) (p : PSrc)
  | shl (h : Hdr) (d a b : Reg)
  | shr (h : Hdr) (d a b : Reg)
  | sha (h : Hdr) (d a b : Reg)
  | rot (h : Hdr) (d a b : Reg) (right : Bool)
  | fsh (h : Hdr) (d a b c : Reg) (left : Bool)
  | iand (h : Hdr) (d a b : Reg)
  | ior (h : Hdr) (d a b : Reg)
  | ixor (h : Hdr) (d a b : Reg)
  | lop3 (h : Hdr) (d a b c : Reg) (lut : Fin 256)
  | popc (h : Hdr) (d a : Reg)
  | clz (h : Hdr) (d a : Reg)
  | ctz (h : Hdr) (d a : Reg)
  | brev (h : Hdr) (d a : Reg)
  | bfx (h : Hdr) (d a b : Reg) (ty : ITy)
  | bfi (h : Hdr) (d a b c : Reg)
  | prmt (h : Hdr) (d a b c : Reg)
  | mov (h : Hdr) (d a : Reg)
  | movi (h : Hdr) (d : Reg) (imm : BitVec 28)
  | movhi (h : Hdr) (d a : Reg) (imm : BitVec 16)
  | lea (h : Hdr) (d a b : Reg) (ixs : Bool) (scl : Scale)
  | add64 (h : Hdr) (d a b : Reg) (sub : Bool)
  | cmp64 (h : Hdr) (p : Pred) (a b : Reg) (c : Cond64)
  | pbit (h : Hdr) (p : Pred) (pa pb : PSrc) (op : PbOp)
  /- Float (R176) -/
  | fadd (h : Hdr) (d a b : Reg) (ty : FTy) (rnd : Rnd) (sat ftz : Bool)
  | fsub (h : Hdr) (d a b : Reg) (ty : FTy) (rnd : Rnd) (sat ftz : Bool)
  | fmul (h : Hdr) (d a b : Reg) (ty : FTy) (rnd : Rnd) (sat ftz : Bool)
  | ffma (h : Hdr) (d a b c : Reg) (ty : FTy) (rnd : Rnd) (sat ftz : Bool)
  | fmin (h : Hdr) (d a b : Reg) (ty : FTy) (ftz : Bool)
  | fmax (h : Hdr) (d a b : Reg) (ty : FTy) (ftz : Bool)
  | fcmp (h : Hdr) (p : Pred) (a b : Reg) (c : FCond) (ftz : Bool)
  | fclass (h : Hdr) (d a : Reg) (ty : FTy)
  | frnd (h : Hdr) (d a : Reg) (ty : FTy) (rnd : Rnd) (ftz : Bool)
  | fscale (h : Hdr) (d a b : Reg) (ty : FTy) (rnd : Rnd) (sat ftz : Bool)
  | frcp (h : Hdr) (d a : Reg) (ty : FTy) (rnd : Rnd) (sat ftz : Bool)
  | frsq (h : Hdr) (d a : Reg) (ty : FTy) (sat ftz : Bool)
  | fsqrt (h : Hdr) (d a : Reg) (ty : FTy) (rnd : Rnd) (sat ftz : Bool)
  | fdiv (h : Hdr) (d a b : Reg) (ty : FTy) (rnd : Rnd) (sat ftz : Bool)
  | fexp2 (h : Hdr) (d a : Reg) (ty : FTy) (sat ftz : Bool)
  | flog2 (h : Hdr) (d a : Reg) (ty : FTy) (sat ftz : Bool)
  | fsin (h : Hdr) (d a : Reg) (ty : FTy) (sat ftz : Bool)
  | fcos (h : Hdr) (d a : Reg) (ty : FTy) (sat ftz : Bool)
  | ftanh (h : Hdr) (d a : Reg) (ty : FTy) (sat ftz : Bool)
  | fdot2 (h : Hdr) (d a b c : Reg) (ty : FTy) (rnd : Rnd) (sat ftz : Bool)
  /- Conversions (R179) -/
  | cvt (h : Hdr) (d a : Reg) (dst src : TyCode) (rnd : Rnd) (sat ftz : Bool)
  | pack (h : Hdr) (d a : Reg) (tc : TyCode) (rnd : Rnd) (sat ftz : Bool)
  | unpk (h : Hdr) (d a : Reg) (tc : TyCode)
  | qnt (h : Hdr) (d a b : Reg) (tc : TyCode) (rnd : Rnd) (sat ftz : Bool)
  | dqn (h : Hdr) (d a b : Reg) (tc : TyCode) (rnd : Rnd) (ftz : Bool)
  | plx (h : Hdr) (d a : Reg) (p : Fin 16)
  | pli (h : Hdr) (d a : Reg) (k : Fin 16)
  /- Cross-lane (R220) -/
  | shuf (h : Hdr) (d a b : Reg) (var : ShufVar) (wide : Bool) (seg : Seg)
  | shufImm (h : Hdr) (d a : Reg) (imm : Fin 256) (var : ShufVar) (wide : Bool) (seg : Seg)
  | qswap (h : Hdr) (d a : Reg) (var : QsVar) (wide : Bool)
  | qbc (h : Hdr) (d a : Reg) (n : Fin 4) (wide : Bool)
  | vote (h : Hdr) (p : Pred) (pa : PSrc) (var : VoteVar) (seg : Seg)
  | ballot (h : Hdr) (d : Reg) (pa : PSrc) (seg : Seg)
  | ballotWord (h : Hdr) (d : Reg) (pa : PSrc) (b : Reg) (seg : Seg)
  | matchAny (h : Hdr) (d a : Reg) (wide : Bool) (seg : Seg)
  | matchAll (h : Hdr) (d a : Reg) (p : Pred) (wide : Bool) (seg : Seg)
  | elect (h : Hdr) (p : Pred) (seg : Seg)
  | ired (h : Hdr) (d a : Reg) (op : RedOp) (ty : ITy) (seg : Seg)
  | fred (h : Hdr) (d a : Reg) (op : FRedOp) (ftz : Bool) (seg : Seg)
  | iscan (h : Hdr) (d a : Reg) (op : RedOp) (ty : ITy) (excl : Bool) (seg : Seg)
  | fscan (h : Hdr) (d a : Reg) (op : FRedOp) (excl ftz : Bool) (seg : Seg)
  | sread (h : Hdr) (d : Reg) (src : SReg)
  /- Memory (R112) -/
  | ld (h : Hdr) (d a : Reg) (off : BitVec 16) (sz : Sz) (sp : Space) (acq : Bool) (ca : Cache)
  | st (h : Hdr) (d a : Reg) (off : BitVec 16) (sz : Sz) (sp : Space) (rel : Bool) (ca : Cache)
  | atom (h : Hdr) (d a b c : Reg) (op : AtomOp) (ty : AtomTy) (rnd : Rnd) (sp : Space) (ord : Ord)
  | red (h : Hdr) (a b : Reg) (op : AtomOp) (ty : AtomTy) (rnd : Rnd) (sp : Space) (ord : Ord)
  | ldg (h : Hdr) (d a b : Reg) (sco : Scope) (sz : Sz) (iw : IxW) (ixs : Bool) (scl : Scale)
      (stash : Bool) (ord : Ord)
  | stg (h : Hdr) (d a b : Reg) (sco : Scope) (sz : Sz) (iw : IxW) (ixs : Bool) (scl : Scale)
      (stash : Bool) (ord : Ord)
  | ldft (h : Hdr) (d a b : Reg) (t16 : Bool) (cnt : FtCount)
  | smap (h : Hdr) (d a b c : Reg)
  | sunmap (h : Hdr) (d a : Reg)
  | sflush (h : Hdr) (a b : Reg) (all : Bool)
  | sdrop (h : Hdr) (a b : Reg) (all : Bool)
  | pfd (h : Hdr) (a : Reg) (off : BitVec 16) (var : PfVar)
  | waitc (h : Hdr) (a : Reg) (path : Path)
  | cntq (h : Hdr) (d : Reg) (path : Path)
  | fence (h : Hdr) (sco : Scope)
  | fenceSys (h : Hdr)
  /- Barriers (R242) -/
  | bar (h : Hdr) (b : BarRef) (l : Lbl)
  | barr (h : Hdr) (d : Reg) (b : BarRef)
  | barw (h : Hdr) (a : Reg) (b : BarRef) (l : Lbl)
  | barinit (h : Hdr) (a : Reg) (b : BarRef)
  /- Ladle (R247) -/
  | cpy (h : Hdr) (d a : Reg) (len : LenOp) (o : CpyOps)
  | cpyg (h : Hdr) (d a : Reg) (rowb : BitVec 32) (ix : Bool) (o : CpyOps)
  /- Prologue and launch (R263, R264) -/
  | plset (h : Hdr) (a : Reg) (sel : Fin 4096)
  | plcan (h : Hdr)
  | plrep (h : Hdr) (d : Reg)
  | launch (h : Hdr) (d a : Reg)
  /- Matrix (R281) -/
  | mma (h : Hdr) (tag : Fin 16) (a : Reg) (o : MmaOps)
  | mmap (h : Hdr) (tag : Fin 16) (a : Reg) (o : MmaOps)
  | had (h : Hdr) (d a : Reg) (n g : HadN) (norm : Bool)
  | acz (h : Hdr) (tag : Fin 16) (pair : Bool)
  | acrel (h : Hdr) (tag : Fin 16)
  | acrelAll (h : Hdr)
  | acld (h : Hdr) (tag : Fin 16) (a : Reg) (f : AcForm) (pair : Bool)
  | acst (h : Hdr) (tag : Fin 16) (a : Reg) (f : AcForm)
  | acstat (h : Hdr) (d : Reg) (tag : Fin 16) (clr : Bool)
  /- Runner (R302) -/
  | trav (h : Hdr) (d a : Reg) (o : TravOps)
  | tretDesc (h : Hdr) (a : Reg) (rev acq : Bool) (sco : Scope)
  | tretSkip (h : Hdr) (acq : Bool) (sco : Scope)
  | tretCont (h : Hdr) (acq : Bool) (sco : Scope)
  | tretStop (h : Hdr) (acq : Bool) (sco : Scope)
  | tcut (h : Hdr) (d a : Reg) (o : TcutOps)
  | tres (h : Hdr) (d a : Reg) (o : TravOps)
  | tstat (h : Hdr) (d a : Reg)
  /- Sprue port (R319) -/
  | gpost (h : Hdr) (d a qr : Reg) (ord : Ord) (sco : Scope)
  | gpoll (h : Hdr) (d qr : Reg)
  /- System (R339) -/
  | sys (h : Hdr) (d : Reg) (code : BitVec 16)
  | eretAgain (h : Hdr) (d a b : Reg)
  | eretNext (h : Hdr) (d a b : Reg)
  | eretZero (h : Hdr) (d a b : Reg)
  | eretKill (h : Hdr) (d a b : Reg)
  | csrr (h : Hdr) (d : Reg) (csr : Fin 4096) (vf : Fin 64)
  | csrw (h : Hdr) (a : Reg) (csr : Fin 4096) (vf : Fin 64)
  | tinvVa (h : Hdr) (o : TinvOps)
  | tinvSp (h : Hdr) (o : TinvOps)
  | tinvFn (h : Hdr) (o : TinvOps)
  | tinvIpa (h : Hdr) (o : TinvOps)
  | tmark (h : Hdr) (a : Reg) (code : BitVec 16)
  /- Events of the device's other agents (95_what_each_step_holds.md) -/
  | instructionFetchFill (id : Nat)
  | deferredResultArrival (id : Nat)
  | pathArrival (id : Nat)
  | teamRetire (part : Nat)
  | tableWalk (id : Nat)
  | faultRecord (id : Nat)
  | fres (hyp : Bool) (vf token : Nat) (abort : Bool)
  | stashFill (block va : Nat)
  | recallSector (pa : Nat)
  | clockAdvance (core : Nat)
  | clockRaise (core : Nat)
  | replicatedCommitLock (id : Nat)
  | replicatedCommitUpdate (id : Nat)
  | commitBoundMissed (id link : Nat)
  | ladleComplete (id : Nat)
  | barrierArrivalStep (die k : Nat)
  | tundishGrant (flask : Nat)
  | passRetire (id : Nat)
  | runnerRelease (part lane : Nat)
  | tcutComplete (id : Nat)
  | guestPacketDeliver (q : Nat)
  | guestCompletionReport (q seq status : Nat)
  | guestTranslationRequest (q vf spid va : Nat) (write : Bool)
  | guestAccess (q pa len : Nat) (write : Bool) (data : Nat)
  | guestInvalidationAck (id : Nat)
  | guestLeaseSnoop (pa : Nat)
  | guestQuiesceAnswer (q seq : Nat) (returned : Bool)
  | guestBreach (code : Nat)
  | trapRecord (id : Nat)
  | stallDetectorTest (core : Nat)
  | watchdog (launch : Nat)
  | qnotify (vf q tail : Nat)
  | submissionStart (vf q : Nat)
  | dependenceEntry (graph node : Nat)
  | nodeStartKernel (graph node : Nat)
  | nodeStartCopy (graph node : Nat)
  | nodeConditional (graph node : Nat)
  | nodeWhile (graph node : Nat)
  | nodeJoin (graph node : Nat)
  | nodeHostSignal (graph node : Nat)
  | nodeGuest (graph node : Nat)
  | nodeFinish (graph node : Nat)
  | imageRead (launch : Nat)
  | prologueBudgetExceeded (part : Nat)
  | clusterPlace (die : Nat)
  | preempt (cluster : Nat)
  | clusterRestore (cluster : Nat)
  | inboundHostAccess (vf addr len : Nat) (write : Bool) (data : Nat)
  | initiateFunctionLevelReset (vf : Nat)
  | flr (vf : Nat)
  | vfctlEn (vf value : Nat)
  | gsctlRst (value : Nat)
  | evsel (n value : Nat)
  | trctl (die value : Nat)
  | stopat (value : Nat)
  | stop
  | goWrite (value : Nat)
  | thermalTrip
  | linkLost (link : Nat)
  | recastLogFull
  | recastLogEnd
  | deviceReset
  | layerStart (die layer : Nat)
  | getVersion
  | getCapabilities
  | negotiateAlgorithms
  | getDigests
  | getCertificate (ask : CertAsk) (length : Nat)
  | challenge (ask : ChallengeAsk)
  | getMeasurements (index nonce : Nat)
  | spdmUnsupportedRequest (code : Nat)
  | registerWrite (vf addr value : Nat)
  | linkTrained (link : Nat)
  | replayRetriesExhausted (link : Nat)
  | guestSnoopOrRecallAnswer (pa data : Nat)
  | msiXVectorUnmask (vf vector : Nat)
  deriving DecidableEq, Repr

end Sys2Proof
end

