-- ==== Sys2Proof/WellFormed.lean ====
section
/-! DEFINITION. Which instructions an encoding can hold, whatever kernel contains it.

The rules here are the ones that a slot breaks or keeps by itself: pairs and groups of registers
(R10, R169) and the reserved combinations of modifiers that each instruction's description names
(R17). The rules that depend on the kernel (declared registers, label ids, levels) are in
Sys2Proof/Machine/Operands.lean. -/

namespace Sys2Proof

/-- A register pair names an even register below 254 (R10). -/
def pairOk (r : Reg) : Bool := r.val % 2 = 0 && r.val < 254

/-- A group of `n` registers starts at a multiple of `n` and does not contain v255 (R169). -/
def groupOk (n : Nat) (r : Reg) : Bool := r.val % n = 0 && r.val + n ≤ 255

/-- A pair where the operand is 64 bits wide, any register otherwise. -/
def pairIf (wide : Bool) (r : Reg) : Bool := !wide || pairOk r

/-- A scope is written only with an order (R100, R114). -/
def scopeOk (ordered : Bool) (s : Scope) : Bool := ordered || s = .device

/-- The data register of `ld`, `st`, `ldg` and `stg`: even for `.i64`, a multiple of 4 for `.w4`
(R115). -/
def szRegOk (sz : Sz) (d : Reg) : Bool :=
  match sz with
  | .i64 => pairOk d
  | .w4 => d.val % 4 = 0
  | _ => true

/-- `.ftz` is reserved for a type other than `.f32` (R176). -/
def ftzOk (ty : FTy) (ftz : Bool) : Bool := ty = .f32 || !ftz

/-- The group size of a packed format, and 0 for a type that is no packed format (R179). -/
def packCount : TyCode → Nat
  | .h2 | .b2 => 2
  | .e4m3 | .e5m2 | .i8 | .n8 => 4
  | .e2m1 => 8
  | _ => 0

/-- The types that hold 64 bits. -/
def TyCode.wide : TyCode → Bool
  | .i64 | .n64 => true
  | _ => false

/-- The types that are floats. -/
def TyCode.isFloat : TyCode → Bool
  | .f32 | .f16 | .bf16 | .e4m3 | .e5m2 | .e2m1 => true
  | _ => false

/-- The 64-bit types of atomics (R118). -/
def AtomTy.wide : AtomTy → Bool
  | .i64 | .n64 => true
  | _ => false

/-- The float types of atomics, which carry a rounding code (R118). -/
def AtomTy.isFloat : AtomTy → Bool
  | .f32 | .h2 | .b2 => true
  | _ => false

/-- The operation and type pairs of atomics (R119). -/
def atomPairOk (op : AtomOp) (ty : AtomTy) : Bool :=
  match op with
  | .add | .min | .max => true
  | .and | .or | .xor | .exch | .cas => ty = .i32 || ty = .i64
  | .inc | .dec => ty = .n32

/-- The operand classes of a pass (R277): `none` for a reserved type pair. -/
inductive MClass | b16 | b8 | b4
  deriving DecidableEq, Repr

def MTy.is8 : MTy → Bool
  | .e4m3 | .e5m2 | .i8 | .bp => true
  | _ => false

/-- The operand class of a type pair (R277). -/
def mClass (ta tb : MTy) : Option MClass :=
  if ta.is8 && tb.is8 then some .b8
  else if ta = .e2m1 && tb = .e2m1 then some .b4
  else if (ta = .f16 && tb = .f16) || (ta = .bf16 && tb = .bf16) then some .b16
  else none

/-- A plane count: 2 to 8 for a bit-plane operand, 0 otherwise (R282). -/
def planesOk (t : MTy) (k : Fin 16) : Bool :=
  if t = .bp then 2 ≤ k.val && k.val ≤ 8 else k.val = 0

/-- The decode rules of `mma` and `mmap` (R282, R283). -/
def MmaOps.ok (o : MmaOps) (paired : Bool) (a : Reg) : Bool :=
  (mClass o.ta o.tb).isSome
    && (!(o.ta = .bp) || o.aMem) && (!(o.tb = .bp) || o.bMem)
    && (!(mClass o.ta o.tb = some .b16) || (!o.sca && !o.scb))
    && planesOk o.ta o.ka && planesOk o.tb o.kb
    && (o.ta = .bp || o.tb = .bp || o.cen = .img)
    && (!(mClass o.ta o.tb = some .b4) || !o.sel)
    && (o.aMem || o.bMem || (!o.stash && !o.acq && o.sco = .device && o.ca = .keep))
    && scopeOk o.acq o.sco
    && (o.sca || o.sa.val = 0) && (o.scb || o.sb.val = 0)
    && (!paired || (o.bMem && pairOk o.sb))
    && (if o.aMem then groupOk 4 a else groupOk 16 a)
    && (if o.bMem then groupOk 4 o.b else groupOk 16 o.b)

/-- The points of a `had` block, or the registers of its group. -/
def HadN.toNat : HadN → Nat
  | .n16 => 16
  | .n32 => 32
  | .n64 => 64

/-- The decode rules of `trav` and `tres` that do not depend on the kernel (R303). -/
def TravOps.ok (o : TravOps) : Bool :=
  o.lea.val ≠ 4095 && o.prn.val ≠ 4095 && o.vr.val ≠ 255 && scopeOk o.acq o.sco

/-- The decode rules of `cpy` and `cpyg` (R247). -/
def CpyOps.ok (o : CpyOps) : Bool := o.dsp ≠ .const && scopeOk (o.ord ≠ .plain) o.sco

/-- The decode rules of `acld` and `acst` (R288). -/
def AcForm.ok (f : AcForm) (a : Reg) : Bool :=
  match f with
  | .mem _ sp ord sco _ => sp ≠ .const && scopeOk ord sco && pairOk a
  | .reg => groupOk 32 a

/-- The number of registers that `ldft` writes (R125). -/
def FtCount.toNat : FtCount → Nat
  | .x1 => 1
  | .x2 => 2
  | .x4 => 4

/-- The sources of `sread` that are 64 bits wide (R145). -/
def SReg.wide : SReg → Bool
  | .launch | .tick => true
  | _ => false

/-- Whether the row is an instruction that a team issues, and not an event of another agent. -/
def Instr.isLane : Instr → Bool
  | .instructionFetchFill .. | .deferredResultArrival .. | .pathArrival .. | .teamRetire ..
  | .tableWalk .. | .faultRecord .. | .fres .. | .stashFill .. | .recallSector .. | .clockAdvance ..
  | .clockRaise .. | .replicatedCommitLock .. | .replicatedCommitUpdate .. | .commitBoundMissed ..
  | .ladleComplete .. | .barrierArrivalStep .. | .tundishGrant .. | .passRetire ..
  | .runnerRelease .. | .tcutComplete .. | .guestPacketDeliver .. | .guestCompletionReport ..
  | .guestTranslationRequest .. | .guestAccess .. | .guestInvalidationAck .. | .guestLeaseSnoop ..
  | .guestQuiesceAnswer .. | .guestBreach .. | .trapRecord .. | .stallDetectorTest ..
  | .watchdog .. | .qnotify .. | .submissionStart .. | .dependenceEntry .. | .nodeStartKernel ..
  | .nodeStartCopy .. | .nodeConditional .. | .nodeWhile .. | .nodeJoin .. | .nodeHostSignal ..
  | .nodeGuest .. | .nodeFinish .. | .imageRead .. | .prologueBudgetExceeded .. | .clusterPlace ..
  | .preempt .. | .clusterRestore .. | .inboundHostAccess .. | .initiateFunctionLevelReset ..
  | .flr .. | .vfctlEn .. | .gsctlRst .. | .evsel .. | .trctl .. | .stopat .. | .stop ..
  | .goWrite .. | .thermalTrip .. | .linkLost .. | .recastLogFull .. | .recastLogEnd ..
  | .deviceReset .. | .layerStart .. | .getVersion .. | .getCapabilities ..
  | .negotiateAlgorithms .. | .getDigests .. | .getCertificate .. | .challenge ..
  | .getMeasurements .. | .spdmUnsupportedRequest .. | .registerWrite .. | .linkTrained ..
  | .replayRetriesExhausted .. | .guestSnoopOrRecallAnswer .. | .msiXVectorUnmask .. => false
  | _ => true

/-- The instructions an encoding can hold: the register rules of R10 and R169 and the reserved
combinations of R17, instruction by instruction. An event of another agent has no encoding. -/
def Instr.wf : Instr → Bool
  | .split _ _ n => 1 ≤ n.val && n.val ≤ 8
  | .imadw _ d _ _ c _ => pairOk d && pairOk c
  | .lea _ d a _ _ _ => pairOk d && pairOk a
  | .add64 _ d a b _ => pairOk d && pairOk a && pairOk b
  | .cmp64 _ _ a b _ => pairOk a && pairOk b
  | .fadd _ _ _ _ ty _ _ f | .fsub _ _ _ _ ty _ _ f | .fmul _ _ _ _ ty _ _ f => ftzOk ty f
  | .ffma _ _ _ _ _ ty _ _ f => ftzOk ty f
  | .fmin _ _ _ _ ty f | .fmax _ _ _ _ ty f => ftzOk ty f
  | .frnd _ _ _ ty _ f => ftzOk ty f
  | .fscale _ _ _ _ ty _ _ f | .fdiv _ _ _ _ ty _ _ f => ftzOk ty f
  | .frcp _ _ _ ty _ _ f | .fsqrt _ _ _ ty _ _ f => ftzOk ty f
  | .frsq _ _ _ ty _ f | .fexp2 _ _ _ ty _ f | .flog2 _ _ _ ty _ f | .fsin _ _ _ ty _ f
  | .fcos _ _ _ ty _ f | .ftanh _ _ _ ty _ f => ftzOk ty f
  | .fdot2 _ _ _ _ _ ty _ _ _ => ty ≠ .f32
  | .cvt _ d a dst src _ _ _ =>
      dst ≠ .h2 && dst ≠ .b2 && src ≠ .h2 && src ≠ .b2 && pairIf dst.wide d && pairIf src.wide a
  | .pack _ _ a tc _ _ _ =>
      (tc = .h2 || tc = .b2 || tc = .e4m3 || tc = .e5m2 || tc = .e2m1) && groupOk (packCount tc) a
  | .unpk _ d _ tc => packCount tc ≠ 0 && groupOk (packCount tc) d
  | .qnt _ _ a _ tc _ _ _ =>
      (tc = .e4m3 || tc = .e5m2 || tc = .e2m1 || tc = .i8) && groupOk (packCount tc) a
  | .dqn _ d _ _ tc _ _ =>
      (tc = .e4m3 || tc = .e5m2 || tc = .e2m1 || tc = .i8) && groupOk (packCount tc) d
  | .plx _ d a p => 2 ≤ p.val && p.val ≤ 8 && groupOk 8 a && d.val % 8 = 0 && d.val + p.val ≤ 255
  | .pli _ d a k => 2 ≤ k.val && k.val ≤ 8 && groupOk 8 d && a.val % 8 = 0 && a.val + k.val ≤ 255
  | .shuf _ d a _ _ w _ | .shufImm _ d a _ _ w _ => pairIf w d && pairIf w a
  | .qswap _ d a _ w | .qbc _ d a _ w => pairIf w d && pairIf w a
  | .matchAny _ d a w _ => pairIf w d && pairIf w a
  | .matchAll _ d a p w _ => pairIf w d && pairIf w a && (p.val = 0 || p.val / 32 ≠ d.val)
  | .sread _ d src => pairIf src.wide d
  | .ld _ d a _ sz _ _ _ => pairOk a && szRegOk sz d
  | .st _ d a _ sz sp _ _ => pairOk a && szRegOk sz d && sp ≠ .const
  | .atom _ d a b c op ty rnd sp _ =>
      pairOk a && pairIf ty.wide d && pairIf ty.wide b && (!(op = .cas) || pairIf ty.wide c)
        && (op = .cas || c.val = 0) && (ty.isFloat || rnd = .rne) && atomPairOk op ty && sp ≠ .const
  | .red _ a b op ty rnd sp _ =>
      pairOk a && pairIf ty.wide b && op ≠ .cas && (ty.isFloat || rnd = .rne) && atomPairOk op ty
        && sp ≠ .const
  | .ldg _ d a b sco sz iw _ _ _ ord | .stg _ d a b sco sz iw _ _ _ ord =>
      pairOk a && szRegOk sz d && pairIf (iw = .ix64) b && scopeOk (ord ≠ .plain) sco
  | .ldft _ d a _ _ cnt => pairOk a && d.val % cnt.toNat = 0
  | .smap _ _ a _ _ => pairOk a
  | .sunmap _ _ a => pairOk a
  | .sflush _ a b all | .sdrop _ a b all => if all then a.val = 0 && b.val = 0 else pairOk a
  | .pfd _ a _ _ => pairOk a
  | .fence _ sco => sco ≠ .system
  | .cpy _ d a _ o => pairOk d && pairOk a && o.ok
  | .cpyg _ d a rowb _ o => pairOk d && groupOk 8 a && rowb ≠ 0 && o.ok
  | .launch _ _ a => groupOk 8 a
  | .mma _ _ a o => o.ok false a
  | .mmap _ _ a o => o.ok true a
  | .had _ d a n g _ => n.toNat ≤ g.toNat && groupOk g.toNat d && groupOk g.toNat a
  | .acld _ _ a f pair => f.ok a && (!pair || f ≠ .reg)
  | .acst _ _ a f => f.ok a
  | .trav _ _ a o | .tres _ _ a o => groupOk 4 a && o.ok
  | .tretDesc _ _ _ acq sco | .tretSkip _ acq sco | .tretCont _ acq sco | .tretStop _ acq sco =>
      scopeOk acq sco
  | .tcut _ _ a o => pairOk a && scopeOk o.rel o.sco
  | .gpost _ _ a _ ord sco => groupOk 16 a && scopeOk (ord ≠ .plain) sco
  | .csrr _ d _ _ => pairOk d
  | .csrw _ a _ _ => pairOk a
  | .tinvVa _ o | .tinvSp _ o | .tinvFn _ o | .tinvIpa _ o => pairOk o.a
  | i => i.isLane

end Sys2Proof
end

