-- ==== Sys2Proof/Decode.lean ====
section
/-! DEFINITION. The encodings: the codes of every field, the encoder, and the decoder.

The field positions are those of R14 to R16 and of the encoding table of each instruction. The
decoder is total; it rejects by name. A rejected slot is no stuck state: the machine takes the
undefined-instruction trap (R17, R20). -/

namespace Sys2Proof

/-! ## Codes of the fields -/

/-- The code of a `ITy` field (R172). -/
def ITy.code : ITy → Nat
  | .i32 => 0 | .n32 => 1

/-- The `ITy` that a code stands for; `none` for a reserved code. -/
def ITy.ofCode : Nat → Option ITy
  | 0 => some .i32 | 1 => some .n32 | _ => none

/-- The code of a `Cond` field (R172). -/
def Cond.code : Cond → Nat
  | .eq => 0 | .ne => 1 | .lt => 2 | .le => 3 | .gt => 4 | .ge => 5

/-- The `Cond` that a code stands for; `none` for a reserved code. -/
def Cond.ofCode : Nat → Option Cond
  | 0 => some .eq | 1 => some .ne | 2 => some .lt | 3 => some .le | 4 => some .gt | 5 => some .ge
  | _ => none

/-- The code of a `Cond64` field (R172). -/
def Cond64.code : Cond64 → Nat
  | .eq => 0 | .ne => 1 | .lt => 2 | .le => 3 | .gt => 4 | .ge => 5 | .ltu => 6 | .leu => 7
  | .gtu => 8 | .geu => 9

/-- The `Cond64` that a code stands for; `none` for a reserved code. -/
def Cond64.ofCode : Nat → Option Cond64
  | 0 => some .eq | 1 => some .ne | 2 => some .lt | 3 => some .le | 4 => some .gt | 5 => some .ge
  | 6 => some .ltu | 7 => some .leu | 8 => some .gtu | 9 => some .geu | _ => none

/-- The code of a `PbOp` field (R172). -/
def PbOp.code : PbOp → Nat
  | .and => 0 | .or => 1 | .xor => 2

/-- The `PbOp` that a code stands for; `none` for a reserved code. -/
def PbOp.ofCode : Nat → Option PbOp
  | 0 => some .and | 1 => some .or | 2 => some .xor | _ => none

/-- The code of a `Scale` field (R172). -/
def Scale.code : Scale → Nat
  | .s1 => 0 | .s2 => 1 | .s4 => 2 | .s8 => 3 | .s16 => 4

/-- The `Scale` that a code stands for; `none` for a reserved code. -/
def Scale.ofCode : Nat → Option Scale
  | 0 => some .s1 | 1 => some .s2 | 2 => some .s4 | 3 => some .s8 | 4 => some .s16 | _ => none

/-- The code of a `FTy` field (R176). -/
def FTy.code : FTy → Nat
  | .f32 => 0 | .h2 => 1 | .b2 => 2

/-- The `FTy` that a code stands for; `none` for a reserved code. -/
def FTy.ofCode : Nat → Option FTy
  | 0 => some .f32 | 1 => some .h2 | 2 => some .b2 | _ => none

/-- The code of a `Rnd` field (R154). -/
def Rnd.code : Rnd → Nat
  | .rne => 0 | .rtz => 1 | .rup => 2 | .rdn => 3 | .rna => 4 | .rto => 5

/-- The `Rnd` that a code stands for; `none` for a reserved code. -/
def Rnd.ofCode : Nat → Option Rnd
  | 0 => some .rne | 1 => some .rtz | 2 => some .rup | 3 => some .rdn | 4 => some .rna
  | 5 => some .rto | _ => none

/-- The code of a `FCond` field (R176). -/
def FCond.code : FCond → Nat
  | .eq => 0 | .ne => 1 | .lt => 2 | .le => 3 | .gt => 4 | .ge => 5 | .num => 6 | .nan => 7

/-- The `FCond` that a code stands for; `none` for a reserved code. -/
def FCond.ofCode : Nat → Option FCond
  | 0 => some .eq | 1 => some .ne | 2 => some .lt | 3 => some .le | 4 => some .gt | 5 => some .ge
  | 6 => some .num | 7 => some .nan | _ => none

/-- The code of a `TyCode` field (R179). -/
def TyCode.code : TyCode → Nat
  | .f32 => 0 | .f16 => 1 | .bf16 => 2 | .e4m3 => 3 | .e5m2 => 4 | .e2m1 => 5 | .i8 => 6
  | .n8 => 7 | .i16 => 8 | .n16 => 9 | .i32 => 10 | .n32 => 11 | .i64 => 12 | .n64 => 13
  | .h2 => 14 | .b2 => 15

/-- The `TyCode` that a code stands for; `none` for a reserved code. -/
def TyCode.ofCode : Nat → Option TyCode
  | 0 => some .f32 | 1 => some .f16 | 2 => some .bf16 | 3 => some .e4m3 | 4 => some .e5m2
  | 5 => some .e2m1 | 6 => some .i8 | 7 => some .n8 | 8 => some .i16 | 9 => some .n16
  | 10 => some .i32 | 11 => some .n32 | 12 => some .i64 | 13 => some .n64 | 14 => some .h2
  | 15 => some .b2 | _ => none

/-- The code of a `Space` field (R115). -/
def Space.code : Space → Nat
  | .global => 0 | .stash => 1 | .cstash => 2 | .const => 3

/-- The `Space` that a code stands for; `none` for a reserved code. -/
def Space.ofCode : Nat → Option Space
  | 0 => some .global | 1 => some .stash | 2 => some .cstash | 3 => some .const | _ => none

/-- The code of a `Ord` field (R118). -/
def Ord.code : Ord → Nat
  | .plain => 0 | .acq => 1 | .rel => 2 | .acqrel => 3

/-- The `Ord` that a code stands for; `none` for a reserved code. -/
def Ord.ofCode : Nat → Option Ord
  | 0 => some .plain | 1 => some .acq | 2 => some .rel | 3 => some .acqrel | _ => none

/-- The code of a `Scope` field (R114). -/
def Scope.code : Scope → Nat
  | .device => 0 | .team => 1 | .block => 2 | .cluster => 3 | .die => 4 | .system => 5

/-- The `Scope` that a code stands for; `none` for a reserved code. -/
def Scope.ofCode : Nat → Option Scope
  | 0 => some .device | 1 => some .team | 2 => some .block | 3 => some .cluster | 4 => some .die
  | 5 => some .system | _ => none

/-- The code of a `Cache` field (R115). -/
def Cache.code : Cache → Nat
  | .keep => 0 | .stream => 1 | .noalloc => 2

/-- The `Cache` that a code stands for; `none` for a reserved code. -/
def Cache.ofCode : Nat → Option Cache
  | 0 => some .keep | 1 => some .stream | 2 => some .noalloc | _ => none

/-- The code of a `Sz` field (R115). -/
def Sz.code : Sz → Nat
  | .i32 => 0 | .i8 => 1 | .n8 => 2 | .i16 => 3 | .n16 => 4 | .i64 => 5 | .w4 => 6

/-- The `Sz` that a code stands for; `none` for a reserved code. -/
def Sz.ofCode : Nat → Option Sz
  | 0 => some .i32 | 1 => some .i8 | 2 => some .n8 | 3 => some .i16 | 4 => some .n16
  | 5 => some .i64 | 6 => some .w4 | _ => none

/-- The code of a `AtomOp` field (R119). -/
def AtomOp.code : AtomOp → Nat
  | .add => 0 | .min => 1 | .max => 2 | .and => 3 | .or => 4 | .xor => 5 | .exch => 6 | .cas => 7
  | .inc => 8 | .dec => 9

/-- The `AtomOp` that a code stands for; `none` for a reserved code. -/
def AtomOp.ofCode : Nat → Option AtomOp
  | 0 => some .add | 1 => some .min | 2 => some .max | 3 => some .and | 4 => some .or
  | 5 => some .xor | 6 => some .exch | 7 => some .cas | 8 => some .inc | 9 => some .dec
  | _ => none

/-- The code of a `AtomTy` field (R118). -/
def AtomTy.code : AtomTy → Nat
  | .i32 => 0 | .n32 => 1 | .i64 => 2 | .n64 => 3 | .f32 => 4 | .h2 => 5 | .b2 => 6

/-- The `AtomTy` that a code stands for; `none` for a reserved code. -/
def AtomTy.ofCode : Nat → Option AtomTy
  | 0 => some .i32 | 1 => some .n32 | 2 => some .i64 | 3 => some .n64 | 4 => some .f32
  | 5 => some .h2 | 6 => some .b2 | _ => none

/-- The code of a `IxW` field (R123). -/
def IxW.code : IxW → Nat
  | .ix32 => 0 | .ix8 => 1 | .ix16 => 2 | .ix64 => 3

/-- The `IxW` that a code stands for; `none` for a reserved code. -/
def IxW.ofCode : Nat → Option IxW
  | 0 => some .ix32 | 1 => some .ix8 | 2 => some .ix16 | 3 => some .ix64 | _ => none

/-- The code of a `FtCount` field (R125). -/
def FtCount.code : FtCount → Nat
  | .x1 => 0 | .x2 => 1 | .x4 => 2

/-- The `FtCount` that a code stands for; `none` for a reserved code. -/
def FtCount.ofCode : Nat → Option FtCount
  | 0 => some .x1 | 1 => some .x2 | 2 => some .x4 | _ => none

/-- The code of a `PfVar` field (R131). -/
def PfVar.code : PfVar → Nat
  | .l1 => 0 | .l2 => 1 | .fill => 2

/-- The `PfVar` that a code stands for; `none` for a reserved code. -/
def PfVar.ofCode : Nat → Option PfVar
  | 0 => some .l1 | 1 => some .l2 | 2 => some .fill | _ => none

/-- The code of a `Path` field (R132). -/
def Path.code : Path → Nat
  | .g => 0 | .s => 1 | .c => 2 | .x => 3 | .l => 4 | .m => 5 | .t => 6 | .q => 7

/-- The `Path` that a code stands for; `none` for a reserved code. -/
def Path.ofCode : Nat → Option Path
  | 0 => some .g | 1 => some .s | 2 => some .c | 3 => some .x | 4 => some .l | 5 => some .m
  | 6 => some .t | 7 => some .q | _ => none

/-- The code of a `ShufVar` field (R220). -/
def ShufVar.code : ShufVar → Nat
  | .idx => 0 | .up => 1 | .down => 2 | .xor => 3

/-- The `ShufVar` that a code stands for; `none` for a reserved code. -/
def ShufVar.ofCode : Nat → Option ShufVar
  | 0 => some .idx | 1 => some .up | 2 => some .down | 3 => some .xor | _ => none

/-- The code of a `QsVar` field (R220). -/
def QsVar.code : QsVar → Nat
  | .h => 0 | .v => 1 | .d => 2

/-- The `QsVar` that a code stands for; `none` for a reserved code. -/
def QsVar.ofCode : Nat → Option QsVar
  | 0 => some .h | 1 => some .v | 2 => some .d | _ => none

/-- The code of a `VoteVar` field (R220). -/
def VoteVar.code : VoteVar → Nat
  | .all => 0 | .any => 1 | .uni => 2

/-- The `VoteVar` that a code stands for; `none` for a reserved code. -/
def VoteVar.ofCode : Nat → Option VoteVar
  | 0 => some .all | 1 => some .any | 2 => some .uni | _ => none

/-- The code of a `RedOp` field (R220). -/
def RedOp.code : RedOp → Nat
  | .add => 0 | .min => 1 | .max => 2 | .and => 3 | .or => 4 | .xor => 5

/-- The `RedOp` that a code stands for; `none` for a reserved code. -/
def RedOp.ofCode : Nat → Option RedOp
  | 0 => some .add | 1 => some .min | 2 => some .max | 3 => some .and | 4 => some .or
  | 5 => some .xor | _ => none

/-- The code of a `FRedOp` field (R220). -/
def FRedOp.code : FRedOp → Nat
  | .add => 0 | .min => 1 | .max => 2

/-- The `FRedOp` that a code stands for; `none` for a reserved code. -/
def FRedOp.ofCode : Nat → Option FRedOp
  | 0 => some .add | 1 => some .min | 2 => some .max | _ => none

/-- The code of a `SReg` field (R145). -/
def SReg.code : SReg → Nat
  | .lane => 0 | .quad => 1 | .team => 2 | .part => 3 | .block => 4 | .cluster => 5
  | .launch => 6 | .width => 7 | .wl => 8 | .sweeps => 9 | .tick => 10 | .core => 11 | .die => 12
  | .blane => 13 | .help => 14 | .nblk => 15 | .ev0 => 16 | .ev1 => 17 | .ev2 => 18 | .ev3 => 19
  | .ev4 => 20 | .ev5 => 21 | .ev6 => 22 | .ev7 => 23

/-- The `SReg` that a code stands for; `none` for a reserved code. -/
def SReg.ofCode : Nat → Option SReg
  | 0 => some .lane | 1 => some .quad | 2 => some .team | 3 => some .part | 4 => some .block
  | 5 => some .cluster | 6 => some .launch | 7 => some .width | 8 => some .wl | 9 => some .sweeps
  | 10 => some .tick | 11 => some .core | 12 => some .die | 13 => some .blane | 14 => some .help
  | 15 => some .nblk | 16 => some .ev0 | 17 => some .ev1 | 18 => some .ev2 | 19 => some .ev3
  | 20 => some .ev4 | 21 => some .ev5 | 22 => some .ev6 | 23 => some .ev7 | _ => none

/-- The code of a `MTy` field (R282). -/
def MTy.code : MTy → Nat
  | .f16 => 0 | .bf16 => 1 | .e4m3 => 2 | .e5m2 => 3 | .e2m1 => 4 | .i8 => 5 | .bp => 6

/-- The `MTy` that a code stands for; `none` for a reserved code. -/
def MTy.ofCode : Nat → Option MTy
  | 0 => some .f16 | 1 => some .bf16 | 2 => some .e4m3 | 3 => some .e5m2 | 4 => some .e2m1
  | 5 => some .i8 | 6 => some .bp | _ => none

/-- The code of a `Cen` field (R282). -/
def Cen.code : Cen → Nat
  | .img => 0 | .off => 1 | .on => 2

/-- The `Cen` that a code stands for; `none` for a reserved code. -/
def Cen.ofCode : Nat → Option Cen
  | 0 => some .img | 1 => some .off | 2 => some .on | _ => none

/-- The code of a `HadN` field (R286). -/
def HadN.code : HadN → Nat
  | .n16 => 0 | .n32 => 1 | .n64 => 2

/-- The `HadN` that a code stands for; `none` for a reserved code. -/
def HadN.ofCode : Nat → Option HadN
  | 0 => some .n16 | 1 => some .n32 | 2 => some .n64 | _ => none

/-- The code of a segment field: 0, or log2 of the segment (R221). -/
def Seg.code : Seg → Nat
  | .sgd => 0 | .sg4 => 2 | .sg8 => 3 | .sg16 => 4 | .sg32 => 5 | .sg64 => 6 | .sg128 => 7
  | .sg256 => 8 | .sg512 => 9 | .sg1024 => 10

/-- The segment that a code stands for; codes 1 and 11 to 15 are reserved. -/
def Seg.ofCode : Nat → Option Seg
  | 0 => some .sgd | 2 => some .sg4 | 3 => some .sg8 | 4 => some .sg16 | 5 => some .sg32
  | 6 => some .sg64 | 7 => some .sg128 | 8 => some .sg256 | 9 => some .sg512 | 10 => some .sg1024
  | _ => none

/-- Why a slot is no instruction. Every reason raises the undefined-instruction trap (class 1) at
decode; the team then takes a next state, so a rejection ends no run (safe). -/
inductive Reject
  /-- no chapter assigns the opcode (R17) -/
  | unassigned
  /-- a field holds a value that the instruction's description marks reserved or does not list
  (R17, R154) -/
  | reserved
  /-- the operands or modifiers break the rules of `Instr.wf` (R10, R169) -/
  | illFormed
  /-- a field that the instruction does not use is not 0 (R15) -/
  | unusedField
  /-- a long-form opcode stands in slot 1 (R16) -/
  | longInSlot1
  /-- P is set in slot 1, or in slot 0 of a long form (R14, R16) -/
  | pairBit
  deriving DecidableEq, Repr

/-- The fields of a slot (R14). -/
structure Slot where
  s : Bool
  p : Bool
  op : Nat
  gn : Bool
  gp : Nat
  d : Nat
  a : Nat
  low : Nat
  deriving DecidableEq, Repr

namespace Slot

/-- The B field of a register form. -/
def b (x : Slot) : Nat := bits x.low 20 8
/-- The C field of a register form. -/
def c (x : Slot) : Nat := bits x.low 12 8
/-- The MOD field of a register form. -/
def md (x : Slot) : Nat := bits x.low 0 12

/-- The slot that a 64-bit little-endian word holds (R14). -/
def ofNat (w : Nat) : Slot :=
  { s := bit w 63, p := bit w 62, op := bits w 52 10, gn := bit w 51, gp := bits w 44 7
    d := bits w 36 8, a := bits w 28 8, low := bits w 0 28 }

/-- The 64-bit word of a slot. -/
def toNat (x : Slot) : Nat :=
  b2n x.s * 2 ^ 63 + b2n x.p * 2 ^ 62 + x.op * 2 ^ 52 + b2n x.gn * 2 ^ 51 + x.gp * 2 ^ 44
    + x.d * 2 ^ 36 + x.a * 2 ^ 28 + x.low

/-- The header of an instruction read from the slot. -/
def hdr (x : Slot) : Hdr := ⟨x.s, x.gn, Fin.ofNat 128 x.gp⟩

end Slot

/-! ## The encoder -/

/-- What an instruction puts into its slots beside its header: opcode, D, A and the low 28 bits of
slot 0, and, for a long form, the immediate and the extension fields of slot 1 (R14, R16). -/
structure Enc where
  op : Nat
  d : Nat
  a : Nat
  low : Nat
  imm : Nat
  ext : Nat
  deriving DecidableEq, Repr

/-- A register form: B, C and MOD in the low 28 bits (R14). -/
def rform (op d a b c md : Nat) : Enc := ⟨op, d, a, b * 2 ^ 20 + c * 2 ^ 12 + md, 0, 0⟩
/-- An immediate form (R15). -/
def iform (op d a imm : Nat) : Enc := ⟨op, d, a, imm, 0, 0⟩
/-- A long form (R16). -/
def lform (op d a imm ext : Nat) : Enc := ⟨op, d, a, 0, imm, ext⟩

/-- A predicate source field: the negate bit above the number (R169). -/
def PSrc.code (p : PSrc) : Nat := b2n p.neg * 128 + p.n.val

/-- The predicate source that a field holds. -/
def PSrc.ofNat (x : Nat) : PSrc := ⟨bit x 7, Fin.ofNat 128 x⟩

/-- The barrier field of the barrier instructions: the index, and the kind above it (R242). -/
def BarRef.code (b : BarRef) : Nat := b2n b.cl * 16 + b.ix.val

/-- The barrier that such a field names. -/
def BarRef.ofNat (x : Nat) : BarRef := ⟨bit x 4, Fin.ofNat 16 x⟩

/-- The BE, BIX and BC fields of an engine command, BE in bit 0 (R247, R306). -/
def barCode : Option BarRef → Nat
  | none => 0
  | some b => 1 + 2 * b.ix.val + 32 * b2n b.cl

/-- The barrier operand that the BE, BIX and BC fields hold. -/
def barOf (x : Nat) : Option BarRef :=
  if bit x 0 then some ⟨bit x 5, Fin.ofNat 16 (x / 2)⟩ else none

/-- MOD of the arithmetic instructions (R176). -/
def fmod (ty : FTy) (rnd : Rnd) (sat ftz : Bool) : Nat :=
  ty.code + 8 * rnd.code + 64 * b2n sat + 128 * b2n ftz

/-- MOD of `pack`, `unpk`, `qnt` and `dqn` (R179). -/
def pmod (tc : TyCode) (rnd : Rnd) (sat ftz : Bool) : Nat :=
  tc.code + 16 * rnd.code + 128 * b2n sat + 256 * b2n ftz

/-- MOD of the cross-lane instructions (R221). -/
def xmod (var : Nat) (ty x ftz : Bool) (seg : Seg) : Nat :=
  var + 8 * b2n ty + 16 * b2n x + 64 * b2n ftz + 256 * seg.code

/-- MOD of `atom` and `red` (R118). -/
def amod (op : AtomOp) (ty : AtomTy) (sp : Space) (ord : Ord) : Nat :=
  op.code + 16 * ty.code + 128 * sp.code + 512 * ord.code

/-- MOD of `ldg` and `stg` (R123). -/
def gmod (sz : Sz) (iw : IxW) (ixs : Bool) (scl : Scale) (stash : Bool) (ord : Ord) : Nat :=
  sz.code + 8 * iw.code + 32 * b2n ixs + 64 * scl.code + 512 * b2n stash + 1024 * ord.code

/-- The extension fields of `cpy` and `cpyg` (R247). -/
def cpyExt (lr : Nat) (ls : Bool) (o : CpyOps) : Nat :=
  lr + 2 ^ 8 * b2n ls + 2 ^ 9 * o.dsp.code + 2 ^ 11 * o.ssp.code + 2 ^ 13 * o.ord.code
    + 2 ^ 15 * o.sco.code + 2 ^ 18 * barCode o.bar + 2 ^ 24 * o.ca.code

/-- The immediate of `mma` and `mmap` (R282). -/
def MmaOps.imm (o : MmaOps) : Nat := o.b.val + 2 ^ 8 * o.sa.val + 2 ^ 16 * o.sb.val

/-- The extension fields of `mma` and `mmap` (R282). -/
def MmaOps.ext (o : MmaOps) : Nat :=
  o.ta.code + 2 ^ 4 * o.tb.code + 2 ^ 8 * b2n o.aMem + 2 ^ 9 * b2n o.bMem + 2 ^ 10 * b2n o.sca
    + 2 ^ 11 * b2n o.scb + 2 ^ 12 * b2n o.sel + 2 ^ 14 * o.ka.val + 2 ^ 18 * o.kb.val
    + 2 ^ 22 * o.cen.code + 2 ^ 24 * b2n o.stash + 2 ^ 25 * b2n o.acq + 2 ^ 26 * o.sco.code
    + 2 ^ 29 * o.ca.code

/-- The order code of a form that admits one flag beside `.plain`: 1 `.acq` or 2 `.rel`. -/
def ordFlag (flagged : Bool) (code : Nat) : Nat := if flagged then code else 0

/-- Slot 1 of `acld` (order code 1) and `acst` (order code 2) (R288). -/
def AcForm.enc (op d a : Nat) (f : AcForm) (ordc : Nat) (pair : Bool) : Enc :=
  match f with
  | .mem pr sp ordered sco ca =>
      lform op d a pr.val
        (2 * sp.code + 2 ^ 3 * ordFlag ordered ordc + 2 ^ 5 * sco.code + 2 ^ 8 * ca.code
          + 2 ^ 10 * b2n pair)
  | .reg => lform op d a 0 1

/-- The immediate of `trav` and `tres` (R303). -/
def TravOps.imm (o : TravOps) : Nat := o.ent.val + 2 ^ 12 * o.lea.val + 2 ^ 24 * o.vr.val

/-- The extension fields of `trav` and `tres` (R303). -/
def TravOps.ext (o : TravOps) : Nat :=
  o.prn.val + 2 ^ 12 * o.don.val + 2 ^ 24 * b2n o.acq + 2 ^ 25 * o.sco.code + 2 ^ 28 * b2n o.stash
    + 2 ^ 29 * o.ca.code

/-- The extension fields of `tret` (R305). -/
def tretExt (var : Nat) (rev acq : Bool) (sco : Scope) : Nat :=
  var + 8 * b2n rev + 16 * b2n acq + 32 * sco.code

/-- The extension fields of `tcut` (R306). -/
def TcutOps.ext (o : TcutOps) : Nat :=
  b2n o.stash + 4 * ordFlag o.rel 2 + 16 * o.sco.code + 2 ^ 7 * barCode o.bar + 2 ^ 13 * o.ca.code

/-- The immediate of `tinv` (R339). -/
def TinvOps.imm (o : TinvOps) : Nat := o.sp.val + 2 ^ 8 * o.n.val + 2 ^ 16 * o.vf.val

/-- The encoding of an instruction, from the field tables of each instruction's description;
`none` for an event, which no slot holds. -/
def Instr.enc : Instr → Option Enc
  | .nop _ => some <| iform 0x001 0 0 0
  | .go _ l => some <| iform 0x002 0 0 l
  | .goi _ a => some <| rform 0x003 0 a 0 0 0
  | .gosel _ p l1 l2 => some <| iform 0x004 0 p.code (l1 + 2 ^ 12 * l2)
  | .call _ d f ret => some <| iform 0x005 d 0 (f + 2 ^ 12 * ret)
  | .calli _ d a ret => some <| iform 0x006 d a (2 ^ 12 * ret)
  | .exit _ => some <| iform 0x007 0 0 0
  | .beat _ => some <| iform 0x008 0 0 0
  | .ipref _ l n => some <| iform 0x009 0 0 (l + 2 ^ 12 * n)
  | .trap _ c => some <| iform 0x00A 0 0 c.toNat
  | .brk _ c => some <| iform 0x00B 0 0 c.toNat
  | .split _ d n => some <| iform 0x010 d 0 n
  | .fuse _ d l => some <| iform 0x011 d 0 l
  | .fuset _ d l => some <| iform 0x012 d 0 l
  | .iadd _ d a b ty sat => some <| rform 0x080 d a b 0 (ty.code + 2 * b2n sat)
  | .isub _ d a b ty sat => some <| rform 0x081 d a b 0 (ty.code + 2 * b2n sat)
  | .iadc _ d a b c sub => some <| rform 0x082 d a b c (4 * b2n sub)
  | .imul _ d a b ty sat => some <| rform 0x083 d a b 0 (ty.code + 2 * b2n sat)
  | .imulh _ d a b ty => some <| rform 0x084 d a b 0 ty.code
  | .imad _ d a b c ty sat => some <| rform 0x085 d a b c (ty.code + 2 * b2n sat)
  | .imadw _ d a b c ty => some <| rform 0x086 d a b c ty.code
  | .imin _ d a b ty => some <| rform 0x087 d a b 0 ty.code
  | .imax _ d a b ty => some <| rform 0x088 d a b 0 ty.code
  | .iabs _ d a sat => some <| rform 0x089 d a 0 0 (2 * b2n sat)
  | .ineg _ d a sat => some <| rform 0x08A d a 0 0 (2 * b2n sat)
  | .icmp _ p a b ty c => some <| rform 0x08B p a b 0 (ty.code + 4 * c.code)
  | .sel _ d a b p => some <| rform 0x08C d a b p.code 0
  | .shl _ d a b => some <| rform 0x08D d a b 0 0
  | .shr _ d a b => some <| rform 0x08E d a b 0 0
  | .sha _ d a b => some <| rform 0x08F d a b 0 0
  | .rot _ d a b r => some <| rform 0x090 d a b 0 (4 * b2n r)
  | .fsh _ d a b c l => some <| rform 0x091 d a b c (4 * b2n l)
  | .iand _ d a b => some <| rform 0x092 d a b 0 0
  | .ior _ d a b => some <| rform 0x093 d a b 0 0
  | .ixor _ d a b => some <| rform 0x094 d a b 0 0
  | .lop3 _ d a b c lut => some <| rform 0x095 d a b c lut
  | .popc _ d a => some <| rform 0x096 d a 0 0 0
  | .clz _ d a => some <| rform 0x097 d a 0 0 0
  | .ctz _ d a => some <| rform 0x098 d a 0 0 0
  | .brev _ d a => some <| rform 0x099 d a 0 0 0
  | .bfx _ d a b ty => some <| rform 0x09A d a b 0 ty.code
  | .bfi _ d a b c => some <| rform 0x09B d a b c 0
  | .prmt _ d a b c => some <| rform 0x09C d a b c 0
  | .mov _ d a => some <| rform 0x09D d a 0 0 0
  | .movi _ d imm => some <| iform 0x09E d 0 imm.toNat
  | .movhi _ d a imm => some <| iform 0x09F d a imm.toNat
  | .lea _ d a b ixs scl => some <| rform 0x0A0 d a b 0 (b2n ixs + 2 * scl.code)
  | .add64 _ d a b sub => some <| rform 0x0A1 d a b 0 (b2n sub)
  | .cmp64 _ p a b c => some <| rform 0x0A2 p a b 0 c.code
  | .pbit _ p pa pb op => some <| rform 0x0A3 p pa.code pb.code 0 op.code
  | .fadd _ d a b ty r s f => some <| rform 0x180 d a b 0 (fmod ty r s f)
  | .fsub _ d a b ty r s f => some <| rform 0x181 d a b 0 (fmod ty r s f)
  | .fmul _ d a b ty r s f => some <| rform 0x182 d a b 0 (fmod ty r s f)
  | .ffma _ d a b c ty r s f => some <| rform 0x183 d a b c (fmod ty r s f)
  | .fmin _ d a b ty f => some <| rform 0x184 d a b 0 (fmod ty .rne false f)
  | .fmax _ d a b ty f => some <| rform 0x185 d a b 0 (fmod ty .rne false f)
  | .fcmp _ p a b c f => some <| rform 0x186 p a b 0 (fmod .f32 .rne false f + 2 ^ 8 * c.code)
  | .fclass _ d a ty => some <| rform 0x187 d a 0 0 (fmod ty .rne false false)
  | .frnd _ d a ty r f => some <| rform 0x188 d a 0 0 (fmod ty r false f)
  | .fscale _ d a b ty r s f => some <| rform 0x189 d a b 0 (fmod ty r s f)
  | .frcp _ d a ty r s f => some <| rform 0x18A d a 0 0 (fmod ty r s f)
  | .frsq _ d a ty s f => some <| rform 0x18B d a 0 0 (fmod ty .rne s f)
  | .fsqrt _ d a ty r s f => some <| rform 0x18C d a 0 0 (fmod ty r s f)
  | .fdiv _ d a b ty r s f => some <| rform 0x18D d a b 0 (fmod ty r s f)
  | .fexp2 _ d a ty s f => some <| rform 0x18E d a 0 0 (fmod ty .rne s f)
  | .flog2 _ d a ty s f => some <| rform 0x18F d a 0 0 (fmod ty .rne s f)
  | .fsin _ d a ty s f => some <| rform 0x190 d a 0 0 (fmod ty .rne s f)
  | .fcos _ d a ty s f => some <| rform 0x191 d a 0 0 (fmod ty .rne s f)
  | .ftanh _ d a ty s f => some <| rform 0x192 d a 0 0 (fmod ty .rne s f)
  | .fdot2 _ d a b c ty r s f => some <| rform 0x193 d a b c (fmod ty r s f)
  | .cvt _ d a dst src r s f =>
      some <| rform 0x194 d a (b2n f) 0 (dst.code + 16 * src.code + 256 * r.code + 2048 * b2n s)
  | .pack _ d a tc r s f => some <| rform 0x195 d a 0 0 (pmod tc r s f)
  | .unpk _ d a tc => some <| rform 0x196 d a 0 0 (pmod tc .rne false false)
  | .qnt _ d a b tc r s f => some <| rform 0x197 d a b 0 (pmod tc r s f)
  | .dqn _ d a b tc r f => some <| rform 0x198 d a b 0 (pmod tc r false f)
  | .plx _ d a p => some <| rform 0x199 d a 0 0 p
  | .pli _ d a k => some <| rform 0x19A d a 0 0 k
  | .shuf _ d a b var w seg => some <| rform 0x280 d a b 0 (xmod var.code w false false seg)
  | .shufImm _ d a imm var w seg => some <| rform 0x280 d a imm 0 (xmod var.code w true false seg)
  | .qswap _ d a var w => some <| rform 0x281 d a 0 0 (xmod var.code w false false .sgd)
  | .qbc _ d a n w => some <| rform 0x282 d a 0 0 (xmod n w false false .sgd)
  | .vote _ p pa var seg => some <| rform 0x283 p pa.code 0 0 (xmod var.code false false false seg)
  | .ballot _ d pa seg => some <| rform 0x284 d pa.code 0 0 (xmod 0 false false false seg)
  | .ballotWord _ d pa b seg => some <| rform 0x284 d pa.code b 0 (xmod 1 false false false seg)
  | .matchAny _ d a w seg => some <| rform 0x285 d a 0 0 (xmod 0 w false false seg)
  | .matchAll _ d a p w seg => some <| rform 0x285 d a 0 p (xmod 1 w false false seg)
  | .elect _ p seg => some <| rform 0x286 p 0 0 0 (xmod 0 false false false seg)
  | .ired _ d a op ty seg => some <| rform 0x287 d a 0 0 (xmod op.code (ty = .n32) false false seg)
  | .fred _ d a op f seg => some <| rform 0x288 d a 0 0 (xmod op.code false false f seg)
  | .iscan _ d a op ty e seg => some <| rform 0x289 d a 0 0 (xmod op.code (ty = .n32) e false seg)
  | .fscan _ d a op e f seg => some <| rform 0x28A d a 0 0 (xmod op.code false e f seg)
  | .sread _ d src => some <| rform 0x28B d 0 0 0 src.code
  | .ld _ d a off sz sp acq ca =>
      some <| iform 0x300 d a (off.toNat * 2 ^ 12 +
        (sz.code + 8 * sp.code + 32 * ordFlag acq 1 + 128 * ca.code))
  | .st _ d a off sz sp rel ca =>
      some <| iform 0x301 d a (off.toNat * 2 ^ 12 +
        (sz.code + 8 * sp.code + 32 * ordFlag rel 2 + 128 * ca.code))
  | .atom _ d a b c op ty r sp ord =>
      some <| rform 0x302 d a b (if op = .cas then c else r.code) (amod op ty sp ord)
  | .red _ a b op ty r sp ord => some <| rform 0x303 0 a b r.code (amod op ty sp ord)
  | .ldg _ d a b sco sz iw ixs scl sh ord =>
      some <| rform 0x304 d a b sco.code (gmod sz iw ixs scl sh ord)
  | .stg _ d a b sco sz iw ixs scl sh ord =>
      some <| rform 0x305 d a b sco.code (gmod sz iw ixs scl sh ord)
  | .ldft _ d a b t16 cnt => some <| rform 0x306 d a b 0 (b2n t16 + 2 * cnt.code)
  | .smap _ d a b c => some <| rform 0x308 d a b c 0
  | .sunmap _ d a => some <| rform 0x309 d a 0 0 0
  | .sflush _ a b all => some <| rform 0x30A 0 a b 0 (b2n all)
  | .sdrop _ a b all => some <| rform 0x30B 0 a b 0 (b2n all)
  | .pfd _ a off var => some <| iform 0x30C 0 a (off.toNat * 2 ^ 12 + var.code)
  | .waitc _ a path => some <| rform 0x310 0 a 0 0 path.code
  | .cntq _ d path => some <| rform 0x311 d 0 0 0 path.code
  | .fence _ sco => some <| rform 0x312 0 0 0 0 sco.code
  | .fenceSys _ => some <| rform 0x312 0 0 0 0 5
  | .bar _ b l => some <| iform 0x340 0 0 (l + 2 ^ 12 * b.code)
  | .barr _ d b => some <| iform 0x341 d 0 (2 ^ 12 * b.code)
  | .barw _ a b l => some <| iform 0x342 0 a (l + 2 ^ 12 * b.code)
  | .barinit _ a b => some <| iform 0x343 0 a (2 ^ 12 * b.code)
  | .cpy _ d a len o =>
      some <| match len with
        | .imm n => lform 0x390 d a n.toNat (cpyExt 0 false o)
        | .reg r => lform 0x390 d a 0 (cpyExt r true o)
  | .cpyg _ d a rowb ix o => some <| lform 0x391 d a rowb.toNat (cpyExt 0 ix o)
  | .plset _ a n => some <| iform 0x350 0 a n
  | .plcan _ => some <| iform 0x351 0 0 0
  | .plrep _ d => some <| iform 0x352 d 0 0
  | .launch _ d a => some <| rform 0x353 d a 0 0 0
  | .mma _ tag a o => some <| lform 0x380 tag a o.imm o.ext
  | .mmap _ tag a o => some <| lform 0x381 tag a o.imm o.ext
  | .had _ d a n g norm => some <| lform 0x382 d a 0 (n.code + 4 * g.code + 16 * b2n norm)
  | .acz _ tag pair => some <| lform 0x383 tag 0 0 (b2n pair)
  | .acrel _ tag => some <| lform 0x386 tag 0 0 0
  | .acrelAll _ => some <| lform 0x386 0 0 0 1
  | .acld _ tag a f pair => some <| f.enc 0x384 tag a 1 pair
  | .acst _ tag a f => some <| f.enc 0x385 tag a 2 false
  | .acstat _ d tag clr => some <| lform 0x387 d tag 0 (b2n clr)
  | .trav _ d a o => some <| lform 0x398 d a o.imm o.ext
  | .tretDesc _ a rev acq sco => some <| lform 0x399 0 a 0 (tretExt 1 rev acq sco)
  | .tretSkip _ acq sco => some <| lform 0x399 0 0 0 (tretExt 2 false acq sco)
  | .tretCont _ acq sco => some <| lform 0x399 0 0 0 (tretExt 0 false acq sco)
  | .tretStop _ acq sco => some <| lform 0x399 0 0 0 (tretExt 3 false acq sco)
  | .tcut _ d a o => some <| lform 0x39A d a 0 o.ext
  | .tres _ d a o => some <| lform 0x39B d a o.imm o.ext
  | .tstat _ d a => some <| lform 0x39C d a 0 0
  | .gpost _ d a qr ord sco => some <| lform 0x3A0 d a qr (ord.code + 4 * sco.code)
  | .gpoll _ d qr => some <| lform 0x3A1 d 0 qr 0
  | .sys _ d code => some <| lform 0x3A8 d 0 code.toNat 0
  | .eretAgain _ d a b => some <| lform 0x3A9 d a b 0
  | .eretNext _ d a b => some <| lform 0x3A9 d a b 1
  | .eretZero _ d a b => some <| lform 0x3A9 d a b 2
  | .eretKill _ d a b => some <| lform 0x3A9 d a b 3
  | .csrr _ d csr vf => some <| lform 0x3AA d 0 (csr + 2 ^ 12 * vf) 0
  | .csrw _ a csr vf => some <| lform 0x3AB 0 a (csr + 2 ^ 12 * vf) 0
  | .tinvVa _ o => some <| lform 0x3AC 0 o.a o.imm 0
  | .tinvSp _ o => some <| lform 0x3AC 0 o.a o.imm 1
  | .tinvFn _ o => some <| lform 0x3AC 0 o.a o.imm 2
  | .tinvIpa _ o => some <| lform 0x3AC 0 o.a o.imm 3
  | .tmark _ a code => some <| lform 0x3AD 0 a code.toNat 0
  | _ => none

/-- The header of an instruction a team issues; an event has none, and the field reads as always
and unsettled. -/
def Instr.hdr : Instr → Hdr
  | .nop h | .go h .. | .goi h .. | .gosel h .. | .call h .. | .calli h .. | .exit h | .beat h
  | .ipref h .. | .trap h .. | .brk h .. | .split h .. | .fuse h .. | .fuset h .. | .iadd h ..
  | .isub h .. | .iadc h .. | .imul h .. | .imulh h .. | .imad h .. | .imadw h .. | .imin h ..
  | .imax h .. | .iabs h .. | .ineg h .. | .icmp h .. | .sel h .. | .shl h .. | .shr h ..
  | .sha h .. | .rot h .. | .fsh h .. | .iand h .. | .ior h .. | .ixor h .. | .lop3 h ..
  | .popc h .. | .clz h .. | .ctz h .. | .brev h .. | .bfx h .. | .bfi h .. | .prmt h ..
  | .mov h .. | .movi h .. | .movhi h .. | .lea h .. | .add64 h .. | .cmp64 h .. | .pbit h ..
  | .fadd h .. | .fsub h .. | .fmul h .. | .ffma h .. | .fmin h .. | .fmax h .. | .fcmp h ..
  | .fclass h .. | .frnd h .. | .fscale h .. | .frcp h .. | .frsq h .. | .fsqrt h ..
  | .fdiv h .. | .fexp2 h .. | .flog2 h .. | .fsin h .. | .fcos h .. | .ftanh h ..
  | .fdot2 h .. | .cvt h .. | .pack h .. | .unpk h .. | .qnt h .. | .dqn h .. | .plx h ..
  | .pli h .. | .shuf h .. | .shufImm h .. | .qswap h .. | .qbc h .. | .vote h ..
  | .ballot h .. | .ballotWord h .. | .matchAny h .. | .matchAll h .. | .elect h ..
  | .ired h .. | .fred h .. | .iscan h .. | .fscan h .. | .sread h .. | .ld h .. | .st h ..
  | .atom h .. | .red h .. | .ldg h .. | .stg h .. | .ldft h .. | .smap h .. | .sunmap h ..
  | .sflush h .. | .sdrop h .. | .pfd h .. | .waitc h .. | .cntq h .. | .fence h ..
  | .fenceSys h | .bar h .. | .barr h .. | .barw h .. | .barinit h .. | .cpy h .. | .cpyg h ..
  | .plset h .. | .plcan h | .plrep h .. | .launch h .. | .mma h .. | .mmap h .. | .had h ..
  | .acz h .. | .acrel h .. | .acrelAll h | .acld h .. | .acst h .. | .acstat h .. | .trav h ..
  | .tretDesc h .. | .tretSkip h .. | .tretCont h .. | .tretStop h .. | .tcut h .. | .tres h ..
  | .tstat h .. | .gpost h .. | .gpoll h .. | .sys h .. | .eretAgain h .. | .eretNext h ..
  | .eretZero h .. | .eretKill h .. | .csrr h .. | .csrw h .. | .tinvVa h .. | .tinvSp h ..
  | .tinvFn h .. | .tinvIpa h .. | .tmark h .. => h
  | _ => ⟨false, false, 0⟩

/-- The one number of an instruction: slot 0 in bits 63 to 0 and, for a long form, slot 1 above it
(R14, R16). -/
def Enc.toNat (h : Hdr) (e : Enc) : Nat :=
  Slot.toNat ⟨h.s, false, e.op, h.gn, h.gp, e.d, e.a, e.low⟩ + 2 ^ 64 * (e.imm + 2 ^ 32 * e.ext)

/-- The words of an instruction, as one number; 0 for an event. -/
def encode (i : Instr) : Nat :=
  match i.enc with
  | some e => e.toNat i.hdr
  | none => 0

/-- A long form occupies a whole fetch word (R16). -/
def Instr.isLong (i : Instr) : Bool :=
  match i.enc with
  | some e => 0x380 ≤ e.op
  | none => false

/-! ## The decoder -/

/-- A reserved code rejects the slot. -/
def need {α : Type} (x : Option α) : Except Reject α :=
  match x with
  | some a => .ok a
  | none => .error .reserved

/-- A register field. -/
def rg (n : Nat) : Reg := Fin.ofNat 256 n
/-- A predicate destination field. -/
def pr (n : Nat) : Pred := Fin.ofNat 128 n
/-- A label field. -/
def lb (n : Nat) : Lbl := Fin.ofNat 4096 n

/-- The control class (R199, R214). -/
def decodeControl (x : Slot) : Except Reject Instr :=
  let h := x.hdr
  match x.op with
  | 0x001 => .ok (.nop h)
  | 0x002 => .ok (.go h (lb x.low))
  | 0x003 => .ok (.goi h (rg x.a))
  | 0x004 => .ok (.gosel h (.ofNat x.a) (lb x.low) (lb (x.low / 2 ^ 12)))
  | 0x005 => .ok (.call h (rg x.d) (lb x.low) (lb (x.low / 2 ^ 12)))
  | 0x006 => .ok (.calli h (rg x.d) (rg x.a) (lb (x.low / 2 ^ 12)))
  | 0x007 => .ok (.exit h)
  | 0x008 => .ok (.beat h)
  | 0x009 => .ok (.ipref h (lb x.low) (Fin.ofNat 16 (x.low / 2 ^ 12)))
  | 0x00A => .ok (.trap h (.ofNat 16 x.low))
  | 0x00B => .ok (.brk h (.ofNat 16 x.low))
  | 0x010 => .ok (.split h (rg x.d) (Fin.ofNat 16 x.low))
  | 0x011 => .ok (.fuse h (rg x.d) (lb x.low))
  | 0x012 => .ok (.fuset h (rg x.d) (lb x.low))
  | _ => .error .unassigned

/-- The integer and logic class (R172). -/
def decodeInt (x : Slot) : Except Reject Instr :=
  let h := x.hdr
  let d := rg x.d
  let a := rg x.a
  let b := rg x.b
  let c := rg x.c
  let m := x.md
  let ty := if bit m 0 then ITy.n32 else ITy.i32
  let sat := bit m 1
  match x.op with
  | 0x080 => .ok (.iadd h d a b ty sat)
  | 0x081 => .ok (.isub h d a b ty sat)
  | 0x082 => .ok (.iadc h d a b (pr x.c) (bit m 2))
  | 0x083 => .ok (.imul h d a b ty sat)
  | 0x084 => .ok (.imulh h d a b ty)
  | 0x085 => .ok (.imad h d a b c ty sat)
  | 0x086 => .ok (.imadw h d a b c ty)
  | 0x087 => .ok (.imin h d a b ty)
  | 0x088 => .ok (.imax h d a b ty)
  | 0x089 => .ok (.iabs h d a sat)
  | 0x08A => .ok (.ineg h d a sat)
  | 0x08B => do return .icmp h (pr x.d) a b ty (← need (Cond.ofCode (m / 4)))
  | 0x08C => .ok (.sel h d a b (.ofNat x.c))
  | 0x08D => .ok (.shl h d a b)
  | 0x08E => .ok (.shr h d a b)
  | 0x08F => .ok (.sha h d a b)
  | 0x090 => .ok (.rot h d a b (bit m 2))
  | 0x091 => .ok (.fsh h d a b c (bit m 2))
  | 0x092 => .ok (.iand h d a b)
  | 0x093 => .ok (.ior h d a b)
  | 0x094 => .ok (.ixor h d a b)
  | 0x095 => .ok (.lop3 h d a b c (Fin.ofNat 256 m))
  | 0x096 => .ok (.popc h d a)
  | 0x097 => .ok (.clz h d a)
  | 0x098 => .ok (.ctz h d a)
  | 0x099 => .ok (.brev h d a)
  | 0x09A => .ok (.bfx h d a b ty)
  | 0x09B => .ok (.bfi h d a b c)
  | 0x09C => .ok (.prmt h d a b c)
  | 0x09D => .ok (.mov h d a)
  | 0x09E => .ok (.movi h d (.ofNat 28 x.low))
  | 0x09F => .ok (.movhi h d a (.ofNat 16 x.low))
  | 0x0A0 => do return .lea h d a b (bit m 0) (← need (Scale.ofCode (m / 2)))
  | 0x0A1 => .ok (.add64 h d a b (bit m 0))
  | 0x0A2 => do return .cmp64 h (pr x.d) a b (← need (Cond64.ofCode m))
  | 0x0A3 => do return .pbit h (pr x.d) (.ofNat x.a) (.ofNat x.b) (← need (PbOp.ofCode m))
  | _ => .error .unassigned

/-- The float arithmetic instructions (R176). -/
def decodeFloat (x : Slot) : Except Reject Instr := do
  let h := x.hdr
  let d := rg x.d
  let a := rg x.a
  let b := rg x.b
  let c := rg x.c
  let m := x.md
  let ty ← need (FTy.ofCode (bits m 0 3))
  let r ← need (Rnd.ofCode (bits m 3 3))
  let s := bit m 6
  let f := bit m 7
  match x.op with
  | 0x180 => return .fadd h d a b ty r s f
  | 0x181 => return .fsub h d a b ty r s f
  | 0x182 => return .fmul h d a b ty r s f
  | 0x183 => return .ffma h d a b c ty r s f
  | 0x184 => return .fmin h d a b ty f
  | 0x185 => return .fmax h d a b ty f
  | 0x186 => return .fcmp h (pr x.d) a b (← need (FCond.ofCode (bits m 8 4))) f
  | 0x187 => return .fclass h d a ty
  | 0x188 => return .frnd h d a ty r f
  | 0x189 => return .fscale h d a b ty r s f
  | 0x18A => return .frcp h d a ty r s f
  | 0x18B => return .frsq h d a ty s f
  | 0x18C => return .fsqrt h d a ty r s f
  | 0x18D => return .fdiv h d a b ty r s f
  | 0x18E => return .fexp2 h d a ty s f
  | 0x18F => return .flog2 h d a ty s f
  | 0x190 => return .fsin h d a ty s f
  | 0x191 => return .fcos h d a ty s f
  | 0x192 => return .ftanh h d a ty s f
  | 0x193 => return .fdot2 h d a b c ty r s f
  | _ => .error .unassigned

/-- The conversion instructions (R179 to R183). -/
def decodeConvert (x : Slot) : Except Reject Instr :=
  let h := x.hdr
  let d := rg x.d
  let a := rg x.a
  let b := rg x.b
  let m := x.md
  match x.op with
  | 0x194 => do
      return .cvt h d a (← need (TyCode.ofCode (bits m 0 4))) (← need (TyCode.ofCode (bits m 4 4)))
        (← need (Rnd.ofCode (bits m 8 3))) (bit m 11) (bit x.b 0)
  | 0x195 => do
      return .pack h d a (← need (TyCode.ofCode (bits m 0 4))) (← need (Rnd.ofCode (bits m 4 3)))
        (bit m 7) (bit m 8)
  | 0x196 => do return .unpk h d a (← need (TyCode.ofCode (bits m 0 4)))
  | 0x197 => do
      return .qnt h d a b (← need (TyCode.ofCode (bits m 0 4))) (← need (Rnd.ofCode (bits m 4 3)))
        (bit m 7) (bit m 8)
  | 0x198 => do
      return .dqn h d a b (← need (TyCode.ofCode (bits m 0 4))) (← need (Rnd.ofCode (bits m 4 3)))
        (bit m 8)
  | 0x199 => .ok (.plx h d a (Fin.ofNat 16 m))
  | 0x19A => .ok (.pli h d a (Fin.ofNat 16 m))
  | _ => .error .unassigned

/-- The cross-lane class (R220). -/
def decodeCross (x : Slot) : Except Reject Instr := do
  let h := x.hdr
  let d := rg x.d
  let a := rg x.a
  let m := x.md
  let var := bits m 0 3
  let w := bit m 3
  let it := if w then ITy.n32 else ITy.i32
  if x.op = 0x28B then
    return .sread h d (← need (SReg.ofCode (bits m 0 8)))
  let seg ← need (Seg.ofCode (bits m 8 4))
  match x.op with
  | 0x280 =>
      let v ← need (ShufVar.ofCode var)
      if bit m 4 then return .shufImm h d a (Fin.ofNat 256 x.b) v w seg
      else return .shuf h d a (rg x.b) v w seg
  | 0x281 => return .qswap h d a (← need (QsVar.ofCode var)) w
  | 0x282 => return .qbc h d a (Fin.ofNat 4 var) w
  | 0x283 => return .vote h (pr x.d) (.ofNat x.a) (← need (VoteVar.ofCode var)) seg
  | 0x284 =>
      match var with
      | 0 => return .ballot h d (.ofNat x.a) seg
      | 1 => return .ballotWord h d (.ofNat x.a) (rg x.b) seg
      | _ => .error .reserved
  | 0x285 =>
      match var with
      | 0 => return .matchAny h d a w seg
      | 1 => return .matchAll h d a (pr x.c) w seg
      | _ => .error .reserved
  | 0x286 => return .elect h (pr x.d) seg
  | 0x287 => return .ired h d a (← need (RedOp.ofCode var)) it seg
  | 0x288 => return .fred h d a (← need (FRedOp.ofCode var)) (bit m 6) seg
  | 0x289 => return .iscan h d a (← need (RedOp.ofCode var)) it (bit m 4) seg
  | 0x28A => return .fscan h d a (← need (FRedOp.ofCode var)) (bit m 4) (bit m 6) seg
  | _ => .error .unassigned

/-- The order field of a form that admits one flag of code `code` beside `.plain`. -/
def ordOf (x code : Nat) : Except Reject Bool :=
  if x = 0 then .ok false else if x = code then .ok true else .error .reserved

/-- The memory and synchronisation class (R112, R242, R263, R264). -/
def decodeMem (x : Slot) : Except Reject Instr :=
  let h := x.hdr
  let d := rg x.d
  let a := rg x.a
  let b := rg x.b
  let m := x.md
  let off : BitVec 16 := .ofNat 16 (x.low / 2 ^ 12)
  let bar : BarRef := .ofNat (x.low / 2 ^ 12)
  match x.op with
  | 0x300 => do
      return .ld h d a off (← need (Sz.ofCode (bits m 0 3))) (← need (Space.ofCode (bits m 3 2)))
        (← ordOf (bits m 5 2) 1) (← need (Cache.ofCode (bits m 7 2)))
  | 0x301 => do
      return .st h d a off (← need (Sz.ofCode (bits m 0 3))) (← need (Space.ofCode (bits m 3 2)))
        (← ordOf (bits m 5 2) 2) (← need (Cache.ofCode (bits m 7 2)))
  | 0x302 => do
      let op ← need (AtomOp.ofCode (bits m 0 4))
      let ty ← need (AtomTy.ofCode (bits m 4 3))
      let r ← if op = .cas then .ok .rne else need (Rnd.ofCode (bits x.c 0 3))
      return .atom h d a b (if op = .cas then rg x.c else 0) op ty r
        (← need (Space.ofCode (bits m 7 2))) (← need (Ord.ofCode (bits m 9 2)))
  | 0x303 => do
      return .red h a b (← need (AtomOp.ofCode (bits m 0 4))) (← need (AtomTy.ofCode (bits m 4 3)))
        (← need (Rnd.ofCode (bits x.c 0 3))) (← need (Space.ofCode (bits m 7 2)))
        (← need (Ord.ofCode (bits m 9 2)))
  | 0x304 => do
      return .ldg h d a b (← need (Scope.ofCode (bits x.c 0 3))) (← need (Sz.ofCode (bits m 0 3)))
        (← need (IxW.ofCode (bits m 3 2))) (bit m 5) (← need (Scale.ofCode (bits m 6 3)))
        (bit m 9) (← need (Ord.ofCode (bits m 10 2)))
  | 0x305 => do
      return .stg h d a b (← need (Scope.ofCode (bits x.c 0 3))) (← need (Sz.ofCode (bits m 0 3)))
        (← need (IxW.ofCode (bits m 3 2))) (bit m 5) (← need (Scale.ofCode (bits m 6 3)))
        (bit m 9) (← need (Ord.ofCode (bits m 10 2)))
  | 0x306 => do return .ldft h d a b (bit m 0) (← need (FtCount.ofCode (bits m 1 2)))
  | 0x308 => .ok (.smap h d a b (rg x.c))
  | 0x309 => .ok (.sunmap h d a)
  | 0x30A => .ok (.sflush h a b (bit m 0))
  | 0x30B => .ok (.sdrop h a b (bit m 0))
  | 0x30C => do return .pfd h a off (← need (PfVar.ofCode (bits m 0 2)))
  | 0x310 => do return .waitc h a (← need (Path.ofCode (bits m 0 3)))
  | 0x311 => do return .cntq h d (← need (Path.ofCode (bits m 0 3)))
  | 0x312 => do
      match ← need (Scope.ofCode (bits m 0 3)) with
      | .system => return .fenceSys h
      | sco => return .fence h sco
  | 0x340 => .ok (.bar h bar (lb x.low))
  | 0x341 => .ok (.barr h d bar)
  | 0x342 => .ok (.barw h a bar (lb x.low))
  | 0x343 => .ok (.barinit h a bar)
  | 0x350 => .ok (.plset h a (lb x.low))
  | 0x351 => .ok (.plcan h)
  | 0x352 => .ok (.plrep h d)
  | 0x353 => .ok (.launch h d a)
  | _ => .error .unassigned

/-- The fields of `cpy` and `cpyg` (R247). -/
def decodeCpyOps (e : Nat) : Except Reject CpyOps := do
  return ⟨← need (Space.ofCode (bits e 9 2)), ← need (Space.ofCode (bits e 11 2)),
    ← need (Ord.ofCode (bits e 13 2)), ← need (Scope.ofCode (bits e 15 3)), barOf (bits e 18 6),
    ← need (Cache.ofCode (bits e 24 2))⟩

/-- Slot 1 of `mma` and `mmap` (R282). -/
def decodeMma (imm e : Nat) : Except Reject MmaOps := do
  return { b := rg imm, sa := rg (imm / 2 ^ 8), sb := rg (imm / 2 ^ 16)
           ta := ← need (MTy.ofCode (bits e 0 4)), tb := ← need (MTy.ofCode (bits e 4 4))
           aMem := bit e 8, bMem := bit e 9, sca := bit e 10, scb := bit e 11, sel := bit e 12
           ka := Fin.ofNat 16 (e / 2 ^ 14), kb := Fin.ofNat 16 (e / 2 ^ 18)
           cen := ← need (Cen.ofCode (bits e 22 2)), stash := bit e 24, acq := bit e 25
           sco := ← need (Scope.ofCode (bits e 26 3)), ca := ← need (Cache.ofCode (bits e 29 2)) }

/-- Slot 1 of `acld` and `acst` (R288). -/
def decodeAcForm (imm e ordc : Nat) : Except Reject AcForm := do
  if bit e 0 then return .reg
  return .mem (rg imm) (← need (Space.ofCode (bits e 1 2))) (← ordOf (bits e 3 2) ordc)
    (← need (Scope.ofCode (bits e 5 3))) (← need (Cache.ofCode (bits e 8 2)))

/-- Slot 1 of `trav` and `tres` (R303). -/
def decodeTrav (imm e : Nat) : Except Reject TravOps := do
  return { ent := lb imm, lea := lb (imm / 2 ^ 12), vr := rg (imm / 2 ^ 24), prn := lb e
           don := lb (e / 2 ^ 12), acq := bit e 24, sco := ← need (Scope.ofCode (bits e 25 3))
           stash := bit e 28, ca := ← need (Cache.ofCode (bits e 29 2)) }

/-- The long forms (R16): slot 0 and the immediate and extension fields of slot 1. Operands of the common `tinv` encoding
for which R345 gives a variant no use (A, N and S) may be other than 0, as any register that R339 allows (R15) (DEDUCED,
log 109). -/
def decodeLong (x : Slot) (imm e : Nat) : Except Reject Instr :=
  let h := x.hdr
  let d := rg x.d
  let a := rg x.a
  let tag : Fin 16 := Fin.ofNat 16 x.d
  match x.op with
  | 0x380 => do return .mma h tag a (← decodeMma imm e)
  | 0x381 => do return .mmap h tag a (← decodeMma imm e)
  | 0x382 => do
      return .had h d a (← need (HadN.ofCode (bits e 0 2))) (← need (HadN.ofCode (bits e 2 2)))
        (bit e 4)
  | 0x383 => .ok (.acz h tag (bit e 0))
  | 0x384 => do return .acld h tag a (← decodeAcForm imm e 1) (bit e 10)
  | 0x385 => do return .acst h tag a (← decodeAcForm imm e 2)
  | 0x386 => .ok (if bit e 0 then .acrelAll h else .acrel h tag)
  | 0x387 => .ok (.acstat h d (Fin.ofNat 16 x.a) (bit e 0))
  | 0x390 => do
      return .cpy h d a (if bit e 8 then .reg (rg e) else .imm (.ofNat 32 imm)) (← decodeCpyOps e)
  | 0x391 => do return .cpyg h d a (.ofNat 32 imm) (bit e 8) (← decodeCpyOps e)
  | 0x398 => do return .trav h d a (← decodeTrav imm e)
  | 0x399 => do
      let sco ← need (Scope.ofCode (bits e 5 3))
      match bits e 0 3 with
      | 0 => return .tretCont h (bit e 4) sco
      | 1 => return .tretDesc h a (bit e 3) (bit e 4) sco
      | 2 => return .tretSkip h (bit e 4) sco
      | 3 => return .tretStop h (bit e 4) sco
      | _ => .error .reserved
  | 0x39A => do
      return .tcut h d a ⟨bit e 0, ← ordOf (bits e 2 2) 2, ← need (Scope.ofCode (bits e 4 3)),
        barOf (bits e 7 6), ← need (Cache.ofCode (bits e 13 2))⟩
  | 0x39B => do return .tres h d a (← decodeTrav imm e)
  | 0x39C => .ok (.tstat h d a)
  | 0x3A0 => do
      return .gpost h d a (rg imm) (← need (Ord.ofCode (bits e 0 2)))
        (← need (Scope.ofCode (bits e 2 3)))
  | 0x3A1 => .ok (.gpoll h d (rg imm))
  | 0x3A8 => .ok (.sys h d (.ofNat 16 imm))
  | 0x3A9 =>
      match bits e 0 3 with
      | 0 => .ok (.eretAgain h d a (rg imm))
      | 1 => .ok (.eretNext h d a (rg imm))
      | 2 => .ok (.eretZero h d a (rg imm))
      | 3 => .ok (.eretKill h d a (rg imm))
      | _ => .error .reserved
  | 0x3AA => .ok (.csrr h d (Fin.ofNat 4096 imm) (Fin.ofNat 64 (imm / 2 ^ 12)))
  | 0x3AB => .ok (.csrw h a (Fin.ofNat 4096 imm) (Fin.ofNat 64 (imm / 2 ^ 12)))
  | 0x3AC =>
      let o : TinvOps := ⟨a, rg imm, rg (imm / 2 ^ 8), Fin.ofNat 64 (imm / 2 ^ 16)⟩
      match bits e 0 3 with
      | 0 => .ok (.tinvVa h o)
      | 1 => .ok (.tinvSp h o)
      | 2 => .ok (.tinvFn h o)
      | 3 => .ok (.tinvIpa h o)
      | _ => .error .reserved
  | 0x3AD => .ok (.tmark h a (.ofNat 16 imm))
  | _ => .error .unassigned

/-- The instruction the fields spell, before the checks of `decodeNat`. -/
def decodeFields (x : Slot) (imm ext : Nat) : Except Reject Instr :=
  if x.op < 0x080 then decodeControl x
  else if x.op < 0x180 then decodeInt x
  else if x.op < 0x194 then decodeFloat x
  else if x.op < 0x280 then decodeConvert x
  else if x.op < 0x300 then decodeCross x
  else if x.op < 0x380 then decodeMem x
  else decodeLong x imm ext

/-- The instruction whose words are the number `w`: slot 0 in bits 63 to 0, and slot 1 above it for
a long form. The instruction must be well formed, and it must encode to `w` again, so a bit set in
a field that it does not use rejects it (R15). P is no part of the number. -/
def decodeNat (w : Nat) : Except Reject Instr := do
  let i ← decodeFields (Slot.ofNat w) (bits w 64 32) (bits w 96 32)
  if !i.wf then .error .illFormed
  else if encode i ≠ w then .error .unusedField
  else return i

/-- What a fetch word holds at a slot boundary (R14 to R16). -/
inductive Fetched
  /-- one instruction; its slots are passed over together -/
  | one (i : Instr)
  /-- a pair: slot 0 and slot 1 -/
  | pair (i j : Instr)
  deriving DecidableEq, Repr

/-- Clear the P bit of a slot word. -/
def clearP (w : Nat) : Nat := w - b2n (bit w 62) * 2 ^ 62

/-- Decode a fetch word from slot 1 on, or from slot 0 on. -/
def decodeFetch (w : Nat) (second : Bool) : Except Reject Fetched :=
  let w0 := bits w 0 64
  let w1 := bits w 64 64
  if second then
    if 0x380 ≤ (Slot.ofNat w1).op then .error .longInSlot1
    else if bit w1 62 then .error .pairBit
    else do return .one (← decodeNat w1)
  else if 0x380 ≤ (Slot.ofNat w0).op then
    if bit w0 62 then .error .pairBit
    else do return .one (← decodeNat (bits w 0 128))
  else if bit w0 62 then
    if 0x380 ≤ (Slot.ofNat w1).op then .error .longInSlot1
    else if bit w1 62 then .error .pairBit
    else do return .pair (← decodeNat (clearP w0)) (← decodeNat w1)
  else do return .one (← decodeNat w0)

/-- The host's reading of a table word: the instruction in slot 0 of a fetch word whose bits are
`w`, the bits above the row's being 0. -/
def decodeTableWord (nbits w : Nat) : Option Instr :=
  match decodeFetch (w % 2 ^ nbits) false with
  | .ok (.one i) => some i
  | _ => none

end Sys2Proof
end

