-- ==== Sys2Proof/Config.lean ====
section
/-! DEFINITION. What the spec leaves open for the machine, as constants with no body.

A constant here has no value that Lean can see. A statement that is proved of the model is proved
for every value of it. The log entries that name these constants are 2 and 3, both
DESIGN CHOICE: a statement that holds for every value of them is safe. -/

namespace Sys2Proof.Config

/-- Where the spec lets a read yield either of two values, the bit that decides. The first argument
is the state's fresh counter, the second names the read (DESIGN CHOICE, log 2). -/
opaque choose : Nat → Nat → Bool

/-- A byte that the host window or the guest's memory answers to a read: the memory of another agent
(R74, R91). The first argument is the fresh counter, the second the physical address (DESIGN CHOICE, log 2). -/
opaque windowByte : Nat → Nat → BitVec 8

/-- The status that the guest gives a packet which it completes when asked to quiesce (R318, R322): the
guest is another agent. The argument is the fresh counter (DESIGN CHOICE, log 2). -/
opaque guestStatus : Nat → Nat

/-- The ticks that a sampled instruction queued, and its last lane: timing, which the spec does not
fix (R371). The arguments are the fresh counter and the field's number. -/
opaque sampleField : Nat → Nat → Nat

/-- The L2 set of a 256-byte line, from 0 to 383 (R69 gives the slice and leaves the set open). -/
opaque l2SetRaw : Nat → Nat

/-- The L2 set, kept below the number of sets. -/
def l2Set (line : Nat) : Nat := l2SetRaw line % 384

/-- The unique secret of a die (R363). -/
opaque uds : Nat → Nat

/-- The vendor's public key held in the boot ROM (R363). -/
opaque vendorKey : Nat

/-- The owner's public key in the fuses, when one is fused (R364). -/
opaque ownerKey : Option Nat

/-- The image of a boot layer on a die, as its bytes; `none` when it cannot be read (R363, R365). -/
opaque bootImage : Nat → Nat → Option (List Nat)

/-- The signature that comes with a boot layer's image (R364). -/
opaque bootSignature : Nat → Nat → Nat

/-- The key that layer 2 holds for layer 3 of a function (R364). -/
opaque functionKey : Nat → Nat

/-- Where the loader of a boot layer puts its image, by die and layer (R363 gives no address). -/
opaque bootBase : Nat → Nat → Nat

/-- The certificate chain of slot 0, as bytes: the device certificate over the public key(1), and the certificate of
the public key(2) with the signature of key(1) (R364, R367). The spec names the chain and not its form. -/
opaque certificateChain : Nat → Nat → Nat → List Nat

/-- The die whose junction passes its trip temperature: the event names none (R381). The argument is the fresh counter
(DESIGN CHOICE, log 88). -/
opaque tripDie : Nat → Nat

/-- The lanes that a link trains with, and the capacity in GiB of the memory behind a CXL port: what
stands at the other end of the link decides (R73, R315, R378). The arguments are the fresh counter and
the link or port. -/
opaque linkWidth : Nat → Nat → Nat
opaque cxlCapacity : Nat → Nat → Nat

end Sys2Proof.Config
end

