-- ==== Sys2Proof/Machine/State.lean ====
section
/-! DEFINITION. What the machine holds: every piece of state that the spec gives the device, as
plain data, and the state right after reset.

Things of one kind are kept in a sparse map from their number to a record; a number that is not
listed holds the record's default, which is its value at reset. The numbers are fixed so that a
thing's place can be computed from its number: core `die * 64 + core`, block `cluster * 8 + index`,
team `block * 8192 + index`, lane `team * 1024 + p`, part `team * 1024 + (its lowest lane)`. -/

namespace Sys2Proof.Machine

/-- Why the machine stops with a fault. The device itself never stops: the one reason here belongs
to the model. -/
inductive Fault
  /-- raised by the meaning of a lane instruction when the issue latch names no part that exists.
  The step never sets such a latch. Safe: the model stops where the hardware has no behaviour. -/
  | noPart
  deriving DecidableEq, Repr

/-- Why an instruction has no meaning in the model. -/
inductive Refusal
  /-- raised by an arm of `exec` whose meaning is not written. Safe. -/
  | notModelled (mnemonic : String)
  deriving DecidableEq, Repr

/-! ## Lanes, parts and their waits -/

/-- Privilege levels (R7, R326). -/
inductive Level | u | s | h
  deriving DecidableEq, Repr

/-- The kinds of lane (R137). -/
inductive LaneKind | own | helper | vacant
  deriving DecidableEq, Repr

/-- Who holds a lane (R189): a barrier with the token the lane waits on (none until its arrival has
been counted), or the Runner. -/
inductive Hold
  | barrier (cl : Bool) (ix : Nat) (token : Option Nat)
  | runner
  deriving DecidableEq, Repr

/-- A Runner frame (R300). -/
structure Frame where
  node : Nat := 0
  child : Nat := 0
  pend : Nat := 0
  cur : Nat := 0
  act : Bool := false
  lv : Bool := false
  rev : Bool := false
  deriving DecidableEq, Repr

/-- What a held lane waits for the Runner to do: read the node it enters, read its segment, advance, or
read the node it leaves (R301, R308). -/
inductive RunWork | idle | enter | segment | advance | leave
  deriving DecidableEq, Repr

/-- One lane: its kind (R137), wanted label, departed flag and hold (R185 to R189), barrier arrival
bits (R236), and Runner stack (R294, R300). -/
structure Lane where
  kind : LaneKind := .vacant
  wl : Nat := 4095
  departed : Bool := false
  hold : Option Hold := none
  arrived : Nat := 0
  frames : List Frame := []
  root : Nat := 0
  inTrav : Bool := false
  lastKind : Nat := 0
  work : RunWork := .idle
  /-- the `t` operation that waits for this lane's release -/
  tOp : Nat := 0
  /-- the poster of a command with `.acq`, whose earlier work the reads wait for (R98, R311) -/
  acq : Option Nat := none
  acqSys : Bool := false
  /-- bytes that the Runner has read for its next step, with their poison -/
  rbuf : FMap (Option (Byte × Bool)) := []
  /-- the reports that hold its faulting node reads, and for each the pages of those (R54, R312) -/
  reports : List Nat := []
  parked : List (Nat × Nat) := []
  deriving DecidableEq, Repr

/-- What the record of a sampled instruction holds: its guarded-active lanes, sectors, accesses replayed, whether it is a
store, whether it has visited no home slice, whether it has gone no further than the L2, and the lane whose result landed
last (R371). -/
structure Smp where
  lanes : List Nat
  sect : Nat
  rpl : Nat := 0
  store : Bool := false
  near : Bool := false
  inL2 : Bool := false
  last : Option Nat := none
  deriving DecidableEq, Repr

/-- An instruction or command that has raised an arrival counter and has not lowered it
(R102, R103). -/
structure Op where
  id : Nat
  path : Path
  arrived : Bool := false
  /-- what a sampled instruction's record holds (R371) -/
  smp : Option Smp := none
  deriving DecidableEq, Repr

/-- The waits at which a part is stalled (R192) or parked. `released` is a parked part of which a lane has
been released and whose next block is still to be chosen (R189, DEDUCED, log 32). A stall at a core's limit of
translation requests (R43, R192) is timing: the parts that an issue move lists as busy stand for it (log 63). -/
inductive Wait
  | none
  | settle | replay | hold | released | retire | fetch
  | counter | waitc | fuse | stash | fenceSys | recordFull
  | ladleQueue | tundish | guestQueue | v255 | counters | commit | earlier | acknowledge | image
  deriving DecidableEq, Repr

/-- A trap that suspends a part, until `eret` resolves it (R329, R330). `next` is the code offset
after the trapping instruction, `poison` the words that `.zero` clears, `dest` the register and
lanes that a system call writes. -/
structure Susp where
  cls : Nat
  token : Nat
  frz : Bool
  next : Nat
  poison : List Nat := []
  dest : Nat := 0
  lanes : List Nat := []
  /-- an `eret` applied while the cluster was saved: variant, value and the time of its place -/
  resolved : Option (Nat × Nat × Nat) := none
  deriving DecidableEq, Repr

/-- The traversal parameters of a part (R294). -/
structure Trav where
  layout : Nat
  dl : Nat
  window : Nat
  vr : Nat
  ent : Nat
  lea : Nat
  prn : Nat
  don : Nat
  stash : Bool
  ca : Cache
  /-- the order and scope of the `trav` or `tres` that started it -/
  ord : Ord := .plain
  sco : Scope := .device
  deriving DecidableEq, Repr

/-- The binding of an accumulator tag (R271): its array (the leader's core) and slots. -/
structure TagBind where
  paired : Bool
  core : Nat
  slot : Nat
  slot2 : Nat
  deriving DecidableEq, Repr

/-- A part waiting at `fuse`: its label, destination and guarded-active lanes (R217). -/
structure FuseWait where
  label : Nat
  dest : Nat
  lanes : List Nat
  deriving DecidableEq, Repr

/-- Life of a part (R189, R329, R331). -/
inductive Life | absent | live | suspended | frozen | retired
  deriving DecidableEq, Repr

/-- A deferred register result that has not landed (R195). `val` is `none` until the value is fixed.
`mask` holds the bits that no later write has taken. -/
structure Deferred where
  id : Nat
  team : Nat
  lane : Nat
  reg : Nat
  mask : Nat
  val : Option Nat
  flags : Nat := 0
  canFlag : Bool := false
  poison : Bool := false
  op : Nat := 0
  /-- several words of one result share a number and land together -/
  group : Nat := 0
  /-- false for a predicate result, which covers one bit only -/
  whole : Bool := true
  /-- a read of a window, which completes when this lands (R91) -/
  win : Bool := false
  /-- a window read with an acquire flag: no later access of the lane is performed before it lands (R91) -/
  holds : Bool := false
  /-- the links that its data crosses, by their numbers in R378 (R73, R379) -/
  links : List Nat := []
  deriving DecidableEq, Repr

/-- The operand snapshot that the second half of a pair reads (R21): registers, deferred results
and the active set as they stood before the pair. -/
structure Snap where
  regs : FMap Word
  defs : List Deferred
  active : List Nat
  ops : List Op
  ev : FMap Nat := []
  /-- the free values that its reads take (R195) -/
  fresh : Nat := 0
  deriving DecidableEq, Repr

/-- The second half of a pair whose first half has issued and still holds accesses: it goes on once they have
taken their places (R79, R264). -/
structure Second where
  i : Instr
  pre : Snap
  next : Nat
  deriving DecidableEq, Repr

/-- A part of a placed team (R211, R212, R209). -/
structure Part where
  life : Life := .absent
  team : Nat := 0
  lo : Nat := 0
  width : Nat := 0
  ctx : Nat := 0
  cur : Nat := 0
  off : Nat := 0
  sweeps : Nat := 0
  wait : Wait := .none
  ops : List Op := []
  tags : List (Nat × TagBind) := []
  trav : Option Trav := none
  susp : Option Susp := none
  fuse : Option FuseWait := none
  /-- engine queues frozen by a violation (R52) -/
  frozenQ : List Path := []
  /-- tokens of the class-14 records that its frozen queues wrote (R331) -/
  qTokens : List Nat := []
  /-- choices passed over (R267) -/
  passed : Nat := 0
  heldBack : Bool := false
  /-- lanes whose accesses a `fence.sys` in slot 1 of a pair still waits for (R79, R134) -/
  fence : List Nat := []
  /-- the invalidation whose acknowledgement its `tinv` waits for, 0 for none (R345) -/
  ack : Nat := 0
  /-- the second half of its pair, while accesses of the first are held (R79) -/
  second : Option Second := none
  /-- reports resolved with ABORT while its cluster was saved: it freezes at the restore (R338), and so do these
  engine queues, from the command with the number given -/
  abort : Bool := false
  abortQ : List (Path × Nat) := []
  deriving DecidableEq, Repr

/-- A placed team (R136, R139). -/
structure Team where
  core : Nat := 0
  width : Nat := 0
  /-- its slot among the core's 64 teams (R47, R139) -/
  slot : Nat := 0
  deriving DecidableEq, Repr

/-! ## Memory: stash, caches and translation -/

/-- A mapped stash range (R58). -/
structure SRange where
  base : Nat
  len : Nat
  win : Nat
  deriving DecidableEq, Repr

/-- States of a stash sector (R64). -/
inductive SecState | unfilled | clean | owned | dirty
  deriving DecidableEq, Repr

/-- The effective attributes of a page (R41). -/
structure Attr where
  rd : Bool
  wr : Bool
  ex : Bool
  us : Bool
  rep : Bool
  host : Bool
  devo : Bool
  deriving DecidableEq, Repr

/-- A cached translation (R42): tags, virtual page and log2 of its size, physical page, attributes,
and the physical addresses of the stage-1 and stage-2 leaves with their ACC and DIRTY bits. -/
structure Tlb where
  vf : Nat
  spid : Nat
  h2 : Bool
  va : Nat
  lg : Nat
  pa : Nat
  fpa : Nat
  attr : Attr
  /-- the attributes of the stage-1 leaf, and the levels of both leaves -/
  attr1 : Attr
  lv1 : Nat
  lv2 : Nat
  s1 : Option Nat
  s2 : Option Nat
  acc : Bool
  dirty : Bool
  deriving DecidableEq, Repr

/-- A stash sector (R59, R64): its bytes as a number, the bytes written since it last reached the
home, its lease, and the translation it was filled through (R32). -/
structure Sector where
  st : SecState := .unfilled
  pa : Nat := 0
  data : Nat := 0
  dirty : Nat := 0
  poison : Nat := 0
  wts : Nat := 0
  rts : Nat := 0
  tr : Option Tlb := none
  deriving DecidableEq, Repr

/-- A leased copy of a sector in an L1 (R62, R66). -/
structure Copy where
  data : Nat
  wts : Nat
  rts : Nat
  poison : Nat
  deriving DecidableEq, Repr

/-- A line of an L1: its physical 256-byte line number and its valid sectors (R66). -/
structure L1Line where
  line : Nat
  secs : List (Nat × Copy)
  deriving DecidableEq, Repr

/-- The times of a sector at its home (R62). -/
structure Home where
  wts : Nat := 0
  rts : Nat := 0
  deriving DecidableEq, Repr

/-- An L2 line (R69, R71): line number, way, the function that filled it, and its sectors. -/
structure L2Line where
  line : Nat
  way : Nat
  vf : Nat
  secs : List (Nat × Home)
  deriving DecidableEq, Repr

/-- A cached pointer entry of a walk (R42): the index bits down to its level, and the next table. -/
structure WalkEntry where
  vf : Nat
  spid : Nat
  h2 : Bool
  stage2 : Bool
  level : Nat
  prefx : Nat
  next : Nat
  deriving DecidableEq, Repr

/-- A line of an instruction cache: physical 128-byte line number and its bytes as a number
(R197), with the kernel (image, function and space) that shares it (R186). -/
structure ICLine where
  line : Nat
  img : Nat
  vf : Nat
  spid : Nat
  data : Nat
  /-- its virtual 128-byte line number, by which its place in the code is known (R198) -/
  at' : Nat := 0
  deriving DecidableEq, Repr

/-- What a lane access does (R116, R120). -/
inductive AKind | load | store | atom
  deriving DecidableEq, Repr

/-- One access of one lane. -/
structure Access where
  kind : AKind
  sp : Space
  ea : Nat
  n : Nat
  sz : Sz := .i32
  data : Nat := 0
  cmp : Nat := 0
  aop : AtomOp := .add
  aty : AtomTy := .i32
  rnd : Rnd := .rne
  ca : Cache := .keep
  /-- poison of the stored bytes -/
  psn : Nat := 0
  /-- the elements of an `ldft` lane, as offsets from `ea`; each is `n` bytes (R125) -/
  els : List Nat := []
  /-- an order flag that acts on a window (R91) -/
  acq : Bool := false
  rel : Bool := false
  /-- an `ldft` of a helper lane whose word is misaligned: it is not performed (R125, R138) -/
  bad : Bool := false
  deriving DecidableEq, Repr

/-- A lane access held in a replay record (R49). `res` is the deferred group it fixes; `report` the
fault report it waits on, 0 once FRES has resolved it. -/
structure Held where
  id : Nat
  core : Nat
  part : Nat
  team : Nat
  lane : Nat
  acc : Access
  op : Nat
  res : Nat
  seq : Nat
  report : Nat
  deriving DecidableEq, Repr

/-- Who has a replicated commit made: a lane, an engine's command or Tundish entry by its number, the host
for a function, or the guest for a queue (R107). -/
inductive Writer
  | lane
  | engine (id : Nat)
  | host (vf : Nat)
  | guest (q : Nat)
  deriving DecidableEq, Repr

/-- A replicated commit in flight (R107). `tr` is the translation in whose leaves DIRTY is still to be set
(R44); `fill` is the function that its fills are charged to (R71). -/
structure Commit where
  id : Nat
  by' : Writer := .lane
  /-- the place of its access in the order of its lane's (R79, R90) -/
  seq : Nat := 0
  core : Nat
  part : Nat
  lane : Nat
  pa : Nat
  acc : Access
  tr : Option Tlb := none
  fill : Nat := 0
  /-- the bytes of the access that this commit writes: offset and length -/
  off : Nat
  len : Nat
  vf : Nat
  op : Nat
  res : Nat
  locked : Bool := false
  lockTick : Nat := 0
  /-- it is no commit: a write or an atomic of a lane to a page that is not replicated, in a sector which other lanes of
  its instruction commit, and which is performed with those commits (R81) -/
  plain : Bool := false
  /-- the time that it took, once it is updated and while its agent has not taken note -/
  done : Option Nat := none
  deriving DecidableEq, Repr

/-! ## Engine commands -/

/-- A run of bytes still to be copied: the first bytes of its source and destination rows, and the
offsets in the row that are left (R248, R249). -/
structure Run where
  src : Nat
  dst : Nat
  off : Nat
  len : Nat
  /-- the row of the command that it belongs to -/
  row : Nat := 0
  deriving DecidableEq, Repr

/-- A row of an indexed copy whose index word has not been read: its address, the source base and
pitch, the destination, the bytes to copy and its number (R249). -/
structure Row where
  ix : Nat
  src : Nat
  pitch : Nat
  dst : Nat
  len : Nat
  row : Nat := 0
  deriving DecidableEq, Repr

/-- What an engine command still has to do. -/
inductive CmdBody
  /-- Ladle (R248, R249): spaces, rows, runs, and bytes that were read and not yet written, as the
  destination's row address, offset, row number, value and poison -/
  | ladle (dsp ssp : Space) (rows : List Row) (runs : List Run)
      (buf : List (Nat × Nat × Nat × Byte × Bool))
  /-- gather: element reads left, as lane, address and deferred group (R124) -/
  | gather (stash : Bool) (sz : Sz) (els : List (Nat × Nat × Nat))
  /-- scatter: bytes left, as address, value and poison, in ascending lane order, and the physical bytes that
  are written (R124) -/
  | scatter (stash : Bool) (els : List (Nat × Byte × Bool)) (wrote : List Nat)
  /-- the words of a Runner segment left to write, as address and word (R306) -/
  | tcut (stash : Bool) (words : List (Nat × Nat))
  deriving DecidableEq, Repr

/-- An engine command in flight (R94, R246). -/
structure Cmd where
  id : Nat
  eng : Path
  core : Nat
  part : Nat
  /-- the lanes that post it: one, or every lane of a gather or scatter (R98) -/
  lanes : List Nat
  op : Nat
  ord : Ord
  sco : Scope
  bar : Option BarRef
  ca : Cache
  body : CmdBody
  /-- the highest time that one of its writes has taken (R99) -/
  time : Nat := 0
  /-- the reports that hold its faulting accesses, and for each the 64 KiB virtual pages of those (R49, R54) -/
  reports : List Nat := []
  parked : List (Nat × Nat) := []
  /-- it is counted in the PEND of its barrier (R236) -/
  pend : Bool := false
  frozen : Bool := false
  /-- a graph node in place of a part: graph and node number (R258) -/
  node : Option (Nat × Nat) := none
  deriving DecidableEq, Repr

/-- Operands of a matrix entry, read at issue (R272). A register operand is its 32 positions of
words; a memory operand is its descriptor. -/
inductive MOpnd
  | regs (rows : List (List Nat))
  | mem (base stride k0 planes : Nat)
  deriving DecidableEq, Repr

/-- What a Tundish entry does (R272, R284 to R290). `rows` holds the operand words of 32 positions, or
the register words of each lane; an `acst` to registers names the positions that it writes. -/
inductive TBody
  | mma (paired : Bool) (ra : Nat) (o : MmaOps) (a b : MOpnd) (sa sb : List Nat) (cent : Bool)
  | had (n : HadN) (norm : Bool) (rows : List (List Nat))
  | acz (pair : Bool)
  | acrel
  | acrelAll (tags : List Nat) (granted : Bool)
  | acldMem (base pitch : Nat) (sp : Space) (pair : Bool)
  | acldReg (rows : List (List Nat))
  | acstMem (base pitch : Nat) (sp : Space)
  | acstReg (rows : List Nat)
  | acstat (clr : Bool)
  deriving DecidableEq, Repr

/-- A Tundish entry (R272 to R274). `array` is the granted array's core; `tag` is 16 for `had`, which
uses none. `todo` lists the memory pieces still to be moved, as a key, an address and a length, once
the first has been; `buf` holds what was read, as data and poison by key. -/
structure TEntry where
  id : Nat
  flask : Nat
  part : Nat
  core : Nat
  lane : Nat
  tag : Nat
  tick : Nat
  op : Nat
  body : TBody
  ord : Ord
  sco : Scope
  ca : Cache
  /-- the launch priority and team slot that the arbiter compares (R273) -/
  pri : Nat := 0
  slot : Nat := 0
  /-- the deferred groups that its results go to, one for each row -/
  res : List Nat := []
  array : Option Nat := none
  todo : Option (List (Nat × Nat × Nat)) := none
  buf : FMap (Nat × Nat) := []
  /-- the highest time that one of its writes has taken (R99) -/
  time : Nat := 0
  reports : List Nat := []
  /-- the reports with the pages of the accesses that wait for them (R49, R54) -/
  parked : List (Nat × Nat) := []
  frozen : Bool := false
  deriving DecidableEq, Repr

/-- An accumulator slot (R270): words, tile flags, poisoned words, and whether a tag holds it. -/
structure Slot4k where
  used : Bool := false
  words : FMap Nat := []
  flags : Nat := 0
  poison : List Nat := []
  deriving DecidableEq, Repr

/-- An array: whether a pass occupies it, when it last ended one, and its A latch (R273, R276). -/
structure MArray where
  busy : Bool := false
  ended : Nat := 0
  latch : Option (Nat × Nat × Nat) := none
  deriving DecidableEq, Repr

/-! ## Cores, dies and functions -/

/-- A core (R2). -/
structure Core where
  clock : Nat := 0
  idle : Nat := 0
  issuedNow : Bool := false
  memCount : Nat := 0
  /-- last tick at which each engine accepted an issue, by the engine's number (R266) -/
  accepts : FMap Nat := []
  ev : FMap Nat := []
  itlb : List Tlb := []
  tlb : List Tlb := []
  icache : List ICLine := []
  /-- slots still taken by an earlier choice (R135) -/
  slotsLeft : Nat := 0
  /-- last ticks at which its clock advanced and was raised (R85) -/
  advanced : Nat := 0
  raised : Nat := 0
  /-- its slot is withheld in this tick (R380) -/
  withheld : Bool := false
  /-- trace records that have not been written, and whether they stay so in this tick (R370) -/
  trbuf : List Nat := []
  trHeld : Bool := false
  /-- bytes that its Ladle has written since the last whole unit of 64 (R369) -/
  ladle : Nat := 0
  deriving DecidableEq, Repr

/-- An arrival step on its way to a barrier unit (R238): the barrier, the part and lanes that
arrive, the lanes that receive a token, and whether it holds them (`bar`) or answers in a deferred
group (`barr`). `init` is a `barinit` value. -/
structure ArrStep where
  cl : Bool
  blk : Nat
  ix : Nat
  part : Nat
  lanes : List Nat
  helpers : List Nat
  holds : Bool
  res : List (Nat × Nat)
  init : Option Nat
  cmdTime : Option Nat
  /-- its place in the order of the lanes' accesses (R241) -/
  id : Nat := 0
  /-- that of a command that PEND counts (R236) -/
  pend : Bool := false
  deriving DecidableEq, Repr

/-- A die: its caches, its boot state (R366) and its counts of errors (R75). -/
structure Die where
  memTime : Nat := 0
  stlb : List Tlb := []
  wcache : List WalkEntry := []
  /-- the time that the walk being made has reached (R84): the model's own -/
  walkTime : Nat := 0
  arrivals : List ArrStep := []
  trctl : Nat := 0
  trcnt : Nat := 0
  errors : Nat := 0
  /-- uncorrectable errors logged (R75) -/
  logged : Nat := 0
  t2cap : Nat := 0
  /-- highest boot layer started, failure, reason and trap class (R366) -/
  layer : Nat := 0
  fail : Bool := false
  why : Nat := 0
  /-- its boot has stopped at a layer (R365); an H team that stops later may have left its reason in BOOTSTS since -/
  bootFailed : Bool := false
  cls : Nat := 0
  layer0 : Bool := false
  cdi : Nat := 0
  key : Nat := 0
  /-- the certificate of key(2), signed with key(1), and the public key of key(1) (R364) -/
  cert : Nat := 0
  signer : Nat := 0
  /-- the launch by which its firmware runs on the Cupola, 0 for none (R363) -/
  team : Nat := 0
  measured : FMap Nat := []
  /-- it has tripped and not cooled to its restart temperature (R381) -/
  hot : Bool := false
  hStopped : Bool := false
  /-- entry numbers handed out by the dependence unit (R260) -/
  depNext : Nat := 0
  deriving DecidableEq, Repr

/-- A ring of records (R48, R330): its base register, head and tail. -/
structure Ring where
  base : Nat := 0
  head : Nat := 0
  tail : Nat := 0
  deriving DecidableEq, Repr

/-- A virtual function, or the hypervisor as number 64 (R35, R355) (DESIGN CHOICE, log 5). -/
structure Fn where
  sptbl : Nat := 0
  h2root : Nat := 0
  fq : Ring := {}
  tq : Ring := {}
  dmp : Ring := {}
  dmpDropped : Nat := 0
  qtbl : Nat := 0
  l2waym : Nat := 0xFFFF
  dbgctl : Nat := 0
  en : Bool := false
  pceil : Nat := 3
  flrb : Bool := false
  vfbw : Nat := 0x1010
  vfirq : Nat := 0
  vfisr : Nat := 0
  ndrop : Nat := 0
  idrop : Nat := 0
  l2fill : Nat := 0
  l2evc : Nat := 0
  l2evs : Nat := 0
  stall : Nat := 0
  /-- the next token and report numbers to try -/
  nextToken : Nat := 1
  /-- layer 3 has been started for the function (R363), with its private key (R364) -/
  layer3 : Bool := false
  cdi : Nat := 0
  key : Nat := 0
  cert : Nat := 0
  deriving DecidableEq, Repr

/-- An entry of an MSI-X table (R359) (PRESUMED, log 6). -/
structure Msix where
  masked : Bool := true
  pending : Bool := false
  deriving DecidableEq, Repr

/-- A fault report (R47, R50). `record` is the 256-bit record; it is written once the ring has room. -/
structure Report where
  id : Nat
  die : Nat
  ring : Nat
  key : List Nat
  token : Nat
  record : Nat
  written : Bool := false
  launches : List Nat := []
  deriving DecidableEq, Repr

/-- A trap record that waits for room in its ring (R330). -/
structure TrapOut where
  id : Nat
  ring : Nat
  part : Nat
  record : Nat
  always : Bool := false
  /-- the ring was disabled when the trap was raised: it is resolved as `.kill` (R330) -/
  dead : Bool := false
  /-- the logical time that its write follows (R330) -/
  time : Nat := 0
  deriving DecidableEq, Repr

/-! ## Work: launches, clusters, blocks, graphs -/

/-- The header fields of an image that a launch keeps (R12). -/
structure Img where
  rev : Nat := 3
  lg16 : Bool := false
  cent : Bool := false
  pers : Bool := false
  team : Nat := 5
  width : Nat := 0
  regg : Nat := 1
  block : Nat := 32
  cluster : Nat := 1
  stash : Nat := 0
  code : Nat := 0
  beat : Nat := 0
  param : Nat := 0
  codeOff : Nat := 0
  dataSz : Nat := 0
  /-- label id, code offset, gather span start (0 for no gather label) (R13) -/
  labels : List (Nat × Nat × Nat) := []
  deriving DecidableEq, Repr

/-- The life of a launch (R265, R332). -/
inductive LState | absent | reading | staged | pending | running | ended
  deriving DecidableEq, Repr

/-- A launch. -/
structure Launch where
  st : LState := .absent
  vf : Nat := 0
  spid : Nat := 0
  level : Level := .u
  image : Nat := 0
  /-- the address that its parameters are read from -/
  paramAt : Nat := 0
  img : Img := {}
  /-- its parameters and initialised data, as they stand in device memory (R34, R67) -/
  consts : FMap Byte := []
  clus : Nat := 0
  blk : Nat := 0
  bpc : Nat := 0
  pri : Nat := 0
  q : Nat := 0
  die : Nat := 0
  order : Nat := 0
  placed : Nat := 0
  retired : Nat := 0
  resident : Nat := 0
  root : Nat := 0
  tout : Nat := 0
  /-- ticks the watchdog has counted: of a persistent launch since a cluster was first resident, of another since its first
  issue (R205, R335) -/
  watch : Option Nat := none
  /-- it has issued (R335) -/
  begun : Bool := false
  status : Nat := 0
  node : Option (Nat × Nat) := none
  prologue : Bool := false
  done : Nat := 0
  child : Bool := false
  /-- a boot layer on a Cupola: firmware or a function's resident system software (R363) -/
  boot : Bool := false
  /-- instructions that a prologue has issued (R262) -/
  issued : Nat := 0
  /-- the time that its accesses follow, and the highest time of its ended parts (R93, R259) -/
  time : Nat := 0
  endTime : Nat := 0
  deriving DecidableEq, Repr

/-- A barrier (R236). `low` counts lowerings that wait for the next completion (R240). -/
structure Barrier where
  count : Bool := false
  exp : Nat := 0
  arr : Nat := 0
  ph : Nat := 0
  pend : Nat := 0
  ct : Nat := 0
  low : Nat := 0
  time : Nat := 0
  deriving DecidableEq, Repr

/-- The life of a cluster (R146, R268). -/
inductive CState | absent | resident | saved | retired
  deriving DecidableEq, Repr

/-- A cluster. -/
structure Cluster where
  st : CState := .absent
  launch : Nat := 0
  index : Nat := 0
  die : Nat := 0
  nblk : Nat := 0
  order : Nat := 0
  pri : Nat := 0
  bars : FMap Barrier := []
  /-- while saved: where its context image lies in the die's save region, and its length (R337) -/
  save : Nat := 0
  saveLen : Nat := 0
  /-- the highest clock of the cores it was saved from -/
  time : Nat := 0
  deriving DecidableEq, Repr

/-- A block. -/
structure Block where
  lanes : Nat := 0
  teams : Nat := 0
  cores : List Nat := []
  priv : FMap Byte := []
  privPoison : FMap Bool := []
  /-- times of the private entries, by 64-byte sector: this stash is their home (R88) -/
  privTimes : FMap Home := []
  ranges : List SRange := []
  secs : FMap Sector := []
  bars : FMap Barrier := []
  retired : Bool := false
  deriving DecidableEq, Repr

/-- The life of a graph node (R258, R260). -/
inductive NState | idle | eligible | entered | running | done
  deriving DecidableEq, Repr

/-- A graph node (R257 to R263): its record, its life and arrivals, its entry number and declared
regions in the dependence unit, the loop count, the runs of its launch with the marks of its
prologue, and the launch and prologue that run for it. -/
structure Node where
  st : NState := .idle
  raw : Nat := 0
  arr : Nat := 0
  /-- its place in the order of eligibility (R260) -/
  turn : Nat := 0
  /-- the successor that a finished conditional or while node sends its arrival to: 1 SUCC0, 2 SUCC1,
  0 both -/
  out : Nat := 0
  entry : Nat := 0
  regions : List (Nat × Nat × Bool) := []
  iter : Nat := 0
  runs : Nat := 0
  again : Bool := false
  cancel : Bool := false
  bad : Bool := false
  launch : Nat := 0
  prologue : Nat := 0
  /-- the packet that the walker of a guest node has read, while its queue is full (R321) -/
  words : Option Nat := none
  /-- the time that its accesses follow (R259) -/
  time : Nat := 0
  deriving DecidableEq, Repr

/-- The life of a queue's submission (R255, R256). -/
structure Queue where
  /-- the walker has last found the queue enabled (R254) -/
  on : Bool := false
  /-- the TAILs of the notifies that its walker has accepted and not ended, oldest first, and how many entries of the first
  are left where that is known (R255) -/
  tails : List Nat := []
  left : Option Nat := none
  /-- entries read and not started: GRAPH, NCNT, DONE, DVAL -/
  waiting : List (Nat × Nat × Nat × Nat) := []
  /-- the running submission: GRAPH, NCNT, DONE, DVAL -/
  run : Option (Nat × Nat × Nat × Nat) := none
  status : Nat := 0
  spid : Nat := 0
  die : Nat := 0
  pri : Nat := 0
  tout : Nat := 0
  nodes : FMap Node := []
  /-- the graph has completed and its completion word is still to be written -/
  closing : Bool := false
  /-- the highest time of the graph's accesses and of the notify (R92, R259) -/
  time : Nat := 0
  deriving DecidableEq, Repr

/-- A packet in flight at the Sprue port (R317, R318). -/
structure Packet where
  seq : Nat
  part : Nat
  op : Nat
  vf : Nat
  spid : Nat
  launch : Nat
  words : Nat
  ord : Ord
  lane : Nat := 0
  delivered : Bool := false
  aborted : Bool := false
  quiesce : Bool := false
  returned : Bool := false
  /-- the ticks at which the port asked to quiesce it, and at which its request was answered with an abort: each bound
  counts from its own (R323) -/
  since : Nat := 0
  abortAt : Nat := 0
  node : Option (Nat × Nat) := none
  /-- the status that the guest has reported, or 0xFFFF for a packet completed on its behalf, while the completion word is
  still to be written (R318, R323) -/
  status : Option Nat := none
  /-- the first number given out after its report: the guest's writes with lower ones were issued before it (R318) -/
  reported : Nat := 0
  /-- the register and the lanes that its `gpost` answers, for one that is posted again and refused (R325) -/
  dest : Nat := 0
  lanes : List Nat := []
  deriving DecidableEq, Repr

/-- A write of the guest that a fault, a locked sector or the bound of the clock holds up: queue, address,
length and data, by the translation that it uses (R322, R325). -/
structure GWrite where
  id : Nat
  q : Nat
  pa : Nat
  len : Nat
  data : Nat
  e : Tlb
  deriving DecidableEq, Repr

/-- A guest queue (R316, R320). -/
structure GQueue where
  gqb : Nat := 0
  seq : Nat := 0
  cseq : Nat := 0
  cv : Bool := false
  pkts : List Packet := []
  deriving DecidableEq, Repr

/-- A sector that the guest holds, with its lease, or owns with its bytes (R322). -/
structure GSector where
  owned : Bool
  wts : Nat
  rts : Nat
  /-- tick at which a snoop or recall reached the port -/
  snooped : Option Nat := none
  deriving DecidableEq, Repr

/-- An invalidation that the guest is asked for (R322): its number, the translations, the tick at which it reached the
port, and whether the guest has acknowledged it, while writes that the port holds still use one of them. -/
structure GInval where
  id : Nat
  es : List Tlb
  since : Nat
  acked : Bool := false
  deriving DecidableEq, Repr

/-- The Sprue socket and its guest (R315 to R324). -/
structure Guest where
  up : Bool := false
  frz : Bool := false
  brk : Nat := 0
  mods : Nat := 0
  queues : FMap GQueue := []
  clock : Nat := 0
  xlats : List Tlb := []
  /-- invalidations that are not over (R322) -/
  invs : List GInval := []
  secs : List (Nat × GSector) := []
  /-- writes held up, in the order of their requests -/
  writes : List GWrite := []
  /-- the last answer the port gave the guest; a poisoned byte is 256 (R75) -/
  answer : Option (List Nat) := none
  deriving DecidableEq, Repr

/-! ## Fetch and the moves of the device -/

/-- A line fill in flight (R198): part, the line's code offset, prefetch or not, and the report it
waits on. -/
structure Fill where
  id : Nat
  part : Nat
  off : Nat
  pf : Bool
  report : Nat := 0
  /-- a link that its data crosses has been lost (R73, R379) -/
  lost : Bool := false
  deriving DecidableEq, Repr

/-- Which half of a fetch word the latched instruction is. -/
inductive Half | single | first | second
  deriving DecidableEq, Repr

/-- The issue latch: which part issues, from which code offset, and where fetch goes on. -/
structure Issue where
  part : Nat := 0
  off : Nat := 0
  next : Nat := 0
  half : Half := .single
  pre : Option Snap := none
  /-- lanes and flags that the first half has raised, applied again after the second (R21) -/
  raised : List (Nat × Nat) := []
  deriving DecidableEq, Repr

/-- An error in storage (R75, R292, R333): one that the code corrects, and uncorrectable ones in a 64-bit word of
memory or L2, of an L1 copy, of a stash sector, of a private entry, in a word of an accumulator or of a
register, and in the tags or state of an L1 line, an L2 line or a stash sector. When one appears is a move of the agenda
(DESIGN CHOICE, log 64). -/
inductive StorageError
  | corrected (die : Nat)
  | memory (pa : Nat)
  | copy (core pa : Nat)
  | stash (blk va : Nat)
  | priv (blk off : Nat)
  | slot (core slot word : Nat)
  | reg (team lane reg : Nat)
  | copyState (core pa : Nat)
  | lineState (pa : Nat)
  | stashState (blk va : Nat)
  deriving DecidableEq, Repr

/-- What happens next on the device. Which agent moves is plain data in the state (DESIGN CHOICE, log 4). -/
inductive Move
  /-- the global tick advances -/
  | tick
  /-- a core makes its choice; the listed parts are not ready in that tick -/
  | issue (core : Nat) (busy : List Nat)
  /-- an event of another agent -/
  | event (i : Instr)
  /-- an event that waited for a fault report, a sector or an entry is tried again -/
  | again (i : Instr)
  /-- the Ladle, the gather path or the Runner's writer moves one piece of a command early -/
  | engine (cmd k : Nat)
  /-- the Runner reads one byte of a node or segment for a lane early -/
  | node (part lane k : Nat)
  /-- a storage error appears or is corrected (R75, R292, R333) -/
  | storage (e : StorageError)
  /-- a link corrects an error (R378) -/
  | linkCorrected (link : Nat)
  /-- a core's issue slot is withheld under the power limit (R380) -/
  | withhold (core : Nat)
  /-- a core's trace records stay in its buffer in this tick (R370) -/
  | holdTrace (core : Nat)
  /-- a die has cooled to its restart temperature (R381) -/
  | cooled (die : Nat)
  /-- a translation cache drops an entry: 0 instruction, 1 L1, 2 shared, 3 walk -/
  | evict (cache where' k : Nat)
  deriving DecidableEq, Repr

/-- Who waits for a fault report beside lane accesses, engine commands and fetch fills: an event of
another agent that is tried again, or a part whose `launch` reads its child's image (R49, R383). -/
inductive Waiter
  | event (i : Instr)
  | part (p : Nat)
  /-- a prefetch of a sector that cannot be reached now (R108, R131) -/
  | prefetch (p : Nat) (var : PfVar) (ea : Nat)
  deriving DecidableEq, Repr

/-- What a Recast log holds: an arrival at a port, what another agent answers there (by a number of what was asked),
a storage error, a withheld slot, an error that a link corrects, or the bytes of a line that arrives at a CXL port (R374). -/
inductive Logged
  | arrival (i : Instr)
  | value (tag v : Nat)
  | error (e : StorageError)
  | withheld (core : Nat)
  | linkCorrected (link : Nat)
  | line (pa v : Nat)
  deriving DecidableEq, Repr

/-- A Recast log in die 0's memory: its records with their ticks, and the model's own counters where its recording began,
from which a replay's free values come again (R374). -/
structure RcLog where
  log : List (Nat × Logged) := []
  fresh : Nat := 0
  nextId : Nat := 0
  deriving DecidableEq, Repr

/-- The machine. -/
structure State where
  /- memory -/
  mem : FMap Byte
  memPoison : FMap Bool
  l1 : FMap (List L1Line)
  l2 : FMap (List L2Line)
  /-- the block whose stash owns a sector, plus 1 (R62, R63) -/
  owners : FMap Nat
  /-- the replicated commit that has locked a sector, by its address on die 0 (R107) -/
  locks : FMap Nat
  /-- bytes that stores have replaced: the operation times 1,024 plus the lane, the address and the
  byte, until the operation arrives (R95) -/
  undo : List (Nat × Nat × Byte)
  /-- the sectors stored to in this tick, with the times taken and the numbers of the agents (R84): the model's own -/
  stored : List (Nat × Nat × Nat)
  commits : List Commit
  /-- host accesses that wait for a sector, and what their requesters have sent after them, in order of arrival
  (R92) -/
  hostQ : List Instr
  /- lanes and parts -/
  regs : FMap Word
  regPoison : FMap Bool
  lanes : FMap Lane
  parts : FMap Part
  teams : FMap Team
  defs : List Deferred
  held : List Held
  cmds : List Cmd
  tundish : List TEntry
  slots : FMap Slot4k
  arrays : FMap MArray
  fills : List Fill
  /- work -/
  launches : FMap Launch
  clusters : FMap Cluster
  blocks : FMap Block
  queues : FMap Queue
  /- cores, dies, functions -/
  /-- the compute cores have been released by the boot layers (R363) -/
  released : Bool
  cores : FMap Core
  dies : FMap Die
  fns : FMap Fn
  savebase : FMap Nat
  msix : FMap Msix
  msgs : List (Nat × Nat)
  reports : List Report
  trapOuts : List TrapOut
  waiters : List (Nat × Waiter)
  guest : Guest
  /- device -/
  tick : Nat
  maxClock : Nat
  /-- the time of the host's last access (R92) -/
  hostClock : Nat
  /-- what the host's last read returned, with a mask of its poisoned bytes (R75); none for Unsupported Request (R382) -/
  hostAnswer : Option (Nat × Nat)
  stopat : Nat
  /-- the tick at whose end the armed stop gates the clocks, 0 for none (R372) -/
  stopDue : Nat
  /-- the clocks are gated at the end of this tick, for the Recast log or the power limit (R372, R374) -/
  haltDue : Bool
  stopped : Bool
  trip : Bool
  /-- a trip whose gating waits for the end of the tick (R381) -/
  tripDue : Bool
  /-- what the management interface has reported: die, and 1 a signature, 2 an unreadable image, 3 a trap of an H
  team with its class, 4 a thermal trip (R365, R381) -/
  mgmt : List (Nat × Nat × Nat)
  evsel : FMap Nat
  smpctl : Nat
  rcctl : Nat
  /-- RCCTL as the last reset acted on it, 0 when it neither records nor replays (R373) -/
  rcact : Nat
  recording : Bool
  playing : Bool
  rcsts : Nat
  endt : Nat
  /-- the Recast log: what was logged, with its tick, and under PLAY what is still to be replayed (R374) -/
  rclog : List (Nat × Logged)
  /-- the logs in die 0's memory, by their base addresses (R373) -/
  rclogs : FMap RcLog
  lnkst : FMap Nat
  fabid : Nat
  pwrlim : Nat
  spdm : List (List Nat)
  /- the model's own -/
  issue : Issue
  agenda : List Move
  fresh : Nat
  nextId : Nat
  deriving DecidableEq, Repr

/-- The machine right after reset: the global tick 0 (R368), every register at its reset value, no
work resident, memory with nothing listed, and no boot layer started. -/
def State.reset : State :=
  { mem := [], memPoison := [], l1 := [], l2 := [], owners := [], locks := [], undo := [], stored := [], commits := [], hostQ := []
    regs := [], regPoison := [], lanes := [], parts := [], teams := [], defs := [], held := []
    cmds := [], tundish := [], slots := [], arrays := [], fills := []
    launches := [], clusters := [], blocks := [], queues := []
    released := false, cores := [], dies := [], fns := [], savebase := [], msix := [], msgs := [], reports := []
    trapOuts := [], waiters := [], guest := {}
    tick := 0, maxClock := 0, hostClock := 0, hostAnswer := none, stopat := 0, stopDue := 0, haltDue := false, stopped := false
    trip := false, tripDue := false, mgmt := [], rclog := [], rclogs := [], evsel := []
    smpctl := 0, rcctl := 0, rcact := 0, recording := false, playing := false, rcsts := 0, endt := 0
    lnkst := [], fabid := 0, pwrlim := 3200, spdm := []
    issue := {}, agenda := [], fresh := 0, nextId := 1 }

end Sys2Proof.Machine
end

