-- ==== Sys2Proof/Machine/Ops.lean ====
section
/-! DEFINITION. The named operations over the state: lanes and parts, registers, the sequencer,
and taking and resolving a trap. Everything that reads or writes a register or a wanted label goes
through here. -/

namespace Sys2Proof.Machine

/-! ## Reading and writing one record -/

namespace State

def part (s : State) (p : Nat) : Part := s.parts.get {} p
def setPart (s : State) (p : Nat) (x : Part) : State := { s with parts := s.parts.set {} p x }
def modPart (s : State) (p : Nat) (f : Part → Part) : State := s.setPart p (f (s.part p))

def lane (s : State) (l : Nat) : Lane := s.lanes.get {} l
def setLane (s : State) (l : Nat) (x : Lane) : State := { s with lanes := s.lanes.set {} l x }
def modLane (s : State) (l : Nat) (f : Lane → Lane) : State := s.setLane l (f (s.lane l))

def team (s : State) (t : Nat) : Team := s.teams.get {} t
def core (s : State) (c : Nat) : Core := s.cores.get {} c
def setCore (s : State) (c : Nat) (x : Core) : State := { s with cores := s.cores.set {} c x }
def modCore (s : State) (c : Nat) (f : Core → Core) : State := s.setCore c (f (s.core c))

def die (s : State) (d : Nat) : Die := s.dies.get {} d
def setDie (s : State) (d : Nat) (x : Die) : State := { s with dies := s.dies.set {} d x }
def modDie (s : State) (d : Nat) (f : Die → Die) : State := s.setDie d (f (s.die d))

def fn (s : State) (f : Nat) : Fn := s.fns.get {} f
def setFn (s : State) (f : Nat) (x : Fn) : State := { s with fns := s.fns.set {} f x }
def modFn (s : State) (f : Nat) (g : Fn → Fn) : State := s.setFn f (g (s.fn f))

def launch (s : State) (l : Nat) : Launch := s.launches.get {} l
def setLaunch (s : State) (l : Nat) (x : Launch) : State :=
  { s with launches := s.launches.set {} l x }
def modLaunch (s : State) (l : Nat) (f : Launch → Launch) : State := s.setLaunch l (f (s.launch l))

def cluster (s : State) (c : Nat) : Cluster := s.clusters.get {} c
def setCluster (s : State) (c : Nat) (x : Cluster) : State :=
  { s with clusters := s.clusters.set {} c x }
def modCluster (s : State) (c : Nat) (f : Cluster → Cluster) : State :=
  s.setCluster c (f (s.cluster c))

def block (s : State) (b : Nat) : Block := s.blocks.get {} b
def setBlock (s : State) (b : Nat) (x : Block) : State := { s with blocks := s.blocks.set {} b x }
def modBlock (s : State) (b : Nat) (f : Block → Block) : State := s.setBlock b (f (s.block b))

def queue (s : State) (q : Nat) : Queue := s.queues.get {} q
def setQueue (s : State) (q : Nat) (x : Queue) : State := { s with queues := s.queues.set {} q x }
def modQueue (s : State) (q : Nat) (f : Queue → Queue) : State := s.setQueue q (f (s.queue q))

/-- Take a new number for a thing in flight. -/
def takeId (s : State) : Nat × State := (s.nextId, { s with nextId := s.nextId + 1 })

/-- Move on to the next free values (DESIGN CHOICE, log 2). -/
def bump (s : State) : State := { s with fresh := s.fresh + 1 }

end State

/-! ## The numbers of things -/

/-- The team of a part, or of a lane. -/
def teamOf (x : Nat) : Nat := x / 1024
/-- The block of a team. -/
def blockOf (t : Nat) : Nat := t / 8192
/-- The cluster of a block. -/
def clusterOf (b : Nat) : Nat := b / 8
/-- The number of lane `p` of team `t`. -/
def laneId (t p : Nat) : Nat := t * 1024 + p
/-- The number of the register word `r` of lane `p` of team `t`. -/
def regKey (t p r : Nat) : Nat := (t * 1024 + p) * 256 + r
/-- The die of a core. -/
def dieOf (core : Nat) : Nat := core / 64
/-- The flask of a core, numbered over the whole device. -/
def flaskOf (core : Nat) : Nat := core / 4
/-- The first lane of a block's team (R136). -/
def teamIx (t : Nat) : Nat := t % 8192

namespace State

def clusterOfTeam (s : State) (t : Nat) : Cluster := s.cluster (clusterOf (blockOf t))
/-- The launch id of a team (R145). -/
def launchOf (s : State) (t : Nat) : Nat := (s.clusterOfTeam t).launch
def img (s : State) (t : Nat) : Img := (s.launch (s.launchOf t)).img
/-- The core that a part runs on. -/
def coreOf (s : State) (p : Nat) : Nat := (s.team (teamOf p)).core

/-- The lanes of a part, as indices in the placed team (R211). -/
def partLanes (s : State) (p : Nat) : List Nat :=
  let x := s.part p
  (List.range x.width).map (x.lo + ·)

/-- The numbers of all parts that are placed. -/
def livePart (s : State) (p : Nat) : Bool :=
  let l := (s.part p).life
  l = .live || l = .suspended || l = .frozen

end State

/-! ## Registers -/

/-- An unread choice between two values that the spec allows: it depends on the fresh counter and
names the read (DESIGN CHOICE, log 2). -/
def State.pick (s : State) (k : Nat) : Bool := Config.choose s.fresh k

/-- Replace the bits of `old` that `mask` covers by those of `new`. -/
def mergeBits (old new mask : Nat) : Nat := (old &&& (0xFFFFFFFF - mask)) ||| (new &&& mask)

/-- What a read of one register of a lane may see of the deferred writes outstanding to it: for each of
them, in order, the old value or the new one (R195). `slot` names the read (DESIGN CHOICE, log 29). -/
def readThrough (fresh : Nat) (ds : List Deferred) (t p r slot : Nat) (old : Nat) : Nat :=
  ds.foldl (fun v d =>
    if d.team = t && d.lane = p && d.reg = r && d.mask ≠ 0 then
      match d.val with
      | none => v
      | some x => if Config.choose fresh (regKey t p r * 131072 + slot) then mergeBits v x d.mask else v
    else v) old

namespace State

/-- The register file that sources are read from: the one before the pair for a second half
(R21). -/
def srcRegs (s : State) : FMap Word :=
  match s.issue.pre with
  | some x => x.regs
  | none => s.regs

/-- The deferred writes that source reads run past. -/
def srcDefs (s : State) : List Deferred :=
  match s.issue.pre with
  | some x => x.defs
  | none => s.defs

/-- The free values that decide the source reads of an instruction. -/
def srcFresh (s : State) : Nat :=
  match s.issue.pre with
  | some x => x.fresh
  | none => s.fresh

/-- The word stored in a register, whatever is outstanding (R141). -/
def reg (s : State) (t p r : Nat) : Nat := (s.regs.get 0 (regKey t p r)).toNat

/-- A source read of a register by an instruction at issue: a word of 32 bits (R170, R195). A position
with no lane and a vacant lane read as 0, since their words are never written (R137, R223). -/
def rd (s : State) (slot t p r : Nat) : Nat :=
  readThrough s.srcFresh s.srcDefs t p r slot (s.srcRegs.get 0 (regKey t p r)).toNat % 2 ^ 32

/-- A source read of a pair (R144). -/
def rd64 (s : State) (slot t p r : Nat) : Nat :=
  s.rd slot t p r + 2 ^ 32 * s.rd (slot + 1) t p (r + 1)

/-- A predicate source (R142, R169). -/
def rdPred (s : State) (slot t p : Nat) (x : PSrc) : Bool :=
  (x.n.val = 0 || bit (s.rd slot t p (x.n.val / 32)) (x.n.val % 32)) != x.neg

/-- Take bits of a register away from the deferred writes outstanding to it: a later write in
program order has covered them (R195). -/
def cover (s : State) (t p r mask : Nat) : State :=
  { s with defs := s.defs.map fun d : Deferred =>
      if d.team = t && d.lane = p && d.reg = r then
        { d with mask := d.mask &&& (0xFFFFFFFF - mask) } else d }

/-- Store the word of a register and nothing else. -/
def putReg (s : State) (t p r v : Nat) : State :=
  { s with regs := s.regs.set 0 (regKey t p r) (BitVec.ofNat 32 v) }

/-- A fixed write of a whole register: it clears the word's poison (R333) and discards the deferred
writes issued before it (R195). -/
def wr (s : State) (t p r v : Nat) : State :=
  { (s.putReg t p r v).cover t p r 0xFFFFFFFF with
    regPoison := s.regPoison.set false (regKey t p r) false }

/-- A fixed write of a pair (R144). -/
def wr64 (s : State) (t p r v : Nat) : State := (s.wr t p r v).wr t p (r + 1) (v / 2 ^ 32)

/-- Set some bits of a register, and cover only those. -/
def orReg (s : State) (t p r v : Nat) : State :=
  if v = 0 then s else (s.putReg t p r (s.reg t p r ||| v)).cover t p r v

/-- OR flags into v255 of a lane (R143). -/
def orFlags (s : State) (t p f : Nat) : State := s.orReg t p 255 f

/-- Flags that an instruction raises at its issue: ORed after its own write (R143). The first half of
a pair notes them, so that they stand beside a write of v255 by the second half (R21). -/
def raiseFlags (s : State) (t p f : Nat) : State :=
  if f = 0 then s
  else if s.issue.half = .first then
    { s.orFlags t p f with issue := { s.issue with raised := s.issue.raised ++ [(laneId t p, f)] } }
  else s.orFlags t p f

/-- A fixed write of a predicate: one bit, nothing for p0 (R142, R169). The poison bit stays. -/
def wrPred (s : State) (t p n : Nat) (b : Bool) : State :=
  if n = 0 then s
  else
    let m := 2 ^ (n % 32)
    (s.putReg t p (n / 32) (mergeBits (s.reg t p (n / 32)) (if b then m else 0) m)).cover
      t p (n / 32) m

/-- Post a deferred write of a register (R195). -/
def defer (s : State) (d : Deferred) : State :=
  { s with defs := s.defs ++ [d] }

/-- Land one deferred write: the bits it still covers, its flags, and its poison (R195, R196). -/
def land (s : State) (d : Deferred) : State :=
  let v := d.val.getD 0
  let s1 := { s with defs := (s.defs.filter fun e : Deferred => e.id ≠ d.id).map fun e : Deferred =>
      if e.team = d.team && e.lane = d.lane && e.reg = d.reg && e.id < d.id then
        { e with mask := e.mask &&& (0xFFFFFFFF - d.mask) } else e }
  let s2 := if d.mask = 0 then s1
    else s1.putReg d.team d.lane d.reg (mergeBits (s1.reg d.team d.lane d.reg) v d.mask)
  let s3 := if d.whole && d.mask ≠ 0 then
      { s2 with regPoison := s2.regPoison.set false (regKey d.team d.lane d.reg) d.poison }
    else s2
  s3.orFlags d.team d.lane d.flags

end State

/-! ## The lanes of an instruction -/

namespace State

/-- Vacant lanes never take part (R137). -/
def isLane (s : State) (t p : Nat) : Bool := (s.lane (laneId t p)).kind ≠ .vacant
/-- A helper lane (R137). -/
def isHelper (s : State) (t p : Nat) : Bool := (s.lane (laneId t p)).kind = .helper

/-- The active set of a part: the lanes that want the current label and have not departed (R187). A held
lane is in no active set (R189) (DEDUCED, log 36). -/
def activeSet (s : State) (p : Nat) : List Nat :=
  let x := s.part p
  (s.partLanes p).filter fun l =>
    let y := s.lane (laneId (teamOf p) l)
    y.kind ≠ .vacant && y.wl = x.cur && !y.departed && y.hold.isNone

/-- The active set an instruction runs for: the one before the pair for a second half (R21). -/
def srcActive (s : State) (p : Nat) : List Nat :=
  match s.issue.pre with
  | some x => x.active
  | none => s.activeSet p

/-- The guard value of a lane (R19): predicate GP, XOR GN, with p0 reading as 1. -/
def guard (s : State) (t l : Nat) (h : Hdr) : Bool := s.rdPred 62 t l ⟨h.gn, h.gp⟩

/-- The guarded-active lanes of an instruction (R19). -/
def guarded (s : State) (p : Nat) (h : Hdr) : List Nat :=
  (s.srcActive p).filter fun l => s.guard (teamOf p) l h

end State

/-- What a meaning works with: the issuing part, its team, width and lane range, and the
guarded-active lanes. -/
structure Ctx where
  p : Nat
  t : Nat
  lo : Nat
  w : Nat
  act : List Nat
  ga : List Nat
  deriving DecidableEq, Repr

/-- The context of an instruction with header `h` at the issue latch. -/
def State.ctx (s : State) (h : Hdr) : Ctx :=
  let p := s.issue.part
  let x := s.part p
  { p := p, t := teamOf p, lo := x.lo, w := x.width, act := s.srcActive p, ga := s.guarded p h }

/-- The guarded-active lanes that are not helper lanes: participants and posters (R94, R223). -/
def State.owns (s : State) (c : Ctx) : List Nat := c.ga.filter fun l => !s.isHelper c.t l

/-- The poster: the lowest guarded-active lane that is not a helper lane (R94, R278). -/
def State.poster (s : State) (c : Ctx) : Option Nat := (s.owns c).head?

/-- Apply an update for each lane of a list, in ascending order. -/
def eachLane (ls : List Nat) (f : Nat → State → State) (s : State) : State :=
  ls.foldl (fun s l => f l s) s

/-! ## Event counters and trace -/

/-- A count of 64 bits that does not wrap: it stays at its highest value (R361). -/
def addCount (x n : Nat) : Nat := min (x + n) (2 ^ 64 - 1)

/-- Count an event on a core for every counter that selects it (R369). -/
def State.count (s : State) (core evt n : Nat) : State :=
  (List.range 8).foldl (fun s k =>
    if s.evsel.get 0 k = evt then
      s.modCore core fun c => { c with ev := c.ev.set 0 k (c.ev.get 0 k + n) }
    else s) s

/-! ## The sequencer -/

/-- The entry of a label in a kernel's table: code offset and span start (R13). -/
def Img.label (g : Img) (l : Nat) : Option (Nat × Nat) :=
  (g.labels.find? fun x => x.1 = l).map fun x => x.2

/-- Whether a label is servable in a part (R188). -/
def State.servable (s : State) (p l : Nat) : Bool :=
  let t := teamOf p
  let ls := (s.partLanes p).map fun x => s.lane (laneId t x)
  let wanted := ls.any fun y => y.kind ≠ .vacant && y.wl = l && y.hold.isNone
  let blocked :=
    match (s.img t).label l with
    | some (_, 0) => false
    | some (_, g) => ls.any fun y => y.kind ≠ .vacant && g ≤ y.wl && y.wl < l
    | none => false
  wanted && l ≠ 0 && l ≠ 4095 && !blocked

/-- The servable labels, in ascending order: the label table lists ids in that order (R13). -/
def State.servables (s : State) (p : Nat) : List Nat :=
  ((s.img (teamOf p)).labels.map fun x => x.1).filter (s.servable p)

/-- Serve a label: it becomes current, the departed flags are cleared, and fetch goes to its offset
(R187). -/
def State.serve (s : State) (p l : Nat) : State :=
  let t := teamOf p
  let off := match (s.img t).label l with
    | some (o, _) => o
    | none => 0
  let s := eachLane (s.partLanes p) (fun x s => s.modLane (laneId t x) fun y =>
    { y with departed := false }) s
  s.modPart p fun x => { x with cur := l, off := off, wait := .none }

/-- Whether every non-vacant lane of a part has exited (R188). -/
def State.allExited (s : State) (p : Nat) : Bool :=
  (s.partLanes p).all fun x =>
    let y := s.lane (laneId (teamOf p) x)
    y.kind = .vacant || y.wl = 4095

/-- The labels of a kernel that are passed over without being served: those between two ids in a sweep, and at the end
of one those above the last (R188, as the Collatz census of its chapter counts). -/
def Img.skipped (g : Img) (cur : Nat) : Option Nat → Nat
  | some l => l - cur - 1
  | none => (g.labels.filter fun x => cur < x.1).length

/-- Choose the next block of a part after label `cur` (R188, census_next). -/
def State.censusNext (s : State) (p cur : Nat) : State :=
  let core := s.coreOf p
  let ls := s.servables p
  match ls.find? fun l => cur < l with
  | some l => (s.serve p l).count core 5 ((s.img (teamOf p)).skipped cur (some l))
  | none =>
    match ls.head? with
    | some l =>
      let s := (s.modPart p fun x => { x with sweeps := (x.sweeps + 1) % 2 ^ 32 }).serve p l
      (s.count core 4 1).count core 5 ((s.img (teamOf p)).skipped cur none)
    | none =>
      if s.allExited p then s.modPart p fun x => { x with cur := cur, wait := .retire }
      else s.modPart p fun x => { x with cur := cur, wait := .hold }

/-- Change the wanted label of a lane and depart it (R187). -/
def State.depart (s : State) (t l wl : Nat) : State :=
  s.modLane (laneId t l) fun y => { y with wl := wl, departed := true }

/-- Fetch has reached the boundary of label `f` with lanes active: they take it as their wanted
label, and the next block is chosen (R188). -/
def State.fallInto (s : State) (p f : Nat) : State :=
  let cur := (s.part p).cur
  let s := eachLane (s.activeSet p) (fun l s => s.modLane (laneId (teamOf p) l) fun y =>
    { y with wl := f }) s
  s.censusNext p cur

/-- The label whose block begins at a code offset, if any (R186). -/
def Img.boundary (g : Img) (off : Nat) : Option Nat :=
  (g.labels.find? fun x => x.2.1 = off).map (·.1)

/-- End of a slot: fetch goes on after it. When the active set has emptied the next block is chosen,
and when fetch has come to a block boundary the active lanes fall into it (R187, R188, R210). -/
def State.advance (s : State) (p next : Nat) : State :=
  let s := s.modPart p fun x => { x with off := next }
  if (s.activeSet p).isEmpty then s.censusNext p (s.part p).cur
  else
    match (s.img (teamOf p)).boundary next with
    | some f => s.fallInto p f
    | none => s

/-- Release a held lane: its label is served in a later block (R189), so it is departed until then. A part
that was parked for want of a servable label resumes. -/
def State.releaseLane (s : State) (p l : Nat) : State :=
  let s := s.modLane (laneId (teamOf p) l) fun y => { y with hold := none, departed := true }
  if (s.part p).wait = .hold then s.modPart p fun x => { x with wait := .released } else s

/-- Choose the next block of those of some parts that resume: every lane released in the tick until then
takes part (R188, R189, DEDUCED, log 32). -/
def State.resumeParts (s : State) (ps : List Nat) : State :=
  ps.foldl (fun (s : State) p =>
    let x := s.part p
    if x.life = .live && x.wait = .released then s.censusNext p x.cur else s) s

/-! ## Rings, tokens and interrupts -/

/-- The number of entries of a ring, 0 while it is disabled or its size is none of 4 to 16
(R48, R330). -/
def Ring.size (r : Ring) : Nat :=
  let n := bits r.base 1 5
  if bit r.base 0 && 4 ≤ n && n ≤ 16 then 2 ^ n else 0

/-- The base address of a ring (DEDUCED, log 57). -/
def Ring.addr (r : Ring) : Nat := bits r.base 12 40 * 4096

/-- Whether a record finds no room (R48). -/
def Ring.full (r : Ring) : Bool := (r.tail + 1) % r.size = r.head % r.size

/-- Send or pend an MSI-X message of function `f` (64: the physical function); entries from 64 up
are dropped and counted (R359). -/
def State.signal (s : State) (f e : Nat) : State :=
  if 64 ≤ e then s.modFn f fun x => { x with idrop := addCount x.idrop 1 }
  else
    let k := f * 64 + e
    let m := s.msix.get {} k
    if m.masked then { s with msix := s.msix.set {} k { m with pending := true } }
    else { s with msgs := s.msgs ++ [(f, e)] }

/-- Signal a fault vector: for a function by VFIRQ, with VFISR set whatever it holds; for the
hypervisor, entry 0 of the physical function (R48, R359). -/
def State.signalFault (s : State) (ring : Nat) : State :=
  if ring = 64 then s.signal 64 0
  else
    let q := (s.fn ring).vfirq
    let s := s.modFn ring fun x => { x with vfisr := x.vfisr ||| 1 }
    if bit q 6 then s.signal ring (bits q 0 6) else s

/-- Signal a trap vector, with VFISR.WD as well for a class-13 record (R330, R359). -/
def State.signalTrap (s : State) (ring : Nat) (wd : Bool) : State :=
  if ring = 64 then s.signal 64 1
  else
    let q := (s.fn ring).vfirq
    let s := s.modFn ring fun x => { x with vfisr := x.vfisr ||| (if wd then 6 else 2) }
    if bit q 14 then s.signal ring (bits q 8 6) else s

/-- The tokens outstanding at a ring: those of its reports and of the traps of its parts
(R50, R330). -/
def State.tokens (s : State) (ring : Nat) : List Nat :=
  (s.reports.filter fun r => r.ring = ring).map (·.token)
    ++ s.parts.flatMap fun x => (x.2.susp.map (·.token)).toList ++ x.2.qTokens

/-- A token for a new report or trap: non-zero, 16 bits, and not outstanding (R50, R330). The search
starts above the last token given and needs no more tries than there are tokens outstanding (DESIGN CHOICE,
log 14). -/
def State.takeToken (s : State) (ring : Nat) : Nat × State :=
  let used := s.tokens ring
  let start := (s.fn ring).nextToken
  let k := ((List.range (used.length + 1)).map fun i => (start + i + 65534) % 65535 + 1).find?
    fun k => !used.contains k
  let k := k.getD 1
  (k, s.modFn ring fun x => { x with nextToken := k % 65535 + 1 })

/-! ## Taking a trap, and resolving it -/

/-- The number of a level in a record (R330). -/
def Level.priv : Level → Nat
  | .u => 0
  | .s => 1
  | .h => 2

/-- The WORD and MASK fields of a trap record: the word of the part that holds the lowest
guarded-active lane and the guarded-active lanes of it; when there is none, the word of the lowest
active lane and no mask; 0 when the active set is empty (R330). `ga` and `act` hold lanes of the
placed team, `lo` the part's first lane. -/
def wordMask (lo : Nat) (ga act : List Nat) : Nat × Nat :=
  match ga.head? with
  | some l =>
    let w := (l - lo) / 32
    (w, (ga.filter fun x => (x - lo) / 32 = w).foldl (fun m x => m + 2 ^ ((x - lo) % 32)) 0)
  | none =>
    match act.head? with
    | some l => ((l - lo) / 32, 0)
    | none => (0, 0)

/-- A trap record as a number of 512 bits (R330). -/
def State.trapRecord (s : State) (p token cls : Nat) (frz : Bool) (off info : Nat)
    (wm : Nat × Nat) : Nat :=
  let x := s.part p
  let t := teamOf p
  let c := s.coreOf p
  let l := s.launch (s.launchOf t)
  token + cls * 2 ^ 16 + b2n frz * 2 ^ 21 + dieOf c * 2 ^ 22 + (c % 64) * 2 ^ 24
    + l.level.priv * 2 ^ 30 + x.ctx * 2 ^ 32 + l.vf * 2 ^ 40 + wm.1 * 2 ^ 46 + l.spid * 2 ^ 52
    + off * 2 ^ 64 + info * 2 ^ 96 + x.cur * 2 ^ 112 + wm.2 * 2 ^ 128
    + s.launchOf t * 2 ^ 192 + s.tick * 2 ^ 256

/-- The ring that a part's trap records go to: its function's, or the hypervisor's (number 64) for an
S part that is no prologue (R326). -/
def State.trapRing (s : State) (t : Nat) : Nat :=
  let l := s.launch (s.launchOf t)
  if l.level = .s && !l.prologue then 64 else l.vf

/-- What a trap is about: its class, INFO, the lanes of the record, the code offsets of the trapping
instruction and of the one after it, the poisoned words, and the register and lanes that a system
call answers. -/
structure Trap where
  cls : Nat
  info : Nat := 0
  ga : List Nat := []
  act : List Nat := []
  off : Nat
  next : Nat
  poison : List Nat := []
  dest : Nat := 0
  lanes : List Nat := []
  deriving DecidableEq, Repr

/-- Whether a class leaves only `.kill`, or no action at all (R327, R330). -/
def frozenClass (cls : Nat) : Bool := cls = 2 || cls = 13 || cls = 14

/-- A trap of class `cls` at level H stops the H teams of its die, and the management interface reports it (R326,
R365). -/
def State.stopH (s : State) (d cls : Nat) : State :=
  let s := s.modDie d fun z => { z with hStopped := true, fail := true, why := 3, cls := cls }
  { s with mgmt := s.mgmt ++ [(d, 3, cls)] }

/-- TAKING A TRAP, for every class that suspends a part (R329, R330, R331): the part stops at its
instruction boundary and keeps everything it holds, a token is given to it, and its record goes out
to its owner's trap queue (`TRAP_RECORD` writes it once the ring has room). A trap that finds the ring disabled is
resolved as `.kill` in the same move (`State.killDead`). A prologue has no owner: its record says FRZ and its node
fails when the record is written (R326). An H part stops the H teams of its die, and the management interface
reports it (R326, R365). A part that is suspended already and freezes now keeps its first token, which accepts
`.kill` only (R331) (DEDUCED, log 69). -/
def State.takeTrap (s : State) (p : Nat) (x : Trap) : State :=
  let t := teamOf p
  if (s.launch (s.launchOf t)).level = .h then
    (s.modPart p fun y => { y with life := .frozen, wait := .none }).stopH (dieOf (s.coreOf p)) x.cls
  else
    let ring := s.trapRing t
    let (token, s) := s.takeToken ring
    let frz := frozenClass x.cls || (s.launch (s.launchOf t)).prologue
    let wm := if x.cls = 2 then wordMask (s.part p).lo x.act x.act
      else wordMask (s.part p).lo x.ga x.act
    let r := s.trapRecord p token x.cls frz x.off x.info wm
    let (id, s) := s.takeId
    let susp : Susp := { cls := x.cls, token := token, frz := frz, next := x.next
                         poison := x.poison, dest := x.dest, lanes := x.lanes }
    let s := s.modPart p fun y =>
      { y with life := if x.cls = 14 then .frozen else .suspended, susp := some susp
               off := x.off
               qTokens := match y.susp with
                 | some u => if u.resolved.isSome then y.qTokens else u.token :: y.qTokens
                 | none => y.qTokens }
    { s with trapOuts := s.trapOuts ++ [{ id := id, ring := ring, part := p, record := r, dead := (s.fn ring).tq.size = 0
                                          time := (s.core (s.coreOf p)).clock }] }

/-- Which `eret` variants a class accepts: 0 `.again`, 1 `.next`, 2 `.zero`, 3 `.kill` (R327). -/
def accepts (cls var : Nat) : Bool :=
  match cls with
  | 1 | 3 | 4 | 5 | 6 | 8 => var = 0 || var = 1 || var = 3
  | 7 => var ≤ 3
  | 9 | 10 | 11 => var = 1 || var = 3
  | 12 => var = 0 || var = 3
  | 2 | 14 => var = 3
  | _ => false

/-- RETURNING FROM A TRAP, for every action but `.kill` (R329, R333, R340): `.again` issues the
instruction again, `.zero` first clears its poisoned words, `.next` goes on after it and, for a
system call, writes the value to its destination. -/
def State.resume (s : State) (p var value : Nat) : State :=
  match (s.part p).susp with
  | none => s
  | some u =>
    let t := teamOf p
    let s := s.modPart p fun y => { y with life := .live, susp := none }
    match var with
    | 1 =>
      let s := if u.cls = 10 then eachLane u.lanes (fun l s => s.wr t l u.dest value) s else s
      s.advance p u.next
    | 2 =>
      u.poison.foldl (fun s k =>
        { s with regs := s.regs.set 0 k 0, regPoison := s.regPoison.set false k false }) s
    | _ => s

end Sys2Proof.Machine
end

