-- ==== Sys2Proof/Machine/Crypto.lean ====
section
/-! DEFINITION. The hashes and the signature scheme that boot and attestation name (R364, R367): SHAKE256 and SHA3-512 as
FIPS 202 gives them, and Ed448 as RFC 8032 gives it (PRESUMED, log 91: the spec names them and does not spell them out). -/

namespace Sys2Proof.Machine

/-! ## Keccak -/

/-- Rotate a lane of 64 bits left. -/
def rotLane (x n : Nat) : Nat := x * 2 ^ n % 2 ^ 64 + x / 2 ^ (64 - n)

/-- The rotations of rho, by lane `x + 5 y`. -/
def rhoOffsets : List Nat :=
  [0, 1, 62, 28, 27, 36, 44, 6, 55, 20, 3, 10, 43, 25, 39, 41, 45, 15, 21, 8, 18, 2, 61, 56, 14]

/-- The constants of iota, by round. -/
def roundConstants : List Nat :=
  [0x1, 0x8082, 0x800000000000808A, 0x8000000080008000, 0x808B, 0x80000001, 0x8000000080008081, 0x8000000000008009
   , 0x8A, 0x88, 0x80008009, 0x8000000A, 0x8000808B, 0x800000000000008B, 0x8000000000008089, 0x8000000000008003
   , 0x8000000000008002, 0x8000000000000080, 0x800A, 0x800000008000000A, 0x8000000080008081, 0x8000000000008080
   , 0x80000001, 0x8000000080008008]

/-- One round of the permutation on 25 lanes. -/
def keccakRound (a : List Nat) (rc : Nat) : List Nat :=
  let at' (l : List Nat) (x y : Nat) : Nat := l.getD (x % 5 + 5 * (y % 5)) 0
  let c := (List.range 5).map fun x => (List.range 5).foldl (fun v y => v ^^^ at' a x y) 0
  let d := (List.range 5).map fun x => c.getD ((x + 4) % 5) 0 ^^^ rotLane (c.getD ((x + 1) % 5) 0) 1
  let t := (List.range 25).map fun i => a.getD i 0 ^^^ d.getD (i % 5) 0
  -- lane (x, y) of the result of pi comes from lane (x + 3 y, x)
  let b := (List.range 25).map fun i =>
    let x := i % 5
    let y := i / 5
    let j := (x + 3 * y) % 5 + 5 * x
    rotLane (t.getD j 0) (rhoOffsets.getD j 0)
  let e := (List.range 25).map fun i =>
    let x := i % 5
    let y := i / 5
    at' b x y ^^^ ((2 ^ 64 - 1 - at' b (x + 1) y) &&& at' b (x + 2) y)
  e.zipIdx.map fun x => if x.2 = 0 then x.1 ^^^ rc else x.1

/-- The permutation of 24 rounds. -/
def keccakF (a : List Nat) : List Nat := roundConstants.foldl keccakRound a

/-- A number of bytes, the first the lowest. -/
def ofBytes (bs : List Nat) : Nat := bs.foldr (fun b n => b % 256 + 256 * n) 0

/-- The bytes of a number, the lowest first. -/
def bytesOf (n x : Nat) : List Nat := (leBytes n x).map (·.toNat)

/-- The message with its suffix and padding, a whole number of blocks of `rate` bytes. -/
def padded (rate suffix : Nat) (m : List Nat) : List Nat :=
  let z := rate - 1 - m.length % rate
  if z = 0 then m ++ [suffix + 0x80] else m ++ suffix :: List.replicate (z - 1) 0 ++ [0x80]

/-- Absorb a padded message, `n` blocks of it. -/
def absorb (rate : Nat) : Nat → List Nat → List Nat → List Nat
  | 0, a, _ => a
  | n + 1, a, m =>
    let block := ofBytes (m.take rate)
    absorb rate n (keccakF ((List.range 25).map fun i => a.getD i 0 ^^^ bits block (64 * i) 64)) (m.drop rate)

/-- Squeeze `n` blocks of `rate` bytes. -/
def squeeze (rate : Nat) : Nat → List Nat → List Nat
  | 0, _ => []
  | n + 1, a => (a.flatMap (bytesOf 8)).take rate ++ squeeze rate n (keccakF a)

/-- The sponge: `n` bytes of output, as a number. -/
def sponge (rate suffix : Nat) (m : List Nat) (n : Nat) : Nat :=
  let a := absorb rate (m.length / rate + 1) (List.replicate 25 0) (padded rate suffix m)
  ofBytes ((squeeze rate (ceilDiv n rate) a).take n)

/-- SHAKE256, `n` bytes (R364). -/
def shake256 (m : List Nat) (n : Nat) : Nat := sponge 136 0x1F m n

/-- SHA3-512 (R367). -/
def sha3 (m : List Nat) : Nat := sponge 72 0x06 m 64

/-! ## Ed448 -/

/-- The field of the curve. -/
def edP : Nat := 2 ^ 448 - 2 ^ 224 - 1

/-- The order of the base point. -/
def edL : Nat := 2 ^ 446 - 13818066809895115352007386748515426880336692474882178609894547503885

/-- The constant of the curve: -39081. -/
def edD : Nat := edP - 39081

/-- A power modulo the field's prime, over `n` bits of the exponent. -/
def edPow (x e : Nat) : Nat → Nat
  | 0 => 1
  | n + 1 =>
    let y := edPow x (e / 2) n
    let z := y * y % edP
    if e % 2 = 1 then z * x % edP else z

/-- The inverse in the field. -/
def edInv (x : Nat) : Nat := edPow x (edP - 2) 448

/-- A point in projective coordinates. -/
structure EdPoint where
  x : Nat
  y : Nat
  z : Nat
  deriving DecidableEq, Repr

/-- The neutral point. -/
def edZero : EdPoint := ⟨0, 1, 1⟩

/-- The base point. -/
def edBase : EdPoint :=
  ⟨224580040295924300187604334099896036246789641632564134246125461686950415467406032909029192869357953282578032075146446173674602635247710
   , 298819210078481492676017930443930673437544040154080242095928241372331506189835876003536878655418784733982303233503462500531545062832660
   , 1⟩

/-- The sum of two points. -/
def edAdd (p q : EdPoint) : EdPoint :=
  let a := p.z * q.z % edP
  let b := a * a % edP
  let c := p.x * q.x % edP
  let d := p.y * q.y % edP
  let e := edD * (c * d % edP) % edP
  let f := (b + edP - e) % edP
  let g := (b + e) % edP
  let h := (p.x + p.y) * (q.x + q.y) % edP
  ⟨a * f % edP * ((h + 2 * edP - c - d) % edP) % edP, a * g % edP * ((d + edP - c) % edP) % edP, f * g % edP⟩

/-- A multiple of a point, over `n` bits of the factor. -/
def edMul (p : EdPoint) (k : Nat) : Nat → EdPoint
  | 0 => edZero
  | n + 1 =>
    let q := edMul p (k / 2) n
    let r := edAdd q q
    if k % 2 = 1 then edAdd r p else r

/-- A point as 57 bytes. -/
def edEncode (p : EdPoint) : Nat :=
  let i := edInv p.z
  p.y * i % edP + p.x * i % edP % 2 * 2 ^ 455

/-- The point that 57 bytes stand for, if they stand for one. -/
def edDecode (b : Nat) : Option EdPoint :=
  let y := b % 2 ^ 455
  let u := (y * y + edP - 1) % edP
  let v := (edD * (y * y % edP) + edP - 1) % edP
  let u3 := u * u % edP * u % edP
  let w := u3 * u % edP * u % edP * (v * v % edP * v % edP) % edP
  let x := u3 * v % edP * edPow w ((edP - 3) / 4) 448 % edP
  let odd := b / 2 ^ 455 % 2
  if edP ≤ y || v * (x * x % edP) % edP ≠ u || (x = 0 && odd = 1) then none
  else some ⟨if x % 2 = odd then x else edP - x, y, 1⟩

/-- Whether two points are the same. -/
def edSame (p q : EdPoint) : Bool := p.x * q.z % edP = q.x * p.z % edP && p.y * q.z % edP = q.y * p.z % edP

/-- The secret scalar and the prefix of a private key of 57 bytes. -/
def edSecret (key : Nat) : Nat × List Nat :=
  let h := shake256 (bytesOf 57 key) 114
  (bits h 2 445 * 4 + 2 ^ 447, bytesOf 57 (h / 2 ^ 456))

/-- The hash of Ed448 over its domain prefix, with no context, modulo the order. -/
def edHash (m : List Nat) : Nat :=
  shake256 ([0x53, 0x69, 0x67, 0x45, 0x64, 0x34, 0x34, 0x38, 0, 0] ++ m) 114 % edL

/-- The public key of a private key. -/
def ed448Public (key : Nat) : Nat := edEncode (edMul edBase (edSecret key).1 448)

/-- The signature of a message, 114 bytes as a number. -/
def ed448Sign (key : Nat) (m : List Nat) : Nat :=
  let s := edSecret key
  let r := edHash (s.2 ++ m)
  let p := edEncode (edMul edBase r 448)
  let k := edHash (bytesOf 57 p ++ bytesOf 57 (ed448Public key) ++ m)
  p + (r + k * s.1) % edL * 2 ^ 456

/-- Whether a signature over a message is valid under a public key. -/
def ed448Verify (pub : Nat) (m : List Nat) (sig : Nat) : Bool :=
  let p := sig % 2 ^ 456
  let n := sig / 2 ^ 456
  match edDecode pub, edDecode p with
  | some a, some r =>
    let k := edHash (bytesOf 57 p ++ bytesOf 57 pub ++ m)
    n < edL && edSame (edMul (edMul edBase n 448) 4 3) (edMul (edAdd r (edMul a k 448)) 4 3)
  | _, _ => false

end Sys2Proof.Machine
end

