-- ==== Sys2Proof/Machine/Flags.lean ====
section
/-! DEFINITION. Number formats, the rounding helpers and the flags they raise (R150 to R159), and the
functions whose exact results are irrational (R176 to R178).

A finite value is held as `± m × 2^e`, or as a value strictly between `m × 2^e` and
`(m + 1) × 2^e` when its low part is not kept (`sticky`); every producer of a sticky value keeps at
least two bits below the rounding point, so that rounding sees what it needs. -/

namespace Sys2Proof.Machine

/-! ## Formats -/

/-- The floating-point formats (R150). -/
inductive FFmt | f32 | f16 | bf16 | e4m3 | e5m2 | e2m1
  deriving DecidableEq, Repr

/-- The number of fraction bits F. -/
def FFmt.frac : FFmt → Nat
  | .f32 => 23 | .f16 => 10 | .bf16 => 7 | .e4m3 => 3 | .e5m2 => 2 | .e2m1 => 1

def FFmt.bias : FFmt → Nat
  | .f32 => 127 | .f16 => 15 | .bf16 => 127 | .e4m3 => 7 | .e5m2 => 15 | .e2m1 => 1

/-- The width in bits. -/
def FFmt.width : FFmt → Nat
  | .f32 => 32 | .f16 => 16 | .bf16 => 16 | .e4m3 => 8 | .e5m2 => 8 | .e2m1 => 4

def FFmt.hasInf : FFmt → Bool
  | .e4m3 | .e2m1 => false
  | _ => true

/-- The code of the largest finite value. -/
def FFmt.maxCode : FFmt → Nat
  | .f32 => 0x7F7FFFFF | .f16 => 0x7BFF | .bf16 => 0x7F7F | .e4m3 => 0x7E | .e5m2 => 0x7B
  | .e2m1 => 0x7

/-- The canonical NaN, and +0 for E2M1, which has none (R151). -/
def FFmt.nanCode : FFmt → Nat
  | .f32 => 0x7FC00000 | .f16 => 0x7E00 | .bf16 => 0x7FC0 | .e4m3 => 0x7F | .e5m2 => 0x7E
  | .e2m1 => 0

/-- The code of positive infinity, in the formats that have one. -/
def FFmt.infCode : FFmt → Nat
  | .f32 => 0x7F800000 | .f16 => 0x7C00 | .bf16 => 0x7F80 | .e5m2 => 0x7C | _ => 0

/-- The smallest normal exponent. -/
def FFmt.emin (f : FFmt) : Int := 1 - f.bias

/-- An exact value: NaN, an infinity, or a finite value. -/
inductive Ext
  | nan (signalling : Bool)
  | inf (neg : Bool)
  | fin (neg : Bool) (m : Nat) (e : Int) (sticky : Bool)
  deriving DecidableEq, Repr

/-- Zero of a sign. -/
def Ext.zero (neg : Bool) : Ext := .fin neg 0 0 false

def Ext.isNan : Ext → Bool
  | .nan _ => true
  | _ => false

def Ext.isSnan : Ext → Bool
  | .nan true => true
  | _ => false

def Ext.isZero : Ext → Bool
  | .fin _ 0 _ _ => true
  | _ => false

def Ext.neg? : Ext → Bool
  | .nan _ => false
  | .inf n => n
  | .fin n _ _ _ => n

/-- The opposite value. -/
def Ext.negate : Ext → Ext
  | .nan q => .nan q
  | .inf n => .inf (!n)
  | .fin n m e s => .fin (!n) m e s

/-- The value that a code holds (R150, R151). -/
def decodeF (f : FFmt) (code : Nat) : Ext :=
  let c := code % 2 ^ f.width
  let neg := bit c (f.width - 1)
  let mag := c % 2 ^ (f.width - 1)
  let fr := mag % 2 ^ f.frac
  let ex := mag / 2 ^ f.frac
  let ones := 2 ^ (f.width - 1 - f.frac) - 1
  if f = .e4m3 && mag = 0x7F then .nan false
  else if f.hasInf && ex = ones then
    if fr = 0 then .inf neg
    else .nan (f ≠ .e5m2 && !bit fr (f.frac - 1))
  else if ex = 0 then .fin neg fr (f.emin - f.frac) false
  else .fin neg (2 ^ f.frac + fr) ((ex : Int) - f.bias - f.frac) false

/-! ## Rounding -/

/-- Flag bits (R143). -/
def fNV : Nat := 1
def fDZ : Nat := 2
def fOF : Nat := 4
def fUF : Nat := 8
def fNX : Nat := 16

/-- Whether a magnitude between `q` and `q + 1` grid steps is rounded up to `q + 1`, from the exact
remainder `rem` out of `2^d` and whether more lies below it (R154). -/
def roundUp? (m : Rnd) (neg : Bool) (q rem d : Nat) (sticky : Bool) : Bool :=
  let inexact := rem ≠ 0 || sticky
  let above := 2 ^ d < 2 * rem || (2 * rem = 2 ^ d && sticky)
  let tie := 2 * rem = 2 ^ d && !sticky
  match m with
  | .rne => above || (tie && q % 2 = 1)
  | .rtz => false
  | .rup => inexact && !neg
  | .rdn => inexact && neg
  | .rna => above || tie
  | .rto => inexact && q % 2 = 0

/-- The magnitude code of `q × 2^ge`, which lies on the format's grid. -/
def encodeMag (f : FFmt) (q : Nat) (ge : Int) : Nat :=
  if q = 0 then 0
  else
    let k := Nat.log2 q
    let ex := (k : Int) + ge
    if ex < f.emin then q
    else
      let sig := if k ≤ f.frac then q * 2 ^ (f.frac - k) else q / 2 ^ (k - f.frac)
      (ex + f.bias).toNat * 2 ^ f.frac + (sig - 2 ^ f.frac)

/-- The sign bit of a code. -/
def signBit (f : FFmt) (neg : Bool) : Nat := b2n neg * 2 ^ (f.width - 1)

/-- Keep a value's exponent within bounds that no rounding result depends on: any magnitude from
2^4096 up overflows every format, and any below 2^−4096 lies far under every subnormal. -/
def Ext.clamp : Ext → Ext
  | .fin n m e s =>
    if m = 0 then .fin n m 0 s
    else
      let k := (Nat.log2 m : Int) + e
      if 4096 < k then .fin n 1 4096 false
      else if k < -4096 then .fin n 1 (-4096) true
      else .fin n m e s
  | x => x

/-- R155 `round`: the code of a value in a format, and the flags raised. -/
def roundF (x : Ext) (f : FFmt) (m : Rnd) (sat : Bool) : Nat × Nat :=
  match x.clamp with
  | .nan _ => (f.nanCode, if f = .e2m1 then fNV else 0)
  | .inf neg =>
    if f.hasInf then (signBit f neg + f.infCode, 0)
    else if sat || f = .e2m1 then (signBit f neg + f.maxCode, fNV)
    else (f.nanCode, fNV)
  | .fin neg mm e st =>
    if mm = 0 then (signBit f neg, 0)
    else
      let k := (Nat.log2 mm : Int) + e
      let ge := max k f.emin - f.frac
      let d := (ge - e).toNat
      let q := if e ≤ ge then mm / 2 ^ d else mm * 2 ^ (e - ge).toNat
      let rem := if e ≤ ge then mm % 2 ^ d else 0
      let inexact := rem ≠ 0 || st
      let q' := if roundUp? m neg q rem d st then q + 1 else q
      let nx := if inexact then fNX else 0
      let uf := if inexact && k < f.emin then fUF else 0
      let code := encodeMag f q' ge
      if f.maxCode < code then
        let toMax := sat || f = .e2m1 || m = .rtz || m = .rto || (m = .rdn && !neg)
          || (m = .rup && neg)
        let r := if toMax then signBit f neg + f.maxCode
          else if f.hasInf then signBit f neg + f.infCode else f.nanCode
        (r, nx ||| uf ||| fOF ||| fNX)
      else (signBit f neg + code, nx ||| uf)

/-- R156: under `.ftz` an FP32 operand that is subnormal reads as zero of its sign. -/
def ftzIn (ftz : Bool) (f : FFmt) (code : Nat) : Nat :=
  if ftz && f = .f32 && bits code 23 8 = 0 then code / 2 ^ 31 % 2 * 2 ^ 31 else code

/-- R156: under `.ftz` an FP32 result below 2^−126 in magnitude is replaced by zero of its sign. -/
def ftzOut (ftz : Bool) (f : FFmt) (r : Nat × Nat) : Nat × Nat :=
  if ftz && f = .f32 && bits r.1 23 8 = 0 && bits r.1 0 23 ≠ 0 then
    (r.1 / 2 ^ 31 * 2 ^ 31, r.2 ||| fUF ||| fNX)
  else r

/-- The integer next to a finite value under a rounding mode, and whether it differs (R154). -/
def roundInt (m : Rnd) (neg : Bool) (mm : Nat) (e : Int) (st : Bool) : Int × Bool :=
  let d := (-e).toNat
  let q := if e < 0 then mm / 2 ^ d else mm * 2 ^ e.toNat
  let rem := if e < 0 then mm % 2 ^ d else 0
  let q' := if roundUp? m neg q rem d st then q + 1 else q
  (if neg then -(q' : Int) else q', rem ≠ 0 || st)

/-- R153 `sat_int`: an integer result of a type from `lo` to `hi`, and whether NV is raised. -/
def satInt (lo hi x : Int) : Int × Bool := if x < lo then (lo, true) else if hi < x then (hi, true) else (x, false)

/-! ## Exact arithmetic -/

/-- The signed coefficient of a finite value at exponent `e0 ≤ e`. -/
def coeff (neg : Bool) (m : Nat) (e e0 : Int) : Int :=
  let v := (m : Int) * 2 ^ (e - e0).toNat
  if neg then -v else v

/-- A finite value from a signed coefficient; an exact zero takes the sign given. -/
def ofCoeff (x : Int) (e : Int) (zneg : Bool) : Ext :=
  if x = 0 then .zero zneg else .fin (x < 0) x.natAbs e false

/-- The exact sum of two values that are no NaN, and the flags of an invalid sum (R177). An exact
zero sum of opposite signs is +0, and −0 under `.rdn`. -/
def addE (m : Rnd) (a b : Ext) : Ext × Nat :=
  match a, b with
  | .nan _, _ => (.nan false, 0)
  | _, .nan _ => (.nan false, 0)
  | .inf x, .inf y => if x = y then (.inf x, 0) else (.nan false, fNV)
  | .inf x, _ => (.inf x, 0)
  | _, .inf y => (.inf y, 0)
  | .fin n1 m1 e1 _, .fin n2 m2 e2 _ =>
    let e0 := min e1 e2
    (ofCoeff (coeff n1 m1 e1 e0 + coeff n2 m2 e2 e0) e0
      (if n1 = n2 then n1 else m = .rdn), 0)

/-- The exact product of two values that are no NaN. -/
def mulE (a b : Ext) : Ext × Nat :=
  let n := a.neg? != b.neg?
  match a, b with
  | .nan _, _ => (.nan false, 0)
  | _, .nan _ => (.nan false, 0)
  | .inf _, y => if y.isZero then (.nan false, fNV) else (.inf n, 0)
  | x, .inf _ => if x.isZero then (.nan false, fNV) else (.inf n, 0)
  | .fin _ m1 e1 _, .fin _ m2 e2 _ => (.fin n (m1 * m2) (e1 + e2) false, 0)

/-- Division (R177, R178). -/
def divE (a b : Ext) : Ext × Nat :=
  let n := a.neg? != b.neg?
  match a, b with
  | .nan _, _ => (.nan false, 0)
  | _, .nan _ => (.nan false, 0)
  | .inf _, .inf _ => (.nan false, fNV)
  | .inf _, _ => (.inf n, 0)
  | _, .inf _ => (.zero n, 0)
  | .fin _ m1 e1 _, .fin _ m2 e2 _ =>
    if m2 = 0 then if m1 = 0 then (.nan false, fNV) else (.inf n, fDZ)
    else if m1 = 0 then (.zero n, 0)
    else
      let x := m1 * 2 ^ 80
      (.fin n (x / m2) (e1 - e2 - 80) (x % m2 ≠ 0), 0)

/-- The integer square root of `n`, found bit by bit from bit `k − 1` down. -/
def isqrtFrom (n : Nat) : Nat → Nat → Nat
  | 0, r => r
  | k + 1, r => isqrtFrom n k (if (r + 2 ^ k) * (r + 2 ^ k) ≤ n then r + 2 ^ k else r)

def isqrt (n : Nat) : Nat := isqrtFrom n (Nat.log2 n / 2 + 1) 0

/-- A positive finite value with its exponent made even. -/
def evenExp (m : Nat) (e : Int) : Nat × Int := if e % 2 = 0 then (m, e) else (2 * m, e - 1)

def sqrtE (a : Ext) : Ext × Nat :=
  match a with
  | .nan _ => (.nan false, 0)
  | .inf n => if n then (.nan false, fNV) else (.inf false, 0)
  | .fin n m e _ =>
    if m = 0 then (.zero n, 0)
    else if n then (.nan false, fNV)
    else
      let (m, e) := evenExp m e
      let x := m * 2 ^ 80
      let r := isqrt x
      (.fin false r (e / 2 - 40) (r * r ≠ x), 0)

/-- 1 / √a (R178). -/
def rsqrtE (a : Ext) : Ext × Nat :=
  match a with
  | .nan _ => (.nan false, 0)
  | .inf n => if n then (.nan false, fNV) else (.zero false, 0)
  | .fin n m e _ =>
    if m = 0 then (.inf n, fDZ)
    else if n then (.nan false, fNV)
    else
      let (m, e) := evenExp m e
      let r := isqrt (2 ^ 200 / m)
      (.fin false r (-(e / 2) - 100) (r * r * m ≠ 2 ^ 200), 0)

/-! ## Functions with irrational results

A fixed-point number here counts units of 2^−320. The series are cut and floored far below the 280
bits that are kept, and the value kept is marked sticky: its exact value is irrational, so it lies
on no rounding boundary (PRESUMED, log 9 gives the argument for the distance to a boundary). -/

/-- ln 2 and π in units of 2^−320. -/
def ln2Fix : Nat :=
  1480553391661173448385607439722553250922680800745876974795605978609098082859138712941075737848984
def piFix : Nat :=
  6710401180212168915155840974220003240804194089427148950727106424351713218671805380099500388914039

/-- The product of two fixed-point numbers. -/
def fixMul (x y : Nat) : Nat := x * y / 2 ^ 320

/-- The sum of x^i / i! from a term and index on. -/
def expSeries (x : Nat) : Nat → Nat → Nat → Nat
  | 0, _, acc => acc
  | k + 1, term, acc => expSeries x k (fixMul term x / (91 - (k + 1))) (acc + term)

/-- e^x for a fixed-point x in [0, 1). -/
def fixExp (x : Nat) : Nat := expSeries x 90 (2 ^ 320) 0

/-- The alternating sum of y^(2i)·t / ((n+1)(n+2)…): sine from t = y, n = 1; cosine from t = 1,
n = 0. -/
def trigSeries (y2 : Nat) : Nat → Nat → Nat → Bool → Int → Int
  | 0, _, _, _, acc => acc
  | k + 1, n, term, neg, acc =>
    trigSeries y2 k (n + 2) (fixMul term y2 / ((n + 1) * (n + 2))) (!neg)
      (if neg then acc - term else acc + term)

/-- The sum of t^(2i+1) / (2i+1). -/
def atanhSeries (t2 : Nat) : Nat → Nat → Nat → Nat → Nat
  | 0, _, _, acc => acc
  | k + 1, n, term, acc => atanhSeries t2 k (n + 2) (fixMul term t2) (acc + term / n)

/-- A sticky value from a fixed-point number: 280 fraction bits are kept. -/
def ofFix (neg : Bool) (x : Nat) (e : Int) : Ext := .fin neg (x / 2 ^ 40) (e - 280) true

/-- A finite value as a fixed-point magnitude; exact, since every operand format's grid is coarser
than 2^−320. -/
def toFix (m : Nat) (e : Int) : Nat :=
  if e + 320 < 0 then m / 2 ^ (-(e + 320)).toNat else m * 2 ^ (e + 320).toNat

/-- 2^(± v) for a positive fixed-point v, as a sticky value or an exact power of two. -/
def pow2Fix (neg : Bool) (v : Nat) : Ext :=
  let k : Nat := v / 2 ^ 320
  let f : Nat := v % 2 ^ 320
  if f = 0 then .fin false 1 (if neg then -(k : Int) else (k : Int)) false
  else if neg then ofFix false (fixExp (fixMul (2 ^ 320 - f) ln2Fix)) (-(k : Int) - 1)
  else ofFix false (fixExp (fixMul f ln2Fix)) (k : Int)

def exp2E (a : Ext) : Ext × Nat :=
  match a with
  | .nan _ => (.nan false, 0)
  | .inf n => if n then (.zero false, 0) else (.inf false, 0)
  | .fin n m e _ =>
    if m = 0 then (.fin false 1 0 false, 0)
    else if 12 < (Nat.log2 m : Int) + e then
      (if n then .fin false 1 (-4096) true else .fin false 1 4096 false, 0)
    else (pow2Fix n (toFix m e), 0)

def log2E (a : Ext) : Ext × Nat :=
  match a with
  | .nan _ => (.nan false, 0)
  | .inf n => if n then (.nan false, fNV) else (.inf false, 0)
  | .fin n m e _ =>
    if m = 0 then (.inf true, fDZ)
    else if n then (.nan false, fNV)
    else
      let lg := Nat.log2 m
      let k := (lg : Int) + e
      if m = 2 ^ lg then (ofCoeff k 0 false, 0)
      else
        let z := m * 2 ^ 320 / 2 ^ lg
        let t := (z - 2 ^ 320) * 2 ^ 320 / (z + 2 ^ 320)
        let ln := 2 * atanhSeries (fixMul t t) 110 1 t 0
        let x : Int := k * 2 ^ 320 + ((ln * 2 ^ 320 / ln2Fix : Nat) : Int)
        (ofFix (x < 0) x.natAbs 0, 0)

/-- sin(π × r) for a fixed-point r strictly between 0 and 1/2. -/
def sinPiFix (r : Nat) : Nat :=
  let y := fixMul r piFix
  (trigSeries (fixMul y y) 60 1 y false 0).toNat

/-- cos(π × r) for a fixed-point r strictly between 0 and 1/2. -/
def cosPiFix (r : Nat) : Nat :=
  let y := fixMul r piFix
  (trigSeries (fixMul y y) 60 0 (2 ^ 320) false 0).toNat

/-- sin(π × a) (R178): exact at every multiple of 1/2. -/
def sinE (a : Ext) : Ext × Nat :=
  match a with
  | .nan _ => (.nan false, 0)
  | .inf _ => (.nan false, fNV)
  | .fin n m e _ =>
    if m = 0 then (.zero n, 0)
    else
      let r := if 0 ≤ e + 320 then (m * 2 ^ (e + 320).toNat) % 2 ^ 321 else toFix m e
      let neg := n != decide (2 ^ 320 ≤ r)
      let x := r % 2 ^ 320
      if x = 0 then (.zero n, 0)
      else if x = 2 ^ 319 then (.fin neg 1 0 false, 0)
      else if x < 2 ^ 319 then (ofFix neg (sinPiFix x) 0, 0)
      else (ofFix neg (sinPiFix (2 ^ 320 - x)) 0, 0)

/-- cos(π × a) (R178). -/
def cosE (a : Ext) : Ext × Nat :=
  match a with
  | .nan _ => (.nan false, 0)
  | .inf _ => (.nan false, fNV)
  | .fin _ m e _ =>
    if m = 0 then (.fin false 1 0 false, 0)
    else
      let r := if 0 ≤ e + 320 then (m * 2 ^ (e + 320).toNat) % 2 ^ 321 else toFix m e
      let neg := decide (2 ^ 319 < r) && decide (r < 3 * 2 ^ 319)
      let x := r % 2 ^ 320
      if x = 0 then (.fin neg 1 0 false, 0)
      else if x = 2 ^ 319 then (.zero false, 0)
      else if x < 2 ^ 319 then (ofFix neg (cosPiFix x) 0, 0)
      else (ofFix neg (cosPiFix (2 ^ 320 - x)) 0, 0)

/-- tanh a. A tiny input's result lies just below it, and a large input's just below 1. -/
def tanhE (a : Ext) : Ext × Nat :=
  match a with
  | .nan _ => (.nan false, 0)
  | .inf n => (.fin n 1 0 false, 0)
  | .fin n m e _ =>
    let k := (Nat.log2 m : Int) + e
    if m = 0 then (.zero n, 0)
    else if k < -60 then (.fin n (m * 2 ^ 90 - 1) (e - 90) true, 0)
    else if 8 ≤ k then (.fin n (2 ^ 300 - 1) (-300) true, 0)
    else
      let v := (2 * toFix m e) * 2 ^ 320 / ln2Fix
      match pow2Fix true v with
      | .fin _ pm pe _ =>
        let w := toFix pm pe
        (ofFix n ((2 ^ 320 - w) * 2 ^ 320 / (2 ^ 320 + w)) 0, 0)
      | _ => (.zero n, 0)

/-! ## Minimum, maximum and comparison -/

/-- Whether `a ≤ b` for values that are no NaN, with −0 below +0 (R177). -/
def leE (a b : Ext) : Bool :=
  match a, b with
  | .inf true, _ => true
  | _, .inf false => true
  | .inf false, _ => false
  | _, .inf true => false
  | .fin n1 m1 e1 _, .fin n2 m2 e2 _ =>
    let e0 := min e1 e2
    let x := coeff n1 m1 e1 e0
    let y := coeff n2 m2 e2 e0
    if x = y then n1 || !n2 else x < y
  | _, _ => false

/-- Whether two values that are no NaN compare equal. -/
def eqE (a b : Ext) : Bool :=
  match a, b with
  | .inf x, .inf y => x = y
  | .fin n1 m1 e1 _, .fin n2 m2 e2 _ =>
    let e0 := min e1 e2
    coeff n1 m1 e1 e0 = coeff n2 m2 e2 e0
  | _, _ => false

/-- The code that `fmin` or `fmax` returns, and its flags: NV for a signalling NaN only (R177). -/
def minmaxF (f : FFmt) (mx : Bool) (a b : Nat) : Nat × Nat :=
  let x := decodeF f a
  let y := decodeF f b
  let nv := if x.isSnan || y.isSnan then fNV else 0
  if x.isNan && y.isNan then (f.nanCode, nv)
  else if x.isNan then (b, nv)
  else if y.isNan then (a, nv)
  else if leE x y then (if mx then b else a, nv)
  else (if mx then a else b, nv)

/-- R159 `scale_apply`: an element times 2^s, rounded; a zero block reads as +0. `s` is a byte. -/
def scaleApply (x : Ext) (s : Nat) (f : FFmt) (m : Rnd) : Nat × Nat :=
  if s % 256 = 128 then (0, 0)
  else
    match x with
    | .fin n mm e st => roundF (.fin n mm (e + sint 8 s) st) f m false
    | x => roundF x f m false

end Sys2Proof.Machine
end

