-- ==== Sys2Proof/Machine/Operands.lean ====
section
/-! DEFINITION. What each instruction names and reads before it does anything: registers and the
lanes they are read for, destinations, labels, level, engine, and the checks that need the kernel
(declared registers, valid labels, privilege). -/

namespace Sys2Proof

open Machine

/-! ## Registers named -/

/-- For which lanes a source is read: every guarded-active lane; the lowest one (R113); the poster
(R94); the lowest one of each word (R125); every position of the operand word (R278); or lanes that
the cross-lane operation chooses (R223). -/
inductive Reader | each | low | poster | wordLow | tile | cross
  deriving DecidableEq, Repr

/-- `n` registers from `r` up. -/
def regRun (r : Reg) (n : Nat) : List Nat := (List.range n).map (r.val + ·)

/-- Sources read by every guarded-active lane. -/
def eachReg (rs : List Nat) : List (Reader × Nat) := rs.map fun r => (.each, r)

/-- The register of a predicate source; p0 reads none (R142, R23). -/
def predReg (n : Pred) : List Nat := if n.val = 0 then [] else [n.val / 32]

/-- Registers of a data operand of `ld`, `st`, `ldg`, `stg` (R115). -/
def szRegs (sz : Sz) (d : Reg) : List Nat :=
  match sz with
  | .i64 => regRun d 2
  | .w4 => regRun d 4
  | _ => [d.val]

/-- A register, or the pair it names. -/
def wideRegs (w : Bool) (r : Reg) : List Nat := if w then regRun r 2 else [r.val]

/-- A memory or register operand tile of a pass (R278, R279). -/
def tileReads (mem : Bool) (r : Reg) : List (Reader × Nat) :=
  if mem then (regRun r 4).map fun x => (.poster, x) else (regRun r 16).map fun x => (.tile, x)

/-- The sources of `mma` and `mmap` (R278, R282, R285). -/
def mmaReads (o : MmaOps) (a : Reg) (paired : Bool) : List (Reader × Nat) :=
  tileReads o.aMem a ++ tileReads o.bMem o.b
    ++ (if o.sca then [(.tile, o.sa.val)] else [])
    ++ (if o.scb then (wideRegs paired o.sb).map fun x => (.tile, x) else [])

/-- The sources of `trav` and `tres` (R303). -/
def travReads (a : Reg) : List (Reader × Nat) :=
  eachReg (regRun a 2) ++ [(.poster, a.val + 2), (.poster, a.val + 3)]

/-- The registers an instruction reads through its source fields, with the lanes they are read for.
A register that two fields name is listed twice (R23). Guards are not listed. -/
def Instr.reads : Instr → List (Reader × Nat)
  | .nop .. | .go .. | .call .. | .exit .. | .beat .. | .ipref .. | .trap .. | .brk ..
  | .split .. | .fuse .. | .fuset .. | .movi .. | .elect .. | .sread .. | .cntq .. | .fence ..
  | .fenceSys .. | .bar .. | .barr .. | .plcan .. | .plrep .. | .acz .. | .acrel .. | .acrelAll ..
  | .acstat .. | .tretSkip .. | .tretCont .. | .tretStop .. | .sys .. | .csrr .. => []
  | .goi _ a | .calli _ _ a _ => eachReg [a.val]
  | .gosel _ p _ _ => eachReg (predReg p.n)
  | .iadd _ _ a b _ _ | .isub _ _ a b _ _ | .imul _ _ a b _ _ => eachReg [a.val, b.val]
  | .iadc _ _ a b c _ => eachReg ([a.val, b.val] ++ predReg c)
  | .imulh _ _ a b _ | .imin _ _ a b _ | .imax _ _ a b _ | .bfx _ _ a b _ =>
      eachReg [a.val, b.val]
  | .imad _ _ a b c _ _ => eachReg [a.val, b.val, c.val]
  | .imadw _ _ a b c _ => eachReg ([a.val, b.val] ++ regRun c 2)
  | .iabs _ _ a _ | .ineg _ _ a _ => eachReg [a.val]
  | .icmp _ _ a b _ _ => eachReg [a.val, b.val]
  | .sel _ _ a b p => eachReg ([a.val, b.val] ++ predReg p.n)
  | .shl _ _ a b | .shr _ _ a b | .sha _ _ a b | .iand _ _ a b | .ior _ _ a b | .ixor _ _ a b =>
      eachReg [a.val, b.val]
  | .rot _ _ a b _ => eachReg [a.val, b.val]
  | .fsh _ _ a b c _ => eachReg [a.val, b.val, c.val]
  | .lop3 _ _ a b c _ => eachReg [a.val, b.val, c.val]
  | .popc _ _ a | .clz _ _ a | .ctz _ _ a | .brev _ _ a | .mov _ _ a => eachReg [a.val]
  | .bfi _ _ a b c | .prmt _ _ a b c => eachReg [a.val, b.val, c.val]
  | .movhi _ _ a _ => eachReg [a.val]
  | .lea _ _ a b _ _ => eachReg (regRun a 2 ++ [b.val])
  | .add64 _ _ a b _ | .cmp64 _ _ a b _ => eachReg (regRun a 2 ++ regRun b 2)
  | .pbit _ _ pa pb _ => eachReg (predReg pa.n ++ predReg pb.n)
  | .fadd _ _ a b _ _ _ _ | .fsub _ _ a b _ _ _ _ | .fmul _ _ a b _ _ _ _
  | .fscale _ _ a b _ _ _ _ | .fdiv _ _ a b _ _ _ _ => eachReg [a.val, b.val]
  | .ffma _ _ a b c _ _ _ _ | .fdot2 _ _ a b c _ _ _ _ => eachReg [a.val, b.val, c.val]
  | .fmin _ _ a b _ _ | .fmax _ _ a b _ _ | .fcmp _ _ a b _ _ => eachReg [a.val, b.val]
  | .fclass _ _ a _ => eachReg [a.val]
  | .frnd _ _ a _ _ _ => eachReg [a.val]
  | .frcp _ _ a _ _ _ _ | .fsqrt _ _ a _ _ _ _ => eachReg [a.val]
  | .frsq _ _ a _ _ _ | .fexp2 _ _ a _ _ _ | .flog2 _ _ a _ _ _ | .fsin _ _ a _ _ _
  | .fcos _ _ a _ _ _ | .ftanh _ _ a _ _ _ => eachReg [a.val]
  | .cvt _ _ a _ src _ _ _ => eachReg (wideRegs src.wide a)
  | .pack _ _ a tc _ _ _ => eachReg (regRun a (packCount tc))
  | .unpk _ _ a _ => eachReg [a.val]
  | .qnt _ _ a b tc _ _ _ => eachReg (regRun a (packCount tc) ++ [b.val])
  | .dqn _ _ a b _ _ _ => eachReg [a.val, b.val]
  | .plx _ _ a _ => eachReg (regRun a 8)
  | .pli _ _ a k => eachReg (regRun a k.val)
  | .shuf _ _ a b _ w _ => (wideRegs w a).map (fun x => (.cross, x)) ++ eachReg [b.val]
  | .shufImm _ _ a _ _ w _ => (wideRegs w a).map fun x => (.cross, x)
  | .qswap _ _ a _ w | .qbc _ _ a _ w => (wideRegs w a).map fun x => (.cross, x)
  | .vote _ _ pa _ _ | .ballot _ _ pa _ => eachReg (predReg pa.n)
  | .ballotWord _ _ pa b _ => eachReg (predReg pa.n ++ [b.val])
  | .matchAny _ _ a w _ | .matchAll _ _ a _ w _ => eachReg (wideRegs w a)
  | .ired _ _ a _ _ _ => eachReg [a.val]
  | .fred _ _ a _ _ _ => eachReg [a.val]
  | .iscan _ _ a _ _ _ _ => eachReg [a.val]
  | .fscan _ _ a _ _ _ _ => eachReg [a.val]
  | .ld _ _ a _ _ _ _ _ => eachReg (regRun a 2)
  | .st _ d a _ sz _ _ _ => eachReg (regRun a 2 ++ szRegs sz d)
  | .atom _ _ a b c op ty _ _ _ =>
      eachReg (regRun a 2 ++ wideRegs ty.wide b ++ (if op = .cas then wideRegs ty.wide c else []))
  | .red _ a b _ ty _ _ _ => eachReg (regRun a 2 ++ wideRegs ty.wide b)
  | .ldg _ _ a b _ _ iw _ _ _ _ =>
      (regRun a 2).map (fun x => (.low, x)) ++ eachReg (wideRegs (iw = .ix64) b)
  | .stg _ d a b _ sz iw _ _ _ _ =>
      (regRun a 2).map (fun x => (.low, x)) ++ eachReg (wideRegs (iw = .ix64) b ++ szRegs sz d)
  | .ldft _ _ a b _ _ => (regRun a 2 ++ [b.val]).map fun x => (.wordLow, x)
  | .smap _ _ a b c => (regRun a 2 ++ [b.val, c.val]).map fun x => (.low, x)
  | .sunmap _ _ a => (regRun a 2).map fun x => (.low, x)
  | .sflush _ a b all | .sdrop _ a b all =>
      if all then [] else (regRun a 2 ++ [b.val]).map fun x => (.low, x)
  | .pfd _ a _ _ => eachReg (regRun a 2)
  | .waitc _ a _ => [(.low, a.val)]
  | .barw _ a _ _ => eachReg [a.val]
  | .barinit _ a _ => [(.low, a.val)]
  | .cpy _ d a len _ =>
      (regRun d 2 ++ regRun a 2 ++ (match len with | .reg r => [r.val] | .imm _ => [])).map
        fun x => (.poster, x)
  | .cpyg _ d a _ ix _ =>
      ((regRun d 2 ++ regRun a 2) ++ (if ix then [a.val + 2, a.val + 3] else [])
        ++ [a.val + 4, a.val + 5, a.val + 6]).map fun x => (.poster, x)
  | .plset _ a _ => [(.poster, a.val)]
  | .launch _ _ a => (regRun a 8).map fun x => (.poster, x)
  | .mma _ _ a o => mmaReads o a false
  | .mmap _ _ a o => mmaReads o a true
  | .had _ _ a _ g _ => eachReg (regRun a g.toNat)
  | .acld _ _ a f _ =>
      match f with
      | .mem p _ _ _ _ => (regRun a 2 ++ [p.val]).map fun x => (.poster, x)
      | .reg => (regRun a 32).map fun x => (.tile, x)
  | .acst _ _ a f =>
      match f with
      | .mem p _ _ _ _ => (regRun a 2 ++ [p.val]).map fun x => (.poster, x)
      | .reg => []
  | .trav _ _ a _ | .tres _ _ a _ => travReads a
  | .tretDesc _ a _ _ _ => eachReg [a.val]
  | .tcut _ d a _ => eachReg (d.val :: regRun a 2)
  | .tstat _ _ a => eachReg [a.val]
  | .gpost _ _ a qr _ _ => (regRun a 16 ++ [qr.val]).map fun x => (.poster, x)
  | .gpoll _ _ qr => [(.poster, qr.val)]
  | .eretAgain _ _ a b | .eretNext _ _ a b | .eretZero _ _ a b | .eretKill _ _ a b =>
      [(.poster, a.val), (.poster, b.val)]
  | .csrw _ a _ _ => (regRun a 2).map fun x => (.poster, x)
  | .tinvVa _ o | .tinvIpa _ o => (regRun o.a 2 ++ [o.sp.val, o.n.val]).map fun x => (.poster, x)
  | .tinvSp _ o => [(.poster, o.sp.val)]
  | .tinvFn .. => []
  | .tmark _ a _ => [(.poster, a.val)]
  | _ => []

/-- The registers an instruction writes through its D field, groups and pairs included (R22). Of a `match` with
`.i64`, whose D field names the even register of a pair (R221) and which writes vD alone (R229), vD counts and
vD+1 does not (DEDUCED, log 68). -/
def Instr.writes : Instr → List Nat
  | .call _ d _ _ | .calli _ d _ _ | .split _ d _ | .fuse _ d _ | .fuset _ d _ => [d.val]
  | .iadd _ d _ _ _ _ | .isub _ d _ _ _ _ | .imul _ d _ _ _ _ | .iadc _ d _ _ _ _ => [d.val]
  | .imulh _ d _ _ _ | .imin _ d _ _ _ | .imax _ d _ _ _ | .bfx _ d _ _ _ => [d.val]
  | .imad _ d _ _ _ _ _ => [d.val]
  | .imadw _ d _ _ _ _ => regRun d 2
  | .iabs _ d _ _ | .ineg _ d _ _ => [d.val]
  | .sel _ d _ _ _ | .rot _ d _ _ _ | .fsh _ d _ _ _ _ | .lop3 _ d _ _ _ _ => [d.val]
  | .shl _ d _ _ | .shr _ d _ _ | .sha _ d _ _ | .iand _ d _ _ | .ior _ d _ _ | .ixor _ d _ _ =>
      [d.val]
  | .popc _ d _ | .clz _ d _ | .ctz _ d _ | .brev _ d _ | .mov _ d _ | .movi _ d _ => [d.val]
  | .bfi _ d _ _ _ | .prmt _ d _ _ _ | .movhi _ d _ _ => [d.val]
  | .lea _ d _ _ _ _ => regRun d 2
  | .add64 _ d _ _ _ => regRun d 2
  | .fadd _ d _ _ _ _ _ _ | .fsub _ d _ _ _ _ _ _ | .fmul _ d _ _ _ _ _ _
  | .fscale _ d _ _ _ _ _ _ | .fdiv _ d _ _ _ _ _ _ => [d.val]
  | .ffma _ d _ _ _ _ _ _ _ | .fdot2 _ d _ _ _ _ _ _ _ => [d.val]
  | .fmin _ d _ _ _ _ | .fmax _ d _ _ _ _ | .fclass _ d _ _ | .frnd _ d _ _ _ _ => [d.val]
  | .frcp _ d _ _ _ _ _ | .fsqrt _ d _ _ _ _ _ => [d.val]
  | .frsq _ d _ _ _ _ | .fexp2 _ d _ _ _ _ | .flog2 _ d _ _ _ _ | .fsin _ d _ _ _ _
  | .fcos _ d _ _ _ _ | .ftanh _ d _ _ _ _ => [d.val]
  | .cvt _ d _ dst _ _ _ _ => wideRegs dst.wide d
  | .pack _ d _ _ _ _ _ => [d.val]
  | .unpk _ d _ tc => regRun d (packCount tc)
  | .qnt _ d _ _ _ _ _ _ => [d.val]
  | .dqn _ d _ _ tc _ _ => regRun d (packCount tc)
  | .plx _ d _ p => regRun d p.val
  | .pli _ d _ _ => regRun d 8
  | .shuf _ d _ _ _ w _ | .shufImm _ d _ _ _ w _ => wideRegs w d
  | .qswap _ d _ _ w | .qbc _ d _ _ w => wideRegs w d
  | .ballot _ d _ _ | .ballotWord _ d _ _ _ => [d.val]
  | .matchAny _ d _ _ _ | .matchAll _ d _ _ _ _ => [d.val]
  | .ired _ d _ _ _ _ | .fred _ d _ _ _ _ => [d.val]
  | .iscan _ d _ _ _ _ _ | .fscan _ d _ _ _ _ _ => [d.val]
  | .sread _ d src => wideRegs src.wide d
  | .ld _ d _ _ sz _ _ _ => szRegs sz d
  | .atom _ d _ _ _ _ ty _ _ _ => wideRegs ty.wide d
  | .ldg _ d _ _ _ sz _ _ _ _ _ => szRegs sz d
  | .ldft _ d _ _ _ cnt => regRun d cnt.toNat
  | .smap _ d _ _ _ | .sunmap _ d _ | .cntq _ d _ | .barr _ d _ | .plrep _ d => [d.val]
  | .launch _ d _ => [d.val]
  | .had _ d _ _ g _ => regRun d g.toNat
  | .acst _ _ a .reg => regRun a 32
  | .acstat _ d _ _ => [d.val]
  | .tstat _ d _ => [d.val]
  | .gpost _ d _ _ _ _ | .gpoll _ d _ | .sys _ d _ => [d.val]
  | .eretAgain _ d _ _ | .eretNext _ d _ _ | .eretZero _ d _ _ | .eretKill _ d _ _ => [d.val]
  | .csrr _ d _ _ => regRun d 2
  | _ => []

/-- Further registers that a field names and that nothing is read from or written to at issue: the
window and visit register of a traversal (R303), the unread registers of a group. -/
def Instr.names : Instr → List Nat
  | .trav _ d _ o | .tres _ d _ o => [d.val, o.vr.val]
  | .cpyg _ _ a _ _ _ => regRun a 8
  | .tinvVa _ o | .tinvSp _ o | .tinvFn _ o | .tinvIpa _ o =>
      [o.a.val, o.a.val + 1, o.sp.val, o.n.val]
  | .matchAny _ d _ w _ | .matchAll _ d _ _ w _ => wideRegs w d
  | _ => []

/-- The predicate an instruction writes (R169). -/
def Instr.wpred : Instr → Option Nat
  | .icmp _ p _ _ _ _ | .cmp64 _ p _ _ _ | .pbit _ p _ _ _ | .fcmp _ p _ _ _ _ => some p.val
  | .vote _ p _ _ _ | .elect _ p _ => some p.val
  | .iadc _ _ _ _ c _ => some c.val
  | .matchAll _ _ _ p _ _ => some p.val
  | _ => none

/-- The registers that count as destinations of a pair half (R22): those written through D, and the
register of a predicate destination other than p0. -/
def Instr.dests (i : Instr) : List Nat :=
  i.writes ++ (match i.wpred with | some n => if n = 0 then [] else [n / 32] | none => [])

/-- Whether a register is declared: v0 to v(n−2) and v255 of a kernel with n words (R10). -/
def declared (g : Img) (r : Nat) : Bool := r = 255 || r + 1 < 8 * g.regg

/-! ## Labels, levels, engines -/

/-- The label ids encoded in an instruction, each with whether 4095 is valid there, and whether 0
stands for none (R200, R214, R242, R303). -/
def Instr.labelIds : Instr → List (Nat × Bool × Bool)
  | .go _ l => [(l, true, false)]
  | .gosel _ _ l m => [(l, true, false), (m, true, false)]
  | .call _ _ f r => [(f, true, false), (r, true, false)]
  | .calli _ _ _ r => [(r, true, false)]
  | .ipref _ l _ => [(l, false, false)]
  | .fuse _ _ l | .fuset _ _ l => [(l, false, false)]
  | .bar _ _ l | .barw _ _ _ l => [(l, false, false)]
  | .trav _ _ _ o | .tres _ _ _ o =>
      [(o.ent, false, false), (o.lea, false, true), (o.prn, false, true), (o.don, true, false)]
  | _ => []

/-- Whether an id is valid in a kernel (R200). -/
def labelValid (g : Img) (l : Nat) : Bool := (1 ≤ l && l ≤ g.labels.length) || l = 4095

def labelOk (g : Img) (x : Nat × Bool × Bool) : Bool :=
  let (l, ok4095, ok0) := x
  (l = 0 && ok0) || (labelValid g l && (l ≠ 4095 || ok4095))

/-- The number of a level: U 0, S 1, H 2 (R330). -/
def Machine.Level.num : Level → Nat
  | .u => 0
  | .s => 1
  | .h => 2

/-- The lowest level of an instruction (R339). -/
def Instr.level : Instr → Level
  | .eretAgain .. | .eretNext .. | .eretZero .. | .eretKill .. | .csrr .. | .csrw ..
  | .tinvVa .. | .tinvSp .. | .tinvFn .. => .s
  | .tinvIpa .. => .h
  | _ => .u

/-- The VF field of a system instruction (R339). -/
def Instr.vfField : Instr → Nat
  | .csrr _ _ _ vf | .csrw _ _ _ vf => vf
  | .tinvVa _ o | .tinvSp _ o | .tinvFn _ o | .tinvIpa _ o => o.vf
  | _ => 0

/-- The CSR numbers that some rule assigns (R342). -/
def csrAssigned (n : Nat) : Bool :=
  n ≤ 0x00C || (0x010 ≤ n && n ≤ 0x013) || n = 0x020 || (0x040 ≤ n && n ≤ 0x086)
    || (0x088 ≤ n && n ≤ 0x08B) || (0x100 ≤ n && n ≤ 0x103) || (0x110 ≤ n && n ≤ 0x115)
    || n = 0x200 || (0x300 ≤ n && n ≤ 0x307) || (0x310 ≤ n && n ≤ 0x318) || n = 0x320 || n = 0x321
    || (0x328 ≤ n && n ≤ 0x32A)

/-- A CSR access to a number that no rule assigns (R342). -/
def Instr.badCsr : Instr → Bool
  | .csrr _ _ n _ | .csrw _ _ n _ => !csrAssigned n
  | _ => false

/-- The classes that R23 and R266 sort instructions into. -/
inductive Kind | ordinary | special | memory | cross | long
  deriving DecidableEq, Repr

/-- The kind of an instruction for the pair limit (R23, R171, R199, R266). -/
def Instr.kind : Instr → Kind
  | .frcp .. | .frsq .. | .fsqrt .. | .fdiv .. | .fexp2 .. | .flog2 .. | .fsin .. | .fcos ..
  | .ftanh .. | .plx .. | .pli .. => .special
  | .shuf .. | .shufImm .. | .qswap .. | .qbc .. | .vote .. | .ballot .. | .ballotWord ..
  | .matchAny .. | .matchAll .. | .elect .. | .ired .. | .fred .. | .iscan .. | .fscan ..
  | .sread .. => .cross
  | .ipref .. | .ld .. | .st .. | .atom .. | .red .. | .ldg .. | .stg .. | .ldft .. | .smap ..
  | .sunmap .. | .sflush .. | .sdrop .. | .pfd .. | .waitc .. | .cntq .. | .fence .. | .fenceSys ..
  | .bar .. | .barr .. | .barw .. | .barinit .. | .plset .. | .plcan .. | .plrep ..
  | .launch .. => .memory
  | i => if i.isLong then .long else .ordinary

/-- The engine an instruction targets: 0 ALU pair, 1 special function, 2 load/store, 3 gather,
4 Tundish, 5 Ladle, 6 Runner, 7 Sprue port (R266). -/
def Instr.engine (i : Instr) : Nat :=
  match i with
  | .ldg .. | .stg .. => 3
  | .mma .. | .mmap .. | .had .. | .acz .. | .acrel .. | .acrelAll .. | .acld .. | .acst ..
  | .acstat .. => 4
  | .cpy .. | .cpyg .. => 5
  | .trav .. | .tretDesc .. | .tretSkip .. | .tretCont .. | .tretStop .. | .tcut .. | .tres ..
  | .tstat .. => 6
  | .gpost .. | .gpoll .. => 7
  | .ipref .. => 0
  | _ =>
    match i.kind with
    | .ordinary | .cross => 0
    | .special => 1
    | .memory | .long => 2

/-- The instructions that change wanted labels, for the illegal pairs of R208 and R245. -/
def Instr.departs : Instr → Bool
  | .go .. | .goi .. | .gosel .. | .call .. | .calli .. | .exit .. | .bar .. | .barw .. => true
  | _ => false

/-- The instructions that no pair may hold (R214). -/
def Instr.unpaired : Instr → Bool
  | .split .. | .fuse .. | .fuset .. => true
  | _ => false

/-- Whether two halves form a legal pair (R22, R208, R214, R245). -/
def pairLegal (i j : Instr) : Bool :=
  !(i.departs && j.departs) && !i.unpaired && !j.unpaired
    && (i.dests.all fun r => !j.dests.contains r)

/-- The operand reads that a bank supplies to a half: its sources, and the predicate field of
`match.all` (R23). -/
def Instr.bankReads (i : Instr) : List Nat :=
  i.reads.map (·.2) ++ (match i with | .matchAll _ _ _ p _ _ => predReg p | _ => [])

/-- Whether a pair issues in one tick (R23). -/
def pairOneTick (i j : Instr) : Bool :=
  (i.kind = .ordinary || j.kind = .ordinary)
    && (List.range 4).all fun b =>
      ((i.bankReads ++ j.bankReads).filter fun r => r % 4 = b).length ≤ 2

/-! ## Checks at decode -/

/-- Whether a launch is a prologue (R262). -/
def Machine.State.isPrologue (s : State) (t : Nat) : Bool := (s.launch (s.launchOf t)).prologue
/-- The privilege level of a team (R326). -/
def Machine.State.levelOf (s : State) (t : Nat) : Level := (s.launch (s.launchOf t)).level
/-- The virtual function of a team. -/
def Machine.State.vfOf (s : State) (t : Nat) : Nat := (s.launch (s.launchOf t)).vf

/-- Instructions that only a prologue may issue (R263). -/
def Instr.onlyPrologue : Instr → Bool
  | .plset .. | .plcan .. | .plrep .. => true
  | _ => false

/-- A `plset` selector above 0x403 is reserved (R263). -/
def Instr.badSel : Instr → Bool
  | .plset _ _ n => 0x403 < n.val
  | _ => false

/-- Whether the instruction is undefined in a team: an undeclared register, a label that is not
valid, a prologue instruction elsewhere, `sys` at H, or an unassigned CSR number
(class 1: R10, R17, R200, R263, R339, R342). -/
def Machine.State.undefinedIn (s : State) (t : Nat) (i : Instr) : Bool :=
  let g := s.img t
  (i.reads.any fun x => !declared g x.2) || (i.writes.any fun r => !declared g r)
    || (i.names.any fun r => !declared g r) || (i.labelIds.any fun x => !labelOk g x)
    || (i.onlyPrologue && !s.isPrologue t) || i.badSel || i.badCsr
    || (match i with | .sys .. => s.levelOf t = .h | _ => false)

/-- Whether the instruction is above the team's level, or names a function at S
(class 8: R339). -/
def Machine.State.unprivileged (s : State) (t : Nat) (i : Instr) : Bool :=
  let l := s.levelOf t
  l.num < i.level.num || (l = .s && i.vfField ≠ 0)

/-- The trap class that decode raises for an instruction, if any (R17, R328, R339): undefined first,
then privilege. -/
def Machine.State.decodeTrap (s : State) (t : Nat) (i : Instr) : Option Nat :=
  if !i.wf || s.undefinedIn t i then some 1
  else if s.unprivileged t i then some 8
  else none

end Sys2Proof
end

