-- ==== Sys2Proof/Machine/Issue.lean ====
section
/-! DEFINITION. Issuing one instruction: what stops it at its boundary, in the order of R328, and
what every instruction that issues has in common. Each meaning is `issue i s eff`, where `eff` is
the effect its description gives. -/

namespace Sys2Proof.Machine

/-! ## Reads that meet poison -/

/-- The segment width of a cross-lane instruction in a part of width `w` (R222). -/
def segWidth (lg16 : Bool) (w : Nat) (seg : Seg) : Nat :=
  if seg = .sgd then (if lg16 then min 16 w else w) else min (2 ^ seg.code) w

/-- The source lane of `shuf` for lane `l` of a part, both numbered in the part (R225). -/
def shufSource (var : ShufVar) (sw l b : Nat) : Nat :=
  let base := l - l % sw
  let j := l % sw
  match var with
  | .idx => base + b % sw
  | .up => if b ≤ j then l - b else l
  | .down => if j + b < sw then l + b else l
  | .xor => base + (j ^^^ (b % sw))

/-- The source lane of `qswap` (R226). -/
def qswapSource (var : QsVar) (l : Nat) : Nat :=
  match var with
  | .h => l ^^^ 1
  | .v => l ^^^ 2
  | .d => l ^^^ 3

/-- The source lane of `qbc` (R226). -/
def qbcSource (n l : Nat) : Nat := 4 * (l / 4) + n

/-- The lane that a cross-lane instruction reads vA of, for lane `l` numbered in the part. -/
def State.crossSource (s : State) (c : Ctx) (i : Instr) (l : Nat) : Nat :=
  let lg := (s.img c.t).lg16
  match i with
  | .shuf _ _ _ b var _ seg =>
      shufSource var (segWidth lg c.w seg) l (s.rd 2 c.t (c.lo + l) b)
  | .shufImm _ _ _ imm var _ seg => shufSource var (segWidth lg c.w seg) l imm
  | .qswap _ _ _ var _ => qswapSource var l
  | .qbc _ _ _ n _ => qbcSource n l
  | _ => l

/-- The lowest guarded-active lane of each word of the part (R125). -/
def wordLows (c : Ctx) : List Nat :=
  (List.range 32).filterMap fun w => c.ga.find? fun l => (l - c.lo) / 32 = w

/-- The lanes a source is read for, with the lanes whose register is read. -/
def State.readLanes (s : State) (c : Ctx) (i : Instr) : Reader → List Nat
  | .each => c.ga
  | .low => c.ga.take 1
  | .poster => (s.owns c).take 1
  | .wordLow => wordLows c
  | .tile =>
    match s.poster c with
    | some q => c.act.filter fun l => (l - c.lo) / 32 = (q - c.lo) / 32
    | none => []
  | .cross => c.ga.map fun l => c.lo + s.crossSource c i (l - c.lo)

/-- The words that an instruction reads for a lane of the active set, as register keys with the register's number:
guards first, then sources (R333). -/
def State.wordsRead (s : State) (c : Ctx) (i : Instr) : List (Nat × Nat) :=
  let guards := (predReg i.hdr.gp).flatMap fun r => c.act.map fun l => (regKey c.t l r, r)
  let srcs := i.reads.flatMap fun x =>
    (s.readLanes c i x.1).map fun l => (regKey c.t l x.2, x.2)
  guards ++ srcs

/-- The number of reads of one word that an instruction can make, by the slots that name them: 64 of its own operands,
and 64 for each lane that a cross-lane instruction reads for. -/
def readSlots : Nat := 65664

/-- Whether some read of a word returns the value of a poisoned result that has not landed (R195, R223, R333). -/
def State.readsPoison (s : State) (key : Nat) : Bool :=
  s.srcDefs.any fun d => d.poison && d.mask ≠ 0 && d.val.isSome && regKey d.team d.lane d.reg = key
    && (List.range readSlots).any fun slot => Config.choose s.srcFresh (key * 131072 + slot)

/-- The poisoned words that an instruction reads for a lane of the active set (R333). -/
def State.poisonRead (s : State) (c : Ctx) (i : Instr) : List (Nat × Nat) :=
  (s.wordsRead c i).filter fun x => s.regPoison.get false x.1 || s.readsPoison x.1

/-! ## Waits at issue -/

/-- The path whose counter an instruction raises (R102). -/
def raises : Instr → Option Path
  | .ld _ _ _ _ _ sp _ _ | .st _ _ _ _ _ sp _ _ => some (spPath sp)
  | .atom _ _ _ _ _ _ _ _ sp _ => some (spPath sp)
  | .red _ _ _ _ _ _ sp _ => some (spPath sp)
  | .ldft .. => some .s
  | .ldg .. | .stg .. => some .x
  | .cpy .. | .cpyg .. => some .l
  | .mma .. | .mmap .. | .had .. | .acld .. | .acst .. | .acstat .. => some .m
  | .trav .. | .tres .. | .tretDesc .. | .tretSkip .. | .tretCont .. => some .t
  | .gpost .. => some .q
  | _ => none
where
  /-- the path of a lane access by its space (R102) -/
  spPath : Space → Path
    | .global | .const => .g
    | .stash => .s
    | .cstash => .c

/-- The value of an arrival counter: the instructions on the path that have not lowered it, at most
0xFFFF (R102 to R104). -/
def Part.counter (x : Part) (path : Path) : Nat :=
  (x.ops.filter fun o => o.path = path).length

/-- Whether the part has deferred results outstanding (R195): those of its own lanes. -/
def State.deferredOut (s : State) (c : Ctx) : Bool :=
  s.defs.any fun d => d.team = c.t && c.lo ≤ d.lane && d.lane < c.lo + c.w

/-- Whether a deferred result outstanding in the part can still raise flags (R196). -/
def State.flagsOut (s : State) (c : Ctx) : Bool :=
  s.defs.any fun d => d.team = c.t && c.lo ≤ d.lane && d.lane < c.lo + c.w && d.canFlag

/-- Instructions that access memory or act on it, before which a lane's replicated commits must have
taken their places (R79, R107), and the instructions that wait for every earlier access
(R241, R264, R340 to R345). -/
def orderedAfter (i : Instr) : Bool :=
  match i with
  | .ipref .. | .pfd .. | .waitc .. | .cntq .. | .fence .. | .plset .. | .plcan .. | .plrep .. => false
  | .bar .. | .barr .. | .barw .. => false
  | .sys .. | .eretAgain .. | .eretNext .. | .eretZero .. | .eretKill .. | .csrr .. | .csrw ..
  | .tinvVa .. | .tinvSp .. | .tinvFn .. | .tinvIpa .. | .trap .. | .brk .. => true
  | .cpy .. | .cpyg .. | .mma .. | .mmap .. | .acld .. | .acst .. | .trav .. | .tres .. | .tcut ..
  | .gpost .. => false
  | i => i.kind = .memory

/-- Instructions that take their place in T in the step that issues them: they wait for the data of a window read with an
acquire flag (R79, R91, R93). -/
def placedNow : Instr → Bool
  | .sdrop .. | .launch .. => true
  | _ => false

/-- Whether every earlier access of some lanes of a part has completed, in the sense of R91: none is
held or committing, and the data of every lane access has returned. -/
def State.accessesDone (s : State) (t p : Nat) (ls : List Nat) : Bool :=
  let own (d : Deferred) : Bool := (s.part p).ops.any fun o => o.id = d.op
    && (o.path = .g || o.path = .s || o.path = .c)
  !(s.held.any fun h => h.part = p && ls.contains h.lane)
    && !(s.commits.any fun k => k.part = p && ls.contains k.lane)
    && !(s.defs.any fun d => d.team = t && ls.contains d.lane && own d)

/-- The guest queue index that an instruction's poster names (R320). -/
def State.gq (s : State) (c : Ctx) (qr : Reg) : Option Nat :=
  (s.poster c).map fun l => bits (s.rd 0 c.t l qr) 0 6

/-- The packets that a guest queue may hold in flight, 0 when it is unbound (R316). -/
def GQueue.depth (g : GQueue) : Nat :=
  let n := bits g.gqb 7 4
  if bit g.gqb 0 && 2 ≤ n && n ≤ 8 then 2 ^ n else 0

/-- Whether the guest's requests and packets are accepted (R316, R320, R323). -/
def State.guestOn (s : State) : Bool := s.guest.up && !s.guest.frz

/-- The entries that a flask's Tundish holds: those of a saved cluster are with its context (R272, R291). -/
def State.tundishUse (s : State) (flask : Nat) : Nat :=
  (s.tundish.filter fun e => e.flask = flask && (s.clusterOfTeam (teamOf e.part)).st ≠ .saved).length

/-- The packets of a queue that are in flight (R316): those that the guest has not returned. -/
def GQueue.flight (g : GQueue) : Nat := (g.pkts.filter fun x => !x.returned).length

/-- The condition, beyond those of every instruction, that an instruction waits on at issue
(R128, R129, R132, R215, R217, R246, R272, R320). A `fuset` stalls until the part's counters are 0, as `fuse` does
(DEDUCED, log 114). -/
def State.ownWait (s : State) (c : Ctx) (i : Instr) : Wait :=
  let x := s.part c.p
  match i with
  | .waitc _ a path =>
    match c.ga.head? with
    | some l => if x.counter path ≤ bits (s.rd 0 c.t l a) 0 16 then .none else .waitc
    | none => .none
  | .split .. | .fuse .. | .fuset .. =>
    if c.ga.isEmpty then .none
    else if x.ops.isEmpty && !(s.tundish.any fun e => e.part = c.p &&
        (e.body = .acrel || (match e.body with | .acrelAll .. => true | _ => false))) then .none
    else .counters
  | .sunmap .. | .sflush .. | .sdrop .. =>
    if c.ga.isEmpty || x.counter .s = 0 then .none else .stash
  | .fenceSys .. => if s.accessesDone c.t c.p c.ga then .none else .fenceSys
  | .csrr .. | .csrw .. =>
    if s.accessesDone c.t c.p (s.poster c).toList then .none else .fenceSys
  | .cpy .. | .cpyg .. =>
    if (s.poster c).isSome && 16 ≤ (s.cmds.filter fun k => k.part = c.p && k.eng = .l).length then
      .ladleQueue
    else .none
  | .mma .. | .mmap .. | .had .. | .acz .. | .acrel .. | .acrelAll .. | .acld .. | .acst ..
  | .acstat .. =>
    if (s.poster c).isSome && 32 ≤ s.tundishUse (flaskOf (s.coreOf c.p)) then .tundish else .none
  | .gpost _ _ _ qr _ _ =>
    match s.gq c qr with
    | some q =>
      let g := s.guest.queues.get {} q
      if g.depth ≠ 0 && !s.guest.frz && g.depth ≤ g.flight then .guestQueue else .none
    | none => .none
  | _ => .none

/-- What parks or holds an instruction before its operands are read: a replay (R49), a settle
(R195), and the interlock of v255 (R196). -/
def State.parkWait (s : State) (c : Ctx) (i : Instr) : Wait :=
  if s.held.any fun e => e.part = c.p then .replay
  else if (s.part c.p).second.isSome then .earlier
  else if !s.accessesDone c.t c.p (s.part c.p).fence then .fenceSys
  else if i.hdr.s && s.deferredOut c then .settle
  else if ((i.reads.any fun r => r.2 = 255) || i.writes.contains 255) && s.flagsOut c then .v255
  else .none

/-- What an instruction waits on at issue; `.none` when it can issue (R192, R104, R107). -/
def State.issueWait (s : State) (c : Ctx) (i : Instr) : Wait :=
  let x := s.part c.p
  if !c.ga.isEmpty && (match raises i with
      | some path => 0xFFFF ≤ x.counter path
      | none => false) then .counter
  else if orderedAfter i && s.commits.any fun k => k.part = c.p && k.by' = .lane then .commit
  else if placedNow i && s.defs.any fun d => d.team = c.t && c.ga.contains d.lane && d.holds then .commit
  else s.ownWait c i

/-! ## The frame of every meaning -/

/-- The trap description of the latched instruction. -/
def State.mkTrap (s : State) (c : Ctx) (cls info : Nat) : Trap :=
  { cls := cls, info := info, ga := c.ga, act := c.act, off := s.issue.off, next := s.issue.next }

/-- Raise a trap of the latched instruction: it commits nothing (R329). -/
def State.raise (s : State) (c : Ctx) (cls info : Nat) : State :=
  s.takeTrap c.p (s.mkTrap c cls info)

/-- Leave the part waiting at the latched instruction (R192). -/
def State.stall (s : State) (c : Ctx) (w : Wait) : State := s.modPart c.p fun x => { x with wait := w }

/-- Whether a part has stopped: it waits, or is no longer live. -/
def State.stoppedAt (s : State) (p : Nat) : Bool :=
  let x := s.part p
  x.life ≠ .live || x.wait ≠ .none

/-- After an effect: the first half of a pair leaves the position alone, and every other issue goes
on after the slot, unless the instruction stopped (R21, R187, R188). -/
def State.finish (s : State) (p : Nat) : State :=
  if s.stoppedAt p || s.issue.half = .first then s else s.advance p s.issue.next

/-- What stops the latched instruction at its boundary before its effect, in the order of R328: a
decode trap, which comes before the settle park (R20); a park; poison, when operands are read; and
the instruction's own waits. `none` when it issues. Operands are read at the free values with which the effect
reads them (`State.issued`). -/
def State.blocked (s : State) (c : Ctx) (i : Instr) : Option State :=
  match s.decodeTrap c.t i with
  | some cls => some (s.raise c cls 0)
  | none =>
    if s.parkWait c i ≠ .none then some (s.stall c (s.parkWait c i))
    else
      match s.bump.poisonRead c i with
      | k :: ks =>
        some (s.takeTrap c.p { s.mkTrap c 7 k.2 with poison := (k :: ks).map fun x => x.1 })
      | [] => if s.bump.issueWait c i ≠ .none then some (s.stall c (s.bump.issueWait c i)) else none

/-- The state on which the latched instruction has its effect: its part waits for nothing any more, and the
free values are fresh ones; the reads of a second half take those of its snapshot. -/
def State.issued (s : State) : State :=
  if s.issue.half = .second then s.bump
  else (s.modPart s.issue.part fun x => { x with wait := .none, fence := [] }).bump

/-- Issue an instruction whose effect decides where its part goes on. The second half of a pair issues with
the first (R20). -/
def issueRaw (i : Instr) (s : State) (eff : Ctx → State → State) :
    Host.Outcome State Fault Refusal :=
  let c := s.bump.ctx i.hdr
  if (s.part s.issue.part).life ≠ .live then .fault .noPart
  else if s.issue.half = .second then .next (eff c s.issued)
  else
    match s.blocked c i with
    | some s' => .next s'
    | none => .next (eff c s.issued)

/-- Issue an instruction: what stops it, or its effect and then the next slot. -/
def issue (i : Instr) (s : State) (eff : Ctx → State → State) : Host.Outcome State Fault Refusal :=
  issueRaw i s fun c s => (eff c s).finish c.p

/-- An effect on each guarded-active lane. -/
def issueLanes (i : Instr) (s : State) (eff : Ctx → Nat → State → State) :
    Host.Outcome State Fault Refusal :=
  issue i s fun c s0 => eachLane c.ga (eff c) s0

/-- Raise an arrival counter for an instruction in flight (R102). -/
def State.raiseOp (s : State) (p : Nat) (path : Path) : Nat × State :=
  let (id, s) := s.takeId
  (id, s.modPart p fun x => { x with ops := x.ops ++ [{ id := id, path := path }] })

/-- Post one deferred word. -/
def State.post (s : State) (t l r : Nat) (val : Option Nat) (op group : Nat) : State :=
  let (id, s) := s.takeId
  s.defer { id := id, team := t, lane := l, reg := r, mask := 0xFFFFFFFF, val := val, op := op
            group := group }

/-- Post a deferred result word with flags, as one group of its own (R195, R196). -/
def State.postFlags (s : State) (t l r v f : Nat) : State :=
  let (id, s) := s.takeId
  s.defer { id := id, team := t, lane := l, reg := r, mask := 0xFFFFFFFF, val := some v, flags := f
            canFlag := true, group := id }

/-- Post a deferred predicate result; nothing for p0 (R169, R195). -/
def State.postPred (s : State) (t l n : Nat) (b : Bool) : State :=
  if n = 0 then s
  else
    let (id, s) := s.takeId
    s.defer { id := id, team := t, lane := l, reg := n / 32, mask := 2 ^ (n % 32)
              val := some (if b then 2 ^ (n % 32) else 0), group := id, whole := false }

end Sys2Proof.Machine
end

