-- ==== Sys2Proof/Machine/Int.lean ====
section
/-! DEFINITION. The integer and logic instructions (R172 to R175): each is a function of the lane's
own source words, written as a fixed result. -/

namespace Sys2Proof.Machine

/-! ## Results on words -/

/-- The value of a word under an integer type (R172). -/
def ival (ty : ITy) (a : Nat) : Int :=
  match ty with
  | .i32 => sint 32 a
  | .n32 => (a % 2 ^ 32 : Nat)

/-- The exact result clamped to the type under `.sat`, and wrapped otherwise (R172). -/
def narrow (ty : ITy) (sat : Bool) (x : Int) : Nat :=
  if sat then
    match ty with
    | .i32 => wrap 32 (max (-(2 : Int) ^ 31) (min x ((2 : Int) ^ 31 - 1)))
    | .n32 => wrap 32 (max 0 (min x ((2 : Int) ^ 32 - 1)))
  else wrap 32 x

def condHolds (c : Cond) (a b : Int) : Bool :=
  match c with
  | .eq => a = b
  | .ne => a ≠ b
  | .lt => a < b
  | .le => a ≤ b
  | .gt => b < a
  | .ge => b ≤ a

def cond64Holds (c : Cond64) (a b : Nat) : Bool :=
  let x := sint 64 a
  let y := sint 64 b
  match c with
  | .eq => a = b
  | .ne => a ≠ b
  | .lt => x < y
  | .le => x ≤ y
  | .gt => y < x
  | .ge => y ≤ x
  | .ltu => a < b
  | .leu => a ≤ b
  | .gtu => b < a
  | .geu => b ≤ a

/-- Carry addition (R173): the word and the carry out. -/
def iadcVal (sub : Bool) (a b cin : Nat) : Nat × Bool :=
  let t := a + (if sub then b ^^^ 0xFFFFFFFF else b) + cin
  (t % 2 ^ 32, 2 ^ 32 ≤ t)

/-- `iabs` and `ineg`: the result of −2^31 is −2^31, or 2^31 − 1 under `.sat` (R172). -/
def iabsVal (sat : Bool) (a : Nat) : Nat := narrow .i32 sat (sint 32 a).natAbs
def inegVal (sat : Bool) (a : Nat) : Nat := narrow .i32 sat (-sint 32 a)

def shlVal (a b : Nat) : Nat := if b < 32 then (a * 2 ^ b) % 2 ^ 32 else 0
def shrVal (a b : Nat) : Nat := if b < 32 then a / 2 ^ b else 0
def shaVal (a b : Nat) : Nat := wrap 32 (sint 32 a / 2 ^ (min b 31))

/-- Rotation by b mod 32 (R172). -/
def rotVal (right : Bool) (a b : Nat) : Nat :=
  let n := if right then (32 - b % 32) % 32 else b % 32
  (a * 2 ^ n) % 2 ^ 32 + a / 2 ^ (32 - n)

/-- The funnel shift of b:a (R172). -/
def fshVal (left : Bool) (a b c : Nat) : Nat :=
  let x := b * 2 ^ 32 + a
  let n := c % 32
  if left then bits (x * 2 ^ n) 32 32 else bits (x / 2 ^ n) 0 32

/-- A word from its bits, bit 0 first. -/
def ofBits (n : Nat) (f : Nat → Bool) : Nat :=
  (List.range n).foldl (fun v i => if f i then v + 2 ^ i else v) 0

/-- `lop3`: bit i of the result is bit 4a + 2b + c of the table (R172). -/
def lop3Val (lut a b c : Nat) : Nat :=
  ofBits 32 fun i => bit lut (4 * bits a i 1 + 2 * bits b i 1 + bits c i 1)

def popcVal (a : Nat) : Nat := ((List.range 32).filter (bit a)).length
def clzVal (a : Nat) : Nat := ((List.range 32).find? fun i => bit a (31 - i)).getD 32
def ctzVal (a : Nat) : Nat := ((List.range 32).find? (bit a)).getD 32
def brevVal (a : Nat) : Nat := ofBits 32 fun i => bit a (31 - i)

/-- `bfx` (R174). -/
def bfxVal (ty : ITy) (a b : Nat) : Nat :=
  let pos := bits b 0 8
  let len := min (bits b 8 8) 32
  let f := (ival ty a / 2 ^ pos) % 2 ^ len
  if len = 0 then 0
  else
    match ty with
    | .i32 => wrap 32 (sint len f.toNat)
    | .n32 => f.toNat

/-- `bfi` (R174). -/
def bfiVal (a b c : Nat) : Nat :=
  let pos := bits c 0 8
  let len := min (bits c 8 8) 32
  ofBits 32 fun k => if pos ≤ k && k < pos + len then bit a (k - pos) else bit b k

/-- `prmt` (R174). -/
def prmtVal (a b c : Nat) : Nat :=
  (List.range 4).foldl (fun v i =>
    let s := bits c (4 * i) 4
    let y := bits (a + b * 2 ^ 32) (8 * (s % 8)) 8
    v + (if s < 8 then y else if 128 ≤ y then 255 else 0) * 256 ^ i) 0

/-- `lea` (R175). -/
def leaVal (ixs : Bool) (scl : Scale) (a b : Nat) : Nat :=
  wrap 64 ((a : Int) + (if ixs then sint 32 b else (b : Int)) * 2 ^ scl.code)

def add64Val (sub : Bool) (a b : Nat) : Nat :=
  wrap 64 (if sub then (a : Int) - b else (a : Int) + b)

/-- `imadw` (R172). -/
def imadwVal (ty : ITy) (a b c : Nat) : Nat := wrap 64 (ival ty a * ival ty b + c)

/-- `imulh`: bits [63:32] of the exact product (R172). -/
def imulhVal (ty : ITy) (a b : Nat) : Nat := wrap 32 (ival ty a * ival ty b / 2 ^ 32)

def minVal (ty : ITy) (a b : Nat) : Nat := if ival ty a ≤ ival ty b then a else b
def maxVal (ty : ITy) (a b : Nat) : Nat := if ival ty a ≤ ival ty b then b else a

def pbVal (op : PbOp) (x y : Bool) : Bool :=
  match op with
  | .and => x && y
  | .or => x || y
  | .xor => x != y

/-! ## Shapes -/

/-- A fixed result from one source word. -/
def lane1 (i : Instr) (d a : Reg) (f : Nat → Nat) (s : State) :
    Host.Outcome State Fault Refusal :=
  issueLanes i s fun c l s => s.wr c.t l d (f (s.rd 0 c.t l a))

/-- A fixed result from two source words. -/
def lane2 (i : Instr) (d a b : Reg) (f : Nat → Nat → Nat) (s : State) :
    Host.Outcome State Fault Refusal :=
  issueLanes i s fun c l s => s.wr c.t l d (f (s.rd 0 c.t l a) (s.rd 2 c.t l b))

/-- A fixed result from three source words. -/
def lane3 (i : Instr) (d a b x : Reg) (f : Nat → Nat → Nat → Nat) (s : State) :
    Host.Outcome State Fault Refusal :=
  issueLanes i s fun c l s =>
    s.wr c.t l d (f (s.rd 0 c.t l a) (s.rd 2 c.t l b) (s.rd 4 c.t l x))

/-- A predicate result from two source words. -/
def laneP (i : Instr) (p : Pred) (a b : Reg) (f : Nat → Nat → Bool) (s : State) :
    Host.Outcome State Fault Refusal :=
  issueLanes i s fun c l s => s.wrPred c.t l p (f (s.rd 0 c.t l a) (s.rd 2 c.t l b))

/-! ## The instructions -/

def execIadd (h : Hdr) (d a b : Reg) (ty : ITy) (sat : Bool) :=
  lane2 (.iadd h d a b ty sat) d a b fun x y => narrow ty sat (ival ty x + ival ty y)

def execIsub (h : Hdr) (d a b : Reg) (ty : ITy) (sat : Bool) :=
  lane2 (.isub h d a b ty sat) d a b fun x y => narrow ty sat (ival ty x - ival ty y)

/-- R173. A C field of 0 reads as carry in 0 and writes no predicate. -/
def execIadc (h : Hdr) (d a b : Reg) (p : Pred) (sub : Bool) (s : State) :
    Host.Outcome State Fault Refusal :=
  issueLanes (.iadc h d a b p sub) s fun c l s =>
    let cin := if p.val = 0 then 0 else b2n (s.rdPred 4 c.t l ⟨false, p⟩)
    let r := iadcVal sub (s.rd 0 c.t l a) (s.rd 2 c.t l b) cin
    (s.wr c.t l d r.1).wrPred c.t l p r.2

def execImul (h : Hdr) (d a b : Reg) (ty : ITy) (sat : Bool) :=
  lane2 (.imul h d a b ty sat) d a b fun x y => narrow ty sat (ival ty x * ival ty y)

def execImulh (h : Hdr) (d a b : Reg) (ty : ITy) := lane2 (.imulh h d a b ty) d a b (imulhVal ty)

def execImad (h : Hdr) (d a b c : Reg) (ty : ITy) (sat : Bool) :=
  lane3 (.imad h d a b c ty sat) d a b c fun x y z =>
    narrow ty sat (ival ty x * ival ty y + ival ty z)

def execImadw (h : Hdr) (d a b x : Reg) (ty : ITy) (s : State) :
    Host.Outcome State Fault Refusal :=
  issueLanes (.imadw h d a b x ty) s fun c l s =>
    s.wr64 c.t l d (imadwVal ty (s.rd 0 c.t l a) (s.rd 2 c.t l b) (s.rd64 4 c.t l x))

def execImin (h : Hdr) (d a b : Reg) (ty : ITy) := lane2 (.imin h d a b ty) d a b (minVal ty)
def execImax (h : Hdr) (d a b : Reg) (ty : ITy) := lane2 (.imax h d a b ty) d a b (maxVal ty)
def execIabs (h : Hdr) (d a : Reg) (sat : Bool) := lane1 (.iabs h d a sat) d a (iabsVal sat)
def execIneg (h : Hdr) (d a : Reg) (sat : Bool) := lane1 (.ineg h d a sat) d a (inegVal sat)

def execIcmp (h : Hdr) (p : Pred) (a b : Reg) (ty : ITy) (c : Cond) :=
  laneP (.icmp h p a b ty c) p a b fun x y => condHolds c (ival ty x) (ival ty y)

def execSel (h : Hdr) (d a b : Reg) (p : PSrc) (s : State) : Host.Outcome State Fault Refusal :=
  issueLanes (.sel h d a b p) s fun c l s =>
    s.wr c.t l d (if s.rdPred 4 c.t l p then s.rd 0 c.t l a else s.rd 2 c.t l b)

def execShl (h : Hdr) (d a b : Reg) := lane2 (.shl h d a b) d a b shlVal
def execShr (h : Hdr) (d a b : Reg) := lane2 (.shr h d a b) d a b shrVal
def execSha (h : Hdr) (d a b : Reg) := lane2 (.sha h d a b) d a b shaVal
def execRot (h : Hdr) (d a b : Reg) (right : Bool) := lane2 (.rot h d a b right) d a b (rotVal right)

def execFsh (h : Hdr) (d a b c : Reg) (left : Bool) :=
  lane3 (.fsh h d a b c left) d a b c (fshVal left)

def execIand (h : Hdr) (d a b : Reg) := lane2 (.iand h d a b) d a b fun x y => x &&& y
def execIor (h : Hdr) (d a b : Reg) := lane2 (.ior h d a b) d a b fun x y => x ||| y
def execIxor (h : Hdr) (d a b : Reg) := lane2 (.ixor h d a b) d a b fun x y => x ^^^ y

def execLop3 (h : Hdr) (d a b c : Reg) (lut : Fin 256) :=
  lane3 (.lop3 h d a b c lut) d a b c (lop3Val lut)

def execPopc (h : Hdr) (d a : Reg) := lane1 (.popc h d a) d a popcVal
def execClz (h : Hdr) (d a : Reg) := lane1 (.clz h d a) d a clzVal
def execCtz (h : Hdr) (d a : Reg) := lane1 (.ctz h d a) d a ctzVal
def execBrev (h : Hdr) (d a : Reg) := lane1 (.brev h d a) d a brevVal
def execBfx (h : Hdr) (d a b : Reg) (ty : ITy) := lane2 (.bfx h d a b ty) d a b (bfxVal ty)
def execBfi (h : Hdr) (d a b c : Reg) := lane3 (.bfi h d a b c) d a b c bfiVal
def execPrmt (h : Hdr) (d a b c : Reg) := lane3 (.prmt h d a b c) d a b c prmtVal
def execMov (h : Hdr) (d a : Reg) := lane1 (.mov h d a) d a fun x => x

/-- `movi` sign-extends its 28-bit immediate (R172). -/
def execMovi (h : Hdr) (d : Reg) (imm : BitVec 28) (s : State) :
    Host.Outcome State Fault Refusal :=
  issueLanes (.movi h d imm) s fun c l s => s.wr c.t l d (wrap 32 (sint 28 imm.toNat))

def execMovhi (h : Hdr) (d a : Reg) (imm : BitVec 16) :=
  lane1 (.movhi h d a imm) d a fun x => imm.toNat * 2 ^ 16 + x % 2 ^ 16

def execLea (h : Hdr) (d a b : Reg) (ixs : Bool) (scl : Scale) (s : State) :
    Host.Outcome State Fault Refusal :=
  issueLanes (.lea h d a b ixs scl) s fun c l s =>
    s.wr64 c.t l d (leaVal ixs scl (s.rd64 0 c.t l a) (s.rd 2 c.t l b))

def execAdd64 (h : Hdr) (d a b : Reg) (sub : Bool) (s : State) :
    Host.Outcome State Fault Refusal :=
  issueLanes (.add64 h d a b sub) s fun c l s =>
    s.wr64 c.t l d (add64Val sub (s.rd64 0 c.t l a) (s.rd64 2 c.t l b))

def execCmp64 (h : Hdr) (p : Pred) (a b : Reg) (cc : Cond64) (s : State) :
    Host.Outcome State Fault Refusal :=
  issueLanes (.cmp64 h p a b cc) s fun c l s =>
    s.wrPred c.t l p (cond64Holds cc (s.rd64 0 c.t l a) (s.rd64 2 c.t l b))

def execPbit (h : Hdr) (p : Pred) (pa pb : PSrc) (op : PbOp) (s : State) :
    Host.Outcome State Fault Refusal :=
  issueLanes (.pbit h p pa pb op) s fun c l s =>
    s.wrPred c.t l p (pbVal op (s.rdPred 0 c.t l pa) (s.rdPred 2 c.t l pb))

end Sys2Proof.Machine
end

