-- ==== Sys2Proof/Machine/FloatI.lean ====
section
/-! DEFINITION. The floating-point instructions, opcodes 0x180 to 0x193 (R176 to R178): each result is
the exact result rounded once. The add, multiply and compare group writes fixed results; the
special-function group posts deferred ones (R171). -/

namespace Sys2Proof.Machine

/-! ## Elements -/

/-- The element format of a type field (R176). -/
def ofFTy : FTy → FFmt
  | .f32 => .f32
  | .h2 => .f16
  | .b2 => .bf16

/-- The number of elements in a word (R152). -/
def FTy.els : FTy → Nat
  | .f32 => 1
  | _ => 2

/-- Element `h` of a word (R152). -/
def elem (f : FFmt) (a h : Nat) : Nat := bits a (f.width * h) f.width

/-- A word and its flags from what each element gives. -/
def packEls (w n : Nat) (g : Nat → Nat × Nat) : Nat × Nat :=
  (List.range n).foldl (fun r h => (r.1 + (g h).1 % 2 ^ w * 2 ^ (w * h), r.2 ||| (g h).2)) (0, 0)

/-- The rounding, saturation and subnormal modifiers of an instruction. -/
structure FMod where
  rnd : Rnd := .rne
  sat : Bool := false
  ftz : Bool := false

/-- NaN operands (R177): a signalling one raises NV, and any gives a NaN. -/
def nanRule (xs : List Ext) (x : Ext × Nat) : Ext × Nat :=
  let nv := if xs.any Ext.isSnan then fNV else 0
  if xs.any Ext.isNan then (.nan false, nv) else x

/-- Round an exact result into a format, with the flags it came with (R155, R156). -/
def finishF (f : FFmt) (m : FMod) (x : Ext × Nat) : Nat × Nat :=
  let r := ftzOut m.ftz f (roundF x.1 f m.rnd m.sat)
  (r.1, r.2 ||| x.2)

/-- One element of an instruction: operands read, NaN rule, exact result, rounding (R177). -/
def elemF (f : FFmt) (m : FMod) (ops : List Nat) (g : List Ext → Ext × Nat) : Nat × Nat :=
  let xs := ops.map fun a => decodeF f (ftzIn m.ftz f a)
  finishF f m (nanRule xs (g xs))

/-- A word of elements. -/
def wordF (ty : FTy) (m : FMod) (ops : List Nat) (g : List Ext → Ext × Nat) : Nat × Nat :=
  packEls (ofFTy ty).width (FTy.els ty) fun h =>
    elemF (ofFTy ty) m (ops.map fun a => elem (ofFTy ty) a h) g

/-! ## Exact results -/

/-- A function of one exact operand, on a list. -/
def un (f : Ext → Ext × Nat) : List Ext → Ext × Nat
  | a :: _ => f a
  | [] => (.nan false, 0)

/-- A function of two exact operands, on a list. -/
def bin (f : Ext → Ext → Ext × Nat) : List Ext → Ext × Nat
  | a :: b :: _ => f a b
  | _ => (.nan false, 0)

/-- `ffma`: the product and the sum, rounded once; the invalid cases include 0 × ∞ beside a NaN c
(R177). -/
def fmaE (m : Rnd) (a b c : Ext) : Ext × Nat :=
  let p := mulE a b
  let s := addE m p.1 c
  if p.2 ≠ 0 then p else s

def ffmaElem (f : FFmt) (m : FMod) (a b c : Nat) : Nat × Nat :=
  let x := decodeF f (ftzIn m.ftz f a)
  let y := decodeF f (ftzIn m.ftz f b)
  let z := decodeF f (ftzIn m.ftz f c)
  let nv := if x.isNan || y.isNan then 0 else (mulE x y).2
  let r := nanRule [x, y, z] (fmaE m.rnd x y z)
  finishF f m (r.1, r.2 ||| nv)

/-- `fscale`: a × 2^b for a signed 32-bit b. -/
def scaleE (b : Nat) : Ext → Ext × Nat
  | .fin n m e s => (.fin n m (e + sint 32 b) s, 0)
  | x => (x, 0)

/-- `frnd`: an integral value that keeps the sign of a zero; NX when it differs (R177). -/
def rndE (m : Rnd) : Ext → Ext × Nat
  | .fin n mm e s =>
    let r := roundInt m n mm e s
    (.fin n r.1.natAbs 0 false, if r.2 then fNX else 0)
  | x => (x, 0)

/-- `frnd` rounds to an integer once: its result then lies on the format's grid. -/
def frndElem (f : FFmt) (rnd : Rnd) (ftz : Bool) (a : Nat) : Nat × Nat :=
  elemF f { ftz := ftz } [a] (un (rndE rnd))

/-- The one-operand divisions (R178). -/
def rcpE (a : Ext) : Ext × Nat := divE (.fin false 1 0 false) a

/-- `fdot2`: a0 × b0 + a1 × b1 + c, rounded once into FP32 (R176). -/
def fdot2Val (ty : FTy) (m : FMod) (a b c : Nat) : Nat × Nat :=
  let f := ofFTy ty
  let x0 := decodeF f (elem f a 0)
  let x1 := decodeF f (elem f a 1)
  let y0 := decodeF f (elem f b 0)
  let y1 := decodeF f (elem f b 1)
  let z := decodeF .f32 (ftzIn m.ftz .f32 c)
  let p0 := mulE x0 y0
  let p1 := mulE x1 y1
  let s := addE m.rnd p0.1 p1.1
  let r := addE m.rnd s.1 z
  finishF .f32 m (nanRule [x0, x1, y0, y1, z] (r.1, p0.2 ||| p1.2 ||| s.2 ||| r.2))

/-- `fcmp` (R177): the predicate and the flags. -/
def fcmpVal (cc : FCond) (ftz : Bool) (a b : Nat) : Bool × Nat :=
  let x := decodeF .f32 (ftzIn ftz .f32 a)
  let y := decodeF .f32 (ftzIn ftz .f32 b)
  let un := x.isNan || y.isNan
  let nvS := if x.isSnan || y.isSnan then fNV else 0
  let nvQ := if un then fNV else 0
  let le := leE x y || eqE x y
  let ge := leE y x || eqE x y
  match cc with
  | .eq => (!un && eqE x y, nvS)
  | .ne => (un || !eqE x y, nvS)
  | .lt => (!un && !ge, nvQ)
  | .le => (!un && le, nvQ)
  | .gt => (!un && !le, nvQ)
  | .ge => (!un && ge, nvQ)
  | .num => (!un, nvS)
  | .nan => (un, nvS)

/-- The class mask of an element (R177). -/
def classMask (f : FFmt) (a : Nat) : Nat :=
  match decodeF f a with
  | .nan q => if q then 2 ^ 8 else 2 ^ 9
  | .inf n => if n then 2 ^ 0 else 2 ^ 7
  | .fin n m _ _ =>
    if m = 0 then (if n then 2 ^ 3 else 2 ^ 4)
    else if m < 2 ^ f.frac then (if n then 2 ^ 2 else 2 ^ 5)
    else (if n then 2 ^ 1 else 2 ^ 6)

def fclassVal (ty : FTy) (a : Nat) : Nat :=
  (List.range (FTy.els ty)).foldl (fun v h =>
    v + classMask (ofFTy ty) (elem (ofFTy ty) a h) * 2 ^ (16 * h)) 0

/-- `fmin` and `fmax` on a word: each operand read through `.ftz` (R177). -/
def minmaxWord (ty : FTy) (mx ftz : Bool) (a b : Nat) : Nat × Nat :=
  let f := ofFTy ty
  packEls f.width (FTy.els ty) fun h =>
    minmaxF f mx (ftzIn ftz f (elem f a h)) (ftzIn ftz f (elem f b h))

/-! ## Shapes -/

/-- A fixed result with flags (R143, R171). -/
def State.wrF (s : State) (t l d : Nat) (r : Nat × Nat) : State :=
  (s.wr t l d r.1).raiseFlags t l r.2

def laneF1 (i : Instr) (d a : Reg) (f : Nat → Nat × Nat) (s : State) :
    Host.Outcome State Fault Refusal :=
  issueLanes i s fun c l s => s.wrF c.t l d (f (s.rd 0 c.t l a))

def laneF2 (i : Instr) (d a b : Reg) (f : Nat → Nat → Nat × Nat) (s : State) :
    Host.Outcome State Fault Refusal :=
  issueLanes i s fun c l s => s.wrF c.t l d (f (s.rd 0 c.t l a) (s.rd 2 c.t l b))

def laneF3 (i : Instr) (d a b x : Reg) (f : Nat → Nat → Nat → Nat × Nat) (s : State) :
    Host.Outcome State Fault Refusal :=
  issueLanes i s fun c l s =>
    s.wrF c.t l d (f (s.rd 0 c.t l a) (s.rd 2 c.t l b) (s.rd 4 c.t l x))

/-- A deferred result from one source word (R171, R195). -/
def laneD1 (i : Instr) (d a : Reg) (f : Nat → Nat × Nat) (s : State) :
    Host.Outcome State Fault Refusal :=
  issueLanes i s fun c l s =>
    let r := f (s.rd 0 c.t l a)
    s.postFlags c.t l d r.1 r.2

def laneD2 (i : Instr) (d a b : Reg) (f : Nat → Nat → Nat × Nat) (s : State) :
    Host.Outcome State Fault Refusal :=
  issueLanes i s fun c l s =>
    let r := f (s.rd 0 c.t l a) (s.rd 2 c.t l b)
    s.postFlags c.t l d r.1 r.2

/-! ## The instructions -/

def execFadd (h : Hdr) (d a b : Reg) (ty : FTy) (rnd : Rnd) (sat ftz : Bool) :=
  laneF2 (.fadd h d a b ty rnd sat ftz) d a b fun x y =>
    wordF ty ⟨rnd, sat, ftz⟩ [x, y] (bin (addE rnd))

def execFsub (h : Hdr) (d a b : Reg) (ty : FTy) (rnd : Rnd) (sat ftz : Bool) :=
  laneF2 (.fsub h d a b ty rnd sat ftz) d a b fun x y =>
    wordF ty ⟨rnd, sat, ftz⟩ [x, y] (bin fun p q => addE rnd p q.negate)

def execFmul (h : Hdr) (d a b : Reg) (ty : FTy) (rnd : Rnd) (sat ftz : Bool) :=
  laneF2 (.fmul h d a b ty rnd sat ftz) d a b fun x y =>
    wordF ty ⟨rnd, sat, ftz⟩ [x, y] (bin mulE)

def execFfma (h : Hdr) (d a b c : Reg) (ty : FTy) (rnd : Rnd) (sat ftz : Bool) :=
  laneF3 (.ffma h d a b c ty rnd sat ftz) d a b c fun x y z =>
    packEls (ofFTy ty).width (FTy.els ty) fun e =>
      ffmaElem (ofFTy ty) ⟨rnd, sat, ftz⟩ (elem (ofFTy ty) x e) (elem (ofFTy ty) y e)
        (elem (ofFTy ty) z e)

def execFmin (h : Hdr) (d a b : Reg) (ty : FTy) (ftz : Bool) :=
  laneF2 (.fmin h d a b ty ftz) d a b (minmaxWord ty false ftz)

def execFmax (h : Hdr) (d a b : Reg) (ty : FTy) (ftz : Bool) :=
  laneF2 (.fmax h d a b ty ftz) d a b (minmaxWord ty true ftz)

def execFcmp (h : Hdr) (p : Pred) (a b : Reg) (cc : FCond) (ftz : Bool) (s : State) :
    Host.Outcome State Fault Refusal :=
  issueLanes (.fcmp h p a b cc ftz) s fun c l s =>
    let r := fcmpVal cc ftz (s.rd 0 c.t l a) (s.rd 2 c.t l b)
    (s.wrPred c.t l p r.1).raiseFlags c.t l r.2

def execFclass (h : Hdr) (d a : Reg) (ty : FTy) := lane1 (.fclass h d a ty) d a (fclassVal ty)

def execFrnd (h : Hdr) (d a : Reg) (ty : FTy) (rnd : Rnd) (ftz : Bool) :=
  laneF1 (.frnd h d a ty rnd ftz) d a fun x =>
    packEls (ofFTy ty).width (FTy.els ty) fun e =>
      frndElem (ofFTy ty) rnd ftz (elem (ofFTy ty) x e)

/-- The count b is one signed word applied to each element (R176). -/
def execFscale (h : Hdr) (d a b : Reg) (ty : FTy) (rnd : Rnd) (sat ftz : Bool) :=
  laneF2 (.fscale h d a b ty rnd sat ftz) d a b fun x y =>
    wordF ty ⟨rnd, sat, ftz⟩ [x] (un (scaleE y))

def execFrcp (h : Hdr) (d a : Reg) (ty : FTy) (rnd : Rnd) (sat ftz : Bool) :=
  laneD1 (.frcp h d a ty rnd sat ftz) d a fun x => wordF ty ⟨rnd, sat, ftz⟩ [x] (un rcpE)

def execFrsq (h : Hdr) (d a : Reg) (ty : FTy) (sat ftz : Bool) :=
  laneD1 (.frsq h d a ty sat ftz) d a fun x => wordF ty ⟨.rne, sat, ftz⟩ [x] (un rsqrtE)

def execFsqrt (h : Hdr) (d a : Reg) (ty : FTy) (rnd : Rnd) (sat ftz : Bool) :=
  laneD1 (.fsqrt h d a ty rnd sat ftz) d a fun x => wordF ty ⟨rnd, sat, ftz⟩ [x] (un sqrtE)

def execFdiv (h : Hdr) (d a b : Reg) (ty : FTy) (rnd : Rnd) (sat ftz : Bool) :=
  laneD2 (.fdiv h d a b ty rnd sat ftz) d a b fun x y =>
    wordF ty ⟨rnd, sat, ftz⟩ [x, y] (bin divE)

def execFexp2 (h : Hdr) (d a : Reg) (ty : FTy) (sat ftz : Bool) :=
  laneD1 (.fexp2 h d a ty sat ftz) d a fun x => wordF ty ⟨.rne, sat, ftz⟩ [x] (un exp2E)

def execFlog2 (h : Hdr) (d a : Reg) (ty : FTy) (sat ftz : Bool) :=
  laneD1 (.flog2 h d a ty sat ftz) d a fun x => wordF ty ⟨.rne, sat, ftz⟩ [x] (un log2E)

def execFsin (h : Hdr) (d a : Reg) (ty : FTy) (sat ftz : Bool) :=
  laneD1 (.fsin h d a ty sat ftz) d a fun x => wordF ty ⟨.rne, sat, ftz⟩ [x] (un sinE)

def execFcos (h : Hdr) (d a : Reg) (ty : FTy) (sat ftz : Bool) :=
  laneD1 (.fcos h d a ty sat ftz) d a fun x => wordF ty ⟨.rne, sat, ftz⟩ [x] (un cosE)

def execFtanh (h : Hdr) (d a : Reg) (ty : FTy) (sat ftz : Bool) :=
  laneD1 (.ftanh h d a ty sat ftz) d a fun x => wordF ty ⟨.rne, sat, ftz⟩ [x] (un tanhE)

def execFdot2 (h : Hdr) (d a b c : Reg) (ty : FTy) (rnd : Rnd) (sat ftz : Bool) :=
  laneF3 (.fdot2 h d a b c ty rnd sat ftz) d a b c fun x y z => fdot2Val ty ⟨rnd, sat, ftz⟩ x y z

end Sys2Proof.Machine
end

