-- ==== Sys2Proof/Machine/Convert.lean ====
section
/-! DEFINITION. The conversion instructions, opcodes 0x194 to 0x19A (R179 to R183). -/

namespace Sys2Proof.Machine

/-! ## Type codes -/

/-- The float format of a type code; a packed pair names its element's format (R179). -/
def TyCode.ffmt? : TyCode → Option FFmt
  | .f32 => some .f32 | .f16 => some .f16 | .bf16 => some .bf16 | .e4m3 => some .e4m3
  | .e5m2 => some .e5m2 | .e2m1 => some .e2m1 | .h2 => some .f16 | .b2 => some .bf16
  | _ => none

/-- The width of an integer type code, and whether it is signed; 0 for a float code. -/
def TyCode.int : TyCode → Nat × Bool
  | .i8 => (8, true) | .n8 => (8, false) | .i16 => (16, true) | .n16 => (16, false)
  | .i32 => (32, true) | .n32 => (32, false) | .i64 => (64, true) | .n64 => (64, false)
  | _ => (0, false)

/-- The least and greatest values of an integer type (R153). -/
def intRange (w : Nat) (signed : Bool) : Int × Int :=
  if signed then (-(2 : Int) ^ (w - 1), (2 : Int) ^ (w - 1) - 1) else (0, (2 : Int) ^ w - 1)

/-- A source value of `cvt`, and whether it is a signalling NaN (R180). -/
def cvtSource (src : TyCode) (ftz : Bool) (a : Nat) : Ext :=
  match TyCode.ffmt? src with
  | some f => decodeF f (ftzIn ftz f (a % 2 ^ f.width))
  | none =>
    let (w, sg) := TyCode.int src
    let x : Int := if sg then sint w a else ((a % 2 ^ w : Nat) : Int)
    ofCoeff x 0 false

/-- A conversion to an integer type (R153, R180): the value and the flags. -/
def toInt (w : Nat) (sg : Bool) (m : Rnd) (x : Ext) : Int × Nat :=
  let (lo, hi) := intRange w sg
  match x with
  | .nan _ => (0, fNV)
  | .inf n => (if n then lo else hi, fNV)
  | .fin n mm e s =>
    let r := roundInt m n mm e s
    let y := satInt lo hi r.1
    (y.1, if y.2 then fNV else if r.2 then fNX else 0)

/-- `cvt` (R180): the 64-bit value to write and the flags. -/
def cvtVal (dst src : TyCode) (m : FMod) (a : Nat) : Nat × Nat :=
  let x := cvtSource src m.ftz a
  let nv := if x.isSnan then fNV else 0
  match TyCode.ffmt? dst with
  | some f =>
    let r := finishF f m (x, nv)
    r
  | none =>
    let (w, sg) := TyCode.int dst
    let y := toInt w sg m.rnd x
    (wrap (if w = 64 then 64 else 32) y.1, y.2 ||| nv)

/-- The number of bits of an element of a packed format. -/
def packBits (tc : TyCode) : Nat := 32 / packCount tc

/-! ## Groups -/

/-- The words of a register group of a lane, read at issue. -/
def State.rdGroup (s : State) (slot t l r n : Nat) : List Nat :=
  (List.range n).map fun i => s.rd (slot + i) t l (r + i)

/-- Fixed writes of a register group. -/
def State.wrGroup (s : State) (t l r : Nat) (vs : List Nat) : State :=
  (vs.zipIdx).foldl (fun s x => s.wr t l (r + x.2) x.1) s

/-- Word and flags of a packed register from what each element gives (R152). -/
def packWord (w : Nat) (rs : List (Nat × Nat)) : Nat × Nat :=
  (rs.zipIdx).foldl (fun r x => (r.1 + x.1.1 % 2 ^ w * 2 ^ (w * x.2), r.2 ||| x.1.2)) (0, 0)

/-- `pack` (R181). -/
def packVal (tc : TyCode) (m : FMod) (xs : List Nat) : Nat × Nat :=
  match TyCode.ffmt? tc with
  | some f =>
    packWord f.width (xs.map fun a =>
      let x := decodeF .f32 (ftzIn m.ftz .f32 a)
      finishF f { m with ftz := false } (x, if x.isSnan then fNV else 0))
  | none => (0, 0)

/-- One element of `unpk` (R181): exact in FP32. -/
def unpkElem (tc : TyCode) (a i : Nat) : Nat × Nat :=
  match TyCode.ffmt? tc with
  | some f =>
    let x := decodeF f (elem f a i)
    let r := roundF x .f32 .rne false
    (r.1, if x.isSnan then fNV else 0)
  | none =>
    let (w, sg) := TyCode.int tc
    let e := bits a (w * i) w
    let x : Int := if sg then sint w e else (e : Int)
    ((roundF (ofCoeff x 0 false) .f32 .rne false).1, 0)

/-- A value divided by 2^s, exactly (R182). -/
def scaleDown (s : Nat) : Ext → Ext
  | .fin n m e st => .fin n m (e - sint 8 s) st
  | x => x

/-- `qnt` (R182). -/
def qntVal (tc : TyCode) (m : FMod) (xs : List Nat) (s : Nat) : Nat × Nat :=
  if s % 256 = 128 then (0, 0)
  else
    packWord (packBits tc) (xs.map fun a =>
      let x := decodeF .f32 (ftzIn m.ftz .f32 a)
      let nv := if x.isSnan then fNV else 0
      match TyCode.ffmt? tc with
      | some f => finishF f { m with ftz := false } (scaleDown s x, nv)
      | none =>
        let y := toInt 8 true m.rnd (scaleDown s x)
        (wrap 8 y.1, y.2 ||| nv))

/-- One element of `dqn` (R182). -/
def dqnElem (tc : TyCode) (m : FMod) (a s i : Nat) : Nat × Nat :=
  let x := match TyCode.ffmt? tc with
    | some f => decodeF f (elem f a i)
    | none => ofCoeff (sint 8 (bits a (8 * i) 8)) 0 false
  ftzOut m.ftz .f32 (scaleApply x s .f32 m.rnd)

/-- Byte `e mod 4` of word `e div 4`: element e of a lane's 32-element group (R183). -/
def groupElem (xs : List Nat) (e : Nat) : Nat := bits (xs.getD (e / 4) 0) (8 * (e % 4)) 8

/-- `plx`: plane word p (R183). -/
def plxWord (xs : List Nat) (p : Nat) : Nat := ofBits 32 fun e => bit (groupElem xs e) (7 - p)

/-- `pli`: element e from k plane words (R183). -/
def pliElem (xs : List Nat) (k e : Nat) : Nat :=
  let q := (List.range k).foldl (fun v p => 2 * v + bits (xs.getD p 0) e 1) 0
  wrap 8 (sint k q * 2 ^ (8 - k))

def pliWord (xs : List Nat) (k w : Nat) : Nat :=
  (List.range 4).foldl (fun v j => v + pliElem xs k (4 * w + j) * 256 ^ j) 0

/-! ## The instructions -/

def execCvt (h : Hdr) (d a : Reg) (dst src : TyCode) (rnd : Rnd) (sat ftz : Bool) (s : State) :
    Host.Outcome State Fault Refusal :=
  issueLanes (.cvt h d a dst src rnd sat ftz) s fun c l s =>
    let x := if src.wide then s.rd64 0 c.t l a else s.rd 0 c.t l a
    let r := cvtVal dst src ⟨rnd, sat, ftz⟩ x
    if dst.wide then (s.wr64 c.t l d r.1).raiseFlags c.t l r.2 else s.wrF c.t l d r

def execPack (h : Hdr) (d a : Reg) (tc : TyCode) (rnd : Rnd) (sat ftz : Bool) (s : State) :
    Host.Outcome State Fault Refusal :=
  issueLanes (.pack h d a tc rnd sat ftz) s fun c l s =>
    s.wrF c.t l d (packVal tc ⟨rnd, sat, ftz⟩ (s.rdGroup 0 c.t l a (packCount tc)))

def execUnpk (h : Hdr) (d a : Reg) (tc : TyCode) (s : State) :
    Host.Outcome State Fault Refusal :=
  issueLanes (.unpk h d a tc) s fun c l s =>
    let rs := (List.range (packCount tc)).map (unpkElem tc (s.rd 0 c.t l a))
    (s.wrGroup c.t l d (rs.map (·.1))).raiseFlags c.t l (rs.foldl (fun f r => f ||| r.2) 0)

def execQnt (h : Hdr) (d a b : Reg) (tc : TyCode) (rnd : Rnd) (sat ftz : Bool) (s : State) :
    Host.Outcome State Fault Refusal :=
  issueLanes (.qnt h d a b tc rnd sat ftz) s fun c l s =>
    s.wrF c.t l d (qntVal tc ⟨rnd, sat, ftz⟩ (s.rdGroup 0 c.t l a (packCount tc))
      (s.rd 16 c.t l b))

def execDqn (h : Hdr) (d a b : Reg) (tc : TyCode) (rnd : Rnd) (ftz : Bool) (s : State) :
    Host.Outcome State Fault Refusal :=
  issueLanes (.dqn h d a b tc rnd ftz) s fun c l s =>
    let rs := (List.range (packCount tc)).map
      (dqnElem tc ⟨rnd, false, ftz⟩ (s.rd 0 c.t l a) (s.rd 16 c.t l b))
    (s.wrGroup c.t l d (rs.map (·.1))).raiseFlags c.t l (rs.foldl (fun f r => f ||| r.2) 0)

def execPlx (h : Hdr) (d a : Reg) (p : Fin 16) (s : State) : Host.Outcome State Fault Refusal :=
  issueLanes (.plx h d a p) s fun c l s =>
    let xs := s.rdGroup 0 c.t l a 8
    s.wrGroup c.t l d ((List.range p.val).map (plxWord xs))

def execPli (h : Hdr) (d a : Reg) (k : Fin 16) (s : State) : Host.Outcome State Fault Refusal :=
  issueLanes (.pli h d a k) s fun c l s =>
    let xs := s.rdGroup 0 c.t l a k.val
    s.wrGroup c.t l d ((List.range 8).map (pliWord xs k.val))

end Sys2Proof.Machine
end

