-- ==== Sys2Proof/Machine/Home.lean ====
section
/-! DEFINITION. The physical map and the homes of sectors: where a physical address lies (R29), the L2
lines and times of its home (R62, R69 to R71), recalls from an owning stash (R63, R64), and the reads
and writes that every other access is made of. A sector number is a physical address divided by 64. -/

namespace Sys2Proof.Machine

/-! ## The physical map -/

/-- What lies at a physical address (R29). -/
inductive PaKind | hbm | tier2 | host | guest | regs | resv
  deriving DecidableEq, Repr

def paKind (pa : Nat) : PaKind :=
  if pa < 0xC000000000 then .hbm
  else if 0x100000000000 ≤ pa && pa < 0x200000000000 then .tier2
  else if 0x1000000000000 ≤ pa && pa < 0x2000000000000 then .host
  else if 0xE000000000000 ≤ pa && pa < 0xE010000000000 then .guest
  else if 0xF000000000000 ≤ pa && pa < 0xF000100000000 then .regs
  else .resv

/-- The CXL port of a second-tier address (R29). -/
def cxlPort (pa : Nat) : Nat := (pa - 0x100000000000) / 0x40000000000

/-- Whether a second-tier address is attached: its port is up and its capacity covers it (R73). -/
def State.tier2Ok (s : State) (pa : Nat) : Bool :=
  let cap := (s.die (cxlPort pa)).t2cap
  bit cap 16 && (pa - 0x100000000000) % 0x40000000000 < bits cap 0 16 * 2 ^ 30

/-- Device-homed memory: the first tier, and the attached second tier (R59, R62). -/
def State.homed (s : State) (pa : Nat) : Bool :=
  match paKind pa with
  | .hbm => true
  | .tier2 => s.tier2Ok pa
  | _ => false

/-- A reserved-physical violation (R29, R73). -/
def State.reservedPa (s : State) (pa : Nat) : Bool :=
  match paKind pa with
  | .resv => true
  | .tier2 => !s.tier2Ok pa
  | _ => false

/-- Whether a page table lies wholly in memory that may hold one (R40). -/
def State.tableOk (s : State) (pa len : Nat) : Bool := s.homed pa && s.homed (pa + len - 1)

/-- Bytes of first-tier memory per die (R29). -/
def dieBytes : Nat := 0x3000000000

/-- Where the launch path places a byte of a launch's constants in the device memory of the launch's die: the spec
gives no place, so it is none that the physical map gives to software (R29, R34, R67) (DESIGN CHOICE, log 77). -/
def constAddr (die launch off : Nat) : Nat := 2 ^ 52 + launch * 2 ^ 36 + die * 2 ^ 34 + off

/-- The die that homes an address (R69). -/
def homeDie (pa : Nat) : Nat :=
  if 2 ^ 52 ≤ pa then pa / 2 ^ 34 % 4
  else if paKind pa = .tier2 then cxlPort pa else pa / dieBytes

/-- The HBM4E stack and pseudo-channel of a first-tier address (R72). -/
def hbmStack (pa : Nat) : Nat := pa % dieBytes / 256 % 3
def pseudoChannel (pa : Nat) : Nat :=
  let g := pa % dieBytes / 256
  (g / 3 ^^^ g / 192) % 64

/-- The place of a stash offset of a block on `n` cores: the index in its core list, and the local offset in that
core's share (R56). -/
def stashPlace (n o : Nat) : Nat × Nat := (o / 256 % n, o / (256 * n) * 256 + o % 256)

/-- The copy of a replicated address that die `d` reads (R41). -/
def copyOf (rep : Bool) (d pa : Nat) : Nat := if rep then pa + d * dieBytes else pa

/-- The home slice on the home die (R69). -/
def homeSlice (pa : Nat) : Nat :=
  bits pa 8 7 ^^^ bits pa 15 7 ^^^ bits pa 22 7 ^^^ bits pa 29 7 ^^^ bits pa 36 7

/-- The L2 set that holds a line, over the whole device (R69). -/
def l2Key (line : Nat) : Nat :=
  (homeDie (line * 256) * 128 + homeSlice (line * 256)) * 384 + Config.l2Set line

/-! ## L2 lines and times -/

/-- The sector by which a commit locks all four copies: the one on die 0 (R107). -/
def lockKey (sec : Nat) : Nat :=
  if paKind (sec * 64) = .hbm then sec % (dieBytes / 64) else sec

/-- Whether a sector of a line is owned by a stash or locked by a commit (R71, R107). -/
def State.pinned (s : State) (line : Nat) : Bool :=
  (List.range 4).any fun i =>
    s.owners.get 0 (line * 4 + i) ≠ 0 || s.locks.get 0 (lockKey (line * 4 + i)) ≠ 0

/-- The times of a sector at its home; a sector that is not in the L2 has the die's memory time
(R62). -/
def State.home (s : State) (sec : Nat) : Home :=
  let line := sec / 4
  let m := (s.die (homeDie (sec * 64))).memTime
  match (s.l2.get [] (l2Key line)).find? fun x => x.line = line with
  | some x => ((x.secs.find? fun y => y.1 = sec).map (·.2)).getD ⟨m, m⟩
  | none => ⟨m, m⟩

/-- Fold times into a die's memory time (R62). -/
def State.foldTime (s : State) (d t : Nat) : State :=
  s.modDie d fun x => { x with memTime := max x.memTime t }

/-- Set the times of a sector at its home. A sector served from the one-line buffer folds into the
memory time (R71). -/
def State.setHome (s : State) (sec : Nat) (h : Home) : State :=
  let line := sec / 4
  let k := l2Key line
  let set := s.l2.get [] k
  if set.any fun x => x.line = line then
    { s with l2 := s.l2.set [] k (set.map fun x : L2Line =>
        if x.line = line then
          { x with secs := (sec, h) :: x.secs.filter fun y => y.1 ≠ sec } else x) }
  else s.foldTime (homeDie (sec * 64)) h.rts

/-- Remove a line from its set, folding its times into the die's memory time (R62). -/
def State.evictLine (s : State) (line : Nat) : State :=
  let k := l2Key line
  let set := s.l2.get [] k
  let t := ((set.filter fun x => x.line = line).flatMap fun x => x.secs.map fun y => y.2.rts).foldl
    max 0
  ({ s with l2 := s.l2.set [] k (set.filter fun x => x.line ≠ line) }).foldTime
    (homeDie (line * 256)) t

/-- The victim of a fill by function `vf`: the line least recently used among the ways its mask
allows, passing over lines with an owned sector (R70, R71). -/
def State.victim (s : State) (vf : Nat) (set : List L2Line) : Option L2Line :=
  (set.filter fun x => bit (s.fn vf).l2waym x.way && !s.pinned x.line).getLast?

/-- The free ways that a function's mask allows. -/
def State.freeWay (s : State) (vf : Nat) (set : List L2Line) : Option Nat :=
  (List.range 16).find? fun w => bit (s.fn vf).l2waym w && set.all fun x => x.way ≠ w

/-- Enter a line in way `w` of its set for function `vf`, as the most recently used one or as the least
(R68). -/
def State.putLine (s : State) (vf : Nat) (ca : Cache) (line w : Nat) : State :=
  let set := s.l2.get [] (l2Key line)
  let x : L2Line := { line := line, way := w, vf := vf, secs := [] }
  { s with l2 := s.l2.set [] (l2Key line) (if ca = .keep then x :: set else set ++ [x]) }

/-- Make line `x` the most recently used one of its set. -/
def State.touchLine (s : State) (x : L2Line) : State :=
  let set := s.l2.get [] (l2Key x.line)
  { s with l2 := s.l2.set [] (l2Key x.line) (x :: set.filter fun y => y.line ≠ x.line) }

/-- A fill by function `vf` evicts line `y`: both functions' counters when it is another's, and the eviction
(R71, R361). -/
def State.evictFor (s : State) (vf : Nat) (y : L2Line) : State :=
  (if y.vf = vf then s
    else (s.modFn vf fun f => { f with l2evc := addCount f.l2evc 1 }).modFn y.vf fun f =>
      { f with l2evs := addCount f.l2evs 1 }).evictLine y.line

/-! ## Bytes -/

/-- The byte of memory at a home, as it stands there. An unwritten byte reads 0 (DESIGN CHOICE, log 1). -/
def State.memByte (s : State) (pa : Nat) : Byte := s.mem.get 0 pa

/-- Byte `i` of a block of bytes held as a number. -/
def byteOf (data i : Nat) : Byte := BitVec.ofNat 8 (data / 256 ^ i)

/-- Write one byte at its home, with its poison. -/
def State.putByte (s : State) (pa : Nat) (b : Byte) (psn : Bool) : State :=
  { s with mem := s.mem.set 0 pa b, memPoison := s.memPoison.set false pa psn }

/-- Write bytes of a number from an address up; bit i of `psn` poisons byte i, and `mask` chooses the
bytes. -/
def State.putBytes (s : State) (pa n data mask psn : Nat) : State :=
  (List.range n).foldl (fun s i =>
    if bit mask i then s.putByte (pa + i) (byteOf data i) (bit psn i) else s) s

/-- Whether the link of an attached second-tier address has dropped: it answers with poison (R73). -/
def State.linkGone (s : State) (pa : Nat) : Bool :=
  paKind pa = .tier2 && !bit (s.lnkst.get 0 (1 + cxlPort pa)) 0

/-- Bytes at their home as a number, and the poison of each as a mask (R73, R75). -/
def State.getBytes (s : State) (pa n : Nat) : Nat × Nat :=
  (leNat ((List.range n).map fun i => s.memByte (pa + i)),
   (List.range n).foldl (fun m i =>
     if s.memPoison.get false (pa + i) || s.linkGone (pa + i) then m + 2 ^ i else m) 0)

/-- A mask of `n` ones. -/
def ones (n : Nat) : Nat := 2 ^ n - 1

/-! ## What the log holds (R374) -/

/-- The records that the log in use has room for: each takes a byte or more (R373) (DESIGN CHOICE, log 93). -/
def State.logRoom (s : State) : Nat := 2 ^ (bits s.rcact 2 5 + 20)

/-- Put something into the Recast log while the device records (R374). ENDT holds the tick of the last record (DESIGN
CHOICE, log 93). A log that is full ends the recording. -/
def State.logged (s : State) (x : Logged) : State :=
  if !s.recording then s
  else if s.logRoom ≤ s.rclog.length then { s with recording := false, rcsts := s.rcsts ||| 1 }
  else { s with rclog := s.rclog ++ [(s.tick, x)], endt := s.tick }

/-- Whether the log has this to be replayed now (R374). -/
def State.logNext (s : State) (x : Logged) : Bool := s.rclog.contains (s.tick, x)

/-- A record of this tick is replayed. -/
def State.logPop (s : State) (x : Logged) : State := { s with rclog := s.rclog.erase (s.tick, x), endt := s.tick }

/-- What the log gives now as the answer to a question. -/
def State.loggedValue (s : State) (tag : Nat) : Option Nat :=
  s.rclog.findSome? fun x => match x with
    | (t, .value g v) => if t = s.tick && g = tag then some v else none
    | _ => none

/-- An answer of another agent at a port: logged under REC, and taken from the log under PLAY (R374). -/
def State.outside (s : State) (tag v : Nat) : State × Nat :=
  if s.playing then
    match s.loggedValue tag with
    | some x => (s.logPop (.value tag x), x)
    | none => (s, v)
  else (s.logged (.value tag v), v)

/-! ## Fills of the L2 -/

/-- A line of the second tier is brought into the L2: its bytes arrive at a CXL port, and are logged under REC (R73, R374).
Under PLAY they arrive as the tick begins (`State.replayLines`). -/
def State.lineArrives (s : State) (line : Nat) : State :=
  if paKind (line * 256) = .tier2 then s.logged (.line (line * 256) (s.getBytes (line * 256) 256).1) else s

/-- Bring a line into its home's L2 on behalf of function `vf`, by the cache modifier (R68, R71) (DEDUCED,
log 61). A `.stream` or `.noalloc` access that finds its line present leaves the line's place in the order as it is
(DEDUCED, log 96). -/
def State.fillLine (s : State) (vf : Nat) (ca : Cache) (line : Nat) : State :=
  let set := s.l2.get [] (l2Key line)
  match set.find? fun x => x.line = line with
  | some x => if ca = .keep then s.touchLine x else s
  | none =>
    let s := (s.modFn vf fun f => { f with l2fill := addCount f.l2fill 1 }).lineArrives line
    match s.freeWay vf set, s.victim vf set with
    | some w, _ => s.putLine vf ca line w
    | none, some y => (s.evictFor vf y).putLine vf ca line y.way
    | none, none => s

/-! ## Free values of bytes (R75) -/

/-- What a walker, the launch path or a fetch makes of bytes with an uncorrectable error: the spec does not say, so that
the poisoned ones have free values (R75) (DESIGN CHOICE, log 100). -/
def State.unpoison (s : State) (pa n v m : Nat) : State × Nat :=
  if m = 0 then (s, v)
  else
    (s.bump, leNat ((List.range n).map fun i => if bit m i then Config.windowByte s.fresh (pa + i) else byteOf v i))

/-! ## Recalls -/

/-- The sector by which a block's stash owns a physical sector. -/
def Block.owned (b : Block) (sec : Nat) : Option (Nat × Sector) :=
  b.secs.find? fun x => x.2.pa = sec * 64 && (x.2.st = .owned || x.2.st = .dirty)

/-- Write back the dirty bytes of a sector (R64). -/
def State.writeBack (s : State) (x : Sector) : State :=
  s.putBytes x.pa 64 x.data x.dirty x.poison

/-- Replace a sector of a block's stash; an unfilled sector is not listed. -/
def State.setSec (s : State) (b k : Nat) (x : Sector) : State :=
  s.modBlock b fun y => { y with secs := y.secs.set {} k x }

/-- Recall a sector from the stash that owns it: the dirty bytes are written back, its times return
to the home, and the stash keeps a clean copy on a read and drops it on a write (R63, R64). -/
def State.recall (s : State) (wr : Bool) (sec : Nat) : State :=
  match s.owners.get 0 sec with
  | 0 => s
  | b + 1 =>
    match (s.block b).owned sec with
    | none => { s with owners := s.owners.set 0 sec 0 }
    | some (k, x) =>
      let s := s.writeBack x
      let s := s.setSec b k (if wr then {} else { x with st := .clean, dirty := 0 })
      ({ s with owners := s.owners.set 0 sec 0 }).setHome sec ⟨x.wts, x.rts⟩

/-! ## Accesses at the home -/

/-- Raise a core's clock (R62, R84); no core may run behind the highest clock of the last multiple
of 256 for long (R85). -/
def State.raiseClock (s : State) (core t : Nat) : State :=
  s.modCore core fun c => { c with clock := max c.clock t }

/-- A read or atomic has its place at the home of a sector: no later read finds what the stores before it have
replaced there (R95). -/
def State.settleSec (s : State) (sec : Nat) : State :=
  { s with undo := s.undo.filter fun x => x.2.1 / 64 ≠ sec }

/-- Bytes are written that no lane's store writes: whatever stores before have replaced there can be read no more
(R95). -/
def State.overwritten (s : State) (pa n : Nat) : State :=
  { s with undo := s.undo.filter fun x => x.2.1 < pa || pa + n ≤ x.2.1 }

/-- Grant or renew a read lease: rts := max(rts, wts, clock) + 256 (R62). `drop` says that it is an atomic which takes its
place as a read: an owner does not keep the sector (R63, R82). -/
def State.grant (s : State) (vf : Nat) (ca : Cache) (clock sec : Nat) (drop : Bool := false) : State × Home :=
  let s := (s.recall drop sec).settleSec sec
  let s := s.fillLine vf ca (sec / 4)
  let h := s.home sec
  let h' : Home := ⟨h.wts, max (max h.rts h.wts) clock + 256⟩
  (s.setHome sec h', h')

/-- The number by which an agent that is no lane has stored: in the order of die, core and lane it follows every reader
(R84). As a reader it has number 0. -/
def noLane : Nat := 2 ^ 20

/-- Note that agent `num` has stored to a sector in this tick at a time (R84). -/
def State.noteStore (s : State) (num sec t : Nat) : State := { s with stored := (sec, t, num) :: s.stored }

/-- Agent `num` takes a time for a store at the home: t := max(clock, rts + 1) and wts := rts := t (R62). -/
def State.takeTime (s : State) (vf : Nat) (ca : Cache) (num clock sec : Nat) : State × Nat :=
  let s := s.recall true sec
  let s := s.fillLine vf ca (sec / 4)
  let t := max clock ((s.home sec).rts + 1)
  ((s.setHome sec ⟨t, t⟩).noteStore num sec t, t)

/-- The time of a read by agent `num` that finds a sector's last store at time `wts` (R84): max(clock, wts). Where that
store was performed in this very tick by an agent of a higher number, the order of numbers would place the read before
the store that it reads, and its time is one later (DEDUCED, log 97). -/
def State.readTime (s : State) (num clock sec wts : Nat) : Nat :=
  max clock (if s.stored.any fun x => x.1 = sec && x.2.1 = wts && num < x.2.2 then wts + 1 else wts)

/-- The sectors that bytes from `pa` up touch. -/
def sectorsOf (pa n : Nat) : List Nat :=
  (List.range ((pa + n - 1) / 64 - pa / 64 + 1)).map (pa / 64 + ·)

/-- A read of a table entry by a walker of a die, at one place in T: not before the walk's earlier reads (R45, R84). An
entry with an uncorrectable error is free in its poisoned bytes (R75) (DESIGN CHOICE, log 100). -/
def State.walkRead (s : State) (d vf pa : Nat) : State × Nat :=
  let (s, h) := s.grant vf .keep (s.die d).walkTime (pa / 64)
  let x := s.getBytes pa 8
  (s.modDie d fun y => { y with walkTime := s.readTime 0 y.walkTime (pa / 64) h.wts }).unpoison pa 8 x.1 x.2

/-- A device-scope read by an agent that keeps no copy: bytes and poison. -/
def State.deviceRead (s : State) (vf pa n : Nat) : State × Nat × Nat :=
  let s := (sectorsOf pa n).foldl (fun s x => (s.grant vf .keep 0 x).1) s
  (s, s.getBytes pa n)

/-- A read that takes no place in T: the bytes as the last store left them, with no lease (R95, R197). -/
def State.quietRead (s : State) (vf : Nat) (ca : Cache) (pa n : Nat) : State × Nat × Nat :=
  let s := (sectorsOf pa n).foldl (fun s x => (s.recall false x).fillLine vf ca (x / 4)) s
  (s, s.getBytes pa n)

/-- A write that takes no place in T (R370). -/
def State.quietWrite (s : State) (pa n data : Nat) : State :=
  (((sectorsOf pa n).foldl (fun s x => s.recall true x) s).overwritten pa n).putBytes pa n data (ones n) 0

/-- Whether a sector cannot be reached now: a commit has locked it, or the guest owns it and must answer a recall
(R108, R322). -/
def State.busySec (s : State) (pa : Nat) : Bool :=
  s.locks.get 0 (lockKey (pa / 64)) ≠ 0 || s.guest.secs.any fun x => x.1 = pa / 64 && x.2.owned

/-- A device-scope store by an agent that keeps no copy, at a time not below `clock`. -/
def State.deviceWriteAt (s : State) (vf clock pa n data : Nat) : State :=
  let s := (sectorsOf pa n).foldl (fun s x => (s.takeTime vf .keep noLane clock x).1) s
  (s.overwritten pa n).putBytes pa n data (ones n) 0

/-- A device-scope store that follows no other access. -/
def State.deviceWrite (s : State) (vf pa n data : Nat) : State := s.deviceWriteAt vf 0 pa n data

/-- The bytes as the last store left them, without an access: those of an owning stash where one owns
the sector. -/
def State.peekByte (s : State) (pa : Nat) : Byte :=
  match s.owners.get 0 (pa / 64) with
  | 0 => s.memByte pa
  | b + 1 =>
    match (s.block b).owned (pa / 64) with
    | some (_, x) => byteOf x.data (pa % 64)
    | none => s.memByte pa

def State.peek (s : State) (pa n : Nat) : Nat :=
  leNat ((List.range n).map fun i => s.peekByte (pa + i))

/-- An atomic OR into a table entry at a time not below `clock` (R44, R84): the time it took. -/
def State.orEntry (s : State) (vf clock pa mask : Nat) : State × Nat :=
  let (s, t) := s.takeTime vf .keep noLane clock (pa / 64)
  let s := s.settleSec (pa / 64)
  (s.putBytes pa 8 ((s.getBytes pa 8).1 ||| mask) (ones 8) 0, t)

end Sys2Proof.Machine
end

