-- ==== Sys2Proof/Machine/Mmu.lean ====
section
/-! DEFINITION. Translation: the five-level tables of both stages, the translation caches, what a walk
stops with, and the checks of an access (R35 to R46, R53). -/

namespace Sys2Proof.Machine

/-! ## Entries -/

/-- Bits [lo..] of the index at a level: the lowest address bit of the index (R37). -/
def lvShift : Nat → Nat
  | 0 => 48 | 1 => 39 | 2 => 30 | 3 => 21 | _ => 16

/-- The number of index bits at a level (R37). -/
def lvBits : Nat → Nat
  | 0 => 8 | 1 | 2 | 3 => 9 | _ => 5

/-- The index of an address at a level. -/
def lvIndex (lv a : Nat) : Nat := bits a (lvShift lv) (lvBits lv)

/-- The bytes of a table of a level (R37). -/
def lvBytes (lv : Nat) : Nat := 2 ^ lvBits lv * 8

/-- The attributes of a leaf entry (R39). -/
def attrOf (e : Nat) : Attr :=
  { rd := bit e 2, wr := bit e 3, ex := bit e 4, us := bit e 5, rep := bit e 6, host := bit e 7
    devo := bit e 8 }

/-- The output page of a leaf at a level (R39). -/
def pageOf (lv e : Nat) : Nat := bits e 16 36 * 65536 / 2 ^ lvShift lv * 2 ^ lvShift lv

/-- Table errors of a leaf entry by itself (R39, R40). -/
def leafBad (stage2 : Bool) (lv e : Nat) : Bool :=
  lv < 2 || bits e 11 5 ≠ 0 || bits e 52 12 ≠ 0 || bits e 16 (lvShift lv - 16) ≠ 0
    || (bit e 3 && !bit e 2) || (stage2 && bit e 5)

/-- Table errors of a leaf's attributes against the page they map (R40). -/
def pageBad (a : Attr) (page lg : Nat) : Bool :=
  (a.host != decide (paKind page = .host)) || (a.rep && dieBytes < page + 2 ^ lg)
    || (decide (paKind page = .regs) && (!a.devo || a.us))

/-- Table errors of a pointer entry by itself (R38, R40). -/
def ptrBad (lv e : Nat) : Bool :=
  4 ≤ lv || bits e 2 6 ≠ 0 || bits e 52 12 ≠ 0 || (lv < 3 && bits e 8 4 ≠ 0)

/-- The next table of a pointer entry (R38). -/
def nextOf (e : Nat) : Nat := bits e 8 44 * 256

/-! ## Stops and results -/

/-- Why a walk stopped: stage, level, cause and the address the record gives (R46, R47). -/
structure Stop where
  stage2 : Bool
  level : Nat
  cause : Nat
  addr : Nat
  deriving DecidableEq, Repr

/-- A stage-2 leaf, or the identity when stage 2 is disabled: the physical address, the level, the
attributes, and the entry with its address. -/
structure Leaf2 where
  pa : Nat
  lv : Nat
  lg : Nat
  attr : Attr
  e : Nat
  at? : Option Nat
  deriving DecidableEq, Repr

inductive Res (α : Type)
  | ok (x : α)
  | stop (x : Stop)
  deriving DecidableEq, Repr

/-- A stop that is no fault: the entry lies in a sector that cannot be reached now, so the walk is made again (R108,
R322). -/
def busyCause : Nat := 7

/-- The tag of cached stage-2 pointers that no space's translation has read: those of the host's accesses and of
queue descriptors (R42). -/
def noSpace : Nat := 4096

/-! ## Walk cache -/

/-- The deepest pointer entry that the walk cache holds for an address (R42, R43). -/
def State.walkStart (s : State) (d vf spid : Nat) (h2 stage2 : Bool) (a : Nat) : Option (Nat × Nat) :=
  [3, 2, 1, 0].findSome? fun lv =>
    ((s.die d).wcache.find? fun e => e.vf = vf && e.spid = spid && e.h2 = h2 && e.stage2 = stage2
      && e.level = lv && e.prefx = a / 2 ^ lvShift lv).map fun e => (lv + 1, e.next)

/-- Keep a pointer entry; the oldest of 4,096 goes (R42). -/
def State.addWalk (s : State) (d : Nat) (e : WalkEntry) : State :=
  s.modDie d fun x => { x with wcache := (e :: x.wcache.filter fun y => y ≠ e).take 4096 }

/-! ## Stage 2 -/

/-- Walk stage 2 from a table down (R37 to R40), for a translation of a space, whose SPID tags the pointers that it
keeps (R42). -/
def walk2 (s : State) (d vf spid fpa : Nat) : Nat → Nat → Nat → State × Res Leaf2
  | 0, lv, _ => (s, .stop ⟨true, lv, 1, fpa⟩)
  | n + 1, lv, table =>
    let ea := table + 8 * lvIndex lv fpa
    let (s1, e) := s.walkRead d vf ea
    if s.busySec ea then (s, .stop ⟨true, lv, busyCause, fpa⟩)
    else
    let s := s1
    if !bit e 0 then (s, .stop ⟨true, lv, 0, fpa⟩)
    else if bit e 1 then
      if leafBad true lv e || pageBad (attrOf e) (pageOf lv e) (lvShift lv) then
        (s, .stop ⟨true, lv, 1, fpa⟩)
      else
        (s, .ok { pa := pageOf lv e + fpa % 2 ^ lvShift lv, lv := lv, lg := lvShift lv
                  attr := attrOf e, e := e, at? := some ea })
    else if ptrBad lv e || !s.tableOk (nextOf e) (lvBytes (lv + 1)) then
      (s, .stop ⟨true, lv, 1, fpa⟩)
    else
      walk2 (s.addWalk d ⟨vf, spid, true, true, lv, fpa / 2 ^ lvShift lv, nextOf e⟩) d vf spid fpa n (lv + 1)
        (nextOf e)

/-- The attributes of the identity map. -/
def attrAll : Attr := ⟨true, true, true, true, false, false, false⟩

/-- Stage 2 of a function-physical address: the identity while H2ROOT.EN is 0 (R35, R41). -/
def State.stage2 (s : State) (d vf spid fpa : Nat) : State × Res Leaf2 :=
  let r := (s.fn vf).h2root
  if !bit r 0 then
    (s, .ok { pa := fpa, lv := 0, lg := 52, attr := attrAll, e := 0, at? := none })
  else
    match s.walkStart d vf spid true true fpa with
    | some (lv, t) => walk2 s d vf spid fpa 5 lv t
    | none =>
      let root := bits r 12 40 * 4096
      if s.tableOk root (lvBytes 0) then walk2 s d vf spid fpa 5 0 root
      else (s, .stop ⟨true, 0, 1, fpa⟩)

/-! ## Stage 1 -/

/-- Put the two leaves of a page together (R41): the effective attributes, the smaller page, and the
table errors that need both. That device registers need DEVO is checked of the effective attribute, so that a leaf of
either stage may set it (DEDUCED, log 71). -/
def State.combine (s : State) (vf spid va fpa lv e at1 : Nat) (x : Leaf2) : Res Tlb :=
  let a := attrOf e
  let h2 := x.at?.isSome
  let lg := min (lvShift lv) x.lg
  let eff : Attr :=
    { rd := a.rd && x.attr.rd, wr := a.wr && x.attr.wr, ex := a.ex && x.attr.ex, us := a.us
      rep := a.rep, host := a.host, devo := a.devo || x.attr.devo }
  if h2 && (a.rep != x.attr.rep || a.host != x.attr.host) then .stop ⟨true, x.lv, 1, fpa⟩
  else if h2 && pageBad { a with devo := eff.devo } (x.pa / 2 ^ lg * 2 ^ lg) lg then
    .stop ⟨false, lv, 1, va⟩
  else
    .ok { vf := vf, spid := spid, h2 := bit (s.fn vf).h2root 0
          va := va / 2 ^ lg * 2 ^ lg, lg := lg, pa := x.pa / 2 ^ lg * 2 ^ lg
          fpa := fpa / 2 ^ lg * 2 ^ lg, attr := eff, attr1 := a, lv1 := lv, lv2 := x.lv
          s1 := some at1, s2 := x.at?
          acc := bit e 9 && (!h2 || bit x.e 9), dirty := bit e 10 && (!h2 || bit x.e 10) }

/-- Keep the stage-1 pointer by which a walk has come to a table of a level (R42). -/
def State.keepPointer (s : State) (d vf spid va lv table : Nat) : State :=
  if lv = 0 then s
  else s.addWalk d ⟨vf, spid, bit (s.fn vf).h2root 0, false, lv - 1, va / 2 ^ lvShift (lv - 1), table⟩

/-- Walk stage 1 from a table down; each table's address goes through stage 2 (R37 to R41). The pointer to a table is
kept once the table has been found to lie where one may (R40, R42). Of the stage-2 leaf over
a table or a descriptor no permission is asked, and no ACC is set in it (DEDUCED, log 72). -/
def walk1 (s : State) (d vf spid va : Nat) : Nat → Nat → Nat → State × Res Tlb
  | 0, lv, _ => (s, .stop ⟨false, lv, 1, va⟩)
  | n + 1, lv, table =>
    match s.stage2 d vf spid (table + 8 * lvIndex lv va) with
    | (s, .stop x) => (s, .stop x)
    | (s, .ok y) =>
      if !s.tableOk (y.pa - 8 * lvIndex lv va) (lvBytes lv) then (s, .stop ⟨false, lv - 1, 1, va⟩)
      else if s.busySec y.pa then (s, .stop ⟨false, lv, busyCause, va⟩)
      else
        let s := s.keepPointer d vf spid va lv table
        let (s, e) := s.walkRead d vf y.pa
        if !bit e 0 then (s, .stop ⟨false, lv, 0, va⟩)
        else if bit e 1 then
          if leafBad false lv e || pageBad (attrOf e) (pageOf lv e) (lvShift lv) then
            (s, .stop ⟨false, lv, 1, va⟩)
          else
            let fpa := pageOf lv e + va % 2 ^ lvShift lv
            match s.stage2 d vf spid fpa with
            | (s, .stop x) => (s, .stop x)
            | (s, .ok z) => (s, s.combine vf spid va fpa lv e y.pa z)
        else if ptrBad lv e then (s, .stop ⟨false, lv, 1, va⟩)
        else walk1 s d vf spid va n (lv + 1) (nextOf e)

/-- The bytes of a space table: 4,096 descriptors (R36). -/
def spaceBytes : Nat := 32768

/-- Whether a byte of a function's space table lies where no table may: an address that stage 2 does not translate
is left to the read of the descriptor itself (R40). -/
def State.spaceBad (s : State) (d vf spid fpa : Nat) : Bool :=
  match (s.stage2 d vf spid fpa).2 with
  | .ok y => !s.homed y.pa
  | .stop _ => false

/-- Read the descriptor of a space (R36): the root it names, or the cause of the stop. A space table
that lies outside the memories of R40 gives a table error. SPTBL.EN is asked when a launch is accepted, and not when a
running launch reads its descriptor again after a `tinv` (DEDUCED, log 73). -/
def State.descriptor (s : State) (d vf spid va : Nat) : State × Res Nat :=
  let t := (s.fn vf).sptbl
  let base := bits t 12 40 * 4096
  match s.stage2 d vf spid (base + 8 * spid) with
  | (s, .stop x) => (s, .stop x)
  | (s, .ok y) =>
    if !s.tableOk y.pa 8 || s.spaceBad d vf spid base || s.spaceBad d vf spid (base + spaceBytes - 1) then
      (s, .stop ⟨false, 0, 1, va⟩)
    else if s.busySec y.pa then (s, .stop ⟨false, 0, busyCause, va⟩)
    else
      let (s, e) := s.walkRead d vf y.pa
      if !bit e 0 then (s, .stop ⟨false, 0, 0, va⟩)
      else if bits e 1 11 ≠ 0 || bits e 52 12 ≠ 0 then (s, .stop ⟨false, 0, 1, va⟩)
      else (s, .ok (bits e 12 40 * 4096))

/-- Walk an address of a space. `root` is the root that the launch read when it was accepted, plus 1,
or 0 once a `tinv` has made it stale, so that the descriptor is read as it stands (R36). -/
def State.walk (s : State) (d vf spid root va : Nat) : State × Res Tlb :=
  match s.walkStart d vf spid (bit (s.fn vf).h2root 0) false va with
  | some (lv, t) => walk1 s d vf spid va 5 lv t
  | none =>
    if root ≠ 0 then walk1 s d vf spid va 5 0 (root - 1)
    else
      match s.descriptor d vf spid va with
      | (s, .stop x) => (s, .stop x)
      | (s, .ok t) => walk1 s d vf spid va 5 0 t

/-! ## Translation caches -/

/-- Whether a cached translation answers an address: same tags, and the page covers it (R42). -/
def Tlb.hits (e : Tlb) (vf spid : Nat) (h2 : Bool) (va : Nat) : Bool :=
  e.vf = vf && e.spid = spid && e.h2 = h2 && va / 2 ^ e.lg = e.va / 2 ^ e.lg

/-- Put a translation at the front of a cache, taking the place of one for the same page; the oldest
goes when the cache is full (R42, DESIGN CHOICE, log 20). -/
def addTlb (n : Nat) (e : Tlb) (l : List Tlb) : List Tlb :=
  (e :: l.filter fun x => !(x.vf = e.vf && x.spid = e.spid && x.h2 = e.h2 && x.va = e.va
    && x.lg = e.lg)).take n

/-- Who a translation is for: the core and function, the space, its root, the level and master. -/
structure Who where
  core : Nat
  vf : Nat
  spid : Nat
  root : Nat
  lvl : Level
  /-- MASTER of a record (R47) -/
  master : Nat := 0
  slot : Nat := 0
  launch : Nat := 0
  /-- the writes are an engine's: their places have no relation to the program order of the core's lanes (R96) -/
  eng : Bool := false
  /-- the lane whose access it is (R84) -/
  lane : Nat := 0
  deriving DecidableEq, Repr

/-- Whether it is a lane of a part, a prologue's among them, and not an engine or another agent. -/
def Who.isLane (w : Who) : Bool := !w.eng && (w.master = 0 || w.master = 6)

/-- The place of a lane in the order of die, core and lane (R84). -/
def Who.num (w : Who) : Nat := w.core * 1024 + w.lane + 1

/-- The number of a reader in the order of places of equal time and tick (R84). -/
def Who.reads (w : Who) : Nat := if w.isLane then w.num else 0

/-- The number of a writer in that order. -/
def Who.writes (w : Who) : Nat := if w.isLane then w.num else noLane

/-- The function whose way mask bounds the fills of an access: level H has a mask of all ways, which is that of
number 64 (R71). The physical function's accesses have number 64 as well: the spec gives it no mask (DESIGN CHOICE,
log 98). -/
def Who.fill (w : Who) : Nat := if w.lvl = .h then 64 else w.vf

/-- The clock of whoever makes an access: the guest's, the host's, or its core's (R84, R92, R101). -/
def State.whoClock (s : State) (w : Who) : Nat :=
  if w.master = 4 then s.guest.clock
  else if w.master = 7 then s.hostClock
  else (s.core w.core).clock

/-- Raise that clock (R84). -/
def State.raiseWho (s : State) (w : Who) (t : Nat) : State :=
  if w.master = 4 then { s with guest := { s.guest with clock := max s.guest.clock t } }
  else if w.master = 7 then { s with hostClock := max s.hostClock t }
  else s.raiseClock w.core t

/-- A number of no sector. -/
def noSector : Nat := 2 ^ 64

/-- Whether the guest's clock may reach a time: it passes no lease that the guest still holds, but on the sector of the
access itself (R322). -/
def State.guestMay (s : State) (sec t : Nat) : Bool :=
  s.guest.secs.all fun x => x.2.owned || x.1 = sec || t ≤ x.2.rts

/-- The highest time up to `t` that the guest's clock may reach (R322). -/
def State.guestLimit (s : State) (t : Nat) : Nat :=
  s.guest.secs.foldl (fun m x => if x.2.owned then m else min m (max s.guest.clock x.2.rts)) t

/-- The guest's clock moves toward a time, as far as the leases that it holds allow (R322). -/
def State.guestMoves (s : State) (t : Nat) : State :=
  { s with guest := { s.guest with clock := s.guestLimit (max s.guest.clock t) } }

/-- Keep a translation in the caches of a core and its die. -/
def State.keepTlb (s : State) (core : Nat) (fetch : Bool) (e : Tlb) : State :=
  let s := s.modDie (dieOf core) fun x => { x with stlb := addTlb 16384 e x.stlb }
  s.modCore core fun x =>
    if fetch then { x with itlb := addTlb 64 e x.itlb } else { x with tlb := addTlb 512 e x.tlb }

/-- The translation of a level-H access: the physical address itself (PRESUMED, log 70). -/
def physTlb (w : Who) (va : Nat) : Tlb :=
  let page := va / 65536 * 65536
  { vf := w.vf, spid := w.spid, h2 := false, va := page, lg := 16, pa := page, fpa := page
    attr := { attrAll with host := paKind va = .host, devo := paKind va = .regs }
    attr1 := { attrAll with host := paKind va = .host, devo := paKind va = .regs }
    lv1 := 0, lv2 := 0, s1 := none, s2 := none, acc := true, dirty := true }

/-- Read tables for an access: with `place` the reads stand in T after whatever its agent's clock follows and before the
access, so that the clock follows them (R84). -/
def State.inWalk {α : Type} (s : State) (w : Who) (place : Bool) (f : State → State × α) : State × α :=
  let d := dieOf w.core
  let (s, r) := f (s.modDie d fun x => { x with walkTime := if place then s.whoClock w else 0 })
  (if place then s.raiseWho w (s.die d).walkTime else s, r)

/-- Walk for an access. A fetch takes no place in T, and its walk raises no clock (R197). -/
def State.walkFor (s : State) (w : Who) (fetch : Bool) (va : Nat) : State × Res Tlb :=
  s.inWalk w (!fetch) fun s => s.walk (dieOf w.core) w.vf w.spid w.root va

/-- Translate an address: a core's cache, then its die's, then a walk (R42, R43). No cache holds a
walk that stopped (R344). A miss of the L1 translation cache is counted, and none of the instruction translation cache
(R42, R369). -/
def State.translate (s : State) (w : Who) (fetch : Bool) (va : Nat) : State × Res Tlb :=
  let h2 := bit (s.fn w.vf).h2root 0
  let c := s.core w.core
  if w.lvl = .h then (s, .ok (physTlb w va))
  else
  match (if fetch then c.itlb else c.tlb).find? fun e => e.hits w.vf w.spid h2 va with
  | some e => (s, .ok e)
  | none =>
    let s := if fetch then s else s.count w.core 8 1
    match (s.die (dieOf w.core)).stlb.find? fun e => e.hits w.vf w.spid h2 va with
    | some e => (s.keepTlb w.core fetch e, .ok e)
    | none =>
      match s.walkFor w fetch va with
      | (s, .stop x) => (s, .stop x)
      | (s, .ok e) => (s.keepTlb w.core fetch e, .ok e)

/-- The physical address of a translation, on the copy that a die reads (R41). -/
def Tlb.phys (e : Tlb) (d va : Nat) : Nat := copyOf e.attr.rep d (e.pa + va % 2 ^ e.lg)

/-- The kinds of an access in a record (R47). -/
def kRead : Nat := 0
def kWrite : Nat := 1
def kAtomic : Nat := 2
def kFetch : Nat := 3

/-- The first permission that an access kind lacks under some attributes: the cause (R46, R53). -/
def permCause (a : Attr) (kind : Nat) : Option Nat :=
  if kind = kWrite && !a.wr then some 9
  else if kind = kAtomic && !a.wr then some 9
  else if kind = kAtomic && !a.rd then some 8
  else if kind = kRead && !a.rd then some 8
  else if kind = kFetch && !a.ex then some 10
  else none

/-- The violation of an access by its level and permission (R46, R53). An atomic of which stage 1 lacks one permission
and stage 2 another is recorded for stage 1 (DEDUCED, log 74). -/
def permStop (e : Tlb) (va kind : Nat) (lvl : Level) : Option Stop :=
  if lvl = .u && !e.attr.us then some ⟨false, e.lv1, 11, va⟩
  else
    match permCause e.attr kind with
    | none => none
    | some c =>
      if permCause e.attr1 kind = none then some ⟨true, e.lv2, c, e.fpa + va % 2 ^ e.lg⟩
      else some ⟨false, e.lv1, c, va⟩

/-- The violation of an access through a translation, in the order of R53: reserved physical, DEVO
for a guest or the host, US, then permission (`permStop`). -/
def State.violation (s : State) (e : Tlb) (va kind : Nat) (lvl : Level) (outside : Bool) :
    Option Stop :=
  let pa := e.pa + va % 2 ^ e.lg
  let fpa := e.fpa + va % 2 ^ e.lg
  if s.reservedPa pa then some ⟨false, 0, 14, va⟩
  else if outside && e.attr.devo then
    some (if e.attr1.devo then ⟨false, e.lv1, 12, va⟩ else ⟨true, e.lv2, 12, fpa⟩)
  else permStop e va kind lvl


/-- Translate and check one address for an access kind (R27, R46, R53). -/
def State.resolve (s : State) (w : Who) (kind va : Nat) : State × Res Tlb :=
  if 2 ^ 56 ≤ va then (s, .stop ⟨false, 0, 13, va⟩)
  else
    match s.translate w (kind = kFetch) va with
    | (s, .stop x) => (s, .stop x)
    | (s, .ok e) =>
      match s.violation e va kind w.lvl (w.master = 4) with
      | some x => (s, .stop x)
      | none => (s, .ok e)

/-- Set bits in the entry of a leaf; the clock of whoever accesses it follows (R44, R84). -/
def State.markLeaf (s : State) (w : Who) (m : Nat) : Option Nat → State
  | some a =>
    let (s, t) := s.orEntry w.fill (s.whoClock w) a m
    s.raiseWho w t
  | none => s

/-- A translation as the caches of a core know it by now: an access through it may have set ACC or DIRTY since it was
made. -/
def State.refreshed (s : State) (core : Nat) (e : Tlb) : Tlb :=
  ((s.core core).tlb.find? fun x => { x with acc := e.acc, dirty := e.dirty } = e).getD e

/-- Whether a leaf in which ACC or DIRTY may have to be set lies in a sector that cannot be reached now. -/
def State.leafBusy (s : State) (e : Tlb) : Bool :=
  !(e.acc && e.dirty) && (e.s1.toList ++ e.s2.toList).any s.busySec

/-- Before an access is performed through a translation: set ACC, and DIRTY for a write, in each leaf
(R44). The caches then know it. -/
def State.markUsed (s : State) (w : Who) (e : Tlb) (dirty : Bool) : State :=
  if e.acc && (e.dirty || !dirty) then s
  else
    let m := 2 ^ 9 + (if dirty then 2 ^ 10 else 0)
    let s := (s.markLeaf w m e.s1).markLeaf w m e.s2
    let e' := { e with acc := true, dirty := e.dirty || dirty }
    let upd (l : List Tlb) : List Tlb := l.map fun x => if x = e then e' else x
    let s := s.modCore w.core fun c => { c with tlb := upd c.tlb, itlb := upd c.itlb }
    s.modDie (dieOf w.core) fun x => { x with stlb := upd x.stlb }

/-! ## Records -/

/-- A fault record as a number of 256 bits (R47). -/
def State.faultRecord (s : State) (w : Who) (x : Stop) (kind token : Nat) : Nat :=
  x.addr % 2 ^ 56 + kind * 2 ^ 64 + b2n x.stage2 * 2 ^ 66
    + (if 13 ≤ x.cause then 0 else x.level) * 2 ^ 67 + x.cause * 2 ^ 70 + w.master * 2 ^ 74
    + w.vf * 2 ^ 80 + w.spid * 2 ^ 86 + (if w.master = 7 then 0 else dieOf w.core) * 2 ^ 98
    + (if w.master = 4 || w.master = 7 then 0 else w.core % 64) * 2 ^ 100
    + w.slot * 2 ^ 106 + token * 2 ^ 112 + w.launch * 2 ^ 128 + s.tick * 2 ^ 192

/-- Whether a stop is a violation (R46). -/
def Stop.isViolation (x : Stop) : Bool := 8 ≤ x.cause

/-- The place of a stop in the order in which one access reports its conditions: the violations of R53, then faults,
then a walk that is only made again. -/
def Stop.rank (x : Stop) : Nat :=
  match x.cause with
  | 13 => 0
  | 15 => 1
  | 14 => 2
  | 12 => 3
  | 11 => 4
  | 8 | 9 | 10 => 5
  | 7 => 7
  | _ => 6

/-- Write the record of a violation, with token 0, to the function's fault queue (R47, R331); the
physical function's go to the hypervisor's (R382). -/
def State.reportViolation (s : State) (w : Who) (x : Stop) (kind : Nat) : State :=
  let (id, s) := s.takeId
  { s with reports := s.reports ++
      [{ id := id, die := dieOf w.core, ring := w.vf, key := [], token := 0
         record := s.faultRecord w x kind 0 }] }

/-- The key of a fault report (R50). -/
def faultKey (w : Who) (x : Stop) : List Nat :=
  if x.stage2 then [w.vf, 1, x.addr / 65536] else [w.vf, 0, w.spid, x.addr / 65536]

/-- The ring of a fault: the hypervisor's for stage 2, the function's otherwise (R47). -/
def faultRing (w : Who) (x : Stop) : Nat := if x.stage2 then 64 else w.vf

/-- Join the outstanding report of a fault's key on this die, or make a new one (R50). The number of
the report, or `none` when the ring is disabled, which acts as ABORT (R48); 0 for a walk that is only to be made
again. -/
def State.reportFault (s : State) (w : Who) (x : Stop) (kind : Nat) : Option Nat × State :=
  let ring := faultRing w x
  let d := dieOf w.core
  if x.cause = busyCause then (some 0, s)
  else if (s.fn ring).fq.size = 0 then (none, s)
  else
    match s.reports.find? fun r => r.die = d && r.ring = ring && r.key = faultKey w x && r.token ≠ 0
      with
    | some r =>
      (some r.id, { s with reports := s.reports.map fun q : Report =>
        if q.id = r.id && !q.launches.contains w.launch then
          { q with launches := q.launches ++ [w.launch] } else q })
    | none =>
      let (token, s) := s.takeToken ring
      let (id, s) := s.takeId
      (some id, { s with reports := s.reports ++
        [{ id := id, die := d, ring := ring, key := faultKey w x, token := token
           record := s.faultRecord w x kind token, launches := [w.launch] }] })

end Sys2Proof.Machine
end

