-- ==== Sys2Proof/Machine/Memory.lean ====
section
/-! DEFINITION. Accesses of lanes: where each byte of one lies, what stops it, and how it is performed
on the L1, the homes, a stash, private entries, constants and windows (R31 to R34, R59 to R68, R74,
R78 to R88, R116 to R122). -/

namespace Sys2Proof.Machine

/-! ## Whose access -/

/-- The translation context of a part (R28, R47, R326). -/
def State.who (s : State) (p : Nat) : Who :=
  let t := teamOf p
  let l := s.launch (s.launchOf t)
  { core := s.coreOf p, vf := l.vf, spid := l.spid, root := l.root, lvl := l.level
    master := if l.prologue then 6 else 0, slot := (s.team t).slot, launch := s.launchOf t }

/-- The record kind of a lane access (R47). -/
def AKind.num : AKind → Nat
  | .load => kRead
  | .store => kWrite
  | .atom => kAtomic

/-- Wait for a report: an event of another agent, tried again after FRES (R49, R383) (DEDUCED, log 17). Report 0 is that
of an event which a sector or an entry that cannot be reached now keeps waiting; it is tried again in every tick. -/
def State.await (s : State) (report : Nat) (x : Waiter) : State :=
  if s.waiters.contains (report, x) then s else { s with waiters := s.waiters ++ [(report, x)] }

/-! ## Places of bytes -/

/-- Where a chunk of an access goes. -/
inductive Place
  | home (e : Tlb) (pa : Nat)
  | window (e : Tlb) (pa : Nat)
  | stash (b k : Nat) (e : Option Tlb)
  | priv (b off : Nat)
  | const (off : Nat)
  deriving DecidableEq, Repr

/-- A chunk of an access that takes one place: the whole of an aligned access, or one byte of a
misaligned one (R79). -/
structure Chunk where
  off : Nat
  n : Nat
  /-- the byte of the value that the chunk begins at -/
  dst : Nat
  place : Place
  deriving DecidableEq, Repr

/-- The chunks of an access, as offset, length and place in the value (R79, R125). -/
def Access.pieces (a : Access) : List (Nat × Nat × Nat) :=
  if !a.els.isEmpty then a.els.zipIdx.map fun x => (x.1, a.n, a.n * x.2)
  else if a.ea % a.n = 0 then [(0, a.n, 0)]
  else (List.range a.n).map fun i => (i, 1, i)

/-- The stash range of a block that holds an address (R58). -/
def Block.range (b : Block) (va : Nat) : Option SRange :=
  b.ranges.find? fun r => r.base ≤ va && va < r.base + r.len

/-- The private size of a block (R60). -/
def Block.privSize (b : Block) (stash : Nat) : Nat := (b.ranges.map (·.win)).foldl min stash


/-- A space-range violation (R32 to R34). -/
def spaceStop (va : Nat) : Stop := ⟨false, 0, 15, va⟩

/-- The permission stop of an access to a filled sector, under the translation that filled it (R32, R46). -/
def Sector.stop (x : Sector) (lvl : Level) (kind va : Nat) : Option Stop :=
  x.tr.bind fun e => permStop e va kind lvl

/-- Whether a page may back a stash sector: one of HBM4E or the second tier, attached or not (R59, R73). -/
def stashPage (e : Tlb) (va : Nat) : Bool :=
  !e.attr.rep && !e.attr.host && (match paKind (e.pa + va % 2 ^ e.lg) with
    | .hbm | .tier2 => true
    | _ => false)

/-- Find the place of a `.stash` chunk of block `b` (R32, R53, R58, R59). -/
def State.placeStash (s : State) (w : Who) (b kind va : Nat) : State × Res Place :=
  if 2 ^ 56 ≤ va then (s, .stop ⟨false, 0, 13, va⟩)
  else if ((s.block b).range va).isNone then (s, .stop (spaceStop va))
  else
    let x := (s.block b).secs.get {} (va / 64)
    if x.st ≠ .unfilled then
      match x.stop w.lvl kind va with
      | some st => (s, .stop st)
      | none => (s, .ok (.stash b (va / 64) none))
    else
      match s.translate w false (va / 64 * 64) with
      | (s, .stop st) => (s, .stop st)
      | (s, .ok e) =>
        if !stashPage e (va / 64 * 64) then (s, .stop (spaceStop va))
        else if s.reservedPa (e.pa + va % 2 ^ e.lg) then (s, .stop ⟨false, 0, 14, va⟩)
        else
          match permStop e va kind w.lvl with
          | some st => (s, .stop st)
          | none => (s, .ok (.stash b (va / 64) (some e)))

/-- Find the place of a `.cstash` chunk of `n` bytes, `off` bytes after the address that names its block (R33, R60). A
lane's access gives each chunk its own address; an engine's range names its block once (R248). -/
def State.placePriv (s : State) (cl : Nat) (ea off n : Nat) : Res Place :=
  let a := ea + off
  let ix := bits ea 21 3
  let c := s.cluster cl
  let size := (s.block (cl * 8 + ix)).privSize (s.launch c.launch).img.stash
  let o := ea % 2 ^ 21 + off
  if 2 ^ 24 ≤ ea || c.nblk ≤ ix || size < o + n then .stop (spaceStop a)
  else .ok (.priv (cl * 8 + ix) o)

/-- Find the place of a `.const` chunk (R34). -/
def State.placeConst (s : State) (l : Nat) (a n : Nat) : Res Place :=
  let g := (s.launch l).img
  if a + n ≤ g.param || (0x10000 ≤ a && a + n ≤ 0x10000 + g.dataSz) then .ok (.const a)
  else .stop (spaceStop a)

/-- Whether an atomic may go to the host window (R122). -/
def hostAtomic (op : AtomOp) (ty : AtomTy) : Bool :=
  match op with
  | .exch | .cas => true
  | .add => ty = .i32 || ty = .n32 || ty = .i64 || ty = .n64
  | _ => false

/-- Find the place of a `.global` chunk (R31, R74, R122). -/
def State.placeGlobal (s : State) (w : Who) (a : Access) (va : Nat) : State × Res Place :=
  match s.resolve w a.kind.num va with
  | (s, .stop st) => (s, .stop st)
  | (s, .ok e) =>
    let pa := e.pa + va % 2 ^ e.lg
    match paKind pa with
    | .hbm | .tier2 => (s, .ok (.home e pa))
    | .host =>
      if a.kind = .atom && !hostAtomic a.aop a.aty then (s, .stop ⟨false, e.lv1, 9, va⟩)
      else (s, .ok (.window e pa))
    | _ =>
      if a.kind = .atom then (s, .stop ⟨false, e.lv1, 9, va⟩) else (s, .ok (.window e pa))

/-- Find the place of one chunk of a lane's access. Its address is the access's plus the chunk's offset, which is not
reduced modulo 2^64, so that a sum past it is non-canonical (R27, R125, DEDUCED, log 75). -/
def State.placeOf (s : State) (w : Who) (t : Nat) (a : Access) (off n : Nat) : State × Res Place :=
  match a.sp with
  | .global => s.placeGlobal w a (a.ea + off)
  | .stash => s.placeStash w (blockOf t) a.kind.num (a.ea + off)
  | .cstash => (s, s.placePriv (clusterOf (blockOf t)) (a.ea + off) 0 n)
  | .const => (s, s.placeConst (s.launchOf t) (a.ea + off) n)

/-- The places of all chunks of an access, or its first stop in the order of R53. -/
def State.places (s : State) (w : Who) (t : Nat) (a : Access) : State × Res (List Chunk) :=
  a.pieces.foldl (fun (r : State × Res (List Chunk)) x =>
    let (s, q) := r.1.placeOf w t a x.1 x.2.1
    match r.2, q with
    | .ok cs, .ok p => (s, .ok (cs ++ [⟨x.1, x.2.1, x.2.2, p⟩]))
    | .ok _, .stop st => (s, .stop st)
    | .stop st, .stop st' => (s, .stop (if st'.rank < st.rank then st' else st))
    | .stop st, .ok _ => (s, .stop st)) (s, .ok [])

/-! ## The alignment trap -/

/-- Whether an address translates to a window, and to which (R74). -/
def State.windowAt (s : State) (w : Who) (va : Nat) : Option PaKind :=
  if 2 ^ 56 ≤ va then none
  else
    match (s.translate w false va).2 with
    | .stop _ => none
    | .ok e =>
      match paKind (e.pa + va % 2 ^ e.lg) with
      | .host => some .host
      | .guest => some .guest
      | .regs => some .regs
      | _ => none

/-- Whether a lane's access raises the alignment trap (R117, R120). -/
def State.misaligned (s : State) (w : Who) (a : Access) : Bool :=
  if a.kind = .atom then a.ea % a.n ≠ 0
  else if a.sp ≠ .global then false
  else
    let ws := a.pieces.filterMap fun x => s.windowAt w (a.ea + x.1)
    (a.ea % a.n ≠ 0 && !ws.isEmpty) || (ws.contains .regs && (a.n = 16 || a.n < 4))

/-! ## The L1 -/

/-- The L1 set of a core that holds an address (R66). -/
def l1Key (core pa : Nat) : Nat := core * 256 + bits pa 8 8

/-- The copy of a sector in a core's L1. -/
def State.l1Copy (s : State) (core sec : Nat) : Option Copy :=
  ((s.l1.get [] (l1Key core (sec * 64))).find? fun x => x.line = sec / 4).bind fun x =>
    (x.secs.find? fun y => y.1 = sec).map (·.2)

/-- Use or update a sector in a core's L1 by the cache modifier (R66, R68): `noalloc` adds none. Sixteen lines fit a
set, and the last of the list is the first to be replaced. A `.stream` or `.noalloc` access that finds its line present
leaves the line's place in the order as it is (DEDUCED, log 96). -/
def State.l1Put (s : State) (core : Nat) (ca : Cache) (sec : Nat) (x : Copy) : State :=
  let k := l1Key core (sec * 64)
  let set := s.l1.get [] k
  match set.find? fun y => y.line = sec / 4 with
  | some y =>
    if ca = .noalloc && y.secs.all (fun z => z.1 ≠ sec) then s
    else
    let y' : L1Line := { y with secs := (sec, x) :: y.secs.filter fun z => z.1 ≠ sec }
    let rest := set.filter fun z => z.line ≠ sec / 4
    if ca = .keep then { s with l1 := s.l1.set [] k (y' :: rest) }
    else { s with l1 := s.l1.set [] k (set.map fun z => if z.line = sec / 4 then y' else z) }
  | none =>
    let y : L1Line := { line := sec / 4, secs := [(sec, x)] }
    match ca with
    | .keep => { s with l1 := s.l1.set [] k (y :: set.take 15) }
    | .stream => { s with l1 := s.l1.set [] k (set.take 15 ++ [y]) }
    | .noalloc => s

/-- Drop a sector from a core's L1. -/
def State.l1Drop (s : State) (core sec : Nat) : State :=
  let k := l1Key core (sec * 64)
  { s with l1 := s.l1.set [] k (((s.l1.get [] k).map fun y : L1Line =>
      if y.line = sec / 4 then { y with secs := y.secs.filter fun z => z.1 ≠ sec } else y).filter
        fun y => !y.secs.isEmpty) }

/-- A sector as its home holds it, as a copy with the given times. -/
def State.copyAt (s : State) (sec wts rts : Nat) : Copy :=
  let x := s.getBytes (sec * 64) 64
  ⟨x.1, wts, rts, x.2⟩

/-- The copy that a grant or a renewal leaves a core or a stash with: data come with it only where wts has changed since
the old copy was made (R62). -/
def State.granted (s : State) (sec : Nat) (old : Option Copy) (h : Home) : Copy :=
  match old with
  | some x => if x.wts = h.wts then { x with rts := h.rts } else s.copyAt sec h.wts h.rts
  | none => s.copyAt sec h.wts h.rts

/-- The home of a byte of a launch's constants (R67). -/
def State.constAt (s : State) (launch off : Nat) : Nat := constAddr (s.launch launch).die launch off

/-! ## Links -/

/-- The die links between a die and the home of what it accesses, by number in R378: between opposite dies a request
goes first along the row of the two-by-two arrangement (R69), and its data comes back by the same links (DEDUCED,
log 76). -/
def dieLinks : Nat → Nat → List Nat
  | 0, 1 | 1, 0 => [14]
  | 2, 3 | 3, 2 => [15]
  | 0, 2 | 2, 0 => [16]
  | 1, 3 | 3, 1 => [17]
  | 0, 3 => [14, 17]
  | 3, 0 => [15, 16]
  | 1, 2 => [14, 16]
  | 2, 1 => [15, 17]
  | _, _ => []

/-- The links that the data of an address crosses on its way to a die (R73, R378, R379). -/
def linksOf (d pa : Nat) : List Nat :=
  match paKind pa with
  | .hbm => dieLinks d (homeDie pa)
  | .tier2 => (1 + cxlPort pa) :: dieLinks d (homeDie pa)
  | .host | .guest | .regs => dieLinks d 0
  | .resv => if 2 ^ 52 ≤ pa then dieLinks d (homeDie pa) else []

/-- Whether a lease that a core or its stash holds serves a read of a sector as the clock stands (R62, R64, R84). -/
def State.inLease (s : State) (w : Who) (sec wts rts : Nat) : Bool :=
  s.readTime w.reads (s.core w.core).clock sec wts ≤ rts

/-- The links that the data of some chunks is about to cross: what a stash owns, what a leased copy serves and a
constant in the L1 cross none, and an atomic is performed at the home whatever copies there are (R66). -/
def State.linksFor (s : State) (w : Who) (kind : AKind) (cs : List Chunk) : List Nat :=
  let d := dieOf w.core
  cs.flatMap fun c => match c.place with
    | .home e pa =>
      let pa := copyOf (e.attr.rep && kind = .load) d pa
      match s.l1Copy w.core (pa / 64) with
      | some x => if kind = .load && s.inLease w (pa / 64) x.wts x.rts then [] else linksOf d pa
      | none => linksOf d pa
    | .window _ pa => linksOf d pa
    | .stash b k e =>
      let x := (s.block b).secs.get {} k
      match x.st, e with
      | .unfilled, some e => linksOf d (e.pa + (k * 64) % 2 ^ e.lg)
      | .clean, _ => if kind = .load && s.inLease w (x.pa / 64) x.wts x.rts then [] else linksOf d x.pa
      | _, _ => []
    | .const o => if (s.l1Copy w.core (s.constAt w.launch o / 64)).isSome then [] else linksOf d (s.constAt w.launch o)
    | .priv .. => []

/-! ## Device-homed memory -/

/-- A read of `n` bytes inside one sector by a lane of a core: from a leased copy while the core's
clock is at most its rts, otherwise after a grant or renewal (R62, R66, R84). -/
def State.readHome (s : State) (w : Who) (ca : Cache) (pa n : Nat) : State × Nat × Nat :=
  let sec := pa / 64
  let clock := (s.core w.core).clock
  let use (s : State) (x : Copy) : State × Nat × Nat :=
    (s.raiseClock w.core (s.readTime w.reads clock sec x.wts), bits x.data (8 * (pa % 64)) (8 * n),
      bits x.poison (pa % 64) n)
  let fetch (s : State) : State × Nat × Nat :=
    let old := s.l1Copy w.core sec
    let (s, h) := s.grant w.fill ca clock sec
    let x := s.granted sec old h
    use (s.l1Put w.core ca sec x) x
  match s.l1Copy w.core sec with
  | some x => if s.inLease w sec x.wts x.rts then use (s.l1Put w.core ca sec x) x else fetch s
  | none => fetch (s.count w.core 6 1)

/-- Note the bytes that a store replaces, until its instruction arrives: an engine read without an
acquire flag may still find them. A write of no lane, whose tag is 0, leaves nothing there that an earlier store has
replaced (R95). -/
def State.noteUndo (s : State) (tag pa n mask : Nat) : State :=
  if tag = 0 then s.overwritten pa n
  else
    { s with undo := s.undo ++ (List.range n).filterMap fun i =>
        if bit mask i then some (tag, pa + i, s.peekByte (pa + i)) else none }

/-- A store of bytes inside one sector at its home by a core (R62, R66): its place takes the home's time,
and a copy in the core's own L1 is brought up to date, which makes its line the most recently used one under `.keep`
(R68) (DEDUCED, log 11). -/
def State.storeHome (s : State) (w : Who) (ca : Cache) (op pa n data psn : Nat) : State :=
  let sec := pa / 64
  let (s, t) := s.takeTime w.fill ca w.writes (s.core w.core).clock sec
  let s := (s.noteUndo op pa n (ones n)).putBytes pa n data (ones n) psn
  let s := s.raiseClock w.core t
  match s.l1Copy w.core sec with
  | some _ => s.l1Put w.core ca sec (s.copyAt sec t t)
  | none => s

/-! ## Atomic operations -/

/-- The width of an atomic in bytes (R118). -/
def AtomTy.bytes (ty : AtomTy) : Nat := if ty.wide then 8 else 4

/-- Comparison under an integer type. -/
def atomLe (ty : AtomTy) (x y : Nat) : Bool :=
  match ty with
  | .i32 => sint 32 x ≤ sint 32 y
  | .i64 => sint 64 x ≤ sint 64 y
  | _ => x ≤ y

/-- A floating-point atomic on one element (R121): no flag, subnormals kept, NaN canonical. -/
def atomFElem (f : FFmt) (op : AtomOp) (m : Rnd) (a b : Nat) : Nat :=
  match op with
  | .add => (elemF f { rnd := m } [a, b] (bin (addE m))).1
  | .min => (minmaxF f false a b).1
  | _ => (minmaxF f true a b).1

/-- The new value of an atomic (R119, R121). A compare that fails is decided by `atomWrites`. -/
def atomNew (op : AtomOp) (ty : AtomTy) (m : Rnd) (old b : Nat) : Nat :=
  let w := 8 * AtomTy.bytes ty
  match ty with
  | .f32 => atomFElem .f32 op m old b
  | .h2 => (packEls 16 2 fun h => (atomFElem .f16 op m (elem .f16 old h) (elem .f16 b h), 0)).1
  | .b2 => (packEls 16 2 fun h => (atomFElem .bf16 op m (elem .bf16 old h) (elem .bf16 b h), 0)).1
  | _ =>
    match op with
    | .add => (old + b) % 2 ^ w
    | .min => if atomLe ty old b then old else b
    | .max => if atomLe ty old b then b else old
    | .and => old &&& b
    | .or => old ||| b
    | .xor => old ^^^ b
    | .exch | .cas => b
    | .inc => if b ≤ old then 0 else old + 1
    | .dec => if old = 0 || b < old then b else old - 1

/-- Whether an atomic writes: all but a compare that fails (R82). -/
def atomWrites (op : AtomOp) (old c : Nat) : Bool := op ≠ .cas || old = c

/-! ## The stash -/

/-- Take a sector of a block's stash from its home (R62, R64): with ownership for a write, otherwise as a clean copy
with a lease, or without one for a read that takes no place in T (R95). A clean copy keeps its data unless wts has
changed since it was made, also where it gains ownership (R62) (DEDUCED, log 110). -/
def State.takeSec (s : State) (w : Who) (ca : Cache) (b k : Nat) (x : Sector) (own place : Bool) : State :=
  let sec := x.pa / 64
  let old : Option Copy := if x.st = .clean then some ⟨x.data, x.wts, x.rts, x.poison⟩ else none
  if own then
    let s := (s.recall true sec).fillLine w.fill ca (sec / 4)
    let h := s.home sec
    let y := s.granted sec old h
    ({ s with owners := s.owners.set 0 sec (b + 1) }).setSec b k
      { x with st := .owned, data := y.data, poison := y.poison, wts := h.wts, rts := h.rts }
  else
    let (s, h) := if place then s.grant w.fill ca (s.core w.core).clock sec
      else
        let s := (s.recall false sec).fillLine w.fill ca (sec / 4)
        (s, s.home sec)
    let y := s.granted sec old h
    s.setSec b k { x with st := .clean, data := y.data, poison := y.poison, wts := h.wts, rts := h.rts }

/-- Fill a sector of a block's stash through a translation (R32, R59). A fill is a read of its page, so it sets ACC
alone (R44). -/
def State.fillSec (s : State) (w : Who) (ca : Cache) (b k : Nat) (e : Tlb) (own place : Bool) : State :=
  let s := (s.markUsed w e false).count w.core 7 1
  s.takeSec w ca b k { pa := e.pa + (k * 64) % 2 ^ e.lg, tr := some { e with acc := true } } own place

/-- Bring a clean sector up to date by the cache modifier of the access: ownership for a write, or a renewed lease for a
read that finds its lease past (R62, R64, R68). -/
def State.refreshSec (s : State) (w : Who) (ca : Cache) (b k : Nat) (own : Bool) : State :=
  let x := (s.block b).secs.get {} k
  if !own && s.inLease w (x.pa / 64) x.wts x.rts then s else s.takeSec w ca b k x own true

/-- Make a sector ready for a read or a write that takes a place in T. -/
def State.readySec (s : State) (w : Who) (ca : Cache) (b k : Nat) (e : Option Tlb) (own : Bool) :
    State :=
  match ((s.block b).secs.get {} k).st, e with
  | .unfilled, some e => s.fillSec w ca b k e own true
  | .clean, _ => s.refreshSec w ca b k own
  | _, _ => s

/-- A read of stash bytes that takes no place in T: the home's, where the stash does not own the sector (R95). -/
def State.quietStash (s : State) (w : Who) (ca : Cache) (b k : Nat) (e : Option Tlb) (o n : Nat) :
    State × Nat × Nat :=
  let s := match ((s.block b).secs.get {} k).st, e with
    | .unfilled, some e => s.fillSec w ca b k e false false
    | .clean, _ => s.recall false (((s.block b).secs.get {} k).pa / 64)
    | _, _ => s
  let x := (s.block b).secs.get {} k
  if x.st = .clean then (s, s.getBytes (x.pa + o) n)
  else (s, bits x.data (8 * o) (8 * n), bits x.poison o n)

/-- A read of stash bytes (R64, R84): an owned sector acts as the home and grants (DEDUCED, log 12). -/
def State.readStash (s : State) (w : Who) (ca : Cache) (b k : Nat) (e : Option Tlb) (o n : Nat) :
    State × Nat × Nat :=
  let s := s.readySec w ca b k e false
  let x := (s.block b).secs.get {} k
  let s := if x.st = .clean then s else s.settleSec (x.pa / 64)
  let clock := (s.core w.core).clock
  let s := if x.st = .clean then s
    else s.setSec b k { x with rts := max (max x.rts x.wts) clock + 256 }
  (s.raiseClock w.core (s.readTime w.reads clock (x.pa / 64) x.wts), bits x.data (8 * o) (8 * n), bits x.poison o n)

/-- Replace bytes of a block held as a number. -/
def spliceBytes (data o n v : Nat) : Nat :=
  data - bits data (8 * o) (8 * n) * 2 ^ (8 * o) + v % 2 ^ (8 * n) * 2 ^ (8 * o)

/-- Replace bits of a mask. -/
def spliceBits (m o n v : Nat) : Nat := m - bits m o n * 2 ^ o + v % 2 ^ n * 2 ^ o

/-- Make a sector ready for a write: owned, with DIRTY set in the leaves of its translation (R44, R59). An entry that
lies in the sector itself is recalled by its OR, and the sector is taken again. -/
def State.dirtySec (s : State) (w : Who) (ca : Cache) (b k : Nat) (e : Option Tlb) : State :=
  let s := s.readySec w ca b k e true
  let x := (s.block b).secs.get {} k
  match x.tr with
  | some y =>
    if y.dirty then s
    else
      let s := s.markUsed w y true
      let z := { y with dirty := true }
      (s.modBlock b fun q => { q with secs := q.secs.set {} k { (q.secs.get {} k) with tr := some z } }).readySec
        w ca b k (some z) true
  | none => s

/-- The clock of a core follows the place of a lane's write, and not that of an engine's (R84, R96). -/
def State.raiseWriter (s : State) (w : Who) (t : Nat) : State := if w.eng then s else s.raiseClock w.core t

/-- Put bytes in an owned sector: the place is taken here, at t := max(clock, rts + 1) (R62, R84, R87). -/
def State.putStash (s : State) (w : Who) (op b k o n data psn : Nat) : State :=
  let x := (s.block b).secs.get {} k
  let s := s.noteUndo op (x.pa + o) n (ones n)
  let t := max (s.core w.core).clock (x.rts + 1)
  ((s.setSec b k { x with st := .dirty, data := spliceBytes x.data o n data
                          poison := spliceBits x.poison o n psn
                          dirty := x.dirty ||| (ones n * 2 ^ o), wts := t, rts := t }).noteStore
    w.writes (x.pa / 64) t).raiseWriter w t

/-- A write of stash bytes (R44, R62, R64). -/
def State.writeStash (s : State) (w : Who) (ca : Cache) (op b k : Nat) (e : Option Tlb)
    (o n data psn : Nat) : State :=
  (s.dirtySec w ca b k e).putStash w op b k o n data psn

/-- An atomic on stash bytes (R62, R82, R120): one place, with the time of a store, or that of a read for a compare
that fails. -/
def State.atomStash (s : State) (w : Who) (op b k : Nat) (e : Option Tlb) (o : Nat) (a : Access) (n : Nat) :
    State × Nat × Nat :=
  let s := s.readySec w a.ca b k e true
  let old (s : State) : Nat := bits ((s.block b).secs.get {} k).data (8 * o) (8 * n)
  let s := if atomWrites a.aop (old s) a.cmp then s.dirtySec w a.ca b k e else s
  let x := (s.block b).secs.get {} k
  let v := old s
  let psn := bits x.poison o n
  if atomWrites a.aop v a.cmp then
    ((s.settleSec (x.pa / 64)).putStash w op b k o n (atomNew a.aop a.aty a.rnd v a.data) 0, v, psn)
  else
    let (s, r) := s.readStash w a.ca b k none o n
    (s, r)

/-! ## Private entries -/

/-- Bytes of a block's private entries (R60). -/
def Block.privBytes (b : Block) (o n : Nat) : Nat × Nat :=
  (leNat ((List.range n).map fun i => b.priv.get 0 (o + i)),
   (List.range n).foldl (fun m i => if b.privPoison.get false (o + i) then m + 2 ^ i else m) 0)

/-- The number by which the stores to a sector of private entries are noted (R84). -/
def privSec (b o : Nat) : Nat := 2 ^ 60 + b * 2 ^ 16 + o / 64

/-- A read of private entries, performed at the target's stash, which is their home (R88). -/
def State.readPriv (s : State) (w : Who) (b o n : Nat) : State × Nat × Nat :=
  let x := s.block b
  let clock := (s.core w.core).clock
  let h := x.privTimes.get {} (o / 64)
  let h' : Home := ⟨h.wts, max (max h.rts h.wts) clock + 256⟩
  let times := x.privTimes.set {} (o / 64) h'
  ((s.setBlock b { x with privTimes := times }).raiseClock w.core (s.readTime w.reads clock (privSec b o) h.wts),
    x.privBytes o n)

/-- A write of private entries (R88). -/
def State.writePriv (s : State) (w : Who) (b o n data psn : Nat) : State :=
  let x := s.block b
  let t := max (s.core w.core).clock ((x.privTimes.get {} (o / 64)).rts + 1)
  let times := x.privTimes.set {} (o / 64) ⟨t, t⟩
  let x0 : Block := { x with privTimes := times }
  let x' := (List.range n).foldl (fun (y : Block) i =>
    { y with priv := y.priv.set 0 (o + i) (byteOf data i),
             privPoison := y.privPoison.set false (o + i) (bit psn i) }) x0
  ((s.setBlock b x').noteStore w.writes (privSec b o) t).raiseWriter w t

/-- An atomic on private entries, at one place (R82, R88). -/
def State.atomPriv (s : State) (w : Who) (b o : Nat) (a : Access) (n : Nat) : State × Nat × Nat :=
  let x := (s.block b).privBytes o n
  if atomWrites a.aop x.1 a.cmp then
    (s.writePriv w b o n (atomNew a.aop a.aty a.rnd x.1 a.data) 0, x)
  else s.readPriv w b o n

/-! ## Constants -/

/-- Bytes of a launch's constants, and their poison, as their home holds them (R67, R75). -/
def State.constBytes (s : State) (launch off n : Nat) : Nat × Nat :=
  (leNat ((List.range n).map fun i => (s.launch launch).consts.get 0 (off + i)),
   (List.range n).foldl (fun m i => if s.memPoison.get false (s.constAt launch off + i) then m + 2 ^ i else m) 0)

/-- A read of constants, through the L1 and from their home (R34, R67, R68). They never change, so their copies need no
lease. -/
def State.readConst (s : State) (w : Who) (ca : Cache) (off n : Nat) : State × Nat × Nat :=
  let sec := s.constAt w.launch off / 64
  let use (s : State) (x : Copy) : State × Nat × Nat :=
    (s.l1Put w.core ca sec x, bits x.data (8 * (off % 64)) (8 * n), bits x.poison (off % 64) n)
  match s.l1Copy w.core sec with
  | some x => use s x
  | none =>
    let y := s.constBytes w.launch (off / 64 * 64) 64
    use ((s.count w.core 6 1).fillLine w.fill ca (sec / 4)) ⟨y.1, 0, 0, y.2⟩

/-! ## Device registers and windows -/

/-- The function whose register window holds an address, and the offset in it (R30). -/
def fnWindow (pa : Nat) : Option (Nat × Nat) :=
  if 0xF000001000000 ≤ pa && pa < 0xF000005000000 then
    some ((pa - 0xF000001000000) / 0x100000, (pa - 0xF000001000000) % 0x100000)
  else none

/-- The 64-bit value of a device register (R30, R378, R380). Unassigned offsets read 0; the window of
a function in reset reads all ones (R360). -/
def State.regRead (s : State) (pa : Nat) : Nat :=
  match fnWindow pa with
  | some (f, _) => if (s.fn f).flrb then 2 ^ 64 - 1 else 0
  | none =>
    let o := pa - 0xF000000000000
    if 0x1000 ≤ o && o < 0x1090 then s.lnkst.get 0 ((o - 0x1000) / 8)
    else if o = 0x1100 then s.fabid
    else if o = 0x1108 then s.pwrlim
    else 0

/-- A read of a window (R74, R91): a register, or bytes of another agent's memory, which arrive at a port (R374) (DESIGN
CHOICE, log 13). -/
def State.readWindow (s : State) (pa n : Nat) : State × Nat :=
  if paKind pa = .regs then
    (s, bits (s.regRead (pa / 8 * 8)) (8 * (pa % 8)) (8 * n))
  else s.bump.outside pa (leNat ((List.range n).map fun i => Config.windowByte s.fresh (pa + i)))

/-- Put a register write behind those that have left the device and have not acted (R91). -/
def queueWrite (m : Move) : List Move → List Move
  | .event (.registerWrite f a v) :: t => .event (.registerWrite f a v) :: queueWrite m t
  | t => m :: t

/-- A write to a window: a register write goes to die 0's register block, which acts on it next, after those that
left before (R91); any other write leaves the device. A 4-byte write covers the half it names (DESIGN CHOICE,
log 35). -/
def State.writeWindow (s : State) (w : Who) (pa n data : Nat) : State :=
  if paKind pa = .regs && pa % 8 = 0 then
    { s with agenda := queueWrite (.event (.registerWrite w.vf pa (data % 2 ^ (8 * n)))) s.agenda
             hostClock := max s.hostClock (s.core w.core).clock }
  else s

/-! ## Performing an access -/

/-- Read one chunk: value and poison of its bytes. -/
def State.readChunk (s : State) (w : Who) (a : Access) (c : Chunk) : State × Nat × Nat :=
  let va := a.ea + c.off
  match c.place with
  | .home e pa =>
    (s.markUsed w e false).readHome w a.ca (copyOf e.attr.rep (dieOf w.core) pa) c.n
  | .window e pa =>
    let (s, v) := (s.markUsed w e false).readWindow pa c.n
    (s, v, 0)
  | .stash b k e => s.readStash w a.ca b k e (va % 64) c.n
  | .priv b o => s.readPriv w b o c.n
  | .const o => s.readConst w a.ca o c.n

/-- Write one chunk of a store's data. -/
def State.writeChunk (s : State) (w : Who) (op : Nat) (a : Access) (c : Chunk) : State :=
  let va := a.ea + c.off
  let data := bits a.data (8 * c.off) (8 * c.n)
  let psn := bits a.psn c.off c.n
  match c.place with
  | .home e pa => (s.markUsed w e true).storeHome w a.ca op pa c.n data psn
  | .window e pa => (s.markUsed w e true).writeWindow w pa c.n data
  | .stash b k e => s.writeStash w a.ca op b k e (va % 64) c.n data psn
  | .priv b o => s.writePriv w b o c.n data psn
  | .const _ => s

/-- An atomic at the home of its sector (R62, R82, R120): one place, with the time of a store, or that of a read for a
compare that fails. An owner writes the sector back and drops it in both cases (R63). -/
def State.atomHome (s : State) (w : Who) (op pa n : Nat) (a : Access) (wr : Bool) : State × Nat × Nat :=
  let clock := (s.core w.core).clock
  if wr then
    let (s, t) := s.takeTime w.fill a.ca w.writes clock (pa / 64)
    let x := s.getBytes pa n
    let s := (s.settleSec (pa / 64)).noteUndo op pa n (ones n)
    let s := if atomWrites a.aop x.1 a.cmp then
        s.putBytes pa n (atomNew a.aop a.aty a.rnd x.1 a.data) (ones n) 0
      else s
    ((s.raiseClock w.core t).l1Drop w.core (pa / 64), x)
  else
    let (s, h) := s.grant w.fill a.ca clock (pa / 64) true
    ((s.raiseClock w.core (s.readTime w.reads clock (pa / 64) h.wts)).l1Drop w.core (pa / 64), s.getBytes pa n)

/-- Perform an atomic on one chunk: the old value and its poison (R82, R120). What it writes is not poisoned, though
the word that it read was (DEDUCED, log 78). ACC and DIRTY are set before it, and it reads at its own place, after
them (R44). -/
def State.atomChunk (s : State) (w : Who) (op : Nat) (a : Access) (c : Chunk) :
    State × Nat × Nat :=
  let va := a.ea + c.off
  match c.place with
  | .home e pa =>
    let s := s.markUsed w e false
    if atomWrites a.aop (s.peek pa c.n) a.cmp then (s.markUsed w { e with acc := true } true).atomHome w op pa c.n a true
    else s.atomHome w op pa c.n a false
  | .window e pa =>
    let (s, old) := s.readWindow pa c.n
    (s.markUsed w e (atomWrites a.aop old a.cmp), old, 0)
  | .stash b k e => s.atomStash w op b k e (va % 64) a c.n
  | .priv b o => s.atomPriv w b o a c.n
  | .const _ => (s, 0, 0)

/-- Perform chunks that have their places, one after the other: the value read and its poison. -/
def State.perform (s : State) (w : Who) (op : Nat) (a : Access) (cs : List Chunk) :
    State × Nat × Nat :=
  cs.foldl (fun (r : State × Nat × Nat) c =>
    match a.kind with
    | .load =>
      let (s, v, m) := r.1.readChunk w a c
      (s, r.2.1 + v * 2 ^ (8 * c.dst), r.2.2 ||| (m * 2 ^ c.dst))
    | .store => (r.1.writeChunk w op a c, 0, 0)
    | .atom =>
      let (s, v, m) := r.1.atomChunk w op a c
      (s, v, m)) (s, 0, 0)

/-- The register words that an access gives (R116, R120): value and poison of each. -/
def resultWords (a : Access) (v m : Nat) : List (Nat × Bool) :=
  let word (k : Nat) : Nat × Bool := (bits v (32 * k) 32, bits m (4 * k) 4 ≠ 0)
  match a.kind with
  | .store => []
  | .atom => (List.range (a.n / 4)).map word
  | .load =>
    if !a.els.isEmpty then (List.range (a.els.length * a.n / 4)).map word
    else
    match a.sz with
    | .i8 => [(wrap 32 (sint 8 v), m ≠ 0)]
    | .n8 => [(v % 2 ^ 8, m ≠ 0)]
    | .i16 => [(wrap 32 (sint 16 v), m ≠ 0)]
    | .n16 => [(v % 2 ^ 16, m ≠ 0)]
    | .i32 => [word 0]
    | .i64 => (List.range 2).map word
    | .w4 => (List.range 4).map word

/-- Change what is noted of a deferred group. -/
def State.modGroup (s : State) (g : Nat) (f : Deferred → Deferred) : State :=
  { s with defs := s.defs.map fun d : Deferred => if d.group = g then f d else d }

/-- Fix the values of a deferred group, in the order its words were posted. -/
def State.fixGroup (s : State) (g : Nat) (ws : List (Nat × Bool)) : State :=
  let ids := (s.defs.filter fun d => d.group = g).map (·.id)
  { s with defs := s.defs.map fun d : Deferred =>
      if d.group = g then
        match ws[(ids.findIdx fun i => i = d.id)]? with
        | some (v, psn) => { d with val := some v, poison := psn }
        | none => d
      else d }

/-- The lease, as its sector, wts and rts, of the copy that may serve a chunk of a load without a visit to its home and with no
entry to be marked first: the clock does not rise before it is used (R62, R108). -/
def State.leaseOf (s : State) (w : Who) (c : Chunk) : Option (Nat × Nat × Nat) :=
  match c.place with
  | .home e pa =>
    let sec := copyOf e.attr.rep (dieOf w.core) pa / 64
    if e.acc then (s.l1Copy w.core sec).map fun x => (sec, x.wts, x.rts) else none
  | .stash b k none =>
    let x := (s.block b).secs.get {} k
    if x.st = .clean then some (x.pa / 64, x.wts, x.rts) else none
  | _ => none

/-- Whether the home of a chunk cannot be reached now, or an entry in which ACC or DIRTY is to be set (R108, R322): `load`
says that the copy of the reader's own die is meant. A sector that has left the stash since its place was found has to be
found again. -/
def State.busyHome (s : State) (w : Who) (load : Bool) (c : Chunk) : Bool :=
  match c.place with
  | .home e pa => s.leafBusy e || s.busySec (if load then copyOf e.attr.rep (dieOf w.core) pa else pa)
  | .window e _ => s.leafBusy e
  | .stash _ k (some e) => s.leafBusy e || s.busySec (e.pa + (k * 64) % 2 ^ e.lg)
  | .stash b k none =>
    let x := (s.block b).secs.get {} k
    x.st = .unfilled || (x.st = .clean && s.busySec x.pa) || (!load && (match x.tr with
      | some e => s.leafBusy e
      | none => false))
  | _ => false

/-- The chunks of a load that leased copies have to serve, since their homes cannot be reached: they come first, so that
no other chunk moves the clock past their leases. -/
def State.heldHomes (s : State) (w : Who) (cs : List Chunk) : List Chunk := cs.filter (s.busyHome w true)

/-- Whether an access cannot take its places now: a write when a home of it cannot be reached, a load when no leases that
the core's clock stays within serve the chunks whose homes cannot be (R62, R108, R322). -/
def State.busy (s : State) (w : Who) (load : Bool) (cs : List Chunk) : Bool :=
  if load then
    let ls := (s.heldHomes w cs).map (s.leaseOf w)
    let clock := ls.foldl (fun t l => match l with
      | some x => s.readTime w.reads t x.1 x.2.1
      | none => t) (s.core w.core).clock
    ls.any fun l => match l with
      | some x => x.2.2 < clock
      | none => true
  else cs.any (s.busyHome w false)

/-- A chunk whose translation is as the core's cache knows it by now. -/
def State.refreshChunk (s : State) (core : Nat) (c : Chunk) : Chunk :=
  { c with place := match c.place with
      | .home e pa => .home (s.refreshed core e) pa
      | .window e pa => .window (s.refreshed core e) pa
      | .stash b k (some e) => .stash b k (some (s.refreshed core e))
      | p => p }

/-- Whether a write goes through a replicated commit (R74, R107). -/
def replicated (a : Access) (c : Chunk) : Bool :=
  a.kind ≠ .load && (match c.place with
    | .home e _ => e.attr.rep
    | _ => false)

/-- The sectors, by their addresses on die 0, that an access commits to (R107). -/
def repSectors (a : Access) (cs : List Chunk) : List Nat :=
  (cs.filter (replicated a)).filterMap fun c => match c.place with
    | .home _ pa => some (lockKey (pa / 64))
    | _ => none

/-- Whether a chunk of a write is performed with a commit: its own, or one of its instruction's lanes on some copy of the
sector (`secs`), since lanes of one instruction take adjacent places where they reach one byte (R81). -/
def committed (a : Access) (secs : List Nat) (c : Chunk) : Bool :=
  replicated a c || (a.kind ≠ .load && (match c.place with
    | .home _ pa => secs.contains (lockKey (pa / 64))
    | _ => false))

end Sys2Proof.Machine
end

