-- ==== Sys2Proof/Machine/Fetch.lean ====
section
/-! DEFINITION. Instruction fetch: where a part's next fetch word lies, what the instruction cache and
its translation answer, and line fills (R191, R197, R198, R206). -/

namespace Sys2Proof.Machine

/-- The virtual address of a code offset of a launch (R12, R186). -/
def Launch.codeVa (l : Launch) (off : Nat) : Nat := l.image + l.img.codeOff + off

/-- The launch of a part. -/
def State.launchAt (s : State) (p : Nat) : Launch := s.launch (s.launchOf (teamOf p))

/-- The line of a core's instruction cache that holds a physical address (R197). -/
def State.icFind (s : State) (core pa : Nat) : Option ICLine :=
  (s.core core).icache.find? fun x => x.line = pa / 128

/-- What fetch finds. -/
inductive FetchRes
  | word (w : Nat)
  | miss
  | stop (x : Stop)
  deriving DecidableEq, Repr

/-- The fetch word at a code offset, from the instruction cache (R197). -/
def State.fetchWord (s : State) (p off : Nat) : State × FetchRes :=
  let va := (s.launchAt p).codeVa (off / 16 * 16)
  match s.resolve (s.who p) kFetch va with
  | (s, .stop x) => (s, .stop x)
  | (s, .ok e) =>
    let pa := e.phys (dieOf (s.coreOf p)) va
    match s.icFind (s.coreOf p) pa with
    | some x => (s, .word (bits x.data (8 * (pa % 128)) 128))
    | none => (s, .miss)

/-- The lanes of the active set that a slot's guard selects, from the slot's bits (R14, R19). -/
def State.slotGuarded (s : State) (p slot : Nat) : List Nat :=
  (s.activeSet p).filter fun l =>
    s.guard (teamOf p) l ⟨false, bit slot 51, Fin.ofNat 128 (bits slot 44 7)⟩

/-- The guarded-active and active lanes of the instruction at which a part stands, for a record
(R330): every active lane where it cannot be fetched, as for a trap that has no instruction (DEDUCED, log 33). -/
def State.atInstr (s : State) (p : Nat) : List Nat × List Nat :=
  let x := s.part p
  let act := s.activeSet p
  if act.isEmpty then ([], [])
  else
    match (s.fetchWord p x.off).2 with
    | .word w => (s.slotGuarded p (bits w (if x.off % 16 = 8 then 64 else 0) 64), act)
    | _ => (act, act)

/-- The code offset after the instruction at which a part stands: one slot on, or a fetch word after
a pair or a long form. -/
def State.afterInstr (s : State) (p : Nat) : Nat :=
  let off := (s.part p).off
  if off % 16 = 8 then off + 8
  else
    match (s.fetchWord p off).2 with
    | .word w => if bit w 62 || 0x380 ≤ bits w 52 10 then off + 16 else off + 8
    | _ => off + 8

/-- A trap of a part that stands at an instruction and does not issue it: classes 12 and 14. -/
def State.trapAt (s : State) (p cls : Nat) : State :=
  let (ga, act) := s.atInstr p
  s.takeTrap p { cls := cls, ga := ga, act := act, off := (s.part p).off, next := s.afterInstr p }

/-- Freeze a part for a report that was resolved with ABORT, or for a violation of an access that it replays (R50,
R331): a part that is suspended already freezes too, and one that is frozen stays so. -/
def State.freezePart (s : State) (p : Nat) : State :=
  if s.livePart p && (s.part p).life ≠ .frozen then s.trapAt p 14 else s

/-- Ask for the fill of the line at a code offset, unless one is under way (R198). -/
def State.askFill (s : State) (p off : Nat) (pf : Bool) : State :=
  let va := (s.launchAt p).codeVa off
  let line := va / 128
  if s.fills.any fun f => f.part = p && ((s.launchAt p).codeVa f.off) / 128 = line && f.pf = pf then s
  else
    let (id, s) := s.takeId
    { s with fills := s.fills ++ [{ id := id, part := p, off := off, pf := pf }] }

/-- The code offsets of the lines after the one at `off`, `n` of them, stopping at CODE (R198). -/
def Launch.linesAfter (l : Launch) (off n : Nat) : List Nat :=
  let va := l.codeVa off / 128 * 128
  (List.range n).filterMap fun k =>
    let a := va + 128 * (k + 1)
    if a < l.codeVa l.img.code then some (a - l.codeVa 0) else none

/-- The lines of an instruction cache (R197). -/
def icLines : Nat := 1024

/-- Put a line into a core's instruction cache of 1,024 lines; the oldest goes. Fetch takes no place in T (R197). Code with
an uncorrectable error, or whose data crossed a link that was lost, is free (R75, R379) (DESIGN CHOICE, log 100). -/
def State.icPut (s : State) (p va pa : Nat) (lost : Bool) : State :=
  let w := s.who p
  let l := s.launchAt p
  let base := pa / 128 * 128
  let (s, data) :=
    if s.homed base then
      let (s, x, m) := s.quietRead w.fill .keep base 128
      s.unpoison base 128 x (if lost then ones 128 else m)
    else s.readWindow base 128
  let x : ICLine := { line := pa / 128, img := l.image, vf := w.vf, spid := w.spid, data := data, at' := va / 128 }
  s.modCore w.core fun c =>
    { c with icache := (x :: c.icache.filter fun y => y.line ≠ x.line).take icLines }

/-- Wake a part that waited for a line. -/
def State.wakeFetch (s : State) (p : Nat) : State :=
  if (s.part p).wait = .fetch then s.modPart p fun x => { x with wait := .none } else s

/-- A line fill arrives (R198). A demand fill that misses asks for the next two lines; a fetch fault
is reported and its part stays parked; a violation freezes the team (R52). A prefetch that would
fault or violate is dropped and counts nothing (R51), and so is a fill that no part wants any more. -/
def State.fillArrives (s : State) (f : Fill) : State :=
  let s0 := { s with fills := s.fills.filter fun g => g.id ≠ f.id }
  if f.report ≠ 0 then s
  else if (s.part f.part).life = .absent || (s.part f.part).life = .retired then s0
  else
    let w := s.who f.part
    let va := (s.launchAt f.part).codeVa f.off
    match s0.resolve w kFetch va with
    | (s1, .ok e) =>
      let pa := e.phys (dieOf w.core) va
      if s1.leafBusy e || s1.busySec (pa / 128 * 128) || s1.busySec (pa / 128 * 128 + 64) then s
      else
      let s2 := (s1.markUsed w e false).icPut f.part va pa f.lost
      if f.pf then s2
      else
        let s3 := ((s2.launchAt f.part).linesAfter f.off 2).foldl
          (fun s o => s.askFill f.part o true) s2
        s3.wakeFetch f.part
    | (s1, .stop x) =>
      if f.pf then
        if x.cause = busyCause then s else s1.modCore w.core fun k => { k with ev := (s.core w.core).ev }
      else if x.isViolation then ((s1.reportViolation w x kFetch).wakeFetch f.part).trapAt f.part 14
      else
        match s1.reportFault w x kFetch with
        | (some r, s2) => { s2 with fills := s2.fills ++ [{ f with report := r }] }
        | (none, s2) => (s2.wakeFetch f.part).freezePart f.part

end Sys2Proof.Machine
end

