-- ==== Sys2Proof/Machine/Access.lean ====
section
/-! DEFINITION. What every memory instruction of a lane has in common: probing all lanes before any
store is performed, alignment traps, violations, replay records, replicated commits, deferred results,
and sampling (R49, R52, R53, R79 to R83, R102, R107, R113, R371). -/

namespace Sys2Proof.Machine

/-! ## Trace records and samples -/

/-- The entries of a trace ring, 0 while tracing is off (R370). -/
def traceSize (ctl : Nat) : Nat :=
  let n := bits ctl 4 5
  if bit ctl 0 && 10 ≤ n && n ≤ 24 then 2 ^ n else 0

/-- A trace record as a number of 256 bits (R370). -/
def State.traceRecord (s : State) (core ctx vf kind info launch data : Nat) : Nat :=
  s.tick + kind * 2 ^ 64 + dieOf core * 2 ^ 67 + (core % 64) * 2 ^ 69 + ctx % 256 * 2 ^ 75
    + vf % 64 * 2 ^ 83 + info % 2 ^ 32 * 2 ^ 96 + launch % 2 ^ 64 * 2 ^ 128
    + data % 2 ^ 64 * 2 ^ 192

/-- A core produces a trace record, which goes to its buffer while tracing is on for its die (R370). -/
def State.trace (s : State) (core ctx vf kind info launch data : Nat) : State :=
  if traceSize (s.die (dieOf core)).trctl = 0 then s
  else
    s.modCore core fun c =>
      { c with trbuf := c.trbuf ++ [s.traceRecord core ctx vf kind info launch data] }

/-- The records that a core's buffer holds (R370). -/
def traceBuffer : Nat := 64

/-- Write a core's trace records into its die's ring (R370): they take no place in T. While tracing is off they are
lost (DESIGN CHOICE, log 79). -/
def State.drainTrace (s : State) (core : Nat) : State :=
  let d := dieOf core
  let rs := (s.core core).trbuf
  let s := s.modCore core fun c => { c with trbuf := [] }
  rs.foldl (fun (s : State) r =>
    let x := s.die d
    let n := traceSize x.trctl
    if n = 0 then s
    else
      (s.quietWrite (bits x.trctl 12 40 * 4096 + x.trcnt % n * 32) 32 r).modDie d fun y =>
        { y with trcnt := addCount y.trcnt 1 }) s

/-- Fields of given widths, the first lowest, as a number. -/
def fields : List (Nat × Nat) → Nat
  | [] => 0
  | (w, v) :: t => v % 2 ^ w + 2 ^ w * fields t

/-- The lane whose data returned last, 0 for a store: the one whose result landed last, or else one of the active lanes, of
which timing says which (R371) (DESIGN CHOICE, log 3). -/
def Smp.lastLane (x : Smp) (choice : Nat) : Nat :=
  if x.store then 0 else x.last.getD (x.lanes.getD (choice % x.lanes.length) 0)

/-- Write a sample record when sampling is on for the die (R371). The queued ticks are timing (DESIGN CHOICE, log 3), but 0
at home slices for an instruction that has visited none, and at memory for one that has gone no further than the L2. -/
def State.sample (s : State) (p : Nat) (x : Smp) : State :=
  let core := s.coreOf p
  let l := s.launchAt p
  if bit (s.die (dieOf core)).trctl 2 then
    let f (k : Nat) : Nat := Config.sampleField s.fresh k
    s.trace core (s.part p).ctx l.vf 4 (fields [(11, x.lanes.length), (12, x.sect), (6, min x.rpl 63)]) (s.launchOf (teamOf p))
      (fields [(16, f 0), (16, if x.near then 0 else f 1), (16, if x.inL2 then 0 else f 2), (10, x.lastLane (f 3))])
  else s

/-- Whether an instruction stores and loads nothing (R371). -/
def storesOnly : Instr → Bool
  | .st .. | .stg .. | .red .. => true
  | _ => false

/-- Whether what has been done since a state has brought nothing from beyond the L2: no result of it comes from a window, no
line has been brought into an L2, and no commit or waiting access has come. -/
def State.keptL2 (s before : State) : Bool :=
  let line (x : Nat × List L2Line) : Bool :=
    x.2.all fun y => (before.l2.get [] x.1).any fun z => z.line = y.line
  !(s.defs.any fun d => before.nextId ≤ d.id && d.win) && s.l2.all line
    && (List.range 4).all (fun d => (s.die d).memTime = (before.die d).memTime)
    && s.commits.length ≤ before.commits.length && s.held.length ≤ before.held.length

/-- Whether what has been done since a state has visited no home slice: nor has an L2 changed. -/
def State.stayedNear (s before : State) : Bool := s.keptL2 before && s.l2 = before.l2

/-- What has been done for an operation since a state, as its sample tells it (R371). -/
def State.noteFar (s before : State) (p op : Nat) : State :=
  if (s.part p).ops.all fun o => o.id ≠ op || o.smp.isNone then s
  else
    let note (x : Smp) : Smp := { x with near := x.near && s.stayedNear before, inL2 := x.inL2 && s.keptL2 before }
    s.modPart p fun x =>
      { x with ops := x.ops.map fun o : Op => if o.id = op then { o with smp := o.smp.map note } else o }

/-- Count a memory-class instruction that has issued, and sample every Nth of the core (R371): at
issue when it has no arrival, otherwise when its operation arrives. `old` is the state before it. -/
def State.sampled (s : State) (c : Ctx) (i : Instr) (old : State) (sectors : Nat) : State :=
  let before := (old.part c.p).ops
  let core := s.coreOf c.p
  let n := bits s.smpctl 0 16
  if n = 0 || s.stoppedAt c.p then s
  else
    let k := ((s.core core).memCount + 1) % n
    let s := s.modCore core fun x => { x with memCount := k }
    let x : Smp :=
      { lanes := c.ga, sect := sectors, store := storesOnly i, near := s.stayedNear old, inL2 := s.keptL2 old }
    if k ≠ 0 then s
    else if (s.part c.p).ops.length ≤ before.length then s.sample c.p x
    else
      let mark (o : Op) : Op :=
        if before.any fun q => q.id = o.id then o else { o with smp := some x }
      s.modPart c.p fun x => { x with ops := x.ops.map mark }

/-- Issue an instruction of the memory class; `sectors` counts the sectors it touches (R371). -/
def issueMem (i : Instr) (s : State) (sectors : Ctx → State → Nat) (eff : Ctx → State → State) :
    Host.Outcome State Fault Refusal :=
  issue i s fun c s0 => (eff c s0).sampled c i s0 (sectors c s0)

/-- The number of distinct 64-byte sectors among ranges of addresses (R371). -/
def countSectors (rs : List (Nat × Nat)) : Nat :=
  ((rs.flatMap fun r => sectorsOf r.1 r.2).foldl (fun l x => if l.contains x then l else x :: l)
    []).length

/-! ## One access of one lane -/

/-- An access with its lane and the registers that its result goes to. -/
structure Req where
  lane : Nat
  acc : Access
  dest : List Nat
  deriving DecidableEq, Repr

/-- Post the words of a result as one group (R195): fixed values, or values to come, with what `note` notes of each. -/
def State.postWords (s : State) (t l : Nat) (dest : List Nat) (ws : Option (List (Nat × Bool)))
    (op : Nat) (note : Deferred → Deferred := id) : Nat × State :=
  let (g, s) := s.takeId
  (g, dest.zipIdx.foldl (fun s x =>
    let (id, s) := s.takeId
    let w := ws.bind fun l => l[x.2]?
    s.defer (note { id := id, team := t, lane := l, reg := x.1, mask := 0xFFFFFFFF
                    val := w.map (·.1), poison := (w.map (·.2)).getD false, op := op, group := g })) s)

/-- Whether an earlier access of a lane still waits to take its place (R49, R90), or is a read of a window with an
acquire flag whose data has not returned (R91). -/
def State.laneHeld (s : State) (t l before : Nat) : Bool :=
  (s.held.any fun h => h.team = t && h.lane = l && h.id < before)
    || (s.commits.any fun k => teamOf k.part = t && k.lane = l && k.by' = .lane && k.seq < before)
    || s.defs.any fun d => d.team = t && d.lane = l && d.holds && d.id < before

/-- Whether the cluster of a part is resident: the work of a saved cluster is only recorded
(R252, R338). -/
def State.resident (s : State) (p : Nat) : Bool := (s.clusterOfTeam (teamOf p)).st = .resident

/-- What is left of the replaced bytes once some stores are known to be performed at their homes: those stores, and
every store to the same byte before them (R95). -/
def settled (done : Nat × Nat × Byte → Bool) : List (Nat × Nat × Byte) → List (Nat × Nat × Byte)
  | [] => []
  | x :: t =>
    if done x || t.any (fun y => y.2.1 = x.2.1 && done y) then settled done t else x :: settled done t

/-- Forget the bytes that the accesses of some lanes have replaced: those accesses are performed at
their homes (R91, R95). -/
def State.settleStores (s : State) (p : Nat) (ls : List Nat) : State :=
  { s with undo := settled (fun x => (s.part p).ops.any (fun o => o.id = x.1 / 1024) && ls.contains (x.1 % 1024)) s.undo }

/-- Enter an access in the replay record (R49). -/
def State.holdAccess (s : State) (c : Ctx) (r : Req) (op g report : Nat) : State :=
  let (id, s) := s.takeId
  { s with held := s.held ++
      [{ id := id, core := s.coreOf c.p, part := c.p, team := c.t, lane := r.lane, acc := r.acc
         op := op, res := g, seq := id, report := report }] }

/-- Hand the replicated chunks of a write to their primary (R107), and those that are performed with them (R81); the
commits of one access run in the order they are listed. `seq` is the access's place in the order of its lane's. -/
def State.startCommits (s : State) (w : Who) (part lane op g seq : Nat) (a : Access) (cs : List Chunk) :
    State :=
  cs.foldl (fun s x =>
    match x.place with
    | .home e pa =>
      let (id, s) := s.takeId
      { s with commits := s.commits ++
          [{ id := id, seq := seq, core := w.core, part := part, lane := lane, pa := pa, acc := a, tr := some e
             fill := w.fill, off := x.off, len := x.n, vf := w.vf, op := op, res := g, plain := !replicated a x }] }
    | _ => s) s

/-- Perform an access whose places are known, or start its commits: the result's words when they are
known now. A load's chunks that leased copies have to serve come first (`State.heldHomes`). `secs` are the sectors that
lanes of its instruction commit to. -/
def State.performOr (s : State) (w : Who) (part lane op g seq : Nat) (secs : List Nat) (a : Access)
    (cs : List Chunk) :
    State × Option (List (Nat × Bool)) :=
  let rep := cs.filter (committed a secs)
  let cs := if a.kind = .load then s.heldHomes w cs ++ cs.filter (fun c => !s.busyHome w true c)
    else cs.filter fun x => !committed a secs x
  let s := s.startCommits w part lane op g seq a rep
  let (s, v, m) := s.perform w (op * 1024 + lane) a cs
  if rep.isEmpty then (s, some (resultWords a v m)) else (s, none)

/-- Whether some chunk lies in a window. -/
def onWindow (cs : List Chunk) : Bool := cs.any fun c => match c.place with
  | .window .. => true
  | _ => false

/-- Whether every access of a lane before number `before` in its order has completed (R91). -/
def State.earlierDone (s : State) (t p lane before : Nat) : Bool :=
  let own (d : Deferred) : Bool := (s.part p).ops.any fun o => o.id = d.op
    && (o.path = .g || o.path = .s || o.path = .c)
  !(s.held.any fun h => h.part = p && h.lane = lane && h.id < before)
    && !(s.commits.any fun k => k.part = p && k.lane = lane && k.seq < before)
    && !(s.defs.any fun d => d.team = t && d.lane = lane && d.id < before && own d)

/-- Whether a register write has left the device and has not acted: a register read of the same lane does not pass it
(R91). -/
def State.writesLeft (s : State) : Bool :=
  match s.agenda.head? with
  | some (.event (.registerWrite ..)) => true
  | _ => false

/-- Whether an access to a window has to wait: one with a release flag for its lane's earlier accesses, and a register
read for register writes that are on their way (R91). -/
def State.winWaits (s : State) (t p lane before : Nat) (a : Access) (cs : List Chunk) : Bool :=
  onWindow cs && ((a.rel && !s.earlierDone t p lane before) || (a.kind = .load && s.writesLeft))

/-- Perform an access of a lane of a part whose places are known. A window access with a release flag leaves when the
lane's earlier accesses have completed (R91). -/
def State.laneDo (s : State) (w : Who) (part lane op g seq : Nat) (secs : List Nat) (a : Access) (cs : List Chunk) :
    State × Option (List (Nat × Bool)) :=
  (if a.rel && onWindow cs then s.settleStores part [lane] else s).performOr w part lane op g seq secs a cs

/-- Note of a result which links its data crosses, and whether it is a window's, which an acquire flag makes the
lane's later accesses wait for (R91, R100, R379). -/
def noteResult (a : Access) (cs : List Chunk) (links : List Nat) (d : Deferred) : Deferred :=
  { d with win := onWindow cs, holds := a.acq && onWindow cs, links := links }

/-- A lane's access with what the walks of its instruction have found for it: its places, or what stops it (R52). -/
abbrev Walked := Req × Res (List Chunk)

/-- Carry out one lane's access at issue (R49, R80, R138), by what the walks before all of them have found (R52). A helper
lane's load that faults or violates writes 0; no walk that is only to be made again stops it. An access that faults, or
that an earlier access of its lane, a busy sector or the order of its instruction's lanes (`joined`) keeps waiting, is
entered in the replay record; a fault whose queue is disabled freezes the part (R48): the second result says so. `secs`
are the sectors that lanes of its instruction commit to. -/
def State.laneAccess (s : State) (c : Ctx) (w : Who) (op : Nat) (joined : Bool) (secs : List Nat) (x : Walked) :
    State × Bool :=
  let r := x.1
  let w := { w with lane := r.lane }
  let helper := s.isHelper c.t r.lane
  let hold (s : State) (report : Nat) : State :=
    let (g, s) := s.postWords c.t r.lane r.dest none op
    s.holdAccess c r op g report
  let zero (s : State) : State :=
    (s.postWords c.t r.lane r.dest (some (r.dest.map fun _ => (0, false))) op).2
  if helper && (r.acc.bad || s.misaligned w r.acc) then (zero s, false)
  else if s.laneHeld c.t r.lane s.nextId then (hold s 0, false)
  else
    match x.2 with
    | .stop x =>
      if helper && x.cause ≠ busyCause then (zero s, false)
      else
        match s.reportFault w x r.acc.kind.num with
        | (some id, s) => (hold s id, false)
        | (none, s) => (s, true)
    | .ok cs =>
      let cs := cs.map (s.refreshChunk w.core)
      if joined || s.busy w (r.acc.kind = .load) cs || s.winWaits c.t c.p r.lane s.nextId r.acc cs then
        (hold s 0, false)
      else
        let links := s.linksFor w r.acc.kind cs
        let (s, ws) := s.laneDo w c.p r.lane op 0 s.nextId secs r.acc cs
        if ws.isSome then
          ((s.postWords c.t r.lane r.dest ws op (noteResult r.acc cs links)).2, false)
        else
          let (g', s) := s.postWords c.t r.lane r.dest none op
          ({ s with commits := s.commits.map fun k : Commit =>
              if k.op = op && k.lane = r.lane then { k with res := g' } else k }, false)

/-! ## Lanes that reach one byte (R81, R109) -/

/-- The four copies of a replicated sector (R41, R107). -/
def copies (pa : Nat) : List Nat := (List.range 4).map fun d => pa + d * dieBytes

/-- The physical bytes that a chunk reaches, as first and length: the whole sector at every home of one that a replicated
commit writes, since the lanes of one instruction commit there together (R81, R109). -/
def State.spot (s : State) (a : Access) (c : Chunk) : List (Nat × Nat) :=
  match c.place with
  | .home _ pa => if replicated a c then (copies (pa / 64 * 64)).map fun x => (x, 64) else [(pa, c.n)]
  | .window _ pa => [(pa, c.n)]
  | .stash _ k (some e) => [(e.pa + (k * 64) % 2 ^ e.lg + (a.ea + c.off) % 64, c.n)]
  | .stash b k none => [(((s.block b).secs.get {} k).pa + (a.ea + c.off) % 64, c.n)]
  | .priv b o => [(2 ^ 60 + b * 2 ^ 22 + o, c.n)]
  | .const o => [(2 ^ 61 + o, c.n)]

/-- What a lane's access reaches: its physical bytes, as far as walks tell now. -/
structure Reach where
  lane : Nat
  acc : Access
  spots : List (Nat × Nat)
  deriving DecidableEq, Repr

/-- Where a lane's access reaches, by what a walk has found. -/
def State.reach (s : State) (lane : Nat) (a : Access) (q : Res (List Chunk)) : Reach :=
  ⟨lane, a, match q with
    | .ok cs => cs.flatMap (s.spot a)
    | .stop _ => []⟩

/-- Whether two ranges share a byte. -/
def overlap (x y : Nat × Nat) : Bool := x.1 < y.1 + y.2 && y.1 < x.1 + x.2

/-- Whether two writes or atomics of one instruction reach a common byte, by their addresses or by the physical bytes
of both (DEDUCED, log 95), or replicated pages in a common sector (R109). -/
def Reach.meets (x y : Reach) : Bool :=
  x.acc.kind ≠ .load && y.acc.kind ≠ .load
    && (overlap (x.acc.ea, x.acc.n) (y.acc.ea, y.acc.n) || x.spots.any fun p => y.spots.any (overlap p))

/-- The lanes of an instruction that reach a byte with some lanes, over any number of lanes between them. -/
def connected (rs : List Reach) : Nat → List Nat → List Nat
  | 0, ls => ls
  | n + 1, ls =>
    let ms := rs.filter fun x => ls.contains x.lane
    let more := (rs.filter fun x => ls.contains x.lane || ms.any x.meets).map (·.lane)
    if more.length = ls.length then ls else connected rs n more

/-- The lanes of an instruction whose writes or atomics have to wait at issue, with those that reach a byte with
them: their places are taken together, in ascending lane order (R81). -/
def State.joinedLanes (s : State) (c : Ctx) (w : Who) (xs : List Walked) : List Nat :=
  let wait (x : Walked) : Bool := x.1.acc.kind ≠ .load && (s.laneHeld c.t x.1.lane s.nextId
    || match x.2 with
      | .stop _ => true
      | .ok cs => s.busy w false cs || s.winWaits c.t c.p x.1.lane s.nextId x.1.acc cs)
  let first := (xs.filter wait).map (·.1.lane)
  if first.isEmpty then [] else connected (xs.map fun x => s.reach x.1.lane x.1.acc x.2) xs.length first

/-! ## All lanes of an instruction -/

/-- Translate for all lanes of an instruction, before any access is performed (R52). For a helper lane's access that breaks
its alignment rule nothing is translated: it is not performed (R138). -/
def State.walkAll (s : State) (c : Ctx) (w : Who) (rs : List Req) : State × List Walked :=
  rs.foldl (fun (r : State × List Walked) x =>
    if r.1.isHelper c.t x.lane && (x.acc.bad || r.1.misaligned w x.acc) then (r.1, r.2 ++ [(x, .ok [])])
    else
      let (s, q) := r.1.places w c.t x.acc
      (s, r.2 ++ [(x, q)])) (s, [])

/-- What stops each lane of an instruction, with the kind of its access: of a helper lane, whose load that faults or
violates writes 0, only a walk that is to be made again (R138). -/
def State.stopsOf (s : State) (c : Ctx) (xs : List Walked) : List (Stop × Nat) :=
  xs.filterMap fun x => match x.2 with
    | .stop st => if s.isHelper c.t x.1.lane && st.cause ≠ busyCause then none else some (st, x.1.acc.kind.num)
    | .ok _ => none

/-- What stops each lane of an instruction, before any access is performed (R52). -/
def State.probe (s : State) (c : Ctx) (w : Who) (rs : List Req) : State × List (Stop × Nat) :=
  let (s1, xs) := s.walkAll c w rs
  (s1, s.stopsOf c xs)

/-- The number of instructions that a core's replay record holds: the entries of a saved cluster are with its context
(R49, R54). -/
def State.recordUse (s : State) (core : Nat) : Nat :=
  ((s.held.filter fun h => h.core = core && s.resident h.part).foldl (fun l h => if l.contains h.op then l else h.op :: l)
    []).length

/-- A violation of a lane instruction: its record, and the frozen part with its class-14 record
(R52, R331). -/
def State.violate (s : State) (c : Ctx) (w : Who) (x : Stop) (kind : Nat) : State :=
  (s.reportViolation w x kind).raise c 14 0

/-- The accesses of an instruction (R52, R53, R79 to R83, R102, R113). `rs` are the accesses of the
guarded-active lanes that perform one (DEDUCED, log 10). Of several lanes that violate, the record names the first in
lane order (DEDUCED, log 80). -/
def State.accesses (s : State) (c : Ctx) (path : Path) (rs : List Req) : State :=
  let w := s.who c.p
  if c.ga.isEmpty then s
  else if rs.any fun r => !s.isHelper c.t r.lane && s.misaligned w r.acc then s.raise c 4 0
  else
    let (s1, xs) := s.walkAll c w rs
    let stops := s.stopsOf c xs
    match stops.find? fun x => x.1.isViolation with
    | some x => s1.violate c w x.1 x.2
    | none =>
      if !stops.isEmpty && 128 ≤ s.recordUse w.core then s.stall c .recordFull
      else
        let (op, s2) := s1.raiseOp c.p path
        let joined := s2.joinedLanes c w xs
        let secs := xs.flatMap fun x => match x.2 with
          | .ok cs => repSectors x.1.acc cs
          | .stop _ => []
        let r := xs.foldl (fun (r : State × Bool) x =>
          let y := r.1.laneAccess c w op (joined.contains x.1.lane) secs x
          (y.1, r.2 || y.2)) (s2, false)
        if r.2 then r.1.raise c 14 0 else r.1

/-! ## Replay, and replicated commits -/

/-- Count a replay for a sampled operation and for the core (R369, R371). -/
def State.countReplay (s : State) (h : Held) : State :=
  let mark (o : Op) : Op :=
    if o.id = h.op then { o with smp := o.smp.map fun y => { y with rpl := y.rpl + 1 } } else o
  (s.count h.core 9 1).modPart h.part fun x => { x with ops := x.ops.map mark }

/-- The part's lanes no longer wait for an entry of the replay record. -/
def State.dropHeld (s : State) (id : Nat) : State :=
  { s with held := s.held.filter fun h => h.id ≠ id }

/-- Wake a part that waits for its replays, once none is left (R49). -/
def State.wakeReplay (s : State) (p : Nat) : State :=
  if (s.part p).wait = .replay && !(s.held.any fun h => h.part = p) then
    s.modPart p fun x => { x with wait := .none }
  else s

/-- The recorded accesses that are performed in one move with one of them: for a write or an atomic, those of its
instruction that reach a byte with it, in ascending lane order (R81, R109). -/
def State.together (s : State) (h : Held) : List Held :=
  if h.acc.kind = .load then [h]
  else
    let mine := s.held.filter fun k => k.op = h.op && k.part = h.part
    let w := s.who h.part
    let ls := connected (mine.map fun k => s.reach k.lane k.acc (s.places w k.team k.acc).2) mine.length [h.lane]
    (List.range 1024).filterMap fun l => if ls.contains l then mine.find? fun k => k.lane = l else none

/-- What a recorded access that stops again does (R49, R52, R138): a helper lane's load writes 0, a violation freezes
the part, a fault is reported, and a walk that is only to be made again leaves it where it is. -/
def State.replayStops (s : State) (w : Who) (h : Held) (x : Stop) : State :=
  if s.isHelper h.team h.lane && x.cause ≠ busyCause then
    let n := (s.defs.filter fun d => d.group = h.res).length
    ((s.dropHeld h.id).fixGroup h.res (List.replicate n (0, false))).wakeReplay h.part
  else if x.isViolation then
    ((s.dropHeld h.id).reportViolation w x h.acc.kind.num).freezePart h.part
  else
    match s.reportFault w x h.acc.kind.num with
    | (some r, s2) =>
      { s2 with held := s2.held.map fun k : Held => if k.id = h.id then { k with report := r }
          else k }
    | (none, s2) => (s2.dropHeld h.id).freezePart h.part

/-- Perform a recorded access whose places are known. -/
def State.replayDo (s : State) (w : Who) (h : Held) (secs : List Nat) (cs : List Chunk) : State :=
  let w := { w with lane := h.lane }
  let cs := cs.map (s.refreshChunk w.core)
  let links := s.linksFor w h.acc.kind cs
  let (s2, ws) := (s.dropHeld h.id).laneDo w h.part h.lane h.op h.res h.id secs h.acc cs
  let s3 := match ws with
    | some ws => (s2.fixGroup h.res ws).modGroup h.res (noteResult h.acc cs links)
    | none => s2
  ((s3.noteFar s h.part h.op).countReplay h).wakeReplay h.part

/-- Walk for recorded accesses, one after the other: the first that stops, or that one has to wait, or all places. -/
def State.replayPlaces (s : State) (w : Who) (hs : List Held) : State × Option (Held × Stop) × Bool × List (Held × List Chunk) :=
  hs.foldl (fun (r : State × Option (Held × Stop) × Bool × List (Held × List Chunk)) h =>
    if r.2.1.isSome then r
    else
      match r.1.places w h.team h.acc with
      | (s, .stop x) => (s, some (h, x), r.2.2)
      | (s, .ok cs) =>
        (s, none, r.2.2.1 || s.busy w (h.acc.kind = .load) cs || s.winWaits h.team h.part h.lane h.id h.acc cs,
          r.2.2.2 ++ [(h, cs)])) (s, none, false, [])

/-- Replay a recorded access, with those that it is performed together with (R45, R49, R50, R81): each walks again. A
frozen part's are never performed (R52). The alignment trap belongs to the issue of an instruction: an access whose
page has since come to map a window is performed as it is (DEDUCED, log 81). -/
def State.replay (s : State) (h : Held) : State :=
  let hs := s.together h
  if (s.part h.part).life = .frozen || hs.any fun k => k.report ≠ 0 || s.laneHeld k.team k.lane k.id then s
  else
    let w := s.who h.part
    match s.replayPlaces w hs with
    | (s1, some (k, x), _) => s1.replayStops w k x
    | (s1, none, wait, xs) =>
      if wait then s
      else
        let secs := xs.flatMap fun x => repSectors x.1.acc x.2
        xs.foldl (fun (s : State) x => s.replayDo w x.1 secs x.2) s1

/-- Whether the writer of a commit is there: a cluster's only while it is resident (R90). -/
def State.commitHere (s : State) (k : Commit) : Bool := k.part = 0 || s.resident k.part

/-- Lock the sector of a commit at all four homes. -/
def State.takeLock (s : State) (k : Commit) : State :=
  { s with locks := s.locks.set 0 (lockKey (k.pa / 64)) k.id
           commits := s.commits.map fun x : Commit =>
             if x.id = k.id then { x with locked := true, lockTick := s.tick } else x }

/-- The first step of a commit: the sector is locked at all four homes, when no other commit of it
has arrived before (R107, R109). -/
def State.lockCommit (s : State) (k : Commit) : State :=
  let before := s.commits.find? fun x =>
    lockKey (x.pa / 64) = lockKey (k.pa / 64) && !x.plain && x.done.isNone && s.commitHere x
  if k.locked || k.plain || s.locks.get 0 (lockKey (k.pa / 64)) ≠ 0 || before.map (·.id) ≠ some k.id then s
  else s.takeLock k

/-- Unlock the sectors of some commits, which then have to be locked again: their cluster is saved (R90). -/
def State.unlockCommits (s : State) (which : Commit → Bool) : State :=
  let ks := s.commits.filter fun k => k.locked && which k
  { s with locks := ks.foldl (fun m k => m.set 0 (lockKey (k.pa / 64)) 0) s.locks
           commits := s.commits.map fun k : Commit => if k.locked && which k then { k with locked := false } else k }

/-- The bytes that a commit writes, from what the primary holds; `none` for a compare that fails. -/
def Commit.value (k : Commit) (old : Nat) : Option Nat :=
  match k.acc.kind with
  | .atom =>
    if atomWrites k.acc.aop old k.acc.cmp then
      some (atomNew k.acc.aop k.acc.aty k.acc.rnd old k.acc.data)
    else none
  | _ => some (bits k.acc.data (8 * k.off) (8 * k.len))

/-- Who a commit is made for, as one whose leaves are marked (R44). -/
def Commit.who (k : Commit) : Who :=
  { core := k.core, vf := k.vf, spid := (k.tr.map (·.spid)).getD 0, root := 0
    lvl := if k.fill = 64 then .h else .u
    master := match k.by' with
      | .guest _ => 4
      | .host _ => 7
      | _ => 0 }

/-- The ticks from the lock step of a commit to its bound (R108). -/
def commitBound : Nat := 3500

/-- Whether a commit has missed its bound (R108). -/
def Commit.overdue (k : Commit) (tick : Nat) : Bool := k.locked && k.lockTick + commitBound < tick

/-- Whether a commit's second step has to wait for a leaf that another commit has locked. -/
def State.commitBusy (s : State) (k : Commit) : Bool :=
  match k.tr with
  | some e => !(e.acc && e.dirty) && (e.s1.toList ++ e.s2.toList).any fun a =>
      s.busySec a && lockKey (a / 64) ≠ lockKey (k.pa / 64)
  | none => false

/-- ACC, and DIRTY for a commit that writes, are set before it (R44). -/
def State.markCommit (s : State) (k : Commit) : State :=
  match k.tr with
  | some e => s.markUsed k.who e (k.value (s.getBytes k.pa k.len).1).isSome
  | none => s

/-- The bytes and times of the four copies after a commit at time `t`. -/
def State.putCopies (s : State) (k : Commit) (t old : Nat) : State :=
  match k.value old with
  | some v =>
    (copies k.pa).foldl (fun (s : State) a =>
      (s.setHome (a / 64) ⟨t, t⟩).putBytes a k.len v (ones k.len) (bits k.acc.psn k.off k.len)) s
  | none =>
    (copies k.pa).foldl (fun (s : State) a =>
      s.setHome (a / 64) ⟨(s.home (a / 64)).wts, max (s.home (a / 64)).rts t⟩) s

/-- A commit is over and the sector is unlocked; what an engine, the host or the guest commits is kept until it has
taken note. -/
def State.closeCommit (s : State) (k : Commit) (t : Nat) : State :=
  { s with
    locks := s.locks.set 0 (lockKey (k.pa / 64)) 0
    commits := if k.by' = Writer.lane then s.commits.filter fun x : Commit => x.id ≠ k.id
      else s.commits.map fun x : Commit => if x.id = k.id then { x with locked := false, done := some t } else x }

/-- The commits that end in one move with one of them: those of its instruction's lanes on its sector, at whichever
home, in ascending lane order, so that no other access comes between them (R81, R109). -/
def State.siblings (s : State) (k : Commit) : List Commit :=
  if k.by' = .lane then
    let ks := s.commits.filter fun x =>
      x.by' = .lane && x.op = k.op && x.part = k.part && lockKey (x.pa / 64) = lockKey (k.pa / 64)
    (List.range 1024).flatMap fun l => ks.filter fun x => x.lane = l
  else [k]

/-- The result of a committed atomic, whose data comes from the home at which it was performed (R107, R379). -/
def State.fixCommit (s : State) (k : Commit) (v m : Nat) : State :=
  (s.fixGroup k.res (resultWords k.acc v m)).modGroup k.res fun d => { d with links := linksOf (dieOf k.core) k.pa }

/-- One commit of the second step (R107): t := max(the writer's clock, every rts + 1), the atomic on the primary's copy,
all four copies updated and unlocked. The writer's clock follows, an engine's core's too. -/
def State.updateOne (s : State) (k : Commit) : State :=
  let s := s.markCommit k
  let old := s.getBytes k.pa k.len
  let t := (copies k.pa).foldl (fun t a => max t ((s.home (a / 64)).rts + 1)) (s.whoClock k.who)
  let s := (copies k.pa).foldl (fun s a => (s.fillLine k.fill k.acc.ca (a / 256)).settleSec (a / 64)) s
  let num := if k.by' = .lane then { k.who with lane := k.lane }.num else noLane
  let s := (copies k.pa).foldl (fun (s : State) a => s.noteStore num (a / 64) t) (s.putCopies k t old.1)
  let own := copyOf true (dieOf k.core) k.pa
  let s := match k.by', k.acc.kind, s.l1Copy k.core (own / 64) with
    | .lane, .atom, some _ => s.l1Drop k.core (own / 64)
    | .lane, _, some _ => s.l1Put k.core k.acc.ca (own / 64) (s.copyAt (own / 64) t t)
    | _, _, _ => s
  let s := (s.closeCommit k t).raiseWho k.who t
  if k.acc.kind = .atom then s.fixCommit k old.1 old.2 else s

/-- The plain access of a lane in a sector that other lanes of its instruction commit: it is performed at its own home,
in its turn among them (R81). -/
def State.updatePlain (s : State) (k : Commit) : State :=
  let w := { k.who with lane := k.lane }
  let tag := k.op * 1024 + k.lane
  let old := s.peek k.pa k.len
  let wr := k.acc.kind ≠ .atom || atomWrites k.acc.aop old k.acc.cmp
  let s := match k.tr with
    | some e => s.markUsed w e wr
    | none => s
  let s := { s with commits := s.commits.filter fun x => x.id ≠ k.id }
  if k.acc.kind = .atom then
    let (s, v, m) := s.atomHome w tag k.pa k.len k.acc wr
    s.fixCommit k v m
  else
    s.storeHome w k.acc.ca tag k.pa k.len (bits k.acc.data (8 * k.off) (8 * k.len)) (bits k.acc.psn k.off k.len)

/-- Whether the second step of a commit may be carried out, with some others: it is locked and its bound has not passed
(R108). Plain accesses whose commits have gone are performed alone, once their sector can be reached. -/
def State.mayUpdate (s : State) (k : Commit) (ks : List Commit) : Bool :=
  s.commitHere k && !ks.any s.commitBusy
    && (if k.plain then ks.all (·.plain) && !s.busySec k.pa else k.locked && s.tick ≤ k.lockTick + commitBound)

/-- The second step of a commit, with those of its instruction's other lanes on the sector (R107, R109). A commit that
has missed its bound ends with COMMIT_BOUND_MISSED alone (R108). The guest's waits for leases that its clock would
pass (R322). -/
def State.updateCommit (s : State) (k : Commit) : State :=
  let ks := s.siblings k
  if !s.mayUpdate k ks then s
  else
    let s1 := ks.foldl (fun (s : State) x => if x.plain then s.updatePlain x else s.updateOne x) s
    match k.by' with
    | .guest _ => if s1.guestMay (k.pa / 64) s1.guest.clock then s1 else s.guestMoves s1.guest.clock
    | _ => s1

/-- Commits of clusters that go away (R332, R362): a locked one is completed now, or no longer depends on its cluster and
is completed as soon as it can be. -/
def State.endCommits (s : State) (gone : Nat → Bool) : State :=
  let s := (s.commits.filter fun k => k.locked && k.part ≠ 0 && gone k.part).foldl (fun (s : State) k =>
    match s.commits.find? fun x => x.id = k.id with
    | some x => s.updateCommit x
    | none => s) s
  { s with commits := s.commits.map fun k : Commit =>
      if k.locked && k.part ≠ 0 && gone k.part then { k with part := 0 } else k }

end Sys2Proof.Machine
end

