-- ==== Sys2Proof/Machine/MemI.lean ====
section
/-! DEFINITION. The memory instructions that lanes perform themselves: loads, stores, atomics, fragment
loads, stash management, prefetch, counters and fences (R112 to R122, R125 to R134). -/

namespace Sys2Proof.Machine

/-! ## Loads, stores and atomics -/

/-- The bytes of an access size (R115). -/
def Sz.bytes : Sz → Nat
  | .i8 | .n8 => 1
  | .i16 | .n16 => 2
  | .i32 => 4
  | .i64 => 8
  | .w4 => 16

/-- The effective address of a lane: its pair plus the signed offset, modulo 2^64 (R27, R113). -/
def effAddr (base : Nat) (off : BitVec 16) : Nat := wrap 64 ((base : Int) + sint 16 off.toNat)

/-- A value from register words, lowest first. -/
def joinWords (ws : List Nat) : Nat := ws.foldr (fun w v => w + 2 ^ 32 * v) 0

/-- The data words of a store or atomic of a lane. -/
def State.rdWords (s : State) (slot t l r n : Nat) : Nat := joinWords (s.rdGroup slot t l r n)

/-- The accesses of an `ld` (R116): every guarded-active lane, helper lanes included. -/
def State.ldReqs (s : State) (c : Ctx) (d a : Reg) (off : BitVec 16) (sz : Sz) (sp : Space) (acq : Bool)
    (ca : Cache) : List Req :=
  c.ga.map fun l =>
    { lane := l, dest := szRegs sz d
      acc := { kind := .load, sp := sp, ea := effAddr (s.rd64 0 c.t l a) off, n := Sz.bytes sz
               sz := sz, ca := ca, acq := acq } }

/-- The accesses of an `st` (R116): the data register is read at issue; helper lanes' stores are
suppressed (R80). -/
def State.stReqs (s : State) (c : Ctx) (d a : Reg) (off : BitVec 16) (sz : Sz) (sp : Space) (rel : Bool)
    (ca : Cache) : List Req :=
  (s.owns c).map fun l =>
    let data := s.rdWords 8 c.t l d (szRegs sz d).length
    { lane := l, dest := []
      acc := { kind := .store, sp := sp, ea := effAddr (s.rd64 0 c.t l a) off, n := Sz.bytes sz
               data := data, ca := ca, rel := rel } }

/-- The accesses of an `atom` or `red` (R120); its order flags act on a window (R91, R122). -/
def State.atomReqs (s : State) (c : Ctx) (d : Option Nat) (a b x : Reg) (op : AtomOp)
    (ty : AtomTy) (rnd : Rnd) (sp : Space) (ord : Ord) : List Req :=
  (s.owns c).map fun l =>
    let n := if ty.wide then 2 else 1
    { lane := l, dest := match d with
        | some d => (List.range n).map (d + ·)
        | none => []
      acc := { kind := .atom, sp := sp, ea := s.rd64 0 c.t l a, n := AtomTy.bytes ty
               data := s.rdWords 8 c.t l b n, aop := op, aty := ty, rnd := rnd
               acq := ord = .acq || ord = .acqrel, rel := ord = .rel || ord = .acqrel
               cmp := if op = .cas then s.rdWords 12 c.t l x n else 0 } }

/-- The sectors that a list of accesses touches (R371). -/
def touched (rs : List Req) : Nat :=
  countSectors (rs.flatMap fun r => r.acc.pieces.map fun x => (r.acc.ea + x.1, x.2.1))

/-- A memory instruction whose lanes each perform one access. -/
def laneMem (i : Instr) (path : Path) (rs : Ctx → State → List Req) (s : State) :
    Host.Outcome State Fault Refusal :=
  issueMem i s (fun c s => touched (rs c s)) fun c s => s.accesses c path (rs c s)

def execLd (h : Hdr) (d a : Reg) (off : BitVec 16) (sz : Sz) (sp : Space) (acq : Bool)
    (ca : Cache) :=
  laneMem (.ld h d a off sz sp acq ca) (raises.spPath sp) fun c s => s.ldReqs c d a off sz sp acq ca

def execSt (h : Hdr) (d a : Reg) (off : BitVec 16) (sz : Sz) (sp : Space) (rel : Bool)
    (ca : Cache) :=
  laneMem (.st h d a off sz sp rel ca) (raises.spPath sp) fun c s => s.stReqs c d a off sz sp rel ca

def execAtom (h : Hdr) (d a b x : Reg) (op : AtomOp) (ty : AtomTy) (rnd : Rnd) (sp : Space)
    (ord : Ord) :=
  laneMem (.atom h d a b x op ty rnd sp ord) (raises.spPath sp) fun c s =>
    s.atomReqs c (some d.val) a b x op ty rnd sp ord

def execRed (h : Hdr) (a b : Reg) (op : AtomOp) (ty : AtomTy) (rnd : Rnd) (sp : Space)
    (ord : Ord) :=
  laneMem (.red h a b op ty rnd sp ord) (raises.spPath sp) fun c s =>
    s.atomReqs c none a b b op ty rnd sp ord

/-! ## Transposed fragment loads -/

/-- The number of registers that `ldft` loads. -/
def ftCount (n : FtCount) : Nat :=
  match n with
  | .x1 => 1
  | .x2 => 2
  | .x4 => 4

/-- The element offsets of lane position `j` from the base: for each register, its elements in order
(R125). -/
def ftOffsets (t16 : Bool) (n pitch j : Nat) : List Nat :=
  let el := if t16 then 2 else 4
  let e := 4 / el
  let g := 32 / el
  (List.range n).flatMap fun k =>
    (List.range el).map fun i => (el * (j % g) + i) * pitch + 4 * k + e * (j / g)

/-- The lane that supplies base and pitch for a lane's word (R125). -/
def wordLow (c : Ctx) (l : Nat) : Nat :=
  (c.ga.find? fun x => (x - c.lo) / 32 = (l - c.lo) / 32).getD l

/-- Whether the base or pitch that a lane supplies is no multiple of 4 (R125). -/
def State.ftBad (s : State) (t : Nat) (a b : Reg) (l : Nat) : Bool := s.rd64 0 t l a % 4 ≠ 0 || s.rd 2 t l b % 4 ≠ 0

def State.ftReqs (s : State) (c : Ctx) (d a b : Reg) (t16 : Bool) (n : Nat) : List Req :=
  c.ga.map fun l =>
    let j0 := wordLow c l
    let pitch := s.rd 2 c.t j0 b
    { lane := l, dest := (List.range n).map (d.val + ·)
      acc := { kind := .load, sp := .stash, ea := s.rd64 0 c.t j0 a, n := if t16 then 2 else 1
               els := ftOffsets t16 n pitch ((l - c.lo) % 32), bad := s.ftBad c.t a b j0 } }

/-- Whether the base or pitch of some word with a guarded-active lane that is no helper is no multiple of 4 (R125). In
a word of helper lanes alone such lanes read 0 and nothing is raised (R138) (DEDUCED, log 82). -/
def State.ftMisaligned (s : State) (c : Ctx) (a b : Reg) : Bool :=
  (s.owns c).any fun l => s.ftBad c.t a b (wordLow c l)

def execLdft (h : Hdr) (d a b : Reg) (t16 : Bool) (cnt : FtCount) (s : State) :
    Host.Outcome State Fault Refusal :=
  let n := ftCount cnt
  issueMem (.ldft h d a b t16 cnt) s (fun c s => touched (s.ftReqs c d a b t16 n)) fun c s =>
    if s.ftMisaligned c a b then s.raise c 4 0
    else s.accesses c .s (s.ftReqs c d a b t16 n)

/-! ## Stash management -/

/-- The status of an `smap` (R127): where several reasons apply, the first in the order of the table (DESIGN CHOICE,
log 99). -/
def smapStatus (x : Block) (stash base len win : Nat) : Nat :=
  if base % 256 ≠ 0 || len % 256 ≠ 0 || win % 256 ≠ 0 || len < 256 then 1
  else if stash < win + len then 2
  else if x.ranges.any fun r => base < r.base + r.len && r.base < base + len then 3
  else if x.ranges.any fun r => win < r.win + r.len && r.win < win + len then 4
  else if 16 ≤ x.ranges.length then 5
  else if 2 ^ 56 < base + len then 6
  else 0

/-- Keep the entries of a map below a bound. -/
def below {α : Type} (m : FMap α) (n : Nat) : FMap α := m.filter fun c => c.1 < n

/-- Forget private entries at and above the private size: they read zero if they become private
again (R60, R128). -/
def Block.trim (x : Block) (stash : Nat) : Block :=
  let n := x.privSize stash
  { x with priv := below x.priv n, privPoison := below x.privPoison n
           privTimes := below x.privTimes (ceilDiv n 64) }

/-- Create a stash range (R58, R127): its window holds no filled sector. -/
def State.smap (s : State) (b base len win stash : Nat) : State :=
  s.modBlock b fun x => Block.trim { x with ranges := x.ranges ++ [⟨base, len, win⟩] } stash

/-- Give a sector up and drop it: its times return to the home (R63, R64). -/
def State.dropSec (s : State) (b k : Nat) : State :=
  let x := (s.block b).secs.get {} k
  let s := s.setSec b k {}
  if x.st = .owned || x.st = .dirty then
    ({ s with owners := s.owners.set 0 (x.pa / 64) 0 }).setHome (x.pa / 64) ⟨x.wts, x.rts⟩
  else s

/-- Write a sector back if it is dirty (R64). -/
def State.cleanSec (s : State) (b k : Nat) : State :=
  let x := (s.block b).secs.get {} k
  if x.st = .dirty then (s.writeBack x).setSec b k { x with st := .owned, dirty := 0 } else s

/-- Write back and drop, as `sunmap`, a covering `tinv`, a save and retirement do (R64). -/
def State.retireSec (s : State) (b k : Nat) : State := (s.cleanSec b k).dropSec b k

/-- Discard sectors, as `sdrop` does: the bytes of every dirty one become the home's, as a store of them in one place of
T would leave them (R64, R65, R129). -/
def State.discard (s : State) (w : Who) (b : Nat) (ks : List Nat) : State :=
  let x (k : Nat) : Sector := (s.block b).secs.get {} k
  let ds := ks.filter fun k => (x k).st = .dirty
  let t := ds.foldl (fun t k => max t ((x k).rts + 1)) (s.core w.core).clock
  let s := ks.foldl (fun s k => s.dropSec b k) s
  if ds.isEmpty then s
  else
    (ds.foldl (fun (s : State) k => (s.setHome ((x k).pa / 64) ⟨t, t⟩).noteStore w.writes ((x k).pa / 64) t) s).raiseClock
      w.core t

/-- The filled sectors of a block that overlap an interval of addresses. -/
def Block.covered (x : Block) (a n : Nat) : List Nat :=
  x.secs.keys.filter fun k => n ≠ 0 && k * 64 < a + n && a < k * 64 + 64

/-- A status written before the next issue to every guarded-active lane. -/
def State.status (s : State) (c : Ctx) (d v : Nat) : State :=
  eachLane c.ga (fun l s => s.wr c.t l d v) s

def execSmap (h : Hdr) (d a b x : Reg) (s : State) : Host.Outcome State Fault Refusal :=
  issueMem (.smap h d a b x) s (fun _ _ => 0) fun c s =>
    match c.ga.head? with
    | none => s
    | some l =>
      let k := blockOf c.t
      let stash := (s.img c.t).stash
      let base := s.rd64 0 c.t l a
      let len := s.rd 2 c.t l b
      let win := s.rd 4 c.t l x
      let st := smapStatus (s.block k) stash base len win
      (if st = 0 then s.smap k base len win stash else s).status c d st

/-- The filled sectors of the range that a `sunmap` names (R371). -/
def State.unmapSet (s : State) (c : Ctx) (a : Reg) : List Nat :=
  match c.ga.head? with
  | none => []
  | some l =>
    let x := s.block (blockOf c.t)
    match x.ranges.find? fun r => r.base = s.rd64 0 c.t l a with
    | some r => x.covered r.base r.len
    | none => []

def execSunmap (h : Hdr) (d a : Reg) (s : State) : Host.Outcome State Fault Refusal :=
  issueMem (.sunmap h d a) s (fun c s => (s.unmapSet c a).length) fun c s =>
    match c.ga.head? with
    | none => s
    | some l =>
      let k := blockOf c.t
      let base := s.rd64 0 c.t l a
      match (s.block k).ranges.find? fun r => r.base = base with
      | none => s.status c d 1
      | some r =>
        let s := ((s.block k).covered r.base r.len).foldl (fun s j => s.retireSec k j) s
        (s.modBlock k fun y => { y with ranges := y.ranges.filter fun q => q.base ≠ base }).status
          c d 0

/-- The sectors that `sflush` or `sdrop` acts on (R129). -/
def State.flushSet (s : State) (c : Ctx) (a b : Reg) (all : Bool) : List Nat :=
  match c.ga.head? with
  | none => []
  | some l =>
    let x := s.block (blockOf c.t)
    if all then x.secs.keys else x.covered (s.rd64 0 c.t l a) (s.rd 2 c.t l b)

def execSflush (h : Hdr) (a b : Reg) (all : Bool) (s : State) :
    Host.Outcome State Fault Refusal :=
  issueMem (.sflush h a b all) s (fun c s => (s.flushSet c a b all).length) fun c s =>
    (s.flushSet c a b all).foldl (fun s k => s.cleanSec (blockOf c.t) k) s

def execSdrop (h : Hdr) (a b : Reg) (all : Bool) (s : State) :
    Host.Outcome State Fault Refusal :=
  issueMem (.sdrop h a b all) s (fun c s => (s.flushSet c a b all).length) fun c s =>
    s.discard (s.who c.p) (blockOf c.t) (s.flushSet c a b all)

/-! ## Prefetch -/

/-- Bring a sector into a core's L1 as a leased copy (R62, R131). A sector that was not there is a miss (R369). -/
def State.bringCopy (s : State) (w : Who) (sec : Nat) : State :=
  let old := s.l1Copy w.core sec
  let s := if old.isSome then s else s.count w.core 6 1
  let (s, h) := s.grant w.fill .keep (s.core w.core).clock sec
  s.l1Put w.core .keep sec (s.granted sec old h)

/-- Prefetch one sector for a part (R131); whatever would stop it drops it, and then no counter has changed (R51). A
sector that cannot be reached now makes it wait, as every read that reaches a locked copy (R108): it is then tried again
from its beginning. -/
def State.prefetch (s : State) (p : Nat) (var : PfVar) (ea : Nat) : State :=
  let w := s.who p
  let wait : State := s.await 0 (.prefetch p var ea)
  let dropped (s1 : State) : State := s1.modCore w.core fun k => { k with ev := (s.core w.core).ev }
  match var with
  | .fill =>
    match s.placeStash w (blockOf (teamOf p)) kRead ea with
    | (s1, .ok (.stash b k (some e))) =>
      if s1.busyHome w true ⟨0, 1, 0, .stash b k (some e)⟩ then wait
      else s1.fillSec w .keep b k e false true
    | (s1, .ok _) => s1
    | (s1, .stop x) => if x.cause = busyCause then wait else dropped s1
  | v =>
    match s.resolve w kRead ea with
    | (s1, .stop x) => if x.cause = busyCause then wait else dropped s1
    | (s1, .ok e) =>
      let pa := copyOf e.attr.rep (dieOf w.core) (e.pa + ea % 2 ^ e.lg)
      if !s1.homed pa then dropped s1
      else if s1.leafBusy e || s1.busySec pa then wait
      else
        let s2 := s1.markUsed w e false
        if v = .l2 then s2.fillLine w.fill .keep (pa / 256) else s2.bringCopy w (pa / 64)

/-- Try a prefetch again that has waited: one whose part has retired, frozen or been saved is dropped (DESIGN CHOICE,
log 112). -/
def State.prefetchAgain (s : State) (p : Nat) (var : PfVar) (ea : Nat) : State :=
  if s.resident p && (s.part p).life ≠ .frozen && s.livePart p then s.prefetch p var ea else s

def execPfd (h : Hdr) (a : Reg) (off : BitVec 16) (var : PfVar) (s : State) :
    Host.Outcome State Fault Refusal :=
  issueMem (.pfd h a off var) s
    (fun c s => countSectors (c.ga.map fun l => (effAddr (s.rd64 0 c.t l a) off, 1))) fun c s0 =>
    eachLane c.ga (fun l s => s.prefetch c.p var (effAddr (s0.rd64 0 c.t l a) off)) s0

/-! ## Counters and fences -/

/-- `waitc` has no effect beyond its wait at issue (R132). -/
def execWaitc (h : Hdr) (a : Reg) (path : Path) (s : State) : Host.Outcome State Fault Refusal :=
  issueMem (.waitc h a path) s (fun _ _ => 0) fun _ s => s

/-- The operations of a part that an instruction at issue sees: those before the pair for a second
half (R133). -/
def State.srcOps (s : State) (p : Nat) : List Op :=
  match s.issue.pre with
  | some x => x.ops
  | none => (s.part p).ops

def execCntq (h : Hdr) (d : Reg) (path : Path) (s : State) : Host.Outcome State Fault Refusal :=
  issueMem (.cntq h d path) s (fun _ _ => 0) fun c s =>
    s.status c d (Part.counter { ops := s.srcOps c.p } path)

/-- Below system, `fence` has no effect (R89, R134). -/
def execFence (h : Hdr) (sco : Scope) (s : State) : Host.Outcome State Fault Refusal :=
  issueMem (.fence h sco) s (fun _ _ => 0) fun _ s => s


/-- `fence.sys` (R91, R134). It waits at issue until the accesses of its guarded-active lanes have
completed; in slot 1 of a pair, those of slot 0 included, before the part's next issue (R79). -/
def execFenceSys (h : Hdr) (s : State) : Host.Outcome State Fault Refusal :=
  issueMem (.fenceSys h) s (fun _ _ => 0) fun c s =>
    if s.issue.half = .second then s.modPart c.p fun x => { x with fence := c.ga }
    else s.settleStores c.p c.ga

end Sys2Proof.Machine
end

