-- ==== Sys2Proof/Machine/Barrier.lean ====
section
/-! DEFINITION. Named barriers: the barrier unit's counting, completion and release, what an exit does
to them, and the barrier instructions (R236 to R245). -/

namespace Sys2Proof.Machine

/-! ## The state of a barrier -/

/-- A barrier's place: a block barrier by its block, a cluster barrier by its cluster (R236). -/
structure BarKey where
  cl : Bool
  id : Nat
  ix : Nat
  deriving DecidableEq, Repr

/-- The barrier that an operand names for a team. -/
def barKey (t : Nat) (b : BarRef) : BarKey :=
  { cl := b.cl, id := if b.cl then clusterOf (blockOf t) else blockOf t, ix := b.ix.val }

def State.bar (s : State) (k : BarKey) : Barrier :=
  if k.cl then (s.cluster k.id).bars.get {} k.ix else (s.block k.id).bars.get {} k.ix

def State.setBar (s : State) (k : BarKey) (b : Barrier) : State :=
  if k.cl then s.modCluster k.id fun c => { c with bars := c.bars.set {} k.ix b }
  else s.modBlock k.id fun x => { x with bars := x.bars.set {} k.ix b }

/-- The number of a barrier's arrival bit in a lane (R236). -/
def BarKey.bit (k : BarKey) : Nat := if k.cl then 16 + k.ix else k.ix

/-- The lanes that can reach a barrier, with their records: those of its block or its cluster. -/
def State.barLanes (s : State) (k : BarKey) : List (Nat × Lane) :=
  s.lanes.filter fun x =>
    let b := blockOf (x.1 / 1024)
    if k.cl then clusterOf b = k.id else b = k.id

/-- The expected count of LIVE mode: the non-helper lanes that have not exited, plus PEND (R237). -/
def State.liveExp (s : State) (k : BarKey) (pend : Nat) : Nat :=
  ((s.barLanes k).filter fun x => x.2.kind = .own && x.2.wl ≠ 4095).length + pend

/-- Whether a token is pending (R239). -/
def tokenPending (ph k : Nat) : Bool :=
  let d := (ph + 2 ^ 32 - k % 2 ^ 32) % 2 ^ 32
  d = 0 || 2 ^ 31 ≤ d

/-- The part that holds a lane. -/
def State.partOf (s : State) (lane : Nat) : Nat :=
  ((s.parts.find? fun x => teamOf x.1 = lane / 1024 && x.2.lo ≤ lane % 1024
    && lane % 1024 < x.2.lo + x.2.width).map (·.1)).getD 0

/-- Release the lanes held at a barrier whose tokens are no longer pending; each leaves its wait with
its core's clock at CT or above (R239, R241). -/
def State.releaseBar (s : State) (k : BarKey) : State :=
  let b := s.bar k
  (s.barLanes k).foldl (fun s x =>
    match x.2.hold with
    | some (.barrier cl ix (some tok)) =>
      if cl = k.cl && ix = k.ix && !tokenPending b.ph tok then
        (s.raiseClock (s.team (x.1 / 1024)).core b.ct).releaseLane (s.partOf x.1) (x.1 % 1024)
      else s
    | _ => s) s

/-- PEND counts none of the commands that will arrive at a barrier any more. -/
def State.dropPend (s : State) (k : BarKey) : State :=
  { s with cmds := s.cmds.map fun c : Cmd =>
      if c.bar.any fun b => barKey (teamOf c.part) b = k then { c with pend := false } else c }

/-- PHASE_COMPLETE (R239). -/
def State.completeBar (s : State) (k : BarKey) : State :=
  let b := s.bar k
  let s := s.dropPend k
  let s := (s.barLanes k).foldl (fun s x =>
    if bit x.2.arrived k.bit then
      s.setLane x.1 { s.lane x.1 with arrived := x.2.arrived - 2 ^ k.bit }
    else s) s
  let exp := if b.count then b.exp else s.liveExp k 0
  (s.setBar k { b with exp := exp, arr := 0, ph := (b.ph + 1) % 2 ^ 32, pend := 0, ct := b.time
                       low := 0, time := 0 }).releaseBar k

/-- Complete the phase if its count has been reached otherwise than by an arrival (R240, R244). -/
def State.checkBar (s : State) (k : BarKey) : State :=
  let b := s.bar k
  if b.exp ≤ b.arr && 0 < b.exp then s.completeBar k else s

/-! ## Counting -/

/-- Count one arrival with a logical time (R238). A command that arrives leaves PEND if that counts it (R236), and EXP,
which counted it for this phase, stays (DEDUCED, log 83). -/
def State.countArrival (s : State) (k : BarKey) (time : Nat) (command : Bool := false) : State :=
  let b := s.bar k
  let b := { b with arr := b.arr + 1, time := max b.time time, pend := if command then b.pend - 1 else b.pend }
  let s := s.setBar k b
  if b.arr = b.exp then s.completeBar k else s

/-- Give a lane its token: to its hold, or to its deferred result (R238, R243). -/
def State.giveToken (s : State) (x : ArrStep) (t l tok : Nat) : State :=
  if x.holds then
    s.modLane (laneId t l) fun y => { y with hold := some (.barrier x.cl x.ix (some tok)) }
  else
    match x.res.find? fun r => r.1 = l with
    | some r => s.fixGroup r.2 [(tok, false)]
    | none => s

/-- The barrier of an arrival step. -/
def ArrStep.key (x : ArrStep) : BarKey :=
  { cl := x.cl, id := if x.cl then clusterOf x.blk else x.blk, ix := x.ix }

/-- Count the arrivals of one instruction or command, in ascending lane order (R238, R244, R251). -/
def State.arrive (s : State) (x : ArrStep) : State :=
  let k := x.key
  match x.init, x.cmdTime with
  | some n, _ =>
    let b := s.bar k
    let b := if n = 0 then { b with count := false, exp := s.liveExp k b.pend, low := 0 }
      else { b with count := true, exp := n }
    (s.setBar k b).checkBar k
  | none, some t => s.countArrival k t x.pend
  | none, none =>
    let t := teamOf x.part
    let clock := (s.core (s.coreOf x.part)).clock
    let first := (s.bar k).ph
    let s := x.lanes.foldl (fun (s : State) l =>
      let tok := (s.bar k).ph
      let s := s.modLane (laneId t l) fun y => { y with arrived := y.arrived ||| 2 ^ k.bit }
      (s.giveToken x t l tok).countArrival k clock) s
    (x.helpers.foldl (fun s l => s.giveToken x t l first) s).releaseBar k

/-- Whether an arrival step may be counted: every earlier access of its lanes has taken its place
(R241), and no earlier step of its part waits. -/
def State.mayArrive (s : State) (d k : Nat) (x : ArrStep) : Bool :=
  let t := teamOf x.part
  x.cmdTime.isSome ||
    (!((s.die d).arrivals.take k).any (fun y => y.cmdTime.isNone && y.part = x.part)
      && x.lanes.all fun l => !s.laneHeld t l x.id)

/-- BARRIER_ARRIVAL_STEP: the unit of a die takes one waiting step (R238). -/
def State.arrivalStep (s : State) (d k : Nat) : State :=
  match (s.die d).arrivals[k]? with
  | none => s
  | some x =>
    if s.mayArrive d k x then
      (s.modDie d fun y => { y with arrivals := y.arrivals.eraseIdx k }).arrive x
    else s

/-- Send an arrival step to the barrier unit of a die (R236, R243). It notes which accesses of its lanes are earlier. -/
def State.sendArrival (s : State) (d : Nat) (x : ArrStep) : State :=
  s.modDie d fun y => { y with arrivals := y.arrivals ++ [{ x with id := s.nextId }] }

/-! ## Exit -/

/-- What an exit does to one LIVE barrier (R240). -/
def State.lowerBar (s : State) (k : BarKey) (arrived : Bool) : State :=
  let b := s.bar k
  if b.count then s
  else if arrived then s.setBar k { b with low := b.low + 1 }
  else (s.setBar k { b with exp := b.exp - 1 }).checkBar k

/-- The barriers that a team's lanes can reach. -/
def teamBars (t : Nat) : List BarKey :=
  (List.range 16).map (fun i => ⟨false, blockOf t, i⟩)
    ++ (List.range 16).map (fun i => ⟨true, clusterOf (blockOf t), i⟩)

/-- A lane has exited: every LIVE barrier of its block and cluster is lowered (R240), and its
traversal ends (R294). Helper lanes do not count (R237). -/
def State.laneExit (s : State) (t l : Nat) : State :=
  let y := s.lane (laneId t l)
  let s := s.modLane (laneId t l) fun z => { z with inTrav := false, frames := [], work := .idle, rbuf := [] }
  if y.kind = .own then
    (teamBars t).foldl (fun s k => s.lowerBar k (bit y.arrived k.bit)) s
  else s

/-- Change a lane's wanted label and depart it; label 4095 is an exit (R187, R201, R204). -/
def State.leave (s : State) (t l wl : Nat) : State :=
  let s := s.depart t l wl
  if wl = 4095 then s.laneExit t l else s

/-! ## The instructions -/

/-- The arrival step of an instruction's participants (R238). -/
def State.arrStep (s : State) (c : Ctx) (b : BarRef) (holds : Bool) (res : List (Nat × Nat)) :
    ArrStep :=
  { cl := b.cl, blk := blockOf c.t, ix := b.ix.val, part := c.p, lanes := s.owns c
    helpers := c.ga.filter fun l => s.isHelper c.t l, holds := holds, res := res, init := none
    cmdTime := none, id := 0 }

/-- `bar` (R243): arrivals, and each lane held at its label until its own token is past. -/
def execBar (h : Hdr) (b : BarRef) (lb : Lbl) (s : State) : Host.Outcome State Fault Refusal :=
  issueMem (.bar h b lb) s (fun _ _ => 0) fun c s =>
    if c.ga.isEmpty then s
    else
      let x := s.arrStep c b true []
      let s := eachLane c.ga (fun l s => (s.depart c.t l lb.val).modLane (laneId c.t l) fun y =>
        { y with hold := some (.barrier b.cl b.ix.val none) }) s
      s.sendArrival (dieOf (s.coreOf c.p)) x

/-- `barr` (R243): arrivals whose tokens are deferred results. -/
def execBarr (h : Hdr) (d : Reg) (b : BarRef) (s : State) : Host.Outcome State Fault Refusal :=
  issueMem (.barr h d b) s (fun _ _ => 0) fun c s =>
    if c.ga.isEmpty then s
    else
      let r := c.ga.foldl (fun (r : State × List (Nat × Nat)) l =>
        let (g, s) := r.1.postWords c.t l [d.val] none 0
        (s, r.2 ++ [(l, g)])) (s, [])
      r.1.sendArrival (dieOf (s.coreOf c.p)) (s.arrStep c b false r.2)

/-- `barw` (R243): depart to the label, held while the token is pending. -/
def execBarw (h : Hdr) (a : Reg) (b : BarRef) (lb : Lbl) (s : State) :
    Host.Outcome State Fault Refusal :=
  issueMem (.barw h a b lb) s (fun _ _ => 0) fun c s0 =>
    let x := s0.bar (barKey c.t b)
    eachLane c.ga (fun l s =>
      let tok := s0.rd 0 c.t l a
      let s := s.depart c.t l lb.val
      if tokenPending x.ph tok then
        s.modLane (laneId c.t l) fun y =>
          { y with hold := some (.barrier b.cl b.ix.val (some tok)) }
      else s.raiseClock (s.coreOf c.p) x.ct) s0

/-- `barinit` (R244): its step reaches the unit as an arrival does, after the instruction (DESIGN CHOICE, log 117). -/
def execBarinit (h : Hdr) (a : Reg) (b : BarRef) (s : State) : Host.Outcome State Fault Refusal :=
  issueMem (.barinit h a b) s (fun _ _ => 0) fun c s =>
    match c.ga.head? with
    | none => s
    | some l =>
      s.sendArrival (dieOf (s.coreOf c.p))
        { s.arrStep c b false [] with lanes := [], helpers := []
                                      init := some (bits (s.rd 0 c.t l a) 0 20) }

end Sys2Proof.Machine
end

