-- ==== Sys2Proof/Machine/Engine.lean ====
section
/-! DEFINITION. Accesses of agents other than lanes: the graph walker and the launch path, which take
places in T, and engines, whose accesses enter T only through flags (R94 to R101, R110, R124, R246 to
R251); arrival on a counter; and the commands of the Ladle and the gather path. -/

namespace Sys2Proof.Machine

/-! ## Arrival -/

/-- Drop the operations that an arrival releases: the arrived ones at the front of a path (R103). -/
def dropArrived (path : Path) : List Op → List Op
  | [] => []
  | o :: t =>
    if o.path ≠ path then o :: dropArrived path t
    else if o.arrived then dropArrived path t
    else o :: t

/-- The arrival of an operation on its path (R102, R103): the counter falls over every instruction
that this releases, its stores are all performed, and a sampled instruction is recorded (R371). -/
def State.arriveOp (s : State) (p op : Nat) : State :=
  match (s.part p).ops.find? fun o => o.id = op with
  | none => s
  | some o =>
    let s := { s with undo := settled (fun x => x.1 / 1024 = op) s.undo }
    let s := s.modPart p fun x =>
      let ops := x.ops.map fun q : Op => if q.id = op then { q with arrived := true } else q
      { x with ops := dropArrived o.path ops }
    match o.smp with
    | some x => s.sample p x
    | none => s

/-! ## Bytes of an agent's access -/

/-- The outcome of an access by an agent: done, stopped, or not possible yet because the sector is
locked or with the guest (R108, R322). -/
inductive Got (α : Type)
  | ok (x : α)
  | stop (x : Stop)
  | busy
  deriving DecidableEq, Repr

/-- Read bytes inside one sector of a home, without keeping a copy: at a place in T, which the reader's clock follows
(R62, R84, R98), or without one (R95). -/
def State.homeRead (s : State) (w : Who) (place : Bool) (pa n : Nat) (ca : Cache) : State × Nat × Nat :=
  if place then
    let (s, h) := s.grant w.fill ca (s.whoClock w) (pa / 64)
    (s.raiseWho w (s.readTime w.reads (s.whoClock w) (pa / 64) h.wts), s.getBytes pa n)
  else s.quietRead w.fill ca pa n

/-- Write bytes inside one sector of a home at a time not below `clock`, which it answers with (R62, R96). Whatever
stores before it have replaced there can be read no more (R95). -/
def State.homeWrite (s : State) (w : Who) (clock pa n data psn : Nat) (ca : Cache) : State × Nat :=
  let (s, t) := s.takeTime w.fill ca w.writes clock (pa / 64)
  ((s.noteUndo 0 pa n 0).putBytes pa n data (ones n) psn, t)

/-- A write of an agent to a replicated sector is a commit of two steps (R107, R110): the first attempt begins it, and
one after its end takes its time (DEDUCED, log 23). -/
def State.writeRep (s : State) (w : Who) (by' : Writer) (part : Nat) (e : Tlb) (pa n data psn : Nat) (ca : Cache) :
    State × Got Nat :=
  let mine (k : Commit) : Bool := k.by' = by' && k.pa = pa && k.len = n && k.acc.data = data && k.acc.psn = psn
  match s.commits.find? mine with
  | some k =>
    match k.done with
    | some t => ({ s with commits := s.commits.filter fun x => x.id ≠ k.id }, .ok t)
    | none => (s, .busy)
  | none =>
    let (id, s) := s.takeId
    let a : Access := { kind := .store, sp := .global, ea := 0, n := n, data := data, psn := psn, ca := ca }
    ({ s with commits := s.commits ++
        [{ id := id, by' := by', core := w.core, part := part, lane := 1024, pa := pa, acc := a, tr := some e
           fill := w.fill, off := 0, len := n, vf := w.vf, op := 0, res := 0 }] }, .busy)

/-- Write bytes inside one sector through a translation, at a time not below `clock`. -/
def State.writePage (s : State) (w : Who) (by' : Writer) (part : Nat) (e : Tlb) (clock pa n data psn : Nat) (ca : Cache) :
    State × Got Nat :=
  if s.leafBusy e then (s, .busy)
  else if e.attr.rep then s.writeRep w by' part e pa n data psn ca
  else if s.busySec pa then (s, .busy)
  else
    let s := s.markUsed w e true
    let (s, t) := s.homeWrite w (max clock (if e.acc && e.dirty then 0 else s.whoClock w)) pa n data psn ca
    (s, .ok t)

/-- The pieces of a byte run that lie in one sector each: address and length. -/
def sectorRuns (va n : Nat) : List (Nat × Nat) :=
  (sectorsOf va n).map fun x =>
    let a := max va (x * 64)
    (a, min (va + n) (x * 64 + 64) - a)

/-! ## The graph walker and the launch path -/

/-- Read a piece inside one sector in T (R255, R259, R383). -/
def State.agentPiece (s : State) (w : Who) (va n : Nat) : State × Got Nat :=
  match s.resolve w kRead va with
  | (s, .stop x) => (s, .stop x)
  | (s, .ok e) =>
    let pa := e.phys (dieOf w.core) va
    if s.leafBusy e then (s, .busy)
    else if !s.homed pa then
      let (s, v) := (s.markUsed w e false).readWindow pa n
      (s, .ok v)
    else if s.busySec pa then (s, .busy)
    else
      let (s, x) := (s.markUsed w e false).homeRead w true pa n .keep
      let (s, v) := s.unpoison pa n x.1 x.2
      (s, .ok v)

/-- Read bytes of a virtual range in T, lowest address first. -/
def State.agentRead (s : State) (w : Who) (va n : Nat) : State × Got Nat :=
  if n = 0 then (s, .ok 0)
  else
    (sectorRuns va n).foldl (fun (r : State × Got Nat) x =>
      match r.2 with
      | .ok v =>
        match r.1.agentPiece w x.1 x.2 with
        | (s, .ok y) => (s, .ok (v + y * 2 ^ (8 * (x.1 - va))))
        | (s, g) => (s, g)
      | _ => r) (s, .ok 0)

/-- Write a piece inside one sector, at a time not below `clock`; a window takes it as it takes a lane's
store. -/
def State.agentPut (s : State) (w : Who) (clock va n data : Nat) : State × Got Nat :=
  match s.resolve w kWrite va with
  | (s, .stop x) => (s, .stop x)
  | (s, .ok e) =>
    let pa := e.pa + va % 2 ^ e.lg
    if !s.homed pa then
      if s.leafBusy e then (s, .busy) else ((s.markUsed w e true).writeWindow w pa n data, .ok 0)
    else s.writePage w (.engine 0) 0 e clock pa n data 0 .keep

/-- Write bytes of a virtual range at a time not below `clock`: the time of the last piece. -/
def State.agentWriteAt (s : State) (w : Who) (clock va n data : Nat) : State × Got Nat :=
  (sectorRuns va n).foldl (fun (r : State × Got Nat) x =>
    match r.2 with
    | .ok _ => r.1.agentPut w clock x.1 x.2 (bits data (8 * (x.1 - va)) (8 * x.2))
    | _ => r) (s, .ok 0)

/-- Write bytes of a virtual range in T, at the clock of the agent's core. -/
def State.agentWrite (s : State) (w : Who) (va n data : Nat) : State × Got Nat :=
  s.agentWriteAt w (s.core w.core).clock va n data

/-- Who the graph walker of a queue works for (R47, R257, R383): level S in the queue's space. The
descriptor of the space is read as it stands. -/
def State.walkerWho (s : State) (g : Nat) : Who :=
  { core := (s.queue g).die * 64, vf := g / 256, spid := (s.queue g).spid, root := 0, lvl := .s
    master := 5 }

/-! ## Engine bytes -/

/-- Who an engine works for: the translation context, the posting team, and whether its reads take
places in T (R95, R98). -/
structure Eng where
  w : Who
  t : Nat
  acq : Bool
  ca : Cache
  /-- the command or entry, and its part, 0 for a graph node's, for its replicated commits (R110) -/
  id : Nat := 0
  part : Nat := 0
  deriving DecidableEq, Repr

/-- A byte that an engine read without an acquire flag may return: the one at the home, or one that a
store which has not arrived replaced there (R95). The stores before the one that it was read before are performed, and
all of them when it is the home's. -/
def State.oldByte (s : State) (e : Eng) (pa : Nat) (b : Byte) : State × Byte :=
  let here := s.undo.filter fun x => x.2.1 = pa
  if e.acq || here.isEmpty then (s, b)
  else
    let ks := (List.range here.length).filter s.pick
    let keep := match ks.getLast? with
      | some k => here.drop k
      | none => []
    ({ s.bump with undo := (s.undo.filter fun x => x.2.1 ≠ pa) ++ keep }, match keep with
      | x :: _ => x.2.2
      | [] => b)

/-- A byte that an engine reads, with its poison (R95, R98, R250). `base` is the first byte of the
range, which names the block of a `.cstash` range (R248). -/
def State.engRead (s : State) (e : Eng) (sp : Space) (base off : Nat) :
    State × Got (Byte × Bool) :=
  let va := (base + off) % 2 ^ 64
  let byte (x : Nat × Nat) : Byte × Bool := (BitVec.ofNat 8 x.1, x.2 ≠ 0)
  match sp with
  | .global =>
    match s.resolve e.w kRead va with
    | (s, .stop x) => (s, .stop x)
    | (s, .ok k) =>
      let pa := k.phys (dieOf e.w.core) va
      if paKind pa = .regs then (s, .stop ⟨false, k.lv1, 8, va⟩)
      else if s.leafBusy k then (s, .busy)
      else if !s.homed pa then
        let (s, v) := (s.markUsed e.w k false).readWindow pa 1
        (s, .ok (byte (v, 0)))
      else if s.busySec pa then (s, .busy)
      else
        let (s, v) := (s.markUsed e.w k false).homeRead e.w e.acq pa 1 e.ca
        let (s, b) := s.oldByte e pa (BitVec.ofNat 8 v.1)
        (s, .ok (b, v.2 ≠ 0))
  | .stash =>
    match s.placeStash e.w (blockOf e.t) kRead va with
    | (s, .stop x) => (s, .stop x)
    | (s, .ok (.stash b k x)) =>
      let c : Chunk := ⟨0, 1, 0, .stash b k x⟩
      if (if e.acq then s.busy e.w true [c] else s.busyHome e.w true c) then (s, .busy)
      else
        let (s, v) := if e.acq then s.readStash e.w e.ca b k x (va % 64) 1
          else s.quietStash e.w e.ca b k x (va % 64) 1
        let (s, y) := s.oldByte e (((s.block b).secs.get {} k).pa + va % 64) (BitVec.ofNat 8 v.1)
        (s, .ok (y, v.2 ≠ 0))
    | (s, .ok _) => (s, .busy)
  | .cstash =>
    match s.placePriv (clusterOf (blockOf e.t)) base off 1 with
    | .ok (.priv b o) =>
      let (s, v) := if e.acq then s.readPriv e.w b o 1 else (s, (s.block b).privBytes o 1)
      (s, .ok (byte v))
    | .stop x => (s, .stop x)
    | .ok _ => (s, .busy)
  | .const =>
    match s.placeConst e.w.launch va 1 with
    | .ok (.const o) => (s.fillLine e.w.fill e.ca (s.constAt e.w.launch o / 256), .ok (byte (s.constBytes e.w.launch o 1)))
    | .stop x => (s, .stop x)
    | .ok _ => (s, .busy)

/-- Where an engine's write of a global or stash byte lands, as far as a walk tells now. -/
def State.engPa (s : State) (e : Eng) (sp : Space) (kind va : Nat) : Option Nat :=
  match sp with
  | .stash =>
    match (s.placeStash e.w (blockOf e.t) kind va).2 with
    | .ok (.stash _ k (some x)) => some (x.pa + (k * 64) % 2 ^ x.lg + va % 64)
    | .ok (.stash b k none) => some (((s.block b).secs.get {} k).pa + va % 64)
    | _ => none
  | _ =>
    match (s.resolve e.w kind va).2 with
    | .ok x => some (x.pa + va % 2 ^ x.lg)
    | .stop _ => none

/-- Write `n` bytes that lie in one sector as an engine: the time their place took, 0 for a window (R96, R110,
R250). Bit i of `psn` poisons byte i. -/
def State.engWrite (s : State) (e : Eng) (sp : Space) (base off n data psn : Nat) : State × Got Nat :=
  let va := (base + off) % 2 ^ 64
  let clock := (s.core e.w.core).clock
  match sp with
  | .global =>
    match s.resolve e.w kWrite va with
    | (s, .stop x) => (s, .stop x)
    | (s, .ok k) =>
      let pa := k.pa + va % 2 ^ k.lg
      if paKind pa = .regs then (s, .stop ⟨false, k.lv1, 9, va⟩)
      else if !s.homed pa then
        if s.leafBusy k then (s, .busy) else ((s.markUsed e.w k true).writeWindow e.w pa n data, .ok 0)
      else s.writePage e.w (.engine e.id) e.part k clock pa n data psn e.ca
  | .stash =>
    match s.placeStash e.w (blockOf e.t) kWrite va with
    | (s, .stop x) => (s, .stop x)
    | (s, .ok (.stash bk k x)) =>
      if s.busyHome e.w false ⟨0, 1, 0, .stash bk k x⟩ then (s, .busy)
      else
        let s := s.writeStash e.w e.ca 0 bk k x (va % 64) n data psn
        (s, .ok ((s.block bk).secs.get {} k).wts)
    | (s, .ok _) => (s, .busy)
  | .cstash =>
    match s.placePriv (clusterOf (blockOf e.t)) base off n with
    | .ok (.priv bk o) =>
      let s := s.writePriv e.w bk o n data psn
      (s, .ok ((s.block bk).privTimes.get {} (o / 64)).wts)
    | .stop x => (s, .stop x)
    | .ok _ => (s, .busy)
  | .const => (s, .busy)

/-- Read `n` bytes as an engine, each at its own moment (R95). -/
def State.engReadN (s : State) (e : Eng) (sp : Space) (base off n : Nat) :
    State × Got (Nat × Nat) :=
  (List.range n).foldl (fun (r : State × Got (Nat × Nat)) i =>
    match r.2 with
    | .ok v =>
      match r.1.engRead e sp base (off + i) with
      | (s, .ok (b, psn)) => (s, .ok (v.1 + b.toNat * 256 ^ i, v.2 + b2n psn * 2 ^ i))
      | (s, .stop x) => (s, .stop x)
      | (s, .busy) => (s, .busy)
    | _ => r) (s, .ok (0, 0))

/-! ## Commands -/

/-- A flag that makes reads wait for earlier work (R98). -/
def isAcq (o : Ord) : Bool := o = .acq || o = .acqrel
/-- A flag that makes the completion follow the writes (R99). -/
def isRel (o : Ord) : Bool := o = .rel || o = .acqrel

/-- Who a command works for: a part's queue, or the graph walker's copy node (R47, R258) (DEDUCED, log 25). -/
def State.cmdWho (s : State) (k : Cmd) : Who :=
  match k.node with
  | some (g, _) => s.walkerWho g
  | none =>
    { s.who k.part with
      master := match k.eng with
        | .l => 1
        | .t => 3
        | _ => 0 }

def State.cmdEng (s : State) (k : Cmd) : Eng :=
  { w := { s.cmdWho k with eng := true }, t := teamOf k.part, acq := isAcq k.ord, ca := k.ca, id := k.id
    part := if k.node.isSome then 0 else k.part }

/-- What an acquiring command of a lane waits for (R98, R100): its earlier accesses, those to windows too under system
scope, and every earlier released command of that lane on any engine. -/
def State.acqReady (s : State) (p lane id : Nat) (sco : Scope) : Bool :=
  !s.laneHeld (teamOf p) lane id
    && !(sco = .system && s.defs.any fun d => d.team = teamOf p && d.lane = lane && d.win && d.id < id)
    && !(s.cmds.any fun k => k.part = p && k.lanes.contains lane && k.node.isNone && k.id < id && isRel k.ord)
    && !(s.tundish.any fun k => k.part = p && k.lane = lane && k.id < id && isRel k.ord)
    && !(s.guest.queues.any fun q => q.2.pkts.any fun k =>
      k.node.isNone && k.part = p && k.lane = lane && k.op < id && isRel k.ord)


/-- The cluster that a command works for is resident; a graph node's command always runs. -/
def Cmd.here (k : Cmd) (s : State) : Bool := k.node.isSome || s.resident k.part

/-- Whether a command may act now. -/
def State.cmdRuns (s : State) (k : Cmd) : Bool :=
  !k.frozen && k.here s
    && (!isAcq k.ord || k.node.isSome || k.lanes.all fun l => s.acqReady k.part l k.id k.sco)

def State.modCmd (s : State) (id : Nat) (f : Cmd → Cmd) : State :=
  { s with cmds := s.cmds.map fun k : Cmd => if k.id = id then f k else k }

/-- A class-14 record for the part that owns a frozen queue (R331). The part runs on; its record says that
only `.kill` is left (DEDUCED, log 26). That of an H part stops the H teams of its die (R326). -/
def State.queueRecord (s : State) (p : Nat) : State :=
  if !s.livePart p then s
  else if (s.launchAt p).level = .h then s.stopH (dieOf (s.coreOf p)) 14
  else
    let (ga, act) := s.atInstr p
    let ring := s.trapRing (teamOf p)
    let (token, s) := s.takeToken ring
    let s := s.modPart p fun x => { x with qTokens := token :: x.qTokens }
    let r := s.trapRecord p token 14 true (s.part p).off 0 (wordMask (s.part p).lo ga act)
    let (id, s) := s.takeId
    { s with trapOuts := s.trapOuts ++ [{ id := id, ring := ring, part := p, record := r, dead := (s.fn ring).tq.size = 0
                                          time := (s.core (s.coreOf p)).clock }] }

/-- Freeze an engine queue of a part: its later commands never arrive (R52, R250), and on the Runner none
that is left does (R312). A queue writes one record, however many of its commands are stopped (R331). -/
def State.freezeQueue (s : State) (p : Nat) (eng : Path) (from' : Nat) : State :=
  let once := !(s.part p).frozenQ.contains eng
  let s := s.modPart p fun x => { x with frozenQ := if once then eng :: x.frozenQ else x.frozenQ }
  let cmds := s.cmds.map fun k : Cmd =>
    if k.part = p && k.eng = eng && k.node.isNone && (eng = .t || from' ≤ k.id) then { k with frozen := true } else k
  let tun := s.tundish.map fun k : TEntry =>
    if eng = .m && k.part = p && from' ≤ k.id then { k with frozen := true } else k
  let s := { s with cmds := cmds, tundish := tun }
  if once then s.queueRecord p else s

/-- Add a report to those that a command or entry waits for; 0 stands for none. -/
def addReport (r : Nat) (rs : List Nat) : List Nat := if r = 0 || rs.contains r then rs else rs ++ [r]

/-- Whether anyone waits for a fault report. -/
def State.reportUsed (s : State) (r : Nat) : Bool :=
  (s.held.any fun h => h.report = r) || (s.cmds.any fun k => k.reports.contains r)
    || (s.tundish.any fun k => k.reports.contains r) || (s.fills.any fun f => f.report = r)
    || (s.lanes.any fun y => y.2.reports.contains r) || s.waiters.any fun x => x.1 = r

/-- Fault reports that have not been written, and that nobody waits for any more, are not written: their access belongs
to a command that has met a violation (R53). -/
def State.unfile (s : State) (rs : List Nat) : State :=
  { s with reports := s.reports.filter fun x => x.written || !rs.contains x.id || s.reportUsed x.id }

/-- Whether an address lies in a page at which an access waits for a report: it stays parked until FRES, whatever the
tables say by then (R54). -/
def parkedAt (parked : List (Nat × Nat)) (reports : List Nat) (va : Nat) : Bool :=
  parked.any fun x => x.2 = va / 65536 && reports.contains x.1

def Cmd.parkedAt (k : Cmd) (va : Nat) : Bool := Machine.parkedAt k.parked k.reports va

/-- What stops an engine's access of a byte, as far as a walk tells now. -/
def State.engStop (s : State) (e : Eng) (sp : Space) (kind base off : Nat) : Option Stop :=
  let va := (base + off) % 2 ^ 64
  match sp with
  | .global =>
    match (s.resolve e.w kind va).2 with
    | .stop x => some x
    | .ok k => if paKind (k.pa + va % 2 ^ k.lg) = .regs then some ⟨false, k.lv1, if kind = kRead then 8 else 9, va⟩ else none
  | .stash =>
    match (s.placeStash e.w (blockOf e.t) kind va).2 with
    | .stop x => some x
    | .ok _ => none
  | .cstash =>
    match s.placePriv (clusterOf (blockOf e.t)) base off 1 with
    | .stop x => some x
    | .ok _ => none
  | .const =>
    match s.placeConst e.w.launch va 1 with
    | .stop x => some x
    | .ok _ => none

/-- Ranges of bytes that are left to access: space, kind, base, offset and length. -/
abbrev Spans := List (Space × Nat × Nat × Nat × Nat)

/-- The offsets in a range at which another outcome may begin: of each page, or of each sector in a stash. -/
def probes (sp : Space) (base off n : Nat) : List Nat :=
  let g := if sp = .global then 65536 else 64
  let a := base + off
  (List.range ((a + n - 1) / g - a / g + 1)).map fun i => if i = 0 then off else (a / g + i) * g - base

/-- The first violation among what is left to access (R52, R53). -/
def State.spansStop (s : State) (e : Eng) (xs : Spans) : Option (Stop × Nat) :=
  xs.findSome? fun x =>
    if x.2.2.2.2 = 0 then none
    else
      (probes x.1 x.2.2.1 x.2.2.2.1 x.2.2.2.2).findSome? fun o =>
        match s.engStop e x.1 x.2.1 x.2.2.1 o with
        | some st => if st.isViolation then some (st, x.2.1) else none
        | none => none

/-- What a command has left to access, as far as it is known: the source of an indexed row is not, until its index word
has been read. -/
def CmdBody.spans : CmdBody → Spans
  | .ladle d x rows runs buf =>
    rows.flatMap (fun r => [(.global, kRead, r.ix, 0, 4), (d, kWrite, r.dst, 0, r.len)])
      ++ runs.flatMap (fun r => [(x, kRead, r.src, r.off, r.len), (d, kWrite, r.dst, r.off, r.len)])
      ++ buf.map fun b => (d, kWrite, b.1, b.2.1, 1)
  | .gather st sz els => els.map fun x => (if st then .stash else .global, kRead, x.2.1, 0, Sz.bytes sz)
  | .scatter st els _ => els.map fun x => (if st then .stash else .global, kWrite, x.1, 0, 1)
  | .tcut st ws => ws.map fun x => (if st then .stash else .global, kWrite, x.1, 0, 4)

/-- A violation of a command: it is recorded and freezes the queue, and no fault record of the command is written any
more (R52, R53). What a graph node's copy meets is left to `nodeStop`. -/
def State.cmdViolates (s : State) (k : Cmd) (x : Stop) (kind : Nat) : State :=
  let s := ((s.modCmd k.id fun y => { y with reports := [] }).unfile k.reports).reportViolation (s.cmdWho k) x kind
  if k.node.isSome then s.modCmd k.id fun y => { y with frozen := true } else s.freezeQueue k.part k.eng k.id

/-- A stop of an access of a command at `va`: a violation decides, also one that another of its accesses would meet
(R53); a fault is reported and holds the access (R49, R50, R250). -/
def State.cmdStop (s : State) (k : Cmd) (x : Stop) (kind va : Nat) : State :=
  if x.isViolation then s.cmdViolates k x kind
  else if x.cause = busyCause then s
  else
    match s.spansStop (s.cmdEng k) k.body.spans with
    | some y => s.cmdViolates k y.1 y.2
    | none =>
      match s.reportFault (s.cmdWho k) x kind with
      | (some r, s) => s.modCmd k.id fun y =>
        { y with reports := addReport r y.reports, parked := y.parked ++ [(r, va / 65536)] }
      | (none, s) =>
        if k.node.isSome then s.modCmd k.id fun y => { y with frozen := true }
        else s.freezeQueue k.part k.eng k.id

/-- A command that waits for reports meets a violation among what it has come to know it will access (R53). -/
def State.cmdChecked (s : State) (id : Nat) : State :=
  match s.cmds.find? fun k => k.id = id with
  | some k =>
    if k.reports.isEmpty then s
    else
      match s.spansStop (s.cmdEng k) k.body.spans with
      | some y => s.cmdViolates k y.1 y.2
      | none => s
  | none => s

/-- Whether a command still reads index words, so that what it will access is not known (R53). -/
def Cmd.reading (k : Cmd) : Bool :=
  match k.body with
  | .ladle _ _ rows _ _ => !k.frozen && rows.any fun r => !k.parkedAt r.ix
  | _ => false

/-- Whether the record of a report may be written: not while only commands wait for it that may still meet a violation
(R53). -/
def State.mayRecord (s : State) (r : Nat) : Bool :=
  !(s.cmds.any fun k => k.reports.contains r && k.reading && s.cmdRuns k)
    || ({ s with cmds := s.cmds.filter fun k => !k.reading }).reportUsed r

/-! ### Ladle -/

/-- Read the index word of a row, which becomes a run (R249). A poisoned one is a free value (DESIGN CHOICE,
log 100). -/
def State.ladleRow (s : State) (k : Cmd) (sp : Space × Space) (rows : List Row) (runs : List Run)
    (buf : List (Nat × Nat × Nat × Byte × Bool)) (i : Nat) : State :=
  match rows[i]? with
  | none => s
  | some r =>
    if k.parkedAt r.ix then s
    else
    match s.engReadN (s.cmdEng k) .global r.ix 0 4 with
    | (s, .ok (j, m)) =>
      let (s, j) := s.unpoison r.ix 4 j m
      let src := (r.src + j * r.pitch) % 2 ^ 64
      (s.modCmd k.id fun y =>
        { y with body := .ladle sp.1 sp.2 (rows.eraseIdx i)
                   (if r.len = 0 then runs else runs ++ [⟨src, r.dst, 0, r.len, r.row⟩]) buf }).cmdChecked k.id
    | (s, .stop x) => s.cmdStop k x kRead r.ix
    | (s, .busy) => s

/-- Take the `i`th byte of a list of runs out of it. -/
def takeByte : List Run → Nat → Option (Run × List Run)
  | [], _ => none
  | r :: t, i =>
    if i < r.len then
      let a : List Run := if i = 0 then [] else [{ r with len := i }]
      let b : List Run :=
        if i + 1 < r.len then [{ r with off := r.off + i + 1, len := r.len - i - 1 }] else []
      some ({ r with off := r.off + i, len := 1 }, a ++ b ++ t)
    else (takeByte t (i - r.len)).map fun x => (x.1, r :: x.2)

/-- The time that a graph node's copy has come to with a read of its walker's core: what follows the node follows its reads
as well as its writes (R259). -/
def State.readBy (s : State) (k : Cmd) : Nat := if k.node.isSome then (s.core k.core).clock else 0

/-- Read one byte of a copy into the Ladle. -/
def State.ladleRead (s : State) (k : Cmd) (sp : Space × Space) (rows : List Row) (runs : List Run)
    (buf : List (Nat × Nat × Nat × Byte × Bool)) (i : Nat) : State :=
  match takeByte runs i with
  | none => s
  | some (r, rest) =>
    let va := (r.src + r.off) % 2 ^ 64
    if k.parkedAt va then s
    else
    match s.engRead (s.cmdEng k) sp.2 r.src r.off with
    | (s, .ok (b, psn)) =>
      s.modCmd k.id fun y =>
        { y with body := .ladle sp.1 sp.2 rows rest (buf ++ [(r.dst, r.off, r.row, b, psn)]), time := max y.time (s.readBy k) }
    | (s, .stop x) => s.cmdStop k x kRead va
    | (s, .busy) => s

/-- Count a byte that a core's Ladle writes, in 64-byte units: one for every 64 of its bytes (R369). -/
def State.ladleCount (s : State) (core : Nat) : State :=
  let n := (s.core core).ladle + 1
  (s.modCore core fun c => { c with ladle := n % 64 }).count core 11 (n / 64)

/-- Whether `n` bytes from an address up, of a row with number `row`, may reach a byte that a later row writes at `a`:
bytes of one page offset may be one byte. -/
def meetsEarlier (a later row at' n : Nat) : Bool := row < later && (a + 65536 - at' % 65536) % 65536 < n

/-- Whether a byte that the Ladle has read has to wait for an earlier row, which may write the same byte: the higher
row's byte then stands (R249). -/
def rowWaits (rows : List Row) (runs : List Run) (buf : List (Nat × Nat × Nat × Byte × Bool)) (a row : Nat) : Bool :=
  row ≠ 0 && ((rows.any fun r => meetsEarlier a row r.row r.dst r.len)
    || (runs.any fun r => meetsEarlier a row r.row (r.dst + r.off) r.len)
    || buf.any fun x => meetsEarlier a row x.2.2.1 (x.1 + x.2.1) 1)

/-- Write one byte that the Ladle has read. -/
def State.ladleWrite (s : State) (k : Cmd) (sp : Space × Space) (rows : List Row) (runs : List Run)
    (buf : List (Nat × Nat × Nat × Byte × Bool)) (i : Nat) : State :=
  match buf[i]? with
  | none => s
  | some (dst, off, row, b, psn) =>
    let va := (dst + off) % 2 ^ 64
    if rowWaits rows runs buf (dst + off) row || k.parkedAt va then s
    else
      match s.engWrite (s.cmdEng k) sp.1 dst off 1 b.toNat (b2n psn) with
      | (s, .ok t) =>
        (s.ladleCount k.core).modCmd k.id fun y =>
          { y with body := .ladle sp.1 sp.2 rows runs (buf.eraseIdx i), time := max y.time t }
      | (s, .stop x) => s.cmdStop k x kWrite va
      | (s, .busy) => s

/-! ### Gather path -/

/-- Read one element of a gather: its words are fixed (R124). -/
def State.gatherOne (s : State) (k : Cmd) (stash : Bool) (sz : Sz) (els : List (Nat × Nat × Nat))
    (i : Nat) : State :=
  match els[i]? with
  | none => s
  | some (_, ea, g) =>
    let sp := if stash then Space.stash else .global
    let links := ((s.engPa (s.cmdEng k) sp kRead ea).map fun pa => linksOf (dieOf k.core) pa).getD []
    if k.parkedAt ea || k.parkedAt (ea + Sz.bytes sz - 1) then s
    else
    match s.engReadN (s.cmdEng k) sp ea 0 (Sz.bytes sz) with
    | (s, .ok (v, m)) =>
      ((s.fixGroup g (resultWords
        { kind := .load, sp := .global, ea := ea, n := Sz.bytes sz, sz := sz } v m)).modGroup g fun d =>
          { d with links := links }).modCmd k.id fun y => { y with body := .gather stash sz (els.eraseIdx i) }
    | (s, .stop x) => s.cmdStop k x kRead ea
    | (s, .busy) => s

/-- Write one byte of a scatter (R124). Of the lanes that reach one byte, through whatever pages, only the highest one's
is written: a byte waits for those of higher lanes that may be the same one, and falls away when one was. -/
def State.scatterOne (s : State) (k : Cmd) (stash : Bool) (els : List (Nat × Byte × Bool)) (wrote : List Nat) (i : Nat) :
    State :=
  match els[i]? with
  | none => s
  | some (ea, b, psn) =>
    let sp := if stash then Space.stash else .global
    let pa := s.engPa (s.cmdEng k) sp kWrite ea
    let took (s : State) (t : Nat) : State := s.modCmd k.id fun y =>
      { y with body := .scatter stash (els.eraseIdx i) (wrote ++ pa.toList), time := max y.time t }
    if k.parkedAt ea || (els.drop (i + 1)).any fun x => x.1 % 65536 = ea % 65536 then s
    else if pa.any wrote.contains then took s 0
    else
      match s.engWrite (s.cmdEng k) sp ea 0 1 b.toNat (b2n psn) with
      | (s, .ok t) => took s t
      | (s, .stop x) => s.cmdStop k x kWrite ea
      | (s, .busy) => s

/-- Write one word of a Runner segment (R306). -/
def State.tcutOne (s : State) (k : Cmd) (stash : Bool) (ws : List (Nat × Nat)) (i : Nat) : State :=
  match ws[i]? with
  | none => s
  | some (ea, v) =>
    if k.parkedAt ea then s
    else
    match s.engWrite (s.cmdEng k) (if stash then .stash else .global) ea 0 4 v 0 with
    | (s, .ok t) => s.modCmd k.id fun y => { y with body := .tcut stash (ws.eraseIdx i), time := max y.time t }
    | (s, .stop x) => s.cmdStop k x kWrite ea
    | (s, .busy) => s

/-! ### Progress -/

/-- The pieces that a command has left: how many index words, reads, and writes. -/
def CmdBody.left : CmdBody → Nat × Nat × Nat
  | .ladle _ _ rows runs buf => (rows.length, (runs.map (·.len)).foldl (· + ·) 0, buf.length)
  | .gather _ _ els => (0, els.length, 0)
  | .scatter _ els _ => (0, 0, els.length)
  | .tcut _ ws => (0, 0, ws.length)

/-- Whether nothing is left. -/
def CmdBody.done (b : CmdBody) : Bool := b.left = (0, 0, 0)

/-- Carry out one piece of a command: of kind 0 an index word, 1 a read, 2 a write, the `i`th one that
is left. -/
def State.cmdPiece (s : State) (id kind i : Nat) : State :=
  match s.cmds.find? fun k => k.id = id with
  | none => s
  | some k =>
    if !s.cmdRuns k then s
    else
      match k.body, kind with
      | .ladle d x rows runs buf, 0 => s.ladleRow k (d, x) rows runs buf i
      | .ladle d x rows runs buf, 1 => s.ladleRead k (d, x) rows runs buf i
      | .ladle d x rows runs buf, _ => s.ladleWrite k (d, x) rows runs buf i
      | .gather st sz els, _ => (s.gatherOne k st sz els i).noteFar s k.part k.op
      | .scatter st els wrote, _ => (s.scatterOne k st els wrote i).noteFar s k.part k.op
      | .tcut st ws, _ => s.tcutOne k st ws i

/-- The early move of one piece, which the agenda may name at any time (R95, R96). -/
def State.enginePiece (s : State) (id k : Nat) : State := s.cmdPiece id (k % 3) (k / 3)

/-- How many pieces of a kind a command has left: index words, reads, or writes. -/
def State.piecesLeft (s : State) (id kind : Nat) : Nat :=
  match s.cmds.find? fun k => k.id = id with
  | none => 0
  | some k =>
    let x := k.body.left
    match kind with
    | 0 => x.1
    | 1 => x.2.1
    | _ => x.2.2

/-- Carry out every piece of one kind that can be done now, the first first: a piece that has to wait is passed
over, and one that is done makes room for the next. -/
def State.cmdSweep (s : State) (id kind : Nat) : State :=
  ((List.range (s.piecesLeft id kind)).foldl (fun (r : State × Nat) _ =>
    let t := r.1.cmdPiece id kind r.2
    (t, if t.piecesLeft id kind < r.1.piecesLeft id kind then r.2 else r.2 + 1)) (s, 0)).1

/-- Carry out the bytes of a scatter that can be written now, the highest lane's first. -/
def State.scatterSweep (s : State) (id : Nat) : State :=
  (List.range (s.piecesLeft id 2)).foldr (fun i s => s.cmdPiece id 2 i) s

/-- Carry out whatever is left of a command. -/
def State.cmdRun (s : State) (id : Nat) : State :=
  match (s.cmds.find? fun k => k.id = id).map Cmd.body with
  | some (CmdBody.scatter ..) => s.scatterSweep id
  | _ => ((s.cmdSweep id 0).cmdSweep id 1).cmdSweep id 2

/-- The command no longer exists. -/
def State.dropCmd (s : State) (id : Nat) : State := { s with cmds := s.cmds.filter fun k => k.id ≠ id }

/-- The arrival at a barrier that a completing command makes is counted at its completion (R251). -/
def State.cmdBarrier (s : State) (k : Cmd) : State :=
  match k.bar with
  | none => s
  | some b =>
    s.arrive { cl := b.cl, blk := blockOf (teamOf k.part), ix := b.ix.val, part := k.part, lanes := []
               helpers := [], holds := false, res := [], init := none
               cmdTime := some (s.core k.core).clock, pend := k.pend }

/-- Complete a command (R99, R246, R251): its place follows its writes under a release flag. -/
def State.cmdComplete (s : State) (k : Cmd) : State :=
  let s := if isRel k.ord then s.raiseClock k.core k.time else s
  ((s.dropCmd k.id).cmdBarrier k).arriveOp k.part k.op

/-- A LIVE barrier that a posted command will arrive at stays open for it (R237, R248). -/
def State.pendBar (s : State) (t : Nat) (b : Option BarRef) : State :=
  match b with
  | none => s
  | some b =>
    let k := barKey t b
    let x := s.bar k
    if x.count then s else s.setBar k { x with pend := x.pend + 1, exp := x.exp + 1 }

/-- Add a part's command, whose operation is in flight (R94, R102). -/
def State.addCmd (s : State) (c : Ctx) (eng : Path) (op : Nat) (lanes : List Nat) (ord : Ord) (sco : Scope)
    (bar : Option BarRef) (ca : Cache) (body : CmdBody) : State :=
  let (id, s) := s.takeId
  let x : Cmd := { id := id, eng := eng, core := s.coreOf c.p, part := c.p, lanes := lanes, op := op
                   ord := ord, sco := sco, bar := bar, ca := ca, body := body
                   pend := bar.any fun b => !(s.bar (barKey c.t b)).count
                   frozen := (s.part c.p).frozenQ.contains eng }
  ({ s with cmds := s.cmds ++ [x] }).pendBar c.t bar

/-- Post a command for a part (R94, R102). -/
def State.postCmd (s : State) (c : Ctx) (eng : Path) (lanes : List Nat) (ord : Ord) (sco : Scope)
    (bar : Option BarRef) (ca : Cache) (body : CmdBody) : State :=
  let (op, s) := s.raiseOp c.p eng
  s.addCmd c eng op lanes ord sco bar ca body

/-- A command with nothing to do completes at issue (R248, R249). -/
def State.settleEmpty (s : State) : State :=
  match s.cmds.getLast? with
  | some k => if k.body.done && !k.frozen && k.eng = .l then s.cmdComplete k else s
  | none => s

/-! ## The instructions -/

/-- The length of a `cpy` (R248). -/
def State.cpyLen (s : State) (t l : Nat) : LenOp → Nat
  | .imm n => n.toNat
  | .reg r => s.rd 4 t l r

/-- `cpy` (R248). -/
def execCpy (h : Hdr) (d a : Reg) (len : LenOp) (o : CpyOps) (s : State) :
    Host.Outcome State Fault Refusal :=
  issue (.cpy h d a len o) s fun c s =>
    match s.poster c with
    | none => s
    | some l =>
      let n := s.cpyLen c.t l len
      let run : Run := ⟨s.rd64 2 c.t l a, s.rd64 0 c.t l d, 0, n, 0⟩
      (s.postCmd c .l [l] o.ord o.sco o.bar o.ca
        (.ladle o.dsp o.ssp [] (if n = 0 then [] else [run]) [])).settleEmpty

/-- The rows of a `cpyg` (R249): a byte of a row waits for earlier rows that may write it (DEDUCED, log 24). -/
def cpygRows (src ixb dst r ps pd rowb : Nat) (ix : Bool) : List Row × List Run :=
  if ix then
    ((List.range r).map fun i => ⟨(ixb + 4 * i) % 2 ^ 64, src, ps, (dst + i * pd) % 2 ^ 64, rowb, i⟩, [])
  else if rowb = 0 then ([], [])
  else
    ([], (List.range r).map fun i => ⟨(src + i * ps) % 2 ^ 64, (dst + i * pd) % 2 ^ 64, 0, rowb, i⟩)

/-- `cpyg` (R249). -/
def execCpyg (h : Hdr) (d a : Reg) (rowb : BitVec 32) (ix : Bool) (o : CpyOps) (s : State) :
    Host.Outcome State Fault Refusal :=
  issue (.cpyg h d a rowb ix o) s fun c s =>
    match s.poster c with
    | none => s
    | some l =>
      let ixb := s.rd64 4 c.t l (a.val + 2)
      if ix && ixb % 4 ≠ 0 then s.raise c 4 0
      else
        let x := cpygRows (s.rd64 2 c.t l a) ixb (s.rd64 0 c.t l d) (s.rd 6 c.t l (a.val + 4))
          (s.rd 7 c.t l (a.val + 5)) (s.rd 8 c.t l (a.val + 6)) rowb.toNat ix
        (s.postCmd c .l [l] o.ord o.sco o.bar o.ca (.ladle o.dsp o.ssp x.1 x.2 [])).settleEmpty

/-- The width of an index in bits (R123). -/
def ixWidth : IxW → Nat
  | .ix8 => 8
  | .ix16 => 16
  | .ix32 => 32
  | .ix64 => 64

/-- The factor of a scale (R123, R172). -/
def scaleFactor : Scale → Nat
  | .s1 => 1
  | .s2 => 2
  | .s4 => 4
  | .s8 => 8
  | .s16 => 16

/-- The element address of a lane of a gather or scatter (R124). -/
def State.elemAddr (s : State) (c : Ctx) (a b : Reg) (iw : IxW) (ixs : Bool) (scl : Scale) (l : Nat) :
    Nat :=
  let base := match c.ga.head? with
    | some x => s.rd64 0 c.t x a
    | none => 0
  let v := if iw = .ix64 then s.rd64 2 c.t l b else s.rd 2 c.t l b
  let w := ixWidth iw
  let i : Int := if ixs then sint w v else ((v % 2 ^ w : Nat) : Int)
  wrap 64 ((base : Int) + i * (scaleFactor scl : Int))

/-- The addresses of all posting lanes, and whether one is misaligned. -/
def State.elems (s : State) (c : Ctx) (a b : Reg) (iw : IxW) (ixs : Bool) (scl : Scale) :
    List (Nat × Nat) :=
  (s.owns c).map fun l => (l, s.elemAddr c a b iw ixs scl l)

/-- `ldg` (R124). -/
def execLdg (h : Hdr) (d a b : Reg) (sco : Scope) (sz : Sz) (iw : IxW) (ixs : Bool) (scl : Scale)
    (stash : Bool) (ord : Ord) (s : State) : Host.Outcome State Fault Refusal :=
  issueMem (.ldg h d a b sco sz iw ixs scl stash ord) s
    (fun c s => countSectors ((s.elems c a b iw ixs scl).map fun x => (x.2, Sz.bytes sz)))
    fun c s0 =>
      let els := s0.elems c a b iw ixs scl
      if els.isEmpty then s0
      else if els.any fun x => x.2 % Sz.bytes sz ≠ 0 then s0.raise c 4 0
      else
        let (op, s1) := s0.raiseOp c.p .x
        let r := els.foldl (fun (r : State × List (Nat × Nat × Nat)) x =>
          let (g, s) := r.1.postWords c.t x.1 (szRegs sz d) none op
          (s, r.2 ++ [(x.1, x.2, g)])) (s1, [])
        r.1.addCmd c .x op (els.map (·.1)) ord sco none .keep (.gather stash sz r.2)

/-- The bytes that a scatter writes: where lanes write the same byte, the highest lane's (R124). -/
def scatterBytes (ws : List (Nat × Byte × Bool)) : List (Nat × Byte × Bool) :=
  ws.foldl (fun l x => (l.filter fun y => y.1 ≠ x.1) ++ [x]) []

/-- `stg` (R124). -/
def execStg (h : Hdr) (d a b : Reg) (sco : Scope) (sz : Sz) (iw : IxW) (ixs : Bool) (scl : Scale)
    (stash : Bool) (ord : Ord) (s : State) : Host.Outcome State Fault Refusal :=
  issueMem (.stg h d a b sco sz iw ixs scl stash ord) s
    (fun c s => countSectors ((s.elems c a b iw ixs scl).map fun x => (x.2, Sz.bytes sz)))
    fun c s =>
      let els := s.elems c a b iw ixs scl
      if els.isEmpty then s
      else if els.any fun x => x.2 % Sz.bytes sz ≠ 0 then s.raise c 4 0
      else
        let bytes := els.flatMap fun x =>
          let v := s.rdWords 8 c.t x.1 d (szRegs sz d).length
          (List.range (Sz.bytes sz)).map fun i => (x.2 + i, byteOf v i, false)
        s.postCmd c .x (els.map (·.1)) ord sco none .keep (.scatter stash (scatterBytes bytes) [])

end Sys2Proof.Machine
end

