-- ==== Sys2Proof/Machine/Width.lean ====
section
/-! DEFINITION. Team width: parts, `split`, `fuse` and `fuset` (R211 to R218), and the retirement of a
part (R189, R271). -/

namespace Sys2Proof.Machine

/-! ## Contexts and siblings -/

/-- The parts that hold a sequencer context of a core: those of resident clusters that have not
retired (R212). -/
def State.corePartIds (s : State) (core : Nat) : List Nat :=
  (s.parts.filter fun x =>
    (x.2.life = .live || x.2.life = .suspended || x.2.life = .frozen)
      && s.coreOf x.1 = core && s.resident x.1).map (·.1)

/-- The lowest free sequencer context of a core, of 256 (R212). -/
def State.freeCtx (s : State) (core : Nat) : Nat :=
  let used := (s.corePartIds core).map fun p => (s.part p).ctx
  ((List.range 256).find? fun c => !used.contains c).getD 0

/-- The sibling of a part: the one with exactly the range `a xor w` (R216). -/
def State.sibling (s : State) (p : Nat) : Option Nat :=
  let x := s.part p
  let q := teamOf p * 1024 + (x.lo ^^^ x.width)
  let y := s.part q
  if x.width < (s.team (teamOf p)).width && y.life ≠ .absent && y.width = x.width then some q else none

/-- An entry that binds an unbound tag (R271). -/
def TBody.binds : TBody → Bool
  | .mma .. | .acz .. | .acldMem .. | .acldReg .. => true
  | _ => false

/-- Whether a tag of a part counts as bound for `split` and `fuse` (R271). -/
def State.tagHeld (s : State) (p : Nat) : Bool :=
  !(s.part p).tags.isEmpty || s.tundish.any fun e => e.part = p && e.body.binds

/-- Whether a `tcut` of a part has not completed (R294, R309). -/
def State.cutting (s : State) (p : Nat) : Bool := s.cmds.any fun k => k.part = p && k.eng = .t && k.node.isNone

/-- Whether a traversal of a part is in flight on the Runner (R215, R294). -/
def State.travHeld (s : State) (p : Nat) : Bool :=
  ((s.partLanes p).any fun l => (s.lane (laneId (teamOf p) l)).inTrav) || s.cutting p

/-! ## Slots -/

/-- The key of an accumulator slot. -/
def slotKey (core slot : Nat) : Nat := core * 64 + slot

/-- Return the slots of a binding to their free lists: +0 words and clear flags (R270, R271). -/
def State.freeSlots (s : State) (b : TagBind) : State :=
  let s1 := { s with slots := s.slots.set {} (slotKey b.core b.slot) {} }
  if b.paired then { s1 with slots := s1.slots.set {} (slotKey (b.core ^^^ 1) b.slot2) {} } else s1

/-- Unbind a tag of a part (R271). -/
def State.unbind (s : State) (p tag : Nat) : State :=
  match (s.part p).tags.find? fun x => x.1 = tag with
  | none => s
  | some x => (s.freeSlots x.2).modPart p fun y => { y with tags := y.tags.filter fun z => z.1 ≠ tag }

/-- Release the tags of a retired part on which no entry is left in the Tundish (R271, R293). -/
def State.freeTags (s : State) (p : Nat) : State :=
  (s.part p).tags.foldl (fun (s : State) x =>
    if s.tundish.any fun e => e.part = p && (e.tag = x.1 || (match e.body with
        | .acrelAll ts _ => ts.contains x.1
        | _ => false)) then s
    else s.unbind p x.1) s

/-! ## Releasing a part that waits at `fuse`, and retiring -/

/-- Give a part that waits at `fuse` its code, and let it go on after the instruction (R217). -/
def State.releaseFuse (s : State) (p code : Nat) : State :=
  match (s.part p).fuse with
  | none => s
  | some f =>
    let t := teamOf p
    let s := eachLane f.lanes (fun l s => s.wr t l f.dest code) s
    let off := (s.part p).off
    (s.modPart p fun x => { x with fuse := none, wait := .none }).advance p (off + 8)

/-- Retire a part (R189): its context is freed, its slots return, and a sibling that waits at `fuse`
gets code 1 (R217). -/
def State.retirePart (s : State) (p : Nat) : State :=
  let s1 := (s.modPart p fun x =>
    { x with life := .retired, wait := .none, trav := none, fuse := none }).freeTags p
  match s1.sibling p with
  | some q => s1.releaseFuse q 1
  | none => s1

/-! ## `split` -/

/-- The status of a `split` (R215). -/
def State.splitCode (s : State) (p n : Nat) : Nat :=
  if (s.part p).width / 2 ^ n < 4 then 1
  else if s.tagHeld p then 2
  else if s.travHeld p then 3
  else if 256 < (s.corePartIds (s.coreOf p)).length + (2 ^ n - 1) then 4
  else 0

/-- One new part of a `split`: it goes on after the instruction, or serves its next label; a part of
vacant lanes only retires at once (R215, R149). -/
def State.splitOne (s : State) (x : Part) (t lo w next : Nat) (first : Bool) : State :=
  let q := t * 1024 + lo
  let ctx := if first then x.ctx else s.freeCtx (s.team t).core
  let s := s.setPart q { x with lo := lo, width := w, ctx := ctx, passed := 0 }
  if (s.partLanes q).all fun l => (s.lane (laneId t l)).kind = .vacant then s.retirePart q
  else s.advance q next

/-- Divide a part (R215): a sibling that waits at `fuse` gets code 3 (R217). -/
def State.splitPart (s : State) (p n next : Nat) : State :=
  let s := match s.sibling p with
    | some q => s.releaseFuse q 3
    | none => s
  let x := s.part p
  let w := x.width / 2 ^ n
  (List.range (2 ^ n)).foldl (fun s j => s.splitOne x (teamOf p) (x.lo + j * w) w next (j = 0)) s

/-- `split` (R215). -/
def execSplit (h : Hdr) (d : Reg) (n : Fin 16) (s : State) : Host.Outcome State Fault Refusal :=
  issueRaw (.split h d n) s fun c s =>
    if c.ga.isEmpty then s.finish c.p
    else
      let code := s.splitCode c.p n.val
      let s := s.status c d.val code
      if code = 0 then s.splitPart c.p n.val s.issue.next else s.finish c.p

/-! ## `fuse` and `fuset` -/

/-- Join two sibling parts into one (R218). The counters of both are 0 and no tag is bound. A part that waits at `fuse` and
that class 12 has suspended still meets its sibling, and the joined part runs: the trap is over with its wait, and its
token names nothing any more (DEDUCED, log 108). Of the two contexts the one with the higher number is freed (DESIGN
CHOICE, log 115). -/
def State.join (s : State) (p q label : Nat) (lp lq : List Nat) : State :=
  let t := teamOf p
  let x := s.part p
  let y := s.part q
  let s := eachLane (lp ++ lq) (fun l s => s.modLane (laneId t l) fun z => { z with wl := label }) s
  let a := min x.lo y.lo
  let lo := t * 1024 + a
  let s := ((s.setPart p {}).setPart q {}).setPart lo
    { x with lo := a, width := 2 * x.width, ctx := min x.ctx y.ctx, cur := min x.cur y.cur
             sweeps := max x.sweeps y.sweeps, wait := .none, fuse := none, ops := [], tags := []
             passed := 0 }
  let s := eachLane (s.partLanes lo) (fun l s => s.modLane (laneId t l) fun z =>
    { z with departed := false }) s
  s.censusNext lo (min x.cur y.cur)

/-- The code that two siblings get when both have arrived (R217). -/
def State.meetCode (s : State) (p q label label' : Nat) : Nat :=
  if label ≠ label' then 2
  else if s.tagHeld p || s.tagHeld q || s.travHeld p || s.travHeld q then 5
  else 0

/-- Two siblings meet at `fuse` (R217): they join, or both get a code and go on. -/
def State.meet (s : State) (c : Ctx) (d label q : Nat) (f : FuseWait) : State :=
  let code := s.meetCode c.p q label f.label
  let s := s.status c d code
  if code = 0 then
    let s := eachLane f.lanes (fun l s => s.wr c.t l f.dest 0) s
    s.join c.p q label c.ga f.lanes
  else (s.releaseFuse q code).finish c.p

/-- `fuse` and `fuset`, which differ in what happens while the sibling has not arrived (R217) (DEDUCED, log
62). -/
def fuseWith (i : Instr) (d label : Nat) (s : State) (absent : Ctx → State → State) :
    Host.Outcome State Fault Refusal :=
  issueRaw i s fun c s =>
    let code (k : Nat) : State := (s.status c d k).finish c.p
    if c.ga.isEmpty then s.finish c.p
    else if (s.part c.p).width = 1024 then code 4
    else
      match s.sibling c.p with
      | none => code 3
      | some q =>
        if (s.part q).life = .retired then code 1
        else
          match (s.part q).fuse with
          | some f => s.meet c d label q f
          | none => absent c s

/-- `fuse` (R217). -/
def execFuse (h : Hdr) (d : Reg) (l : Lbl) (s : State) : Host.Outcome State Fault Refusal :=
  fuseWith (.fuse h d l) d.val l.val s fun c s =>
    s.modPart c.p fun x =>
      { x with wait := .fuse, fuse := some { label := l.val, dest := d.val, lanes := c.ga } }

/-- `fuset` (R217). -/
def execFuset (h : Hdr) (d : Reg) (l : Lbl) (s : State) : Host.Outcome State Fault Refusal :=
  fuseWith (.fuset h d l) d.val l.val s fun c s => (s.status c d.val 6).finish c.p

end Sys2Proof.Machine
end

