-- ==== Sys2Proof/Machine/Graph.lean ====
section
/-! DEFINITION. Task graphs and launches: node records, arrivals and completion words, what a launch
reads before it starts, and how one ends (R12, R13, R36, R254 to R264, R348, R383). -/

namespace Sys2Proof.Machine

/-! ## Node records (R257) -/

def nKind (r : Nat) : Nat := bits r 0 4
def nPro (r : Nat) : Bool := bit r 4
def nPred (r : Nat) : Nat := bits r 8 8
def nSucc0 (r : Nat) : Nat := bits r 16 12
def nSucc1 (r : Nat) : Nat := bits r 28 12
def nReg (r : Nat) : Nat := bits r 40 4
def nBound (r : Nat) : Nat := bits r 48 16
def nOpa (r : Nat) : Nat := bits r 64 64
def nOpb (r : Nat) : Nat := bits r 128 64
def nOpc (r : Nat) : Nat := bits r 192 64
def nClus (r : Nat) : Nat := bits r 256 32
def nGeom (r : Nat) : Nat := bits r 288 32
def nRegs (r : Nat) : Nat := bits r 320 64

/-- Whether a node record makes its graph bad, in a graph of `n` nodes (R257). Its reserved bits are the fields that the
table names so; one that the table calls 0 for some kinds or in part is not looked at there (DEDUCED, log 103). -/
def nodeBad (n r : Nat) : Bool :=
  6 < nKind r || bits r 5 3 ≠ 0 || bits r 44 4 ≠ 0 || bits r 384 128 ≠ 0 || 8 < nReg r
    || (n ≤ nSucc0 r && nSucc0 r ≠ 0xFFF) || (n ≤ nSucc1 r && nSucc1 r ≠ 0xFFF)
    || (nKind r = 3 && nPred r ≠ 1)

/-- Whether a graph is bad (R256, R257). -/
def graphBad (n : Nat) (rs : List Nat) : Bool :=
  n = 0 || 4095 < n || rs.any (nodeBad n) || rs.all fun r => nPred r ≠ 0

namespace State

def node (s : State) (g n : Nat) : Node := (s.queue g).nodes.get {} n
def setNode (s : State) (g n : Nat) (x : Node) : State :=
  s.modQueue g fun q => { q with nodes := q.nodes.set {} n x }
def modNode (s : State) (g n : Nat) (f : Node → Node) : State := s.setNode g n (f (s.node g n))

end State

/-! ## Completion -/

/-- Whether nothing of a graph is running and nothing more will start (R258). -/
def Queue.quiet (q : Queue) : Bool :=
  q.nodes.all fun x => x.2.st = .idle
    || (q.status ≠ 0 && (x.2.st = .eligible || x.2.st = .entered))

/-- The submission of a queue is over. -/
def State.endRun (s : State) (g : Nat) : State :=
  s.modQueue g fun q => { q with run := none, nodes := [], status := 0, closing := false }

/-- Write a completion word: `none` when it is still to be written, with the report that it waits on. A
violation is recorded and leaves the word unwritten (DEDUCED, log 21). -/
def State.writeDone (s : State) (w : Who) (addr data : Nat) (again : Instr) : Option State × State :=
  match s.agentWrite w addr 8 data with
  | (s, .ok _) => (some s, s)
  | (s, .busy) => (none, s.await 0 (.event again))
  | (s, .stop x) =>
    if x.isViolation then
      let s := s.reportViolation w x kWrite
      (some s, s)
    else
      match s.reportFault w x kWrite with
      | (some r, s) => (none, s.await r (.event again))
      | (none, s) => (some s, s)

/-- GRAPH_COMPLETE (R256): the completion word receives DVAL and the status. -/
def State.graphComplete (s : State) (g : Nat) : State :=
  match (s.queue g).run with
  | none => s
  | some (_, _, done, dval) =>
    if done = 0 then s.endRun g
    else
      let q := s.queue g
      match (s.raiseClock (q.die * 64) q.time).writeDone (s.walkerWho g) done (dval + (s.queue g).status * 2 ^ 32)
        (.nodeFinish g 0xFFFF) with
      | (some s, _) => s.endRun g
      | (none, s) => s.modQueue g fun q => { q with closing := true }

/-- Whether a node's prologue has retired, so that none of its accesses is still to come (R259). -/
def State.prologueDone (s : State) (x : Node) : Bool := (s.launch x.prologue).st = .absent

/-- Complete a graph when nothing is left (R258). -/
def State.checkGraph (s : State) (g : Nat) : State :=
  let q := s.queue g
  if q.run.isSome && !q.closing && q.quiet && q.nodes.all (fun x => s.prologueDone x.2) then s.graphComplete g else s

/-- A node has done its work, by a time; NODE_FINISH sends its arrivals. -/
def State.nodeDone (s : State) (g n time : Nat) : State :=
  (s.modNode g n fun x => { x with st := .done, time := max x.time time }).modQueue g fun q =>
    { q with time := max q.time time }

/-- One arrival at a node (R258, R259): it becomes eligible when its count reaches NPRED. -/
def State.arriveNode (s : State) (g n time : Nat) : State :=
  if n = 0xFFF then s
  else
    let (turn, s) := s.takeId
    s.modNode g n fun x =>
      let a := x.arr + 1
      let y : Node := { x with arr := a, time := max x.time time }
      if x.st = .idle && a = nPred x.raw then { y with st := .eligible, turn := turn } else y

/-- Whether two lists of regions overlap with a write in at least one of them (R261). -/
def regionsClash (a b : List (Nat × Nat × Bool)) : Bool :=
  a.any fun x => b.any fun y =>
    (x.2.2 || y.2.2) && x.2.1 ≠ 0 && y.2.1 ≠ 0 && x.1 < y.1 + y.2.1 && y.1 < x.1 + x.2.1

/-- The nodes that a die's dependence unit holds for a function: queue, node, and its state (R260). -/
def State.unit (s : State) (vf d : Nat) : List (Nat × Nat × Node) :=
  (s.queues.filter fun q => q.1 / 256 = vf && q.2.die = d).flatMap fun q =>
    (q.2.nodes.filter fun x => x.2.entry ≠ 0).map fun x => (q.1, x.1, x.2)

/-- A finished node's accesses precede those of the nodes that waited for its regions (R261) (DEDUCED, log
27). -/
def State.passTime (s : State) (g : Nat) (x : Node) : State :=
  (s.unit (g / 256) (s.queue g).die).foldl (fun (s : State) y =>
    if regionsClash x.regions y.2.2.regions && x.entry < y.2.2.entry then
      s.modNode y.1 y.2.1 fun z => { z with time := max z.time x.time }
    else s) s

/-- A node fails, with the time that its accesses end by: its status is recorded unless one was, no further node starts,
and the graph completes once nothing is running (R258). It leaves the dependence unit as a finished node does (R261). -/
def State.failNode (s : State) (g n status : Nat) (time : Nat := 0) : State :=
  let x := s.node g n
  let x := { x with time := max x.time time }
  let s := s.setNode g n { x with st := .idle, entry := 0, regions := [], launch := 0 }
  let s := if x.entry = 0 then s else s.passTime g x
  (s.modQueue g fun q => { q with status := if q.status = 0 then status else q.status
                                  time := max q.time x.time }).checkGraph g

/-- A prologue has retired, or has been stopped after its lane's exit, and its accesses have ended by a time: its node's
follow it (R259), and the graph takes its failure (R262) (DEDUCED, log 28). -/
def State.prologueGone (s : State) (l time : Nat) (status : Nat := 0) : State :=
  match s.queues.findSome? fun q => (q.2.nodes.find? fun x => x.2.prologue = l).map fun x => (q.1, x.1) with
  | some (g, n) =>
    ((s.modNode g n fun x => { x with prologue := 0, time := max x.time time }).modQueue g fun q =>
      { q with time := max q.time time, status := if q.status = 0 then status else q.status }).checkGraph g
  | none => s

/-- Record a launch start or end in the trace of its die (R370): kinds 1 and 2. A prologue's and a boot layer's are
recorded as well (DESIGN CHOICE, log 79). -/
def State.traceLaunch (s : State) (l kind data : Nat) : State :=
  let x := s.launch l
  if bit (s.die x.die).trctl 3 then s.trace (x.die * 64) 0 x.vf kind x.q l data else s

/-- Start the launch of a kernel node, after a prologue where the record asks for one (R258, R262). Its runs, which
`plrep` holds against BOUND, count on over the whole graph, also when a loop starts the node again (R263) (DEDUCED,
log 105). -/
def State.startKernel (s : State) (g n : Nat) : State :=
  let q := s.queue g
  let r := (s.node g n).raw
  let (l, s) := s.takeId
  let base : Launch :=
    { st := .reading, vf := g / 256, spid := q.spid, image := nOpa r, paramAt := nOpb r
      clus := nClus r, blk := bits (nGeom r) 0 16, bpc := bits (nGeom r) 16 4, pri := q.pri
      q := g % 256, die := q.die, order := l, tout := q.tout, node := some (g, n)
      time := (s.node g n).time }
  let s := s.setLaunch l base
  let (p, s) := if nPro r then
      let (p, s) := s.takeId
      let pro : Launch :=
        { base with image := nOpc r, level := .s, prologue := true, order := p, clus := 1 }
      (p, s.setLaunch p pro)
    else (0, s)
  s.modNode g n fun x =>
    { x with st := .running, arr := 0, runs := x.runs + 1, again := false, cancel := false
             bad := false, launch := l, prologue := p }

/-- NODE_FINISH (R258, R261, R263): the node leaves the dependence unit and sends its arrivals, or runs once more; a graph
with nothing left completes. -/
def State.finishNode (s : State) (g n : Nat) : State :=
  let x := s.node g n
  if (s.queue g).closing then s.graphComplete g
  else if x.st ≠ .done || !s.prologueDone x then s
  else if x.again then s.startKernel g n
  else
    let st : NState := if nPred x.raw ≠ 0 && nPred x.raw ≤ x.arr then .eligible else .idle
    let (turn, s) := s.takeId
    let s := s.setNode g n { x with st := st, turn := turn, entry := 0, regions := [], out := 0
                                    launch := 0, prologue := 0 }
    let s := s.passTime g x
    let s := if x.out ≠ 2 then s.arriveNode g (nSucc0 x.raw) x.time else s
    let s := if x.out ≠ 1 then s.arriveNode g (nSucc1 x.raw) x.time else s
    s.checkGraph g

/-! ## Images (R12, R13, R348) -/

/-- A log2 field of the header: its value from 2 to 10. -/
def lgOk (x : Nat) : Bool := 2 ≤ x && x ≤ 10

/-- Whether a header keeps every rule of R12, R185 and R348. -/
def headerOk (h : Nat) : Bool :=
  let f (lo w : Nat) : Nat := bits h lo w
  f 0 32 = 0x485A4E33 && (f 32 16 = 3 || (f 32 16 = 2 && bit h 48))
    && f 51 13 = 0 && lgOk (f 64 8) && (f 72 8 = 0 || lgOk (f 72 8))
    && 1 ≤ f 80 8 && f 80 8 ≤ 32 && f 88 8 = 0 && 4 ≤ f 96 16 && f 96 16 ≤ 32768
    && 1 ≤ f 112 8 && f 112 8 ≤ 8 && f 120 8 = 0 && f 128 32 % 256 = 0 && f 128 32 ≤ 2 ^ 21
    && 1 ≤ f 160 16 && f 160 16 ≤ 4094 && f 176 16 = 0 && f 192 32 ≠ 0 && f 192 32 % 16 = 0
    && f 224 32 = 64 && (bit h 50 == decide (f 256 32 ≠ 0)) && f 288 32 ≤ 4096
    && f 320 32 % 16 = 0 && (decide (f 320 32 = 0) == decide (f 352 32 = 0))
    && (f 320 32 = 0 || f 384 32 + f 192 32 ≤ f 320 32)
    && f 384 32 = roundUp (64 + 8 * f 160 16) 16 && f 416 96 = 0

/-- Whether an entry of the label table keeps the rules of R13, for label `id` above offset `lo`. -/
def entryOk (code id : Nat) (prev : Option Nat) (e : Nat) : Bool :=
  let off := bits e 0 32
  (match prev with
    | some p => p < off
    | none => off = 0)
    && off % 16 = 0 && off < code && bits e 45 19 = 0
    && (if bit e 32 then 1 ≤ bits e 33 12 && bits e 33 12 ≤ id else bits e 33 12 = 0)

/-- Check a label table and list its entries (R13). -/
def labelTable (code : Nat) : Nat → Option Nat → List Nat → Option (List (Nat × Nat × Nat))
  | _, _, [] => some []
  | id, prev, e :: t =>
    if entryOk code id prev e then
      (labelTable code (id + 1) (some (bits e 0 32)) t).map fun l => (id, bits e 0 32, bits e 33 12) :: l
    else none

/-- The words of a number, `n` of `w` bits each. -/
def chop (w n x : Nat) : List Nat := (List.range n).map fun i => bits x (w * i) w

/-- The kept fields of a header and its label table. -/
def mkImg (h : Nat) (labels : List (Nat × Nat × Nat)) : Img :=
  { rev := bits h 32 16, lg16 := bit h 48, cent := bit h 49, pers := bit h 50, team := bits h 64 8
    width := bits h 72 8, regg := bits h 80 8, block := bits h 96 16, cluster := bits h 112 8
    stash := bits h 128 32, code := bits h 192 32, beat := bits h 256 32, param := bits h 288 32
    codeOff := bits h 384 32, dataSz := bits h 352 32, labels := labels }

/-- Bytes of a number put into a map from an offset up. -/
def putConsts (m : FMap Byte) (at' n x : Nat) : FMap Byte :=
  (List.range n).foldl (fun m i => m.set 0 (at' + i) (byteOf x i)) m

/-- Read an image and the parameters of a launch (R383). The result is `none` for a bad image. -/
def State.readImage (s : State) (w : Who) (image params : Nat) :
    State × Got (Option (Img × FMap Byte)) :=
  if image % 16 ≠ 0 then (s, .ok none)
  else
    match s.agentRead w image 64 with
    | (s, .stop x) => (s, .stop x)
    | (s, .busy) => (s, .busy)
    | (s, .ok h) =>
      if !headerOk h then (s, .ok none)
      else
        let n := bits h 160 16
        match s.agentRead w (image + 64) (8 * n) with
        | (s, .stop x) => (s, .stop x)
        | (s, .busy) => (s, .busy)
        | (s, .ok t) =>
          match labelTable (bits h 192 32) 1 none (chop 64 n t) with
          | none => (s, .ok none)
          | some ls =>
            let g := mkImg h ls
            match s.agentRead w (image + bits h 320 32) g.dataSz with
            | (s, .stop x) => (s, .stop x)
            | (s, .busy) => (s, .busy)
            | (s, .ok d) =>
              match s.agentRead w params g.param with
              | (s, .stop x) => (s, .stop x)
              | (s, .busy) => (s, .busy)
              | (s, .ok p) =>
                (s, .ok (some (g, putConsts (putConsts [] 0 g.param p) 0x10000 g.dataSz d)))

/-! ## Geometry (R136, R258, R351) -/

/-- A launch whose team runs on the Cupola: a prologue, or a boot layer's firmware or system software (R2, R262, R363). -/
def Launch.onCupola (l : Launch) : Bool := l.prologue || l.boot

/-- Placed width (R351); a prologue is one 4-lane part (R262, R353). -/
def Launch.pw (l : Launch) : Nat :=
  if l.prologue then 4
  else if l.img.width = 0 then 2 ^ l.img.team else max (2 ^ l.img.team) (2 ^ l.img.width)
/-- Starting part width (R351). -/
def Launch.qw (l : Launch) : Nat :=
  if l.prologue then 4 else if l.img.width = 0 then 2 ^ l.img.team else 2 ^ l.img.width
/-- Lanes of a block: GEOM, or the image's BLOCK. -/
def Launch.lanes (l : Launch) : Nat :=
  if l.prologue then 1 else if l.blk = 0 then l.img.block else l.blk
/-- Blocks of a cluster. -/
def Launch.blocks (l : Launch) : Nat :=
  if l.prologue then 1 else if l.bpc = 0 then l.img.cluster else l.bpc
/-- Teams of a block (R136). -/
def Launch.nteams (l : Launch) : Nat := ceilDiv l.lanes l.pw

/-- Whether the counts keep R11 and R258. -/
def Launch.geomOk (l : Launch) : Bool :=
  l.prologue
    || (l.clus ≠ 0 && 4 ≤ l.lanes && l.lanes ≤ 32768 && 1 ≤ l.blocks && l.blocks ≤ 8)

/-! ## Starting and ending launches -/


/-- Write a child's completion word (R264): 0 in [31:0] and its status above. -/
def State.childDone (s : State) (l : Nat) : State :=
  let x := s.launch l
  if x.done = 0 then s.setLaunch l {}
  else
    let w : Who := { core := x.die * 64, vf := x.vf, spid := x.spid, root := x.root, lvl := x.level
                     master := 5, launch := l }
    match (s.raiseClock w.core x.endTime).writeDone w x.done (x.status * 2 ^ 32) (.imageRead l) with
    | (some s, _) => s.setLaunch l {}
    | (none, s) => s

/-- End a launch with a status (R256, R258, R263, R264, R332): its node finishes, fails or runs once
more; a child's completion word is written. -/
def State.endLaunch (s : State) (l status : Nat) : State :=
  let s := s.traceLaunch l 2 status
  let x := s.launch l
  match x.node with
  | some (g, n) =>
    let y := s.node g n
    let s := (s.setLaunch l {}).setLaunch y.launch {}
    let s := if l = y.prologue || (s.launch y.prologue).resident = 0 then s.setLaunch y.prologue {} else s
    if status ≠ 0 then s.failNode g n status x.endTime
    else
      let s1 := s.nodeDone g n x.endTime
      if y.again && s1.prologueDone (s1.node g n) then s1.startKernel g n else s1
  | none =>
    if x.prologue then (s.setLaunch l {}).prologueGone l x.endTime status
    else (s.modLaunch l fun y => { y with st := .ended, status := status }).childDone l

end Sys2Proof.Machine
end

