-- ==== Sys2Proof/Machine/Image.lean ====
section
/-! DEFINITION. The context image of a cluster: its records and their bodies (R336, R337). The rules name what each body
holds; the places of the fields in it are the model's (DESIGN CHOICE, log 30). -/

namespace Sys2Proof.Machine

/-- A number as 16-byte words, lowest first. -/
def words16 : Nat → Nat → List Nat
  | 0, _ => []
  | n + 1, x => x % 2 ^ 128 :: words16 n (x / 2 ^ 128)

/-- What a record of an image describes (R337). -/
inductive ImgItem
  | cluster (k : Nat)
  | block (b : Nat)
  | bars (k : Nat)
  | part (p : Nat)
  | lanes (p : Nat)
  | flight (p : Nat)
  | tag (p t : Nat)
  deriving DecidableEq, Repr

/-- A frame as its 128 bits (R300). -/
def Frame.word (f : Frame) : Nat :=
  f.node % 2 ^ 56 + f.child % 16 * 2 ^ 56 + f.pend % 2 ^ 16 * 2 ^ 64 + f.cur % 16 * 2 ^ 80
    + b2n f.act * 2 ^ 84 + b2n f.lv * 2 ^ 85 + b2n f.rev * 2 ^ 86

/-- Lanes as a mask. -/
def laneBits (ls : List Nat) : Nat := ls.foldl (fun m l => m ||| 2 ^ l) 0

/-- A barrier as 192 bits (R236). -/
def Barrier.word (b : Barrier) : Nat :=
  fields [(1, b2n b.count), (20, b.exp), (20, b.arr), (32, b.ph), (16, b.pend), (64, b.ct), (20, b.low)]

/-- The sixteen barriers of a block or cluster, 384 bytes. -/
def barsWord (m : FMap Barrier) : Nat := fields ((List.range 16).map fun i => (192, (m.get {} i).word))

/-- The number of a class of path, wait or hold in an image. -/
def pathIx : Path → Nat
  | .g => 0
  | .s => 1
  | .c => 2
  | .x => 3
  | .l => 4
  | .m => 5
  | .t => 6
  | .q => 7

/-- The token of a fault report, 0 for none. -/
def State.tokenOf (s : State) (r : Nat) : Nat := ((s.reports.find? fun x => x.id = r).map (·.token)).getD 0

/-! ## Bodies -/

/-- Type 1, 32 bytes: launch id, cluster index, block count, priority and placement order. -/
def State.clusterBody (s : State) (k : Nat) : Nat :=
  let c := s.cluster k
  fields [(64, c.launch), (32, c.index), (32, c.nblk), (64, c.pri), (64, c.order)]

/-- The bytes of a block's private entries, in whole units of 16. -/
def State.privLen (s : State) (b : Nat) : Nat := roundUp ((s.block b).privSize (s.img (b * 8192)).stash) 16

/-- Type 2: lane count, STASH, the stash ranges, the private entries and the block barriers. -/
def State.blockBody (s : State) (b : Nat) : Nat :=
  let x := s.block b
  let n := s.privLen b
  let range (i : Nat) : Nat :=
    match x.ranges[i]? with
    | some r => fields [(64, r.base), (64, r.len), (64, r.win)]
    | none => 0
  fields ([(32, x.lanes), (96, (s.img (b * 8192)).stash)] ++ ((List.range 16).map fun i => (192, range i))
    ++ [(8 * n, leNat ((List.range n).map fun i => x.priv.get 0 i)), (3072, barsWord x.bars)])

/-- Type 4, 512 bytes: the part's lanes and width, its sweep state, its counters, its suspension, its wait at `fuse`
and its traversal parameters. -/
def State.partBody (s : State) (p : Nat) : Nat :=
  let x := s.part p
  let count (i : Nat) : Nat := (x.ops.filter fun o => pathIx o.path = i).length
  let susp := match x.susp with
    | some u => fields [(1, 1), (5, u.cls), (1, b2n u.frz), (16, u.token), (32, u.next), (9, u.dest), (1024, laneBits u.lanes)]
    | none => 0
  let fuse := match x.fuse with
    | some f => fields [(1, 1), (12, f.label), (9, f.dest), (1024, laneBits f.lanes)]
    | none => 0
  let trav := match x.trav with
    | some v => fields [(1, 1), (32, v.layout), (8, v.dl), (64, v.window), (8, v.vr), (12, v.ent), (12, v.lea), (12, v.prn)
                          , (12, v.don), (1, b2n v.stash), (2, v.ca.code), (2, v.ord.code), (3, v.sco.code)]
    | none => 0
  fields ([(16, x.lo), (16, x.width), (16, x.cur), (32, x.off), (32, x.sweeps)]
    ++ ((List.range 8).map fun i => (16, count i)) ++ [(1104, susp), (1104, fuse), (192, trav)])

/-- The 32 bytes of a lane beside its registers and frames: WL, departed flag, kind, hold, arrival bits, the root of its
traversal and its last kind. -/
def Lane.word (y : Lane) : Nat :=
  let hold := match y.hold with
    | none => 0
    | some .runner => 1
    | some (.barrier cl ix none) => fields [(2, 2), (1, b2n cl), (4, ix)]
    | some (.barrier cl ix (some k)) => fields [(2, 3), (1, b2n cl), (4, ix), (32, k)]
  let kind := match y.kind with
    | .own => 1
    | .helper => 2
    | .vacant => 0
  fields [(12, y.wl), (1, b2n y.departed), (2, kind), (40, hold), (32, y.arrived), (64, y.root), (1, b2n y.inTrav)
            , (8, y.lastKind), (8, y.frames.length)]

/-- The bytes of a lane in a record of type 5. -/
def State.laneLen (s : State) (t l : Nat) : Nat :=
  roundUp (33 * (s.img t).regg + 5) 16 + 32 + 16 * (s.lane (laneId t l)).frames.length

/-- One lane of type 5: its registers, v255, a poison bitmap, its own fields and its frames. -/
def State.laneBody (s : State) (t l : Nat) : Nat :=
  let n := 8 * (s.img t).regg
  let y := s.lane (laneId t l)
  let rs := List.range n ++ [255]
  fields (rs.map (fun r => (32, s.reg t l r)) ++ rs.map (fun r => (1, b2n (s.regPoison.get false (regKey t l r))))
    ++ [(8 * roundUp (33 * (s.img t).regg + 5) 16 - 33 * (n + 1), 0), (256, y.word)]
    ++ y.frames.map fun f => (128, f.word))

/-- An entry of type 6, 64 bytes: its kind and path, token, lane, order number, address, 256 bits of data, and what its
instruction asks. -/
def flightEntry (kind lane path op addr token data : Nat) (asks : Nat := 0) : Nat :=
  fields [(8, kind), (8, path), (16, token), (32, lane), (64, op), (64, addr), (256, data), (64, asks)]

/-- What the instruction of a lane's access asks (R49): kind, space, size, operation, type, rounding, cache modifier, order,
and the poison of the stored bytes. -/
def Access.asks (x : Access) : Nat :=
  let kind := match x.kind with
    | .load => 0
    | .store => 1
    | .atom => 2
  fields [(2, kind), (2, x.sp.code), (6, x.n), (3, x.sz.code), (4, x.aop.code), (3, x.aty.code), (3, x.rnd.code), (2, x.ca.code)
            , (1, b2n x.acq), (1, b2n x.rel), (1, b2n x.bad), (4, x.els.length), (32, x.psn)]

/-- The rest of a lane's access, in an entry after its own: the operand that it compares with, and the offsets of its
elements (R119, R125). -/
def Access.restEntries (x : Access) (lane path op : Nat) : List Nat :=
  if x.cmp = 0 && x.els.isEmpty then [] else [flightEntry 12 lane path op x.cmp 0 (fields (x.els.map fun o => (32, o)))]

/-- A list of lanes as a mask, in entries after its command's own. -/
def maskEntries (path op : Nat) (ls : List Nat) : List Nat :=
  (List.range 4).map fun i => flightEntry 14 i path op 0 0 (bits (laneBits ls) (256 * i) 256)

/-- Every report that an entry waits for, by its token, with the page of the access (R49, R54). -/
def State.parkedEntries (s : State) (path op : Nat) (ps : List (Nat × Nat)) : List Nat :=
  ps.map fun x => flightEntry 15 0 path op x.2 (s.tokenOf x.1) 0

/-- What is left of a command, in entries after its own: rows, runs and bytes of a copy, elements of a gather, bytes of a
scatter, and the words of a segment that a `tcut` has still to write (R124, R249, R306, R313). -/
def Cmd.restEntries (k : Cmd) : List Nat :=
  let e (kind lane addr data : Nat) : Nat := flightEntry kind lane (pathIx k.eng) k.op addr 0 data
  match k.body with
  | .ladle dsp ssp rows runs buf =>
    e 16 0 0 (fields [(2, dsp.code), (2, ssp.code)]) :: (rows.map fun r => e 4 0 r.ix (fields [(64, r.src), (64, r.dst), (32, r.pitch), (32, r.len), (32, r.row)]))
      ++ (runs.map fun r => e 5 0 r.src (fields [(64, r.dst), (64, r.off), (64, r.len), (32, r.row)]))
      ++ buf.map fun b => e 6 0 b.1 (fields [(64, b.2.1), (32, b.2.2.1), (8, b.2.2.2.1.toNat), (1, b2n b.2.2.2.2)])
  | .gather st sz els => els.map fun x => e 7 x.1 x.2.1 (fields [(64, x.2.2), (8, sz.code), (1, b2n st)])
  | .scatter st els wrote => (els.map fun x => e 8 0 x.1 (fields [(8, x.2.1.toNat), (1, b2n x.2.2), (1, b2n st)]))
      ++ wrote.map fun a => e 17 0 a 0
  | .tcut st ws => ws.map fun x => e 9 0 x.1 (fields [(32, x.2), (1, b2n st)])

/-- The parameters of a command: the time it has reached, its order, scope and cache modifier, and the barrier that it
arrives at (R98, R246). -/
def Cmd.flags (k : Cmd) : Nat :=
  let bar := match k.bar with
    | some b => fields [(1, 1), (1, b2n b.cl), (4, b.ix.val)]
    | none => 0
  fields [(64, k.time), (2, k.ord.code), (3, k.sco.code), (2, k.ca.code), (6, bar), (1, b2n k.pend)
            , (64, k.lanes.length)]

/-- The words of an operand of a matrix entry. -/
def MOpnd.words : MOpnd → List Nat
  | .regs rows => rows.flatMap id
  | .mem base stride k0 planes => [base % 2 ^ 32, base / 2 ^ 32, stride, k0, planes]

/-- The fields of `mma` and `mmap` that their pass uses: types, operand forms, scales, sparsity and centring (R282). -/
def mmaAsks (o : MmaOps) : Nat :=
  fields [(3, o.ta.code), (3, o.tb.code), (1, b2n o.aMem), (1, b2n o.bMem), (1, b2n o.sca), (1, b2n o.scb), (1, b2n o.sel)
            , (4, o.ka.val), (4, o.kb.val), (2, o.cen.code), (1, b2n o.stash), (1, b2n o.acq)]

/-- What a Tundish entry does, and the operands that it has read at its issue, as words (R272). -/
def TBody.words : TBody → List Nat
  | .mma pr ra o a b sa sb ce => [0, mmaAsks o, b2n pr, ra, b2n ce] ++ a.words ++ b.words ++ sa ++ sb
  | .had n norm rows => [1, n.code, b2n norm] ++ rows.flatMap id
  | .acz pr => [2, b2n pr]
  | .acrel => [3]
  | .acrelAll tags _ => 4 :: tags
  | .acldMem base pitch sp pr => [5, sp.code, base % 2 ^ 32, base / 2 ^ 32, pitch, b2n pr]
  | .acldReg rows => 6 :: rows.flatMap id
  | .acstMem base pitch sp => [7, sp.code, base % 2 ^ 32, base / 2 ^ 32, pitch]
  | .acstReg rows => 8 :: rows
  | .acstat clr => [9, b2n clr]

/-- Words by eights, in as many entries as they fill. -/
def eights : Nat → List Nat → List Nat
  | 0, _ => []
  | n + 1, ws => fields ((ws.take 8).map fun w => (32, w)) :: eights n (ws.drop 8)

/-- The operands of a Tundish entry, in entries after its own. -/
def TEntry.restEntries (k : TEntry) : List Nat :=
  let ws := k.body.words
  (eights (ceilDiv ws.length 8) ws).map fun x => flightEntry 10 k.lane 5 k.op k.tag 0 x

/-- The order, scope, cache modifier and time of a Tundish entry (R98, R99). -/
def TEntry.flags (k : TEntry) : Nat := fields [(64, k.time), (2, k.ord.code), (3, k.sco.code), (2, k.ca.code), (16, k.res.length)]

/-- A lane's access in a replay record: the instruction, the lane, the address, the data, and its place in the order of
its lane's (R49). -/
def State.heldEntries (s : State) (h : Held) (path : Nat) : List Nat :=
  flightEntry 0 h.lane path h.op h.acc.ea (s.tokenOf h.report) (h.acc.data % 2 ^ 192 + h.seq % 2 ^ 64 * 2 ^ 192) h.acc.asks
    :: h.acc.restEntries h.lane path h.op

/-- A replicated commit that is still to be made: the access, and the bytes that it writes at the primary (R90, R107). -/
def Commit.entries (k : Commit) (path : Nat) : List Nat :=
  flightEntry 13 k.lane path k.op k.acc.ea 0 (k.acc.data % 2 ^ 128 + fields [(64, k.seq), (8, k.off), (8, k.len), (1, b2n k.plain)] * 2 ^ 128)
      k.acc.asks
    :: flightEntry 18 k.lane path k.op k.pa 0 0 :: k.acc.restEntries k.lane path k.op

/-- The number of what the Runner reads for a lane (R301, R308), 0 for nothing. -/
def RunWork.code : RunWork → Nat
  | .idle => 0
  | .enter => 1
  | .segment => 2
  | .advance => 3
  | .leave => 4

/-- A read of the Runner's for a lane: which one it is, and the acquire that it waits for (R311, R313). -/
def State.runnerEntries (s : State) (t l : Nat) : List Nat :=
  let y := s.lane (laneId t l)
  if y.work = .idle then []
  else
    flightEntry 3 l 6 y.tOp y.root (s.tokenOf (y.reports.headD 0))
        (fields [(3, y.work.code), (1, b2n y.acq.isSome), (16, y.acq.getD 0), (1, b2n y.acqSys)])
      :: s.parkedEntries 6 y.tOp y.parked

/-- Entries of a part's records (type 6), 64 bytes each: held lane accesses, commits that are still to be made, engine
commands and Tundish entries with what is left of them, lanes that the Runner reads for, and results that have not landed
(R90, R195, R313, R336). -/
def State.flightEntries (s : State) (p : Nat) : List Nat :=
  let path (op : Nat) : Nat := ((((s.part p).ops.find? fun o => o.id = op).map fun o => pathIx o.path)).getD 0
  let first (rs : List Nat) : Nat := s.tokenOf (rs.headD 0)
  ((s.held.filter fun h => h.part = p).flatMap fun h => s.heldEntries h (path h.op))
    ++ ((s.commits.filter fun k => k.part = p && k.done.isNone).flatMap fun k => k.entries (path k.op))
    ++ ((s.cmds.filter fun k => k.part = p && k.node.isNone).flatMap fun k =>
      flightEntry 1 (k.lanes.headD 0) (pathIx k.eng) k.op k.id (first k.reports) k.flags
        :: (maskEntries (pathIx k.eng) k.op k.lanes ++ k.restEntries ++ s.parkedEntries (pathIx k.eng) k.op k.parked))
    ++ ((s.tundish.filter fun k => k.part = p).flatMap fun k =>
      flightEntry 2 k.lane 5 k.op k.tag (first k.reports) k.flags :: (k.restEntries ++ s.parkedEntries 5 k.op k.parked))
    ++ ((s.partLanes p).flatMap fun l => s.runnerEntries (teamOf p) l)
    ++ ((s.defs.filter fun d => d.team = teamOf p && (s.partLanes p).contains d.lane).map fun d =>
      flightEntry 11 d.lane (path d.op) d.op d.reg 0
        (fields [(32, d.mask), (32, d.val.getD 0), (1, b2n d.val.isSome), (1, b2n d.poison), (32, d.flags), (1, b2n d.canFlag)
                  , (1, b2n d.whole), (1, b2n d.win), (1, b2n d.holds)]) d.group)

/-- Type 7: a bound tag's kind and flags, 16 bytes, and its slot words. -/
def State.tagBody (s : State) (p tag : Nat) : Nat :=
  match (s.part p).tags.find? fun x => x.1 = tag with
  | none => 0
  | some (_, b) =>
    let slot (c i : Nat) : Slot4k := s.slots.get {} (c * 64 + i)
    let words (x : Slot4k) : Nat := fields ((List.range 1024).map fun i => (32, x.words.get 0 i))
    let x := slot b.core b.slot
    let y := slot (b.core ^^^ 1) b.slot2
    fields ([(8, tag), (8, b2n b.paired), (16, x.flags), (16, if b.paired then y.flags else 0), (80, 0), (32768, words x)]
      ++ if b.paired then [(32768, words y)] else [])

/-! ## Records -/

/-- The records of a cluster's image, in order of type for each block or part. -/
def State.imageItems (s : State) (k : Nat) : List ImgItem :=
  [.cluster k] ++ ((List.range (s.cluster k).nblk).map fun i => .block (k * 8 + i)) ++ [.bars k]
    ++ (s.parts.filter fun x => clusterOf (blockOf (teamOf x.1)) = k).flatMap fun x =>
      [.part x.1, .lanes x.1] ++ (if (s.flightEntries x.1).isEmpty then [] else [.flight x.1])
        ++ x.2.tags.map fun t => .tag x.1 t.1

/-- The number of a part in a record: its block in the cluster, and its first lane among the block's by fours. -/
def State.partIndex (s : State) (p : Nat) : Nat :=
  blockOf (teamOf p) % 8 * 8192 + (teamIx (teamOf p) * (s.team (teamOf p)).width + (s.part p).lo) / 4

/-- The header fields of a record: TYPE, INDEX and LEN. -/
def State.itemHead (s : State) : ImgItem → Nat × Nat × Nat
  | .cluster _ => (1, 0, 32)
  | .block b => (2, b % 8, 16 + 384 + s.privLen b + 384)
  | .bars _ => (3, 0, 384)
  | .part p => (4, s.partIndex p, 512)
  | .lanes p => (5, s.partIndex p, ((s.partLanes p).map fun l => s.laneLen (teamOf p) l).foldl (· + ·) 0)
  | .flight p => (6, s.partIndex p, 64 * (s.flightEntries p).length)
  | .tag p t => (7, s.partIndex p, 16 + 4096 * (match (s.part p).tags.find? fun x => x.1 = t with
      | some x => if x.2.paired then 2 else 1
      | none => 1))

/-- The body of a record. -/
def State.itemBody (s : State) : ImgItem → Nat
  | .cluster k => s.clusterBody k
  | .block b => s.blockBody b
  | .bars k => barsWord (s.cluster k).bars
  | .part p => s.partBody p
  | .lanes p => fields ((s.partLanes p).map fun l => (8 * s.laneLen (teamOf p) l, s.laneBody (teamOf p) l))
  | .flight p => fields ((s.flightEntries p).map fun x => (512, x))
  | .tag p t => s.tagBody p t

/-- The bytes of an image: a 16-byte header for each record, and its body. -/
def State.imageSize (s : State) (k : Nat) : Nat :=
  ((s.imageItems k).map fun i => 16 + (s.itemHead i).2.2).foldl (· + ·) 0

/-- An image as 16-byte words. -/
def State.imageWords (s : State) (k : Nat) : List Nat :=
  (s.imageItems k).flatMap fun i =>
    let h := s.itemHead i
    fields [(16, h.1), (16, h.2.1), (32, h.2.2)] :: words16 (h.2.2 / 16) (s.itemBody i)

/-- Write 16-byte words, each at an address. -/
def State.putWords (s : State) (addr : Nat → Nat) (ws : List Nat) : State :=
  ws.zipIdx.foldl (fun (s : State) x => s.quietWrite (addr x.2) 16 x.1) s

/-- Write a cluster's context image into a function's dump ring; a ring without room for it drops the image and counts
it (R332). The ring is one of 32-byte entries, as FQBASE's is, and an image takes as many as it fills (DESIGN CHOICE,
log 30). -/
def State.dump (s : State) (vf k : Nat) : State :=
  let r := (s.fn vf).dmp
  let need := ceilDiv (s.imageSize k) 32
  if r.size = 0 then s
  else if r.size ≤ (r.tail + r.size - r.head % r.size) % r.size + need then
    s.modFn vf fun f => { f with dmpDropped := addCount f.dmpDropped 1 }
  else
    (s.putWords (fun i => r.addr + (32 * r.tail + 16 * i) % (32 * r.size)) (s.imageWords k)).modFn vf fun f =>
      { f with dmp := { f.dmp with tail := (f.dmp.tail + need) % f.dmp.size } }

end Sys2Proof.Machine
end

