-- ==== Sys2Proof/Machine/Work.lean ====
section
/-! DEFINITION. The distributor: capacity and placement of clusters, retirement, termination, and
saving and restoring a cluster (R55, R136 to R140, R186, R265, R268, R332, R336 to R338, R350 to
R352). -/

namespace Sys2Proof.Machine

/-! ## Capacity -/

/-- What is in use on a core (R139, R186, R212, R55). A kernel is its image, function and space, with
its labels. -/
structure Use where
  teams : Nat := 0
  lanes : Nat := 0
  words : Nat := 0
  stash : Nat := 0
  ctxs : Nat := 0
  kernels : List (List Nat × Nat) := []
  deriving DecidableEq, Repr

/-- What identifies a kernel on a core (R186). -/
def Launch.kernel (l : Launch) : List Nat := [l.image, l.vf, l.spid]

/-- What `n` teams of a launch's block with some sequencer contexts, and a share of its stash, add to a core; `none` when
they do not fit. -/
def Use.add (u : Use) (l : Launch) (n ctxs share : Nat) : Option Use :=
  let k := if u.kernels.any fun x => x.1 = l.kernel then u.kernels
    else (l.kernel, l.img.labels.length) :: u.kernels
  let v : Use :=
    { teams := u.teams + n, lanes := u.lanes + n * l.pw
      words := u.words + n * l.pw * 8 * l.img.regg, stash := u.stash + share
      ctxs := u.ctxs + ctxs, kernels := k }
  if v.teams ≤ 64 && v.lanes ≤ 8192 && v.words ≤ 524288 && v.stash ≤ 2 ^ 19 && v.ctxs ≤ 256
      && k.length ≤ 4 && (k.map (·.2)).foldl (· + ·) 0 ≤ 4096 then some v
  else none

/-- A block's share of stash on each of `n` cores (R55). -/
def stashShare (stash n : Nat) : Nat := ceilDiv stash (256 * n) * 256

/-- Count each distinct kernel once. -/
def kernelsOf (ls : List Launch) : List (List Nat × Nat) :=
  ls.foldl (fun k l =>
    if k.any fun x => x.1 = l.kernel then k else (l.kernel, l.img.labels.length) :: k) []

/-- What is in use on a core, passing over some clusters. Teams, lanes and words of a cluster count
until it retires; a team's slot and lanes are free once its block has retired (R61, R139, R140). -/
def State.coreUse (s : State) (core : Nat) (without : List Nat) : Use :=
  let here (t : Nat) : Bool :=
    (s.clusterOfTeam t).st = .resident && !without.contains (clusterOf (blockOf t))
  let ts := s.teams.filter fun x => x.2.core = core && here x.1
  let ls := ts.filter fun x => !(s.block (blockOf x.1)).retired
  let bs := s.blocks.filter fun x => x.2.cores.contains core && here (x.1 * 8192)
  let ps := (s.corePartIds core).filter fun p => here (teamOf p)
  { teams := ls.length
    lanes := (ls.map fun x => x.2.width).foldl (· + ·) 0
    words := (ts.map fun x => x.2.width * 8 * (s.img x.1).regg).foldl (· + ·) 0
    stash := (bs.map fun x => stashShare (s.img (x.1 * 8192)).stash x.2.cores.length).foldl (· + ·) 0
    ctxs := ps.length
    kernels := kernelsOf (ps.map s.launchAt) }

/-- The cores of a flask of a die that hold teams: flask 0 has its Cupola apart (R2, R139). -/
def flaskCores (f : Nat) : List Nat :=
  if f = 0 then [1, 2, 3] else (List.range 4).map fun i => 4 * f + i

/-- The element of a list with the greatest measure; the earliest of equals. -/
def pickMax {α : Type} (f : α → Nat) : List α → Option α
  | [] => none
  | x :: t =>
    match pickMax f t with
    | none => some x
    | some y => if f x < f y then some y else some x

/-- Put some teams on cores, with a count of teams and of contexts each: the uses that result. -/
def addAll (us : List Use) (l : Launch) (share : Nat) : List (Nat × Nat × Nat) → Option (List Use)
  | [] => some us
  | (c, n, x) :: t =>
    match (us.getD c {}).add l n x share with
    | some u => addAll (us.set c u) l share t
    | none => none

/-- The contexts that a new team takes (R212, R351). -/
def Launch.ctxs (l : Launch) : Nat := l.pw / l.qw

/-- Whether a block of a launch fits one empty core (R139). -/
def oneCore (l : Launch) : Bool :=
  (({} : Use).add l l.nteams (l.nteams * l.ctxs) (stashShare l.img.stash 1)).isSome

/-- The contexts of the teams that lie on core `j` of `n`, where `need` lists those of each team. -/
def needOn (need : List Nat) (n j : Nat) : Nat :=
  (need.zipIdx.map fun x => if x.2 % n = j then x.1 else 0).foldl (· + ·) 0

/-- Place one block, whose teams need the listed contexts, on the cores of a die (R55, R139, R265): its core list, and the
uses after it (DESIGN CHOICE, log 15). -/
def placeBlock (us : List Use) (l : Launch) (need : List Nat) : Option (List Nat × List Use) :=
  let share := stashShare l.img.stash 1
  if l.onCupola then (addAll us l share [(0, l.nteams, needOn need 1 0)]).map fun v => ([0], v)
  else if oneCore l then
    let cs := ((List.range 64).drop 1).filterMap fun c =>
      (addAll us l share [(c, l.nteams, needOn need 1 0)]).map fun v => ([c], v)
    pickMax (fun x => 8192 - (us.getD (x.1.headD 0) {}).lanes) cs
  else
    let fs := (List.range 16).filterMap fun f =>
      let cs := flaskCores f
      let n := cs.length
      (addAll us l (stashShare l.img.stash n)
        (cs.zipIdx.map fun x => (x.1, ceilDiv (l.nteams - x.2) n, needOn need n x.2))).map fun v => (cs, v)
    pickMax (fun x => (x.1.map fun c => 524288 - (us.getD c {}).words).foldl (· + ·) 0) fs

/-- Place blocks, one after the other, each with the contexts that its teams need. -/
def placeBlocks (l : Launch) : List (List Nat) → List Use → Option (List (List Nat))
  | [], _ => some []
  | need :: t, us =>
    match placeBlock us l need with
    | some (cs, us) => (placeBlocks l t us).map fun t => cs :: t
    | none => none

/-- The uses of an empty die. -/
def emptyDie : List Use := List.replicate 64 {}

/-- The contexts that the teams of a new block need. -/
def Launch.need (l : Launch) : List Nat := List.replicate l.nteams l.ctxs

/-- Whether a block of a launch could ever be held (R55, R139, R352). -/
def Launch.holdable (l : Launch) : Bool := (placeBlock emptyDie l l.need).isSome

/-- The needs of the blocks of a new cluster. -/
def Launch.needs (l : Launch) : List (List Nat) := List.replicate l.blocks l.need

/-- Whether a cluster of a launch could fit if cores were free (R265). -/
def Launch.couldFit (l : Launch) : Bool := (placeBlocks l l.needs emptyDie).isSome

/-- What is in use on the cores of a die, passing over some clusters. -/
def State.dieUse (s : State) (d : Nat) (without : List Nat) : List Use :=
  (List.range 64).map fun c => s.coreUse (d * 64 + c) without

/-- The core lists on which a new cluster of a launch fits on a die now. -/
def State.fitsOn (s : State) (d : Nat) (l : Launch) (without : List Nat) : Option (List (List Nat)) :=
  placeBlocks l l.needs (s.dieUse d without)

/-- The contexts that the teams of a saved cluster take again: one for each part that has not retired (R212, R219). -/
def State.savedNeeds (s : State) (k : Nat) : List (List Nat) :=
  (List.range (s.cluster k).nblk).map fun i =>
    (List.range (s.block (k * 8 + i)).teams).map fun j =>
      (s.parts.filter fun x => teamOf x.1 = (k * 8 + i) * 8192 + j && s.livePart x.1).length

/-- The core lists on which a saved cluster fits on its die now. -/
def State.refits (s : State) (k : Nat) (without : List Nat) : Option (List (List Nat)) :=
  placeBlocks (s.launch (s.cluster k).launch) (s.savedNeeds k) (s.dieUse (s.cluster k).die without)

/-! ## Placing -/

/-- The lowest free team slot of a core, of 64 (R47). -/
def State.freeSlot (s : State) (core : Nat) : Nat :=
  let used := (s.teams.filter fun x => x.2.core = core
    && (s.clusterOfTeam x.1).st = .resident && !(s.block (blockOf x.1)).retired).map fun x => x.2.slot
  ((List.range 64).find? fun i => !used.contains i).getD 0

/-- The kind of the lane with block lane index `b` in a block of `n` lanes (R137). -/
def laneKind (prologue : Bool) (n b : Nat) : LaneKind :=
  if b < n then .own
  else if !prologue && b < 4 * ceilDiv n 4 then .helper
  else .vacant

/-- Place one team: its lanes want label 1, and each starting part is served it (R136, R137, R185,
R351). A part of vacant lanes only retires at once (R149). -/
def State.placeTeam (s : State) (l : Launch) (t i core : Nat) : State :=
  let slot := s.freeSlot core
  let s1 := { s with teams := s.teams.set {} t { core := core, width := l.pw, slot := slot } }
  let s1 := (List.range l.pw).foldl (fun (s : State) p =>
    match laneKind l.prologue l.lanes (i * l.pw + p) with
    | .vacant => s
    | k => s.setLane (laneId t p) { kind := k, wl := 1 }) s1
  (List.range (l.pw / l.qw)).foldl (fun (s : State) j =>
    let q := t * 1024 + j * l.qw
    let vac := laneKind l.prologue l.lanes (i * l.pw + j * l.qw) = .vacant
    let ctx := if vac then 0 else s.freeCtx core
    s.setPart q { life := if vac then .retired else .live, team := t, lo := j * l.qw, width := l.qw
                  ctx := ctx, cur := 1 }) s1

/-- A kernel becomes resident on a core: when it was not, its cache lines are dropped (R197). -/
def State.kernelArrives (s : State) (l : Launch) (core : Nat) : State :=
  if (s.coreUse core []).kernels.any fun x => x.1 = l.kernel then s
  else
    s.modCore core fun c => { c with icache := c.icache.filter fun x =>
      !(x.img = l.image && x.vf = l.vf && x.spid = l.spid) }

/-- The sixteen barriers of a block or cluster at placement: LIVE, with the count of its lanes
(R236, R237). -/
def freshBars (n : Nat) : FMap Barrier := (List.range 16).map fun i => (i, { exp := n })

/-- Place one block on its cores: team i lies on core i mod n of the list (R139). -/
def State.placeBlockAt (s : State) (l : Launch) (b : Nat) (cores : List Nat) : State :=
  let s := cores.foldl (fun (s : State) c => s.kernelArrives l c) s
  let s := s.setBlock b { lanes := l.lanes, teams := l.nteams, cores := cores
                          bars := freshBars l.lanes }
  (List.range l.nteams).foldl (fun (s : State) i =>
    s.placeTeam l (b * 8192 + i) i (cores.getD (i % cores.length) 0)) s

/-- Place the next cluster of a launch on a die (R265, R146). The watchdog of a persistent launch counts from its first
resident cluster on (R335). -/
def State.placeCluster (s : State) (l d : Nat) (cores : List (List Nat)) : State :=
  let x := s.launch l
  let (k, s) := s.takeId
  let pri := min x.pri (s.fn x.vf).pceil
  let s := s.setCluster k
    { st := .resident, launch := l, index := x.placed, die := d, nblk := x.blocks, order := k
      pri := pri, bars := freshBars (x.blocks * x.lanes) }
  let s := cores.zipIdx.foldl (fun (s : State) c =>
    s.placeBlockAt x (k * 8 + c.2) (c.1.map fun n => d * 64 + n)) s
  let s := cores.foldl (fun (s : State) c => c.foldl (fun (s : State) n =>
    s.raiseClock (d * 64 + n) x.time) s) s
  let s := if x.placed = 0 then s.traceLaunch l 1 0 else s
  s.modLaunch l fun y =>
    { y with st := .running, placed := y.placed + 1, resident := y.resident + 1
             watch := if y.img.pers && y.watch.isNone then some 0 else y.watch }

/-! ## The distributor's order -/

/-- Insert into a list that falls by `le`, after equals. -/
def insertBy {α : Type} (before : α → α → Bool) (x : α) : List α → List α
  | [] => [x]
  | y :: t => if before x y then x :: y :: t else y :: insertBy before x t

/-- Sort by a strict order, keeping equals in place. -/
def sortBy {α : Type} (before : α → α → Bool) (l : List α) : List α :=
  l.foldl (fun r x => insertBy before x r) []

/-- The priority of a launch at its next placement (R357). -/
def State.effPri (s : State) (l : Launch) : Nat := min l.pri (s.fn l.vf).pceil

/-- Whether a function's clusters may be placed or restored (R355, R356, R360, R363). -/
def State.mayPlace (s : State) (vf : Nat) : Bool :=
  let f := s.fn vf
  s.released && f.en && f.layer3 && !f.flrb

/-- The saved clusters of a launch, in order of placement. -/
def State.savedOf (s : State) (l : Nat) : List Nat :=
  (sortBy (fun x y => x.2 < y.2) ((s.clusters.filter fun x => x.2.launch = l && x.2.st = .saved).map
    fun x => (x.1, x.2.order))).map (·.1)

/-- The launches that a distributor holds, in its order: priority, then age (R265). -/
def State.pending (s : State) (d : Nat) : List Nat :=
  (sortBy (fun x y => y.2.1 < x.2.1 || (x.2.1 = y.2.1 && x.2.2 < y.2.2))
    ((s.launches.filter fun x => x.2.die = d && !x.2.onCupola
        && (x.2.st = .pending || x.2.st = .running) && s.mayPlace x.2.vf
        && (x.2.placed < x.2.clus || !(s.savedOf x.1).isEmpty)).map
      fun x => (x.1, s.effPri x.2, x.2.order))).map (·.1)

/-- The dies in the order in which a distributor tries them (R265). -/
def dieOrder (d : Nat) : List Nat := d :: (List.range 4).filter fun x => x ≠ d

/-- Where the next cluster of a launch fits (R265). -/
def State.findDie (s : State) (l : Launch) : Option (Nat × List (List Nat)) :=
  (dieOrder l.die).findSome? fun d => (s.fitsOn d l []).map fun c => (d, c)

/-- The first launch of a list whose turn it is: a launch whose cluster could fit if cores were free
holds back the later ones (R265). -/
def State.turn (s : State) : List Nat → Option Nat
  | [] => none
  | l :: t => if (s.launch l).couldFit then some l else s.turn t

/-- CLUSTER_PLACE (R265): a distributor places the next cluster of its first launch. A launch with a saved
cluster waits for that one's restore (R268) (DEDUCED, log 16). -/
def State.distribute (s : State) (d : Nat) : State :=
  match s.turn (s.pending d) with
  | none => s
  | some l =>
    if !(s.savedOf l).isEmpty then s
    else
      match s.findDie (s.launch l) with
      | some (e, c) => s.placeCluster l e c
      | none => s

/-! ## Retirement -/

/-- The teams of a block. -/
def State.blockTeams (s : State) (b : Nat) : List Nat :=
  (List.range (s.block b).teams).map fun i => b * 8192 + i

/-- The blocks of a cluster. -/
def State.clusterBlocks (s : State) (k : Nat) : List Nat :=
  (List.range (s.cluster k).nblk).map fun i => k * 8 + i

/-- Write back and drop every filled sector of a block's stash (R64, R65, R76). -/
def State.drainStash (s : State) (b : Nat) : State :=
  (s.block b).secs.keys.foldl (fun (s : State) k => s.retireSec b k) s

/-- The cluster of a part, lane or register key. -/
def clusterOfPart (p : Nat) : Nat := clusterOf (blockOf (teamOf p))

/-- Release everything that a cluster holds (R61, R140). A part with entries left in the Tundish keeps its
record, which holds its tags, until they retire (R271). -/
def State.removeCluster (s : State) (k : Nat) : State :=
  let keep (c : Nat) : Bool := c ≠ k
  { s with
    regs := s.regs.filter fun x => keep (clusterOfPart (x.1 / 256))
    regPoison := s.regPoison.filter fun x => keep (clusterOfPart (x.1 / 256))
    lanes := s.lanes.filter fun x => keep (clusterOfPart x.1)
    parts := s.parts.filter fun x => keep (clusterOfPart x.1) || s.tundish.any fun e => e.part = x.1
    teams := s.teams.filter fun x => keep (clusterOf (blockOf x.1))
    blocks := s.blocks.filter fun x => keep (clusterOf x.1)
    clusters := s.clusters.set {} k {} }

/-- Whether every part of a block has retired (R189). -/
def State.blockDone (s : State) (b : Nat) : Bool :=
  s.parts.all fun x => blockOf (teamOf x.1) ≠ b || x.2.life = .retired || x.2.life = .absent

/-- A cluster whose blocks have all retired: its launch counts it, and ends with its last one
(R61, R189, R258). -/
def State.retireCluster (s : State) (k : Nat) : State :=
  let l := (s.cluster k).launch
  let s := (s.removeCluster k).modLaunch l fun x =>
    { x with retired := x.retired + 1, resident := x.resident - 1 }
  let x := s.launch l
  if x.retired ≠ x.clus then s
  else if x.prologue then ((s.traceLaunch l 2 0).setLaunch l {}).prologueGone l x.endTime
  else if x.boot then (s.traceLaunch l 2 0).setLaunch l {}
  else s.endLaunch l 0

/-- After a part has retired: its block, and then its cluster, may have retired with it. -/
def State.afterRetire (s : State) (t : Nat) : State :=
  let b := blockOf t
  if !s.blockDone b then s
  else
    let s := (s.drainStash b).modBlock b fun x => { x with retired := true }
    let k := clusterOf b
    if (s.clusterBlocks k).all fun y => (s.block y).retired then s.retireCluster k else s

/-- Whether a part may retire (R189, R294): every lane has exited, its counters are 0, no deferred result
is outstanding, and no `tcut` is in flight. -/
def State.mayRetire (s : State) (p : Nat) : Bool :=
  let x := s.part p
  x.life = .live && s.resident p && s.allExited p && x.ops.isEmpty && !s.cutting p
    && !(s.defs.any fun d => d.team = teamOf p && x.lo ≤ d.lane && d.lane < x.lo + x.width)

/-- The clock of a part's core when it ends: its launch's accesses were placed by then (R259). -/
def State.noteEnd (s : State) (p : Nat) : State :=
  s.modLaunch (s.launchOf (teamOf p)) fun x =>
    { x with endTime := max x.endTime (s.core (s.coreOf p)).clock }

/-- TEAM_RETIRE (R189). -/
def State.retireTeam (s : State) (p : Nat) : State :=
  if s.mayRetire p then ((s.noteEnd p).retirePart p).afterRetire (teamOf p) else s

/-! ## Ending a launch -/

/-- Whether a part belongs to a launch. -/
def State.ofLaunch (s : State) (l p : Nat) : Bool := s.launchOf (teamOf p) = l && l ≠ 0

/-- Whether a part or block belongs to one of some clusters. -/
def inClusters (ks : List Nat) (p : Nat) : Bool := ks.contains (clusterOfPart p)

/-- Whether an entry is a pass, whose end an array's idle age counts from (R273) (DEDUCED, log 40). -/
def TBody.isPass : TBody → Bool
  | .mma .. | .had .. => true
  | _ => false

/-- The arrays that a granted entry takes: its tag's, and the follower's of a paired tag (R275). -/
def State.entryArrays (s : State) (e : TEntry) : List Nat :=
  match e.array with
  | none => []
  | some a => a :: (if (s.part e.part).tags.any fun x => x.1 = e.tag && x.2.paired then [a ^^^ 1] else [])

/-- The arrays of some entries that do not retire are free again; a pass among them has ended (R273). -/
def State.releaseArrays (s : State) (es : List TEntry) : State :=
  let free (m : FMap MArray) (e : TEntry) : FMap MArray := (s.entryArrays e).foldl (fun m a =>
    let x := m.get {} a
    m.set {} a { x with busy := false, ended := if e.body.isPass then s.tick else x.ended }) m
  { s with arrays := es.foldl free s.arrays }

/-- The A latches that parts of some clusters have left are invalid (R276, R291). -/
def State.dropLatches (s : State) (ks : List Nat) : State :=
  { s with arrays := s.arrays.map fun x : Nat × MArray =>
      (x.1, { x.2 with latch := x.2.latch.filter fun l => !inClusters ks l.1 }) }

/-- Discard what the parts of some clusters have in flight (R332): replay and engine records, the Runner's reads among
them, fills, deferred results, arrivals, packets that the guest has returned, trap tokens, and trap records that wait for
room. -/
def State.discardWork (s : State) (ks : List Nat) : State :=
  let gone (p : Nat) : Bool := inClusters ks p
  let wait (x : Nat × Waiter) : Bool := match x.2 with
    | .part p | .prefetch p _ _ => !gone p
    | .event _ => true
  let s := (s.releaseArrays (s.tundish.filter fun e => gone e.part)).dropLatches ks
  { s with
    guest := { s.guest with queues := s.guest.queues.map fun q : Nat × GQueue =>
      (q.1, { q.2 with pkts := q.2.pkts.filter fun k => !(k.returned && k.node.isNone && gone k.part) }) }
    held := s.held.filter fun h => !gone h.part
    commits := s.commits.filter fun k => !gone k.part
    cmds := s.cmds.filter fun k => k.node.isSome || !gone k.part
    tundish := s.tundish.filter fun e => !gone e.part
    fills := s.fills.filter fun f => !gone f.part
    defs := s.defs.filter fun d => !gone (d.team * 1024)
    parts := s.parts.map fun x : Nat × Part =>
      (x.1, if gone x.1 then { x.2 with susp := x.2.susp.map fun u : Susp => { u with token := 0 } } else x.2)
    lanes := s.lanes.map fun x : Nat × Lane =>
      (x.1, if gone x.1 then { x.2 with work := .idle, acq := none, rbuf := [], reports := [], parked := [] } else x.2)
    trapOuts := s.trapOuts.filter fun x => x.always || !gone x.part
    waiters := s.waiters.filter wait
    dies := s.dies.map fun x : Nat × Die =>
      (x.1, { x.2 with arrivals := x.2.arrivals.filter fun a => !ks.contains (clusterOf a.blk) }) }

/-- A launch no longer waits for its fault reports: those that only it waited for are discarded with
their tokens (R332). -/
def State.dropReports (s : State) (l : Nat) : State :=
  { s with reports := (s.reports.map fun r : Report =>
      { r with launches := r.launches.filter fun x => x ≠ l }).filter fun r =>
        r.token = 0 || !r.launches.isEmpty }

/-- Ask the guest to quiesce the packets of some parts (R322); the bound counts from now. -/
def State.quiesce (s : State) (which : Packet → Bool) : State :=
  let mark (k : Packet) : Packet :=
    if which k && !k.quiesce then { k with quiesce := true, since := s.tick } else k
  let qs := s.guest.queues.map fun x : Nat × GQueue => (x.1, { x.2 with pkts := x.2.pkts.map mark })
  { s with guest := { s.guest with queues := qs } }


/-- Release everything that some clusters hold, the slots of their tags among it; their launch takes note of the clocks of
their parts (R259, R332). -/
def State.releaseClusters (s : State) (ks : List Nat) : State :=
  let xs := s.parts.filter fun x => inClusters ks x.1
  let s := xs.foldl (fun (s : State) x => x.2.tags.foldl (fun (s : State) t => s.freeSlots t.2) (s.noteEnd x.1)) s
  ks.foldl (fun (s : State) k => s.removeCluster k) s

/-- LAUNCH_TERMINATE (R332), step by step: every cluster is halted, and a saved one discarded; its work, reports and tokens
are discarded; its guest packets are quiesced; the images of the resident clusters are dumped; they are released; and the
node fails. `dump` says whether context images are written, and `word` whether a completion word is (R360). -/
def State.terminate (s : State) (l status : Nat) (dump word : Bool) : State :=
  let those (st : CState) : List Nat := (s.clusters.filter fun x => x.2.launch = l && x.2.st = st).map (·.1)
  let saved := those .saved
  let ks := those .resident
  let vf := (s.launch l).vf
  let s := s.endCommits (inClusters (saved ++ ks))
  let s := (s.discardWork saved).releaseClusters saved
  let s := (s.discardWork ks).dropReports l
  let s := s.quiesce fun k => k.node.isNone && inClusters (saved ++ ks) k.part
  let s := ks.foldl (fun (s : State) k => (s.clusterBlocks k).foldl (fun (s : State) b => s.drainStash b) s) s
  let s := if dump then ks.foldl (fun (s : State) k => s.dump vf k) s else s
  let s := s.releaseClusters ks
  let s := s.modLaunch l fun x => { x with done := if word then x.done else 0, resident := 0 }
  s.endLaunch l status

/-- A launch ends as `.kill` ends it: a prologue has no owner and no dump (R326, R332). -/
def State.kill (s : State) (l : Nat) : State :=
  if (s.launch l).prologue then s.terminate l 4 false false else s.terminate l 4 true true

/-- A trap that was raised while its ring was disabled is resolved as `.kill` (R330). A class-13 record, which nothing
resolves, is lost. -/
def State.killDead (s : State) : State :=
  (s.trapOuts.filter (·.dead)).foldl (fun (s : State) x =>
    let s1 := { s with trapOuts := s.trapOuts.filter fun y => y.id ≠ x.id }
    if x.always || !(s.trapOuts.any fun y => y.id = x.id) then s1 else s1.kill (s1.launchOf (teamOf x.part))) s

/-! ## Saving a cluster -/

/-- The valid save region of a die (R343): base and size in bytes. -/
def State.saveRegion (s : State) (d : Nat) : Option (Nat × Nat) :=
  let r := s.savebase.get 0 d
  let n := bits r 1 5
  let base := bits r 12 40 * 4096
  let size := 2 ^ (n + 20)
  if bit r 0 && 10 ≤ n && n ≤ 20 && d * dieBytes ≤ base && base + size ≤ (d + 1) * dieBytes then
    some (base, size)
  else none


/-- Where an image of `n` bytes fits in a die's save region, beside those of other saved clusters. -/
def State.saveRoom (s : State) (d n : Nat) : Option Nat :=
  match s.saveRegion d with
  | none => none
  | some (base, size) =>
    let taken := (s.clusters.filter fun x => x.2.st = .saved && x.2.die = d).map fun x =>
      (x.2.save, x.2.saveLen)
    (base :: taken.map fun x => x.1 + x.2).find? fun a =>
      a + n ≤ base + size && base ≤ a && taken.all fun x => a + n ≤ x.1 || x.1 + x.2 ≤ a

/-- Move the slots of a part's tags to keys of no array, where a saved cluster keeps them (R291). -/
def State.stowTags (s : State) (p : Nat) : State :=
  (s.part p).tags.foldl (fun (s : State) x =>
    let b := x.2
    let (id, s) := s.takeId
    let k := 2 ^ 20 + 2 * id
    let a := s.slots.get {} (slotKey b.core b.slot)
    let e := s.slots.get {} (slotKey (b.core ^^^ 1) b.slot2)
    let s1 := s.freeSlots b
    let m := s1.slots.set {} (slotKey k 0) a
    let m := if b.paired then m.set {} (slotKey (k ^^^ 1) 0) e else m
    let nb : TagBind := { b with core := k, slot := 0, slot2 := 0 }
    ({ s1 with slots := m }).modPart p fun y =>
      { y with tags := y.tags.map fun z : Nat × TagBind => if z.1 = x.1 then (z.1, nb) else z }) s

/-- The parts of a cluster. -/
def State.clusterParts (s : State) (k : Nat) : List Nat :=
  (s.parts.filter fun x => clusterOfPart x.1 = k).map (·.1)

/-- Count the arrivals that the parts of a cluster have sent and that may be counted (R252). One that earlier accesses of
its lane still hold back (R241) is kept, and counted after the restore once those have been made (DEDUCED, log 102). -/
def State.countSent (s : State) (d k : Nat) : State :=
  (List.range ((s.die d).arrivals.length)).reverse.foldl (fun (s : State) _ =>
    match (s.die d).arrivals.zipIdx.find? fun x =>
        clusterOf x.1.blk = k && s.mayArrive d x.2 x.1 with
    | some x => s.arrivalStep d x.2
    | none => s) s

/-- Entries of the Tundish that a save takes back: they are granted again after the restore, in issue
order (R291). -/
def State.ungrant (s : State) (k : Nat) : State :=
  let mine (e : TEntry) : Bool := clusterOfPart e.part = k
  let back (b : TBody) : TBody := match b with
    | .acrelAll tags _ => .acrelAll tags false
    | b => b
  let s := (s.releaseArrays (s.tundish.filter mine)).dropLatches [k]
  { s with tundish := s.tundish.map fun e : TEntry =>
      if mine e then { e with array := none, todo := none, buf := [], body := back e.body } else e }

/-- The state in which the image of a cluster is taken (R76, R209, R252, R291, R313): the arrivals that it has sent are
counted, its stashes are drained, and its tags have left their arrays. Its replicated commits give up the sectors that they
have locked: they are recorded, and made after the restore (R90). A fetch that waits for a report waits on, and its team
with it (R50, R54). -/
def State.readyToSave (s : State) (k : Nat) : State :=
  let s := s.countSent (s.cluster k).die k
  let s := s.unlockCommits fun x => x.part ≠ 0 && clusterOfPart x.part = k
  let s := (s.clusterBlocks k).foldl (fun (s : State) b => s.drainStash b) s
  let s := { s with fills := s.fills.filter fun f => clusterOfPart f.part ≠ k || (f.report ≠ 0 && !f.pf) }
  (s.clusterParts k).foldl (fun (s : State) p =>
    (s.stowTags p).modPart p fun x =>
      { x with passed := 0, wait := if x.wait = .fetch && s.fills.all (fun f => f.part ≠ p) then .none else x.wait }) s

/-- Save a cluster whole (R268, R336, R337): its image is written at an address, what it has in flight is taken back to be
made again, its guest packets are quiesced, and its launch has one cluster less resident. -/
def State.saveCluster (s : State) (k at' : Nat) : State :=
  let c := s.cluster k
  let s := s.readyToSave k
  let ws := s.imageWords k
  let s := (s.ungrant k).quiesce fun q => q.node.isNone && clusterOfPart q.part = k
  let s := { s with lanes := s.lanes.map fun x : Nat × Lane =>
      if clusterOfPart x.1 = k then (x.1, { x.2 with rbuf := [] }) else x }
  let s := s.putWords (fun i => at' + 16 * i) ws
  let time := (s.clusterParts k).foldl (fun m p => max m (s.core (s.coreOf p)).clock) 0
  (s.modCluster k fun x =>
    { x with st := .saved, save := at', saveLen := 16 * ws.length, time := time }).modLaunch
    c.launch fun x => { x with resident := x.resident - 1 }

/-- Clusters that placement may pre-empt for priority `p`, on a die: lowest priority first, then
youngest (R268). -/
def State.victims (s : State) (d p : Nat) : List Nat :=
  (sortBy (fun x y => x.2.1 < y.2.1 || (x.2.1 = y.2.1 && y.2.2 < x.2.2))
    ((s.clusters.filter fun x => x.2.st = .resident && x.2.die = d && x.2.pri < p
        && !(s.launch x.2.launch).onCupola).map fun x => (x.1, x.2.pri, x.2.order))).map (·.1)

/-- The first of some victims to save so that a cluster fits, as `fits` says, once enough of them are. -/
def enough (fits : List Nat → Option (List (List Nat))) (vs : List Nat) : Option Nat :=
  if (List.range vs.length).any fun i => (fits (vs.take (i + 1))).isSome then vs.head? else none

/-- The cluster that pre-emption takes next for a distributor: for the first saved cluster of the launch whose turn it
is, which returns to its own die, or for the launch's next one, on the first die where that makes room (R268). -/
def State.victim' (s : State) (d : Nat) : Option Nat :=
  match s.turn (s.pending d) with
  | none => none
  | some l =>
    let x := s.launch l
    match (s.savedOf l).head? with
    | some k => if (s.refits k []).isSome then none else enough (s.refits k) (s.victims (s.cluster k).die (s.effPri x))
    | none =>
      if (s.findDie x).isSome then none
      else (List.range 4).findSome? fun e => enough (s.fitsOn e x) (s.victims e (s.effPri x))

/-- PREEMPT (R268): save a cluster that a pending one of higher priority needs gone. -/
def State.preempt (s : State) (k : Nat) : State :=
  if (List.range 4).any fun d => s.victim' d = some k then
    match s.saveRoom (s.cluster k).die ((s.readyToSave k).imageSize k) with
    | some a => s.saveCluster k a
    | none => s
  else s

/-! ## Restoring a cluster -/

/-- A free slot of an array: slots from 0 up, of 64 (R270). -/
def State.freeAcc (s : State) (core : Nat) : Option Nat :=
  (List.range 64).find? fun i => !(s.slots.get {} (slotKey core i)).used

/-- The arrays of a flask, as cores; the Cupola of each die has none (R270). -/
def flaskArrays (flask : Nat) : List Nat :=
  ((List.range 4).map fun i => 4 * flask + i).filter fun c => c % 64 ≠ 0

/-- The ticks since an array last ended a pass (R273). -/
def State.idleAge (s : State) (core : Nat) : Nat := s.tick - (s.arrays.get {} core).ended

/-- The array for an unbound single tag among some: the one idle longest, then the issuing core's own,
then the lowest (R273). -/
def State.bestArray (s : State) (core : Nat) (as : List Nat) : Option Nat :=
  pickMax (fun a => 4 * s.idleAge a + (if a = core then 1 else 0)) as

/-- The leader of the best pair among some arrays: its less idle array idle longest (R273, R275). -/
def State.bestPair (s : State) (as : List Nat) : Option Nat :=
  pickMax (fun a => min (s.idleAge a) (s.idleAge (a + 1)))
    (as.filter fun a => a % 2 = 0 && as.contains (a + 1))

/-- Bind one stowed tag to free slots of idle arrays of a flask (R291, R273); `none` when there are none. -/
def State.rebind (s : State) (p tag : Nat) (b : TagBind) : Option State :=
  let core := s.coreOf p
  let free := (flaskArrays (flaskOf core)).filter fun a => (s.freeAcc a).isSome && !(s.arrays.get {} a).busy
  let put (a : Nat) : State :=
    let i := (s.freeAcc a).getD 0
    let j := (s.freeAcc (a ^^^ 1)).getD 0
    let x := s.slots.get {} (slotKey b.core b.slot)
    let y := s.slots.get {} (slotKey (b.core ^^^ 1) b.slot2)
    let m := (s.slots.set {} (slotKey b.core b.slot) {}).set {} (slotKey a i) x
    let m := if b.paired then (m.set {} (slotKey (b.core ^^^ 1) b.slot2) {}).set {} (slotKey (a ^^^ 1) j) y
      else m
    let nb : TagBind := { b with core := a, slot := i, slot2 := j }
    ({ s with slots := m }).modPart p fun z =>
      { z with tags := z.tags.map fun t : Nat × TagBind => if t.1 = tag then (tag, nb) else t }
  (if b.paired then s.bestPair free else s.bestArray core free).map put

/-- Bind every stowed tag of some parts. -/
def State.rebindAll (s : State) (ps : List Nat) : Option State :=
  (ps.flatMap fun p => (s.part p).tags.map fun t => (p, t)).foldl (fun (r : Option State) x =>
    r.bind fun s => s.rebind x.1 x.2.1 x.2.2) (some s)

/-- A number that is no core: where the teams of a cluster stand while their cores are chosen. -/
def nowhere : Nat := 256

/-- Give the teams of a cluster their new cores and contexts (R76, R219, R338). -/
def State.moveTeams (s : State) (k d : Nat) (cores : List (List Nat)) : State :=
  let s := (s.clusterBlocks k).foldl (fun (s : State) b => (s.blockTeams b).foldl
    (fun (s : State) t => { s with teams := s.teams.set {} t { s.team t with core := nowhere } }) s) s
  let s := s.modCluster k fun x => { x with st := .resident }
  let s := cores.zipIdx.foldl (fun (s : State) c =>
    let b := k * 8 + c.2
    let cs := c.1.map fun n => d * 64 + n
    let s := cs.foldl (fun (s : State) x => s.kernelArrives (s.launch (s.cluster k).launch) x) s
    let s := s.modBlock b fun x => { x with cores := cs }
    (s.blockTeams b).foldl (fun (s : State) t =>
      let core := cs.getD (teamIx t % cs.length) 0
      let slot := s.freeSlot core
      { s with teams := s.teams.set {} t { s.team t with core := core, slot := slot } }) s) s
  let ps := (s.clusterParts k).filter s.livePart
  let s := ps.foldl (fun (s : State) p => s.modPart p fun x => { x with ctx := 256 }) s
  let s := ps.foldl (fun (s : State) p =>
    let c := s.freeCtx (s.coreOf p)
    s.modPart p fun x => { x with ctx := c }) s
  let core (p old : Nat) : Nat := if clusterOfPart p = k then s.coreOf p else old
  { s with
    held := s.held.map fun h : Held => { h with core := core h.part h.core }
    commits := s.commits.map fun h : Commit => { h with core := core h.part h.core }
    cmds := s.cmds.map fun h : Cmd =>
      if h.node.isSome then h else { h with core := core h.part h.core }
    tundish := s.tundish.map fun h : TEntry =>
      let c := core h.part h.core
      if clusterOfPart h.part = k then
        { h with core := c, flask := flaskOf c, slot := (s.team (teamOf h.part)).slot
                 pri := s.effPri (s.launch (s.cluster k).launch) }
      else h }

/-- Apply what an `eret`, or a report resolved with ABORT, said while the cluster was saved (R338). -/
def State.applyResolved (s : State) (p : Nat) : State :=
  let x := s.part p
  let s := if x.abort || !x.abortQ.isEmpty then
      let s := s.modPart p fun y => { y with abort := false, abortQ := [] }
      let s := x.abortQ.foldl (fun (s : State) q => s.freezeQueue p q.1 q.2) s
      if x.abort then s.freezePart p else s
    else s
  match (s.part p).susp with
  | some u =>
    match u.resolved with
    | some (3, _, _) => s.kill (s.launchOf (teamOf p))
    | some (v, x, time) => (s.raiseClock (s.coreOf p) time).resume p v x
    | none => s
  | none => s

/-- Post the returned packets of a cluster again, in the order of their first post, each with a new
SEQ (R322); when the guest is frozen or its link is down each is refused: its `gpost` is answered with status 2 after all, and its counter is
lowered (R325) (DEDUCED, log 85). -/
def State.repost (s : State) (k : Nat) : State :=
  let mine (x : Packet) : Bool := x.node.isNone && clusterOfPart x.part = k && x.returned
  if !s.guestOn then
    let gone := s.guest.queues.flatMap fun q => q.2.pkts.filter mine
    let qs := s.guest.queues.map fun q : Nat × GQueue =>
      (q.1, { q.2 with pkts := q.2.pkts.filter fun x => !mine x })
    gone.foldl (fun (s : State) x =>
      (eachLane x.lanes (fun l s => s.wr (teamOf x.part) l x.dest 2) s).arriveOp x.part x.op)
      { s with guest := { s.guest with queues := qs } }
  else
    let qs := s.guest.queues.map fun q : Nat × GQueue =>
      let back := (q.2.pkts.filter mine).zipIdx.map fun x =>
        let seq := (q.2.seq + x.2) % 2 ^ 16
        { x.1 with seq := seq, words := x.1.words % 2 ^ 48 + seq * 2 ^ 48 + x.1.words / 2 ^ 64 * 2 ^ 64
                   returned := false, quiesce := false, aborted := false, delivered := false, reported := 0 }
      (q.1, { q.2 with pkts := (q.2.pkts.filter fun x => !mine x) ++ back
                       seq := (q.2.seq + back.length) % 2 ^ 16 })
    { s with guest := { s.guest with queues := qs } }

/-- CLUSTER_RESTORE (R268, R338): the first saved cluster of the launch whose turn it is returns whole
to its die, once there is room for it, for its tags and for its entries (R272, R291). -/
def State.restoreCluster (s : State) (k : Nat) : State :=
  let c := s.cluster k
  let l := s.launch c.launch
  if c.st ≠ .saved || s.turn (s.pending l.die) ≠ some c.launch
      || (s.savedOf c.launch).head? ≠ some k then s
  else
    match s.refits k [] with
    | none => s
    | some cores =>
      let s1 := s.moveTeams k c.die cores
      if (List.range 64).any (fun f => 32 < s1.tundishUse f) then s
      else match s1.rebindAll (s1.clusterParts k) with
      | none => s
      | some s2 =>
        let s3 := s2.modCluster k fun x => { x with pri := s.effPri l, saveLen := 0 }
        let s3 := (s3.clusterParts k).foldl (fun (s : State) p => s.raiseClock (s.coreOf p) c.time) s3
        let s4 := s3.modLaunch c.launch fun x => { x with resident := x.resident + 1 }
        let s5 := (s4.clusterParts k).foldl (fun (s : State) p => s.applyResolved p) s4
        if (s5.cluster k).st = .resident then s5.repost k else s5

end Sys2Proof.Machine
end

