-- ==== Sys2Proof/Machine/Control.lean ====
section
/-! DEFINITION. The control instructions (R199 to R208), and the prologue and launch instructions with
what a prologue's exit does (R262 to R264). -/

namespace Sys2Proof.Machine

/-! ## The end of a prologue -/

/-- PROLOGUE_EXIT (R262, R263): the staged values are checked; the launch is cancelled, fails or starts. The
prologue itself retires as any team does (DEDUCED, log 28), and its node finishes after that (R259). A `plcan` wins over
an earlier `plset` beyond PARAM (DESIGN CHOICE, log 119). -/
def State.prologueExit (s : State) (p : Nat) : State :=
  match (s.launchAt p).node with
  | none => s
  | some (g, n) =>
    let x := s.node g n
    let l := x.launch
    let time := (s.core (s.coreOf p)).clock
    let fail (s : State) (status : Nat) : State := ((s.traceLaunch l 2 status).setLaunch l {}).failNode g n status time
    let s := (s.modLaunch (s.launchOf (teamOf p)) fun y => { y with node := none }).modNode g n fun y =>
      { y with time := max y.time time }
    if x.cancel then (s.setLaunch l {}).nodeDone g n time
    else if x.bad || !(s.launch l).geomOk then fail s 7
    else if !(s.launch l).holdable then fail s 2
    else s.modLaunch l fun y => { y with st := .pending, time := max y.time time }

/-- After lanes have changed their labels: a prologue whose lane has exited ends (R262). -/
def State.exitCheck (s : State) (p : Nat) : State :=
  if (s.launchAt p).prologue && s.allExited p then s.prologueExit p else s

/-! ## Changing wanted labels -/

/-- Each lane of a list takes its label and departs (R187, R201). -/
def State.leaveAll (s : State) (c : Ctx) (ls : List Nat) (f : Nat → Nat) : State :=
  (eachLane ls (fun l s => s.leave c.t l (f l)) s).exitCheck c.p

/-- `nop` (R18). -/
def execNop (h : Hdr) (s : State) : Host.Outcome State Fault Refusal := issue (.nop h) s fun _ s => s

/-- `go` (R201). -/
def execGo (h : Hdr) (l : Lbl) (s : State) : Host.Outcome State Fault Refusal :=
  issue (.go h l) s fun c s => s.leaveAll c c.ga fun _ => l.val

/-- The first lane whose label from a register is not valid, with that id (R200, R330). -/
def State.badLabel (s : State) (c : Ctx) (a : Reg) : Option Nat :=
  (c.ga.find? fun l => !labelValid (s.img c.t) (bits (s.rd 0 c.t l a) 0 12)).map fun l =>
    bits (s.rd 0 c.t l a) 0 12

/-- `goi` (R202). -/
def execGoi (h : Hdr) (a : Reg) (s : State) : Host.Outcome State Fault Refusal :=
  issue (.goi h a) s fun c s =>
    match s.badLabel c a with
    | some k => s.raise c 3 k
    | none => s.leaveAll c c.ga fun l => bits (s.rd 0 c.t l a) 0 12

/-- `gosel` (R201). -/
def execGosel (h : Hdr) (p : PSrc) (l1 l2 : Lbl) (s : State) : Host.Outcome State Fault Refusal :=
  issue (.gosel h p l1 l2) s fun c s =>
    s.leaveAll c c.ga fun l => if s.rdPred 0 c.t l p then l1.val else l2.val

/-- `call` (R203). -/
def execCall (h : Hdr) (d : Reg) (f ret : Lbl) (s : State) : Host.Outcome State Fault Refusal :=
  issue (.call h d f ret) s fun c s => (s.status c d ret.val).leaveAll c c.ga fun _ => f.val

/-- `calli` (R203): the target is read before the link is written. -/
def execCalli (h : Hdr) (d a : Reg) (ret : Lbl) (s : State) : Host.Outcome State Fault Refusal :=
  issue (.calli h d a ret) s fun c s0 =>
    match s0.badLabel c a with
    | some k => s0.raise c 3 k
    | none => (s0.status c d ret.val).leaveAll c c.ga fun l => bits (s0.rd 0 c.t l a) 0 12

/-- `exit` (R204). -/
def execExit (h : Hdr) (s : State) : Host.Outcome State Fault Refusal :=
  issue (.exit h) s fun c s => s.leaveAll c c.ga fun _ => 4095

/-- `beat` (R205). -/
def execBeat (h : Hdr) (s : State) : Host.Outcome State Fault Refusal :=
  issue (.beat h) s fun c s =>
    if c.ga.isEmpty || !(s.img c.t).pers then s
    else s.modLaunch (s.launchOf c.t) fun x => { x with watch := some 0 }

/-- `ipref` (R206): `n - 1` is encoded. -/
def execIpref (h : Hdr) (l : Lbl) (n : Fin 16) (s : State) : Host.Outcome State Fault Refusal :=
  issue (.ipref h l n) s fun c s =>
    if c.ga.isEmpty then s
    else
      match (s.img c.t).label l.val with
      | none => s
      | some (off, _) =>
        (off :: (s.launchAt c.p).linesAfter off n.val).foldl
          (fun (s : State) o => s.askFill c.p o true) s

/-- `trap` (R207, R340). -/
def execTrap (h : Hdr) (code : BitVec 16) (s : State) : Host.Outcome State Fault Refusal :=
  issue (.trap h code) s fun c s => if c.ga.isEmpty then s else s.raise c 9 code.toNat

/-- `brk` (R207, R343). -/
def execBrk (h : Hdr) (code : BitVec 16) (s : State) : Host.Outcome State Fault Refusal :=
  issue (.brk h code) s fun c s =>
    if c.ga.isEmpty || !bit (s.fn (s.vfOf c.t)).dbgctl 0 then s else s.raise c 11 code.toNat

/-! ## Prologue instructions -/

/-- Write a staged value (R263). -/
def State.stage (s : State) (g n sel v : Nat) : State :=
  let l := (s.node g n).launch
  let x := s.launch l
  if sel < 0x400 then
    if x.img.param ≤ 4 * sel then s.modNode g n fun y => { y with bad := true }
    else
      s.setLaunch l
        { x with consts := putConsts x.consts (4 * sel) (min 4 (x.img.param - 4 * sel)) v }
  else if sel = 0x400 then s.setLaunch l { x with clus := v }
  else if sel = 0x401 then s.setLaunch l { x with blk := v }
  else if sel = 0x402 then s.setLaunch l { x with bpc := v }
  else s.setLaunch l { x with pri := min v (s.queue g).pri }

/-- `plset` (R263). -/
def execPlset (h : Hdr) (a : Reg) (sel : Fin 4096) (s : State) : Host.Outcome State Fault Refusal :=
  issueMem (.plset h a sel) s (fun _ _ => 0) fun c s =>
    match s.poster c, (s.launchAt c.p).node with
    | some l, some (g, n) => if (s.node g n).cancel then s else s.stage g n sel.val (s.rd 0 c.t l a)
    | _, _ => s

/-- `plcan` (R263). -/
def execPlcan (h : Hdr) (s : State) : Host.Outcome State Fault Refusal :=
  issueMem (.plcan h) s (fun _ _ => 0) fun c s =>
    match c.ga.isEmpty, (s.launchAt c.p).node with
    | false, some (g, n) => s.modNode g n fun x => { x with cancel := true, again := false }
    | _, _ => s

/-- `plrep` (R263). -/
def execPlrep (h : Hdr) (d : Reg) (s : State) : Host.Outcome State Fault Refusal :=
  issueMem (.plrep h d) s (fun _ _ => 0) fun c s =>
    match c.ga.isEmpty, (s.launchAt c.p).node with
    | false, some (g, n) =>
      let x := s.node g n
      if x.cancel then s
      else if nBound x.raw ≤ x.runs then s.status c d 1
      else (s.modNode g n fun y => { y with again := true }).status c d 0
    | _, _ => s

/-! ## `launch` -/

/-- The child launch that a poster's group describes (R264). -/
def State.childOf (s : State) (c : Ctx) (l : Nat) (a : Reg) : Launch :=
  let p := s.launchAt c.p
  let geom := s.rd 5 c.t l (a.val + 5)
  { st := .reading, vf := p.vf, spid := p.spid, image := s.rd64 0 c.t l a
    paramAt := s.rd64 2 c.t l (a.val + 2), clus := s.rd 4 c.t l (a.val + 4), blk := bits geom 0 16
    bpc := bits geom 16 4, pri := bits geom 20 2, q := p.q, die := dieOf (s.coreOf c.p)
    tout := p.tout, done := s.rd64 6 c.t l (a.val + 6), child := true
    time := (s.core (s.coreOf c.p)).clock }

/-- The status of a `launch` whose image reads as given (R264); where several hold, the first in the order of the codes
(DESIGN CHOICE, log 118). The priorities that it compares are those of the two
launches, before PCEIL caps either at a placement (R357) (DEDUCED, log 106). -/
def State.launchCode (s : State) (c : Ctx) (x : Launch) (im : Option (Img × FMap Byte)) : Nat :=
  match im with
  | none => 1
  | some (g, _) =>
    let y := { x with img := g }
    if y.geomOk && !y.holdable then 1
    else if 4096 ≤ (s.launches.filter fun k => k.2.child && k.2.die = x.die).length then 2
    else if (s.launchAt c.p).pri < x.pri then 3
    else if !y.geomOk then 4
    else 0

/-- A stop of the read of a space descriptor for which a launch is refused with bad-space (R35, R36). -/
def badSpace (x : Stop) : Bool := !x.stage2 && x.cause ≤ 1

/-- Read the space descriptor of a launch that is accepted, for whoever reads its image: its root, or `none` for bad-space
(R35, R36). -/
def State.acceptSpace (s : State) (w : Who) (x : Launch) : State × Got (Option Nat) :=
  if !bit (s.fn x.vf).sptbl 0 then (s, .ok none)
  else
    match s.inWalk w true fun s => s.descriptor x.die x.vf x.spid x.image with
    | (s, .ok root) => (s, .ok (some root))
    | (s, .stop y) => if badSpace y then (s, .ok none) else (s, .stop y)

/-- Commit a child launch (R93, R264). The commit's place has the time of the poster's clock, which follows the reads of
the image, and what the child does is placed later. Bad-space refuses it with status 3 of its completion word (R36)
(DEDUCED, log 18). -/
def State.commitChild (s : State) (core : Nat) (x : Launch) (root : Option Nat) : State :=
  let (id, s) := s.takeId
  let t := (s.core core).clock + 1
  let x := { x with order := id, st := .pending, time := t, endTime := t }
  match root with
  | some r => s.setLaunch id { x with root := r + 1 }
  | none => (s.setLaunch id x).endLaunch id 3

/-- What a stop of a read of a `launch` does: a violation freezes the part, and a fault holds it (R52, R264, R383). -/
def State.launchStop (s : State) (c : Ctx) (w : Who) (y : Stop) : State :=
  if y.isViolation then s.violate c w y kRead
  else
    match s.reportFault w y kRead with
    | (some r, s) => (s.await r (.part c.p)).stall c .image
    | (none, s) => s.raise c 14 0

/-- The sectors that a `launch` reads: those of the header and label table, the data and the parameters of the image, as
far as they can be read now (R371, R383). -/
def State.launchSectors (s : State) (c : Ctx) (a : Reg) : Nat :=
  match s.poster c with
  | none => 0
  | some l =>
    let x := s.childOf c l a
    match (s.agentRead (s.who c.p) x.image 64).2 with
    | .ok h =>
      if x.image % 16 ≠ 0 then 0
      else
        let run (at' n : Nat) : List (Nat × Nat) := if n = 0 then [] else [(at', n)]
        countSectors (run x.image (64 + (if headerOk h then 8 * bits h 160 16 else 0))
          ++ if headerOk h then run (x.image + bits h 320 32) (bits h 352 32) ++ run x.paramAt (bits h 288 32) else [])
    | _ => 0

/-- `launch` (R264, R383): the poster's reads of the child's image stop it as any read would. -/
def execLaunch (h : Hdr) (d a : Reg) (s : State) : Host.Outcome State Fault Refusal :=
  issueMem (.launch h d a) s (fun c s => s.launchSectors c a) fun c s0 =>
    match s0.poster c with
    | none => s0
    | some l =>
      let w := s0.who c.p
      let x := s0.childOf c l a
      let answer (s : State) (k : Nat) : State :=
        c.ga.foldl (fun (s : State) i => (s.postWords c.t i [d.val] (some [(k, false)]) 0).2) s
      match s0.readImage w x.image x.paramAt with
      | (s, .ok im) =>
        match s.launchCode c x im, im with
        | 0, some (g, m) =>
          match s.acceptSpace w x with
          | (s, .ok root) => answer (s.commitChild w.core { x with img := g, consts := m } root) 0
          | (s, .busy) => s.stall c .earlier
          | (s, .stop y) => s.launchStop c w y
        | k, _ => answer s k
      | (s, .busy) => s.stall c .earlier
      | (s, .stop y) => s.launchStop c w y

end Sys2Proof.Machine
end

