-- ==== Sys2Proof/Machine/Matrix.lean ====
section
/-! DEFINITION. The matrix engine: the Tundish and its grants, the arithmetic of a pass, the transfers
between tiles, memory and registers, and the matrix instructions (R159 to R167, R270 to R293). -/

namespace Sys2Proof.Machine

/-! ## Operand types -/

/-- The format of a floating-point operand type (R282). -/
def mFmt : MTy → Option FFmt
  | .f16 => some .f16
  | .bf16 => some .bf16
  | .e4m3 => some .e4m3
  | .e5m2 => some .e5m2
  | .e2m1 => some .e2m1
  | .i8 | .bp => none

/-- The bits of an element in a register tile or in memory; a bit-plane element has one bit a plane. -/
def mBits : MTy → Nat
  | .f16 | .bf16 => 16
  | .e2m1 => 4
  | .bp => 1
  | _ => 8

/-- The elements along K of a pass (R277). -/
def mK : MTy → Nat
  | .f16 | .bf16 => 32
  | .e2m1 => 128
  | _ => 64

/-- The elements of a chunk (R165). -/
def mChunk : MTy → Nat
  | .f16 | .bf16 => 16
  | _ => 32

/-- Whether a pass is an integer pass (R167). -/
def mmaIsInt (o : MmaOps) : Bool :=
  (o.ta = .i8 || o.ta = .bp) && (o.tb = .i8 || o.tb = .bp) && !o.sca && !o.scb

/-- The scale byte of block `c` of a row or column, from its scale word (R162, R284). -/
def scaleByte (on : Bool) (ty : MTy) (sel : Bool) (w c : Nat) : Nat :=
  if !on then 0 else bits w (8 * (if ty = .e2m1 then c else 2 * b2n sel + c)) 8

/-! ## Memory pieces of an operand -/

/-- Where the bytes of a 32-element block of row or column `r` lie, one run for each plane of a
bit-plane operand: address and length (R163, R279). -/
def blockBytes (ty : MTy) (base stride k0 planes k r j : Nat) : List (Nat × Nat) :=
  let row := base + r * stride
  if ty = .bp then
    let e := k0 + 32 * j
    (List.range k).map fun p =>
      ((row + e / 512 * planes * 64 + p * 64 + e % 512 / 8) % 2 ^ 64, 4)
  else [((row + (k0 + 32 * j) * mBits ty / 8) % 2 ^ 64, 4 * mBits ty)]

/-- The sectors of a memory operand that a pass fetches: those with an element outside every zero block
(R161). `scale r j` is the scale byte of block `j` of row `r`. -/
def opSectors (ty : MTy) (x : MOpnd) (k rows : Nat) (scale : Nat → Nat → Nat) : List Nat :=
  match x with
  | .regs _ => []
  | .mem base stride k0 planes =>
    let runs := (List.range rows).flatMap fun r =>
      ((List.range (mK ty / 32)).filter fun j => scale r j ≠ 128).flatMap fun j =>
        blockBytes ty base stride k0 planes k r j
    (runs.flatMap fun a => sectorsOf a.1 a.2).foldl (fun l y => if l.contains y then l else l ++ [y]) []

/-- Bits of an operand's buffer: `which` is 0 for A and 1 for B. -/
def bufBits (buf : FMap (Nat × Nat)) (which a lo w : Nat) : Nat :=
  bits (buf.get (0, 0) (a / 64 * 2 + which)).1 (8 * (a % 64) + lo) w

/-- The code of element `i` of row or column `r` (R152, R163, R278, R279). -/
def opCode (ty : MTy) (x : MOpnd) (k : Nat) (buf : FMap (Nat × Nat)) (which r i : Nat) : Nat :=
  match x with
  | .regs rows =>
    let w := (rows.getD r []).getD (i * mBits ty / 32) 0
    bits w (i * mBits ty % 32) (mBits ty)
  | .mem base stride k0 planes =>
    match ty with
    | .bp =>
      let e := k0 + i
      (List.range k).foldl (fun q p =>
        let a := (base + r * stride + e / 512 * planes * 64 + p * 64 + e % 512 / 8) % 2 ^ 64
        2 * q + bufBits buf which a (e % 8) 1) 0
    | _ =>
      let b := (k0 + i) * mBits ty
      bufBits buf which ((base + r * stride + b / 8) % 2 ^ 64) (b % 8) (mBits ty)

/-- The value of an element (R150, R153, R164). -/
def opValue (ty : MTy) (k : Nat) (cent : Bool) (code : Nat) : Ext :=
  match mFmt ty with
  | some f => decodeF f code
  | none =>
    if ty = .bp then ofCoeff (2 * sint k code + (b2n cent : Int)) (7 - (k : Int)) false
    else ofCoeff (sint 8 code) 0 false

/-- The integer value of an element of an integer pass (R167). -/
def opInt (ty : MTy) (k code : Nat) : Int := if ty = .bp then sint k code * 2 ^ (8 - k) else sint 8 code

/-- A value times 2^s (R159). -/
def Ext.shift : Ext → Int → Ext
  | .fin n m e st, s => .fin n m (e + s) st
  | x, _ => x

/-- Row or column `r` of an operand as chunks of scaled values; `none` is an element of a zero block
(R159, R165). -/
def opChunks (ty : MTy) (x : MOpnd) (k : Nat) (cent : Bool) (buf : FMap (Nat × Nat)) (which r : Nat)
    (scale : Nat → Nat → Nat) : List (List (Option Ext)) :=
  (List.range (mK ty / mChunk ty)).map fun c =>
    let sc := if mChunk ty = 32 then scale r c else 0
    (List.range (mChunk ty)).map fun i =>
      if sc = 128 then none
      else some ((opValue ty k cent (opCode ty x k buf which r (mChunk ty * c + i))).shift (sint 8 sc))

/-- Whether a byte that a row or column needs was read with poison. -/
def opPoison (ty : MTy) (x : MOpnd) (k : Nat) (buf : FMap (Nat × Nat)) (which r : Nat)
    (scale : Nat → Nat → Nat) : Bool :=
  match x with
  | .regs _ => false
  | .mem base stride k0 planes =>
    ((List.range (mK ty / 32)).filter fun j => scale r j ≠ 128).any fun j =>
      (blockBytes ty base stride k0 planes k r j).any fun a =>
        (List.range a.2).any fun i =>
          bit (buf.get (0, 0) ((a.1 + i) / 64 * 2 + which)).2 ((a.1 + i) % 64)

/-! ## The sums -/

/-- The product of two elements of a chunk, +0 when either is in a zero block (R165). -/
def chunkProduct : Option Ext × Option Ext → Ext
  | (some a, some b) => (mulE a b).1
  | _ => .zero false

def Ext.isInf : Ext → Bool
  | .inf _ => true
  | _ => false

/-- floor(log2 |x|) of a finite non-zero value. -/
def Ext.exp2 : Ext → Int
  | .fin _ m e _ => (Nat.log2 m : Int) + e
  | _ => 0

/-- A finite value truncated toward zero to a multiple of 2^g, in units of 2^g (R165). -/
def Ext.grains (g : Int) : Ext → Int
  | .fin n m e _ =>
    let v : Nat := if g ≤ e then m * 2 ^ (e - g).toNat else m / 2 ^ (g - e).toNat
    if n then -(v : Int) else (v : Int)
  | _ => 0

/-- R165 `chunk_add`: the new FP32 code of an accumulator element, and its tile flags. The operands that keep NV clear are
the factors of products outside zero blocks, and not the accumulator; an S of 0 from products that cancel is +0 (DEDUCED,
log 101). -/
def chunkAdd (acc : Nat) (xs : List (Option Ext × Option Ext)) : Nat × Nat :=
  let ps := xs.map chunkProduct
  let nanOp := xs.any fun x => match x with
    | (some a, some b) => a.isNan || b.isNan
    | _ => false
  if ps.any Ext.isNan || (ps.contains (.inf true) && ps.contains (.inf false)) then
    (FFmt.nanCode .f32, if nanOp then 0 else fNV)
  else
    match ps.find? Ext.isInf with
    | some y =>
      let (v, f) := addE .rne (decodeF .f32 acc) y
      let (r, f') := roundF v .f32 .rne false
      (r, f ||| f')
    | none =>
      match ps.filter fun p => !p.isZero with
      | [] => (acc, 0)
      | p :: t =>
        let g := t.foldl (fun e q => max e q.exp2) p.exp2 - 48
        let sum := ps.foldl (fun a q => a + q.grains g) 0
        let (v, f) := addE .rne (decodeF .f32 acc) (ofCoeff sum g false)
        let (r, f') := roundF v .f32 .rne false
        (r, f ||| f')

/-- Add the chunks of one row and one column, in ascending order (R165) (DEDUCED, log 42). -/
def dotAdd (acc : Nat) (a b : List (List (Option Ext))) : Nat × Nat :=
  (a.zip b).foldl (fun (r : Nat × Nat) x =>
    let y := chunkAdd r.1 (x.1.zip x.2)
    (y.1, r.2 ||| y.2)) (acc, 0)

/-- The butterfly sums of `had` over one block of points (R286): codes, and the flags of all of them. -/
def hadBlock (n : Nat) (norm : Bool) (xs : List Nat) : List Nat × Nat :=
  let vs := xs.map (decodeF .f32)
  let term (i j : Nat) (v : Ext) : Ext :=
    if popcount (i &&& j) % 2 = 1 then v.negate else v
  let one (i : Nat) : Nat × Nat :=
    if vs.any Ext.isNan then (FFmt.nanCode .f32, if vs.any Ext.isSnan then fNV else 0)
    else
      let ts := vs.zipIdx.map fun x => term i x.2 x.1
      let (y, f) := match ts with
        | [] => (Ext.zero false, 0)
        | t :: r => r.foldl (fun (a : Ext × Nat) v =>
            let z := addE .rne a.1 v
            (z.1, a.2 ||| z.2)) (t, 0)
      let (r, f') := roundF (if norm then y.shift (-((Nat.log2 n / 2 : Nat) : Int)) else y) .f32 .rne
        false
      (r, f ||| f')
  let rs := (List.range n).map one
  (rs.map (·.1), rs.foldl (fun f x => f ||| x.2) 0)
where
  /-- the number of ones in a small index -/
  popcount (x : Nat) : Nat := ((List.range 8).filter fun i => bit x i).length

/-- `had` over a lane's group of words (R286). -/
def hadRow (n : Nat) (norm : Bool) (xs : List Nat) : List Nat × Nat :=
  (List.range (xs.length / n)).foldl (fun (r : List Nat × Nat) t =>
    let y := hadBlock n norm ((xs.drop (t * n)).take n)
    (r.1 ++ y.1, r.2 ||| y.2)) ([], 0)

/-! ## Tiles -/

/-- The binding of a tag of a part (R271). -/
def State.tagOf (s : State) (p tag : Nat) : Option TagBind :=
  ((s.part p).tags.find? fun x => x.1 = tag).map (·.2)

/-- The slot that holds column `j` of a tile (R275). -/
def TagBind.key (b : TagBind) (j : Nat) : Nat :=
  if j < 32 then slotKey b.core b.slot else slotKey (b.core ^^^ 1) b.slot2

/-- The columns of a tile: 32, or 64 when it is paired. -/
def tileWidth : Option TagBind → Nat
  | some b => if b.paired then 64 else 32
  | none => 32

/-- A word of a tile with its poison; an unbound tag reads +0 (R271). -/
def State.tileWord (s : State) (b : Option TagBind) (i j : Nat) : Nat × Bool :=
  match b with
  | none => (0, false)
  | some b =>
    let x := s.slots.get {} (b.key j)
    (x.words.get 0 (32 * i + j % 32), x.poison.contains (32 * i + j % 32))

/-- Replace every word of a tile, and its flags, which the leader's slot holds. -/
def State.setTile (s : State) (b : TagBind) (flags : Nat) (f : Nat → Nat → Nat × Bool) : State :=
  let half (lo : Nat) : Slot4k :=
    let ws := (List.range 1024).map fun k => (k, f (k / 32) (lo + k % 32))
    { used := true
      words := (ws.filter fun x => x.2.1 ≠ 0).map fun x => (x.1, x.2.1)
      poison := (ws.filter fun x => x.2.2).map (·.1) }
  let s := { s with slots := s.slots.set {} (b.key 0) { half 0 with flags := flags } }
  if b.paired then { s with slots := s.slots.set {} (b.key 32) (half 32) } else s

/-- The flags of a tile. -/
def State.tileFlags (s : State) (b : TagBind) : Nat := (s.slots.get {} (b.key 0)).flags

/-! ## Entering the Tundish -/

/-- The word of a part that holds a lane, as its first lane (R278). -/
def wordBase (c : Ctx) (q : Nat) : Nat := c.lo + (q - c.lo) / 32 * 32

/-- The words that position `i` of the operand word holds in a run of registers, 0 where it has no lane
(R278). A vacant lane's words are 0. -/
def State.posWords (s : State) (c : Ctx) (q slot r n i : Nat) : List Nat :=
  let l := wordBase c q + i
  (List.range n).map fun k => if l < c.lo + c.w then s.rd slot c.t l (r + k) else 0

/-- A register tile, or the words of one register, in all 32 positions. -/
def State.posRows (s : State) (c : Ctx) (q slot r n : Nat) : List (List Nat) :=
  (List.range 32).map fun i => s.posWords c q slot r n i

/-- Whether an entry of a part on a tag is outstanding that would bind it: the kind it gives. -/
def TBody.kind? : TBody → Option Bool
  | .mma p .. => some p
  | .acz p => some p
  | .acldMem _ _ _ p => some p
  | .acldReg _ => some false
  | _ => none

/-- The kind that a tag counts as bound with (R271): from the issue of its binding instruction (DEDUCED, log
37). -/
def State.tagKind (s : State) (p tag : Nat) : Option Bool :=
  match s.tagOf p tag with
  | some b => some b.paired
  | none => (s.tundish.filter fun e => e.part = p && e.tag = tag).findSome? fun e => e.body.kind?

/-- Put an entry in the Tundish (R272); `raises` says whether it raises `m` (R281). The number of the
entry's operation comes back with the state. -/
def State.enter (s : State) (c : Ctx) (q tag : Nat) (raises : Bool) (ord : Ord) (sco : Scope)
    (ca : Cache) (body : TBody) : Nat × State :=
  let (op, s) := if raises then s.raiseOp c.p .m else (0, s)
  let (id, s) := s.takeId
  let core := s.coreOf c.p
  let e : TEntry :=
    { id := id, flask := flaskOf core, part := c.p, core := core, lane := q, tag := tag, tick := s.tick
      op := op, body := body, ord := ord, sco := sco, ca := ca, pri := (s.clusterOfTeam c.t).pri
      slot := (s.team c.t).slot, frozen := (s.part c.p).frozenQ.contains .m }
  (op, { s with tundish := s.tundish ++ [e] })

/-- Note the deferred groups of the entry just made. -/
def State.entryRes (s : State) (gs : List Nat) : State :=
  match s.tundish.getLast? with
  | some x => { s with tundish := s.tundish.map fun e : TEntry => if e.id = x.id then { e with res := gs } else e }
  | none => s

/-- Post one deferred group for each of some lanes (R195). -/
def State.postLanes (s : State) (c : Ctx) (op : Nat) (dest : List Nat) (flags : Bool) (ls : List Nat) :
    State × List Nat :=
  ls.foldl (fun (r : State × List Nat) l =>
    let (g, s) := r.1.postWords c.t l dest none op
    let s1 := if flags then
        { s with defs := s.defs.map fun d : Deferred => if d.group = g then { d with canFlag := true } else d }
      else s
    (s1, r.2 ++ [g])) (s, [])

/-! ## Descriptors -/

/-- A memory operand's descriptor as read from the poster (R279). -/
structure MDesc where
  base : Nat
  stride : Nat
  k0 : Nat
  planes : Nat
  deriving DecidableEq, Repr

def State.readDesc (s : State) (c : Ctx) (q slot r : Nat) : MDesc :=
  let w := s.rd (slot + 3) c.t q (r + 3)
  ⟨s.rd64 slot c.t q r, s.rd (slot + 2) c.t q (r + 2), bits w 0 16, bits w 16 4⟩

/-- The alignment check of a descriptor (R279). -/
def MDesc.misaligned (d : MDesc) (ty : MTy) : Bool :=
  let n := if ty = .bp then 64 else 4
  d.base % n ≠ 0 || d.stride % n ≠ 0

/-- The matrix-use check of a descriptor (R279). -/
def MDesc.bad (d : MDesc) (ty : MTy) (k : Nat) : Bool :=
  d.k0 % 32 ≠ 0 || (ty = .bp && (d.planes < 2 || 8 < d.planes || d.planes < k))

def MDesc.opnd (d : MDesc) : MOpnd := .mem d.base d.stride d.k0 d.planes

/-! ## `mma` and `mmap` -/

/-- The effect of `mma` and `mmap` at issue (R284, R285): the checks, then the entry with everything that
is read. -/
def mmaIssue (paired : Bool) (tag : Fin 16) (a : Reg) (o : MmaOps) (c : Ctx) (s : State) : State :=
  match s.poster c with
  | none => s
  | some q =>
    let da := s.readDesc c q 0 a.val
    let db := s.readDesc c q 10 o.b.val
    if s.tagKind c.p tag.val = some (!paired) then s.raise c 5 0
    else if (o.aMem && da.misaligned o.ta) || (o.bMem && db.misaligned o.tb) then s.raise c 4 0
    else if (o.aMem && da.bad o.ta o.ka.val) || (o.bMem && db.bad o.tb o.kb.val) then s.raise c 5 0
    else
      let one (slot r : Nat) : List Nat := (s.posRows c q slot r 1).map fun w => w.headD 0
      let oa := if o.aMem then da.opnd else .regs (s.posRows c q 0 a.val 16)
      let ob := if o.bMem then db.opnd else .regs (s.posRows c q 10 o.b.val 16)
      let sa := if o.sca then one 20 o.sa.val else []
      let sb := if o.scb then one 21 o.sb.val ++ (if paired then one 22 (o.sb.val + 1) else []) else []
      let cent := match o.cen with
        | .img => (s.img c.t).cent
        | .on => true
        | .off => false
      (s.enter c q tag.val true (if o.acq then .acq else .plain) o.sco o.ca
        (.mma paired a.val o oa ob sa sb cent)).2

/-- `mma` (R284). -/
def execMma (h : Hdr) (tag : Fin 16) (a : Reg) (o : MmaOps) (s : State) :
    Host.Outcome State Fault Refusal :=
  issue (.mma h tag a o) s fun c s => mmaIssue false tag a o c s

/-- `mmap` (R285). -/
def execMmap (h : Hdr) (tag : Fin 16) (a : Reg) (o : MmaOps) (s : State) :
    Host.Outcome State Fault Refusal :=
  issue (.mmap h tag a o) s fun c s => mmaIssue true tag a o c s

/-! ## The other instructions -/

/-- `had` (R286). -/
def execHad (h : Hdr) (d a : Reg) (n g : HadN) (norm : Bool) (s : State) :
    Host.Outcome State Fault Refusal :=
  issue (.had h d a n g norm) s fun c s =>
    match s.poster c with
    | none => s
    | some q =>
      let rows := c.ga.map fun l => s.rdGroup 0 c.t l a g.toNat
      let (op, s) := s.enter c q 16 true .plain .device .keep (.had n norm rows)
      let (s, gs) := s.postLanes c op (regRun d g.toNat) true c.ga
      s.entryRes gs

/-- `acz` (R287). -/
def execAcz (h : Hdr) (tag : Fin 16) (pair : Bool) (s : State) : Host.Outcome State Fault Refusal :=
  issue (.acz h tag pair) s fun c s =>
    match s.poster c with
    | none => s
    | some q =>
      if s.tagKind c.p tag.val = some (!pair) then s.raise c 5 0
      else (s.enter c q tag.val false .plain .device .keep (.acz pair)).2

/-- `acrel` (R287). -/
def execAcrel (h : Hdr) (tag : Fin 16) (s : State) : Host.Outcome State Fault Refusal :=
  issue (.acrel h tag) s fun c s =>
    match s.poster c with
    | none => s
    | some q => (s.enter c q tag.val false .plain .device .keep .acrel).2

/-- `acrel.all` (R287): the tags that count as bound when it issues. -/
def execAcrelAll (h : Hdr) (s : State) : Host.Outcome State Fault Refusal :=
  issue (.acrelAll h) s fun c s =>
    match s.poster c with
    | none => s
    | some q =>
      let tags := (List.range 16).filter fun k => (s.tagKind c.p k).isSome
      (s.enter c q 16 false .plain .device .keep (.acrelAll tags false)).2

/-- `acld` (R288, R289). A tag of the other kind is found before a misaligned base or pitch, as by `mma` (R284) (DEDUCED,
log 104). -/
def execAcld (h : Hdr) (tag : Fin 16) (a : Reg) (f : AcForm) (pair : Bool) (s : State) :
    Host.Outcome State Fault Refusal :=
  issue (.acld h tag a f pair) s fun c s =>
    match s.poster c with
    | none => s
    | some q =>
      let kind := s.tagKind c.p tag.val
      match f with
      | .mem pr sp acq sco ca =>
        let base := s.rd64 0 c.t q a
        let pitch := s.rd 2 c.t q pr
        if kind = some (!pair) then s.raise c 5 0
        else if base % 4 ≠ 0 || pitch % 4 ≠ 0 then s.raise c 4 0
        else
          (s.enter c q tag.val true (if acq then .acq else .plain) sco ca (.acldMem base pitch sp pair)).2
      | .reg =>
        if kind = some true then s.raise c 5 0
        else
          (s.enter c q tag.val true .plain .device .keep (.acldReg (s.posRows c q 0 a.val 32))).2

/-- `acst` (R288, R289). -/
def execAcst (h : Hdr) (tag : Fin 16) (a : Reg) (f : AcForm) (s : State) :
    Host.Outcome State Fault Refusal :=
  issue (.acst h tag a f) s fun c s =>
    match s.poster c with
    | none => s
    | some q =>
      match f with
      | .mem pr sp rel sco ca =>
        let base := s.rd64 0 c.t q a
        let pitch := s.rd 2 c.t q pr
        if base % 4 ≠ 0 || pitch % 4 ≠ 0 then s.raise c 4 0
        else
          (s.enter c q tag.val true (if rel then .rel else .plain) sco ca (.acstMem base pitch sp)).2
      | .reg =>
        if s.tagKind c.p tag.val = some true then s.raise c 5 0
        else
          let b := wordBase c q
          let ls := c.ga.filter fun l => b ≤ l && l < b + 32
          let (op, s) := s.enter c q tag.val true .plain .device .keep (.acstReg (ls.map (· - b)))
          let (s, gs) := s.postLanes c op (regRun a 32) false ls
          s.entryRes gs

/-- `acstat` (R290). -/
def execAcstat (h : Hdr) (d : Reg) (tag : Fin 16) (clr : Bool) (s : State) :
    Host.Outcome State Fault Refusal :=
  issue (.acstat h d tag clr) s fun c s =>
    match s.poster c with
    | none => s
    | some q =>
      let (op, s) := s.enter c q tag.val true .plain .device .keep (.acstat clr)
      let (s, gs) := s.postLanes c op [d.val] false c.ga
      s.entryRes gs

/-! ## TUNDISH_GRANT -/

/-- Whether the Tundish may act on an entry: its cluster is resident, or its part has retired and only
its slots are still to be returned (R271, R291). -/
def State.entryHere (s : State) (e : TEntry) : Bool :=
  !e.frozen && (s.resident e.part
    || ((s.part e.part).life = .retired && (s.clusterOfTeam (teamOf e.part)).st ≠ .saved))

/-- Whether every earlier entry of the part on a tag has retired (R273, R287). -/
def State.tagTurn (s : State) (e : TEntry) (tag : Nat) : Bool :=
  !(s.tundish.any fun x => x.part = e.part && x.id < e.id && (x.tag = tag || (match x.body with
    | .acrelAll .. => tag < 16
    | _ => false)))

/-- The free arrays of a flask (R273). -/
def State.freeArrays (s : State) (flask : Nat) : List Nat :=
  (flaskArrays flask).filter fun a => !(s.arrays.get {} a).busy

/-- Whether the arrays of a binding are free. -/
def State.bindFree (s : State) (b : TagBind) : Bool :=
  !(s.arrays.get {} b.core).busy && (!b.paired || !(s.arrays.get {} (b.core ^^^ 1)).busy)

/-- What a grant gives an entry: an array alone, the tag's own arrays, new slots, or the release of one
tag by an `acrel.all`. -/
inductive Grant
  | any (a : Nat)
  | own (b : TagBind)
  | fresh (b : TagBind)
  | tag (k : Nat)
  deriving DecidableEq, Repr

/-- What the arbiter could grant an entry now (R273). -/
def State.grantOf (s : State) (e : TEntry) : Option Grant :=
  let free := s.freeArrays e.flask
  let anyArray := (s.bestArray e.core free).map Grant.any
  let slotted := free.filter fun a => (s.freeAcc a).isSome
  if e.array.isSome || !s.entryHere e then none
  else
    match e.body with
    | .had .. => anyArray
    | .acrelAll [] false => anyArray
    | .acrelAll tags _ =>
      (tags.find? fun k => s.tagTurn e k && (match s.tagOf e.part k with
        | some b => s.bindFree b
        | none => anyArray.isSome)).map Grant.tag
    | body =>
      if !s.tagTurn e e.tag then none
      else
        match s.tagOf e.part e.tag with
        | some b => if s.bindFree b then some (.own b) else none
        | none =>
          match body.kind? with
          | none => anyArray
          | some true =>
            (s.bestPair slotted).map fun a =>
              .fresh ⟨true, a, (s.freeAcc a).getD 0, (s.freeAcc (a + 1)).getD 0⟩
          | some false =>
            (s.bestArray e.core slotted).map fun a => .fresh ⟨false, a, (s.freeAcc a).getD 0, 0⟩

/-- The arbiter's order: priority, issue tick, core, team slot (R273). -/
def grantBefore (x y : TEntry) : Bool :=
  y.pri < x.pri || (x.pri = y.pri && (x.tick < y.tick || (x.tick = y.tick
    && (x.core < y.core || (x.core = y.core && (x.slot < y.slot || (x.slot = y.slot && x.id < y.id)))))))

def State.modEntry (s : State) (id : Nat) (f : TEntry → TEntry) : State :=
  { s with tundish := s.tundish.map fun e : TEntry => if e.id = id then f e else e }

/-- Occupy an array, and its follower for a paired pass (R275). -/
def State.occupy (s : State) (a : Nat) (paired : Bool) : State :=
  let s := { s with arrays := s.arrays.set {} a { s.arrays.get {} a with busy := true } }
  if paired then
    { s with arrays := s.arrays.set {} (a ^^^ 1) { s.arrays.get {} (a ^^^ 1) with busy := true } }
  else s

/-- Carry out a grant (R273, R275, R287). -/
def State.applyGrant (s : State) (e : TEntry) : Grant → State
  | .any a =>
    (s.occupy a false).modEntry e.id fun x =>
      { x with array := some a, body := match x.body with
          | .acrelAll t _ => .acrelAll t true
          | b => b }
  | .own b => (s.occupy b.core b.paired).modEntry e.id fun x => { x with array := some b.core }
  | .fresh b =>
    let s := { s with slots := s.slots.set {} (b.key 0) { used := true } }
    let s := if b.paired then { s with slots := s.slots.set {} (b.key 32) { used := true } } else s
    ((s.modPart e.part fun x => { x with tags := x.tags ++ [(e.tag, b)] }).occupy b.core
      b.paired).modEntry e.id fun x => { x with array := some b.core }
  | .tag k =>
    (s.unbind e.part k).modEntry e.id fun x =>
      { x with body := match x.body with
          | .acrelAll t _ => .acrelAll (t.filter (· ≠ k)) (t.all (· = k))
          | b => b }

/-- TUNDISH_GRANT (R273): the arbiter of a flask makes its next grant. -/
def State.tundishGrant (s : State) (flask : Nat) : State :=
  match (sortBy grantBefore (s.tundish.filter fun e => e.flask = flask)).findSome? fun e =>
      (s.grantOf e).map fun g => (e, g) with
  | some (e, g) => (s.applyGrant e g).count e.core 10 1
  | none => s

/-! ## The memory pieces of an entry -/

/-- The scale bytes of A and B of a pass. -/
def scaleA (o : MmaOps) (sa : List Nat) (r j : Nat) : Nat := scaleByte o.sca o.ta o.sel (sa.getD r 0) j
def scaleB (o : MmaOps) (sb : List Nat) (r j : Nat) : Nat := scaleByte o.scb o.tb o.sel (sb.getD r 0) j

/-- The pieces of memory that an entry moves: sectors of a pass's operands, and the words of a transfer
(R161, R280, R289) (DEDUCED, log 38). -/
def State.pieces (s : State) (e : TEntry) : List (Nat × Nat × Nat) :=
  let words (base pitch w : Nat) : List (Nat × Nat × Nat) :=
    (List.range 32).flatMap fun r => (List.range w).map fun c =>
      (r * 64 + c, (base + r * pitch + 4 * c) % 2 ^ 64, 4)
  match e.body with
  | .mma paired _ o a b sa sb _ =>
    let part (which : Nat) (l : List Nat) : List (Nat × Nat × Nat) :=
      l.map fun x => (x * 2 + which, x * 64, 64)
    part 0 (opSectors o.ta a o.ka.val 32 (scaleA o sa))
      ++ part 1 (opSectors o.tb b o.kb.val (if paired then 64 else 32) (scaleB o sb))
  | .acldMem base pitch _ pair => words base pitch (if pair then 64 else 32)
  | .acstMem base pitch _ => words base pitch (tileWidth (s.tagOf e.part e.tag))
  | _ => []

/-- The space of an entry's memory pieces. -/
def TEntry.space (e : TEntry) : Space :=
  match e.body with
  | .mma _ _ o .. => if o.stash then .stash else .global
  | .acldMem _ _ sp _ | .acstMem _ _ sp => sp
  | _ => .global

/-- Whether an entry's pieces are writes. -/
def TEntry.writes (e : TEntry) : Bool :=
  match e.body with
  | .acstMem .. => true
  | _ => false

def State.entryWho (s : State) (e : TEntry) : Who := { s.who e.part with master := 2 }

def State.entryEng (s : State) (e : TEntry) : Eng :=
  { w := { s.entryWho e with eng := true }, t := teamOf e.part, acq := isAcq e.ord, ca := e.ca, id := e.id, part := e.part }

/-- What an entry has left to access. -/
def State.entrySpans (s : State) (e : TEntry) : Spans :=
  (e.todo.getD (s.pieces e)).map fun x => (e.space, if e.writes then kWrite else kRead, x.2.1, 0, x.2.2)

/-- An entry that is stopped for good: its part's matrix queue freezes, and its arrays are free for other teams (R280,
R292) (DEDUCED, log 39). -/
def State.entryFreezes (s : State) (e : TEntry) : State :=
  ((s.releaseArrays [e]).modEntry e.id fun y => { y with array := none }).freezeQueue e.part .m e.id

/-- A violation of an entry: it is recorded and freezes the queue, and no fault record of the entry is written any more
(R52, R53). -/
def State.entryViolates (s : State) (e : TEntry) (x : Stop) (kind : Nat) : State :=
  (((s.modEntry e.id fun y => { y with reports := [] }).unfile e.reports).reportViolation (s.entryWho e) x
    kind).entryFreezes e

/-- An access of an entry at `va` stops: a violation decides, also one that another of its accesses would meet (R53); a
fault is reported, the entry's other accesses go on, and the entry waits for the replay (R49, R54) (DEDUCED, log 39). -/
def State.entryStop (s : State) (e : TEntry) (x : Stop) (kind va : Nat) : State :=
  if x.isViolation then s.entryViolates e x kind
  else if x.cause = busyCause then s
  else
    match s.spansStop (s.entryEng e) (s.entrySpans e) with
    | some y => s.entryViolates e y.1 y.2
    | none =>
      match s.reportFault (s.entryWho e) x kind with
      | (some r, s) => s.modEntry e.id fun y =>
        { y with reports := addReport r y.reports, parked := y.parked ++ [(r, va / 65536)] }
      | (none, s) => s.entryFreezes e

/-- Whether an entry may move memory now: a read under an acquire flag waits for its poster's earlier
work (R98), and a write for the tile. -/
def State.entryRuns (s : State) (e : TEntry) : Bool :=
  s.entryHere e && (e.array.isSome || !e.writes)
    && (!isAcq e.ord || s.acqReady e.part e.lane e.id e.sco)

/-- Write a word of a tile (R96, R289, R292) (DEDUCED, log 41). -/
def State.putTileWord (s : State) (e : TEntry) (a : Nat) (v : Nat × Bool) : State × Got Nat :=
  match s.engWrite (s.entryEng e) e.space a 0 4 v.1 (if v.2 then 15 else 0) with
  | (s, .ok t) => (s, .ok (max t e.time))
  | r => r

/-- Move the `i`th piece that is left of an entry. -/
def State.entryPiece (s : State) (id i : Nat) : State :=
  match s.tundish.find? fun e => e.id = id with
  | none => s
  | some e =>
    if !s.entryRuns e then s
    else
      let todo := e.todo.getD (s.pieces e)
      match todo[i]? with
      | none => s
      | some (k, a, n) =>
        let rest := some (todo.eraseIdx i)
        if parkedAt e.parked e.reports a then s
        else if e.writes then
          match s.putTileWord e a (s.tileWord (s.tagOf e.part e.tag) (k / 64) (k % 64)) with
          | (s, .ok t) => s.modEntry id fun y => { y with todo := rest, time := t }
          | (s, .stop x) => s.entryStop e x kWrite a
          | (s, .busy) => s
        else
          match s.engReadN (s.entryEng e) e.space a 0 n with
          | (s, .ok v) => s.modEntry id fun y => { y with todo := rest, buf := y.buf.set (0, 0) k v }
          | (s, .stop x) => s.entryStop e x kRead a
          | (s, .busy) => s

/-- The pieces that an entry has left. -/
def State.todoLeft (s : State) (id : Nat) : Nat :=
  match s.tundish.find? fun e => e.id = id with
  | none => 0
  | some e => (e.todo.getD (s.pieces e)).length

/-- Move every piece of an entry that can be moved now, the first first: a piece that has to wait is passed
over (R49) (DEDUCED, log 65). -/
def State.entryRun (s : State) (id : Nat) : State :=
  ((List.range (s.todoLeft id)).foldl (fun (r : State × Nat) _ =>
    let t := r.1.entryPiece id r.2
    (t, if t.todoLeft id < r.1.todoLeft id then r.2 else r.2 + 1)) (s, 0)).1

/-! ## PASS_RETIRE -/

/-- The new tile of a pass (R165 to R167, R284, R292). -/
def State.passTile (s : State) (b : TagBind) (buf : FMap (Nat × Nat)) (o : MmaOps) (x y : MOpnd)
    (sa sb : List Nat) (cent : Bool) : State :=
  let w := tileWidth (some b)
  let psnA := (List.range 32).map fun i => opPoison o.ta x o.ka.val buf 0 i (scaleA o sa)
  let psnB := (List.range w).map fun j => opPoison o.tb y o.kb.val buf 1 j (scaleB o sb)
  let old (i j : Nat) : Nat × Bool := s.tileWord (some b) i j
  let psn (i j : Nat) : Bool := (old i j).2 || psnA.getD i false || psnB.getD j false
  if mmaIsInt o then
    let ra := (List.range 32).map fun i => (List.range 64).map fun k =>
      opInt o.ta o.ka.val (opCode o.ta x o.ka.val buf 0 i k)
    let rb := (List.range w).map fun j => (List.range 64).map fun k =>
      opInt o.tb o.kb.val (opCode o.tb y o.kb.val buf 1 j k)
    s.setTile b (s.tileFlags b) fun i j =>
      let sum := ((ra.getD i []).zip (rb.getD j [])).foldl (fun (t : Int) (z : Int × Int) => t + z.1 * z.2) 0
      (wrap 32 (((old i j).1 : Int) + sum), psn i j)
  else
    let ra := (List.range 32).map fun i => opChunks o.ta x o.ka.val cent buf 0 i (scaleA o sa)
    let rb := (List.range w).map fun j => opChunks o.tb y o.kb.val cent buf 1 j (scaleB o sb)
    let res := (List.range 32).map fun i => (List.range w).map fun j =>
      dotAdd (old i j).1 (ra.getD i []) (rb.getD j [])
    let flags := res.foldl (fun (f : Nat) (r : List (Nat × Nat)) => r.foldl (fun f z => f ||| z.2) f) (s.tileFlags b)
    s.setTile b flags fun i j => (((res.getD i []).getD j (0, 0)).1, psn i j)

/-- The word that `acstat` reads (R290). -/
def State.statWord (s : State) (b : Option TagBind) : Nat :=
  match b with
  | none => 0
  | some b =>
    let psn := !(s.slots.get {} (b.key 0)).poison.isEmpty
      || (b.paired && !(s.slots.get {} (b.key 32)).poison.isEmpty)
    s.tileFlags b + b2n psn * 2 ^ 5 + 2 ^ 8 + b2n b.paired * 2 ^ 9 + b.core % 4 * 2 ^ 10 + b.slot * 2 ^ 12

/-- Fix and land the register results of an entry, before it retires (R274): the words of each group,
with flags on the first. -/
def State.landRes (s : State) (gs : List Nat) (rows : List (List (Nat × Bool) × Nat)) : State :=
  (gs.zip rows).foldl (fun (s : State) x =>
    let s := s.fixGroup x.1 x.2.1
    let ds := s.defs.filter fun d => d.group = x.1
    ds.zipIdx.foldl (fun (s : State) d =>
      s.land (if d.2 = 0 then { d.1 with flags := x.2.2 } else d.1)) s) s

/-- What an entry does to tiles, registers and tags as it retires (R284 to R290). -/
def State.entryEffect (s : State) (e : TEntry) : State :=
  let b := s.tagOf e.part e.tag
  let fromBuf (i j : Nat) : Nat × Bool :=
    let v := e.buf.get (0, 0) (i * 64 + j)
    (v.1, v.2 ≠ 0)
  match e.body, b with
  | .mma _ _ o x y sa sb cent, some b => s.passTile b e.buf o x y sa sb cent
  | .had n norm rows, _ =>
    s.landRes e.res (rows.map fun r =>
      let y := hadRow n.toNat norm r
      (y.1.map fun v => (v, false), y.2))
  | .acz _, some b => s.setTile b 0 fun _ _ => (0, false)
  | .acrel, _ => s.unbind e.part e.tag
  | .acldMem .., some b => s.setTile b (s.tileFlags b) fromBuf
  | .acldReg rows, some b =>
    s.setTile b (s.tileFlags b) fun i j => ((rows.getD i []).getD j 0, false)
  | .acstReg rows, b =>
    s.landRes e.res (rows.map fun i => ((List.range 32).map fun j => s.tileWord b i j, 0))
  | .acstat clr, b =>
    let s1 := s.landRes e.res (e.res.map fun _ => ([(s.statWord b, false)], 0))
    match clr, b with
    | true, some b =>
      { s1 with slots := s1.slots.set {} (b.key 0) { s1.slots.get {} (b.key 0) with flags := 0 } }
    | _, _ => s1
  | _, _ => s

/-- The array after an entry: free, with the A latch of the pass (R276). -/
def State.freeArray (s : State) (e : TEntry) (a : Nat) : State :=
  let x := s.arrays.get {} a
  let x := { x with busy := false, ended := if e.body.isPass then s.tick else x.ended }
  let x := match e.body with
    | .mma _ ra o .. => { x with latch := some (e.part, ra, o.sa.val) }
    | .had .. => { x with latch := x.latch.filter fun l => l.1 = e.part }
    | _ => x
  { s with arrays := s.arrays.set {} a x }

/-- A part that has retired gives back the slots that nothing in the Tundish needs any more, and its
record goes when its cluster is gone (R271). -/
def State.settleTags (s : State) (p : Nat) : State :=
  if (s.part p).life ≠ .retired then s
  else
    let s := s.freeTags p
    if (s.clusterOfTeam (teamOf p)).st = .absent && !(s.tundish.any fun e => e.part = p) then
      s.setPart p {}
    else s

/-- An entry retires (R274): its effect, its arrays, and its arrival on `m`. -/
def State.entryRetire (s : State) (e : TEntry) : State :=
  let paired := match s.tagOf e.part e.tag with
    | some b => b.paired
    | none => false
  let s := s.entryEffect e
  let s := match e.array with
    | some a => if paired then (s.freeArray e a).freeArray e (a ^^^ 1) else s.freeArray e a
    | none => s
  let s := { s with tundish := s.tundish.filter fun x => x.id ≠ e.id }
  let s := if isRel e.ord then s.raiseClock e.core e.time else s
  (s.arriveOp e.part e.op).settleTags e.part

/-- Whether an entry has been granted all that it needs. -/
def TEntry.granted (e : TEntry) : Bool :=
  match e.body with
  | .acrelAll t g => t.isEmpty && g
  | _ => e.array.isSome

/-- PASS_RETIRE (R274): what is left of the entry's memory moves, and it retires. -/
def State.passRetire (s : State) (id : Nat) : State :=
  match s.tundish.find? fun e => e.id = id with
  | none => s
  | some e =>
    if !e.granted || !s.entryHere e then s
    else
      let s := s.entryRun id
      match s.tundish.find? fun e => e.id = id with
      | none => s
      | some e => if (e.todo.getD (s.pieces e)).isEmpty && !e.frozen && e.reports.isEmpty then s.entryRetire e else s

/-- The early move of one piece of an entry, which the agenda may name at any time (R95, R96). -/
def State.matrixPiece (s : State) (id k : Nat) : State := s.entryPiece id k

end Sys2Proof.Machine
end

