-- ==== Sys2Proof/Machine/Runner.lean ====
section
/-! DEFINITION. The Runner: layouts, frames and segments, what it does for a held lane, and the Runner
instructions (R294 to R314). -/

namespace Sys2Proof.Machine

/-! ## Layouts and words -/

/-- Node bytes of a layout word (R295). -/
def layBytes (w : Nat) : Nat := 16 * 2 ^ bits w 0 3
/-- Offset of the child array. -/
def layOff (w : Nat) : Nat := bits w 8 8
/-- Bytes of a child entry. -/
def layEntry (w : Nat) : Nat := if bit w 16 then 8 else 4
/-- Number of child entries. -/
def layFan (w : Nat) : Nat := bits w 17 5

/-- Whether a layout word keeps the limits of R295. -/
def layOk (w : Nat) : Bool :=
  bits w 0 3 ≤ 4 && bits w 3 5 = 0 && layOff w % 4 = 0 && 1 ≤ layFan w && layFan w ≤ 16
    && bits w 22 10 = 0 && layOff w + layFan w * layEntry w ≤ layBytes w

/-- The visit word (R298). -/
def visitWord (kind depth child reason rem : Nat) : Nat :=
  kind + depth % 64 * 2 ^ 2 + child % 16 * 2 ^ 8 + reason * 2 ^ 12 + rem % 2 ^ 16 * 2 ^ 16

/-- The frame that 128 bits hold. -/
def Frame.ofWord (x : Nat) : Frame :=
  { node := bits x 0 56, child := bits x 56 4, pend := bits x 64 16, cur := bits x 80 4
    act := bit x 84, lv := bit x 85, rev := bit x 86 }

/-- Whether a frame word makes its segment bad (R308). -/
def frameBad (x : Nat) : Bool := bits x 60 4 ≠ 0 || bits x 87 41 ≠ 0 || bits x 0 4 ≠ 0

/-- The frames that a segment header names (R307). -/
def segFrames (h : Nat) : Nat := bits h 56 6

/-- Whether a segment header is bad for a traversal (R308). -/
def Trav.headBad (v : Trav) (h : Nat) : Bool :=
  segFrames h = 0 || v.dl < segFrames h || bits h 64 32 ≠ v.layout || bits h 62 2 ≠ 0 || bits h 96 32 ≠ 0

/-! ## What a held lane needs -/

/-- The child that a frame visits next (R301). -/
def Frame.next (f : Frame) : Option Nat :=
  let cs := (List.range 16).filter fun i => bit f.pend i
  if f.rev then cs.getLast? else cs.head?

/-- Bytes from an address up, as addresses modulo 2^64. -/
def addrRun (a n : Nat) : List Nat := (List.range n).map fun i => (a + i) % 2 ^ 64

/-- Bytes that the Runner has read for a lane, as a number. -/
def Lane.got (y : Lane) (a n : Nat) : Nat :=
  leNat ((addrRun a n).map fun x => ((y.rbuf.get none x).map (·.1)).getD 0)

/-- The bytes that the Runner's next step for a lane reads (R301, R308). -/
def Trav.needs (v : Trav) (y : Lane) : List Nat :=
  match y.work, y.frames.getLast? with
  | .enter, some f | .leave, some f => addrRun f.node (layBytes v.layout)
  | .advance, some f =>
    match f.next with
    | some c => addrRun (f.node + layOff v.layout + c * layEntry v.layout) (layEntry v.layout)
    | none => []
  | .segment, _ =>
    let head := addrRun y.root 16
    if head.any fun a => (y.rbuf.get none a).isNone then head
    else
      let h := y.got y.root 16
      if v.headBad h then head else head ++ addrRun (y.root + 16) (16 * segFrames h)
  | _, _ => []

/-- The bytes that are still to be read. -/
def Trav.missing (v : Trav) (y : Lane) : List Nat :=
  (v.needs y).filter fun a => (y.rbuf.get none a).isNone

/-- Whether the Runner may act for a lane: it holds it, the part's queue is not frozen, no report holds
the lane, and an acquiring command's earlier work is done (R98, R311, R312). -/
def State.runnerFor (s : State) (p l : Nat) : Bool :=
  let y := s.lane (laneId (teamOf p) l)
  y.hold = some .runner && y.work ≠ .idle && y.reports.isEmpty && s.resident p
    && !(s.part p).frozenQ.contains .t
    && (match y.acq with
      | some q => s.acqReady p q y.tOp (if y.acqSys then .system else .device)
      | none => true)

def State.runnerWho (s : State) (p : Nat) : Who := { s.who p with master := 3 }

/-- The engine that reads for a lane of a part (R310). -/
def State.runnerEng (s : State) (p l : Nat) (v : Trav) : Eng :=
  { w := { s.runnerWho p with eng := true }, t := teamOf p, acq := (s.lane (laneId (teamOf p) l)).acq.isSome, ca := v.ca }

/-- The lanes that the Runner holds for the same command as a lane. -/
def State.runnerMates (s : State) (p l : Nat) : List Nat :=
  (s.partLanes p).filter fun x =>
    (s.lane (laneId (teamOf p) x)).hold = some .runner
      && (s.lane (laneId (teamOf p) x)).tOp = (s.lane (laneId (teamOf p) l)).tOp

/-- What the next step of a lane has left to read, sector by sector. -/
def Trav.spans (v : Trav) (y : Lane) : Spans :=
  let as := v.missing y
  (as.filter fun a => a % 64 = 0 || as.head? = some a).map fun a => (if v.stash then .stash else .global, kRead, a, 0, 1)

/-- A violation of a node or segment read: it is recorded and freezes the part's Runner queue, and no fault record of the
command is written any more (R52, R53, R312). -/
def State.nodeViolates (s : State) (p l : Nat) (x : Stop) : State :=
  let ls := s.runnerMates p l
  let rs := ls.flatMap fun y => (s.lane (laneId (teamOf p) y)).reports
  let s := ls.foldl (fun (s : State) y => s.modLane (laneId (teamOf p) y) fun z => { z with reports := [] }) s
  ((s.unfile rs).reportViolation (s.runnerWho p) x kRead).freezeQueue p .t 0

/-- A read for a lane at `a` stops: a violation decides, also one that another read of its command would meet (R53); a
fault is reported and holds the lane (R54, R312). -/
def State.nodeStop' (s : State) (p l : Nat) (v : Trav) (x : Stop) (a : Nat) : State :=
  if x.isViolation then s.nodeViolates p l x
  else if x.cause = busyCause then s
  else
    let xs := (s.runnerMates p l).flatMap fun y => v.spans (s.lane (laneId (teamOf p) y))
    match s.spansStop (s.runnerEng p l v) xs with
    | some y => s.nodeViolates p l y.1
    | none =>
      match s.reportFault (s.runnerWho p) x kRead with
      | (some r, s) => s.modLane (laneId (teamOf p) l) fun z =>
        { z with reports := addReport r z.reports, parked := z.parked ++ [(r, a / 65536)] }
      | (none, s) => s.freezeQueue p .t 0

/-- Read one byte for a lane (R310), unless it waits for a report. A node's byte keeps its poison, which the window takes
(R75); a poisoned byte of a child entry or of a segment is a free value (DESIGN CHOICE, log 100). -/
def State.nodeByte (s : State) (p l : Nat) (v : Trav) (a : Nat) : State :=
  let y := s.lane (laneId (teamOf p) l)
  if parkedAt y.parked y.reports a then s
  else
    match s.engRead (s.runnerEng p l v) (if v.stash then .stash else .global) a 0 with
    | (s, .ok b) =>
      let whole : Bool := y.work = .enter || y.work = .leave
      let (s, x) := s.unpoison a 1 b.1.toNat (b2n (b.2 && !whole))
      s.modLane (laneId (teamOf p) l) fun z => { z with rbuf := z.rbuf.set none a (some (BitVec.ofNat 8 x, b.2)) }
    | (s, .busy) => s
    | (s, .stop x) => s.nodeStop' p l v x a

/-- The early read of one byte, which the agenda may name at any time (R95). -/
def State.nodeRead (s : State) (p l k : Nat) : State :=
  match (s.part p).trav with
  | none => s
  | some v =>
    if s.runnerFor p l then
      match (v.missing (s.lane (laneId (teamOf p) l)))[k]? with
      | some a => s.nodeByte p l v a
      | none => s
    else s

/-- Whether the Runner's reads for a lane go on beside one that a fault holds (R49, R312): they are one command's. -/
def State.runnerReads (s : State) (p l : Nat) (before : List Nat) : Bool :=
  (s.modLane (laneId (teamOf p) l) fun z => { z with reports := before }).runnerFor p l

/-- Read everything that the next step still needs and that can be read now. -/
def State.nodeReads (s : State) (p l : Nat) (v : Trav) : State :=
  let y := s.lane (laneId (teamOf p) l)
  (v.missing y).foldl (fun (s : State) a =>
    if s.runnerReads p l y.reports then s.nodeByte p l v a else s) s

/-! ## Release -/

/-- A lane of a command has been released: the command arrives on `t` with its last one (R304, R305). -/
def State.released' (s : State) (p l : Nat) : State :=
  let t := teamOf p
  let op := (s.lane (laneId t l)).tOp
  let s := s.modLane (laneId t l) fun y =>
    { y with tOp := 0, acq := none, acqSys := false, work := .idle, rbuf := [], parked := [] }
  if (s.partLanes p).any fun x => (s.lane (laneId t x)).tOp = op then s else s.arriveOp p op

/-- Write the window of a lane with the node's bytes (R297, R75). -/
def State.putWindow (s : State) (p l : Nat) (v : Trav) (node : Nat) : State :=
  let t := teamOf p
  let y := s.lane (laneId t l)
  (List.range (layBytes v.layout / 4)).foldl (fun (s : State) k =>
    let psn := (addrRun (node + 4 * k) 4).any fun a => ((y.rbuf.get none a).map (·.2)).getD false
    let s := s.wr t l (v.window + k) (y.got (node + 4 * k) 4)
    if psn then { s with regPoison := s.regPoison.set false (regKey t l (v.window + k)) true } else s) s

/-- Release a lane to a routine (R297, R298). -/
def State.releaseTo (s : State) (p l : Nat) (v : Trav) (label kind word : Nat) : State :=
  let t := teamOf p
  let s := (s.wr t l v.vr word).modLane (laneId t l) fun y => { y with wl := label, lastKind := kind }
  (s.released' p l).releaseLane p l

/-- R301 `end`: the stack is discarded and the lane goes to DON, which may be an exit (R303). -/
def State.endTrav (s : State) (p l : Nat) (v : Trav) (reason : Nat) : State :=
  let t := teamOf p
  let s := s.modLane (laneId t l) fun y => { y with inTrav := false, frames := [] }
  let s := (s.wr t l v.vr (visitWord 3 0 0 reason 0)).modLane (laneId t l) fun y =>
    { y with wl := v.don, lastKind := 3 }
  let s := s.released' p l
  let s := if v.don = 4095 then s.laneExit t l else s
  (s.releaseLane p l).exitCheck p

/-- Replace the top frame of a lane. -/
def Lane.setTop (y : Lane) (f : Frame) : Lane := { y with frames := y.frames.dropLast ++ [f] }

/-- The step of `advance` for a child entry that has been read (R296, R301). -/
def State.visitChild (s : State) (p l : Nat) (v : Trav) (f : Frame) (c : Nat) : State :=
  let k := laneId (teamOf p) l
  let y := s.lane k
  let depth := y.frames.length
  let e := y.got (f.node + layOff v.layout + c * layEntry v.layout) (layEntry v.layout)
  let a := if bit v.layout 16 then e else (y.root + 16 * e) % 2 ^ 64
  let g : Frame := { f with pend := f.pend - 2 ^ c }
  if e ≠ 0 && a % 16 = 0 && depth < v.dl then
    s.modLane k fun z =>
      let z1 := z.setTop { g with act := true, cur := c }
      { z1 with frames := z1.frames ++ [{ node := a, child := c }], work := .enter, rbuf := [] }
  else
    let s := s.modLane k fun z => { z.setTop g with rbuf := [] }
    if v.prn = 0 then s
    else
      let reason := if e = 0 then 0 else if a % 16 ≠ 0 then 2 else 1
      s.releaseTo p l v v.prn 2 (visitWord 2 depth c reason g.pend)

/-- The step of `advance` for a frame with no child left (R301). -/
def State.finishFrame (s : State) (p l : Nat) (v : Trav) (f : Frame) : State :=
  let k := laneId (teamOf p) l
  if f.lv && v.lea ≠ 0 then
    s.modLane k fun z =>
      { z.setTop { f with act := false, lv := false } with work := .leave, rbuf := [] }
  else if (s.lane k).frames.length ≤ 1 then s.endTrav p l v 0
  else s.modLane k fun z => { z with frames := z.frames.dropLast }

/-- Load a segment that has been read (R307, R308). -/
def State.loadSegment (s : State) (p l : Nat) (v : Trav) : State :=
  let k := laneId (teamOf p) l
  let y := s.lane k
  let h := y.got y.root 16
  let ws := (List.range (segFrames h)).map fun i => y.got (y.root + 16 + 16 * i) 16
  if v.headBad h || ws.any frameBad then s.endTrav p l v 3
  else
    s.modLane k fun z =>
      { z with root := bits h 0 56, frames := ws.map Frame.ofWord, work := .advance, rbuf := [] }

/-- One step of the Runner for a held lane whose bytes have all been read (R301, R308). -/
def State.runnerStep (s : State) (p l : Nat) (v : Trav) : State :=
  let y := s.lane (laneId (teamOf p) l)
  match y.work, y.frames.getLast? with
  | .enter, some f =>
    (s.putWindow p l v f.node).releaseTo p l v v.ent 0 (visitWord 0 (y.frames.length - 1) f.child 0 0)
  | .leave, some f =>
    (s.putWindow p l v f.node).releaseTo p l v v.lea 1 (visitWord 1 (y.frames.length - 1) f.child 0 0)
  | .advance, some f =>
    match f.next with
    | some c => s.visitChild p l v f c
    | none => s.finishFrame p l v f
  | .segment, _ => s.loadSegment p l v
  | _, _ => s.endTrav p l v 0

/-- Act for a lane until it is released or a read has to wait: bytes are read, and once none is missing
the next step is taken. -/
def State.runnerLoop (p l : Nat) : Nat → State → State
  | 0, s => s
  | n + 1, s =>
    match (s.part p).trav with
    | none => s
    | some v =>
      if !s.runnerFor p l then s
      else
        let m := v.missing (s.lane (laneId (teamOf p) l))
        if m.isEmpty then State.runnerLoop p l n (s.runnerStep p l v)
        else
          let s := s.nodeReads p l v
          if v.missing (s.lane (laneId (teamOf p) l)) = m then s else State.runnerLoop p l n s

/-- RUNNER_RELEASE (R297, R301): the Runner carries on with a held lane until it is released. A stack of
32 frames of 16 children bounds the steps. -/
def State.runnerRelease (s : State) (p l : Nat) : State := State.runnerLoop p l 2048 s

/-! ## `trav` and `tres` -/

/-- The part's traversal parameters (R294, R303). -/
def travParams (o : TravOps) (d : Reg) (lay dl : Nat) : Trav :=
  { layout := lay, dl := dl, window := d.val, vr := o.vr.val, ent := o.ent.val, lea := o.lea.val
    prn := o.prn.val, don := o.don.val, stash := o.stash, ca := o.ca, ord := if o.acq then .acq else .plain, sco := o.sco }

/-- The Runner-use checks of `trav` and `tres` (R304). -/
def State.travBad (s : State) (c : Ctx) (v : Trav) : Bool :=
  let n := layBytes v.layout / 4
  s.travHeld c.p || !layOk v.layout || v.dl = 0 || 32 < v.dl || v.window % n ≠ 0 || 255 < v.window + n
    || ((List.range n).any fun k => !declared (s.img c.t) (v.window + k) || v.window + k = v.vr)

/-- A helper lane at `trav` or `tres` goes to DON with a done word (R302). -/
def State.travHelper (s : State) (c : Ctx) (vr don l : Nat) : State :=
  (s.wr c.t l vr (visitWord 3 0 0 2 0)).leave c.t l don

/-- Start a lane (R304, R308): it takes ENT and is held. -/
def State.travLane (s : State) (c : Ctx) (v : Trav) (res : Bool) (op : Nat) (acq : Option Nat)
    (l root : Nat) : State :=
  (s.depart c.t l v.ent).modLane (laneId c.t l) fun y =>
    { y with hold := some .runner, inTrav := true, root := root, tOp := op, acq := acq, acqSys := v.sco = .system, rbuf := []
             frames := if res then [] else [{ node := root }]
             work := if res then .segment else .enter }

/-- The effect of `trav` and `tres` at issue (R302 to R304, R308). -/
def travIssue (res : Bool) (d a : Reg) (o : TravOps) (c : Ctx) (s0 : State) : State :=
  let ls := s0.owns c
  let hs := c.ga.filter fun l => s0.isHelper c.t l
  let helpers (s : State) : State :=
    eachLane hs (fun l s => s.travHelper c o.vr.val o.don.val l) s
  match ls.head? with
  | none => helpers s0
  | some q =>
    let v := travParams o d (s0.rd 2 c.t q (a.val + 2)) (bits (s0.rd 3 c.t q (a.val + 3)) 0 6)
    if s0.travBad c v then s0.raise c 6 0
    else if ls.any fun l => s0.rd64 0 c.t l a % 16 ≠ 0 then s0.raise c 4 0
    else
      let (op, s) := s0.raiseOp c.p .t
      let s := s.modPart c.p fun x => { x with trav := some v }
      helpers (eachLane ls (fun l s =>
        s.travLane c v res op (if o.acq then some q else none) l (s0.rd64 0 c.t l a)) s)

/-- `trav` (R304). -/
def execTrav (h : Hdr) (d a : Reg) (o : TravOps) (s : State) : Host.Outcome State Fault Refusal :=
  issue (.trav h d a o) s fun c s => travIssue false d a o c s

/-- `tres` (R308). -/
def execTres (h : Hdr) (d a : Reg) (o : TravOps) (s : State) : Host.Outcome State Fault Refusal :=
  issue (.tres h d a o) s fun c s => travIssue true d a o c s

/-! ## `tret` -/

/-- Whether every participant's last release admits a variant (R305). -/
def State.tretOk (s : State) (c : Ctx) (ls kinds : List Nat) : Bool :=
  (s.part c.p).trav.isSome && ls.all fun l =>
    let y := s.lane (laneId c.t l)
    y.inTrav && kinds.contains y.lastKind

/-- `tret` in the variants that hold its lanes (R305): `f` changes the top frame. -/
def tretIssue (kinds : List Nat) (acq : Bool) (sco : Scope) (f : Trav → Nat → State → Frame → Frame) (c : Ctx)
    (s0 : State) : State :=
  match s0.owns c with
  | [] => s0
  | q :: t =>
    match s0.tretOk c (q :: t) kinds, (s0.part c.p).trav with
    | true, some v =>
      let (op, s) := s0.raiseOp c.p .t
      eachLane (q :: t) (fun l s =>
        (s.depart c.t l v.ent).modLane (laneId c.t l) fun y =>
          let y1 := y.setTop (f v l s0 (y.frames.getLast?.getD {}))
          { y1 with hold := some .runner, tOp := op, acq := if acq then some q else none, acqSys := sco = .system
                    rbuf := [], work := .advance }) s
    | _, _ => s0.raise c 6 0

/-- `tret.desc` (R305). -/
def execTretDesc (h : Hdr) (a : Reg) (rev acq : Bool) (sco : Scope) (s : State) :
    Host.Outcome State Fault Refusal :=
  issue (.tretDesc h a rev acq sco) s fun c s =>
    tretIssue [0] acq sco (fun v l s0 f =>
      { f with pend := s0.rd 0 c.t l a % 2 ^ min 16 (layFan v.layout), lv := true, rev := rev }) c s

/-- `tret.skip` (R305). -/
def execTretSkip (h : Hdr) (acq : Bool) (sco : Scope) (s : State) :
    Host.Outcome State Fault Refusal :=
  issue (.tretSkip h acq sco) s fun c s =>
    tretIssue [0] acq sco (fun _ _ _ f => { f with pend := 0, lv := false }) c s

/-- `tret.cont` (R305). -/
def execTretCont (h : Hdr) (acq : Bool) (sco : Scope) (s : State) :
    Host.Outcome State Fault Refusal :=
  issue (.tretCont h acq sco) s fun c s => tretIssue [1, 2] acq sco (fun _ _ _ f => f) c s

/-- End a traversal at issue (R305): the done word is a fixed result, and the lane departs to DON. -/
def State.stopLane (s : State) (c : Ctx) (v : Trav) (l : Nat) : State :=
  ((s.wr c.t l v.vr (visitWord 3 0 0 1 0)).modLane (laneId c.t l) fun y =>
    { y with inTrav := false, frames := [], lastKind := 3 }).leave c.t l v.don

/-- `tret.stop` (R305). -/
def execTretStop (h : Hdr) (acq : Bool) (sco : Scope) (s : State) :
    Host.Outcome State Fault Refusal :=
  issue (.tretStop h acq sco) s fun c s =>
    match s.owns c with
    | [] => s
    | q :: t =>
      match s.tretOk c (q :: t) [0, 1, 2], (s.part c.p).trav with
      | true, some v => (eachLane (q :: t) (fun l s => s.stopLane c v l) s).exitCheck c.p
      | _, _ => s.raise c 6 0

/-! ## `tcut` and `tstat` -/

/-- The frames of a segment cut at level `k` (R306). -/
def cutFrames (fs : List Frame) (k : Nat) : List Frame :=
  (fs.take (k + 1)).zipIdx.map fun x =>
    if x.2 < k then { x.1 with pend := 0, lv := false }
    else { x.1 with act := false, cur := 0, lv := false }

/-- The words of a segment at an address (R306, R307). -/
def segWords (lay at' : Nat) (y : Lane) (k : Nat) : List (Nat × Nat) :=
  let head := y.root % 2 ^ 56 + (k + 1) * 2 ^ 56 + lay * 2 ^ 64
  let xs := head :: (cutFrames y.frames k).map Frame.word
  xs.zipIdx.flatMap fun x =>
    (List.range 4).map fun j => ((at' + 16 * x.2 + 4 * j) % 2 ^ 64, bits x.1 (32 * j) 32)

/-- Drop the pending children of frame `k` of a lane (R306). -/
def Lane.cut (y : Lane) (k : Nat) : Lane :=
  { y with frames := y.frames.zipIdx.map fun x : Frame × Nat =>
      if x.2 = k then { x.1 with pend := 0 } else x.1 }

/-- The effect of `tcut` at issue (R306) (DEDUCED, log 43). -/
def tcutIssue (d a : Reg) (o : TcutOps) (c : Ctx) (s : State) : State :=
  match s.owns c with
  | [] => s
  | q :: t =>
    let lane (l : Nat) : Lane := s.lane (laneId c.t l)
    let level (l : Nat) : Nat := s.rd 4 c.t l d
    let bad (l : Nat) : Bool := !(lane l).inTrav || (lane l).frames.length ≤ level l
    match (s.part c.p).trav with
    | none => s.raise c 6 0
    | some v =>
      if (q :: t).any bad then s.raise c 6 0
      else if (q :: t).any fun l => s.rd64 0 c.t l a % 16 ≠ 0 then s.raise c 4 0
      else
        let ws := (q :: t).flatMap fun l => segWords v.layout (s.rd64 0 c.t l a) (lane l) (level l)
        let (id, s1) := s.takeId
        let k : Cmd :=
          { id := id, eng := .t, core := s.coreOf c.p, part := c.p, lanes := [q], op := 0
            ord := if o.rel then .rel else .plain, sco := o.sco, bar := o.bar, ca := o.ca
            body := .tcut o.stash ws, pend := o.bar.any fun b => !(s.bar (barKey c.t b)).count, frozen := (s.part c.p).frozenQ.contains .t }
        let s1 := ({ s1 with cmds := s1.cmds ++ [k] }).pendBar c.t o.bar
        eachLane (q :: t) (fun l s2 => s2.modLane (laneId c.t l) fun y => y.cut (level l)) s1

/-- `tcut` (R306). -/
def execTcut (h : Hdr) (d a : Reg) (o : TcutOps) (s : State) : Host.Outcome State Fault Refusal :=
  issue (.tcut h d a o) s fun c s => tcutIssue d a o c s

/-- TCUT_COMPLETE (R306, R310): the writes that are left, and then the completion. -/
def State.tcutComplete (s : State) (id : Nat) : State :=
  match s.cmds.find? fun k => k.id = id && k.eng = .t with
  | none => s
  | some k =>
    if !s.cmdRuns k then s
    else
      let s := s.cmdRun id
      match s.cmds.find? fun k => k.id = id with
      | none => s
      | some k => if k.body.done && !k.frozen && k.reports.isEmpty then s.cmdComplete k else s

/-- The word that `tstat` reads for a lane (R309). -/
def State.tstatWord (s : State) (c : Ctx) (l k : Nat) : Nat :=
  let y := s.lane (laneId c.t l)
  let cut := b2n (s.cutting c.p) * 2 ^ 8
  if s.isHelper c.t l then cut
  else if !y.inTrav then y.lastKind * 2 + cut
  else
    1 + y.lastKind * 2 + (y.frames.length - 1) * 2 ^ 3 + cut
      + (match y.frames[k]? with
        | some f => f.pend * 2 ^ 16
        | none => 0)

/-- `tstat` (R309). -/
def execTstat (h : Hdr) (d a : Reg) (s : State) : Host.Outcome State Fault Refusal :=
  issue (.tstat h d a) s fun c s0 =>
    c.ga.foldl (fun (s : State) l =>
      (s.postWords c.t l [d.val] (some [(s0.tstatWord c l (s0.rd 0 c.t l a), false)]) 0).2) s0

end Sys2Proof.Machine
end

