-- ==== Sys2Proof/Machine/Sprue.lean ====
section
/-! DEFINITION. The Sprue socket: guest queues and packets, what the port does for the guest and checks of
it, and the instructions `gpost` and `gpoll` (R315 to R325). -/

namespace Sys2Proof.Machine

/-! ## Guest queues -/

namespace State

def gqueue (s : State) (q : Nat) : GQueue := s.guest.queues.get {} q
def setGqueue (s : State) (q : Nat) (g : GQueue) : State :=
  { s with guest := { s.guest with queues := s.guest.queues.set {} q g } }
def modGqueue (s : State) (q : Nat) (f : GQueue → GQueue) : State := s.setGqueue q (f (s.gqueue q))
def modGuest (s : State) (f : Guest → Guest) : State := { s with guest := f s.guest }

end State

/-- Whether a queue is bound to a function (R316). -/
def GQueue.boundTo (g : GQueue) (vf : Nat) : Bool := g.depth ≠ 0 && bits g.gqb 1 6 = vf

/-- The status of a post (R320). -/
def State.postStatus (s : State) (q vf compl : Nat) : Nat :=
  if !(s.gqueue q).boundTo vf then 1
  else if !s.guestOn then 2
  else if compl % 8 ≠ 0 then 3
  else 0

/-- The completion address of a packet's words. -/
def packetCompl (w : Nat) : Nat := bits w 64 64

/-- Stamp the fields of a packet that the device writes (R317). -/
def stampPacket (w : Nat) (ord : Ord) (sco : Scope) (q vf spid seq : Nat) : Nat :=
  w % 2 ^ 8 + ord.code * 2 ^ 8 + sco.code * 2 ^ 10 + q * 2 ^ 16 + vf % 64 * 2 ^ 22
    + spid % 2 ^ 12 * 2 ^ 32 + seq % 2 ^ 16 * 2 ^ 48 + w / 2 ^ 64 * 2 ^ 64

/-- Queue a packet with the queue's next sequence number (R317). -/
def State.postPacket (s : State) (q : Nat) (x : Packet) (sco : Scope) : State :=
  let seq := (s.gqueue q).seq
  let y : Packet :=
    { x with seq := seq, words := stampPacket x.words x.ord sco q x.vf x.spid seq }
  s.modGqueue q fun g => { g with seq := (g.seq + 1) % 2 ^ 16, pkts := g.pkts ++ [y] }

/-! ## The instructions -/

/-- The 512 bits of a packet group of the poster (R320). -/
def State.packetWords (s : State) (c : Ctx) (l : Nat) (a : Reg) : Nat :=
  ((List.range 16).map fun k => s.rd (2 + k) c.t l (a.val + k) * 2 ^ (32 * k)).foldl (· + ·) 0

/-- `gpost` (R320). -/
def execGpost (h : Hdr) (d a qr : Reg) (ord : Ord) (sco : Scope) (s : State) :
    Host.Outcome State Fault Refusal :=
  issue (.gpost h d a qr ord sco) s fun c s0 =>
    match s0.poster c, s0.gq c qr with
    | some l, some q =>
      let w := s0.packetWords c l a
      let launch := s0.launch (s0.launchOf c.t)
      let k := s0.postStatus q launch.vf (packetCompl w)
      let s := s0.status c d.val k
      if k ≠ 0 then s
      else
        let (op, s) := s.raiseOp c.p .q
        s.postPacket q { seq := 0, part := c.p, op := op, vf := launch.vf, spid := launch.spid
                         launch := s0.launchOf c.t, words := w, ord := ord, lane := l, dest := d.val, lanes := c.ga } sco
    | _, _ => s0

/-- The word that `gpoll` reads (R320). -/
def State.pollWord (s : State) (q vf : Nat) : Nat :=
  let g := s.gqueue q
  let top := b2n s.guest.frz * 2 ^ 25 + b2n s.guest.up * 2 ^ 26
  if g.boundTo vf then
    (if g.cv then g.cseq else 0) + g.flight % 2 ^ 9 * 2 ^ 16 + top + 2 ^ 27 + b2n g.cv * 2 ^ 28
  else top

/-- `gpoll` (R320). -/
def execGpoll (h : Hdr) (d qr : Reg) (s : State) : Host.Outcome State Fault Refusal :=
  issue (.gpoll h d qr) s fun c s0 =>
    match s0.gq c qr with
    | some q =>
      let w := s0.pollWord q (s0.vfOf c.t)
      c.ga.foldl (fun (s : State) l => (s.postWords c.t l [d.val] (some [(w, false)]) 0).2) s0
    | none => s0

/-! ## Delivery -/

/-- The clock of a packet's poster, for a packet whose flag orders the guest's accesses (R101). -/
def State.packetClock (s : State) (k : Packet) : Nat :=
  match k.node with
  | some (g, n) => (s.node g n).time
  | none => (s.core (s.coreOf k.part)).clock

/-- Whether a packet may be delivered (R320, R321). -/
def State.mayDeliver (s : State) (k : Packet) : Bool :=
  !k.quiesce && (k.node.isSome
    || (s.resident k.part
      && (!isAcq k.ord || s.acqReady k.part k.lane k.op ((Scope.ofCode (bits k.words 10 3)).getD .device))))

/-- GUEST_PACKET_DELIVER (R320): the first packet of a queue that has not been delivered. Under an acquire flag the guest's
clock follows its poster's, once no lease that the guest holds keeps it back (R101, R322). -/
def State.guestDeliver (s : State) (q : Nat) : State :=
  match (s.gqueue q).pkts.find? fun k => !k.returned && !k.delivered with
  | none => s
  | some k =>
    if !s.guestOn || !s.mayDeliver k then s
    else
      let s := if isAcq k.ord then s.guestMoves (s.packetClock k) else s
      if isAcq k.ord && s.guest.clock < s.packetClock k then s
      else
        s.modGqueue q fun g => { g with pkts := g.pkts.map fun x : Packet =>
          if x.seq = k.seq && !x.returned then { x with delivered := true } else x }

/-! ## Completion -/

/-- Who the port works for when it acts on a packet (R47, R318). -/
def State.packetWho (s : State) (q : Nat) (k : Packet) : Who :=
  { core := 0, vf := k.vf, spid := k.spid, root := (s.launch k.launch).root
    lvl := if k.node.isSome then .s else (s.launch k.launch).level
    master := 4, slot := q, launch := k.launch }

/-- The packet is over (R318, R321): it leaves its queue, and arrives on `q` or ends its node. `time` is
the time that its completion follows, 0 without a release flag. -/
def State.endPacket (s : State) (q : Nat) (k : Packet) (time : Nat) (behalf : Bool) : State :=
  let s := s.modGqueue q fun g =>
    { g with pkts := g.pkts.eraseP fun x => !x.returned && x.seq = k.seq, cseq := k.seq, cv := true }
  match k.node with
  | some (g, n) =>
    if (s.queue g).run.isNone then s
    else if behalf then s.failNode g n 4 else s.nodeDone g n (max time (s.node g n).time)
  | none => (if time = 0 then s else s.raiseClock (s.coreOf k.part) time).arriveOp k.part k.op

/-- What the port does for the guest raises the guest's clock by its walk's reads, and the clock passes no lease that the
guest holds: until then it has to wait (R322). -/
def State.guestKeeps {α : Type} (s : State) (r : State × Got α) : State × Got α :=
  let t := r.1.guest.clock
  if s.guest.clock < t && !r.1.guestMay noSector t then (s.guestMoves t, .busy) else r

/-- Write the completion word of a packet (R318): the time it took, or what stopped it. -/
def State.writeCompl (s : State) (q : Nat) (k : Packet) (word : Nat) (rel : Bool) : State × Got Nat :=
  let a := packetCompl k.words
  if a = 0 then (s, .ok 0)
  else s.guestKeeps (s.agentWriteAt (s.packetWho q k) (if rel then s.guest.clock else 0) a 8 word)

/-- The packets in flight of all queues, queue by queue. -/
def State.inFlight (s : State) : List (Nat × Packet) :=
  s.guest.queues.flatMap fun q => (q.2.pkts.filter fun k => !k.returned).map fun k => (q.1, k)

/-- The first packet of a queue in flight. -/
def GQueue.head (g : GQueue) : Option Packet := g.pkts.find? fun k => !k.returned

/-- The first packet of a queue that is in flight and has no status yet: the one that may be completed next (R322). -/
def GQueue.nextReport (g : GQueue) : Option Packet := g.pkts.find? fun k => !k.returned && k.status.isNone

/-- Give a packet in flight its status, the one of a queue that has the number and none yet, and note which writes its
report follows. -/
def State.setStatus (s : State) (q seq status : Nat) : State :=
  s.modGqueue q fun g => { g with pkts := g.pkts.map fun k : Packet =>
    if k.seq = seq && !k.returned && k.status.isNone then { k with status := some status, reported := s.nextId } else k }

/-- The status of a packet that the device completes on the guest's behalf, with bit 31 of its word (R318, R323). -/
def behalf : Nat := 0xFFFF

/-- The number by which the port names a packet to itself when it tries a completion again: no report of the guest
carries it. -/
def retrySeq (seq : Nat) : Nat := seq + 2 ^ 16

/-- Freeze the guest (R323): sectors it owns are poisoned with the home's bytes, its leases and translations are dropped,
and so are its writes that the port holds; every packet in flight, one whose report is held among them, is to be completed
on its behalf (`State.finishQueues`). -/
def State.breakGuest (s : State) (code : Nat) : State :=
  if s.guest.frz then s
  else
    let s := (s.modGuest fun g => { g with frz := true, brk := code }).signalFault 64
    let s := (s.guest.secs.filter fun x => x.2.owned).foldl (fun (s : State) x =>
      s.putBytes (x.1 * 64) 64 (s.getBytes (x.1 * 64) 64).1 (ones 64) (ones 64)) s
    s.modGuest fun g =>
      { g with secs := [], xlats := [], invs := [], writes := []
               queues := g.queues.map fun x : Nat × GQueue =>
                 (x.1, { x.2 with pkts := x.2.pkts.map fun k : Packet =>
                   if k.returned then k else { k with status := some behalf } }) }

/-- Complete the first packet of a queue, when it has its status (R318): a release flag holds it until the guest's writes
have been performed. The second result says whether it is over. -/
def State.completeHead (s : State) (q : Nat) : State × Bool :=
  match (s.gqueue q).head with
  | none => (s, false)
  | some k =>
    match k.status with
    | none => (s, false)
    | some st =>
      let own := st = behalf
      let rel := isRel k.ord && !own
      let again (s : State) (r : Nat) : State := s.await r (.event (.guestCompletionReport q (retrySeq k.seq) 0))
      if s.waiters.any (fun x => match x.2 with
          | .event (.guestCompletionReport q' n _) => q' = q && n = retrySeq k.seq
          | _ => false) || (rel && s.guest.writes.any fun x => x.id < k.reported) then (s, false)
      else
        match s.writeCompl q k (k.seq + st * 2 ^ 16) rel with
        | (s, .ok t) => (s.endPacket q k (if rel then max t s.guest.clock else 0) own, true)
        | (s, .busy) => (again s 0, false)
        | (s, .stop x) =>
          let w := s.packetWho q k
          let lost (s : State) : State × Bool :=
            if own then (s.endPacket q k 0 true, true) else ((s.breakGuest 0).endPacket q k 0 true, true)
          if x.isViolation then lost (s.reportViolation w x kWrite)
          else
            match s.reportFault w x kWrite with
            | (some r, s) => (again s r, false)
            | (none, s) => lost s

/-- Complete the packets of a queue that have their status, in order (R322). -/
def State.finishQueue (s : State) (q : Nat) : State :=
  ((List.range (s.gqueue q).pkts.length).foldl (fun (r : State × Bool) _ =>
    if r.2 then r.1.completeHead q else r) (s, true)).1

/-- The completion word of a packet is lost: its report was resolved with ABORT. The packet ends without it, and when the
guest had reported it the guest is broken (R50, R323). -/
def State.loseCompletion (s : State) (q seq : Nat) : State :=
  match (s.gqueue q).pkts.find? fun k => k.seq = seq && !k.returned with
  | none => s
  | some k => (if k.status = some behalf then s else s.breakGuest 0).endPacket q k 0 true

/-- Complete what can be completed of every queue. -/
def State.finishQueues (s : State) : State := s.guest.queues.keys.foldl (fun (s : State) q => s.finishQueue q) s

/-- Freeze the guest and complete its packets (R323). -/
def State.freezeGuest (s : State) (code : Nat) : State :=
  if s.guest.frz then s else (s.breakGuest code).finishQueues

/-- GUEST_COMPLETION_REPORT (R318, R322, R323): out of order, or for no packet that the guest holds, is breach 1. A number
past 16 bits is the port's own: it goes on with a completion that had to wait. -/
def State.guestReport (s : State) (q seq status : Nat) : State :=
  if 2 ^ 16 ≤ seq then s.finishQueues
  else if !s.guestOn then s
  else
    match (s.gqueue q).nextReport with
    | some k =>
      if k.seq = seq && k.delivered then ((s.setStatus q seq (status % 2 ^ 15)).finishQueue q).finishQueues
      else s.freezeGuest 1
    | none => s.freezeGuest 1

/-! ## The guest's accesses -/

/-- Answer a request of the guest. -/
def State.answer (s : State) (x : Option (List Nat)) : State := s.modGuest fun g => { g with answer := x }

/-- The answer to a translation request whose report was resolved with ABORT, or whose ring is disabled (R48, R322): the
guest then has to complete the packet. -/
def State.guestAbort (s : State) (q vf spid : Nat) : State :=
  (s.answer none).modGqueue q fun g => { g with pkts := g.pkts.map fun k : Packet =>
    if k.vf = vf && k.spid = spid && k.delivered && !k.returned && !k.aborted then
      { k with aborted := true, abortAt := s.tick }
    else k }

/-- The packet that the guest is running on a queue for a function and space. -/
def GQueue.running (g : GQueue) (vf spid : Nat) : Option Packet :=
  g.pkts.find? fun k => k.delivered && !k.returned && k.vf = vf && k.spid = spid

/-- A walk's outcome as that of an access. -/
def walked (r : State × Res Tlb) : State × Got Tlb :=
  (r.1, match r.2 with
    | .ok e => .ok e
    | .stop x => .stop x)

/-- GUEST_TRANSLATION_REQUEST (R322): a translation for a packet's function and space, kept by the port;
the answer to one that faults waits for FRES. A request for no packet in hand is answered with none. -/
def State.guestTranslate (s : State) (q vf spid va : Nat) (write : Bool) : State :=
  if !s.guestOn then s
  else
    match (s.gqueue q).running vf spid with
    | none => s.answer none
    | some k =>
      let w := s.packetWho q k
      let kind := if write then kWrite else kRead
      let again (s : State) (r : Nat) : State := s.await r (.event (.guestTranslationRequest q vf spid va write))
      match s.guestKeeps (walked (s.resolve w kind va)) with
      | (s, .busy) => again s 0
      | (s, .ok e) =>
        (s.modGuest fun g => { g with xlats := addTlb (g.xlats.length + 1) e g.xlats }).answer
          (some [e.phys 0 va, e.lg])
      | (s, .stop x) =>
        if x.isViolation then (s.reportViolation w x kind).freezeGuest 0
        else
          match s.reportFault w x kind with
          | (some r, s) => again s r
          | (none, s) => s.guestAbort q vf spid

/-- A packet that the guest runs on a queue and a translation handed out for its function and space under which an
address may be reached (R322). -/
def State.handedOut (s : State) (q pa len : Nat) : Option (Packet × Tlb) :=
  ((s.gqueue q).pkts.filter fun k => k.delivered && !k.returned).findSome? fun k =>
    (s.guest.xlats.find? fun e => e.vf = k.vf && e.spid = k.spid
      && e.pa ≤ pa && pa + len ≤ e.pa + 2 ^ e.lg).map fun e => (k, e)

/-- Put a sector among those the guest holds. -/
def State.guestHolds (s : State) (sec : Nat) (x : GSector) : State :=
  s.modGuest fun g => { g with secs := (sec, x) :: g.secs.filter fun y => y.1 ≠ sec }

/-- A guest access outside every translation that was handed out (R46, R322). No translation gives its address, so the
record names the physical one, at stage 1, level 0 (DEDUCED, log 84). -/
def State.guestOutside (s : State) (q pa kind : Nat) : State :=
  let k := (s.gqueue q).head.getD { seq := 0, part := 0, op := 0, vf := bits (s.gqueue q).gqb 1 6, spid := 0
                                    launch := 0, words := 0, ord := .plain }
  (s.reportViolation (s.packetWho q k) ⟨false, 0, if kind = kWrite then 9 else 8, pa⟩ kind).freezeGuest 0

/-- The port knows a translation by its entry as it stands now: among those handed out, those being invalidated, and
those of the writes that it holds. -/
def Guest.renew (g : Guest) (e e' : Tlb) : Guest :=
  let upd (x : Tlb) : Tlb := if x = e then e' else x
  { g with xlats := g.xlats.map upd
           invs := g.invs.map fun v : GInval => { v with es := v.es.map upd }
           writes := g.writes.map fun x : GWrite => { x with e := upd x.e } }

/-- ACC, and DIRTY for a write, are set in the leaves of a translation as the guest's access is performed (R44). -/
def State.guestMark (s : State) (w : Who) (e : Tlb) (write : Bool) : State :=
  (s.markUsed w e write).modGuest fun g => g.renew e { e with acc := true, dirty := e.dirty || write }

/-- Who the guest's access works for under a translation. -/
def guestWho (e : Tlb) : Who := { core := 0, vf := e.vf, spid := e.spid, root := 0, lvl := .s, master := 4 }

/-- The bytes of an answer, lowest first: 256 for a poisoned one (R75). -/
def answerBytes (n v m : Nat) : List Nat :=
  (List.range n).map fun i => if bit m i then 256 else (byteOf v i).toNat

/-- A read by the guest inside one sector: it holds a leased copy (R62, R101, R322). `none` when it has to wait. -/
def State.guestRead (s : State) (e : Tlb) (pa len : Nat) : Option State :=
  let sec := pa / 64
  if s.leafBusy e || s.busySec pa then none
  else
    let s := s.guestMark (guestWho e) e false
    let (s1, h) := s.grant e.vf .keep s.guest.clock sec
    let t := s1.readTime 0 s1.guest.clock sec h.wts
    if !s1.guestMay sec t then none
    else
      let x := s1.getBytes pa len
      some (((s1.guestHolds sec { owned := false, wts := h.wts, rts := h.rts }).modGuest fun g =>
        { g with clock := t }).answer (some (answerBytes len x.1 x.2)))

/-- The guest takes a sector into ownership, as a store does (R62, R322); its writes then stand at its own clock. -/
def State.guestOwns (s : State) (e : Tlb) (sec : Nat) : State × Bool :=
  if s.leafBusy e || s.busySec (sec * 64) || e.attr.rep then (s, false)
  else
    let (s1, t) := (s.guestMark (guestWho e) e true).takeTime e.vf .keep noLane s.guest.clock sec
    let t := max t s1.guest.clock
    if !s1.guestMay sec t then (s, false)
    else ((s1.guestHolds sec { owned := true, wts := t, rts := t }).modGuest fun g => { g with clock := t }, true)

/-- A write by the guest inside one sector (R62, R101, R107). No byte takes it into ownership instead (R322). The second
result says whether it has been performed. -/
def State.guestWrite (s : State) (q : Nat) (e : Tlb) (pa len data : Nat) : State × Bool :=
  let sec := pa / 64
  if len = 0 then s.guestOwns e sec
  else
    match s.writePage (guestWho e) (.guest q) 0 e s.guest.clock pa len data 0 .keep with
    | (s1, .ok t) =>
      if !s1.guestMay sec t then (s, false)
      else
        (s1.modGuest fun g => { g.renew e { e with acc := true, dirty := true } with
          clock := max g.clock t, secs := g.secs.filter fun y => y.1 ≠ sec || y.2.owned }, true)
    | (s1, _) => (s1, false)

/-- GUEST_ACCESS (R322): a coherent access inside one sector, checked against the translations handed out. A write that
has to wait is held at the port, behind those to its sector that wait already; a read is made again. -/
def State.guestAccess (s : State) (q pa len : Nat) (write : Bool) (data : Nat) : State :=
  let n := min len (64 - pa % 64)
  let kind := if write then kWrite else kRead
  if !s.guestOn then s
  else
    match s.handedOut q pa n with
    | none => s.guestOutside q pa kind
    | some (k, e) =>
      let w := s.packetWho q k
      match s.violation e (e.va + (pa - e.pa)) kind w.lvl true with
      | some x => (s.reportViolation w x kind).freezeGuest 0
      | none =>
        let behind := s.guest.writes.any fun x => x.pa / 64 = pa / 64
        if !s.homed pa then s
        else if write then
          let r := if behind then (s, false) else s.guestWrite q e pa n data
          if r.2 || n = 0 then r.1
          else
            let (id, s) := r.1.takeId
            let x : GWrite := { id := id, q := q, pa := pa, len := n, data := data, e := e }
            s.modGuest fun g => { g with writes := g.writes ++ [x] }
        else if behind then s
        else (s.guestRead e pa n).getD s

/-- Invalidations that the guest has acknowledged are over once no write that the port holds uses one of their
translations (R45, R322). -/
def State.settleInvals (s : State) : State :=
  s.modGuest fun g => { g with invs := g.invs.filter fun v => !v.acked || g.writes.any fun x => v.es.contains x.e }

/-- Perform the guest's writes that wait, as far as they can be now, in their order for each sector; completions and
invalidations that waited for them go on (R45, R318, R325). -/
def State.guestWrites (s : State) : State :=
  let s1 := (s.guest.writes.map (·.id)).foldl (fun (s : State) id =>
    match s.guest.writes.find? fun y => y.id = id with
    | none => s
    | some y =>
      if s.guest.writes.any fun x => x.id < id && x.pa / 64 = y.pa / 64 then s
      else
        match s.guestWrite y.q y.e y.pa y.len y.data with
        | (s, true) => s.modGuest fun g => { g with writes := g.writes.filter fun x => x.id ≠ id }
        | (s, false) => s) s
  if s1.guest.writes.length < s.guest.writes.length then s1.settleInvals.finishQueues else s1

/-- GUEST_INVALIDATION_ACK (R322): the translations of an invalidation are gone. -/
def State.guestAck (s : State) (id : Nat) : State :=
  match s.guest.invs.find? fun v => v.id = id with
  | none => s
  | some x =>
    (s.modGuest fun g => { g with invs := g.invs.map fun v : GInval => if v.id = id then { v with acked := true } else v
                                  xlats := g.xlats.filter fun e => !x.es.contains e }).settleInvals

/-- Ask the guest to give up some translations: the number of the invalidation, 0 when neither the guest nor a write that
the port holds has one of them (R45, R322). -/
def State.askInvalidate (s : State) (which : Tlb → Bool) : Nat × State :=
  let es := s.guest.xlats.filter which
  let ws := (s.guest.writes.map (·.e)).filter which
  if (es.isEmpty && ws.isEmpty) || s.guest.frz then (0, s)
  else
    let (id, s) := s.takeId
    let v : GInval := { id := id, es := es ++ ws, since := s.tick, acked := es.isEmpty }
    (id, s.modGuest fun g => { g with invs := g.invs ++ [v] })

/-- Mark a sector of the guest as asked for. -/
def State.snoop (s : State) (sec : Nat) : State :=
  s.modGuest fun g => { g with secs := g.secs.map fun x : Nat × GSector =>
    if x.1 = sec && x.2.snooped.isNone then (x.1, { x.2 with snooped := some s.tick }) else x }

/-- GUEST_LEASE_SNOOP (R322): when the guest's clock is within 64 of the rts of a sector it holds. -/
def State.leaseSnoop (s : State) (pa : Nat) : State :=
  match s.guest.secs.find? fun x => x.1 = pa / 64 with
  | some x => if !x.2.owned && x.2.rts ≤ s.guest.clock + 64 then s.snoop x.1 else s
  | none => s

/-- GUEST_SNOOP_OR_RECALL_ANSWER (R63, R322): the guest gives up a sector that it holds with a lease. The bytes of one that
it owned are written at the home, which takes the times back, and it keeps a clean copy: the recall is a read's, as
RECALL's of a stash is (DESIGN CHOICE, log 44). -/
def State.snoopAnswer (s : State) (pa data : Nat) : State :=
  match s.guest.secs.find? fun x => x.1 = pa / 64 && x.2.snooped.isSome with
  | none => s
  | some x =>
    if x.2.owned then
      let t := max s.guest.clock x.2.rts
      ((s.guestHolds x.1 { owned := false, wts := t, rts := t }).setHome x.1 ⟨t, t⟩).putBytes (x.1 * 64) 64 data (ones 64) 0
    else s.modGuest fun g => { g with secs := g.secs.filter fun y => y.1 ≠ x.1 }

/-- GUEST_QUIESCE_ANSWER (R322): a packet is returned unstarted: it is kept while its cluster is saved, posted again when
the cluster has been restored, and otherwise discarded; or the guest completes it. -/
def State.quiesceAnswer (s : State) (q seq : Nat) (returned : Bool) : State :=
  match (s.gqueue q).pkts.find? fun k => k.seq = seq && k.quiesce && !k.returned && k.status.isNone with
  | none => s
  | some k =>
    let c := (s.clusterOfTeam (teamOf k.part)).st
    if !s.guestOn then s
    else if returned then
      if k.node.isNone && (c = .saved || c = .resident) && !(s.fn k.vf).flrb then
        let s1 := s.modGqueue q fun g => { g with pkts := g.pkts.map fun x : Packet =>
          if x.seq = seq && x.quiesce && !x.returned then { x with returned := true } else x }
        if c = .resident then s1.repost (clusterOf (blockOf (teamOf k.part))) else s1
      else s.modGqueue q fun g => { g with pkts := g.pkts.filter fun x => !(x.seq = seq && x.quiesce && !x.returned) }
    else if (s.gqueue q).nextReport.map (·.seq) = some seq then
      let (s, st) := s.bump.outside (q * 2 ^ 16 + seq) (Config.guestStatus s.fresh % 2 ^ 15)
      ((s.setStatus q seq st).finishQueue q).finishQueues
    else s.freezeGuest 1

/-- Whether a bound of R323 has passed for a breach, counted from the request that it answers. -/
def State.breached (s : State) (code : Nat) : Bool :=
  let late (since n : Nat) : Bool := since + n ≤ s.tick
  match code with
  | 2 => s.guest.invs.any fun x => !x.acked && late x.since 17500
  | 3 => s.guest.secs.any fun x => match x.2.snooped with
    | some t => late t 1750
    | none => false
  | 4 => s.inFlight.any fun x => x.2.quiesce && x.2.status.isNone && late x.2.since 35000
  | 5 => s.inFlight.any fun x => x.2.aborted && x.2.status.isNone && late x.2.abortAt 17500
  | 6 => !s.guest.up && (!s.inFlight.isEmpty || !s.guest.secs.isEmpty)
  | _ => false

/-- GUEST_BREACH (R323): a bound that has passed freezes the guest. -/
def State.guestBreach (s : State) (code : Nat) : State :=
  if s.guest.frz then s.finishQueues
  else if s.breached code then s.freezeGuest code
  else s

/-- GSCTL_RST (R324): the link goes down and trains again, and the freeze is over. Packets in flight, and
sectors held, are lost with the link (R323). -/
def State.resetSocket (s : State) : State :=
  let s := s.modGuest fun g => { g with up := false, mods := 0 }
  let s := if s.breached 6 then s.freezeGuest 6 else s
  s.modGuest fun g =>
    { g with frz := false, brk := 0
             queues := g.queues.map fun x : Nat × GQueue => (x.1, { x.2 with seq := 0, cseq := 0, cv := false }) }

end Sys2Proof.Machine
end

