-- ==== Sys2Proof/Machine/Registers.lean ====
section
/-! DEFINITION. Writes to control and device registers and what they set off: resolving a fault report
(R50), invalidating translations (R345), enabling and resetting a function (R356, R360), event selectors,
trace, stops, recast (R369 to R374), and the register map (R35, R316, R342, R343, R355, R378, R380). -/

namespace Sys2Proof.Machine

/-! ## FRES (R50) -/

/-- Try an event again: it is put first among the moves that are to come. -/
def State.retry (s : State) (i : Instr) : State := { s with agenda := .again i :: s.agenda }

/-- The accesses of some parked pages that do not wait for a report, and the number of the others. -/
def unpark (r : Nat) (l : List (Nat × Nat)) : List (Nat × Nat) × Nat :=
  (l.filter fun x => x.1 ≠ r, (l.filter fun x => x.1 = r).length)

/-- Count the engine accesses that a report has held and that are replayed now, each on its master's core (R369). -/
def State.countEngines (s : State) (r : Nat) : State :=
  let s := s.cmds.foldl (fun (s : State) k => s.count k.core 9 (unpark r k.parked).2) s
  let s := s.tundish.foldl (fun (s : State) e => s.count e.core 9 (unpark r e.parked).2) s
  s.lanes.foldl (fun (s : State) x => s.count (s.coreOf (s.partOf x.1)) 9 (unpark r x.2.parked).2) s

/-- What waits for a report goes on: accesses walk again, and events are tried again (R45, R50). -/
def State.replayReport (s : State) (r : Nat) : State :=
  let ws := s.waiters.filter fun x => x.1 = r
  let s := s.countEngines r
  let s := { s with
    held := s.held.map fun h : Held => if h.report = r then { h with report := 0 } else h
    cmds := s.cmds.map fun k : Cmd => { k with reports := k.reports.erase r, parked := (unpark r k.parked).1 }
    tundish := s.tundish.map fun e : TEntry => { e with reports := e.reports.erase r, parked := (unpark r e.parked).1 }
    fills := s.fills.map fun f : Fill => if f.report = r then { f with report := 0 } else f
    lanes := s.lanes.map fun x : Nat × Lane =>
      if x.2.reports.contains r then
        (x.1, { x.2 with reports := x.2.reports.erase r, parked := (unpark r x.2.parked).1 })
      else x
    waiters := s.waiters.filter fun x => x.1 ≠ r }
  ws.foldl (fun (s : State) x =>
    match x.2 with
    | .event i => s.retry i
    | .part p => if (s.part p).wait = .image then s.modPart p fun y => { y with wait := .none } else s
    | .prefetch .. => s) s

/-- The numbers of a list, each once. -/
def once (l : List Nat) : List Nat := l.foldl (fun r x => if r.contains x then r else r ++ [x]) []

/-- ABORT for an event of another agent that waits for a report (R50): a node fails with status 4, a submission ends with
it, a guest gets an abort answer, and a completion word is lost. -/
def State.abortEvent (s : State) : Instr → State
  | .guestTranslationRequest q f spid _ _ => s.guestAbort q f spid
  | .guestCompletionReport q n _ => (s.loseCompletion q (n % 2 ^ 16)).finishQueues
  | .imageRead l =>
    if (s.launch l).st = .ended then s.setLaunch l {} else s.endLaunch l 4
  | .submissionStart f q =>
    match (s.queue (f * 256 + q)).waiting with
    | e :: t => (s.modQueue (f * 256 + q) fun x =>
        { x with waiting := t, run := some e, status := 4, nodes := [] }).graphComplete (f * 256 + q)
    | [] => s
  | .qnotify f q _ =>
    let g := f * 256 + q % 256
    (s.modQueue g fun x => { x with tails := x.tails.drop 1, left := none }).await 0 (.event (.qnotify f q 0))
  | .nodeFinish g _ => s.endRun g
  | .dependenceEntry g n | .nodeStartKernel g n | .nodeStartCopy g n | .nodeConditional g n
  | .nodeWhile g n | .nodeHostSignal g n | .nodeGuest g n => s.failNode g n 4
  | _ => s

/-- A part's report is resolved with ABORT: it freezes now, or at the restore of its saved cluster (R50, R338). -/
def State.abortPart (s : State) (p : Nat) : State :=
  if s.resident p then s.freezePart p
  else if s.livePart p then s.modPart p fun x => { x with abort := true }
  else s

/-- A report of an engine queue of a part is resolved with ABORT: the queue freezes now, or at the restore (R50, R338). -/
def State.abortQueue (s : State) (p : Nat) (eng : Path) (from' : Nat) : State :=
  if s.resident p then s.freezeQueue p eng from'
  else s.modPart p fun x => { x with abortQ := x.abortQ ++ [(eng, from')] }

/-- ABORT: every master that waits on a report freezes, and what was held for it is never performed
(R50, R331). -/
def State.abortReport (s : State) (r : Nat) : State :=
  let ws := s.waiters.filter fun x => x.1 = r
  let teams := once ((s.held.filter fun h => h.report = r).map (·.part)
    ++ (s.fills.filter fun f => f.report = r && !f.pf).map (·.part))
  let cmds := s.cmds.filter fun k => k.reports.contains r
  let tun := s.tundish.filter fun e => e.reports.contains r
  let runs := once ((s.lanes.filter fun x => x.2.reports.contains r).map fun x => s.partOf x.1)
  let s := { s with
    held := s.held.filter fun h => h.report ≠ r
    fills := s.fills.filter fun f => f.report ≠ r
    cmds := (s.cmds.filter fun k => !k.reports.contains r || k.node.isNone).map fun k : Cmd =>
      { k with reports := k.reports.erase r }
    tundish := s.tundish.map fun e : TEntry => { e with reports := e.reports.erase r }
    lanes := s.lanes.map fun x : Nat × Lane =>
      if x.2.reports.contains r then (x.1, { x.2 with reports := x.2.reports.erase r }) else x
    waiters := s.waiters.filter fun x => x.1 ≠ r }
  let s := teams.foldl (fun (s : State) p => s.abortPart p) s
  let s := cmds.foldl (fun (s : State) k =>
    match k.node with
    | some (g, n) => s.failNode g n 4 k.time
    | none => s.abortQueue k.part k.eng k.id) s
  let s := tun.foldl (fun (s : State) e => s.abortQueue e.part .m e.id) s
  let s := runs.foldl (fun (s : State) p => s.abortQueue p .t 0) s
  ws.foldl (fun (s : State) x =>
    match x.2 with
    | .event i => s.abortEvent i
    | .part p => s.abortPart p
    | .prefetch .. => s) s

/-- A report is resolved: it is outstanding no more. A record that still waits for room in its ring is not lost: it stays,
with token 0, and says whether its master has been frozen (R47, R48) (DEDUCED, log 86). -/
def State.closeReport (s : State) (r : Report) (abort : Bool) : State :=
  { s with reports :=
      if r.written then s.reports.filter fun x => x.id ≠ r.id
      else s.reports.map fun x : Report =>
        if x.id = r.id then
          { x with key := [], token := 0, launches := []
                   record := x.record - bits x.record 112 16 * 2 ^ 112 + b2n abort * 2 ^ 78 }
        else x }

/-- A write to FRES (R50): ignored with a reserved bit set, or for a token that is not outstanding at the
ring. -/
def State.fresWrite (s : State) (ring value : Nat) : State :=
  let k := bits value 0 16
  if bits value 17 47 ≠ 0 || k = 0 then s
  else
    match s.reports.find? fun r => r.ring = ring && r.token = k with
    | none => s
    | some r =>
      let s := s.closeReport r (bit value 16)
      if bit value 16 then s.abortReport r.id else s.replayReport r.id

/-! ## Invalidating translations (R45, R345) -/

/-- What a `tinv` covers: cached translations, those through which stash sectors were filled among them, pointer entries,
and spaces whose descriptors are read again. -/
structure Inval where
  vf : Nat
  tlb : Tlb → Bool
  walk : WalkEntry → Bool
  space : Nat → Bool

/-- Whether a page overlaps `n` bytes from `a` up. -/
def overlaps (page lg a n : Nat) : Bool := page < a + n && a < page + 2 ^ lg

/-- `.va` (R345). -/
def invalVa (vf spid a n : Nat) : Inval :=
  { vf := vf, tlb := fun e => e.vf = vf && e.spid = spid && overlaps e.va e.lg a n
    walk := fun e => e.vf = vf && e.spid = spid, space := fun _ => false }

/-- `.sp` (R345). -/
def invalSp (vf spid : Nat) : Inval :=
  { vf := vf, tlb := fun e => e.vf = vf && e.spid = spid
    walk := fun e => e.vf = vf && e.spid = spid, space := fun sp => sp = spid }

/-- `.fn` (R345). -/
def invalFn (vf : Nat) : Inval :=
  { vf := vf, tlb := fun e => e.vf = vf, walk := fun e => e.vf = vf, space := fun _ => true }

/-- `.ipa` (R345). -/
def invalIpa (vf a n : Nat) : Inval :=
  { vf := vf, tlb := fun e => e.vf = vf && e.h2 && overlaps e.fpa e.lg a n
    walk := fun e => e.vf = vf && e.stage2, space := fun _ => false }

/-- Write back and drop the stash sectors that an invalidation covers (R45, R64). -/
def State.dropCovered (s : State) (v : Inval) : State :=
  s.blocks.foldl (fun (s : State) b =>
    ((b.2.secs.filter fun x => x.2.st ≠ .unfilled && x.2.tr.any v.tlb).map (·.1)).foldl
      (fun (s : State) k => s.retireSec b.1 k) s) s

/-- Invalidate in every cache of every core and die; the descriptors of covered spaces are read again by
their launches (R36, R45, R345). Instruction caches keep no line, so that code is fetched as it then stands
(R197) (DESIGN CHOICE, log 59). -/
def State.invalidate (s : State) (v : Inval) : State :=
  let keep (l : List Tlb) : List Tlb := l.filter fun e => !v.tlb e
  let s := { s with
    cores := s.cores.map fun x : Nat × Core =>
      (x.1, { x.2 with itlb := keep x.2.itlb, tlb := keep x.2.tlb, icache := [] })
    dies := s.dies.map fun x : Nat × Die =>
      (x.1, { x.2 with stlb := keep x.2.stlb, wcache := x.2.wcache.filter fun e => !v.walk e })
    launches := s.launches.map fun x : Nat × Launch =>
      if x.2.vf = v.vf && v.space x.2.spid then (x.1, { x.2 with root := 0 }) else x }
  s.dropCovered v

/-! ## Functions (R355 to R360) -/

/-- The compute cores are released once layer 2 runs on all four dies and has started layer 3 for every
enabled function (R363) (DEDUCED, log 7). -/
def State.checkRelease (s : State) : State :=
  let two := (List.range 4).all fun d => 2 ≤ (s.die d).layer && !(s.die d).fail
  let three := s.fns.all fun x => !x.2.en || x.2.layer3 || 64 ≤ x.1
  if s.released || !(two && three) then s else { s with released := true }

/-- The host port is in reset until the compute cores are released, so that it stays in reset when the boot of a die has
stopped (R363, R365) (DEDUCED, log 67). -/
def State.hostHeld (s : State) : Bool := !s.released

/-- A write of VFCTL.EN (R356). What the bit stops is read where notifies, placements and walkers act. -/
def State.enWrite (s : State) (f value : Nat) : State :=
  (s.modFn f fun x => { x with en := bit value 0 }).checkRelease

/-- Whether a launch is the function's work, and not its resident system software (R360). -/
def State.worksFor (f : Nat) (l : Launch) : Bool := l.vf = f && (l.level = .u || l.prologue) && l.st ≠ .absent

/-- The queues of a function forget their submissions and graphs (R360). -/
def State.clearQueues (s : State) (f : Nat) : State :=
  { s with queues := s.queues.filter fun x => x.1 / 256 ≠ f }

/-- A pending masked signal of a function is forgotten: PCIe resets its table (R362). -/
def State.clearPending (s : State) (f : Nat) : State :=
  { s with msix := s.msix.map fun x : Nat × Msix => if x.1 / 64 = f then (x.1, { x.2 with pending := false }) else x }

/-- A notify of a function that waits, as its walker keeps it. -/
def isNotify (f : Nat) : Nat × Waiter → Bool
  | (_, .event (.qnotify g _ _)) => g = f
  | _ => false

/-- The replay entries, engine records and tokens of a function are discarded (R54, R360). For a launch that survives, the
resident system software, a discarded read gives free values, and its engines, fetches and image reads go on (DESIGN
CHOICE, log 87). -/
def State.discardReports (s : State) (f : Nat) : State :=
  let gone (r : Report) : Bool := r.ring = f || (r.key.head? = some f && r.token ≠ 0)
  let ids := (s.reports.filter gone).map (·.id)
  let hs := s.held.filter fun h => ids.contains h.report
  let s := { s with
    reports := s.reports.filter fun r => !gone r
    held := s.held.filter fun h => !ids.contains h.report
    cmds := s.cmds.map fun k : Cmd => { k with reports := k.reports.filter fun r => !ids.contains r }
    tundish := s.tundish.map fun e : TEntry => { e with reports := e.reports.filter fun r => !ids.contains r }
    fills := s.fills.map fun x : Fill => if ids.contains x.report then { x with report := 0 } else x
    lanes := s.lanes.map fun x : Nat × Lane =>
      if x.2.reports.isEmpty then x else (x.1, { x.2 with reports := x.2.reports.filter fun r => !ids.contains r })
    parts := s.parts.map fun x : Nat × Part =>
      if x.2.wait = .image && s.waiters.any (fun w => ids.contains w.1 && w.2 = .part x.1) then
        (x.1, { x.2 with wait := .none })
      else x
    waiters := s.waiters.filter fun x => !ids.contains x.1 && !isNotify f x }
  hs.foldl (fun (s : State) h =>
    let n := (s.defs.filter fun d => d.group = h.res).length
    let ws := (List.range n).map fun i => ((Config.windowByte s.fresh i).toNat, false)
    (s.bump.fixGroup h.res ws).wakeReplay h.part) s

/-- Whether an engine command or Tundish entry stands that has a commit made; the host, the guest and lanes have their own
ends. -/
def State.ownedCommit (s : State) (k : Commit) : Bool :=
  match k.by' with
  | .engine id => (s.cmds.any fun c => c.id = id) || s.tundish.any fun e => e.id = id
  | _ => true

/-- The commits of a function whose copy node or walker is gone: one that has locked its sector is completed, and another
is not made (R362). -/
def State.dropUnowned (s : State) (f : Nat) : State :=
  { s with commits := s.commits.filter fun k => k.vf ≠ f || s.ownedCommit k || (k.locked && k.done.isNone) }

/-- The acceptance of a function-level reset and its steps 1 to 3 (R360, R362): it ends in `finishReset`. A
reset in progress ignores another (DEDUCED, log 54). -/
def State.startReset (s : State) (f : Nat) : State :=
  if (s.fn f).flrb then s
  else
    let s := ((s.modFn f fun x => { x with flrb := true }).clearQueues f).clearPending f
    let ls := (s.launches.filter fun x => State.worksFor f x.2).map (·.1)
    let s := ls.foldl (fun (s : State) l => (s.terminate l 4 false false).setLaunch l {}) s
    let s := (s.clearQueues f).quiesce fun k => k.vf = f
    let s := { s with
      cmds := s.cmds.filter fun k => match k.node with
        | some (g, _) => g / 256 ≠ f
        | none => true
      trapOuts := s.trapOuts.filter fun x => x.ring ≠ f }
    (((s.dropUnowned f).discardReports f).invalidate (invalFn f)).askInvalidate (fun e => e.vf = f) |>.2

/-- The highest clock of any agent: every access that has taken a place has one at or below it. -/
def State.topClock (s : State) : Nat := s.cores.foldl (fun m x => max m x.2.clock) (max s.hostClock s.guest.clock)

/-- What a function-level reset waits for (R360, R362): the guest's packets and translations of the function, the writes
that the port holds for them, and commits between their lock and their update. -/
def State.resetBusy (s : State) (f : Nat) : Bool :=
  s.inFlight.any (fun x => x.2.vf = f) || s.guest.invs.any (fun x => x.es.any fun e => e.vf = f)
    || s.guest.writes.any (fun x => x.e.vf = f) || s.commits.any fun k => k.vf = f && k.done.isNone

/-- Steps 4 and 5 of a function-level reset, once nothing of the function is under way (R322, R360, R362): translations
made since step 3 are invalidated again, those of the guest first, and registers return to their reset values, but VFCTL,
VFBW, the counters and L2WAYM. The MSI-X table is reset as PCIe gives. The completion's place follows every access of the
function, and the host's later accesses follow it. -/
def State.finishReset (s : State) (f : Nat) : State :=
  if !(s.fn f).flrb || s.resetBusy f then s
  else if s.guest.xlats.any fun e => e.vf = f then (s.askInvalidate fun e => e.vf = f).2
  else
    let s := ((s.invalidate (invalFn f)).dropUnowned f).modFn f fun x =>
      { en := x.en, pceil := x.pceil, vfbw := x.vfbw, l2waym := x.l2waym, ndrop := x.ndrop
        idrop := x.idrop, l2fill := x.l2fill, l2evc := x.l2evc, l2evs := x.l2evs, stall := x.stall
        nextToken := x.nextToken, layer3 := x.layer3, cdi := x.cdi, key := x.key, cert := x.cert }
    { s with msix := s.msix.filter fun x => x.1 / 64 ≠ f, hostClock := s.topClock }

/-! ## Debug registers (R369 to R374) -/

/-- A write of an event selector clears its counter on every core (R369). -/
def State.evselWrite (s : State) (n value : Nat) : State :=
  { s with evsel := s.evsel.set 0 n (bits value 0 8)
           cores := s.cores.map fun x : Nat × Core => (x.1, { x.2 with ev := x.2.ev.set 0 n 0 }) }

/-- A value with EN and a size below, and bits [51:12] above (R48, R343, R370, R373). -/
def baseBits (value low : Nat) : Nat := value % 2 ^ low + bits value 12 40 * 2 ^ 12

/-- A write of a die's trace control; TRCNT restarts when EN goes from 0 to 1 (R370). -/
def State.trctlWrite (s : State) (d value : Nat) : State :=
  s.modDie d fun x =>
    { x with trctl := baseBits value 9
             trcnt := if bit value 0 && !bit x.trctl 0 then 0 else x.trcnt }

/-- A write of STOPAT arms a stop; a tick that is not in the future stops the device at the next one
(R372). -/
def State.stopatWrite (s : State) (value : Nat) : State :=
  let v := value % 2 ^ 64
  { s with stopat := v, stopDue := if v = 0 then 0 else if v ≤ s.tick then s.tick + 1 else v }

/-- Whether the armed stop is due at the end of this tick (R372). -/
def State.armedNow (s : State) : Bool := s.stopDue ≠ 0 && s.stopDue ≤ s.tick

/-- Whether the clocks are gated at the end of this tick: by the armed stop, for the Recast log, or under the power limit
(R372, R374). -/
def State.gates (s : State) : Bool := s.haltDue || s.armedNow

/-- The clocks are gated at the end of the tick at which a stop is due (R372) (DEDUCED, log 58). An armed stop that is not
due yet stays armed. -/
def State.stopNow (s : State) : State :=
  if s.gates then { s with stopped := true, haltDue := false, stopDue := if s.armedNow then 0 else s.stopDue } else s

/-- Whether a die has tripped and has not cooled to its restart temperature (R381). -/
def State.hot (s : State) : Bool := (List.range 4).any fun d => (s.die d).hot

/-- A write of GO ungates every clock (R372), after a thermal trip once each die that tripped has cooled (R381) (DESIGN
CHOICE, log 88). -/
def State.goWrite (s : State) (value : Nat) : State :=
  if bit value 1 && !s.hot then { s with stopped := false, trip := false } else s

/-- The log that RCCTL names lies wholly in die 0's memory (R373) (DEDUCED, log 49). -/
def logOk (rcctl : Nat) : Bool :=
  let n := bits rcctl 2 5
  10 ≤ n && n ≤ 20 && bits rcctl 12 40 * 4096 + 2 ^ (n + 20) ≤ dieBytes

/-! ## The control registers (R342) -/

/-- The lowest level that reads a register: R342 and R370 to R372 name H for some (DEDUCED, log 46). -/
def csrReadLevel (n : Nat) : Level :=
  if n = 0x001 || n = 0x020 || (0x080 ≤ n && n ≤ 0x08B) || (0x310 ≤ n && n ≤ 0x318) || n = 0x320 then .h
  else .s

/-- Whether level S may write a register (R342, R355); level H may write every one. -/
def csrSWrites (n : Nat) : Bool :=
  n = 0x000 || (0x002 ≤ n && n ≤ 0x006) || (0x008 ≤ n && n ≤ 0x00C) || n = 0x102 || n = 0x103

/-- The entries by which an index of a ring is reduced (R343). -/
def Ring.modulus (r : Ring) : Nat :=
  let n := bits r.base 1 5
  if 4 ≤ n && n ≤ 16 then 2 ^ n else 2 ^ 16

/-- The registers of a ring, by number from its base register (R48, R343). -/
def Ring.get (r : Ring) : Nat → Nat
  | 0 => r.base
  | 1 => r.head % r.modulus
  | _ => r.tail % r.modulus

/-- A write of a ring's registers: the tail is written by the device only (R48, R343). -/
def Ring.put (r : Ring) (i value : Nat) : Ring :=
  match i with
  | 0 => { r with base := baseBits value 6 }
  | 1 => { r with head := bits value 0 16 % r.modulus }
  | _ => r

/-- GSCTL (R316). -/
def State.gsctl (s : State) : Nat :=
  b2n s.guest.up + b2n s.guest.frz * 2 + s.guest.brk * 4 + s.guest.mods * 2 ^ 8

/-- VFCTL (R355). -/
def Fn.vfctl (x : Fn) : Nat := b2n x.en + x.pceil * 2 + b2n x.flrb * 16

/-- BOOTSTS of a die (R366). -/
def State.bootsts (s : State) (d : Nat) : Nat :=
  let x := s.die d
  x.layer + b2n x.fail * 2 ^ 4 + x.why * 2 ^ 5 + x.cls * 2 ^ 8 + d * 2 ^ 13

/-- The value of a control register of function `f`, for a reader on die `d` (R342). A write-only register
reads 0. -/
def State.csrGet (s : State) (d f n : Nat) : Nat :=
  let x := s.fn f
  let h := s.fn 64
  if n = 0x000 then x.sptbl
  else if n = 0x001 then x.h2root
  else if n ≤ 0x004 then x.fq.get (n - 0x002)
  else if n = 0x006 then x.qtbl
  else if n = 0x007 then x.l2waym
  else if 0x008 ≤ n && n ≤ 0x00A then x.tq.get (n - 0x008)
  else if n = 0x00B then x.dmp.base
  else if n = 0x00C then x.dbgctl
  else if 0x010 ≤ n && n ≤ 0x013 then (s.die (n - 0x010)).t2cap
  else if n = 0x020 then s.gsctl
  else if 0x040 ≤ n && n ≤ 0x07F then (s.gqueue (n - 0x040)).gqb
  else if 0x080 ≤ n && n ≤ 0x082 then h.fq.get (n - 0x080)
  else if 0x084 ≤ n && n ≤ 0x086 then h.tq.get (n - 0x084)
  else if 0x088 ≤ n && n ≤ 0x08B then s.savebase.get 0 (n - 0x088)
  else if n = 0x100 then x.vfctl
  else if n = 0x101 then x.vfbw
  else if n = 0x102 then x.vfirq
  else if n = 0x103 then x.vfisr
  else if n = 0x110 then x.ndrop
  else if n = 0x111 then x.idrop
  else if n = 0x112 then x.l2fill
  else if n = 0x113 then x.l2evc
  else if n = 0x114 then x.l2evs
  else if n = 0x115 then x.stall
  else if n = 0x200 then s.bootsts d
  else if 0x300 ≤ n && n ≤ 0x307 then s.evsel.get 0 (n - 0x300)
  else if 0x310 ≤ n && n ≤ 0x313 then (s.die (n - 0x310)).trctl
  else if 0x314 ≤ n && n ≤ 0x317 then (s.die (n - 0x314)).trcnt
  else if n = 0x318 then s.smpctl
  else if n = 0x320 then s.stopat
  else if n = 0x321 then b2n s.stopped
  else if n = 0x328 then s.rcctl
  else if n = 0x329 then s.rcsts
  else if n = 0x32A then s.endt
  else 0

/-- What a level reads: 0 from a register above it (R342). -/
def State.csrRead (s : State) (lvl : Level) (d f n : Nat) : Nat :=
  if lvl.num < (csrReadLevel n).num then 0 else s.csrGet d f n

/-- A write of GQB: its sequence number is 0 when EN goes from 0 to 1 (R316). -/
def State.gqbWrite (s : State) (q value : Nat) : State :=
  s.modGqueue q fun g =>
    let v := bits value 0 11
    if bit v 0 && !bit g.gqb 0 then { g with gqb := v, seq := 0, cseq := 0, cv := false }
    else { g with gqb := v }

/-- A write of a counter by level H: 0 clears it (R361). -/
def Fn.clearCounter (x : Fn) : Nat → Fn
  | 0 => { x with ndrop := 0 }
  | 1 => { x with idrop := 0 }
  | 2 => { x with l2fill := 0 }
  | 3 => { x with l2evc := 0 }
  | 4 => { x with l2evs := 0 }
  | _ => { x with stall := 0 }

/-- A write of VFCTL (R355, R356, R357, R360). -/
def State.vfctlWrite (s : State) (f value : Nat) : State :=
  let s := (s.modFn f fun x => { x with pceil := bits value 1 2 }).enWrite f value
  if bit value 3 then s.startReset f else s

/-- A write of a control register of function `f`, with the fields that it keeps (R342). Writes to
read-only registers are ignored. -/
def State.csrPut (s : State) (f n value : Nat) : State :=
  if n = 0x000 then s.modFn f fun x => { x with sptbl := baseBits value 1 }
  else if n = 0x001 then s.modFn f fun x => { x with h2root := baseBits value 1 }
  else if n ≤ 0x004 then s.modFn f fun x => { x with fq := x.fq.put (n - 0x002) value }
  else if n = 0x005 then s.fresWrite f value
  else if n = 0x006 then s.modFn f fun x => { x with qtbl := baseBits value 1 }
  else if n = 0x007 then s.modFn f fun x => { x with l2waym := bits value 0 16 }
  else if n ≤ 0x00A then s.modFn f fun x => { x with tq := x.tq.put (n - 0x008) value }
  else if n = 0x00B then s.modFn f fun x => { x with dmp := x.dmp.put 0 value }
  else if n = 0x00C then s.modFn f fun x => { x with dbgctl := bits value 0 1 }
  else if n = 0x020 then if bit value 6 then s.resetSocket else s
  else if 0x040 ≤ n && n ≤ 0x07F then s.gqbWrite (n - 0x040) value
  else if 0x080 ≤ n && n ≤ 0x082 then s.modFn 64 fun x => { x with fq := x.fq.put (n - 0x080) value }
  else if n = 0x083 then s.fresWrite 64 value
  else if 0x084 ≤ n && n ≤ 0x086 then s.modFn 64 fun x => { x with tq := x.tq.put (n - 0x084) value }
  else if 0x088 ≤ n && n ≤ 0x08B then
    { s with savebase := s.savebase.set 0 (n - 0x088) (baseBits value 6) }
  else if n = 0x100 then s.vfctlWrite f value
  else if n = 0x101 then s.modFn f fun x => { x with vfbw := bits value 0 16 }
  else if n = 0x102 then
    s.modFn f fun x => { x with vfirq := bits value 0 7 + bits value 8 7 * 2 ^ 8 }
  else if n = 0x103 then
    s.modFn f fun x => { x with vfisr := x.vfisr &&& (7 - bits value 0 3) }
  else if 0x110 ≤ n && n ≤ 0x115 then
    if value = 0 then s.modFn f fun x => x.clearCounter (n - 0x110) else s
  else if 0x300 ≤ n && n ≤ 0x307 then s.evselWrite (n - 0x300) value
  else if 0x310 ≤ n && n ≤ 0x313 then s.trctlWrite (n - 0x310) value
  else if n = 0x318 then { s with smpctl := bits value 0 16 }
  else if n = 0x320 then s.stopatWrite value
  else if n = 0x321 then s.goWrite value
  else if n = 0x328 then { s with rcctl := baseBits value 7 }
  else s

/-- A write at a level: ignored above it (R342). -/
def State.csrWrite (s : State) (lvl : Level) (f n value : Nat) : State :=
  if lvl = .h || csrSWrites n then s.csrPut f n value else s

/-! ## Device registers (R30, R378, R380) -/

/-- A notify that is dropped (R361). -/
def State.dropNotify (s : State) (f : Nat) : State := s.modFn f fun x => { x with ndrop := addCount x.ndrop 1 }

/-- A write of LNKST: writing 1 to UE clears it (R378). -/
def State.lnkstWrite (s : State) (n value : Nat) : State :=
  if bit value 1 then
    let x := s.lnkst.get 0 n
    { s with lnkst := s.lnkst.set 0 n (x - bits x 1 1 * 2) }
  else s


end Sys2Proof.Machine
end

