-- ==== Sys2Proof/Machine/System.lean ====
section
/-! DEFINITION. The system instructions (R339 to R346): system calls, returns from traps, control
registers, invalidation, and trace marks. -/

namespace Sys2Proof.Machine

/-! ## `sys` -/

/-- `sys` (R340). Every earlier access of the part has taken its place by the time it issues: an access
that has not keeps the part from issuing (R49, R107). -/
def execSys (h : Hdr) (d : Reg) (code : BitVec 16) (s : State) : Host.Outcome State Fault Refusal :=
  issue (.sys h d code) s fun c s =>
    match s.poster c with
    | none => s
    | some _ => s.takeTrap c.p { s.mkTrap c 10 code.toNat with dest := d.val, lanes := c.ga }

/-! ## `eret` -/

/-- Whether an `eret.kill` waits for the restore of a part's cluster. -/
def Part.doomed (x : Part) : Bool := match x.susp with
  | some u => u.resolved.any fun r => r.1 = 3
  | none => false

/-- The outstanding traps with a token: ring, part and class (R329 to R331). A trap whose `eret` waits for
its cluster's restore is resolved already. -/
def State.trapsWith (s : State) (k : Nat) : List (Nat × Nat × Nat) :=
  s.parts.flatMap fun x =>
    let ring := s.trapRing (teamOf x.1)
    let own := match x.2.susp with
      | some u => if u.token = k && u.resolved.isNone then [(ring, x.1, u.cls)] else []
      | none => []
    own ++ if x.2.qTokens.contains k && !x.2.doomed then [(ring, x.1, 14)] else []

/-- The trap that a token names for the software of a level: a U part of its own function for S, any U or
S part for H; a prologue has no owner (R326, R341). Level H names a ring by its number only: the
hypervisor's first, then those of the functions in ascending order (DEDUCED, log 31). -/
def State.ownedTrap (s : State) (lvl : Level) (vf k : Nat) : Option (Nat × Nat) :=
  let ts := (s.trapsWith k).filter fun x =>
    let l := s.launchAt x.2.1
    !l.prologue && (if lvl = .h then decide (l.level ≠ .h) else l.level = .u && l.vf = vf)
  let first := (64 :: List.range 64).findSome? fun r => ts.find? fun x => x.1 = r
  first.map fun x => (x.2.1, x.2.2)

/-- Apply an accepted action to a part (R332, R338, R341): its later accesses follow the poster's place. What is said to
a part of a saved cluster acts at the restore; the token of a frozen queue accepts `.kill` only. -/
def State.applyEret (s : State) (p var value time : Nat) : State :=
  if s.resident p then
    if var = 3 then s.kill (s.launchOf (teamOf p)) else (s.raiseClock (s.coreOf p) time).resume p var value
  else
    s.modPart p fun x =>
      let u := x.susp.getD { cls := 14, token := 0, frz := true, next := x.off }
      { x with susp := some { u with resolved := some (var, value, time) } }

/-- The status of an `eret` (R341). -/
def State.eretStatus (s : State) (lvl : Level) (vf k var : Nat) : Nat :=
  match s.ownedTrap lvl vf k with
  | none => 1
  | some (_, cls) => if accepts cls var then 0 else 2

/-- What every `eret` does (R341): the status, then the action. -/
def State.eret (s0 : State) (c : Ctx) (d a b : Reg) (var : Nat) : State :=
  match s0.poster c with
  | none => s0
  | some l =>
    let k := bits (s0.rd 0 c.t l a) 0 16
    let x := s0.rd 1 c.t l b
    let lvl := s0.levelOf c.t
    let st := s0.eretStatus lvl (s0.vfOf c.t) k var
    let s := s0.status c d.val st
    match s0.ownedTrap lvl (s0.vfOf c.t) k with
    | some (p, _) =>
      if st = 0 then s.applyEret p var x (s0.core (s0.coreOf c.p)).clock else s
    | none => s

/-- `eret.again` (R329, R341). -/
def execEretAgain (h : Hdr) (d a b : Reg) (s : State) : Host.Outcome State Fault Refusal :=
  issue (.eretAgain h d a b) s fun c s => s.eret c d a b 0

/-- `eret.next` (R329, R340, R341). -/
def execEretNext (h : Hdr) (d a b : Reg) (s : State) : Host.Outcome State Fault Refusal :=
  issue (.eretNext h d a b) s fun c s => s.eret c d a b 1

/-- `eret.zero` (R333, R341). -/
def execEretZero (h : Hdr) (d a b : Reg) (s : State) : Host.Outcome State Fault Refusal :=
  issue (.eretZero h d a b) s fun c s => s.eret c d a b 2

/-- `eret.kill` (R332, R341). -/
def execEretKill (h : Hdr) (d a b : Reg) (s : State) : Host.Outcome State Fault Refusal :=
  issue (.eretKill h d a b) s fun c s => s.eret c d a b 3

/-! ## Control registers -/

/-- The function that an instruction with a VF field acts on: the one named at H, its own at S
(R339, R342, R355). -/
def State.targetVf (s : State) (c : Ctx) (vf : Fin 64) : Nat :=
  if s.levelOf c.t = .h then vf.val else s.vfOf c.t

/-- `csrr` (R342): the value goes to every guarded-active lane (DEDUCED, log 45). -/
def execCsrr (h : Hdr) (d : Reg) (csr : Fin 4096) (vf : Fin 64) (s : State) :
    Host.Outcome State Fault Refusal :=
  issue (.csrr h d csr vf) s fun c s =>
    match s.poster c with
    | none => s
    | some l =>
      let v := s.csrRead (s.levelOf c.t) (dieOf (s.coreOf c.p)) (s.targetVf c vf) csr.val
      eachLane c.ga (fun i s => s.wr64 c.t i d.val v) (s.settleStores c.p [l])

/-- `csrw` (R342). -/
def execCsrw (h : Hdr) (a : Reg) (csr : Fin 4096) (vf : Fin 64) (s : State) :
    Host.Outcome State Fault Refusal :=
  issue (.csrw h a csr vf) s fun c s =>
    match s.poster c with
    | none => s
    | some l =>
      (s.settleStores c.p [l]).csrWrite (s.levelOf c.t) (s.targetVf c vf) csr.val (s.rd64 0 c.t l a)

/-! ## `tinv` -/

/-- What every `tinv` does (R345): it waits for the commits that use the function's translations,
invalidates, and waits for the guest's acknowledgement. -/
def State.tinv (s : State) (c : Ctx) (v : Inval) : State :=
  let ack := (s.part c.p).ack
  if ack ≠ 0 then
    if s.guest.invs.any fun x => x.id = ack then s.stall c .acknowledge
    else s.modPart c.p fun x => { x with ack := 0 }
  else if s.commits.any fun k => k.vf = v.vf && k.done.isNone then s.stall c .commit
  else
    let (id, s) := (s.invalidate v).askInvalidate v.tlb
    if id = 0 then s else (s.modPart c.p fun x => { x with ack := id }).stall c .acknowledge

/-- The SPID that a `tinv` names. -/
def State.tinvSpid (s : State) (c : Ctx) (l : Nat) (o : TinvOps) : Nat := bits (s.rd 2 c.t l o.sp) 0 12

/-- `tinv.va` (R345): an empty range completes at once. -/
def execTinvVa (h : Hdr) (o : TinvOps) (s : State) : Host.Outcome State Fault Refusal :=
  issue (.tinvVa h o) s fun c s =>
    match s.poster c with
    | none => s
    | some l =>
      let n := s.rd 3 c.t l o.n
      if n = 0 then s
      else s.tinv c (invalVa (s.targetVf c o.vf) (s.tinvSpid c l o) (s.rd64 0 c.t l o.a) (65536 * n))

/-- `tinv.sp` (R345). -/
def execTinvSp (h : Hdr) (o : TinvOps) (s : State) : Host.Outcome State Fault Refusal :=
  issue (.tinvSp h o) s fun c s =>
    match s.poster c with
    | none => s
    | some l => s.tinv c (invalSp (s.targetVf c o.vf) (s.tinvSpid c l o))

/-- `tinv.fn` (R345). -/
def execTinvFn (h : Hdr) (o : TinvOps) (s : State) : Host.Outcome State Fault Refusal :=
  issue (.tinvFn h o) s fun c s =>
    match s.poster c with
    | none => s
    | some _ => s.tinv c (invalFn (s.targetVf c o.vf))

/-- `tinv.ipa` (R345). -/
def execTinvIpa (h : Hdr) (o : TinvOps) (s : State) : Host.Outcome State Fault Refusal :=
  issue (.tinvIpa h o) s fun c s =>
    match s.poster c with
    | none => s
    | some l =>
      s.tinv c (invalIpa (s.targetVf c o.vf) (s.rd64 0 c.t l o.a) (65536 * s.rd 3 c.t l o.n))

/-! ## `tmark` -/

/-- `tmark` (R346, R370). -/
def execTmark (h : Hdr) (a : Reg) (code : BitVec 16) (s : State) : Host.Outcome State Fault Refusal :=
  issue (.tmark h a code) s fun c s =>
    match s.poster c with
    | none => s
    | some l =>
      let core := s.coreOf c.p
      if bit (s.die (dieOf core)).trctl 1 then
        s.trace core (s.part c.p).ctx (s.vfOf c.t) 0 code.toNat (s.launchOf c.t) (s.rd 0 c.t l a)
      else s

end Sys2Proof.Machine
end

