-- ==== Sys2Proof/Machine/Events.lean ====
section
/-! DEFINITION. The events of the device's agents that act on lanes, memory, barriers and engines: fills,
deferred results, arrivals, replays, records, clocks, commits, traps, the stall detector and the watchdog.
An event whose condition does not hold leaves the state as it is. -/

namespace Sys2Proof.Machine

/-! ## Fetch, deferred results and arrivals -/

/-- INSTRUCTION_FETCH_FILL (R198). -/
def execInstructionFetchFill (id : Nat) (s : State) : Host.Outcome State Fault Refusal :=
  .next (match s.fills.find? fun f => f.id = id with
    | some f => if s.resident f.part then s.fillArrives f else s
    | none => s)

/-- A gather whose element gives a deferred group reads it now, if it has not yet (R124). -/
def State.gatherFor (s : State) (g : Nat) : State :=
  match s.cmds.findSome? fun k => match k.body with
    | .gather _ _ els => (els.zipIdx.find? fun x => x.1.2.2 = g).map fun x => (k.id, x.2)
    | _ => none with
  | some (id, i) => s.cmdPiece id 1 i
  | none => s

/-- A sampled operation takes note of the lane whose result lands (R371). -/
def landedLast (d : Deferred) (x : Nat × Part) : Nat × Part :=
  if x.2.ops.any fun o => o.id = d.op && o.smp.isSome then
    (x.1, { x.2 with ops := x.2.ops.map fun o : Op =>
      if o.id = d.op then { o with smp := o.smp.map fun y : Smp => { y with last := some d.lane } } else o })
  else x

/-- A result lands. The access that gave it has been performed: no engine read that is posted later finds what it has
replaced (R95). -/
def State.landOne (s : State) (d : Deferred) : State :=
  { s with undo := settled (fun x => x.1 = d.op * 1024 + d.lane) s.undo, parts := s.parts.map (landedLast d) }.land d

/-- The deferred results of a group land together once all their values are known (R195, R196). -/
def State.landGroup (s : State) (g : Nat) : State :=
  let s := if s.defs.any fun d => d.group = g && d.val.isNone then s.gatherFor g else s
  let ds := s.defs.filter fun d => d.group = g
  if ds.all fun d => d.val.isSome && (s.clusterOfTeam d.team).st = .resident then
    ds.foldl (fun (s : State) d =>
      match s.defs.find? fun e => e.id = d.id with
      | some e => s.landOne e
      | none => s) s
  else s

/-- DEFERRED_RESULT_ARRIVAL (R195). -/
def execDeferredResultArrival (id : Nat) (s : State) : Host.Outcome State Fault Refusal :=
  .next (s.landGroup id)

/-- The part that has an operation in flight. -/
def State.opPart (s : State) (op : Nat) : Option (Nat × Op) :=
  s.parts.findSome? fun x => (x.2.ops.find? fun o => o.id = op).map fun o => (x.1, o)

/-- Whether nothing of an operation is left: no result to land, no access held or committing. -/
def State.opDone (s : State) (op : Nat) : Bool :=
  !(s.defs.any fun d => d.op = op) && !(s.held.any fun h => h.op = op)
    && !(s.commits.any fun k => k.op = op)

/-- An instruction arrives on its path (R102, R103): lane accesses, and the gather path, which carries out
what is left of its command first. -/
def State.pathArrives (s : State) (op : Nat) : State :=
  match s.opPart op with
  | none => s
  | some (p, o) =>
    if !s.resident p then s
    else if o.path = .x then
      match s.cmds.find? fun k => k.op = op && k.eng = .x with
      | none => s
      | some k =>
        let s := s.cmdRun k.id
        match s.cmds.find? fun k => k.op = op && k.eng = .x with
        | some k => if k.body.done && !k.frozen && k.reports.isEmpty && s.opDone op then s.cmdComplete k else s
        | none => s
    else if (o.path = .g || o.path = .s || o.path = .c) && s.opDone op then s.arriveOp p op
    else s

/-- PATH_ARRIVAL (R103). -/
def execPathArrival (id : Nat) (s : State) : Host.Outcome State Fault Refusal := .next (s.pathArrives id)

/-- TEAM_RETIRE (R189). -/
def execTeamRetire (part : Nat) (s : State) : Host.Outcome State Fault Refusal := .next (s.retireTeam part)

/-! ## Faults and replay -/

/-- TABLE_WALK (R46): a recorded access walks again and is performed, recorded again, or a violation. -/
def execTableWalk (id : Nat) (s : State) : Host.Outcome State Fault Refusal :=
  .next (match s.held.find? fun h => h.id = id with
    | some h => if s.resident h.part then s.replay h else s
    | none => s)

/-- Write a record of a report into its ring, when it has room (R47, R48). A disabled ring drops the record
of a violation and acts as ABORT for a fault. The vector is signalled when the ring was empty. -/
def State.writeReport (s : State) (r : Report) : State :=
  let ring := (s.fn r.ring).fq
  let without := { s with reports := s.reports.filter fun x => x.id ≠ r.id }
  if r.written then s
  else if ring.size = 0 then
    if r.token = 0 then without else without.abortReport r.id
  else if ring.full then s
  else
    let empty := ring.tail % ring.size = ring.head % ring.size
    let s := s.deviceWrite r.ring (ring.addr + ring.tail % ring.size * 32) 32 r.record
    let s := s.modFn r.ring fun x => { x with fq := { x.fq with tail := (ring.tail + 1) % ring.size } }
    let reports := if r.token = 0 then s.reports.filter fun x => x.id ≠ r.id
      else s.reports.map fun x : Report => if x.id = r.id then { x with written := true } else x
    let s := { s with reports := reports }
    if empty then s.signalFault r.ring else s

/-- FAULT_RECORD (R48), of a fault that no violation of its master can still supersede (R53). -/
def execFaultRecord (id : Nat) (s : State) : Host.Outcome State Fault Refusal :=
  .next (match s.reports.find? fun r => r.id = id with
    | some r => if s.mayRecord r.id then s.writeReport r else s
    | none => s)

/-- FRES (R50): the register of a function, or of the hypervisor. -/
def execFres (hyp : Bool) (vf token : Nat) (abort : Bool) (s : State) :
    Host.Outcome State Fault Refusal :=
  .next (s.fresWrite (if hyp then 64 else vf % 64) (token % 2 ^ 16 + b2n abort * 2 ^ 16))

/-! ## Stash and homes -/

/-- Whether a recorded access touches a sector of a block's stash. -/
def heldSector (b k : Nat) (h : Held) : Bool :=
  h.acc.sp = .stash && blockOf h.team = b && (sectorsOf h.acc.ea (max h.acc.n 1)).contains k

/-- STASH_FILL (R59): the fill that a recorded stash access waits for completes, and the access is
performed with it. -/
def execStashFill (block va : Nat) (s : State) : Host.Outcome State Fault Refusal :=
  .next (match s.held.find? fun h => heldSector block (va / 64) h && h.report = 0 with
    | some h => if s.resident h.part then s.replay h else s
    | none => s)

/-- RECALL (R63): a home takes back a sector that a stash owns, which keeps a clean copy; the guest is asked
for one that it holds (R322). -/
def execRecall (pa : Nat) (s : State) : Host.Outcome State Fault Refusal :=
  .next ((s.recall false (pa / 64)).snoop (pa / 64))

/-! ## Clocks (R85) -/

/-- A core's clock advances by 1 at a tick that is a multiple of 8, once (R85). -/
def State.clockAdvance (s : State) (core : Nat) : State :=
  s.modCore core fun c =>
    if s.tick % 8 = 0 && c.advanced ≠ s.tick then { c with clock := c.clock + 1, advanced := s.tick } else c

/-- A core's clock is raised, at a tick that is a multiple of 256, to the highest clock that any core held
at the previous multiple (R85). -/
def State.clockRaise (s : State) (core : Nat) : State :=
  s.modCore core fun c =>
    if s.tick % 256 = 0 && c.raised ≠ s.tick then
      { c with clock := max c.clock s.maxClock, raised := s.tick }
    else c

/-- CLOCK_ADVANCE (R85). -/
def execClockAdvance (core : Nat) (s : State) : Host.Outcome State Fault Refusal :=
  .next (if core < 256 then s.clockAdvance core else s)

/-- CLOCK_RAISE (R85). -/
def execClockRaise (core : Nat) (s : State) : Host.Outcome State Fault Refusal :=
  .next (if core < 256 then s.clockRaise core else s)

/-- The clocks at the start of a tick, before any access of it: every core's moves (R85, R86), and the guest's with them
(R322). At tick 0, the tick of the reset, none has moved (DEDUCED, log 89). -/
def State.startClocks (s : State) : State :=
  let s1 := if s.tick % 8 = 0 then
      ((List.range 256).foldl (fun (s : State) c => s.clockAdvance c) s).modGuest fun g =>
        { g with clock := s.guestLimit (g.clock + 1) }
    else s
  if s.tick % 256 = 0 then
    let s2 := ((List.range 256).foldl (fun (s : State) c => s.clockRaise c) s1).modGuest fun g =>
      { g with clock := s1.guestLimit (max g.clock s1.maxClock) }
    { s2 with maxClock := s2.cores.foldl (fun m c => max m c.2.clock) 0 }
  else s1

/-! ## Replicated commits -/

/-- REPLICATED_COMMIT_LOCK (R107). -/
def execReplicatedCommitLock (id : Nat) (s : State) : Host.Outcome State Fault Refusal :=
  .next (match s.commits.find? fun k => k.id = id with
    | some k => s.lockCommit k
    | none => s)

/-- REPLICATED_COMMIT_UPDATE (R107). -/
def execReplicatedCommitUpdate (id : Nat) (s : State) : Host.Outcome State Fault Refusal :=
  .next (match s.commits.find? fun k => k.id = id with
    | some k => s.updateCommit k
    | none => s)

/-- An uncorrectable error of a link (R378, R379): entry 0 of the physical function's table is signalled
when UE goes from 0 to 1. -/
def State.linkError (s : State) (link why : Nat) : State :=
  let x := s.lnkst.get 0 link
  let y := x - bits x 1 3 * 2 + 2 + why * 4
  let s1 := { s with lnkst := s.lnkst.set 0 link y }
  if bit x 1 then s1 else s1.signal 64 0

/-- A commit that has missed its bound (R108): its copies are poisoned, an atomic gives its words poisoned,
and then the link's error is reported (DEDUCED, log 55). -/
def State.missCommit (s : State) (k : Commit) (link : Nat) : State :=
  let base := k.pa / 64 * 64
  let s := (copies base).foldl (fun (s : State) a =>
    s.putBytes a 64 (s.getBytes a 64).1 (ones 64) (ones 64)) s
  let s := s.closeCommit k (s.whoClock k.who)
  let s := if k.acc.kind = .atom then
      s.fixGroup k.res (resultWords k.acc (s.getBytes k.pa k.len).1 (ones k.len))
    else s
  s.linkError link 3

/-- COMMIT_BOUND_MISSED (R108): 3,500 ticks after the lock step. -/
def execCommitBoundMissed (id link : Nat) (s : State) : Host.Outcome State Fault Refusal :=
  .next (match s.commits.find? fun k => k.id = id with
    | some k => if k.overdue s.tick && link < 18 then s.missCommit k link else s
    | none => s)

/-! ## Engines and barriers -/

/-- A Ladle command completes (R246, R251), or a copy node finishes or fails with its copy (R258). -/
def State.ladleDone (s : State) (id : Nat) : State :=
  let s := s.cmdRun id
  match s.cmds.find? fun k => k.id = id && k.eng = .l with
  | none => s
  | some k =>
    match k.node with
    | some (g, n) =>
      if k.frozen then (s.dropCmd id).failNode g n 4 k.time
      else if k.body.done && k.reports.isEmpty then (s.dropCmd id).nodeDone g n (max k.time (s.node g n).time)
      else s
    | none =>
      if k.body.done && !k.frozen && k.reports.isEmpty && s.resident k.part
          && !(s.cmds.any fun j => j.part = k.part && j.eng = .l && j.node.isNone && j.frozen && j.id < id)
      then s.cmdComplete k
      else s

/-- LADLE_COMPLETE (R246). -/
def execLadleComplete (id : Nat) (s : State) : Host.Outcome State Fault Refusal := .next (s.ladleDone id)

/-- BARRIER_ARRIVAL_STEP (R238). -/
def execBarrierArrivalStep (die k : Nat) (s : State) : Host.Outcome State Fault Refusal :=
  .next (s.arrivalStep die k)

/-- TUNDISH_GRANT (R273). -/
def execTundishGrant (flask : Nat) (s : State) : Host.Outcome State Fault Refusal :=
  .next (s.tundishGrant flask)

/-- PASS_RETIRE (R274). -/
def execPassRetire (id : Nat) (s : State) : Host.Outcome State Fault Refusal := .next (s.passRetire id)

/-- RUNNER_RELEASE (R301). -/
def execRunnerRelease (part lane : Nat) (s : State) : Host.Outcome State Fault Refusal :=
  .next (s.runnerRelease part lane)

/-- TCUT_COMPLETE (R306). -/
def execTcutComplete (id : Nat) (s : State) : Host.Outcome State Fault Refusal := .next (s.tcutComplete id)

/-! ## The guest -/

/-- GUEST_PACKET_DELIVER (R320). -/
def execGuestPacketDeliver (q : Nat) (s : State) : Host.Outcome State Fault Refusal :=
  .next (s.guestDeliver q)

/-- GUEST_COMPLETION_REPORT (R318). -/
def execGuestCompletionReport (q seq status : Nat) (s : State) : Host.Outcome State Fault Refusal :=
  .next (s.guestReport q seq status)

/-- GUEST_TRANSLATION_REQUEST (R322). -/
def execGuestTranslationRequest (q vf spid va : Nat) (write : Bool) (s : State) :
    Host.Outcome State Fault Refusal :=
  .next (s.guestTranslate q vf spid va write)

/-- GUEST_ACCESS (R322). -/
def execGuestAccess (q pa len : Nat) (write : Bool) (data : Nat) (s : State) :
    Host.Outcome State Fault Refusal :=
  .next (s.guestAccess q pa len write data)

/-- GUEST_INVALIDATION_ACK (R322). -/
def execGuestInvalidationAck (id : Nat) (s : State) : Host.Outcome State Fault Refusal :=
  .next (s.guestAck id)

/-- GUEST_LEASE_SNOOP (R322). -/
def execGuestLeaseSnoop (pa : Nat) (s : State) : Host.Outcome State Fault Refusal :=
  .next (s.leaseSnoop pa)

/-- GUEST_SNOOP_OR_RECALL_ANSWER (R322). -/
def execGuestSnoopOrRecallAnswer (pa data : Nat) (s : State) : Host.Outcome State Fault Refusal :=
  .next (s.snoopAnswer pa data)

/-- GUEST_QUIESCE_ANSWER (R322). -/
def execGuestQuiesceAnswer (q seq : Nat) (returned : Bool) (s : State) :
    Host.Outcome State Fault Refusal :=
  .next (s.quiesceAnswer q seq returned)

/-- GUEST_BREACH (R323). -/
def execGuestBreach (code : Nat) (s : State) : Host.Outcome State Fault Refusal :=
  .next (s.guestBreach code)

/-! ## Trap records -/

/-- Whether a trap record still stands for a trap that its part has. -/
def State.recordStands (s : State) (x : TrapOut) : Bool :=
  let k := bits x.record 0 16
  x.always || (s.part x.part).qTokens.contains k || (match (s.part x.part).susp with
    | some u => u.token = k
    | none => false)

/-- Whether an access that the part made before its trap is still to take its place: the record follows it (R330). What
a frozen part holds is never performed (R50). -/
def State.recordWaits (s : State) (x : TrapOut) : Bool :=
  (s.commits.any fun k => k.part = x.part && k.by' = .lane)
    || ((s.part x.part).life ≠ .frozen && s.held.any fun h => h.part = x.part)

/-- Write a trap record into its ring, when it has room (R330): a trap whose ring is disabled is resolved as
`.kill`; a prologue's node fails with status 4 (R326); the vector is signalled when the ring was empty, and
always for class 13 (DEDUCED, log 47). -/
def State.writeTrap (s : State) (x : TrapOut) : State :=
  let ring := (s.fn x.ring).tq
  let l := s.launchOf (teamOf x.part)
  let cls := bits x.record 16 5
  let s1 := { s with trapOuts := s.trapOuts.filter fun y => y.id ≠ x.id }
  let pro := !x.always && (s.launch l).prologue
  if !s.recordStands x then s1
  else if ring.size = 0 then
    if x.always then s1 else s1.kill l
  else if ring.full || s.recordWaits x then s
  else
    let empty := ring.tail % ring.size = ring.head % ring.size
    let time := max x.time (if s.livePart x.part then (s.core (s.coreOf x.part)).clock else 0)
    let s2 := s1.deviceWriteAt x.ring time (ring.addr + ring.tail % ring.size * 64) 64 x.record
    let s2 := s2.modFn x.ring fun y => { y with tq := { y.tq with tail := (ring.tail + 1) % ring.size } }
    let s2 := if empty || cls = 13 then s2.signalTrap x.ring (cls = 13) else s2
    let core := bits x.record 22 2 * 64 + bits x.record 24 6
    let s2 := if bit (s2.die (dieOf core)).trctl 3 then
        s2.trace core (bits x.record 32 8) (bits x.record 40 6) 3 cls (bits x.record 192 64) 0
      else s2
    if pro then s2.terminate l 4 false false else s2

/-- TRAP_RECORD (R330): the records of one ring are written in the order of their traps. -/
def execTrapRecord (id : Nat) (s : State) : Host.Outcome State Fault Refusal :=
  .next (match s.trapOuts.find? fun x => x.id = id with
    | some x => s.writeTrap x
    | none => s)

/-! ## The stall detector (R334) -/

/-- The instruction at which a part stands, or the two of a pair, when its line is held. -/
def State.instrsAt (s : State) (p : Nat) : List Instr :=
  let off := (s.part p).off
  match (s.fetchWord p off).2 with
  | .word w =>
    match decodeFetch w (off % 16 = 8) with
    | .ok (.one i) => [i]
    | .ok (.pair i j) => [i, j]
    | .error _ => []
  | _ => []

/-- The paths whose counters a part waits on at `waitc`, or because they are full (R104, R132). -/
def State.waitPaths (s : State) (p : Nat) : List Path :=
  (s.instrsAt p).filterMap fun i =>
    match i with
    | .waitc _ _ path => some path
    | i => raises i

/-- Whether the Runner queue that owes an operation has been frozen (R105, R312). -/
def State.runnerFrozen (s : State) (op : Nat) : Bool :=
  match s.opPart op with
  | some (p, o) => o.path = .t && (s.part p).frozenQ.contains .t
  | none => false

/-- Whether an operation is owed by an agent that no violation has frozen; an entry of the Tundish that
waits for an array's slot is owed one by the parts of `r` that hold a tag in its flask. -/
def State.opAlive (s : State) (r : List Nat) (op : Nat) : Bool :=
  !(s.cmds.any fun k => k.op = op && k.frozen) && !s.runnerFrozen op
    && s.tundish.all fun e => e.op ≠ op || (!e.frozen && (e.granted || (s.grantOf e).isSome
      || s.tundish.any (fun f => f.flask = e.flask && f.granted && !f.frozen)
      || r.any fun q => flaskOf (s.coreOf q) = e.flask && !(s.part q).tags.isEmpty))

/-- Whether all operations of a part that a wait needs are owed by living agents. -/
def State.opsAlive (s : State) (r : List Nat) (p : Nat) (which : Path → Bool) : Bool :=
  (s.part p).ops.all fun o => !which o.path || s.opAlive r o.id

/-- Whether all deferred results of a part are owed by living agents. -/
def State.defsAlive (s : State) (r : List Nat) (p : Nat) : Bool :=
  let x := s.part p
  s.defs.all fun d => d.team ≠ teamOf p || d.lane < x.lo || x.lo + x.width ≤ d.lane
    || d.val.isSome || s.opAlive r d.op

/-- Whether an arrival is owed to a barrier's current phase (R334): one that is on its way, a lane of a part
in `r` that can arrive, or a command that names it. -/
def State.arrivalOwed (s : State) (r : List Nat) (k : BarKey) : Bool :=
  let mine (cl : Bool) (ix blk : Nat) : Bool :=
    cl = k.cl && ix = k.ix && (if cl then clusterOf blk = k.id else blk = k.id)
  (s.dies.any fun d => d.2.arrivals.any fun a => mine a.cl a.ix a.blk)
    || (s.cmds.any fun c => !c.frozen && c.node.isNone && (match c.bar with
      | some b => mine b.cl b.ix.val (blockOf (teamOf c.part))
      | none => false))
    || (s.barLanes k).any fun x => x.2.kind = .own && x.2.wl ≠ 4095 && r.contains (s.partOf x.1)
      && (match x.2.hold with
        | some (.barrier cl ix _) => !(cl = k.cl && ix = k.ix)
        | _ => true)

/-- Whether a held lane's release is owed (R334). -/
def State.holdOwed (s : State) (r : List Nat) (p l : Nat) : Bool :=
  match (s.lane (laneId (teamOf p) l)).hold with
  | none => false
  | some .runner => !(s.part p).frozenQ.contains .t
  | some (.barrier _ _ none) => true
  | some (.barrier cl ix (some _)) =>
    s.arrivalOwed r ⟨cl, if cl then clusterOf (blockOf (teamOf p)) else blockOf (teamOf p), ix⟩

/-- Whether a part is ready, or an event that ends its wait is pending at an agent that is not frozen, given
the parts `r` that are found so already (R334) (DEDUCED, log 66). -/
def State.mayGoOn (s : State) (r : List Nat) (p : Nat) : Bool :=
  let x := s.part p
  match x.life with
  | .suspended => true
  | .live =>
    match x.wait with
    | .settle | .v255 => s.defsAlive r p
    | .counters => s.opsAlive r p fun _ => true
    | .retire => (s.opsAlive r p fun _ => true) && s.defsAlive r p
    | .waitc | .counter => s.opsAlive r p fun y => (s.waitPaths p).contains y
    | .hold => (s.partLanes p).any fun l => s.holdOwed r p l
    | .fuse => match s.sibling p with
      | some q => r.contains q
      | none => true
    | .ladleQueue => s.cmds.any fun k => k.part = p && k.eng = .l && !k.frozen
    | .tundish => s.tundish.any fun e => e.flask = flaskOf (s.coreOf p) && s.opAlive r e.op
    | _ => true
  | _ => false

/-- The parts that are ready or releasable, found in as many rounds as there are parts. -/
def State.goingOn (s : State) : Nat → List Nat → List Nat
  | 0, r => r
  | n + 1, r => s.goingOn n ((s.parts.filter fun x => s.resident x.1 && s.mayGoOn r x.1).map (·.1))

/-- Whether a launch has an outstanding token of class 12 or 14. -/
def State.tokenHeld (s : State) (l : Nat) : Bool :=
  s.parts.any fun x => s.launchOf (teamOf x.1) = l && (!x.2.qTokens.isEmpty || (match x.2.susp with
    | some u => u.cls = 12 || u.cls = 14
    | none => false))

/-- The test of a core whose idle count has reached 2^20 (R334): when no part of it is releasable, every
parked or stalled part of each launch with a part on it takes class 12. The count is cleared. -/
def State.stallTest (s : State) (core : Nat) : State :=
  if (s.core core).idle < 2 ^ 20 then s
  else
    let s := s.modCore core fun c => { c with idle := 0 }
    let ps := s.corePartIds core
    let r := s.goingOn s.parts.length []
    if ps.any fun p => r.contains p then s
    else
      let ls := (once (ps.map fun p => s.launchOf (teamOf p))).filter fun l => !s.tokenHeld l
      let hit := s.parts.filter fun x => ls.contains (s.launchOf (teamOf x.1)) && x.2.life = .live
        && x.2.wait ≠ .none && s.resident x.1
      hit.foldl (fun (s : State) x => s.trapAt x.1 12) s

/-- STALL_DETECTOR_TEST (R334). -/
def execStallDetectorTest (core : Nat) (s : State) : Host.Outcome State Fault Refusal :=
  .next (s.stallTest core)

/-! ## The watchdog (R335) -/

/-- The microseconds at which a launch's watchdog fires, 0 for never. -/
def Launch.limit (l : Launch) : Nat := if l.img.pers then l.img.beat else l.tout

/-- The ticks of a microsecond (R6). -/
def usTicks : Nat := 1750

/-- Whether a launch's watchdog is due. -/
def Launch.due (x : Launch) : Bool := match x.watch with
  | some t => x.limit ≠ 0 && x.limit * usTicks ≤ t
  | none => false

/-- The part that the record of a watchdog names: the launch's lowest resident part, or its lowest saved one when none is
resident (DEDUCED, log 56). -/
def State.watchPart (s : State) (l : Nat) : Option (Nat × Part) :=
  let ps := s.parts.filter fun p => s.ofLaunch l p.1 && s.livePart p.1
  (ps.find? fun p => s.resident p.1).or ps.head?

/-- The watchdog fires (R335): a class-13 record, and the launch ends with status 5. -/
def State.watchdogFires (s : State) (l : Nat) : State :=
  let x := s.launch l
  if !x.due then s
  else
    match s.watchPart l with
    | none => s
    | some (p, y) =>
      let (ga, act) := s.atInstr p
      let r := s.trapRecord p 0 13 true y.off 0 (wordMask y.lo ga act)
      let (id, s) := s.takeId
      let out : TrapOut := { id := id, ring := x.vf, part := p, record := r, always := true
                             dead := (s.fn x.vf).tq.size = 0, time := (s.core (s.coreOf p)).clock }
      ({ s with trapOuts := s.trapOuts ++ [out] }).terminate l 5 true true

/-- Every watchdog that is due fires (R335). -/
def State.watchdogs (s : State) : State :=
  (s.launches.filter fun x => x.2.due).foldl (fun (s : State) x => s.watchdogFires x.1) s

/-- WATCHDOG (R335). -/
def execWatchdog (launch : Nat) (s : State) : Host.Outcome State Fault Refusal :=
  .next (s.watchdogFires launch)

end Sys2Proof.Machine
end

