-- ==== Sys2Proof/Machine/Device.lean ====
section
/-! DEFINITION. The events of the graph walkers, the distributors, the host, the functions, the debug
registers, boot, attestation, and the links (R254 to R265, R268, R338, R355 to R382). -/

namespace Sys2Proof.Machine

/-! ## Queues and submissions (R254 to R256) -/

/-- Whether a function's walkers act (R355, R356, R360). -/
def State.walks (s : State) (f : Nat) : Bool := (s.fn f).en && !(s.fn f).flrb

/-- Whether a queue descriptor may be served: enabled, and no bad-queue (R254). -/
def descOk (x : Nat) : Bool :=
  bit x 0 && 4 ≤ bits x 5 5 && bits x 5 5 ≤ 16 && bits x 22 42 = 0 && bits x 176 80 = 0

/-- A ring entry as the walker keeps it: GRAPH, NCNT, DONE, DVAL. A reserved bit that is set makes the graph
bad, which a count of no nodes stands for (R256, R257) (DEDUCED, log 22). -/
def submission (x : Nat) : Nat × Nat × Nat × Nat :=
  let n := if bits x 80 48 = 0 && bits x 224 288 = 0 then bits x 64 16 else 0
  (bits x 0 64, n, bits x 128 64, bits x 192 32)

/-- The walker takes over what a descriptor says; HEAD is 0 when EN has gone from 0 to 1 (R254) (DEDUCED,
log 60). -/
def State.takeDesc (s : State) (g x pa : Nat) : State × Nat :=
  let fresh := !(s.queue g).on
  let head := if fresh then 0 else bits x 160 16
  let s := if fresh && bits x 160 16 ≠ 0 then s.deviceWriteAt (g / 256) s.hostClock (pa + 20) 2 0 else s
  (s.modQueue g fun y =>
    { y with on := true, pri := bits x 1 2, die := bits x 3 2, spid := bits x 10 12
             tout := bits x 128 32, time := max y.time s.hostClock }, head)

/-- The event by which a walker goes on with the notifies of a queue that it has accepted: no register has its number. -/
def notifyOn (f q : Nat) : Instr := .qnotify f (256 + q) 0

/-- Read so many entries of a ring from HEAD up, writing HEAD after each (R255) (DEDUCED, log 19). The second result says
whether the notify is over; the queue keeps how many entries are left of one that has to wait. -/
def State.readRing (s : State) (f q pa ring size : Nat) : Nat → Nat → State × Bool
  | 0, _ => (s, true)
  | n + 1, head =>
    let g := f * 256 + q
    let w := s.walkerWho g
    let wait (s : State) (r : Nat) : State × Bool :=
      ((s.modQueue g fun y => { y with left := some (n + 1) }).await r (.event (notifyOn f q)), false)
    match (s.raiseClock w.core (s.queue g).time).agentRead w (ring + 64 * head) 64 with
    | (s, .ok x) =>
      let next := (head + 1) % size
      let s := s.modQueue g fun y => { y with waiting := y.waiting ++ [submission x] }
      (s.deviceWriteAt f (s.core w.core).clock (pa + 20) 2 next).readRing f q pa ring size n next
    | (s, .busy) => wait s 0
    | (s, .stop x) =>
      if x.isViolation then (s.reportViolation w x kRead, true)
      else
        match s.reportFault w x kRead with
        | (some r, s) => wait s r
        | (none, s) => (s, true)

/-- The entries from HEAD up to TAIL − 1: TAIL may pass HEAD by more than the ring holds, and one below HEAD lies in the
ring's next round (R255, R269) (DEDUCED, log 92). -/
def entriesLeft (size head tail : Nat) : Nat := if head ≤ tail then tail - head else (tail + size - head) % size

/-- Serve a notify: the walker reads the descriptor, and then the entries that TAIL asks for, or those that are left of
them (R255). The second result says whether the notify is over. -/
def State.serveNotify (s : State) (f q tail : Nat) (left : Option Nat) : State × Bool :=
  let x := s.fn f
  let w : Who := { core := 0, vf := f, spid := 0, root := 0, lvl := .s, master := 5 }
  let again := Waiter.event (notifyOn f q)
  if !bit x.qtbl 0 then (s.dropNotify f, true)
  else
    match s.inWalk w true fun s => s.stage2 0 f noSpace (bits x.qtbl 12 40 * 4096 + 32 * q) with
    | (s, .stop y) =>
      match s.reportFault w y kRead with
      | (some r, s) => (s.await r again, false)
      | (none, s) => (s.dropNotify f, true)
    | (s, .ok y) =>
      if !s.homed y.pa then (s.dropNotify f, true)
      else if s.busySec y.pa then (s.await 0 again, false)
      else
        let (s, d, m) := s.deviceRead f y.pa 32
        let (s, d) := s.unpoison y.pa 32 d m
        let g := f * 256 + q
        if !descOk d then ((s.modQueue g fun z => { z with on := z.on && bit d 0 }).dropNotify f, true)
        else
          let size := 2 ^ bits d 5 5
          let (s, head) := s.takeDesc g d y.pa
          s.readRing f q y.pa (bits d 64 64) size (left.getD (entriesLeft size (head % size) tail)) (head % size)

/-- Keep the notifies of a queue that its walker has accepted and not ended. -/
def State.keepTails (s : State) (g : Nat) (ts : List Nat) : State := s.modQueue g fun y => { y with tails := ts }

/-- Go on with the notifies of a queue, one after the other: each counts its entries from where the one before has left
HEAD (R255). -/
def State.serveTails (s : State) (f q : Nat) (left : Option Nat) : List Nat → State
  | [] => s
  | t :: ts =>
    match s.serveNotify f q t left with
    | (s, true) => ((s.modQueue (f * 256 + q) fun y => { y with left := none }).keepTails (f * 256 + q) ts).serveTails f q none ts
    | (s, false) => s

/-- A notify (R255): one of a function that is disabled or in reset is dropped and counted (R356, R360). It waits behind
those of its queue that are not over. -/
def State.notify (s : State) (f q tail : Nat) : State :=
  let g := f * 256 + q
  if (s.fn f).flrb || !(s.fn f).en || !bit (s.fn f).qtbl 0 then s.dropNotify f
  else if !(s.queue g).tails.isEmpty then s.keepTails g ((s.queue g).tails ++ [tail])
  else
    match s.serveNotify f q tail none with
    | (s, true) => s
    | (s, false) => s.keepTails g [tail]

/-- The walker goes on with the notifies of a queue that it has accepted, when nothing that they wait for is still to
come; while the function is disabled they wait (R356). -/
def State.notifyAgain (s : State) (f q : Nat) : State :=
  let y := s.queue (f * 256 + q)
  if (s.fn f).flrb || s.waiters.any (fun x => x.2 = .event (notifyOn f q)) then s
  else if !(s.fn f).en then s.await 0 (.event (notifyOn f q))
  else s.serveTails f q y.left y.tails

/-- The nodes of a graph at its start (R258): those that need no arrival are eligible. -/
def State.startNodes (s : State) (g : Nat) (rs : List Nat) : State :=
  rs.zipIdx.foldl (fun (s : State) x =>
    let (turn, s) := s.takeId
    s.setNode g x.2 { st := if nPred x.1 = 0 then .eligible else .idle, turn := turn, raw := x.1
                      time := (s.queue g).time }) s

/-- The next submission of a queue starts when none is running (R256, R257): a bad graph is refused
whole. -/
def State.startSubmission (s : State) (f q : Nat) : State :=
  let g := f * 256 + q
  match (s.queue g).waiting, (s.queue g).run with
  | e :: t, none =>
    if !s.walks f then s
    else
      let w := s.walkerWho g
      let begin (s : State) (status : Nat) : State :=
        s.modQueue g fun y =>
          { y with waiting := t, run := some e, status := status, nodes := [], time := max y.time (s.core w.core).clock }
      let n := if 4095 < e.2.1 then 0 else e.2.1
      match (s.raiseClock w.core (s.queue g).time).agentRead w e.1 (64 * n) with
      | (s, .ok x) =>
        let rs := chop 512 n x
        if graphBad n rs then (begin s 1).graphComplete g else (begin s 0).startNodes g rs
      | (s, .busy) => s.await 0 (.event (.submissionStart f q))
      | (s, .stop x) =>
        if x.isViolation then (begin (s.reportViolation w x kRead) 4).graphComplete g
        else
          match s.reportFault w x kRead with
          | (some r, s) => s.await r (.event (.submissionStart f q))
          | (none, s) => (begin s 4).graphComplete g
  | _, _ => s

/-- SUBMISSION_START (R256). -/
def execSubmissionStart (vf q : Nat) (s : State) : Host.Outcome State Fault Refusal :=
  .next (if vf < 64 && q < 256 then s.startSubmission vf q else s)

/-! ## Nodes (R258 to R261) -/

/-- What an access of a node's walker meets (R47, R383): a fault holds the event until FRES, and a
violation fails the node with status 4. -/
def State.nodeStop (s : State) (g n : Nat) (w : Who) (x : Stop) (kind : Nat) (again : Instr) : State :=
  let fails (s : State) : State := s.failNode g n 4 (s.core w.core).clock
  if x.isViolation then fails (s.reportViolation w x kind)
  else
    match s.reportFault w x kind with
    | (some r, s) => s.await r (.event again)
    | (none, s) => fails s

/-- Whether a graph is running with no failure, so that its nodes go on (R258). -/
def State.graphRuns (s : State) (g : Nat) : Bool :=
  let q := s.queue g
  q.run.isSome && q.status = 0 && !q.closing && s.walks (g / 256)

/-- A region record: base, length and whether it is written (R260). Its reserved bits [62:56] are not looked at: no effect
is given for one that is set (DEDUCED, log 107). -/
def region (x : Nat) : Nat × Nat × Bool := (bits x 0 56, bits x 64 64, bit x 63)

/-- Whether a node is the next in the order of eligibility among those of its function on its die
(R260). -/
def State.firstEligible (s : State) (g n : Nat) : Bool :=
  let d := (s.queue g).die
  let t := (s.node g n).turn
  s.queues.all fun q => q.1 / 256 ≠ g / 256 || q.2.die ≠ d || !s.graphRuns q.1
    || q.2.nodes.all fun x => x.2.st ≠ .eligible || t ≤ x.2.turn

/-- Enter an eligible node into its die's dependence unit (R260). -/
def State.enterNode (s : State) (g n : Nat) : State :=
  let x := s.node g n
  let d := (s.queue g).die
  if !s.graphRuns g || x.st ≠ .eligible || !s.firstEligible g n || 1024 ≤ (s.unit (g / 256) d).length then s
  else
    let k := if nKind x.raw ≤ 1 then nReg x.raw else 0
    let w := s.walkerWho g
    match (s.raiseClock w.core x.time).agentRead w (nRegs x.raw) (16 * k) with
    | (s, .ok v) =>
      let e := (s.die d).depNext + 1
      (s.modDie d fun y => { y with depNext := e }).modNode g n fun y =>
        { y with st := .entered, entry := e, regions := (chop 128 k v).map region
                 time := max y.time (s.core w.core).clock }
    | (s, .busy) => s.await 0 (.event (.dependenceEntry g n))
    | (s, .stop y) => s.nodeStop g n w y kRead (.dependenceEntry g n)

/-- DEPENDENCE_ENTRY (R260). -/
def execDependenceEntry (graph node : Nat) (s : State) : Host.Outcome State Fault Refusal :=
  .next (s.enterNode graph node)

/-- Whether an entered node of a kind may start (R261): no node with a lower entry number that is still in
the unit holds a region that clashes with its own. -/
def State.mayStart (s : State) (g n kind : Nat) : Bool :=
  let x := s.node g n
  s.graphRuns g && x.st = .entered && nKind x.raw = kind
    && (s.unit (g / 256) (s.queue g).die).all fun y =>
      !(y.2.2.entry < x.entry && regionsClash x.regions y.2.2.regions)

/-- A node starts: it is running, its walker's core has the node's time, and its count is cleared (R258, R259). One that
has started already, and whose walker goes on, keeps the arrivals that have come since. -/
def State.beginNode (s : State) (g n : Nat) : State :=
  let x := s.node g n
  (s.raiseClock ((s.queue g).die * 64) x.time).modNode g n fun y =>
    { y with st := .running, words := none, arr := if y.st = .running then y.arr else 0 }

/-- Whether a started node's walker still has the node's access to make: it neither waits, nor has posted the node's packet.
It goes on whatever EN says (R356). -/
def State.goesOn (s : State) (g n kind : Nat) (again : Instr) : Bool :=
  let x := s.node g n
  let q := s.queue g
  x.st = .running && nKind x.raw = kind && q.run.isSome && !q.closing && !(s.fn (g / 256)).flrb
    && !(s.waiters.any fun y => y.2 = .event again) && !(s.inFlight.any fun y => y.2.node = some (g, n))

/-- Whether a node may start, or its walker goes on with it. -/
def State.mayAct (s : State) (g n kind : Nat) (again : Instr) : Bool := s.mayStart g n kind || s.goesOn g n kind again

/-- The clock of a queue's walker. -/
def State.walkClock (s : State) (g : Nat) : Nat := (s.core ((s.queue g).die * 64)).clock

/-- NODE_START_KERNEL (R258, R262). -/
def execNodeStartKernel (graph node : Nat) (s : State) : Host.Outcome State Fault Refusal :=
  .next (if s.mayStart graph node 0 then (s.beginNode graph node).startKernel graph node else s)

/-- A copy node posts its copy, `.acqrel` at device scope, through its die's Ladle (R258). -/
def State.startCopy (s : State) (g n : Nat) : State :=
  let s := s.beginNode g n
  let r := (s.node g n).raw
  let run : Run := ⟨nOpa r, nOpb r, 0, nOpc r, 0⟩
  let (id, s) := s.takeId
  let k : Cmd :=
    { id := id, eng := .l, core := (s.queue g).die * 64, part := 0, lanes := [], op := 0
      ord := .acqrel, sco := .device, bar := none, ca := .keep
      body := .ladle .global .global [] (if nOpc r = 0 then [] else [run]) [], node := some (g, n) }
  ({ s with cmds := s.cmds ++ [k] }).modNode g n fun y => { y with st := .running }

/-- NODE_START_COPY (R258). -/
def execNodeStartCopy (graph node : Nat) (s : State) : Host.Outcome State Fault Refusal :=
  .next (if s.mayStart graph node 1 then s.startCopy graph node else s)

/-- Read a node's condition word and go on with it (R258). -/
def State.withWord (s : State) (g n : Nat) (again : Instr) (f : State → Nat → State) : State :=
  let w := s.walkerWho g
  let s1 := s.beginNode g n
  match s1.agentRead w (nOpa (s.node g n).raw) 4 with
  | (s2, .ok x) => (f s2 x).nodeDone g n (s2.walkClock g)
  | (s2, .busy) => s2.await 0 (.event again)
  | (s2, .stop x) => s2.nodeStop g n w x kRead again

/-- NODE_CONDITIONAL (R258). -/
def execNodeConditional (graph node : Nat) (s : State) : Host.Outcome State Fault Refusal :=
  .next (if s.mayAct graph node 2 (.nodeConditional graph node) then
      s.withWord graph node (.nodeConditional graph node) fun s x =>
        s.modNode graph node fun y => { y with out := if x ≠ 0 then 1 else 2 }
    else s)

/-- NODE_WHILE (R258): the iteration count rises, and is cleared when the loop is left. -/
def execNodeWhile (graph node : Nat) (s : State) : Host.Outcome State Fault Refusal :=
  .next (if s.mayAct graph node 3 (.nodeWhile graph node) then
      s.withWord graph node (.nodeWhile graph node) fun s x =>
        s.modNode graph node fun y =>
          if x ≠ 0 && y.iter + 1 ≤ nBound y.raw then { y with out := 1, iter := y.iter + 1 }
          else { y with out := 2, iter := 0 }
    else s)

/-- NODE_JOIN (R258). -/
def execNodeJoin (graph node : Nat) (s : State) : Host.Outcome State Fault Refusal :=
  .next (if s.mayStart graph node 4 then
      (s.beginNode graph node).nodeDone graph node (s.node graph node).time
    else s)

/-- A host-signal node stores its value and then signals its vector (R258, R359). -/
def State.hostSignal (s : State) (g n : Nat) : State :=
  let w := s.walkerWho g
  let r := (s.node g n).raw
  let s1 := s.beginNode g n
  match s1.agentWrite w (nOpa r) 8 (nOpb r) with
  | (s2, .ok _) =>
    let v := bits (nOpc r) 0 16
    let s3 := if v = 0 then s2 else s2.signal (g / 256) (v - 1)
    s3.nodeDone g n (s3.walkClock g)
  | (s2, .busy) => s2.await 0 (.event (.nodeHostSignal g n))
  | (s2, .stop x) => s2.nodeStop g n w x kWrite (.nodeHostSignal g n)

/-- NODE_HOST_SIGNAL (R258). -/
def execNodeHostSignal (graph node : Nat) (s : State) : Host.Outcome State Fault Refusal :=
  .next (if s.mayAct graph node 5 (.nodeHostSignal graph node) then s.hostSignal graph node else s)

/-- Post the packet that a guest node's walker has read (R321): while the queue is full the walker waits, and a refused
post fails the node with status 8. -/
def State.postNode (s : State) (g n x : Nat) : State :=
  let r := (s.node g n).raw
  let q := bits (nOpb r) 0 6
  let gq := s.gqueue q
  if gq.depth ≠ 0 && !s.guest.frz && gq.depth ≤ gq.flight then
    (s.modNode g n fun y => { y with words := some x }).await 0 (.event (.nodeGuest g n))
  else if s.postStatus q (g / 256) (packetCompl x) ≠ 0 then s.failNode g n 8
  else
    let ord : Ord := (Ord.ofCode (bits (nOpb r) 8 2)).getD .plain
    let sco : Scope := (Scope.ofCode (bits (nOpb r) 10 3)).getD .device
    let k : Packet :=
      { seq := 0, part := 0, op := 0, vf := g / 256, spid := (s.queue g).spid, launch := 0
        words := x, ord := ord, node := some (g, n) }
    (s.modNode g n fun y => { y with words := none }).postPacket q k sco

/-- A guest node reads its packet, once, and posts it (R321). What follows the node follows its read (R259). -/
def State.guestNode (s : State) (g n : Nat) : State :=
  let w := s.walkerWho g
  let y := s.node g n
  match if y.st = .running then y.words else none with
  | some x => s.postNode g n x
  | none =>
    match (s.beginNode g n).agentRead w (nOpa y.raw) 64 with
    | (s1, .ok x) => (s1.modNode g n fun y => { y with time := max y.time (s1.walkClock g) }).postNode g n x
    | (s1, .busy) => s1.await 0 (.event (.nodeGuest g n))
    | (s1, .stop x) => s1.nodeStop g n w x kRead (.nodeGuest g n)

/-- NODE_GUEST (R321). -/
def execNodeGuest (graph node : Nat) (s : State) : Host.Outcome State Fault Refusal :=
  .next (if s.mayAct graph node 6 (.nodeGuest graph node) then s.guestNode graph node else s)

/-- NODE_FINISH (R258). -/
def execNodeFinish (graph node : Nat) (s : State) : Host.Outcome State Fault Refusal :=
  .next (s.finishNode graph node)

/-! ## The launch path (R36, R262, R383) -/

/-- A launch whose reads are done is accepted or refused (R12, R258, R262, R383); a prologue goes to its
walker's Cupola as soon as its function may place and there is room (R356, R363). -/
def State.acceptLaunch (s : State) (l root : Nat) (img : Img) (consts : FMap Byte) : State :=
  let x := { s.launch l with img := img, consts := consts, root := root + 1 }
  let pro := match x.node with
    | some (g, n) => nPro (s.node g n).raw
    | none => false
  if x.prologue then
    if !x.holdable then s.endLaunch l 2
    else
      match s.fitsOn x.die x [] with
      | some cores =>
        if s.mayPlace x.vf then (s.setLaunch l x).placeCluster l x.die cores else s.await 0 (.event (.imageRead l))
      | none => s.await 0 (.event (.imageRead l))
  else if pro then s.setLaunch l { x with st := .staged }
  else if !x.geomOk then s.endLaunch l 7
  else if !x.holdable then s.endLaunch l 2
  else s.setLaunch l { x with st := .pending }

/-- Whether a launch may be read now: a prologue after the launch that it stages (R262). -/
def State.mayRead (s : State) (l : Nat) : Bool :=
  let x := s.launch l
  x.st = .reading && (!x.prologue || (match x.node with
    | some (g, n) => (s.launch (s.node g n).launch).st = .staged
    | none => false))

/-- The walker has read for a launch: the accesses of the launch, and what follows its node, follow those reads (R259). -/
def State.noteReads (s : State) (l : Nat) : State :=
  s.modLaunch l fun x =>
    let t := (s.core (x.die * 64)).clock
    { x with time := max x.time t, endTime := max x.endTime t }

/-- The reads of a launch (R383), or a child's completion word that is still to be written (R264). -/
def State.readLaunch (s : State) (l : Nat) : State :=
  let x := s.launch l
  if x.st = .ended then s.childDone l
  else if !s.mayRead l then s
  else
    let w : Who :=
      { core := x.die * 64, vf := x.vf, spid := x.spid, root := 0, lvl := .s, master := 5, launch := l }
    let s := s.raiseClock w.core x.time
    let stop (s : State) (y : Stop) : State :=
      if y.isViolation then (s.reportViolation w y kRead).endLaunch l 4
      else
        match s.reportFault w y kRead with
        | (some r, s) => s.await r (.event (.imageRead l))
        | (none, s) => s.endLaunch l 4
    match s.acceptSpace w x with
    | (s, .ok none) => (s.noteReads l).endLaunch l 3
    | (s, .ok (some root)) =>
      match s.readImage w x.image x.paramAt with
      | (s, .ok none) => (s.noteReads l).endLaunch l 2
      | (s, .ok (some (img, consts))) => (s.noteReads l).acceptLaunch l root img consts
      | (s, .busy) => s.await 0 (.event (.imageRead l))
      | (s, .stop y) => stop (s.noteReads l) y
    | (s, .busy) => s.await 0 (.event (.imageRead l))
    | (s, .stop y) => stop (s.noteReads l) y

/-- IMAGE_READ (R383). -/
def execImageRead (launch : Nat) (s : State) : Host.Outcome State Fault Refusal :=
  .next (s.readLaunch launch)

/-- PROLOGUE_BUDGET_EXCEEDED (R262): the 4,097th instruction is not issued, and the node fails with
status 6. -/
def State.overBudget (s : State) (p : Nat) : State :=
  let l := s.launchOf (teamOf p)
  if (s.launch l).prologue && (s.launch l).node.isSome && 4096 ≤ (s.launch l).issued && !s.allExited p then
    s.terminate l 6 false false
  else s

/-- PROLOGUE_BUDGET_EXCEEDED (R262). -/
def execPrologueBudgetExceeded (part : Nat) (s : State) : Host.Outcome State Fault Refusal :=
  .next (s.overBudget part)

/-- CLUSTER_PLACE (R265). -/
def execClusterPlace (die : Nat) (s : State) : Host.Outcome State Fault Refusal := .next (s.distribute die)

/-- PREEMPT (R268). -/
def execPreempt (cluster : Nat) (s : State) : Host.Outcome State Fault Refusal := .next (s.preempt cluster)

/-- CLUSTER_RESTORE (R338). -/
def execClusterRestore (cluster : Nat) (s : State) : Host.Outcome State Fault Refusal :=
  .next (s.restoreCluster cluster)

/-! ## The host (R92, R382) -/

/-- The size of BAR2 (R382). -/
def barBytes : Nat := 2 ^ 45

/-- Record a failed inbound access: MASTER 7, TOKEN 0, ADDR its offset (R47, R382). A read then completes
with Unsupported Request. -/
def State.hostFails (s : State) (ring vf x : Nat) (stage2 : Bool) (level cause kind : Nat) : State :=
  let w : Who := { core := 0, vf := vf, spid := 0, root := 0, lvl := .s, master := 7 }
  let r := s.faultRecord w ⟨stage2, level, cause, x⟩ kind 0
  let (id, s) := s.takeId
  let s1 := { s with reports := s.reports ++
    [{ id := id, die := 0, ring := ring, key := [], token := 0, record := r }] }
  if kind = kRead then { s1 with hostAnswer := none } else s1

/-- Who an inbound access works for. -/
def hostWho (vf : Nat) : Who := { core := 0, vf := vf, spid := 0, root := 0, lvl := .s, master := 7 }

/-- The page that stage 2 gives to an inbound access, as one that is read and written through; `x` is the offset. -/
def hostPage (vf x : Nat) (y : Leaf2) : Tlb :=
  let o := x % 2 ^ y.lg
  { vf := vf, spid := 0, h2 := true, va := x - o, lg := y.lg, pa := y.pa - o, fpa := x - o, attr := y.attr
    attr1 := attrAll, lv1 := 0, lv2 := y.lv, s1 := none, s2 := y.at?, acc := y.at?.isNone || bit y.e 9
    dirty := y.at?.isNone || bit y.e 10 }

/-- Perform an inbound access inside one sector at its home, through a page (R44, R74, R92, R382). The second result says
whether it has been performed; it waits for a sector that cannot be reached now, and for the end of a replicated
commit. -/
def State.hostPerform (s : State) (vf pa n : Nat) (e : Tlb) (write : Bool) (data : Nat) : State × Bool :=
  let w := hostWho vf
  if write then
    match s.writePage w (.host vf) 0 e s.hostClock pa n data 0 .keep with
    | (s1, .ok t) => (s1.raiseWho w t, true)
    | (s1, _) => (s1, false)
  else if s.leafBusy e || s.busySec pa then (s, false)
  else
    let (s1, x) := (s.markUsed w e false).homeRead w true pa n .keep
    ({ s1 with hostAnswer := some x }, true)

/-- An inbound access of a function that stage 2 translates (R382). -/
def State.hostThrough (s : State) (f x n : Nat) (y : Leaf2) (write : Bool) (data : Nat) : State × Bool :=
  let kind := if write then kWrite else kRead
  if !s.homed y.pa then (s.hostFails f f x true 0 14 kind, true)
  else if y.attr.devo then (s.hostFails f f x true y.lv 12 kind, true)
  else
    match permCause y.attr kind with
    | some c => (s.hostFails f f x true y.lv c kind, true)
    | none => s.hostPerform f y.pa n (hostPage f x y) write data

/-- An inbound access that no table translates. Its fills are bounded by the mask of its function; the physical function has
no L2WAYM, and the mask of the hypervisor's number 64 stands for one that allows every way (R71) (DESIGN CHOICE, log
98). -/
def State.hostPlain (s : State) (ring vf x n : Nat) (write : Bool) (data : Nat) : State × Bool :=
  if s.homed x then s.hostPerform ring x n (physTlb (hostWho vf) x) write data
  else (s.hostFails ring vf x false 0 14 (if write then kWrite else kRead), true)

/-- An access through BAR2 of function `vf`, or of the physical function for 64 and above (R382), inside one sector
(DEDUCED, log 52). -/
def State.throughBar2 (s : State) (vf x n : Nat) (write : Bool) (data : Nat) : State × Bool :=
  if 64 ≤ vf then s.hostPlain 64 0 x n write data
  else if !bit (s.fn vf).h2root 0 then s.hostPlain vf vf x n write data
  else
    match s.inWalk (hostWho vf) true fun s => s.stage2 0 vf noSpace x with
    | (s, .stop y) =>
      if y.cause = busyCause then (s, false)
      else (s.hostFails 64 vf x true y.level y.cause (if write then kWrite else kRead), true)
    | (s, .ok y) => s.hostThrough vf x n y write data

/-- A write of the device-register range at an address (R30). A write of QNOTIFY is a notify; every
write to the window of a function in reset is dropped, and a notify among them counted (R360). -/
def State.deviceReg (s : State) (addr value : Nat) : State :=
  match fnWindow addr with
  | some (f, o) =>
    if 0x10000 ≤ o && o < 0x10800 && o % 8 = 0 then
      if (s.fn f).flrb then s.dropNotify f
      else if 2 ^ 16 ≤ value then s
      else s.notify f ((o - 0x10000) / 8) value
    else s
  | none =>
    let o := addr - 0xF000000000000
    if 0x1000 ≤ o && o < 0x1090 && o % 8 = 0 then s.lnkstWrite ((o - 0x1000) / 8) value
    else if o = 0x1100 then { s with fabid := bits value 0 19 }
    else if o = 0x1108 then { s with pwrlim := bits value 0 12 }
    else s

/-- The bytes of the window that BAR0 maps: 16 MiB of the physical function, 1 MiB of a virtual one (R30). -/
def bar0Bytes (vf : Nat) : Nat := if 64 ≤ vf then 2 ^ 24 else 2 ^ 20

/-- The device-register address of an offset in BAR0 of a function (R30). -/
def bar0Address (vf o : Nat) : Nat := if 64 ≤ vf then 0xF000000000000 + o else 0xF000001000000 + vf * 2 ^ 20 + o

/-- An access through BAR0, which reaches the function's window only, and no page table translates (R30). A write covers
a register from its first byte (DESIGN CHOICE, log 35). -/
def State.throughBar0 (s : State) (vf o n : Nat) (write : Bool) (data : Nat) : State :=
  if bar0Bytes vf ≤ o then s
  else if !write then
    let (s, v) := s.readWindow (bar0Address vf o) (min n (8 - o % 8))
    { s with hostAnswer := some (v, 0) }
  else if o % 8 = 0 then s.deviceReg (bar0Address vf o) (data % 2 ^ (8 * min n 8))
  else s

/-- MSI_X_VECTOR_UNMASK (R359): a pending message is sent. -/
def State.unmask (s : State) (f e : Nat) : State :=
  let k := f * 64 + e
  let m := s.msix.get {} k
  let s := { s with msix := s.msix.set {} k { masked := false, pending := false } }
  if m.pending && !(s.fn f).flrb then { s with msgs := s.msgs ++ [(f, e)] } else s

/-- Act on what the host has sent, if that can be done now; the second result says whether it is over. Offsets from 32 TiB
up are those of BAR0 (DESIGN CHOICE, log 90). -/
def State.hostActs (s : State) : Instr → State × Bool
  | .inboundHostAccess vf x len write data =>
    let n := min len (64 - x % 64)
    if n = 0 then (s, true)
    else if barBytes ≤ x then (s.throughBar0 vf (x - barBytes) n write data, true)
    else s.throughBar2 vf x n write data
  | .qnotify f q tail => (if f < 64 && q < 256 && tail < 2 ^ 16 then s.notify f q tail else s, true)
  | .initiateFunctionLevelReset f => (if f < 64 then s.startReset f else s, true)
  | .msiXVectorUnmask f e => (if f ≤ 64 && e < 64 then s.unmask f e else s, true)
  | _ => (s, true)

/-- What arrives from the host acts in its order: it waits behind what waits already (R92). Nothing acts while the port is
in reset (R365). -/
def State.fromHost (s : State) (i : Instr) : State :=
  if s.hostHeld then s
  else if !s.hostQ.isEmpty then { s with hostQ := s.hostQ ++ [i] }
  else
    match s.hostActs i with
    | (s, true) => s
    | (s, false) => { s with hostQ := [i] }

/-- Go on with what waits at the host port, as far as it can be done now. -/
def State.drainHost (s : State) : State :=
  (s.hostQ.foldl (fun (r : State × Bool) i =>
    if !r.2 then r
    else
      match r.1.hostActs i with
      | (s, true) => ({ s with hostQ := s.hostQ.drop 1 }, true)
      | (s, false) => (s, false)) (s, true)).1

/-- INBOUND_HOST_ACCESS (R382). -/
def execInboundHostAccess (vf addr len : Nat) (write : Bool) (data : Nat) (s : State) :
    Host.Outcome State Fault Refusal :=
  .next (s.fromHost (.inboundHostAccess vf addr len write data))

/-- QNOTIFY (R255): the host's write of it, or one that a walker goes on with. -/
def execQnotify (vf q tail : Nat) (s : State) : Host.Outcome State Fault Refusal :=
  .next (if q < 256 then s.fromHost (.qnotify vf q tail) else if vf < 64 && q < 512 then s.notifyAgain vf (q - 256) else s)

/-- MSI_X_VECTOR_UNMASK (R359). -/
def execMsiXVectorUnmask (vf vector : Nat) (s : State) : Host.Outcome State Fault Refusal :=
  .next (s.fromHost (.msiXVectorUnmask vf vector))

/-! ## Functions and registers -/

/-- INITIATE_FUNCTION_LEVEL_RESET (R360): the host's write of the function's Device Control register. -/
def execInitiateFunctionLevelReset (vf : Nat) (s : State) : Host.Outcome State Fault Refusal :=
  .next (s.fromHost (.initiateFunctionLevelReset vf))

/-- FLR (R360): level H writes VFCTL.FLR = 1. -/
def execFlr (vf : Nat) (s : State) : Host.Outcome State Fault Refusal :=
  .next (if vf < 64 then s.vfctlWrite vf ((s.fn vf).vfctl + 8) else s)

/-- VFCTL_EN (R356). -/
def execVfctlEn (vf value : Nat) (s : State) : Host.Outcome State Fault Refusal :=
  .next (if vf < 64 then s.enWrite vf value else s)

/-- GSCTL_RST (R324). -/
def execGsctlRst (value : Nat) (s : State) : Host.Outcome State Fault Refusal :=
  .next (s.csrPut 0 0x020 value)

/-- EVSEL (R369). -/
def execEvsel (n value : Nat) (s : State) : Host.Outcome State Fault Refusal :=
  .next (if n < 8 then s.evselWrite n value else s)

/-- TRCTL (R370). -/
def execTrctl (die value : Nat) (s : State) : Host.Outcome State Fault Refusal :=
  .next (if die < 4 then s.trctlWrite die value else s)

/-- STOPAT (R372). -/
def execStopat (value : Nat) (s : State) : Host.Outcome State Fault Refusal := .next (s.stopatWrite value)

/-- STOP (R372). -/
def execStop (s : State) : Host.Outcome State Fault Refusal := .next s.stopNow

/-- GO_WRITE (R372, R381). -/
def execGoWrite (value : Nat) (s : State) : Host.Outcome State Fault Refusal := .next (s.goWrite value)

/-- THERMAL_TRIP (R381): every clock is gated at the end of the tick, as a stop does, and the management interface reports
the trip. Which die's junction it is, is a free value (log 88). -/
def execThermalTrip (s : State) : Host.Outcome State Fault Refusal :=
  .next { s with
    tripDue := true, fresh := s.fresh + 1
    dies := (s.modDie (Config.tripDie s.fresh % 4) fun x => { x with hot := true }).dies
    mgmt := s.mgmt ++ [(Config.tripDie s.fresh % 4, 4, 0)] }

/-- REGISTER_WRITE (R30, R342, R373, R378, R380): a control register by its number, written over the
management interface or by level H for function `vf`, or a device register by its address, which software of the device
reaches through its page tables. What the host writes through BAR0 comes as an INBOUND_HOST_ACCESS. -/
def execRegisterWrite (vf addr value : Nat) (s : State) : Host.Outcome State Fault Refusal :=
  .next (if addr < 4096 then
      if csrAssigned addr then s.csrWrite .h (vf % 64) addr (value % 2 ^ 64) else s
    else if paKind addr = .regs then s.deviceReg addr (value % 2 ^ 64)
    else s)

/-! ## Links (R73, R323, R378, R379) -/

/-- The links that the data of a line fill crosses on its way to its core. -/
def State.fillLinks (s : State) (f : Fill) : List Nat :=
  let w := s.who f.part
  let va := (s.launchAt f.part).codeVa f.off
  match (s.resolve w kFetch va).2 with
  | .ok e => linksOf (dieOf w.core) (e.phys (dieOf w.core) va)
  | .stop _ => []

/-- What crosses a lost link and has not landed is poisoned: results on their way to registers, and line fills (R73, R379).
A stash sector has landed once the access that filled it has been performed (DEDUCED, log 76). -/
def State.poisonCrossing (s : State) (n : Nat) : State :=
  { s with
    defs := s.defs.map fun d : Deferred => if d.links.contains n then { d with poison := true } else d
    fills := s.fills.map fun f : Fill =>
      if f.report = 0 && (s.fillLinks f).contains n then { f with lost := true } else f }

/-- LINK_LOST (R73, R379): the link's status says so. The Sprue link takes its guest with it; a CXL port
answers with poison until its link is back. -/
def State.loseLink (s : State) (n : Nat) : State :=
  let x := s.lnkst.get 0 n
  if !bit x 0 then s
  else
    let s := s.poisonCrossing n
    let s := { s with lnkst := s.lnkst.set 0 n (bits x 16 32 * 2 ^ 16 + bits x 1 1 * 2) }
    let s := if n ≠ 13 then s
      else
        let s := s.modGuest fun g => { g with up := false, mods := 0 }
        if s.breached 6 then s.freezeGuest 6 else s
    s.linkError n 1

/-- LINK_LOST (R379). -/
def execLinkLost (link : Nat) (s : State) : Host.Outcome State Fault Refusal :=
  .next (if link < 18 then s.loseLink link else s)

/-- The number by which the log knows what stands at the other end of a link: 0 its lanes, 1 what lies behind it (R374). -/
def linkTag (n i : Nat) : Nat := 2 ^ 30 + 2 * n + i

/-- A link has trained (R73, R315, R378): a CXL port's capacity is attached at its first training; the Sprue
socket accepts packets (DESIGN CHOICE, log 53). -/
def State.trainLink (s : State) (n : Nat) : State :=
  let f := s.fresh
  let (s, w) := s.bump.outside (linkTag n 0) (Config.linkWidth f n % 2 ^ 12)
  let (s, c) := s.outside (linkTag n 1) (if n = 13 then b2n (Config.choose f n) else Config.cxlCapacity f (n - 1))
  let x := s.lnkst.get 0 n
  let s1 := { s with lnkst := s.lnkst.set 0 n (x - bits x 4 12 * 2 ^ 4 - bits x 0 1 + w % 2 ^ 12 * 2 ^ 4 + 1) }
  if 1 ≤ n && n ≤ 4 && !bit (s1.die (n - 1)).t2cap 16 then
    s1.modDie (n - 1) fun d => { d with t2cap := min 4096 c + 2 ^ 16 }
  else if n = 13 then s1.modGuest fun g => { g with up := true, mods := if c = 1 then 4 else 2 }
  else s1

/-- LINK_TRAINED (R378). -/
def execLinkTrained (link : Nat) (s : State) : Host.Outcome State Fault Refusal :=
  .next (if link < 18 then s.trainLink link else s)

/-- REPLAY_RETRIES_EXHAUSTED (R378, R379). -/
def execReplayRetriesExhausted (link : Nat) (s : State) : Host.Outcome State Fault Refusal :=
  .next (if link < 18 then s.linkError link 2 else s)

/-! ## Recast and device reset (R373, R374) -/

/-- The clocks are to be gated at the end of this tick, whatever STOPAT has armed (R372, R374). -/
def State.stopSoon (s : State) : State := { s with haltDue := true }

/-- An error differs from the log: DIV, and the device stops at that tick (R374, R375). -/
def State.diverges (s : State) : State := { s with rcsts := s.rcsts ||| 2 }.stopSoon

/-- RECAST_LOG_FULL (R374): recording has ended. -/
def execRecastLogFull (s : State) : Host.Outcome State Fault Refusal :=
  .next (if s.recording then { s with recording := false, rcsts := s.rcsts ||| 1 } else s)

/-- The records of a tick that ends are behind the replay, those among them that nothing asked for. -/
def State.logPasses (s : State) : State :=
  if s.playing && s.rclog.any (fun x => x.1 ≤ s.tick) then
    { s with rclog := s.rclog.filter fun x => s.tick < x.1, endt := s.tick }
  else s

/-- The moves that the log gives for the tick that begins (R374). -/
def State.replayed (s : State) : List Move :=
  if !s.playing then []
  else
    (s.rclog.filter fun x => x.1 = s.tick).filterMap fun x => match x.2 with
      | .arrival i => some (.event i)
      | .error e => some (.storage e)
      | .withheld core => some (.withhold core)
      | .linkCorrected n => some (.linkCorrected n)
      | .value .. | .line .. => none

/-- The lines that the log lets arrive at the CXL ports in the tick that begins; the first bytes of a line are those it had
at its port (R73, R374). -/
def State.replayLines (s : State) : State :=
  if !s.playing then s
  else
    (s.rclog.filter fun x => x.1 = s.tick).reverse.foldl (fun (s : State) x => match x.2 with
      | .line pa v => s.putBytes pa 256 v (ones 256) (s.getBytes pa 256).2
      | _ => s) s

/-- The log has run out: the device stops at the tick after its last record (R374). -/
def State.logEnds (s : State) : State :=
  if s.playing && s.rclog.isEmpty && !bit s.rcsts 2 && s.endt < s.tick then { s with rcsts := s.rcsts ||| 4 }.stopSoon else s

/-- RECAST_LOG_END (R374). -/
def execRecastLogEnd (s : State) : Host.Outcome State Fault Refusal := .next s.logEnds

/-- The base address of the log that a value of RCCTL names (R373). -/
def logBase (rcctl : Nat) : Nat := bits rcctl 12 40 * 4096

/-- The logs in die 0's memory, the one that has been recorded since the last reset with them (R373). -/
def State.keptLogs (s : State) : FMap RcLog :=
  if bit s.rcact 0 then
    s.rclogs.set {} (logBase s.rcact) { s.rclogs.get {} (logBase s.rcact) with log := s.rclog }
  else s.rclogs

/-- How far the dies have cooled is no state that a reset changes (R381). -/
def State.hotDies (s : State) : FMap Die :=
  (List.range 4).foldl (fun m d => if (s.die d).hot then m.set {} d { hot := true } else m) []

/-- The state after a device reset, before what RCCTL makes of it: every register has its reset value but RCCTL (R2, R363,
R368, R373). Memory keeps its bytes (DEDUCED, log 48), and the logs that it holds; a trip is not forgotten. -/
def State.cleared (s : State) : State :=
  { State.reset with
    mem := s.mem, memPoison := s.memPoison, rcctl := s.rcctl, rclogs := s.keptLogs, dies := s.hotDies
    tripDue := s.tripDue, agenda := s.agenda, fresh := s.fresh, nextId := s.nextId }

/-- RCCTL takes effect (R373): a log is recorded from here, or the one that stands at the named base is replayed, with the
model's counters as they stood when it was begun. -/
def State.recast (s : State) : State :=
  let rec' := bit s.rcctl 0 && !bit s.rcctl 1
  let play := bit s.rcctl 1 && !bit s.rcctl 0
  let base := logBase s.rcctl
  if !(rec' || play) then s
  else if !logOk s.rcctl then { s with rcsts := 8 }
  else if rec' then
    { s with rcact := s.rcctl, recording := true
             rclogs := s.rclogs.set {} base { log := [], fresh := s.fresh, nextId := s.nextId } }
  else
    let r := s.rclogs.get {} base
    let s := { s with rcact := s.rcctl, playing := true, rclog := r.log }
    let s := { s with rclog := r.log.take s.logRoom, fresh := if r.nextId = 0 then s.fresh else r.fresh
                      nextId := if r.nextId = 0 then s.nextId else r.nextId }
    { s with agenda := s.replayed ++ s.agenda }.replayLines

/-- A device reset (R2, R363, R368, R373). After a thermal trip nothing changes before GO (R381). -/
def State.deviceReset (s : State) : State := if s.trip then s else s.cleared.recast

/-- DEVICE_RESET (R363). -/
def execDeviceReset (s : State) : Host.Outcome State Fault Refusal := .next s.deviceReset

/-! ## Boot (R363 to R366) -/

/-- The bytes of "ZKEY" (R364). -/
def zkey : List Nat := [0x5A, 0x4B, 0x45, 0x59]

/-- The boot of a die stops at a layer, and the management interface reports it (R365). -/
def State.bootFails (s : State) (d why : Nat) : State :=
  let s := s.modDie d fun x => { x with fail := true, why := why, bootFailed := true }
  { s with mgmt := s.mgmt ++ [(d, why, 0)] }

/-- The public key that signs a layer: the vendor's for layer 1, the owner's or else the vendor's for
layer 2, and the function's for layer 3 (R364). -/
def layerSigner (layer : Nat) : Nat :=
  match layer with
  | 1 => Config.vendorKey
  | 2 => Config.ownerKey.getD Config.vendorKey
  | n => Config.functionKey (n - 3)

/-- The header, the label table and the initialised data of an image of bytes, if it keeps R12 and R13. -/
def parseImage (bs : List Nat) : Option (Img × FMap Byte) :=
  let x := ofBytes bs
  let h := bits x 0 512
  if !headerOk h then none
  else
    (labelTable (bits h 192 32) 1 none (chop 64 (bits h 160 16) (x / 2 ^ 512))).map fun ls =>
      let g := mkImg h ls
      (g, putConsts [] 0x10000 g.dataSz (bits x (8 * bits h 320 32) (8 * g.dataSz)))

/-- Where a layer's image stands: for firmware, which runs at level H, a physical address of its die; for a function's
system software a virtual address in its space 0 (DESIGN CHOICE, log 94). -/
def bootAt (d layer : Nat) : Nat :=
  if layer < 3 then d * dieBytes + Config.bootBase d layer % dieBytes / 65536 * 65536
  else Config.bootBase d layer % 2 ^ 56 / 16 * 16

/-- A boot layer as a launch of one cluster on its die's Cupola: firmware at level H, a function's system software at
level S (R326, R363). -/
def bootLaunch (d layer l : Nat) (img : Img) (consts : FMap Byte) : Launch :=
  { st := .running, vf := if layer < 3 then 0 else layer - 3, level := if layer < 3 then .h else .s
    image := bootAt d layer, img := img, consts := consts, clus := 1, pri := 3, die := d, order := l, boot := true }

/-- The layer before jumps to the next one: its team is gone (R364). A function's system software runs beside layer 2. -/
def State.leaveLayer (s : State) (d layer : Nat) : State :=
  let t := (s.die d).team
  if t = 0 || 3 ≤ layer then s else ((s.terminate t 0 false false).setLaunch t {}).modDie d fun x => { x with team := 0 }

/-- Put bytes at virtual addresses of a function's space 0, on every copy of a replicated page (R363); `none` when its tables
do not map them all to device memory (DESIGN CHOICE, log 94). -/
def State.putThrough (s : State) (d f va : Nat) (bs : List Nat) : Option State :=
  let w : Who := { core := d * 64, vf := f, spid := 0, root := 0, lvl := .s, master := 5 }
  (sectorRuns va bs.length).foldl (fun (r : Option State) x => r.bind fun s =>
    match (s.translate w true x.1).2 with
    | .stop _ => none
    | .ok e =>
      let pas := once ((List.range 4).map fun i => e.phys (if e.attr.rep then i else d) x.1)
      if pas.all s.homed then
        some (pas.foldl (fun (s : State) pa => s.quietWrite pa x.2 (ofBytes ((bs.drop (x.1 - va)).take x.2))) s)
      else none) (some s)

/-- Put a layer's measured image where it is to run: firmware at physical addresses, a function's system software through
the function's tables (R363). -/
def State.putImage (s : State) (d layer : Nat) (image : List Nat) : Option State :=
  if layer < 3 then some (s.putBytes (bootAt d layer) image.length (ofBytes image) (ones image.length) 0)
  else s.putThrough d (layer - 3) (bootAt d layer) image

/-- Place a layer's team on the Cupola of its die, with its image in memory (R2, R326, R363); `none` when the image is none
of R12 or cannot be put where it is to run, or when the Cupola has no room (DESIGN CHOICE, log 94). -/
def State.placeLayer (s : State) (d layer : Nat) (image : List Nat) : Option State :=
  (parseImage image).bind fun g =>
    let (l, s) := s.takeId
    let x := bootLaunch d layer l g.1 g.2
    (s.fitsOn d x []).bind fun cores => (s.putImage d layer image).map fun s =>
      let s := (s.setLaunch l x).placeCluster l d cores
      if layer < 3 then s.modDie d fun y => { y with team := l } else s

/-- Layer 0 starts from the boot ROM: its measurement, and cdi(0) (R363, R364, R367). -/
def State.startRom (s : State) (d : Nat) : State :=
  let image := (Config.bootImage d 0).getD []
  let s := s.modDie d fun x =>
    { x with layer0 := true, cdi := Config.uds d, measured := x.measured.set 0 0 (shake256 image 64) }
  (s.placeLayer d 0 image).getD s

/-- The next layer has been measured and authenticated: cdi and key are derived, and the layer below certifies the public
key (R364). A function's layer 3 is started by layer 2, which keeps its own: later functions and attestation need them
(R363, R367). -/
def State.enterLayer (s : State) (d layer m : Nat) : State :=
  let old := (s.die d).key
  let cdi := shake256 (bytesOf 64 (s.die d).cdi ++ bytesOf 64 m) 64
  let key := shake256 (zkey ++ bytesOf 64 cdi) 57
  let cert := ed448Sign old (bytesOf 57 (ed448Public key))
  if layer < 3 then
    s.modDie d fun x =>
      { x with layer := layer, cdi := cdi, key := key, measured := x.measured.set 0 layer m
               cert := if layer = 1 then 0 else cert
               signer := if layer = 1 then x.signer else ed448Public old }
  else
    (s.modDie d fun x => { x with layer := 3, measured := x.measured.set 0 3 m }).modFn (layer - 3)
      fun f => { f with layer3 := true, cdi := cdi, key := key, cert := cert }

/-- Whether layer 2 of a die may start the layer 3 of function `f`: the function is enabled and has none yet, and the boot
of no die has failed (R363, R365). -/
def State.mayStartFn (s : State) (d f : Nat) : Bool :=
  2 ≤ (s.die d).layer && (s.fn f).en && !(s.fn f).layer3 && !(s.dies.any fun y => y.2.bootFailed)

/-- Start a layer on a die (R363 to R365): 0 the boot ROM, 1 and 2 in turn, and 3 + f for the layer 3 of
function f, on the Cupola of the die that the event names (DEDUCED, log 50). No layer starts on a die whose boot or whose
H teams have stopped. A layer 3 starts with its team: one that cannot be loaded or placed now has not started (R363). -/
def State.startLayer (s : State) (d layer : Nat) : State :=
  let x := s.die d
  if x.fail then s
  else if layer = 0 then if x.layer0 then s else s.startRom d
  else if !x.layer0 || (if layer < 3 then x.layer + 1 ≠ layer else !s.mayStartFn d (layer - 3)) then s
  else
    match Config.bootImage d layer with
    | none => s.bootFails d 2
    | some image =>
      let m := shake256 image 64
      if ed448Verify (layerSigner layer) (bytesOf 64 m) (Config.bootSignature d layer) then
        let t := (s.leaveLayer d layer).enterLayer d layer m
        match t.placeLayer d layer image with
        | some t => t.checkRelease
        | none => if layer < 3 then t.checkRelease else s
      else s.bootFails d 1

/-- LAYER_START (R364). -/
def execLayerStart (die layer : Nat) (s : State) : Host.Outcome State Fault Refusal :=
  .next (if die < 4 && layer < 67 then s.startLayer die layer else s)

/-! ## Attestation (R367) -/

/-- The responder answers once key(2) of die 0 stands, over a host port that is out of reset (R365, R367). -/
def State.attests (s : State) : Bool := 2 ≤ (s.die 0).layer && !s.hostHeld

/-- Answer an SPDM request (R367). -/
def State.spdmAnswer (s : State) (x : List Nat) : State :=
  if s.attests then { s with spdm := s.spdm ++ [x] } else s

/-- A response followed by its signature under key(2) of die 0 (R367). -/
def State.signed (s : State) (x : List Nat) (nonce : Nat) : List Nat :=
  x ++ [ed448Sign (s.die 0).key (x.flatMap (bytesOf 64) ++ bytesOf 32 nonce)]

/-- The certificate chain of slot 0: from the device certificate, which the vendor signs over key(1), to key(2) of die 0
(R364, R367). -/
def State.chain (s : State) : List Nat :=
  let x := s.die 0
  Config.certificateChain x.signer (ed448Public x.key) x.cert

/-- The digest of the certificate chain of slot 0 (R367). -/
def State.chainDigest (s : State) : Nat := sha3 s.chain

/-- The answer to a request for a certificate slot: ERROR with InvalidRequest for one that is not provisioned (R367)
(PRESUMED, log 51). -/
def slotAnswer (slot : Nat) (x : List Nat) : List Nat := if slot = 0 then x else [0x7F, 0x01, 0]

/-- GET_VERSION (R367): VERSION 1.3 (PRESUMED, log 51). -/
def execGetVersion (s : State) : Host.Outcome State Fault Refusal := .next (s.spdmAnswer [0x04, 0x13])

/-- GET_CAPABILITIES (R367): CAPABILITIES, with certificates, challenges and signed measurements. -/
def execGetCapabilities (s : State) : Host.Outcome State Fault Refusal :=
  .next (s.spdmAnswer [0x61, 0x16])

/-- NEGOTIATE_ALGORITHMS (R367): ALGORITHMS, with Ed448 and SHA3-512 and no other choice. -/
def execNegotiateAlgorithms (s : State) : Host.Outcome State Fault Refusal :=
  .next (s.spdmAnswer [0x63, 0x800, 0x20])

/-- GET_DIGESTS (R367): DIGESTS, with slot 0 alone. -/
def execGetDigests (s : State) : Host.Outcome State Fault Refusal :=
  .next (s.spdmAnswer [0x01, 1, s.chainDigest])

/-- A portion of the certificate chain, with its length and the bytes that are left. -/
def certificate (chain : List Nat) (offset length : Nat) : List Nat :=
  let portion := (chain.drop offset).take length
  [0x02, portion.length, (chain.drop (offset + length)).length] ++ portion

/-- GET_CERTIFICATE (R367): a portion of the chain of slot 0. -/
def execGetCertificate (ask : CertAsk) (length : Nat) (s : State) : Host.Outcome State Fault Refusal :=
  .next (s.spdmAnswer (slotAnswer ask.slot (certificate s.chain ask.offset length)))

/-- CHALLENGE (R367): CHALLENGE_AUTH, signed with key(2) of die 0. -/
def execChallenge (ask : ChallengeAsk) (s : State) : Host.Outcome State Fault Refusal :=
  .next (s.spdmAnswer (slotAnswer ask.slot (s.signed [0x03, s.chainDigest] ask.nonce)))

/-- The measurement blocks that a request names: block n, or every one for 0xFF. Block 4 d + n is layer n of
die d; a layer that has not started is absent (R367). -/
def State.blocksFor (s : State) (index : Nat) : List (Nat × Nat) :=
  let all := (List.range 16).filter fun b =>
    let x := s.die (b / 4)
    if b % 4 = 0 then x.layer0 else b % 4 ≤ x.layer
  (all.filter fun b => index = 0xFF || index = b).map fun b =>
    (b, (s.die (b / 4)).measured.get 0 (b % 4))

/-- GET_MEASUREMENTS (R367): MEASUREMENTS, signed with key(2) of die 0. -/
def execGetMeasurements (index nonce : Nat) (s : State) : Host.Outcome State Fault Refusal :=
  .next (s.spdmAnswer (s.signed
    (0x60 :: (s.blocksFor index).flatMap fun x => [x.1, x.2]) nonce))

/-- The codes of the requests that the responder supports (R367) (PRESUMED, log 51). -/
def spdmSupported : List Nat := [0x81, 0x82, 0x83, 0x84, 0xE0, 0xE1, 0xE3]

/-- SPDM_UNSUPPORTED_REQUEST (R367): ERROR with UnsupportedRequest and the request's code. A supported request has a
response of its own. -/
def execSpdmUnsupportedRequest (code : Nat) (s : State) : Host.Outcome State Fault Refusal :=
  .next (if spdmSupported.contains code then s else s.spdmAnswer [0x7F, 0x07, code])

end Sys2Proof.Machine
end

