-- ==== Sys2Proof/Machine/XLane.lean ====
section
/-! DEFINITION. The cross-lane instructions and `sread` (R145, R220 to R234). Every source of every
lane is read at issue; every result is deferred. Participants are the guarded-active lanes that are
not helper lanes. -/

namespace Sys2Proof.Machine

/-! ## Segments -/

/-- The segment width of an instruction in the issuing part (R222). -/
def State.segW (s : State) (c : Ctx) (seg : Seg) : Nat := segWidth (s.img c.t).lg16 c.w seg

/-- The lanes of a list that lie in the segment of lane `l` (R222). -/
def inSegment (c : Ctx) (sw l : Nat) (ls : List Nat) : List Nat :=
  ls.filter fun x => (x - c.lo) / sw = (l - c.lo) / sw

/-- The participants in the segment of lane `l` (R223). -/
def State.participants (s : State) (c : Ctx) (seg : Seg) (l : Nat) : List Nat :=
  inSegment c (s.segW c seg) l (s.owns c)

/-- The lane mask of word `k` of the part for a list of lanes (R213, R228). -/
def laneMask (c : Ctx) (k : Nat) (ls : List Nat) : Nat :=
  ofBits 32 fun i => ls.contains (c.lo + 32 * k + i)

/-- Post a deferred word, or the two words of a pair, without flags (R195, R223). -/
def State.postWide (s : State) (wide : Bool) (t l d v : Nat) : State :=
  let (g, s) := s.takeId
  let s := s.post t l d (some (v % 2 ^ 32)) 0 g
  if wide then s.post t l (d + 1) (some (v / 2 ^ 32 % 2 ^ 32)) 0 g else s

/-- A source word or pair. -/
def State.rdWide (s : State) (wide : Bool) (slot t p r : Nat) : Nat :=
  if wide then s.rd64 slot t p r else s.rd slot t p r

/-- Post one deferred result for each guarded-active lane, computed from the state at issue. -/
def postEach (i : Instr) (d : Nat) (wide : Bool) (f : Ctx → Nat → Nat) (s : State) :
    Host.Outcome State Fault Refusal :=
  issue i s fun c s0 => eachLane c.ga (fun l s => s.postWide wide c.t l d (f c l)) s0

/-! ## Shuffles and quad exchanges -/

/-- The value that a shuffle or quad exchange gives lane `l`: vA of its source lane, as the register
stands at issue (R223, R225, R226). Each reading lane chooses for itself between the values that an
outstanding deferred write allows (R235). -/
def State.crossValue (s : State) (c : Ctx) (i : Instr) (wide : Bool) (a l : Nat) : Nat :=
  let src := c.lo + s.crossSource c i (l - c.lo)
  if s.isLane c.t src then s.rdWide wide (64 * (l + 1)) c.t src a else 0

/-- Shuffles and quad exchanges share one shape. -/
def crossLane (i : Instr) (d a : Reg) (wide : Bool) (s : State) :
    Host.Outcome State Fault Refusal :=
  issue i s fun c s0 =>
    eachLane c.ga (fun l s => s.postWide wide c.t l d (s0.crossValue c i wide a l)) s0

def execShuf (h : Hdr) (d a b : Reg) (var : ShufVar) (wide : Bool) (seg : Seg) :=
  crossLane (.shuf h d a b var wide seg) d a wide

def execShufImm (h : Hdr) (d a : Reg) (imm : Fin 256) (var : ShufVar) (wide : Bool) (seg : Seg) :=
  crossLane (.shufImm h d a imm var wide seg) d a wide

def execQswap (h : Hdr) (d a : Reg) (var : QsVar) (wide : Bool) :=
  crossLane (.qswap h d a var wide) d a wide

def execQbc (h : Hdr) (d a : Reg) (n : Fin 4) (wide : Bool) := crossLane (.qbc h d a n wide) d a wide

/-! ## Votes, ballots, matches and elections -/

def voteVal (var : VoteVar) (vs : List Bool) : Bool :=
  match var with
  | .all => vs.all id
  | .any => vs.any id
  | .uni => vs.all id || vs.all not

def execVote (h : Hdr) (p : Pred) (pa : PSrc) (var : VoteVar) (seg : Seg) (s : State) :
    Host.Outcome State Fault Refusal :=
  issue (.vote h p pa var seg) s fun c s0 =>
    eachLane c.ga (fun l s => s.postPred c.t l p
      (voteVal var ((s0.participants c seg l).map fun x => s0.rdPred 0 c.t x pa))) s0

/-- The mask of word `k` for lane `l` (R228). -/
def State.ballotMask (s : State) (c : Ctx) (seg : Seg) (pa : PSrc) (l k : Nat) : Nat :=
  laneMask c k ((s.participants c seg l).filter fun x => s.rdPred 0 c.t x pa)

def execBallot (h : Hdr) (d : Reg) (pa : PSrc) (seg : Seg) (s : State) :
    Host.Outcome State Fault Refusal :=
  issue (.ballot h d pa seg) s fun c s0 =>
    eachLane c.ga (fun l s =>
      s.postWide false c.t l d (s0.ballotMask c seg pa l ((l - c.lo) / 32))) s0

/-- The word that `ballot.word` selects: first(g) + vB mod m (R228, R224). -/
def State.ballotWordIx (s : State) (c : Ctx) (seg : Seg) (b : Reg) (l : Nat) : Nat :=
  let sw := s.segW c seg
  let m := if sw ≤ 32 then 1 else sw / 32
  (l - c.lo) / sw * sw / 32 + s.rd 4 c.t l b % m

def execBallotWord (h : Hdr) (d : Reg) (pa : PSrc) (b : Reg) (seg : Seg) (s : State) :
    Host.Outcome State Fault Refusal :=
  issue (.ballotWord h d pa b seg) s fun c s0 =>
    eachLane c.ga (fun l s =>
      s.postWide false c.t l d (s0.ballotMask c seg pa l (s0.ballotWordIx c seg b l))) s0

def execMatchAny (h : Hdr) (d a : Reg) (wide : Bool) (seg : Seg) (s : State) :
    Host.Outcome State Fault Refusal :=
  issue (.matchAny h d a wide seg) s fun c s0 =>
    eachLane c.ga (fun l s =>
      let v := s0.rdWide wide 0 c.t l a
      let eq := (s0.participants c seg l).filter fun x => s0.rdWide wide 0 c.t x a = v
      s.postWide false c.t l d (laneMask c ((l - c.lo) / 32) eq)) s0

/-- Whether all values of a list are equal (R229). -/
def allEqual : List Nat → Bool
  | [] => true
  | x :: t => t.all fun y => y = x

def execMatchAll (h : Hdr) (d a : Reg) (p : Pred) (wide : Bool) (seg : Seg) (s : State) :
    Host.Outcome State Fault Refusal :=
  issue (.matchAll h d a p wide seg) s fun c s0 =>
    eachLane c.ga (fun l s =>
      let ps := s0.participants c seg l
      let u := allEqual (ps.map fun x => s0.rdWide wide 0 c.t x a)
      (s.postWide false c.t l d (if u then laneMask c ((l - c.lo) / 32) ps else 0)).postPred
        c.t l p u) s0

def execElect (h : Hdr) (p : Pred) (seg : Seg) (s : State) : Host.Outcome State Fault Refusal :=
  issue (.elect h p seg) s fun c s0 =>
    eachLane c.ga (fun l s =>
      s.postPred c.t l p ((s0.participants c seg l).head? = some l)) s0

/-! ## Reductions and scans -/

/-- The identity of an integer reduction (R231). -/
def iredId (op : RedOp) (ty : ITy) : Nat :=
  match op, ty with
  | .add, _ | .or, _ | .xor, _ => 0
  | .and, _ => 0xFFFFFFFF
  | .min, .i32 => 0x7FFFFFFF
  | .min, .n32 => 0xFFFFFFFF
  | .max, .i32 => 0x80000000
  | .max, .n32 => 0

/-- One step of an integer reduction (R231). -/
def iredOp (op : RedOp) (ty : ITy) (a b : Nat) : Nat :=
  match op with
  | .add => (a + b) % 2 ^ 32
  | .min => minVal ty a b
  | .max => maxVal ty a b
  | .and => a &&& b
  | .or => a ||| b
  | .xor => a ^^^ b

def iredVal (op : RedOp) (ty : ITy) (xs : List Nat) : Nat := xs.foldl (iredOp op ty) (iredId op ty)

def execIred (h : Hdr) (d a : Reg) (op : RedOp) (ty : ITy) (seg : Seg) (s : State) :
    Host.Outcome State Fault Refusal :=
  issue (.ired h d a op ty seg) s fun c s0 =>
    eachLane c.ga (fun l s => s.postWide false c.t l d
      (iredVal op ty ((s0.participants c seg l).map fun x => s0.rd 0 c.t x a))) s0

/-- The identity of a floating-point reduction (R232, R233). -/
def fredId : FRedOp → Nat
  | .add => 0
  | .min => 0x7F800000
  | .max => 0xFF800000

/-- One step of a floating-point reduction: the code and the flags (R232). -/
def fredOp (op : FRedOp) (ftz : Bool) (a b : Nat) : Nat × Nat :=
  match op with
  | .add => elemF .f32 { ftz := ftz } [a, b] (bin (addE .rne))
  | .min => minmaxF .f32 false a b
  | .max => minmaxF .f32 true a b

/-- One level of the tree over slots that may be absent (R232). -/
def fredLevel (op : FRedOp) (ftz : Bool) : List (Option Nat) → List (Option Nat) × Nat
  | x :: y :: t =>
    let (r, f) := fredLevel op ftz t
    match x, y with
    | some a, some b =>
      let q := fredOp op ftz a b
      (some q.1 :: r, f ||| q.2)
    | some a, none => (some a :: r, f)
    | none, y => (y :: r, f)
  | xs => (xs, 0)

/-- The tree, level by level; ten levels cover the widest segment. -/
def fredTree (op : FRedOp) (ftz : Bool) : Nat → List (Option Nat) → List (Option Nat) × Nat
  | 0, xs => (xs, 0)
  | n + 1, xs =>
    let (ys, f) := fredLevel op ftz xs
    let (zs, g) := fredTree op ftz n ys
    (zs, f ||| g)

/-- The canonical NaN for a NaN code (R232, R233). -/
def canonNan (v : Nat) : Nat := if (decodeF .f32 v).isNan then 0x7FC00000 else v

/-- `fred` over the slots of a segment (R232). -/
def fredVal (op : FRedOp) (ftz : Bool) (slots : List (Option Nat)) : Nat × Nat :=
  let slots := slots.map fun x => x.map (ftzIn ftz .f32)
  let nv := if slots.any (fun x => match x with
      | some v => (decodeF .f32 v).isSnan
      | none => false) then fNV else 0
  let r := fredTree op ftz 10 slots
  let v := match r.1.head? with
    | some (some v) => v
    | _ => fredId op
  (canonNan v, r.2 ||| nv)

def execFred (h : Hdr) (d a : Reg) (op : FRedOp) (ftz : Bool) (seg : Seg) (s : State) :
    Host.Outcome State Fault Refusal :=
  issue (.fred h d a op ftz seg) s fun c s0 =>
    eachLane c.ga (fun l s =>
      let sw := s0.segW c seg
      let base := l - (l - c.lo) % sw
      let ps := s0.participants c seg l
      let r := fredVal op ftz ((List.range sw).map fun j =>
        if ps.contains (base + j) then some (s0.rd 0 c.t (base + j) a) else none)
      s.postFlags c.t l d r.1 r.2) s0

/-- The participants of a segment up to lane `l`, without it under `.excl` (R233). -/
def State.scanned (s : State) (c : Ctx) (seg : Seg) (excl : Bool) (l : Nat) : List Nat :=
  (s.participants c seg l).filter fun x => if excl then x < l else x ≤ l

/-- Scans write participants only (R223, R233). -/
def execIscan (h : Hdr) (d a : Reg) (op : RedOp) (ty : ITy) (excl : Bool) (seg : Seg) (s : State) :
    Host.Outcome State Fault Refusal :=
  issue (.iscan h d a op ty excl seg) s fun c s0 =>
    eachLane (s0.owns c) (fun l s => s.postWide false c.t l d
      (iredVal op ty ((s0.scanned c seg excl l).map fun x => s0.rd 0 c.t x a))) s0

/-- The chain of a floating-point scan: the value and the flags so far (R233). -/
def fscanVal (op : FRedOp) (ftz : Bool) (xs : List Nat) : Nat × Nat :=
  let r := xs.foldl (fun (r : Option Nat × Nat) x =>
    let x := ftzIn ftz .f32 x
    let nv := if (decodeF .f32 x).isSnan then fNV else 0
    match r.1 with
    | none => (some x, r.2 ||| nv)
    | some acc =>
      let q := fredOp op ftz acc x
      (some q.1, r.2 ||| q.2 ||| nv)) (none, 0)
  (canonNan (r.1.getD (fredId op)), r.2)

def execFscan (h : Hdr) (d a : Reg) (op : FRedOp) (excl ftz : Bool) (seg : Seg) (s : State) :
    Host.Outcome State Fault Refusal :=
  issue (.fscan h d a op excl ftz seg) s fun c s0 =>
    eachLane (s0.owns c) (fun l s =>
      let r := fscanVal op ftz ((s0.scanned c seg excl l).map fun x => s0.rd 0 c.t x a)
      s.postFlags c.t l d r.1 r.2) s0

/-! ## `sread` -/

/-- The block lane index of a lane (R136). -/
def State.blane (s : State) (t l : Nat) : Nat := teamIx t * (s.team t).width + l

/-- The value of an `sread` source (R145). -/
def State.sreadVal (s : State) (c : Ctx) (l : Nat) (src : SReg) : Nat :=
  let x := s.part c.p
  let core := s.coreOf c.p
  let cl := s.clusterOfTeam c.t
  -- the second half of a pair reads the counters as they stood before it (R145)
  let ev (k : Nat) := (match s.issue.pre with
    | some snap => snap.ev
    | none => (s.core core).ev).get 0 k
  match src with
  | .lane => l - c.lo
  | .quad => (l - c.lo) / 4
  | .team => teamIx c.t
  | .part => c.lo / c.w
  | .block => blockOf c.t % 8
  | .cluster => cl.index
  | .launch => s.launchOf c.t
  | .width => c.w
  | .wl => x.cur
  | .sweeps => x.sweeps
  | .tick => s.tick
  | .core => core % 64
  | .die => dieOf core
  | .blane => s.blane c.t l
  | .help => b2n (s.isHelper c.t l)
  | .nblk => cl.nblk
  | .ev0 => ev 0
  | .ev1 => ev 1
  | .ev2 => ev 2
  | .ev3 => ev 3
  | .ev4 => ev 4
  | .ev5 => ev 5
  | .ev6 => ev 6
  | .ev7 => ev 7

def execSread (h : Hdr) (d : Reg) (src : SReg) (s : State) : Host.Outcome State Fault Refusal :=
  issue (.sread h d src) s fun c s0 =>
    eachLane c.ga (fun l s => s.postWide src.wide c.t l d (s0.sreadVal c l src)) s0

end Sys2Proof.Machine
end

