-- ==== Sys2Proof/Machine/Dispatch.lean ====
section
/-! DEFINITION. The meaning of each instruction and event: one arm per constructor of `Instr`. -/

namespace Sys2Proof.Machine

def exec (i : Instr) (s : State) : Host.Outcome State Fault Refusal :=
  match i with
  | .nop h => Sys2Proof.Machine.execNop h s
  | .go h l => Sys2Proof.Machine.execGo h l s
  | .goi h a => Sys2Proof.Machine.execGoi h a s
  | .gosel h p l1 l2 => Sys2Proof.Machine.execGosel h p l1 l2 s
  | .call h d f ret => Sys2Proof.Machine.execCall h d f ret s
  | .calli h d a ret => Sys2Proof.Machine.execCalli h d a ret s
  | .exit h => Sys2Proof.Machine.execExit h s
  | .beat h => Sys2Proof.Machine.execBeat h s
  | .ipref h l n => Sys2Proof.Machine.execIpref h l n s
  | .trap h code => Sys2Proof.Machine.execTrap h code s
  | .brk h code => Sys2Proof.Machine.execBrk h code s
  | .split h d n => Sys2Proof.Machine.execSplit h d n s
  | .fuse h d l => Sys2Proof.Machine.execFuse h d l s
  | .fuset h d l => Sys2Proof.Machine.execFuset h d l s
  | .iadd h d a b ty sat => Sys2Proof.Machine.execIadd h d a b ty sat s
  | .isub h d a b ty sat => Sys2Proof.Machine.execIsub h d a b ty sat s
  | .iadc h d a b c sub => Sys2Proof.Machine.execIadc h d a b c sub s
  | .imul h d a b ty sat => Sys2Proof.Machine.execImul h d a b ty sat s
  | .imulh h d a b ty => Sys2Proof.Machine.execImulh h d a b ty s
  | .imad h d a b c ty sat => Sys2Proof.Machine.execImad h d a b c ty sat s
  | .imadw h d a b c ty => Sys2Proof.Machine.execImadw h d a b c ty s
  | .imin h d a b ty => Sys2Proof.Machine.execImin h d a b ty s
  | .imax h d a b ty => Sys2Proof.Machine.execImax h d a b ty s
  | .iabs h d a sat => Sys2Proof.Machine.execIabs h d a sat s
  | .ineg h d a sat => Sys2Proof.Machine.execIneg h d a sat s
  | .icmp h p a b ty c => Sys2Proof.Machine.execIcmp h p a b ty c s
  | .sel h d a b p => Sys2Proof.Machine.execSel h d a b p s
  | .shl h d a b => Sys2Proof.Machine.execShl h d a b s
  | .shr h d a b => Sys2Proof.Machine.execShr h d a b s
  | .sha h d a b => Sys2Proof.Machine.execSha h d a b s
  | .rot h d a b right => Sys2Proof.Machine.execRot h d a b right s
  | .fsh h d a b c left => Sys2Proof.Machine.execFsh h d a b c left s
  | .iand h d a b => Sys2Proof.Machine.execIand h d a b s
  | .ior h d a b => Sys2Proof.Machine.execIor h d a b s
  | .ixor h d a b => Sys2Proof.Machine.execIxor h d a b s
  | .lop3 h d a b c lut => Sys2Proof.Machine.execLop3 h d a b c lut s
  | .popc h d a => Sys2Proof.Machine.execPopc h d a s
  | .clz h d a => Sys2Proof.Machine.execClz h d a s
  | .ctz h d a => Sys2Proof.Machine.execCtz h d a s
  | .brev h d a => Sys2Proof.Machine.execBrev h d a s
  | .bfx h d a b ty => Sys2Proof.Machine.execBfx h d a b ty s
  | .bfi h d a b c => Sys2Proof.Machine.execBfi h d a b c s
  | .prmt h d a b c => Sys2Proof.Machine.execPrmt h d a b c s
  | .mov h d a => Sys2Proof.Machine.execMov h d a s
  | .movi h d imm => Sys2Proof.Machine.execMovi h d imm s
  | .movhi h d a imm => Sys2Proof.Machine.execMovhi h d a imm s
  | .lea h d a b ixs scl => Sys2Proof.Machine.execLea h d a b ixs scl s
  | .add64 h d a b sub => Sys2Proof.Machine.execAdd64 h d a b sub s
  | .cmp64 h p a b c => Sys2Proof.Machine.execCmp64 h p a b c s
  | .pbit h p pa pb op => Sys2Proof.Machine.execPbit h p pa pb op s
  | .fadd h d a b ty rnd sat ftz => Sys2Proof.Machine.execFadd h d a b ty rnd sat ftz s
  | .fsub h d a b ty rnd sat ftz => Sys2Proof.Machine.execFsub h d a b ty rnd sat ftz s
  | .fmul h d a b ty rnd sat ftz => Sys2Proof.Machine.execFmul h d a b ty rnd sat ftz s
  | .ffma h d a b c ty rnd sat ftz => Sys2Proof.Machine.execFfma h d a b c ty rnd sat ftz s
  | .fmin h d a b ty ftz => Sys2Proof.Machine.execFmin h d a b ty ftz s
  | .fmax h d a b ty ftz => Sys2Proof.Machine.execFmax h d a b ty ftz s
  | .fcmp h p a b c ftz => Sys2Proof.Machine.execFcmp h p a b c ftz s
  | .fclass h d a ty => Sys2Proof.Machine.execFclass h d a ty s
  | .frnd h d a ty rnd ftz => Sys2Proof.Machine.execFrnd h d a ty rnd ftz s
  | .fscale h d a b ty rnd sat ftz => Sys2Proof.Machine.execFscale h d a b ty rnd sat ftz s
  | .frcp h d a ty rnd sat ftz => Sys2Proof.Machine.execFrcp h d a ty rnd sat ftz s
  | .frsq h d a ty sat ftz => Sys2Proof.Machine.execFrsq h d a ty sat ftz s
  | .fsqrt h d a ty rnd sat ftz => Sys2Proof.Machine.execFsqrt h d a ty rnd sat ftz s
  | .fdiv h d a b ty rnd sat ftz => Sys2Proof.Machine.execFdiv h d a b ty rnd sat ftz s
  | .fexp2 h d a ty sat ftz => Sys2Proof.Machine.execFexp2 h d a ty sat ftz s
  | .flog2 h d a ty sat ftz => Sys2Proof.Machine.execFlog2 h d a ty sat ftz s
  | .fsin h d a ty sat ftz => Sys2Proof.Machine.execFsin h d a ty sat ftz s
  | .fcos h d a ty sat ftz => Sys2Proof.Machine.execFcos h d a ty sat ftz s
  | .ftanh h d a ty sat ftz => Sys2Proof.Machine.execFtanh h d a ty sat ftz s
  | .fdot2 h d a b c ty rnd sat ftz => Sys2Proof.Machine.execFdot2 h d a b c ty rnd sat ftz s
  | .cvt h d a dst src rnd sat ftz => Sys2Proof.Machine.execCvt h d a dst src rnd sat ftz s
  | .pack h d a tc rnd sat ftz => Sys2Proof.Machine.execPack h d a tc rnd sat ftz s
  | .unpk h d a tc => Sys2Proof.Machine.execUnpk h d a tc s
  | .qnt h d a b tc rnd sat ftz => Sys2Proof.Machine.execQnt h d a b tc rnd sat ftz s
  | .dqn h d a b tc rnd ftz => Sys2Proof.Machine.execDqn h d a b tc rnd ftz s
  | .plx h d a p => Sys2Proof.Machine.execPlx h d a p s
  | .pli h d a k => Sys2Proof.Machine.execPli h d a k s
  | .shuf h d a b var wide seg => Sys2Proof.Machine.execShuf h d a b var wide seg s
  | .shufImm h d a imm var wide seg => Sys2Proof.Machine.execShufImm h d a imm var wide seg s
  | .qswap h d a var wide => Sys2Proof.Machine.execQswap h d a var wide s
  | .qbc h d a n wide => Sys2Proof.Machine.execQbc h d a n wide s
  | .vote h p pa var seg => Sys2Proof.Machine.execVote h p pa var seg s
  | .ballot h d pa seg => Sys2Proof.Machine.execBallot h d pa seg s
  | .ballotWord h d pa b seg => Sys2Proof.Machine.execBallotWord h d pa b seg s
  | .matchAny h d a wide seg => Sys2Proof.Machine.execMatchAny h d a wide seg s
  | .matchAll h d a p wide seg => Sys2Proof.Machine.execMatchAll h d a p wide seg s
  | .elect h p seg => Sys2Proof.Machine.execElect h p seg s
  | .ired h d a op ty seg => Sys2Proof.Machine.execIred h d a op ty seg s
  | .fred h d a op ftz seg => Sys2Proof.Machine.execFred h d a op ftz seg s
  | .iscan h d a op ty excl seg => Sys2Proof.Machine.execIscan h d a op ty excl seg s
  | .fscan h d a op excl ftz seg => Sys2Proof.Machine.execFscan h d a op excl ftz seg s
  | .sread h d src => Sys2Proof.Machine.execSread h d src s
  | .ld h d a off sz sp acq ca => Sys2Proof.Machine.execLd h d a off sz sp acq ca s
  | .st h d a off sz sp rel ca => Sys2Proof.Machine.execSt h d a off sz sp rel ca s
  | .atom h d a b c op ty rnd sp ord => Sys2Proof.Machine.execAtom h d a b c op ty rnd sp ord s
  | .red h a b op ty rnd sp ord => Sys2Proof.Machine.execRed h a b op ty rnd sp ord s
  | .ldg h d a b sco sz iw ixs scl stash ord => Sys2Proof.Machine.execLdg h d a b sco sz iw ixs scl stash ord s
  | .stg h d a b sco sz iw ixs scl stash ord => Sys2Proof.Machine.execStg h d a b sco sz iw ixs scl stash ord s
  | .ldft h d a b t16 cnt => Sys2Proof.Machine.execLdft h d a b t16 cnt s
  | .smap h d a b c => Sys2Proof.Machine.execSmap h d a b c s
  | .sunmap h d a => Sys2Proof.Machine.execSunmap h d a s
  | .sflush h a b all => Sys2Proof.Machine.execSflush h a b all s
  | .sdrop h a b all => Sys2Proof.Machine.execSdrop h a b all s
  | .pfd h a off var => Sys2Proof.Machine.execPfd h a off var s
  | .waitc h a path => Sys2Proof.Machine.execWaitc h a path s
  | .cntq h d path => Sys2Proof.Machine.execCntq h d path s
  | .fence h sco => Sys2Proof.Machine.execFence h sco s
  | .fenceSys h => Sys2Proof.Machine.execFenceSys h s
  | .bar h b l => Sys2Proof.Machine.execBar h b l s
  | .barr h d b => Sys2Proof.Machine.execBarr h d b s
  | .barw h a b l => Sys2Proof.Machine.execBarw h a b l s
  | .barinit h a b => Sys2Proof.Machine.execBarinit h a b s
  | .cpy h d a len o => Sys2Proof.Machine.execCpy h d a len o s
  | .cpyg h d a rowb ix o => Sys2Proof.Machine.execCpyg h d a rowb ix o s
  | .plset h a sel => Sys2Proof.Machine.execPlset h a sel s
  | .plcan h => Sys2Proof.Machine.execPlcan h s
  | .plrep h d => Sys2Proof.Machine.execPlrep h d s
  | .launch h d a => Sys2Proof.Machine.execLaunch h d a s
  | .mma h tag a o => Sys2Proof.Machine.execMma h tag a o s
  | .mmap h tag a o => Sys2Proof.Machine.execMmap h tag a o s
  | .had h d a n g norm => Sys2Proof.Machine.execHad h d a n g norm s
  | .acz h tag pair => Sys2Proof.Machine.execAcz h tag pair s
  | .acrel h tag => Sys2Proof.Machine.execAcrel h tag s
  | .acrelAll h => Sys2Proof.Machine.execAcrelAll h s
  | .acld h tag a f pair => Sys2Proof.Machine.execAcld h tag a f pair s
  | .acst h tag a f => Sys2Proof.Machine.execAcst h tag a f s
  | .acstat h d tag clr => Sys2Proof.Machine.execAcstat h d tag clr s
  | .trav h d a o => Sys2Proof.Machine.execTrav h d a o s
  | .tretDesc h a rev acq sco => Sys2Proof.Machine.execTretDesc h a rev acq sco s
  | .tretSkip h acq sco => Sys2Proof.Machine.execTretSkip h acq sco s
  | .tretCont h acq sco => Sys2Proof.Machine.execTretCont h acq sco s
  | .tretStop h acq sco => Sys2Proof.Machine.execTretStop h acq sco s
  | .tcut h d a o => Sys2Proof.Machine.execTcut h d a o s
  | .tres h d a o => Sys2Proof.Machine.execTres h d a o s
  | .tstat h d a => Sys2Proof.Machine.execTstat h d a s
  | .gpost h d a qr ord sco => Sys2Proof.Machine.execGpost h d a qr ord sco s
  | .gpoll h d qr => Sys2Proof.Machine.execGpoll h d qr s
  | .sys h d code => Sys2Proof.Machine.execSys h d code s
  | .eretAgain h d a b => Sys2Proof.Machine.execEretAgain h d a b s
  | .eretNext h d a b => Sys2Proof.Machine.execEretNext h d a b s
  | .eretZero h d a b => Sys2Proof.Machine.execEretZero h d a b s
  | .eretKill h d a b => Sys2Proof.Machine.execEretKill h d a b s
  | .csrr h d csr vf => Sys2Proof.Machine.execCsrr h d csr vf s
  | .csrw h a csr vf => Sys2Proof.Machine.execCsrw h a csr vf s
  | .tinvVa h o => Sys2Proof.Machine.execTinvVa h o s
  | .tinvSp h o => Sys2Proof.Machine.execTinvSp h o s
  | .tinvFn h o => Sys2Proof.Machine.execTinvFn h o s
  | .tinvIpa h o => Sys2Proof.Machine.execTinvIpa h o s
  | .tmark h a code => Sys2Proof.Machine.execTmark h a code s
  | .instructionFetchFill id => Sys2Proof.Machine.execInstructionFetchFill id s
  | .deferredResultArrival id => Sys2Proof.Machine.execDeferredResultArrival id s
  | .pathArrival id => Sys2Proof.Machine.execPathArrival id s
  | .teamRetire part => Sys2Proof.Machine.execTeamRetire part s
  | .tableWalk id => Sys2Proof.Machine.execTableWalk id s
  | .faultRecord id => Sys2Proof.Machine.execFaultRecord id s
  | .fres hyp vf token abort => Sys2Proof.Machine.execFres hyp vf token abort s
  | .stashFill block va => Sys2Proof.Machine.execStashFill block va s
  | .recallSector pa => Sys2Proof.Machine.execRecall pa s
  | .clockAdvance core => Sys2Proof.Machine.execClockAdvance core s
  | .clockRaise core => Sys2Proof.Machine.execClockRaise core s
  | .replicatedCommitLock id => Sys2Proof.Machine.execReplicatedCommitLock id s
  | .replicatedCommitUpdate id => Sys2Proof.Machine.execReplicatedCommitUpdate id s
  | .commitBoundMissed id link => Sys2Proof.Machine.execCommitBoundMissed id link s
  | .ladleComplete id => Sys2Proof.Machine.execLadleComplete id s
  | .barrierArrivalStep die k => Sys2Proof.Machine.execBarrierArrivalStep die k s
  | .tundishGrant flask => Sys2Proof.Machine.execTundishGrant flask s
  | .passRetire id => Sys2Proof.Machine.execPassRetire id s
  | .runnerRelease part lane => Sys2Proof.Machine.execRunnerRelease part lane s
  | .tcutComplete id => Sys2Proof.Machine.execTcutComplete id s
  | .guestPacketDeliver q => Sys2Proof.Machine.execGuestPacketDeliver q s
  | .guestCompletionReport q seq status => Sys2Proof.Machine.execGuestCompletionReport q seq status s
  | .guestTranslationRequest q vf spid va write => Sys2Proof.Machine.execGuestTranslationRequest q vf spid va write s
  | .guestAccess q pa len write data => Sys2Proof.Machine.execGuestAccess q pa len write data s
  | .guestInvalidationAck id => Sys2Proof.Machine.execGuestInvalidationAck id s
  | .guestLeaseSnoop pa => Sys2Proof.Machine.execGuestLeaseSnoop pa s
  | .guestQuiesceAnswer q seq returned => Sys2Proof.Machine.execGuestQuiesceAnswer q seq returned s
  | .guestBreach code => Sys2Proof.Machine.execGuestBreach code s
  | .trapRecord id => Sys2Proof.Machine.execTrapRecord id s
  | .stallDetectorTest core => Sys2Proof.Machine.execStallDetectorTest core s
  | .watchdog launch => Sys2Proof.Machine.execWatchdog launch s
  | .qnotify vf q tail => Sys2Proof.Machine.execQnotify vf q tail s
  | .submissionStart vf q => Sys2Proof.Machine.execSubmissionStart vf q s
  | .dependenceEntry graph node => Sys2Proof.Machine.execDependenceEntry graph node s
  | .nodeStartKernel graph node => Sys2Proof.Machine.execNodeStartKernel graph node s
  | .nodeStartCopy graph node => Sys2Proof.Machine.execNodeStartCopy graph node s
  | .nodeConditional graph node => Sys2Proof.Machine.execNodeConditional graph node s
  | .nodeWhile graph node => Sys2Proof.Machine.execNodeWhile graph node s
  | .nodeJoin graph node => Sys2Proof.Machine.execNodeJoin graph node s
  | .nodeHostSignal graph node => Sys2Proof.Machine.execNodeHostSignal graph node s
  | .nodeGuest graph node => Sys2Proof.Machine.execNodeGuest graph node s
  | .nodeFinish graph node => Sys2Proof.Machine.execNodeFinish graph node s
  | .imageRead launch => Sys2Proof.Machine.execImageRead launch s
  | .prologueBudgetExceeded part => Sys2Proof.Machine.execPrologueBudgetExceeded part s
  | .clusterPlace die => Sys2Proof.Machine.execClusterPlace die s
  | .preempt cluster => Sys2Proof.Machine.execPreempt cluster s
  | .clusterRestore cluster => Sys2Proof.Machine.execClusterRestore cluster s
  | .inboundHostAccess vf addr len write data => Sys2Proof.Machine.execInboundHostAccess vf addr len write data s
  | .initiateFunctionLevelReset vf => Sys2Proof.Machine.execInitiateFunctionLevelReset vf s
  | .flr vf => Sys2Proof.Machine.execFlr vf s
  | .vfctlEn vf value => Sys2Proof.Machine.execVfctlEn vf value s
  | .gsctlRst value => Sys2Proof.Machine.execGsctlRst value s
  | .evsel n value => Sys2Proof.Machine.execEvsel n value s
  | .trctl die value => Sys2Proof.Machine.execTrctl die value s
  | .stopat value => Sys2Proof.Machine.execStopat value s
  | .stop => Sys2Proof.Machine.execStop s
  | .goWrite value => Sys2Proof.Machine.execGoWrite value s
  | .thermalTrip => Sys2Proof.Machine.execThermalTrip s
  | .linkLost link => Sys2Proof.Machine.execLinkLost link s
  | .recastLogFull => Sys2Proof.Machine.execRecastLogFull s
  | .recastLogEnd => Sys2Proof.Machine.execRecastLogEnd s
  | .deviceReset => Sys2Proof.Machine.execDeviceReset s
  | .layerStart die layer => Sys2Proof.Machine.execLayerStart die layer s
  | .getVersion => Sys2Proof.Machine.execGetVersion s
  | .getCapabilities => Sys2Proof.Machine.execGetCapabilities s
  | .negotiateAlgorithms => Sys2Proof.Machine.execNegotiateAlgorithms s
  | .getDigests => Sys2Proof.Machine.execGetDigests s
  | .getCertificate ask length => Sys2Proof.Machine.execGetCertificate ask length s
  | .challenge ask => Sys2Proof.Machine.execChallenge ask s
  | .getMeasurements index nonce => Sys2Proof.Machine.execGetMeasurements index nonce s
  | .spdmUnsupportedRequest code => Sys2Proof.Machine.execSpdmUnsupportedRequest code s
  | .registerWrite vf addr value => Sys2Proof.Machine.execRegisterWrite vf addr value s
  | .linkTrained link => Sys2Proof.Machine.execLinkTrained link s
  | .replayRetriesExhausted link => Sys2Proof.Machine.execReplayRetriesExhausted link s
  | .guestSnoopOrRecallAnswer pa data => Sys2Proof.Machine.execGuestSnoopOrRecallAnswer pa data s
  | .msiXVectorUnmask vf vector => Sys2Proof.Machine.execMsiXVectorUnmask vf vector s

end Sys2Proof.Machine
end

