-- ==== Sys2Proof/Machine/Storage.lean ====
section
/-! DEFINITION. Errors of the storage (R75, R292, R333): corrected ones are counted, uncorrectable ones poison the word
that they strike, and those of tags and state drop the line or sector. -/

namespace Sys2Proof.Machine

/-- A corrected error, or one that the counters of a die count as well (R75, R333). -/
def State.countError (s : State) (d : Nat) : State := s.modDie d fun x => { x with errors := addCount x.errors 1 }

/-- An uncorrectable error that a die logs (R75). -/
def State.logError (s : State) (d : Nat) : State := s.modDie d fun x => { x with logged := addCount x.logged 1 }

/-- The bytes of the 64-bit word that holds an address, as a mask over its sector. -/
def wordBytes (a : Nat) : Nat := 255 * 2 ^ (a % 64 / 8 * 8)

/-- Poison a word of an L1's copy. -/
def State.poisonCopy (s : State) (core pa : Nat) : State :=
  match s.l1Copy core (pa / 64) with
  | some c => s.l1Put core .noalloc (pa / 64) { c with poison := c.poison ||| wordBytes pa }
  | none => s

/-- The die that a block lies on. -/
def State.blockDie (s : State) (b : Nat) : Nat := (s.cluster (clusterOf b)).die

/-- Poison a word of a filled stash sector; an error in dirty bytes is logged (R75). -/
def State.poisonSector (s : State) (b va : Nat) : State :=
  let x := (s.block b).secs.get {} (va / 64)
  if x.st = .unfilled then s
  else
    let s := if x.dirty &&& wordBytes va ≠ 0 then s.logError (s.blockDie b) else s
    s.setSec b (va / 64) { x with poison := x.poison ||| wordBytes va }

/-- Poison a word of a block's private bytes. -/
def State.poisonPriv (s : State) (b o : Nat) : State :=
  s.modBlock b fun x =>
    { x with privPoison := (List.range 8).foldl (fun m i => m.set false (o / 8 * 8 + i) true) x.privPoison }

/-- Poison a word of a slot that a tag holds (R292). -/
def State.poisonSlot (s : State) (core slot word : Nat) : State :=
  let k := slotKey core slot
  let x := s.slots.get {} k
  if x.used && word < 1024 && !x.poison.contains word then
    { s with slots := s.slots.set {} k { x with poison := word :: x.poison } }
  else s

/-- Poison a register word that a placed lane has, which is counted: v255 and the declared ones (R10, R333, R336). -/
def State.poisonReg (s : State) (t l r : Nat) : State :=
  let core := (s.team t).core
  if s.isLane t l && declared (s.img t) r then
    ({ s with regPoison := s.regPoison.set false (regKey t l r) true }).countError (dieOf core)
  else s

/-- Drop an L2 line whose tags or state cannot be corrected: its owners are recalled first, as for a write, so that no
stash keeps a copy (R75) (DESIGN CHOICE, log 111). -/
def State.dropLine (s : State) (pa : Nat) : State :=
  let line := pa / 256
  let s := (List.range 4).foldl (fun (s : State) i => s.recall true (line * 4 + i)) s
  (s.evictLine line).logError (homeDie pa)

/-- Drop a stash sector whose tags or state cannot be corrected, after its bytes have gone home (R75). -/
def State.dropSector (s : State) (b va : Nat) : State :=
  if ((s.block b).secs.get {} (va / 64)).st = .unfilled then s else (s.retireSec b (va / 64)).logError (s.blockDie b)

/-- Whether a byte of a launch's constants has its home at an address (R67). -/
def State.constHome (s : State) (pa : Nat) : Bool :=
  let l := (pa - 2 ^ 52) / 2 ^ 36
  let x := s.launch l
  let o := pa % 2 ^ 34
  2 ^ 52 ≤ pa && x.st ≠ .absent && s.constAt l o = pa
    && (o < x.img.param || (0x10000 ≤ o && o < 0x10000 + x.img.dataSz))

/-- Whether device memory and the L2 keep bytes at an address: those of memory, and a launch's constants (R67, R75). -/
def State.inStorage (s : State) (pa : Nat) : Bool := s.homed pa || s.constHome pa

/-- An error appears or is corrected. -/
def State.storageError (s : State) : StorageError → State
  | .corrected d => if d < 4 then s.countError d else s
  | .memory pa => if s.inStorage pa then
      let a := pa / 8 * 8
      s.putBytes a 8 (s.getBytes a 8).1 (ones 8) (ones 8)
    else s
  | .copy core pa => s.poisonCopy core pa
  | .stash b va => s.poisonSector b va
  | .priv b o => if (s.block b).cores.isEmpty then s else s.poisonPriv b o
  | .slot core slot word => s.poisonSlot core slot word
  | .reg t l r => s.poisonReg t l r
  | .copyState core pa =>
    match s.l1Copy core (pa / 64) with
    | some _ =>
      let k := l1Key core pa
      ({ s with l1 := s.l1.set [] k ((s.l1.get [] k).filter fun x => x.line ≠ pa / 256) }).logError (dieOf core)
    | none => s
  | .lineState pa => if s.inStorage pa then s.dropLine pa else s
  | .stashState b va => s.dropSector b va

/-- A move of the storage: what it does is logged under REC (R374). Under PLAY an error that is not the log's next makes
the replay differ, and the device stops (R374, R375). -/
def State.storageMove (s : State) (e : StorageError) : State :=
  if s.playing then
    if s.logNext (.error e) then (s.logPop (.error e)).storageError e else s.diverges
  else (s.storageError e).logged (.error e)

/-! ## Arrivals at the ports (R374) -/

/-- What arrives at a port from outside the device: the host's accesses and requests, the guest's, what the management
interface carries (boot images and writes of control registers), what a link's far end does, and a commit whose bound a
link's errors have made a home miss (R108). -/
def isArrival : Instr → Bool
  | .registerWrite _ a _ => a < 4096
  | .layerStart .. | .linkTrained _ | .linkLost _ | .replayRetriesExhausted _ | .commitBoundMissed .. => true
  | .qnotify _ q _ => q < 256
  | .guestCompletionReport _ n _ => n < 2 ^ 16
  | .guestTranslationRequest .. | .guestAccess .. | .guestInvalidationAck .. | .guestQuiesceAnswer ..
  | .guestSnoopOrRecallAnswer .. | .inboundHostAccess .. | .initiateFunctionLevelReset .. | .msiXVectorUnmask ..
  | .getVersion | .getCapabilities | .negotiateAlgorithms | .getDigests | .getCertificate .. | .challenge ..
  | .getMeasurements .. | .spdmUnsupportedRequest .. => true
  | _ => false

/-- Whether an event is an uncorrectable error of a link, a missed commit bound among them: under PLAY one that the log
lacks makes the replay differ (R108, R375, R378). -/
def State.linkFails (s : State) : Instr → Bool
  | .linkLost n => n < 18 && bit (s.lnkst.get 0 n) 0
  | .replayRetriesExhausted n => n < 18
  | .commitBoundMissed id n => n < 18 && s.commits.any fun k => k.id = id && k.overdue s.tick
  | _ => false

/-- What a link of the device corrects is counted, and the count does not wrap (R378). -/
def State.countCorrected (s : State) (n : Nat) : State :=
  let x := s.lnkst.get 0 n
  if bits x 16 32 < 2 ^ 32 - 1 then { s with lnkst := s.lnkst.set 0 n (x + 2 ^ 16) } else s

/-- A link corrects an error (R378). Under REC that is logged; under PLAY a port corrects what the log gives alone (R374). -/
def State.linkCorrects (s : State) (n : Nat) : State :=
  if 18 ≤ n then s
  else if s.playing then
    if s.logNext (.linkCorrected n) then (s.logPop (.linkCorrected n)).countCorrected n else s
  else (s.countCorrected n).logged (.linkCorrected n)

/-- A core withholds its slot of the tick (R380). Under REC that is logged; under PLAY a core withholds the logged slots
alone, and a further need gates every clock (R374). -/
def State.withhold (s : State) (core : Nat) : State :=
  let now (s : State) : State := s.modCore core fun c => { c with withheld := true }
  if 256 ≤ core || (s.core core).issuedNow || (s.core core).withheld then s
  else if s.playing then
    if s.logNext (.withheld core) then now (s.logPop (.withheld core)) else s.stopSoon
  else (now s).logged (.withheld core)

end Sys2Proof.Machine
end

