-- ==== Sys2Proof/Machine/Sched.lean ====
section
/-! DEFINITION. What a core does in an issue slot and what the end of a tick does: fetching and decoding,
single instructions and pairs (R20 to R23), the scheduler's choice (R135, R198, R266, R267), and the counts that
run on ticks (R334, R335, R368, R372). -/

namespace Sys2Proof.Machine

/-- The outcome of a step of this machine. -/
abbrev Out := Host.Outcome State Fault Refusal

/-- Go on with the state of an outcome. -/
def Out.andThen (o : Out) (f : State → Out) : Out :=
  match o with
  | .next s => f s
  | o => o

/-- Change the state of an outcome. -/
def Out.map (o : Out) (f : State → State) : Out := Out.andThen o fun s => .next (f s)

/-! ## Where a part stands after an attempt -/

/-- Whether a part waits at its instruction without having issued it. -/
def State.waiting (s : State) (p : Nat) : Bool :=
  let x := s.part p
  x.life = .live && x.wait ≠ .none && x.wait ≠ .hold && x.wait ≠ .retire

/-- The class of the trap or freeze that stopped a part, if one did. -/
def State.stopClass (s : State) (p : Nat) : Option Nat :=
  let x := s.part p
  if x.life = .live || x.life = .retired || x.life = .absent then none
  else some (match x.susp with
    | some u => u.cls
    | none => 14)

/-- The place of a stop in the order of R328, `none` when the instruction commits: `trap`, `sys` and `brk`
do (R329). -/
def State.stopRank (s : State) (p : Nat) : Option Nat :=
  if s.waiting p then some 1
  else
    match s.stopClass p with
    | none => none
    | some 1 | some 8 => some 0
    | some 7 => some 2
    | some 9 | some 10 | some 11 => none
    | some 14 => some 4
    | some _ => some 3

/-! ## One issue -/

/-- Latch an instruction for a part (R18 to R21). -/
def State.latch (s : State) (p next : Nat) (half : Half) (pre : Option Snap) : State :=
  { s with issue := { part := p, off := (s.part p).off, next := next, half := half, pre := pre, raised := [] } }

/-- Run an instruction at the latch, if the latched part is live. -/
def State.runLatched (s : State) (i : Instr) : Out :=
  if (s.part s.issue.part).life = .live then exec i s else .next s

/-- Run one instruction alone from the part's place. -/
def State.runOne (s : State) (p next : Nat) (i : Instr) : Out := (s.latch p next .single none).runLatched i

/-- The first of two stops in the order of R328; the half in slot 0 of two alike. -/
def firstStop (a b : Option Nat) : Option Bool :=
  match a, b with
  | none, none => none
  | some _, none => some true
  | none, some _ => some false
  | some x, some y => some (x ≤ y)

/-- Flags that the first half raised stand beside what the second wrote (R21). -/
def State.joinFlags (s : State) : State :=
  s.issue.raised.foldl (fun (s : State) x => s.orFlags (x.1 / 1024) (x.1 % 1024) x.2) s

/-- What the half of a pair that runs second reads (R21, R145). The reads of the two halves choose for themselves, those of
slot 0 by the first free value and those of slot 1 by the second, whichever runs first (R195). -/
def State.snap (s : State) (p : Nat) (flip : Bool) : Snap :=
  { regs := s.regs, defs := s.defs, active := s.activeSet p, ops := (s.part p).ops, ev := (s.core (s.coreOf p)).ev
    fresh := s.fresh + (if flip then 1 else 2) }

/-- Instructions whose place, or whose wait, follows the accesses of slot 0 of their pair (R79, R93, R264, R340 to
R345). -/
def placedLast : Instr → Bool
  | .launch .. | .csrr .. | .csrw .. | .sys .. | .eretAgain .. | .eretNext ..
  | .eretZero .. | .eretKill .. | .tinvVa .. | .tinvSp .. | .tinvFn .. | .tinvIpa .. => true
  | _ => false

/-- Stash management, whose stall precedes the issue of its pair (R130). -/
def managesStash : Instr → Bool
  | .smap .. | .sunmap .. | .sflush .. | .sdrop .. => true
  | _ => false

/-- The control instructions of R208. -/
def leavesBlock : Instr → Bool
  | .go .. | .goi .. | .gosel .. | .call .. | .calli .. | .exit .. => true
  | _ => false

/-- Whether an access of a part is held, is a commit that has not taken its place, or is a window read with an acquire
flag whose data has not returned (R91). -/
def State.accessOut (s : State) (p : Nat) : Bool :=
  let x := s.part p
  (s.held.any fun h => h.part = p) || (s.commits.any fun k => k.part = p && k.by' = .lane)
    || s.defs.any fun d => d.team = teamOf p && x.lo ≤ d.lane && d.lane < x.lo + x.width && d.holds

/-- The trap of a half that runs second and reads a poisoned word, which the read at its own issue tells (R223, R333):
neither half commits. -/
def State.pairPoison (s : State) (p next : Nat) (flip : Bool) (ks : List (Nat × Nat)) (j : Instr) : State :=
  let s := s.latch p next .single none
  let c := (if flip then s.bump else s.bump.bump).ctx j.hdr
  s.takeTrap p { s.mkTrap c 7 ((ks.head?.map (·.2)).getD 0) with poison := ks.map (·.1) }

/-- A pair of which the half that ran second has trapped or frozen: what the first did to lanes, the stash and memory is
undone, since neither commits (R52, R329). -/
def State.uncommit (s3 s : State) (p : Nat) : State :=
  let core := s.coreOf p
  ({ s3 with regs := s.regs, regPoison := s.regPoison, defs := s.defs, blocks := s.blocks, mem := s.mem
             memPoison := s.memPoison, l2 := s.l2, owners := s.owners, undo := s.undo, stored := s.stored }).modCore core
    fun c => { c with clock := (s.core core).clock }

/-- Run both halves of a pair, `i` before `j`: the second reads what stood before the pair (R21). `flip` says that `i` is
slot 1. One whose place follows an access of the first that is still held, or is a commit, is kept until that has taken
its place (R79). A half that has to wait after all leaves the pair unissued (DEDUCED, log 34), and one that is stopped
after the stash management of the first stops both (R130, R328). -/
def State.runBoth (s : State) (p next : Nat) (flip : Bool) (i j : Instr) : Out :=
  let snap := s.snap p flip
  Out.andThen (((if flip then s.bump else s).latch p next .first none).runLatched i) fun s1 =>
    let s2 := { s1 with issue := { s1.issue with half := .second, pre := some snap } }
    match s2.poisonRead (s2.ctx j.hdr) j with
    | k :: ks => .next (s.pairPoison p next flip (k :: ks) j)
    | [] =>
      if placedLast j && s1.accessOut p then
        .next (s1.modPart p fun x => { x with second := some { i := j, pre := snap, next := next } })
      else
        Out.map (s2.runLatched j) fun s3 =>
          if s3.waiting p then s.modPart p fun x => { x with wait := (s3.part p).wait }
          else if managesStash i && (s3.stopRank p).isSome then s3.uncommit s p
          else s3.joinFlags

/-- The second half that a part keeps, once the accesses before it have taken their places (R79, R264). One that has to
wait again is kept. -/
def State.runSecond (s : State) (p : Nat) : Out :=
  match (s.part p).second with
  | none => .next s
  | some x =>
    if (s.part p).life ≠ .live || s.accessOut p || (s.part p).wait = .image then .next s
    else
      let s1 := s.modPart p fun y => { y with second := none, wait := .none }
      Out.map ((s1.latch p x.next .second (some x.pre)).runLatched x.i) fun s3 =>
        { (if s3.waiting p then s3.modPart p fun y => { y with second := some x } else s3) with issue := {} }

/-- The second halves that parts of a core keep. -/
def State.runSeconds (s : State) (core : Nat) : Out :=
  (s.corePartIds core).foldl (fun (o : Out) p => Out.andThen o fun s => s.runSecond p) (.next s)

/-- Whether two halves would raise one counter past 0xFFFF together (R104). -/
def State.pairFull (s : State) (p next : Nat) (i j : Instr) : Bool :=
  let s := s.latch p next .single none
  match raises i, raises j with
  | some a, some b => a = b && 0xFFFE ≤ (s.part p).counter a && !(s.bump.ctx i.hdr).ga.isEmpty
    && !(s.bump.bump.ctx j.hdr).ga.isEmpty
  | _, _ => false

/-- Whether a part has taken a trap that commits: `trap`, `sys` or `brk` (R329). -/
def State.trapActs (s : State) (p : Nat) : Bool := (s.stopClass p).isSome && (s.stopRank p).isNone

/-- The stop of a half tried by itself. Whether its accesses violate is not known before the other half's stash management
has been done (R130). -/
def State.halfStop (a : State) (p : Nat) (other : Instr) : Option Nat :=
  if managesStash other && a.stopRank p = some 4 then none else a.stopRank p

/-- Whether the half in slot 1 runs first: stash management, whose stall precedes the pair's issue (R130), also a `sdrop`,
whose place in T then precedes the accesses of slot 0 (DEDUCED, log 120); and beside a control instruction of a
prologue, with whose exit its launch is decided (R208, R262). -/
def State.slot1First (s : State) (p : Nat) (i j : Instr) : Bool :=
  (managesStash j && !managesStash i) || ((s.launchAt p).prologue && leavesBlock i)

/-- Issue a pair (R20, R21, R328): a stop of either half by itself stops both, and the first in the order
decides; `trap` and `brk` come after the other half. Of two halves that trap so, slot 0's trap is taken alone (DESIGN
CHOICE, log 113). -/
def State.runPair (s : State) (p next : Nat) (i j : Instr) : Out :=
  Out.andThen (s.runOne p next i) fun a =>
    Out.andThen (s.bump.runOne p next j) fun b =>
      match firstStop (a.halfStop p j) (b.halfStop p i) with
      | some true => .next a
      | some false => .next b
      | none =>
        if a.trapActs p && b.trapActs p then .next a
        else if s.pairFull p next i j then .next (s.modPart p fun x => { x with wait := .counter })
        else if a.trapActs p || (!b.trapActs p && s.slot1First p i j) then s.runBoth p next true j i
        else s.runBoth p next false i j

/-- A trap of the part at its place, for a slot that does not decode (R17, R20) or for the code limit
(R191). -/
def State.trapHere (s : State) (p cls : Nat) (ga : List Nat) (next : Nat) : State :=
  s.takeTrap p { cls := cls, ga := ga, act := s.activeSet p, off := (s.part p).off, next := next }

/-- The instructions that an attempt has issued: none, one, or a pair. -/
inductive Issued
  | nothing
  | one (i : Instr)
  | pair (i j : Instr)
  deriving DecidableEq, Repr

/-- The instructions that a part finds at its place: what fetch holds there, decoded. -/
inductive Found
  | limit
  | budget
  | miss
  | bad (w : Nat)
  | one (i : Instr) (next : Nat)
  | pair (i j : Instr) (next : Nat)
  deriving DecidableEq, Repr

/-- Fetch and decode at a part's place (R14 to R17, R20, R191, R197, R262). -/
def State.find (s : State) (p : Nat) : State × Found :=
  let off := (s.part p).off
  let l := s.launchAt p
  if l.img.code ≤ off then (s, .limit)
  else if l.prologue && 4096 ≤ l.issued then (s, .budget)
  else
    match s.fetchWord p off with
    | (s, .word w) =>
      match decodeFetch w (off % 16 = 8) with
      | .ok (.one i) => (s, .one i (if i.isLong then off + 16 else off + 8))
      | .ok (.pair i j) =>
        if pairLegal i j then (s, .pair i j (off + 16)) else (s, .bad w)
      | .error _ => (s, .bad w)
    | (s, _) => (s, .miss)

/-- The bit at which the slot begins whose decoding fails: slot 1 when the fetch begins there, or when slot 0 of a pair
decodes and slot 1 does not (R330). -/
def badSlot (off w : Nat) : Nat :=
  if off % 16 = 8 then 64
  else if !bit w 62 || 0x380 ≤ bits w 52 10 then 0
  else
    match decodeNat (clearP (bits w 0 64)) with
    | .error _ => 0
    | .ok i =>
      if 0x380 ≤ bits w 116 10 || bit w 126 then 64
      else
        match decodeNat (bits w 64 64) with
        | .error _ => 64
        | .ok j => if pairLegal i j then 64 else 0

/-- A `fence.sys` in slot 1 is over once the accesses that it waits for have completed (R91, R134). -/
def State.fenceEnds (s : State) (p : Nat) : State :=
  let x := s.part p
  if x.fence.isEmpty || !s.accessesDone (teamOf p) p x.fence then s
  else (s.settleStores p x.fence).modPart p fun y => { y with fence := [] }

/-- The code offset after a slot that does not decode: the slot, or the word of a pair or long form. -/
def badNext (off w : Nat) : Nat :=
  if off % 16 = 8 then off + 8
  else if bit w 62 || 0x380 ≤ bits w 52 10 then off + 16
  else off + 8

/-- A part tries to issue (R20, R192, R198). It waits first for its replays (R49) and for the second half that it keeps. -/
def State.attempt (s : State) (p : Nat) : Out × Issued :=
  let off := (s.part p).off
  if s.held.any fun h => h.part = p then (.next (s.modPart p fun x => { x with wait := .replay }), .nothing)
  else if (s.part p).second.isSome then (.next (s.modPart p fun x => { x with wait := .earlier }), .nothing)
  else
    match (s.fenceEnds p).find p with
    | (s, .limit) => (.next (s.trapHere p 2 [] off), .nothing)
    | (s, .budget) => (.next s, .nothing)
    | (s, .miss) => (.next ((s.askFill p off false).modPart p fun x => { x with wait := .fetch }), .nothing)
    | (s, .bad w) => (.next (s.trapHere p 1 (s.slotGuarded p (bits w (badSlot off w) 64)) (badNext off w)), .nothing)
    | (s, .one i next) => (s.runOne p next i, .one i)
    | (s, .pair i j next) => (s.runPair p next i j, .pair i j)

/-! ## Passes (R23, R135, R224) -/

/-- The words of a part that hold an active lane. -/
def State.activeWords (s : State) (p : Nat) : Nat :=
  let lo := (s.part p).lo
  (once ((s.activeSet p).map fun l => (l - lo) / 32)).length

/-- The logarithm to base 2 of a power of two. -/
def log2of (n : Nat) : Nat := ((List.range 11).find? fun k => n ≤ 2 ^ k).getD 0

/-- The passes that a cross-lane instruction takes beside one for each word (R224); the state is that with whose free
values its reads are made. -/
def State.extraPasses (s : State) (p : Nat) (i : Instr) : Nat :=
  let w := (s.part p).width
  let per (seg : Seg) (scan : Bool) : Nat :=
    let sw := segWidth (s.img (teamOf p)).lg16 w seg
    let m := max 1 (sw / 32)
    w / sw * (if scan then m - 1 else log2of m)
  match i with
  | .vote _ _ _ _ seg | .ballot _ _ _ seg | .ballotWord _ _ _ _ seg | .matchAny _ _ _ _ seg
  | .matchAll _ _ _ _ _ seg | .elect _ _ seg | .ired _ _ _ _ _ seg | .fred _ _ _ _ _ seg => per seg false
  | .iscan _ _ _ _ _ _ seg | .fscan _ _ _ _ _ _ seg => per seg true
  | .shuf h _ _ _ _ _ _ | .shufImm h _ _ _ _ _ _ =>
    let s1 := s.latch p 0 .single none
    let c := s1.ctx h
    let reads := (List.range 32).map fun k =>
      (once ((c.ga.filter fun l => (l - c.lo) / 32 = k).map fun l => s1.crossSource c i (l - c.lo) / 32)).length
    (reads.map fun n => n - 1).foldl (· + ·) 0
  | _ => 0

/-- The issue slots that an issue takes (DESIGN CHOICE, log 63). The extra passes of both halves of a pair count, twice when
it issues in two ticks (DEDUCED, log 116). -/
def State.slots' (s : State) (p : Nat) : Issued → Nat
  | .nothing => 0
  | .one i => max 1 (s.activeWords p) + s.bump.extraPasses p i
  | .pair i j =>
    (max 1 (s.activeWords p) + s.bump.extraPasses p i + s.bump.bump.extraPasses p j)
      * (if pairOneTick i j then 1 else 2)

/-! ## The choice (R198, R267) -/

/-- The parts of a core that may be tried: live, and not waiting for another agent's event. The H teams of a
die whose H team has trapped have stopped (R326, R365). -/
def State.candidates (s : State) (core : Nat) (busy : List Nat) : List Nat :=
  (s.corePartIds core).filter fun p =>
    let x := s.part p
    x.life = .live && !busy.contains p && !((s.die (dieOf core)).hStopped && (s.launchAt p).level = .h)
      && x.wait ≠ .fuse && x.wait ≠ .hold && x.wait ≠ .retire
      && x.wait ≠ .image && x.wait ≠ .fetch && x.wait ≠ .replay

/-- The age of a part: its cluster's placement order, block, team and part (R267). -/
def State.age (s : State) (p : Nat) : List Nat :=
  [(s.clusterOfTeam (teamOf p)).order, blockOf (teamOf p) % 8, teamIx (teamOf p), (s.part p).lo]

/-- Lexicographic order. -/
def lexLt : List Nat → List Nat → Bool
  | [], _ :: _ => true
  | x :: t, y :: u => x < y || (x = y && lexLt t u)
  | _, _ => false

/-- The ticks since an engine last accepted an issue of a core (R266). -/
def State.engineAge (s : State) (core e : Nat) : Nat := s.tick - (s.core core).accepts.get 0 e

/-- The idle age of what an issue targets: a pair targets its more idle engine (R266). -/
def State.targetAge (s : State) (core : Nat) : Issued → Nat
  | .nothing => 0
  | .one i => s.engineAge core i.engine
  | .pair i j => max (s.engineAge core i.engine) (s.engineAge core j.engine)

/-- The line that the next fill of a part evicts: the oldest of a full cache that does not hold the line after the part's
place (R197, R198). -/
def State.nextEvicted (s : State) (core p : Nat) : Option ICLine :=
  let ic := (s.core core).icache
  let l := s.launchAt p
  let next := l.codeVa ((s.part p).off / 16 * 16 + 16) / 128
  if ic.length < icLines || ic.any fun x => x.at' = next && [x.img, x.vf, x.spid] = l.kernel then none else ic.getLast?

/-- Whether a leading part is to be chosen only when no other is ready: its lead over a part in its sweep would pass 512
lines, or its next fill would evict a line that such a part has yet to fetch (R198). -/
def State.leads (s : State) (core p : Nat) : Bool :=
  let x := s.part p
  let l := s.launchAt p
  let others := (s.corePartIds core).filter fun q => q ≠ p && (s.launchAt q).kernel = l.kernel
  let trail := others.filter fun q => (s.part q).sweeps = x.sweeps
  others.all (fun q => (s.part q).off ≤ x.off)
    && trail.any fun q =>
        512 < l.codeVa (x.off / 16 * 16 + 16) / 128 - l.codeVa (s.part q).off / 128
        || (s.nextEvicted core p).any fun y => [y.img, y.vf, y.spid] = l.kernel && l.codeVa (s.part q).off / 128 ≤ y.at'

/-- What the scheduler compares of a ready part. -/
structure Ready where
  p : Nat
  held : Bool
  passed : Nat
  pri : Nat
  age : Nat
  old : List Nat
  deriving DecidableEq, Repr

/-- The order of R267, for parts of which neither or both are held back. -/
def Ready.before (x y : Ready) : Bool :=
  let starved (r : Ready) : Bool := 64 ≤ r.passed
  if x.held != y.held then y.held
  else if starved x || starved y then
    y.passed < x.passed || (x.passed = y.passed && lexLt x.old y.old)
  else
    y.pri < x.pri || (x.pri = y.pri && (y.age < x.age || (x.age = y.age && lexLt x.old y.old)))

/-- What the scheduler knows of a part that can issue. -/
def State.readyOf (s : State) (core p : Nat) (i : Issued) : Ready :=
  let held := s.leads core p
  let x := s.part p
  { p := p, held := held, passed := if x.heldBack && !held then 0 else x.passed
    pri := (s.clusterOfTeam (teamOf p)).pri, age := s.targetAge core i, old := s.age p }

/-- The first of some ready parts in the scheduler's order. -/
def pickReady : List Ready → Option Ready
  | [] => none
  | x :: t =>
    match pickReady t with
    | none => some x
    | some y => if Ready.before y x then some y else some x

/-! ## Bookkeeping of an issue -/

/-- Whether an attempt committed an instruction: it neither waits nor trapped at its boundary. -/
def State.committed (s : State) (p : Nat) : Bool := (s.stopRank p).isNone && s.stopClass p ≠ some 2

/-- Count an issue on its core, its engines and its launch (R266, R262, R334, R335, R369). -/
def State.noteIssue (s : State) (core l : Nat) (i : Issued) (slots : Nat) : State :=
  let engines := match i with
    | .nothing => []
    | .one i => [i.engine]
    | .pair i j => [i.engine, j.engine]
  let s := s.modCore core fun c =>
    { c with issuedNow := true, idle := 0, slotsLeft := slots
             accepts := engines.foldl (fun m e => m.set 0 e s.tick) c.accepts }
  let s := s.count core 1 slots
  let s : State := match i with
    | .pair i j => if pairOneTick i j then s.count core 2 1 else s
    | _ => s
  if (s.launch l).st = .absent then s
  else
    s.modLaunch l fun x =>
      { x with watch := if x.begun then x.watch else some 0, begun := true
               issued := if x.prologue then x.issued + 1 else x.issued }

/-- The counts of choices passed over (R267): the chosen part's restarts, and that of every other ready part
that is not held back rises. -/
def State.notePassed (s : State) (rs : List Ready) (p : Nat) : State :=
  rs.foldl (fun (s : State) r =>
    if (s.part r.p).life = .absent then s
    else
      s.modPart r.p fun x =>
        { x with heldBack := r.held
                 passed := if r.p = p then 0 else if r.held then r.passed else r.passed + 1 }) s

/-- Count a settle park as it begins (R369). -/
def State.notePark (s old : State) (core p : Nat) : State :=
  if (s.part p).wait = .settle && (old.part p).wait ≠ .settle then s.count core 3 1 else s

/-- What a core knows after trying its parts: the state with their parks, the parts that can issue with what
they would give, and how many parked. -/
structure Tried where
  s : State
  ready : List (Ready × Out × Issued × Nat)
  parks : Nat

/-- Try the parts of a core, one after the other: a part that waits is left parked, and one that can issue
is noted. -/
def State.tryParts (s : State) (core : Nat) (ps : List Nat) : Tried :=
  ps.foldl (fun (r : Tried) p =>
    match r.s.attempt p with
    | (.next s1, i) =>
      if s1.waiting p then { r with s := s1.notePark r.s core p, parks := r.parks + 1 }
      else if i = .nothing && (s1.stopClass p).isNone then r
      else { r with ready := r.ready ++ [(r.s.readyOf core p i, .next s1, i, r.parks)] }
    | (o, i) => { r with ready := r.ready ++ [(r.s.readyOf core p i, o, i, r.parks)] })
    { s := s, ready := [], parks := 0 }

/-- What the chosen part's issue gives, with the counts that go with it. -/
def State.settleIssue (s : State) (core : Nat) (rs : List Ready) (p slots : Nat) (i : Issued) (o : Out)
    (before : State) : Out :=
  let l := before.launchOf (teamOf p)
  Out.map o fun s1 =>
    let s2 := if s1.committed p && i ≠ .nothing then s1.noteIssue core l i slots else s1
    let s2 := s2.notePark s core p
    { (s2.notePassed rs p).killDead with issue := {} }

/-- A core's choice in an issue slot (R135, R198, R266, R267). The parts that a release resumes come to their
next block first (R189), and a core whose trace buffer is full waits (R370). -/
def State.choose (s : State) (core : Nat) (busy : List Nat) : Out :=
  Out.andThen ((s.resumeParts (s.corePartIds core)).runSeconds core) fun s =>
  let c := s.core core
  if 256 ≤ core || (core % 64 ≠ 0 && !s.released) || c.issuedNow || c.slotsLeft ≠ 0 || c.withheld
      || traceBuffer ≤ c.trbuf.length then .next s
  else
    let t := s.tryParts core (s.candidates core busy)
    match pickReady (t.ready.map (·.1)) with
    | none => .next t.s
    | some r =>
      match t.ready.find? fun x => x.1.p = r.p with
      | none => .next t.s
      | some (_, o, i, k) =>
        let slots := t.s.slots' r.p i
        let o := if k = t.parks then o else (t.s.attempt r.p).1
        t.s.settleIssue core (t.ready.map (·.1)) r.p slots i o t.s

/-! ## The end of a tick -/

/-- The cores that hold a resident team. -/
def State.coresInUse (s : State) : List Nat :=
  once ((s.teams.filter fun x => (s.clusterOfTeam x.1).st = .resident
    && !(s.block (blockOf x.1)).retired).map fun x => x.2.core)

/-- A core's idle count and slots at the end of a tick (R135, R334): a slot that an earlier choice's passes
take counts as an issue, and one that is withheld counts for nothing (R380). -/
def Core.endTick (c : Core) (inUse : Bool) : Core :=
  let left := c.slotsLeft - 1
  { c with issuedNow := false, slotsLeft := left, withheld := false, trHeld := false
           idle := if !inUse || c.issuedNow || c.slotsLeft ≠ 0 then 0 else if c.withheld then c.idle else c.idle + 1 }

/-- What waits for a sector or an entry is tried again in every tick. -/
def State.retryAll (s : State) : State :=
  let ws := (s.waiters.filter fun x => x.1 = 0).map (·.2)
  let s := { s with waiters := s.waiters.filter fun x => x.1 ≠ 0 }
  let s := ws.foldl (fun (s : State) w => match w with
    | .part p => if (s.part p).wait = .image then s.modPart p fun y => { y with wait := .none } else s
    | .prefetch p var ea => s.prefetchAgain p var ea
    | .event _ => s) s
  { s with agenda := (ws.filterMap fun w => match w with
      | .event i => some (.again i)
      | _ => none) ++ s.agenda }

/-- The trace buffers of the cores are written, but those that a move holds back (R370). -/
def State.drainTraces (s : State) : State :=
  (s.cores.filter fun x => !x.2.trbuf.isEmpty && !x.2.trHeld).foldl (fun (s : State) x => s.drainTrace x.1) s

/-- What the device's agents do as a tick ends: the stall detector, the watchdogs, the ports, the trace and the resets in
progress. -/
def State.endAgents (s : State) : State :=
  let use := s.coresInUse
  let s := (use.foldl (fun (s : State) c => s.resumeParts (s.corePartIds c)) s).drainTraces
  let s := (once (use ++ s.cores.keys)).foldl (fun (s : State) c =>
    s.modCore c fun x => x.endTick (use.contains c)) s
  let s := use.foldl (fun (s : State) c => s.stallTest c) s
  let s := { s with launches := s.launches.map fun x : Nat × Launch =>
      (x.1, { x.2 with watch := if x.2.resident = 0 then x.2.watch else x.2.watch.map (· + 1) }) }
  let s := s.watchdogs.killDead.drainHost.guestWrites.retryAll
  (s.fns.keys).foldl (fun (s : State) f => s.finishReset f) s

/-- The clocks are gated by a thermal trip, as a stop does (R381). -/
def State.tripNow (s : State) : State := { s with tripDue := false, trip := true, stopped := true }

/-- The global tick advances (R368): the agents have their part of the tick first, and the clocks move as the next one
begins (R85), in which the log's moves come first (R374). When a stop or a trip is due the clocks are gated instead
(R372, R381). -/
def State.endTick (s : State) : State :=
  let s := s.logPasses.logEnds
  if s.tripDue then s.tripNow
  else if s.gates then s.stopNow
  else
    let s := s.endAgents
    let s := { s with tick := s.tick + 1, stored := [] }.startClocks
    { s with agenda := s.replayed ++ s.agenda }.replayLines

/-! ## Moves -/

/-- A translation cache drops one entry, for want of room (R42): 0 instruction, 1 L1, 2 shared, 3 walk. -/
def State.evictTlb (s : State) (cache at' k : Nat) : State :=
  match cache with
  | 0 => s.modCore at' fun c => { c with itlb := c.itlb.eraseIdx k }
  | 1 => s.modCore at' fun c => { c with tlb := c.tlb.eraseIdx k }
  | 2 => s.modDie at' fun d => { d with stlb := d.stlb.eraseIdx k }
  | _ => s.modDie at' fun d => { d with wcache := d.wcache.eraseIdx k }

/-- An event of another agent. A lane instruction is none. What arrives at a port is logged under REC, and under PLAY only
what the log gives arrives (R374); an error of a link that it lacks makes the replay differ (R375). -/
def State.event (s : State) (i : Instr) : Out :=
  if i.isLane then .next s
  else if !isArrival i then exec i s
  else if s.playing then
    if s.logNext (.arrival i) then exec i (s.logPop (.arrival i))
    else .next (if s.linkFails i then s.diverges else s)
  else exec i (s.logged (.arrival i))

/-- Carry out one move. -/
def State.move (s : State) : Move → Out
  | .tick => .next s.endTick
  | .issue core busy => s.choose core busy
  | .event i => s.event i
  | .again i => if i.isLane then .next s else exec i s
  | .storage e => .next (s.storageMove e)
  | .linkCorrected n => .next (s.linkCorrects n)
  | .withhold core => .next (s.withhold core)
  | .holdTrace core => .next (if core < 256 then s.modCore core fun c => { c with trHeld := true } else s)
  | .cooled d => .next (s.modDie d fun x => { x with hot := false })
  | .engine id k => .next ((s.enginePiece id k).matrixPiece id k)
  | .node p l k => .next (s.nodeRead p l k)
  | .evict cache at' k => .next (s.evictTlb cache at' k)

/-- The moves that act while the clocks are gated: GO, a device reset (R372) and the cooling of a die (R381). -/
def Move.actsStopped : Move → Bool
  | .cooled _ => true
  | .event (.goWrite _) => true
  | .event .deviceReset => true
  | _ => false

/-- The first move of a list that acts while the clocks are gated, and the rest, which stay buffered. -/
def takeStopped : List Move → Option (Move × List Move)
  | [] => none
  | m :: t => if m.actsStopped then some (m, t) else (takeStopped t).map fun x => (x.1, m :: x.2)

/-- One step of the device: the next move of its agenda, or a tick when it is empty; while the clocks are
gated nothing else than GO and a reset acts (R372). -/
def State.next (s : State) : Out :=
  if s.stopped then
    match takeStopped s.agenda with
    | some (m, rest) => ({ s with agenda := rest }).move m
    | none => .next s
  else
    match s.agenda with
    | [] => s.move .tick
    | m :: rest => ({ s with agenda := rest }).move m

end Sys2Proof.Machine
end

