-- ==== Sys2Proof/Machine/Step.lean ====
section
/-! DEFINITION. The step of the machine, and the placing of one instruction where the next step issues it. -/

namespace Sys2Proof.Machine

/-- One step of the device: the next move of its agenda, or the end of the global tick when no move is
listed (R1, R368; DESIGN CHOICE, log 4). -/
def step (s : State) : Host.Outcome State Fault Refusal := s.next

/-- Where `withFetchWord` puts the image it loads: physical and virtual address alike, a page of 64 KiB. -/
def loadBase : Nat := 0x10000

/-- The launch that `withFetchWord` loads: one cluster of one block of one team of 32 lanes at U, with 248
registers, whose code is one fetch word that the block of label 1 begins with. -/
def loadedLaunch (l : Nat) : Launch :=
  { st := .running, image := loadBase, order := l, clus := 1, blk := 32, bpc := 1, die := 0
    img := { regg := 31, code := 16, codeOff := 256, labels := [(1, 0, 0)] } }

/-- The translation of the loaded image's page: readable, writable, executable and open to U. -/
def loadedPage (h2 : Bool) : Tlb :=
  let a : Attr := ⟨true, true, true, true, false, false, false⟩
  { vf := 0, spid := 0, h2 := h2, va := loadBase, lg := 16, pa := loadBase, fpa := loadBase, attr := a
    attr1 := a, lv1 := 0, lv2 := 0, s1 := none, s2 := none, acc := true, dirty := true }

/-- The state with the instruction whose bits are `w` placed where the next step issues it: its words in
memory and in the instruction cache of core 1 of die 0, a kernel of one team resident there, and that core's
choice next on the agenda (DESIGN CHOICE, log 8). Every other part of the core is not ready in that choice. -/
def State.withFetchWord (s : State) (nbits w : Nat) : State :=
  let x := w % 2 ^ nbits % 2 ^ 128
  let (l, s) := s.takeId
  let busy := s.corePartIds 1
  let s := (s.setLaunch l (loadedLaunch l)).placeCluster l 0 [[1]]
  let s := s.modCore 1 fun c =>
    { c with issuedNow := false, slotsLeft := 0
             itlb := loadedPage (bit (s.fn 0).h2root 0) :: c.itlb
             icache := { line := (loadBase + 256) / 128, img := loadBase, vf := 0, spid := 0, data := x }
               :: c.icache }
  { s with mem := (leBytes 16 x).zipIdx.foldl (fun (m : FMap Byte) b => m.set 0 (loadBase + 256 + b.2) b.1) s.mem
           released := true, stopped := false, agenda := .issue 1 busy :: s.agenda }

end Sys2Proof.Machine
end

