-- ==== Sys2Proof/Safety.lean ====
section
/-! DEFINITION. The terms in which statements about the machine are made: the canonical form of memory, when
an instruction issues, what it reads, and what an instruction of one shape leaves unchanged. -/

namespace Sys2Proof.Machine

/-! ## Memory -/

/-- The canonical form of memory: addresses strictly rise, and no entry holds what an unlisted address reads
as. -/
def Memory.wf (m : FMap Byte) : Bool := FMap.wf 0 m

/-- The invariant of every step: memory is in its canonical form. -/
def State.Canonical (s : State) : Prop := Memory.wf s.mem = true

/-- A run that goes on: the step has answered a next state. -/
def Out.goesOn (o : Out) : Prop := ∃ t, o = .next t

/-! ## Issuing -/

/-- The context in which an instruction with a header issues (R19): its guard is read at the free values of the issue
(R195). -/
def State.opCtx (s : State) (h : Hdr) : Ctx := s.bump.ctx h

/-- An instruction issues at the latch: its part is live; it decodes to something that the kernel may use
(R17, R339); its part is not parked (R49, R195, R196); no register that it reads is poisoned (R333); and no
condition of its own makes it wait (R104, R192); operands are read at the free values of the issue. The second half of a pair issues with the first (R20), after
which its part does not wait. -/
def Issues (i : Instr) (s : State) : Prop :=
  let c := s.opCtx i.hdr
  (s.part c.p).life = .live
    ∧ ((s.issue.half = .second ∧ (s.part c.p).wait = .none)
      ∨ (s.decodeTrap c.t i = none ∧ s.parkWait c i = .none ∧ s.bump.poisonRead c i = []
        ∧ s.bump.issueWait c i = .none))

/-- The lanes for which an instruction acts: the guarded-active lanes (R19). -/
def State.actors (s : State) (i : Instr) : List Nat := (s.opCtx i.hdr).ga

/-- The team of the issuing part. -/
def State.issTeam (s : State) : Nat := teamOf s.issue.part

/-- The word that source number `slot` of the issuing instruction finds in register `r` of lane `l`
(R170, R195): the word stored there, unless a deferred result is outstanding to it. -/
def State.src (s : State) (slot l r : Nat) : Nat := s.issued.rd slot s.issTeam l r

/-- The pair that a source finds (R144). -/
def State.src64 (s : State) (slot l r : Nat) : Nat := s.issued.rd64 slot s.issTeam l r

/-- The predicate that a source finds (R142, R169). -/
def State.srcP (s : State) (slot l : Nat) (x : PSrc) : Bool := s.issued.rdPred slot s.issTeam l x

/-! ## What an instruction leaves alone -/

/-- FRAME of an instruction that writes registers of the lanes of part `p` only. Beside `regs`, the poison bits and the
deferred results, only these change: the issuing part's place (`off`, `cur`, `sweeps`) and what it waits for;
the wanted labels and departed flags of its own lanes (R187, R188); event counters (R369); the latch and the
model's counters. Memory, every cache, every other part, every special register, accumulator and exception
register stand as before. -/
structure LanesOnly (p : Nat) (s t : State) : Prop where
  rest : t = { s with
    regs := t.regs, regPoison := t.regPoison, defs := t.defs, parts := t.parts, lanes := t.lanes
    cores := t.cores, issue := t.issue, fresh := t.fresh, nextId := t.nextId }
  parts : ∀ q, q ≠ p → t.part q = s.part q
  part : t.part p =
    { s.part p with
        off := (t.part p).off, cur := (t.part p).cur, sweeps := (t.part p).sweeps
        wait := (t.part p).wait, fence := (t.part p).fence }
  lanes : ∀ l, t.lane l = { s.lane l with wl := (t.lane l).wl, departed := (t.lane l).departed }
  mine : ∀ l, (∀ x ∈ s.partLanes p, l ≠ laneId (teamOf p) x) → t.lane l = s.lane l
  cores : ∀ c, t.core c = { s.core c with ev := (t.core c).ev }

/-- FRAME of an instruction of part `p` that posts a command, or an entry: what `LanesOnly` lets change, but for the
register file and its poison, and the part's operations in flight, the new deferred results and the commands. -/
structure PostsOnly (p : Nat) (s t : State) : Prop where
  rest : t = { s with
    cmds := t.cmds, defs := t.defs, parts := t.parts, lanes := t.lanes, cores := t.cores, issue := t.issue
    fresh := t.fresh, nextId := t.nextId }
  parts : ∀ q, q ≠ p → t.part q = s.part q
  part : t.part p =
    { s.part p with
        off := (t.part p).off, cur := (t.part p).cur, sweeps := (t.part p).sweeps
        wait := (t.part p).wait, fence := (t.part p).fence, ops := (t.part p).ops }
  lanes : ∀ l, t.lane l = { s.lane l with wl := (t.lane l).wl, departed := (t.lane l).departed }
  mine : ∀ l, (∀ x ∈ s.partLanes p, l ≠ laneId (teamOf p) x) → t.lane l = s.lane l
  cores : ∀ c, t.core c = { s.core c with ev := (t.core c).ev }

/-- A fixed result (R171): the instruction answers a next state in which each lane that acts holds `v` in the
destination registers `ds` and has the flags `f` ORed into v255 (R143); every other word of the register file
stands, and the frame of `LanesOnly` holds. -/
def Writes (i : Instr) (s : State) (ds : List Nat) (v : Nat → Nat → Nat) (f : Nat → Nat) : Prop :=
  ∃ t, exec i s = .next t
    ∧ (∀ l ∈ s.actors i, ∀ r ∈ ds, r ≠ 255 → t.reg s.issTeam l r = v l r % 2 ^ 32)
    ∧ (∀ l ∈ s.actors i, t.reg s.issTeam l 255
        = (if 255 ∈ ds then v l 255 % 2 ^ 32 else s.reg s.issTeam l 255) ||| f l)
    ∧ (∀ k, (∀ l ∈ s.actors i, ∀ r, r ∈ ds ∨ (r = 255 ∧ f l ≠ 0) → k ≠ regKey s.issTeam l r) →
        t.regs.get 0 k = s.regs.get 0 k)
    ∧ LanesOnly s.issue.part s t

/-- A fixed result of one word, with no flags. -/
def WritesWord (i : Instr) (s : State) (d : Reg) (v : Nat → Nat) : Prop :=
  Writes i s [d.val] (fun l _ => v l) fun _ => 0

/-! ## Results, by shape -/

/-- A source word as a bit vector. -/
def State.srcW (s : State) (slot l : Nat) (r : Reg) : Word := BitVec.ofNat 32 (s.src slot l r)

/-- A source pair as a bit vector. -/
def State.srcD (s : State) (slot l : Nat) (r : Reg) : DWord := BitVec.ofNat 64 (s.src64 slot l r)

/-- A fixed result of one word, given as a bit vector. -/
def WritesW (i : Instr) (s : State) (d : Reg) (v : Nat → Word) : Prop := WritesWord i s d fun l => (v l).toNat

/-- A fixed result of a pair (R144). -/
def WritesPair (i : Instr) (s : State) (d : Reg) (v : Nat → DWord) : Prop :=
  Writes i s [d.val, d.val + 1]
    (fun l r => if r = d.val then (v l).toNat % 2 ^ 32 else (v l).toNat / 2 ^ 32) fun _ => 0

/-- A fixed result of one word with flags: value and flags of each lane. -/
def WritesF (i : Instr) (s : State) (d : Reg) (v : Nat → Nat × Nat) : Prop :=
  Writes i s [d.val] (fun l _ => (v l).1) fun l => (v l).2

/-- A fixed result of a register group with flags: the words from `d` up. -/
def WritesGroup (i : Instr) (s : State) (d : Reg) (n : Nat) (v : Nat → Nat → Nat) (f : Nat → Nat) : Prop :=
  Writes i s ((List.range n).map (d.val + ·)) (fun l r => v l (r - d.val)) f

/-- What an instruction leaves in each register of each lane that acts, as a function of lane and register;
every other word of the register file stands, and the frame of `LanesOnly` holds. -/
def Leaves (i : Instr) (s : State) (f : Nat → Nat → Nat) : Prop :=
  ∃ t, exec i s = .next t
    ∧ (∀ l ∈ s.actors i, ∀ r, r < 256 → t.reg s.issTeam l r = f l r)
    ∧ (∀ k, (∀ l ∈ s.actors i, ∀ r, r < 256 → k ≠ regKey s.issTeam l r) → t.regs.get 0 k = s.regs.get 0 k)
    ∧ LanesOnly s.issue.part s t

/-- A register word after a write of one predicate (R142, R169): predicate p0 is not written. -/
def putPred (p : Pred) (b : Bool) (r old : Nat) : Nat :=
  if p.val = 0 ∨ r ≠ p.val / 32 then old
  else if b then old ||| 2 ^ (p.val % 32)
  else old &&& (0xFFFFFFFF - 2 ^ (p.val % 32))

/-- A fixed predicate result with flags (R142, R143, R169). -/
def WritesPred (i : Instr) (s : State) (p : Pred) (v : Nat → Bool × Nat) : Prop :=
  Leaves i s fun l r =>
    putPred p (v l).1 r (s.reg s.issTeam l r) ||| (if r = 255 then (v l).2 else 0)

/-- Deferred results (R171, R195): the instruction answers a next state with new deferred writes, for each
lane of `ls` those that `f` lists as register, bits, value and flags; no register changes yet, and the frame
of `LanesOnly` holds. -/
def Posts (i : Instr) (s : State) (ls : List Nat) (f : Nat → List (Nat × Nat × Nat × Nat)) : Prop :=
  ∃ t new, exec i s = .next t ∧ t.defs = s.defs ++ new
    ∧ new.map (fun d => (d.team, d.lane, d.reg, d.mask, d.val, d.flags))
        = ls.flatMap (fun l => (f l).map fun x => (s.issTeam, l, x.1, x.2.1, some x.2.2.1, x.2.2.2))
    ∧ t.regs = s.regs ∧ LanesOnly s.issue.part s t

/-- A deferred word, or pair, of one register operand. -/
def wordPost (wide : Bool) (d : Reg) (v : Nat) : List (Nat × Nat × Nat × Nat) :=
  (d.val, 0xFFFFFFFF, v % 2 ^ 32, 0) ::
    if wide then [(d.val + 1, 0xFFFFFFFF, v / 2 ^ 32 % 2 ^ 32, 0)] else []

/-- A deferred predicate: one bit, nothing for p0. -/
def predPost (p : Pred) (b : Bool) : List (Nat × Nat × Nat × Nat) :=
  if p.val = 0 then []
  else [(p.val / 32, 2 ^ (p.val % 32), if b then 2 ^ (p.val % 32) else 0, 0)]

/-! ## Integer words -/

/-- A word under an integer type: signed under `.i32`, unsigned under `.n32` (R172). -/
def ITy.int (ty : ITy) (x : Word) : Int :=
  match ty with
  | .i32 => x.toInt
  | .n32 => x.toNat

/-- A word widened under an integer type. -/
def ITy.widen (ty : ITy) (x : Word) : DWord :=
  match ty with
  | .i32 => x.signExtend 64
  | .n32 => x.setWidth 64

/-- The nearest value of an integer type (R172). -/
def ITy.clamp (ty : ITy) (x : Int) : Word :=
  match ty with
  | .i32 => if x < -2147483648 then 0x80000000#32 else if 2147483647 < x then 0x7FFFFFFF#32 else BitVec.ofInt 32 x
  | .n32 => if x < 0 then 0#32 else if 4294967295 < x then 0xFFFFFFFF#32 else BitVec.ofInt 32 x

/-- The comparisons of `icmp` (R172). -/
def Cond.Holds (c : Cond) (x y : Int) : Prop :=
  match c with
  | .eq => x = y
  | .ne => x ≠ y
  | .lt => x < y
  | .le => x ≤ y
  | .gt => x > y
  | .ge => x ≥ y

/-- The comparisons of `cmp64`: signed 2 to 5, unsigned 6 to 9 (R172). -/
def Cond64.Holds (c : Cond64) (x y : DWord) : Prop :=
  match c with
  | .eq => x = y
  | .ne => x ≠ y
  | .lt => x.toInt < y.toInt
  | .le => x.toInt ≤ y.toInt
  | .gt => x.toInt > y.toInt
  | .ge => x.toInt ≥ y.toInt
  | .ltu => x.toNat < y.toNat
  | .leu => x.toNat ≤ y.toNat
  | .gtu => x.toNat > y.toNat
  | .geu => x.toNat ≥ y.toNat

/-! ## Segments and posters -/

/-- The issuing part. -/
def State.issPart (s : State) : Part := s.part s.issue.part

/-- The segment width of the issuing part (R222). -/
def State.segWidthAt (s : State) (seg : Seg) : Nat := segWidth (s.img s.issTeam).lg16 s.issPart.width seg

/-- The lanes that take part for lane `l` (R222, R223): the guarded-active lanes of its segment that are no
helper lanes. -/
def State.peers (s : State) (i : Instr) (seg : Seg) (l : Nat) : List Nat :=
  (s.actors i).filter fun x => !s.isHelper s.issTeam x
    && (x - s.issPart.lo) / s.segWidthAt seg = (l - s.issPart.lo) / s.segWidthAt seg

/-- The guarded-active lanes that are no helper lanes. -/
def State.participantsOf (s : State) (i : Instr) : List Nat :=
  (s.actors i).filter fun l => !s.isHelper s.issTeam l

/-- The lane that posts for its part: the lowest guarded-active lane that is no helper lane (R94). -/
def State.posterOf (s : State) (i : Instr) : Option Nat := (s.participantsOf i).head?

/-- A register word, or pair, of lane `l` of the part as read for slot `slot`; a vacant lane reads as 0
(R137, R223). -/
def State.crossRead (s : State) (wide : Bool) (slot l : Nat) (r : Reg) : Nat :=
  if s.isLane s.issTeam l then (if wide then s.src64 slot l r else s.src slot l r) else 0

/-- The issuing part has a new operation on a path, the last of its list (R102). -/
def RaisesArrival (s t : State) (path : Path) : Prop :=
  (t.part s.issue.part).ops = s.issPart.ops ++ [{ id := s.nextId, path := path }]

/-- The mask of word `k` of the part for some lanes (R213, R228). -/
def State.maskOf (s : State) (k : Nat) (ls : List Nat) : Nat :=
  ofBits 32 fun b => ls.contains (s.issPart.lo + 32 * k + b)

/-- The word of the part that holds a lane. -/
def State.wordOf (s : State) (l : Nat) : Nat := (l - s.issPart.lo) / 32

/-! ## Memory instructions -/

/-- Sampling is off (R371), so that a memory-class instruction writes no sample record. -/
def State.noSampling (s : State) : Prop := bits s.smpctl 0 16 = 0

/-- The accesses that a lane memory instruction performs, read at its issue (R116, R120, R125). -/
def State.requestsOf (s : State) : Instr → List Req
  | .ld h d a off sz sp acq ca => s.issued.ldReqs (s.opCtx h) d a off sz sp acq ca
  | .st h d a off sz sp rel ca => s.issued.stReqs (s.opCtx h) d a off sz sp rel ca
  | .atom h d a b x op ty rnd sp ord => s.issued.atomReqs (s.opCtx h) (some d.val) a b x op ty rnd sp ord
  | .red h a b op ty rnd sp ord => s.issued.atomReqs (s.opCtx h) none a b b op ty rnd sp ord
  | .ldft h d a b t16 cnt => s.issued.ftReqs (s.opCtx h) d a b t16 (ftCount cnt)
  | _ => []

/-- The instructions by which lanes access memory themselves. -/
def Instr.isLaneAccess : Instr → Bool
  | .ld .. | .st .. | .atom .. | .red .. | .ldft .. => true
  | _ => false

/-- An access of the issuing instruction that its own alignment rule stops (R117, R120, R125). -/
def State.badAlignment (s : State) (i : Instr) : Prop :=
  (∃ r ∈ s.requestsOf i, s.isHelper s.issTeam r.lane = false
      ∧ s.issued.misaligned (s.issued.who s.issue.part) r.acc = true)
    ∨ (match i with
      | .ldft h _ a b _ _ => s.issued.ftMisaligned (s.opCtx h) a b = true
      | _ => False)

/-- The issuing core holds a translation of an address that lets the access through without a further table
access (R42, R44, R53); level H needs none. -/
def State.Translated (s : State) (kind va : Nat) (e : Tlb) : Prop :=
  let w := s.who s.issue.part
  va < 2 ^ 56
    ∧ (if w.lvl = .h then e = physTlb w va
      else (s.core w.core).tlb.find? (fun x => x.hits w.vf w.spid (bit (s.fn w.vf).h2root 0) va) = some e)
    ∧ s.violation e va kind w.lvl (decide (w.master = 4)) = none
    ∧ e.acc = true ∧ e.dirty = true

/-- One acting lane `l` whose aligned access `a` goes to the die's own memory at `pa`, which no stash and no guest
owns and no commit has locked, and which no earlier access of the lane holds up (R31, R49, R62, R108). -/
structure HomeAccess (s : State) (i : Instr) (l : Nat) (a : Access) (pa : Nat) : Prop where
  issues : Issues i s
  sampling : s.noSampling
  lanes : s.actors i = [l]
  own : s.isHelper s.issTeam l = false
  held : ∀ h ∈ s.held, ¬(h.team = s.issTeam ∧ h.lane = l)
  commits : ∀ k ∈ s.commits, ¬(teamOf k.part = s.issTeam ∧ k.lane = l)
  windows : ∀ d ∈ s.defs, ¬(d.team = s.issTeam ∧ d.lane = l ∧ d.holds = true)
  global : a.sp = .global
  aligned : a.ea % a.n = 0
  translated : ∃ e, s.Translated a.kind.num a.ea e ∧ e.attr.rep = false ∧ pa = e.pa + a.ea % 2 ^ e.lg
  aligned' : pa % a.n = 0
  hbm : paKind pa = .hbm
  unlocked : s.locks.get 0 (lockKey (pa / 64)) = 0
  guest : ∀ x ∈ s.guest.secs, x.1 = pa / 64 → x.2.owned = false
  unowned : s.owners.get 0 (pa / 64) = 0

/-- What an engine or unit instruction leaves alone at its issue: registers, memory, the functions' registers and
every other part. -/
def Quiet (s t : State) : Prop :=
  t.regs = s.regs ∧ t.mem = s.mem ∧ t.fns = s.fns ∧ ∀ q, q ≠ s.issue.part → t.part q = s.part q

/-! ## Events -/

/-- The event answers a next state that `P` describes. -/
def Answers (i : Instr) (s : State) (P : State → Prop) : Prop := ∃ t, exec i s = .next t ∧ P t

/-- The bytes of memory from an address up hold a number, lowest byte first (R6). -/
def State.Holds (s : State) (pa n data : Nat) : Prop := ∀ j, j < n → s.memByte (pa + j) = byteOf data j

/-! ## Traps -/

/-- The part's trap has been taken (R329, R330): it is suspended with the class, a token that was not
outstanding at its ring, and its place kept; its record waits for the ring. -/
def Trapped (s t : State) (p cls : Nat) : Prop :=
  ∃ u x, (t.part p).life = .suspended ∧ (t.part p).susp = some u ∧ u.cls = cls
    ∧ u.token ∉ s.tokens (s.trapRing (teamOf p)) ∧ 1 ≤ u.token ∧ u.token < 2 ^ 16
    ∧ t.trapOuts = s.trapOuts ++ [x] ∧ x.part = p ∧ x.ring = s.trapRing (teamOf p)
    ∧ bits x.record 0 16 = u.token ∧ bits x.record 16 5 = cls
    ∧ t.regs = s.regs ∧ t.mem = s.mem ∧ t.defs = s.defs ∧ t.lanes = s.lanes
    ∧ ∀ q, q ≠ p → t.part q = s.part q

/-- A trap at level H has been taken (R326, R365): the part is frozen, the H teams of its die have stopped, and the
management interface reports the class. -/
def StoppedH (s t : State) (p cls : Nat) : Prop :=
  let d := dieOf (s.coreOf p)
  (t.part p).life = .frozen ∧ (t.die d).hStopped = true ∧ (t.die d).fail = true ∧ (t.die d).why = 3
    ∧ (t.die d).cls = cls ∧ t.mgmt = s.mgmt ++ [(d, 3, cls)] ∧ t.trapOuts = s.trapOuts
    ∧ t.regs = s.regs ∧ t.mem = s.mem ∧ t.defs = s.defs ∧ t.lanes = s.lanes
    ∧ ∀ q, q ≠ p → t.part q = s.part q

/-- The latched instruction takes a trap of class `cls`, at whichever level its part runs (R326, R329). -/
def TakesTrap (i : Instr) (s : State) (cls : Nat) : Prop :=
  ∃ t, exec i s = .next t
    ∧ ((s.launchAt s.issue.part).level ≠ .h → (s.tokens (s.trapRing s.issTeam)).length < 65535 →
        Trapped s t s.issue.part cls)
    ∧ ((s.launchAt s.issue.part).level = .h → StoppedH s t s.issue.part cls)

end Sys2Proof.Machine
end

