-- ==== Sys2Proof/Certificates/Slice0/Obligations.lean ====
section
/-! DEFINITION. The statements about this model that are to be proved. Each docstring cites what it formalises:
a numbered rule of the spec, or the chapter that it follows from. -/

open Sys2Proof Sys2Proof.Machine

/-! ## Encoding -/

/-- DECODE AND ENCODE AGREE. Every lane instruction that keeps the register rules decodes, from the words that
it encodes to, as itself, with every operand at every value that its fields admit (R14 to R17, and each
instruction's own encoding). -/
def Obligations.EncodeDecodeRoundTrip : Prop :=
  ∀ i : Instr, i.isLane = true → i.wf = true → decodeNat (encode i) = .ok i

/-- What decodes is well formed and encodes to the words that it was decoded from, so that no bit of a word is
passed over (R15, R17). -/
def Obligations.DecodedIsWellFormed : Prop :=
  ∀ (w : Nat) (i : Instr), decodeNat w = .ok i → i.isLane = true ∧ i.wf = true ∧ encode i = w

/-- Words that the spec works out: `nop` as `hzas` pads with it (R18), `(p0) lop3 v5, v6, v7, v8, 0xE8 !0`
(chapter 09), a word of zeros (R17), and `(p1) go done` of the worked sweep with `done` as label 5. -/
def Obligations.WorkedWordsDecode : Prop :=
  decodeNat 0x0010000000000000 = .ok (.nop ⟨false, false, 0⟩)
    ∧ decodeNat 0x09500050607080E8 = .ok (.lop3 ⟨false, false, 0⟩ 5 6 7 8 0xE8)
    ∧ decodeNat 0 = .error .unassigned
    ∧ decodeNat 0x0020100000000005 = .ok (.go ⟨false, false, 1⟩ 5)

/-- R16: a long form occupies the whole fetch word; a long-form opcode in slot 1, or a long form whose slot 0
has P set, is rejected. R14: P is 0 in slot 1. -/
def Obligations.FetchWordForms : Prop :=
  ∀ w : Nat,
    (0x380 ≤ bits w 116 10 → decodeFetch w true = .error .longInSlot1)
    ∧ (0x380 ≤ bits w 52 10 → bit w 62 = true → decodeFetch w false = .error .pairBit)
    ∧ (bits w 52 10 < 0x380 → bit w 62 = true → 0x380 ≤ bits w 116 10 →
        decodeFetch w false = .error .longInSlot1)
    ∧ (bits w 116 10 < 0x380 → bit w 126 = true →
        decodeFetch w true = .error .pairBit
          ∧ (bits w 52 10 < 0x380 → bit w 62 = true → decodeFetch w false = .error .pairBit))
    ∧ (∀ i j, decodeFetch w false = .ok (.one i) → i.isLong = true → 0x380 ≤ bits w 52 10
        ∧ decodeNat (bits w 0 128) = .ok i ∧ decodeFetch w false ≠ .ok (.pair i j))

/-! ## The step -/

/-- A step carries out the event that stands next on the agenda, and takes it off (chapter 95, R1). What
arrives at a port is logged while the device records and the log has room, and while it replays arrives only
as the log gives it (R374, R375). That events stand on an agenda is the model's choice (log 4), and so are the
form of the log and of its records, the end of a log that is full and ENDT (log 93). With nothing on the
agenda the global tick advances by one, or the armed stop, or a thermal trip, takes hold at the end of the
tick it is due (R368, R372, R381). The empty agenda as the end of a tick is the model's choice (log 4), and so
is the place of a stop and of a trip at the end of their tick (logs 58, 88). While the clocks are gated the
device holds its state: a step changes nothing, unless GO, a device reset or the cooling of a die is on the
agenda (R372, R381). That what else the agenda lists stays there is the model's own (logs 58, 88). -/
def Obligations.AgendaRuns : Prop :=
  (∀ (s : State) (i : Instr) (rest : List Move), s.stopped = false → s.agenda = .event i :: rest →
     i.isLane = false →
     let a : State := { s with agenda := rest }
     ((isArrival i = false ∨ (s.recording = false ∧ s.playing = false)) → step s = exec i a)
     ∧ (isArrival i = true → s.recording = true → s.playing = false → s.rclog.length < s.logRoom →
         step s = exec i { a with rclog := s.rclog ++ [(s.tick, .arrival i)], endt := s.tick })
     ∧ (isArrival i = true → s.recording = true → s.playing = false → s.logRoom ≤ s.rclog.length →
         step s = exec i { a with recording := false, rcsts := s.rcsts ||| 1 })
     ∧ (isArrival i = true → s.playing = true → (s.tick, .arrival i) ∉ s.rclog → s.linkFails i = false →
         step s = .next a)
     ∧ (isArrival i = true → s.playing = true → (s.tick, .arrival i) ∉ s.rclog → s.linkFails i = true →
         step s = .next { a with rcsts := s.rcsts ||| 2, haltDue := true })
     ∧ (isArrival i = true → s.playing = true → (s.tick, .arrival i) ∈ s.rclog →
         step s = exec i { a with rclog := s.rclog.erase (s.tick, .arrival i), endt := s.tick }))
  ∧ (∀ s : State, s.stopped = false → s.agenda = [] → (s.playing = false ∨ s.rclog ≠ []) →
       ∃ t, step s = .next t
         ∧ (s.tripDue = false → s.haltDue = false → (s.stopDue = 0 ∨ s.tick < s.stopDue) → t.tick = s.tick + 1 ∧ t.stopped = false)
         ∧ (s.tripDue = false → (s.haltDue = true ∨ s.stopDue ≠ 0 ∧ s.stopDue ≤ s.tick) → t.tick = s.tick ∧ t.stopped = true)
         ∧ (s.tripDue = true → t.tick = s.tick ∧ t.stopped = true ∧ t.trip = true))
  ∧ (∀ s : State, s.stopped = true → (∀ m ∈ s.agenda, m.actsStopped = false) → step s = .next s)

/-- A STEP RUNS THE DECODED INSTRUCTION. A core whose one candidate part finds, at its place in the
instruction cache, the fetch word `w`, which decodes to one instruction, runs that instruction: it is well
formed, it runs at a latch that names the part and the slot after it, and around it the step only counts the
issue and the choice (R16, R197, R267, R369), or the park. A step of a core whose one candidate part finds a
pair issues the pair (R20, R21), with the same counts. -/
def Obligations.StepRunsDecodedInstruction : Prop :=
  (∀ (s s0 s1 : State) (core p w : Nat) (busy : List Nat) (rest : List Move) (i : Instr),
     s.stopped = false → s.agenda = .issue core busy :: rest →
     let a : State := { s with agenda := rest }
     let off := (s0.part p).off
     let next := if i.isLong then off + 16 else off + 8
     (a.resumeParts (a.corePartIds core)).runSeconds core = .next s0 →
     core < 256 → (core % 64 = 0 ∨ s0.released = true) → (s0.core core).issuedNow = false →
     (s0.core core).slotsLeft = 0 → (s0.core core).withheld = false → (s0.core core).trbuf.length < traceBuffer →
     s0.candidates core busy = [p] → (∀ h ∈ s0.held, h.part ≠ p) → (s0.part p).second = none →
     off < (s0.launchAt p).img.code →
     ¬((s0.launchAt p).prologue = true ∧ 4096 ≤ (s0.launchAt p).issued) →
     (s0.fenceEnds p).fetchWord p off = (s1, .word w) → (s1.part p).life = .live →
     decodeFetch w (decide (off % 16 = 8)) = .ok (.one i) →
     i.wf = true ∧ ∃ t, exec i (s1.latch p next .single none) = .next t
       ∧ step s = .next (
           if t.waiting p then t.notePark s0 core p
           else
             let u := if t.committed p then
                 t.noteIssue core (s0.launchOf (teamOf p)) (.one i) (s0.slots' p (.one i)) else t
             { ((u.notePark s0 core p).notePassed [s0.readyOf core p (.one i)] p).killDead with issue := {} }))
  ∧ (∀ (s s0 s1 : State) (core p w : Nat) (busy : List Nat) (rest : List Move) (i j : Instr),
       s.stopped = false → s.agenda = .issue core busy :: rest →
       let a : State := { s with agenda := rest }
       let off := (s0.part p).off
       (a.resumeParts (a.corePartIds core)).runSeconds core = .next s0 →
       core < 256 → (core % 64 = 0 ∨ s0.released = true) → (s0.core core).issuedNow = false →
       (s0.core core).slotsLeft = 0 → (s0.core core).withheld = false → (s0.core core).trbuf.length < traceBuffer →
       s0.candidates core busy = [p] → (∀ h ∈ s0.held, h.part ≠ p) → (s0.part p).second = none →
       off < (s0.launchAt p).img.code →
       ¬((s0.launchAt p).prologue = true ∧ 4096 ≤ (s0.launchAt p).issued) →
       (s0.fenceEnds p).fetchWord p off = (s1, .word w) → (s1.part p).life = .live →
       decodeFetch w (decide (off % 16 = 8)) = .ok (.pair i j) → pairLegal i j = true →
       i.wf = true ∧ j.wf = true ∧ ∃ t, s1.runPair p (off + 16) i j = .next t
         ∧ step s = .next (
             if t.waiting p then t.notePark s0 core p
             else
               let u := if t.committed p then
                   t.noteIssue core (s0.launchOf (teamOf p)) (.pair i j) (s0.slots' p (.pair i j)) else t
               { ((u.notePark s0 core p).notePassed [s0.readyOf core p (.pair i j)] p).killDead with issue := {} }))

/-- R21: both halves of a pair read what stood before the pair. When neither half stops, the pair is the
instruction of one half at the latch and then the other's, whose sources are the registers, the deferred
results and the active set from before the pair; the flags that the first raised are ORed after it. Four
clauses are the model's own reading (log 34): that slot 0's instruction acts first over a snapshot of what
stood before, unless slot 1's manages the stash or stands beside a control instruction of a prologue (R130,
R208; log 120), that slot 1's reads draw free values of their own, that a half whose place follows an access
that the other still has outstanding is kept until that access has its place, and that a half which waits
after all leaves the pair unissued. -/
def Obligations.PairRunsBothHalves : Prop :=
  ∀ (s a b : State) (p next : Nat) (i j : Instr), (s.part p).life = .live →
    s.runOne p next i = .next a → s.bump.runOne p next j = .next b →
    a.waiting p = false → a.stopClass p = none → b.waiting p = false → b.stopClass p = none →
    s.pairFull p next i j = false →
    let flip := s.slot1First p i j
    let x := if flip then j else i
    let y := if flip then i else j
    ∃ t1, exec x ((if flip then s.bump else s).latch p next .first none) = .next t1
      ∧ (let snap : Snap := { regs := s.regs, defs := s.defs, active := s.activeSet p, ops := (s.part p).ops
                              ev := (s.core (s.coreOf p)).ev, fresh := s.fresh + (if flip then 1 else 2) }
         let u : State := { t1 with issue := { t1.issue with half := .second, pre := some snap } }
         (t1.part t1.issue.part).life = .live → u.poisonRead (u.ctx y.hdr) y = [] →
         (placedLast y = true → t1.accessOut p = true →
           s.runPair p next i j = .next (t1.modPart p fun z => { z with second := some { i := y, pre := snap, next := next } }))
         ∧ (placedLast y = false ∨ t1.accessOut p = false → ∃ t2, exec y u = .next t2
             ∧ (t2.waiting p = true → s.runPair p next i j = .next (s.modPart p fun z => { z with wait := (t2.part p).wait }))
             ∧ (t2.waiting p = false → managesStash x = false ∨ t2.stopRank p = none →
                 s.runPair p next i j = .next t2.joinFlags)))

/-- The device never stops with a fault or a refusal: every step from every state answers a next state
(chapter 18: a fault is recorded, a trap is taken, and the device goes on). -/
def Obligations.StepAlwaysGoesOn : Prop := ∀ s : State, ∃ t, step s = .next t

/-- Every step keeps memory in its canonical form: addresses strictly rising, and no entry that holds what an
unlisted address reads as (the model's convention, log 1). -/
def Obligations.MemoryStaysCanonical : Prop :=
  ∀ s t : State, s.Canonical → step s = .next t → t.Canonical

/-- What reset leaves: the global tick is 0 (R368), no queue entry, launch, cluster or part exists, memory
lists nothing, the control registers hold the values that the spec's tables give (R70, R355, R372, R380), and
the clocks run. The values of registers to which the spec gives none are the model's (log 5). -/
def Obligations.ResetState : Prop :=
  State.reset.Canonical ∧ State.reset.tick = 0 ∧ State.reset.stopped = false
    ∧ State.reset.launches = [] ∧ State.reset.clusters = [] ∧ State.reset.parts = []
    ∧ State.reset.mem = [] ∧ State.reset.queues = []
    ∧ State.reset.released = false ∧ State.reset.stopat = 0 ∧ State.reset.pwrlim = 3200
    ∧ ∀ f, (State.reset.fn f).vfctl = 6 ∧ (State.reset.fn f).vfbw = 0x1010 ∧ (State.reset.fn f).l2waym = 0xFFFF
        ∧ (∀ c, (State.reset.core c).clock = 0)

/-! ## Integer and logic instructions -/

/-- R172, the sums and products: written modulo 2^32, or clamped to the operand type under `.sat`. R172, the
wide products: `imulh` gives bits 63 to 32 of the exact product, `imadw` the product added to a 64-bit pair
modulo 2^64. -/
def Obligations.IntegerResults : Prop :=
  (∀ (s : State) (h : Hdr) (d a b c : Reg) (ty : ITy),
     (Issues (.iadd h d a b ty false) s →
       WritesW (.iadd h d a b ty false) s d fun l => s.srcW 0 l a + s.srcW 2 l b)
     ∧ (Issues (.iadd h d a b ty true) s → WritesW (.iadd h d a b ty true) s d fun l =>
         ITy.clamp ty (ITy.int ty (s.srcW 0 l a) + ITy.int ty (s.srcW 2 l b)))
     ∧ (Issues (.isub h d a b ty false) s →
         WritesW (.isub h d a b ty false) s d fun l => s.srcW 0 l a - s.srcW 2 l b)
     ∧ (Issues (.isub h d a b ty true) s → WritesW (.isub h d a b ty true) s d fun l =>
         ITy.clamp ty (ITy.int ty (s.srcW 0 l a) - ITy.int ty (s.srcW 2 l b)))
     ∧ (Issues (.imul h d a b ty false) s →
         WritesW (.imul h d a b ty false) s d fun l => s.srcW 0 l a * s.srcW 2 l b)
     ∧ (Issues (.imul h d a b ty true) s → WritesW (.imul h d a b ty true) s d fun l =>
         ITy.clamp ty (ITy.int ty (s.srcW 0 l a) * ITy.int ty (s.srcW 2 l b)))
     ∧ (Issues (.imad h d a b c ty false) s → WritesW (.imad h d a b c ty false) s d fun l =>
         s.srcW 0 l a * s.srcW 2 l b + s.srcW 4 l c)
     ∧ (Issues (.imad h d a b c ty true) s → WritesW (.imad h d a b c ty true) s d fun l =>
         ITy.clamp ty (ITy.int ty (s.srcW 0 l a) * ITy.int ty (s.srcW 2 l b) + ITy.int ty (s.srcW 4 l c))))
  ∧ (∀ (s : State) (h : Hdr) (d a b c : Reg) (ty : ITy),
       (Issues (.imulh h d a b ty) s → WritesW (.imulh h d a b ty) s d fun l =>
         ((ITy.widen ty (s.srcW 0 l a) * ITy.widen ty (s.srcW 2 l b)) >>> 32).setWidth 32)
       ∧ ((Instr.imadw h d a b c ty).wf = true → Issues (.imadw h d a b c ty) s →
           WritesPair (.imadw h d a b c ty) s d fun l =>
             ITy.widen ty (s.srcW 0 l a) * ITy.widen ty (s.srcW 2 l b) + s.srcD 4 l c))

/-- R175: `lea` adds a scaled index to a 64-bit pair, `add64` adds or subtracts pairs, and `cmp64` compares
two pairs; none of them is an access. -/
def Obligations.AddressArithmetic : Prop :=
  ∀ (s : State) (h : Hdr) (d a b : Reg),
    (∀ (ixs : Bool) (scl : Scale), (Instr.lea h d a b ixs scl).wf = true → Issues (.lea h d a b ixs scl) s →
      WritesPair (.lea h d a b ixs scl) s d fun l =>
        s.srcD 0 l a + (if ixs then (s.srcW 2 l b).signExtend 64 else (s.srcW 2 l b).setWidth 64)
          * (match scl with | .s1 => 1#64 | .s2 => 2#64 | .s4 => 4#64 | .s8 => 8#64 | .s16 => 16#64))
    ∧ (∀ sub : Bool, (Instr.add64 h d a b sub).wf = true → Issues (.add64 h d a b sub) s →
      WritesPair (.add64 h d a b sub) s d fun l =>
        if sub then s.srcD 0 l a - s.srcD 2 l b else s.srcD 0 l a + s.srcD 2 l b)
    ∧ (∀ (p : Pred) (cc : Cond64), (Instr.cmp64 h p a b cc).wf = true → Issues (.cmp64 h p a b cc) s →
      ∃ v : Nat → Bool, (∀ l, v l = true ↔ Cond64.Holds cc (s.srcD 0 l a) (s.srcD 2 l b))
        ∧ WritesPred (.cmp64 h p a b cc) s p fun l => (v l, 0))

/-- R172, choices and moves: minimum and maximum, absolute value and negation with the corner −2^31, selection
by a predicate, and the moves. R172, the shifts: a count of 32 or more shifts every bit out; a rotation and a
funnel shift take their count modulo 32. R172, the logic instructions, bit by bit. -/
def Obligations.LogicShiftsAndMoves : Prop :=
  (∀ (s : State) (h : Hdr) (d a b : Reg) (ty : ITy),
     (Issues (.imin h d a b ty) s → WritesW (.imin h d a b ty) s d fun l =>
       if ITy.int ty (s.srcW 0 l a) ≤ ITy.int ty (s.srcW 2 l b) then s.srcW 0 l a else s.srcW 2 l b)
     ∧ (Issues (.imax h d a b ty) s → WritesW (.imax h d a b ty) s d fun l =>
         if ITy.int ty (s.srcW 0 l a) ≤ ITy.int ty (s.srcW 2 l b) then s.srcW 2 l b else s.srcW 0 l a)
     ∧ (∀ sat, Issues (.iabs h d a sat) s → WritesW (.iabs h d a sat) s d fun l =>
         if s.srcW 0 l a = 0x80000000#32 then (if sat then 0x7FFFFFFF#32 else 0x80000000#32)
         else if (s.srcW 0 l a).toInt < 0 then -s.srcW 0 l a else s.srcW 0 l a)
     ∧ (∀ sat, Issues (.ineg h d a sat) s → WritesW (.ineg h d a sat) s d fun l =>
         if s.srcW 0 l a = 0x80000000#32 then (if sat then 0x7FFFFFFF#32 else 0x80000000#32)
         else -s.srcW 0 l a)
     ∧ (∀ p, Issues (.sel h d a b p) s → WritesW (.sel h d a b p) s d fun l =>
         if s.srcP 4 l p then s.srcW 0 l a else s.srcW 2 l b)
     ∧ (Issues (.mov h d a) s → WritesW (.mov h d a) s d fun l => s.srcW 0 l a)
     ∧ (∀ imm, Issues (.movi h d imm) s → WritesW (.movi h d imm) s d fun _ => imm.signExtend 32)
     ∧ (∀ imm, Issues (.movhi h d a imm) s → WritesW (.movhi h d a imm) s d fun l =>
         imm ++ (s.srcW 0 l a).setWidth 16))
  ∧ (∀ (s : State) (h : Hdr) (d a b c : Reg),
       (Issues (.shl h d a b) s →
         WritesW (.shl h d a b) s d fun l => s.srcW 0 l a <<< (s.srcW 2 l b).toNat)
       ∧ (Issues (.shr h d a b) s →
           WritesW (.shr h d a b) s d fun l => s.srcW 0 l a >>> (s.srcW 2 l b).toNat)
       ∧ (Issues (.sha h d a b) s →
           WritesW (.sha h d a b) s d fun l => (s.srcW 0 l a).sshiftRight (s.srcW 2 l b).toNat)
       ∧ (∀ right, Issues (.rot h d a b right) s → WritesW (.rot h d a b right) s d fun l =>
           if right then (s.srcW 0 l a).rotateRight ((s.srcW 2 l b).toNat % 32)
           else (s.srcW 0 l a).rotateLeft ((s.srcW 2 l b).toNat % 32))
       ∧ (∀ left, Issues (.fsh h d a b c left) s → WritesW (.fsh h d a b c left) s d fun l =>
           let x : DWord := s.srcW 2 l b ++ s.srcW 0 l a
           let n := (s.srcW 4 l c).toNat % 32
           if left then ((x <<< n) >>> 32).setWidth 32 else (x >>> n).setWidth 32))
  ∧ (∀ (s : State) (h : Hdr) (d a b c : Reg),
       (Issues (.iand h d a b) s → WritesW (.iand h d a b) s d fun l => s.srcW 0 l a &&& s.srcW 2 l b)
       ∧ (Issues (.ior h d a b) s → WritesW (.ior h d a b) s d fun l => s.srcW 0 l a ||| s.srcW 2 l b)
       ∧ (Issues (.ixor h d a b) s → WritesW (.ixor h d a b) s d fun l => s.srcW 0 l a ^^^ s.srcW 2 l b)
       ∧ (∀ lut : Fin 256, Issues (.lop3 h d a b c lut) s → ∃ v : Nat → Word,
           (∀ l i, i < 32 → (v l).getLsbD i = (BitVec.ofNat 8 lut.val).getLsbD
             (4 * ((s.srcW 0 l a).getLsbD i).toNat + 2 * ((s.srcW 2 l b).getLsbD i).toNat
               + ((s.srcW 4 l c).getLsbD i).toNat))
           ∧ WritesW (.lop3 h d a b c lut) s d v)
       ∧ (Issues (.popc h d a) s → WritesWord (.popc h d a) s d fun l =>
           ((List.range 32).filter fun i => (s.srcW 0 l a).getLsbD i).length)
       ∧ (Issues (.clz h d a) s → ∃ v : Nat → Nat,
           (∀ l, v l ≤ 32 ∧ (∀ i, i < v l → (s.srcW 0 l a).getMsbD i = false)
             ∧ (v l < 32 → (s.srcW 0 l a).getMsbD (v l) = true))
           ∧ WritesWord (.clz h d a) s d v)
       ∧ (Issues (.ctz h d a) s → ∃ v : Nat → Nat,
           (∀ l, v l ≤ 32 ∧ (∀ i, i < v l → (s.srcW 0 l a).getLsbD i = false)
             ∧ (v l < 32 → (s.srcW 0 l a).getLsbD (v l) = true))
           ∧ WritesWord (.ctz h d a) s d v)
       ∧ (Issues (.brev h d a) s → ∃ v : Nat → Word,
           (∀ l i, i < 32 → (v l).getLsbD i = (s.srcW 0 l a).getLsbD (31 - i)) ∧ WritesW (.brev h d a) s d v))

/-- R174: bit-field extraction and insertion and byte permutation. -/
def Obligations.BitFields : Prop :=
  ∀ (s : State) (h : Hdr) (d a b c : Reg),
    (∀ ty, Issues (.bfx h d a b ty) s → WritesW (.bfx h d a b ty) s d fun l =>
      let pos := ((s.srcW 2 l b).extractLsb' 0 8).toNat
      let len := min ((s.srcW 2 l b).extractLsb' 8 8).toNat 32
      match ty with
      | .i32 => (((s.srcW 0 l a).sshiftRight pos).setWidth len).signExtend 32
      | .n32 => ((s.srcW 0 l a >>> pos).setWidth len).setWidth 32)
    ∧ (Issues (.bfi h d a b c) s → ∃ v : Nat → Word,
        (∀ l k, k < 32 →
          let pos := ((s.srcW 4 l c).extractLsb' 0 8).toNat
          let len := min ((s.srcW 4 l c).extractLsb' 8 8).toNat 32
          (v l).getLsbD k = if pos ≤ k ∧ k < pos + len then (s.srcW 0 l a).getLsbD (k - pos)
            else (s.srcW 2 l b).getLsbD k)
        ∧ WritesW (.bfi h d a b c) s d v)
    ∧ (Issues (.prmt h d a b c) s → ∃ v : Nat → Word,
        (∀ l i, i < 4 →
          let sel := ((s.srcW 4 l c).extractLsb' (4 * i) 4).toNat
          let y : Byte := (s.srcW 2 l b ++ s.srcW 0 l a).extractLsb' (8 * (sel % 8)) 8
          (v l).extractLsb' (8 * i) 8 = if sel < 8 then y else if y.msb then 0xFF#8 else 0x00#8)
        ∧ WritesW (.prmt h d a b c) s d v)

/-- R173: `iadc` adds with a carry that predicate C holds, both in and out; a C field of 0 means carry in 0
and no carry out. -/
def Obligations.CarryAddition : Prop :=
  ∀ (s : State) (h : Hdr) (d a b : Reg) (p : Pred) (sub : Bool), Issues (.iadc h d a b p sub) s →
    let sum (l : Nat) : Nat := (s.srcW 0 l a).toNat
      + (if sub then ~~~(s.srcW 2 l b) else s.srcW 2 l b).toNat
      + (if p.val ≠ 0 ∧ s.srcP 4 l ⟨false, p⟩ = true then 1 else 0)
    Leaves (.iadc h d a b p sub) s fun l r =>
      putPred p (decide (2 ^ 32 ≤ sum l)) r (if r = d.val then sum l % 2 ^ 32 else s.reg s.issTeam l r)

/-- R172, R176, R177: instructions that write one predicate and nothing else but flags. -/
def Obligations.PredicateResults : Prop :=
  ∀ (s : State) (h : Hdr) (p : Pred) (a b : Reg),
    (∀ ty cc, Issues (.icmp h p a b ty cc) s →
      ∃ v : Nat → Bool, (∀ l, v l = true ↔ Cond.Holds cc (ITy.int ty (s.srcW 0 l a)) (ITy.int ty (s.srcW 2 l b)))
        ∧ WritesPred (.icmp h p a b ty cc) s p fun l => (v l, 0))
    ∧ (∀ pa pb op, Issues (.pbit h p pa pb op) s → WritesPred (.pbit h p pa pb op) s p fun l =>
        (match op with
          | .and => s.srcP 0 l pa && s.srcP 2 l pb
          | .or => s.srcP 0 l pa || s.srcP 2 l pb
          | .xor => s.srcP 0 l pa ^^ s.srcP 2 l pb, 0))
    ∧ (∀ cc ftz, Issues (.fcmp h p a b cc ftz) s → WritesPred (.fcmp h p a b cc ftz) s p fun l =>
        fcmpVal cc ftz (s.src 0 l a) (s.src 2 l b))

/-! ## Floating point and conversions -/

/-- R176, R177: the add, multiply and compare group, element by element, with the flags ORed into v255 (R143).
`wordF` reads each element through `.ftz`, takes the exact result of the operation and rounds it once (R155).
R171, R176, R178: the special-function group gives deferred results (R195): the destination keeps its word
until the result arrives, and each result carries its own flags. -/
def Obligations.FloatResults : Prop :=
  (∀ (s : State) (h : Hdr) (d a b c : Reg) (ty : FTy) (rnd : Rnd) (sat ftz : Bool),
     (Issues (.fadd h d a b ty rnd sat ftz) s → WritesF (.fadd h d a b ty rnd sat ftz) s d fun l =>
       wordF ty ⟨rnd, sat, ftz⟩ [s.src 0 l a, s.src 2 l b] (bin (addE rnd)))
     ∧ (Issues (.fsub h d a b ty rnd sat ftz) s → WritesF (.fsub h d a b ty rnd sat ftz) s d fun l =>
         wordF ty ⟨rnd, sat, ftz⟩ [s.src 0 l a, s.src 2 l b] (bin fun x y => addE rnd x y.negate))
     ∧ (Issues (.fmul h d a b ty rnd sat ftz) s → WritesF (.fmul h d a b ty rnd sat ftz) s d fun l =>
         wordF ty ⟨rnd, sat, ftz⟩ [s.src 0 l a, s.src 2 l b] (bin mulE))
     ∧ (Issues (.ffma h d a b c ty rnd sat ftz) s → WritesF (.ffma h d a b c ty rnd sat ftz) s d fun l =>
         packEls (ofFTy ty).width (FTy.els ty) fun e => ffmaElem (ofFTy ty) ⟨rnd, sat, ftz⟩
           (elem (ofFTy ty) (s.src 0 l a) e) (elem (ofFTy ty) (s.src 2 l b) e) (elem (ofFTy ty) (s.src 4 l c) e))
     ∧ (Issues (.fmin h d a b ty ftz) s → WritesF (.fmin h d a b ty ftz) s d fun l =>
         minmaxWord ty false ftz (s.src 0 l a) (s.src 2 l b))
     ∧ (Issues (.fmax h d a b ty ftz) s → WritesF (.fmax h d a b ty ftz) s d fun l =>
         minmaxWord ty true ftz (s.src 0 l a) (s.src 2 l b))
     ∧ (Issues (.fclass h d a ty) s → WritesF (.fclass h d a ty) s d fun l => (fclassVal ty (s.src 0 l a), 0))
     ∧ (Issues (.frnd h d a ty rnd ftz) s → WritesF (.frnd h d a ty rnd ftz) s d fun l =>
         packEls (ofFTy ty).width (FTy.els ty) fun e =>
           frndElem (ofFTy ty) rnd ftz (elem (ofFTy ty) (s.src 0 l a) e))
     ∧ (Issues (.fscale h d a b ty rnd sat ftz) s → WritesF (.fscale h d a b ty rnd sat ftz) s d fun l =>
         wordF ty ⟨rnd, sat, ftz⟩ [s.src 0 l a] (un (scaleE (s.src 2 l b))))
     ∧ (Issues (.fdot2 h d a b c ty rnd sat ftz) s → WritesF (.fdot2 h d a b c ty rnd sat ftz) s d fun l =>
         fdot2Val ty ⟨rnd, sat, ftz⟩ (s.src 0 l a) (s.src 2 l b) (s.src 4 l c)))
  ∧ (∀ (s : State) (h : Hdr) (d a b : Reg) (ty : FTy) (rnd : Rnd) (sat ftz : Bool),
       let word (f : Nat → Nat × Nat) (l : Nat) : List (Nat × Nat × Nat × Nat) :=
         [(d.val, 0xFFFFFFFF, (f l).1, (f l).2)]
       let one (m : Rnd) (f : Ext → Ext × Nat) (l : Nat) := wordF ty ⟨m, sat, ftz⟩ [s.src 0 l a] (un f)
       (Issues (.frcp h d a ty rnd sat ftz) s →
         Posts (.frcp h d a ty rnd sat ftz) s (s.actors (.frcp h d a ty rnd sat ftz)) (word (one rnd rcpE)))
       ∧ (Issues (.frsq h d a ty sat ftz) s →
           Posts (.frsq h d a ty sat ftz) s (s.actors (.frsq h d a ty sat ftz)) (word (one .rne rsqrtE)))
       ∧ (Issues (.fsqrt h d a ty rnd sat ftz) s →
           Posts (.fsqrt h d a ty rnd sat ftz) s (s.actors (.fsqrt h d a ty rnd sat ftz)) (word (one rnd sqrtE)))
       ∧ (Issues (.fdiv h d a b ty rnd sat ftz) s →
           Posts (.fdiv h d a b ty rnd sat ftz) s (s.actors (.fdiv h d a b ty rnd sat ftz)) (word fun l =>
             wordF ty ⟨rnd, sat, ftz⟩ [s.src 0 l a, s.src 2 l b] (bin divE)))
       ∧ (Issues (.fexp2 h d a ty sat ftz) s →
           Posts (.fexp2 h d a ty sat ftz) s (s.actors (.fexp2 h d a ty sat ftz)) (word (one .rne exp2E)))
       ∧ (Issues (.flog2 h d a ty sat ftz) s →
           Posts (.flog2 h d a ty sat ftz) s (s.actors (.flog2 h d a ty sat ftz)) (word (one .rne log2E)))
       ∧ (Issues (.fsin h d a ty sat ftz) s →
           Posts (.fsin h d a ty sat ftz) s (s.actors (.fsin h d a ty sat ftz)) (word (one .rne sinE)))
       ∧ (Issues (.fcos h d a ty sat ftz) s →
           Posts (.fcos h d a ty sat ftz) s (s.actors (.fcos h d a ty sat ftz)) (word (one .rne cosE)))
       ∧ (Issues (.ftanh h d a ty sat ftz) s →
           Posts (.ftanh h d a ty sat ftz) s (s.actors (.ftanh h d a ty sat ftz)) (word (one .rne tanhE))))

/-- R179 to R182: `cvt`, `pack`, `unpk`, `qnt` and `dqn` write their word, pair or group and OR their flags. -/
def Obligations.Conversions : Prop :=
  ∀ (s : State) (h : Hdr) (d a b : Reg) (rnd : Rnd) (sat ftz : Bool),
    (∀ dst src, (Instr.cvt h d a dst src rnd sat ftz).wf = true → Issues (.cvt h d a dst src rnd sat ftz) s →
      let r (l : Nat) := cvtVal dst src ⟨rnd, sat, ftz⟩ (if src.wide then s.src64 0 l a else s.src 0 l a)
      if dst.wide then
        Writes (.cvt h d a dst src rnd sat ftz) s [d.val, d.val + 1]
          (fun l q => if q = d.val then (r l).1 else (r l).1 / 2 ^ 32) fun l => (r l).2
      else WritesF (.cvt h d a dst src rnd sat ftz) s d r)
    ∧ (∀ tc, (Instr.pack h d a tc rnd sat ftz).wf = true → Issues (.pack h d a tc rnd sat ftz) s →
        WritesF (.pack h d a tc rnd sat ftz) s d fun l =>
          packVal tc ⟨rnd, sat, ftz⟩ ((List.range (packCount tc)).map fun k => s.src k l (a.val + k)))
    ∧ (∀ tc, (Instr.unpk h d a tc).wf = true → Issues (.unpk h d a tc) s →
        WritesGroup (.unpk h d a tc) s d (packCount tc) (fun l k => (unpkElem tc (s.src 0 l a) k).1) fun l =>
          ((List.range (packCount tc)).map (unpkElem tc (s.src 0 l a))).foldl (fun f r => f ||| r.2) 0)
    ∧ (∀ tc, (Instr.qnt h d a b tc rnd sat ftz).wf = true → Issues (.qnt h d a b tc rnd sat ftz) s →
        WritesF (.qnt h d a b tc rnd sat ftz) s d fun l =>
          qntVal tc ⟨rnd, sat, ftz⟩ ((List.range (packCount tc)).map fun k => s.src k l (a.val + k))
            (s.src 16 l b))
    ∧ (∀ tc, (Instr.dqn h d a b tc rnd ftz).wf = true → Issues (.dqn h d a b tc rnd ftz) s →
        let e (l k : Nat) := dqnElem tc ⟨rnd, false, ftz⟩ (s.src 0 l a) (s.src 16 l b) k
        WritesGroup (.dqn h d a b tc rnd ftz) s d (packCount tc) (fun l k => (e l k).1) fun l =>
          ((List.range (packCount tc)).map (e l)).foldl (fun f r => f ||| r.2) 0)

/-- R183: `plx` writes plane words, bit e of plane p being bit 7 − p of element e; `pli` writes the elements
that plane words hold. -/
def Obligations.PlaneWords : Prop :=
  ∀ (s : State) (h : Hdr) (d a : Reg) (k : Fin 16),
    ((Instr.plx h d a k).wf = true → Issues (.plx h d a k) s → ∃ v : Nat → Nat → Word,
      (∀ l p e, p < 8 → e < 32 →
        (v l p).getLsbD e = (BitVec.ofNat 32 (s.src (e / 4) l (a.val + e / 4))).getLsbD (8 * (e % 4) + (7 - p)))
      ∧ WritesGroup (.plx h d a k) s d k.val (fun l p => (v l p).toNat) fun _ => 0)
    ∧ ((Instr.pli h d a k).wf = true → Issues (.pli h d a k) s → ∃ v : Nat → Nat → Word,
        (∀ l w j, w < 8 → j < 4 →
          let q := (List.range k.val).foldl (fun q p => 2 * q
            + bits (s.src p l (a.val + p)) (4 * w + j) 1) 0
          (v l w).extractLsb' (8 * j) 8 = BitVec.ofInt 8 (sint k.val q * 2 ^ (8 - k.val)))
        ∧ WritesGroup (.pli h d a k) s d 8 (fun l w => (v l w).toNat) fun _ => 0)

/-! ## Control and width -/

/-- R201 to R204: each instruction that changes wanted labels gives every acting lane its target, and `call`
and `calli` write the return id first. No memory, no other lane and no other part changes, unless a lane
exits. The lanes of a prologue that do not all exit depart as any do. R262, R263: the exit of a prologue's
lane ends the prologue: its launch is taken back when `plcan` has cancelled it, and waits to be placed when
its values are in order. R200, R202, R203: a label id from a register that the kernel does not have raises
class 3, and INFO holds the id of the lowest such lane (R330); nothing is written. At level H the trap stops
the H teams of the die, and the management interface reports class 3 (R326, R365). -/
def Obligations.Departures : Prop :=
  (∀ (s : State) (h : Hdr) (d a : Reg) (p : PSrc) (l1 l2 ret : Lbl),
     let stays (i : Instr) (f : Nat → Nat) : Prop := (s.launchAt s.issue.part).prologue = false
       ∨ ∃ l ∈ s.actors i, l ∈ s.partLanes s.issue.part ∧ (s.lane (laneId s.issTeam l)).kind ≠ .vacant ∧ f l ≠ 4095
     let goes (i : Instr) (f : Nat → Nat) : Prop := stays i f → ∃ t, exec i s = .next t
       ∧ (∀ l ∈ s.actors i, (t.lane (laneId s.issTeam l)).wl = f l)
       ∧ t.regs = s.regs ∧ t.mem = s.mem
       ∧ ((∀ l ∈ s.actors i, f l ≠ 4095 ∧ l ∈ s.partLanes s.issue.part) → LanesOnly s.issue.part s t)
     let calls (i : Instr) (f : Nat → Nat) : Prop := stays i f → ∃ t, exec i s = .next t
       ∧ (∀ l ∈ s.actors i, (t.lane (laneId s.issTeam l)).wl = f l ∧ t.reg s.issTeam l d = ret.val)
       ∧ (∀ k, (∀ l ∈ s.actors i, k ≠ regKey s.issTeam l d) → t.regs.get 0 k = s.regs.get 0 k)
       ∧ t.mem = s.mem
       ∧ ((∀ l ∈ s.actors i, f l ≠ 4095 ∧ l ∈ s.partLanes s.issue.part) → LanesOnly s.issue.part s t)
     let target (l : Nat) : Nat := bits (s.src 0 l a) 0 12
     (Issues (.go h l1) s → goes (.go h l1) fun _ => l1.val)
     ∧ (Issues (.gosel h p l1 l2) s →
         goes (.gosel h p l1 l2) fun l => if s.srcP 0 l p then l1.val else l2.val)
     ∧ (Issues (.goi h a) s → (∀ l ∈ s.actors (.goi h a), labelValid (s.img s.issTeam) (target l) = true) →
         goes (.goi h a) target)
     ∧ (Issues (.call h d l1 ret) s → calls (.call h d l1 ret) fun _ => l1.val)
     ∧ (Issues (.calli h d a ret) s →
         (∀ l ∈ s.actors (.calli h d a ret), labelValid (s.img s.issTeam) (target l) = true) →
         calls (.calli h d a ret) target)
     ∧ (Issues (.exit h) s → goes (.exit h) fun _ => 4095))
  ∧ (∀ (s : State) (h : Hdr) (g n : Nat), Issues (.exit h) s →
       let p := s.issue.part
       let l := (s.node g n).launch
       (s.launchAt p).prologue = true → (s.launchAt p).node = some (g, n) → l ≠ s.launchOf (teamOf p) →
       (∀ k ∈ s.partLanes p, k ∈ s.actors (.exit h) ∨ (s.lane (laneId (teamOf p) k)).wl = 4095) →
       ((s.node g n).cancel = true → Answers (.exit h) s fun t =>
           (t.node g n).st = .done ∧ (t.launch l).st = .absent ∧ t.mem = s.mem ∧ t.regs = s.regs)
       ∧ ((s.node g n).cancel = false → (s.node g n).bad = false → (s.launch l).geomOk = true →
           (s.launch l).holdable = true → Answers (.exit h) s fun t =>
             (t.launch l).st = .pending ∧ (t.node g n).st = (s.node g n).st ∧ t.mem = s.mem ∧ t.regs = s.regs))
  ∧ (∀ (s : State) (h : Hdr) (d a : Reg) (ret : Lbl) (l : Nat) (i : Instr), i = .goi h a ∨ i = .calli h d a ret →
       Issues i s → l ∈ s.actors i →
       let p := s.issue.part
       let id (k : Nat) := bits (s.src 0 k a) 0 12
       labelValid (s.img s.issTeam) (id l) = false →
       (∀ k ∈ s.actors i, k < l → labelValid (s.img s.issTeam) (id k) = true) →
       TakesTrap i s 3
       ∧ ((s.launchAt p).level ≠ .h → Answers i s fun t => ∃ x token frz words, t.trapOuts = s.trapOuts ++ [x]
           ∧ x.record = s.trapRecord p token 3 frz s.issue.off (id l) words))

/-- R18, R205, R206, R129, R132: instructions that change nothing of a lane. `nop` has no effect; `beat`
restarts the watchdog of a persistent launch; `ipref` only asks for line fills; `fence` within one core's
order and `waitc`, once their condition holds, only go on. R131, R132, R133, R134: `pfd` changes no register
and takes no trap; `cntq` writes the number of instructions on its path that have not arrived, without the
other half of its pair; `fence.sys` goes on once every access of its lanes is performed. -/
def Obligations.PassingInstructions : Prop :=
  (∀ (s : State) (h : Hdr) (l : Lbl) (n : Fin 16) (a : Reg) (path : Path) (sco : Scope),
     (Issues (.nop h) s → ∃ t, exec (.nop h) s = .next t ∧ t.regs = s.regs ∧ t.defs = s.defs
       ∧ LanesOnly s.issue.part s t)
     ∧ (Issues (.beat h) s → ∃ t, exec (.beat h) s = .next t ∧ t.regs = s.regs ∧ t.mem = s.mem
         ∧ (s.actors (.beat h) ≠ [] → (s.img s.issTeam).pers = true →
             t.launch (s.launchOf s.issTeam) = { s.launch (s.launchOf s.issTeam) with watch := some 0 })
         ∧ (s.actors (.beat h) = [] ∨ (s.img s.issTeam).pers = false → LanesOnly s.issue.part s t))
     ∧ (Issues (.ipref h l n) s → ∃ t, exec (.ipref h l n) s = .next t ∧ t.regs = s.regs ∧ t.mem = s.mem
         ∧ t.defs = s.defs ∧ LanesOnly s.issue.part { s with fills := t.fills } t)
     ∧ (Issues (.waitc h a path) s → s.noSampling → ∃ t, exec (.waitc h a path) s = .next t ∧ t.regs = s.regs
         ∧ t.defs = s.defs ∧ LanesOnly s.issue.part s t)
     ∧ (Issues (.fence h sco) s → s.noSampling → ∃ t, exec (.fence h sco) s = .next t ∧ t.regs = s.regs
         ∧ t.defs = s.defs ∧ LanesOnly s.issue.part s t))
  ∧ (∀ (s : State) (h : Hdr) (d a : Reg) (off : BitVec 16) (var : PfVar) (path : Path), s.noSampling →
       (Issues (.pfd h a off var) s → ∃ t, exec (.pfd h a off var) s = .next t ∧ t.regs = s.regs ∧ t.defs = s.defs
         ∧ (∀ q, t.part q = { t.part q with ops := (s.part q).ops, susp := (s.part q).susp, life := (s.part q).life }))
       ∧ (Issues (.cntq h d path) s → WritesWord (.cntq h d path) s d fun _ =>
           ((match s.issue.pre with
             | some x => x.ops
             | none => s.issPart.ops).filter fun o : Op => o.path = path).length)
       ∧ (Issues (.fenceSys h) s → ∃ t, exec (.fenceSys h) s = .next t ∧ t.regs = s.regs ∧ t.mem = s.mem
           ∧ t.defs = s.defs
           ∧ (s.issue.half ≠ .second → ∀ x ∈ t.undo, ∀ o ∈ s.issPart.ops, o.id = x.1 / 1024 →
               x.1 % 1024 ∉ s.actors (.fenceSys h))))

/-- R207, R329, R330, R340: `trap`, `brk` and `sys` take their trap as their effect: the part stops after the
instruction with a fresh token, and the record of its class goes out to its ring. `brk` acts only while
DBGCTL.BRK is set. At level H the trap stops the H teams of the die (R326). -/
def Obligations.ServiceTrapsTaken : Prop :=
  ∀ (s : State) (h : Hdr) (d : Reg) (code : BitVec 16),
    (Issues (.trap h code) s → s.actors (.trap h code) ≠ [] → TakesTrap (.trap h code) s 9)
    ∧ (Issues (.brk h code) s → s.actors (.brk h code) ≠ [] → bit (s.fn (s.vfOf s.issTeam)).dbgctl 0 = true →
        TakesTrap (.brk h code) s 11)
    ∧ (Issues (.brk h code) s → bit (s.fn (s.vfOf s.issTeam)).dbgctl 0 = false →
        ∃ t, exec (.brk h code) s = .next t ∧ t.regs = s.regs ∧ LanesOnly s.issue.part s t)
    ∧ (Issues (.sys h d code) s → s.participantsOf (.sys h d code) ≠ [] →
        TakesTrap (.sys h d code) s 10)
    ∧ (Issues (.sys h d code) s → s.participantsOf (.sys h d code) ≠ [] → (s.launchAt s.issue.part).level ≠ .h →
        ∃ t, exec (.sys h d code) s = .next t
          ∧ ((t.part s.issue.part).susp.map fun u => (u.dest, u.lanes, u.next))
              = some (d.val, s.actors (.sys h d code), s.issue.next))

/-- R215: `split` divides its part into 2^n equal parts, each with its own range, and writes 0; otherwise it
changes nothing and writes the code of the first reason that applies. R217: what `fuse` and `fuset` write when
they do not join: 4 for the full width, 3 where no sibling of the same range stands, 1 where it has retired, 6
where `fuset` finds that it has not arrived. R217, R218: when the sibling waits at `fuse` with the same label
and nothing stands against it, the two parts become one of twice the width, from the lower of their two first
lanes, and every lane that arrived wants the label. Two things here are the model's readings and no words of
the rules: that a `fuset` joins a sibling that waits (log 62), and that a sibling which class 12 has suspended
still meets the one that arrives (log 108). -/
def Obligations.SplitAndFuse : Prop :=
  (∀ (s : State) (h : Hdr) (d : Reg) (n : Fin 16), Issues (.split h d n) s → s.actors (.split h d n) ≠ [] →
     let p := s.issue.part
     let w := s.issPart.width / 2 ^ n.val
     (s.issued.splitCode p n.val ≠ 0 → WritesWord (.split h d n) s d fun _ => s.issued.splitCode p n.val)
     ∧ (w < 4 → s.issued.splitCode p n.val = 1)
     ∧ (s.issued.splitCode p n.val = 0 → ∃ t, exec (.split h d n) s = .next t ∧ t.mem = s.mem
         ∧ (∀ j, j < 2 ^ n.val →
             (t.part (s.issTeam * 1024 + (s.issPart.lo + j * w))).lo = s.issPart.lo + j * w
               ∧ (t.part (s.issTeam * 1024 + (s.issPart.lo + j * w))).width = w)
         ∧ (s.issPart.fuse = none → (∀ q, s.issued.sibling p = some q → (s.part q).fuse = none) →
             (∀ l ∈ s.actors (.split h d n), t.reg s.issTeam l d = 0)
               ∧ ∀ k, (∀ l ∈ s.actors (.split h d n), k ≠ regKey s.issTeam l d) →
                   t.regs.get 0 k = s.regs.get 0 k)))
  ∧ (∀ (s : State) (h : Hdr) (d : Reg) (lb : Lbl) (i : Instr), (i = .fuse h d lb ∨ i = .fuset h d lb) →
       Issues i s → s.actors i ≠ [] →
       (s.issPart.width = 1024 → WritesWord i s d fun _ => 4)
       ∧ (s.issPart.width ≠ 1024 → s.issued.sibling s.issue.part = none → WritesWord i s d fun _ => 3)
       ∧ (∀ q, s.issPart.width ≠ 1024 → s.issued.sibling s.issue.part = some q → (s.issued.part q).life = .retired →
           WritesWord i s d fun _ => 1)
       ∧ (∀ q, s.issPart.width ≠ 1024 → s.issued.sibling s.issue.part = some q →
           (s.issued.part q).life ≠ .retired → (s.issued.part q).fuse = none →
           (i = .fuset h d lb → WritesWord i s d fun _ => 6)
           ∧ (i = .fuse h d lb → ∃ t, exec i s = .next t ∧ (t.part s.issue.part).wait = .fuse
               ∧ (t.part s.issue.part).fuse = some { label := lb.val, dest := d.val, lanes := s.actors i }
               ∧ t.regs = s.regs ∧ t.lanes = s.lanes ∧ t.mem = s.mem)))
  ∧ (∀ (s : State) (h : Hdr) (d : Reg) (lb : Lbl) (i : Instr) (q : Nat) (f : FuseWait),
       (i = .fuse h d lb ∨ i = .fuset h d lb) → Issues i s → s.actors i ≠ [] → s.issPart.width ≠ 1024 →
       s.issued.sibling s.issue.part = some q → (s.issued.part q).life ≠ .retired →
       (s.issued.part q).fuse = some f → f.label = lb.val →
       s.issued.meetCode s.issue.part q lb.val f.label = 0 →
       ∃ t, exec i s = .next t ∧ t.mem = s.mem
         ∧ (t.part (s.issTeam * 1024 + min s.issPart.lo (s.issued.part q).lo)).width = 2 * s.issPart.width
         ∧ (t.part (s.issTeam * 1024 + min s.issPart.lo (s.issued.part q).lo)).lo
             = min s.issPart.lo (s.issued.part q).lo
         ∧ ∀ l, l ∈ s.actors i ∨ l ∈ f.lanes → (t.lane (laneId s.issTeam l)).wl = lb.val)

/-! ## Cross-lane instructions -/

/-- R225: `shuf` gives each acting lane the register of another lane of its segment, as it stands at issue;
the result is deferred. -/
def Obligations.Shuffles : Prop :=
  ∀ (s : State) (h : Hdr) (d a b : Reg) (imm : Fin 256) (var : ShufVar) (wide : Bool) (seg : Seg),
    let from' (l n : Nat) : Nat :=
      let sw := s.segWidthAt seg
      let x := l - s.issPart.lo
      let base := x - x % sw
      s.issPart.lo + (match var with
        | .idx => base + n % sw
        | .up => if n ≤ x % sw then x - n else x
        | .down => if x % sw + n < sw then x + n else x
        | .xor => base + (x % sw ^^^ n % sw))
    (Issues (.shuf h d a b var wide seg) s →
      Posts (.shuf h d a b var wide seg) s (s.actors (.shuf h d a b var wide seg)) fun l =>
        wordPost wide d (s.crossRead wide (64 * (l + 1))
          (from' l (s.src 2 (s.issPart.lo + (l - s.issPart.lo)) b)) a))
    ∧ (Issues (.shufImm h d a imm var wide seg) s →
        Posts (.shufImm h d a imm var wide seg) s (s.actors (.shufImm h d a imm var wide seg)) fun l =>
          wordPost wide d (s.crossRead wide (64 * (l + 1)) (from' l imm) a))

/-- R226: `qswap` and `qbc` act within each quad, whatever the segment. -/
def Obligations.QuadExchanges : Prop :=
  ∀ (s : State) (h : Hdr) (d a : Reg) (var : QsVar) (n : Fin 4) (wide : Bool),
    (Issues (.qswap h d a var wide) s →
      Posts (.qswap h d a var wide) s (s.actors (.qswap h d a var wide)) fun l =>
        wordPost wide d (s.crossRead wide (64 * (l + 1)) (s.issPart.lo + ((l - s.issPart.lo)
          ^^^ (match var with | .h => 1 | .v => 2 | .d => 3))) a))
    ∧ (Issues (.qbc h d a n wide) s →
        Posts (.qbc h d a n wide) s (s.actors (.qbc h d a n wide)) fun l =>
          wordPost wide d (s.crossRead wide (64 * (l + 1))
            (s.issPart.lo + (4 * ((l - s.issPart.lo) / 4) + n.val)) a))

/-- R227, R230: votes and elections combine the participants of each segment and answer a predicate in every
acting lane. R228, R229: masks of the participants that vote, or that hold the same value. -/
def Obligations.VotesAndBallots : Prop :=
  (∀ (s : State) (h : Hdr) (p : Pred) (pa : PSrc) (var : VoteVar) (seg : Seg),
     (Issues (.vote h p pa var seg) s →
       Posts (.vote h p pa var seg) s (s.actors (.vote h p pa var seg)) fun l => predPost p
         (let vs := (s.peers (.vote h p pa var seg) seg l).map fun x => s.srcP 0 x pa
          match var with
           | .all => vs.all id
           | .any => vs.any id
           | .uni => vs.all id || vs.all not))
     ∧ (Issues (.elect h p seg) s →
         Posts (.elect h p seg) s (s.actors (.elect h p seg)) fun l => predPost p
           (decide ((s.peers (.elect h p seg) seg l).head? = some l))))
  ∧ (∀ (s : State) (h : Hdr) (d a b : Reg) (p : Pred) (pa : PSrc) (wide : Bool) (seg : Seg),
       let val (l : Nat) : Nat := if wide then s.src64 0 l a else s.src 0 l a
       (Issues (.ballot h d pa seg) s →
         Posts (.ballot h d pa seg) s (s.actors (.ballot h d pa seg)) fun l => wordPost false d
           (s.maskOf (s.wordOf l) ((s.peers (.ballot h d pa seg) seg l).filter fun x => s.srcP 0 x pa)))
       ∧ (Issues (.ballotWord h d pa b seg) s →
           Posts (.ballotWord h d pa b seg) s (s.actors (.ballotWord h d pa b seg)) fun l => wordPost false d
             (let sw := s.segWidthAt seg
              let first := (l - s.issPart.lo) / sw * sw / 32
              let m := if sw ≤ 32 then 1 else sw / 32
              s.maskOf (first + s.src 4 l b % m)
                ((s.peers (.ballotWord h d pa b seg) seg l).filter fun x => s.srcP 0 x pa)))
       ∧ (Issues (.matchAny h d a wide seg) s →
           Posts (.matchAny h d a wide seg) s (s.actors (.matchAny h d a wide seg)) fun l => wordPost false d
             (s.maskOf (s.wordOf l) ((s.peers (.matchAny h d a wide seg) seg l).filter fun x => val x = val l)))
       ∧ (Issues (.matchAll h d a p wide seg) s →
           Posts (.matchAll h d a p wide seg) s (s.actors (.matchAll h d a p wide seg)) fun l =>
             let ps := s.peers (.matchAll h d a p wide seg) seg l
             let same := ps.all fun x => ps.all fun y => decide (val x = val y)
             wordPost false d (if same then s.maskOf (s.wordOf l) ps else 0) ++ predPost p same))

/-- R231 to R233: reductions and scans over the participants of each segment. -/
def Obligations.ReductionsAndScans : Prop :=
  ∀ (s : State) (h : Hdr) (d a : Reg) (op : RedOp) (fop : FRedOp) (ty : ITy) (excl ftz : Bool) (seg : Seg),
    let before (i : Instr) (l : Nat) : List Nat :=
      ((s.peers i seg l).filter fun x => if excl then x < l else x ≤ l).map fun x => s.src 0 x a
    (Issues (.ired h d a op ty seg) s →
      Posts (.ired h d a op ty seg) s (s.actors (.ired h d a op ty seg)) fun l => wordPost false d
        (((s.peers (.ired h d a op ty seg) seg l).map fun x => s.src 0 x a).foldl (iredOp op ty)
          (iredId op ty)))
    ∧ (Issues (.fred h d a fop ftz seg) s →
        Posts (.fred h d a fop ftz seg) s (s.actors (.fred h d a fop ftz seg)) fun l =>
          let sw := s.segWidthAt seg
          let base := l - (l - s.issPart.lo) % sw
          let ps := s.peers (.fred h d a fop ftz seg) seg l
          let r := fredVal fop ftz ((List.range sw).map fun j =>
            if ps.contains (base + j) then some (s.src 0 (base + j) a) else none)
          [(d.val, 0xFFFFFFFF, r.1, r.2)])
    ∧ (Issues (.iscan h d a op ty excl seg) s →
        Posts (.iscan h d a op ty excl seg) s (s.participantsOf (.iscan h d a op ty excl seg)) fun l =>
          wordPost false d ((before (.iscan h d a op ty excl seg) l).foldl (iredOp op ty) (iredId op ty)))
    ∧ (Issues (.fscan h d a fop excl ftz seg) s →
        Posts (.fscan h d a fop excl ftz seg) s (s.participantsOf (.fscan h d a fop excl ftz seg)) fun l =>
          let r := fscanVal fop ftz (before (.fscan h d a fop excl ftz seg) l)
          [(d.val, 0xFFFFFFFF, r.1, r.2)])

/-- R145, R234: `sread` gives each acting lane the value of its source; `launch` and `tick` are pairs. A
second half of a pair reads the event counters as they stood before the pair. -/
def Obligations.SourcesRead : Prop :=
  ∀ (s : State) (h : Hdr) (d : Reg) (src : SReg), Issues (.sread h d src) s →
    let core := s.coreOf s.issue.part
    let ev (k : Nat) : Nat := (match s.issue.pre with
      | some x => x.ev
      | none => (s.core core).ev).get 0 k
    Posts (.sread h d src) s (s.actors (.sread h d src)) fun l => wordPost src.wide d (match src with
      | .lane => l - s.issPart.lo
      | .quad => (l - s.issPart.lo) / 4
      | .team => teamIx s.issTeam
      | .part => s.issPart.lo / s.issPart.width
      | .block => blockOf s.issTeam % 8
      | .cluster => (s.clusterOfTeam s.issTeam).index
      | .launch => s.launchOf s.issTeam
      | .width => s.issPart.width
      | .wl => s.issPart.cur
      | .sweeps => s.issPart.sweeps
      | .tick => s.tick
      | .core => core % 64
      | .die => dieOf core
      | .blane => teamIx s.issTeam * (s.team s.issTeam).width + l
      | .help => if s.isHelper s.issTeam l then 1 else 0
      | .nblk => (s.clusterOfTeam s.issTeam).nblk
      | .ev0 => ev 0
      | .ev1 => ev 1
      | .ev2 => ev 2
      | .ev3 => ev 3
      | .ev4 => ev 4
      | .ev5 => ev 5
      | .ev6 => ev 6
      | .ev7 => ev 7)

/-! ## Memory instructions -/

/-- R79, R102, R113, R116: the accesses of lanes. When no lane is misaligned and no lane is stopped, the
instruction completes: it raises its path's arrival counter, the destination registers of every lane wait for
their deferred results, and no register changes yet. R117, R120, R125, R329: a lane that breaks its alignment
rule raises class 4 before any lane accesses memory. -/
def Obligations.LaneAccesses : Prop :=
  (∀ (s : State) (i : Instr) (path : Path), Instr.isLaneAccess i = true → i.wf = true → raises i = some path →
     Issues i s → s.noSampling → s.actors i ≠ [] → ¬s.badAlignment i →
     (s.issued.probe (s.opCtx i.hdr) (s.issued.who s.issue.part) (s.requestsOf i)).2 = [] →
     ∃ t, exec i s = .next t ∧ RaisesArrival s t path ∧ t.regs = s.regs
       ∧ (∀ q, q ≠ s.issue.part → t.part q = s.part q)
       ∧ ((t.part s.issue.part).life = .live → ∃ new, t.defs = s.defs ++ new
           ∧ new.map (fun d => (d.team, d.lane, d.reg))
               = (s.requestsOf i).flatMap fun r => r.dest.map fun d => (s.issTeam, r.lane, d)))
  ∧ (∀ (s : State) (i : Instr), Instr.isLaneAccess i = true → Issues i s → s.actors i ≠ [] → s.badAlignment i →
       (s.launchAt s.issue.part).level ≠ .h → (s.tokens (s.trapRing s.issTeam)).length < 65535 →
       ∃ t, exec i s = .next t ∧ Trapped s t s.issue.part 4)

/-- R62, R66, R84, R116: a load of one lane from the die's memory gives the bytes of the copy that its core
holds, while the lease reaches to the load's place in T, or where the grant finds the sector's write time
unchanged, and otherwise the bytes that stand in memory; memory does not change. That a copy which a
higher-numbered agent stored in this very tick gives the load a place one later is the model's reading (log
97). R62, R79, R116: a store of one lane to the die's memory writes exactly its bytes, at a time after every
read that the home has granted; every other byte of memory stands. -/
def Obligations.HomeLoadsAndStores : Prop :=
  (∀ (s : State) (h : Hdr) (d a : Reg) (off : BitVec 16) (sz : Sz) (acq : Bool) (ca : Cache) (l pa : Nat),
     let i : Instr := .ld h d a off sz .global acq ca
     let acc : Access := { kind := .load, sp := .global, ea := effAddr (s.src64 0 l a) off, n := Sz.bytes sz
                           sz := sz, ca := ca, acq := acq }
     let w : Who := { s.who s.issue.part with lane := l }
     let sec := pa / 64
     i.wf = true → HomeAccess s i l acc pa →
     let found : Nat × Nat := match s.l1Copy w.core sec with
       | some x => if s.inLease w sec x.wts x.rts = true ∨ x.wts = (s.grant w.fill ca (s.core w.core).clock sec).2.wts then
             (bits x.data (8 * (pa % 64)) (8 * acc.n), bits x.poison (pa % 64) acc.n)
           else s.getBytes pa acc.n
       | none => s.getBytes pa acc.n
     ∃ t new, exec i s = .next t ∧ t.mem = s.mem ∧ t.regs = s.regs ∧ RaisesArrival s t .g
       ∧ t.defs = s.defs ++ new
       ∧ new.map (fun d => (d.team, d.lane, d.reg, d.val, d.poison))
           = ((szRegs sz d).zip (resultWords acc found.1 found.2)).map fun x =>
               (s.issTeam, l, x.1, some x.2.1, x.2.2))
  ∧ (∀ (s : State) (h : Hdr) (d a : Reg) (off : BitVec 16) (sz : Sz) (rel : Bool) (ca : Cache) (l pa : Nat),
       let i : Instr := .st h d a off sz .global rel ca
       let data := joinWords ((List.range (szRegs sz d).length).map fun k => s.src (8 + k) l (d.val + k))
       let acc : Access := { kind := .store, sp := .global, ea := effAddr (s.src64 0 l a) off, n := Sz.bytes sz
                             data := data, ca := ca, rel := rel }
       let core := s.coreOf s.issue.part
       i.wf = true → HomeAccess s i l acc pa →
       ∃ t, exec i s = .next t ∧ t.regs = s.regs ∧ t.defs = s.defs ∧ RaisesArrival s t .g
         ∧ (∀ k, k < acc.n → t.memByte (pa + k) = byteOf data k)
         ∧ (∀ x, x < pa ∨ pa + acc.n ≤ x → t.memByte x = s.memByte x)
         ∧ (s.home (pa / 64)).rts < (t.core core).clock ∧ (s.core core).clock ≤ (t.core core).clock)

/-- R82, R119, R120: an atomic of one lane on the die's memory gives the old value and writes the new one at
one place; a reduction does the same and gives nothing; a compare that fails writes nothing. -/
def Obligations.AtomicAtHome : Prop :=
  ∀ (s : State) (h : Hdr) (d a b c : Reg) (op : AtomOp) (ty : AtomTy) (rnd : Rnd) (ord : Ord) (l pa : Nat)
    (i : Instr), (i = .atom h d a b c op ty rnd .global ord ∨ i = .red h a b op ty rnd .global ord) →
    let n := if ty.wide then 2 else 1
    let word (slot : Nat) (r : Reg) := joinWords ((List.range n).map fun k => s.src (slot + k) l (r.val + k))
    let acc : Access :=
      { kind := .atom, sp := .global, ea := s.src64 0 l a, n := AtomTy.bytes ty, data := word 8 b, aop := op
        aty := ty, rnd := rnd
        cmp := if op = .cas then word 12 c else 0 }
    let old := (s.getBytes pa acc.n).1
    i.wf = true → HomeAccess s i l acc pa →
    ∃ t new, exec i s = .next t ∧ t.regs = s.regs ∧ RaisesArrival s t .g ∧ t.defs = s.defs ++ new
      ∧ (i = .atom h d a b c op ty rnd .global ord →
          new.map (fun d => (d.team, d.lane, d.reg, d.val))
            = (List.range n).map fun k => (s.issTeam, l, d.val + k, some (bits old (32 * k) 32)))
      ∧ (i = .red h a b op ty rnd .global ord → new = [])
      ∧ (∀ k, k < acc.n → t.memByte (pa + k)
          = if op = .cas ∧ old ≠ acc.cmp then s.memByte (pa + k)
            else byteOf (atomNew op ty rnd old acc.data) k)
      ∧ ∀ x, x < pa ∨ pa + acc.n ≤ x → t.memByte x = s.memByte x

/-- R123, R124: a gather or scatter completes as one command for its acting lanes on path `x`: each lane's
address is the base of the lowest acting lane plus its scaled index, the gather's destinations wait for their
deferred results, and the scatter's bytes are those of its data registers, the last of the lanes' where two
lanes write one. Nothing else changes. With no lane to act it posts nothing, and a misaligned element raises
class 4. -/
def Obligations.GatherAndScatter : Prop :=
  ∀ (s : State) (h : Hdr) (d a b : Reg) (sco : Scope) (sz : Sz) (iw : IxW) (ixs : Bool) (scl : Scale)
    (stash : Bool) (ord : Ord) (i : Instr),
    (i = .ldg h d a b sco sz iw ixs scl stash ord ∨ i = .stg h d a b sco sz iw ixs scl stash ord) →
    Issues i s → s.noSampling →
    let index (l : Nat) : Int :=
      let v := if iw = .ix64 then s.src64 2 l b else s.src 2 l b
      if ixs then sint (ixWidth iw) v else ((v % 2 ^ ixWidth iw : Nat) : Int)
    let addr (l : Nat) : Nat :=
      wrap 64 ((((s.actors i).head?.elim 0 fun x => s.src64 0 x a : Nat) : Int) + index l * (scaleFactor scl : Int))
    let lanes := s.participantsOf i
    let data (l : Nat) : Nat := joinWords ((List.range (szRegs sz d).length).map fun k => s.src (8 + k) l (d.val + k))
    (lanes = [] → ∃ t, exec i s = .next t ∧ t.regs = s.regs ∧ t.defs = s.defs ∧ LanesOnly s.issue.part s t)
    ∧ (lanes ≠ [] → (∀ l ∈ lanes, addr l % Sz.bytes sz = 0) →
        ∃ t k, exec i s = .next t ∧ PostsOnly s.issue.part s t ∧ t.cmds = s.cmds ++ [k] ∧ RaisesArrival s t .x
          ∧ k.eng = .x ∧ k.part = s.issue.part ∧ k.lanes = lanes ∧ k.ord = ord ∧ k.sco = sco
          ∧ (i = .ldg h d a b sco sz iw ixs scl stash ord → ∃ gs, k.body = .gather stash sz gs
              ∧ gs.map (fun x => (x.1, x.2.1)) = lanes.map (fun l => (l, addr l))
              ∧ t.defs.map (fun d => (d.team, d.lane, d.reg)) = s.defs.map (fun d => (d.team, d.lane, d.reg))
                  ++ lanes.flatMap fun l => (szRegs sz d).map fun r => (s.issTeam, l, r))
          ∧ (i = .stg h d a b sco sz iw ixs scl stash ord → t.defs = s.defs ∧ ∃ ws, k.body = .scatter stash ws []
              ∧ ∀ x y p, (x, y, p) ∈ ws ↔ p = false ∧ ∃ us l vs, lanes = us ++ l :: vs ∧ ∃ j, j < Sz.bytes sz
                  ∧ x = addr l + j ∧ y = byteOf (data l) j ∧ ∀ m ∈ vs, x < addr m ∨ addr m + Sz.bytes sz ≤ x))
    ∧ ((∃ l ∈ lanes, addr l % Sz.bytes sz ≠ 0) → (s.launchAt s.issue.part).level ≠ .h →
        (s.tokens (s.trapRing s.issTeam)).length < 65535 → ∃ t, exec i s = .next t ∧ Trapped s t s.issue.part 4)

/-- R127, R128: `smap` completes and adds its range when no reason stands against it, and then forgets the
private bytes past the private size that is left; `sunmap` completes and takes a range away, and writes the
dirty bytes of its sectors back as it drops them, so that the home of one that shares its place with no other
holds them. Both write their status to every acting lane and to no other register. No byte of memory changes
but those that a dropped sector writes back, and no other block does. Which status `smap` gives where several
reasons hold is the model's choice (log 99): the rules give the reasons and no order. R129: `sflush` and
`sdrop` complete. After `sflush` no sector that it covers holds bytes that its home lacks, and the home holds
the dirty bytes of one that shares its place with no other; after `sdrop` none is held, and memory stands. No
register changes, no other sector or block, and no byte of memory but those written back. -/
def Obligations.StashRanges : Prop :=
  (∀ (s : State) (h : Hdr) (d a b c : Reg) (l : Nat), s.noSampling →
     let k := blockOf s.issTeam
     let base := s.src64 0 l a
     let len := s.src 2 l b
     let win := s.src 4 l c
     let answers (i : Instr) (t : State) (st : Nat) : Prop :=
       (∀ x ∈ s.actors i, t.reg s.issTeam x d = st)
         ∧ (∀ y, (∀ x ∈ s.actors i, y ≠ regKey s.issTeam x d) → t.regs.get 0 y = s.regs.get 0 y)
         ∧ ∀ q, q ≠ k → t.block q = s.block q
     (Issues (.smap h d a b c) s → (s.actors (.smap h d a b c)).head? = some l →
       let st := smapStatus (s.block k) (s.img s.issTeam).stash base len win
       ∃ t, exec (.smap h d a b c) s = .next t ∧ answers (.smap h d a b c) t st
         ∧ LanesOnly s.issue.part { s with blocks := t.blocks } t
         ∧ (st ≠ 0 → t.block k = s.block k)
         ∧ (st = 0 → (t.block k).ranges = (s.block k).ranges ++ [⟨base, len, win⟩]
             ∧ (t.block k).secs = (s.block k).secs
             ∧ ∀ o, (t.block k).priv.get 0 o
                 = if o < (t.block k).privSize (s.img s.issTeam).stash then (s.block k).priv.get 0 o else 0))
     ∧ (Issues (.sunmap h d a) s → (s.actors (.sunmap h d a)).head? = some l →
         let gone := s.issued.unmapSet (s.opCtx h) a
         ∃ t, exec (.sunmap h d a) s = .next t
           ∧ answers (.sunmap h d a) t (if (s.block k).ranges.any (fun r => r.base = base) then 0 else 1)
           ∧ (∀ r, r ∈ (t.block k).ranges ↔ r ∈ (s.block k).ranges ∧ r.base ≠ base)
           ∧ (∀ x ∈ gone, (t.block k).secs.get {} x = {})
           ∧ (∀ x, x ∉ gone → (t.block k).secs.get {} x = (s.block k).secs.get {} x)
           ∧ (∀ x ∈ gone, let z := (s.block k).secs.get {} x
               z.st = .dirty → (∀ y ∈ gone, y ≠ x → let u := (s.block k).secs.get {} y
                 u.pa + 64 ≤ z.pa ∨ z.pa + 64 ≤ u.pa) →
               ∀ j, j < 64 → bit z.dirty j = true → t.memByte (z.pa + j) = byteOf z.data j)
           ∧ ∀ y, (∀ x ∈ gone, let z := (s.block k).secs.get {} x
               z.st = .dirty → y < z.pa ∨ z.pa + 64 ≤ y ∨ bit z.dirty (y - z.pa) = false) → t.memByte y = s.memByte y)
     ∧ ∀ i, (i = .smap h d a b c ∨ i = .sunmap h d a) → Issues i s → s.actors i = [] →
         ∃ t, exec i s = .next t ∧ t.regs = s.regs ∧ t.defs = s.defs ∧ LanesOnly s.issue.part s t)
  ∧ (∀ (s : State) (h : Hdr) (a b : Reg) (all : Bool), s.noSampling →
       let k := blockOf s.issTeam
       let old (x : Nat) : Sector := (s.block k).secs.get {} x
       let covered := s.issued.flushSet (s.opCtx h) a b all
       (Issues (.sflush h a b all) s → ∃ t, exec (.sflush h a b all) s = .next t ∧ t.regs = s.regs ∧ t.defs = s.defs
         ∧ LanesOnly s.issue.part { s with mem := t.mem, memPoison := t.memPoison, blocks := t.blocks } t
         ∧ (∀ x ∈ covered, (t.block k).secs.get {} x
             = if (old x).st = .dirty then { old x with st := .owned, dirty := 0 } else old x)
         ∧ (∀ x, x ∉ covered → (t.block k).secs.get {} x = old x)
         ∧ (∀ q, q ≠ k → t.block q = s.block q)
         ∧ (∀ x ∈ covered, (old x).st = .dirty →
             (∀ z ∈ covered, z ≠ x → (old z).pa + 64 ≤ (old x).pa ∨ (old x).pa + 64 ≤ (old z).pa) →
             ∀ j, j < 64 → bit (old x).dirty j = true → t.memByte ((old x).pa + j) = byteOf (old x).data j)
         ∧ ∀ y, (∀ x ∈ covered, (old x).st = .dirty →
             y < (old x).pa ∨ (old x).pa + 64 ≤ y ∨ bit (old x).dirty (y - (old x).pa) = false) →
             t.memByte y = s.memByte y)
       ∧ (Issues (.sdrop h a b all) s → ∃ t, exec (.sdrop h a b all) s = .next t ∧ t.regs = s.regs ∧ t.mem = s.mem
           ∧ t.defs = s.defs
           ∧ (∀ x ∈ covered, (t.block k).secs.get {} x = {})
           ∧ (∀ x, x ∉ covered → (t.block k).secs.get {} x = old x)
           ∧ (∀ q, q ≠ k → t.block q = s.block q)
           ∧ ∀ x ∈ covered, (old x).st = .dirty → (old x).rts < (t.core (s.coreOf s.issue.part)).clock))

/-- R238, R243, R244: the barrier instructions. `bar` holds its lanes at the label until their tokens are
past, `barr` leaves its tokens to a deferred result, `barw` holds the lanes whose token is pending, and
`barinit` sends a new count; each arrival goes to the die's barrier unit. R239: a token is pending while the
phase count has not passed it, modulo 2^32. -/
def Obligations.BarrierInstructions : Prop :=
  (∀ (s : State) (h : Hdr) (d a : Reg) (b : BarRef) (lb : Lbl), s.noSampling →
     let die := dieOf (s.coreOf s.issue.part)
     let unit (t : State) (x : ArrStep) : Prop := (t.die die).arrivals = (s.die die).arrivals ++ [x]
       ∧ x.part = s.issue.part ∧ x.cl = b.cl ∧ x.ix = b.ix.val
     (Issues (.bar h b lb) s → s.actors (.bar h b lb) ≠ [] →
       ∃ t x, exec (.bar h b lb) s = .next t ∧ t.regs = s.regs ∧ t.mem = s.mem ∧ unit t x ∧ x.holds = true
         ∧ x.lanes = s.participantsOf (.bar h b lb)
         ∧ ∀ l ∈ s.actors (.bar h b lb), (t.lane (laneId s.issTeam l)).wl = lb.val
             ∧ (t.lane (laneId s.issTeam l)).hold = some (.barrier b.cl b.ix.val none))
     ∧ (Issues (.barr h d b) s → s.actors (.barr h d b) ≠ [] →
         ∃ t x new, exec (.barr h d b) s = .next t ∧ t.regs = s.regs ∧ t.mem = s.mem ∧ unit t x
           ∧ x.holds = false ∧ x.lanes = s.participantsOf (.barr h d b) ∧ t.defs = s.defs ++ new
           ∧ new.map (fun k => (k.team, k.lane, k.reg, k.val))
               = (s.actors (.barr h d b)).map fun l => (s.issTeam, l, d.val, none))
     ∧ (Issues (.barw h a b lb) s →
         ∃ t, exec (.barw h a b lb) s = .next t ∧ t.regs = s.regs ∧ t.mem = s.mem
           ∧ ∀ l ∈ s.actors (.barw h a b lb), (t.lane (laneId s.issTeam l)).wl = lb.val
             ∧ (tokenPending (s.bar (barKey s.issTeam b)).ph (s.src 0 l a) = true →
                 (t.lane (laneId s.issTeam l)).hold = some (.barrier b.cl b.ix.val (some (s.src 0 l a))))
             ∧ (tokenPending (s.bar (barKey s.issTeam b)).ph (s.src 0 l a) = false →
                 (s.bar (barKey s.issTeam b)).ct ≤ (t.core (s.coreOf s.issue.part)).clock))
     ∧ (∀ l, Issues (.barinit h a b) s → (s.actors (.barinit h a b)).head? = some l →
         ∃ t x, exec (.barinit h a b) s = .next t ∧ t.regs = s.regs ∧ t.mem = s.mem ∧ unit t x
           ∧ x.init = some (bits (s.src 0 l a) 0 20) ∧ x.lanes = []))
  ∧ (∀ ph k : Nat, ph < 2 ^ 32 → k < 2 ^ 32 →
       (tokenPending ph k = true ↔ ((ph + 2 ^ 32 - k) % 2 ^ 32 = 0 ∨ 2 ^ 31 ≤ (ph + 2 ^ 32 - k) % 2 ^ 32))
       ∧ tokenPending k k = true ∧ tokenPending ((k + 1) % 2 ^ 32) k = false)

/-! ## Engines -/

/-- R246 to R249: `cpy` and `cpyg` post one command with the addresses and lengths that the poster's registers
hold at issue; nothing of memory or of any register changes at issue. -/
def Obligations.CopiesPosted : Prop :=
  ∀ (s : State) (h : Hdr) (d a : Reg) (len : LenOp) (rowb : BitVec 32) (o : CpyOps) (l : Nat),
    let posted (i : Instr) (body : CmdBody) : Prop := ∃ t k, exec i s = .next t ∧ Quiet s t
      ∧ RaisesArrival s t .l ∧ t.cmds = s.cmds ++ [k] ∧ k.eng = .l ∧ k.part = s.issue.part ∧ k.lanes = [l]
      ∧ k.ord = o.ord ∧ k.sco = o.sco ∧ k.bar = o.bar ∧ k.ca = o.ca ∧ k.body = body
    (Issues (.cpy h d a len o) s → s.posterOf (.cpy h d a len o) = some l →
      let n := match len with
        | .imm n => n.toNat
        | .reg r => s.src 4 l r
      n ≠ 0 → posted (.cpy h d a len o) (.ladle o.dsp o.ssp [] [⟨s.src64 2 l a, s.src64 0 l d, 0, n, 0⟩] []))
    ∧ (Issues (.cpyg h d a rowb false o) s → s.posterOf (.cpyg h d a rowb false o) = some l →
        let r := s.src 6 l (a.val + 4)
        rowb.toNat ≠ 0 → r ≠ 0 →
        posted (.cpyg h d a rowb false o) (.ladle o.dsp o.ssp [] ((List.range r).map fun j =>
          ⟨(s.src64 2 l a + j * s.src 7 l (a.val + 5)) % 2 ^ 64, (s.src64 0 l d + j * s.src 8 l (a.val + 6)) % 2 ^ 64, 0,
            rowb.toNat, j⟩) []))
    ∧ (Issues (.cpyg h d a rowb true o) s → s.posterOf (.cpyg h d a rowb true o) = some l →
        let r := s.src 6 l (a.val + 4)
        let ix := s.src64 4 l (a.val + 2)
        r ≠ 0 → ix % 4 = 0 →
        posted (.cpyg h d a rowb true o) (.ladle o.dsp o.ssp ((List.range r).map fun j =>
          ⟨(ix + 4 * j) % 2 ^ 64, s.src64 2 l a, s.src 7 l (a.val + 5),
            (s.src64 0 l d + j * s.src 8 l (a.val + 6)) % 2 ^ 64, rowb.toNat, j⟩) [] []))

/-- R263: a prologue stages values of the launch that its node will start, cancels the launch, or asks for
another run. A selector below 0x400 stages a word of the parameters, or marks the launch bad where they end
before it; after `plcan` none of the three has an effect on the launch or a register. -/
def Obligations.PrologueStages : Prop :=
  ∀ (s : State) (h : Hdr) (a d : Reg) (g n l : Nat), s.noSampling →
    (s.launchAt s.issue.part).node = some (g, n) →
    let child := (s.node g n).launch
    ((s.node g n).cancel = true → ∀ sel i, (i = .plset h a sel ∨ i = .plrep h d) → Issues i s →
      ∃ t, exec i s = .next t ∧ t.regs = s.regs ∧ LanesOnly s.issue.part s t)
    ∧ ((s.node g n).cancel = true → Issues (.plcan h) s → ∃ t, exec (.plcan h) s = .next t ∧ t.regs = s.regs
        ∧ t.mem = s.mem ∧ t.launches = s.launches ∧ (t.node g n).cancel = true)
    ∧ ((s.node g n).cancel = false → ∀ sel, Issues (.plset h a sel) s → s.posterOf (.plset h a sel) = some l →
        sel.val < 0x400 → ∃ t, exec (.plset h a sel) s = .next t ∧ t.regs = s.regs ∧ t.mem = s.mem
          ∧ ((s.launch child).img.param ≤ 4 * sel.val → (t.node g n).bad = true ∧ t.launches = s.launches)
          ∧ (4 * sel.val < (s.launch child).img.param →
              t.launch child = { s.launch child with consts := (t.launch child).consts } ∧ t.queues = s.queues
              ∧ ∀ x, (t.launch child).consts.get 0 x
                  = if 4 * sel.val ≤ x ∧ x < min (4 * sel.val + 4) (s.launch child).img.param then
                      byteOf (s.src 0 l a) (x - 4 * sel.val)
                    else (s.launch child).consts.get 0 x))
    ∧ ((s.node g n).cancel = false →
    (∀ sel, Issues (.plset h a sel) s → s.posterOf (.plset h a sel) = some l → 0x400 ≤ sel.val →
      ∃ t, exec (.plset h a sel) s = .next t ∧ t.regs = s.regs ∧ t.mem = s.mem
        ∧ (sel = 0x400 → t.launch child = { s.launch child with clus := s.src 0 l a })
        ∧ (sel = 0x401 → t.launch child = { s.launch child with blk := s.src 0 l a })
        ∧ (sel = 0x402 → t.launch child = { s.launch child with bpc := s.src 0 l a })
        ∧ (sel = 0x403 → t.launch child = { s.launch child with pri := min (s.src 0 l a) (s.queue g).pri }))
    ∧ (Issues (.plcan h) s → s.actors (.plcan h) ≠ [] →
        ∃ t, exec (.plcan h) s = .next t ∧ t.regs = s.regs ∧ t.mem = s.mem
          ∧ t.node g n = { s.node g n with cancel := true, again := false })
    ∧ (Issues (.plrep h d) s → s.actors (.plrep h d) ≠ [] →
        ∃ t, exec (.plrep h d) s = .next t ∧ t.mem = s.mem
          ∧ (∀ x ∈ s.actors (.plrep h d), t.reg s.issTeam x d
              = if bits (s.node g n).raw 48 16 ≤ (s.node g n).runs then 1 else 0)
          ∧ (t.node g n).again
              = if bits (s.node g n).raw 48 16 ≤ (s.node g n).runs then (s.node g n).again else true))

/-- R264: `launch` answers the code of the first reason that stands against the child launch, or 0 with the
launch pending at a time after the reads of its image (R93); the code is a deferred result of every acting
lane. The order of the reasons is the model's choice (log 118); that the priorities it compares are not capped
(log 106) and that a missing space is found at the commit (log 18) are its readings. -/
def Obligations.ChildLaunches : Prop :=
  ∀ (s s1 : State) (h : Hdr) (d a : Reg) (l : Nat) (im : Option (Img × FMap Byte)), s.noSampling →
    Issues (.launch h d a) s → s.posterOf (.launch h d a) = some l →
    let c := s.opCtx h
    let x := s.issued.childOf c l a
    let w := s.issued.who s.issue.part
    s.issued.readImage w x.image x.paramAt = (s1, .ok im) →
    let k := s1.launchCode c x im
    let codes (new : List Deferred) : Prop := new.map (fun d => (d.team, d.lane, d.reg, d.val))
      = (s.actors (.launch h d a)).map fun i => (s.issTeam, i, d.val, some k)
    (k ≠ 0 → ∃ t new, exec (.launch h d a) s = .next t ∧ t.defs = s1.defs ++ new ∧ codes new
        ∧ t.launches = s1.launches ∧ t.regs = s1.regs)
    ∧ (∀ img consts root s2, k = 0 → im = some (img, consts) → s1.acceptSpace w x = (s2, .ok (some root)) →
        ∃ t new, exec (.launch h d a) s = .next t ∧ t.defs = s2.defs ++ new ∧ codes new
          ∧ let time := (s2.core w.core).clock + 1
            t.launch s2.nextId = { x with img := img, consts := consts, order := s2.nextId, st := .pending
                                          root := root + 1, time := time, endTime := time })

/-- R271, R272, R278, R279, R283, R284, R285: `mma` and `mmap` enter the Tundish with everything that they
read at issue: each operand a descriptor of memory or the sixteen registers of each position, the scale words
where the form has them, and the centring, when their descriptors are aligned and well formed and the tag is
of their kind. A tag of the other kind raises class 5, then a misaligned descriptor class 4, then a bad one
class 5. The kind of a tag from the issue of the entry that binds it is the model's reading (log 37). R286,
R290: `had` and `acstat` enter the Tundish, and every acting lane's destination waits for the result. -/
def Obligations.MatrixEntries : Prop :=
  (∀ (s : State) (h : Hdr) (tag : Fin 16) (a : Reg) (o : MmaOps) (paired : Bool) (q : Nat) (i : Instr),
     i = (if paired then .mmap h tag a o else .mma h tag a o) → Issues i s → s.posterOf i = some q →
     let c := s.opCtx h
     let da := s.issued.readDesc c q 0 a.val
     let db := s.issued.readDesc c q 10 o.b.val
     let scales (slot r : Nat) : List Nat := (s.issued.posRows c q slot r 1).map fun w => w.headD 0
     let oa : MOpnd := if o.aMem then .mem da.base da.stride da.k0 da.planes else .regs (s.issued.posRows c q 0 a.val 16)
     let ob : MOpnd := if o.bMem then .mem db.base db.stride db.k0 db.planes else .regs (s.issued.posRows c q 10 o.b.val 16)
     let sa := if o.sca then scales 20 o.sa.val else []
     let sb := if o.scb then scales 21 o.sb.val ++ (if paired then scales 22 (o.sb.val + 1) else []) else []
     let cent := match o.cen with
       | .img => (s.img s.issTeam).cent
       | .on => true
       | .off => false
     let otherKind : Prop := s.issued.tagKind s.issue.part tag.val = some (!paired)
     let misaligned : Prop := (o.aMem = true ∧ da.misaligned o.ta = true) ∨ (o.bMem = true ∧ db.misaligned o.tb = true)
     let bad : Prop := (o.aMem = true ∧ da.bad o.ta o.ka.val = true) ∨ (o.bMem = true ∧ db.bad o.tb o.kb.val = true)
     (¬otherKind → ¬misaligned → ¬bad →
       ∃ t e, exec i s = .next t ∧ Quiet s t ∧ t.defs = s.defs ∧ t.slots = s.slots
         ∧ RaisesArrival s t .m ∧ t.tundish = s.tundish ++ [e] ∧ e.part = s.issue.part ∧ e.tag = tag.val
         ∧ e.lane = q ∧ e.array = none ∧ e.ord = (if o.acq then .acq else .plain)
         ∧ e.sco = o.sco ∧ e.ca = o.ca ∧ e.body = .mma paired a.val o oa ob sa sb cent)
     ∧ (otherKind → TakesTrap i s 5)
     ∧ (¬otherKind → misaligned → TakesTrap i s 4)
     ∧ (¬otherKind → ¬misaligned → bad → TakesTrap i s 5))
  ∧ (∀ (s : State) (h : Hdr) (d a : Reg) (n g : HadN) (norm clr : Bool) (tag : Fin 16) (q : Nat),
       let posted (i : Instr) (e : TEntry) (regs : List Nat) (t : State) : Prop :=
         exec i s = .next t ∧ Quiet s t ∧ RaisesArrival s t .m ∧ t.slots = s.slots ∧ e ∈ t.tundish
           ∧ t.tundish.length = s.tundish.length + 1 ∧ e.part = s.issue.part ∧ e.array = none
           ∧ t.defs.map (fun k => (k.team, k.lane, k.reg)) = s.defs.map (fun k => (k.team, k.lane, k.reg))
               ++ (s.actors i).flatMap fun l => regs.map fun r => (s.issTeam, l, r)
       (Issues (.had h d a n g norm) s → s.posterOf (.had h d a n g norm) = some q →
         ∃ t e, posted (.had h d a n g norm) e ((List.range g.toNat).map (d.val + ·)) t ∧ e.tag = 16
           ∧ e.body = .had n norm ((s.actors (.had h d a n g norm)).map fun l =>
               (List.range g.toNat).map fun k => s.src k l (a.val + k)))
       ∧ (Issues (.acstat h d tag clr) s → s.posterOf (.acstat h d tag clr) = some q →
           ∃ t e, posted (.acstat h d tag clr) e [d.val] t ∧ e.tag = tag.val ∧ e.body = .acstat clr))

/-- R287: `acz`, `acrel` and `acrel.all` enter the Tundish and raise no arrival counter; `acz` of a tag of the
other kind raises class 5. That a tag counts as bound from the issue of the entry that binds it, so that
`acrel.all` releases it, is the model's reading (log 37). R288, R289: `acld` and `acst` enter the Tundish: in
the memory form with an aligned base and pitch, in the register form with the words of the poster's word of
lanes, or with deferred results for them. The memory forms raise class 4 for a misaligned base or pitch; a tag
of the other kind raises class 5, before that by the model's reading (logs 37, 104). -/
def Obligations.AccumulatorEntries : Prop :=
  (∀ (s : State) (h : Hdr) (tag : Fin 16) (pair : Bool) (q : Nat),
     let entered (i : Instr) (k : Nat) (body : TBody) : Prop := ∃ t e, exec i s = .next t ∧ Quiet s t
       ∧ t.defs = s.defs ∧ t.slots = s.slots ∧ (t.part s.issue.part).ops = s.issPart.ops
       ∧ t.tundish = s.tundish ++ [e] ∧ e.part = s.issue.part ∧ e.tag = k ∧ e.lane = q ∧ e.array = none
       ∧ e.body = body
     (Issues (.acz h tag pair) s → s.posterOf (.acz h tag pair) = some q →
       s.issued.tagKind s.issue.part tag.val ≠ some (!pair) → entered (.acz h tag pair) tag.val (.acz pair))
     ∧ (Issues (.acrel h tag) s → s.posterOf (.acrel h tag) = some q →
         entered (.acrel h tag) tag.val .acrel)
     ∧ (Issues (.acrelAll h) s → s.posterOf (.acrelAll h) = some q →
         entered (.acrelAll h) 16 (.acrelAll
           ((List.range 16).filter fun k => (s.issued.tagKind s.issue.part k).isSome) false))
     ∧ (Issues (.acz h tag pair) s → s.posterOf (.acz h tag pair) = some q →
         s.issued.tagKind s.issue.part tag.val = some (!pair) → TakesTrap (.acz h tag pair) s 5))
  ∧ (∀ (s : State) (h : Hdr) (tag : Fin 16) (a pr : Reg) (sp : Space) (ordered : Bool) (sco : Scope) (ca : Cache)
       (pair : Bool) (q : Nat),
       let entered (i : Instr) (body : TBody) : Prop := ∃ t e, exec i s = .next t ∧ Quiet s t ∧ RaisesArrival s t .m
         ∧ t.slots = s.slots ∧ e ∈ t.tundish ∧ t.tundish.length = s.tundish.length + 1 ∧ e.part = s.issue.part
         ∧ e.tag = tag.val ∧ e.lane = q ∧ e.array = none ∧ e.body = body
       let kind := s.issued.tagKind s.issue.part tag.val
       let i1 : Instr := .acld h tag a (.mem pr sp ordered sco ca) pair
       let i2 : Instr := .acld h tag a .reg false
       let i3 : Instr := .acst h tag a (.mem pr sp ordered sco ca)
       let i4 : Instr := .acst h tag a .reg
       let aligned : Prop := s.src64 0 q a % 4 = 0 ∧ s.src 2 q pr % 4 = 0
       (Issues i1 s → s.posterOf i1 = some q →
         (aligned → kind ≠ some (!pair) → entered i1 (.acldMem (s.src64 0 q a) (s.src 2 q pr) sp pair))
         ∧ (kind = some (!pair) → TakesTrap i1 s 5) ∧ (¬aligned → kind ≠ some (!pair) → TakesTrap i1 s 4))
       ∧ (Issues i2 s → s.posterOf i2 = some q →
           (kind ≠ some true → entered i2 (.acldReg (s.issued.posRows (s.opCtx h) q 0 a.val 32)))
           ∧ (kind = some true → TakesTrap i2 s 5))
       ∧ (Issues i3 s → s.posterOf i3 = some q →
           (aligned → entered i3 (.acstMem (s.src64 0 q a) (s.src 2 q pr) sp)) ∧ (¬aligned → TakesTrap i3 s 4))
       ∧ (Issues i4 s → s.posterOf i4 = some q → kind = some true → TakesTrap i4 s 5)
       ∧ (Issues i4 s → s.posterOf i4 = some q → kind ≠ some true →
           let b := s.issPart.lo + (q - s.issPart.lo) / 32 * 32
           entered i4 (.acstReg (((s.actors i4).filter fun l => b ≤ l && l < b + 32).map (· - b)))))

/-- R302 to R304, R308: `trav` and `tres` start their participants on the Runner: each takes ENT and is held,
from its own root or segment, and the part keeps the traversal's parameters. R302: a helper lane at `trav` or
`tres` takes DON and its done word with REASON 2, whether participants start with it or none stands there. -/
def Obligations.TraversalsStart : Prop :=
  (∀ (s : State) (h : Hdr) (d a : Reg) (o : TravOps) (q : Nat) (res : Bool) (i : Instr),
     i = (if res then .tres h d a o else .trav h d a o) → Issues i s → s.posterOf i = some q →
     let v := travParams o d (s.src 2 q (a.val + 2)) (bits (s.src 3 q (a.val + 3)) 0 6)
     s.issued.travBad (s.opCtx h) v = false → (∀ l ∈ s.participantsOf i, s.src64 0 l a % 16 = 0) →
     ∃ t, exec i s = .next t ∧ t.mem = s.mem ∧ RaisesArrival s t .t ∧ (t.part s.issue.part).trav = some v
       ∧ ∀ l ∈ s.participantsOf i,
           (t.lane (laneId s.issTeam l)).wl = o.ent.val
             ∧ (t.lane (laneId s.issTeam l)).hold = some .runner
             ∧ (t.lane (laneId s.issTeam l)).inTrav = true
             ∧ (t.lane (laneId s.issTeam l)).root = s.src64 0 l a
             ∧ (t.lane (laneId s.issTeam l)).frames = (if res then [] else [{ node := s.src64 0 l a }])
             ∧ (t.lane (laneId s.issTeam l)).work = (if res then .segment else .enter))
  ∧ (∀ (s : State) (h : Hdr) (d a : Reg) (o : TravOps) (res : Bool) (i : Instr),
       i = (if res then .tres h d a o else .trav h d a o) → Issues i s →
       (∀ q, s.posterOf i = some q →
         s.issued.travBad (s.opCtx h) (travParams o d (s.src 2 q (a.val + 2)) (bits (s.src 3 q (a.val + 3)) 0 6)) = false
           ∧ ∀ l ∈ s.participantsOf i, s.src64 0 l a % 16 = 0) →
       ∃ t, exec i s = .next t ∧ t.mem = s.mem ∧ ∀ l ∈ s.actors i, s.isHelper s.issTeam l = true →
         (t.lane (laneId s.issTeam l)).wl = o.don.val ∧ t.reg s.issTeam l o.vr = 3 + 2 ^ 13)

/-- R305: `tret` returns its participants to the Runner, with the children it names, or ends their traversals.
R305: a lane outside a traversal, or whose last release does not admit the variant, makes `tret` raise class
6, in every variant. R306, R309: `tcut` posts the segments of its participants as one command and drops the
pending children that it cuts away: those of the frame at its level, in the lane's own stack. It raises class
6 for a lane outside a traversal or a level past its depth, and class 4 for a misaligned segment; the order of
the two is the model's choice (log 43). `tstat` reads a lane's traversal. -/
def Obligations.TraversalsGoOn : Prop :=
  (∀ (s : State) (h : Hdr) (a : Reg) (rev acq : Bool) (sco : Scope) (v : Trav), s.issPart.trav = some v →
     let held (i : Instr) (f : Nat → Frame → Frame) : Prop := ∃ t, exec i s = .next t ∧ t.mem = s.mem
       ∧ t.regs = s.regs ∧ RaisesArrival s t .t
       ∧ ∀ l ∈ s.participantsOf i,
           (t.lane (laneId s.issTeam l)).wl = v.ent ∧ (t.lane (laneId s.issTeam l)).hold = some .runner
             ∧ (t.lane (laneId s.issTeam l)).work = .advance
             ∧ ((s.lane (laneId s.issTeam l)).frames ≠ [] →
                 (t.lane (laneId s.issTeam l)).frames.getLast?
                   = (s.lane (laneId s.issTeam l)).frames.getLast?.map (f l))
     let admits (i : Instr) (kinds : List Nat) : Prop := s.participantsOf i ≠ [] ∧
       ∀ l ∈ s.participantsOf i, (s.lane (laneId s.issTeam l)).inTrav = true
         ∧ (s.lane (laneId s.issTeam l)).lastKind ∈ kinds
     (Issues (.tretDesc h a rev acq sco) s → admits (.tretDesc h a rev acq sco) [0] →
       held (.tretDesc h a rev acq sco) fun l f =>
         { f with pend := s.src 0 l a % 2 ^ min 16 (layFan v.layout), lv := true, rev := rev })
     ∧ (Issues (.tretSkip h acq sco) s → admits (.tretSkip h acq sco) [0] →
         held (.tretSkip h acq sco) fun _ f => { f with pend := 0, lv := false })
     ∧ (Issues (.tretCont h acq sco) s → admits (.tretCont h acq sco) [1, 2] →
         held (.tretCont h acq sco) fun _ f => f)
     ∧ (Issues (.tretStop h acq sco) s → admits (.tretStop h acq sco) [0, 1, 2] →
         (s.launchAt s.issue.part).prologue = false →
         ∃ t, exec (.tretStop h acq sco) s = .next t ∧ t.mem = s.mem
           ∧ ∀ l ∈ s.participantsOf (.tretStop h acq sco),
               (t.lane (laneId s.issTeam l)).wl = v.don ∧ (t.lane (laneId s.issTeam l)).inTrav = false
                 ∧ (t.lane (laneId s.issTeam l)).frames = []
                 ∧ t.reg s.issTeam l v.vr = 3 + 2 ^ 12))
  ∧ (∀ (s : State) (h : Hdr) (a : Reg) (rev acq : Bool) (sco : Scope) (i : Instr) (kinds : List Nat),
       (i = .tretDesc h a rev acq sco ∧ kinds = [0] ∨ i = .tretSkip h acq sco ∧ kinds = [0]
         ∨ i = .tretCont h acq sco ∧ kinds = [1, 2] ∨ i = .tretStop h acq sco ∧ kinds = [0, 1, 2]) →
       Issues i s → s.participantsOf i ≠ [] →
       (s.issPart.trav = none ∨ ∃ l ∈ s.participantsOf i, (s.lane (laneId s.issTeam l)).inTrav = false
         ∨ (s.lane (laneId s.issTeam l)).lastKind ∉ kinds) →
       TakesTrap i s 6)
  ∧ (∀ (s : State) (h : Hdr) (d a : Reg) (o : TcutOps) (v : Trav),
       (Issues (.tcut h d a o) s → s.issPart.trav = some v → s.participantsOf (.tcut h d a o) ≠ [] →
         (∀ l ∈ s.participantsOf (.tcut h d a o), (s.lane (laneId s.issTeam l)).inTrav = true
           ∧ s.src 4 l d < (s.lane (laneId s.issTeam l)).frames.length ∧ s.src64 0 l a % 16 = 0) →
         ∃ t k ws, exec (.tcut h d a o) s = .next t ∧ Quiet s t ∧ t.cmds = s.cmds ++ [k] ∧ k.eng = .t
           ∧ k.part = s.issue.part ∧ k.bar = o.bar ∧ k.body = .tcut o.stash ws
           ∧ ws = ((s.participantsOf (.tcut h d a o)).flatMap fun l =>
               segWords v.layout (s.src64 0 l a) (s.lane (laneId s.issTeam l)) (s.src 4 l d))
           ∧ (t.part s.issue.part).ops = s.issPart.ops
           ∧ ∀ l ∈ s.participantsOf (.tcut h d a o), ∀ j, (t.lane (laneId s.issTeam l)).frames[j]?
               = (s.lane (laneId s.issTeam l)).frames[j]?.map fun f => if j = s.src 4 l d then { f with pend := 0 } else f)
       ∧ (Issues (.tcut h d a o) s → s.participantsOf (.tcut h d a o) ≠ [] →
           let refused : Prop := s.issPart.trav = none ∨ ∃ l ∈ s.participantsOf (.tcut h d a o),
             (s.lane (laneId s.issTeam l)).inTrav = false ∨ (s.lane (laneId s.issTeam l)).frames.length ≤ s.src 4 l d
           (refused → TakesTrap (.tcut h d a o) s 6)
           ∧ (¬refused → (∃ l ∈ s.participantsOf (.tcut h d a o), s.src64 0 l a % 16 ≠ 0) →
               TakesTrap (.tcut h d a o) s 4))
       ∧ (Issues (.tstat h d a) s → Posts (.tstat h d a) s (s.actors (.tstat h d a)) fun l =>
           let y := s.lane (laneId s.issTeam l)
           let cut := if s.cutting s.issue.part then 2 ^ 8 else 0
           [(d.val, 0xFFFFFFFF,
             if s.isHelper s.issTeam l then cut
             else if y.inTrav then
               1 + y.lastKind * 2 + (y.frames.length - 1) * 2 ^ 3 + cut
                 + ((y.frames[s.src 0 l a]?).elim 0 fun f => f.pend * 2 ^ 16)
             else y.lastKind * 2 + cut, 0)]))

/-- R317, R320: `gpost` writes the status of the first reason that stands against the packet, or queues the
packet with the next sequence number of its queue and writes 0. The packet carries the program's operation,
completion address and argument words, and the fields that the device writes. `gpoll` reads the state of a
queue of its own function. -/
def Obligations.GuestPackets : Prop :=
  ∀ (s : State) (h : Hdr) (d a qr : Reg) (ord : Ord) (sco : Scope) (l : Nat),
    let q := bits (s.src 0 l qr) 0 6
    let w := ((List.range 16).map fun k => s.src (2 + k) l (a.val + k) * 2 ^ (32 * k)).foldl (· + ·) 0
    let vf := s.vfOf s.issTeam
    let st := s.postStatus q vf (bits w 64 64)
    let i : Instr := .gpost h d a qr ord sco
    (Issues i s → s.posterOf i = some l → st ≠ 0 → WritesWord i s d fun _ => st)
    ∧ (Issues i s → s.posterOf i = some l → st = 0 →
        ∃ t x, exec i s = .next t ∧ t.mem = s.mem ∧ RaisesArrival s t .q
          ∧ (∀ y ∈ s.actors i, t.reg s.issTeam y d = 0)
          ∧ (t.gqueue q).pkts = (s.gqueue q).pkts ++ [x] ∧ (t.gqueue q).seq = ((s.gqueue q).seq + 1) % 2 ^ 16
          ∧ x.seq = (s.gqueue q).seq ∧ x.part = s.issue.part ∧ x.vf = vf ∧ x.ord = ord ∧ x.lane = l
          ∧ x.delivered = false ∧ x.returned = false
          ∧ bits x.words 64 64 = bits w 64 64 ∧ bits x.words 128 384 = bits w 128 384
          ∧ bits x.words 0 8 = bits w 0 8 ∧ bits x.words 8 2 = ord.code ∧ bits x.words 10 3 = sco.code
          ∧ bits x.words 16 6 = q ∧ bits x.words 22 6 = vf % 64 ∧ bits x.words 48 16 = x.seq % 2 ^ 16
          ∧ bits x.words 32 12 = (s.launchAt s.issue.part).spid % 2 ^ 12)
    ∧ (Issues (.gpoll h d qr) s → s.posterOf (.gpoll h d qr) = some l →
        Posts (.gpoll h d qr) s (s.actors (.gpoll h d qr)) fun _ =>
          [(d.val, 0xFFFFFFFF, s.pollWord q vf, 0)])

/-! ## System -/

/-- R341: every `eret` answers 1 where no trap of its poster's has the token, 2 where the class does not
accept the action, and otherwise 0 with the action applied: the part goes on, with the value that the `eret`
names in the destination of a system call (R340), or keeps the action for the restore of its saved cluster
(R338). Which trap a token names at level H is the model's reading (log 31: the hypervisor's ring first, then
those of the functions), and so is that a part which freezes while it is suspended keeps its first token, for
`.kill` alone (log 69). R332: what `.kill` does to the launch of a part: every cluster of the launch, resident
or saved, is gone, and with it every part of its blocks; a cluster of another launch stands. R329, R333, R340:
what the actions do to a suspended part: `.again` leaves it live at the trapping instruction, `.zero` clears
the poisoned words first, `.next` of a system call writes the value to its destination in the lanes that
called. No other part changes. -/
def Obligations.TrapsResolved : Prop :=
  (∀ (s : State) (h : Hdr) (d a b : Reg) (var l : Nat) (i : Instr),
     (i = .eretAgain h d a b ∧ var = 0 ∨ i = .eretNext h d a b ∧ var = 1 ∨ i = .eretZero h d a b ∧ var = 2
       ∨ i = .eretKill h d a b ∧ var = 3) →
     Issues i s → s.posterOf i = some l →
     let k := bits (s.src 0 l a) 0 16
     let owned := s.issued.ownedTrap (s.levelOf s.issTeam) (s.vfOf s.issTeam) k
     (owned = none → WritesWord i s d fun _ => 1)
     ∧ (∀ x, owned = some x → accepts x.2 var = false → WritesWord i s d fun _ => 2)
     ∧ (∀ p cls, owned = some (p, cls) → accepts cls var = true →
         exec i s = .next (((s.issued.status (s.opCtx h) d.val 0).applyEret p var (s.src 1 l b)
           (s.core (s.coreOf s.issue.part)).clock).finish s.issue.part))
     ∧ (∀ p cls u, owned = some (p, cls) → accepts cls var = true → (s.part p).susp = some u →
         (var ≠ 3 → s.resident p = true → Answers i s fun t => (t.part p).susp = none ∧ (t.part p).life = .live
           ∧ (u.cls = 10 → var = 1 → ∀ x ∈ u.lanes, t.reg (teamOf p) x u.dest = s.src 1 l b % 2 ^ 32))
         ∧ (s.resident p = false → Answers i s fun t => (t.part p).susp
             = some { u with resolved := some (var, s.src 1 l b, (s.core (s.coreOf s.issue.part)).clock) })))
  ∧ (∀ (s : State) (l k : Nat), (s.launch l).prologue = false →
       ((s.cluster k).launch = l → ((s.cluster k).st = .resident ∨ (s.cluster k).st = .saved) →
         ((s.kill l).cluster k).st = .absent ∧ ∀ p, clusterOfPart p = k → ((s.kill l).part p).life = .absent)
       ∧ ((∀ c, (k, c) ∈ s.clusters → c.launch ≠ l) → (s.kill l).cluster k = s.cluster k))
  ∧ (∀ (s : State) (p value : Nat) (u : Susp), (s.part p).susp = some u →
       (∀ var, (∀ q, q ≠ p → (s.resume p var value).part q = s.part q) ∧ (s.resume p var value).mem = s.mem
         ∧ ((s.resume p var value).part p).susp = none ∧ ((s.resume p var value).part p).life = .live)
       ∧ (s.resume p 0 value).regs = s.regs ∧ ((s.resume p 0 value).part p).off = (s.part p).off
       ∧ (∀ k, (s.resume p 2 value).regs.get 0 k = if k ∈ u.poison then 0 else s.regs.get 0 k)
       ∧ (∀ k ∈ u.poison, (s.resume p 2 value).regPoison.get false k = false)
       ∧ (u.cls = 10 → ∀ l ∈ u.lanes, (s.resume p 1 value).reg (teamOf p) l u.dest = value % 2 ^ 32)
       ∧ (u.cls ≠ 10 → (s.resume p 1 value).regs = s.regs))

/-- R342: `csrr` gives every acting lane the register's value at the reader's level, 0 for a register above
it; `csrw` acts for the poster's value, and a write above the writer's level is ignored. That every acting
lane takes the value is the model's reading (log 45), and so are the levels and values at which it reads
EVSEL, STOPST, RCCTL, RCSTS, ENDT and BOOTSTS (log 46). R70: L2WAYM is written by level H for the function
that it names, read by level S, and not written by it. -/
def Obligations.ControlRegisters : Prop :=
  (∀ (s : State) (h : Hdr) (d a : Reg) (csr : Fin 4096) (vf : Fin 64) (l : Nat),
     let lvl := s.levelOf s.issTeam
     let f := if lvl = .h then vf.val else s.vfOf s.issTeam
     (Issues (.csrr h d csr vf) s → (Instr.csrr h d csr vf).wf = true → s.posterOf (.csrr h d csr vf) = some l →
       let v := if lvl.num < (csrReadLevel csr.val).num then 0
         else s.csrGet (dieOf (s.coreOf s.issue.part)) f csr.val
       ∃ t, exec (.csrr h d csr vf) s = .next t ∧ t.mem = s.mem ∧ t.fns = s.fns
         ∧ (∀ x ∈ s.actors (.csrr h d csr vf),
             t.reg s.issTeam x d.val = v % 2 ^ 32 ∧ t.reg s.issTeam x (d.val + 1) = v / 2 ^ 32 % 2 ^ 32)
         ∧ ∀ k, (∀ x ∈ s.actors (.csrr h d csr vf),
             k ≠ regKey s.issTeam x d.val ∧ k ≠ regKey s.issTeam x (d.val + 1)) → t.regs.get 0 k = s.regs.get 0 k)
     ∧ (Issues (.csrw h a csr vf) s → s.posterOf (.csrw h a csr vf) = some l →
         (lvl ≠ .h → csrSWrites csr.val = false →
           ∃ t, exec (.csrw h a csr vf) s = .next t ∧ t.mem = s.mem ∧ t.regs = s.regs ∧ t.fns = s.fns
             ∧ t.agenda = s.agenda)
         ∧ (csr = 0x000 → ∃ t, exec (.csrw h a csr vf) s = .next t ∧ t.mem = s.mem ∧ t.regs = s.regs
             ∧ t.fn f = { s.fn f with sptbl := baseBits (s.src64 0 l a) 1 })
         ∧ (lvl = .h → csr = 0x088 → ∃ t, exec (.csrw h a csr vf) s = .next t ∧ t.mem = s.mem
             ∧ t.regs = s.regs ∧ t.savebase.get 0 0 = baseBits (s.src64 0 l a) 6)))
  ∧ (∀ (s : State) (h : Hdr) (a d : Reg) (vf : Fin 64) (l : Nat),
       (Issues (.csrw h a 0x007 vf) s → s.posterOf (.csrw h a 0x007 vf) = some l →
         ∃ t, exec (.csrw h a 0x007 vf) s = .next t
           ∧ (s.levelOf s.issTeam = .h → (t.fn vf.val).l2waym = bits (s.src64 0 l a) 0 16)
           ∧ (s.levelOf s.issTeam ≠ .h → ∀ f, (t.fn f).l2waym = (s.fn f).l2waym))
       ∧ (Issues (.csrr h d 0x007 vf) s → (Instr.csrr h d 0x007 vf).wf = true → s.levelOf s.issTeam = .s →
           s.posterOf (.csrr h d 0x007 vf) = some l → ∃ t, exec (.csrr h d 0x007 vf) s = .next t
             ∧ ∀ x ∈ s.actors (.csrr h d 0x007 vf),
                 t.reg s.issTeam x d.val = (s.fn (s.vfOf s.issTeam)).l2waym % 2 ^ 32)
       ∧ (s.levelOf s.issTeam = .u → s.decodeTrap s.issTeam (.csrw h a 0x007 vf) ≠ none
           ∧ s.decodeTrap s.issTeam (.csrr h d 0x007 vf) ≠ none))

/-- R45, R345: an invalidation takes every covered translation out of every cache of every core and die. It
waits for the commits of its function that are not done, with every cache as it was, and, where the guest or a
write that the port holds for it has such a translation, for the guest. That every instruction cache keeps no
line is the model's choice (log 59), and that `tinv.sp` and `tinv.fn` act as their variant says whatever
stands in a field that it does not use is the model's reading (log 109). -/
def Obligations.TranslationsInvalidated : Prop :=
  ∀ (s : State) (h : Hdr) (o : TinvOps) (l : Nat),
    let lvl := s.levelOf s.issTeam
    let f := if lvl = .h then o.vf.val else s.vfOf s.issTeam
    let base := s.src64 0 l o.a
    let sp := bits (s.src 2 l o.sp) 0 12
    let n := 65536 * s.src 3 l o.n
    let dropped (v : Tlb → Bool) (t : State) : Prop :=
      (∀ c, ∀ e, (e ∈ (t.core c).tlb ∨ e ∈ (t.core c).itlb) → v e = false)
        ∧ (∀ x, ∀ e ∈ (t.die x).stlb, v e = false) ∧ ∀ c, (t.core c).icache = []
    let gone (i : Instr) (v : Tlb → Bool) : Prop := Issues i s → s.posterOf i = some l → s.issPart.ack = 0 →
      (∀ k ∈ s.commits, k.vf ≠ f ∨ k.done ≠ none) → (∀ e ∈ s.guest.xlats, v e = false) →
      (∀ x ∈ s.guest.writes, v x.e = false) → ∃ t, exec i s = .next t ∧ t.regs = s.regs ∧ dropped v t
    let waits (i : Instr) (v : Tlb → Bool) : Prop := Issues i s → s.posterOf i = some l →
      (s.issPart.ack = 0 → (∃ k ∈ s.commits, k.vf = f ∧ k.done = none) → Answers i s fun t =>
        (t.part s.issue.part).wait = .commit ∧ t.regs = s.regs ∧ t.cores = s.cores ∧ t.dies = s.dies)
      ∧ (s.issPart.ack = 0 → (∀ k ∈ s.commits, k.vf ≠ f ∨ k.done ≠ none) → s.guest.frz = false → s.nextId ≠ 0 →
          ((∃ e ∈ s.guest.xlats, v e = true) ∨ ∃ x ∈ s.guest.writes, v x.e = true) → Answers i s fun t =>
            (t.part s.issue.part).wait = .acknowledge ∧ t.regs = s.regs ∧ dropped v t
              ∧ ∃ y ∈ t.guest.invs, y.id = (t.part s.issue.part).ack ∧ y.id ≠ 0)
      ∧ (s.issPart.ack ≠ 0 → (∃ y ∈ s.guest.invs, y.id = s.issPart.ack) → Answers i s fun t =>
          (t.part s.issue.part).wait = .acknowledge ∧ t.regs = s.regs ∧ t.guest = s.guest)
      ∧ (s.issPart.ack ≠ 0 → (∀ y ∈ s.guest.invs, y.id ≠ s.issPart.ack) → Answers i s fun t =>
          (t.part s.issue.part).ack = 0 ∧ t.regs = s.regs ∧ t.mem = s.mem)
    let acts (i : Instr) (v : Tlb → Bool) : Prop := gone i v ∧ waits i v
    (s.src 3 l o.n ≠ 0 → acts (.tinvVa h o) fun e =>
      e.vf = f && e.spid = sp && e.va < base + n && base < e.va + 2 ^ e.lg)
    ∧ (Issues (.tinvVa h o) s → s.posterOf (.tinvVa h o) = some l → s.src 3 l o.n = 0 →
        ∃ t, exec (.tinvVa h o) s = .next t ∧ t.regs = s.regs ∧ LanesOnly s.issue.part s t)
    ∧ acts (.tinvSp h o) (fun e => e.vf = f && e.spid = sp)
    ∧ acts (.tinvFn h o) (fun e => e.vf = f)
    ∧ acts (.tinvIpa h o) (fun e => e.vf = f && e.h2 && e.fpa < base + n && base < e.fpa + 2 ^ e.lg)

/-- R346, R370: `tmark` puts a record with its code and value into its core's trace buffer while marks are on,
and does nothing otherwise; a buffered record is written at the end of its die's trace ring. -/
def Obligations.TraceMarks : Prop :=
  ∀ (s : State) (h : Hdr) (a : Reg) (code : BitVec 16) (l : Nat), Issues (.tmark h a code) s →
    s.posterOf (.tmark h a code) = some l →
    let die := s.die (dieOf (s.coreOf s.issue.part))
    let core := s.coreOf s.issue.part
    s.tick < 2 ^ 64 →
    (bit die.trctl 1 = false → ∃ t, exec (.tmark h a code) s = .next t ∧ t.regs = s.regs ∧ t.defs = s.defs
      ∧ LanesOnly s.issue.part s t)
    ∧ (bit die.trctl 1 = true → traceSize die.trctl ≠ 0 →
        ∃ t r, exec (.tmark h a code) s = .next t ∧ t.regs = s.regs ∧ t.defs = s.defs ∧ t.mem = s.mem
          ∧ (t.core core).trbuf = (s.core core).trbuf ++ [r]
          ∧ bits r 0 64 = s.tick ∧ bits r 64 3 = 0 ∧ bits r 96 32 = code.toNat ∧ bits r 192 64 = s.src 0 l a)
    ∧ (∀ c r, let x := s.die (dieOf c)
        (s.core c).trbuf = [r] → traceSize x.trctl ≠ 0 →
        (s.drainTrace c).Holds (bits x.trctl 12 40 * 4096 + x.trcnt % traceSize x.trctl * 32) 32 r
          ∧ ((s.drainTrace c).die (dieOf c)).trcnt = addCount x.trcnt 1 ∧ ((s.drainTrace c).core c).trbuf = [])

/-- R10, R17, R326, R328, R339: at issue, an instruction above its part's level raises class 8, and one that
names an undeclared register raises class 1, which comes first; both before the part's own effect. At level S
so does one that names a function, and `sys` is undefined at level H. R10, R17, R326, R328, R339: which
instructions decode stops, and with which class. -/
def Obligations.DecodeTraps : Prop :=
  (∀ (s : State) (i : Instr) (cls : Nat), s.issPart.life = .live → s.issue.half ≠ .second → i.isLane = true →
     s.decodeTrap s.issTeam i = some cls →
     (cls = 1 ∨ cls = 8) ∧ TakesTrap i s cls)
  ∧ (∀ (s : State) (i : Instr),
       let lvl := s.levelOf s.issTeam
       let undeclared : Prop := (∃ x ∈ i.reads, declared (s.img s.issTeam) x.2 = false)
         ∨ (∃ r ∈ i.writes, declared (s.img s.issTeam) r = false) ∨ ∃ r ∈ i.names, declared (s.img s.issTeam) r = false
       (undeclared → s.decodeTrap s.issTeam i = some 1)
       ∧ (∀ h d code, i = .sys h d code → lvl = .h → s.decodeTrap s.issTeam i = some 1)
       ∧ (i.wf = true → s.undefinedIn s.issTeam i = false → lvl.num < i.level.num → s.decodeTrap s.issTeam i = some 8)
       ∧ (i.wf = true → s.undefinedIn s.issTeam i = false → lvl = .s → i.vfField ≠ 0 →
           s.decodeTrap s.issTeam i = some 8)
       ∧ (i.wf = true → s.undefinedIn s.issTeam i = false → i.level.num ≤ lvl.num → (lvl = .s → i.vfField = 0) →
           s.decodeTrap s.issTeam i = none))

/-! ## Events of the device's agents -/

/-- R195, R103, R189, R198: a deferred result lands in the bits that no later write has taken; a path's
counter falls over the instructions that an arrival releases; a part whose lanes have all exited retires; and
a fill that arrives puts its line into the core's cache, so that the part no longer waits for it. -/
def Obligations.ArrivalsAndFills : Prop :=
  ∀ s : State,
    (∀ g d, s.defs.filter (fun e => e.group = g) = [d] → d.val.isSome = true →
      (s.clusterOfTeam d.team).st = .resident → d.flags = 0 → (∀ e ∈ s.defs, e.id = d.id → e = d) →
      Answers (.deferredResultArrival g) s fun t => t.mem = s.mem ∧ (∀ e ∈ t.defs, e.id ≠ d.id)
        ∧ t.regs.get 0 (regKey d.team d.lane d.reg)
            = BitVec.ofNat 32 (mergeBits (s.reg d.team d.lane d.reg) (d.val.getD 0) d.mask)
        ∧ ∀ k, k ≠ regKey d.team d.lane d.reg → t.regs.get 0 k = s.regs.get 0 k)
    ∧ (∀ op p o, s.opPart op = some (p, o) → (s.part p).ops.find? (fun q => q.id = op) = some o →
        s.resident p = true → (o.path = .g ∨ o.path = .s ∨ o.path = .c) → o.smp = none → s.opDone op = true →
        Answers (.pathArrival op) s fun t => t.mem = s.mem ∧ t.regs = s.regs
          ∧ (t.part p).ops = dropArrived o.path ((s.part p).ops.map fun q : Op =>
              if q.id = op then { q with arrived := true } else q))
    ∧ (∀ p, s.mayRetire p = true → ((s.noteEnd p).retirePart p).blockDone (blockOf (teamOf p)) = false →
        Answers (.teamRetire p) s fun t => (t.part p).life = .retired ∧ t.mem = s.mem)
    ∧ (∀ id f s1 e, s.fills.find? (fun x => x.id = id) = some f → s.resident f.part = true → f.report = 0 →
        f.pf = false → (s.part f.part).life = .live →
        let va := (s.launchAt f.part).codeVa f.off
        let pa := e.phys (dieOf (s.coreOf f.part)) va
        ({ s with fills := s.fills.filter fun x => x.id ≠ f.id }).resolve (s.who f.part) kFetch va = (s1, .ok e) →
        s1.leafBusy e = false → s1.busySec (pa / 128 * 128) = false → s1.busySec (pa / 128 * 128 + 64) = false →
        Answers (.instructionFetchFill id) s fun t => (t.part f.part).wait ≠ .fetch
          ∧ ∃ x, (t.core (s.coreOf f.part)).icache.head? = some x
              ∧ x.line = pa / 128)

/-- R45 to R50, R53, R59, R63: a recorded access that walks and is let through leaves the replay record, and a
store to one place on its own writes exactly its bytes there; a report is written into its ring while that has
room, and the ring's tail moves, unless a violation of its master may still take its place; FRES resolves the
report of a token that is outstanding and changes nothing for any other: without ABORT what waited for it
walks again, and with ABORT the accesses held for it are discarded and their parts and engine queues freeze;
and a recall writes the dirty bytes back and leaves the stash a clean copy for a read, and none for a write.
That the ring's address is a physical one (log 57) and that a record which still waits for room stays, with
token 0, when its report is resolved (log 86) are the model's readings. -/
def Obligations.FaultsAndRecalls : Prop :=
  ∀ s : State,
    (∀ i h s1 xs,
      ((∃ id, i = .tableWalk id ∧ s.held.find? (fun x => x.id = id) = some h)
        ∨ ∃ b va, i = .stashFill b va
            ∧ s.held.find? (fun x => heldSector b (va / 64) x && x.report = 0) = some h) →
      s.resident h.part = true → (s.part h.part).life ≠ .frozen →
      (∀ k ∈ s.together h, k.report = 0 ∧ s.laneHeld k.team k.lane k.id = false) →
      s.replayPlaces (s.who h.part) (s.together h) = (s1, none, false, xs) → (∃ cs, (h, cs) ∈ xs) →
      Answers i s fun t => (∀ x ∈ xs, ∀ k ∈ t.held, k.id ≠ x.1.id)
        ∧ ∀ x e pa, xs = [(h, [x])] → h.acc.kind = .store → x.place = .home e pa → e.attr.rep = false →
            (s1.refreshed (s.coreOf h.part) e).acc = true → (s1.refreshed (s.coreOf h.part) e).dirty = true →
            s1.owners.get 0 (pa / 64) = 0 →
            t.regs = s1.regs ∧ t.Holds pa x.n (bits h.acc.data (8 * x.off) (8 * x.n))
              ∧ ∀ a, a < pa ∨ pa + x.n ≤ a → t.memByte a = s1.memByte a)
    ∧ (∀ id r, s.reports.find? (fun x => x.id = id) = some r → r.written = false →
        let ring := (s.fn r.ring).fq
        ring.size ≠ 0 →
        ((ring.full = true ∨ s.mayRecord id = false) → exec (.faultRecord id) s = .next s)
        ∧ (ring.full = false → s.mayRecord id = true → Answers (.faultRecord id) s fun t =>
            t.Holds (ring.addr + ring.tail % ring.size * 32) 32 r.record
              ∧ (t.fn r.ring).fq.tail = (ring.tail + 1) % ring.size ∧ t.regs = s.regs
              ∧ (∀ x ∈ t.reports, x.id = r.id → x.written = true)))
    ∧ (∀ hyp vf k, k < 2 ^ 16 →
        let ring := if hyp then 64 else vf % 64
        (s.reports.find? (fun x => x.ring = ring && x.token = k) = none →
          ∀ abort, exec (.fres hyp vf k abort) s = .next s)
        ∧ (∀ r, k ≠ 0 → s.reports.find? (fun x => x.ring = ring && x.token = k) = some r →
            (∀ x ∈ s.waiters, x.1 ≠ r.id) → (∀ c ∈ s.cmds, r.id ∈ c.reports → c.node = none) →
            Answers (.fres hyp vf k true) s fun t => t.mem = s.mem ∧ t.regs = s.regs
              ∧ t.held = s.held.filter (fun h => h.report ≠ r.id)
              ∧ (∀ h ∈ s.held, h.report = r.id → s.resident h.part = true → s.livePart h.part = true →
                  (t.part h.part).life = .frozen
                  ∧ ((s.part h.part).life = .live → (s.launchAt h.part).level ≠ .h →
                      (∃ u, (t.part h.part).susp = some u ∧ u.cls = 14 ∧ u.frz = true)
                      ∧ ∃ x ∈ t.trapOuts, x.part = h.part ∧ bits x.record 16 5 = 14))
              ∧ (∀ c ∈ s.cmds, r.id ∈ c.reports → s.resident c.part = true → c.eng ∈ (t.part c.part).frozenQ)
              ∧ ∀ e ∈ s.tundish, r.id ∈ e.reports → s.resident e.part = true → Path.m ∈ (t.part e.part).frozenQ)
        ∧ ∀ r, k ≠ 0 → s.reports.find? (fun x => x.ring = ring && x.token = k) = some r →
            Answers (.fres hyp vf k false) s fun t => t.mem = s.mem ∧ t.regs = s.regs
              ∧ (r.written = true → t.reports = s.reports.filter fun x => x.id ≠ r.id)
              ∧ (∀ x ∈ t.reports, x.id = r.id → x.token = 0)
              ∧ (r.written = false → ∃ x ∈ t.reports, x.id = r.id ∧ x.written = false)
              ∧ t.held = s.held.map fun h : Held => if h.report = r.id then { h with report := 0 } else h)
    ∧ (∀ pa b k x, s.owners.get 0 (pa / 64) = b + 1 → (s.block b).owned (pa / 64) = some (k, x) →
        Answers (.recallSector pa) s fun t => t.regs = s.regs ∧ t.owners.get 0 (pa / 64) = 0
          ∧ (t.block b).secs.get {} k = { x with st := .clean, dirty := 0 }
          ∧ (∀ j, j < 64 → t.memByte (x.pa + j) = if bit x.dirty j then byteOf x.data j else s.memByte (x.pa + j))
          ∧ ∀ a, a < x.pa ∨ x.pa + 64 ≤ a → t.memByte a = s.memByte a)
    ∧ (∀ sec b k x, s.owners.get 0 sec = b + 1 → (s.block b).owned sec = some (k, x) →
        let t := s.recall true sec
        t.regs = s.regs ∧ t.owners.get 0 sec = 0 ∧ (t.block b).secs.get {} k = {}
          ∧ (∀ y, y ≠ k → (t.block b).secs.get {} y = (s.block b).secs.get {} y)
          ∧ (∀ j, j < 64 → t.memByte (x.pa + j) = if bit x.dirty j then byteOf x.data j else s.memByte (x.pa + j))
          ∧ ∀ a, a < x.pa ∨ x.pa + 64 ≤ a → t.memByte a = s.memByte a)

/-- R85: a core's clock advances by 1 at a global tick that is a multiple of 8, once, and is raised, at one
that is a multiple of 256, to at least the highest clock that any core held at the previous one. Nothing else
changes but that the core notes the tick. -/
def Obligations.ClocksMove : Prop :=
  ∀ (s : State) (c : Nat), c < 256 →
    let x := s.core c
    (Answers (.clockAdvance c) s fun t => t = { s with cores := t.cores } ∧ (∀ d, d ≠ c → t.core d = s.core d)
      ∧ t.core c = { x with clock := (t.core c).clock, advanced := (t.core c).advanced }
      ∧ (t.core c).clock = if s.tick % 8 = 0 ∧ x.advanced ≠ s.tick then x.clock + 1 else x.clock)
    ∧ (Answers (.clockRaise c) s fun t => t = { s with cores := t.cores } ∧ (∀ d, d ≠ c → t.core d = s.core d)
        ∧ t.core c = { x with clock := (t.core c).clock, raised := (t.core c).raised }
        ∧ (t.core c).clock = if s.tick % 256 = 0 ∧ x.raised ≠ s.tick then max x.clock s.maxClock else x.clock)

/-- R107 to R109: a commit locks its sector at the homes, and then writes all four copies and unlocks them, in
one move with the commits of its instruction's other lanes on the sector; one that misses its bound leaves its
copies poisoned and its link with an uncorrectable error. The bytes beside theirs stand where the leaves of
their translations have ACC and DIRTY already. That a commit of an engine, the host or the guest is kept as
done until its writer has taken note is the model's reading (log 23), and so is that a commit which has missed
its bound is over and its sector unlocked (log 55). An access of those lanes to a page that is not replicated,
in the same sector, is performed among them at its own home (R81). -/
def Obligations.ReplicatedCommits : Prop :=
  ∀ (s : State) (id : Nat) (k : Commit), s.commits.find? (fun x => x.id = id) = some k → k.acc.kind = .store →
    k.len ≤ 64 →
    let mine := s.siblings k
    let homes (x : Commit) : List Nat := if x.plain then [x.pa] else copies x.pa
    let marked (x : Commit) : Prop :=
      (x.tr.all fun e => e.acc && e.dirty) = true ∧ (x.plain = true → s.owners.get 0 (x.pa / 64) = 0)
    (k.locked = false → k.plain = false → s.locks.get 0 (lockKey (k.pa / 64)) = 0 →
      (s.commits.find? fun x => lockKey (x.pa / 64) = lockKey (k.pa / 64) && !x.plain && x.done.isNone
        && s.commitHere x).map (·.id) = some id →
      Answers (.replicatedCommitLock id) s fun t => t.mem = s.mem ∧ t.regs = s.regs
        ∧ t.locks.get 0 (lockKey (k.pa / 64)) = id
        ∧ ∀ x ∈ t.commits, x.id = id → x.locked = true ∧ x.lockTick = s.tick)
    ∧ (k.locked = true → k.plain = false → s.commitHere k = true → (∀ x ∈ mine, s.commitBusy x = false) → s.tick ≤ k.lockTick + 3500 →
        (k.by' = Writer.lane → k.lane < 1024) → (∀ q, k.by' = Writer.guest q → s.guest.secs = []) →
        Answers (.replicatedCommitUpdate id) s fun t =>
          t.locks.get 0 (lockKey (k.pa / 64)) = 0
          ∧ ((∀ x ∈ mine, x ≠ k → marked x ∧ x.len ≤ 64
                ∧ ∀ a ∈ copies k.pa, ∀ b ∈ homes x, b + x.len ≤ a ∨ a + k.len ≤ b) →
              ∀ a ∈ copies k.pa, t.Holds a k.len (bits k.acc.data (8 * k.off) (8 * k.len)))
          ∧ (k.by' = Writer.lane → ∀ x ∈ mine, ∀ y ∈ t.commits, y.id ≠ x.id)
          ∧ (k.by' ≠ Writer.lane → ∀ x ∈ t.commits, x.id = id → x.locked = false ∧ x.done.isSome = true)
          ∧ ((∀ x ∈ mine, x.acc.kind = .store) → t.regs = s.regs)
          ∧ ((∀ x ∈ mine, marked x) →
              ∀ b, (∀ x ∈ mine, ∀ a ∈ homes x, b < a ∨ a + x.len ≤ b) → t.memByte b = s.memByte b))
    ∧ (∀ link, k.locked = true → k.by' = Writer.lane → k.lockTick + 3500 < s.tick → link < 18 →
        Answers (.commitBoundMissed id link) s fun t => t.regs = s.regs ∧ (∀ x ∈ t.commits, x.id ≠ id)
          ∧ t.locks.get 0 (lockKey (k.pa / 64)) = 0 ∧ bit (t.lnkst.get 0 link) 1 = true
          ∧ (∀ b, t.memByte b = s.memByte b)
          ∧ ∀ a ∈ copies (k.pa / 64 * 64), ∀ j, j < 64 → t.memPoison.get false (a + j) = true)

/-- R103, R246, R306, R238, R273, R287, R297: a command with nothing left completes; an arrival is counted and
its lane held at its token; a grant occupies the tag's array; a zeroed tile reads +0 and its array is free;
and the Runner releases a lane whose node has been read to ENT, with the visit word. -/
def Obligations.EnginesComplete : Prop :=
  ∀ s : State,
    (∀ id k, s.cmds.find? (fun x => x.id = id) = some k → k.node = none → k.reports = [] → s.cmdRuns k = true →
      k.body.done = true → (∀ o ∈ (s.part k.part).ops, o.smp = none) →
      let completes (i : Instr) : Prop := Answers i s fun t => t.mem = s.mem ∧ t.regs = s.regs
        ∧ (∀ x ∈ t.cmds, x.id ≠ id) ∧ (k.bar = none → ∀ p, p ≠ k.part → t.part p = s.part p)
        ∧ ∀ b, k.bar = some b → let q := barKey (teamOf k.part) b
            (s.bar q).arr + 1 ≠ (s.bar q).exp →
            (t.bar q).arr = (s.bar q).arr + 1 ∧ (t.bar q).pend = (s.bar q).pend - (if k.pend then 1 else 0)
      (k.eng = .t → completes (.tcutComplete id))
      ∧ (k.eng = .l → (∀ j ∈ s.cmds, j.frozen = false) → completes (.ladleComplete id)))
    ∧ (∀ d n x l, (s.die d).arrivals[n]? = some x → s.mayArrive d n x = true → x.init = none → x.cmdTime = none →
        x.lanes = [l] → x.helpers = [] → x.holds = true → (s.bar x.key).arr + 1 ≠ (s.bar x.key).exp →
        (∀ y ∈ s.barLanes x.key, ∀ tok, y.2.hold ≠ some (.barrier x.cl x.ix (some tok))) →
        Answers (.barrierArrivalStep d n) s fun t => t.mem = s.mem ∧ t.regs = s.regs
          ∧ (t.bar x.key).arr = (s.bar x.key).arr + 1
          ∧ (t.lane (laneId (teamOf x.part) l)).hold = some (.barrier x.cl x.ix (some (s.bar x.key).ph)))
    ∧ (∀ f e b, (sortBy grantBefore (s.tundish.filter fun e => e.flask = f)).findSome?
          (fun e => (s.grantOf e).map fun g => (e, g)) = some (e, .own b) →
        Answers (.tundishGrant f) s fun t => t.mem = s.mem ∧ t.regs = s.regs ∧ t.slots = s.slots
          ∧ (t.arrays.get {} b.core).busy = true ∧ ∀ x ∈ t.tundish, x.id = e.id → x.array = some b.core)
    ∧ (∀ id e pair b, s.tundish.find? (fun x => x.id = id) = some e → e.body = .acz pair → e.granted = true →
        s.entryHere e = true → e.reports = [] → (e.todo = none ∨ e.todo = some []) → s.tagOf e.part e.tag = some b →
        Answers (.passRetire id) s fun t => t.regs = s.regs ∧ (∀ x ∈ t.tundish, x.id ≠ id)
          ∧ (∀ a, e.array = some a → (t.arrays.get {} a).busy = false)
          ∧ ∀ i j, i < 32 → j < tileWidth (some b) → t.tileWord (some b) i j = (0, false))
    ∧ (∀ p l v f, (s.part p).trav = some v → s.runnerFor p l = true →
        let y := s.lane (laneId (teamOf p) l)
        y.work = .enter → y.frames.getLast? = some f → v.missing y = [] →
        Answers (.runnerRelease p l) s fun t => (t.lane (laneId (teamOf p) l)).wl = v.ent
          ∧ (t.lane (laneId (teamOf p) l)).hold = none ∧ (t.lane (laneId (teamOf p) l)).lastKind = 0
          ∧ t.reg (teamOf p) l v.vr = visitWord 0 (y.frames.length - 1) f.child 0 0)

/-- R318, R320, R322 to R324: the port delivers a queue's next packet, completes the one that the guest
reports, answers its translation requests and accesses, takes its acknowledgements and answers, snoops an
expiring lease, freezes it at a breach, and comes back from the freeze with GSCTL.RST. A packet with an
acquire flag is delivered when no lease that the guest holds keeps its clock from the poster's, and so is a
translation request answered whose walk moves the clock. That an answer gives back a whole sector, of which
the guest keeps a clean copy where it owned it, and that GSCTL.RST takes the link down, are the model's choice
(log 44). -/
def Obligations.GuestEvents : Prop :=
  ∀ s : State,
    (∀ q k, s.guestOn = true → (s.gqueue q).pkts.find? (fun x => !x.returned && !x.delivered) = some k →
      s.mayDeliver k = true →
        let early : Prop := isAcq k.ord = true
          ∧ ∃ x ∈ s.guest.secs, x.2.owned = false ∧ max s.guest.clock x.2.rts < s.packetClock k
        (¬early → Answers (.guestPacketDeliver q) s fun t => t.mem = s.mem ∧ t.regs = s.regs
          ∧ ∀ x ∈ (t.gqueue q).pkts, x.seq = k.seq → x.returned = false → x.delivered = true)
        ∧ (early → Answers (.guestPacketDeliver q) s fun t => t.mem = s.mem ∧ t.regs = s.regs
            ∧ (t.gqueue q).pkts = (s.gqueue q).pkts))
    ∧ (∀ q k status, s.guestOn = true → (s.gqueue q).head = some k → k.delivered = true → k.node = none →
        k.seq < 2 ^ 16 → (s.gqueue q).pkts.filter (fun x => !x.returned && x.seq = k.seq) = [k] →
        (∀ y ∈ s.guest.queues, ∀ x ∈ y.2.pkts, x.status = none) → s.waiters = [] → s.guest.writes = [] →
        packetCompl k.words = 0 → Answers (.guestCompletionReport q k.seq status) s fun t => t.regs = s.regs
          ∧ (t.gqueue q).cseq = k.seq ∧ (t.gqueue q).cv = true
          ∧ ∀ x ∈ (t.gqueue q).pkts, x.seq = k.seq → x.returned = true)
    ∧ (∀ q vf spid va write k s1 e, s.guestOn = true → (s.gqueue q).running vf spid = some k →
        s.resolve (s.packetWho q k) (if write then kWrite else kRead) va = (s1, .ok e) →
        let waits : Prop := s.guest.clock < s1.guest.clock ∧ s1.guestMay noSector s1.guest.clock = false
        (¬waits → Answers (.guestTranslationRequest q vf spid va write) s fun t =>
          t.guest.answer = some [e.phys 0 va, e.lg] ∧ e ∈ t.guest.xlats)
        ∧ (waits → Answers (.guestTranslationRequest q vf spid va write) s fun t =>
            t.guest.answer = s.guest.answer ∧ t.guest.xlats = s.guest.xlats))
    ∧ (∀ q pa len data k e, s.guestOn = true → len ≠ 0 → s.homed pa = true → s.busySec pa = false →
        s.leafBusy e = false → s.guest.secs = [] → s.guest.writes = [] →
        let n := min len (64 - pa % 64)
        let lets (kind : Nat) : Prop := s.violation e (e.va + (pa - e.pa)) kind (s.packetWho q k).lvl true = none
        s.handedOut q pa n = some (k, e) →
        (lets kRead → Answers (.guestAccess q pa len false data) s fun t =>
          (∃ bs, t.guest.answer = some bs ∧ bs.length = n) ∧ ∃ x ∈ t.guest.secs, x.1 = pa / 64 ∧ x.2.owned = false)
        ∧ (lets kWrite → e.attr.rep = false →
            Answers (.guestAccess q pa len true data) s fun t => t.regs = s.regs ∧ t.Holds pa n data))
    ∧ (∀ id x, s.guest.invs.find? (fun y => y.id = id) = some x →
        Answers (.guestInvalidationAck id) s fun t => t.mem = s.mem ∧ t.regs = s.regs
          ∧ t.guest.xlats = s.guest.xlats.filter (fun e => !x.es.contains e)
          ∧ (s.guest.writes = [] → ∀ y ∈ t.guest.invs, y.id ≠ id) ∧ ∀ y ∈ t.guest.invs, y.id = id → y.acked = true)
    ∧ (∀ pa x, s.guest.secs.find? (fun y => y.1 = pa / 64) = some x → x.2.owned = false →
        (x.2.rts ≤ s.guest.clock + 64 → Answers (.guestLeaseSnoop pa) s fun t => t.mem = s.mem ∧ t.regs = s.regs
          ∧ ∀ y ∈ t.guest.secs, y.1 = pa / 64 → y.2.snooped ≠ none)
        ∧ (s.guest.clock + 64 < x.2.rts → exec (.guestLeaseSnoop pa) s = .next s))
    ∧ (∀ q seq k, s.guestOn = true →
        (s.gqueue q).pkts.find? (fun x => x.seq = seq && x.quiesce && !x.returned && x.status.isNone) = some k →
        Answers (.guestQuiesceAnswer q seq true) s fun t => t.mem = s.mem ∧ t.regs = s.regs
          ∧ ∀ x ∈ (t.gqueue q).pkts, x.seq = seq → x.quiesce = true → x.returned = true)
    ∧ (∀ code, s.guest.frz = false → s.breached code = true → s.inFlight = [] →
        Answers (.guestBreach code) s fun t => t.regs = s.regs ∧ t.guest.frz = true ∧ t.guest.brk = code
          ∧ t.guest.secs = [] ∧ t.guest.xlats = []
          ∧ (∀ x ∈ s.guest.secs, x.2.owned = true → ∀ j, j < 64 → t.memPoison.get false (x.1 * 64 + j) = true)
          ∧ ∀ a, t.memByte a = s.memByte a)
    ∧ (∀ pa data x, s.guest.secs.find? (fun y => y.1 = pa / 64 && y.2.snooped.isSome) = some x →
        Answers (.guestSnoopOrRecallAnswer pa data) s fun t => t.regs = s.regs
          ∧ (x.2.owned = false → ∀ y ∈ t.guest.secs, y.1 ≠ pa / 64)
          ∧ (x.2.owned = true → t.Holds (pa / 64 * 64) 64 data
              ∧ ∀ y ∈ t.guest.secs, y.1 = pa / 64 → y.2.owned = false ∧ y.2.snooped = none)
          ∧ ∀ a, x.2.owned = false ∨ a / 64 ≠ pa / 64 → t.memByte a = s.memByte a)
    ∧ (∀ value, (bit value 6 = false → exec (.gsctlRst value) s = .next s)
        ∧ (bit value 6 = true → s.inFlight = [] → s.guest.secs = [] →
            Answers (.gsctlRst value) s fun t => t.mem = s.mem ∧ t.regs = s.regs ∧ t.guest.up = false
              ∧ t.guest.frz = false ∧ t.guest.brk = 0 ∧ ∀ q, (t.gqueue q).seq = 0))

/-- R330, R334, R335: a trap record is written into its ring while that has room; a core whose idle count has
not reached 2^20 is not tested, one with a part that can go on only clears its count, and one whose parts can
none of them go on takes class 12, with one record each, at each resident stalled part of their launches that
have no such token yet; and a watchdog that fires records class 13 with token 0 and ends its launch. That the
ring's address is a physical one (log 57) and which parts can go on (log 66) are the model's readings. -/
def Obligations.TrapRecordsAndWatchdogs : Prop :=
  ∀ s : State,
    (∀ id x, s.trapOuts.find? (fun y => y.id = id) = some x → s.recordStands x = true →
      (∀ d, bit (s.die d).trctl 3 = false) → (x.always = true ∨ (s.launchAt x.part).prologue = false) →
      let ring := (s.fn x.ring).tq
      ring.size ≠ 0 →
      (ring.full = true ∨ s.recordWaits x = true → exec (.trapRecord id) s = .next s)
      ∧ (ring.full = false → s.recordWaits x = false → Answers (.trapRecord id) s fun t => t.regs = s.regs
          ∧ t.Holds (ring.addr + ring.tail % ring.size * 64) 64 x.record
          ∧ (t.fn x.ring).tq.tail = (ring.tail + 1) % ring.size ∧ ∀ y ∈ t.trapOuts, y.id ≠ id))
    ∧ (∀ c, ((s.core c).idle < 2 ^ 20 → exec (.stallDetectorTest c) s = .next s)
        ∧ ∀ p, 2 ^ 20 ≤ (s.core c).idle →
            let s0 := s.modCore c fun x => { x with idle := 0 }
            let l := s.launchOf (teamOf p)
            s0.corePartIds c = [p] → (s0.goingOn s0.parts.length []).contains p = false →
            s0.tokenHeld l = false → (s.launch l).level ≠ .h →
            (s0.parts.filter fun x => s0.launchOf (teamOf x.1) = l && x.2.life = .live && x.2.wait ≠ .none
              && s0.resident x.1).map (·.1) = [p] →
            (s.tokens (s.trapRing (teamOf p))).length < 65535 →
            Answers (.stallDetectorTest c) s fun t => (t.core c).idle = 0 ∧ Trapped s t p 12)
    ∧ (∀ c, 2 ^ 20 ≤ (s.core c).idle →
        let s0 := s.modCore c fun x => { x with idle := 0 }
        let onCore := s0.corePartIds c
        let goesOn (p : Nat) : Prop := p ∈ s0.goingOn s0.parts.length []
        let hit (x : Nat × Part) : Prop := x ∈ s0.parts
          ∧ (∃ p ∈ onCore, s0.launchOf (teamOf p) = s0.launchOf (teamOf x.1))
          ∧ s0.tokenHeld (s0.launchOf (teamOf x.1)) = false
          ∧ x.2.life = .live ∧ x.2.wait ≠ .none ∧ s0.resident x.1 = true
        ((∃ p ∈ onCore, goesOn p) → exec (.stallDetectorTest c) s = .next s0)
        ∧ ((∀ p ∈ onCore, ¬ goesOn p) → Answers (.stallDetectorTest c) s fun t =>
            (t.core c).idle = 0 ∧ t.mem = s.mem ∧ t.regs = s.regs
            ∧ (∀ x, hit x → (s.launchAt x.1).level ≠ .h →
                (t.part x.1).life = .suspended ∧ (∃ u, (t.part x.1).susp = some u ∧ u.cls = 12)
                ∧ ∃ r ∈ t.trapOuts, r.part = x.1 ∧ bits r.record 16 5 = 12)
            ∧ (∀ x, hit x → (s.launchAt x.1).level = .h → (t.part x.1).life = .frozen)
            ∧ ∀ q, (∀ x, hit x → x.1 ≠ q) → t.part q = s.part q))
    ∧ (∀ l n x, (s.launch l).watch = some n →
        ((s.launch l).limit = 0 ∨ n < (s.launch l).limit * 1750 → exec (.watchdog l) s = .next s)
        ∧ ((s.launch l).limit ≠ 0 → (s.launch l).limit * 1750 ≤ n →
            s.watchPart l = some x →
            Answers (.watchdog l) s fun t => ((t.launch l).st = .absent ∨ (t.launch l).st = .ended)
              ∧ ∃ r ∈ t.trapOuts, bits r.record 16 5 = 13 ∧ bits r.record 0 16 = 0 ∧ bit r.record 21 = true))

/-- R254 to R261, R321: a notify reads the descriptor, when it holds no uncorrectable error, and the ring's
entries up to TAIL, and waits behind one of its queue that is not over; a submission starts with every node as
its record says; an eligible node enters the dependence unit with its regions; each kind of node acts, and a
guest node that has read its packet waits for room in its queue; and a finished node sends its arrivals to
both its successors, or runs once more. These are the model's readings: HEAD is 0 at the first notify that
finds the queue enabled (log 60), a TAIL below HEAD lies in the ring's next round (log 92), fields of a node
record that the table does not name reserved are not looked at (log 103), the runs of a node count on over
loops (log 105), and the reserved bits of a region are ignored (log 107). -/
def Obligations.GraphEvents : Prop :=
  ∀ (s : State) (f q n : Nat), f < 64 → q < 256 →
    let g := f * 256 + q
    let w := s.walkerWho g
    let reader : Who := { core := 0, vf := f, spid := 0, root := 0, lvl := .s, master := 5 }
    (∀ tail, tail < 2 ^ 16 → s.hostHeld = false → s.hostQ = [] →
      (s.fn f).en = false ∨ (s.fn f).flrb = true ∨ bit (s.fn f).qtbl 0 = false →
      Answers (.qnotify f q tail) s fun t => t.mem = s.mem ∧ t.queues = s.queues
        ∧ (t.fn f).ndrop = addCount (s.fn f).ndrop 1)
    ∧ (∀ tail s1 y, tail < 2 ^ 16 → s.hostHeld = false → s.hostQ = [] →
        (s.fn f).en = true → (s.fn f).flrb = false → bit (s.fn f).qtbl 0 = true →
        (s.queue g).tails = [] →
        (s.inWalk reader true fun s => s.stage2 0 f noSpace (bits (s.fn f).qtbl 12 40 * 4096 + 32 * q)) = (s1, .ok y) →
        s1.homed y.pa = true →
        s1.busySec y.pa = false →
        (s1.deviceRead f y.pa 32).2.2 = 0 →
        let d := (s1.deviceRead f y.pa 32).2.1
        let r := (s1.deviceRead f y.pa 32).1.takeDesc g d y.pa
        let size := 2 ^ bits d 5 5
        descOk d = true →
        (entriesLeft size (r.2 % size) tail = 0 → Answers (.qnotify f q tail) s fun t => (t.queue g).on = true
          ∧ (t.queue g).pri = bits d 1 2 ∧ (t.queue g).die = bits d 3 2 ∧ (t.queue g).spid = bits d 10 12
          ∧ (t.queue g).tout = bits d 128 32 ∧ (t.queue g).waiting = (s.queue g).waiting)
        ∧ ∀ s3 x, entriesLeft size (r.2 % size) tail = 1 →
            (r.1.raiseClock (r.1.walkerWho g).core (r.1.queue g).time).agentRead (r.1.walkerWho g)
              (bits d 64 64 + 64 * (r.2 % size)) 64 = (s3, .ok x) →
            Answers (.qnotify f q tail) s fun t => (t.queue g).waiting = (s.queue g).waiting ++ [submission x])
    ∧ (∀ tail, tail < 2 ^ 16 → s.hostHeld = false → s.hostQ = [] →
        (s.fn f).en = true → (s.fn f).flrb = false → bit (s.fn f).qtbl 0 = true → (s.queue g).tails ≠ [] →
        Answers (.qnotify f q tail) s fun t => t.mem = s.mem ∧ (t.queue g).waiting = (s.queue g).waiting
          ∧ (t.queue g).tails = (s.queue g).tails ++ [tail])
    ∧ (∀ e rest s1 x, (s.queue g).waiting = e :: rest → (s.queue g).run = none → s.walks f = true → e.2.1 ≤ 4095 →
        (s.raiseClock w.core (s.queue g).time).agentRead w e.1 (64 * e.2.1) = (s1, .ok x) →
        graphBad e.2.1 (chop 512 e.2.1 x) = false →
        Answers (.submissionStart f q) s fun t => (t.queue g).run = some e ∧ (t.queue g).status = 0
          ∧ (t.queue g).waiting = rest
          ∧ ∀ i, i < e.2.1 → (t.node g i).raw = bits x (512 * i) 512
              ∧ (t.node g i).st = if nPred (bits x (512 * i) 512) = 0 then .eligible else .idle)
    ∧ (∀ s1 v, s.graphRuns g = true → (s.node g n).st = .eligible → s.firstEligible g n = true →
        (s.unit (g / 256) (s.queue g).die).length < 1024 →
        let k := if nKind (s.node g n).raw ≤ 1 then nReg (s.node g n).raw else 0
        (s.raiseClock w.core (s.node g n).time).agentRead w (nRegs (s.node g n).raw) (16 * k) = (s1, .ok v) →
        Answers (.dependenceEntry g n) s fun t => (t.node g n).st = .entered
          ∧ (t.node g n).entry = (s.die (s.queue g).die).depNext + 1
          ∧ (t.node g n).regions = (chop 128 k v).map region)
    ∧ (s.mayStart g n 0 = true → Answers (.nodeStartKernel g n) s fun t => t.mem = s.mem
        ∧ (t.node g n).st = .running ∧ (t.node g n).arr = 0 ∧ (t.node g n).runs = (s.node g n).runs + 1
        ∧ (t.launch (t.node g n).launch).st = .reading
        ∧ (t.launch (t.node g n).launch).image = nOpa (s.node g n).raw
        ∧ (t.launch (t.node g n).launch).paramAt = nOpb (s.node g n).raw)
    ∧ (s.mayStart g n 1 = true → Answers (.nodeStartCopy g n) s fun t => t.mem = s.mem ∧ (t.node g n).st = .running
        ∧ ∃ k, t.cmds = s.cmds ++ [k] ∧ k.node = some (g, n) ∧ k.eng = .l ∧ k.ord = .acqrel ∧ k.sco = .device
          ∧ k.body = .ladle .global .global [] (if nOpc (s.node g n).raw = 0 then []
              else [⟨nOpa (s.node g n).raw, nOpb (s.node g n).raw, 0, nOpc (s.node g n).raw, 0⟩]) [])
    ∧ (∀ s1 x, (s.beginNode g n).agentRead w (nOpa (s.node g n).raw) 4 = (s1, .ok x) →
        (s.mayStart g n 2 = true → Answers (.nodeConditional g n) s fun t => (t.node g n).st = .done
          ∧ (t.node g n).out = if x ≠ 0 then 1 else 2)
        ∧ (s.mayStart g n 3 = true → Answers (.nodeWhile g n) s fun t => (t.node g n).st = .done
            ∧ (if x ≠ 0 ∧ (s.node g n).iter + 1 ≤ nBound (s.node g n).raw
                then (t.node g n).out = 1 ∧ (t.node g n).iter = (s.node g n).iter + 1
                else (t.node g n).out = 2 ∧ (t.node g n).iter = 0)))
    ∧ (s.mayStart g n 4 = true → Answers (.nodeJoin g n) s fun t => t.mem = s.mem ∧ (t.node g n).st = .done)
    ∧ (∀ s1 k, s.mayStart g n 5 = true →
        (s.beginNode g n).agentWrite w (nOpa (s.node g n).raw) 8 (nOpb (s.node g n).raw) = (s1, .ok k) →
        Answers (.nodeHostSignal g n) s fun t => (t.node g n).st = .done
          ∧ ∀ v, bits (nOpc (s.node g n).raw) 0 16 = v + 1 → v < 64 → (s1.msix.get {} (g / 256 * 64 + v)).masked = false →
              t.msgs = s1.msgs ++ [(g / 256, v)])
    ∧ (∀ s1 x, s.mayStart g n 6 = true →
        let k := bits (nOpb (s.node g n).raw) 0 6
        (s.beginNode g n).agentRead w (nOpa (s.node g n).raw) 64 = (s1, .ok x) →
        let full : Prop := (s1.gqueue k).depth ≠ 0 ∧ s1.guest.frz = false ∧ (s1.gqueue k).depth ≤ (s1.gqueue k).flight
        (¬ full → s1.postStatus k (g / 256) (packetCompl x) = 0 →
          Answers (.nodeGuest g n) s fun t => (t.node g n).st = .running
            ∧ ∃ p, (t.gqueue k).pkts = (s1.gqueue k).pkts ++ [p] ∧ p.node = some (g, n) ∧ p.vf = g / 256)
        ∧ (¬ full → s1.postStatus k (g / 256) (packetCompl x) ≠ 0 → (s.queue g).status = 0 →
          Answers (.nodeGuest g n) s fun t => (t.queue g).run = none ∨ (t.queue g).status = 8)
        ∧ (full → Answers (.nodeGuest g n) s fun t => t.mem = s1.mem ∧ (t.node g n).st = .running
            ∧ (t.node g n).words = some x ∧ (t.gqueue k).pkts = (s1.gqueue k).pkts))
    ∧ ((s.queue g).closing = false → (s.node g n).st = .done → s.prologueDone (s.node g n) = true →
        let x := s.node g n
        let sent (m : Nat) : Nat := (if x.out ≠ 2 ∧ nSucc0 x.raw = m then 1 else 0)
          + (if x.out ≠ 1 ∧ nSucc1 x.raw = m then 1 else 0)
        (x.again = true → Answers (.nodeFinish g n) s fun t => t.mem = s.mem ∧ (t.node g n).st = .running
          ∧ (t.node g n).runs = x.runs + 1 ∧ (t.launch (t.node g n).launch).st = .reading)
        ∧ (x.again = false → Answers (.nodeFinish g n) s fun t => (t.node g n).st ≠ .done
          ∧ ((t.queue g).run = none ∨ ∀ m, m ≠ 0xFFF →
              (t.node g m).arr = (s.node g m).arr + sent m
              ∧ (m ≠ n → (t.node g m).st =
                  if (s.node g m).st = .idle ∧ (s.node g m).arr < nPred (s.node g m).raw
                    ∧ nPred (s.node g m).raw ≤ (s.node g m).arr + sent m
                  then .eligible else (s.node g m).st))))

/-- R262, R265, R268, R336, R338, R383: the launch of a kernel node whose reads are done waits to be placed,
or is staged for the node's prologue; a prologue whose reads are done goes to its Cupola when there is room; a
prologue over its budget fails its node with status 6; and the distributor places, saves and restores clusters
whole. A save writes the words of the cluster's context image, as it stands once the cluster is ready to be
saved, one after the other into the save region, and a restore gives back every register, lane and deferred
result, and every part with a new context and new accumulator slots. The cores that a cluster takes among
equals (log 15) and the places of the fields in an image (log 30) are the model's choice, and which cluster
goes for which is its reading (log 16). -/
def Obligations.LaunchPath : Prop :=
  ∀ s : State,
    (∀ l g n s1 root s2 img consts, s.mayRead l = true →
      let x := s.launch l
      let w : Who :=
        { core := x.die * 64, vf := x.vf, spid := x.spid, root := 0, lvl := .s, master := 5, launch := l }
      (s.raiseClock w.core x.time).acceptSpace w x = (s1, .ok (some root)) →
      s1.readImage w x.image x.paramAt = (s2, .ok (some (img, consts))) →
      let u := s2.noteReads l
      let y : Launch := { u.launch l with img := img, consts := consts, root := root + 1 }
      y.node = some (g, n) →
      (y.prologue = false → nPro (u.node g n).raw = false → y.geomOk = true → y.holdable = true →
          Answers (.imageRead l) s fun t => t.launch l = { y with st := .pending })
      ∧ (y.prologue = false → nPro (u.node g n).raw = true →
          Answers (.imageRead l) s fun t => t.launch l = { y with st := .staged })
      ∧ (∀ cores, y.prologue = true → y.holdable = true → u.mayPlace y.vf = true → u.fitsOn y.die y [] = some cores →
          Answers (.imageRead l) s fun t => (t.launch l).st = .running ∧ (t.launch l).placed = y.placed + 1
            ∧ (t.cluster u.nextId).st = .resident ∧ (t.cluster u.nextId).launch = l ∧ (t.cluster u.nextId).die = y.die))
    ∧ (∀ p g n, let l := s.launchOf (teamOf p)
        (s.launch l).prologue = true → (s.launch l).node = some (g, n) → s.allExited p = false →
        ((s.launch l).issued < 4096 → exec (.prologueBudgetExceeded p) s = .next s)
        ∧ (4096 ≤ (s.launch l).issued → (s.queue g).status = 0 → Answers (.prologueBudgetExceeded p) s fun t =>
            (t.launch l).st = .absent ∧ ((t.queue g).run = none ∨ (t.queue g).status = 6)))
    ∧ (∀ d l e cores, s.turn (s.pending d) = some l → s.savedOf l = [] →
        s.findDie (s.launch l) = some (e, cores) →
        Answers (.clusterPlace d) s fun t => (t.cluster s.nextId).st = .resident ∧ (t.cluster s.nextId).launch = l
          ∧ (t.cluster s.nextId).die = e ∧ (t.launch l).st = .running
          ∧ (t.launch l).placed = (s.launch l).placed + 1)
    ∧ (∀ k d a, d < 4 → s.victim' d = some k → let u := s.readyToSave k
        s.saveRoom (s.cluster k).die (u.imageSize k) = some a →
        Answers (.preempt k) s fun t => (t.cluster k).st = .saved ∧ (t.cluster k).save = a
          ∧ t.regs = s.regs ∧ t.regPoison = s.regPoison ∧ u.regs = s.regs ∧ u.regPoison = s.regPoison
          ∧ (t.cluster k).saveLen = 16 * (u.imageWords k).length
          ∧ ∀ j w, (u.imageWords k)[j]? = some w → t.Holds (a + 16 * j) 16 w)
    ∧ (∀ k cores s2, let c := s.cluster k
        c.st = .saved → s.turn (s.pending (s.launch c.launch).die) = some c.launch →
        (s.savedOf c.launch).head? = some k → s.refits k [] = some cores →
        (∀ p ∈ s.clusterParts k, (s.part p).abort = false ∧ (s.part p).abortQ = []
          ∧ ∀ u, (s.part p).susp = some u → u.resolved = none) →
        (∀ f, f < 64 → (s.moveTeams k c.die cores).tundishUse f ≤ 32) →
        (s.moveTeams k c.die cores).rebindAll ((s.moveTeams k c.die cores).clusterParts k) = some s2 →
        Answers (.clusterRestore k) s fun t => (t.cluster k).st = .resident ∧ (t.cluster k).saveLen = 0
          ∧ (t.cluster k).launch = c.launch
          ∧ (s.guestOn = true → t.regs = s.regs ∧ t.regPoison = s.regPoison ∧ t.lanes = s.lanes ∧ t.defs = s.defs
              ∧ ∀ p ∈ s.clusterParts k,
                  t.part p = { s.part p with ctx := (t.part p).ctx, tags := (t.part p).tags }))

/-- R356, R359, R360, R363, R365, R382: an access of the host does nothing while its port is in reset (log 67
says until when); otherwise, with nothing of it waiting at the port, the host's accesses through the physical
function reach memory, one sector of 64 bytes for each event by the model's reading (log 52), and a read
answers its bytes with the poison of each; one to no memory is recorded with master 7; a vector that is
unmasked sends what is pending; EN is written for the function named alone; and a function-level reset of
either kind holds FLRB and forgets the function's queues. -/
def Obligations.HostAndFunctions : Prop :=
  ∀ s : State,
    (∀ vf x len data write, s.hostHeld = true → exec (.inboundHostAccess vf x len write data) s = .next s)
    ∧ (s.hostHeld = false → s.hostQ = [] → ∀ vf x len data, 64 ≤ vf → x < barBytes → len ≠ 0 → let n := min len (64 - x % 64)
      (s.homed x = true → s.busySec x = false →
        (Answers (.inboundHostAccess vf x len true data) s fun t => t.regs = s.regs ∧ t.Holds x n data)
        ∧ (s.owners.get 0 (x / 64) = 0 → Answers (.inboundHostAccess vf x len false data) s fun t => t.mem = s.mem
            ∧ t.regs = s.regs ∧ t.hostAnswer = some (s.getBytes x n)))
      ∧ (s.homed x = false → Answers (.inboundHostAccess vf x len false data) s fun t => t.mem = s.mem
          ∧ t.regs = s.regs ∧ t.hostAnswer = none ∧ ∃ r, t.reports = s.reports ++ [r] ∧ r.ring = 64 ∧ r.token = 0
              ∧ bits r.record 74 4 = 7))
    ∧ (s.hostHeld = false → s.hostQ = [] → ∀ vf v, vf ≤ 64 → v < 64 → Answers (.msiXVectorUnmask vf v) s fun t => t.mem = s.mem
        ∧ t.regs = s.regs ∧ t.msix.get {} (vf * 64 + v) = ⟨false, false⟩
        ∧ t.msgs = s.msgs ++ (if (s.msix.get {} (vf * 64 + v)).pending ∧ (s.fn vf).flrb = false then [(vf, v)] else []))
    ∧ (∀ vf value, vf < 64 → Answers (.vfctlEn vf value) s fun t => t.mem = s.mem ∧ t.regs = s.regs
        ∧ t.fn vf = { s.fn vf with en := bit value 0 } ∧ ∀ f, f ≠ vf → t.fn f = s.fn f)
    ∧ (∀ vf i, vf < 64 → (i = .initiateFunctionLevelReset vf ∧ s.hostHeld = false ∧ s.hostQ = [] ∨ i = .flr vf ∧ (s.fn vf).pceil < 4) →
        (s.fn vf).flrb = false →
        Answers i s fun t => (t.fn vf).flrb = true ∧ (t.fn vf).en = (s.fn vf).en ∧ ∀ x ∈ t.queues, x.1 / 256 ≠ vf)
    ∧ (∀ vf value, Answers (.registerWrite vf 0x101 value) s fun t => t.mem = s.mem ∧ t.regs = s.regs
        ∧ t.fn (vf % 64) = { s.fn (vf % 64) with vfbw := bits value 0 16 })

/-- R369 to R374, R378, R379, R381: the debug registers, the stop and its end, the trip, the end of a log, a
device reset, and what a link's status says of its training, its loss and its errors. Four things here are the
model's own: that a device reset keeps memory (log 48), the tick at which a stop falls due (log 58), the trip
of a die that the event does not name, a GO before the cooling and a device reset before the GO (log 88), and
the end of a log (log 93). -/
def Obligations.DebugAndLinks : Prop :=
  ∀ s : State,
    (∀ n value, n < 8 → Answers (.evsel n value) s fun t => t.mem = s.mem ∧ t.regs = s.regs
      ∧ t.evsel.get 0 n = bits value 0 8
      ∧ ∀ c, (t.core c).ev.get 0 n = 0 ∧ ∀ k, k ≠ n → (t.core c).ev.get 0 k = (s.core c).ev.get 0 k)
    ∧ (∀ d value, d < 4 → Answers (.trctl d value) s fun t => t.mem = s.mem ∧ t.regs = s.regs
        ∧ (t.die d).trctl = baseBits value 9
        ∧ (t.die d).trcnt = if bit value 0 = true ∧ bit (s.die d).trctl 0 = false then 0 else (s.die d).trcnt)
    ∧ (∀ value, exec (.stopat value) s = .next { s with
        stopat := value % 2 ^ 64
        stopDue := if value % 2 ^ 64 = 0 then 0
          else if value % 2 ^ 64 ≤ s.tick then s.tick + 1 else value % 2 ^ 64 })
    ∧ (s.stopDue ≠ 0 → s.stopDue ≤ s.tick →
        exec .stop s = .next { s with stopped := true, haltDue := false, stopDue := 0 })
    ∧ (s.haltDue = true → s.tick < s.stopDue → exec .stop s = .next { s with stopped := true, haltDue := false })
    ∧ (∀ value, bit value 1 = true →
        exec (.goWrite value) s = .next (if s.hot then s else { s with stopped := false, trip := false }))
    ∧ (∃ d t, d < 4 ∧ exec .thermalTrip s = .next t
        ∧ t = { s with tripDue := true, fresh := s.fresh + 1, dies := t.dies, mgmt := s.mgmt ++ [(d, 4, 0)] }
        ∧ t.die d = { s.die d with hot := true } ∧ ∀ e, e ≠ d → t.die e = s.die e)
    ∧ (s.tripDue = true → s.agenda = [] → s.stopped = false → s.playing = false →
        step s = .next { s with tripDue := false, trip := true, stopped := true })
    ∧ (s.recording = true → Answers .recastLogFull s fun t => t.recording = false ∧ bit t.rcsts 0 = true
        ∧ t.endt = s.endt ∧ t.mem = s.mem)
    ∧ (s.playing = true → s.rclog = [] → bit s.rcsts 2 = false → s.endt < s.tick →
        Answers .recastLogEnd s fun t => t.haltDue = true ∧ bit t.rcsts 2 = true ∧ t.mem = s.mem)
    ∧ (s.trip = true → exec .deviceReset s = .next s)
    ∧ (s.trip = false → Answers .deviceReset s fun t => t.mem = s.mem ∧ t.tick = 0 ∧ t.rcctl = s.rcctl ∧ t.fns = State.reset.fns
        ∧ t.parts = [] ∧ t.launches = [] ∧ t.stopped = false)
    ∧ (∀ n, n < 18 → Answers (.linkTrained n) s fun t => t.mem = s.mem ∧ t.regs = s.regs
        ∧ bit (t.lnkst.get 0 n) 0 = true ∧ (n = 13 → t.guest.up = true))
    ∧ (∀ n, n < 18 → n ≠ 13 → bit (s.lnkst.get 0 n) 0 = true → Answers (.linkLost n) s fun t => t.mem = s.mem
        ∧ t.regs = s.regs ∧ bit (t.lnkst.get 0 n) 0 = false ∧ bit (t.lnkst.get 0 n) 1 = true
        ∧ bits (t.lnkst.get 0 n) 2 2 = 1)
    ∧ (∀ n, n < 18 → Answers (.replayRetriesExhausted n) s fun t => t.mem = s.mem ∧ t.regs = s.regs
        ∧ bit (t.lnkst.get 0 n) 1 = true ∧ bits (t.lnkst.get 0 n) 2 2 = 2
        ∧ (bit (s.lnkst.get 0 n) 1 = false → (s.msix.get {} 4096).masked = false →
            t.msgs = s.msgs ++ [(64, 0)]))

/-- R363 to R367: a layer starts once the one before it runs and its image is authentic, with the secret and
key that its measurement gives; a layer that fails leaves its reason; and the responder answers each request
once key(2) of die 0 stands and the host's port is out of reset. The codes and fields of the answers are the
model's (log 51, PRESUMED), and so are what of a layer is kept and reported (log 50), how long the port is in
reset (log 67), and the encodings of hashes and signatures (log 91). -/
def Obligations.BootAndAttestation : Prop :=
  ∀ s : State,
    (∀ d, d < 4 → (s.die d).fail = false →
      ((s.die d).layer0 = false → Answers (.layerStart d 0) s fun t => (t.die d).layer0 = true
        ∧ (t.die d).cdi = Config.uds d
        ∧ (t.die d).measured.get 0 0 = shake256 ((Config.bootImage d 0).getD []) 64)
      ∧ ∀ layer, (layer = 1 ∨ layer = 2) → (s.die d).layer0 = true → (s.die d).layer + 1 = layer →
          let fails (why : Nat) : Prop := Answers (.layerStart d layer) s fun t => t.mem = s.mem
            ∧ (t.die d).fail = true ∧ (t.die d).why = why ∧ (t.die d).layer = (s.die d).layer
            ∧ t.mgmt = s.mgmt ++ [(d, why, 0)]
          (Config.bootImage d layer = none → fails 2)
          ∧ ∀ image, Config.bootImage d layer = some image →
              let m := shake256 image 64
              let ok := ed448Verify (layerSigner layer) (bytesOf 64 m) (Config.bootSignature d layer)
              (ok = false → fails 1)
              ∧ (ok = true → Answers (.layerStart d layer) s fun t => (t.die d).layer = layer
                  ∧ (t.die d).measured.get 0 layer = m
                  ∧ (t.die d).cdi = shake256 (bytesOf 64 (s.die d).cdi ++ bytesOf 64 m) 64
                  ∧ (t.die d).key = shake256 (zkey ++ bytesOf 64 (t.die d).cdi) 57
                  ∧ (layer = 2 → (t.die d).signer = ed448Public (s.die d).key
                      ∧ (t.die d).cert = ed448Sign (s.die d).key (bytesOf 57 (ed448Public (t.die d).key)))))
    ∧ ∀ i x, (i = .getVersion ∧ x = [0x04, 0x13] ∨ i = .getCapabilities ∧ x = [0x61, 0x16]
          ∨ i = .negotiateAlgorithms ∧ x = [0x63, 0x800, 0x20] ∨ i = .getDigests ∧ x = [0x01, 1, sha3 s.chain]
          ∨ (∃ o n, i = .getCertificate ⟨0, o⟩ n ∧ x = [0x02, ((s.chain.drop o).take n).length,
              (s.chain.drop (o + n)).length] ++ (s.chain.drop o).take n)
          ∨ (∃ n, i = .challenge ⟨0, n⟩ ∧ x = s.signed [0x03, sha3 s.chain] n)
          ∨ (∃ k o n, k ≠ 0 ∧ (i = .getCertificate ⟨k, o⟩ n ∨ i = .challenge ⟨k, n⟩) ∧ x = [0x7F, 0x01, 0])
          ∨ (∃ k n, i = .getMeasurements k n
              ∧ x = s.signed (0x60 :: (s.blocksFor k).flatMap fun y => [y.1, y.2]) n)
          ∨ ∃ c, i = .spdmUnsupportedRequest c ∧ c ∉ spdmSupported ∧ x = [0x7F, 0x07, c]) →
        exec i s = .next (if 2 ≤ (s.die 0).layer ∧ s.hostHeld = false then { s with spdm := s.spdm ++ [x] } else s)

/-! ## Results of the matrix unit -/

/-- R165 to R167, R274, R284 to R286, R288 to R290, R292: what an entry of the Tundish whose memory has been
moved leaves as it retires. A pass of `mma` and `mmap` adds the sum of its row and column to each word of the
tile, exactly and modulo 2^32 in an integer pass and chunk by chunk otherwise, and its flags to those of the
tile; `acld` replaces the words; `had`, `acst` to registers and `acstat` deliver theirs to the registers that
wait for them, with the flags of `had`; `acst` to memory leaves the tile as it is; and `acstat` with `.clr`
clears the tile's flags. Which words the poison of an operand reaches, that a NaN in the tile becomes
canonical, and the operands whose NaN keeps NV clear are the model's reading (logs 38, 42, 101). -/
def Obligations.PassResults : Prop :=
  ∀ (s : State) (e : TEntry), s.tundish.find? (fun x => x.id = e.id) = some e → e.granted = true → s.entryHere e = true →
    e.reports = [] → e.todo.getD (s.pieces e) = [] →
    let b := s.tagOf e.part e.tag
    let leaves (P : State → Prop) : Prop := Answers (.passRetire e.id) s fun t => (∀ x ∈ t.tundish, x.id ≠ e.id) ∧ P t
    let tile (k : TagBind) (f : Nat → Nat → Nat × Bool) (t : State) : Prop := t.regs = s.regs ∧
      ∀ i j, i < 32 → j < tileWidth (some k) → t.tileWord (some k) i j = f i j
    let delivers (rows : List (List (Nat × Bool) × Nat)) : Prop :=
      let ds := s.defs.filter fun d => e.res.contains d.group
      e.res.Nodup → (s.defs.map (·.id)).Nodup → (ds.map fun d => regKey d.team d.lane d.reg).Nodup →
      (∀ d ∈ ds, d.flags = 0 ∧ ∀ x ∈ ds, regKey d.team d.lane d.reg ≠ regKey x.team x.lane 255
        ∧ (d.group ≠ x.group → regKey d.team d.lane 255 ≠ regKey x.team x.lane 255)) →
      leaves fun t => ∀ (n : Nat) g r, e.res[n]? = some g → rows[n]? = some r →
        ∀ (k : Nat) d w, (s.defs.filter fun x => x.group = g)[k]? = some d → r.1[k]? = some w →
          t.regs.get 0 (regKey d.team d.lane d.reg) = BitVec.ofNat 32 (mergeBits (s.reg d.team d.lane d.reg) w.1 d.mask)
          ∧ (k = 0 → t.regs.get 0 (regKey d.team d.lane 255) = BitVec.ofNat 32 (s.reg d.team d.lane 255 ||| r.2))
    (∀ k, b = some k → (s.part e.part).life ≠ .retired → k.slot < 64 → k.slot2 < 64 →
      (∀ paired ra o x y sa sb cent, e.body = .mma paired ra o x y sa sb cent →
        let psn (i j : Nat) : Bool := (s.tileWord b i j).2 || opPoison o.ta x o.ka.val e.buf 0 i (scaleA o sa)
          || opPoison o.tb y o.kb.val e.buf 1 j (scaleB o sb)
        let product (i j m : Nat) : Int := opInt o.ta o.ka.val (opCode o.ta x o.ka.val e.buf 0 i m)
          * opInt o.tb o.kb.val (opCode o.tb y o.kb.val e.buf 1 j m)
        let sum (i j : Nat) : Nat × Nat := dotAdd (s.tileWord b i j).1
          (opChunks o.ta x o.ka.val cent e.buf 0 i (scaleA o sa)) (opChunks o.tb y o.kb.val cent e.buf 1 j (scaleB o sb))
        (mmaIsInt o = true → leaves fun t => t.tileFlags k = s.tileFlags k ∧ tile k (fun i j =>
            (wrap 32 ((s.tileWord b i j).1 + ((List.range 64).map (product i j)).sum), psn i j)) t)
        ∧ (mmaIsInt o = false → leaves fun t => tile k (fun i j => ((sum i j).1, psn i j)) t
            ∧ ∀ n, bit (t.tileFlags k) n = true ↔ bit (s.tileFlags k) n = true
                ∨ ∃ i j, i < 32 ∧ j < tileWidth b ∧ bit (sum i j).2 n = true))
      ∧ (∀ base pitch sp pair, e.body = .acldMem base pitch sp pair → leaves fun t => t.tileFlags k = s.tileFlags k
          ∧ tile k (fun i j => ((e.buf.get (0, 0) (i * 64 + j)).1, (e.buf.get (0, 0) (i * 64 + j)).2 ≠ 0)) t)
      ∧ (∀ rows, e.body = .acldReg rows → leaves fun t => t.tileFlags k = s.tileFlags k
          ∧ tile k (fun i j => ((rows.getD i []).getD j 0, false)) t)
      ∧ (∀ base pitch sp, e.body = .acstMem base pitch sp → leaves fun t => t.tileFlags k = s.tileFlags k
          ∧ tile k (s.tileWord b) t)
      ∧ ∀ clr, e.body = .acstat clr → leaves fun t => t.tileFlags k = (if clr then 0 else s.tileFlags k))
    ∧ (∀ n norm rows, e.body = .had n norm rows → delivers (rows.map fun r =>
        ((hadRow n.toNat norm r).1.map fun v => (v, false), (hadRow n.toNat norm r).2)))
    ∧ (∀ rs, e.body = .acstReg rs → delivers (rs.map fun i => ((List.range 32).map fun j => s.tileWord b i j, 0)))
    ∧ (∀ clr, e.body = .acstat clr → delivers (e.res.map fun _ => ([(s.statWord b, false)], 0)))
end

