-- ==== Sys2Proof/Laws/Codes.lean ====
section
/-! SUPPORT. The codes of the enumerations in instruction fields: each is below the power of two that its field
holds, and the decoder reads it back as the value that it stands for. -/

namespace Sys2Proof

theorem ITy.code_lt (x : ITy) : x.code < 2 := by cases x <;> decide
@[simp] theorem ITy.ofCode_code (x : ITy) : ITy.ofCode x.code = some x := by cases x <;> rfl
theorem Cond.code_lt (x : Cond) : x.code < 8 := by cases x <;> decide
@[simp] theorem Cond.ofCode_code (x : Cond) : Cond.ofCode x.code = some x := by cases x <;> rfl
theorem Cond64.code_lt (x : Cond64) : x.code < 16 := by cases x <;> decide
@[simp] theorem Cond64.ofCode_code (x : Cond64) : Cond64.ofCode x.code = some x := by cases x <;> rfl
theorem PbOp.code_lt (x : PbOp) : x.code < 4 := by cases x <;> decide
@[simp] theorem PbOp.ofCode_code (x : PbOp) : PbOp.ofCode x.code = some x := by cases x <;> rfl
theorem Scale.code_lt (x : Scale) : x.code < 8 := by cases x <;> decide
@[simp] theorem Scale.ofCode_code (x : Scale) : Scale.ofCode x.code = some x := by cases x <;> rfl
theorem FTy.code_lt (x : FTy) : x.code < 4 := by cases x <;> decide
@[simp] theorem FTy.ofCode_code (x : FTy) : FTy.ofCode x.code = some x := by cases x <;> rfl
theorem Rnd.code_lt (x : Rnd) : x.code < 8 := by cases x <;> decide
@[simp] theorem Rnd.ofCode_code (x : Rnd) : Rnd.ofCode x.code = some x := by cases x <;> rfl
theorem FCond.code_lt (x : FCond) : x.code < 8 := by cases x <;> decide
@[simp] theorem FCond.ofCode_code (x : FCond) : FCond.ofCode x.code = some x := by cases x <;> rfl
theorem TyCode.code_lt (x : TyCode) : x.code < 16 := by cases x <;> decide
@[simp] theorem TyCode.ofCode_code (x : TyCode) : TyCode.ofCode x.code = some x := by cases x <;> rfl
theorem Space.code_lt (x : Space) : x.code < 4 := by cases x <;> decide
@[simp] theorem Space.ofCode_code (x : Space) : Space.ofCode x.code = some x := by cases x <;> rfl
theorem Ord.code_lt (x : Ord) : x.code < 4 := by cases x <;> decide
@[simp] theorem Ord.ofCode_code (x : Ord) : Ord.ofCode x.code = some x := by cases x <;> rfl
theorem Scope.code_lt (x : Scope) : x.code < 8 := by cases x <;> decide
@[simp] theorem Scope.ofCode_code (x : Scope) : Scope.ofCode x.code = some x := by cases x <;> rfl
theorem Cache.code_lt (x : Cache) : x.code < 4 := by cases x <;> decide
@[simp] theorem Cache.ofCode_code (x : Cache) : Cache.ofCode x.code = some x := by cases x <;> rfl
theorem Sz.code_lt (x : Sz) : x.code < 8 := by cases x <;> decide
@[simp] theorem Sz.ofCode_code (x : Sz) : Sz.ofCode x.code = some x := by cases x <;> rfl
theorem AtomOp.code_lt (x : AtomOp) : x.code < 16 := by cases x <;> decide
@[simp] theorem AtomOp.ofCode_code (x : AtomOp) : AtomOp.ofCode x.code = some x := by cases x <;> rfl
theorem AtomTy.code_lt (x : AtomTy) : x.code < 8 := by cases x <;> decide
@[simp] theorem AtomTy.ofCode_code (x : AtomTy) : AtomTy.ofCode x.code = some x := by cases x <;> rfl
theorem IxW.code_lt (x : IxW) : x.code < 4 := by cases x <;> decide
@[simp] theorem IxW.ofCode_code (x : IxW) : IxW.ofCode x.code = some x := by cases x <;> rfl
theorem FtCount.code_lt (x : FtCount) : x.code < 4 := by cases x <;> decide
@[simp] theorem FtCount.ofCode_code (x : FtCount) : FtCount.ofCode x.code = some x := by cases x <;> rfl
theorem PfVar.code_lt (x : PfVar) : x.code < 4 := by cases x <;> decide
@[simp] theorem PfVar.ofCode_code (x : PfVar) : PfVar.ofCode x.code = some x := by cases x <;> rfl
theorem Path.code_lt (x : Path) : x.code < 8 := by cases x <;> decide
@[simp] theorem Path.ofCode_code (x : Path) : Path.ofCode x.code = some x := by cases x <;> rfl
theorem ShufVar.code_lt (x : ShufVar) : x.code < 4 := by cases x <;> decide
@[simp] theorem ShufVar.ofCode_code (x : ShufVar) : ShufVar.ofCode x.code = some x := by cases x <;> rfl
theorem QsVar.code_lt (x : QsVar) : x.code < 4 := by cases x <;> decide
@[simp] theorem QsVar.ofCode_code (x : QsVar) : QsVar.ofCode x.code = some x := by cases x <;> rfl
theorem VoteVar.code_lt (x : VoteVar) : x.code < 4 := by cases x <;> decide
@[simp] theorem VoteVar.ofCode_code (x : VoteVar) : VoteVar.ofCode x.code = some x := by cases x <;> rfl
theorem RedOp.code_lt (x : RedOp) : x.code < 8 := by cases x <;> decide
@[simp] theorem RedOp.ofCode_code (x : RedOp) : RedOp.ofCode x.code = some x := by cases x <;> rfl
theorem FRedOp.code_lt (x : FRedOp) : x.code < 4 := by cases x <;> decide
@[simp] theorem FRedOp.ofCode_code (x : FRedOp) : FRedOp.ofCode x.code = some x := by cases x <;> rfl
theorem SReg.code_lt (x : SReg) : x.code < 32 := by cases x <;> decide
@[simp] theorem SReg.ofCode_code (x : SReg) : SReg.ofCode x.code = some x := by cases x <;> rfl
theorem MTy.code_lt (x : MTy) : x.code < 8 := by cases x <;> decide
@[simp] theorem MTy.ofCode_code (x : MTy) : MTy.ofCode x.code = some x := by cases x <;> rfl
theorem Cen.code_lt (x : Cen) : x.code < 4 := by cases x <;> decide
@[simp] theorem Cen.ofCode_code (x : Cen) : Cen.ofCode x.code = some x := by cases x <;> rfl
theorem HadN.code_lt (x : HadN) : x.code < 4 := by cases x <;> decide
@[simp] theorem HadN.ofCode_code (x : HadN) : HadN.ofCode x.code = some x := by cases x <;> rfl
theorem Seg.code_lt (x : Seg) : x.code < 16 := by cases x <;> decide
@[simp] theorem Seg.ofCode_code (x : Seg) : Seg.ofCode x.code = some x := by cases x <;> rfl

theorem b2n_lt (b : Bool) : b2n b < 2 := by cases b <;> decide

theorem PSrc.code_lt (p : PSrc) : p.code < 256 := by
  have := b2n_lt p.neg; have := p.n.isLt; unfold PSrc.code; omega

theorem BarRef.code_lt (b : BarRef) : b.code < 32 := by
  have := b2n_lt b.cl; have := b.ix.isLt; unfold BarRef.code; omega

theorem barCode_lt (b : Option BarRef) : barCode b < 64 := by
  cases b with
  | none => decide
  | some b => have := b2n_lt b.cl; have := b.ix.isLt; simp only [barCode]; omega

theorem ordFlag_lt (f : Bool) (k : Nat) (h : k < 4) : ordFlag f k < 4 := by
  unfold ordFlag; split <;> omega

end Sys2Proof
end

