-- ==== Sys2Proof/Laws/Maps.lean ====
section
/-! SUPPORT. Laws of the sparse map: a read after a write, and the canonical form that every write keeps. -/

namespace Sys2Proof.FMap

variable {α : Type}

theorem get_nil (d : α) (k : Nat) : get d [] k = d := rfl

theorem get_cons (d : α) (j : Nat) (v : α) (t : FMap α) (k : Nat) :
    get d ((j, v) :: t) k = if k = j then v else get d t k := rfl

theorem get_insert_self (d : α) (k : Nat) (v : α) (m : FMap α) : get d (insert k v m) k = v := by
  induction m with
  | nil => simp [insert, get]
  | cons c t ih =>
    simp only [insert]
    split
    · simp [get]
    · split
      · simp [get]
      · rename_i h; simp [get, h, ih]

theorem get_insert_ne (d : α) (k j : Nat) (v : α) (m : FMap α) (h : j ≠ k) :
    get d (insert k v m) j = get d m j := by
  induction m with
  | nil => simp [insert, get, h]
  | cons c t ih =>
    simp only [insert]
    split
    · simp [get, h]
    · split
      · rename_i e; subst e; simp [get, h]
      · simp [get, ih]

theorem get_erase_self (d : α) (k : Nat) (m : FMap α) : get d (erase k m) k = d := by
  induction m with
  | nil => rfl
  | cons c t ih =>
    by_cases h : c.1 = k
    · simpa [erase, List.filter_cons, h] using ih
    · have : ¬ k = c.1 := fun e => h e.symm
      simpa [erase, List.filter_cons, h, get, this] using ih

theorem get_erase_ne (d : α) (k j : Nat) (m : FMap α) (h : j ≠ k) :
    get d (erase k m) j = get d m j := by
  induction m with
  | nil => rfl
  | cons c t ih =>
    by_cases e : c.1 = k
    · have : ¬ j = c.1 := fun x => h (x.trans e)
      simpa [erase, List.filter_cons, e, get, this, h] using ih
    · have ih' : get d (List.filter (fun c => c.1 != k) t) j = get d t j := ih
      simp [erase, e, get, ih']

/-- The lower bound of a rising list. -/
def above (lo : Option Nat) (k : Nat) : Bool :=
  match lo with
  | none => true
  | some l => l < k

theorem rising_cons (lo : Option Nat) (c : Nat × α) (t : FMap α) :
    risingFrom lo (c :: t) = (above lo c.1 && risingFrom (some c.1) t) := by
  cases lo <;> simp [risingFrom, above]

theorem rising_weaken (m : FMap α) (lo lo' : Option Nat) (h : ∀ k, above lo k = true → above lo' k = true)
    (w : risingFrom lo m = true) : risingFrom lo' m = true := by
  cases m with
  | nil => cases lo' <;> rfl
  | cons c t =>
    rw [rising_cons, Bool.and_eq_true] at w ⊢
    exact ⟨h _ w.1, w.2⟩

theorem rising_filter (f : Nat × α → Bool) (m : FMap α) (lo : Option Nat)
    (w : risingFrom lo m = true) : risingFrom lo (m.filter f) = true := by
  induction m generalizing lo with
  | nil => exact w
  | cons c t ih =>
    rw [rising_cons, Bool.and_eq_true] at w
    simp only [List.filter_cons]
    split
    · rw [rising_cons, Bool.and_eq_true]; exact ⟨w.1, ih _ w.2⟩
    · refine rising_weaken _ _ _ ?_ (ih _ w.2)
      intro k hk
      have hc := w.1
      cases lo with
      | none => rfl
      | some l => simp [above] at *; omega

theorem rising_insert (k : Nat) (v : α) (m : FMap α) (lo : Option Nat) (h : above lo k = true)
    (w : risingFrom lo m = true) : risingFrom lo (insert k v m) = true := by
  induction m generalizing lo with
  | nil => simp [insert, rising_cons, h, risingFrom]
  | cons c t ih =>
    rw [rising_cons, Bool.and_eq_true] at w
    obtain ⟨j, x⟩ := c
    simp only [insert]
    split
    · rename_i hk
      rw [rising_cons, rising_cons, h]
      simp only [above, Bool.true_and, Bool.and_eq_true, decide_eq_true_eq]
      exact ⟨hk, w.2⟩
    · split
      · rename_i e; subst e; rw [rising_cons]; simp [h, w.2]
      · rename_i h1 h2
        rw [rising_cons, Bool.and_eq_true]
        exact ⟨w.1, ih _ (by simp [above]; omega) w.2⟩

theorem all_insert (p : Nat × α → Bool) (k : Nat) (v : α) (m : FMap α) (h : p (k, v) = true)
    (w : m.all p = true) : (insert k v m).all p = true := by
  induction m with
  | nil => simp [insert, h]
  | cons c t ih =>
    obtain ⟨j, x⟩ := c
    simp only [List.all_cons, Bool.and_eq_true] at w
    simp only [insert]
    split
    · simp [h, w.1]; simpa using w.2
    · split
      · simp [h]; simpa using w.2
      · simp only [List.all_cons, Bool.and_eq_true]; exact ⟨w.1, ih w.2⟩

variable [DecidableEq α]

/-- A read after a write to the same index gives the value written. -/
@[simp] theorem get_set_self (d : α) (m : FMap α) (k : Nat) (v : α) : get d (set d m k v) k = v := by
  unfold set
  split
  · rename_i h; rw [get_erase_self, h]
  · exact get_insert_self d k v m

/-- A write leaves every other index alone. -/
theorem get_set_ne (d : α) (m : FMap α) (k j : Nat) (v : α) (h : j ≠ k) :
    get d (set d m k v) j = get d m j := by
  unfold set
  split
  · exact get_erase_ne d k j m h
  · exact get_insert_ne d k j v m h

theorem get_set (d : α) (m : FMap α) (k j : Nat) (v : α) :
    get d (set d m k v) j = if j = k then v else get d m j := by
  by_cases h : j = k
  · subst h; simp
  · simp [h, get_set_ne]

/-- Writing keeps the canonical form. -/
theorem wf_set (d : α) (m : FMap α) (k : Nat) (v : α) (w : wf d m = true) : wf d (set d m k v) = true := by
  unfold wf at *
  rw [Bool.and_eq_true] at w ⊢
  unfold set
  split
  · refine ⟨rising_filter _ _ _ w.1, ?_⟩
    have := w.2
    simp only [List.all_eq_true, erase, List.mem_filter] at *
    exact fun x hx => this x hx.1
  · rename_i hv
    exact ⟨rising_insert k v m none rfl w.1, all_insert _ k v m (by simp [hv]) w.2⟩

/-- Dropping entries keeps the canonical form. -/
theorem wf_filter (d : α) (m : FMap α) (f : Nat × α → Bool) (w : wf d m = true) : wf d (m.filter f) = true := by
  unfold wf at *
  rw [Bool.and_eq_true] at w ⊢
  refine ⟨rising_filter _ _ _ w.1, ?_⟩
  have := w.2
  simp only [List.all_eq_true, List.mem_filter] at *
  exact fun x hx => this x hx.1

theorem wf_nil (d : α) : wf d ([] : FMap α) = true := rfl

end Sys2Proof.FMap
end

