-- ==== Sys2Proof/Laws/State.lean ====
section
/-! SUPPORT. What the plain updates of the state leave alone, field by field, and what the record they write reads as. -/

set_option linter.unusedVariables false

namespace Sys2Proof.Machine

variable (s : State)

/-! ## `setPart` -/

@[simp] theorem State.setPart_mem (p : Nat) (x : Part) : (s.setPart p x).mem = s.mem := by rfl
@[simp] theorem State.setPart_memPoison (p : Nat) (x : Part) : (s.setPart p x).memPoison = s.memPoison := by rfl
@[simp] theorem State.setPart_l1 (p : Nat) (x : Part) : (s.setPart p x).l1 = s.l1 := by rfl
@[simp] theorem State.setPart_l2 (p : Nat) (x : Part) : (s.setPart p x).l2 = s.l2 := by rfl
@[simp] theorem State.setPart_owners (p : Nat) (x : Part) : (s.setPart p x).owners = s.owners := by rfl
@[simp] theorem State.setPart_locks (p : Nat) (x : Part) : (s.setPart p x).locks = s.locks := by rfl
@[simp] theorem State.setPart_undo (p : Nat) (x : Part) : (s.setPart p x).undo = s.undo := by rfl
@[simp] theorem State.setPart_stored (p : Nat) (x : Part) : (s.setPart p x).stored = s.stored := by rfl
@[simp] theorem State.setPart_commits (p : Nat) (x : Part) : (s.setPart p x).commits = s.commits := by rfl
@[simp] theorem State.setPart_hostQ (p : Nat) (x : Part) : (s.setPart p x).hostQ = s.hostQ := by rfl
@[simp] theorem State.setPart_regs (p : Nat) (x : Part) : (s.setPart p x).regs = s.regs := by rfl
@[simp] theorem State.setPart_regPoison (p : Nat) (x : Part) : (s.setPart p x).regPoison = s.regPoison := by rfl
@[simp] theorem State.setPart_lanes (p : Nat) (x : Part) : (s.setPart p x).lanes = s.lanes := by rfl
@[simp] theorem State.setPart_teams (p : Nat) (x : Part) : (s.setPart p x).teams = s.teams := by rfl
@[simp] theorem State.setPart_defs (p : Nat) (x : Part) : (s.setPart p x).defs = s.defs := by rfl
@[simp] theorem State.setPart_held (p : Nat) (x : Part) : (s.setPart p x).held = s.held := by rfl
@[simp] theorem State.setPart_cmds (p : Nat) (x : Part) : (s.setPart p x).cmds = s.cmds := by rfl
@[simp] theorem State.setPart_tundish (p : Nat) (x : Part) : (s.setPart p x).tundish = s.tundish := by rfl
@[simp] theorem State.setPart_slots (p : Nat) (x : Part) : (s.setPart p x).slots = s.slots := by rfl
@[simp] theorem State.setPart_arrays (p : Nat) (x : Part) : (s.setPart p x).arrays = s.arrays := by rfl
@[simp] theorem State.setPart_fills (p : Nat) (x : Part) : (s.setPart p x).fills = s.fills := by rfl
@[simp] theorem State.setPart_launches (p : Nat) (x : Part) : (s.setPart p x).launches = s.launches := by rfl
@[simp] theorem State.setPart_clusters (p : Nat) (x : Part) : (s.setPart p x).clusters = s.clusters := by rfl
@[simp] theorem State.setPart_blocks (p : Nat) (x : Part) : (s.setPart p x).blocks = s.blocks := by rfl
@[simp] theorem State.setPart_queues (p : Nat) (x : Part) : (s.setPart p x).queues = s.queues := by rfl
@[simp] theorem State.setPart_released (p : Nat) (x : Part) : (s.setPart p x).released = s.released := by rfl
@[simp] theorem State.setPart_cores (p : Nat) (x : Part) : (s.setPart p x).cores = s.cores := by rfl
@[simp] theorem State.setPart_dies (p : Nat) (x : Part) : (s.setPart p x).dies = s.dies := by rfl
@[simp] theorem State.setPart_fns (p : Nat) (x : Part) : (s.setPart p x).fns = s.fns := by rfl
@[simp] theorem State.setPart_savebase (p : Nat) (x : Part) : (s.setPart p x).savebase = s.savebase := by rfl
@[simp] theorem State.setPart_msix (p : Nat) (x : Part) : (s.setPart p x).msix = s.msix := by rfl
@[simp] theorem State.setPart_msgs (p : Nat) (x : Part) : (s.setPart p x).msgs = s.msgs := by rfl
@[simp] theorem State.setPart_reports (p : Nat) (x : Part) : (s.setPart p x).reports = s.reports := by rfl
@[simp] theorem State.setPart_trapOuts (p : Nat) (x : Part) : (s.setPart p x).trapOuts = s.trapOuts := by rfl
@[simp] theorem State.setPart_waiters (p : Nat) (x : Part) : (s.setPart p x).waiters = s.waiters := by rfl
@[simp] theorem State.setPart_guest (p : Nat) (x : Part) : (s.setPart p x).guest = s.guest := by rfl
@[simp] theorem State.setPart_tick (p : Nat) (x : Part) : (s.setPart p x).tick = s.tick := by rfl
@[simp] theorem State.setPart_maxClock (p : Nat) (x : Part) : (s.setPart p x).maxClock = s.maxClock := by rfl
@[simp] theorem State.setPart_hostClock (p : Nat) (x : Part) : (s.setPart p x).hostClock = s.hostClock := by rfl
@[simp] theorem State.setPart_hostAnswer (p : Nat) (x : Part) : (s.setPart p x).hostAnswer = s.hostAnswer := by rfl
@[simp] theorem State.setPart_stopat (p : Nat) (x : Part) : (s.setPart p x).stopat = s.stopat := by rfl
@[simp] theorem State.setPart_stopDue (p : Nat) (x : Part) : (s.setPart p x).stopDue = s.stopDue := by rfl
@[simp] theorem State.setPart_haltDue (p : Nat) (x : Part) : (s.setPart p x).haltDue = s.haltDue := by rfl
@[simp] theorem State.setPart_stopped (p : Nat) (x : Part) : (s.setPart p x).stopped = s.stopped := by rfl
@[simp] theorem State.setPart_trip (p : Nat) (x : Part) : (s.setPart p x).trip = s.trip := by rfl
@[simp] theorem State.setPart_tripDue (p : Nat) (x : Part) : (s.setPart p x).tripDue = s.tripDue := by rfl
@[simp] theorem State.setPart_mgmt (p : Nat) (x : Part) : (s.setPart p x).mgmt = s.mgmt := by rfl
@[simp] theorem State.setPart_evsel (p : Nat) (x : Part) : (s.setPart p x).evsel = s.evsel := by rfl
@[simp] theorem State.setPart_smpctl (p : Nat) (x : Part) : (s.setPart p x).smpctl = s.smpctl := by rfl
@[simp] theorem State.setPart_rcctl (p : Nat) (x : Part) : (s.setPart p x).rcctl = s.rcctl := by rfl
@[simp] theorem State.setPart_rcact (p : Nat) (x : Part) : (s.setPart p x).rcact = s.rcact := by rfl
@[simp] theorem State.setPart_recording (p : Nat) (x : Part) : (s.setPart p x).recording = s.recording := by rfl
@[simp] theorem State.setPart_playing (p : Nat) (x : Part) : (s.setPart p x).playing = s.playing := by rfl
@[simp] theorem State.setPart_rcsts (p : Nat) (x : Part) : (s.setPart p x).rcsts = s.rcsts := by rfl
@[simp] theorem State.setPart_endt (p : Nat) (x : Part) : (s.setPart p x).endt = s.endt := by rfl
@[simp] theorem State.setPart_rclog (p : Nat) (x : Part) : (s.setPart p x).rclog = s.rclog := by rfl
@[simp] theorem State.setPart_rclogs (p : Nat) (x : Part) : (s.setPart p x).rclogs = s.rclogs := by rfl
@[simp] theorem State.setPart_lnkst (p : Nat) (x : Part) : (s.setPart p x).lnkst = s.lnkst := by rfl
@[simp] theorem State.setPart_fabid (p : Nat) (x : Part) : (s.setPart p x).fabid = s.fabid := by rfl
@[simp] theorem State.setPart_pwrlim (p : Nat) (x : Part) : (s.setPart p x).pwrlim = s.pwrlim := by rfl
@[simp] theorem State.setPart_spdm (p : Nat) (x : Part) : (s.setPart p x).spdm = s.spdm := by rfl
@[simp] theorem State.setPart_issue (p : Nat) (x : Part) : (s.setPart p x).issue = s.issue := by rfl
@[simp] theorem State.setPart_agenda (p : Nat) (x : Part) : (s.setPart p x).agenda = s.agenda := by rfl
@[simp] theorem State.setPart_fresh (p : Nat) (x : Part) : (s.setPart p x).fresh = s.fresh := by rfl
@[simp] theorem State.setPart_nextId (p : Nat) (x : Part) : (s.setPart p x).nextId = s.nextId := by rfl

/-! ## `setLane` -/

@[simp] theorem State.setLane_mem (p : Nat) (x : Lane) : (s.setLane p x).mem = s.mem := by rfl
@[simp] theorem State.setLane_memPoison (p : Nat) (x : Lane) : (s.setLane p x).memPoison = s.memPoison := by rfl
@[simp] theorem State.setLane_l1 (p : Nat) (x : Lane) : (s.setLane p x).l1 = s.l1 := by rfl
@[simp] theorem State.setLane_l2 (p : Nat) (x : Lane) : (s.setLane p x).l2 = s.l2 := by rfl
@[simp] theorem State.setLane_owners (p : Nat) (x : Lane) : (s.setLane p x).owners = s.owners := by rfl
@[simp] theorem State.setLane_locks (p : Nat) (x : Lane) : (s.setLane p x).locks = s.locks := by rfl
@[simp] theorem State.setLane_undo (p : Nat) (x : Lane) : (s.setLane p x).undo = s.undo := by rfl
@[simp] theorem State.setLane_stored (p : Nat) (x : Lane) : (s.setLane p x).stored = s.stored := by rfl
@[simp] theorem State.setLane_commits (p : Nat) (x : Lane) : (s.setLane p x).commits = s.commits := by rfl
@[simp] theorem State.setLane_hostQ (p : Nat) (x : Lane) : (s.setLane p x).hostQ = s.hostQ := by rfl
@[simp] theorem State.setLane_regs (p : Nat) (x : Lane) : (s.setLane p x).regs = s.regs := by rfl
@[simp] theorem State.setLane_regPoison (p : Nat) (x : Lane) : (s.setLane p x).regPoison = s.regPoison := by rfl
@[simp] theorem State.setLane_parts (p : Nat) (x : Lane) : (s.setLane p x).parts = s.parts := by rfl
@[simp] theorem State.setLane_teams (p : Nat) (x : Lane) : (s.setLane p x).teams = s.teams := by rfl
@[simp] theorem State.setLane_defs (p : Nat) (x : Lane) : (s.setLane p x).defs = s.defs := by rfl
@[simp] theorem State.setLane_held (p : Nat) (x : Lane) : (s.setLane p x).held = s.held := by rfl
@[simp] theorem State.setLane_cmds (p : Nat) (x : Lane) : (s.setLane p x).cmds = s.cmds := by rfl
@[simp] theorem State.setLane_tundish (p : Nat) (x : Lane) : (s.setLane p x).tundish = s.tundish := by rfl
@[simp] theorem State.setLane_slots (p : Nat) (x : Lane) : (s.setLane p x).slots = s.slots := by rfl
@[simp] theorem State.setLane_arrays (p : Nat) (x : Lane) : (s.setLane p x).arrays = s.arrays := by rfl
@[simp] theorem State.setLane_fills (p : Nat) (x : Lane) : (s.setLane p x).fills = s.fills := by rfl
@[simp] theorem State.setLane_launches (p : Nat) (x : Lane) : (s.setLane p x).launches = s.launches := by rfl
@[simp] theorem State.setLane_clusters (p : Nat) (x : Lane) : (s.setLane p x).clusters = s.clusters := by rfl
@[simp] theorem State.setLane_blocks (p : Nat) (x : Lane) : (s.setLane p x).blocks = s.blocks := by rfl
@[simp] theorem State.setLane_queues (p : Nat) (x : Lane) : (s.setLane p x).queues = s.queues := by rfl
@[simp] theorem State.setLane_released (p : Nat) (x : Lane) : (s.setLane p x).released = s.released := by rfl
@[simp] theorem State.setLane_cores (p : Nat) (x : Lane) : (s.setLane p x).cores = s.cores := by rfl
@[simp] theorem State.setLane_dies (p : Nat) (x : Lane) : (s.setLane p x).dies = s.dies := by rfl
@[simp] theorem State.setLane_fns (p : Nat) (x : Lane) : (s.setLane p x).fns = s.fns := by rfl
@[simp] theorem State.setLane_savebase (p : Nat) (x : Lane) : (s.setLane p x).savebase = s.savebase := by rfl
@[simp] theorem State.setLane_msix (p : Nat) (x : Lane) : (s.setLane p x).msix = s.msix := by rfl
@[simp] theorem State.setLane_msgs (p : Nat) (x : Lane) : (s.setLane p x).msgs = s.msgs := by rfl
@[simp] theorem State.setLane_reports (p : Nat) (x : Lane) : (s.setLane p x).reports = s.reports := by rfl
@[simp] theorem State.setLane_trapOuts (p : Nat) (x : Lane) : (s.setLane p x).trapOuts = s.trapOuts := by rfl
@[simp] theorem State.setLane_waiters (p : Nat) (x : Lane) : (s.setLane p x).waiters = s.waiters := by rfl
@[simp] theorem State.setLane_guest (p : Nat) (x : Lane) : (s.setLane p x).guest = s.guest := by rfl
@[simp] theorem State.setLane_tick (p : Nat) (x : Lane) : (s.setLane p x).tick = s.tick := by rfl
@[simp] theorem State.setLane_maxClock (p : Nat) (x : Lane) : (s.setLane p x).maxClock = s.maxClock := by rfl
@[simp] theorem State.setLane_hostClock (p : Nat) (x : Lane) : (s.setLane p x).hostClock = s.hostClock := by rfl
@[simp] theorem State.setLane_hostAnswer (p : Nat) (x : Lane) : (s.setLane p x).hostAnswer = s.hostAnswer := by rfl
@[simp] theorem State.setLane_stopat (p : Nat) (x : Lane) : (s.setLane p x).stopat = s.stopat := by rfl
@[simp] theorem State.setLane_stopDue (p : Nat) (x : Lane) : (s.setLane p x).stopDue = s.stopDue := by rfl
@[simp] theorem State.setLane_haltDue (p : Nat) (x : Lane) : (s.setLane p x).haltDue = s.haltDue := by rfl
@[simp] theorem State.setLane_stopped (p : Nat) (x : Lane) : (s.setLane p x).stopped = s.stopped := by rfl
@[simp] theorem State.setLane_trip (p : Nat) (x : Lane) : (s.setLane p x).trip = s.trip := by rfl
@[simp] theorem State.setLane_tripDue (p : Nat) (x : Lane) : (s.setLane p x).tripDue = s.tripDue := by rfl
@[simp] theorem State.setLane_mgmt (p : Nat) (x : Lane) : (s.setLane p x).mgmt = s.mgmt := by rfl
@[simp] theorem State.setLane_evsel (p : Nat) (x : Lane) : (s.setLane p x).evsel = s.evsel := by rfl
@[simp] theorem State.setLane_smpctl (p : Nat) (x : Lane) : (s.setLane p x).smpctl = s.smpctl := by rfl
@[simp] theorem State.setLane_rcctl (p : Nat) (x : Lane) : (s.setLane p x).rcctl = s.rcctl := by rfl
@[simp] theorem State.setLane_rcact (p : Nat) (x : Lane) : (s.setLane p x).rcact = s.rcact := by rfl
@[simp] theorem State.setLane_recording (p : Nat) (x : Lane) : (s.setLane p x).recording = s.recording := by rfl
@[simp] theorem State.setLane_playing (p : Nat) (x : Lane) : (s.setLane p x).playing = s.playing := by rfl
@[simp] theorem State.setLane_rcsts (p : Nat) (x : Lane) : (s.setLane p x).rcsts = s.rcsts := by rfl
@[simp] theorem State.setLane_endt (p : Nat) (x : Lane) : (s.setLane p x).endt = s.endt := by rfl
@[simp] theorem State.setLane_rclog (p : Nat) (x : Lane) : (s.setLane p x).rclog = s.rclog := by rfl
@[simp] theorem State.setLane_rclogs (p : Nat) (x : Lane) : (s.setLane p x).rclogs = s.rclogs := by rfl
@[simp] theorem State.setLane_lnkst (p : Nat) (x : Lane) : (s.setLane p x).lnkst = s.lnkst := by rfl
@[simp] theorem State.setLane_fabid (p : Nat) (x : Lane) : (s.setLane p x).fabid = s.fabid := by rfl
@[simp] theorem State.setLane_pwrlim (p : Nat) (x : Lane) : (s.setLane p x).pwrlim = s.pwrlim := by rfl
@[simp] theorem State.setLane_spdm (p : Nat) (x : Lane) : (s.setLane p x).spdm = s.spdm := by rfl
@[simp] theorem State.setLane_issue (p : Nat) (x : Lane) : (s.setLane p x).issue = s.issue := by rfl
@[simp] theorem State.setLane_agenda (p : Nat) (x : Lane) : (s.setLane p x).agenda = s.agenda := by rfl
@[simp] theorem State.setLane_fresh (p : Nat) (x : Lane) : (s.setLane p x).fresh = s.fresh := by rfl
@[simp] theorem State.setLane_nextId (p : Nat) (x : Lane) : (s.setLane p x).nextId = s.nextId := by rfl

/-! ## `setCore` -/

@[simp] theorem State.setCore_mem (p : Nat) (x : Core) : (s.setCore p x).mem = s.mem := by rfl
@[simp] theorem State.setCore_memPoison (p : Nat) (x : Core) : (s.setCore p x).memPoison = s.memPoison := by rfl
@[simp] theorem State.setCore_l1 (p : Nat) (x : Core) : (s.setCore p x).l1 = s.l1 := by rfl
@[simp] theorem State.setCore_l2 (p : Nat) (x : Core) : (s.setCore p x).l2 = s.l2 := by rfl
@[simp] theorem State.setCore_owners (p : Nat) (x : Core) : (s.setCore p x).owners = s.owners := by rfl
@[simp] theorem State.setCore_locks (p : Nat) (x : Core) : (s.setCore p x).locks = s.locks := by rfl
@[simp] theorem State.setCore_undo (p : Nat) (x : Core) : (s.setCore p x).undo = s.undo := by rfl
@[simp] theorem State.setCore_stored (p : Nat) (x : Core) : (s.setCore p x).stored = s.stored := by rfl
@[simp] theorem State.setCore_commits (p : Nat) (x : Core) : (s.setCore p x).commits = s.commits := by rfl
@[simp] theorem State.setCore_hostQ (p : Nat) (x : Core) : (s.setCore p x).hostQ = s.hostQ := by rfl
@[simp] theorem State.setCore_regs (p : Nat) (x : Core) : (s.setCore p x).regs = s.regs := by rfl
@[simp] theorem State.setCore_regPoison (p : Nat) (x : Core) : (s.setCore p x).regPoison = s.regPoison := by rfl
@[simp] theorem State.setCore_lanes (p : Nat) (x : Core) : (s.setCore p x).lanes = s.lanes := by rfl
@[simp] theorem State.setCore_parts (p : Nat) (x : Core) : (s.setCore p x).parts = s.parts := by rfl
@[simp] theorem State.setCore_teams (p : Nat) (x : Core) : (s.setCore p x).teams = s.teams := by rfl
@[simp] theorem State.setCore_defs (p : Nat) (x : Core) : (s.setCore p x).defs = s.defs := by rfl
@[simp] theorem State.setCore_held (p : Nat) (x : Core) : (s.setCore p x).held = s.held := by rfl
@[simp] theorem State.setCore_cmds (p : Nat) (x : Core) : (s.setCore p x).cmds = s.cmds := by rfl
@[simp] theorem State.setCore_tundish (p : Nat) (x : Core) : (s.setCore p x).tundish = s.tundish := by rfl
@[simp] theorem State.setCore_slots (p : Nat) (x : Core) : (s.setCore p x).slots = s.slots := by rfl
@[simp] theorem State.setCore_arrays (p : Nat) (x : Core) : (s.setCore p x).arrays = s.arrays := by rfl
@[simp] theorem State.setCore_fills (p : Nat) (x : Core) : (s.setCore p x).fills = s.fills := by rfl
@[simp] theorem State.setCore_launches (p : Nat) (x : Core) : (s.setCore p x).launches = s.launches := by rfl
@[simp] theorem State.setCore_clusters (p : Nat) (x : Core) : (s.setCore p x).clusters = s.clusters := by rfl
@[simp] theorem State.setCore_blocks (p : Nat) (x : Core) : (s.setCore p x).blocks = s.blocks := by rfl
@[simp] theorem State.setCore_queues (p : Nat) (x : Core) : (s.setCore p x).queues = s.queues := by rfl
@[simp] theorem State.setCore_released (p : Nat) (x : Core) : (s.setCore p x).released = s.released := by rfl
@[simp] theorem State.setCore_dies (p : Nat) (x : Core) : (s.setCore p x).dies = s.dies := by rfl
@[simp] theorem State.setCore_fns (p : Nat) (x : Core) : (s.setCore p x).fns = s.fns := by rfl
@[simp] theorem State.setCore_savebase (p : Nat) (x : Core) : (s.setCore p x).savebase = s.savebase := by rfl
@[simp] theorem State.setCore_msix (p : Nat) (x : Core) : (s.setCore p x).msix = s.msix := by rfl
@[simp] theorem State.setCore_msgs (p : Nat) (x : Core) : (s.setCore p x).msgs = s.msgs := by rfl
@[simp] theorem State.setCore_reports (p : Nat) (x : Core) : (s.setCore p x).reports = s.reports := by rfl
@[simp] theorem State.setCore_trapOuts (p : Nat) (x : Core) : (s.setCore p x).trapOuts = s.trapOuts := by rfl
@[simp] theorem State.setCore_waiters (p : Nat) (x : Core) : (s.setCore p x).waiters = s.waiters := by rfl
@[simp] theorem State.setCore_guest (p : Nat) (x : Core) : (s.setCore p x).guest = s.guest := by rfl
@[simp] theorem State.setCore_tick (p : Nat) (x : Core) : (s.setCore p x).tick = s.tick := by rfl
@[simp] theorem State.setCore_maxClock (p : Nat) (x : Core) : (s.setCore p x).maxClock = s.maxClock := by rfl
@[simp] theorem State.setCore_hostClock (p : Nat) (x : Core) : (s.setCore p x).hostClock = s.hostClock := by rfl
@[simp] theorem State.setCore_hostAnswer (p : Nat) (x : Core) : (s.setCore p x).hostAnswer = s.hostAnswer := by rfl
@[simp] theorem State.setCore_stopat (p : Nat) (x : Core) : (s.setCore p x).stopat = s.stopat := by rfl
@[simp] theorem State.setCore_stopDue (p : Nat) (x : Core) : (s.setCore p x).stopDue = s.stopDue := by rfl
@[simp] theorem State.setCore_haltDue (p : Nat) (x : Core) : (s.setCore p x).haltDue = s.haltDue := by rfl
@[simp] theorem State.setCore_stopped (p : Nat) (x : Core) : (s.setCore p x).stopped = s.stopped := by rfl
@[simp] theorem State.setCore_trip (p : Nat) (x : Core) : (s.setCore p x).trip = s.trip := by rfl
@[simp] theorem State.setCore_tripDue (p : Nat) (x : Core) : (s.setCore p x).tripDue = s.tripDue := by rfl
@[simp] theorem State.setCore_mgmt (p : Nat) (x : Core) : (s.setCore p x).mgmt = s.mgmt := by rfl
@[simp] theorem State.setCore_evsel (p : Nat) (x : Core) : (s.setCore p x).evsel = s.evsel := by rfl
@[simp] theorem State.setCore_smpctl (p : Nat) (x : Core) : (s.setCore p x).smpctl = s.smpctl := by rfl
@[simp] theorem State.setCore_rcctl (p : Nat) (x : Core) : (s.setCore p x).rcctl = s.rcctl := by rfl
@[simp] theorem State.setCore_rcact (p : Nat) (x : Core) : (s.setCore p x).rcact = s.rcact := by rfl
@[simp] theorem State.setCore_recording (p : Nat) (x : Core) : (s.setCore p x).recording = s.recording := by rfl
@[simp] theorem State.setCore_playing (p : Nat) (x : Core) : (s.setCore p x).playing = s.playing := by rfl
@[simp] theorem State.setCore_rcsts (p : Nat) (x : Core) : (s.setCore p x).rcsts = s.rcsts := by rfl
@[simp] theorem State.setCore_endt (p : Nat) (x : Core) : (s.setCore p x).endt = s.endt := by rfl
@[simp] theorem State.setCore_rclog (p : Nat) (x : Core) : (s.setCore p x).rclog = s.rclog := by rfl
@[simp] theorem State.setCore_rclogs (p : Nat) (x : Core) : (s.setCore p x).rclogs = s.rclogs := by rfl
@[simp] theorem State.setCore_lnkst (p : Nat) (x : Core) : (s.setCore p x).lnkst = s.lnkst := by rfl
@[simp] theorem State.setCore_fabid (p : Nat) (x : Core) : (s.setCore p x).fabid = s.fabid := by rfl
@[simp] theorem State.setCore_pwrlim (p : Nat) (x : Core) : (s.setCore p x).pwrlim = s.pwrlim := by rfl
@[simp] theorem State.setCore_spdm (p : Nat) (x : Core) : (s.setCore p x).spdm = s.spdm := by rfl
@[simp] theorem State.setCore_issue (p : Nat) (x : Core) : (s.setCore p x).issue = s.issue := by rfl
@[simp] theorem State.setCore_agenda (p : Nat) (x : Core) : (s.setCore p x).agenda = s.agenda := by rfl
@[simp] theorem State.setCore_fresh (p : Nat) (x : Core) : (s.setCore p x).fresh = s.fresh := by rfl
@[simp] theorem State.setCore_nextId (p : Nat) (x : Core) : (s.setCore p x).nextId = s.nextId := by rfl

/-! ## `setDie` -/

@[simp] theorem State.setDie_mem (p : Nat) (x : Die) : (s.setDie p x).mem = s.mem := by rfl
@[simp] theorem State.setDie_memPoison (p : Nat) (x : Die) : (s.setDie p x).memPoison = s.memPoison := by rfl
@[simp] theorem State.setDie_l1 (p : Nat) (x : Die) : (s.setDie p x).l1 = s.l1 := by rfl
@[simp] theorem State.setDie_l2 (p : Nat) (x : Die) : (s.setDie p x).l2 = s.l2 := by rfl
@[simp] theorem State.setDie_owners (p : Nat) (x : Die) : (s.setDie p x).owners = s.owners := by rfl
@[simp] theorem State.setDie_locks (p : Nat) (x : Die) : (s.setDie p x).locks = s.locks := by rfl
@[simp] theorem State.setDie_undo (p : Nat) (x : Die) : (s.setDie p x).undo = s.undo := by rfl
@[simp] theorem State.setDie_stored (p : Nat) (x : Die) : (s.setDie p x).stored = s.stored := by rfl
@[simp] theorem State.setDie_commits (p : Nat) (x : Die) : (s.setDie p x).commits = s.commits := by rfl
@[simp] theorem State.setDie_hostQ (p : Nat) (x : Die) : (s.setDie p x).hostQ = s.hostQ := by rfl
@[simp] theorem State.setDie_regs (p : Nat) (x : Die) : (s.setDie p x).regs = s.regs := by rfl
@[simp] theorem State.setDie_regPoison (p : Nat) (x : Die) : (s.setDie p x).regPoison = s.regPoison := by rfl
@[simp] theorem State.setDie_lanes (p : Nat) (x : Die) : (s.setDie p x).lanes = s.lanes := by rfl
@[simp] theorem State.setDie_parts (p : Nat) (x : Die) : (s.setDie p x).parts = s.parts := by rfl
@[simp] theorem State.setDie_teams (p : Nat) (x : Die) : (s.setDie p x).teams = s.teams := by rfl
@[simp] theorem State.setDie_defs (p : Nat) (x : Die) : (s.setDie p x).defs = s.defs := by rfl
@[simp] theorem State.setDie_held (p : Nat) (x : Die) : (s.setDie p x).held = s.held := by rfl
@[simp] theorem State.setDie_cmds (p : Nat) (x : Die) : (s.setDie p x).cmds = s.cmds := by rfl
@[simp] theorem State.setDie_tundish (p : Nat) (x : Die) : (s.setDie p x).tundish = s.tundish := by rfl
@[simp] theorem State.setDie_slots (p : Nat) (x : Die) : (s.setDie p x).slots = s.slots := by rfl
@[simp] theorem State.setDie_arrays (p : Nat) (x : Die) : (s.setDie p x).arrays = s.arrays := by rfl
@[simp] theorem State.setDie_fills (p : Nat) (x : Die) : (s.setDie p x).fills = s.fills := by rfl
@[simp] theorem State.setDie_launches (p : Nat) (x : Die) : (s.setDie p x).launches = s.launches := by rfl
@[simp] theorem State.setDie_clusters (p : Nat) (x : Die) : (s.setDie p x).clusters = s.clusters := by rfl
@[simp] theorem State.setDie_blocks (p : Nat) (x : Die) : (s.setDie p x).blocks = s.blocks := by rfl
@[simp] theorem State.setDie_queues (p : Nat) (x : Die) : (s.setDie p x).queues = s.queues := by rfl
@[simp] theorem State.setDie_released (p : Nat) (x : Die) : (s.setDie p x).released = s.released := by rfl
@[simp] theorem State.setDie_cores (p : Nat) (x : Die) : (s.setDie p x).cores = s.cores := by rfl
@[simp] theorem State.setDie_fns (p : Nat) (x : Die) : (s.setDie p x).fns = s.fns := by rfl
@[simp] theorem State.setDie_savebase (p : Nat) (x : Die) : (s.setDie p x).savebase = s.savebase := by rfl
@[simp] theorem State.setDie_msix (p : Nat) (x : Die) : (s.setDie p x).msix = s.msix := by rfl
@[simp] theorem State.setDie_msgs (p : Nat) (x : Die) : (s.setDie p x).msgs = s.msgs := by rfl
@[simp] theorem State.setDie_reports (p : Nat) (x : Die) : (s.setDie p x).reports = s.reports := by rfl
@[simp] theorem State.setDie_trapOuts (p : Nat) (x : Die) : (s.setDie p x).trapOuts = s.trapOuts := by rfl
@[simp] theorem State.setDie_waiters (p : Nat) (x : Die) : (s.setDie p x).waiters = s.waiters := by rfl
@[simp] theorem State.setDie_guest (p : Nat) (x : Die) : (s.setDie p x).guest = s.guest := by rfl
@[simp] theorem State.setDie_tick (p : Nat) (x : Die) : (s.setDie p x).tick = s.tick := by rfl
@[simp] theorem State.setDie_maxClock (p : Nat) (x : Die) : (s.setDie p x).maxClock = s.maxClock := by rfl
@[simp] theorem State.setDie_hostClock (p : Nat) (x : Die) : (s.setDie p x).hostClock = s.hostClock := by rfl
@[simp] theorem State.setDie_hostAnswer (p : Nat) (x : Die) : (s.setDie p x).hostAnswer = s.hostAnswer := by rfl
@[simp] theorem State.setDie_stopat (p : Nat) (x : Die) : (s.setDie p x).stopat = s.stopat := by rfl
@[simp] theorem State.setDie_stopDue (p : Nat) (x : Die) : (s.setDie p x).stopDue = s.stopDue := by rfl
@[simp] theorem State.setDie_haltDue (p : Nat) (x : Die) : (s.setDie p x).haltDue = s.haltDue := by rfl
@[simp] theorem State.setDie_stopped (p : Nat) (x : Die) : (s.setDie p x).stopped = s.stopped := by rfl
@[simp] theorem State.setDie_trip (p : Nat) (x : Die) : (s.setDie p x).trip = s.trip := by rfl
@[simp] theorem State.setDie_tripDue (p : Nat) (x : Die) : (s.setDie p x).tripDue = s.tripDue := by rfl
@[simp] theorem State.setDie_mgmt (p : Nat) (x : Die) : (s.setDie p x).mgmt = s.mgmt := by rfl
@[simp] theorem State.setDie_evsel (p : Nat) (x : Die) : (s.setDie p x).evsel = s.evsel := by rfl
@[simp] theorem State.setDie_smpctl (p : Nat) (x : Die) : (s.setDie p x).smpctl = s.smpctl := by rfl
@[simp] theorem State.setDie_rcctl (p : Nat) (x : Die) : (s.setDie p x).rcctl = s.rcctl := by rfl
@[simp] theorem State.setDie_rcact (p : Nat) (x : Die) : (s.setDie p x).rcact = s.rcact := by rfl
@[simp] theorem State.setDie_recording (p : Nat) (x : Die) : (s.setDie p x).recording = s.recording := by rfl
@[simp] theorem State.setDie_playing (p : Nat) (x : Die) : (s.setDie p x).playing = s.playing := by rfl
@[simp] theorem State.setDie_rcsts (p : Nat) (x : Die) : (s.setDie p x).rcsts = s.rcsts := by rfl
@[simp] theorem State.setDie_endt (p : Nat) (x : Die) : (s.setDie p x).endt = s.endt := by rfl
@[simp] theorem State.setDie_rclog (p : Nat) (x : Die) : (s.setDie p x).rclog = s.rclog := by rfl
@[simp] theorem State.setDie_rclogs (p : Nat) (x : Die) : (s.setDie p x).rclogs = s.rclogs := by rfl
@[simp] theorem State.setDie_lnkst (p : Nat) (x : Die) : (s.setDie p x).lnkst = s.lnkst := by rfl
@[simp] theorem State.setDie_fabid (p : Nat) (x : Die) : (s.setDie p x).fabid = s.fabid := by rfl
@[simp] theorem State.setDie_pwrlim (p : Nat) (x : Die) : (s.setDie p x).pwrlim = s.pwrlim := by rfl
@[simp] theorem State.setDie_spdm (p : Nat) (x : Die) : (s.setDie p x).spdm = s.spdm := by rfl
@[simp] theorem State.setDie_issue (p : Nat) (x : Die) : (s.setDie p x).issue = s.issue := by rfl
@[simp] theorem State.setDie_agenda (p : Nat) (x : Die) : (s.setDie p x).agenda = s.agenda := by rfl
@[simp] theorem State.setDie_fresh (p : Nat) (x : Die) : (s.setDie p x).fresh = s.fresh := by rfl
@[simp] theorem State.setDie_nextId (p : Nat) (x : Die) : (s.setDie p x).nextId = s.nextId := by rfl

/-! ## `setFn` -/

@[simp] theorem State.setFn_mem (p : Nat) (x : Fn) : (s.setFn p x).mem = s.mem := by rfl
@[simp] theorem State.setFn_memPoison (p : Nat) (x : Fn) : (s.setFn p x).memPoison = s.memPoison := by rfl
@[simp] theorem State.setFn_l1 (p : Nat) (x : Fn) : (s.setFn p x).l1 = s.l1 := by rfl
@[simp] theorem State.setFn_l2 (p : Nat) (x : Fn) : (s.setFn p x).l2 = s.l2 := by rfl
@[simp] theorem State.setFn_owners (p : Nat) (x : Fn) : (s.setFn p x).owners = s.owners := by rfl
@[simp] theorem State.setFn_locks (p : Nat) (x : Fn) : (s.setFn p x).locks = s.locks := by rfl
@[simp] theorem State.setFn_undo (p : Nat) (x : Fn) : (s.setFn p x).undo = s.undo := by rfl
@[simp] theorem State.setFn_stored (p : Nat) (x : Fn) : (s.setFn p x).stored = s.stored := by rfl
@[simp] theorem State.setFn_commits (p : Nat) (x : Fn) : (s.setFn p x).commits = s.commits := by rfl
@[simp] theorem State.setFn_hostQ (p : Nat) (x : Fn) : (s.setFn p x).hostQ = s.hostQ := by rfl
@[simp] theorem State.setFn_regs (p : Nat) (x : Fn) : (s.setFn p x).regs = s.regs := by rfl
@[simp] theorem State.setFn_regPoison (p : Nat) (x : Fn) : (s.setFn p x).regPoison = s.regPoison := by rfl
@[simp] theorem State.setFn_lanes (p : Nat) (x : Fn) : (s.setFn p x).lanes = s.lanes := by rfl
@[simp] theorem State.setFn_parts (p : Nat) (x : Fn) : (s.setFn p x).parts = s.parts := by rfl
@[simp] theorem State.setFn_teams (p : Nat) (x : Fn) : (s.setFn p x).teams = s.teams := by rfl
@[simp] theorem State.setFn_defs (p : Nat) (x : Fn) : (s.setFn p x).defs = s.defs := by rfl
@[simp] theorem State.setFn_held (p : Nat) (x : Fn) : (s.setFn p x).held = s.held := by rfl
@[simp] theorem State.setFn_cmds (p : Nat) (x : Fn) : (s.setFn p x).cmds = s.cmds := by rfl
@[simp] theorem State.setFn_tundish (p : Nat) (x : Fn) : (s.setFn p x).tundish = s.tundish := by rfl
@[simp] theorem State.setFn_slots (p : Nat) (x : Fn) : (s.setFn p x).slots = s.slots := by rfl
@[simp] theorem State.setFn_arrays (p : Nat) (x : Fn) : (s.setFn p x).arrays = s.arrays := by rfl
@[simp] theorem State.setFn_fills (p : Nat) (x : Fn) : (s.setFn p x).fills = s.fills := by rfl
@[simp] theorem State.setFn_launches (p : Nat) (x : Fn) : (s.setFn p x).launches = s.launches := by rfl
@[simp] theorem State.setFn_clusters (p : Nat) (x : Fn) : (s.setFn p x).clusters = s.clusters := by rfl
@[simp] theorem State.setFn_blocks (p : Nat) (x : Fn) : (s.setFn p x).blocks = s.blocks := by rfl
@[simp] theorem State.setFn_queues (p : Nat) (x : Fn) : (s.setFn p x).queues = s.queues := by rfl
@[simp] theorem State.setFn_released (p : Nat) (x : Fn) : (s.setFn p x).released = s.released := by rfl
@[simp] theorem State.setFn_cores (p : Nat) (x : Fn) : (s.setFn p x).cores = s.cores := by rfl
@[simp] theorem State.setFn_dies (p : Nat) (x : Fn) : (s.setFn p x).dies = s.dies := by rfl
@[simp] theorem State.setFn_savebase (p : Nat) (x : Fn) : (s.setFn p x).savebase = s.savebase := by rfl
@[simp] theorem State.setFn_msix (p : Nat) (x : Fn) : (s.setFn p x).msix = s.msix := by rfl
@[simp] theorem State.setFn_msgs (p : Nat) (x : Fn) : (s.setFn p x).msgs = s.msgs := by rfl
@[simp] theorem State.setFn_reports (p : Nat) (x : Fn) : (s.setFn p x).reports = s.reports := by rfl
@[simp] theorem State.setFn_trapOuts (p : Nat) (x : Fn) : (s.setFn p x).trapOuts = s.trapOuts := by rfl
@[simp] theorem State.setFn_waiters (p : Nat) (x : Fn) : (s.setFn p x).waiters = s.waiters := by rfl
@[simp] theorem State.setFn_guest (p : Nat) (x : Fn) : (s.setFn p x).guest = s.guest := by rfl
@[simp] theorem State.setFn_tick (p : Nat) (x : Fn) : (s.setFn p x).tick = s.tick := by rfl
@[simp] theorem State.setFn_maxClock (p : Nat) (x : Fn) : (s.setFn p x).maxClock = s.maxClock := by rfl
@[simp] theorem State.setFn_hostClock (p : Nat) (x : Fn) : (s.setFn p x).hostClock = s.hostClock := by rfl
@[simp] theorem State.setFn_hostAnswer (p : Nat) (x : Fn) : (s.setFn p x).hostAnswer = s.hostAnswer := by rfl
@[simp] theorem State.setFn_stopat (p : Nat) (x : Fn) : (s.setFn p x).stopat = s.stopat := by rfl
@[simp] theorem State.setFn_stopDue (p : Nat) (x : Fn) : (s.setFn p x).stopDue = s.stopDue := by rfl
@[simp] theorem State.setFn_haltDue (p : Nat) (x : Fn) : (s.setFn p x).haltDue = s.haltDue := by rfl
@[simp] theorem State.setFn_stopped (p : Nat) (x : Fn) : (s.setFn p x).stopped = s.stopped := by rfl
@[simp] theorem State.setFn_trip (p : Nat) (x : Fn) : (s.setFn p x).trip = s.trip := by rfl
@[simp] theorem State.setFn_tripDue (p : Nat) (x : Fn) : (s.setFn p x).tripDue = s.tripDue := by rfl
@[simp] theorem State.setFn_mgmt (p : Nat) (x : Fn) : (s.setFn p x).mgmt = s.mgmt := by rfl
@[simp] theorem State.setFn_evsel (p : Nat) (x : Fn) : (s.setFn p x).evsel = s.evsel := by rfl
@[simp] theorem State.setFn_smpctl (p : Nat) (x : Fn) : (s.setFn p x).smpctl = s.smpctl := by rfl
@[simp] theorem State.setFn_rcctl (p : Nat) (x : Fn) : (s.setFn p x).rcctl = s.rcctl := by rfl
@[simp] theorem State.setFn_rcact (p : Nat) (x : Fn) : (s.setFn p x).rcact = s.rcact := by rfl
@[simp] theorem State.setFn_recording (p : Nat) (x : Fn) : (s.setFn p x).recording = s.recording := by rfl
@[simp] theorem State.setFn_playing (p : Nat) (x : Fn) : (s.setFn p x).playing = s.playing := by rfl
@[simp] theorem State.setFn_rcsts (p : Nat) (x : Fn) : (s.setFn p x).rcsts = s.rcsts := by rfl
@[simp] theorem State.setFn_endt (p : Nat) (x : Fn) : (s.setFn p x).endt = s.endt := by rfl
@[simp] theorem State.setFn_rclog (p : Nat) (x : Fn) : (s.setFn p x).rclog = s.rclog := by rfl
@[simp] theorem State.setFn_rclogs (p : Nat) (x : Fn) : (s.setFn p x).rclogs = s.rclogs := by rfl
@[simp] theorem State.setFn_lnkst (p : Nat) (x : Fn) : (s.setFn p x).lnkst = s.lnkst := by rfl
@[simp] theorem State.setFn_fabid (p : Nat) (x : Fn) : (s.setFn p x).fabid = s.fabid := by rfl
@[simp] theorem State.setFn_pwrlim (p : Nat) (x : Fn) : (s.setFn p x).pwrlim = s.pwrlim := by rfl
@[simp] theorem State.setFn_spdm (p : Nat) (x : Fn) : (s.setFn p x).spdm = s.spdm := by rfl
@[simp] theorem State.setFn_issue (p : Nat) (x : Fn) : (s.setFn p x).issue = s.issue := by rfl
@[simp] theorem State.setFn_agenda (p : Nat) (x : Fn) : (s.setFn p x).agenda = s.agenda := by rfl
@[simp] theorem State.setFn_fresh (p : Nat) (x : Fn) : (s.setFn p x).fresh = s.fresh := by rfl
@[simp] theorem State.setFn_nextId (p : Nat) (x : Fn) : (s.setFn p x).nextId = s.nextId := by rfl

/-! ## `setLaunch` -/

@[simp] theorem State.setLaunch_mem (p : Nat) (x : Launch) : (s.setLaunch p x).mem = s.mem := by rfl
@[simp] theorem State.setLaunch_memPoison (p : Nat) (x : Launch) : (s.setLaunch p x).memPoison = s.memPoison := by rfl
@[simp] theorem State.setLaunch_l1 (p : Nat) (x : Launch) : (s.setLaunch p x).l1 = s.l1 := by rfl
@[simp] theorem State.setLaunch_l2 (p : Nat) (x : Launch) : (s.setLaunch p x).l2 = s.l2 := by rfl
@[simp] theorem State.setLaunch_owners (p : Nat) (x : Launch) : (s.setLaunch p x).owners = s.owners := by rfl
@[simp] theorem State.setLaunch_locks (p : Nat) (x : Launch) : (s.setLaunch p x).locks = s.locks := by rfl
@[simp] theorem State.setLaunch_undo (p : Nat) (x : Launch) : (s.setLaunch p x).undo = s.undo := by rfl
@[simp] theorem State.setLaunch_stored (p : Nat) (x : Launch) : (s.setLaunch p x).stored = s.stored := by rfl
@[simp] theorem State.setLaunch_commits (p : Nat) (x : Launch) : (s.setLaunch p x).commits = s.commits := by rfl
@[simp] theorem State.setLaunch_hostQ (p : Nat) (x : Launch) : (s.setLaunch p x).hostQ = s.hostQ := by rfl
@[simp] theorem State.setLaunch_regs (p : Nat) (x : Launch) : (s.setLaunch p x).regs = s.regs := by rfl
@[simp] theorem State.setLaunch_regPoison (p : Nat) (x : Launch) : (s.setLaunch p x).regPoison = s.regPoison := by rfl
@[simp] theorem State.setLaunch_lanes (p : Nat) (x : Launch) : (s.setLaunch p x).lanes = s.lanes := by rfl
@[simp] theorem State.setLaunch_parts (p : Nat) (x : Launch) : (s.setLaunch p x).parts = s.parts := by rfl
@[simp] theorem State.setLaunch_teams (p : Nat) (x : Launch) : (s.setLaunch p x).teams = s.teams := by rfl
@[simp] theorem State.setLaunch_defs (p : Nat) (x : Launch) : (s.setLaunch p x).defs = s.defs := by rfl
@[simp] theorem State.setLaunch_held (p : Nat) (x : Launch) : (s.setLaunch p x).held = s.held := by rfl
@[simp] theorem State.setLaunch_cmds (p : Nat) (x : Launch) : (s.setLaunch p x).cmds = s.cmds := by rfl
@[simp] theorem State.setLaunch_tundish (p : Nat) (x : Launch) : (s.setLaunch p x).tundish = s.tundish := by rfl
@[simp] theorem State.setLaunch_slots (p : Nat) (x : Launch) : (s.setLaunch p x).slots = s.slots := by rfl
@[simp] theorem State.setLaunch_arrays (p : Nat) (x : Launch) : (s.setLaunch p x).arrays = s.arrays := by rfl
@[simp] theorem State.setLaunch_fills (p : Nat) (x : Launch) : (s.setLaunch p x).fills = s.fills := by rfl
@[simp] theorem State.setLaunch_clusters (p : Nat) (x : Launch) : (s.setLaunch p x).clusters = s.clusters := by rfl
@[simp] theorem State.setLaunch_blocks (p : Nat) (x : Launch) : (s.setLaunch p x).blocks = s.blocks := by rfl
@[simp] theorem State.setLaunch_queues (p : Nat) (x : Launch) : (s.setLaunch p x).queues = s.queues := by rfl
@[simp] theorem State.setLaunch_released (p : Nat) (x : Launch) : (s.setLaunch p x).released = s.released := by rfl
@[simp] theorem State.setLaunch_cores (p : Nat) (x : Launch) : (s.setLaunch p x).cores = s.cores := by rfl
@[simp] theorem State.setLaunch_dies (p : Nat) (x : Launch) : (s.setLaunch p x).dies = s.dies := by rfl
@[simp] theorem State.setLaunch_fns (p : Nat) (x : Launch) : (s.setLaunch p x).fns = s.fns := by rfl
@[simp] theorem State.setLaunch_savebase (p : Nat) (x : Launch) : (s.setLaunch p x).savebase = s.savebase := by rfl
@[simp] theorem State.setLaunch_msix (p : Nat) (x : Launch) : (s.setLaunch p x).msix = s.msix := by rfl
@[simp] theorem State.setLaunch_msgs (p : Nat) (x : Launch) : (s.setLaunch p x).msgs = s.msgs := by rfl
@[simp] theorem State.setLaunch_reports (p : Nat) (x : Launch) : (s.setLaunch p x).reports = s.reports := by rfl
@[simp] theorem State.setLaunch_trapOuts (p : Nat) (x : Launch) : (s.setLaunch p x).trapOuts = s.trapOuts := by rfl
@[simp] theorem State.setLaunch_waiters (p : Nat) (x : Launch) : (s.setLaunch p x).waiters = s.waiters := by rfl
@[simp] theorem State.setLaunch_guest (p : Nat) (x : Launch) : (s.setLaunch p x).guest = s.guest := by rfl
@[simp] theorem State.setLaunch_tick (p : Nat) (x : Launch) : (s.setLaunch p x).tick = s.tick := by rfl
@[simp] theorem State.setLaunch_maxClock (p : Nat) (x : Launch) : (s.setLaunch p x).maxClock = s.maxClock := by rfl
@[simp] theorem State.setLaunch_hostClock (p : Nat) (x : Launch) : (s.setLaunch p x).hostClock = s.hostClock := by rfl
@[simp] theorem State.setLaunch_hostAnswer (p : Nat) (x : Launch) : (s.setLaunch p x).hostAnswer = s.hostAnswer := by rfl
@[simp] theorem State.setLaunch_stopat (p : Nat) (x : Launch) : (s.setLaunch p x).stopat = s.stopat := by rfl
@[simp] theorem State.setLaunch_stopDue (p : Nat) (x : Launch) : (s.setLaunch p x).stopDue = s.stopDue := by rfl
@[simp] theorem State.setLaunch_haltDue (p : Nat) (x : Launch) : (s.setLaunch p x).haltDue = s.haltDue := by rfl
@[simp] theorem State.setLaunch_stopped (p : Nat) (x : Launch) : (s.setLaunch p x).stopped = s.stopped := by rfl
@[simp] theorem State.setLaunch_trip (p : Nat) (x : Launch) : (s.setLaunch p x).trip = s.trip := by rfl
@[simp] theorem State.setLaunch_tripDue (p : Nat) (x : Launch) : (s.setLaunch p x).tripDue = s.tripDue := by rfl
@[simp] theorem State.setLaunch_mgmt (p : Nat) (x : Launch) : (s.setLaunch p x).mgmt = s.mgmt := by rfl
@[simp] theorem State.setLaunch_evsel (p : Nat) (x : Launch) : (s.setLaunch p x).evsel = s.evsel := by rfl
@[simp] theorem State.setLaunch_smpctl (p : Nat) (x : Launch) : (s.setLaunch p x).smpctl = s.smpctl := by rfl
@[simp] theorem State.setLaunch_rcctl (p : Nat) (x : Launch) : (s.setLaunch p x).rcctl = s.rcctl := by rfl
@[simp] theorem State.setLaunch_rcact (p : Nat) (x : Launch) : (s.setLaunch p x).rcact = s.rcact := by rfl
@[simp] theorem State.setLaunch_recording (p : Nat) (x : Launch) : (s.setLaunch p x).recording = s.recording := by rfl
@[simp] theorem State.setLaunch_playing (p : Nat) (x : Launch) : (s.setLaunch p x).playing = s.playing := by rfl
@[simp] theorem State.setLaunch_rcsts (p : Nat) (x : Launch) : (s.setLaunch p x).rcsts = s.rcsts := by rfl
@[simp] theorem State.setLaunch_endt (p : Nat) (x : Launch) : (s.setLaunch p x).endt = s.endt := by rfl
@[simp] theorem State.setLaunch_rclog (p : Nat) (x : Launch) : (s.setLaunch p x).rclog = s.rclog := by rfl
@[simp] theorem State.setLaunch_rclogs (p : Nat) (x : Launch) : (s.setLaunch p x).rclogs = s.rclogs := by rfl
@[simp] theorem State.setLaunch_lnkst (p : Nat) (x : Launch) : (s.setLaunch p x).lnkst = s.lnkst := by rfl
@[simp] theorem State.setLaunch_fabid (p : Nat) (x : Launch) : (s.setLaunch p x).fabid = s.fabid := by rfl
@[simp] theorem State.setLaunch_pwrlim (p : Nat) (x : Launch) : (s.setLaunch p x).pwrlim = s.pwrlim := by rfl
@[simp] theorem State.setLaunch_spdm (p : Nat) (x : Launch) : (s.setLaunch p x).spdm = s.spdm := by rfl
@[simp] theorem State.setLaunch_issue (p : Nat) (x : Launch) : (s.setLaunch p x).issue = s.issue := by rfl
@[simp] theorem State.setLaunch_agenda (p : Nat) (x : Launch) : (s.setLaunch p x).agenda = s.agenda := by rfl
@[simp] theorem State.setLaunch_fresh (p : Nat) (x : Launch) : (s.setLaunch p x).fresh = s.fresh := by rfl
@[simp] theorem State.setLaunch_nextId (p : Nat) (x : Launch) : (s.setLaunch p x).nextId = s.nextId := by rfl

/-! ## `setCluster` -/

@[simp] theorem State.setCluster_mem (p : Nat) (x : Cluster) : (s.setCluster p x).mem = s.mem := by rfl
@[simp] theorem State.setCluster_memPoison (p : Nat) (x : Cluster) : (s.setCluster p x).memPoison = s.memPoison := by rfl
@[simp] theorem State.setCluster_l1 (p : Nat) (x : Cluster) : (s.setCluster p x).l1 = s.l1 := by rfl
@[simp] theorem State.setCluster_l2 (p : Nat) (x : Cluster) : (s.setCluster p x).l2 = s.l2 := by rfl
@[simp] theorem State.setCluster_owners (p : Nat) (x : Cluster) : (s.setCluster p x).owners = s.owners := by rfl
@[simp] theorem State.setCluster_locks (p : Nat) (x : Cluster) : (s.setCluster p x).locks = s.locks := by rfl
@[simp] theorem State.setCluster_undo (p : Nat) (x : Cluster) : (s.setCluster p x).undo = s.undo := by rfl
@[simp] theorem State.setCluster_stored (p : Nat) (x : Cluster) : (s.setCluster p x).stored = s.stored := by rfl
@[simp] theorem State.setCluster_commits (p : Nat) (x : Cluster) : (s.setCluster p x).commits = s.commits := by rfl
@[simp] theorem State.setCluster_hostQ (p : Nat) (x : Cluster) : (s.setCluster p x).hostQ = s.hostQ := by rfl
@[simp] theorem State.setCluster_regs (p : Nat) (x : Cluster) : (s.setCluster p x).regs = s.regs := by rfl
@[simp] theorem State.setCluster_regPoison (p : Nat) (x : Cluster) : (s.setCluster p x).regPoison = s.regPoison := by rfl
@[simp] theorem State.setCluster_lanes (p : Nat) (x : Cluster) : (s.setCluster p x).lanes = s.lanes := by rfl
@[simp] theorem State.setCluster_parts (p : Nat) (x : Cluster) : (s.setCluster p x).parts = s.parts := by rfl
@[simp] theorem State.setCluster_teams (p : Nat) (x : Cluster) : (s.setCluster p x).teams = s.teams := by rfl
@[simp] theorem State.setCluster_defs (p : Nat) (x : Cluster) : (s.setCluster p x).defs = s.defs := by rfl
@[simp] theorem State.setCluster_held (p : Nat) (x : Cluster) : (s.setCluster p x).held = s.held := by rfl
@[simp] theorem State.setCluster_cmds (p : Nat) (x : Cluster) : (s.setCluster p x).cmds = s.cmds := by rfl
@[simp] theorem State.setCluster_tundish (p : Nat) (x : Cluster) : (s.setCluster p x).tundish = s.tundish := by rfl
@[simp] theorem State.setCluster_slots (p : Nat) (x : Cluster) : (s.setCluster p x).slots = s.slots := by rfl
@[simp] theorem State.setCluster_arrays (p : Nat) (x : Cluster) : (s.setCluster p x).arrays = s.arrays := by rfl
@[simp] theorem State.setCluster_fills (p : Nat) (x : Cluster) : (s.setCluster p x).fills = s.fills := by rfl
@[simp] theorem State.setCluster_launches (p : Nat) (x : Cluster) : (s.setCluster p x).launches = s.launches := by rfl
@[simp] theorem State.setCluster_blocks (p : Nat) (x : Cluster) : (s.setCluster p x).blocks = s.blocks := by rfl
@[simp] theorem State.setCluster_queues (p : Nat) (x : Cluster) : (s.setCluster p x).queues = s.queues := by rfl
@[simp] theorem State.setCluster_released (p : Nat) (x : Cluster) : (s.setCluster p x).released = s.released := by rfl
@[simp] theorem State.setCluster_cores (p : Nat) (x : Cluster) : (s.setCluster p x).cores = s.cores := by rfl
@[simp] theorem State.setCluster_dies (p : Nat) (x : Cluster) : (s.setCluster p x).dies = s.dies := by rfl
@[simp] theorem State.setCluster_fns (p : Nat) (x : Cluster) : (s.setCluster p x).fns = s.fns := by rfl
@[simp] theorem State.setCluster_savebase (p : Nat) (x : Cluster) : (s.setCluster p x).savebase = s.savebase := by rfl
@[simp] theorem State.setCluster_msix (p : Nat) (x : Cluster) : (s.setCluster p x).msix = s.msix := by rfl
@[simp] theorem State.setCluster_msgs (p : Nat) (x : Cluster) : (s.setCluster p x).msgs = s.msgs := by rfl
@[simp] theorem State.setCluster_reports (p : Nat) (x : Cluster) : (s.setCluster p x).reports = s.reports := by rfl
@[simp] theorem State.setCluster_trapOuts (p : Nat) (x : Cluster) : (s.setCluster p x).trapOuts = s.trapOuts := by rfl
@[simp] theorem State.setCluster_waiters (p : Nat) (x : Cluster) : (s.setCluster p x).waiters = s.waiters := by rfl
@[simp] theorem State.setCluster_guest (p : Nat) (x : Cluster) : (s.setCluster p x).guest = s.guest := by rfl
@[simp] theorem State.setCluster_tick (p : Nat) (x : Cluster) : (s.setCluster p x).tick = s.tick := by rfl
@[simp] theorem State.setCluster_maxClock (p : Nat) (x : Cluster) : (s.setCluster p x).maxClock = s.maxClock := by rfl
@[simp] theorem State.setCluster_hostClock (p : Nat) (x : Cluster) : (s.setCluster p x).hostClock = s.hostClock := by rfl
@[simp] theorem State.setCluster_hostAnswer (p : Nat) (x : Cluster) : (s.setCluster p x).hostAnswer = s.hostAnswer := by rfl
@[simp] theorem State.setCluster_stopat (p : Nat) (x : Cluster) : (s.setCluster p x).stopat = s.stopat := by rfl
@[simp] theorem State.setCluster_stopDue (p : Nat) (x : Cluster) : (s.setCluster p x).stopDue = s.stopDue := by rfl
@[simp] theorem State.setCluster_haltDue (p : Nat) (x : Cluster) : (s.setCluster p x).haltDue = s.haltDue := by rfl
@[simp] theorem State.setCluster_stopped (p : Nat) (x : Cluster) : (s.setCluster p x).stopped = s.stopped := by rfl
@[simp] theorem State.setCluster_trip (p : Nat) (x : Cluster) : (s.setCluster p x).trip = s.trip := by rfl
@[simp] theorem State.setCluster_tripDue (p : Nat) (x : Cluster) : (s.setCluster p x).tripDue = s.tripDue := by rfl
@[simp] theorem State.setCluster_mgmt (p : Nat) (x : Cluster) : (s.setCluster p x).mgmt = s.mgmt := by rfl
@[simp] theorem State.setCluster_evsel (p : Nat) (x : Cluster) : (s.setCluster p x).evsel = s.evsel := by rfl
@[simp] theorem State.setCluster_smpctl (p : Nat) (x : Cluster) : (s.setCluster p x).smpctl = s.smpctl := by rfl
@[simp] theorem State.setCluster_rcctl (p : Nat) (x : Cluster) : (s.setCluster p x).rcctl = s.rcctl := by rfl
@[simp] theorem State.setCluster_rcact (p : Nat) (x : Cluster) : (s.setCluster p x).rcact = s.rcact := by rfl
@[simp] theorem State.setCluster_recording (p : Nat) (x : Cluster) : (s.setCluster p x).recording = s.recording := by rfl
@[simp] theorem State.setCluster_playing (p : Nat) (x : Cluster) : (s.setCluster p x).playing = s.playing := by rfl
@[simp] theorem State.setCluster_rcsts (p : Nat) (x : Cluster) : (s.setCluster p x).rcsts = s.rcsts := by rfl
@[simp] theorem State.setCluster_endt (p : Nat) (x : Cluster) : (s.setCluster p x).endt = s.endt := by rfl
@[simp] theorem State.setCluster_rclog (p : Nat) (x : Cluster) : (s.setCluster p x).rclog = s.rclog := by rfl
@[simp] theorem State.setCluster_rclogs (p : Nat) (x : Cluster) : (s.setCluster p x).rclogs = s.rclogs := by rfl
@[simp] theorem State.setCluster_lnkst (p : Nat) (x : Cluster) : (s.setCluster p x).lnkst = s.lnkst := by rfl
@[simp] theorem State.setCluster_fabid (p : Nat) (x : Cluster) : (s.setCluster p x).fabid = s.fabid := by rfl
@[simp] theorem State.setCluster_pwrlim (p : Nat) (x : Cluster) : (s.setCluster p x).pwrlim = s.pwrlim := by rfl
@[simp] theorem State.setCluster_spdm (p : Nat) (x : Cluster) : (s.setCluster p x).spdm = s.spdm := by rfl
@[simp] theorem State.setCluster_issue (p : Nat) (x : Cluster) : (s.setCluster p x).issue = s.issue := by rfl
@[simp] theorem State.setCluster_agenda (p : Nat) (x : Cluster) : (s.setCluster p x).agenda = s.agenda := by rfl
@[simp] theorem State.setCluster_fresh (p : Nat) (x : Cluster) : (s.setCluster p x).fresh = s.fresh := by rfl
@[simp] theorem State.setCluster_nextId (p : Nat) (x : Cluster) : (s.setCluster p x).nextId = s.nextId := by rfl

/-! ## `setBlock` -/

@[simp] theorem State.setBlock_mem (p : Nat) (x : Block) : (s.setBlock p x).mem = s.mem := by rfl
@[simp] theorem State.setBlock_memPoison (p : Nat) (x : Block) : (s.setBlock p x).memPoison = s.memPoison := by rfl
@[simp] theorem State.setBlock_l1 (p : Nat) (x : Block) : (s.setBlock p x).l1 = s.l1 := by rfl
@[simp] theorem State.setBlock_l2 (p : Nat) (x : Block) : (s.setBlock p x).l2 = s.l2 := by rfl
@[simp] theorem State.setBlock_owners (p : Nat) (x : Block) : (s.setBlock p x).owners = s.owners := by rfl
@[simp] theorem State.setBlock_locks (p : Nat) (x : Block) : (s.setBlock p x).locks = s.locks := by rfl
@[simp] theorem State.setBlock_undo (p : Nat) (x : Block) : (s.setBlock p x).undo = s.undo := by rfl
@[simp] theorem State.setBlock_stored (p : Nat) (x : Block) : (s.setBlock p x).stored = s.stored := by rfl
@[simp] theorem State.setBlock_commits (p : Nat) (x : Block) : (s.setBlock p x).commits = s.commits := by rfl
@[simp] theorem State.setBlock_hostQ (p : Nat) (x : Block) : (s.setBlock p x).hostQ = s.hostQ := by rfl
@[simp] theorem State.setBlock_regs (p : Nat) (x : Block) : (s.setBlock p x).regs = s.regs := by rfl
@[simp] theorem State.setBlock_regPoison (p : Nat) (x : Block) : (s.setBlock p x).regPoison = s.regPoison := by rfl
@[simp] theorem State.setBlock_lanes (p : Nat) (x : Block) : (s.setBlock p x).lanes = s.lanes := by rfl
@[simp] theorem State.setBlock_parts (p : Nat) (x : Block) : (s.setBlock p x).parts = s.parts := by rfl
@[simp] theorem State.setBlock_teams (p : Nat) (x : Block) : (s.setBlock p x).teams = s.teams := by rfl
@[simp] theorem State.setBlock_defs (p : Nat) (x : Block) : (s.setBlock p x).defs = s.defs := by rfl
@[simp] theorem State.setBlock_held (p : Nat) (x : Block) : (s.setBlock p x).held = s.held := by rfl
@[simp] theorem State.setBlock_cmds (p : Nat) (x : Block) : (s.setBlock p x).cmds = s.cmds := by rfl
@[simp] theorem State.setBlock_tundish (p : Nat) (x : Block) : (s.setBlock p x).tundish = s.tundish := by rfl
@[simp] theorem State.setBlock_slots (p : Nat) (x : Block) : (s.setBlock p x).slots = s.slots := by rfl
@[simp] theorem State.setBlock_arrays (p : Nat) (x : Block) : (s.setBlock p x).arrays = s.arrays := by rfl
@[simp] theorem State.setBlock_fills (p : Nat) (x : Block) : (s.setBlock p x).fills = s.fills := by rfl
@[simp] theorem State.setBlock_launches (p : Nat) (x : Block) : (s.setBlock p x).launches = s.launches := by rfl
@[simp] theorem State.setBlock_clusters (p : Nat) (x : Block) : (s.setBlock p x).clusters = s.clusters := by rfl
@[simp] theorem State.setBlock_queues (p : Nat) (x : Block) : (s.setBlock p x).queues = s.queues := by rfl
@[simp] theorem State.setBlock_released (p : Nat) (x : Block) : (s.setBlock p x).released = s.released := by rfl
@[simp] theorem State.setBlock_cores (p : Nat) (x : Block) : (s.setBlock p x).cores = s.cores := by rfl
@[simp] theorem State.setBlock_dies (p : Nat) (x : Block) : (s.setBlock p x).dies = s.dies := by rfl
@[simp] theorem State.setBlock_fns (p : Nat) (x : Block) : (s.setBlock p x).fns = s.fns := by rfl
@[simp] theorem State.setBlock_savebase (p : Nat) (x : Block) : (s.setBlock p x).savebase = s.savebase := by rfl
@[simp] theorem State.setBlock_msix (p : Nat) (x : Block) : (s.setBlock p x).msix = s.msix := by rfl
@[simp] theorem State.setBlock_msgs (p : Nat) (x : Block) : (s.setBlock p x).msgs = s.msgs := by rfl
@[simp] theorem State.setBlock_reports (p : Nat) (x : Block) : (s.setBlock p x).reports = s.reports := by rfl
@[simp] theorem State.setBlock_trapOuts (p : Nat) (x : Block) : (s.setBlock p x).trapOuts = s.trapOuts := by rfl
@[simp] theorem State.setBlock_waiters (p : Nat) (x : Block) : (s.setBlock p x).waiters = s.waiters := by rfl
@[simp] theorem State.setBlock_guest (p : Nat) (x : Block) : (s.setBlock p x).guest = s.guest := by rfl
@[simp] theorem State.setBlock_tick (p : Nat) (x : Block) : (s.setBlock p x).tick = s.tick := by rfl
@[simp] theorem State.setBlock_maxClock (p : Nat) (x : Block) : (s.setBlock p x).maxClock = s.maxClock := by rfl
@[simp] theorem State.setBlock_hostClock (p : Nat) (x : Block) : (s.setBlock p x).hostClock = s.hostClock := by rfl
@[simp] theorem State.setBlock_hostAnswer (p : Nat) (x : Block) : (s.setBlock p x).hostAnswer = s.hostAnswer := by rfl
@[simp] theorem State.setBlock_stopat (p : Nat) (x : Block) : (s.setBlock p x).stopat = s.stopat := by rfl
@[simp] theorem State.setBlock_stopDue (p : Nat) (x : Block) : (s.setBlock p x).stopDue = s.stopDue := by rfl
@[simp] theorem State.setBlock_haltDue (p : Nat) (x : Block) : (s.setBlock p x).haltDue = s.haltDue := by rfl
@[simp] theorem State.setBlock_stopped (p : Nat) (x : Block) : (s.setBlock p x).stopped = s.stopped := by rfl
@[simp] theorem State.setBlock_trip (p : Nat) (x : Block) : (s.setBlock p x).trip = s.trip := by rfl
@[simp] theorem State.setBlock_tripDue (p : Nat) (x : Block) : (s.setBlock p x).tripDue = s.tripDue := by rfl
@[simp] theorem State.setBlock_mgmt (p : Nat) (x : Block) : (s.setBlock p x).mgmt = s.mgmt := by rfl
@[simp] theorem State.setBlock_evsel (p : Nat) (x : Block) : (s.setBlock p x).evsel = s.evsel := by rfl
@[simp] theorem State.setBlock_smpctl (p : Nat) (x : Block) : (s.setBlock p x).smpctl = s.smpctl := by rfl
@[simp] theorem State.setBlock_rcctl (p : Nat) (x : Block) : (s.setBlock p x).rcctl = s.rcctl := by rfl
@[simp] theorem State.setBlock_rcact (p : Nat) (x : Block) : (s.setBlock p x).rcact = s.rcact := by rfl
@[simp] theorem State.setBlock_recording (p : Nat) (x : Block) : (s.setBlock p x).recording = s.recording := by rfl
@[simp] theorem State.setBlock_playing (p : Nat) (x : Block) : (s.setBlock p x).playing = s.playing := by rfl
@[simp] theorem State.setBlock_rcsts (p : Nat) (x : Block) : (s.setBlock p x).rcsts = s.rcsts := by rfl
@[simp] theorem State.setBlock_endt (p : Nat) (x : Block) : (s.setBlock p x).endt = s.endt := by rfl
@[simp] theorem State.setBlock_rclog (p : Nat) (x : Block) : (s.setBlock p x).rclog = s.rclog := by rfl
@[simp] theorem State.setBlock_rclogs (p : Nat) (x : Block) : (s.setBlock p x).rclogs = s.rclogs := by rfl
@[simp] theorem State.setBlock_lnkst (p : Nat) (x : Block) : (s.setBlock p x).lnkst = s.lnkst := by rfl
@[simp] theorem State.setBlock_fabid (p : Nat) (x : Block) : (s.setBlock p x).fabid = s.fabid := by rfl
@[simp] theorem State.setBlock_pwrlim (p : Nat) (x : Block) : (s.setBlock p x).pwrlim = s.pwrlim := by rfl
@[simp] theorem State.setBlock_spdm (p : Nat) (x : Block) : (s.setBlock p x).spdm = s.spdm := by rfl
@[simp] theorem State.setBlock_issue (p : Nat) (x : Block) : (s.setBlock p x).issue = s.issue := by rfl
@[simp] theorem State.setBlock_agenda (p : Nat) (x : Block) : (s.setBlock p x).agenda = s.agenda := by rfl
@[simp] theorem State.setBlock_fresh (p : Nat) (x : Block) : (s.setBlock p x).fresh = s.fresh := by rfl
@[simp] theorem State.setBlock_nextId (p : Nat) (x : Block) : (s.setBlock p x).nextId = s.nextId := by rfl

/-! ## `setQueue` -/

@[simp] theorem State.setQueue_mem (p : Nat) (x : Queue) : (s.setQueue p x).mem = s.mem := by rfl
@[simp] theorem State.setQueue_memPoison (p : Nat) (x : Queue) : (s.setQueue p x).memPoison = s.memPoison := by rfl
@[simp] theorem State.setQueue_l1 (p : Nat) (x : Queue) : (s.setQueue p x).l1 = s.l1 := by rfl
@[simp] theorem State.setQueue_l2 (p : Nat) (x : Queue) : (s.setQueue p x).l2 = s.l2 := by rfl
@[simp] theorem State.setQueue_owners (p : Nat) (x : Queue) : (s.setQueue p x).owners = s.owners := by rfl
@[simp] theorem State.setQueue_locks (p : Nat) (x : Queue) : (s.setQueue p x).locks = s.locks := by rfl
@[simp] theorem State.setQueue_undo (p : Nat) (x : Queue) : (s.setQueue p x).undo = s.undo := by rfl
@[simp] theorem State.setQueue_stored (p : Nat) (x : Queue) : (s.setQueue p x).stored = s.stored := by rfl
@[simp] theorem State.setQueue_commits (p : Nat) (x : Queue) : (s.setQueue p x).commits = s.commits := by rfl
@[simp] theorem State.setQueue_hostQ (p : Nat) (x : Queue) : (s.setQueue p x).hostQ = s.hostQ := by rfl
@[simp] theorem State.setQueue_regs (p : Nat) (x : Queue) : (s.setQueue p x).regs = s.regs := by rfl
@[simp] theorem State.setQueue_regPoison (p : Nat) (x : Queue) : (s.setQueue p x).regPoison = s.regPoison := by rfl
@[simp] theorem State.setQueue_lanes (p : Nat) (x : Queue) : (s.setQueue p x).lanes = s.lanes := by rfl
@[simp] theorem State.setQueue_parts (p : Nat) (x : Queue) : (s.setQueue p x).parts = s.parts := by rfl
@[simp] theorem State.setQueue_teams (p : Nat) (x : Queue) : (s.setQueue p x).teams = s.teams := by rfl
@[simp] theorem State.setQueue_defs (p : Nat) (x : Queue) : (s.setQueue p x).defs = s.defs := by rfl
@[simp] theorem State.setQueue_held (p : Nat) (x : Queue) : (s.setQueue p x).held = s.held := by rfl
@[simp] theorem State.setQueue_cmds (p : Nat) (x : Queue) : (s.setQueue p x).cmds = s.cmds := by rfl
@[simp] theorem State.setQueue_tundish (p : Nat) (x : Queue) : (s.setQueue p x).tundish = s.tundish := by rfl
@[simp] theorem State.setQueue_slots (p : Nat) (x : Queue) : (s.setQueue p x).slots = s.slots := by rfl
@[simp] theorem State.setQueue_arrays (p : Nat) (x : Queue) : (s.setQueue p x).arrays = s.arrays := by rfl
@[simp] theorem State.setQueue_fills (p : Nat) (x : Queue) : (s.setQueue p x).fills = s.fills := by rfl
@[simp] theorem State.setQueue_launches (p : Nat) (x : Queue) : (s.setQueue p x).launches = s.launches := by rfl
@[simp] theorem State.setQueue_clusters (p : Nat) (x : Queue) : (s.setQueue p x).clusters = s.clusters := by rfl
@[simp] theorem State.setQueue_blocks (p : Nat) (x : Queue) : (s.setQueue p x).blocks = s.blocks := by rfl
@[simp] theorem State.setQueue_released (p : Nat) (x : Queue) : (s.setQueue p x).released = s.released := by rfl
@[simp] theorem State.setQueue_cores (p : Nat) (x : Queue) : (s.setQueue p x).cores = s.cores := by rfl
@[simp] theorem State.setQueue_dies (p : Nat) (x : Queue) : (s.setQueue p x).dies = s.dies := by rfl
@[simp] theorem State.setQueue_fns (p : Nat) (x : Queue) : (s.setQueue p x).fns = s.fns := by rfl
@[simp] theorem State.setQueue_savebase (p : Nat) (x : Queue) : (s.setQueue p x).savebase = s.savebase := by rfl
@[simp] theorem State.setQueue_msix (p : Nat) (x : Queue) : (s.setQueue p x).msix = s.msix := by rfl
@[simp] theorem State.setQueue_msgs (p : Nat) (x : Queue) : (s.setQueue p x).msgs = s.msgs := by rfl
@[simp] theorem State.setQueue_reports (p : Nat) (x : Queue) : (s.setQueue p x).reports = s.reports := by rfl
@[simp] theorem State.setQueue_trapOuts (p : Nat) (x : Queue) : (s.setQueue p x).trapOuts = s.trapOuts := by rfl
@[simp] theorem State.setQueue_waiters (p : Nat) (x : Queue) : (s.setQueue p x).waiters = s.waiters := by rfl
@[simp] theorem State.setQueue_guest (p : Nat) (x : Queue) : (s.setQueue p x).guest = s.guest := by rfl
@[simp] theorem State.setQueue_tick (p : Nat) (x : Queue) : (s.setQueue p x).tick = s.tick := by rfl
@[simp] theorem State.setQueue_maxClock (p : Nat) (x : Queue) : (s.setQueue p x).maxClock = s.maxClock := by rfl
@[simp] theorem State.setQueue_hostClock (p : Nat) (x : Queue) : (s.setQueue p x).hostClock = s.hostClock := by rfl
@[simp] theorem State.setQueue_hostAnswer (p : Nat) (x : Queue) : (s.setQueue p x).hostAnswer = s.hostAnswer := by rfl
@[simp] theorem State.setQueue_stopat (p : Nat) (x : Queue) : (s.setQueue p x).stopat = s.stopat := by rfl
@[simp] theorem State.setQueue_stopDue (p : Nat) (x : Queue) : (s.setQueue p x).stopDue = s.stopDue := by rfl
@[simp] theorem State.setQueue_haltDue (p : Nat) (x : Queue) : (s.setQueue p x).haltDue = s.haltDue := by rfl
@[simp] theorem State.setQueue_stopped (p : Nat) (x : Queue) : (s.setQueue p x).stopped = s.stopped := by rfl
@[simp] theorem State.setQueue_trip (p : Nat) (x : Queue) : (s.setQueue p x).trip = s.trip := by rfl
@[simp] theorem State.setQueue_tripDue (p : Nat) (x : Queue) : (s.setQueue p x).tripDue = s.tripDue := by rfl
@[simp] theorem State.setQueue_mgmt (p : Nat) (x : Queue) : (s.setQueue p x).mgmt = s.mgmt := by rfl
@[simp] theorem State.setQueue_evsel (p : Nat) (x : Queue) : (s.setQueue p x).evsel = s.evsel := by rfl
@[simp] theorem State.setQueue_smpctl (p : Nat) (x : Queue) : (s.setQueue p x).smpctl = s.smpctl := by rfl
@[simp] theorem State.setQueue_rcctl (p : Nat) (x : Queue) : (s.setQueue p x).rcctl = s.rcctl := by rfl
@[simp] theorem State.setQueue_rcact (p : Nat) (x : Queue) : (s.setQueue p x).rcact = s.rcact := by rfl
@[simp] theorem State.setQueue_recording (p : Nat) (x : Queue) : (s.setQueue p x).recording = s.recording := by rfl
@[simp] theorem State.setQueue_playing (p : Nat) (x : Queue) : (s.setQueue p x).playing = s.playing := by rfl
@[simp] theorem State.setQueue_rcsts (p : Nat) (x : Queue) : (s.setQueue p x).rcsts = s.rcsts := by rfl
@[simp] theorem State.setQueue_endt (p : Nat) (x : Queue) : (s.setQueue p x).endt = s.endt := by rfl
@[simp] theorem State.setQueue_rclog (p : Nat) (x : Queue) : (s.setQueue p x).rclog = s.rclog := by rfl
@[simp] theorem State.setQueue_rclogs (p : Nat) (x : Queue) : (s.setQueue p x).rclogs = s.rclogs := by rfl
@[simp] theorem State.setQueue_lnkst (p : Nat) (x : Queue) : (s.setQueue p x).lnkst = s.lnkst := by rfl
@[simp] theorem State.setQueue_fabid (p : Nat) (x : Queue) : (s.setQueue p x).fabid = s.fabid := by rfl
@[simp] theorem State.setQueue_pwrlim (p : Nat) (x : Queue) : (s.setQueue p x).pwrlim = s.pwrlim := by rfl
@[simp] theorem State.setQueue_spdm (p : Nat) (x : Queue) : (s.setQueue p x).spdm = s.spdm := by rfl
@[simp] theorem State.setQueue_issue (p : Nat) (x : Queue) : (s.setQueue p x).issue = s.issue := by rfl
@[simp] theorem State.setQueue_agenda (p : Nat) (x : Queue) : (s.setQueue p x).agenda = s.agenda := by rfl
@[simp] theorem State.setQueue_fresh (p : Nat) (x : Queue) : (s.setQueue p x).fresh = s.fresh := by rfl
@[simp] theorem State.setQueue_nextId (p : Nat) (x : Queue) : (s.setQueue p x).nextId = s.nextId := by rfl

/-! ## `bump` -/

@[simp] theorem State.bump_mem : (s.bump).mem = s.mem := by rfl
@[simp] theorem State.bump_memPoison : (s.bump).memPoison = s.memPoison := by rfl
@[simp] theorem State.bump_l1 : (s.bump).l1 = s.l1 := by rfl
@[simp] theorem State.bump_l2 : (s.bump).l2 = s.l2 := by rfl
@[simp] theorem State.bump_owners : (s.bump).owners = s.owners := by rfl
@[simp] theorem State.bump_locks : (s.bump).locks = s.locks := by rfl
@[simp] theorem State.bump_undo : (s.bump).undo = s.undo := by rfl
@[simp] theorem State.bump_stored : (s.bump).stored = s.stored := by rfl
@[simp] theorem State.bump_commits : (s.bump).commits = s.commits := by rfl
@[simp] theorem State.bump_hostQ : (s.bump).hostQ = s.hostQ := by rfl
@[simp] theorem State.bump_regs : (s.bump).regs = s.regs := by rfl
@[simp] theorem State.bump_regPoison : (s.bump).regPoison = s.regPoison := by rfl
@[simp] theorem State.bump_lanes : (s.bump).lanes = s.lanes := by rfl
@[simp] theorem State.bump_parts : (s.bump).parts = s.parts := by rfl
@[simp] theorem State.bump_teams : (s.bump).teams = s.teams := by rfl
@[simp] theorem State.bump_defs : (s.bump).defs = s.defs := by rfl
@[simp] theorem State.bump_held : (s.bump).held = s.held := by rfl
@[simp] theorem State.bump_cmds : (s.bump).cmds = s.cmds := by rfl
@[simp] theorem State.bump_tundish : (s.bump).tundish = s.tundish := by rfl
@[simp] theorem State.bump_slots : (s.bump).slots = s.slots := by rfl
@[simp] theorem State.bump_arrays : (s.bump).arrays = s.arrays := by rfl
@[simp] theorem State.bump_fills : (s.bump).fills = s.fills := by rfl
@[simp] theorem State.bump_launches : (s.bump).launches = s.launches := by rfl
@[simp] theorem State.bump_clusters : (s.bump).clusters = s.clusters := by rfl
@[simp] theorem State.bump_blocks : (s.bump).blocks = s.blocks := by rfl
@[simp] theorem State.bump_queues : (s.bump).queues = s.queues := by rfl
@[simp] theorem State.bump_released : (s.bump).released = s.released := by rfl
@[simp] theorem State.bump_cores : (s.bump).cores = s.cores := by rfl
@[simp] theorem State.bump_dies : (s.bump).dies = s.dies := by rfl
@[simp] theorem State.bump_fns : (s.bump).fns = s.fns := by rfl
@[simp] theorem State.bump_savebase : (s.bump).savebase = s.savebase := by rfl
@[simp] theorem State.bump_msix : (s.bump).msix = s.msix := by rfl
@[simp] theorem State.bump_msgs : (s.bump).msgs = s.msgs := by rfl
@[simp] theorem State.bump_reports : (s.bump).reports = s.reports := by rfl
@[simp] theorem State.bump_trapOuts : (s.bump).trapOuts = s.trapOuts := by rfl
@[simp] theorem State.bump_waiters : (s.bump).waiters = s.waiters := by rfl
@[simp] theorem State.bump_guest : (s.bump).guest = s.guest := by rfl
@[simp] theorem State.bump_tick : (s.bump).tick = s.tick := by rfl
@[simp] theorem State.bump_maxClock : (s.bump).maxClock = s.maxClock := by rfl
@[simp] theorem State.bump_hostClock : (s.bump).hostClock = s.hostClock := by rfl
@[simp] theorem State.bump_hostAnswer : (s.bump).hostAnswer = s.hostAnswer := by rfl
@[simp] theorem State.bump_stopat : (s.bump).stopat = s.stopat := by rfl
@[simp] theorem State.bump_stopDue : (s.bump).stopDue = s.stopDue := by rfl
@[simp] theorem State.bump_haltDue : (s.bump).haltDue = s.haltDue := by rfl
@[simp] theorem State.bump_stopped : (s.bump).stopped = s.stopped := by rfl
@[simp] theorem State.bump_trip : (s.bump).trip = s.trip := by rfl
@[simp] theorem State.bump_tripDue : (s.bump).tripDue = s.tripDue := by rfl
@[simp] theorem State.bump_mgmt : (s.bump).mgmt = s.mgmt := by rfl
@[simp] theorem State.bump_evsel : (s.bump).evsel = s.evsel := by rfl
@[simp] theorem State.bump_smpctl : (s.bump).smpctl = s.smpctl := by rfl
@[simp] theorem State.bump_rcctl : (s.bump).rcctl = s.rcctl := by rfl
@[simp] theorem State.bump_rcact : (s.bump).rcact = s.rcact := by rfl
@[simp] theorem State.bump_recording : (s.bump).recording = s.recording := by rfl
@[simp] theorem State.bump_playing : (s.bump).playing = s.playing := by rfl
@[simp] theorem State.bump_rcsts : (s.bump).rcsts = s.rcsts := by rfl
@[simp] theorem State.bump_endt : (s.bump).endt = s.endt := by rfl
@[simp] theorem State.bump_rclog : (s.bump).rclog = s.rclog := by rfl
@[simp] theorem State.bump_rclogs : (s.bump).rclogs = s.rclogs := by rfl
@[simp] theorem State.bump_lnkst : (s.bump).lnkst = s.lnkst := by rfl
@[simp] theorem State.bump_fabid : (s.bump).fabid = s.fabid := by rfl
@[simp] theorem State.bump_pwrlim : (s.bump).pwrlim = s.pwrlim := by rfl
@[simp] theorem State.bump_spdm : (s.bump).spdm = s.spdm := by rfl
@[simp] theorem State.bump_issue : (s.bump).issue = s.issue := by rfl
@[simp] theorem State.bump_agenda : (s.bump).agenda = s.agenda := by rfl
@[simp] theorem State.bump_nextId : (s.bump).nextId = s.nextId := by rfl

/-! ## `putReg` -/

@[simp] theorem State.putReg_mem (t l r v : Nat) : (s.putReg t l r v).mem = s.mem := by rfl
@[simp] theorem State.putReg_memPoison (t l r v : Nat) : (s.putReg t l r v).memPoison = s.memPoison := by rfl
@[simp] theorem State.putReg_l1 (t l r v : Nat) : (s.putReg t l r v).l1 = s.l1 := by rfl
@[simp] theorem State.putReg_l2 (t l r v : Nat) : (s.putReg t l r v).l2 = s.l2 := by rfl
@[simp] theorem State.putReg_owners (t l r v : Nat) : (s.putReg t l r v).owners = s.owners := by rfl
@[simp] theorem State.putReg_locks (t l r v : Nat) : (s.putReg t l r v).locks = s.locks := by rfl
@[simp] theorem State.putReg_undo (t l r v : Nat) : (s.putReg t l r v).undo = s.undo := by rfl
@[simp] theorem State.putReg_stored (t l r v : Nat) : (s.putReg t l r v).stored = s.stored := by rfl
@[simp] theorem State.putReg_commits (t l r v : Nat) : (s.putReg t l r v).commits = s.commits := by rfl
@[simp] theorem State.putReg_hostQ (t l r v : Nat) : (s.putReg t l r v).hostQ = s.hostQ := by rfl
@[simp] theorem State.putReg_regPoison (t l r v : Nat) : (s.putReg t l r v).regPoison = s.regPoison := by rfl
@[simp] theorem State.putReg_lanes (t l r v : Nat) : (s.putReg t l r v).lanes = s.lanes := by rfl
@[simp] theorem State.putReg_parts (t l r v : Nat) : (s.putReg t l r v).parts = s.parts := by rfl
@[simp] theorem State.putReg_teams (t l r v : Nat) : (s.putReg t l r v).teams = s.teams := by rfl
@[simp] theorem State.putReg_defs (t l r v : Nat) : (s.putReg t l r v).defs = s.defs := by rfl
@[simp] theorem State.putReg_held (t l r v : Nat) : (s.putReg t l r v).held = s.held := by rfl
@[simp] theorem State.putReg_cmds (t l r v : Nat) : (s.putReg t l r v).cmds = s.cmds := by rfl
@[simp] theorem State.putReg_tundish (t l r v : Nat) : (s.putReg t l r v).tundish = s.tundish := by rfl
@[simp] theorem State.putReg_slots (t l r v : Nat) : (s.putReg t l r v).slots = s.slots := by rfl
@[simp] theorem State.putReg_arrays (t l r v : Nat) : (s.putReg t l r v).arrays = s.arrays := by rfl
@[simp] theorem State.putReg_fills (t l r v : Nat) : (s.putReg t l r v).fills = s.fills := by rfl
@[simp] theorem State.putReg_launches (t l r v : Nat) : (s.putReg t l r v).launches = s.launches := by rfl
@[simp] theorem State.putReg_clusters (t l r v : Nat) : (s.putReg t l r v).clusters = s.clusters := by rfl
@[simp] theorem State.putReg_blocks (t l r v : Nat) : (s.putReg t l r v).blocks = s.blocks := by rfl
@[simp] theorem State.putReg_queues (t l r v : Nat) : (s.putReg t l r v).queues = s.queues := by rfl
@[simp] theorem State.putReg_released (t l r v : Nat) : (s.putReg t l r v).released = s.released := by rfl
@[simp] theorem State.putReg_cores (t l r v : Nat) : (s.putReg t l r v).cores = s.cores := by rfl
@[simp] theorem State.putReg_dies (t l r v : Nat) : (s.putReg t l r v).dies = s.dies := by rfl
@[simp] theorem State.putReg_fns (t l r v : Nat) : (s.putReg t l r v).fns = s.fns := by rfl
@[simp] theorem State.putReg_savebase (t l r v : Nat) : (s.putReg t l r v).savebase = s.savebase := by rfl
@[simp] theorem State.putReg_msix (t l r v : Nat) : (s.putReg t l r v).msix = s.msix := by rfl
@[simp] theorem State.putReg_msgs (t l r v : Nat) : (s.putReg t l r v).msgs = s.msgs := by rfl
@[simp] theorem State.putReg_reports (t l r v : Nat) : (s.putReg t l r v).reports = s.reports := by rfl
@[simp] theorem State.putReg_trapOuts (t l r v : Nat) : (s.putReg t l r v).trapOuts = s.trapOuts := by rfl
@[simp] theorem State.putReg_waiters (t l r v : Nat) : (s.putReg t l r v).waiters = s.waiters := by rfl
@[simp] theorem State.putReg_guest (t l r v : Nat) : (s.putReg t l r v).guest = s.guest := by rfl
@[simp] theorem State.putReg_tick (t l r v : Nat) : (s.putReg t l r v).tick = s.tick := by rfl
@[simp] theorem State.putReg_maxClock (t l r v : Nat) : (s.putReg t l r v).maxClock = s.maxClock := by rfl
@[simp] theorem State.putReg_hostClock (t l r v : Nat) : (s.putReg t l r v).hostClock = s.hostClock := by rfl
@[simp] theorem State.putReg_hostAnswer (t l r v : Nat) : (s.putReg t l r v).hostAnswer = s.hostAnswer := by rfl
@[simp] theorem State.putReg_stopat (t l r v : Nat) : (s.putReg t l r v).stopat = s.stopat := by rfl
@[simp] theorem State.putReg_stopDue (t l r v : Nat) : (s.putReg t l r v).stopDue = s.stopDue := by rfl
@[simp] theorem State.putReg_haltDue (t l r v : Nat) : (s.putReg t l r v).haltDue = s.haltDue := by rfl
@[simp] theorem State.putReg_stopped (t l r v : Nat) : (s.putReg t l r v).stopped = s.stopped := by rfl
@[simp] theorem State.putReg_trip (t l r v : Nat) : (s.putReg t l r v).trip = s.trip := by rfl
@[simp] theorem State.putReg_tripDue (t l r v : Nat) : (s.putReg t l r v).tripDue = s.tripDue := by rfl
@[simp] theorem State.putReg_mgmt (t l r v : Nat) : (s.putReg t l r v).mgmt = s.mgmt := by rfl
@[simp] theorem State.putReg_evsel (t l r v : Nat) : (s.putReg t l r v).evsel = s.evsel := by rfl
@[simp] theorem State.putReg_smpctl (t l r v : Nat) : (s.putReg t l r v).smpctl = s.smpctl := by rfl
@[simp] theorem State.putReg_rcctl (t l r v : Nat) : (s.putReg t l r v).rcctl = s.rcctl := by rfl
@[simp] theorem State.putReg_rcact (t l r v : Nat) : (s.putReg t l r v).rcact = s.rcact := by rfl
@[simp] theorem State.putReg_recording (t l r v : Nat) : (s.putReg t l r v).recording = s.recording := by rfl
@[simp] theorem State.putReg_playing (t l r v : Nat) : (s.putReg t l r v).playing = s.playing := by rfl
@[simp] theorem State.putReg_rcsts (t l r v : Nat) : (s.putReg t l r v).rcsts = s.rcsts := by rfl
@[simp] theorem State.putReg_endt (t l r v : Nat) : (s.putReg t l r v).endt = s.endt := by rfl
@[simp] theorem State.putReg_rclog (t l r v : Nat) : (s.putReg t l r v).rclog = s.rclog := by rfl
@[simp] theorem State.putReg_rclogs (t l r v : Nat) : (s.putReg t l r v).rclogs = s.rclogs := by rfl
@[simp] theorem State.putReg_lnkst (t l r v : Nat) : (s.putReg t l r v).lnkst = s.lnkst := by rfl
@[simp] theorem State.putReg_fabid (t l r v : Nat) : (s.putReg t l r v).fabid = s.fabid := by rfl
@[simp] theorem State.putReg_pwrlim (t l r v : Nat) : (s.putReg t l r v).pwrlim = s.pwrlim := by rfl
@[simp] theorem State.putReg_spdm (t l r v : Nat) : (s.putReg t l r v).spdm = s.spdm := by rfl
@[simp] theorem State.putReg_issue (t l r v : Nat) : (s.putReg t l r v).issue = s.issue := by rfl
@[simp] theorem State.putReg_agenda (t l r v : Nat) : (s.putReg t l r v).agenda = s.agenda := by rfl
@[simp] theorem State.putReg_fresh (t l r v : Nat) : (s.putReg t l r v).fresh = s.fresh := by rfl
@[simp] theorem State.putReg_nextId (t l r v : Nat) : (s.putReg t l r v).nextId = s.nextId := by rfl

/-! ## `cover` -/

@[simp] theorem State.cover_mem (t l r m : Nat) : (s.cover t l r m).mem = s.mem := by rfl
@[simp] theorem State.cover_memPoison (t l r m : Nat) : (s.cover t l r m).memPoison = s.memPoison := by rfl
@[simp] theorem State.cover_l1 (t l r m : Nat) : (s.cover t l r m).l1 = s.l1 := by rfl
@[simp] theorem State.cover_l2 (t l r m : Nat) : (s.cover t l r m).l2 = s.l2 := by rfl
@[simp] theorem State.cover_owners (t l r m : Nat) : (s.cover t l r m).owners = s.owners := by rfl
@[simp] theorem State.cover_locks (t l r m : Nat) : (s.cover t l r m).locks = s.locks := by rfl
@[simp] theorem State.cover_undo (t l r m : Nat) : (s.cover t l r m).undo = s.undo := by rfl
@[simp] theorem State.cover_stored (t l r m : Nat) : (s.cover t l r m).stored = s.stored := by rfl
@[simp] theorem State.cover_commits (t l r m : Nat) : (s.cover t l r m).commits = s.commits := by rfl
@[simp] theorem State.cover_hostQ (t l r m : Nat) : (s.cover t l r m).hostQ = s.hostQ := by rfl
@[simp] theorem State.cover_regs (t l r m : Nat) : (s.cover t l r m).regs = s.regs := by rfl
@[simp] theorem State.cover_regPoison (t l r m : Nat) : (s.cover t l r m).regPoison = s.regPoison := by rfl
@[simp] theorem State.cover_lanes (t l r m : Nat) : (s.cover t l r m).lanes = s.lanes := by rfl
@[simp] theorem State.cover_parts (t l r m : Nat) : (s.cover t l r m).parts = s.parts := by rfl
@[simp] theorem State.cover_teams (t l r m : Nat) : (s.cover t l r m).teams = s.teams := by rfl
@[simp] theorem State.cover_held (t l r m : Nat) : (s.cover t l r m).held = s.held := by rfl
@[simp] theorem State.cover_cmds (t l r m : Nat) : (s.cover t l r m).cmds = s.cmds := by rfl
@[simp] theorem State.cover_tundish (t l r m : Nat) : (s.cover t l r m).tundish = s.tundish := by rfl
@[simp] theorem State.cover_slots (t l r m : Nat) : (s.cover t l r m).slots = s.slots := by rfl
@[simp] theorem State.cover_arrays (t l r m : Nat) : (s.cover t l r m).arrays = s.arrays := by rfl
@[simp] theorem State.cover_fills (t l r m : Nat) : (s.cover t l r m).fills = s.fills := by rfl
@[simp] theorem State.cover_launches (t l r m : Nat) : (s.cover t l r m).launches = s.launches := by rfl
@[simp] theorem State.cover_clusters (t l r m : Nat) : (s.cover t l r m).clusters = s.clusters := by rfl
@[simp] theorem State.cover_blocks (t l r m : Nat) : (s.cover t l r m).blocks = s.blocks := by rfl
@[simp] theorem State.cover_queues (t l r m : Nat) : (s.cover t l r m).queues = s.queues := by rfl
@[simp] theorem State.cover_released (t l r m : Nat) : (s.cover t l r m).released = s.released := by rfl
@[simp] theorem State.cover_cores (t l r m : Nat) : (s.cover t l r m).cores = s.cores := by rfl
@[simp] theorem State.cover_dies (t l r m : Nat) : (s.cover t l r m).dies = s.dies := by rfl
@[simp] theorem State.cover_fns (t l r m : Nat) : (s.cover t l r m).fns = s.fns := by rfl
@[simp] theorem State.cover_savebase (t l r m : Nat) : (s.cover t l r m).savebase = s.savebase := by rfl
@[simp] theorem State.cover_msix (t l r m : Nat) : (s.cover t l r m).msix = s.msix := by rfl
@[simp] theorem State.cover_msgs (t l r m : Nat) : (s.cover t l r m).msgs = s.msgs := by rfl
@[simp] theorem State.cover_reports (t l r m : Nat) : (s.cover t l r m).reports = s.reports := by rfl
@[simp] theorem State.cover_trapOuts (t l r m : Nat) : (s.cover t l r m).trapOuts = s.trapOuts := by rfl
@[simp] theorem State.cover_waiters (t l r m : Nat) : (s.cover t l r m).waiters = s.waiters := by rfl
@[simp] theorem State.cover_guest (t l r m : Nat) : (s.cover t l r m).guest = s.guest := by rfl
@[simp] theorem State.cover_tick (t l r m : Nat) : (s.cover t l r m).tick = s.tick := by rfl
@[simp] theorem State.cover_maxClock (t l r m : Nat) : (s.cover t l r m).maxClock = s.maxClock := by rfl
@[simp] theorem State.cover_hostClock (t l r m : Nat) : (s.cover t l r m).hostClock = s.hostClock := by rfl
@[simp] theorem State.cover_hostAnswer (t l r m : Nat) : (s.cover t l r m).hostAnswer = s.hostAnswer := by rfl
@[simp] theorem State.cover_stopat (t l r m : Nat) : (s.cover t l r m).stopat = s.stopat := by rfl
@[simp] theorem State.cover_stopDue (t l r m : Nat) : (s.cover t l r m).stopDue = s.stopDue := by rfl
@[simp] theorem State.cover_haltDue (t l r m : Nat) : (s.cover t l r m).haltDue = s.haltDue := by rfl
@[simp] theorem State.cover_stopped (t l r m : Nat) : (s.cover t l r m).stopped = s.stopped := by rfl
@[simp] theorem State.cover_trip (t l r m : Nat) : (s.cover t l r m).trip = s.trip := by rfl
@[simp] theorem State.cover_tripDue (t l r m : Nat) : (s.cover t l r m).tripDue = s.tripDue := by rfl
@[simp] theorem State.cover_mgmt (t l r m : Nat) : (s.cover t l r m).mgmt = s.mgmt := by rfl
@[simp] theorem State.cover_evsel (t l r m : Nat) : (s.cover t l r m).evsel = s.evsel := by rfl
@[simp] theorem State.cover_smpctl (t l r m : Nat) : (s.cover t l r m).smpctl = s.smpctl := by rfl
@[simp] theorem State.cover_rcctl (t l r m : Nat) : (s.cover t l r m).rcctl = s.rcctl := by rfl
@[simp] theorem State.cover_rcact (t l r m : Nat) : (s.cover t l r m).rcact = s.rcact := by rfl
@[simp] theorem State.cover_recording (t l r m : Nat) : (s.cover t l r m).recording = s.recording := by rfl
@[simp] theorem State.cover_playing (t l r m : Nat) : (s.cover t l r m).playing = s.playing := by rfl
@[simp] theorem State.cover_rcsts (t l r m : Nat) : (s.cover t l r m).rcsts = s.rcsts := by rfl
@[simp] theorem State.cover_endt (t l r m : Nat) : (s.cover t l r m).endt = s.endt := by rfl
@[simp] theorem State.cover_rclog (t l r m : Nat) : (s.cover t l r m).rclog = s.rclog := by rfl
@[simp] theorem State.cover_rclogs (t l r m : Nat) : (s.cover t l r m).rclogs = s.rclogs := by rfl
@[simp] theorem State.cover_lnkst (t l r m : Nat) : (s.cover t l r m).lnkst = s.lnkst := by rfl
@[simp] theorem State.cover_fabid (t l r m : Nat) : (s.cover t l r m).fabid = s.fabid := by rfl
@[simp] theorem State.cover_pwrlim (t l r m : Nat) : (s.cover t l r m).pwrlim = s.pwrlim := by rfl
@[simp] theorem State.cover_spdm (t l r m : Nat) : (s.cover t l r m).spdm = s.spdm := by rfl
@[simp] theorem State.cover_issue (t l r m : Nat) : (s.cover t l r m).issue = s.issue := by rfl
@[simp] theorem State.cover_agenda (t l r m : Nat) : (s.cover t l r m).agenda = s.agenda := by rfl
@[simp] theorem State.cover_fresh (t l r m : Nat) : (s.cover t l r m).fresh = s.fresh := by rfl
@[simp] theorem State.cover_nextId (t l r m : Nat) : (s.cover t l r m).nextId = s.nextId := by rfl

/-! ## `wr` -/

@[simp] theorem State.wr_mem (t l r v : Nat) : (s.wr t l r v).mem = s.mem := by rfl
@[simp] theorem State.wr_memPoison (t l r v : Nat) : (s.wr t l r v).memPoison = s.memPoison := by rfl
@[simp] theorem State.wr_l1 (t l r v : Nat) : (s.wr t l r v).l1 = s.l1 := by rfl
@[simp] theorem State.wr_l2 (t l r v : Nat) : (s.wr t l r v).l2 = s.l2 := by rfl
@[simp] theorem State.wr_owners (t l r v : Nat) : (s.wr t l r v).owners = s.owners := by rfl
@[simp] theorem State.wr_locks (t l r v : Nat) : (s.wr t l r v).locks = s.locks := by rfl
@[simp] theorem State.wr_undo (t l r v : Nat) : (s.wr t l r v).undo = s.undo := by rfl
@[simp] theorem State.wr_stored (t l r v : Nat) : (s.wr t l r v).stored = s.stored := by rfl
@[simp] theorem State.wr_commits (t l r v : Nat) : (s.wr t l r v).commits = s.commits := by rfl
@[simp] theorem State.wr_hostQ (t l r v : Nat) : (s.wr t l r v).hostQ = s.hostQ := by rfl
@[simp] theorem State.wr_lanes (t l r v : Nat) : (s.wr t l r v).lanes = s.lanes := by rfl
@[simp] theorem State.wr_parts (t l r v : Nat) : (s.wr t l r v).parts = s.parts := by rfl
@[simp] theorem State.wr_teams (t l r v : Nat) : (s.wr t l r v).teams = s.teams := by rfl
@[simp] theorem State.wr_held (t l r v : Nat) : (s.wr t l r v).held = s.held := by rfl
@[simp] theorem State.wr_cmds (t l r v : Nat) : (s.wr t l r v).cmds = s.cmds := by rfl
@[simp] theorem State.wr_tundish (t l r v : Nat) : (s.wr t l r v).tundish = s.tundish := by rfl
@[simp] theorem State.wr_slots (t l r v : Nat) : (s.wr t l r v).slots = s.slots := by rfl
@[simp] theorem State.wr_arrays (t l r v : Nat) : (s.wr t l r v).arrays = s.arrays := by rfl
@[simp] theorem State.wr_fills (t l r v : Nat) : (s.wr t l r v).fills = s.fills := by rfl
@[simp] theorem State.wr_launches (t l r v : Nat) : (s.wr t l r v).launches = s.launches := by rfl
@[simp] theorem State.wr_clusters (t l r v : Nat) : (s.wr t l r v).clusters = s.clusters := by rfl
@[simp] theorem State.wr_blocks (t l r v : Nat) : (s.wr t l r v).blocks = s.blocks := by rfl
@[simp] theorem State.wr_queues (t l r v : Nat) : (s.wr t l r v).queues = s.queues := by rfl
@[simp] theorem State.wr_released (t l r v : Nat) : (s.wr t l r v).released = s.released := by rfl
@[simp] theorem State.wr_cores (t l r v : Nat) : (s.wr t l r v).cores = s.cores := by rfl
@[simp] theorem State.wr_dies (t l r v : Nat) : (s.wr t l r v).dies = s.dies := by rfl
@[simp] theorem State.wr_fns (t l r v : Nat) : (s.wr t l r v).fns = s.fns := by rfl
@[simp] theorem State.wr_savebase (t l r v : Nat) : (s.wr t l r v).savebase = s.savebase := by rfl
@[simp] theorem State.wr_msix (t l r v : Nat) : (s.wr t l r v).msix = s.msix := by rfl
@[simp] theorem State.wr_msgs (t l r v : Nat) : (s.wr t l r v).msgs = s.msgs := by rfl
@[simp] theorem State.wr_reports (t l r v : Nat) : (s.wr t l r v).reports = s.reports := by rfl
@[simp] theorem State.wr_trapOuts (t l r v : Nat) : (s.wr t l r v).trapOuts = s.trapOuts := by rfl
@[simp] theorem State.wr_waiters (t l r v : Nat) : (s.wr t l r v).waiters = s.waiters := by rfl
@[simp] theorem State.wr_guest (t l r v : Nat) : (s.wr t l r v).guest = s.guest := by rfl
@[simp] theorem State.wr_tick (t l r v : Nat) : (s.wr t l r v).tick = s.tick := by rfl
@[simp] theorem State.wr_maxClock (t l r v : Nat) : (s.wr t l r v).maxClock = s.maxClock := by rfl
@[simp] theorem State.wr_hostClock (t l r v : Nat) : (s.wr t l r v).hostClock = s.hostClock := by rfl
@[simp] theorem State.wr_hostAnswer (t l r v : Nat) : (s.wr t l r v).hostAnswer = s.hostAnswer := by rfl
@[simp] theorem State.wr_stopat (t l r v : Nat) : (s.wr t l r v).stopat = s.stopat := by rfl
@[simp] theorem State.wr_stopDue (t l r v : Nat) : (s.wr t l r v).stopDue = s.stopDue := by rfl
@[simp] theorem State.wr_haltDue (t l r v : Nat) : (s.wr t l r v).haltDue = s.haltDue := by rfl
@[simp] theorem State.wr_stopped (t l r v : Nat) : (s.wr t l r v).stopped = s.stopped := by rfl
@[simp] theorem State.wr_trip (t l r v : Nat) : (s.wr t l r v).trip = s.trip := by rfl
@[simp] theorem State.wr_tripDue (t l r v : Nat) : (s.wr t l r v).tripDue = s.tripDue := by rfl
@[simp] theorem State.wr_mgmt (t l r v : Nat) : (s.wr t l r v).mgmt = s.mgmt := by rfl
@[simp] theorem State.wr_evsel (t l r v : Nat) : (s.wr t l r v).evsel = s.evsel := by rfl
@[simp] theorem State.wr_smpctl (t l r v : Nat) : (s.wr t l r v).smpctl = s.smpctl := by rfl
@[simp] theorem State.wr_rcctl (t l r v : Nat) : (s.wr t l r v).rcctl = s.rcctl := by rfl
@[simp] theorem State.wr_rcact (t l r v : Nat) : (s.wr t l r v).rcact = s.rcact := by rfl
@[simp] theorem State.wr_recording (t l r v : Nat) : (s.wr t l r v).recording = s.recording := by rfl
@[simp] theorem State.wr_playing (t l r v : Nat) : (s.wr t l r v).playing = s.playing := by rfl
@[simp] theorem State.wr_rcsts (t l r v : Nat) : (s.wr t l r v).rcsts = s.rcsts := by rfl
@[simp] theorem State.wr_endt (t l r v : Nat) : (s.wr t l r v).endt = s.endt := by rfl
@[simp] theorem State.wr_rclog (t l r v : Nat) : (s.wr t l r v).rclog = s.rclog := by rfl
@[simp] theorem State.wr_rclogs (t l r v : Nat) : (s.wr t l r v).rclogs = s.rclogs := by rfl
@[simp] theorem State.wr_lnkst (t l r v : Nat) : (s.wr t l r v).lnkst = s.lnkst := by rfl
@[simp] theorem State.wr_fabid (t l r v : Nat) : (s.wr t l r v).fabid = s.fabid := by rfl
@[simp] theorem State.wr_pwrlim (t l r v : Nat) : (s.wr t l r v).pwrlim = s.pwrlim := by rfl
@[simp] theorem State.wr_spdm (t l r v : Nat) : (s.wr t l r v).spdm = s.spdm := by rfl
@[simp] theorem State.wr_issue (t l r v : Nat) : (s.wr t l r v).issue = s.issue := by rfl
@[simp] theorem State.wr_agenda (t l r v : Nat) : (s.wr t l r v).agenda = s.agenda := by rfl
@[simp] theorem State.wr_fresh (t l r v : Nat) : (s.wr t l r v).fresh = s.fresh := by rfl
@[simp] theorem State.wr_nextId (t l r v : Nat) : (s.wr t l r v).nextId = s.nextId := by rfl

/-! ## `defer` -/

@[simp] theorem State.defer_mem (d : Deferred) : (s.defer d).mem = s.mem := by rfl
@[simp] theorem State.defer_memPoison (d : Deferred) : (s.defer d).memPoison = s.memPoison := by rfl
@[simp] theorem State.defer_l1 (d : Deferred) : (s.defer d).l1 = s.l1 := by rfl
@[simp] theorem State.defer_l2 (d : Deferred) : (s.defer d).l2 = s.l2 := by rfl
@[simp] theorem State.defer_owners (d : Deferred) : (s.defer d).owners = s.owners := by rfl
@[simp] theorem State.defer_locks (d : Deferred) : (s.defer d).locks = s.locks := by rfl
@[simp] theorem State.defer_undo (d : Deferred) : (s.defer d).undo = s.undo := by rfl
@[simp] theorem State.defer_stored (d : Deferred) : (s.defer d).stored = s.stored := by rfl
@[simp] theorem State.defer_commits (d : Deferred) : (s.defer d).commits = s.commits := by rfl
@[simp] theorem State.defer_hostQ (d : Deferred) : (s.defer d).hostQ = s.hostQ := by rfl
@[simp] theorem State.defer_regs (d : Deferred) : (s.defer d).regs = s.regs := by rfl
@[simp] theorem State.defer_regPoison (d : Deferred) : (s.defer d).regPoison = s.regPoison := by rfl
@[simp] theorem State.defer_lanes (d : Deferred) : (s.defer d).lanes = s.lanes := by rfl
@[simp] theorem State.defer_parts (d : Deferred) : (s.defer d).parts = s.parts := by rfl
@[simp] theorem State.defer_teams (d : Deferred) : (s.defer d).teams = s.teams := by rfl
@[simp] theorem State.defer_held (d : Deferred) : (s.defer d).held = s.held := by rfl
@[simp] theorem State.defer_cmds (d : Deferred) : (s.defer d).cmds = s.cmds := by rfl
@[simp] theorem State.defer_tundish (d : Deferred) : (s.defer d).tundish = s.tundish := by rfl
@[simp] theorem State.defer_slots (d : Deferred) : (s.defer d).slots = s.slots := by rfl
@[simp] theorem State.defer_arrays (d : Deferred) : (s.defer d).arrays = s.arrays := by rfl
@[simp] theorem State.defer_fills (d : Deferred) : (s.defer d).fills = s.fills := by rfl
@[simp] theorem State.defer_launches (d : Deferred) : (s.defer d).launches = s.launches := by rfl
@[simp] theorem State.defer_clusters (d : Deferred) : (s.defer d).clusters = s.clusters := by rfl
@[simp] theorem State.defer_blocks (d : Deferred) : (s.defer d).blocks = s.blocks := by rfl
@[simp] theorem State.defer_queues (d : Deferred) : (s.defer d).queues = s.queues := by rfl
@[simp] theorem State.defer_released (d : Deferred) : (s.defer d).released = s.released := by rfl
@[simp] theorem State.defer_cores (d : Deferred) : (s.defer d).cores = s.cores := by rfl
@[simp] theorem State.defer_dies (d : Deferred) : (s.defer d).dies = s.dies := by rfl
@[simp] theorem State.defer_fns (d : Deferred) : (s.defer d).fns = s.fns := by rfl
@[simp] theorem State.defer_savebase (d : Deferred) : (s.defer d).savebase = s.savebase := by rfl
@[simp] theorem State.defer_msix (d : Deferred) : (s.defer d).msix = s.msix := by rfl
@[simp] theorem State.defer_msgs (d : Deferred) : (s.defer d).msgs = s.msgs := by rfl
@[simp] theorem State.defer_reports (d : Deferred) : (s.defer d).reports = s.reports := by rfl
@[simp] theorem State.defer_trapOuts (d : Deferred) : (s.defer d).trapOuts = s.trapOuts := by rfl
@[simp] theorem State.defer_waiters (d : Deferred) : (s.defer d).waiters = s.waiters := by rfl
@[simp] theorem State.defer_guest (d : Deferred) : (s.defer d).guest = s.guest := by rfl
@[simp] theorem State.defer_tick (d : Deferred) : (s.defer d).tick = s.tick := by rfl
@[simp] theorem State.defer_maxClock (d : Deferred) : (s.defer d).maxClock = s.maxClock := by rfl
@[simp] theorem State.defer_hostClock (d : Deferred) : (s.defer d).hostClock = s.hostClock := by rfl
@[simp] theorem State.defer_hostAnswer (d : Deferred) : (s.defer d).hostAnswer = s.hostAnswer := by rfl
@[simp] theorem State.defer_stopat (d : Deferred) : (s.defer d).stopat = s.stopat := by rfl
@[simp] theorem State.defer_stopDue (d : Deferred) : (s.defer d).stopDue = s.stopDue := by rfl
@[simp] theorem State.defer_haltDue (d : Deferred) : (s.defer d).haltDue = s.haltDue := by rfl
@[simp] theorem State.defer_stopped (d : Deferred) : (s.defer d).stopped = s.stopped := by rfl
@[simp] theorem State.defer_trip (d : Deferred) : (s.defer d).trip = s.trip := by rfl
@[simp] theorem State.defer_tripDue (d : Deferred) : (s.defer d).tripDue = s.tripDue := by rfl
@[simp] theorem State.defer_mgmt (d : Deferred) : (s.defer d).mgmt = s.mgmt := by rfl
@[simp] theorem State.defer_evsel (d : Deferred) : (s.defer d).evsel = s.evsel := by rfl
@[simp] theorem State.defer_smpctl (d : Deferred) : (s.defer d).smpctl = s.smpctl := by rfl
@[simp] theorem State.defer_rcctl (d : Deferred) : (s.defer d).rcctl = s.rcctl := by rfl
@[simp] theorem State.defer_rcact (d : Deferred) : (s.defer d).rcact = s.rcact := by rfl
@[simp] theorem State.defer_recording (d : Deferred) : (s.defer d).recording = s.recording := by rfl
@[simp] theorem State.defer_playing (d : Deferred) : (s.defer d).playing = s.playing := by rfl
@[simp] theorem State.defer_rcsts (d : Deferred) : (s.defer d).rcsts = s.rcsts := by rfl
@[simp] theorem State.defer_endt (d : Deferred) : (s.defer d).endt = s.endt := by rfl
@[simp] theorem State.defer_rclog (d : Deferred) : (s.defer d).rclog = s.rclog := by rfl
@[simp] theorem State.defer_rclogs (d : Deferred) : (s.defer d).rclogs = s.rclogs := by rfl
@[simp] theorem State.defer_lnkst (d : Deferred) : (s.defer d).lnkst = s.lnkst := by rfl
@[simp] theorem State.defer_fabid (d : Deferred) : (s.defer d).fabid = s.fabid := by rfl
@[simp] theorem State.defer_pwrlim (d : Deferred) : (s.defer d).pwrlim = s.pwrlim := by rfl
@[simp] theorem State.defer_spdm (d : Deferred) : (s.defer d).spdm = s.spdm := by rfl
@[simp] theorem State.defer_issue (d : Deferred) : (s.defer d).issue = s.issue := by rfl
@[simp] theorem State.defer_agenda (d : Deferred) : (s.defer d).agenda = s.agenda := by rfl
@[simp] theorem State.defer_fresh (d : Deferred) : (s.defer d).fresh = s.fresh := by rfl
@[simp] theorem State.defer_nextId (d : Deferred) : (s.defer d).nextId = s.nextId := by rfl

/-! ## Reading a record after writing one -/

@[simp] theorem State.part_setPart_self (p : Nat) (x : Part) : (s.setPart p x).part p = x := by
  simp [State.part, State.setPart]
theorem State.part_setPart_ne (p q : Nat) (x : Part) (h : q ≠ p) : (s.setPart p x).part q = s.part q := by
  simp [State.part, State.setPart, FMap.get_set_ne _ _ _ _ _ h]
@[simp] theorem State.modPart_eq (p : Nat) (f : Part → Part) : s.modPart p f = s.setPart p (f (s.part p)) := by rfl
@[simp] theorem State.lane_setLane_self (p : Nat) (x : Lane) : (s.setLane p x).lane p = x := by
  simp [State.lane, State.setLane]
theorem State.lane_setLane_ne (p q : Nat) (x : Lane) (h : q ≠ p) : (s.setLane p x).lane q = s.lane q := by
  simp [State.lane, State.setLane, FMap.get_set_ne _ _ _ _ _ h]
@[simp] theorem State.modLane_eq (p : Nat) (f : Lane → Lane) : s.modLane p f = s.setLane p (f (s.lane p)) := by rfl
@[simp] theorem State.core_setCore_self (p : Nat) (x : Core) : (s.setCore p x).core p = x := by
  simp [State.core, State.setCore]
theorem State.core_setCore_ne (p q : Nat) (x : Core) (h : q ≠ p) : (s.setCore p x).core q = s.core q := by
  simp [State.core, State.setCore, FMap.get_set_ne _ _ _ _ _ h]
@[simp] theorem State.modCore_eq (p : Nat) (f : Core → Core) : s.modCore p f = s.setCore p (f (s.core p)) := by rfl
@[simp] theorem State.die_setDie_self (p : Nat) (x : Die) : (s.setDie p x).die p = x := by
  simp [State.die, State.setDie]
theorem State.die_setDie_ne (p q : Nat) (x : Die) (h : q ≠ p) : (s.setDie p x).die q = s.die q := by
  simp [State.die, State.setDie, FMap.get_set_ne _ _ _ _ _ h]
@[simp] theorem State.modDie_eq (p : Nat) (f : Die → Die) : s.modDie p f = s.setDie p (f (s.die p)) := by rfl
@[simp] theorem State.fn_setFn_self (p : Nat) (x : Fn) : (s.setFn p x).fn p = x := by
  simp [State.fn, State.setFn]
theorem State.fn_setFn_ne (p q : Nat) (x : Fn) (h : q ≠ p) : (s.setFn p x).fn q = s.fn q := by
  simp [State.fn, State.setFn, FMap.get_set_ne _ _ _ _ _ h]
@[simp] theorem State.modFn_eq (p : Nat) (f : Fn → Fn) : s.modFn p f = s.setFn p (f (s.fn p)) := by rfl
@[simp] theorem State.launch_setLaunch_self (p : Nat) (x : Launch) : (s.setLaunch p x).launch p = x := by
  simp [State.launch, State.setLaunch]
theorem State.launch_setLaunch_ne (p q : Nat) (x : Launch) (h : q ≠ p) : (s.setLaunch p x).launch q = s.launch q := by
  simp [State.launch, State.setLaunch, FMap.get_set_ne _ _ _ _ _ h]
@[simp] theorem State.modLaunch_eq (p : Nat) (f : Launch → Launch) : s.modLaunch p f = s.setLaunch p (f (s.launch p)) := by rfl
@[simp] theorem State.cluster_setCluster_self (p : Nat) (x : Cluster) : (s.setCluster p x).cluster p = x := by
  simp [State.cluster, State.setCluster]
theorem State.cluster_setCluster_ne (p q : Nat) (x : Cluster) (h : q ≠ p) : (s.setCluster p x).cluster q = s.cluster q := by
  simp [State.cluster, State.setCluster, FMap.get_set_ne _ _ _ _ _ h]
@[simp] theorem State.modCluster_eq (p : Nat) (f : Cluster → Cluster) : s.modCluster p f = s.setCluster p (f (s.cluster p)) := by rfl
@[simp] theorem State.block_setBlock_self (p : Nat) (x : Block) : (s.setBlock p x).block p = x := by
  simp [State.block, State.setBlock]
theorem State.block_setBlock_ne (p q : Nat) (x : Block) (h : q ≠ p) : (s.setBlock p x).block q = s.block q := by
  simp [State.block, State.setBlock, FMap.get_set_ne _ _ _ _ _ h]
@[simp] theorem State.modBlock_eq (p : Nat) (f : Block → Block) : s.modBlock p f = s.setBlock p (f (s.block p)) := by rfl
@[simp] theorem State.queue_setQueue_self (p : Nat) (x : Queue) : (s.setQueue p x).queue p = x := by
  simp [State.queue, State.setQueue]
theorem State.queue_setQueue_ne (p q : Nat) (x : Queue) (h : q ≠ p) : (s.setQueue p x).queue q = s.queue q := by
  simp [State.queue, State.setQueue, FMap.get_set_ne _ _ _ _ _ h]
@[simp] theorem State.modQueue_eq (p : Nat) (f : Queue → Queue) : s.modQueue p f = s.setQueue p (f (s.queue p)) := by rfl

/-! ## A record reads the same after an update of another kind -/

@[simp] theorem State.lane_setPart (p : Nat) (x : Part) (q : Nat) : (s.setPart p x).lane q = s.lane q := by rfl
@[simp] theorem State.core_setPart (p : Nat) (x : Part) (q : Nat) : (s.setPart p x).core q = s.core q := by rfl
@[simp] theorem State.die_setPart (p : Nat) (x : Part) (q : Nat) : (s.setPart p x).die q = s.die q := by rfl
@[simp] theorem State.fn_setPart (p : Nat) (x : Part) (q : Nat) : (s.setPart p x).fn q = s.fn q := by rfl
@[simp] theorem State.launch_setPart (p : Nat) (x : Part) (q : Nat) : (s.setPart p x).launch q = s.launch q := by rfl
@[simp] theorem State.cluster_setPart (p : Nat) (x : Part) (q : Nat) : (s.setPart p x).cluster q = s.cluster q := by rfl
@[simp] theorem State.block_setPart (p : Nat) (x : Part) (q : Nat) : (s.setPart p x).block q = s.block q := by rfl
@[simp] theorem State.queue_setPart (p : Nat) (x : Part) (q : Nat) : (s.setPart p x).queue q = s.queue q := by rfl
@[simp] theorem State.part_setLane (p : Nat) (x : Lane) (q : Nat) : (s.setLane p x).part q = s.part q := by rfl
@[simp] theorem State.core_setLane (p : Nat) (x : Lane) (q : Nat) : (s.setLane p x).core q = s.core q := by rfl
@[simp] theorem State.die_setLane (p : Nat) (x : Lane) (q : Nat) : (s.setLane p x).die q = s.die q := by rfl
@[simp] theorem State.fn_setLane (p : Nat) (x : Lane) (q : Nat) : (s.setLane p x).fn q = s.fn q := by rfl
@[simp] theorem State.launch_setLane (p : Nat) (x : Lane) (q : Nat) : (s.setLane p x).launch q = s.launch q := by rfl
@[simp] theorem State.cluster_setLane (p : Nat) (x : Lane) (q : Nat) : (s.setLane p x).cluster q = s.cluster q := by rfl
@[simp] theorem State.block_setLane (p : Nat) (x : Lane) (q : Nat) : (s.setLane p x).block q = s.block q := by rfl
@[simp] theorem State.queue_setLane (p : Nat) (x : Lane) (q : Nat) : (s.setLane p x).queue q = s.queue q := by rfl
@[simp] theorem State.part_setCore (p : Nat) (x : Core) (q : Nat) : (s.setCore p x).part q = s.part q := by rfl
@[simp] theorem State.lane_setCore (p : Nat) (x : Core) (q : Nat) : (s.setCore p x).lane q = s.lane q := by rfl
@[simp] theorem State.die_setCore (p : Nat) (x : Core) (q : Nat) : (s.setCore p x).die q = s.die q := by rfl
@[simp] theorem State.fn_setCore (p : Nat) (x : Core) (q : Nat) : (s.setCore p x).fn q = s.fn q := by rfl
@[simp] theorem State.launch_setCore (p : Nat) (x : Core) (q : Nat) : (s.setCore p x).launch q = s.launch q := by rfl
@[simp] theorem State.cluster_setCore (p : Nat) (x : Core) (q : Nat) : (s.setCore p x).cluster q = s.cluster q := by rfl
@[simp] theorem State.block_setCore (p : Nat) (x : Core) (q : Nat) : (s.setCore p x).block q = s.block q := by rfl
@[simp] theorem State.queue_setCore (p : Nat) (x : Core) (q : Nat) : (s.setCore p x).queue q = s.queue q := by rfl
@[simp] theorem State.part_setDie (p : Nat) (x : Die) (q : Nat) : (s.setDie p x).part q = s.part q := by rfl
@[simp] theorem State.lane_setDie (p : Nat) (x : Die) (q : Nat) : (s.setDie p x).lane q = s.lane q := by rfl
@[simp] theorem State.core_setDie (p : Nat) (x : Die) (q : Nat) : (s.setDie p x).core q = s.core q := by rfl
@[simp] theorem State.fn_setDie (p : Nat) (x : Die) (q : Nat) : (s.setDie p x).fn q = s.fn q := by rfl
@[simp] theorem State.launch_setDie (p : Nat) (x : Die) (q : Nat) : (s.setDie p x).launch q = s.launch q := by rfl
@[simp] theorem State.cluster_setDie (p : Nat) (x : Die) (q : Nat) : (s.setDie p x).cluster q = s.cluster q := by rfl
@[simp] theorem State.block_setDie (p : Nat) (x : Die) (q : Nat) : (s.setDie p x).block q = s.block q := by rfl
@[simp] theorem State.queue_setDie (p : Nat) (x : Die) (q : Nat) : (s.setDie p x).queue q = s.queue q := by rfl
@[simp] theorem State.part_setFn (p : Nat) (x : Fn) (q : Nat) : (s.setFn p x).part q = s.part q := by rfl
@[simp] theorem State.lane_setFn (p : Nat) (x : Fn) (q : Nat) : (s.setFn p x).lane q = s.lane q := by rfl
@[simp] theorem State.core_setFn (p : Nat) (x : Fn) (q : Nat) : (s.setFn p x).core q = s.core q := by rfl
@[simp] theorem State.die_setFn (p : Nat) (x : Fn) (q : Nat) : (s.setFn p x).die q = s.die q := by rfl
@[simp] theorem State.launch_setFn (p : Nat) (x : Fn) (q : Nat) : (s.setFn p x).launch q = s.launch q := by rfl
@[simp] theorem State.cluster_setFn (p : Nat) (x : Fn) (q : Nat) : (s.setFn p x).cluster q = s.cluster q := by rfl
@[simp] theorem State.block_setFn (p : Nat) (x : Fn) (q : Nat) : (s.setFn p x).block q = s.block q := by rfl
@[simp] theorem State.queue_setFn (p : Nat) (x : Fn) (q : Nat) : (s.setFn p x).queue q = s.queue q := by rfl
@[simp] theorem State.part_setLaunch (p : Nat) (x : Launch) (q : Nat) : (s.setLaunch p x).part q = s.part q := by rfl
@[simp] theorem State.lane_setLaunch (p : Nat) (x : Launch) (q : Nat) : (s.setLaunch p x).lane q = s.lane q := by rfl
@[simp] theorem State.core_setLaunch (p : Nat) (x : Launch) (q : Nat) : (s.setLaunch p x).core q = s.core q := by rfl
@[simp] theorem State.die_setLaunch (p : Nat) (x : Launch) (q : Nat) : (s.setLaunch p x).die q = s.die q := by rfl
@[simp] theorem State.fn_setLaunch (p : Nat) (x : Launch) (q : Nat) : (s.setLaunch p x).fn q = s.fn q := by rfl
@[simp] theorem State.cluster_setLaunch (p : Nat) (x : Launch) (q : Nat) : (s.setLaunch p x).cluster q = s.cluster q := by rfl
@[simp] theorem State.block_setLaunch (p : Nat) (x : Launch) (q : Nat) : (s.setLaunch p x).block q = s.block q := by rfl
@[simp] theorem State.queue_setLaunch (p : Nat) (x : Launch) (q : Nat) : (s.setLaunch p x).queue q = s.queue q := by rfl
@[simp] theorem State.part_setCluster (p : Nat) (x : Cluster) (q : Nat) : (s.setCluster p x).part q = s.part q := by rfl
@[simp] theorem State.lane_setCluster (p : Nat) (x : Cluster) (q : Nat) : (s.setCluster p x).lane q = s.lane q := by rfl
@[simp] theorem State.core_setCluster (p : Nat) (x : Cluster) (q : Nat) : (s.setCluster p x).core q = s.core q := by rfl
@[simp] theorem State.die_setCluster (p : Nat) (x : Cluster) (q : Nat) : (s.setCluster p x).die q = s.die q := by rfl
@[simp] theorem State.fn_setCluster (p : Nat) (x : Cluster) (q : Nat) : (s.setCluster p x).fn q = s.fn q := by rfl
@[simp] theorem State.launch_setCluster (p : Nat) (x : Cluster) (q : Nat) : (s.setCluster p x).launch q = s.launch q := by rfl
@[simp] theorem State.block_setCluster (p : Nat) (x : Cluster) (q : Nat) : (s.setCluster p x).block q = s.block q := by rfl
@[simp] theorem State.queue_setCluster (p : Nat) (x : Cluster) (q : Nat) : (s.setCluster p x).queue q = s.queue q := by rfl
@[simp] theorem State.part_setBlock (p : Nat) (x : Block) (q : Nat) : (s.setBlock p x).part q = s.part q := by rfl
@[simp] theorem State.lane_setBlock (p : Nat) (x : Block) (q : Nat) : (s.setBlock p x).lane q = s.lane q := by rfl
@[simp] theorem State.core_setBlock (p : Nat) (x : Block) (q : Nat) : (s.setBlock p x).core q = s.core q := by rfl
@[simp] theorem State.die_setBlock (p : Nat) (x : Block) (q : Nat) : (s.setBlock p x).die q = s.die q := by rfl
@[simp] theorem State.fn_setBlock (p : Nat) (x : Block) (q : Nat) : (s.setBlock p x).fn q = s.fn q := by rfl
@[simp] theorem State.launch_setBlock (p : Nat) (x : Block) (q : Nat) : (s.setBlock p x).launch q = s.launch q := by rfl
@[simp] theorem State.cluster_setBlock (p : Nat) (x : Block) (q : Nat) : (s.setBlock p x).cluster q = s.cluster q := by rfl
@[simp] theorem State.queue_setBlock (p : Nat) (x : Block) (q : Nat) : (s.setBlock p x).queue q = s.queue q := by rfl
@[simp] theorem State.part_setQueue (p : Nat) (x : Queue) (q : Nat) : (s.setQueue p x).part q = s.part q := by rfl
@[simp] theorem State.lane_setQueue (p : Nat) (x : Queue) (q : Nat) : (s.setQueue p x).lane q = s.lane q := by rfl
@[simp] theorem State.core_setQueue (p : Nat) (x : Queue) (q : Nat) : (s.setQueue p x).core q = s.core q := by rfl
@[simp] theorem State.die_setQueue (p : Nat) (x : Queue) (q : Nat) : (s.setQueue p x).die q = s.die q := by rfl
@[simp] theorem State.fn_setQueue (p : Nat) (x : Queue) (q : Nat) : (s.setQueue p x).fn q = s.fn q := by rfl
@[simp] theorem State.launch_setQueue (p : Nat) (x : Queue) (q : Nat) : (s.setQueue p x).launch q = s.launch q := by rfl
@[simp] theorem State.cluster_setQueue (p : Nat) (x : Queue) (q : Nat) : (s.setQueue p x).cluster q = s.cluster q := by rfl
@[simp] theorem State.block_setQueue (p : Nat) (x : Queue) (q : Nat) : (s.setQueue p x).block q = s.block q := by rfl
@[simp] theorem State.part_bump (q : Nat) : (s.bump).part q = s.part q := by rfl
@[simp] theorem State.lane_bump (q : Nat) : (s.bump).lane q = s.lane q := by rfl
@[simp] theorem State.core_bump (q : Nat) : (s.bump).core q = s.core q := by rfl
@[simp] theorem State.die_bump (q : Nat) : (s.bump).die q = s.die q := by rfl
@[simp] theorem State.fn_bump (q : Nat) : (s.bump).fn q = s.fn q := by rfl
@[simp] theorem State.launch_bump (q : Nat) : (s.bump).launch q = s.launch q := by rfl
@[simp] theorem State.cluster_bump (q : Nat) : (s.bump).cluster q = s.cluster q := by rfl
@[simp] theorem State.block_bump (q : Nat) : (s.bump).block q = s.block q := by rfl
@[simp] theorem State.queue_bump (q : Nat) : (s.bump).queue q = s.queue q := by rfl
@[simp] theorem State.part_putReg (t l r v : Nat) (q : Nat) : (s.putReg t l r v).part q = s.part q := by rfl
@[simp] theorem State.lane_putReg (t l r v : Nat) (q : Nat) : (s.putReg t l r v).lane q = s.lane q := by rfl
@[simp] theorem State.core_putReg (t l r v : Nat) (q : Nat) : (s.putReg t l r v).core q = s.core q := by rfl
@[simp] theorem State.die_putReg (t l r v : Nat) (q : Nat) : (s.putReg t l r v).die q = s.die q := by rfl
@[simp] theorem State.fn_putReg (t l r v : Nat) (q : Nat) : (s.putReg t l r v).fn q = s.fn q := by rfl
@[simp] theorem State.launch_putReg (t l r v : Nat) (q : Nat) : (s.putReg t l r v).launch q = s.launch q := by rfl
@[simp] theorem State.cluster_putReg (t l r v : Nat) (q : Nat) : (s.putReg t l r v).cluster q = s.cluster q := by rfl
@[simp] theorem State.block_putReg (t l r v : Nat) (q : Nat) : (s.putReg t l r v).block q = s.block q := by rfl
@[simp] theorem State.queue_putReg (t l r v : Nat) (q : Nat) : (s.putReg t l r v).queue q = s.queue q := by rfl
@[simp] theorem State.part_cover (t l r m : Nat) (q : Nat) : (s.cover t l r m).part q = s.part q := by rfl
@[simp] theorem State.lane_cover (t l r m : Nat) (q : Nat) : (s.cover t l r m).lane q = s.lane q := by rfl
@[simp] theorem State.core_cover (t l r m : Nat) (q : Nat) : (s.cover t l r m).core q = s.core q := by rfl
@[simp] theorem State.die_cover (t l r m : Nat) (q : Nat) : (s.cover t l r m).die q = s.die q := by rfl
@[simp] theorem State.fn_cover (t l r m : Nat) (q : Nat) : (s.cover t l r m).fn q = s.fn q := by rfl
@[simp] theorem State.launch_cover (t l r m : Nat) (q : Nat) : (s.cover t l r m).launch q = s.launch q := by rfl
@[simp] theorem State.cluster_cover (t l r m : Nat) (q : Nat) : (s.cover t l r m).cluster q = s.cluster q := by rfl
@[simp] theorem State.block_cover (t l r m : Nat) (q : Nat) : (s.cover t l r m).block q = s.block q := by rfl
@[simp] theorem State.queue_cover (t l r m : Nat) (q : Nat) : (s.cover t l r m).queue q = s.queue q := by rfl
@[simp] theorem State.part_wr (t l r v : Nat) (q : Nat) : (s.wr t l r v).part q = s.part q := by rfl
@[simp] theorem State.lane_wr (t l r v : Nat) (q : Nat) : (s.wr t l r v).lane q = s.lane q := by rfl
@[simp] theorem State.core_wr (t l r v : Nat) (q : Nat) : (s.wr t l r v).core q = s.core q := by rfl
@[simp] theorem State.die_wr (t l r v : Nat) (q : Nat) : (s.wr t l r v).die q = s.die q := by rfl
@[simp] theorem State.fn_wr (t l r v : Nat) (q : Nat) : (s.wr t l r v).fn q = s.fn q := by rfl
@[simp] theorem State.launch_wr (t l r v : Nat) (q : Nat) : (s.wr t l r v).launch q = s.launch q := by rfl
@[simp] theorem State.cluster_wr (t l r v : Nat) (q : Nat) : (s.wr t l r v).cluster q = s.cluster q := by rfl
@[simp] theorem State.block_wr (t l r v : Nat) (q : Nat) : (s.wr t l r v).block q = s.block q := by rfl
@[simp] theorem State.queue_wr (t l r v : Nat) (q : Nat) : (s.wr t l r v).queue q = s.queue q := by rfl
@[simp] theorem State.part_defer (d : Deferred) (q : Nat) : (s.defer d).part q = s.part q := by rfl
@[simp] theorem State.lane_defer (d : Deferred) (q : Nat) : (s.defer d).lane q = s.lane q := by rfl
@[simp] theorem State.core_defer (d : Deferred) (q : Nat) : (s.defer d).core q = s.core q := by rfl
@[simp] theorem State.die_defer (d : Deferred) (q : Nat) : (s.defer d).die q = s.die q := by rfl
@[simp] theorem State.fn_defer (d : Deferred) (q : Nat) : (s.defer d).fn q = s.fn q := by rfl
@[simp] theorem State.launch_defer (d : Deferred) (q : Nat) : (s.defer d).launch q = s.launch q := by rfl
@[simp] theorem State.cluster_defer (d : Deferred) (q : Nat) : (s.defer d).cluster q = s.cluster q := by rfl
@[simp] theorem State.block_defer (d : Deferred) (q : Nat) : (s.defer d).block q = s.block q := by rfl
@[simp] theorem State.queue_defer (d : Deferred) (q : Nat) : (s.defer d).queue q = s.queue q := by rfl

end Sys2Proof.Machine
end

