-- ==== Sys2Proof/Laws/Issue.lean ====
section
/-! SUPPORT. What issuing an instruction can do: when it issues, what its frame leaves alone, and what the
fixed writes of a register do. -/

namespace Sys2Proof.Machine

/-! ## The frame composes -/

theorem LanesOnly.refl (p : Nat) (s : State) : LanesOnly p s s :=
  ⟨rfl, fun _ _ => rfl, rfl, fun _ => rfl, fun _ _ => rfl, fun _ => rfl⟩

theorem partLanes_eq {p : Nat} {s t : State} (h : LanesOnly p s t) : t.partLanes p = s.partLanes p := by
  simp only [State.partLanes]; rw [h.part]

theorem LanesOnly.trans {p : Nat} {s t u : State} (h : LanesOnly p s t) (k : LanesOnly p t u) :
    LanesOnly p s u where
  rest := by have := k.rest; rw [h.rest] at this; exact this
  parts q hq := (k.parts q hq).trans (h.parts q hq)
  part := by rw [k.part, h.part]
  lanes l := by rw [k.lanes l, h.lanes l]
  mine l hl := (k.mine l (by rw [partLanes_eq h]; exact hl)).trans (h.mine l hl)
  cores c := by rw [k.cores c, h.cores c]

/-- A fold of steps that keep the frame keeps it. -/
theorem LanesOnly.foldl {α : Type} {p : Nat} (f : State → α → State)
    (hf : ∀ s x, LanesOnly p s (f s x)) (xs : List α) (s : State) : LanesOnly p s (xs.foldl f s) := by
  induction xs generalizing s with
  | nil => exact .refl p s
  | cons x t ih => exact (hf s x).trans (ih _)

/-- An update of registers, poison bits, deferred results and counters only. -/
theorem LanesOnly.ofRegs (p : Nat) (s t : State)
    (h : t = { s with
      regs := t.regs, regPoison := t.regPoison, defs := t.defs, issue := t.issue, fresh := t.fresh
      nextId := t.nextId }) : LanesOnly p s t := by
  have hp : t.parts = s.parts := by rw [h]
  have hl : t.lanes = s.lanes := by rw [h]
  have hc : t.cores = s.cores := by rw [h]
  refine ⟨?_, ?_, ?_, ?_, ?_, ?_⟩
  · rw [h]
  · intro q _; simp only [State.part, hp]
  · simp only [State.part, hp]
  · intro l; simp only [State.lane, hl]
  · intro l _; simp only [State.lane, hl]
  · intro c; simp only [State.core, hc]

theorem lanesOnly_wr (p t l r v : Nat) (s : State) : LanesOnly p s (s.wr t l r v) := .ofRegs p _ _ rfl
theorem lanesOnly_wr64 (p t l r v : Nat) (s : State) : LanesOnly p s (s.wr64 t l r v) :=
  (lanesOnly_wr p t l r v s).trans (lanesOnly_wr p t l _ _ _)
theorem lanesOnly_bump (p : Nat) (s : State) : LanesOnly p s s.bump := .ofRegs p _ _ rfl

theorem lanesOnly_orReg (p t l r v : Nat) (s : State) : LanesOnly p s (s.orReg t l r v) := by
  unfold State.orReg; split
  · exact .refl p s
  · exact .ofRegs p _ _ rfl

theorem lanesOnly_raiseFlags (p t l f : Nat) (s : State) : LanesOnly p s (s.raiseFlags t l f) := by
  unfold State.raiseFlags
  split
  · exact .refl p s
  · split
    · exact (lanesOnly_orReg p t l 255 f s).trans (.ofRegs p _ _ rfl)
    · exact lanesOnly_orReg p t l 255 f s

theorem lanesOnly_wrPred (p t l n : Nat) (b : Bool) (s : State) : LanesOnly p s (s.wrPred t l n b) := by
  unfold State.wrPred; split
  · exact .refl p s
  · exact .ofRegs p _ _ rfl

theorem lanesOnly_defer (p : Nat) (d : Deferred) (s : State) : LanesOnly p s (s.defer d) := .ofRegs p _ _ rfl

theorem lanesOnly_postFlags (p t l r v f : Nat) (s : State) : LanesOnly p s (s.postFlags t l r v f) :=
  .ofRegs p _ _ rfl

/-- An update of the part's place. -/
theorem lanesOnly_modPart (p : Nat) (s : State) (f : Part → Part)
    (h : ∀ x, f x = { x with off := (f x).off, cur := (f x).cur, sweeps := (f x).sweeps, wait := (f x).wait
                             fence := (f x).fence }) : LanesOnly p s (s.modPart p f) where
  rest := rfl
  parts q hq := State.part_setPart_ne s p q _ hq
  part := by
    have e : (s.modPart p f).part p = f (s.part p) := State.part_setPart_self s p _
    rw [e]; exact h _
  lanes _ := rfl
  mine _ _ := rfl
  cores _ := rfl

/-- An update of the wanted label and departed flag of one lane of the part. -/
theorem lanesOnly_modLane (p l : Nat) (s : State) (f : Lane → Lane) (hl : l ∈ s.partLanes p)
    (h : ∀ x, f x = { x with wl := (f x).wl, departed := (f x).departed }) :
    LanesOnly p s (s.modLane (laneId (teamOf p) l) f) where
  rest := rfl
  parts _ _ := rfl
  part := rfl
  lanes k := by
    by_cases e : k = laneId (teamOf p) l
    · subst e
      have e : (s.modLane (laneId (teamOf p) l) f).lane (laneId (teamOf p) l) = f (s.lane (laneId (teamOf p) l)) :=
        State.lane_setLane_self s _ _
      rw [e]; exact h _
    · rw [State.modLane_eq, State.lane_setLane_ne s _ k _ e]
  mine k hk := State.lane_setLane_ne s _ k _ (hk l hl)
  cores _ := rfl

theorem lanesOnly_count (p c e n : Nat) (s : State) : LanesOnly p s (s.count c e n) := by
  unfold State.count
  refine .foldl _ ?_ _ _
  intro s k; split
  · refine ⟨rfl, fun _ _ => rfl, rfl, fun _ => rfl, fun _ _ => rfl, ?_⟩
    intro x
    by_cases h : x = c
    · subst h; simp
    · rw [State.modCore_eq, State.core_setCore_ne s c x _ h]
  · exact .refl p s

/-- Updates of lanes of the part, one after the other. -/
theorem lanesOnly_eachLane (p : Nat) (f : Nat → State → State) (ls : List Nat) (s : State)
    (hls : ∀ l ∈ ls, l ∈ s.partLanes p)
    (hf : ∀ l s, l ∈ s.partLanes p → LanesOnly p s (f l s)) : LanesOnly p s (eachLane ls f s) := by
  unfold eachLane
  induction ls generalizing s with
  | nil => exact .refl p s
  | cons x t ih =>
    have h1 := hf x s (hls x (by simp))
    refine h1.trans (ih _ ?_)
    intro l hl; rw [partLanes_eq h1]; exact hls l (by simp [hl])

/-- Serving a label moves the part's place and clears departed flags. -/
theorem lanesOnly_serve (p l : Nat) (s : State) : LanesOnly p s (s.serve p l) := by
  unfold State.serve
  refine LanesOnly.trans (t := eachLane (s.partLanes p) (fun x s => s.modLane (laneId (teamOf p) x) fun y =>
    { y with departed := false }) s) (lanesOnly_eachLane p _ _ s (fun _ h => h) ?_) ?_
  · intro x s hx; exact lanesOnly_modLane p x s _ hx fun _ => rfl
  · exact lanesOnly_modPart p _ _ fun _ => rfl

theorem lanesOnly_censusNext (p cur : Nat) (s : State) : LanesOnly p s (s.censusNext p cur) := by
  unfold State.censusNext
  dsimp only
  split
  · exact (lanesOnly_serve p _ s).trans (lanesOnly_count p _ _ _ _)
  · split
    · exact ((((lanesOnly_modPart p s _ fun _ => rfl).trans (lanesOnly_serve p _ _)).trans
        (lanesOnly_count p _ _ _ _)).trans (lanesOnly_count p _ _ _ _))
    · split
      · exact lanesOnly_modPart p s _ fun _ => rfl
      · exact lanesOnly_modPart p s _ fun _ => rfl

theorem mem_activeSet {p l : Nat} {s : State} (h : l ∈ s.activeSet p) : l ∈ s.partLanes p := by
  unfold State.activeSet at h; exact (List.mem_filter.mp h).1

theorem lanesOnly_fallInto (p f : Nat) (s : State) : LanesOnly p s (s.fallInto p f) := by
  unfold State.fallInto
  dsimp only
  refine LanesOnly.trans (lanesOnly_eachLane p _ _ s (fun l h => mem_activeSet h) ?_)
    (lanesOnly_censusNext p _ _)
  intro x s hx; exact lanesOnly_modLane p x s _ hx fun _ => rfl

theorem lanesOnly_advance (p next : Nat) (s : State) : LanesOnly p s (s.advance p next) := by
  unfold State.advance
  have h := lanesOnly_modPart p s (fun x => { x with off := next }) fun _ => rfl
  dsimp only
  split
  · exact h.trans (lanesOnly_censusNext p _ _)
  · split
    · exact h.trans (lanesOnly_fallInto p _ _)
    · exact h

/-- The end of an issue keeps the frame. -/
theorem lanesOnly_finish (p : Nat) (s : State) : LanesOnly p s (s.finish p) := by
  unfold State.finish; split
  · exact .refl p s
  · exact lanesOnly_advance p _ s

/-! ## The end of an issue writes no register -/

theorem eachLane_regs (f : Nat → State → State) (hf : ∀ l s, (f l s).regs = s.regs) (ls : List Nat) (s : State) :
    (eachLane ls f s).regs = s.regs := by
  unfold eachLane
  induction ls generalizing s with
  | nil => rfl
  | cons x t ih => exact (ih _).trans (hf x s)

theorem count_regs (c e n : Nat) (s : State) : (s.count c e n).regs = s.regs := by
  unfold State.count
  generalize List.range 8 = l
  induction l generalizing s with
  | nil => rfl
  | cons x t ih =>
    rw [List.foldl_cons, ih]; split <;> rfl

theorem serve_regs (p l : Nat) (s : State) : (s.serve p l).regs = s.regs := by
  unfold State.serve; dsimp only
  refine Eq.trans (b := (eachLane _ _ s).regs) rfl (eachLane_regs _ ?_ _ s)
  intro _ _; rfl

theorem censusNext_regs (p cur : Nat) (s : State) : (s.censusNext p cur).regs = s.regs := by
  unfold State.censusNext; dsimp only
  split
  · rw [count_regs, serve_regs]
  · split
    · rw [count_regs, count_regs, serve_regs]; rfl
    · split <;> rfl

theorem advance_regs (p next : Nat) (s : State) : (s.advance p next).regs = s.regs := by
  unfold State.advance; dsimp only
  split
  · rw [censusNext_regs]; rfl
  · split
    · unfold State.fallInto; dsimp only
      rw [censusNext_regs, eachLane_regs]
      · rfl
      · intro _ _; rfl
    · rfl

theorem finish_regs (p : Nat) (s : State) : (s.finish p).regs = s.regs := by
  unfold State.finish; split
  · rfl
  · exact advance_regs p _ s

/-! ## Issuing -/

/-- `blocked` says what `Issues` does. -/
theorem blocked_none {s : State} {c : Ctx} {i : Instr} (h1 : s.decodeTrap c.t i = none)
    (h2 : s.parkWait c i = .none) (h3 : s.bump.poisonRead c i = []) (h4 : s.bump.issueWait c i = .none) :
    s.blocked c i = none := by
  unfold State.blocked; simp [h1, h2, h3, h4]

theorem issued_frame (s : State) : LanesOnly s.issue.part s s.issued := by
  unfold State.issued; split
  · exact lanesOnly_bump _ s
  · exact (lanesOnly_modPart _ s _ fun _ => rfl).trans (lanesOnly_bump _ _)

@[simp] theorem issued_regs (s : State) : s.issued.regs = s.regs := by unfold State.issued; split <;> rfl
@[simp] theorem issued_issue (s : State) : s.issued.issue = s.issue := by unfold State.issued; split <;> rfl
@[simp] theorem issued_defs (s : State) : s.issued.defs = s.defs := by unfold State.issued; split <;> rfl
@[simp] theorem issued_fresh (s : State) : s.issued.fresh = s.fresh + 1 := by unfold State.issued; split <;> rfl
@[simp] theorem issued_mem (s : State) : s.issued.mem = s.mem := by unfold State.issued; split <;> rfl
@[simp] theorem issued_lanes (s : State) : s.issued.lanes = s.lanes := by unfold State.issued; split <;> rfl

/-- An instruction that issues has its effect. -/
theorem issueRaw_issues {i : Instr} {s : State} (h : Issues i s) (eff : Ctx → State → State) :
    issueRaw i s eff = .next (eff (s.opCtx i.hdr) s.issued) := by
  obtain ⟨hl, hh⟩ := h
  unfold issueRaw
  dsimp only
  have hl' : (s.part s.issue.part).life = .live := hl
  rw [if_neg (by simpa using hl')]
  by_cases h2 : s.issue.half = .second
  · rw [if_pos h2]; rfl
  · rw [if_neg h2]
    obtain h | ⟨a, b, c, d⟩ := hh
    · exact absurd h.1 h2
    · have hb : s.blocked (s.bump.ctx i.hdr) i = none := blocked_none a b c d
      rw [hb]; rfl

/-- The same for an instruction after which its part goes on. -/
theorem issue_issues {i : Instr} {s : State} (h : Issues i s) (eff : Ctx → State → State) :
    issue i s eff = .next ((eff (s.opCtx i.hdr) s.issued).finish s.issue.part) := issueRaw_issues h _

/-- A live part's instruction always answers a next state. -/
theorem issueRaw_next (i : Instr) (s : State) (eff : Ctx → State → State)
    (h : (s.part s.issue.part).life = .live) : ∃ t, issueRaw i s eff = .next t := by
  unfold issueRaw
  dsimp only
  rw [if_neg (by simpa using h)]
  split
  · exact ⟨_, rfl⟩
  · split <;> exact ⟨_, rfl⟩

end Sys2Proof.Machine
end

