-- ==== Sys2Proof/Laws/Memory.lean ====
section
/-! SUPPORT. Memory at its home: a read after a write, what leaves memory as it is, and the canonical form, which
every operation that writes bytes keeps. -/

namespace Sys2Proof.Machine

/-! ## Reading back -/

theorem putByte_same (s : State) (pa : Nat) (b : Byte) (psn : Bool) : (s.putByte pa b psn).memByte pa = b := by
  simp [State.putByte, State.memByte]

theorem putByte_other (s : State) (pa a : Nat) (b : Byte) (psn : Bool) (h : a ≠ pa) :
    (s.putByte pa b psn).memByte a = s.memByte a := by
  simp [State.putByte, State.memByte, FMap.get_set, h]

/-- A write of bytes from an address up is the write of all but the last, and the last. -/
theorem putBytes_succ (s : State) (pa n data mask psn : Nat) :
    s.putBytes pa (n + 1) data mask psn =
      if bit mask n then (s.putBytes pa n data mask psn).putByte (pa + n) (byteOf data n) (bit psn n)
      else s.putBytes pa n data mask psn := by
  simp only [State.putBytes, List.range_succ, List.foldl_append, List.foldl_cons, List.foldl_nil]

@[simp] theorem putBytes_zero (s : State) (pa data mask psn : Nat) : s.putBytes pa 0 data mask psn = s := rfl

theorem putBytes_outside (s : State) (pa n data mask psn a : Nat) (h : a < pa ∨ pa + n ≤ a) :
    (s.putBytes pa n data mask psn).memByte a = s.memByte a := by
  induction n with
  | zero => rfl
  | succ n ih =>
    rw [putBytes_succ]
    split
    · rw [putByte_other _ _ _ _ _ (by omega)]; exact ih (by omega)
    · exact ih (by omega)

theorem putBytes_inside (s : State) (pa n data mask psn i : Nat) (h : i < n) :
    (s.putBytes pa n data mask psn).memByte (pa + i) = if bit mask i then byteOf data i else s.memByte (pa + i) := by
  induction n with
  | zero => omega
  | succ n ih =>
    rw [putBytes_succ]
    by_cases hi : i = n
    · subst hi
      split
      · exact putByte_same ..
      · exact putBytes_outside _ _ _ _ _ _ _ (by omega)
    · have := ih (by omega)
      split
      · rw [putByte_other _ _ _ _ _ (by omega)]; exact this
      · exact this

/-! ## What leaves memory as it is -/

@[simp] theorem foldTime_mem (s : State) (d t : Nat) : (s.foldTime d t).mem = s.mem := rfl

@[simp] theorem setHome_mem (s : State) (sec : Nat) (h : Home) : (s.setHome sec h).mem = s.mem := by
  unfold State.setHome; simp only; split <;> rfl

@[simp] theorem evictLine_mem (s : State) (line : Nat) : (s.evictLine line).mem = s.mem := rfl

@[simp] theorem putLine_mem (s : State) (vf : Nat) (ca : Cache) (line w : Nat) :
    (s.putLine vf ca line w).mem = s.mem := rfl

@[simp] theorem touchLine_mem (s : State) (x : L2Line) : (s.touchLine x).mem = s.mem := rfl

@[simp] theorem evictFor_mem (s : State) (vf : Nat) (y : L2Line) : (s.evictFor vf y).mem = s.mem := by
  unfold State.evictFor
  rw [evictLine_mem]
  split <;> rfl

@[simp] theorem logged_mem (s : State) (x : Logged) : (s.logged x).mem = s.mem := by
  unfold State.logged
  split
  · rfl
  · split <;> rfl

@[simp] theorem lineArrives_mem (s : State) (line : Nat) : (s.lineArrives line).mem = s.mem := by
  unfold State.lineArrives
  split
  · exact logged_mem ..
  · rfl

@[simp] theorem fillLine_mem (s : State) (vf : Nat) (ca : Cache) (line : Nat) :
    (s.fillLine vf ca line).mem = s.mem := by
  simp only [State.fillLine]
  split
  · split
    · exact touchLine_mem ..
    · rfl
  · split
    · exact (putLine_mem ..).trans (lineArrives_mem ..)
    · exact (putLine_mem ..).trans ((evictFor_mem ..).trans (lineArrives_mem ..))
    · exact lineArrives_mem ..

@[simp] theorem setSec_mem (s : State) (b k : Nat) (x : Sector) : (s.setSec b k x).mem = s.mem := rfl

@[simp] theorem raiseClock_mem (s : State) (core t : Nat) : (s.raiseClock core t).mem = s.mem := rfl

@[simp] theorem l1Put_mem (s : State) (core : Nat) (ca : Cache) (sec : Nat) (x : Copy) :
    (s.l1Put core ca sec x).mem = s.mem := by
  unfold State.l1Put
  simp only
  split
  · split
    · rfl
    · split <;> rfl
  · split <;> rfl

@[simp] theorem l1Drop_mem (s : State) (core sec : Nat) : (s.l1Drop core sec).mem = s.mem := rfl

@[simp] theorem settleSec_mem (s : State) (sec : Nat) : (s.settleSec sec).mem = s.mem := rfl

@[simp] theorem overwritten_mem (s : State) (pa n : Nat) : (s.overwritten pa n).mem = s.mem := rfl

@[simp] theorem noteUndo_mem (s : State) (tag pa n mask : Nat) : (s.noteUndo tag pa n mask).mem = s.mem := by
  unfold State.noteUndo; split <;> rfl

/-! ## The canonical form -/

theorem reset_canonical : State.reset.Canonical := rfl

theorem canonical_of_mem {s t : State} (h : t.mem = s.mem) (w : s.Canonical) : t.Canonical := by
  unfold State.Canonical at *; rw [h]; exact w

theorem canonical_foldl {α : Type} (f : State → α → State) (hf : ∀ s x, s.Canonical → (f s x).Canonical)
    (l : List α) (s : State) (w : s.Canonical) : (l.foldl f s).Canonical := by
  induction l generalizing s with
  | nil => exact w
  | cons x t ih => exact ih _ (hf s x w)

theorem putByte_canonical (s : State) (pa : Nat) (b : Byte) (psn : Bool) (w : s.Canonical) :
    (s.putByte pa b psn).Canonical := FMap.wf_set _ _ _ _ w

theorem putBytes_canonical (s : State) (pa n data mask psn : Nat) (w : s.Canonical) :
    (s.putBytes pa n data mask psn).Canonical := by
  unfold State.putBytes
  refine canonical_foldl _ (fun s i w => ?_) _ _ w
  split
  · exact putByte_canonical _ _ _ _ w
  · exact w

theorem writeBack_canonical (s : State) (x : Sector) (w : s.Canonical) : (s.writeBack x).Canonical :=
  putBytes_canonical _ _ _ _ _ _ w

theorem recall_canonical (s : State) (wr : Bool) (sec : Nat) (w : s.Canonical) : (s.recall wr sec).Canonical := by
  unfold State.recall
  split
  · exact w
  · split
    · exact w
    · rename_i x _
      exact canonical_of_mem (s := s.writeBack x) (by simp) (writeBack_canonical s x w)

theorem grant_canonical (s : State) (vf : Nat) (ca : Cache) (clock sec : Nat) (drop : Bool) (w : s.Canonical) :
    (s.grant vf ca clock sec drop).1.Canonical :=
  canonical_of_mem (s := s.recall drop sec) (by simp [State.grant]) (recall_canonical s drop sec w)

@[simp] theorem noteStore_mem (s : State) (num sec t : Nat) : (s.noteStore num sec t).mem = s.mem := rfl

theorem takeTime_canonical (s : State) (vf : Nat) (ca : Cache) (num clock sec : Nat) (w : s.Canonical) :
    (s.takeTime vf ca num clock sec).1.Canonical :=
  canonical_of_mem (by simp [State.takeTime]) (recall_canonical s true sec w)

theorem deviceRead_canonical (s : State) (vf pa n : Nat) (w : s.Canonical) : (s.deviceRead vf pa n).1.Canonical :=
  canonical_foldl _ (fun s x w => grant_canonical s vf .keep 0 x false w) _ _ w

theorem deviceWriteAt_canonical (s : State) (vf clock pa n data : Nat) (w : s.Canonical) :
    (s.deviceWriteAt vf clock pa n data).Canonical :=
  putBytes_canonical _ _ _ _ _ _ (canonical_of_mem (overwritten_mem ..)
    (canonical_foldl _ (fun s x w => takeTime_canonical s vf .keep noLane clock x w) _ _ w))

theorem deviceWrite_canonical (s : State) (vf pa n data : Nat) (w : s.Canonical) :
    (s.deviceWrite vf pa n data).Canonical := deviceWriteAt_canonical s vf 0 pa n data w

theorem quietRead_canonical (s : State) (vf : Nat) (ca : Cache) (pa n : Nat) (w : s.Canonical) :
    (s.quietRead vf ca pa n).1.Canonical :=
  canonical_foldl _ (fun s x w => canonical_of_mem (by simp) (recall_canonical s false x w)) _ _ w

theorem quietWrite_canonical (s : State) (pa n data : Nat) (w : s.Canonical) : (s.quietWrite pa n data).Canonical :=
  putBytes_canonical _ _ _ _ _ _ (canonical_of_mem (overwritten_mem ..)
    (canonical_foldl _ (fun s x w => recall_canonical s true x w) _ _ w))

theorem orEntry_canonical (s : State) (vf clock pa mask : Nat) (w : s.Canonical) :
    (s.orEntry vf clock pa mask).1.Canonical :=
  putBytes_canonical _ _ _ _ _ _
    (canonical_of_mem (settleSec_mem _ _) (takeTime_canonical s vf .keep noLane clock (pa / 64) w))

@[simp] theorem count_mem (s : State) (core evt n : Nat) : (s.count core evt n).mem = s.mem := by
  unfold State.count
  have : ∀ (l : List Nat) (s : State), (l.foldl (fun s k => if s.evsel.get 0 k = evt then
      s.modCore core fun c => { c with ev := c.ev.set 0 k (c.ev.get 0 k + n) } else s) s).mem = s.mem := by
    intro l
    induction l with
    | nil => intro s; rfl
    | cons a t ih => intro s; rw [List.foldl_cons, ih]; split <;> rfl
  exact this _ _

theorem readHome_canonical (s : State) (x : Who) (ca : Cache) (pa n : Nat) (w : s.Canonical) :
    (s.readHome x ca pa n).1.Canonical := by
  have fetch (s : State) (w : s.Canonical) (k m : Nat) (y : Copy) :
      (((s.grant x.fill ca k (pa / 64)).1.l1Put x.core ca (pa / 64) y).raiseClock x.core m).Canonical :=
    canonical_of_mem (s := (s.grant x.fill ca k (pa / 64)).1) (by simp) (grant_canonical s x.fill ca k (pa / 64) false w)
  unfold State.readHome
  simp only
  split
  · split
    · exact canonical_of_mem (by simp) w
    · exact fetch _ w _ _ _
  · exact fetch _ (canonical_of_mem (by simp) w) _ _ _

theorem storeHome_canonical (s : State) (x : Who) (ca : Cache) (op pa n data psn : Nat) (w : s.Canonical) :
    (s.storeHome x ca op pa n data psn).Canonical := by
  have h := putBytes_canonical _ pa n data (ones n) psn
    (canonical_of_mem (noteUndo_mem _ op pa n (ones n))
      (takeTime_canonical s x.fill ca x.writes (s.core x.core).clock (pa / 64) w))
  unfold State.storeHome
  simp only
  split
  · exact canonical_of_mem (by simp) h
  · exact canonical_of_mem (by simp) h

@[simp] theorem raiseWho_mem (s : State) (w : Who) (t : Nat) : (s.raiseWho w t).mem = s.mem := by
  unfold State.raiseWho
  split
  · rfl
  · split <;> rfl

theorem homeRead_canonical (s : State) (w : Who) (place : Bool) (pa n : Nat) (ca : Cache) (c : s.Canonical) :
    (s.homeRead w place pa n ca).1.Canonical := by
  unfold State.homeRead
  split
  · exact canonical_of_mem (by simp) (grant_canonical s w.fill ca (s.whoClock w) (pa / 64) false c)
  · exact quietRead_canonical s w.fill ca pa n c

theorem homeWrite_canonical (s : State) (w : Who) (clock pa n data psn : Nat) (ca : Cache) (c : s.Canonical) :
    (s.homeWrite w clock pa n data psn ca).1.Canonical :=
  putBytes_canonical _ _ _ _ _ _ (canonical_of_mem (noteUndo_mem ..)
    (takeTime_canonical s w.fill ca w.writes clock (pa / 64) c))

theorem atomHome_canonical (s : State) (w : Who) (op pa n : Nat) (a : Access) (wr : Bool) (c : s.Canonical) :
    (s.atomHome w op pa n a wr).1.Canonical := by
  have h := takeTime_canonical s w.fill a.ca w.writes (s.core w.core).clock (pa / 64) c
  unfold State.atomHome
  simp only
  split
  · split
    · exact canonical_of_mem (by simp) (putBytes_canonical _ pa n
        (atomNew a.aop a.aty a.rnd ((s.takeTime w.fill a.ca w.writes (s.core w.core).clock (pa / 64)).1.getBytes pa n).1 a.data)
        (ones n) 0
        (canonical_of_mem (noteUndo_mem _ op pa n (ones n)) (canonical_of_mem (settleSec_mem _ (pa / 64)) h)))
    · exact canonical_of_mem (by simp) h
  · exact canonical_of_mem (by simp) (grant_canonical s w.fill a.ca (s.core w.core).clock (pa / 64) true c)

theorem putCopies_canonical (s : State) (k : Commit) (t old : Nat) (c : s.Canonical) :
    (s.putCopies k t old).Canonical := by
  unfold State.putCopies
  split
  · exact canonical_foldl _ (fun s a c => putBytes_canonical _ _ _ _ _ _ (canonical_of_mem (by simp) c)) _ _ c
  · exact canonical_foldl _ (fun s a c => canonical_of_mem (by simp) c) _ _ c

@[simp] theorem unpoison_mem (s : State) (pa n v m : Nat) : (s.unpoison pa n v m).1.mem = s.mem := by
  unfold State.unpoison
  split <;> rfl

theorem walkRead_canonical (s : State) (d vf pa : Nat) (c : s.Canonical) : (s.walkRead d vf pa).1.Canonical :=
  canonical_of_mem (unpoison_mem ..)
    (canonical_of_mem (by rfl) (grant_canonical s vf .keep (s.die d).walkTime (pa / 64) false c))

theorem replayLines_canonical (s : State) (c : s.Canonical) : s.replayLines.Canonical := by
  unfold State.replayLines
  split
  · exact c
  · refine canonical_foldl _ (fun s x c => ?_) _ _ c
    split
    · exact putBytes_canonical _ _ _ _ _ _ c
    · exact c

end Sys2Proof.Machine
end

