-- ==== Sys2Proof/Laws/PerInstr.lean ====
section
/-! SUPPORT. What holds of every instruction, one lemma for each constructor of `Instr`: the fields of its encoding
fit the bits that the spec gives them (R14 to R16), so that no field runs into another. -/

namespace Sys2Proof.Laws.Fields

/-- Every field of the encoding fits its width. -/
def Statement (i : Instr) : Prop :=
  ∀ e, i.enc = some e →
    e.op < 1024 ∧ e.d < 256 ∧ e.a < 256 ∧ e.low < 2 ^ 28 ∧ e.imm < 2 ^ 32 ∧ e.ext < 2 ^ 32

theorem nop (h : Hdr) : Statement (.nop h) := by
  intro e h
  cases h
  simp only [iform]; omega

theorem go (h : Hdr) (l : Lbl) : Statement (.go h l) := by
  intro e h
  cases h
  have := l.isLt
  simp only [iform]; omega

theorem goi (h : Hdr) (a : Reg) : Statement (.goi h a) := by
  intro e h
  cases h
  have := a.isLt
  simp only [rform]; omega

theorem gosel (h : Hdr) (p : PSrc) (l1 : Lbl) (l2 : Lbl) : Statement (.gosel h p l1 l2) := by
  intro e h
  cases h
  have := p.code_lt
  have := l1.isLt
  have := l2.isLt
  simp only [iform]; omega

theorem call (h : Hdr) (d : Reg) (f : Lbl) (ret : Lbl) : Statement (.call h d f ret) := by
  intro e h
  cases h
  have := d.isLt
  have := f.isLt
  have := ret.isLt
  simp only [iform]; omega

theorem calli (h : Hdr) (d : Reg) (a : Reg) (ret : Lbl) : Statement (.calli h d a ret) := by
  intro e h
  cases h
  have := d.isLt
  have := a.isLt
  have := ret.isLt
  simp only [iform]; omega

theorem exit (h : Hdr) : Statement (.exit h) := by
  intro e h
  cases h
  simp only [iform]; omega

theorem beat (h : Hdr) : Statement (.beat h) := by
  intro e h
  cases h
  simp only [iform]; omega

theorem ipref (h : Hdr) (l : Lbl) (n : Fin 16) : Statement (.ipref h l n) := by
  intro e h
  cases h
  have := l.isLt
  have := n.isLt
  simp only [iform]; omega

theorem trap (h : Hdr) (code : BitVec 16) : Statement (.trap h code) := by
  intro e h
  cases h
  have := code.isLt
  simp only [iform]; omega

theorem brk (h : Hdr) (code : BitVec 16) : Statement (.brk h code) := by
  intro e h
  cases h
  have := code.isLt
  simp only [iform]; omega

theorem split (h : Hdr) (d : Reg) (n : Fin 16) : Statement (.split h d n) := by
  intro e h
  cases h
  have := d.isLt
  have := n.isLt
  simp only [iform]; omega

theorem fuse (h : Hdr) (d : Reg) (l : Lbl) : Statement (.fuse h d l) := by
  intro e h
  cases h
  have := d.isLt
  have := l.isLt
  simp only [iform]; omega

theorem fuset (h : Hdr) (d : Reg) (l : Lbl) : Statement (.fuset h d l) := by
  intro e h
  cases h
  have := d.isLt
  have := l.isLt
  simp only [iform]; omega

theorem iadd (h : Hdr) (d : Reg) (a : Reg) (b : Reg) (ty : ITy) (sat : Bool) : Statement (.iadd h d a b ty sat) := by
  intro e h
  cases h
  have := d.isLt
  have := a.isLt
  have := b.isLt
  have := ITy.code_lt ty
  have := b2n_lt sat
  simp only [rform]; omega

theorem isub (h : Hdr) (d : Reg) (a : Reg) (b : Reg) (ty : ITy) (sat : Bool) : Statement (.isub h d a b ty sat) := by
  intro e h
  cases h
  have := d.isLt
  have := a.isLt
  have := b.isLt
  have := ITy.code_lt ty
  have := b2n_lt sat
  simp only [rform]; omega

theorem iadc (h : Hdr) (d : Reg) (a : Reg) (b : Reg) (c : Pred) (sub : Bool) : Statement (.iadc h d a b c sub) := by
  intro e h
  cases h
  have := d.isLt
  have := a.isLt
  have := b.isLt
  have := c.isLt
  have := b2n_lt sub
  simp only [rform]; omega

theorem imul (h : Hdr) (d : Reg) (a : Reg) (b : Reg) (ty : ITy) (sat : Bool) : Statement (.imul h d a b ty sat) := by
  intro e h
  cases h
  have := d.isLt
  have := a.isLt
  have := b.isLt
  have := ITy.code_lt ty
  have := b2n_lt sat
  simp only [rform]; omega

theorem imulh (h : Hdr) (d : Reg) (a : Reg) (b : Reg) (ty : ITy) : Statement (.imulh h d a b ty) := by
  intro e h
  cases h
  have := d.isLt
  have := a.isLt
  have := b.isLt
  have := ITy.code_lt ty
  simp only [rform]; omega

theorem imad (h : Hdr) (d : Reg) (a : Reg) (b : Reg) (c : Reg) (ty : ITy) (sat : Bool) : Statement (.imad h d a b c ty sat) := by
  intro e h
  cases h
  have := d.isLt
  have := a.isLt
  have := b.isLt
  have := c.isLt
  have := ITy.code_lt ty
  have := b2n_lt sat
  simp only [rform]; omega

theorem imadw (h : Hdr) (d : Reg) (a : Reg) (b : Reg) (c : Reg) (ty : ITy) : Statement (.imadw h d a b c ty) := by
  intro e h
  cases h
  have := d.isLt
  have := a.isLt
  have := b.isLt
  have := c.isLt
  have := ITy.code_lt ty
  simp only [rform]; omega

theorem imin (h : Hdr) (d : Reg) (a : Reg) (b : Reg) (ty : ITy) : Statement (.imin h d a b ty) := by
  intro e h
  cases h
  have := d.isLt
  have := a.isLt
  have := b.isLt
  have := ITy.code_lt ty
  simp only [rform]; omega

theorem imax (h : Hdr) (d : Reg) (a : Reg) (b : Reg) (ty : ITy) : Statement (.imax h d a b ty) := by
  intro e h
  cases h
  have := d.isLt
  have := a.isLt
  have := b.isLt
  have := ITy.code_lt ty
  simp only [rform]; omega

theorem iabs (h : Hdr) (d : Reg) (a : Reg) (sat : Bool) : Statement (.iabs h d a sat) := by
  intro e h
  cases h
  have := d.isLt
  have := a.isLt
  have := b2n_lt sat
  simp only [rform]; omega

theorem ineg (h : Hdr) (d : Reg) (a : Reg) (sat : Bool) : Statement (.ineg h d a sat) := by
  intro e h
  cases h
  have := d.isLt
  have := a.isLt
  have := b2n_lt sat
  simp only [rform]; omega

theorem icmp (h : Hdr) (p : Pred) (a : Reg) (b : Reg) (ty : ITy) (c : Cond) : Statement (.icmp h p a b ty c) := by
  intro e h
  cases h
  have := p.isLt
  have := a.isLt
  have := b.isLt
  have := ITy.code_lt ty
  have := Cond.code_lt c
  simp only [rform]; omega

theorem sel (h : Hdr) (d : Reg) (a : Reg) (b : Reg) (p : PSrc) : Statement (.sel h d a b p) := by
  intro e h
  cases h
  have := d.isLt
  have := a.isLt
  have := b.isLt
  have := p.code_lt
  simp only [rform]; omega

theorem shl (h : Hdr) (d : Reg) (a : Reg) (b : Reg) : Statement (.shl h d a b) := by
  intro e h
  cases h
  have := d.isLt
  have := a.isLt
  have := b.isLt
  simp only [rform]; omega

theorem shr (h : Hdr) (d : Reg) (a : Reg) (b : Reg) : Statement (.shr h d a b) := by
  intro e h
  cases h
  have := d.isLt
  have := a.isLt
  have := b.isLt
  simp only [rform]; omega

theorem sha (h : Hdr) (d : Reg) (a : Reg) (b : Reg) : Statement (.sha h d a b) := by
  intro e h
  cases h
  have := d.isLt
  have := a.isLt
  have := b.isLt
  simp only [rform]; omega

theorem rot (h : Hdr) (d : Reg) (a : Reg) (b : Reg) (right : Bool) : Statement (.rot h d a b right) := by
  intro e h
  cases h
  have := d.isLt
  have := a.isLt
  have := b.isLt
  have := b2n_lt right
  simp only [rform]; omega

theorem fsh (h : Hdr) (d : Reg) (a : Reg) (b : Reg) (c : Reg) (left : Bool) : Statement (.fsh h d a b c left) := by
  intro e h
  cases h
  have := d.isLt
  have := a.isLt
  have := b.isLt
  have := c.isLt
  have := b2n_lt left
  simp only [rform]; omega

theorem iand (h : Hdr) (d : Reg) (a : Reg) (b : Reg) : Statement (.iand h d a b) := by
  intro e h
  cases h
  have := d.isLt
  have := a.isLt
  have := b.isLt
  simp only [rform]; omega

theorem ior (h : Hdr) (d : Reg) (a : Reg) (b : Reg) : Statement (.ior h d a b) := by
  intro e h
  cases h
  have := d.isLt
  have := a.isLt
  have := b.isLt
  simp only [rform]; omega

theorem ixor (h : Hdr) (d : Reg) (a : Reg) (b : Reg) : Statement (.ixor h d a b) := by
  intro e h
  cases h
  have := d.isLt
  have := a.isLt
  have := b.isLt
  simp only [rform]; omega

theorem lop3 (h : Hdr) (d : Reg) (a : Reg) (b : Reg) (c : Reg) (lut : Fin 256) : Statement (.lop3 h d a b c lut) := by
  intro e h
  cases h
  have := d.isLt
  have := a.isLt
  have := b.isLt
  have := c.isLt
  have := lut.isLt
  simp only [rform]; omega

theorem popc (h : Hdr) (d : Reg) (a : Reg) : Statement (.popc h d a) := by
  intro e h
  cases h
  have := d.isLt
  have := a.isLt
  simp only [rform]; omega

theorem clz (h : Hdr) (d : Reg) (a : Reg) : Statement (.clz h d a) := by
  intro e h
  cases h
  have := d.isLt
  have := a.isLt
  simp only [rform]; omega

theorem ctz (h : Hdr) (d : Reg) (a : Reg) : Statement (.ctz h d a) := by
  intro e h
  cases h
  have := d.isLt
  have := a.isLt
  simp only [rform]; omega

theorem brev (h : Hdr) (d : Reg) (a : Reg) : Statement (.brev h d a) := by
  intro e h
  cases h
  have := d.isLt
  have := a.isLt
  simp only [rform]; omega

theorem bfx (h : Hdr) (d : Reg) (a : Reg) (b : Reg) (ty : ITy) : Statement (.bfx h d a b ty) := by
  intro e h
  cases h
  have := d.isLt
  have := a.isLt
  have := b.isLt
  have := ITy.code_lt ty
  simp only [rform]; omega

theorem bfi (h : Hdr) (d : Reg) (a : Reg) (b : Reg) (c : Reg) : Statement (.bfi h d a b c) := by
  intro e h
  cases h
  have := d.isLt
  have := a.isLt
  have := b.isLt
  have := c.isLt
  simp only [rform]; omega

theorem prmt (h : Hdr) (d : Reg) (a : Reg) (b : Reg) (c : Reg) : Statement (.prmt h d a b c) := by
  intro e h
  cases h
  have := d.isLt
  have := a.isLt
  have := b.isLt
  have := c.isLt
  simp only [rform]; omega

theorem mov (h : Hdr) (d : Reg) (a : Reg) : Statement (.mov h d a) := by
  intro e h
  cases h
  have := d.isLt
  have := a.isLt
  simp only [rform]; omega

theorem movi (h : Hdr) (d : Reg) (imm : BitVec 28) : Statement (.movi h d imm) := by
  intro e h
  cases h
  have := d.isLt
  have := imm.isLt
  simp only [iform]; omega

theorem movhi (h : Hdr) (d : Reg) (a : Reg) (imm : BitVec 16) : Statement (.movhi h d a imm) := by
  intro e h
  cases h
  have := d.isLt
  have := a.isLt
  have := imm.isLt
  simp only [iform]; omega

theorem lea (h : Hdr) (d : Reg) (a : Reg) (b : Reg) (ixs : Bool) (scl : Scale) : Statement (.lea h d a b ixs scl) := by
  intro e h
  cases h
  have := d.isLt
  have := a.isLt
  have := b.isLt
  have := b2n_lt ixs
  have := Scale.code_lt scl
  simp only [rform]; omega

theorem add64 (h : Hdr) (d : Reg) (a : Reg) (b : Reg) (sub : Bool) : Statement (.add64 h d a b sub) := by
  intro e h
  cases h
  have := d.isLt
  have := a.isLt
  have := b.isLt
  have := b2n_lt sub
  simp only [rform]; omega

theorem cmp64 (h : Hdr) (p : Pred) (a : Reg) (b : Reg) (c : Cond64) : Statement (.cmp64 h p a b c) := by
  intro e h
  cases h
  have := p.isLt
  have := a.isLt
  have := b.isLt
  have := Cond64.code_lt c
  simp only [rform]; omega

theorem pbit (h : Hdr) (p : Pred) (pa : PSrc) (pb : PSrc) (op : PbOp) : Statement (.pbit h p pa pb op) := by
  intro e h
  cases h
  have := p.isLt
  have := pa.code_lt
  have := pb.code_lt
  have := PbOp.code_lt op
  simp only [rform]; omega

theorem fadd (h : Hdr) (d : Reg) (a : Reg) (b : Reg) (ty : FTy) (rnd : Rnd) (sat : Bool) (ftz : Bool) : Statement (.fadd h d a b ty rnd sat ftz) := by
  intro e h
  cases h
  have := d.isLt
  have := a.isLt
  have := b.isLt
  have := FTy.code_lt ty
  have := Rnd.code_lt rnd
  have := b2n_lt sat
  have := b2n_lt ftz
  simp only [rform, fmod]; omega

theorem fsub (h : Hdr) (d : Reg) (a : Reg) (b : Reg) (ty : FTy) (rnd : Rnd) (sat : Bool) (ftz : Bool) : Statement (.fsub h d a b ty rnd sat ftz) := by
  intro e h
  cases h
  have := d.isLt
  have := a.isLt
  have := b.isLt
  have := FTy.code_lt ty
  have := Rnd.code_lt rnd
  have := b2n_lt sat
  have := b2n_lt ftz
  simp only [rform, fmod]; omega

theorem fmul (h : Hdr) (d : Reg) (a : Reg) (b : Reg) (ty : FTy) (rnd : Rnd) (sat : Bool) (ftz : Bool) : Statement (.fmul h d a b ty rnd sat ftz) := by
  intro e h
  cases h
  have := d.isLt
  have := a.isLt
  have := b.isLt
  have := FTy.code_lt ty
  have := Rnd.code_lt rnd
  have := b2n_lt sat
  have := b2n_lt ftz
  simp only [rform, fmod]; omega

theorem ffma (h : Hdr) (d : Reg) (a : Reg) (b : Reg) (c : Reg) (ty : FTy) (rnd : Rnd) (sat : Bool) (ftz : Bool) : Statement (.ffma h d a b c ty rnd sat ftz) := by
  intro e h
  cases h
  have := d.isLt
  have := a.isLt
  have := b.isLt
  have := c.isLt
  have := FTy.code_lt ty
  have := Rnd.code_lt rnd
  have := b2n_lt sat
  have := b2n_lt ftz
  simp only [rform, fmod]; omega

theorem fmin (h : Hdr) (d : Reg) (a : Reg) (b : Reg) (ty : FTy) (ftz : Bool) : Statement (.fmin h d a b ty ftz) := by
  intro e h
  cases h
  have := d.isLt
  have := a.isLt
  have := b.isLt
  have := FTy.code_lt ty
  have := b2n_lt ftz
  have := Rnd.code_lt .rne
  have := b2n_lt false
  simp only [rform, fmod]; omega

theorem fmax (h : Hdr) (d : Reg) (a : Reg) (b : Reg) (ty : FTy) (ftz : Bool) : Statement (.fmax h d a b ty ftz) := by
  intro e h
  cases h
  have := d.isLt
  have := a.isLt
  have := b.isLt
  have := FTy.code_lt ty
  have := b2n_lt ftz
  have := Rnd.code_lt .rne
  have := b2n_lt false
  simp only [rform, fmod]; omega

theorem fcmp (h : Hdr) (p : Pred) (a : Reg) (b : Reg) (c : FCond) (ftz : Bool) : Statement (.fcmp h p a b c ftz) := by
  intro e h
  cases h
  have := p.isLt
  have := a.isLt
  have := b.isLt
  have := FCond.code_lt c
  have := b2n_lt ftz
  have := Rnd.code_lt .rne
  have := FTy.code_lt .f32
  have := b2n_lt false
  simp only [rform, fmod]; omega

theorem fclass (h : Hdr) (d : Reg) (a : Reg) (ty : FTy) : Statement (.fclass h d a ty) := by
  intro e h
  cases h
  have := d.isLt
  have := a.isLt
  have := FTy.code_lt ty
  have := Rnd.code_lt .rne
  have := b2n_lt false
  simp only [rform, fmod]; omega

theorem frnd (h : Hdr) (d : Reg) (a : Reg) (ty : FTy) (rnd : Rnd) (ftz : Bool) : Statement (.frnd h d a ty rnd ftz) := by
  intro e h
  cases h
  have := d.isLt
  have := a.isLt
  have := FTy.code_lt ty
  have := Rnd.code_lt rnd
  have := b2n_lt ftz
  have := b2n_lt false
  simp only [rform, fmod]; omega

theorem fscale (h : Hdr) (d : Reg) (a : Reg) (b : Reg) (ty : FTy) (rnd : Rnd) (sat : Bool) (ftz : Bool) : Statement (.fscale h d a b ty rnd sat ftz) := by
  intro e h
  cases h
  have := d.isLt
  have := a.isLt
  have := b.isLt
  have := FTy.code_lt ty
  have := Rnd.code_lt rnd
  have := b2n_lt sat
  have := b2n_lt ftz
  simp only [rform, fmod]; omega

theorem frcp (h : Hdr) (d : Reg) (a : Reg) (ty : FTy) (rnd : Rnd) (sat : Bool) (ftz : Bool) : Statement (.frcp h d a ty rnd sat ftz) := by
  intro e h
  cases h
  have := d.isLt
  have := a.isLt
  have := FTy.code_lt ty
  have := Rnd.code_lt rnd
  have := b2n_lt sat
  have := b2n_lt ftz
  simp only [rform, fmod]; omega

theorem frsq (h : Hdr) (d : Reg) (a : Reg) (ty : FTy) (sat : Bool) (ftz : Bool) : Statement (.frsq h d a ty sat ftz) := by
  intro e h
  cases h
  have := d.isLt
  have := a.isLt
  have := FTy.code_lt ty
  have := b2n_lt sat
  have := b2n_lt ftz
  have := Rnd.code_lt .rne
  simp only [rform, fmod]; omega

theorem fsqrt (h : Hdr) (d : Reg) (a : Reg) (ty : FTy) (rnd : Rnd) (sat : Bool) (ftz : Bool) : Statement (.fsqrt h d a ty rnd sat ftz) := by
  intro e h
  cases h
  have := d.isLt
  have := a.isLt
  have := FTy.code_lt ty
  have := Rnd.code_lt rnd
  have := b2n_lt sat
  have := b2n_lt ftz
  simp only [rform, fmod]; omega

theorem fdiv (h : Hdr) (d : Reg) (a : Reg) (b : Reg) (ty : FTy) (rnd : Rnd) (sat : Bool) (ftz : Bool) : Statement (.fdiv h d a b ty rnd sat ftz) := by
  intro e h
  cases h
  have := d.isLt
  have := a.isLt
  have := b.isLt
  have := FTy.code_lt ty
  have := Rnd.code_lt rnd
  have := b2n_lt sat
  have := b2n_lt ftz
  simp only [rform, fmod]; omega

theorem fexp2 (h : Hdr) (d : Reg) (a : Reg) (ty : FTy) (sat : Bool) (ftz : Bool) : Statement (.fexp2 h d a ty sat ftz) := by
  intro e h
  cases h
  have := d.isLt
  have := a.isLt
  have := FTy.code_lt ty
  have := b2n_lt sat
  have := b2n_lt ftz
  have := Rnd.code_lt .rne
  simp only [rform, fmod]; omega

theorem flog2 (h : Hdr) (d : Reg) (a : Reg) (ty : FTy) (sat : Bool) (ftz : Bool) : Statement (.flog2 h d a ty sat ftz) := by
  intro e h
  cases h
  have := d.isLt
  have := a.isLt
  have := FTy.code_lt ty
  have := b2n_lt sat
  have := b2n_lt ftz
  have := Rnd.code_lt .rne
  simp only [rform, fmod]; omega

theorem fsin (h : Hdr) (d : Reg) (a : Reg) (ty : FTy) (sat : Bool) (ftz : Bool) : Statement (.fsin h d a ty sat ftz) := by
  intro e h
  cases h
  have := d.isLt
  have := a.isLt
  have := FTy.code_lt ty
  have := b2n_lt sat
  have := b2n_lt ftz
  have := Rnd.code_lt .rne
  simp only [rform, fmod]; omega

theorem fcos (h : Hdr) (d : Reg) (a : Reg) (ty : FTy) (sat : Bool) (ftz : Bool) : Statement (.fcos h d a ty sat ftz) := by
  intro e h
  cases h
  have := d.isLt
  have := a.isLt
  have := FTy.code_lt ty
  have := b2n_lt sat
  have := b2n_lt ftz
  have := Rnd.code_lt .rne
  simp only [rform, fmod]; omega

theorem ftanh (h : Hdr) (d : Reg) (a : Reg) (ty : FTy) (sat : Bool) (ftz : Bool) : Statement (.ftanh h d a ty sat ftz) := by
  intro e h
  cases h
  have := d.isLt
  have := a.isLt
  have := FTy.code_lt ty
  have := b2n_lt sat
  have := b2n_lt ftz
  have := Rnd.code_lt .rne
  simp only [rform, fmod]; omega

theorem fdot2 (h : Hdr) (d : Reg) (a : Reg) (b : Reg) (c : Reg) (ty : FTy) (rnd : Rnd) (sat : Bool) (ftz : Bool) : Statement (.fdot2 h d a b c ty rnd sat ftz) := by
  intro e h
  cases h
  have := d.isLt
  have := a.isLt
  have := b.isLt
  have := c.isLt
  have := FTy.code_lt ty
  have := Rnd.code_lt rnd
  have := b2n_lt sat
  have := b2n_lt ftz
  simp only [rform, fmod]; omega

theorem cvt (h : Hdr) (d : Reg) (a : Reg) (dst : TyCode) (src : TyCode) (rnd : Rnd) (sat : Bool) (ftz : Bool) : Statement (.cvt h d a dst src rnd sat ftz) := by
  intro e h
  cases h
  have := d.isLt
  have := a.isLt
  have := TyCode.code_lt dst
  have := TyCode.code_lt src
  have := Rnd.code_lt rnd
  have := b2n_lt sat
  have := b2n_lt ftz
  simp only [rform]; omega

theorem pack (h : Hdr) (d : Reg) (a : Reg) (tc : TyCode) (rnd : Rnd) (sat : Bool) (ftz : Bool) : Statement (.pack h d a tc rnd sat ftz) := by
  intro e h
  cases h
  have := d.isLt
  have := a.isLt
  have := TyCode.code_lt tc
  have := Rnd.code_lt rnd
  have := b2n_lt sat
  have := b2n_lt ftz
  simp only [rform, pmod]; omega

theorem unpk (h : Hdr) (d : Reg) (a : Reg) (tc : TyCode) : Statement (.unpk h d a tc) := by
  intro e h
  cases h
  have := d.isLt
  have := a.isLt
  have := TyCode.code_lt tc
  have := Rnd.code_lt .rne
  have := b2n_lt false
  simp only [rform, pmod]; omega

theorem qnt (h : Hdr) (d : Reg) (a : Reg) (b : Reg) (tc : TyCode) (rnd : Rnd) (sat : Bool) (ftz : Bool) : Statement (.qnt h d a b tc rnd sat ftz) := by
  intro e h
  cases h
  have := d.isLt
  have := a.isLt
  have := b.isLt
  have := TyCode.code_lt tc
  have := Rnd.code_lt rnd
  have := b2n_lt sat
  have := b2n_lt ftz
  simp only [rform, pmod]; omega

theorem dqn (h : Hdr) (d : Reg) (a : Reg) (b : Reg) (tc : TyCode) (rnd : Rnd) (ftz : Bool) : Statement (.dqn h d a b tc rnd ftz) := by
  intro e h
  cases h
  have := d.isLt
  have := a.isLt
  have := b.isLt
  have := TyCode.code_lt tc
  have := Rnd.code_lt rnd
  have := b2n_lt ftz
  have := b2n_lt false
  simp only [rform, pmod]; omega

theorem plx (h : Hdr) (d : Reg) (a : Reg) (p : Fin 16) : Statement (.plx h d a p) := by
  intro e h
  cases h
  have := d.isLt
  have := a.isLt
  have := p.isLt
  simp only [rform]; omega

theorem pli (h : Hdr) (d : Reg) (a : Reg) (k : Fin 16) : Statement (.pli h d a k) := by
  intro e h
  cases h
  have := d.isLt
  have := a.isLt
  have := k.isLt
  simp only [rform]; omega

theorem shuf (h : Hdr) (d : Reg) (a : Reg) (b : Reg) (var : ShufVar) (wide : Bool) (seg : Seg) : Statement (.shuf h d a b var wide seg) := by
  intro e h
  cases h
  have := d.isLt
  have := a.isLt
  have := b.isLt
  have := ShufVar.code_lt var
  have := b2n_lt wide
  have := Seg.code_lt seg
  have := b2n_lt false
  simp only [rform, xmod]; omega

theorem shufImm (h : Hdr) (d : Reg) (a : Reg) (imm : Fin 256) (var : ShufVar) (wide : Bool) (seg : Seg) : Statement (.shufImm h d a imm var wide seg) := by
  intro e h
  cases h
  have := d.isLt
  have := a.isLt
  have := imm.isLt
  have := ShufVar.code_lt var
  have := b2n_lt wide
  have := Seg.code_lt seg
  have := b2n_lt false
  have := b2n_lt true
  simp only [rform, xmod]; omega

theorem qswap (h : Hdr) (d : Reg) (a : Reg) (var : QsVar) (wide : Bool) : Statement (.qswap h d a var wide) := by
  intro e h
  cases h
  have := d.isLt
  have := a.isLt
  have := QsVar.code_lt var
  have := b2n_lt wide
  have := Seg.code_lt .sgd
  have := b2n_lt false
  simp only [rform, xmod]; omega

theorem qbc (h : Hdr) (d : Reg) (a : Reg) (n : Fin 4) (wide : Bool) : Statement (.qbc h d a n wide) := by
  intro e h
  cases h
  have := d.isLt
  have := a.isLt
  have := n.isLt
  have := b2n_lt wide
  have := Seg.code_lt .sgd
  have := b2n_lt false
  simp only [rform, xmod]; omega

theorem vote (h : Hdr) (p : Pred) (pa : PSrc) (var : VoteVar) (seg : Seg) : Statement (.vote h p pa var seg) := by
  intro e h
  cases h
  have := p.isLt
  have := pa.code_lt
  have := VoteVar.code_lt var
  have := Seg.code_lt seg
  have := b2n_lt false
  simp only [rform, xmod]; omega

theorem ballot (h : Hdr) (d : Reg) (pa : PSrc) (seg : Seg) : Statement (.ballot h d pa seg) := by
  intro e h
  cases h
  have := d.isLt
  have := pa.code_lt
  have := Seg.code_lt seg
  have := b2n_lt false
  simp only [rform, xmod]; omega

theorem ballotWord (h : Hdr) (d : Reg) (pa : PSrc) (b : Reg) (seg : Seg) : Statement (.ballotWord h d pa b seg) := by
  intro e h
  cases h
  have := d.isLt
  have := pa.code_lt
  have := b.isLt
  have := Seg.code_lt seg
  have := b2n_lt false
  simp only [rform, xmod]; omega

theorem matchAny (h : Hdr) (d : Reg) (a : Reg) (wide : Bool) (seg : Seg) : Statement (.matchAny h d a wide seg) := by
  intro e h
  cases h
  have := d.isLt
  have := a.isLt
  have := b2n_lt wide
  have := Seg.code_lt seg
  have := b2n_lt false
  simp only [rform, xmod]; omega

theorem matchAll (h : Hdr) (d : Reg) (a : Reg) (p : Pred) (wide : Bool) (seg : Seg) : Statement (.matchAll h d a p wide seg) := by
  intro e h
  cases h
  have := d.isLt
  have := a.isLt
  have := p.isLt
  have := b2n_lt wide
  have := Seg.code_lt seg
  have := b2n_lt false
  simp only [rform, xmod]; omega

theorem elect (h : Hdr) (p : Pred) (seg : Seg) : Statement (.elect h p seg) := by
  intro e h
  cases h
  have := p.isLt
  have := Seg.code_lt seg
  have := b2n_lt false
  simp only [rform, xmod]; omega

theorem ired (h : Hdr) (d : Reg) (a : Reg) (op : RedOp) (ty : ITy) (seg : Seg) : Statement (.ired h d a op ty seg) := by
  intro e h
  cases h
  have := d.isLt
  have := a.isLt
  have := RedOp.code_lt op
  have := ITy.code_lt ty
  have := Seg.code_lt seg
  have := b2n_lt (decide (ty = .n32))
  have := b2n_lt false
  simp only [rform, xmod]; omega

theorem fred (h : Hdr) (d : Reg) (a : Reg) (op : FRedOp) (ftz : Bool) (seg : Seg) : Statement (.fred h d a op ftz seg) := by
  intro e h
  cases h
  have := d.isLt
  have := a.isLt
  have := FRedOp.code_lt op
  have := b2n_lt ftz
  have := Seg.code_lt seg
  have := b2n_lt false
  simp only [rform, xmod]; omega

theorem iscan (h : Hdr) (d : Reg) (a : Reg) (op : RedOp) (ty : ITy) (excl : Bool) (seg : Seg) : Statement (.iscan h d a op ty excl seg) := by
  intro e h
  cases h
  have := d.isLt
  have := a.isLt
  have := RedOp.code_lt op
  have := ITy.code_lt ty
  have := b2n_lt excl
  have := Seg.code_lt seg
  have := b2n_lt (decide (ty = .n32))
  have := b2n_lt false
  simp only [rform, xmod]; omega

theorem fscan (h : Hdr) (d : Reg) (a : Reg) (op : FRedOp) (excl : Bool) (ftz : Bool) (seg : Seg) : Statement (.fscan h d a op excl ftz seg) := by
  intro e h
  cases h
  have := d.isLt
  have := a.isLt
  have := FRedOp.code_lt op
  have := b2n_lt excl
  have := b2n_lt ftz
  have := Seg.code_lt seg
  have := b2n_lt false
  simp only [rform, xmod]; omega

theorem sread (h : Hdr) (d : Reg) (src : SReg) : Statement (.sread h d src) := by
  intro e h
  cases h
  have := d.isLt
  have := SReg.code_lt src
  simp only [rform]; omega

theorem ld (h : Hdr) (d : Reg) (a : Reg) (off : BitVec 16) (sz : Sz) (sp : Space) (acq : Bool) (ca : Cache) : Statement (.ld h d a off sz sp acq ca) := by
  intro e h
  cases h
  have := d.isLt
  have := a.isLt
  have := off.isLt
  have := Sz.code_lt sz
  have := Space.code_lt sp
  have := b2n_lt acq
  have := Cache.code_lt ca
  have := ordFlag_lt acq 1 (by decide)
  simp only [iform]; omega

theorem st (h : Hdr) (d : Reg) (a : Reg) (off : BitVec 16) (sz : Sz) (sp : Space) (rel : Bool) (ca : Cache) : Statement (.st h d a off sz sp rel ca) := by
  intro e h
  cases h
  have := d.isLt
  have := a.isLt
  have := off.isLt
  have := Sz.code_lt sz
  have := Space.code_lt sp
  have := b2n_lt rel
  have := Cache.code_lt ca
  have := ordFlag_lt rel 2 (by decide)
  simp only [iform]; omega

theorem atom (h : Hdr) (d : Reg) (a : Reg) (b : Reg) (c : Reg) (op : AtomOp) (ty : AtomTy) (rnd : Rnd) (sp : Space) (ord : Ord) : Statement (.atom h d a b c op ty rnd sp ord) := by
  intro e h
  cases h
  have := d.isLt
  have := a.isLt
  have := b.isLt
  have := c.isLt
  have := AtomOp.code_lt op
  have := AtomTy.code_lt ty
  have := Rnd.code_lt rnd
  have := Space.code_lt sp
  have := Ord.code_lt ord
  split <;> (simp only [rform, amod]; omega)

theorem red (h : Hdr) (a : Reg) (b : Reg) (op : AtomOp) (ty : AtomTy) (rnd : Rnd) (sp : Space) (ord : Ord) : Statement (.red h a b op ty rnd sp ord) := by
  intro e h
  cases h
  have := a.isLt
  have := b.isLt
  have := AtomOp.code_lt op
  have := AtomTy.code_lt ty
  have := Rnd.code_lt rnd
  have := Space.code_lt sp
  have := Ord.code_lt ord
  simp only [rform, amod]; omega

theorem ldg (h : Hdr) (d : Reg) (a : Reg) (b : Reg) (sco : Scope) (sz : Sz) (iw : IxW) (ixs : Bool) (scl : Scale) (stash : Bool) (ord : Ord) : Statement (.ldg h d a b sco sz iw ixs scl stash ord) := by
  intro e h
  cases h
  have := d.isLt
  have := a.isLt
  have := b.isLt
  have := Scope.code_lt sco
  have := Sz.code_lt sz
  have := IxW.code_lt iw
  have := b2n_lt ixs
  have := Scale.code_lt scl
  have := b2n_lt stash
  have := Ord.code_lt ord
  simp only [rform, gmod]; omega

theorem stg (h : Hdr) (d : Reg) (a : Reg) (b : Reg) (sco : Scope) (sz : Sz) (iw : IxW) (ixs : Bool) (scl : Scale) (stash : Bool) (ord : Ord) : Statement (.stg h d a b sco sz iw ixs scl stash ord) := by
  intro e h
  cases h
  have := d.isLt
  have := a.isLt
  have := b.isLt
  have := Scope.code_lt sco
  have := Sz.code_lt sz
  have := IxW.code_lt iw
  have := b2n_lt ixs
  have := Scale.code_lt scl
  have := b2n_lt stash
  have := Ord.code_lt ord
  simp only [rform, gmod]; omega

theorem ldft (h : Hdr) (d : Reg) (a : Reg) (b : Reg) (t16 : Bool) (cnt : FtCount) : Statement (.ldft h d a b t16 cnt) := by
  intro e h
  cases h
  have := d.isLt
  have := a.isLt
  have := b.isLt
  have := b2n_lt t16
  have := FtCount.code_lt cnt
  simp only [rform]; omega

theorem smap (h : Hdr) (d : Reg) (a : Reg) (b : Reg) (c : Reg) : Statement (.smap h d a b c) := by
  intro e h
  cases h
  have := d.isLt
  have := a.isLt
  have := b.isLt
  have := c.isLt
  simp only [rform]; omega

theorem sunmap (h : Hdr) (d : Reg) (a : Reg) : Statement (.sunmap h d a) := by
  intro e h
  cases h
  have := d.isLt
  have := a.isLt
  simp only [rform]; omega

theorem sflush (h : Hdr) (a : Reg) (b : Reg) (all : Bool) : Statement (.sflush h a b all) := by
  intro e h
  cases h
  have := a.isLt
  have := b.isLt
  have := b2n_lt all
  simp only [rform]; omega

theorem sdrop (h : Hdr) (a : Reg) (b : Reg) (all : Bool) : Statement (.sdrop h a b all) := by
  intro e h
  cases h
  have := a.isLt
  have := b.isLt
  have := b2n_lt all
  simp only [rform]; omega

theorem pfd (h : Hdr) (a : Reg) (off : BitVec 16) (var : PfVar) : Statement (.pfd h a off var) := by
  intro e h
  cases h
  have := a.isLt
  have := off.isLt
  have := PfVar.code_lt var
  simp only [iform]; omega

theorem waitc (h : Hdr) (a : Reg) (path : Path) : Statement (.waitc h a path) := by
  intro e h
  cases h
  have := a.isLt
  have := Path.code_lt path
  simp only [rform]; omega

theorem cntq (h : Hdr) (d : Reg) (path : Path) : Statement (.cntq h d path) := by
  intro e h
  cases h
  have := d.isLt
  have := Path.code_lt path
  simp only [rform]; omega

theorem fence (h : Hdr) (sco : Scope) : Statement (.fence h sco) := by
  intro e h
  cases h
  have := Scope.code_lt sco
  simp only [rform]; omega

theorem fenceSys (h : Hdr) : Statement (.fenceSys h) := by
  intro e h
  cases h
  simp only [rform]; omega

theorem bar (h : Hdr) (b : BarRef) (l : Lbl) : Statement (.bar h b l) := by
  intro e h
  cases h
  have := b.code_lt
  have := l.isLt
  simp only [iform]; omega

theorem barr (h : Hdr) (d : Reg) (b : BarRef) : Statement (.barr h d b) := by
  intro e h
  cases h
  have := d.isLt
  have := b.code_lt
  simp only [iform]; omega

theorem barw (h : Hdr) (a : Reg) (b : BarRef) (l : Lbl) : Statement (.barw h a b l) := by
  intro e h
  cases h
  have := a.isLt
  have := b.code_lt
  have := l.isLt
  simp only [iform]; omega

theorem barinit (h : Hdr) (a : Reg) (b : BarRef) : Statement (.barinit h a b) := by
  intro e h
  cases h
  have := a.isLt
  have := b.code_lt
  simp only [iform]; omega

theorem cpy (h : Hdr) (d : Reg) (a : Reg) (len : LenOp) (o : CpyOps) : Statement (.cpy h d a len o) := by
  intro e h
  cases len with
  | imm k =>
    cases h
    have := d.isLt
    have := a.isLt
    have := Space.code_lt o.dsp
    have := Space.code_lt o.ssp
    have := Ord.code_lt o.ord
    have := Scope.code_lt o.sco
    have := barCode_lt o.bar
    have := Cache.code_lt o.ca
    have := k.isLt
    have := b2n_lt false
    simp only [lform, cpyExt]; omega
  | reg r =>
    cases h
    have := d.isLt
    have := a.isLt
    have := Space.code_lt o.dsp
    have := Space.code_lt o.ssp
    have := Ord.code_lt o.ord
    have := Scope.code_lt o.sco
    have := barCode_lt o.bar
    have := Cache.code_lt o.ca
    have := r.isLt
    have := b2n_lt true
    simp only [lform, cpyExt]; omega

theorem cpyg (h : Hdr) (d : Reg) (a : Reg) (rowb : BitVec 32) (ix : Bool) (o : CpyOps) : Statement (.cpyg h d a rowb ix o) := by
  intro e h
  cases h
  have := d.isLt
  have := a.isLt
  have := rowb.isLt
  have := b2n_lt ix
  have := Space.code_lt o.dsp
  have := Space.code_lt o.ssp
  have := Ord.code_lt o.ord
  have := Scope.code_lt o.sco
  have := barCode_lt o.bar
  have := Cache.code_lt o.ca
  simp only [lform, cpyExt]; omega

theorem plset (h : Hdr) (a : Reg) (sel : Fin 4096) : Statement (.plset h a sel) := by
  intro e h
  cases h
  have := a.isLt
  have := sel.isLt
  simp only [iform]; omega

theorem plcan (h : Hdr) : Statement (.plcan h) := by
  intro e h
  cases h
  simp only [iform]; omega

theorem plrep (h : Hdr) (d : Reg) : Statement (.plrep h d) := by
  intro e h
  cases h
  have := d.isLt
  simp only [iform]; omega

theorem launch (h : Hdr) (d : Reg) (a : Reg) : Statement (.launch h d a) := by
  intro e h
  cases h
  have := d.isLt
  have := a.isLt
  simp only [rform]; omega

theorem mma (h : Hdr) (tag : Fin 16) (a : Reg) (o : MmaOps) : Statement (.mma h tag a o) := by
  intro e h
  cases h
  have := tag.isLt
  have := a.isLt
  have := o.b.isLt
  have := o.sa.isLt
  have := o.sb.isLt
  have := MTy.code_lt o.ta
  have := MTy.code_lt o.tb
  have := b2n_lt o.aMem
  have := b2n_lt o.bMem
  have := b2n_lt o.sca
  have := b2n_lt o.scb
  have := b2n_lt o.sel
  have := b2n_lt o.stash
  have := b2n_lt o.acq
  have := o.ka.isLt
  have := o.kb.isLt
  have := Cen.code_lt o.cen
  have := Scope.code_lt o.sco
  have := Cache.code_lt o.ca
  simp only [lform, MmaOps.imm, MmaOps.ext]; omega

theorem mmap (h : Hdr) (tag : Fin 16) (a : Reg) (o : MmaOps) : Statement (.mmap h tag a o) := by
  intro e h
  cases h
  have := tag.isLt
  have := a.isLt
  have := o.b.isLt
  have := o.sa.isLt
  have := o.sb.isLt
  have := MTy.code_lt o.ta
  have := MTy.code_lt o.tb
  have := b2n_lt o.aMem
  have := b2n_lt o.bMem
  have := b2n_lt o.sca
  have := b2n_lt o.scb
  have := b2n_lt o.sel
  have := b2n_lt o.stash
  have := b2n_lt o.acq
  have := o.ka.isLt
  have := o.kb.isLt
  have := Cen.code_lt o.cen
  have := Scope.code_lt o.sco
  have := Cache.code_lt o.ca
  simp only [lform, MmaOps.imm, MmaOps.ext]; omega

theorem had (h : Hdr) (d : Reg) (a : Reg) (n : HadN) (g : HadN) (norm : Bool) : Statement (.had h d a n g norm) := by
  intro e h
  cases h
  have := d.isLt
  have := a.isLt
  have := HadN.code_lt n
  have := HadN.code_lt g
  have := b2n_lt norm
  simp only [lform]; omega

theorem acz (h : Hdr) (tag : Fin 16) (pair : Bool) : Statement (.acz h tag pair) := by
  intro e h
  cases h
  have := tag.isLt
  have := b2n_lt pair
  simp only [lform]; omega

theorem acrel (h : Hdr) (tag : Fin 16) : Statement (.acrel h tag) := by
  intro e h
  cases h
  have := tag.isLt
  simp only [lform]; omega

theorem acrelAll (h : Hdr) : Statement (.acrelAll h) := by
  intro e h
  cases h
  simp only [lform]; omega

theorem acld (h : Hdr) (tag : Fin 16) (a : Reg) (f : AcForm) (pair : Bool) : Statement (.acld h tag a f pair) := by
  intro e h
  cases f with
  | mem pr sp ordered sco ca =>
    cases h
    have := tag.isLt
    have := a.isLt
    have := b2n_lt pair
    have := pr.isLt
    have := Space.code_lt sp
    have := ordFlag_lt ordered 1 (by decide)
    have := Scope.code_lt sco
    have := Cache.code_lt ca
    simp only [AcForm.enc, lform]; omega
  | reg =>
    cases h
    have := tag.isLt
    have := a.isLt
    simp only [AcForm.enc, lform]; omega

theorem acst (h : Hdr) (tag : Fin 16) (a : Reg) (f : AcForm) : Statement (.acst h tag a f) := by
  intro e h
  cases f with
  | mem pr sp ordered sco ca =>
    cases h
    have := tag.isLt
    have := a.isLt
    have := pr.isLt
    have := Space.code_lt sp
    have := ordFlag_lt ordered 2 (by decide)
    have := Scope.code_lt sco
    have := Cache.code_lt ca
    have := b2n_lt false
    simp only [AcForm.enc, lform]; omega
  | reg =>
    cases h
    have := tag.isLt
    have := a.isLt
    simp only [AcForm.enc, lform]; omega

theorem acstat (h : Hdr) (d : Reg) (tag : Fin 16) (clr : Bool) : Statement (.acstat h d tag clr) := by
  intro e h
  cases h
  have := d.isLt
  have := tag.isLt
  have := b2n_lt clr
  simp only [lform]; omega

theorem trav (h : Hdr) (d : Reg) (a : Reg) (o : TravOps) : Statement (.trav h d a o) := by
  intro e h
  cases h
  have := d.isLt
  have := a.isLt
  have := o.ent.isLt
  have := o.lea.isLt
  have := o.vr.isLt
  have := o.prn.isLt
  have := o.don.isLt
  have := b2n_lt o.acq
  have := b2n_lt o.stash
  have := Scope.code_lt o.sco
  have := Cache.code_lt o.ca
  simp only [lform, TravOps.imm, TravOps.ext]; omega

theorem tretDesc (h : Hdr) (a : Reg) (rev : Bool) (acq : Bool) (sco : Scope) : Statement (.tretDesc h a rev acq sco) := by
  intro e h
  cases h
  have := a.isLt
  have := b2n_lt rev
  have := b2n_lt acq
  have := Scope.code_lt sco
  simp only [lform, tretExt]; omega

theorem tretSkip (h : Hdr) (acq : Bool) (sco : Scope) : Statement (.tretSkip h acq sco) := by
  intro e h
  cases h
  have := b2n_lt acq
  have := Scope.code_lt sco
  have := b2n_lt false
  simp only [lform, tretExt]; omega

theorem tretCont (h : Hdr) (acq : Bool) (sco : Scope) : Statement (.tretCont h acq sco) := by
  intro e h
  cases h
  have := b2n_lt acq
  have := Scope.code_lt sco
  have := b2n_lt false
  simp only [lform, tretExt]; omega

theorem tretStop (h : Hdr) (acq : Bool) (sco : Scope) : Statement (.tretStop h acq sco) := by
  intro e h
  cases h
  have := b2n_lt acq
  have := Scope.code_lt sco
  have := b2n_lt false
  simp only [lform, tretExt]; omega

theorem tcut (h : Hdr) (d : Reg) (a : Reg) (o : TcutOps) : Statement (.tcut h d a o) := by
  intro e h
  cases h
  have := d.isLt
  have := a.isLt
  have := b2n_lt o.stash
  have := ordFlag_lt o.rel 2 (by decide)
  have := Scope.code_lt o.sco
  have := barCode_lt o.bar
  have := Cache.code_lt o.ca
  simp only [lform, TcutOps.ext]; omega

theorem tres (h : Hdr) (d : Reg) (a : Reg) (o : TravOps) : Statement (.tres h d a o) := by
  intro e h
  cases h
  have := d.isLt
  have := a.isLt
  have := o.ent.isLt
  have := o.lea.isLt
  have := o.vr.isLt
  have := o.prn.isLt
  have := o.don.isLt
  have := b2n_lt o.acq
  have := b2n_lt o.stash
  have := Scope.code_lt o.sco
  have := Cache.code_lt o.ca
  simp only [lform, TravOps.imm, TravOps.ext]; omega

theorem tstat (h : Hdr) (d : Reg) (a : Reg) : Statement (.tstat h d a) := by
  intro e h
  cases h
  have := d.isLt
  have := a.isLt
  simp only [lform]; omega

theorem gpost (h : Hdr) (d : Reg) (a : Reg) (qr : Reg) (ord : Ord) (sco : Scope) : Statement (.gpost h d a qr ord sco) := by
  intro e h
  cases h
  have := d.isLt
  have := a.isLt
  have := qr.isLt
  have := Ord.code_lt ord
  have := Scope.code_lt sco
  simp only [lform]; omega

theorem gpoll (h : Hdr) (d : Reg) (qr : Reg) : Statement (.gpoll h d qr) := by
  intro e h
  cases h
  have := d.isLt
  have := qr.isLt
  simp only [lform]; omega

theorem sys (h : Hdr) (d : Reg) (code : BitVec 16) : Statement (.sys h d code) := by
  intro e h
  cases h
  have := d.isLt
  have := code.isLt
  simp only [lform]; omega

theorem eretAgain (h : Hdr) (d : Reg) (a : Reg) (b : Reg) : Statement (.eretAgain h d a b) := by
  intro e h
  cases h
  have := d.isLt
  have := a.isLt
  have := b.isLt
  simp only [lform]; omega

theorem eretNext (h : Hdr) (d : Reg) (a : Reg) (b : Reg) : Statement (.eretNext h d a b) := by
  intro e h
  cases h
  have := d.isLt
  have := a.isLt
  have := b.isLt
  simp only [lform]; omega

theorem eretZero (h : Hdr) (d : Reg) (a : Reg) (b : Reg) : Statement (.eretZero h d a b) := by
  intro e h
  cases h
  have := d.isLt
  have := a.isLt
  have := b.isLt
  simp only [lform]; omega

theorem eretKill (h : Hdr) (d : Reg) (a : Reg) (b : Reg) : Statement (.eretKill h d a b) := by
  intro e h
  cases h
  have := d.isLt
  have := a.isLt
  have := b.isLt
  simp only [lform]; omega

theorem csrr (h : Hdr) (d : Reg) (csr : Fin 4096) (vf : Fin 64) : Statement (.csrr h d csr vf) := by
  intro e h
  cases h
  have := d.isLt
  have := csr.isLt
  have := vf.isLt
  simp only [lform]; omega

theorem csrw (h : Hdr) (a : Reg) (csr : Fin 4096) (vf : Fin 64) : Statement (.csrw h a csr vf) := by
  intro e h
  cases h
  have := a.isLt
  have := csr.isLt
  have := vf.isLt
  simp only [lform]; omega

theorem tinvVa (h : Hdr) (o : TinvOps) : Statement (.tinvVa h o) := by
  intro e h
  cases h
  have := o.a.isLt
  have := o.sp.isLt
  have := o.n.isLt
  have := o.vf.isLt
  simp only [lform, TinvOps.imm]; omega

theorem tinvSp (h : Hdr) (o : TinvOps) : Statement (.tinvSp h o) := by
  intro e h
  cases h
  have := o.a.isLt
  have := o.sp.isLt
  have := o.n.isLt
  have := o.vf.isLt
  simp only [lform, TinvOps.imm]; omega

theorem tinvFn (h : Hdr) (o : TinvOps) : Statement (.tinvFn h o) := by
  intro e h
  cases h
  have := o.a.isLt
  have := o.sp.isLt
  have := o.n.isLt
  have := o.vf.isLt
  simp only [lform, TinvOps.imm]; omega

theorem tinvIpa (h : Hdr) (o : TinvOps) : Statement (.tinvIpa h o) := by
  intro e h
  cases h
  have := o.a.isLt
  have := o.sp.isLt
  have := o.n.isLt
  have := o.vf.isLt
  simp only [lform, TinvOps.imm]; omega

theorem tmark (h : Hdr) (a : Reg) (code : BitVec 16) : Statement (.tmark h a code) := by
  intro e h
  cases h
  have := a.isLt
  have := code.isLt
  simp only [lform]; omega

theorem instructionFetchFill (id : Nat) : Statement (.instructionFetchFill id) := by
  intro e h; cases h

theorem deferredResultArrival (id : Nat) : Statement (.deferredResultArrival id) := by
  intro e h; cases h

theorem pathArrival (id : Nat) : Statement (.pathArrival id) := by
  intro e h; cases h

theorem teamRetire (part : Nat) : Statement (.teamRetire part) := by
  intro e h; cases h

theorem tableWalk (id : Nat) : Statement (.tableWalk id) := by
  intro e h; cases h

theorem faultRecord (id : Nat) : Statement (.faultRecord id) := by
  intro e h; cases h

theorem fres (hyp : Bool) (vf : Nat) (token : Nat) (abort : Bool) : Statement (.fres hyp vf token abort) := by
  intro e h; cases h

theorem stashFill (block : Nat) (va : Nat) : Statement (.stashFill block va) := by
  intro e h; cases h

theorem recallSector (pa : Nat) : Statement (.recallSector pa) := by
  intro e h; cases h

theorem clockAdvance (core : Nat) : Statement (.clockAdvance core) := by
  intro e h; cases h

theorem clockRaise (core : Nat) : Statement (.clockRaise core) := by
  intro e h; cases h

theorem replicatedCommitLock (id : Nat) : Statement (.replicatedCommitLock id) := by
  intro e h; cases h

theorem replicatedCommitUpdate (id : Nat) : Statement (.replicatedCommitUpdate id) := by
  intro e h; cases h

theorem commitBoundMissed (id : Nat) (link : Nat) : Statement (.commitBoundMissed id link) := by
  intro e h; cases h

theorem ladleComplete (id : Nat) : Statement (.ladleComplete id) := by
  intro e h; cases h

theorem barrierArrivalStep (die : Nat) (k : Nat) : Statement (.barrierArrivalStep die k) := by
  intro e h; cases h

theorem tundishGrant (flask : Nat) : Statement (.tundishGrant flask) := by
  intro e h; cases h

theorem passRetire (id : Nat) : Statement (.passRetire id) := by
  intro e h; cases h

theorem runnerRelease (part : Nat) (lane : Nat) : Statement (.runnerRelease part lane) := by
  intro e h; cases h

theorem tcutComplete (id : Nat) : Statement (.tcutComplete id) := by
  intro e h; cases h

theorem guestPacketDeliver (q : Nat) : Statement (.guestPacketDeliver q) := by
  intro e h; cases h

theorem guestCompletionReport (q : Nat) (seq : Nat) (status : Nat) : Statement (.guestCompletionReport q seq status) := by
  intro e h; cases h

theorem guestTranslationRequest (q : Nat) (vf : Nat) (spid : Nat) (va : Nat) (write : Bool) : Statement (.guestTranslationRequest q vf spid va write) := by
  intro e h; cases h

theorem guestAccess (q : Nat) (pa : Nat) (len : Nat) (write : Bool) (data : Nat) : Statement (.guestAccess q pa len write data) := by
  intro e h; cases h

theorem guestInvalidationAck (id : Nat) : Statement (.guestInvalidationAck id) := by
  intro e h; cases h

theorem guestLeaseSnoop (pa : Nat) : Statement (.guestLeaseSnoop pa) := by
  intro e h; cases h

theorem guestQuiesceAnswer (q : Nat) (seq : Nat) (returned : Bool) : Statement (.guestQuiesceAnswer q seq returned) := by
  intro e h; cases h

theorem guestBreach (code : Nat) : Statement (.guestBreach code) := by
  intro e h; cases h

theorem trapRecord (id : Nat) : Statement (.trapRecord id) := by
  intro e h; cases h

theorem stallDetectorTest (core : Nat) : Statement (.stallDetectorTest core) := by
  intro e h; cases h

theorem watchdog (launch : Nat) : Statement (.watchdog launch) := by
  intro e h; cases h

theorem qnotify (vf : Nat) (q : Nat) (tail : Nat) : Statement (.qnotify vf q tail) := by
  intro e h; cases h

theorem submissionStart (vf : Nat) (q : Nat) : Statement (.submissionStart vf q) := by
  intro e h; cases h

theorem dependenceEntry (graph : Nat) (node : Nat) : Statement (.dependenceEntry graph node) := by
  intro e h; cases h

theorem nodeStartKernel (graph : Nat) (node : Nat) : Statement (.nodeStartKernel graph node) := by
  intro e h; cases h

theorem nodeStartCopy (graph : Nat) (node : Nat) : Statement (.nodeStartCopy graph node) := by
  intro e h; cases h

theorem nodeConditional (graph : Nat) (node : Nat) : Statement (.nodeConditional graph node) := by
  intro e h; cases h

theorem nodeWhile (graph : Nat) (node : Nat) : Statement (.nodeWhile graph node) := by
  intro e h; cases h

theorem nodeJoin (graph : Nat) (node : Nat) : Statement (.nodeJoin graph node) := by
  intro e h; cases h

theorem nodeHostSignal (graph : Nat) (node : Nat) : Statement (.nodeHostSignal graph node) := by
  intro e h; cases h

theorem nodeGuest (graph : Nat) (node : Nat) : Statement (.nodeGuest graph node) := by
  intro e h; cases h

theorem nodeFinish (graph : Nat) (node : Nat) : Statement (.nodeFinish graph node) := by
  intro e h; cases h

theorem imageRead (launch : Nat) : Statement (.imageRead launch) := by
  intro e h; cases h

theorem prologueBudgetExceeded (part : Nat) : Statement (.prologueBudgetExceeded part) := by
  intro e h; cases h

theorem clusterPlace (die : Nat) : Statement (.clusterPlace die) := by
  intro e h; cases h

theorem preempt (cluster : Nat) : Statement (.preempt cluster) := by
  intro e h; cases h

theorem clusterRestore (cluster : Nat) : Statement (.clusterRestore cluster) := by
  intro e h; cases h

theorem inboundHostAccess (vf : Nat) (addr : Nat) (len : Nat) (write : Bool) (data : Nat) : Statement (.inboundHostAccess vf addr len write data) := by
  intro e h; cases h

theorem initiateFunctionLevelReset (vf : Nat) : Statement (.initiateFunctionLevelReset vf) := by
  intro e h; cases h

theorem flr (vf : Nat) : Statement (.flr vf) := by
  intro e h; cases h

theorem vfctlEn (vf : Nat) (value : Nat) : Statement (.vfctlEn vf value) := by
  intro e h; cases h

theorem gsctlRst (value : Nat) : Statement (.gsctlRst value) := by
  intro e h; cases h

theorem evsel (n : Nat) (value : Nat) : Statement (.evsel n value) := by
  intro e h; cases h

theorem trctl (die : Nat) (value : Nat) : Statement (.trctl die value) := by
  intro e h; cases h

theorem stopat (value : Nat) : Statement (.stopat value) := by
  intro e h; cases h

theorem stop : Statement (.stop) := by
  intro e h; cases h

theorem goWrite (value : Nat) : Statement (.goWrite value) := by
  intro e h; cases h

theorem thermalTrip : Statement (.thermalTrip) := by
  intro e h; cases h

theorem linkLost (link : Nat) : Statement (.linkLost link) := by
  intro e h; cases h

theorem recastLogFull : Statement (.recastLogFull) := by
  intro e h; cases h

theorem recastLogEnd : Statement (.recastLogEnd) := by
  intro e h; cases h

theorem deviceReset : Statement (.deviceReset) := by
  intro e h; cases h

theorem layerStart (die : Nat) (layer : Nat) : Statement (.layerStart die layer) := by
  intro e h; cases h

theorem getVersion : Statement (.getVersion) := by
  intro e h; cases h

theorem getCapabilities : Statement (.getCapabilities) := by
  intro e h; cases h

theorem negotiateAlgorithms : Statement (.negotiateAlgorithms) := by
  intro e h; cases h

theorem getDigests : Statement (.getDigests) := by
  intro e h; cases h

theorem getCertificate (ask : CertAsk) (length : Nat) : Statement (.getCertificate ask length) := by
  intro e h; cases h

theorem challenge (ask : ChallengeAsk) : Statement (.challenge ask) := by
  intro e h; cases h

theorem getMeasurements (index : Nat) (nonce : Nat) : Statement (.getMeasurements index nonce) := by
  intro e h; cases h

theorem spdmUnsupportedRequest (code : Nat) : Statement (.spdmUnsupportedRequest code) := by
  intro e h; cases h

theorem registerWrite (vf : Nat) (addr : Nat) (value : Nat) : Statement (.registerWrite vf addr value) := by
  intro e h; cases h

theorem linkTrained (link : Nat) : Statement (.linkTrained link) := by
  intro e h; cases h

theorem replayRetriesExhausted (link : Nat) : Statement (.replayRetriesExhausted link) := by
  intro e h; cases h

theorem guestSnoopOrRecallAnswer (pa : Nat) (data : Nat) : Statement (.guestSnoopOrRecallAnswer pa data) := by
  intro e h; cases h

theorem msiXVectorUnmask (vf : Nat) (vector : Nat) : Statement (.msiXVectorUnmask vf vector) := by
  intro e h; cases h

end Sys2Proof.Laws.Fields
end

