-- ==== Sys2Proof/Laws/Traps.lean ====
section
/-! SUPPORT. Taking a trap and returning from one: the token that a trap gets, everything that `takeTrap` does to a
part below level H, and what each action of `eret` leaves. -/

namespace Sys2Proof.Machine

/-! ## Tokens -/

/-- Among one more candidate than there are tokens outstanding, one is not outstanding. -/
theorem exists_free (used : List Nat) (start : Nat) (h : used.length < 65535) :
    ∃ k ∈ (List.range (used.length + 1)).map (fun i => (start + i + 65534) % 65535 + 1), k ∉ used := by
  by_contra hc
  push Not at hc
  set c := (List.range (used.length + 1)).map fun i => (start + i + 65534) % 65535 + 1 with hcdef
  have hnd : c.Nodup := by
    rw [hcdef]
    refine List.Nodup.map_on ?_ List.nodup_range
    intro i hi j hj hij
    simp only [List.mem_range] at hi hj
    omega
  have hle := (List.Nodup.subperm hnd hc).length_le
  simp [hcdef] at hle

/-- The token that a new report or trap gets (R50, R330): it is not outstanding at the ring, and fits its field. -/
theorem takeToken_free (s : State) (ring : Nat) (h : (s.tokens ring).length < 65535) :
    (s.takeToken ring).1 ∉ s.tokens ring ∧ 1 ≤ (s.takeToken ring).1 ∧ (s.takeToken ring).1 < 2 ^ 16 := by
  obtain ⟨k, hk, hn⟩ := exists_free (s.tokens ring) (s.fn ring).nextToken h
  unfold State.takeToken
  simp only
  generalize hc : (List.map (fun i => ((s.fn ring).nextToken + i + 65534) % 65535 + 1)
    (List.range ((s.tokens ring).length + 1))) = c at *
  have hsome : (c.find? fun k => !(s.tokens ring).contains k).isSome := by
    rw [List.find?_isSome]; exact ⟨k, hk, by simpa using hn⟩
  obtain ⟨x, hx⟩ := Option.isSome_iff_exists.mp hsome
  have hm := List.mem_of_find?_eq_some hx
  have hp := List.find?_some hx
  rw [hx, Option.getD_some]
  refine ⟨by simpa using hp, ?_, ?_⟩
  · subst hc; simp only [List.mem_map] at hm; omega
  · subst hc
    simp only [List.mem_map] at hm
    obtain ⟨i, -, rfl⟩ := hm
    have := Nat.mod_lt ((s.fn ring).nextToken + i + 65534) (show 0 < 65535 by decide)
    omega

/-- The first fields of a trap record (R330). -/
theorem trapRecord_fields (s : State) (p token cls : Nat) (frz : Bool) (off info : Nat) (wm : Nat × Nat)
    (ht : token < 2 ^ 16) (hc : cls < 2 ^ 5) :
    bits (s.trapRecord p token cls frz off info wm) 0 16 = token
      ∧ bits (s.trapRecord p token cls frz off info wm) 16 5 = cls := by
  unfold State.trapRecord bits
  simp only
  constructor <;> omega

/-! ## Taking a trap -/

/-- `takeTrap` below level H, for a class that suspends: the part is suspended with the class and a free token, and
its record waits for the ring; nothing else changes. -/
theorem takeTrap_trapped (s : State) (p : Nat) (x : Trap) (hl : (s.launch (s.launchOf (teamOf p))).level ≠ .h)
    (ht : (s.tokens (s.trapRing (teamOf p))).length < 65535) (hc : x.cls < 2 ^ 5) (h14 : x.cls ≠ 14) :
    Trapped s (s.takeTrap p x) p x.cls := by
  have tok := takeToken_free s (s.trapRing (teamOf p)) ht
  have eff : ∃ y, (s.takeToken (s.trapRing (teamOf p))).2 = s.modFn (s.trapRing (teamOf p)) fun z =>
      { z with nextToken := y } := ⟨_, rfl⟩
  generalize hr : s.takeToken (s.trapRing (teamOf p)) = r at *
  obtain ⟨k, s1⟩ := r
  obtain ⟨y, hy⟩ := eff
  simp only at tok hy
  subst hy
  unfold Trapped State.takeTrap
  simp only [if_neg hl, hr, if_neg h14, State.takeId, State.modPart, State.setPart, State.modFn, State.setFn]
  refine ⟨{ cls := x.cls, token := k, frz := frozenClass x.cls || (s.launch (s.launchOf (teamOf p))).prologue,
            next := x.next, poison := x.poison, dest := x.dest, lanes := x.lanes }, _, ?_, ?_, rfl,
    tok.1, tok.2.1, tok.2.2, rfl, rfl, rfl, ?_, ?_, trivial, trivial, trivial, trivial, ?_⟩
  · simp only [State.part, FMap.get_set_self]
  · simp only [State.part, FMap.get_set_self]; rfl
  · exact (trapRecord_fields _ _ _ _ _ _ _ _ tok.2.2 hc).1
  · exact (trapRecord_fields _ _ _ _ _ _ _ _ tok.2.2 hc).2
  · intro q hq
    simp only [State.part, FMap.get_set, hq, if_false]

end Sys2Proof.Machine
end

