-- ==== Sys2Proof/Laws/Writes.lean ====
section
/-! SUPPORT. The fixed writes of a register by the lanes of an instruction: what each word holds afterwards,
and that the reads of one lane do not depend on what another lane has written. -/

namespace Sys2Proof.Machine

/-! ## Register keys -/

theorem regKey_inj {t l l' r r' : Nat} (hr : r < 256) (hr' : r' < 256) (h : regKey t l r = regKey t l' r') :
    l = l' ∧ r = r' := by
  unfold regKey at h; omega

/-! ## One write -/

theorem wr_get (s : State) (t l r v k : Nat) :
    (s.wr t l r v).regs.get 0 k = if k = regKey t l r then BitVec.ofNat 32 v else s.regs.get 0 k := by
  simp [State.wr, State.cover, State.putReg, FMap.get_set]

theorem orFlags_get (s : State) (t l f k : Nat) (hf : f < 2 ^ 32) :
    (s.orFlags t l f).regs.get 0 k
      = if k = regKey t l 255 then s.regs.get 0 k ||| BitVec.ofNat 32 f else s.regs.get 0 k := by
  unfold State.orFlags State.orReg
  split
  · rename_i h; subst h; simp
  · simp only [State.cover, State.putReg, FMap.get_set]
    split
    · rename_i h; subst h
      apply BitVec.eq_of_toNat_eq
      simp only [State.reg, BitVec.toNat_ofNat, BitVec.toNat_or]
      rw [Nat.mod_eq_of_lt hf, Nat.mod_eq_of_lt (Nat.or_lt_two_pow (BitVec.isLt _) hf)]
    · rfl

theorem raiseFlags_get (s : State) (t l f k : Nat) (hf : f < 2 ^ 32) :
    (s.raiseFlags t l f).regs.get 0 k
      = if k = regKey t l 255 then s.regs.get 0 k ||| BitVec.ofNat 32 f else s.regs.get 0 k := by
  unfold State.raiseFlags
  split
  · rename_i h; subst h; simp
  · split
    · exact orFlags_get s t l f k hf
    · exact orFlags_get s t l f k hf

/-! ## Reads of another lane -/

/-- Two states in which every source read of a lane finds the same. -/
def SameReads (t l : Nat) (s s' : State) : Prop :=
  ∀ slot r, r < 256 → s'.rd slot t l r = s.rd slot t l r

theorem SameReads.trans {t l : Nat} {a b c : State} (h : SameReads t l a b) (k : SameReads t l b c) :
    SameReads t l a c := fun slot r hr => (k slot r hr).trans (h slot r hr)

/-- A read depends on the registers, the deferred results, the snapshot and the free values only. -/
theorem rd_congr {s s' : State} (hr : s'.regs = s.regs) (hd : s'.defs = s.defs) (hf : s'.fresh = s.fresh)
    (hp : s'.issue.pre = s.issue.pre) (slot t l r : Nat) : s'.rd slot t l r = s.rd slot t l r := by
  unfold State.rd State.srcFresh State.srcRegs State.srcDefs; rw [hr, hd, hf, hp]

theorem orFlags_issue (s : State) (t l f : Nat) : (s.orFlags t l f).issue = s.issue := by
  unfold State.orFlags State.orReg; split <;> rfl

theorem orFlags_fresh (s : State) (t l f : Nat) : (s.orFlags t l f).fresh = s.fresh := by
  unfold State.orFlags State.orReg; split <;> rfl

/-- Covering a register of one lane does not change what another lane reads. -/
theorem readThrough_cover (fresh t l l' r slot old reg m : Nat) (ds : List Deferred) (h : l ≠ l') :
    readThrough fresh (ds.map fun d : Deferred =>
      if d.team = t && d.lane = l' && d.reg = reg then
        { d with mask := d.mask &&& (0xFFFFFFFF - m) } else d) t l r slot old
      = readThrough fresh ds t l r slot old := by
  unfold readThrough
  induction ds generalizing old with
  | nil => rfl
  | cons d ds ih =>
    rw [List.map_cons, List.foldl_cons, List.foldl_cons, ih]
    congr 1
    by_cases hd : (d.team = t && d.lane = l' && d.reg = reg) = true
    · have hl : d.lane = l' := by simp at hd; exact hd.1.2
      have hn : ¬ l' = l := fun e => h e.symm
      rw [if_pos hd]
      simp [hl, hn]
    · rw [if_neg hd]

theorem sameReads_wr (s : State) (t l l' r v : Nat) (hl : l ≠ l') (hr : r < 256) :
    SameReads t l s (s.wr t l' r v) := by
  intro slot q hq
  unfold State.rd State.srcFresh State.srcRegs State.srcDefs
  have hi : (s.wr t l' r v).issue = s.issue := rfl
  rw [hi, State.wr_fresh]
  cases s.issue.pre with
  | some x => rfl
  | none =>
    dsimp only
    rw [wr_get, if_neg fun e => hl (regKey_inj hq hr e).1]
    exact congrArg (· % 2 ^ 32) (readThrough_cover _ t l l' q slot _ r _ _ hl)

theorem sameReads_raiseFlags (s : State) (t l l' f : Nat) (hl : l ≠ l') (hf : f < 2 ^ 32) :
    SameReads t l s (s.raiseFlags t l' f) := by
  intro slot q hq
  have key : ∀ s : State, (s.orFlags t l' f).rd slot t l q = s.rd slot t l q := by
    intro s
    unfold State.rd State.srcFresh State.srcRegs State.srcDefs
    rw [orFlags_issue, orFlags_fresh]
    cases s.issue.pre with
    | some x => rfl
    | none =>
      dsimp only
      rw [orFlags_get s t l' f _ hf, if_neg fun e => hl (regKey_inj hq (by omega) e).1]
      unfold State.orFlags State.orReg
      split
      · rfl
      · exact congrArg (· % 2 ^ 32) (readThrough_cover _ t l l' q slot _ 255 _ _ hl)
  unfold State.raiseFlags
  split
  · rfl
  · split
    · exact (rd_congr (s := s.orFlags t l' f)
        (s' := { s.orFlags t l' f with issue := { s.issue with raised := s.issue.raised ++ [(laneId t l', f)] } })
        rfl rfl rfl (by rw [orFlags_issue]) slot t l q).trans (key s)
    · exact key s

/-! ## The snapshot of a pair -/

theorem rd_snapshot {s s' : State} {x : Snap} (h : s.issue.pre = some x) (h' : s'.issue.pre = some x)
    (slot t l r : Nat) : s'.rd slot t l r = s.rd slot t l r := by
  unfold State.rd State.srcFresh State.srcRegs State.srcDefs; rw [h, h']

theorem raiseFlags_pre (s : State) (t l f : Nat) : (s.raiseFlags t l f).issue.pre = s.issue.pre := by
  unfold State.raiseFlags
  split
  · rfl
  · split
    · rfl
    · rw [orFlags_issue]

theorem raiseFlags_fresh (s : State) (t l f : Nat) : (s.raiseFlags t l f).fresh = s.fresh := by
  unfold State.raiseFlags
  split
  · rfl
  · split
    · exact orFlags_fresh s t l f
    · exact orFlags_fresh s t l f

/-! ## The writes of one lane -/

/-- Fixed writes of several registers of a lane, in order. -/
def wrs (s : State) (t l : Nat) (xs : List (Nat × Nat)) : State := xs.foldl (fun s x => s.wr t l x.1 x.2) s

theorem wrs_pre (s : State) (t l : Nat) (xs : List (Nat × Nat)) : (wrs s t l xs).issue = s.issue := by
  unfold wrs; induction xs generalizing s with
  | nil => rfl
  | cons x xs ih => rw [List.foldl_cons, ih]; rfl

theorem wrs_fresh (s : State) (t l : Nat) (xs : List (Nat × Nat)) : (wrs s t l xs).fresh = s.fresh := by
  unfold wrs; induction xs generalizing s with
  | nil => rfl
  | cons x xs ih => rw [List.foldl_cons, ih]; rfl

theorem lanesOnly_wrs (p t l : Nat) (xs : List (Nat × Nat)) (s : State) : LanesOnly p s (wrs s t l xs) :=
  LanesOnly.foldl (fun s x => s.wr t l x.1 x.2) (fun s x => lanesOnly_wr p t l x.1 x.2 s) xs s

/-- The value that a list of writes gives a register last. -/
def lastOf (xs : List (Nat × Nat)) (r : Nat) : Option Nat :=
  xs.foldl (fun o x => if x.1 = r then some x.2 else o) none

theorem lastOf_step (xs : List (Nat × Nat)) (r : Nat) (o : Option Nat) :
    xs.foldl (fun o x => if x.1 = r then some x.2 else o) o = (lastOf xs r).or o := by
  unfold lastOf
  induction xs generalizing o with
  | nil => rfl
  | cons x xs ih =>
    rw [List.foldl_cons, List.foldl_cons, ih, ih (if x.1 = r then some x.2 else none)]
    split
    · cases (List.foldl (fun o x => if x.1 = r then some x.2 else o) none xs) <;> rfl
    · cases (List.foldl (fun o x => if x.1 = r then some x.2 else o) none xs) <;> cases o <;> rfl

theorem wrs_get (s : State) (t l : Nat) (xs : List (Nat × Nat)) (hx : ∀ x ∈ xs, x.1 < 256) (r : Nat)
    (hr : r < 256) : (wrs s t l xs).regs.get 0 (regKey t l r)
      = match lastOf xs r with
        | some v => BitVec.ofNat 32 v
        | none => s.regs.get 0 (regKey t l r) := by
  induction xs generalizing s with
  | nil => rfl
  | cons x xs ih =>
    have h1 : wrs s t l (x :: xs) = wrs (s.wr t l x.1 x.2) t l xs := rfl
    rw [h1, ih _ fun y hy => hx y (by simp [hy])]
    have h2 : lastOf (x :: xs) r = (lastOf xs r).or (if x.1 = r then some x.2 else none) := by
      unfold lastOf; rw [List.foldl_cons]; exact lastOf_step xs r _
    rw [h2]
    cases lastOf xs r with
    | some v => rfl
    | none =>
      rw [wr_get]
      by_cases e : x.1 = r
      · subst e; simp
      · have hk : regKey t l r ≠ regKey t l x.1 := fun h => e (regKey_inj hr (hx x (by simp)) h).2.symm
        simp [e, hk]

theorem wrs_get_other (s : State) (t l : Nat) (xs : List (Nat × Nat)) (k : Nat)
    (hk : ∀ x ∈ xs, k ≠ regKey t l x.1) : (wrs s t l xs).regs.get 0 k = s.regs.get 0 k := by
  induction xs generalizing s with
  | nil => rfl
  | cons x xs ih =>
    have h1 : wrs s t l (x :: xs) = wrs (s.wr t l x.1 x.2) t l xs := rfl
    rw [h1, ih _ fun y hy => hk y (by simp [hy]), wr_get, if_neg (hk x (by simp))]

theorem sameReads_wrs (s : State) (t l l' : Nat) (xs : List (Nat × Nat)) (hl : l ≠ l')
    (hx : ∀ x ∈ xs, x.1 < 256) : SameReads t l s (wrs s t l' xs) := by
  induction xs generalizing s with
  | nil => exact fun _ _ _ => rfl
  | cons x xs ih =>
    exact (sameReads_wr s t l l' x.1 x.2 hl (hx x (by simp))).trans (ih _ fun y hy => hx y (by simp [hy]))

/-! ## All lanes -/

/-- What one lane of an instruction with fixed results does: writes and flags that are functions of the lane
and of its own source reads. -/
def laneWrites (t : Nat) (g : Nat → (Nat → Nat → Nat) → List (Nat × Nat)) (h : Nat → (Nat → Nat → Nat) → Nat)
    (l : Nat) (s : State) : State :=
  (wrs s t l (g l fun slot r => s.rd slot t l r)).raiseFlags t l (h l fun slot r => s.rd slot t l r)

/-- The guarded-active lanes are each listed once, unless a pair's snapshot names them. -/
theorem guarded_nodup (s : State) (p : Nat) (h : Hdr) (hp : s.issue.pre = none) : (s.guarded p h).Nodup := by
  unfold State.guarded State.srcActive; rw [hp]; dsimp only
  unfold State.activeSet State.partLanes
  refine List.Pairwise.filter _ (List.Pairwise.filter _ ?_)
  rw [List.pairwise_map]
  exact List.Pairwise.imp (fun h => by omega) List.nodup_range

/-- What the writes of one lane do to a state, as facts that compose. -/
theorem laneWrites_facts (t : Nat) (g : Nat → (Nat → Nat → Nat) → List (Nat × Nat))
    (h : Nat → (Nat → Nat → Nat) → Nat) (hg : ∀ l rd, ∀ x ∈ g l rd, x.1 < 256)
    (hh : ∀ l rd, h l rd < 2 ^ 32) (l : Nat) (s : State) :
    (laneWrites t g h l s).issue.pre = s.issue.pre ∧ (laneWrites t g h l s).fresh = s.fresh
      ∧ (∀ l', l' ≠ l → SameReads t l' s (laneWrites t g h l s)) := by
  refine ⟨?_, ?_, ?_⟩
  · unfold laneWrites; rw [raiseFlags_pre, wrs_pre]
  · unfold laneWrites; rw [raiseFlags_fresh, wrs_fresh]
  · intro l' hl
    exact (sameReads_wrs s t l' l _ hl (hg l _)).trans (sameReads_raiseFlags _ t l' l _ hl (hh l _))

/-- What a lane's writes leave in one of its registers. -/
def after (old : Word) (w : Option Nat) (r f : Nat) : Word :=
  let v : Word := match w with
    | some v => BitVec.ofNat 32 v
    | none => old
  if r = 255 then v ||| BitVec.ofNat 32 f else v

theorem laneWrites_get (t : Nat) (g : Nat → (Nat → Nat → Nat) → List (Nat × Nat))
    (h : Nat → (Nat → Nat → Nat) → Nat) (hg : ∀ l rd, ∀ x ∈ g l rd, x.1 < 256)
    (hh : ∀ l rd, h l rd < 2 ^ 32) (l l' r : Nat) (hr : r < 256) (s : State) :
    (laneWrites t g h l s).regs.get 0 (regKey t l' r)
      = if l' = l then after (s.regs.get 0 (regKey t l r)) (lastOf (g l fun slot r => s.rd slot t l r) r) r
          (h l fun slot r => s.rd slot t l r)
        else s.regs.get 0 (regKey t l' r) := by
  unfold laneWrites
  rw [raiseFlags_get _ _ _ _ _ (hh l _)]
  by_cases e : l' = l
  · subst e
    rw [wrs_get _ _ _ _ (hg l' _) r hr]
    unfold after
    by_cases e : r = 255
    · subst e; simp
    · have hk : regKey t l' r ≠ regKey t l' 255 := fun x => e (regKey_inj hr (by omega) x).2
      simp [e, hk]
  · have hk : regKey t l' r ≠ regKey t l 255 := fun x => e (regKey_inj hr (by omega) x).1
    rw [if_neg hk, if_neg e]
    refine wrs_get_other _ _ _ _ _ fun x hx k => e (regKey_inj hr (hg l _ x hx) k).1

theorem after_after (old : Word) (w : Option Nat) (r f : Nat) :
    after (after old w r f) w r f = after old w r f := by
  unfold after
  cases w <;> by_cases e : r = 255 <;> simp [e, BitVec.or_assoc]

/-- All lanes of an instruction with fixed results, at the register words. -/
theorem eachLane_writes (t : Nat) (g : Nat → (Nat → Nat → Nat) → List (Nat × Nat))
    (h : Nat → (Nat → Nat → Nat) → Nat) (hg : ∀ l rd, ∀ x ∈ g l rd, x.1 < 256)
    (hh : ∀ l rd, h l rd < 2 ^ 32)
    (hgc : ∀ l rd rd', (∀ a b, b < 256 → rd a b = rd' a b) → g l rd = g l rd' ∧ h l rd = h l rd')
    (s0 : State) (ls : List Nat) (s : State)
    (hs : ∀ l ∈ ls, SameReads t l s0 s)
    (hd : ls.Nodup ∨ ∃ x, s0.issue.pre = some x ∧ s.issue.pre = some x ∧ s.fresh = s0.fresh)
    (l r : Nat) (hr : r < 256) :
    (eachLane ls (laneWrites t g h) s).regs.get 0 (regKey t l r)
      = if l ∈ ls then after (s.regs.get 0 (regKey t l r)) (lastOf (g l fun slot r => s0.rd slot t l r) r) r
          (h l fun slot r => s0.rd slot t l r)
        else s.regs.get 0 (regKey t l r) := by
  unfold eachLane
  induction ls generalizing s with
  | nil => simp
  | cons x xs ih =>
    rw [List.foldl_cons]
    obtain ⟨f1, f2, f3⟩ := laneWrites_facts t g h hg hh x s
    have hx := hs x (by simp)
    have hsame : ∀ l ∈ xs, SameReads t l s0 (laneWrites t g h x s) := by
      intro l hl
      by_cases e : l = x
      · subst e
        obtain hd | ⟨y, y0, y1, y2⟩ := hd
        · exact absurd hl (List.nodup_cons.mp hd).1
        · intro slot q _
          exact rd_snapshot y0 (by rw [f1, y1]) slot t l q
      · exact (hs l (by simp [hl])).trans (f3 l e)
    rw [ih _ hsame ?_]
    · have eg := hgc x (fun slot r => s.rd slot t x r) (fun slot r => s0.rd slot t x r) fun a b hb => hx a b hb
      rw [laneWrites_get t g h hg hh x l r hr s, eg.1, eg.2]
      by_cases e : l = x
      · subst e
        by_cases m : l ∈ xs
        · simp [m, after_after]
        · simp [m]
      · simp [e]
    · obtain hd | ⟨y, y0, y1, y2⟩ := hd
      · exact .inl (List.nodup_cons.mp hd).2
      · exact .inr ⟨y, y0, by rw [f1, y1], by rw [f2, y2]⟩

theorem laneWrites_get_other (t : Nat) (g : Nat → (Nat → Nat → Nat) → List (Nat × Nat))
    (h : Nat → (Nat → Nat → Nat) → Nat) (hh : ∀ l rd, h l rd < 2 ^ 32) (k l : Nat) (s : State)
    (hk : (∀ x ∈ g l (fun slot r => s.rd slot t l r), k ≠ regKey t l x.1)
      ∧ (k ≠ regKey t l 255 ∨ h l (fun slot r => s.rd slot t l r) = 0)) :
    (laneWrites t g h l s).regs.get 0 k = s.regs.get 0 k := by
  unfold laneWrites
  rw [raiseFlags_get _ _ _ _ _ (hh l _)]
  obtain e | e := hk.2
  · rw [if_neg e, wrs_get_other _ _ _ _ _ hk.1]
  · rw [e]; simpa using wrs_get_other _ _ _ _ _ hk.1

theorem eachLane_writes_other (t : Nat) (g : Nat → (Nat → Nat → Nat) → List (Nat × Nat))
    (h : Nat → (Nat → Nat → Nat) → Nat) (hg : ∀ l rd, ∀ x ∈ g l rd, x.1 < 256) (hh : ∀ l rd, h l rd < 2 ^ 32)
    (hgc : ∀ l rd rd', (∀ a b, b < 256 → rd a b = rd' a b) → g l rd = g l rd' ∧ h l rd = h l rd')
    (k : Nat) (s0 : State) (ls : List Nat) (s : State)
    (hs : ∀ l ∈ ls, SameReads t l s0 s)
    (hd : ls.Nodup ∨ ∃ x, s0.issue.pre = some x ∧ s.issue.pre = some x ∧ s.fresh = s0.fresh)
    (hk : ∀ l ∈ ls, (∀ x ∈ g l (fun slot r => s0.rd slot t l r), k ≠ regKey t l x.1)
      ∧ (k ≠ regKey t l 255 ∨ h l (fun slot r => s0.rd slot t l r) = 0)) :
    (eachLane ls (laneWrites t g h) s).regs.get 0 k = s.regs.get 0 k := by
  unfold eachLane
  induction ls generalizing s with
  | nil => rfl
  | cons x xs ih =>
    rw [List.foldl_cons]
    obtain ⟨f1, f2, f3⟩ := laneWrites_facts t g h hg hh x s
    have hx := hs x (by simp)
    rw [ih (laneWrites t g h x s) ?_ ?_ fun l hl => hk l (by simp [hl])]
    · apply laneWrites_get_other t g h hh
      have eg := hgc x (fun slot r => s.rd slot t x r) (fun slot r => s0.rd slot t x r) fun a b hb => hx a b hb
      rw [eg.1, eg.2]
      exact hk x (by simp)
    · intro l hl
      by_cases e : l = x
      · subst e
        obtain hd | ⟨y, y0, y1, y2⟩ := hd
        · exact absurd hl (List.nodup_cons.mp hd).1
        · intro slot q _
          exact rd_snapshot y0 (by rw [f1, y1]) slot t l q
      · exact (hs l (by simp [hl])).trans (f3 l e)
    · obtain hd | ⟨y, y0, y1, y2⟩ := hd
      · exact .inl (List.nodup_cons.mp hd).2
      · exact .inr ⟨y, y0, by rw [f1, y1], by rw [f2, y2]⟩

theorem lanesOnly_laneWrites (p t : Nat) (g : Nat → (Nat → Nat → Nat) → List (Nat × Nat))
    (h : Nat → (Nat → Nat → Nat) → Nat) (l : Nat) (s : State) : LanesOnly p s (laneWrites t g h l s) :=
  (lanesOnly_wrs p t l _ s).trans (lanesOnly_raiseFlags p t l _ _)

/-- An instruction whose lanes each write registers and raise flags as functions of their own source reads:
what it answers. -/
theorem issueLanes_writes (i : Instr) (s : State) (hi : Issues i s)
    (g : Nat → (Nat → Nat → Nat) → List (Nat × Nat)) (h : Nat → (Nat → Nat → Nat) → Nat)
    (hg : ∀ l rd, ∀ x ∈ g l rd, x.1 < 256) (hh : ∀ l rd, h l rd < 2 ^ 32)
    (hgc : ∀ l rd rd', (∀ a b, b < 256 → rd a b = rd' a b) → g l rd = g l rd' ∧ h l rd = h l rd') :
    ∃ t, issueLanes i s (fun c => laneWrites c.t g h) = .next t
      ∧ (∀ l ∈ s.actors i, ∀ r, r < 256 → t.regs.get 0 (regKey s.issTeam l r)
          = after (s.regs.get 0 (regKey s.issTeam l r)) (lastOf (g l (s.src · l ·)) r) r (h l (s.src · l ·)))
      ∧ (∀ k, (∀ l ∈ s.actors i, (∀ x ∈ g l (s.src · l ·), k ≠ regKey s.issTeam l x.1)
            ∧ (k ≠ regKey s.issTeam l 255 ∨ h l (s.src · l ·) = 0)) → t.regs.get 0 k = s.regs.get 0 k)
      ∧ LanesOnly s.issue.part s t := by
  have hd : (s.opCtx i.hdr).ga.Nodup ∨ ∃ x, s.issued.issue.pre = some x ∧ s.issued.issue.pre = some x
      ∧ s.issued.fresh = s.issued.fresh := by
    cases hp : s.issue.pre with
    | none => exact .inl (guarded_nodup s.bump s.issue.part i.hdr hp)
    | some x => exact .inr ⟨x, by rw [issued_issue, hp], by rw [issued_issue, hp], rfl⟩
  refine ⟨_, issue_issues hi _, ?_, ?_, ?_⟩
  · intro l hl r hr
    rw [finish_regs]
    have e := eachLane_writes s.issTeam g h hg hh hgc s.issued (s.opCtx i.hdr).ga s.issued
      (fun _ _ _ _ _ => rfl) hd l r hr
    have hl' : l ∈ (s.opCtx i.hdr).ga := hl
    rw [if_pos hl', issued_regs] at e
    exact e
  · intro k hk
    rw [finish_regs]
    exact (eachLane_writes_other s.issTeam g h hg hh hgc k s.issued (s.opCtx i.hdr).ga s.issued
      (fun _ _ _ _ _ => rfl) hd hk).trans (by rw [issued_regs])
  · exact (issued_frame s).trans ((LanesOnly.foldl _
      (fun a l => lanesOnly_laneWrites _ _ g h l a) _ _).trans (lanesOnly_finish _ _))

theorem lastOf_mem (xs : List (Nat × Nat)) (r : Nat) (h : r ∈ xs.map (·.1)) : (lastOf xs r).isSome := by
  induction xs with
  | nil => simp at h
  | cons x xs ih =>
    have h2 : lastOf (x :: xs) r = (lastOf xs r).or (if x.1 = r then some x.2 else none) := by
      unfold lastOf; rw [List.foldl_cons]; exact lastOf_step xs r _
    rw [h2]
    by_cases e : x.1 = r
    · cases lastOf xs r <;> simp [e]
    · have : r ∈ xs.map (·.1) := by
        rw [List.map_cons, List.mem_cons] at h
        exact h.resolve_left fun k => e k.symm
      have := ih this
      cases hx : lastOf xs r with
      | none => rw [hx] at this; simp at this
      | some v => rfl

theorem lastOf_not_mem (xs : List (Nat × Nat)) (r : Nat) (h : r ∉ xs.map (·.1)) : lastOf xs r = none := by
  induction xs with
  | nil => rfl
  | cons x xs ih =>
    have h2 : lastOf (x :: xs) r = (lastOf xs r).or (if x.1 = r then some x.2 else none) := by
      unfold lastOf; rw [List.foldl_cons]; exact lastOf_step xs r _
    rw [List.map_cons, List.mem_cons, not_or] at h
    rw [h2, ih h.2, if_neg fun e => h.1 e.symm]; rfl

/-- The same as a `Writes`: the registers `ds` are those that every lane writes. -/
theorem writes_of (i : Instr) (s : State) (hi : Issues i s)
    (g : Nat → (Nat → Nat → Nat) → List (Nat × Nat)) (h : Nat → (Nat → Nat → Nat) → Nat) (ds : List Nat)
    (hds : ∀ l rd, (g l rd).map (·.1) = ds) (hlt : ∀ r ∈ ds, r < 256) (hh : ∀ l rd, h l rd < 2 ^ 32)
    (hgc : ∀ l rd rd', (∀ a b, b < 256 → rd a b = rd' a b) → g l rd = g l rd' ∧ h l rd = h l rd')
    (he : exec i s = issueLanes i s fun c => laneWrites c.t g h) :
    Writes i s ds (fun l r => (lastOf (g l (s.src · l ·)) r).getD 0) fun l => h l (s.src · l ·) := by
  have hg : ∀ l rd, ∀ x ∈ g l rd, x.1 < 256 := by
    intro l rd x hx
    exact hlt _ (by rw [← hds l rd]; exact List.mem_map_of_mem hx)
  obtain ⟨t, h1, h2, h3, h4⟩ := issueLanes_writes i s hi g h hg hh hgc
  refine ⟨t, he.trans h1, ?_, ?_, ?_, h4⟩
  · intro l hl r hr h255
    have e := h2 l hl r (hlt r hr)
    have hs := lastOf_mem (g l (s.src · l ·)) r (by rw [hds]; exact hr)
    obtain ⟨v, hv⟩ := Option.isSome_iff_exists.mp hs
    unfold State.reg
    rw [e]
    simp [after, h255, hv]
  · intro l hl
    have e := h2 l hl 255 (by omega)
    unfold State.reg
    rw [e]
    have hf := Nat.mod_eq_of_lt (hh l (s.src · l ·))
    by_cases m : 255 ∈ ds
    · have hs := lastOf_mem (g l (s.src · l ·)) 255 (by rw [hds]; exact m)
      obtain ⟨v, hv⟩ := Option.isSome_iff_exists.mp hs
      simp only [after, hv, if_true, if_pos m, BitVec.toNat_or, BitVec.toNat_ofNat, hf, Option.getD_some]
    · have hs := lastOf_not_mem (g l (s.src · l ·)) 255 (by rw [hds]; exact m)
      simp only [after, hs, if_true, if_neg m, BitVec.toNat_or, BitVec.toNat_ofNat, hf]
  · intro k hk
    refine h3 k fun l hl => ⟨fun x hx => hk l hl x.1 (.inl ?_), ?_⟩
    · rw [← hds l (s.src · l ·)]; exact List.mem_map_of_mem hx
    · by_cases z : h l (s.src · l ·) = 0
      · exact .inr z
      · exact .inl (hk l hl 255 (.inr ⟨rfl, z⟩))

/-- Values and flags that agree on what `Writes` looks at. -/
theorem Writes.congr {i : Instr} {s : State} {ds : List Nat} {v v' : Nat → Nat → Nat} {f f' : Nat → Nat}
    (h : Writes i s ds v f) (hv : ∀ l, ∀ r ∈ ds, v l r % 2 ^ 32 = v' l r % 2 ^ 32) (hf : ∀ l, f l = f' l) :
    Writes i s ds v' f' := by
  have ef : f = f' := funext hf
  subst ef
  obtain ⟨t, h1, h2, h3, h4, h5⟩ := h
  refine ⟨t, h1, ?_, ?_, h4, h5⟩
  · intro l hl r hr h255; rw [h2 l hl r hr h255]; exact hv l r hr
  · intro l hl
    rw [h3 l hl]
    by_cases m : 255 ∈ ds
    · rw [if_pos m, if_pos m, hv l 255 m]
    · rw [if_neg m, if_neg m]

/-! ## The shapes of Sys2Proof/Machine/Int.lean and FloatI.lean -/

theorem raiseFlags_zero (s : State) (t l : Nat) : s.raiseFlags t l 0 = s := by simp [State.raiseFlags]

theorem lane1_writes (i : Instr) (d a : Reg) (f : Nat → Nat) (s : State) (hi : Issues i s)
    (he : exec i s = lane1 i d a f s) : WritesWord i s d fun l => f (s.src 0 l a) := by
  refine (writes_of i s hi (fun _ rd => [(d.val, f (rd 0 a))]) (fun _ _ => 0) [d.val] (fun _ _ => rfl)
    (by simp) (by intros; omega) (fun _ rd rd' h => by simp [h _ _ a.isLt]) ?_).congr ?_ fun _ => rfl
  · rw [he]; unfold lane1 laneWrites; simp only [raiseFlags_zero]; rfl
  · intro l r hr; simp only [List.mem_singleton] at hr; subst hr; simp [lastOf]

theorem lane2_writes (i : Instr) (d a b : Reg) (f : Nat → Nat → Nat) (s : State) (hi : Issues i s)
    (he : exec i s = lane2 i d a b f s) : WritesWord i s d fun l => f (s.src 0 l a) (s.src 2 l b) := by
  refine (writes_of i s hi (fun _ rd => [(d.val, f (rd 0 a) (rd 2 b))]) (fun _ _ => 0) [d.val] (fun _ _ => rfl)
    (by simp) (by intros; omega)
    (fun _ rd rd' h => by simp [h _ _ a.isLt, h _ _ b.isLt]) ?_).congr ?_ fun _ => rfl
  · rw [he]; unfold lane2 laneWrites; simp only [raiseFlags_zero]; rfl
  · intro l r hr; simp only [List.mem_singleton] at hr; subst hr; simp [lastOf]

theorem lane3_writes (i : Instr) (d a b x : Reg) (f : Nat → Nat → Nat → Nat) (s : State) (hi : Issues i s)
    (he : exec i s = lane3 i d a b x f s) :
    WritesWord i s d fun l => f (s.src 0 l a) (s.src 2 l b) (s.src 4 l x) := by
  refine (writes_of i s hi (fun _ rd => [(d.val, f (rd 0 a) (rd 2 b) (rd 4 x))]) (fun _ _ => 0) [d.val]
    (fun _ _ => rfl) (by simp) (by intros; omega)
    (fun _ rd rd' h => by simp [h _ _ a.isLt, h _ _ b.isLt, h _ _ x.isLt]) ?_).congr ?_ fun _ => rfl
  · rw [he]; unfold lane3 laneWrites; simp only [raiseFlags_zero]; rfl
  · intro l r hr; simp only [List.mem_singleton] at hr; subst hr; simp [lastOf]

theorem laneF1_writes (i : Instr) (d a : Reg) (f : Nat → Nat × Nat) (s : State) (hi : Issues i s)
    (hf : ∀ x, (f x).2 < 2 ^ 32) (he : exec i s = laneF1 i d a f s) :
    Writes i s [d.val] (fun l _ => (f (s.src 0 l a)).1) fun l => (f (s.src 0 l a)).2 := by
  refine (writes_of i s hi (fun _ rd => [(d.val, (f (rd 0 a)).1)]) (fun _ rd => (f (rd 0 a)).2) [d.val]
    (fun _ _ => rfl) (by simp) (fun _ _ => hf _)
    (fun _ rd rd' h => by simp [h _ _ a.isLt]) ?_).congr ?_ fun _ => rfl
  · rw [he]; rfl
  · intro l r hr; simp only [List.mem_singleton] at hr; subst hr; simp [lastOf]

theorem laneF2_writes (i : Instr) (d a b : Reg) (f : Nat → Nat → Nat × Nat) (s : State) (hi : Issues i s)
    (hf : ∀ x y, (f x y).2 < 2 ^ 32) (he : exec i s = laneF2 i d a b f s) :
    Writes i s [d.val] (fun l _ => (f (s.src 0 l a) (s.src 2 l b)).1)
      fun l => (f (s.src 0 l a) (s.src 2 l b)).2 := by
  refine (writes_of i s hi (fun _ rd => [(d.val, (f (rd 0 a) (rd 2 b)).1)]) (fun _ rd => (f (rd 0 a) (rd 2 b)).2)
    [d.val] (fun _ _ => rfl) (by simp) (fun _ _ => hf _ _)
    (fun _ rd rd' h => by simp [h _ _ a.isLt, h _ _ b.isLt]) ?_).congr ?_ fun _ => rfl
  · rw [he]; rfl
  · intro l r hr; simp only [List.mem_singleton] at hr; subst hr; simp [lastOf]

theorem laneF3_writes (i : Instr) (d a b x : Reg) (f : Nat → Nat → Nat → Nat × Nat) (s : State) (hi : Issues i s)
    (hf : ∀ x y z, (f x y z).2 < 2 ^ 32) (he : exec i s = laneF3 i d a b x f s) :
    Writes i s [d.val] (fun l _ => (f (s.src 0 l a) (s.src 2 l b) (s.src 4 l x)).1)
      fun l => (f (s.src 0 l a) (s.src 2 l b) (s.src 4 l x)).2 := by
  refine (writes_of i s hi (fun _ rd => [(d.val, (f (rd 0 a) (rd 2 b) (rd 4 x)).1)])
    (fun _ rd => (f (rd 0 a) (rd 2 b) (rd 4 x)).2)
    [d.val] (fun _ _ => rfl) (by simp) (fun _ _ => hf _ _ _)
    (fun _ rd rd' h => by simp [h _ _ a.isLt, h _ _ b.isLt, h _ _ x.isLt]) ?_).congr ?_ fun _ => rfl
  · rw [he]; rfl
  · intro l r hr; simp only [List.mem_singleton] at hr; subst hr; simp [lastOf]

end Sys2Proof.Machine
end

