-- ==== Sys2Proof/Tests/Slice0.lean ====
section
/-! SUPPORT. The model's own tests: words written out from the spec's encodings, ill-formed terms, what one
instruction does, and a witness for the hypotheses of every statement. -/

namespace Sys2Proof.Tests

open Sys2Proof Sys2Proof.Machine

set_option maxRecDepth 100000
set_option Elab.async false

/-- No settle, and no guard. -/
abbrev h : Hdr := ⟨false, false, 0⟩
/-- Settle, and the guard !p5. -/
abbrev hs : Hdr := ⟨true, true, 5⟩

/-- Each word decodes to the instruction beside it. -/
def Decodes (l : List (Nat × Instr)) : Prop := ∀ x ∈ l, decodeNat x.1 = .ok x.2

/-- `Decodes` as a test. -/
def decodesB (l : List (Nat × Instr)) : Bool := l.all fun x =>
  match decodeNat x.1 with
  | .ok i => decide (i = x.2)
  | .error _ => false

theorem decodes_of {l : List (Nat × Instr)} (hl : decodesB l = true) : Decodes l := by
  intro x hx
  have := List.all_eq_true.mp hl x hx
  revert this
  cases decodeNat x.1 <;> simp

/-- Words of the control instructions, written out from R199, R214, decode to what they stand for. -/
theorem test_words_control : Decodes [
    (0x0010000000000000, .nop h),
    (0x8028500000000009, .go hs 9),
    (0x0030000070000000, .goi h 7),
    (0x0040000820006005, .gosel h ⟨true, 2⟩ 5 6),
    (0x0050008000006005, .call h 8 5 6),
    (0x0060008070006000, .calli h 8 7 6),
    (0x0070000000000000, .exit h),
    (0x0080000000000000, .beat h),
    (0x0090000000000003, .ipref h 3 0),
    (0x00A0000000001234, .trap h 0x1234),
    (0x00B0000000001234, .brk h 0x1234),
    (0x010001E000000003, .split h 30 3),
    (0x011001E000000006, .fuse h 30 6),
    (0x012001E000000006, .fuset h 30 6)
  ] := decodes_of (by decide)

/-- Words of the integer instructions, written out from R172, decode to what they stand for. -/
theorem test_words_integer : Decodes [
    (0x88085090A0B00003, .iadd hs 9 10 11 .n32 true),
    (0x08100090A0B00002, .isub h 9 10 11 .i32 true),
    (0x08200090A0B28004, .iadc h 9 10 11 40 true),
    (0x08300090A0B00001, .imul h 9 10 11 .n32 false),
    (0x08400090A0B00001, .imulh h 9 10 11 .n32),
    (0x08500090A0B0C002, .imad h 9 10 11 12 .i32 true),
    (0x08600080A0B0C001, .imadw h 8 10 11 12 .n32),
    (0x08700090A0B00001, .imin h 9 10 11 .n32),
    (0x08800090A0B00000, .imax h 9 10 11 .i32),
    (0x08900090A0000002, .iabs h 9 10 true),
    (0x08A00090A0000002, .ineg h 9 10 true),
    (0x08B00280A0B00011, .icmp h 40 10 11 .n32 .gt),
    (0x08C00090A0B83000, .sel h 9 10 11 ⟨true, 3⟩),
    (0x08D00090A0B00000, .shl h 9 10 11),
    (0x08E00090A0B00000, .shr h 9 10 11),
    (0x08F00090A0B00000, .sha h 9 10 11),
    (0x09000090A0B00004, .rot h 9 10 11 true),
    (0x09100090A0B0C004, .fsh h 9 10 11 12 true),
    (0x09200090A0B00000, .iand h 9 10 11),
    (0x09300090A0B00000, .ior h 9 10 11),
    (0x09400090A0B00000, .ixor h 9 10 11),
    (0x09500050607080E8, .lop3 h 5 6 7 8 0xE8),
    (0x09600090A0000000, .popc h 9 10),
    (0x09700090A0000000, .clz h 9 10),
    (0x09800090A0000000, .ctz h 9 10),
    (0x09900090A0000000, .brev h 9 10),
    (0x09A00090A0B00001, .bfx h 9 10 11 .n32),
    (0x09B00090A0B0C000, .bfi h 9 10 11 12),
    (0x09C00090A0B0C000, .prmt h 9 10 11 12),
    (0x09D00090A0000000, .mov h 9 10),
    (0x09E000900FEDCBA9, .movi h 9 0xFEDCBA9),
    (0x09F00090A000FEDC, .movhi h 9 10 0xFEDC),
    (0x0A000080A0B00007, .lea h 8 10 11 true .s8),
    (0x0A100080A0C00001, .add64 h 8 10 12 true),
    (0x0A200280A0C00008, .cmp64 h 40 10 12 .gtu),
    (0x0A30028830400002, .pbit h 40 ⟨true, 3⟩ ⟨false, 4⟩ .xor)
  ] := decodes_of (by decide)

/-- Words of the float instructions, written out from R176, decode to what they stand for. -/
theorem test_words_float : Decodes [
    (0x18000090A0B000D0, .fadd h 9 10 11 .f32 .rup true true),
    (0x18100090A0B000D0, .fsub h 9 10 11 .f32 .rup true true),
    (0x18200090A0B000D0, .fmul h 9 10 11 .f32 .rup true true),
    (0x98385090A0B0C02A, .ffma hs 9 10 11 12 .b2 .rto false false),
    (0x18400090A0B00080, .fmin h 9 10 11 .f32 true),
    (0x18500090A0B00001, .fmax h 9 10 11 .h2 false),
    (0x18600280A0B00680, .fcmp h 40 10 11 .num true),
    (0x18700090A0000002, .fclass h 9 10 .b2),
    (0x18800090A0000088, .frnd h 9 10 .f32 .rtz true),
    (0x18900090A0B00059, .fscale h 9 10 11 .h2 .rdn true false),
    (0x18A00090A00000A0, .frcp h 9 10 .f32 .rna false true),
    (0x18B00090A0000040, .frsq h 9 10 .f32 true false),
    (0x18C00090A000004A, .fsqrt h 9 10 .b2 .rtz true false),
    (0x18D00090A0B000C8, .fdiv h 9 10 11 .f32 .rtz true true),
    (0x18E00090A00000C0, .fexp2 h 9 10 .f32 true true),
    (0x18F00090A00000C0, .flog2 h 9 10 .f32 true true),
    (0x19000090A00000C0, .fsin h 9 10 .f32 true true),
    (0x19100090A00000C0, .fcos h 9 10 .f32 true true),
    (0x19200090A00000C0, .ftanh h 9 10 .f32 true true),
    (0x19300090A0B0C089, .fdot2 h 9 10 11 12 .h2 .rtz false true)
  ] := decodes_of (by decide)

/-- Words of the conversion instructions, written out from R179 to R183, decode to what they stand for. -/
theorem test_words_conversion : Decodes [
    (0x1940003090000106, .cvt h 3 9 .i8 .f32 .rtz false false),
    (0x19400040801008DC, .cvt h 4 8 .i64 .n64 .rne true true),
    (0x19500090C00001D3, .pack h 9 12 .e4m3 .rto true true),
    (0x1960010090000005, .unpk h 16 9 .e2m1),
    (0x1970014082800003, .qnt h 20 8 40 .e4m3 .rne false false),
    (0x1980014092800116, .dqn h 20 9 40 .i8 .rtz true),
    (0x1990010080000005, .plx h 16 8 5),
    (0x19A0010080000005, .pli h 16 8 5)
  ] := decodes_of (by decide)

/-- Words of the cross instructions, written out from R220, R221, R234, decode to what they stand for. -/
theorem test_words_cross : Decodes [
    (0x2800007040600003, .shuf h 7 4 6 .xor false .sgd),
    (0x280000804C80041A, .shufImm h 8 4 200 .down true .sg16),
    (0x281000804000000A, .qswap h 8 4 .d true),
    (0x2820007040000003, .qbc h 7 4 3 false),
    (0x2830028830000202, .vote h 40 ⟨true, 3⟩ .uni .sg4),
    (0x2840008010000000, .ballot h 8 ⟨false, 1⟩ .sgd),
    (0x2840008010900A01, .ballotWord h 8 ⟨false, 1⟩ 9 .sg1024),
    (0x2850008040000308, .matchAny h 8 4 true .sg8),
    (0x2850009040028001, .matchAll h 9 4 40 false .sgd),
    (0x2860028000000500, .elect h 40 .sg32),
    (0xA87850904000060D, .ired hs 9 4 .xor .n32 .sg64),
    (0x2880009040000042, .fred h 9 4 .max true .sgd),
    (0x289000904000001B, .iscan h 9 4 .and .n32 true .sgd),
    (0x28A0009040000051, .fscan h 9 4 .min true true .sgd),
    (0x28B000800000000A, .sread h 8 .tick),
    (0x28B0009000000017, .sread h 9 .ev7)
  ] := decodes_of (by decide)

/-- Words of the memory instructions, written out from R112 to R134, decode to what they stand for. -/
theorem test_words_memory : Decodes [
    (0xB00001408004008C, .ld ⟨true, false, 0⟩ 20 8 0x0040 .n16 .stash false .stream),
    (0x300001408FFFC13E, .ld h 20 8 0xFFFC .w4 .const true .noalloc),
    (0x3010014088000055, .st h 20 8 0x8000 .i64 .cstash true .keep),
    (0x3020014080A0C6A7, .atom h 20 8 10 12 .cas .i64 .rne .stash .acqrel),
    (0x3030000080B00542, .red h 8 11 .max .f32 .rne .cstash .rel),
    (0x3040014080A0273D, .ldg h 20 8 10 .block .i64 .ix64 true .s16 true .acq),
    (0x3050015080B00852, .stg h 21 8 11 .device .n8 .ix16 false .s2 false .rel),
    (0x3060014080B00005, .ldft h 20 8 11 true .x4),
    (0x3080002040607000, .smap h 2 4 6 7),
    (0x3090002040000000, .sunmap h 2 4),
    (0x30A0000000000001, .sflush h 0 0 true),
    (0x30B0000040700000, .sdrop h 4 7 false),
    (0x30C0000080040002, .pfd h 8 0x0040 .fill),
    (0x3100000280000004, .waitc h 40 .l),
    (0x3110028000000007, .cntq h 40 .q),
    (0x3120000000000003, .fence h .cluster),
    (0x3120000000000005, .fenceSys h)
  ] := decodes_of (by decide)

/-- Words of the barrier instructions, written out from R242, R263, R264, decode to what they stand for. -/
theorem test_words_barrier : Decodes [
    (0x3400000000003004, .bar h ⟨false, 3⟩ 4),
    (0x341000800001F000, .barr h 8 ⟨true, 15⟩),
    (0xB420000240010004, .barw ⟨true, false, 0⟩ 36 ⟨true, 0⟩ 4),
    (0x3430000080002000, .barinit h 8 ⟨false, 2⟩),
    (0x3500000050000400, .plset h 5 0x400),
    (0x3510000000000000, .plcan h),
    (0x3520009000000000, .plrep h 9),
    (0x3530009100000000, .launch h 9 16)
  ] := decodes_of (by decide)

/-- Words of the ladle instructions, written out from R247, decode to what they stand for. -/
theorem test_words_ladle : Decodes [
    (0x00154200000004003900018100000000, .cpy h 24 16 (.imm 1024) ⟨.stash, .global, .rel, .block, some ⟨false, 2⟩, .keep⟩),
    (0x02FEFD09000000003900018100000000, .cpy h 24 16 (.reg 9) ⟨.cstash, .const, .acqrel, .system, some ⟨true, 15⟩, .noalloc⟩),
    (0x01000900FFFFFFFF3910018100000000, .cpyg h 24 16 0xFFFFFFFF true ⟨.global, .stash, .plain, .device, none, .stream⟩)
  ] := decodes_of (by decide)

/-- Words of the matrix instructions, written out from R281, R282, R286 to R290, decode to what they stand for. -/
theorem test_words_matrix : Decodes [
    (0x00100E62001F1E0C3800000600000000, .mma h 0 96 ⟨12, 30, 31, .e4m3, .bp, false, true, true, true, false, 0, 4, .img, false, false, .device, .keep⟩),
    (0x53821B560020000C3810005600000000, .mmap h 5 96 ⟨12, 0, 32, .bp, .i8, true, true, false, true, true, 8, 0, .on, true, true, .die, .noalloc⟩),
    (0x00000019000000003820040800000000, .had h 64 128 .n32 .n64 true),
    (0x00000001000000003830005000000000, .acz h 5 true),
    (0x0000052C000000093840005080000000, .acld h 5 8 (.mem 9 .cstash true .team .stream) true),
    (0x00000001000000003840005200000000, .acld h 5 32 .reg false),
    (0x00000032000000093850005080000000, .acst h 5 8 (.mem 9 .stash true .team .keep)),
    (0x00000000000000003860005000000000, .acrel h 5),
    (0x00000001000000003860000000000000, .acrelAll h),
    (0x00000001000000003870009050000000, .acstat h 9 5 true)
  ] := decodes_of (by decide)

/-- Words of the runner instructions, written out from R302, R303, R305, R306, decode to what they stand for. -/
theorem test_words_runner : Decodes [
    (0x000030000C000002B980008040000000, .trav ⟨true, false, 0⟩ 8 4 ⟨2, 0, 12, 0, 3, false, .device, false, .keep⟩),
    (0x010030000C00000239B0008180000000, .tres h 8 24 ⟨2, 0, 12, 0, 3, true, .device, false, .keep⟩),
    (0x00000001000000003990000210000000, .tretDesc h 33 false false .device),
    (0x00000072000000003990000000000000, .tretSkip h true .cluster),
    (0x00000000000000003990000000000000, .tretCont h false .device),
    (0x00000033000000003990000000000000, .tretStop h true .team),
    (0x000001A80000000039A0023180000000, .tcut h 35 24 ⟨false, true, .block, some ⟨false, 1⟩, .keep⟩),
    (0x000000000000000039C00090A0000000, .tstat h 9 10)
  ] := decodes_of (by decide)

/-- Words of the sprue instructions, written out from R319, decode to what they stand for. -/
theorem test_words_sprue : Decodes [
    (0x0000000A000000283A00002100000000, .gpost h 2 16 40 .rel .block),
    (0x00000000000000283A10009000000000, .gpoll h 9 40)
  ] := decodes_of (by decide)

/-- Words of the system instructions, written out from R339, R345, decode to what they stand for. -/
theorem test_words_system : Decodes [
    (0x00000000000000423A80014000000000, .sys h 20 0x42),
    (0x00000000000000063A90002040000000, .eretAgain h 2 4 6),
    (0x00000001000000063A90002040000000, .eretNext h 2 4 6),
    (0x00000002000000063A90002040000000, .eretZero h 2 4 6),
    (0x00000003000000063A90002040000000, .eretKill h 2 4 6),
    (0x00000000000000083AA0008000000000, .csrr h 8 0x008 0),
    (0x000000000003F3103AB0000080000000, .csrw h 8 0x310 63),
    (0x00000000003F0B0A3AC0000080000000, .tinvVa h ⟨8, 10, 11, 63⟩),
    (0x00000001003F0B0A3AC0000080000000, .tinvSp h ⟨8, 10, 11, 63⟩),
    (0x00000002003F0B0A3AC0000080000000, .tinvFn h ⟨8, 10, 11, 63⟩),
    (0x00000003003F0B0A3AC0000080000000, .tinvIpa h ⟨8, 10, 11, 63⟩),
    (0x00000000000012343AD0000080000000, .tmark h 8 0x1234)
  ] := decodes_of (by decide)

/-! ## Well-formedness: a term for each check, which the check refuses -/

/-- Pairs and groups of registers (R10, R169), shapes and types of the arithmetic instructions. -/
theorem test_illFormed_arithmetic : ([
    .split h 4 0, .split h 4 9, .imadw h 9 1 2 4 .i32, .imadw h 8 1 2 5 .i32, .imadw h 254 1 2 4 .i32,
    .lea h 9 4 5 false .s1, .lea h 8 5 5 false .s1, .add64 h 9 4 6 false, .add64 h 8 5 6 false, .add64 h 8 4 7 false,
    .cmp64 h 1 5 4 .eq, .cmp64 h 1 4 5 .eq, .fadd h 1 2 3 .h2 .rne false true, .fsub h 1 2 3 .b2 .rne false true,
    .fmul h 1 2 3 .h2 .rne false true, .ffma h 1 2 3 4 .h2 .rne false true, .fmin h 1 2 3 .h2 true,
    .fmax h 1 2 3 .h2 true, .frnd h 1 2 .h2 .rne true, .fscale h 1 2 3 .h2 .rne false true,
    .fdiv h 1 2 3 .h2 .rne false true, .frcp h 1 2 .h2 .rne false true, .fsqrt h 1 2 .h2 .rne false true,
    .frsq h 1 2 .h2 false true, .fexp2 h 1 2 .h2 false true, .flog2 h 1 2 .h2 false true, .fsin h 1 2 .h2 false true,
    .fcos h 1 2 .h2 false true, .ftanh h 1 2 .h2 false true, .fdot2 h 1 2 3 4 .f32 .rne false false,
    .cvt h 1 2 .h2 .f32 .rne false false, .cvt h 1 2 .b2 .f32 .rne false false, .cvt h 1 2 .f32 .h2 .rne false false,
    .cvt h 1 2 .f32 .b2 .rne false false, .cvt h 1 2 .i64 .f32 .rne false false,
    .cvt h 1 3 .f32 .n64 .rne false false, .pack h 1 4 .i8 .rne false false, .pack h 1 6 .e4m3 .rne false false,
    .unpk h 8 1 .f32, .unpk h 252 1 .e5m2, .qnt h 1 8 2 .n8 .rne false false, .qnt h 1 4 2 .e2m1 .rne false false,
    .dqn h 8 1 2 .h2 .rne false, .dqn h 6 1 2 .i8 .rne false, .plx h 16 8 1, .plx h 16 8 9, .plx h 16 12 4,
    .plx h 12 8 4, .plx h 248 8 8, .pli h 16 8 1, .pli h 16 8 9, .pli h 12 8 4, .pli h 16 12 4, .pli h 16 248 8] : List Instr).all (!·.wf) := by decide

/-- The cross-lane and memory instructions. -/
theorem test_illFormed_memory : ([
    .shuf h 9 4 1 .idx true .sgd, .shufImm h 8 5 1 .idx true .sgd, .qswap h 9 4 .h true, .qbc h 8 5 0 true,
    .matchAny h 9 4 true .sgd, .matchAll h 8 5 40 true .sgd, .matchAll h 1 4 40 false .sgd, .sread h 9 .launch,
    .ld h 1 5 0 .i32 .global false .keep, .ld h 9 4 0 .i64 .global false .keep, .ld h 10 4 0 .w4 .global false .keep,
    .st h 1 5 0 .i32 .global false .keep, .st h 10 4 0 .w4 .global false .keep, .st h 1 4 0 .i32 .const false .keep,
    .atom h 1 5 2 0 .add .i32 .rne .global .plain, .atom h 1 4 2 0 .add .i64 .rne .global .plain,
    .atom h 8 4 3 0 .add .i64 .rne .global .plain, .atom h 8 4 2 7 .cas .i64 .rne .global .plain,
    .atom h 1 4 2 7 .add .i32 .rne .global .plain, .atom h 1 4 2 0 .add .i32 .rtz .global .plain,
    .atom h 1 4 2 0 .and .n32 .rne .global .plain, .atom h 1 4 2 0 .inc .i32 .rne .global .plain,
    .atom h 1 4 2 0 .add .i32 .rne .const .plain, .red h 5 2 .add .i32 .rne .global .plain,
    .red h 4 3 .add .i64 .rne .global .plain, .red h 4 2 .cas .i32 .rne .global .plain,
    .red h 4 2 .add .n64 .rup .global .plain, .red h 4 2 .exch .f32 .rne .global .plain,
    .red h 4 2 .add .i32 .rne .const .plain, .ldg h 1 5 2 .device .i32 .ix32 false .s1 false .plain,
    .ldg h 9 4 2 .device .i64 .ix32 false .s1 false .plain, .ldg h 1 4 3 .device .i32 .ix64 false .s1 false .plain,
    .stg h 1 4 2 .team .i32 .ix32 false .s1 false .plain, .ldft h 1 5 2 false .x1, .ldft h 2 4 2 false .x4,
    .smap h 1 5 2 3, .sunmap h 1 5, .sflush h 5 2 false, .sflush h 4 0 true, .sdrop h 0 2 true, .pfd h 5 0 .l1,
    .fence h .system] : List Instr).all (!·.wf) := by decide

/-- The operands of an `mma` that keeps the rules: two register tiles of FP16. -/
def tiles : MmaOps :=
  ⟨16, 0, 0, .f16, .f16, false, false, false, false, false, 0, 0, .img, false, false, .device, .keep⟩

/-- The long forms. -/
theorem test_illFormed_long : ([
    .cpy h 25 16 (.imm 4) ⟨.global, .global, .plain, .device, none, .keep⟩,
    .cpy h 24 17 (.imm 4) ⟨.global, .global, .plain, .device, none, .keep⟩,
    .cpy h 24 16 (.imm 4) ⟨.const, .global, .plain, .device, none, .keep⟩,
    .cpy h 24 16 (.imm 4) ⟨.global, .global, .plain, .team, none, .keep⟩,
    .cpyg h 24 16 0 false ⟨.global, .global, .plain, .device, none, .keep⟩,
    .cpyg h 24 20 4 false ⟨.global, .global, .plain, .device, none, .keep⟩, .launch h 1 4,
    .mma h 0 32 { tiles with tb := .bf16 }, .mma h 0 32 { tiles with ta := .bp, tb := .i8, ka := 4 },
    .mma h 0 32 { tiles with ta := .i8, tb := .bp, kb := 4 }, .mma h 0 32 { tiles with sca := true },
    .mma h 0 32 { tiles with scb := true }, .mma h 0 32 { tiles with ka := 2 }, .mma h 0 32 { tiles with kb := 2 },
    .mma h 0 32 { tiles with cen := .on }, .mma h 0 32 { tiles with ta := .e2m1, tb := .e2m1, sel := true },
    .mma h 0 32 { tiles with stash := true }, .mma h 0 32 { tiles with acq := true },
    .mma h 0 32 { tiles with sco := .team }, .mma h 0 32 { tiles with ca := .stream },
    .mma h 0 32 { tiles with sa := 1 }, .mma h 0 32 { tiles with sb := 1 }, .mma h 0 40 tiles,
    .mma h 0 32 { tiles with b := 8 }, .mma h 0 34 { tiles with aMem := true }, .mmap h 0 32 tiles,
    .mmap h 0 32 { tiles with ta := .i8, tb := .i8, bMem := true, scb := true, sb := 3 },
    .mma h 0 32 { tiles with bMem := true, b := 18 }, .had h 0 64 .n32 .n16 false, .had h 16 64 .n16 .n64 false,
    .had h 64 16 .n16 .n64 false, .acld h 0 5 (.mem 1 .global false .device .keep) false,
    .acld h 0 4 (.mem 1 .const false .device .keep) false, .acld h 0 4 (.mem 1 .global false .team .keep) false,
    .acld h 0 16 .reg false, .acld h 0 32 .reg true, .acst h 0 16 .reg,
    .acst h 0 4 (.mem 1 .const false .device .keep), .trav h 0 6 ⟨2, 0, 12, 0, 3, false, .device, false, .keep⟩,
    .trav h 0 4 ⟨2, 4095, 12, 0, 3, false, .device, false, .keep⟩,
    .tres h 0 4 ⟨2, 0, 12, 4095, 3, false, .device, false, .keep⟩,
    .tres h 0 4 ⟨2, 0, 255, 0, 3, false, .device, false, .keep⟩,
    .trav h 0 4 ⟨2, 0, 12, 0, 3, false, .block, false, .keep⟩, .tretDesc h 4 false false .team,
    .tretSkip h false .team, .tretCont h false .team, .tretStop h false .team,
    .tcut h 4 5 ⟨false, false, .device, none, .keep⟩, .tcut h 4 6 ⟨false, false, .die, none, .keep⟩,
    .gpost h 1 8 2 .plain .device, .gpost h 1 16 2 .plain .team, .csrr h 1 0 0, .csrw h 1 0 0, .tinvVa h ⟨5, 1, 2, 0⟩,
    .tinvSp h ⟨5, 1, 2, 0⟩, .tinvFn h ⟨5, 1, 2, 0⟩, .tinvIpa h ⟨5, 1, 2, 0⟩,
    -- an event of another agent has no encoding
    .clockAdvance 0, .stop] : List Instr).all (!·.wf) := by decide

/-- A rejection as a test. -/
def rejectsB {α : Type} (e : Except Reject α) (r : Reject) : Bool :=
  match e with
  | .error x => decide (x = r)
  | .ok _ => false

theorem rejects_of {α : Type} {e : Except Reject α} {r : Reject} (he : rejectsB e r = true) : e = .error r := by
  cases e <;> simp_all [rejectsB]

/-- Words that the decoder rejects, by name: an opcode that no chapter assigns (R17), a set bit in a field that is
not used (R15), a reserved modifier (R172, R176), an odd register of a pair (R10), and a long form in slot 1 (R16). -/
theorem test_rejectedWords :
    decodeNat 0x00C0000000000000 = .error .unassigned ∧ decodeNat 0x3AE0000000000000 = .error .unassigned
      ∧ decodeNat 0x0010000000000001 = .error .unusedField ∧ decodeNat 0x08B00280A0B00018 = .error .reserved
      ∧ decodeNat 0x1800009000A00003 = .error .reserved ∧ decodeNat 0x0A100090A0C00000 = .error .illFormed
      ∧ decodeFetch (0x3800000000000000 * 2 ^ 64) true = .error .longInSlot1 := by
  refine ⟨?_, ?_, ?_, ?_, ?_, ?_, ?_⟩ <;> exact rejects_of (by decide)

/-! ## States for the witnesses -/

/-- One team of 32 lanes at level U on core 1 of die 0, which issues next; its team and part have these numbers. -/
abbrev tm : Nat := 131072
/-- The part of that team. -/
abbrev pt : Nat := 134217728

/-- The state in which that team's kernel has been loaded. -/
def loaded : State := State.reset.withFetchWord 128 0

/-- The same state with the team at the issue latch. -/
def demo : State := loaded.latch pt 16 .single none

/-- Registers of lane 0 set. -/
def withRegs (s : State) (rs : List (Nat × Nat)) : State :=
  rs.foldl (fun (s : State) x => s.putReg tm 0 x.1 x.2) s

/-- The guard p1, true in lane 0 only once v0 holds 2 there. -/
abbrev hp : Hdr := ⟨false, false, 1⟩

/-- `demo` with p1 true in lane 0 and registers of that lane set. -/
def solo (rs : List (Nat × Nat)) : State := withRegs demo ((0, 2) :: rs)

/-- A state with the team's launch changed. -/
def withLaunch (s : State) (f : Launch → Launch) : State := s.modLaunch 1 f

/-- Each instruction issues, is well formed, and has lanes that act. -/
def Ready (s : State) (l : List Instr) : Prop := ∀ i ∈ l, Issues i s ∧ i.wf = true ∧ s.actors i ≠ []

/-- Whether an instruction issues, as a test. -/
def issuesB (s : State) (i : Instr) : Bool :=
  let c := s.opCtx i.hdr
  decide ((s.part c.p).life = .live)
    && (decide (s.issue.half = .second ∧ (s.part c.p).wait = .none)
      || decide (s.decodeTrap c.t i = none ∧ s.parkWait c i = .none ∧ s.bump.poisonRead c i = []
        ∧ s.bump.issueWait c i = .none))

theorem issues_of {s : State} {i : Instr} (hi : issuesB s i = true) : Issues i s := by
  unfold issuesB at hi
  unfold Issues
  simpa only [Bool.and_eq_true, Bool.or_eq_true, decide_eq_true_eq] using hi

theorem ready_of {s : State} {l : List Instr}
    (hl : l.all (fun i => issuesB s i && i.wf && !(s.actors i).isEmpty) = true) : Ready s l := by
  intro i hi
  have := List.all_eq_true.mp hl i hi
  simp only [Bool.and_eq_true, Bool.not_eq_true', List.isEmpty_eq_false_iff] at this
  exact ⟨issues_of this.1.1, this.1.2, this.2⟩

/-- The next state of an outcome. -/
def nextOf (o : Out) : State :=
  match o with
  | .next s => s
  | _ => State.reset

/-- Whether an outcome is a next state. -/
def goesOnB (o : Out) : Bool :=
  match o with
  | .next _ => true
  | _ => false

theorem next_of {o : Out} (ho : goesOnB o = true) : o = .next (nextOf o) := by
  cases o <;> simp_all [goesOnB, nextOf]

/-- A decoded fetch word as a test. -/
def fetchesB (w : Nat) (f : Fetched) : Bool :=
  match decodeFetch w false with
  | .ok x => decide (x = f)
  | .error _ => false

theorem fetches_of {w : Nat} {f : Fetched} (hw : fetchesB w f = true) : decodeFetch w false = .ok f := by
  unfold fetchesB at hw
  cases hx : decodeFetch w false <;> simp_all

/-! ## Witnesses: states and operands that meet the hypotheses of each statement -/

theorem witness_EncodeDecodeRoundTrip : (Instr.iadd hs 9 10 11 .n32 true).isLane = true
    ∧ (Instr.iadd hs 9 10 11 .n32 true).wf = true := by decide

theorem witness_DecodedIsWellFormed : decodeNat 0x0010000000000000 = .ok (.nop h) :=
  test_words_control (0x0010000000000000, .nop h) (by decide)

/-- The clauses of `FetchWordForms` at the edge of the long opcodes. -/
theorem witness_FetchWordForms :
    0x380 ≤ bits (0x380 * 2 ^ 116) 116 10
      ∧ (0x380 ≤ bits (0x780 * 2 ^ 52) 52 10 ∧ bit (0x780 * 2 ^ 52) 62 = true)
      ∧ (let w := 0x77F * 2 ^ 52 + 0x380 * 2 ^ 116
         bits w 52 10 < 0x380 ∧ bit w 62 = true ∧ 0x380 ≤ bits w 116 10)
      ∧ (let w := 0x401 * 2 ^ 52 + 0x77F * 2 ^ 116
         bits w 116 10 < 0x380 ∧ bit w 126 = true ∧ bits w 52 10 < 0x380 ∧ bit w 62 = true)
      ∧ decodeFetch 0x00000001000000003860000000000000 false = .ok (.one (.acrelAll h))
      ∧ (Instr.acrelAll h).isLong = true :=
  ⟨by decide, by decide, by decide, by decide, fetches_of (by decide), by decide⟩

/-- Each clause of `AgendaRuns`; the stop on the tick that it is due. -/
theorem witness_AgendaRuns :
    (let s : State := { State.reset with agenda := [.event (.clockAdvance 3)] }
     s.stopped = false ∧ s.agenda = .event (.clockAdvance 3) :: [] ∧ (Instr.clockAdvance 3).isLane = false)
      ∧ (State.reset.stopped = false ∧ State.reset.agenda = [] ∧ State.reset.stopDue = 0)
      ∧ (let s : State := { State.reset with tick := 7, stopDue := 7 }
         s.stopped = false ∧ s.agenda = [] ∧ s.stopDue ≠ 0 ∧ s.stopDue ≤ s.tick)
      ∧ (let s : State := { State.reset with stopped := true, agenda := [.tick] }
         s.stopped = true ∧ ∀ m ∈ s.agenda, m.actsStopped = false)
      ∧ isArrival .getVersion = true ∧ isArrival (.clockAdvance 3) = false
      ∧ isArrival (.replayRetriesExhausted 0) = true ∧ State.reset.linkFails (.replayRetriesExhausted 0) = true
      ∧ isArrival .getDigests = true ∧ State.reset.linkFails .getDigests = false
      ∧ (let s : State := { State.reset with playing := true, rclog := [(1, .arrival .getDigests), (0, .arrival .getVersion)] }
         (s.tick, .arrival .getVersion) ∈ s.rclog ∧ (s.tick, .arrival .getDigests) ∉ s.rclog ∧ s.rclog ≠ [])
      ∧ (let s : State := { State.reset with recording := true }
         s.recording = true ∧ s.playing = false ∧ s.rclog.length < s.logRoom)
      ∧ (let s : State := { State.reset with tripDue := true }
         s.tripDue = true ∧ s.playing = false) := by decide

/-- A log that has no room left. -/
theorem witness_AgendaRuns_full (n : Nat) :
    let s : State := { State.reset with recording := true, rclog := List.replicate State.reset.logRoom (n, .arrival .getDigests) }
    s.recording = true ∧ s.playing = false ∧ s.logRoom ≤ s.rclog.length := by
  intro s
  exact ⟨rfl, rfl, by simp only [s, List.length_replicate]; exact Nat.le_refl _⟩

/-- What `StepRunsDecodedInstruction` asks of a state, for the word of core 1's next issue. -/
def findsB (s : State) (w : Nat) : Bool :=
  match s.agenda with
  | .issue core busy :: rest =>
    let a : State := { s with agenda := rest }
    let s0 := nextOf ((a.resumeParts (a.corePartIds core)).runSeconds core)
    let off := (s0.part pt).off
    !s.stopped && core < 256 && (core % 64 = 0 || s0.released) && !(s0.core core).issuedNow
      && (s0.core core).slotsLeft = 0 && !(s0.core core).withheld && (s0.core core).trbuf.length < traceBuffer
      && s0.candidates core busy = [pt] && s0.held.isEmpty && (s0.part pt).second.isNone
      && off < (s0.launchAt pt).img.code
      && !((s0.launchAt pt).prologue && 4096 ≤ (s0.launchAt pt).issued)
      && (match (s0.fenceEnds pt).fetchWord pt off with
        | (s1, .word x) => x = w && (s1.part pt).life = .live
        | _ => false)
  | _ => false

/-- A word of one instruction, and a pair, that core 1 finds at the next step. -/
theorem witness_StepRunsDecodedInstruction :
    (let w := encode (.mov h 4 5)
     findsB (State.reset.withFetchWord 128 w) w = true ∧ decodeFetch w false = .ok (.one (.mov h 4 5)))
      ∧ (let w := encode (.mov h 4 5) + 2 ^ 62 + 2 ^ 64 * encode (.mov h 5 4)
         findsB (State.reset.withFetchWord 128 w) w = true
           ∧ decodeFetch w false = .ok (.pair (.mov h 4 5) (.mov h 5 4))
           ∧ pairLegal (.mov h 4 5) (.mov h 5 4) = true) :=
  ⟨⟨by decide, fetches_of (by decide)⟩, by decide, fetches_of (by decide), by decide⟩

/-- The state in which the second half of a pair runs, beside the first half's state `t1`; slot 1's reads draw free values
of their own. -/
def secondOf (s t1 : State) (draw : Nat := 2) : State :=
  let snap : Snap := { regs := s.regs, defs := s.defs, active := s.activeSet pt, ops := (s.part pt).ops
                       ev := (s.core (s.coreOf pt)).ev, fresh := s.fresh + draw }
  { t1 with issue := { t1.issue with half := .second, pre := some snap } }

/-- A swap of two registers, of which neither half stops. -/
theorem witness_PairRunsBothHalves :
    let a := nextOf (demo.runOne pt 16 (.mov h 4 5))
    let b := nextOf (demo.bump.runOne pt 16 (.mov h 5 4))
    (demo.part pt).life = .live ∧ demo.runOne pt 16 (.mov h 4 5) = .next a ∧ demo.bump.runOne pt 16 (.mov h 5 4) = .next b
      ∧ a.waiting pt = false ∧ a.stopClass pt = none ∧ b.waiting pt = false ∧ b.stopClass pt = none
      ∧ demo.pairFull pt 16 (.mov h 4 5) (.mov h 5 4) = false ∧ placedLast (.mov h 5 4) = false
      ∧ demo.slot1First pt (.mov h 4 5) (.mov h 5 4) = false
      ∧ (let t1 := nextOf (exec (.mov h 4 5) (demo.latch pt 16 .first none))
         let u := secondOf demo t1
         exec (.mov h 4 5) (demo.latch pt 16 .first none) = .next t1 ∧ (t1.part t1.issue.part).life = .live
           ∧ u.poisonRead (u.ctx (Instr.mov h 5 4).hdr) (.mov h 5 4) = []) :=
  ⟨by decide, next_of (by decide), next_of (by decide), by decide, by decide, by decide, by decide, by decide, by decide,
    by decide, next_of (by decide), by decide, by decide⟩

/-- Stash management in slot 1 runs first. -/
theorem witness_PairRunsBothHalves_flip :
    let i := Instr.mov h 4 5
    let j := Instr.sflush hp 0 0 true
    let a := nextOf (demo.runOne pt 16 i)
    let b := nextOf (demo.bump.runOne pt 16 j)
    demo.runOne pt 16 i = .next a ∧ demo.bump.runOne pt 16 j = .next b ∧ a.waiting pt = false ∧ a.stopClass pt = none
      ∧ b.waiting pt = false ∧ b.stopClass pt = none ∧ demo.pairFull pt 16 i j = false ∧ demo.slot1First pt i j = true
      ∧ placedLast i = false
      ∧ (let t1 := nextOf (exec j (demo.bump.latch pt 16 .first none))
         let u := secondOf demo t1 1
         exec j (demo.bump.latch pt 16 .first none) = .next t1 ∧ (t1.part t1.issue.part).life = .live
           ∧ u.poisonRead (u.ctx i.hdr) i = []) :=
  ⟨next_of (by decide), next_of (by decide), by decide, by decide, by decide, by decide, by decide, by decide, by decide,
    next_of (by decide), by decide, by decide⟩

theorem witness_MemoryStaysCanonical : State.reset.Canonical ∧ step State.reset = .next (nextOf (step State.reset)) :=
  ⟨reset_canonical, next_of (by decide)⟩

theorem witness_IntegerResults : Ready demo [
    .iadd h 9 10 11 .n32 false, .iadd h 9 10 11 .i32 true, .isub h 9 10 11 .i32 false, .isub h 9 10 11 .n32 true,
    .imul h 9 10 11 .i32 false, .imul h 9 10 11 .n32 true, .imad h 9 10 11 12 .n32 false,
    .imad h 255 10 11 12 .i32 true, .imulh h 9 10 11 .i32, .imadw h 244 10 11 12 .n32] := ready_of (by decide)

theorem witness_AddressArithmetic : Ready demo [
    .lea h 8 10 12 true .s16, .lea h 8 10 12 false .s1, .add64 h 8 10 12 false, .add64 h 8 10 12 true,
    .cmp64 h 40 10 12 .ltu, .cmp64 h 0 10 12 .geu] := ready_of (by decide)

theorem witness_LogicShiftsAndMoves : Ready demo [
    .imin h 9 10 11 .i32, .imax h 9 10 11 .n32, .iabs h 9 10 true, .ineg h 9 10 false, .sel h 9 10 11 ⟨true, 3⟩,
    .mov h 9 10, .movi h 9 5, .movhi h 9 10 5, .shl h 9 10 11, .shr h 9 10 11, .sha h 9 10 11, .rot h 9 10 11 true,
    .fsh h 9 10 11 12 false, .iand h 9 10 11, .ior h 9 10 11, .ixor h 9 10 11, .lop3 h 9 10 11 12 255, .popc h 9 10,
    .clz h 9 10, .ctz h 9 10, .brev h 9 10] := ready_of (by decide)

theorem witness_BitFields : Ready demo [.bfx h 9 10 11 .i32, .bfx h 9 10 11 .n32, .bfi h 9 10 11 12,
    .prmt h 9 10 11 12] := ready_of (by decide)

theorem witness_CarryAddition : Ready demo [.iadc h 9 10 11 0 false, .iadc h 9 10 11 127 true,
    .iadc h 1 10 11 40 false] := ready_of (by decide)

theorem witness_PredicateResults : Ready demo [.icmp h 127 10 11 .i32 .le, .icmp h 0 10 11 .n32 .gt,
    .pbit h 1 ⟨true, 0⟩ ⟨false, 127⟩ .xor, .fcmp h 40 10 11 .nan true] := ready_of (by decide)

theorem witness_FloatResults : Ready demo [
    .fadd h 9 10 11 .f32 .rto true true, .fsub h 9 10 11 .h2 .rne false false, .fmul h 9 10 11 .b2 .rup false false,
    .ffma h 9 10 11 12 .f32 .rdn false true, .fmin h 9 10 11 .f32 true, .fmax h 9 10 11 .h2 false,
    .fclass h 9 10 .f32, .frnd h 9 10 .f32 .rtz false, .fscale h 9 10 11 .f32 .rne true false,
    .fdot2 h 9 10 11 12 .h2 .rne false true, .frcp h 9 10 .f32 .rne false false, .frsq h 9 10 .f32 false false,
    .fsqrt h 9 10 .f32 .rtz false false, .fdiv h 9 10 11 .f32 .rne true false, .fexp2 h 9 10 .f32 false true,
    .flog2 h 9 10 .h2 false false, .fsin h 9 10 .f32 false false, .fcos h 9 10 .f32 false false,
    .ftanh h 9 10 .b2 true false] := ready_of (by decide)

theorem witness_Conversions : Ready demo [
    .cvt h 9 10 .i8 .f32 .rtz false false, .cvt h 8 10 .i64 .n64 .rne true true, .pack h 9 12 .e4m3 .rne true true,
    .unpk h 16 9 .e2m1, .qnt h 20 8 40 .i8 .rne false false, .dqn h 20 9 40 .e5m2 .rne true] := ready_of (by decide)

theorem witness_PlaneWords : Ready demo [.plx h 16 8 2, .plx h 232 8 8, .pli h 16 8 2, .pli h 232 8 8] :=
  ready_of (by decide)

/-- Lane 0 acts alone; its v4 holds label 1, v6 holds 4095, and v5 a label that the kernel does not have. -/
def jumps : State := solo [(4, 1), (5, 2), (6, 4095)]

theorem witness_Departures :
    (jumps.launchAt jumps.issue.part).prologue = false
      ∧ Ready jumps [.go hp 1, .go hp 4095, .gosel hp ⟨false, 3⟩ 1 4095, .goi hp 4, .goi hp 6, .call hp 9 1 1,
          .calli hp 9 4 1, .exit hp, .goi hp 5, .calli hp 9 5 1]
      ∧ (∀ i ∈ [Instr.goi hp 4, .calli hp 9 4 1], ∀ l ∈ jumps.actors i,
          labelValid (jumps.img jumps.issTeam) (bits (jumps.src 0 l 4) 0 12) = true ∧ l ∈ jumps.partLanes pt)
      ∧ (jumps.launchAt jumps.issue.part).level ≠ .h ∧ (jumps.tokens (jumps.trapRing jumps.issTeam)).length < 65535
      ∧ labelValid (jumps.img jumps.issTeam) (bits (jumps.src 0 0 5) 0 12) = false
      ∧ 0 ∈ jumps.actors (.goi hp 5) ∧ 0 ∈ jumps.actors (.calli hp 9 5 1) :=
  ⟨by decide, ready_of (by decide), by decide, by decide, by decide, by decide, by decide, by decide⟩

/-- A persistent kernel. -/
def persistent : State := withLaunch demo fun x => { x with img := { x.img with pers := true } }

/-- A part with one access not yet performed in lane 1, whose lane 0 fences. -/
def fencing : State := (solo []).modPart pt fun x => { x with ops := [{ id := 9, path := .g }] }

theorem witness_PassingInstructions :
    demo.noSampling ∧ Ready demo [.nop h, .beat h, .ipref h 1 3, .waitc h 4 .l, .fence h .die, .pfd h 4 0 .fill,
        .cntq h 9 .g, .fenceSys h]
      ∧ (Ready persistent [.beat h] ∧ (persistent.img persistent.issTeam).pers = true)
      ∧ (demo.img demo.issTeam).pers = false ∧ demo.issue.half ≠ .second
      ∧ (let s := { fencing with undo := [(9 * 1024 + 1, 0, 0)] }
         Ready s [.fenceSys hp] ∧ s.noSampling) :=
  ⟨by unfold State.noSampling; decide, ready_of (by decide), ⟨ready_of (by decide), by decide⟩, by decide, by decide,
    ready_of (by decide), by unfold State.noSampling; decide⟩

theorem witness_ServiceTrapsTaken :
    (demo.launchAt demo.issue.part).level ≠ .h ∧ (demo.tokens (demo.trapRing demo.issTeam)).length < 65535
      ∧ Ready demo [.trap h 5, .brk h 5, .sys h 9 5] ∧ bit (demo.fn (demo.vfOf demo.issTeam)).dbgctl 0 = false
      ∧ demo.participantsOf (.sys h 9 5) ≠ []
      ∧ (let s := demo.modFn 0 fun x => { x with dbgctl := 1 }
         Ready s [.brk h 5] ∧ bit (s.fn (s.vfOf s.issTeam)).dbgctl 0 = true) :=
  ⟨by decide, by decide, ready_of (by decide), by decide, by decide, ready_of (by decide), by decide⟩

/-- The team split in two; the upper half waits at `fuse` with label 1; the lower half is at the latch. -/
def halves : State := nextOf (exec (.split h 9 1) demo)
def meeting : State :=
  (nextOf (exec (.fuse h 9 1) (halves.latch (pt + 16) 16 .single none))).latch pt 16 .single none
/-- The upper half has retired, or has not arrived. -/
def retiredHalf : State := (halves.modPart (pt + 16) fun x => { x with life := .retired }).latch pt 16 .single none
def lonely : State := halves.latch pt 16 .single none
/-- A part as wide as a team can be. -/
def widest : State := demo.modPart pt fun x => { x with width := 1024 }

theorem witness_SplitAndFuse :
    (Ready demo [.split h 9 3, .split h 9 4] ∧ demo.issued.splitCode pt 3 = 0 ∧ demo.issued.splitCode pt 4 = 1
        ∧ demo.issPart.width / 2 ^ 4 < 4 ∧ demo.issPart.fuse = none ∧ demo.issued.sibling pt = none)
      ∧ (Ready widest [.fuse h 9 1, .fuset h 9 1] ∧ widest.issPart.width = 1024)
      ∧ (Ready demo [.fuse h 9 1, .fuset h 9 1] ∧ demo.issPart.width ≠ 1024)
      ∧ (Ready retiredHalf [.fuse h 9 1, .fuset h 9 1] ∧ retiredHalf.issPart.width ≠ 1024
          ∧ retiredHalf.issued.sibling pt = some (pt + 16) ∧ (retiredHalf.issued.part (pt + 16)).life = .retired)
      ∧ (Ready lonely [.fuse h 9 1, .fuset h 9 1] ∧ lonely.issued.sibling pt = some (pt + 16)
          ∧ (lonely.issued.part (pt + 16)).life = .live ∧ (lonely.issued.part (pt + 16)).fuse = none)
      ∧ (Ready meeting [.fuse h 9 1, .fuset h 9 1] ∧ meeting.issPart.width ≠ 1024
          ∧ meeting.issued.sibling pt = some (pt + 16) ∧ (meeting.issued.part (pt + 16)).life ≠ .retired
          ∧ (meeting.issued.part (pt + 16)).fuse = some ⟨1, 9, (List.range 16).map (16 + ·)⟩
          ∧ meeting.issued.meetCode pt (pt + 16) 1 1 = 0) :=
  ⟨⟨ready_of (by decide), by decide⟩, ⟨ready_of (by decide), by decide⟩, ⟨ready_of (by decide), by decide⟩,
    ⟨ready_of (by decide), by decide⟩, ⟨ready_of (by decide), by decide⟩, ready_of (by decide), by decide⟩

theorem witness_Shuffles : Ready demo [.shuf h 9 4 5 .up false .sg4, .shuf h 8 4 5 .xor true .sgd,
    .shufImm h 9 4 255 .down false .sg1024, .shufImm h 8 4 0 .idx true .sg8] := ready_of (by decide)

theorem witness_QuadExchanges : Ready demo [.qswap h 9 4 .h false, .qswap h 8 4 .d true, .qbc h 9 4 3 false,
    .qbc h 8 4 0 true] := ready_of (by decide)

theorem witness_VotesAndBallots : Ready demo [.vote h 40 ⟨true, 3⟩ .uni .sgd, .vote h 0 ⟨false, 0⟩ .all .sg4,
    .elect h 127 .sg16, .ballot h 9 ⟨false, 3⟩ .sgd, .ballotWord h 9 ⟨false, 3⟩ 5 .sg1024, .matchAny h 9 4 false .sgd,
    .matchAll h 9 4 40 false .sg32, .matchAll h 8 4 0 true .sg8] := ready_of (by decide)

theorem witness_ReductionsAndScans : Ready demo [.ired h 9 4 .min .i32 .sgd, .fred h 9 4 .add true .sg8,
    .iscan h 9 4 .xor .n32 true .sg16, .fscan h 9 4 .max false false .sg4] := ready_of (by decide)

theorem witness_SourcesRead : Ready demo ([.lane, .quad, .team, .part, .block, .cluster, .width, .wl, .sweeps,
    .core, .die, .blane, .help, .nblk, .ev0, .ev1, .ev2, .ev3, .ev4, .ev5, .ev6, .ev7, .launch, .tick].map
      (Instr.sread h 8 ·)) := ready_of (by decide)

/-! ## Memory -/

/-- Lane 0 acts alone, with the address `a` in v4 and v5; its core holds the page's translation, and the block has
mapped a stash range over part of the page. -/
def access (a : Nat) : State :=
  (((solo [(4, a), (8, 7), (9, 3)]).modLaunch 1 fun x => { x with img := { x.img with stash := 0x4000 } }).modCore 1 fun c =>
    { c with tlb := [loadedPage false] }).modBlock 16 fun b => { b with ranges := [⟨0x18000, 0x1000, 0⟩] }

/-- The accesses at 0x18400, which lies in the range. -/
def accesses : List (Instr × Path) := [(.ld hp 9 4 0 .i32 .global false .keep, .g),
  (.st hp 8 4 0 .i64 .global false .keep, .g), (.atom hp 9 4 8 0 .add .i32 .rne .global .acqrel, .g),
  (.red hp 4 8 .max .i32 .rne .global .plain, .g), (.ld hp 8 4 0 .w4 .stash false .keep, .s),
  (.ldft hp 9 4 10 false .x1, .s)]

/-- What the first half of `LaneAccesses` asks beside that the instruction issues, as a test. -/
def performsB (s : State) (i : Instr) : Bool :=
  !((s.requestsOf i).any fun r => !s.isHelper s.issTeam r.lane && s.issued.misaligned (s.issued.who s.issue.part) r.acc)
    && (s.issued.probe (s.opCtx i.hdr) (s.issued.who s.issue.part) (s.requestsOf i)).2.isEmpty
    && (match i with
      | .ldft h _ a b _ _ => !s.issued.ftMisaligned (s.opCtx h) a b
      | _ => true)

theorem performs_of {s : State} {i : Instr} (hi : performsB s i = true) : ¬s.badAlignment i
    ∧ (s.issued.probe (s.opCtx i.hdr) (s.issued.who s.issue.part) (s.requestsOf i)).2 = [] := by
  unfold performsB at hi
  simp only [Bool.and_eq_true, Bool.not_eq_true', List.any_eq_false, List.isEmpty_iff] at hi
  refine ⟨?_, hi.1.2⟩
  rintro (⟨r, hr, h1, h2⟩ | h3)
  · have := hi.1.1 r hr
    simp [h1, h2] at this
  · revert h3
    have h4 := hi.2
    split <;> simp_all

/-- An aligned access of each kind that no lane's translation stops; an `ldft` whose pitch, and one whose base, is no
multiple of 4; and a misaligned atomic. -/
theorem witness_LaneAccesses :
    ((access 0x18400).noSampling ∧ Ready (access 0x18400) (accesses.map (·.1))
        ∧ ∀ x ∈ accesses, Instr.isLaneAccess x.1 = true ∧ raises x.1 = some x.2 ∧ ¬(access 0x18400).badAlignment x.1
          ∧ ((access 0x18400).issued.probe ((access 0x18400).opCtx x.1.hdr) ((access 0x18400).issued.who pt)
              ((access 0x18400).requestsOf x.1)).2 = [])
      ∧ (Ready (access 0x18400) [.ldft hp 9 4 9 false .x1]
          ∧ (access 0x18400).badAlignment (.ldft hp 9 4 9 false .x1))
      ∧ (Ready (access 0x18401) [.red hp 4 8 .max .i32 .rne .global .plain]
          ∧ (access 0x18401).badAlignment (.red hp 4 8 .max .i32 .rne .global .plain)
          ∧ ((access 0x18401).launchAt pt).level ≠ .h
          ∧ ((access 0x18401).tokens ((access 0x18401).trapRing tm)).length < 65535) := by
  have hp : ∀ x ∈ accesses, Instr.isLaneAccess x.1 = true ∧ raises x.1 = some x.2
      ∧ performsB (access 0x18400) x.1 = true := by decide
  refine ⟨⟨by unfold State.noSampling; decide, ready_of (by decide), fun x hx => ?_⟩,
    ⟨ready_of (by decide), .inr (by decide)⟩, ready_of (by decide), .inl ?_, by decide, by decide⟩
  · exact ⟨(hp x hx).1, (hp x hx).2.1, performs_of (hp x hx).2.2⟩
  · decide

/-- `HomeAccess` as a test, for the translation of the loaded page. -/
def homeB (s : State) (i : Instr) (l : Nat) (a : Access) (pa : Nat) : Bool :=
  let e := loadedPage false
  let w := s.who s.issue.part
  issuesB s i && bits s.smpctl 0 16 = 0 && s.actors i = [l] && !s.isHelper s.issTeam l && s.held.isEmpty
    && s.commits.isEmpty && s.defs.isEmpty && a.sp = .global && a.ea % a.n = 0 && a.ea < 2 ^ 56
    && decide (if w.lvl = .h then e = physTlb w a.ea
      else (s.core w.core).tlb.find? (fun x => x.hits w.vf w.spid (bit (s.fn w.vf).h2root 0) a.ea) = some e)
    && s.violation e a.ea a.kind.num w.lvl (decide (w.master = 4)) = none
    && pa = e.pa + a.ea % 2 ^ e.lg && pa % a.n = 0 && paKind pa = .hbm && s.locks.get 0 (lockKey (pa / 64)) = 0
    && s.guest.secs.isEmpty && s.owners.get 0 (pa / 64) = 0

theorem home_of {s : State} {i : Instr} {l : Nat} {a : Access} {pa : Nat} (ha : homeB s i l a pa = true) :
    HomeAccess s i l a pa := by
  unfold homeB at ha
  simp only [Bool.and_eq_true, Bool.not_eq_true', decide_eq_true_eq, List.isEmpty_iff] at ha
  obtain ⟨⟨⟨⟨⟨⟨⟨⟨⟨⟨⟨⟨⟨⟨⟨⟨⟨h1, h2⟩, h3⟩, h4⟩, h5⟩, h6⟩, h0⟩, h7⟩, h8⟩, h9⟩, h10⟩, h11⟩, h12⟩, h13⟩, h14⟩, h15⟩, h16⟩, h17⟩ := ha
  exact ⟨issues_of h1, h2, h3, h4, by simp [h5], by simp [h6], by simp [h0], h7, h8,
    ⟨loadedPage false, ⟨h9, h10, h11, rfl, rfl⟩, rfl, h12⟩, h13, h14, h15, by simp [h16], h17⟩

/-- Core 1 also holds a leased copy of the sector at 0x10400, whose lease has not run out, or has. -/
def leased (rts : Nat) : State :=
  { access 0x10400 with l1 := [(260, [⟨0x104, [(1040, ⟨0x1234, 0, rts, 0⟩)]⟩])] }

theorem witness_HomeLoadsAndStores :
    (∀ s ∈ [access 0x10400, leased 0],
      (Instr.ld hp 9 4 8 .n8 .global true .stream).wf = true
        ∧ HomeAccess s (.ld hp 9 4 8 .n8 .global true .stream) 0
          { kind := .load, sp := .global, ea := effAddr (s.src64 0 0 4) 8, n := 1, sz := .n8, ca := .stream } 0x10408)
      ∧ ((leased 0).l1Copy 1 (0x10408 / 64)).isSome = true
      ∧ (Instr.st hp 8 4 0 .w4 .global true .keep).wf = true
      ∧ HomeAccess (access 0x10400) (.st hp 8 4 0 .w4 .global true .keep) 0
          { kind := .store, sp := .global, ea := effAddr ((access 0x10400).src64 0 0 4) 0, n := 16
            data := joinWords ((List.range 4).map fun k => (access 0x10400).src (8 + k) 0 (8 + k)) } 0x10400 := by
  refine ⟨fun s hs => ⟨by decide, ?_⟩, by decide, by decide, home_of (by decide)⟩
  simp only [List.mem_cons, List.not_mem_nil, or_false] at hs
  rcases hs with rfl | rfl <;> exact home_of (by decide)

/-- A store held by a locked sector, beside which the second half waits. -/
theorem witness_PairRunsBothHalves_held :
    let s : State := { (access 0x10400).modLaunch 1 fun x => { x with level := .s } with locks := [(lockKey 1040, 9)] }
    let i := Instr.st hp 8 4 0 .w4 .global false .keep
    let j := Instr.csrr hp 12 0x007 0
    let a := nextOf (s.runOne pt 16 i)
    let b := nextOf (s.bump.runOne pt 16 j)
    s.runOne pt 16 i = .next a ∧ s.bump.runOne pt 16 j = .next b ∧ a.waiting pt = false ∧ a.stopClass pt = none
      ∧ b.waiting pt = false ∧ b.stopClass pt = none ∧ s.pairFull pt 16 i j = false ∧ placedLast j = true
      ∧ s.slot1First pt i j = false
      ∧ (let t1 := nextOf (exec i (s.latch pt 16 .first none))
         let u := secondOf s t1
         t1.accessOut pt = true ∧ (t1.part t1.issue.part).life = .live ∧ u.poisonRead (u.ctx j.hdr) j = []) :=
  ⟨next_of (by decide), next_of (by decide), by decide, by decide, by decide, by decide, by decide, by decide, by decide,
    by decide⟩

/-- An atomic that writes, a compare that fails, and a reduction. -/
theorem witness_AtomicAtHome :
    let s := access 0x10400
    ((Instr.atom hp 9 4 8 0 .add .i32 .rne .global .acqrel).wf = true
        ∧ HomeAccess s (.atom hp 9 4 8 0 .add .i32 .rne .global .acqrel) 0
          { kind := .atom, sp := .global, ea := s.src64 0 0 4, n := 4, data := s.src 8 0 8, aop := .add, aty := .i32 }
          0x10400)
      ∧ (HomeAccess s (.atom hp 10 4 8 8 .cas .i64 .rne .global .plain) 0
          { kind := .atom, sp := .global, ea := s.src64 0 0 4, n := 8
            data := joinWords ((List.range 2).map fun k => s.src (8 + k) 0 (8 + k)), aop := .cas, aty := .i64
            cmp := joinWords ((List.range 2).map fun k => s.src (12 + k) 0 (8 + k)) } 0x10400
        ∧ (s.getBytes 0x10400 8).1 ≠ joinWords ((List.range 2).map fun k => s.src (12 + k) 0 (8 + k)))
      ∧ HomeAccess s (.red hp 4 8 .max .i32 .rne .global .plain) 0
          { kind := .atom, sp := .global, ea := s.src64 0 0 4, n := 4, data := s.src 8 0 8, aop := .max, aty := .i32 }
          0x10400 :=
  ⟨⟨by decide, home_of (by decide)⟩, ⟨home_of (by decide), by decide⟩, home_of (by decide)⟩

theorem witness_GatherAndScatter :
    let s := access 0x10400
    s.noSampling ∧ s.issued.elems (s.opCtx hp) 4 8 .ix16 true .s4 = [(0, 0x1041C)]
      ∧ 0x1041C % Sz.bytes .i32 = 0
      ∧ Ready s [.ldg hp 9 4 8 .block .i32 .ix16 true .s4 false .acqrel,
          .stg hp 9 4 8 .device .i32 .ix16 true .s4 true .plain] :=
  ⟨by unfold State.noSampling; decide, by decide, by decide, ready_of (by decide)⟩

/-- No lane to act, and an element that is not aligned. -/
theorem witness_GatherAndScatter_stops :
    let s := access 0x10401
    (s.issued.elems (s.opCtx hp) 4 8 .ix16 true .s4).all (fun x => x.2 % Sz.bytes .i32 ≠ 0) = true
      ∧ (s.launchAt s.issue.part).level ≠ .h ∧ (s.tokens (s.trapRing s.issTeam)).length < 65535
      ∧ s.participantsOf (.ldg ⟨false, false, 2⟩ 9 4 8 .block .i32 .ix16 true .s4 false .plain) = [] := by decide

/-- A new range of no reason against it, a range that overlaps one, and the range that is there. -/
theorem witness_StashRanges :
    (let s := access 0x19000
     let s' := withRegs s [(6, 0x1000), (7, 0x2000)]
     s'.noSampling ∧ Ready s' [.smap hp 9 4 6 7, .sunmap hp 9 4, .sflush hp 4 6 false, .sdrop hp 4 6 false, .sflush hp 0 0 true]
       ∧ (s'.actors (.smap hp 9 4 6 7)).head? = some 0
       ∧ smapStatus (s'.block 16) 0x4000 (s'.src64 0 0 4) (s'.src 2 0 6) (s'.src 4 0 7) = 0)
      ∧ (let s := withRegs (access 0x18000) [(6, 0x1000), (7, 0x2000)]
         Ready s [.smap hp 9 4 6 7, .sunmap hp 9 4]
           ∧ smapStatus (s.block 16) 0x4000 (s.src64 0 0 4) (s.src 2 0 6) (s.src 4 0 7) ≠ 0
           ∧ (s.block 16).ranges.any (fun r => r.base = s.src64 0 0 4) = true) :=
  ⟨⟨by unfold State.noSampling; decide, ready_of (by decide), by decide, by decide⟩, ready_of (by decide), by decide,
    by decide⟩

/-- The barrier instructions; and tokens that are equal, one behind, and half of 2^32 apart. -/
theorem witness_BarrierInstructions :
    demo.noSampling ∧ Ready demo [.bar h ⟨false, 0⟩ 1, .barr h 9 ⟨true, 15⟩, .barw h 9 ⟨false, 15⟩ 1,
        .barinit h 9 ⟨true, 0⟩]
      ∧ (demo.actors (.barinit h 9 ⟨true, 0⟩)).head? = some 0
      ∧ tokenPending (demo.bar (barKey demo.issTeam ⟨false, 15⟩)).ph (demo.src 0 0 9) = true
      ∧ (let s := withRegs demo [(9, 0xFFFFFFFF)]
         tokenPending (s.bar (barKey s.issTeam ⟨false, 15⟩)).ph (s.src 0 0 9) = false)
      ∧ (2 ^ 32 - 1 < 2 ^ 32 ∧ 2 ^ 31 ≤ (0 + 2 ^ 32 - 2 ^ 31) % 2 ^ 32) :=
  ⟨by unfold State.noSampling; decide, ready_of (by decide), by decide, by decide, by decide, by decide⟩

/-! ## Engines and system -/

theorem witness_CopiesPosted :
    let s := solo [(9, 64), (20, 3), (22, 8)]
    Ready s [.cpy hp 24 16 (.imm 1) ⟨.global, .const, .plain, .device, none, .keep⟩,
        .cpy hp 24 16 (.reg 9) ⟨.cstash, .stash, .acqrel, .system, some ⟨true, 15⟩, .noalloc⟩,
        .cpyg hp 24 16 16 false ⟨.stash, .global, .plain, .device, some ⟨false, 0⟩, .keep⟩,
        .cpyg hp 24 16 16 true ⟨.global, .global, .plain, .device, none, .keep⟩]
      ∧ s.posterOf (.cpy hp 24 16 (.imm 1) ⟨.global, .const, .plain, .device, none, .keep⟩) = some 0
      ∧ s.src 4 0 9 ≠ 0 ∧ s.src 6 0 20 = 3 ∧ s.src 8 0 22 = 8 ∧ (16 : BitVec 32).toNat ≠ 0 ∧ s.src64 4 0 18 % 4 = 0 :=
  ⟨ready_of (by decide), by decide, by decide, by decide, by decide, by decide, by decide⟩

/-- The team is the prologue of node 2 of queue 0, in its run `runs` of a bound of 3. -/
def staging (runs : Nat) : State :=
  ((solo []).modLaunch 1 fun x => { x with prologue := true, level := .s, node := some (0, 2) }).modQueue 0 fun q =>
    { q with nodes := [(2, { st := .running, launch := 7, runs := runs, raw := 3 * 2 ^ 48 })] }

theorem witness_PrologueStages :
    (staging 3).noSampling ∧ ((staging 3).launchAt pt).node = some (0, 2) ∧ ((staging 3).node 0 2).cancel = false
      ∧ Ready (staging 3) [.plset hp 9 0x400, .plset hp 9 0x401, .plset hp 9 0x402, .plset hp 9 0x403, .plcan hp, .plrep hp 9]
      ∧ (staging 3).posterOf (.plset hp 9 0x400) = some 0
      ∧ bits ((staging 3).node 0 2).raw 48 16 ≤ ((staging 3).node 0 2).runs
      ∧ Ready (staging 2) [.plrep hp 9] ∧ ¬bits ((staging 2).node 0 2).raw 48 16 ≤ ((staging 2).node 0 2).runs :=
  ⟨by unfold State.noSampling; decide, by decide, by decide, ready_of (by decide), by decide, by decide,
    ready_of (by decide), by decide⟩

/-- Bytes of a number put into memory. -/
def withBytes (s : State) (a n x : Nat) : State :=
  { s with mem := (leBytes n x).zipIdx.foldl (fun (m : FMap Byte) b => m.set 0 (a + b.2) b.1) s.mem }

/-- The header of an image of one label and 16 bytes of code (R12). -/
def header : Nat := 0x485A4E33 + 3 * 2 ^ 32 + 5 * 2 ^ 64 + 2 ^ 80 + 32 * 2 ^ 96 + 2 ^ 112 + 2 ^ 160 + 16 * 2 ^ 192
  + 64 * 2 ^ 224 + 80 * 2 ^ 384

/-- The poster's group from v16 up names an image at 0x14000; its function's space table lies at 0x20000.
The function fills no L2 ways, so that no read of the witness depends on the L2 set, which the spec leaves open. -/
def parent (clusters : Nat) (head : Nat) : State :=
  withBytes (withBytes ((withRegs (access 0) [(16, 0x14000), (18, 0x14000), (20, clusters)]).modFn 0 fun f =>
    { f with sptbl := 0x20001, l2waym := 0 }) 0x14000 64 head) 0x20000 8 0x30001

/-- The outcome of reading an image. -/
def gotOf {α : Type} (g : Got α) (d : α) : α :=
  match g with
  | .ok x => x
  | _ => d

/-- What `ChildLaunches` asks of the reads, as a test: the status code, and whether the space still stands. -/
def childB (s : State) (code : Nat) : Bool :=
  let c := s.opCtx hp
  let x := s.issued.childOf c 0 16
  let w := s.issued.who s.issue.part
  match s.issued.readImage w x.image x.paramAt with
  | (s1, .ok im) => s1.launchCode c x im = code && (code ≠ 0 || im.isSome && (match s1.acceptSpace w x with
      | (_, .ok (some _)) => true
      | _ => false))
  | _ => false

/-- A child that is accepted, one with no clusters, and one with no image. -/
theorem witness_ChildLaunches :
    (∀ s ∈ [parent 1 header, parent 0 header, parent 1 0],
        s.noSampling ∧ Ready s [.launch hp 9 16] ∧ s.posterOf (.launch hp 9 16) = some 0)
      ∧ childB (parent 1 header) 0 = true ∧ childB (parent 0 header) 4 = true ∧ childB (parent 1 0) 1 = true := by
  refine ⟨fun s hs => ?_, by decide +kernel, by decide +kernel, by decide +kernel⟩
  simp only [List.mem_cons, List.not_mem_nil, or_false] at hs
  rcases hs with rfl | rfl | rfl <;> exact ⟨by unfold State.noSampling; decide, ready_of (by decide), by decide⟩

/-- Register tiles, and descriptors in memory: the poster's groups at v16 and v20. -/
theorem witness_MatrixEntries :
    let s := solo [(16, 0x1000), (18, 64), (20, 0x2000), (22, 128), (23, 32 + 4 * 2 ^ 16)]
    let o : MmaOps := ⟨20, 0, 30, .i8, .bp, true, true, false, true, false, 0, 4, .on, true, true, .block, .stream⟩
    Ready s [.mma hp 0 32 tiles, .mma hp 15 16 o, .mmap hp 3 16 { o with ka := 0 }, .had hp 64 128 .n16 .n64 true,
        .acstat hp 9 15 true]
      ∧ s.posterOf (.mma hp 15 16 o) = some 0 ∧ s.issued.tagKind pt 15 = none
      ∧ (let da := s.issued.readDesc (s.opCtx hp) 0 0 16
         let db := s.issued.readDesc (s.opCtx hp) 0 10 20
         da.misaligned o.ta = false ∧ da.bad o.ta o.ka.val = false ∧ db.misaligned o.tb = false
           ∧ db.bad o.tb o.kb.val = false) :=
  ⟨ready_of (by decide), by decide, by decide, by decide⟩

theorem witness_AccumulatorEntries :
    let s := solo [(4, 0x1004), (9, 128)]
    Ready s [.acz hp 5 true, .acz hp 5 false, .acrel hp 5, .acrelAll hp, .acld hp 5 4 (.mem 9 .cstash true .team .keep) true,
        .acld hp 5 32 .reg false, .acst hp 5 4 (.mem 9 .global false .device .noalloc), .acst hp 5 32 .reg]
      ∧ s.posterOf (.acrelAll hp) = some 0 ∧ s.issued.tagKind pt 5 = none ∧ s.src64 0 0 4 % 4 = 0 ∧ s.src 2 0 9 % 4 = 0 :=
  ⟨ready_of (by decide), by decide, by decide, by decide, by decide⟩

/-- Slot 1 of a traversal with only an enter label; it ends at `exit`. -/
def walk : TravOps := ⟨1, 0, 12, 0, 4095, true, .cluster, false, .keep⟩

/-- Nodes of 32 bytes with two children of 4 bytes at offset 8, to a depth of 4. -/
def walking : State := solo [(4, 0x1000), (6, 1 + 8 * 2 ^ 8 + 2 * 2 ^ 17), (7, 4)]

theorem witness_TraversalsStart :
    Ready walking [.trav hp 16 4 walk, .tres hp 16 4 walk] ∧ walking.posterOf (.trav hp 16 4 walk) = some 0
      ∧ walking.issued.travBad (walking.opCtx hp) (travParams walk 16 (walking.src 2 0 6) (bits (walking.src 3 0 7) 0 6)) = false
      ∧ ∀ l ∈ walking.participantsOf (.trav hp 16 4 walk), walking.src64 0 l 4 % 16 = 0 :=
  ⟨ready_of (by decide), by decide, by decide, by decide⟩

/-- Lane 0 has been released after a node of kind `kind`, with one frame on its stack. -/
def released (kind : Nat) : State :=
  (walking.modPart pt fun x => { x with trav := some (travParams walk 16 (1 + 8 * 2 ^ 8 + 2 * 2 ^ 17) 4) }).modLane
    (laneId tm 0) fun y => { y with inTrav := true, lastKind := kind, frames := [{ node := 0x1000, pend := 3 }] }

theorem witness_TraversalsGoOn :
    (∀ k ∈ [0, 1, 2], ((released k).issPart.trav).isSome = true
        ∧ (released k).participantsOf (.tretStop hp true .team) = [0]
        ∧ ((released k).lane (laneId tm 0)).inTrav = true ∧ ((released k).lane (laneId tm 0)).lastKind = k
        ∧ ((released k).lane (laneId tm 0)).frames ≠ [])
      ∧ Ready (released 0) [.tretDesc hp 9 true false .device, .tretSkip hp false .device, .tretStop hp true .team]
      ∧ Ready (released 1) [.tretCont hp true .system, .tretStop hp false .device, .tretDesc hp 9 false false .device]
      ∧ Ready (released 2) [.tretCont hp false .device] ∧ ((released 0).launchAt pt).prologue = false
      ∧ ((released 1).launchAt pt).level ≠ .h ∧ ((released 1).tokens ((released 1).trapRing tm)).length < 65535
      ∧ Ready (released 0) [.tcut hp 9 4 ⟨true, true, .block, some ⟨false, 1⟩, .keep⟩, .tstat hp 10 9]
      ∧ (∀ l ∈ (released 0).participantsOf (.tcut hp 9 4 ⟨true, true, .block, some ⟨false, 1⟩, .keep⟩),
          (released 0).src 4 l 9 < ((released 0).lane (laneId tm l)).frames.length ∧ (released 0).src64 0 l 4 % 16 = 0) :=
  ⟨by decide, ready_of (by decide), ready_of (by decide), ready_of (by decide), by decide, by decide, by decide,
    ready_of (by decide), by decide⟩

/-- The guest port, with queue 5 bound to function 0 for 4 packets. -/
def guested (up : Bool) : State :=
  { solo [(9, 5)] with guest := { up := up, queues := [(5, { gqb := 1 + 2 * 2 ^ 7 })] } }

theorem witness_GuestPackets :
    (∀ u ∈ [false, true], Ready (guested u) [.gpost hp 10 16 9 .rel .block, .gpoll hp 10 9]
        ∧ (guested u).posterOf (.gpost hp 10 16 9 .rel .block) = some 0)
      ∧ (guested false).postStatus 5 0 0 ≠ 0 ∧ (guested true).postStatus 5 0 0 = 0
      ∧ bits ((guested true).src 0 0 9) 0 6 = 5 := by
  refine ⟨fun u hu => ?_, by decide, by decide, by decide⟩
  simp only [List.mem_cons, List.not_mem_nil, or_false] at hu
  rcases hu with rfl | rfl <;> exact ⟨ready_of (by decide), by decide⟩

/-- The team at another level. -/
def atLevel (lvl : Level) (rs : List (Nat × Nat)) : State := (solo rs).modLaunch 1 fun x => { x with level := lvl }

/-- The first team has made a system call and waits with token 1; a second team, at level S, holds `k` in v4. -/
def served (k : Nat) : State :=
  let s := (nextOf (exec (.sys h 9 5) demo)).withFetchWord 128 0
  let s := (s.modLaunch 4 fun x => { x with level := .s }).latch 335544320 16 .single none
  (s.putReg 327680 0 0 2).putReg 327680 0 4 k

/-- A token that no trap has, an action that a system call does not accept, and one that it does. -/
theorem witness_TrapsResolved :
    (∀ k ∈ [1, 2], (served k).posterOf (.eretAgain hp 9 4 6) = some 0 ∧ bits ((served k).src 0 0 4) 0 16 = k)
      ∧ Ready (served 1) [.eretAgain hp 9 4 6, .eretNext hp 9 4 6, .eretZero hp 9 4 6, .eretKill hp 9 4 6]
      ∧ Ready (served 2) [.eretAgain hp 9 4 6, .eretNext hp 9 4 6, .eretZero hp 9 4 6, .eretKill hp 9 4 6]
      ∧ (served 2).issued.ownedTrap .s 0 2 = none ∧ (served 1).issued.ownedTrap .s 0 1 = some (pt, 10)
      ∧ accepts 10 0 = false ∧ accepts 10 1 = true
      ∧ ((served 1).part pt).susp.isSome = true :=
  ⟨by decide, ready_of (by decide), ready_of (by decide), by decide, by decide, by decide, by decide, by decide⟩

theorem witness_ControlRegisters :
    (Ready (atLevel .s []) [.csrr hp 10 0x000 0, .csrw hp 4 0x000 0, .csrw hp 4 0x088 0, .csrw hp 4 0x007 0,
          .csrr hp 10 0x007 0]
        ∧ (atLevel .s []).levelOf tm = .s ∧ csrSWrites 0x088 = false
        ∧ (atLevel .s []).posterOf (.csrr hp 10 0x000 0) = some 0)
      ∧ (Ready (atLevel .h [(4, 0x7000)]) [.csrr hp 10 0x310 63, .csrw hp 4 0x088 0, .csrw hp 4 0x007 63, .csrw hp 4 0x000 63]
          ∧ (atLevel .h [(4, 0x7000)]).levelOf tm = .h ∧ (atLevel .h [(4, 0x7000)]).posterOf (.csrw hp 4 0x088 0) = some 0)
      ∧ (atLevel .u []).levelOf tm = .u :=
  ⟨⟨ready_of (by decide), by decide, by decide, by decide⟩, ⟨ready_of (by decide), by decide, by decide⟩, by decide⟩

/-- Ranges of no page and of one, at S; and the variant of level H. -/
theorem witness_TranslationsInvalidated :
    (let s := atLevel .s [(4, 0x10000), (10, 1)]
     Ready s [.tinvVa hp ⟨4, 8, 10, 0⟩, .tinvSp hp ⟨4, 8, 10, 0⟩, .tinvFn hp ⟨4, 8, 10, 0⟩, .tinvVa hp ⟨4, 8, 11, 0⟩]
       ∧ s.posterOf (.tinvVa hp ⟨4, 8, 10, 0⟩) = some 0 ∧ s.issPart.ack = 0 ∧ s.commits = [] ∧ s.guest.xlats = []
       ∧ s.src 3 0 10 ≠ 0 ∧ s.src 3 0 11 = 0)
      ∧ (let s := atLevel .h []
         Ready s [.tinvIpa hp ⟨4, 8, 10, 63⟩] ∧ s.posterOf (.tinvIpa hp ⟨4, 8, 10, 63⟩) = some 0 ∧ s.issPart.ack = 0
           ∧ s.commits = [] ∧ s.guest.xlats = []) :=
  ⟨⟨ready_of (by decide), by decide⟩, ready_of (by decide), by decide⟩

/-- Marks off, and on with a ring of 2^10 records at 0x7000. -/
theorem witness_TraceMarks :
    (Ready demo [.tmark h 9 5] ∧ demo.posterOf (.tmark h 9 5) = some 0 ∧ demo.tick < 2 ^ 64
        ∧ bit (demo.die 0).trctl 1 = false)
      ∧ (let s := demo.modDie 0 fun d => { d with trctl := 3 + 10 * 2 ^ 4 + 0x7000 }
         Ready s [.tmark h 9 5] ∧ s.posterOf (.tmark h 9 5) = some 0 ∧ bit (s.die 0).trctl 1 = true
           ∧ traceSize (s.die 0).trctl ≠ 0
           ∧ ((s.modCore 1 fun c => { c with trbuf := [7] }).core 1).trbuf = [7]) :=
  ⟨⟨ready_of (by decide), by decide⟩, ready_of (by decide), by decide⟩

/-- A register that the kernel has not declared, and an instruction above level U. -/
theorem witness_DecodeTraps :
    demo.issPart.life = .live ∧ demo.issue.half ≠ .second ∧ demo.decodeTrap tm (.mov h 250 4) = some 1
      ∧ demo.decodeTrap tm (.csrw h 4 0x000 0) = some 8 ∧ (demo.launchAt pt).level ≠ .h
      ∧ (demo.tokens (demo.trapRing tm)).length < 65535 := by decide

/-! ## Events -/

/-- Whether a result of a translation is one. -/
def resB {α : Type} (r : Res α) : Bool :=
  match r with
  | .ok _ => true
  | .stop _ => false

/-- A deferred result of lane 0 with a value, a path operation with nothing left, and a fill. -/
def landing : State :=
  { demo.modPart pt (fun x => { x with ops := [{ id := 9, path := .s }], wait := .fetch }) with
    defs := [{ id := 5, team := tm, lane := 0, reg := 9, mask := 0xFFFF, val := some 7, group := 6 }]
    fills := [{ id := 8, part := pt, off := 0, pf := false }] }

/-- The lower half's lanes have exited; the upper half goes on. -/
def exited : State := nextOf (exec (.exit h) (halves.latch pt 16 .single none))

theorem witness_ArrivalsAndFills :
    (landing.defs.filter (fun e => e.group = 6) = landing.defs ∧ landing.defs.length = 1
        ∧ (∀ d ∈ landing.defs, d.val.isSome = true ∧ (landing.clusterOfTeam d.team).st = .resident ∧ d.flags = 0))
      ∧ (landing.opPart 9 = some (pt, { id := 9, path := .s }) ∧ landing.resident pt = true ∧ landing.opDone 9 = true)
      ∧ (exited.mayRetire pt = true ∧ ((exited.noteEnd pt).retirePart pt).blockDone 16 = false)
      ∧ (landing.fills.find? (fun x => x.id = 8) = some ⟨8, pt, 0, false, 0, false⟩ ∧ (landing.part pt).life = .live
          ∧ (match ({ landing with fills := landing.fills.filter fun x => x.id ≠ 8 }).resolve (landing.who pt) kFetch
                ((landing.launchAt pt).codeVa 0) with
            | (s1, .ok e) =>
              let pa := e.phys (dieOf (landing.coreOf pt)) ((landing.launchAt pt).codeVa 0)
              !s1.leafBusy e && !s1.busySec (pa / 128 * 128) && !s1.busySec (pa / 128 * 128 + 64)
            | _ => false) = true) := by decide

/-- A recorded access of lane 0: to memory at 0x10400, or to the mapped stash range. -/
def recorded (sp : Space) (a : Nat) : State :=
  { access a with held := [{ id := 9, core := 1, part := pt, team := tm, lane := 0, op := 3, res := 4, seq := 9, report := 0
                             acc := { kind := .load, sp := sp, ea := a, n := 4 } }] }

/-- Whether a recorded access, and those that go with it, find their places and none has to wait. -/
def placedB (s : State) : Bool :=
  s.held.all fun h => s.resident h.part && (s.part h.part).life ≠ .frozen
    && (s.together h).all (fun k => k.report = 0 && !s.laneHeld k.team k.lane k.id)
    && (match s.replayPlaces (s.who h.part) (s.together h) with
      | (_, none, wait, xs) => !wait && xs.any fun x => x.1 = h
      | _ => false)

/-- A report that waits for the ring of function 0, whose 16 entries lie at 0x7000; the tail stands at `tail`. -/
def reporting (tail : Nat) : State :=
  { demo.modFn 0 (fun x => { x with fq := { base := 1 + 4 * 2 + 0x7000, head := 0, tail := tail } }) with
    reports := [{ id := 5, die := 0, ring := 0, key := [0], token := 1, record := 0x1234 }] }

/-- The block's stash owns the sector at 0x10400, dirty. -/
def owning : State :=
  { demo.modBlock 16 (fun b => { b with secs := [(1540, { st := .dirty, pa := 0x10400, data := 7, dirty := 1 })] }) with
    owners := [(0x10400 / 64, 17)] }

theorem witness_FaultsAndRecalls :
    (placedB (recorded .global 0x10400) = true ∧ (recorded .global 0x10400).held.length = 1
        ∧ placedB (recorded .stash 0x18400) = true
        ∧ (recorded .stash 0x18400).held.all (fun x => heldSector 16 (0x18400 / 64) x && x.report = 0) = true)
      ∧ ((reporting 15).reports.all (fun r => r.id = 5 && !r.written) = true ∧ ((reporting 15).fn 0).fq.full = true
          ∧ ((reporting 15).fn 0).fq.size ≠ 0 ∧ ((reporting 14).fn 0).fq.full = false)
      ∧ ((reporting 0).reports.find? (fun x => x.ring = 0 && x.token = 2) = none
          ∧ ((reporting 0).reports.find? (fun x => x.ring = 0 && x.token = 1)).isSome = true)
      ∧ (owning.owners.get 0 (0x10400 / 64) = 16 + 1 ∧ ((owning.block 16).owned (0x10400 / 64)).isSome = true) := by decide

/-- Ticks that are, and are not, multiples of 8 and 256, for the first and the last core. -/
theorem witness_ClocksMove :
    (0 < 256 ∧ 255 < 256)
      ∧ (let s : State := { State.reset with tick := 256, maxClock := 9 }
         s.tick % 8 = 0 ∧ s.tick % 256 = 0 ∧ (s.core 255).advanced ≠ s.tick ∧ (s.core 255).raised ≠ s.tick)
      ∧ (let s : State := { State.reset with tick := 255 }
         s.tick % 8 ≠ 0 ∧ s.tick % 256 ≠ 0) := by decide

/-- A commit of one sector of a replicated page, before and after it has locked its home, at a tick. -/
def committing (locked : Bool) (tick : Nat) : State :=
  { demo with
    tick := tick
    commits := [{ id := 9, core := 1, part := pt, lane := 0, pa := 0x10400, off := 0, len := 64, vf := 0, op := 3, res := 4
                  locked := locked, lockTick := 1
                  acc := { kind := .store, sp := .global, ea := 0x10400, n := 64, data := 7 } }] }

theorem witness_ReplicatedCommits :
    (∀ b ∈ [false, true], (committing b 3501).commits.length = 1
        ∧ ∀ k ∈ (committing b 3501).commits, k.id = 9 ∧ k.acc.kind = .store ∧ k.len ≤ 64 ∧ k.locked = b ∧ k.plain = false
          ∧ k.by' = Writer.lane ∧ (committing b 3501).commitHere k = true ∧ (committing b 3501).commitBusy k = false
          ∧ (k.tr.all fun e => e.acc && e.dirty) = true)
      ∧ (committing false 3501).locks.get 0 (lockKey (0x10400 / 64)) = 0
      ∧ ((committing false 3501).commits.find? fun x => lockKey (x.pa / 64) = lockKey (0x10400 / 64) && !x.plain
          && x.done.isNone && (committing false 3501).commitHere x).map (·.id) = some 9
      ∧ (∀ k ∈ (committing true 3501).commits, (committing true 3501).tick ≤ k.lockTick + 3500)
      ∧ (∀ k ∈ (committing true 3502).commits, k.lockTick + 3500 < (committing true 3502).tick) ∧ 17 < 18 := by decide

/-- A command of an engine with nothing left, on a part with no operation sampled. -/
def finished (eng : Path) (body : CmdBody) : State :=
  { demo with
    cmds := [{ id := 5, eng := eng, core := 1, part := pt, lanes := [0], op := 0, ord := .plain, sco := .device
               bar := none, ca := .keep, body := body }] }

/-- An arrival of lane 3 on its way to the unit of die 0. -/
def arriving : State :=
  demo.modDie 0 fun d => { d with arrivals := [{ cl := false, blk := 16, ix := 2, part := pt, lanes := [3], helpers := []
                                                 holds := true, res := [], init := none, cmdTime := none }] }

/-- Entries of the part on tag 5, which is bound to slot 0 of core 1's array, before and after the grant. -/
def tagged (array : Option Nat) : State :=
  { demo.modPart pt (fun x => { x with tags := [(5, ⟨false, 1, 0, 0⟩)] }) with
    tundish := [{ id := 7, flask := 0, part := pt, core := 1, lane := 0, tag := 5, tick := 0, op := 0, body := .acz false
                  ord := .plain, sco := .device, ca := .keep, array := array }] }

/-- The Runner holds lane 0 and has read all of the node that it enters. -/
def entering : State :=
  (released 0).modLane (laneId tm 0) fun y => { y with
    hold := some .runner, work := .enter
    rbuf := (addrRun 0x1000 32).map fun a => (a, some (0, false)) }

/-- A command that names a barrier which its arrival does not complete. -/
theorem witness_EnginesComplete_barrier :
    ((demo.bar (barKey (teamOf pt) ⟨false, 3⟩)).arr + 1 ≠ (demo.bar (barKey (teamOf pt) ⟨false, 3⟩)).exp) := by decide

theorem witness_EnginesComplete :
    (∀ x ∈ [(Path.t, CmdBody.tcut false []), (.l, .ladle .global .global [] [] [])],
        let s := finished x.1 x.2
        s.cmds.all (fun k => k.id = 5 && k.node = none && k.reports = [] && k.bar = none && s.cmdRuns k && k.body.done && k.eng = x.1
          && !k.frozen) = true ∧ ∀ o ∈ (s.part pt).ops, o.smp = none)
      ∧ (∀ x ∈ (arriving.die 0).arrivals, arriving.mayArrive 0 0 x = true ∧ x.init = none ∧ x.cmdTime = none
          ∧ x.lanes = [3] ∧ x.helpers = [] ∧ x.holds = true ∧ (arriving.bar x.key).arr + 1 ≠ (arriving.bar x.key).exp
          ∧ ∀ y ∈ arriving.barLanes x.key, y.2.hold = none)
      ∧ (arriving.die 0).arrivals.length = 1
      ∧ ((sortBy grantBefore ((tagged none).tundish.filter fun e => e.flask = 0)).findSome?
          (fun e => ((tagged none).grantOf e).map fun g => g)) = some (.own ⟨false, 1, 0, 0⟩)
      ∧ ((tagged (some 1)).tundish.all (fun e => e.id = 7 && e.granted && (tagged (some 1)).entryHere e
          && e.reports = [] && e.todo = none) = true ∧ ((tagged (some 1)).tagOf pt 5).isSome = true)
      ∧ (entering.runnerFor pt 0 = true ∧ (entering.lane (laneId tm 0)).work = .enter
          ∧ (entering.lane (laneId tm 0)).frames.getLast? = some { node := 0x1000, pend := 3 }
          ∧ ((entering.part pt).trav.map fun v => v.missing (entering.lane (laneId tm 0))) = some []) := by decide

/-- The guest runs packets of queue 5: one that has been delivered or not, and what the port holds for it. -/
def hosting (k : Packet) (f : Guest → Guest) : State :=
  let g : Guest := { up := true, queues := [(5, { gqb := 1 + 2 * 2 ^ 7, pkts := [k] })] }
  { (access 0x10400).modCore 0 (fun c => { c with tlb := [loadedPage false] }) with guest := f g, tick := 40000 }

/-- A packet of the team. -/
def packet : Packet :=
  { seq := 3, part := pt, op := 0, vf := 0, spid := 0, launch := 1, words := 0, ord := .plain, delivered := true }

theorem witness_GuestEvents :
    (let s := hosting { packet with delivered := false } id
     s.guestOn = true ∧ (s.gqueue 5).pkts.find? (fun x => !x.returned && !x.delivered) = some { packet with delivered := false }
       ∧ s.mayDeliver { packet with delivered := false } = true)
      ∧ (let s := hosting packet id
         s.guestOn = true ∧ (s.gqueue 5).head = some packet ∧ packet.node = none ∧ packetCompl packet.words = 0
           ∧ packet.seq < 2 ^ 16 ∧ (s.gqueue 5).pkts.filter (fun x => !x.returned && x.seq = packet.seq) = [packet]
           ∧ (∀ y ∈ s.guest.queues, ∀ x ∈ y.2.pkts, x.status = none) ∧ s.waiters = [] ∧ s.guest.writes = []
           ∧ (s.gqueue 5).running 0 0 = some packet ∧ resB (s.resolve (s.packetWho 5 packet) kRead 0x10400).2 = true
           ∧ resB (s.resolve (s.packetWho 5 packet) kWrite 0x10400).2 = true)
      ∧ (let s := hosting packet fun g => { g with xlats := [loadedPage false] }
         s.homed 0x1043F = true ∧ s.busySec 0x1043F = false ∧ s.guest.secs = [] ∧ s.guest.writes = []
           ∧ s.leafBusy (loadedPage false) = false ∧ min 4 (64 - 0x1043F % 64) = 1
           ∧ s.handedOut 5 0x1043F 1 = some (packet, loadedPage false)
           ∧ s.violation (loadedPage false) 0x1043F kRead (s.packetWho 5 packet).lvl true = none
           ∧ s.violation (loadedPage false) 0x1043F kWrite (s.packetWho 5 packet).lvl true = none
           ∧ (loadedPage false).attr.rep = false)
      ∧ (let s := hosting packet fun g => { g with invs := [{ id := 4, es := [loadedPage false], since := 0 }] }
         (s.guest.invs.find? (fun y => y.id = 4)).isSome = true ∧ s.guest.frz = false ∧ s.breached 2 = true)
      ∧ (let s := hosting packet fun g => { g with clock := 100, secs := [(1040, ⟨false, 0, 164, none⟩)] }
         s.guest.secs.find? (fun y => y.1 = 0x10400 / 64) = some (1040, ⟨false, 0, 164, none⟩) ∧ 164 ≤ s.guest.clock + 64)
      ∧ (let s := hosting packet fun g => { g with clock := 99, secs := [(1040, ⟨false, 0, 164, none⟩)] }
         s.guest.clock + 64 < 164)
      ∧ (let k := { packet with quiesce := true }
         let s := hosting k id
         s.guestOn = true ∧ (s.gqueue 5).pkts.find? (fun x => x.seq = 3 && x.quiesce && !x.returned && x.status.isNone) = some k)
      ∧ (let s := hosting { packet with returned := true } fun g => { g with secs := [(1040, ⟨true, 0, 164, some 38250⟩)] }
         s.guest.frz = false ∧ s.breached 3 = true ∧ s.inFlight = []
           ∧ (s.guest.secs.find? (fun y => y.1 = 0x10400 / 64 && y.2.snooped.isSome)).isSome = true)
      ∧ (let s := hosting { packet with returned := true } id
         bit 0 6 = false ∧ bit 64 6 = true ∧ s.inFlight = [] ∧ s.guest.secs = []) := by decide +kernel

/-- A trap of the team whose record waits for a ring of 16 entries at 0x7000, with the tail at `tail`. -/
def trapping (tail : Nat) : State :=
  (nextOf (exec (.trap h 5) demo)).modFn 0 fun x =>
    { x with tq := { base := 1 + 4 * 2 + 0x7000, head := 0, tail := tail } }

/-- A part that is parked for want of a servable label, with no lane held, on a core that has been idle for `n` ticks. -/
def stalled (n : Nat) : State :=
  (demo.modPart pt fun x => { x with wait := .hold }).modCore 1 fun c =>
    { c with idle := n }

/-- A launch whose watchdog has counted `n` ticks of a limit of 2 microseconds. -/
def watched (n : Nat) : State :=
  demo.modLaunch 1 fun x => { x with tout := 2, watch := some n }

theorem witness_TrapRecordsAndWatchdogs :
    (∀ t ∈ [14, 15], (trapping t).trapOuts.length = 1
        ∧ (∀ x ∈ (trapping t).trapOuts, (trapping t).recordStands x = true ∧ ((trapping t).launchAt x.part).prologue = false
          ∧ (trapping t).recordWaits x = false ∧ ((trapping t).fn x.ring).tq.size = 16 ∧ ((trapping t).fn x.ring).tq.full = decide (t = 15))
        ∧ ∀ x ∈ (trapping t).dies, bit x.2.trctl 3 = false)
      ∧ ((stalled (2 ^ 20 - 1)).core 1).idle < 2 ^ 20
      ∧ (let s := (stalled (2 ^ 20)).modCore 1 fun x => { x with idle := 0 }
         2 ^ 20 ≤ ((stalled (2 ^ 20)).core 1).idle ∧ s.corePartIds 1 = [pt]
           ∧ (s.goingOn s.parts.length []).contains pt = false ∧ s.tokenHeld 1 = false
           ∧ ((stalled (2 ^ 20)).launch 1).level ≠ .h
           ∧ (s.parts.filter fun x => s.launchOf (teamOf x.1) = 1 && x.2.life = .live && x.2.wait ≠ .none
              && s.resident x.1).map (·.1) = [pt]
           ∧ ((stalled (2 ^ 20)).tokens ((stalled (2 ^ 20)).trapRing tm)).length < 65535)
      ∧ ((watched 3499).launch 1).watch = some 3499 ∧ 3499 < ((watched 3499).launch 1).limit * 1750
      ∧ ((watched 3500).launch 1).limit ≠ 0 ∧ ((watched 3500).launch 1).limit * 1750 ≤ 3500
      ∧ ((watched 3500).watchPart 1).isSome = true := by decide

/-! ## Graphs, launches, the host and boot -/

/-- Function 0 is enabled and has a queue table at 0x20000; the walker of die 0 holds the loaded page's translation.
No function fills the L2, whose sets the spec leaves open. -/
def served0 : State :=
  ((access 0).modFn 0 fun x => { x with en := true, layer3 := true, qtbl := 0x20001, sptbl := 0x20001, l2waym := 0 }).modCore 0
    fun c => { c with tlb := [loadedPage false] }

/-- Queue 0 runs a graph whose nodes are given; `waiting` is still to start. -/
def graph (nodes : FMap Node) (waiting : List (Nat × Nat × Nat × Nat)) (run : Option (Nat × Nat × Nat × Nat)) : State :=
  { served0 with queues := [(0, { on := true, waiting := waiting, run := run, nodes := nodes })] }

/-- A graph of one node of kind `k` that has entered the dependence unit, with operand A at 0x14000. -/
def entered (k : Nat) (b : Nat) : State :=
  graph [(0, { st := .entered, entry := 1, raw := k + 0xFFF * 2 ^ 16 + 0xFFF * 2 ^ 28 + 0x14000 * 2 ^ 64 + b * 2 ^ 128 })] []
    (some (0x14000, 1, 0, 0))

/-- A queue's descriptor (R254), with a ring of 16 entries at 0x14000 and HEAD at `head`. -/
def described (head : Nat) : State :=
  withBytes { served0 with queues := [(0, { on := true })] } 0x20000 32 (1 + 4 * 2 ^ 5 + 0x14000 * 2 ^ 64 + head * 2 ^ 160)

/-- What `GraphEvents` asks of a notify: the descriptor is good and clean, and its HEAD; and the entry at HEAD can be
read. -/
def notifyB (s : State) (head : Nat) : Bool :=
  let reader : Who := { core := 0, vf := 0, spid := 0, root := 0, lvl := .s, master := 5 }
  match s.inWalk reader true fun s => s.stage2 0 0 noSpace (bits (s.fn 0).qtbl 12 40 * 4096) with
  | (s1, .ok y) =>
    let d := (s1.deviceRead 0 y.pa 32).2.1
    let r := (s1.deviceRead 0 y.pa 32).1.takeDesc 0 d y.pa
    s1.homed y.pa && !s1.busySec y.pa && (s1.deviceRead 0 y.pa 32).2.2 = 0 && descOk d && r.2 = head && !s.hostHeld
      && s.hostQ.isEmpty && (s.queue 0).tails.isEmpty
      && (match (r.1.raiseClock (r.1.walkerWho 0).core (r.1.queue 0).time).agentRead (r.1.walkerWho 0)
          (bits d 64 64 + 64 * (r.2 % 16)) 64 with
        | (_, .ok _) => true
        | _ => false)
  | _ => false

/-- Whether a walker's read of some bytes at 0x14000 gives them, and what. -/
def readsB (s : State) (n x : Nat) : Bool :=
  match s.agentRead (s.walkerWho 0) 0x14000 n with
  | (_, .ok y) => decide (y = x)
  | _ => false

theorem witness_GraphNotifies :
    ((State.reset.fn 0).en = false ∧ (0 : Nat) < 2 ^ 16)
      ∧ (served0.fn 0).en = true ∧ (served0.fn 0).flrb = false ∧ bit (served0.fn 0).qtbl 0 = true
      ∧ notifyB (described 15) 15 = true ∧ entriesLeft 16 (15 % 16) 15 = 0 ∧ entriesLeft 16 (15 % 16) 0 = 1
      ∧ entriesLeft 16 (15 % 16) 16 = 1
      ∧ (({ described 15 with queues := [(0, { on := true, tails := [3] })] } : State).queue 0).tails ≠ [] := by
  decide +kernel

/-- A graph of one host-signal node at 0x14000 waits to start; a graph of a node that is eligible. -/
theorem witness_GraphStarts :
    (let s := withBytes (graph [] [(0x14000, 1, 0, 0)] none) 0x14000 64 (5 + 0xFFF * 2 ^ 16 + 0xFFF * 2 ^ 28)
     (s.queue 0).waiting = (0x14000, 1, 0, 0) :: [] ∧ (s.queue 0).run = none ∧ s.walks 0 = true
       ∧ readsB (s.raiseClock 0 0) 64 (5 + 0xFFF * 2 ^ 16 + 0xFFF * 2 ^ 28) = true
       ∧ graphBad 1 (chop 512 1 (5 + 0xFFF * 2 ^ 16 + 0xFFF * 2 ^ 28)) = false)
      ∧ (let s := graph [(0, { st := .eligible, raw := 2 ^ 40 + 0x14000 * 2 ^ 320 })] [] (some (0x14000, 1, 0, 0))
         s.graphRuns 0 = true ∧ (s.node 0 0).st = .eligible ∧ s.firstEligible 0 0 = true ∧ (s.unit 0 0).length < 1024
           ∧ nRegs (s.node 0 0).raw = 0x14000 ∧ nReg (s.node 0 0).raw = 1
           ∧ readsB (s.raiseClock 0 0) 16 0 = true) := by decide +kernel

/-- What `GraphEvents` asks of a guest node: whether its queue is full once the packet at 0x14000 has been read, and what
the post would answer. -/
def guestNodeB (s : State) (full : Bool) (status : Nat) : Bool :=
  match (s.beginNode 0 0).agentRead (s.walkerWho 0) 0x14000 64 with
  | (s1, .ok x) => s.mayStart 0 0 6 && ((s1.gqueue 5).depth ≠ 0 && !s1.guest.frz && (s1.gqueue 5).depth ≤ (s1.gqueue 5).flight) = full
      && s1.postStatus 5 0 (packetCompl x) = status && (s.queue 0).status = 0
  | _ => false

/-- A guest node of queue 5. -/
def packeting : State := { entered 6 5 with guest := (guested true).guest }

/-- A node of each kind that may start; a condition word that is 0, and one that is not; a host signal of vector 0 that
is not masked; and guest packets that are posted, refused and kept waiting. -/
theorem witness_GraphEvents :
    (∀ k ∈ [0, 1, 2, 3, 4, 5, 6], (entered k 0).mayStart 0 0 k = true)
      ∧ readsB ((entered 2 0).beginNode 0 0) 4 0 = true
      ∧ readsB ((withBytes (entered 3 0) 0x14000 4 7).beginNode 0 0) 4 7 = true
      ∧ (let s := { entered 5 9 with msix := [(0, ⟨false, false⟩)] }
         (match (s.beginNode 0 0).agentWrite (s.walkerWho 0) 0x14000 8 9 with
           | (s1, .ok _) => !(s1.msix.get (⟨true, false⟩ : Msix) 0).masked
           | _ => false) = true)
      ∧ guestNodeB packeting false 0 = true ∧ guestNodeB (withBytes packeting 0x14008 8 1) false 3 = true
      ∧ guestNodeB (packeting.modGqueue 5 fun g => { g with pkts := List.replicate g.depth packet }) true 0 = true := by
  decide +kernel

/-- A finished node whose successors are nodes 1 and 2, one that runs once more, and a loop's body. -/
theorem witness_GraphEvents_finish :
    (let s := graph [(0, { st := .done, raw := 2 ^ 16 + 2 * 2 ^ 28 }), (1, { raw := 2 ^ 8 }), (2, { raw := 2 ^ 9 })] []
       (some (0, 3, 0, 0))
     (s.queue 0).closing = false ∧ (s.node 0 0).st = .done ∧ s.prologueDone (s.node 0 0) = true ∧ (s.node 0 0).again = false
       ∧ nSucc0 (s.node 0 0).raw = 1 ∧ nSucc1 (s.node 0 0).raw = 2 ∧ (s.node 0 0).out = 0
       ∧ nPred (s.node 0 1).raw = 1 ∧ nPred (s.node 0 2).raw = 2)
      ∧ (let s := graph [(0, { st := .done, again := true })] [] (some (0, 1, 0, 0))
         (s.queue 0).closing = false ∧ (s.node 0 0).st = .done ∧ s.prologueDone (s.node 0 0) = true
           ∧ (s.node 0 0).again = true) := by decide +kernel

/-- A launch of node 2 whose image at 0x14000 is still to be read: with the node's record, and as its prologue. -/
def reading (raw : Nat) (prologue : Bool) : State :=
  let s := (withBytes (withBytes served0 0x14000 64 header) 0x20000 8 0x30001).setLaunch 9
    { st := .reading, image := 0x14000, paramAt := 0x14000, clus := 1, order := 9, node := some (0, 2), prologue := prologue }
  { s.setLaunch 7 { st := .staged } with
    queues := [(0, { on := true, run := some (0, 3, 0, 0), nodes := [(2, { st := .running, launch := 7, raw := raw })] })]
    released := true }

/-- What `LaunchPath` asks of the reads of a launch: whether it is a prologue, and whether its node asks for one. -/
def imageB (s : State) (l : Nat) (prologue pro : Bool) : Bool :=
  let x := s.launch l
  let w : Who := { core := x.die * 64, vf := x.vf, spid := x.spid, root := 0, lvl := .s, master := 5, launch := l }
  s.mayRead l
    && (match (s.raiseClock w.core x.time).acceptSpace w x with
      | (s1, .ok (some root)) =>
        (match s1.readImage w x.image x.paramAt with
          | (s2, .ok (some (img, consts))) =>
            let u := s2.noteReads l
            let y : Launch := { u.launch l with img := img, consts := consts, root := root + 1 }
            y.prologue = prologue && y.node = some (0, 2) && nPro (u.node 0 2).raw = pro && y.geomOk && y.holdable
              && u.mayPlace y.vf && (u.fitsOn y.die y []).isSome
          | _ => false)
      | _ => false)

/-- The team is a prologue that has issued `n` instructions. -/
def budget (n : Nat) : State := (staging 0).modLaunch 1 fun x => { x with issued := n }

/-- A launch that waits to be placed, whose blocks need `stash` bytes. -/
def waiting (stash : Nat) (s : State) : State :=
  { (s.modFn 0 fun x => { x with en := true, layer3 := true }).setLaunch 9
      { st := .pending, clus := 1, order := 9, pri := 1, img := { stash := stash } } with released := true }

/-- A resident cluster on each die, of priority 0, whose block takes some stash of every core; a save region on die 0. -/
def crowded : State :=
  { waiting (2 ^ 21) State.reset with
    launches := [(1, { st := .running, clus := 4, placed := 4, img := { stash := 256 } }),
      (9, { st := .pending, clus := 1, order := 9, pri := 1, img := { stash := 2 ^ 21 } })]
    clusters := (List.range 4).map fun d => (2 + d, { st := .resident, launch := 1, index := d, die := d, nblk := 1, order := d })
    blocks := (List.range 4).map fun d => (8 * (2 + d), { lanes := 32, cores := (List.range 64).map (64 * d + ·) })
    savebase := [(0, 1 + 10 * 2 + 0x40000000)] }

/-- A saved cluster of launch 1, on a die with room. -/
def saved : State :=
  { waiting 256 State.reset with
    launches := [(1, { st := .running, clus := 1, placed := 1, order := 1, img := { stash := 256 } })]
    clusters := [(2, { st := .saved, launch := 1, nblk := 1, save := 0x40000000, saveLen := 64 })]
    blocks := [(16, { lanes := 32, teams := 1 })] }

theorem witness_LaunchPath :
    imageB (reading 0 false) 9 false false = true ∧ imageB (reading 16 false) 9 false true = true
      ∧ imageB (reading 16 true) 9 true true = true
      ∧ (∀ n ∈ [4095, 4096], ((budget n).launch ((budget n).launchOf tm)).prologue = true
          ∧ ((budget n).launch ((budget n).launchOf tm)).node = some (0, 2) ∧ (budget n).allExited pt = false
          ∧ ((budget n).launch ((budget n).launchOf tm)).issued = n ∧ ((budget n).queue 0).status = 0)
      ∧ (let s := waiting 256 State.reset
         s.turn (s.pending 0) = some 9 ∧ s.savedOf 9 = [] ∧ (s.findDie (s.launch 9)).isSome = true)
      ∧ (crowded.victim' 0 = some 2
          ∧ (crowded.saveRoom (crowded.cluster 2).die ((crowded.readyToSave 2).imageSize 2)).isSome = true)
      ∧ ((saved.cluster 2).st = .saved ∧ saved.turn (saved.pending (saved.launch 1).die) = some 1
          ∧ (saved.savedOf 1).head? = some 2
          ∧ (∀ p ∈ saved.clusterParts 2, (saved.part p).abort = false ∧ (saved.part p).abortQ = [] ∧ (saved.part p).susp = none)
          ∧ (match saved.refits 2 [] with
            | some cores => ((saved.moveTeams 2 0 cores).rebindAll ((saved.moveTeams 2 0 cores).clusterParts 2)).isSome
            | none => false) = true) := by decide +kernel

/-- Addresses of memory, the last one of a sector, and of none. -/
theorem witness_HostAndFunctions :
    (64 ≤ 64 ∧ 0x1043F < barBytes ∧ min 4 (64 - 0x1043F % 64) = 1 ∧ State.reset.homed 0x1043F = true
        ∧ State.reset.busySec 0x1043F = false ∧ State.reset.owners.get 0 (0x1043F / 64) = 0)
      ∧ (barBytes - 1 < barBytes ∧ State.reset.homed (barBytes - 1) = false)
      ∧ State.reset.hostHeld = true ∧ ({ State.reset with released := true } : State).hostHeld = false
      ∧ State.reset.hostQ = []
      ∧ (64 ≤ 64 ∧ 63 < 64) ∧ (State.reset.fn 63).flrb = false ∧ (State.reset.fn 63).pceil < 4 := by decide +kernel

theorem witness_DebugAndLinks :
    (7 < 8 ∧ 3 < 4 ∧ 17 < 18 ∧ 13 < 18)
      ∧ (let s : State := { State.reset with tick := 9, stopDue := 9 }
         s.stopDue ≠ 0 ∧ s.stopDue ≤ s.tick)
      ∧ bit 2 1 = true ∧ ({ State.reset with recording := true } : State).recording = true
      ∧ (let s : State := { State.reset with playing := true, tick := 1 }
         s.playing = true ∧ s.rclog = [] ∧ bit s.rcsts 2 = false ∧ s.endt < s.tick)
      ∧ (let s : State := { State.reset with tripDue := true }
         s.tripDue = true ∧ s.agenda = [] ∧ s.stopped = false ∧ s.playing = false)
      ∧ (let s : State := { State.reset with lnkst := [(17, 1)], msix := [(4096, ⟨false, false⟩)] }
         bit (s.lnkst.get 0 17) 0 = true ∧ bit (s.lnkst.get 0 17) 1 = false ∧ (s.msix.get {} 4096).masked = false) := by decide

/-- A die whose layers 0 to `n` have started. -/
def booted (n : Nat) : State := State.reset.modDie 3 fun d => { d with layer0 := true, layer := n }

/-- Each layer's turn; what its image holds, and whether its signature is authentic, is open (log 3), so the clauses of
`BootAndAttestation` about them are cases of one value. -/
theorem witness_BootAndAttestation :
    (3 < 4 ∧ (State.reset.die 3).fail = false ∧ (State.reset.die 3).layer0 = false)
      ∧ (∀ n ∈ [0, 1], ((booted n).die 3).fail = false ∧ ((booted n).die 3).layer0 = true ∧ ((booted n).die 3).layer + 1 = n + 1)
      ∧ (∀ n, Config.bootImage 3 n = none ∨ ∃ image, Config.bootImage 3 n = some image) := by
  refine ⟨by decide, by decide, fun n => ?_⟩
  cases Config.bootImage 3 n <;> simp

/-! ## Witnesses of further clauses -/

/-- Lanes of a prologue that go on, and its last lanes, which exit: node 2 cancelled, and with launch 7 in order. -/
def ending (cancel : Bool) : State :=
  ((staging 0).setLaunch 7 { loadedLaunch 7 with st := .absent, node := some (0, 2) }).modQueue 0 fun q =>
    { q with nodes := [(2, { st := .running, launch := 7, cancel := cancel })] }

theorem witness_Departures_prologue :
    (∃ l ∈ (staging 0).actors (.go hp 1), l ∈ (staging 0).partLanes pt ∧ ((staging 0).lane (laneId tm l)).kind ≠ .vacant)
      ∧ (∀ b ∈ [true, false], Ready (ending b) [.exit h] ∧ ((ending b).launchAt pt).prologue = true
          ∧ ((ending b).launchAt pt).node = some (0, 2) ∧ ((ending b).node 0 2).launch = 7
          ∧ 7 ≠ (ending b).launchOf tm ∧ (∀ k ∈ (ending b).partLanes pt, k ∈ (ending b).actors (.exit h))
          ∧ ((ending b).node 0 2).cancel = b ∧ ((ending b).node 0 2).bad = false ∧ ((ending b).launch 7).geomOk = true
          ∧ ((ending b).launch 7).holdable = true) := by
  refine ⟨by decide, fun b hb => ?_⟩
  simp only [List.mem_cons, List.not_mem_nil, or_false] at hb
  rcases hb with rfl | rfl <;> exact ⟨ready_of (by decide), by decide⟩

/-- Lanes 0 and 1 act; the label that lane 1 names is the kernel's, or neither's is. -/
def twoJumps (b : Nat) : State :=
  ((withRegs demo [(0, 2), (5, b)]).putReg tm 1 0 2).putReg tm 1 5 2

theorem witness_Departures_labels :
    (∀ b ∈ [1, 2], Ready (twoJumps b) [.goi hp 5, .calli hp 9 5 1] ∧ (twoJumps b).actors (.goi hp 5) = [0, 1])
      ∧ (labelValid ((twoJumps 1).img tm) 1 = true ∧ labelValid ((twoJumps 1).img tm) 2 = false)
      ∧ ((atLevel .h [(5, 2)]).launchAt pt).level = .h ∧ Ready (atLevel .h [(5, 2)]) [.goi hp 5, .trap h 5, .brk h 5] := by
  refine ⟨fun b hb => ?_, by decide, by decide, ready_of (by decide)⟩
  simp only [List.mem_cons, List.not_mem_nil, or_false] at hb
  rcases hb with rfl | rfl <;> exact ⟨ready_of (by decide), by decide⟩

/-- The stash range at 0x18000 has a dirty sector at its first bytes. -/
def mapped : State :=
  (access 0x18000).modBlock 16 fun b => { b with secs := [(0x18000 / 64, { st := .dirty, pa := 0x10400, data := 7, dirty := 1 })] }

theorem witness_StashRanges_dirty :
    mapped.noSampling ∧ Ready mapped [.sunmap hp 9 4, .sflush hp 0 0 true, .sdrop hp 0 0 true]
      ∧ 0x600 ∈ mapped.issued.unmapSet (mapped.opCtx hp) 4
      ∧ 0x600 ∈ mapped.issued.flushSet (mapped.opCtx hp) 0 0 true
      ∧ ((mapped.block 16).secs.get {} 0x600).st = .dirty ∧ (mapped.block 16).secs.length = 1
      ∧ bit ((mapped.block 16).secs.get {} 0x600).dirty 0 = true :=
  ⟨by unfold State.noSampling; decide, ready_of (by decide), by decide, by decide, by decide, by decide, by decide⟩

/-- The lease serves the load; a copy that a higher-numbered agent has stored in this tick serves it no more, and the
grant finds the sector's write time unchanged, or changed. The function fills no L2 ways. -/
theorem witness_HomeLoadsAndStores_leases :
    let w (s : State) : Who := { s.who pt with lane := 0 }
    let acc : Access := { kind := .load, sp := .global, ea := 0x10408, n := 1, sz := .n8, ca := .stream }
    let i := Instr.ld hp 9 4 8 .n8 .global true .stream
    (leased 0).inLease (w (leased 0)) 1040 0 0 = true
      ∧ (∀ t ∈ [0, 5],
          let s : State := { (leased 0).modFn 0 (fun f => { f with l2waym := 0 }) with stored := [(1040, 0, noLane)] }
          let s := s.modDie 0 fun d => { d with memTime := t }
          s.inLease (w s) 1040 0 0 = false ∧ (s.l1Copy 1 1040).map (·.wts) = some 0
            ∧ (s.grant (w s).fill .stream (s.core 1).clock 1040).2.wts = t ∧ homeB s i 0 acc 0x10408 = true) := by
  decide +kernel

/-- A prologue after `plcan`; and one whose launch has 8 bytes of parameters. -/
def cancelled : State := (staging 0).modQueue 0 fun q => { q with nodes := [(2, { st := .running, launch := 7, cancel := true })] }
def paramed : State := (staging 0).setLaunch 7 { loadedLaunch 7 with img := { (loadedLaunch 7).img with param := 8 } }

theorem witness_PrologueStages_params :
    cancelled.noSampling ∧ (cancelled.launchAt pt).node = some (0, 2) ∧ (cancelled.node 0 2).cancel = true
      ∧ Ready cancelled [.plset hp 9 0, .plset hp 9 0x403, .plrep hp 9, .plcan hp]
      ∧ Ready paramed [.plset hp 9 1, .plset hp 9 2] ∧ paramed.posterOf (.plset hp 9 1) = some 0
      ∧ (paramed.node 0 2).cancel = false ∧ (paramed.node 0 2).launch = 7 ∧ (paramed.launchAt pt).node = some (0, 2)
      ∧ 4 * 1 < (paramed.launch 7).img.param ∧ (paramed.launch 7).img.param ≤ 4 * 2 ∧ (2 : Fin 2048).val < 0x400 :=
  ⟨by unfold State.noSampling; decide, by decide, by decide, ready_of (by decide), ready_of (by decide), by decide,
    by decide, by decide, by decide, by decide, by decide, by decide⟩

/-- Tag 5 is bound, to a pair or not; the addresses and pitches are given. -/
def bound (paired : Bool) (rs : List (Nat × Nat)) : State :=
  (solo rs).modPart pt fun x => { x with tags := [(5, ⟨paired, 1, 0, 0⟩)] }

/-- A tag of the other kind, a misaligned base and a format that is not one, at each level. -/
theorem witness_MatrixEntries_traps :
    let o : MmaOps := ⟨20, 0, 30, .i8, .bp, true, true, false, true, false, 0, 4, .on, true, true, .block, .stream⟩
    let good := [(16, 0x1000), (18, 64), (20, 0x2000), (22, 128), (23, 32 + 4 * 2 ^ 16)]
    let off := [(16, 0x1001), (18, 64), (20, 0x2000), (22, 128), (23, 32 + 4 * 2 ^ 16)]
    let odd := [(16, 0x1000), (18, 64), (20, 0x2000), (22, 128), (23, 32 + 9 * 2 ^ 16)]
    (Ready (bound true good) [.mma hp 5 16 o] ∧ (bound true good).issued.tagKind pt 5 = some true
        ∧ (bound true good).posterOf (.mma hp 5 16 o) = some 0)
      ∧ (Ready (bound false good) [.mmap hp 5 16 { o with ka := 0 }] ∧ (bound false good).issued.tagKind pt 5 = some false)
      ∧ (Ready (bound false off) [.mma hp 5 16 o] ∧ (bound false off).issued.tagKind pt 5 = some false
          ∧ ((bound false off).issued.readDesc ((bound false off).opCtx hp) 0 0 16).misaligned o.ta = true)
      ∧ (Ready (bound false odd) [.mma hp 5 16 o] ∧ (bound false odd).issued.tagKind pt 5 = some false
          ∧ (let da := (bound false odd).issued.readDesc ((bound false odd).opCtx hp) 0 0 16
             let db := (bound false odd).issued.readDesc ((bound false odd).opCtx hp) 0 10 20
             da.misaligned o.ta = false ∧ db.misaligned o.tb = false ∧ db.bad o.tb o.kb.val = true)) :=
  ⟨⟨ready_of (by decide), by decide, by decide⟩, ⟨ready_of (by decide), by decide⟩,
    ⟨ready_of (by decide), by decide, by decide⟩, ready_of (by decide), by decide, by decide⟩

/-- The same for the accumulator instructions. -/
theorem witness_AccumulatorEntries_traps :
    let a := bound true [(4, 0x1001), (9, 128)]
    let b := bound false [(4, 0x1000), (9, 130)]
    (Ready a [.acz hp 5 false, .acld hp 5 4 (.mem 9 .cstash true .team .keep) false, .acld hp 5 32 .reg false,
          .acst hp 5 4 (.mem 9 .global false .device .noalloc), .acst hp 5 32 .reg, .acrelAll hp]
        ∧ a.posterOf (.acz hp 5 false) = some 0 ∧ a.issued.tagKind pt 5 = some true
        ∧ ¬(a.src64 0 0 4 % 4 = 0 ∧ a.src 2 0 9 % 4 = 0))
      ∧ (Ready b [.acz hp 5 true, .acld hp 5 4 (.mem 9 .cstash true .team .keep) false, .acst hp 5 32 .reg]
          ∧ b.issued.tagKind pt 5 = some false ∧ ¬(b.src64 0 0 4 % 4 = 0 ∧ b.src 2 0 9 % 4 = 0)) :=
  ⟨⟨ready_of (by decide), by decide, by decide, by decide⟩, ready_of (by decide), by decide, by decide⟩

/-- Lane 0 of the part is a helper lane, alone or beside lane 1. -/
def helped (rs : List (Nat × Nat)) : State :=
  (withRegs walking rs).modLane (laneId tm 0) fun y => { y with kind := .helper }

theorem witness_TraversalsStart_helper :
    ∀ r ∈ [[], [(0, 2)]], let s := (helped []).putReg tm 1 0 (if r = [] then 0 else 2)
      Ready s [.trav hp 16 4 walk, .tres hp 16 4 walk] ∧ 0 ∈ s.actors (.trav hp 16 4 walk) ∧ s.isHelper tm 0 = true
        ∧ (s.posterOf (.trav hp 16 4 walk) = if r = [] then none else some 1) := by
  intro r hr
  simp only [List.mem_cons, List.not_mem_nil, or_false] at hr
  rcases hr with rfl | rfl <;> exact ⟨ready_of (by decide), by decide⟩

/-- Lanes outside a traversal, released after a node of another kind, with no traversal of the part, below its depth, and
with a segment that is misaligned. -/
theorem witness_TraversalsGoOn_traps :
    let o : TcutOps := ⟨true, true, .block, some ⟨false, 1⟩, .keep⟩
    let out (k : Nat) : State := (released k).modLane (laneId tm 0) fun y => { y with inTrav := false }
    let bare := walking
    (Ready (out 0) [.tretDesc hp 9 true false .device, .tretSkip hp false .device, .tretCont hp true .system,
          .tretStop hp true .team, .tcut hp 9 4 o]
        ∧ ((out 0).lane (laneId tm 0)).inTrav = false ∧ (out 0).participantsOf (.tretSkip hp false .device) = [0])
      ∧ (Ready (released 0) [.tretCont hp true .system] ∧ Ready (released 1) [.tretSkip hp false .device]
          ∧ Ready (released 3) [.tretStop hp false .device] ∧ ((released 3).lane (laneId tm 0)).lastKind ∉ [0, 1, 2])
      ∧ (Ready bare [.tretStop hp false .device, .tcut hp 9 4 o] ∧ bare.issPart.trav = none)
      ∧ (let s := withRegs (released 0) [(9, 1)]
         Ready s [.tcut hp 9 4 o] ∧ (s.lane (laneId tm 0)).frames.length ≤ s.src 4 0 9)
      ∧ (let s := withRegs (released 0) [(4, 0x1001)]
         Ready s [.tcut hp 9 4 o] ∧ s.issPart.trav ≠ none ∧ (s.lane (laneId tm 0)).inTrav = true
           ∧ ¬(s.lane (laneId tm 0)).frames.length ≤ s.src 4 0 9 ∧ s.src64 0 0 4 % 16 ≠ 0) :=
  ⟨⟨ready_of (by decide), by decide, by decide⟩, ⟨ready_of (by decide), ready_of (by decide), ready_of (by decide), by decide⟩,
    ⟨ready_of (by decide), by decide⟩, ⟨ready_of (by decide), by decide⟩, ready_of (by decide), by decide⟩

/-- The suspended part is resident, or its cluster is saved. -/
theorem witness_TrapsResolved_parts :
    (served 1).resident pt = true ∧ (((served 1).part pt).susp.map (·.cls)) = some 10
      ∧ (let s := (served 1).modCluster 2 fun c => { c with st := .saved }
         s.resident pt = false ∧ Ready s [.eretNext hp 9 4 6] ∧ s.issued.ownedTrap .s 0 1 = some (pt, 10))
      ∧ ((served 1).launch 1).prologue = false ∧ ((served 1).cluster 2).launch = 1 ∧ ((served 1).cluster 2).st = .resident
      ∧ clusterOfPart pt = 2 ∧ (∀ c ∈ (served 1).clusters, c.1 = 5 → c.2.launch ≠ 1) :=
  ⟨by decide, by decide, ⟨by decide, ready_of (by decide), by decide⟩, by decide⟩
/-- A commit of function 0 that is not done, a translation that the guest has, one of a write that the port holds, and an
acknowledgement that is still to come, or has come. -/
theorem witness_TranslationsInvalidated_waits :
    let base := atLevel .s [(4, 0x10000), (10, 1)]
    let i : Instr := .tinvFn hp ⟨4, 8, 10, 0⟩
    let v (e : Tlb) : Bool := e.vf = 0
    (let s : State := { base with commits := (committing false 0).commits.map fun k => { k with by' := .host 64, part := 0 } }
     Ready s [i] ∧ s.posterOf i = some 0 ∧ s.issPart.ack = 0 ∧ ∃ k ∈ s.commits, k.vf = 0 ∧ k.done = none)
      ∧ (let s : State := { base with guest := { base.guest with up := true, xlats := [loadedPage false] } }
         Ready s [i] ∧ s.issPart.ack = 0 ∧ s.commits = [] ∧ s.guest.frz = false ∧ s.nextId ≠ 0
           ∧ ∃ e ∈ s.guest.xlats, v e = true)
      ∧ (let s : State := { base with guest := { base.guest with up := true, writes := [⟨3, 5, 0x10400, 4, 7, loadedPage false⟩] } }
         Ready s [i] ∧ s.issPart.ack = 0 ∧ s.commits = [] ∧ s.guest.frz = false ∧ s.nextId ≠ 0
           ∧ ∃ x ∈ s.guest.writes, v x.e = true)
      ∧ (∀ id ∈ [4, 5], let s := (base.modPart pt fun x => { x with ack := 4 })
         let s : State := { s with guest := { s.guest with invs := [{ id := id, es := [loadedPage false], since := 0 }] } }
         Ready s [i] ∧ s.issPart.ack ≠ 0 ∧ (if id = 4 then ∃ y ∈ s.guest.invs, y.id = s.issPart.ack
           else ∀ y ∈ s.guest.invs, y.id ≠ s.issPart.ack)) := by
  refine ⟨⟨ready_of (by decide), by decide⟩, ⟨ready_of (by decide), by decide⟩, ⟨ready_of (by decide), by decide⟩, fun id hid => ?_⟩
  simp only [List.mem_cons, List.not_mem_nil, or_false] at hid
  rcases hid with rfl | rfl <;> exact ⟨ready_of (by decide), by decide⟩

/-- Decode traps at each level, and an instruction that decode lets through. -/
theorem witness_DecodeTraps_classes :
    (let s := atLevel .h [(4, 0)]
     s.decodeTrap tm (.sys h 9 5) = some 1 ∧ s.levelOf tm = .h ∧ s.issPart.life = .live ∧ (s.launchAt pt).level = .h)
      ∧ (let s := atLevel .s []
         (Instr.csrw h 4 0x000 1).wf = true ∧ s.undefinedIn tm (.csrw h 4 0x000 1) = false
           ∧ (Instr.csrw h 4 0x000 1).vfField ≠ 0 ∧ Level.num .s < (Instr.tinvIpa h ⟨4, 8, 10, 0⟩).level.num
           ∧ s.undefinedIn tm (.tinvIpa h ⟨4, 8, 10, 0⟩) = false)
      ∧ (∃ r ∈ (Instr.mov h 250 4).writes, declared (demo.img tm) r = false)
      ∧ (∃ x ∈ (Instr.mov h 4 250).reads, declared (demo.img tm) x.2 = false)
      ∧ ((Instr.mov h 4 5).wf = true ∧ demo.undefinedIn tm (.mov h 4 5) = false
          ∧ (Instr.mov h 4 5).level.num ≤ (demo.levelOf tm).num ∧ demo.levelOf tm ≠ .s) := by decide

/-- A report that a command which is still reading depends on; and a sector that a stash owns, recalled for a write. -/
theorem witness_FaultsAndRecalls_more :
    (reporting 14).mayRecord 5 = true
      ∧ (let k := (finished .l (.ladle .global .global [⟨0x14000, 0x10000, 0, 0x10400, 4, 0⟩] [] [])).cmds.map fun k =>
           { k with reports := [5] }
         let s : State := { reporting 14 with cmds := k }
         s.mayRecord 5 = false)
      ∧ (owning.owners.get 0 (0x10400 / 64) = 16 + 1 ∧ ((owning.block 16).owned 1040).isSome = true
          ∧ ((owning.block 16).owned 1040).map (·.1) = some 1540) := by decide

/-- Two lanes' commits of one instruction on the sector, with a lane's access to a page that is not replicated; a commit of
an engine, of the host and of the guest. -/
def siblingCommits : State :=
  { committing true 3501 with
    commits := (committing true 3501).commits.map (fun k => { k with len := 4 })
      ++ (committing true 3501).commits.map (fun k => { k with id := 10, lane := 1, pa := 0x10404, len := 4, locked := false })
      ++ (committing true 3501).commits.map fun k =>
        { k with id := 11, lane := 2, pa := 0x10408 + dieBytes, len := 4, locked := false, plain := true } }

def byWriter (w : Writer) : State :=
  { committing true 3501 with commits := (committing true 3501).commits.map fun k => { k with by' := w, part := 0 } }

theorem witness_ReplicatedCommits_writers :
    (∀ k ∈ siblingCommits.commits, k.id = 9 → (siblingCommits.siblings k).map (·.id) = [9, 10, 11] ∧ k.lane < 1024
        ∧ ∀ x ∈ siblingCommits.siblings k, siblingCommits.commitBusy x = false ∧ x.acc.kind = .store ∧ x.len ≤ 64
          ∧ (x ≠ k → ∀ a ∈ copies k.pa, ∀ b ∈ (if x.plain then [x.pa] else copies x.pa), b + x.len ≤ a ∨ a + k.len ≤ b)
          ∧ (x.tr.all fun e => e.acc && e.dirty) = true ∧ siblingCommits.owners.get 0 (x.pa / 64) = 0)
      ∧ (∀ w ∈ [Writer.engine 3, .guest 5, .host 64], ∀ k ∈ (byWriter w).commits, k.by' = w ∧ k.by' ≠ Writer.lane
          ∧ (byWriter w).siblings k = [k] ∧ (byWriter w).commitHere k = true ∧ (byWriter w).commitBusy k = false
          ∧ k.locked = true ∧ (byWriter w).tick ≤ k.lockTick + 3500 ∧ (byWriter w).guest.secs = []) := by decide

/-- A packet with an acquire flag, with and without a lease that keeps the guest's clock back. -/
theorem witness_GuestEvents_acquire :
    (let k := { packet with delivered := false, ord := .acq }
     let s := hosting k id
     s.mayDeliver k = true ∧ isAcq k.ord = true ∧ s.guest.secs = []
       ∧ (s.gqueue 5).pkts.find? (fun x => !x.returned && !x.delivered) = some k)
      ∧ (let k := { packet with delivered := false, ord := .acq }
         let s := (hosting k fun g => { g with secs := [(1040, ⟨false, 0, 164, none⟩)] }).modCore 1 fun c => { c with clock := 165 }
         s.mayDeliver k = true ∧ max s.guest.clock 164 < s.packetClock k) := by decide

/-- Restoring a cluster fills no flask's Tundish past its 32 entries. -/
theorem witness_LaunchPath_room :
    (match saved.refits 2 [] with
      | some cores => decide (∀ f ∈ List.range 64, (saved.moveTeams 2 0 cores).tundishUse f ≤ 32)
      | none => false) = true
      ∧ ({ saved with guest := { up := true } } : State).guestOn = true := by decide +kernel

theorem witness_DebugAndLinks_trip :
    State.reset.trip = false ∧ ({ State.reset with trip := true } : State).trip = true
      ∧ ({ State.reset with trip := true } : State).hot = false
      ∧ (State.reset.modDie 3 fun d => { d with hot := true }).hot = true := by decide

/-! ## Clauses of the later statements -/

/-- A recorded store of lane 0 to memory at 0x10400. -/
def storing : State :=
  { recorded .global 0x10400 with held := (recorded .global 0x10400).held.map fun h => { h with acc := { h.acc with kind := .store } } }

/-- Whether a recorded store goes to one place, whose leaf is marked and which no stash owns. -/
def onePlaceB (s : State) : Bool :=
  s.held.all fun h => match s.replayPlaces (s.who h.part) (s.together h) with
    | (s1, none, false, [(k, [x])]) => k = h && (match x.place with
      | .home e pa => !e.attr.rep && (s1.refreshed (s.coreOf h.part) e).acc && (s1.refreshed (s.coreOf h.part) e).dirty
          && s1.owners.get 0 (pa / 64) = 0
      | _ => false)
    | _ => false

/-- An access of the team, a command and an entry wait for report 5 of token 1. -/
def awaiting : State :=
  { recorded .global 0x10400 with
    held := (recorded .global 0x10400).held.map fun h => { h with report := 5 }
    cmds := (finished .l (.ladle .global .global [] [] [])).cmds.map fun k => { k with reports := [5] }
    tundish := (tagged none).tundish.map fun e => { e with reports := [5] }
    reports := (reporting 0).reports }

theorem witness_FaultsAndRecalls_replay :
    (placedB storing = true ∧ onePlaceB storing = true)
      ∧ (awaiting.reports.find? (fun x => x.ring = 0 && x.token = 1)).map (·.id) = some 5
      ∧ (∀ x ∈ awaiting.waiters, x.1 ≠ 5) ∧ (∀ c ∈ awaiting.cmds, 5 ∈ c.reports ∧ c.node = none ∧ awaiting.resident c.part = true)
      ∧ (∀ h ∈ awaiting.held, h.report = 5 ∧ awaiting.resident h.part = true ∧ awaiting.livePart h.part = true
          ∧ (awaiting.part h.part).life = .live ∧ (awaiting.launchAt h.part).level ≠ .h)
      ∧ (∀ e ∈ awaiting.tundish, 5 ∈ e.reports ∧ awaiting.resident e.part = true)
      ∧ awaiting.held.length = 1 ∧ awaiting.cmds.length = 1 ∧ awaiting.tundish.length = 1 := by decide

/-- A core whose part goes on, and a stalled part at level H. -/
theorem witness_TrapRecordsAndWatchdogs_parts :
    (let s := (demo.modCore 1 fun x => { x with idle := 2 ^ 20 })
     let s0 := s.modCore 1 fun x => { x with idle := 0 }
     2 ^ 20 ≤ (s.core 1).idle ∧ ∃ p ∈ s0.corePartIds 1, p ∈ s0.goingOn s0.parts.length [])
      ∧ (∀ s ∈ [stalled (2 ^ 20), (stalled (2 ^ 20)).modLaunch 1 fun x => { x with level := .h }],
          let s0 := s.modCore 1 fun x => { x with idle := 0 }
          2 ^ 20 ≤ (s.core 1).idle ∧ (∀ p ∈ s0.corePartIds 1, p ∉ s0.goingOn s0.parts.length [])
            ∧ s0.tokenHeld 1 = false ∧ (s0.parts.map (·.1)) = [pt] ∧ pt ∈ s0.corePartIds 1
            ∧ ∀ x ∈ s0.parts, s0.launchOf (teamOf x.1) = 1 ∧ x.2.life = .live ∧ x.2.wait ≠ .none ∧ s0.resident x.1 = true)
      ∧ ((stalled (2 ^ 20)).launchAt pt).level ≠ .h := by
  refine ⟨by decide, fun s hs => ?_, by decide⟩
  simp only [List.mem_cons, List.not_mem_nil, or_false] at hs
  rcases hs with rfl | rfl <;> decide

/-- The guest's walk reads the table at 0x30000 at time 200, past the lease that it holds. -/
def walkingGuest : State :=
  let s := hosting packet fun g => { g with clock := 100, secs := [(1040, ⟨false, 0, 164, none⟩)] }
  let s := withBytes ((s.modCore 0 fun c => { c with tlb := [] }).modFn 0 fun f => { f with l2waym := 0 }) 0x30008 8 0x1062F
  s.modDie 0 fun d => { d with memTime := 200, wcache := [⟨0, 0, false, false, 3, 0, 0x30000⟩] }

theorem witness_GuestEvents_walk :
    walkingGuest.guestOn = true ∧ (walkingGuest.gqueue 5).running 0 0 = some packet
      ∧ (match walkingGuest.resolve (walkingGuest.packetWho 5 packet) kRead 0x10400 with
        | (s1, .ok _) => walkingGuest.guest.clock < s1.guest.clock && !s1.guestMay noSector s1.guest.clock
        | _ => false) = true := by decide +kernel

/-- Sectors that the guest is asked for, of which it owns one. -/
theorem witness_GuestEvents_answers :
    ∀ own ∈ [false, true],
      ((hosting packet fun g => { g with secs := [(1040, ⟨own, 0, 164, some 1⟩)] }).guest.secs.find?
        (fun y => y.1 = 0x10400 / 64 && y.2.snooped.isSome)).map (·.2.owned) = some own := by decide

/-- An entry on tag 5 of which all pieces have been moved. -/
def finishing (body : TBody) : State :=
  { tagged (some 1) with
    tundish := (tagged (some 1)).tundish.map fun e => { e with body := body, todo := some [], res := [4] }
    defs := [{ id := 1, team := tm, lane := 0, reg := 20, group := 4, op := 0, val := none, mask := ones 32 }] }

/-- Bodies of each kind: an integer pass and a floating-point one, tiles loaded from memory and registers, and results
for registers. -/
def bodies : List TBody :=
  let o : MmaOps := ⟨20, 0, 30, .i8, .i8, false, false, false, false, false, 0, 4, .on, false, false, .block, .stream⟩
  [.mma false 16 o (.regs []) (.regs []) [] [] false,
    .mma false 16 { o with ta := .e4m3, tb := .e4m3 } (.regs []) (.regs []) [] [] false,
    .acldMem 0 0 .global false, .acldReg [[1]], .acstMem 0 0 .global, .acstat true, .acstReg [0], .had .n16 true [[1]]]

theorem witness_PassResults :
    (∀ b ∈ bodies, (finishing b).tundish.all (fun e => e.granted && (finishing b).entryHere e && e.reports = []
        && e.todo = some [] && e.res = [4] && e.body = b && ((finishing b).tagOf e.part e.tag).any fun k => k.slot < 64 && k.slot2 < 64)
        = true ∧ (finishing b).tundish.length = 1 ∧ ((finishing b).part pt).life ≠ .retired)
      ∧ (bodies.map fun b => match b with
          | .mma _ _ o _ _ _ _ _ => some (mmaIsInt o)
          | _ => none) = [some true, some false, none, none, none, none, none, none]
      ∧ ([4] : List Nat).Nodup ∧ ((finishing .acrel).defs.map (·.id)).Nodup
      ∧ (∀ d ∈ (finishing .acrel).defs, d.flags = 0 ∧ d.reg ≠ 255) := by decide

/-- The clocks are gated at the end of this tick, with an armed stop that is still to come. -/
theorem witness_DebugAndLinks_halt :
    ({ State.reset with haltDue := true, stopDue := 9 } : State).haltDue = true
      ∧ ({ State.reset with haltDue := true, stopDue := 9 } : State).tick < 9 := by decide

/-! ## What one instruction does: the values are those of the spec's tables, or reckoned by hand -/

/-- The NV, OF, UF and NX bits of v255 (R157). -/
abbrev nv : Nat := 1
abbrev ofx : Nat := 4 + 16
abbrev ufx : Nat := 8 + 16
abbrev nx : Nat := 16

/-- Whether an instruction on these registers of lane 0 leaves these other ones there. -/
def gives (i : Instr) (rs out : List (Nat × Nat)) : Bool :=
  let t := nextOf (exec i (solo rs))
  out.all fun x => t.reg tm 0 x.1 == x.2

/-- A conversion of v8, or of v8:v9, into v3: the result and the flags. -/
def converts (dst src : TyCode) (sat ftz : Bool) (rs : List (Nat × Nat)) (out fl : Nat) : Bool :=
  gives (.cvt h 4 8 dst src .rne sat ftz) rs [(4, out), (255, fl)]

/-- The table of R180. -/
theorem test_cvt_toInteger :
    converts .i8 .f32 false false [(8, 0x42FF0000)] 0x7F nv
    ∧ converts .n32 .f32 false false [(8, 0xBECCCCCD)] 0 nx
    ∧ converts .n32 .f32 false false [(8, 0xBF800000)] 0 nv
    ∧ converts .i32 .f32 false false [(8, 0x7FC00000)] 0 nv
    ∧ converts .i16 .i32 false false [(8, 40000)] 0x7FFF nv := by decide +kernel

/-- The table of R180, and the signalling NaN of R184. -/
theorem test_cvt_toFloat :
    converts .f16 .f32 false false [(8, 0x477FF000)] 0x7C00 ofx
    ∧ converts .e5m2 .f32 true false [(8, 0x7F800000)] 0x7C 0
    ∧ converts .e5m2 .f32 true false [(8, 0x47800000)] 0x7B ofx
    ∧ converts .e2m1 .f32 false false [(8, 0x40A00000)] 6 nx
    ∧ converts .f32 .i64 false false [(8, 1), (9, 0x200000)] 0x5A000000 nx
    ∧ converts .f32 .f32 false true [(8, 1)] 0 0
    ∧ converts .e4m3 .f16 false false [(8, 0x7C01)] 0x7F nv := by decide +kernel

/-- The example of R182: four values quantised with scale 3. -/
theorem test_qnt_example : gives (.qnt h 20 8 40 .e4m3 .rne false false)
    [(8, 0x42C80000), (9, 0xC0600000), (10, 0x44FA0000), (11, 0x3C23D70A), (40, 3)]
    [(20, 0x0178AE54), (255, ufx)] = true := by decide +kernel

/-- R182: 4,000.0 overflows to the NaN, or to the largest under `.sat`; and s = -128 gives 0 (R184). -/
theorem test_qnt_overflow :
    gives (.qnt h 20 8 40 .e4m3 .rne false false) [(8, 0x457A0000), (40, 3)] [(20, 0x7F), (255, ofx)]
    ∧ gives (.qnt h 20 8 40 .e4m3 .rne true false) [(8, 0x457A0000), (40, 3)] [(20, 0x7E)]
    ∧ gives (.qnt h 20 8 40 .e4m3 .rne false false) [(8, 0x7F800001), (40, 128)] [(20, 0), (255, 0)] := by
  decide +kernel

/-- R182: the example read back. -/
theorem test_dqn_example : gives (.dqn h 24 20 40 .e4m3 .rne false) [(20, 0x0178AE54), (40, 3)]
    [(24, 0x42C00000), (25, 0xC0600000), (26, 0x45000000), (27, 0x3C800000)] = true := by decide +kernel

/-- The example of R183. -/
theorem test_planes_example :
    gives (.plx h 24 16 8) [(16, 0xB6)] [(24, 1), (25, 0), (26, 1), (27, 1), (28, 0), (29, 1), (30, 1), (31, 0)]
    ∧ gives (.pli h 32 24 4) [(24, 1), (25, 0), (26, 1), (27, 1)] [(32, 0xB0), (33, 0)] := by decide +kernel

/-- R177, R178: -0 + +0 is +0, and -0 when rounded down; 1 + 2^-24 ties to 1; the largest number doubles to
an infinity or, under `.sat`, to itself. -/
theorem test_fadd :
    gives (.fadd h 5 8 9 .f32 .rne false false) [(8, 0x80000000), (9, 0)] [(5, 0), (255, 0)]
    ∧ gives (.fadd h 5 8 9 .f32 .rdn false false) [(8, 0x80000000), (9, 0)] [(5, 0x80000000)]
    ∧ gives (.fadd h 5 8 9 .f32 .rne false false) [(8, 0x3F800000), (9, 0x33800000)] [(5, 0x3F800000), (255, nx)]
    ∧ gives (.fadd h 5 8 9 .f32 .rne false false) [(8, 0x7F7FFFFF), (9, 0x7F7FFFFF)] [(5, 0x7F800000), (255, ofx)]
    ∧ gives (.fadd h 5 8 9 .f32 .rne true false) [(8, 0x7F7FFFFF), (9, 0x7F7FFFFF)] [(5, 0x7F7FFFFF)] := by
  decide +kernel

/-- R178: a fused product is rounded once: (1 + 2^-23)^2 - (1 + 2^-22) is 2^-46. -/
theorem test_ffma_once : gives (.ffma h 5 8 9 10 .f32 .rne false false)
    [(8, 0x3F800001), (9, 0x3F800001), (10, 0xBF800002)] [(5, 0x28800000), (255, 0)] = true := by decide +kernel

/-- R184: v255 takes the result, and then the flags: 0 times infinity. -/
theorem test_ffma_v255 : gives (.ffma h 255 8 9 10 .f32 .rne false false)
    [(8, 0), (9, 0x7F800000), (10, 0)] [(255, 0x7FC00001)] = true := by decide +kernel

/-- R172: saturation at the ends of the types. -/
theorem test_iadd_sat :
    gives (.iadd h 5 8 9 .i32 true) [(8, 0x7FFFFFFF), (9, 1)] [(5, 0x7FFFFFFF)]
    ∧ gives (.iadd h 5 8 9 .n32 true) [(8, 0xFFFFFFFF), (9, 1)] [(5, 0xFFFFFFFF)]
    ∧ gives (.iadd h 5 8 9 .i32 false) [(8, 0x7FFFFFFF), (9, 1)] [(5, 0x80000000)] := by decide +kernel

/-- R172: the smallest number's absolute value, and a subtraction below zero. -/
theorem test_isub_iabs :
    gives (.isub h 5 8 9 .n32 true) [(8, 1), (9, 2)] [(5, 0)]
    ∧ gives (.isub h 5 8 9 .i32 true) [(8, 0x80000000), (9, 1)] [(5, 0x80000000)]
    ∧ gives (.iabs h 5 8 true) [(8, 0x80000000)] [(5, 0x7FFFFFFF)] := by decide +kernel

/-- R172: the high half of a product under either sign. -/
theorem test_imulh :
    gives (.imulh h 5 8 9 .i32) [(8, 0xFFFFFFFF), (9, 2)] [(5, 0xFFFFFFFF)]
    ∧ gives (.imulh h 5 8 9 .n32) [(8, 0xFFFFFFFF), (9, 2)] [(5, 1)]
    ∧ gives (.imadw h 6 8 9 10 .n32) [(8, 0xFFFFFFFF), (9, 0xFFFFFFFF), (10, 1), (11, 1)]
        [(6, 2), (7, 0xFFFFFFFF)] := by decide +kernel

/-- R184, R172: a shift by 256 gives 0, and an arithmetic one the sign. -/
theorem test_shifts :
    gives (.shl h 5 8 9) [(8, 0xFFFFFFFF), (9, 0x100)] [(5, 0)]
    ∧ gives (.sha h 5 8 9) [(8, 0x80000000), (9, 32)] [(5, 0xFFFFFFFF)]
    ∧ gives (.shr h 5 8 9) [(8, 0x80000000), (9, 31)] [(5, 1)] := by decide +kernel

/-- R172: the majority of three, and the choice that LUT 0xCA makes in the bit transpose program. -/
theorem test_lop3 :
    gives (.lop3 h 5 6 7 8 0xE8) [(6, 0xF0F0), (7, 0xFF00), (8, 0xCCCC)] [(5, 0xFCC0)]
    ∧ gives (.lop3 h 5 6 7 8 0xCA) [(6, 0xFF), (7, 0x1234), (8, 0xABCD)] [(5, 0xAB34)] := by decide +kernel

/-- R174: a field extracted with its sign and without, and bytes chosen or spread by their sign bit. -/
theorem test_bitFields :
    gives (.bfx h 5 8 9 .i32) [(8, 0x00000F00), (9, 0x408)] [(5, 0xFFFFFFFF)]
    ∧ gives (.bfx h 5 8 9 .n32) [(8, 0x00000F00), (9, 0x408)] [(5, 0xF)]
    ∧ gives (.prmt h 5 8 9 10) [(8, 0x83020100), (9, 0x07060504), (10, 0xB073)] [(5, 0xFF000783)] := by
  decide +kernel

/-- R175: an index is extended before it is scaled. -/
theorem test_lea :
    gives (.lea h 4 8 10 true .s4) [(8, 8), (9, 1), (10, 0xFFFFFFFF)] [(4, 4), (5, 1)]
    ∧ gives (.lea h 4 8 10 false .s4) [(8, 8), (9, 1), (10, 0xFFFFFFFF)] [(4, 4), (5, 5)] := by decide +kernel

/-- The predicate numbered `k` of lane 0 after an instruction. -/
def setsP (i : Instr) (rs : List (Nat × Nat)) (k : Nat) (v : Bool) : Bool :=
  ((nextOf (exec i (solo rs))).reg tm 0 (k / 32)).testBit (k % 32) == v

/-- R172, R177: comparisons under either sign, and of a NaN. -/
theorem test_compare :
    setsP (.icmp h 40 8 9 .i32 .lt) [(8, 0xFFFFFFFF), (9, 0)] 40 true
    ∧ setsP (.icmp h 40 8 9 .n32 .lt) [(8, 0xFFFFFFFF), (9, 0)] 40 false
    ∧ setsP (.fcmp h 40 8 9 .ne false) [(8, 0x7FC00000), (9, 0)] 40 true
    ∧ setsP (.fcmp h 40 8 9 .eq false) [(8, 0), (9, 0x80000000)] 40 true := by decide +kernel

/-- R223, R225: lane 0 reads lane 1's register under `.xor` 1; the result is on its way. -/
theorem test_shuf_xor :
    ((nextOf (exec (.shufImm h 5 8 1 .xor false .sgd) ((solo []).putReg tm 1 8 77))).defs.any fun d =>
      d.lane = 0 && d.reg = 5 && d.val = some 77) = true := by decide +kernel

/-- R56, R72: the spec's worked places of a stash offset and of a physical address. -/
theorem test_places :
    stashPlace 4 0x9234 = (2, 0x2434) ∧ hbmStack 0x3100421234 = 1 ∧ pseudoChannel 0x3100421234 = 54
      ∧ homeDie 0x3100421234 = 1 ∧ homeSlice 0x3100421234 = 28 := by decide +kernel

/-- R363, R367: the digests that FIPS 202 gives of the empty message, their first eight bytes. -/
theorem test_digests :
    shake256 [] 8 = 0x138DA80B2BDDB946 ∧ sha3 [] % 2 ^ 64 = 0xC59A3AA2CC739FA6 := by decide +kernel

end Sys2Proof.Tests
end

section
/-! Decode and encode agree (R14 to R17): the bit fields that the encoder packs and the decoder takes apart, the
round trip of every lane instruction, what a decoded word is, and the forms of a fetch word. -/

namespace Sys2Proof

/-! ## Bit fields -/

@[simp] theorem b2n_true : b2n true = 1 := rfl
@[simp] theorem b2n_false : b2n false = 0 := rfl

theorem bit_of_div_mod {x k : Nat} {b : Bool} (h : x / 2 ^ k % 2 = b2n b) : bit x k = b := by
  simp only [bit, bits]
  cases b <;> simp_all [b2n]

theorem bits_of_lt {x w : Nat} (h : x < 2 ^ w) : bits x 0 w = x := by
  rw [bits, Nat.pow_zero, Nat.div_one, Nat.mod_eq_of_lt h]

@[simp] theorem rg_val (r : Reg) : rg r.val = r := by simp [rg]
@[simp] theorem pr_val (r : Pred) : pr r.val = r := by simp [pr]
@[simp] theorem lb_val (l : Lbl) : lb l.val = l := by simp [lb]
theorem rg_of_mod {x : Nat} {r : Reg} (h : x % 256 = r.val) : rg x = r := Fin.ext h
theorem lb_of_mod {x : Nat} {r : Lbl} (h : x % 4096 = r.val) : lb x = r := Fin.ext h

@[simp] theorem need_some {α : Type} (x : α) : need (some x) = .ok x := rfl
@[simp] theorem pure_eq_ok {ε α : Type} (x : α) : (pure x : Except ε α) = .ok x := rfl
@[simp] theorem bind_ok {ε α β : Type} (x : α) (f : α → Except ε β) : (Except.ok x >>= f) = f x := rfl

@[simp] theorem PSrc.ofNat_code (p : PSrc) : PSrc.ofNat p.code = p := by
  obtain ⟨b, n⟩ := p
  have := n.isLt
  have hb : bit (PSrc.code ⟨b, n⟩) 7 = b := bit_of_div_mod (by have := b2n_lt b; simp only [PSrc.code]; omega)
  have hn : Fin.ofNat 128 (PSrc.code ⟨b, n⟩) = n := Fin.ext (by simp only [PSrc.code, Fin.ofNat]; omega)
  rw [PSrc.ofNat, hb, hn]

theorem BarRef.ofNat_of_mod {x : Nat} {b : BarRef} (h : x % 32 = b.code) : BarRef.ofNat x = b := by
  obtain ⟨c, n⟩ := b
  have := n.isLt
  have := b2n_lt c
  simp only [BarRef.code] at h
  have hb : bit x 4 = c := bit_of_div_mod (by omega)
  have hn : Fin.ofNat 16 x = n := Fin.ext (by simp only [Fin.ofNat]; omega)
  rw [BarRef.ofNat, hb, hn]

@[simp] theorem BarRef.ofNat_code (b : BarRef) : BarRef.ofNat b.code = b :=
  BarRef.ofNat_of_mod (Nat.mod_eq_of_lt b.code_lt)
@[simp] theorem BarRef.ofNat_lbl (b : BarRef) (l : Lbl) : BarRef.ofNat ((l.val + 4096 * b.code) / 4096) = b :=
  BarRef.ofNat_of_mod (by have := b.code_lt; have := l.isLt; omega)

@[simp] theorem barOf_barCode (b : Option BarRef) : barOf (barCode b) = b := by
  cases b with
  | none => rfl
  | some b =>
    obtain ⟨c, n⟩ := b
    have := n.isLt
    have := b2n_lt c
    have h0 : bit (barCode (some ⟨c, n⟩)) 0 = true := bit_of_div_mod (by simp only [barCode, b2n_true]; omega)
    have h5 : bit (barCode (some ⟨c, n⟩)) 5 = c := bit_of_div_mod (by simp only [barCode]; omega)
    have hn : Fin.ofNat 16 (barCode (some ⟨c, n⟩) / 2) = n := Fin.ext (by simp only [barCode, Fin.ofNat]; omega)
    rw [barOf, h0, h5, hn]; rfl

@[simp] theorem ordOf_ordFlag_acq (f : Bool) : ordOf (ordFlag f 1) 1 = .ok f := by cases f <;> rfl
@[simp] theorem ordOf_ordFlag_rel (f : Bool) : ordOf (ordFlag f 2) 2 = .ok f := by cases f <;> rfl

/-! ## MOD fields -/

section Mod
variable (x y : Bool)

@[simp] theorem bit_b2n : bit (b2n x) 0 = x := bit_of_div_mod (by have := b2n_lt x; omega)
@[simp] theorem bit_one_b2n : bit (2 * b2n x) 1 = x := bit_of_div_mod (by have := b2n_lt x; omega)
@[simp] theorem bit_two_b2n : bit (4 * b2n x) 2 = x := bit_of_div_mod (by have := b2n_lt x; omega)
@[simp] theorem bit_b2n_add (k : Nat) : bit (b2n x + 2 * k) 0 = x := bit_of_div_mod (by have := b2n_lt x; omega)
@[simp] theorem b2n_add_div (k : Nat) : (b2n x + 2 * k) / 2 = k := by have := b2n_lt x; omega

end Mod

theorem ITy.of_bit {m : Nat} {ty : ITy} (h : m % 2 = ty.code) : (if bit m 0 = true then ITy.n32 else .i32) = ty := by
  have hb : bit m 0 = decide (ty = .n32) := bit_of_div_mod (by cases ty <;> simp_all [ITy.code, b2n])
  rw [hb]
  cases ty <;> rfl

@[simp] theorem ITy.of_bit_code (ty : ITy) : (if bit ty.code 0 = true then ITy.n32 else .i32) = ty :=
  ITy.of_bit (by have := ty.code_lt; omega)
@[simp] theorem ITy.of_bit_sat (ty : ITy) (k : Nat) : (if bit (ty.code + 2 * k) 0 = true then ITy.n32 else .i32) = ty :=
  ITy.of_bit (by have := ty.code_lt; omega)
@[simp] theorem ITy.of_bit_cond (ty : ITy) (k : Nat) : (if bit (ty.code + 4 * k) 0 = true then ITy.n32 else .i32) = ty :=
  ITy.of_bit (by have := ty.code_lt; omega)
@[simp] theorem ITy.bit_sat (ty : ITy) (s : Bool) : bit (ty.code + 2 * b2n s) 1 = s :=
  bit_of_div_mod (by have := ty.code_lt; have := b2n_lt s; omega)
@[simp] theorem ITy.cond_div (ty : ITy) (k : Nat) : (ty.code + 4 * k) / 4 = k := by
  have := ty.code_lt; omega
@[simp] theorem ITy.of_eq (ty : ITy) : (if ty = .n32 then ITy.n32 else .i32) = ty := by
  cases ty <;> rfl

section Fmod
variable (ty : FTy) (r : Rnd) (s f : Bool)

theorem fmod_lt : fmod ty r s f < 256 := by
  have := ty.code_lt; have := r.code_lt; have := b2n_lt s; have := b2n_lt f
  unfold fmod; omega
@[simp] theorem fmod_ty : bits (fmod ty r s f) 0 3 = ty.code := by
  have := ty.code_lt; unfold fmod bits; omega
@[simp] theorem fmod_rnd : bits (fmod ty r s f) 3 3 = r.code := by
  have := ty.code_lt; have := r.code_lt; unfold fmod bits; omega
@[simp] theorem fmod_sat : bit (fmod ty r s f) 6 = s := bit_of_div_mod (by
  have := ty.code_lt; have := r.code_lt; have := b2n_lt s; unfold fmod; omega)
@[simp] theorem fmod_ftz : bit (fmod ty r s f) 7 = f := bit_of_div_mod (by
  have := ty.code_lt; have := r.code_lt; have := b2n_lt s; have := b2n_lt f; unfold fmod; omega)

/-- `fcmp` holds its condition above the common MOD fields. -/
theorem fmod_cond {m k : Nat} (h : m = fmod ty r s f + 256 * k) (hk : k < 8) :
    m < 4096 ∧ bits m 0 3 = ty.code ∧ bits m 3 3 = r.code ∧ bit m 7 = f ∧ bits m 8 4 = k := by
  have := ty.code_lt; have := r.code_lt; have := b2n_lt s; have := b2n_lt f
  unfold fmod at h
  exact ⟨by omega, by unfold bits; omega, by unfold bits; omega, bit_of_div_mod (by omega), by unfold bits; omega⟩

end Fmod

section Pmod
variable (tc : TyCode) (r : Rnd) (s f : Bool)

theorem pmod_lt : pmod tc r s f < 512 := by
  have := tc.code_lt; have := r.code_lt; have := b2n_lt s; have := b2n_lt f
  unfold pmod; omega
@[simp] theorem pmod_ty : bits (pmod tc r s f) 0 4 = tc.code := by
  have := tc.code_lt; unfold pmod bits; omega
@[simp] theorem pmod_rnd : bits (pmod tc r s f) 4 3 = r.code := by
  have := tc.code_lt; have := r.code_lt; unfold pmod bits; omega
@[simp] theorem pmod_sat : bit (pmod tc r s f) 7 = s := bit_of_div_mod (by
  have := tc.code_lt; have := r.code_lt; have := b2n_lt s; unfold pmod; omega)
@[simp] theorem pmod_ftz : bit (pmod tc r s f) 8 = f := bit_of_div_mod (by
  have := tc.code_lt; have := r.code_lt; have := b2n_lt s; have := b2n_lt f; unfold pmod; omega)

end Pmod

section Xmod
variable {var : Nat} (ty x ftz : Bool) (seg : Seg)

/-- The fields of MOD of a cross-lane instruction (R221). -/
theorem xmod_fields (hv : var < 8) :
    xmod var ty x ftz seg < 4096 ∧ bits (xmod var ty x ftz seg) 0 3 = var
      ∧ bit (xmod var ty x ftz seg) 3 = ty ∧ bit (xmod var ty x ftz seg) 4 = x
      ∧ bit (xmod var ty x ftz seg) 6 = ftz ∧ bits (xmod var ty x ftz seg) 8 4 = seg.code := by
  have := seg.code_lt; have := b2n_lt ty; have := b2n_lt x; have := b2n_lt ftz
  unfold xmod
  exact ⟨by omega, by unfold bits; omega, bit_of_div_mod (by omega), bit_of_div_mod (by omega),
    bit_of_div_mod (by omega), by unfold bits; omega⟩

end Xmod

section Amod
variable (op : AtomOp) (ty : AtomTy) (sp : Space) (ord : Ord)

theorem amod_lt : amod op ty sp ord < 4096 := by
  have := op.code_lt; have := ty.code_lt; have := sp.code_lt; have := ord.code_lt
  unfold amod; omega
@[simp] theorem amod_op : bits (amod op ty sp ord) 0 4 = op.code := by
  have := op.code_lt; unfold amod bits; omega
@[simp] theorem amod_ty : bits (amod op ty sp ord) 4 3 = ty.code := by
  have := op.code_lt; have := ty.code_lt; unfold amod bits; omega
@[simp] theorem amod_sp : bits (amod op ty sp ord) 7 2 = sp.code := by
  have := op.code_lt; have := ty.code_lt; have := sp.code_lt; unfold amod bits; omega
@[simp] theorem amod_ord : bits (amod op ty sp ord) 9 2 = ord.code := by
  have := op.code_lt; have := ty.code_lt; have := sp.code_lt; have := ord.code_lt
  unfold amod bits; omega

end Amod

section Gmod
variable (sz : Sz) (iw : IxW) (ixs : Bool) (scl : Scale) (sh : Bool) (ord : Ord)

theorem gmod_lt : gmod sz iw ixs scl sh ord < 4096 := by
  have := sz.code_lt; have := iw.code_lt; have := b2n_lt ixs; have := scl.code_lt; have := b2n_lt sh
  have := ord.code_lt
  unfold gmod; omega
@[simp] theorem gmod_sz : bits (gmod sz iw ixs scl sh ord) 0 3 = sz.code := by
  have := sz.code_lt; unfold gmod bits; omega
@[simp] theorem gmod_iw : bits (gmod sz iw ixs scl sh ord) 3 2 = iw.code := by
  have := sz.code_lt; have := iw.code_lt; unfold gmod bits; omega
@[simp] theorem gmod_ixs : bit (gmod sz iw ixs scl sh ord) 5 = ixs := bit_of_div_mod (by
  have := sz.code_lt; have := iw.code_lt; have := b2n_lt ixs; unfold gmod; omega)
@[simp] theorem gmod_scl : bits (gmod sz iw ixs scl sh ord) 6 3 = scl.code := by
  have := sz.code_lt; have := iw.code_lt; have := b2n_lt ixs; have := scl.code_lt
  unfold gmod bits; omega
@[simp] theorem gmod_stash : bit (gmod sz iw ixs scl sh ord) 9 = sh := bit_of_div_mod (by
  have := sz.code_lt; have := iw.code_lt; have := b2n_lt ixs; have := scl.code_lt; have := b2n_lt sh
  unfold gmod; omega)
@[simp] theorem gmod_ord : bits (gmod sz iw ixs scl sh ord) 10 2 = ord.code := by
  have := sz.code_lt; have := iw.code_lt; have := b2n_lt ixs; have := scl.code_lt; have := b2n_lt sh
  have := ord.code_lt
  unfold gmod bits; omega

end Gmod

/-! ## Extension fields -/

section CpyExt
variable {lr : Nat} (ls : Bool) (o : CpyOps) (hr : lr < 256)
include hr

/-- The mode and length fields of `cpy` and `cpyg` (R247). -/
theorem cpyExt_fields :
    bit (cpyExt lr ls o) 8 = ls ∧ cpyExt lr ls o % 256 = lr := by
  have := b2n_lt ls
  unfold cpyExt
  exact ⟨bit_of_div_mod (by omega), by omega⟩

theorem decodeCpyOps_cpyExt : decodeCpyOps (cpyExt lr ls o) = .ok o := by
  have := b2n_lt ls; have := o.dsp.code_lt; have := o.ssp.code_lt; have := o.ord.code_lt
  have := o.sco.code_lt; have := barCode_lt o.bar; have := o.ca.code_lt
  have h9 : bits (cpyExt lr ls o) 9 2 = o.dsp.code := by unfold cpyExt bits; omega
  have h11 : bits (cpyExt lr ls o) 11 2 = o.ssp.code := by unfold cpyExt bits; omega
  have h13 : bits (cpyExt lr ls o) 13 2 = o.ord.code := by unfold cpyExt bits; omega
  have h15 : bits (cpyExt lr ls o) 15 3 = o.sco.code := by unfold cpyExt bits; omega
  have h18 : bits (cpyExt lr ls o) 18 6 = barCode o.bar := by unfold cpyExt bits; omega
  have h24 : bits (cpyExt lr ls o) 24 2 = o.ca.code := by unfold cpyExt bits; omega
  simp [decodeCpyOps, h9, h11, h13, h15, h18, h24]

end CpyExt


section MmaExt
variable (o : MmaOps)

theorem decodeMma_ext : decodeMma o.imm o.ext = .ok o := by
  have := o.b.isLt; have := o.sa.isLt; have := o.sb.isLt
  have := o.ta.code_lt; have := o.tb.code_lt; have := b2n_lt o.aMem; have := b2n_lt o.bMem
  have := b2n_lt o.sca; have := b2n_lt o.scb; have := b2n_lt o.sel; have := o.ka.isLt; have := o.kb.isLt
  have := o.cen.code_lt; have := b2n_lt o.stash; have := b2n_lt o.acq; have := o.sco.code_lt
  have := o.ca.code_lt
  have hb : rg o.imm = o.b := rg_of_mod (by unfold MmaOps.imm; omega)
  have hsa : rg (o.imm / 2 ^ 8) = o.sa := rg_of_mod (by unfold MmaOps.imm; omega)
  have hsb : rg (o.imm / 2 ^ 16) = o.sb := rg_of_mod (by unfold MmaOps.imm; omega)
  have h0 : bits o.ext 0 4 = o.ta.code := by unfold MmaOps.ext bits; omega
  have h4 : bits o.ext 4 4 = o.tb.code := by unfold MmaOps.ext bits; omega
  have h8 : bit o.ext 8 = o.aMem := bit_of_div_mod (by unfold MmaOps.ext; omega)
  have h9 : bit o.ext 9 = o.bMem := bit_of_div_mod (by unfold MmaOps.ext; omega)
  have h10 : bit o.ext 10 = o.sca := bit_of_div_mod (by unfold MmaOps.ext; omega)
  have h11 : bit o.ext 11 = o.scb := bit_of_div_mod (by unfold MmaOps.ext; omega)
  have h12 : bit o.ext 12 = o.sel := bit_of_div_mod (by unfold MmaOps.ext; omega)
  have h14 : Fin.ofNat 16 (o.ext / 2 ^ 14) = o.ka := Fin.ext (by simp only [Fin.ofNat, MmaOps.ext]; omega)
  have h18 : Fin.ofNat 16 (o.ext / 2 ^ 18) = o.kb := Fin.ext (by simp only [Fin.ofNat, MmaOps.ext]; omega)
  have h22 : bits o.ext 22 2 = o.cen.code := by unfold MmaOps.ext bits; omega
  have h24 : bit o.ext 24 = o.stash := bit_of_div_mod (by unfold MmaOps.ext; omega)
  have h25 : bit o.ext 25 = o.acq := bit_of_div_mod (by unfold MmaOps.ext; omega)
  have h26 : bits o.ext 26 3 = o.sco.code := by unfold MmaOps.ext bits; omega
  have h29 : bits o.ext 29 2 = o.ca.code := by unfold MmaOps.ext bits; omega
  simp only [decodeMma, hb, hsa, hsb, h0, h4, h8, h9, h10, h11, h12, h14, h18, h22, h24, h25, h26, h29,
    MTy.ofCode_code, Cen.ofCode_code, Scope.ofCode_code, Cache.ofCode_code, need_some, bind_ok]
  rfl

end MmaExt

section TravExt
variable (o : TravOps)

theorem decodeTrav_ext : decodeTrav o.imm o.ext = .ok o := by
  have := o.ent.isLt; have := o.lea.isLt; have := o.vr.isLt
  have := o.prn.isLt; have := o.don.isLt; have := b2n_lt o.acq; have := o.sco.code_lt
  have := b2n_lt o.stash; have := o.ca.code_lt
  have he : lb o.imm = o.ent := lb_of_mod (by unfold TravOps.imm; omega)
  have hl : lb (o.imm / 2 ^ 12) = o.lea := lb_of_mod (by unfold TravOps.imm; omega)
  have hv : rg (o.imm / 2 ^ 24) = o.vr := rg_of_mod (by unfold TravOps.imm; omega)
  have hp : lb o.ext = o.prn := lb_of_mod (by unfold TravOps.ext; omega)
  have hd : lb (o.ext / 2 ^ 12) = o.don := lb_of_mod (by unfold TravOps.ext; omega)
  have h24 : bit o.ext 24 = o.acq := bit_of_div_mod (by unfold TravOps.ext; omega)
  have h25 : bits o.ext 25 3 = o.sco.code := by unfold TravOps.ext bits; omega
  have h28 : bit o.ext 28 = o.stash := bit_of_div_mod (by unfold TravOps.ext; omega)
  have h29 : bits o.ext 29 2 = o.ca.code := by unfold TravOps.ext bits; omega
  simp only [decodeTrav, he, hl, hv, hp, hd, h24, h25, h28, h29, Scope.ofCode_code, Cache.ofCode_code,
    need_some, bind_ok]
  rfl

end TravExt

section TretExt
variable {var : Nat} (rev acq : Bool) (sco : Scope)

/-- The extension fields of `tret` (R305). -/
theorem tretExt_fields (hv : var < 8) :
    bits (tretExt var rev acq sco) 0 3 = var
      ∧ bit (tretExt var rev acq sco) 3 = rev ∧ bit (tretExt var rev acq sco) 4 = acq
      ∧ bits (tretExt var rev acq sco) 5 3 = sco.code := by
  have := b2n_lt rev; have := b2n_lt acq; have := sco.code_lt
  unfold tretExt
  exact ⟨by unfold bits; omega, bit_of_div_mod (by omega), bit_of_div_mod (by omega),
    by unfold bits; omega⟩

end TretExt

section TcutExt
variable (o : TcutOps)

@[simp] theorem TcutOps.ext_stash : bit o.ext 0 = o.stash := bit_of_div_mod (by
  have := b2n_lt o.stash; unfold TcutOps.ext; omega)
@[simp] theorem TcutOps.ext_rel : bits o.ext 2 2 = ordFlag o.rel 2 := by
  have := b2n_lt o.stash; have := ordFlag_lt o.rel 2 (by decide)
  unfold TcutOps.ext bits; omega
@[simp] theorem TcutOps.ext_sco : bits o.ext 4 3 = o.sco.code := by
  have := b2n_lt o.stash; have := ordFlag_lt o.rel 2 (by decide); have := o.sco.code_lt
  unfold TcutOps.ext bits; omega
@[simp] theorem TcutOps.ext_bar : bits o.ext 7 6 = barCode o.bar := by
  have := b2n_lt o.stash; have := ordFlag_lt o.rel 2 (by decide); have := o.sco.code_lt
  have := barCode_lt o.bar
  unfold TcutOps.ext bits; omega
@[simp] theorem TcutOps.ext_ca : bits o.ext 13 2 = o.ca.code := by
  have := b2n_lt o.stash; have := ordFlag_lt o.rel 2 (by decide); have := o.sco.code_lt
  have := barCode_lt o.bar; have := o.ca.code_lt
  unfold TcutOps.ext bits; omega

end TcutExt

section TinvImm
variable (o : TinvOps)

@[simp] theorem TinvOps.imm_sp : rg o.imm = o.sp := rg_of_mod (by
  have := o.sp.isLt; unfold TinvOps.imm; omega)
@[simp] theorem TinvOps.imm_n : rg (o.imm / 256) = o.n := rg_of_mod (by
  have := o.sp.isLt; have := o.n.isLt; unfold TinvOps.imm; omega)
@[simp] theorem TinvOps.imm_vf : Fin.ofNat 64 (o.imm / 65536) = o.vf := Fin.ext (by
  have := o.sp.isLt; have := o.n.isLt; have := o.vf.isLt
  simp only [Fin.ofNat, TinvOps.imm]; omega)

end TinvImm

/-! ## Fields that the encoder packs in place -/

/-- MOD of `cvt` (R179). -/
def cvtMod (dst src : TyCode) (r : Rnd) (s : Bool) : Nat := dst.code + 16 * src.code + 256 * r.code + 2048 * b2n s

theorem cvtMod_fields (dst src : TyCode) (r : Rnd) (s : Bool) :
    cvtMod dst src r s < 4096 ∧ bits (cvtMod dst src r s) 0 4 = dst.code ∧ bits (cvtMod dst src r s) 4 4 = src.code
      ∧ bits (cvtMod dst src r s) 8 3 = r.code ∧ bit (cvtMod dst src r s) 11 = s := by
  have := dst.code_lt; have := src.code_lt; have := r.code_lt; have := b2n_lt s
  unfold cvtMod
  exact ⟨by omega, by unfold bits; omega, by unfold bits; omega, by unfold bits; omega, bit_of_div_mod (by omega)⟩

/-- The immediate of `ld`, `st` and `pfd`: the offset above MOD (R115, R131). -/
def offMod (off : BitVec 16) (m : Nat) : Nat := off.toNat * 2 ^ 12 + m

theorem offMod_fields (off : BitVec 16) {m : Nat} (hm : m < 4096) :
    bits (offMod off m) 0 12 = m ∧ offMod off m / 4096 = off.toNat := by
  unfold offMod
  exact ⟨by unfold bits; omega, by omega⟩

/-- MOD of `ld` and `st`, with the code `k` of the order (R115). -/
def ldMod (sz : Sz) (sp : Space) (k : Nat) (ca : Cache) : Nat := sz.code + 8 * sp.code + 32 * k + 128 * ca.code

theorem ldMod_fields (sz : Sz) (sp : Space) {k : Nat} (ca : Cache) (hk : k < 4) :
    ldMod sz sp k ca < 4096 ∧ bits (ldMod sz sp k ca) 0 3 = sz.code ∧ bits (ldMod sz sp k ca) 3 2 = sp.code
      ∧ bits (ldMod sz sp k ca) 5 2 = k ∧ bits (ldMod sz sp k ca) 7 2 = ca.code := by
  have := sz.code_lt; have := sp.code_lt; have := ca.code_lt
  unfold ldMod
  exact ⟨by omega, by unfold bits; omega, by unfold bits; omega, by unfold bits; omega, by unfold bits; omega⟩

/-- MOD of `ldft` (R125). -/
theorem ldft_fields (t16 : Bool) (cnt : FtCount) :
    b2n t16 + 2 * cnt.code < 4096 ∧ bits (b2n t16 + 2 * cnt.code) 1 2 = cnt.code := by
  have := b2n_lt t16; have := cnt.code_lt
  exact ⟨by omega, by unfold bits; omega⟩

/-- The extension fields of `had` (R286). -/
def hadExt (n g : HadN) (norm : Bool) : Nat := n.code + 4 * g.code + 16 * b2n norm

theorem hadExt_fields (n g : HadN) (norm : Bool) :
    bits (hadExt n g norm) 0 2 = n.code ∧ bits (hadExt n g norm) 2 2 = g.code
      ∧ bit (hadExt n g norm) 4 = norm := by
  have := n.code_lt; have := g.code_lt; have := b2n_lt norm
  unfold hadExt
  exact ⟨by unfold bits; omega, by unfold bits; omega, bit_of_div_mod (by omega)⟩

/-- The extension fields of `gpost` (R319). -/
theorem gpost_fields (ord : Ord) (sco : Scope) :
    bits (ord.code + 4 * sco.code) 0 2 = ord.code
      ∧ bits (ord.code + 4 * sco.code) 2 3 = sco.code := by
  have := ord.code_lt; have := sco.code_lt
  exact ⟨by unfold bits; omega, by unfold bits; omega⟩

/-- The extension fields of the memory form of `acld` and `acst`, with the code `k` of the order (R288). -/
def acExt (sp : Space) (k : Nat) (sco : Scope) (ca : Cache) (pair : Bool) : Nat :=
  2 * sp.code + 2 ^ 3 * k + 2 ^ 5 * sco.code + 2 ^ 8 * ca.code + 2 ^ 10 * b2n pair

/-- The memory form of `acld` (order code 1) and `acst` (order code 2) reads back (R288). -/
theorem decodeAcForm_acExt (pr : Reg) (sp : Space) (od : Bool) (sco : Scope) (ca : Cache) (pair : Bool) {k : Nat}
    (hk : k < 4) (hord : ordOf (ordFlag od k) k = .ok od) :
    bit (acExt sp (ordFlag od k) sco ca pair) 10 = pair
      ∧ decodeAcForm pr.val (acExt sp (ordFlag od k) sco ca pair) k = .ok (.mem pr sp od sco ca) := by
  have := sp.code_lt; have := ordFlag_lt od k hk; have := sco.code_lt; have := ca.code_lt; have := b2n_lt pair
  have h0 : bit (acExt sp (ordFlag od k) sco ca pair) 0 = false :=
    bit_of_div_mod (by unfold acExt; rw [b2n_false]; omega)
  have h1 : bits (acExt sp (ordFlag od k) sco ca pair) 1 2 = sp.code := by unfold acExt bits; omega
  have h3 : bits (acExt sp (ordFlag od k) sco ca pair) 3 2 = ordFlag od k := by unfold acExt bits; omega
  have h5 : bits (acExt sp (ordFlag od k) sco ca pair) 5 3 = sco.code := by unfold acExt bits; omega
  have h8 : bits (acExt sp (ordFlag od k) sco ca pair) 8 2 = ca.code := by unfold acExt bits; omega
  refine ⟨bit_of_div_mod (by unfold acExt; omega), ?_⟩
  simp [decodeAcForm, h0, h1, h3, h5, h8, hord]

theorem decodeAcForm_reg (imm k : Nat) : decodeAcForm imm 1 k = .ok .reg := rfl

/-- The immediate of `csrr` and `csrw` (R342). -/
theorem csr_fields (csr : Fin 4096) (vf : Fin 64) :
    Fin.ofNat 4096 (csr.val + 4096 * vf.val) = csr ∧ (csr.val + 4096 * vf.val) / 4096 = vf.val :=
  ⟨Fin.ext (by simp only [Fin.ofNat]; omega), by omega⟩

/-- `atom` has a third source in place of a rounding code exactly under `cas` (R118, R119). -/
theorem wf_atom {h : Hdr} {d a b c : Reg} {op : AtomOp} {ty : AtomTy} {r : Rnd} {sp : Space} {ord : Ord}
    (hw : (Instr.atom h d a b c op ty r sp ord).wf = true) :
    (op = .cas → r = .rne) ∧ (op ≠ .cas → c = 0) := by
  simp only [Instr.wf, Bool.and_eq_true, Bool.or_eq_true, decide_eq_true_eq] at hw
  obtain ⟨⟨⟨⟨-, hc⟩, hr⟩, hp⟩, -⟩ := hw
  refine ⟨fun e => ?_, fun e => Fin.ext (hc.resolve_left e)⟩
  subst e
  cases ty <;> simp_all [atomPairOk, AtomTy.isFloat]


/-! ## The words of an instruction read back -/

/-- The slot 0 that an encoding gives: P is clear (R14, R16). -/
def Enc.slot (h : Hdr) (e : Enc) : Slot := ⟨h.s, false, e.op, h.gn, h.gp, e.d, e.a, e.low⟩

open Laws.Fields in
/-- Every field of every encoding fits its width. -/
theorem enc_fits (i : Instr) : Statement i :=
  i.casesOn
    nop go goi gosel call calli exit beat ipref trap brk split fuse fuset iadd isub iadc imul imulh imad
    imadw imin imax iabs ineg icmp sel shl shr sha rot fsh iand ior ixor lop3 popc clz ctz brev bfx bfi prmt
    mov movi movhi lea add64 cmp64 pbit fadd fsub fmul ffma fmin fmax fcmp fclass frnd fscale frcp frsq fsqrt
    fdiv fexp2 flog2 fsin fcos ftanh fdot2 cvt pack unpk qnt dqn plx pli shuf shufImm qswap qbc vote ballot
    ballotWord matchAny matchAll elect ired fred iscan fscan sread ld st atom red ldg stg ldft smap sunmap
    sflush sdrop pfd waitc cntq fence fenceSys bar barr barw barinit cpy cpyg plset plcan plrep launch mma
    mmap had acz acrel acrelAll acld acst acstat trav tretDesc tretSkip tretCont tretStop tcut tres tstat
    gpost gpoll sys eretAgain eretNext eretZero eretKill csrr csrw tinvVa tinvSp tinvFn tinvIpa tmark
    instructionFetchFill deferredResultArrival pathArrival teamRetire tableWalk faultRecord fres stashFill
    recallSector clockAdvance clockRaise replicatedCommitLock replicatedCommitUpdate commitBoundMissed
    ladleComplete barrierArrivalStep tundishGrant passRetire runnerRelease tcutComplete guestPacketDeliver
    guestCompletionReport guestTranslationRequest guestAccess guestInvalidationAck guestLeaseSnoop
    guestQuiesceAnswer guestBreach trapRecord stallDetectorTest watchdog qnotify submissionStart
    dependenceEntry nodeStartKernel nodeStartCopy nodeConditional nodeWhile nodeJoin nodeHostSignal nodeGuest
    nodeFinish imageRead prologueBudgetExceeded clusterPlace preempt clusterRestore inboundHostAccess
    initiateFunctionLevelReset flr vfctlEn gsctlRst evsel trctl stopat stop goWrite thermalTrip linkLost
    recastLogFull recastLogEnd deviceReset layerStart getVersion getCapabilities negotiateAlgorithms
    getDigests getCertificate challenge getMeasurements spdmUnsupportedRequest registerWrite linkTrained
    replayRetriesExhausted guestSnoopOrRecallAnswer msiXVectorUnmask

/-- The words of an instruction hold slot 0, the immediate and the extension of its encoding (R14, R16). -/
theorem fields_encode {i : Instr} {e : Enc} (he : i.enc = some e) :
    Slot.ofNat (encode i) = e.slot i.hdr ∧ bits (encode i) 64 32 = e.imm ∧ bits (encode i) 96 32 = e.ext := by
  obtain ⟨ho, hd, ha, hl, hi, hx⟩ := enc_fits i e he
  have hgp := i.hdr.gp.isLt
  have h1 := b2n_lt i.hdr.s
  have h2 := b2n_lt i.hdr.gn
  have henc : encode i = e.toNat i.hdr := by simp only [encode, he]
  simp only [henc, Slot.ofNat, Enc.slot, Slot.mk.injEq]
  refine ⟨⟨bit_of_div_mod ?_, bit_of_div_mod ?_, ?_, bit_of_div_mod ?_, ?_, ?_, ?_, ?_⟩, ?_, ?_⟩ <;>
    simp only [Enc.toNat, Slot.toNat, bits, b2n_false] <;> omega

/-- The fields of an instruction's encoding spell the instruction. -/
def Instr.ReadsBack (i : Instr) : Prop :=
  ∃ e, i.enc = some e ∧ decodeFields (e.slot i.hdr) e.imm e.ext = .ok i

theorem decodeNat_encode_of_readsBack {i : Instr} (hw : i.wf = true) (h : i.ReadsBack) :
    decodeNat (encode i) = .ok i := by
  obtain ⟨e, he, hd⟩ := h
  obtain ⟨hs, hi, hx⟩ := fields_encode he
  rw [decodeNat, hs, hi, hx, hd, bind_ok, hw]
  simp

@[simp] theorem Enc.slot_hdr (h : Hdr) (e : Enc) : (e.slot h).hdr = h := by
  cases h; simp [Enc.slot, Slot.hdr]

/-- A register form is read back when the decoder makes the instruction of its fields. -/
theorem Instr.ReadsBack.rform {i : Instr} {op d a b c m : Nat} (he : i.enc = some (Sys2Proof.rform op d a b c m))
    (hb : b < 256 ∧ c < 256 ∧ m < 4096)
    (dec : ∀ x : Slot, x.hdr = i.hdr → x.op = op → x.d = d → x.a = a → x.b = b → x.c = c → x.md = m →
      decodeFields x 0 0 = .ok i) : i.ReadsBack := by
  obtain ⟨hb, hc, hm⟩ := hb
  refine ⟨_, he, dec _ (Enc.slot_hdr ..) rfl rfl rfl ?_ ?_ ?_⟩ <;>
    simp only [Sys2Proof.rform, Slot.b, Slot.c, Slot.md, Enc.slot, bits] <;> omega

/-- The same of an immediate form. -/
theorem Instr.ReadsBack.iform {i : Instr} {op d a low : Nat} (he : i.enc = some (Sys2Proof.iform op d a low))
    (dec : ∀ x : Slot, x.hdr = i.hdr → x.op = op → x.d = d → x.a = a → x.low = low →
      decodeFields x 0 0 = .ok i) : i.ReadsBack :=
  ⟨_, he, dec _ (Enc.slot_hdr ..) rfl rfl rfl rfl⟩

/-- The same of a long form. -/
theorem Instr.ReadsBack.lform {i : Instr} {op d a imm ext : Nat} (he : i.enc = some (Sys2Proof.lform op d a imm ext))
    (dec : ∀ x : Slot, x.hdr = i.hdr → x.op = op → x.d = d → x.a = a →
      decodeFields x imm ext = .ok i) : i.ReadsBack :=
  ⟨_, he, dec _ (Enc.slot_hdr ..) rfl rfl rfl⟩

@[simp] theorem lb_add (l : Lbl) (k : Nat) : lb (l.val + 4096 * k) = l := lb_of_mod (by have := l.isLt; omega)
@[simp] theorem lbl_add_div (l : Lbl) (k : Nat) : (l.val + 4096 * k) / 4096 = k := by have := l.isLt; omega

/-- Every well-formed lane instruction reads back, by the class of its opcode and the fields of its encoding. -/
theorem readsBack_of_lane (i : Instr) (hl : i.isLane = true) (hw : i.wf = true) : i.ReadsBack := by
  cases i
  case nop | exit | beat | go | gosel | call | calli | ipref | trap | brk | split | fuse | fuset =>
    exact .iform rfl fun x _ _ _ _ _ => by simp [decodeFields, decodeControl, Instr.hdr, *]
  case goi =>
    exact .rform rfl (by omega) fun x _ _ _ _ _ _ _ => by simp [decodeFields, decodeControl, Instr.hdr, *]
  case iadd h d a b ty s | isub h d a b ty s | imul h d a b ty s =>
    have := ty.code_lt; have := b2n_lt s
    exact .rform rfl (by omega) fun x _ _ _ _ _ _ _ => by simp [decodeFields, decodeInt, Instr.hdr, *]
  case iadc h d a b c s =>
    have := b2n_lt s
    exact .rform rfl (by omega) fun x _ _ _ _ _ _ _ => by simp [decodeFields, decodeInt, Instr.hdr, *]
  case imulh h d a b ty | imin h d a b ty | imax h d a b ty | bfx h d a b ty =>
    have := ty.code_lt
    exact .rform rfl (by omega) fun x _ _ _ _ _ _ _ => by simp [decodeFields, decodeInt, Instr.hdr, *]
  case imad h d a b c ty s =>
    have := ty.code_lt; have := b2n_lt s
    exact .rform rfl (by omega) fun x _ _ _ _ _ _ _ => by simp [decodeFields, decodeInt, Instr.hdr, *]
  case imadw h d a b c ty =>
    have := ty.code_lt
    exact .rform rfl (by omega) fun x _ _ _ _ _ _ _ => by simp [decodeFields, decodeInt, Instr.hdr, *]
  case iabs h d a s | ineg h d a s =>
    have := b2n_lt s
    exact .rform rfl (by omega) fun x _ _ _ _ _ _ _ => by simp [decodeFields, decodeInt, Instr.hdr, *]
  case icmp h p a b ty c =>
    have := ty.code_lt; have := c.code_lt
    exact .rform rfl (by omega) fun x _ _ _ _ _ _ _ => by simp [decodeFields, decodeInt, Instr.hdr, *]
  case sel h d a b p =>
    have := p.code_lt
    exact .rform rfl (by omega) fun x _ _ _ _ _ _ _ => by simp [decodeFields, decodeInt, Instr.hdr, *]
  case shl | shr | sha | iand | ior | ixor | lop3 | popc | clz | ctz | brev | mov | bfi | prmt =>
    exact .rform rfl (by omega) fun x _ _ _ _ _ _ _ => by simp [decodeFields, decodeInt, Instr.hdr, *]
  case rot h d a b r =>
    have := b2n_lt r
    exact .rform rfl (by omega) fun x _ _ _ _ _ _ _ => by simp [decodeFields, decodeInt, Instr.hdr, *]
  case fsh h d a b c r =>
    have := b2n_lt r
    exact .rform rfl (by omega) fun x _ _ _ _ _ _ _ => by simp [decodeFields, decodeInt, Instr.hdr, *]
  case movi | movhi =>
    exact .iform rfl fun x _ _ _ _ _ => by simp [decodeFields, decodeInt, Instr.hdr, *]
  case lea h d a b ixs scl =>
    have := b2n_lt ixs; have := scl.code_lt
    exact .rform rfl (by omega) fun x _ _ _ _ _ _ _ => by simp [decodeFields, decodeInt, Instr.hdr, *]
  case add64 h d a b s =>
    have := b2n_lt s
    exact .rform rfl (by omega) fun x _ _ _ _ _ _ _ => by simp [decodeFields, decodeInt, Instr.hdr, *]
  case cmp64 h p a b c =>
    have := c.code_lt
    exact .rform rfl (by omega) fun x _ _ _ _ _ _ _ => by simp [decodeFields, decodeInt, Instr.hdr, *]
  case pbit h p pa pb op =>
    have := pb.code_lt; have := op.code_lt
    exact .rform rfl (by omega) fun x _ _ _ _ _ _ _ => by simp [decodeFields, decodeInt, Instr.hdr, *]
  case fadd h d a b ty r s f | fsub h d a b ty r s f | fmul h d a b ty r s f | fscale h d a b ty r s f |
      fdiv h d a b ty r s f =>
    have := fmod_lt ty r s f
    exact .rform rfl (by omega) fun x _ _ _ _ _ _ _ => by simp [decodeFields, decodeFloat, Instr.hdr, *]
  case ffma h d a b c ty r s f | fdot2 h d a b c ty r s f =>
    have := fmod_lt ty r s f
    exact .rform rfl (by omega) fun x _ _ _ _ _ _ _ => by simp [decodeFields, decodeFloat, Instr.hdr, *]
  case fmin h d a b ty f | fmax h d a b ty f =>
    have := fmod_lt ty .rne false f
    exact .rform rfl (by omega) fun x _ _ _ _ _ _ _ => by simp [decodeFields, decodeFloat, Instr.hdr, *]
  case fclass h d a ty =>
    have := fmod_lt ty .rne false false
    exact .rform rfl (by omega) fun x _ _ _ _ _ _ _ => by simp [decodeFields, decodeFloat, Instr.hdr, *]
  case frnd h d a ty r f =>
    have := fmod_lt ty r false f
    exact .rform rfl (by omega) fun x _ _ _ _ _ _ _ => by simp [decodeFields, decodeFloat, Instr.hdr, *]
  case frcp h d a ty r s f | fsqrt h d a ty r s f =>
    have := fmod_lt ty r s f
    exact .rform rfl (by omega) fun x _ _ _ _ _ _ _ => by simp [decodeFields, decodeFloat, Instr.hdr, *]
  case frsq h d a ty s f | fexp2 h d a ty s f | flog2 h d a ty s f | fsin h d a ty s f | fcos h d a ty s f |
      ftanh h d a ty s f =>
    have := fmod_lt ty .rne s f
    exact .rform rfl (by omega) fun x _ _ _ _ _ _ _ => by simp [decodeFields, decodeFloat, Instr.hdr, *]
  case fcmp h p a b c f =>
    obtain ⟨_, _, _, _, _⟩ := fmod_cond .f32 .rne false f rfl c.code_lt
    exact .rform rfl (by omega) fun x _ _ _ _ _ _ _ => by simp [decodeFields, decodeFloat, Instr.hdr, *]
  case cvt h d a dst src r s f =>
    have := b2n_lt f
    obtain ⟨_, _, _, _, _⟩ := cvtMod_fields dst src r s
    exact .rform (m := cvtMod dst src r s) rfl (by omega) fun x _ _ _ _ _ _ _ => by
      simp [decodeFields, decodeConvert, Instr.hdr, *]
  case pack h d a tc r s f =>
    have := pmod_lt tc r s f
    exact .rform rfl (by omega) fun x _ _ _ _ _ _ _ => by simp [decodeFields, decodeConvert, Instr.hdr, *]
  case qnt h d a b tc r s f =>
    have := pmod_lt tc r s f
    exact .rform rfl (by omega) fun x _ _ _ _ _ _ _ => by simp [decodeFields, decodeConvert, Instr.hdr, *]
  case unpk h d a tc =>
    have := pmod_lt tc .rne false false
    exact .rform rfl (by omega) fun x _ _ _ _ _ _ _ => by simp [decodeFields, decodeConvert, Instr.hdr, *]
  case dqn h d a b tc r f =>
    have := pmod_lt tc r false f
    exact .rform rfl (by omega) fun x _ _ _ _ _ _ _ => by simp [decodeFields, decodeConvert, Instr.hdr, *]
  case plx | pli =>
    exact .rform rfl (by omega) fun x _ _ _ _ _ _ _ => by simp [decodeFields, decodeConvert, Instr.hdr, *]
  case shuf h d a b var w seg =>
    obtain ⟨_, _, _, _, _, _⟩ := xmod_fields w false false seg (Nat.lt_trans var.code_lt (by decide))
    exact .rform rfl (by omega) fun x _ _ _ _ _ _ _ => by simp [decodeFields, decodeCross, Instr.hdr, *]
  case shufImm h d a imm var w seg =>
    obtain ⟨_, _, _, _, _, _⟩ := xmod_fields w true false seg (Nat.lt_trans var.code_lt (by decide))
    exact .rform rfl (by omega) fun x _ _ _ _ _ _ _ => by simp [decodeFields, decodeCross, Instr.hdr, *]
  case qswap h d a var w =>
    obtain ⟨_, _, _, _, _, _⟩ := xmod_fields w false false .sgd (Nat.lt_trans var.code_lt (by decide))
    exact .rform rfl (by omega) fun x _ _ _ _ _ _ _ => by simp [decodeFields, decodeCross, Instr.hdr, *]
  case qbc h d a n w =>
    obtain ⟨_, _, _, _, _, _⟩ := xmod_fields w false false .sgd (Nat.lt_trans n.isLt (by decide))
    exact .rform rfl (by omega) fun x _ _ _ _ _ _ _ => by
      simp [decodeFields, decodeCross, Instr.hdr, -Fin.ofNat_eq_cast, *]
  case vote h p pa var seg =>
    obtain ⟨_, _, _, _, _, _⟩ := xmod_fields false false false seg (Nat.lt_trans var.code_lt (by decide))
    exact .rform rfl (by omega) fun x _ _ _ _ _ _ _ => by simp [decodeFields, decodeCross, Instr.hdr, *]
  case ballot h d pa seg =>
    obtain ⟨_, _, _, _, _, _⟩ := xmod_fields false false false seg (show 0 < 8 by decide)
    exact .rform rfl (by omega) fun x _ _ _ _ _ _ _ => by simp [decodeFields, decodeCross, Instr.hdr, *]
  case ballotWord h d pa b seg =>
    obtain ⟨_, _, _, _, _, _⟩ := xmod_fields false false false seg (show 1 < 8 by decide)
    exact .rform rfl (by omega) fun x _ _ _ _ _ _ _ => by simp [decodeFields, decodeCross, Instr.hdr, *]
  case matchAny h d a w seg =>
    obtain ⟨_, _, _, _, _, _⟩ := xmod_fields w false false seg (show 0 < 8 by decide)
    exact .rform rfl (by omega) fun x _ _ _ _ _ _ _ => by simp [decodeFields, decodeCross, Instr.hdr, *]
  case matchAll h d a p w seg =>
    obtain ⟨_, _, _, _, _, _⟩ := xmod_fields w false false seg (show 1 < 8 by decide)
    exact .rform rfl (by omega) fun x _ _ _ _ _ _ _ => by simp [decodeFields, decodeCross, Instr.hdr, *]
  case elect h p seg =>
    obtain ⟨_, _, _, _, _, _⟩ := xmod_fields false false false seg (show 0 < 8 by decide)
    exact .rform rfl (by omega) fun x _ _ _ _ _ _ _ => by simp [decodeFields, decodeCross, Instr.hdr, *]
  case ired h d a op ty seg =>
    obtain ⟨_, _, _, _, _, _⟩ := xmod_fields (ty = .n32) false false seg op.code_lt
    exact .rform rfl (by omega) fun x _ _ _ _ _ _ _ => by simp [decodeFields, decodeCross, Instr.hdr, *]
  case fred h d a op f seg =>
    obtain ⟨_, _, _, _, _, _⟩ := xmod_fields false false f seg (Nat.lt_trans op.code_lt (by decide))
    exact .rform rfl (by omega) fun x _ _ _ _ _ _ _ => by simp [decodeFields, decodeCross, Instr.hdr, *]
  case iscan h d a op ty e seg =>
    obtain ⟨_, _, _, _, _, _⟩ := xmod_fields (ty = .n32) e false seg op.code_lt
    exact .rform rfl (by omega) fun x _ _ _ _ _ _ _ => by simp [decodeFields, decodeCross, Instr.hdr, *]
  case fscan h d a op e f seg =>
    obtain ⟨_, _, _, _, _, _⟩ := xmod_fields false e f seg (Nat.lt_trans op.code_lt (by decide))
    exact .rform rfl (by omega) fun x _ _ _ _ _ _ _ => by simp [decodeFields, decodeCross, Instr.hdr, *]
  case sread h d src =>
    have := src.code_lt; have := bits_of_lt (w := 8) (Nat.lt_trans src.code_lt (by decide))
    exact .rform rfl (by omega) fun x _ _ _ _ _ _ _ => by simp [decodeFields, decodeCross, Instr.hdr, *]
  case ld h d a off sz sp od ca =>
    obtain ⟨hm, _, _, _, _⟩ := ldMod_fields sz sp ca (ordFlag_lt od 1 (by decide))
    obtain ⟨_, _⟩ := offMod_fields off hm
    exact .iform (low := offMod off (ldMod sz sp (ordFlag od 1) ca)) rfl fun x _ _ _ _ _ => by
      simp [decodeFields, decodeMem, Instr.hdr, Slot.md, *]
  case st h d a off sz sp od ca =>
    obtain ⟨hm, _, _, _, _⟩ := ldMod_fields sz sp ca (ordFlag_lt od 2 (by decide))
    obtain ⟨_, _⟩ := offMod_fields off hm
    exact .iform (low := offMod off (ldMod sz sp (ordFlag od 2) ca)) rfl fun x _ _ _ _ _ => by
      simp [decodeFields, decodeMem, Instr.hdr, Slot.md, *]
  case atom h d a b c op ty r sp ord =>
    have hm := amod_lt op ty sp ord; have hl := r.code_lt; have := bits_of_lt (w := 3) r.code_lt
    obtain ⟨hr, hc⟩ := wf_atom hw
    by_cases hcas : op = .cas
    · exact .rform rfl (by rw [if_pos hcas]; omega) fun x _ _ _ _ _ _ _ => by
        simp [decodeFields, decodeMem, Instr.hdr, *]
    · exact .rform rfl (by rw [if_neg hcas]; omega) fun x _ _ _ _ _ _ _ => by
        simp [decodeFields, decodeMem, Instr.hdr, *]
  case red h a b op ty r sp ord =>
    have := amod_lt op ty sp ord; have := r.code_lt; have := bits_of_lt (w := 3) r.code_lt
    exact .rform rfl (by omega) fun x _ _ _ _ _ _ _ => by simp [decodeFields, decodeMem, Instr.hdr, *]
  case ldg h d a b sco sz iw ixs scl sh ord | stg h d a b sco sz iw ixs scl sh ord =>
    have := gmod_lt sz iw ixs scl sh ord; have := sco.code_lt; have := bits_of_lt (w := 3) sco.code_lt
    exact .rform rfl (by omega) fun x _ _ _ _ _ _ _ => by simp [decodeFields, decodeMem, Instr.hdr, *]
  case ldft h d a b t16 cnt =>
    obtain ⟨_, _⟩ := ldft_fields t16 cnt
    exact .rform rfl (by omega) fun x _ _ _ _ _ _ _ => by simp [decodeFields, decodeMem, Instr.hdr, *]
  case smap | sunmap | launch =>
    exact .rform rfl (by omega) fun x _ _ _ _ _ _ _ => by simp [decodeFields, decodeMem, Instr.hdr, *]
  case sflush h a b all | sdrop h a b all =>
    have := b2n_lt all
    exact .rform rfl (by omega) fun x _ _ _ _ _ _ _ => by simp [decodeFields, decodeMem, Instr.hdr, *]
  case pfd h a off var =>
    have := bits_of_lt (w := 2) var.code_lt
    obtain ⟨_, _⟩ := offMod_fields off (Nat.lt_trans var.code_lt (by decide))
    exact .iform (low := offMod off var.code) rfl fun x _ _ _ _ _ => by
      simp [decodeFields, decodeMem, Instr.hdr, Slot.md, *]
  case waitc h a path =>
    have := path.code_lt; have := bits_of_lt (w := 3) path.code_lt
    exact .rform rfl (by omega) fun x _ _ _ _ _ _ _ => by simp [decodeFields, decodeMem, Instr.hdr, *]
  case cntq h d path =>
    have := path.code_lt; have := bits_of_lt (w := 3) path.code_lt
    exact .rform rfl (by omega) fun x _ _ _ _ _ _ _ => by simp [decodeFields, decodeMem, Instr.hdr, *]
  case fence h sco =>
    have := sco.code_lt; have := bits_of_lt (w := 3) sco.code_lt
    have hs : sco ≠ .system := by simpa [Instr.wf] using hw
    exact .rform rfl (by omega) fun x _ _ _ _ _ _ _ => by
      cases sco <;> simp_all [decodeFields, decodeMem, Instr.hdr, Scope.code, Scope.ofCode]
  case fenceSys =>
    exact .rform rfl (by omega) fun x _ _ _ _ _ _ _ => by
      simp [decodeFields, decodeMem, Instr.hdr, bits, Scope.ofCode, *]
  case bar | barr | barw | barinit | plset | plcan | plrep =>
    exact .iform rfl fun x _ _ _ _ _ => by simp [decodeFields, decodeMem, Instr.hdr, *]
  case cpy h d a len o =>
    cases len
    case imm n =>
      obtain ⟨_, _⟩ := cpyExt_fields (lr := 0) false o (by decide)
      exact .lform rfl fun x _ _ _ _ => by
        simp [decodeFields, decodeLong, Instr.hdr, decodeCpyOps_cpyExt, *]
    case reg r =>
      obtain ⟨_, hr⟩ := cpyExt_fields true o r.isLt
      exact .lform rfl fun x _ _ _ _ => by
        simp [decodeFields, decodeLong, Instr.hdr, decodeCpyOps_cpyExt, rg_of_mod hr, *]
  case cpyg h d a rowb ix o =>
    obtain ⟨_, _⟩ := cpyExt_fields (lr := 0) ix o (by decide)
    exact .lform rfl fun x _ _ _ _ => by simp [decodeFields, decodeLong, Instr.hdr, decodeCpyOps_cpyExt, *]
  case mma | mmap =>
    exact .lform rfl fun x _ _ _ _ => by simp [decodeFields, decodeLong, Instr.hdr, decodeMma_ext, *]
  case had h d a n g norm =>
    obtain ⟨_, _, _⟩ := hadExt_fields n g norm
    exact .lform (ext := hadExt n g norm) rfl fun x _ _ _ _ => by simp [decodeFields, decodeLong, Instr.hdr, *]
  case acz | acstat | tcut | tstat | gpoll | sys | tmark =>
    exact .lform rfl fun x _ _ _ _ => by simp [decodeFields, decodeLong, Instr.hdr, *]
  case acrel | acrelAll =>
    exact .lform rfl fun x _ _ _ _ => by simp [decodeFields, decodeLong, Instr.hdr, bit, bits, *]
  case acld h tag a f pair =>
    cases f
    case mem pr sp od sco ca =>
      obtain ⟨_, _⟩ := decodeAcForm_acExt pr sp od sco ca pair (by decide) (ordOf_ordFlag_acq od)
      exact .lform (ext := acExt sp (ordFlag od 1) sco ca pair) rfl fun x _ _ _ _ => by
        simp [decodeFields, decodeLong, Instr.hdr, *]
    case reg =>
      obtain ⟨-, hp⟩ : _ ∧ pair = false := by simpa [Instr.wf] using hw
      exact .lform rfl fun x _ _ _ _ => by
        simp [decodeFields, decodeLong, decodeAcForm_reg, bit, bits, Instr.hdr, *]
  case acst h tag a f =>
    cases f
    case mem pr sp od sco ca =>
      obtain ⟨_, _⟩ := decodeAcForm_acExt pr sp od sco ca false (by decide) (ordOf_ordFlag_rel od)
      exact .lform (ext := acExt sp (ordFlag od 2) sco ca false) rfl fun x _ _ _ _ => by
        simp [decodeFields, decodeLong, Instr.hdr, *]
    case reg =>
      exact .lform rfl fun x _ _ _ _ => by
        simp [decodeFields, decodeLong, decodeAcForm_reg, Instr.hdr, *]
  case trav | tres =>
    exact .lform rfl fun x _ _ _ _ => by simp [decodeFields, decodeLong, Instr.hdr, decodeTrav_ext, *]
  case tretDesc h a rev acq sco =>
    obtain ⟨_, _, _, _⟩ := tretExt_fields rev acq sco (show 1 < 8 by decide)
    exact .lform rfl fun x _ _ _ _ => by simp [decodeFields, decodeLong, Instr.hdr, *]
  case tretSkip h acq sco =>
    obtain ⟨_, _, _, _⟩ := tretExt_fields false acq sco (show 2 < 8 by decide)
    exact .lform rfl fun x _ _ _ _ => by simp [decodeFields, decodeLong, Instr.hdr, *]
  case tretCont h acq sco =>
    obtain ⟨_, _, _, _⟩ := tretExt_fields false acq sco (show 0 < 8 by decide)
    exact .lform rfl fun x _ _ _ _ => by simp [decodeFields, decodeLong, Instr.hdr, *]
  case tretStop h acq sco =>
    obtain ⟨_, _, _, _⟩ := tretExt_fields false acq sco (show 3 < 8 by decide)
    exact .lform rfl fun x _ _ _ _ => by simp [decodeFields, decodeLong, Instr.hdr, *]
  case gpost h d a qr ord sco =>
    obtain ⟨_, _⟩ := gpost_fields ord sco
    exact .lform rfl fun x _ _ _ _ => by simp [decodeFields, decodeLong, Instr.hdr, *]
  case eretAgain | eretNext | eretZero | eretKill =>
    exact .lform rfl fun x _ _ _ _ => by simp [decodeFields, decodeLong, Instr.hdr, bits, *]
  case csrr h d csr vf =>
    obtain ⟨_, _⟩ := csr_fields csr vf
    exact .lform rfl fun x _ _ _ _ => by simp [decodeFields, decodeLong, Instr.hdr, -Fin.ofNat_eq_cast, *]
  case csrw h a csr vf =>
    obtain ⟨_, _⟩ := csr_fields csr vf
    exact .lform rfl fun x _ _ _ _ => by simp [decodeFields, decodeLong, Instr.hdr, -Fin.ofNat_eq_cast, *]
  case tinvVa | tinvSp | tinvFn | tinvIpa =>
    exact .lform rfl fun x _ _ _ _ => by simp [decodeFields, decodeLong, Instr.hdr, bits, -Fin.ofNat_eq_cast, *]
  all_goals exact absurd hl Bool.false_ne_true

/-! ## What decodes -/

theorem isLane_of_wf {i : Instr} (hw : i.wf = true) : i.isLane = true := by
  cases i
  any_goals exact hw
  all_goals rfl

/-- What `decodeNat` answers passes its two checks. -/
theorem decodeNat_ok {w : Nat} {i : Instr} (h : decodeNat w = .ok i) : i.wf = true ∧ encode i = w := by
  unfold decodeNat at h
  cases hd : decodeFields (Slot.ofNat w) (bits w 64 32) (bits w 96 32) with
  | error r => rw [hd] at h; cases h
  | ok j =>
    rw [hd, bind_ok] at h
    split at h
    · cases h
    · rename_i hw
      split at h
      · cases h
      · rename_i he
        rw [pure_eq_ok] at h
        cases h
        exact ⟨by simpa using hw, by simpa using he⟩

/-- A slot that decodes to a long form has a long-form opcode. -/
theorem op_of_isLong {w : Nat} {i : Instr} (h : decodeNat w = .ok i) (hl : i.isLong = true) :
    0x380 ≤ (Slot.ofNat w).op := by
  obtain ⟨hw, rfl⟩ := decodeNat_ok h
  obtain ⟨e, he, -⟩ := readsBack_of_lane i (isLane_of_wf hw) hw
  obtain ⟨hs, -, -⟩ := fields_encode he
  rw [hs]
  show 0x380 ≤ e.op
  simpa [Instr.isLong, he] using hl

/-! ## The slots of a fetch word -/

/-- A field of a field. -/
theorem bits_bits (x a w lo v : Nat) (h : lo + v ≤ w) : bits (bits x a w) lo v = bits x (a + lo) v := by
  apply Nat.eq_of_testBit_eq
  intro k
  simp only [bits, Nat.testBit_mod_two_pow, Nat.testBit_div_two_pow]
  by_cases hk : k < v
  · have : k + lo < w := by omega
    simp [hk, this, Nat.add_assoc, Nat.add_comm lo a]
  · simp [hk]

theorem slot0_op (w : Nat) : (Slot.ofNat (bits w 0 64)).op = bits w 52 10 := bits_bits w 0 64 52 10 (by decide)
theorem slot1_op (w : Nat) : (Slot.ofNat (bits w 64 64)).op = bits w 116 10 := bits_bits w 64 64 52 10 (by decide)
theorem slot0_p (w : Nat) : bit (bits w 0 64) 62 = bit w 62 := by rw [bit, bit, bits_bits w 0 64 62 1 (by decide)]
theorem slot1_p (w : Nat) : bit (bits w 64 64) 62 = bit w 126 := by rw [bit, bit, bits_bits w 64 64 62 1 (by decide)]

/-- A fetch word read from slot 1 on. -/
theorem decodeFetch_second (w : Nat) :
    decodeFetch w true = if 0x380 ≤ bits w 116 10 then .error .longInSlot1
      else if bit w 126 then .error .pairBit
      else do return .one (← decodeNat (bits w 64 64)) := by
  rw [decodeFetch, slot1_op, slot1_p]; rfl

/-- A fetch word read from slot 0 on. -/
theorem decodeFetch_first (w : Nat) :
    decodeFetch w false = if 0x380 ≤ bits w 52 10 then
        (if bit w 62 then .error .pairBit else do return .one (← decodeNat (bits w 0 128)))
      else if bit w 62 then
        (if 0x380 ≤ bits w 116 10 then .error .longInSlot1
        else if bit w 126 then .error .pairBit
        else do return .pair (← decodeNat (clearP (bits w 0 64))) (← decodeNat (bits w 64 64)))
      else do return .one (← decodeNat (bits w 0 64)) := by
  rw [decodeFetch, slot0_op, slot1_op, slot0_p, slot1_p]; rfl

/-- The instruction that one decoding of a word gives. -/
theorem decodeNat_of_one {x : Nat} {i : Instr} (h : (do return .one (← decodeNat x)) = Except.ok (Fetched.one i)) :
    decodeNat x = .ok i := by
  cases hd : decodeNat x with
  | error r => rw [hd] at h; cases h
  | ok j => rw [hd] at h; cases h; rfl

theorem not_one_of_pair {x y : Nat} {i : Instr} :
    (do return .pair (← decodeNat x) (← decodeNat y)) ≠ Except.ok (Fetched.one i) := by
  cases hx : decodeNat x with
  | error r => intro h; cases h
  | ok j =>
    cases hy : decodeNat y with
    | error r => intro h; cases h
    | ok k => intro h; cases h

/-- A long form takes up the whole fetch word. -/
theorem decodeFetch_long {w : Nat} {i : Instr} (h : decodeFetch w false = .ok (.one i)) (hl : i.isLong = true) :
    0x380 ≤ bits w 52 10 ∧ decodeNat (bits w 0 128) = .ok i := by
  rw [decodeFetch_first] at h
  split at h
  · rename_i hop
    split at h
    · cases h
    · exact ⟨hop, decodeNat_of_one h⟩
  · rename_i hop
    split at h
    · split at h
      · cases h
      · split at h
        · cases h
        · exact absurd h not_one_of_pair
    · exact absurd (slot0_op w ▸ op_of_isLong (decodeNat_of_one h) hl) hop

end Sys2Proof

open Sys2Proof

/-! ## The obligations -/

/-- Settles O1: the fields of each instruction's encoding read back. -/
theorem encodeDecodeRoundTrip : Obligations.EncodeDecodeRoundTrip :=
  fun i hl hw => decodeNat_encode_of_readsBack hw (readsBack_of_lane i hl hw)

/-- Settles O2, by the two checks that end `decodeNat`. -/
theorem decodedIsWellFormed : Obligations.DecodedIsWellFormed := fun _ _ h =>
  let ⟨hw, he⟩ := decodeNat_ok h
  ⟨isLane_of_wf hw, hw, he⟩

/-- Settles O4: the tests of `decodeFetch` in their order; that only a long-form opcode decodes to a long form is the
round trip. -/
theorem fetchWordForms : Obligations.FetchWordForms := by
  intro w
  rw [decodeFetch_first, decodeFetch_second]
  refine ⟨fun h => if_pos h, fun h hp => ?_, fun h hp h1 => ?_, fun h1 hp1 => ⟨?_, fun h hp => ?_⟩, fun i j h hl => ?_⟩
  · rw [if_pos h, if_pos hp]
  · rw [if_neg (Nat.not_le.mpr h), if_pos hp, if_pos h1]
  · rw [if_neg (Nat.not_le.mpr h1), if_pos hp1]
  · rw [if_neg (Nat.not_le.mpr h), if_pos hp, if_neg (Nat.not_le.mpr h1), if_pos hp1]
  · rw [h]
    rw [← decodeFetch_first] at h
    obtain ⟨hop, hd⟩ := decodeFetch_long h hl
    exact ⟨hop, hd, by simp⟩

/-- Settles O3: three of the words are what their instructions encode to. -/
theorem workedWordsDecode : Obligations.WorkedWordsDecode :=
  ⟨encodeDecodeRoundTrip (.nop ⟨false, false, 0⟩) rfl rfl,
    encodeDecodeRoundTrip (.lop3 ⟨false, false, 0⟩ 5 6 7 8 0xE8) rfl rfl, rfl,
    encodeDecodeRoundTrip (.go ⟨false, false, 1⟩ 5) rfl rfl⟩

end

section
/-! What issuing does before an instruction's own effect (R19, R328): every lane instruction is issued, and a decode
trap is taken at the boundary. -/

namespace Sys2Proof.Machine

/-- An outcome is the issue of an instruction, with some effect. -/
def IsIssue (i : Instr) (s : State) (o : Out) : Prop := ∃ eff, o = issueRaw i s eff

section
variable (i : Instr) (s : State)

theorem IsIssue.raw (eff : Ctx → State → State) : IsIssue i s (issueRaw i s eff) := ⟨eff, rfl⟩
theorem IsIssue.one (eff : Ctx → State → State) : IsIssue i s (issue i s eff) := .raw i s _
theorem IsIssue.lanes (eff : Ctx → Nat → State → State) : IsIssue i s (issueLanes i s eff) := .one i s _
theorem IsIssue.mem (n : Ctx → State → Nat) (eff : Ctx → State → State) : IsIssue i s (issueMem i s n eff) :=
  .one i s _
theorem IsIssue.fuse (d label : Nat) (absent : Ctx → State → State) : IsIssue i s (fuseWith i d label s absent) :=
  .raw i s _
theorem IsIssue.lane1 (d a : Reg) (f : Nat → Nat) : IsIssue i s (lane1 i d a f s) := .lanes i s _
theorem IsIssue.lane2 (d a b : Reg) (f : Nat → Nat → Nat) : IsIssue i s (lane2 i d a b f s) := .lanes i s _
theorem IsIssue.lane3 (d a b x : Reg) (f : Nat → Nat → Nat → Nat) : IsIssue i s (lane3 i d a b x f s) :=
  .lanes i s _
theorem IsIssue.laneP (p : Pred) (a b : Reg) (f : Nat → Nat → Bool) : IsIssue i s (laneP i p a b f s) :=
  .lanes i s _
theorem IsIssue.laneF1 (d a : Reg) (f : Nat → Nat × Nat) : IsIssue i s (laneF1 i d a f s) := .lanes i s _
theorem IsIssue.laneF2 (d a b : Reg) (f : Nat → Nat → Nat × Nat) : IsIssue i s (laneF2 i d a b f s) :=
  .lanes i s _
theorem IsIssue.laneF3 (d a b x : Reg) (f : Nat → Nat → Nat → Nat × Nat) : IsIssue i s (laneF3 i d a b x f s) :=
  .lanes i s _
theorem IsIssue.laneD1 (d a : Reg) (f : Nat → Nat × Nat) : IsIssue i s (laneD1 i d a f s) := .lanes i s _
theorem IsIssue.laneD2 (d a b : Reg) (f : Nat → Nat → Nat × Nat) : IsIssue i s (laneD2 i d a b f s) :=
  .lanes i s _
theorem IsIssue.laneMem (path : Path) (rs : Ctx → State → List Req) : IsIssue i s (laneMem i path rs s) :=
  .mem i s _ _
theorem IsIssue.crossLane (d a : Reg) (wide : Bool) : IsIssue i s (crossLane i d a wide s) := .one i s _

end

/-- Every lane instruction is issued (R19): what stops it at its boundary does so before its own effect. -/
theorem exec_isIssue {i : Instr} (h : i.isLane = true) (s : State) : IsIssue i s (exec i s) := by
  unfold exec
  cases i
  case nop | go | goi | gosel | call | calli | exit | beat | ipref | trap | brk | vote | ballot | ballotWord | matchAny
      | matchAll | elect | ired | fred | iscan | fscan | sread | cpy | cpyg | mma | mmap | had | acz | acrel | acrelAll
      | acld | acst | acstat | trav | tretDesc | tretSkip | tretCont | tretStop | tcut | tres | tstat | gpost | gpoll
      | sys | eretAgain | eretNext | eretZero | eretKill | csrr | csrw | tinvVa | tinvSp | tinvFn | tinvIpa | tmark =>
    exact .one _ _ _
  case split => exact .raw _ _ _
  case fuse | fuset => exact .fuse _ _ _ _ _
  case iadc | imadw | sel | movi | lea | add64 | cmp64 | pbit | fcmp | cvt | pack | unpk | qnt | dqn | plx | pli =>
    exact .lanes _ _ _
  case iabs | ineg | popc | clz | ctz | brev | mov | movhi | fclass => exact .lane1 _ _ _ _ _
  case iadd | isub | imul | imulh | imin | imax | shl | shr | sha | rot | iand | ior | ixor | bfx =>
    exact .lane2 _ _ _ _ _ _
  case imad | fsh | lop3 | bfi | prmt => exact .lane3 _ _ _ _ _ _ _
  case icmp => exact .laneP _ _ _ _ _ _
  case frnd => exact .laneF1 _ _ _ _ _
  case fadd | fsub | fmul | fmin | fmax | fscale => exact .laneF2 _ _ _ _ _ _
  case ffma | fdot2 => exact .laneF3 _ _ _ _ _ _ _
  case frcp | frsq | fsqrt | fexp2 | flog2 | fsin | fcos | ftanh => exact .laneD1 _ _ _ _ _
  case fdiv => exact .laneD2 _ _ _ _ _ _
  case shuf | shufImm | qswap | qbc => exact .crossLane _ _ _ _ _
  case ld | st | atom | red => exact .laneMem _ _ _ _
  case ldft | ldg | stg | smap | sunmap | sflush | sdrop | pfd | waitc | cntq | fence | fenceSys | bar | barr | barw
      | barinit | plset | plcan | plrep | launch =>
    exact .mem _ _ _ _
  all_goals exact absurd h Bool.false_ne_true

/-- A live part's lane instruction always answers a next state. -/
theorem exec_goesOn {i : Instr} (h : i.isLane = true) {s : State} (hl : (s.part s.issue.part).life = .live) :
    ∃ t, exec i s = .next t := by
  obtain ⟨eff, he⟩ := exec_isIssue h s
  rw [he]
  exact issueRaw_next i s eff hl

/-! ## Decode traps -/

/-- What a decode trap does at an issue: the trap is all that happens (R328, R329). -/
theorem exec_decodeTrap {i : Instr} (h : i.isLane = true) {s : State} {cls : Nat} (hl : s.issPart.life = .live)
    (hh : s.issue.half ≠ .second) (hd : s.decodeTrap s.issTeam i = some cls) :
    exec i s = .next (s.raise (s.opCtx i.hdr) cls 0) := by
  obtain ⟨eff, he⟩ := exec_isIssue h s
  have hl' : (s.part s.issue.part).life = .live := hl
  have hb : s.blocked (s.bump.ctx i.hdr) i = some (s.raise (s.opCtx i.hdr) cls 0) := by
    have hd' : s.decodeTrap (s.bump.ctx i.hdr).t i = some cls := hd
    unfold State.blocked
    rw [hd']
    rfl
  simp only [he, issueRaw, hl', hh, hb, ne_eq, not_true_eq_false, if_false]

theorem stopH_part (s : State) (d cls q : Nat) : (s.stopH d cls).part q = s.part q := rfl

theorem stopH_die (s : State) (d cls : Nat) :
    (s.stopH d cls).die d = { s.die d with hStopped := true, fail := true, why := 3, cls := cls } :=
  State.die_setDie_self _ _ _

/-- A trap at level H freezes its part and stops the H teams of its die (R326, R365). -/
theorem takeTrap_stoppedH (s : State) (p : Nat) (x : Trap) (hl : (s.launch (s.launchOf (teamOf p))).level = .h) :
    StoppedH s (s.takeTrap p x) p x.cls := by
  have ht : s.takeTrap p x = (s.modPart p fun y => { y with life := .frozen, wait := .none }).stopH
      (dieOf (s.coreOf p)) x.cls := by rw [State.takeTrap, if_pos hl]
  rw [ht]
  refine ⟨?_, ?_, ?_, ?_, ?_, rfl, rfl, rfl, rfl, rfl, rfl, fun q hq => ?_⟩
  case refine_1 => rw [stopH_part, State.modPart_eq, State.part_setPart_self]
  case refine_6 => rw [stopH_part, State.modPart_eq, State.part_setPart_ne s p q _ hq]
  all_goals rw [stopH_die]

/-- A trap that the latched instruction raises is taken at its part's level, for a class that suspends. -/
theorem takesTrap_of_raise {i : Instr} {s : State} {c : Ctx} {cls info : Nat} (hp : c.p = s.issue.part)
    (hc : cls < 2 ^ 5) (h14 : cls ≠ 14) (he : exec i s = .next (s.raise c cls info)) : TakesTrap i s cls := by
  refine ⟨_, he, fun hl ht => ?_, fun hl => ?_⟩
  · rw [State.raise, hp]
    exact takeTrap_trapped s s.issue.part (s.mkTrap c cls info) hl ht hc h14
  · rw [State.raise, hp]
    exact takeTrap_stoppedH s s.issue.part (s.mkTrap c cls info) hl

/-- The only classes that decode raises are 1 and 8. -/
theorem decodeTrap_class {s : State} {t : Nat} {i : Instr} {cls : Nat} (h : s.decodeTrap t i = some cls) :
    cls = 1 ∨ cls = 8 := by
  unfold State.decodeTrap at h
  split at h
  · exact .inl (Option.some.inj h).symm
  · split at h
    · exact .inr (Option.some.inj h).symm
    · cases h

theorem decodeTrap_undefined {s : State} {t : Nat} {i : Instr} (h : s.undefinedIn t i = true) :
    s.decodeTrap t i = some 1 := by
  simp [State.decodeTrap, h]

/-- A register that a kernel does not declare makes an instruction undefined, wherever it names it (R10). -/
theorem undefinedIn_of_undeclared {s : State} {t : Nat} {i : Instr}
    (h : (∃ x ∈ i.reads, declared (s.img t) x.2 = false) ∨ (∃ r ∈ i.writes, declared (s.img t) r = false)
      ∨ ∃ r ∈ i.names, declared (s.img t) r = false) : s.undefinedIn t i = true := by
  have hany : ∀ {α : Type} (f : α → Nat) (l : List α), (∃ x ∈ l, declared (s.img t) (f x) = false) →
      (l.any fun x => !declared (s.img t) (f x)) = true := fun f l ⟨x, hx, hd⟩ =>
    List.any_eq_true.mpr ⟨x, hx, by rw [hd]; rfl⟩
  unfold State.undefinedIn
  obtain hr | hw | hn := h
  · simp [hany (·.2) i.reads hr]
  · simp [hany (·) i.writes hw]
  · simp [hany (·) i.names hn]

/-- `sys` is undefined at level H (R339). -/
theorem undefinedIn_sys {s : State} {t : Nat} (h : Hdr) (d : Reg) (code : BitVec 16) (hl : s.levelOf t = .h) :
    s.undefinedIn t (.sys h d code) = true := by
  simp [State.undefinedIn, hl]

/-- Of a defined instruction, decode asks only for the privilege. -/
theorem decodeTrap_defined {s : State} {t : Nat} {i : Instr} (hw : i.wf = true) (hu : s.undefinedIn t i = false) :
    s.decodeTrap t i = if s.unprivileged t i then some 8 else none := by
  simp [State.decodeTrap, hw, hu]

end Sys2Proof.Machine

open Sys2Proof Sys2Proof.Machine

/-- Settles O47: a decode trap is the whole effect of the issue, and `decodeTrap` asks first whether the instruction is
defined and then whether it is privileged. -/
theorem decodeTraps : Obligations.DecodeTraps := by
  refine ⟨fun s i cls hl hh hi hd => ⟨decodeTrap_class hd, ?_⟩, fun s i => ⟨fun hu => ?_, ?_, ?_, ?_, ?_⟩⟩
  · have hc := decodeTrap_class hd
    exact takesTrap_of_raise rfl (by omega) (by omega) (exec_decodeTrap hi hl hh hd)
  · exact decodeTrap_undefined (undefinedIn_of_undeclared hu)
  · rintro h d code rfl hl
    exact decodeTrap_undefined (undefinedIn_sys h d code hl)
  · intro hw hu hl
    rw [decodeTrap_defined hw hu, State.unprivileged]
    simp [hl]
  · intro hw hu hl hv
    rw [decodeTrap_defined hw hu, State.unprivileged]
    simp [hl, hv]
  · intro hw hu hl hv
    rw [decodeTrap_defined hw hu, State.unprivileged]
    simpa [Nat.not_lt.mpr hl] using hv

end

section
/-! A step of a core: what an attempt finds at a part's place, what it runs, and what the choice of the core's one
candidate adds to it (R16, R20, R197, R267, R369). -/

namespace Sys2Proof.Machine

/-! ## Running at the latch -/

/-- A lane instruction at the latch always answers a next state. -/
theorem runLatched_next {i : Instr} (h : i.isLane = true) (s : State) : ∃ t, s.runLatched i = .next t := by
  unfold State.runLatched
  split
  · rename_i hl
    exact exec_goesOn h hl
  · exact ⟨s, rfl⟩

theorem runOne_next {i : Instr} (h : i.isLane = true) (s : State) (p next : Nat) : ∃ t, s.runOne p next i = .next t :=
  runLatched_next h _

/-- A live part's instruction alone is the instruction at the latch. -/
theorem runOne_live {s : State} {p : Nat} (hl : (s.part p).life = .live) (next : Nat) (i : Instr) :
    s.runOne p next i = exec i (s.latch p next .single none) := by
  unfold State.runOne State.runLatched
  exact if_pos hl

theorem runBoth_next {i j : Instr} (hi : i.isLane = true) (hj : j.isLane = true) (s : State) (p next : Nat)
    (flip : Bool) : ∃ t, s.runBoth p next flip i j = .next t := by
  unfold State.runBoth
  dsimp only
  obtain ⟨s1, h1⟩ := runLatched_next hi ((if flip = true then s.bump else s).latch p next .first none)
  rw [h1]
  simp only [Out.andThen]
  split
  · exact ⟨_, rfl⟩
  · split
    · exact ⟨_, rfl⟩
    · obtain ⟨s3, h3⟩ := runLatched_next hj
        { s1 with issue := { s1.issue with half := .second, pre := some (s.snap p flip) } }
      rw [h3]
      exact ⟨_, rfl⟩

theorem runPair_next {i j : Instr} (hi : i.isLane = true) (hj : j.isLane = true) (s : State) (p next : Nat) :
    ∃ t, s.runPair p next i j = .next t := by
  obtain ⟨a, ha⟩ := runOne_next hi s p next
  obtain ⟨b, hb⟩ := runOne_next hj s.bump p next
  unfold State.runPair
  rw [ha, hb]
  simp only [Out.andThen]
  split
  · exact ⟨_, rfl⟩
  · exact ⟨_, rfl⟩
  · split
    · exact ⟨_, rfl⟩
    · split
      · exact ⟨_, rfl⟩
      · split
        · exact runBoth_next hj hi s p next true
        · exact runBoth_next hi hj s p next false

/-! ## What is found -/

theorem decodeFetch_one_ok {w : Nat} {second : Bool} {i : Instr} (h : decodeFetch w second = .ok (.one i)) :
    i.wf = true := by
  cases second
  · rw [decodeFetch_first] at h
    split at h
    · split at h
      · cases h
      · exact (decodeNat_ok (decodeNat_of_one h)).1
    · split at h
      · split at h
        · cases h
        · split at h
          · cases h
          · exact absurd h not_one_of_pair
      · exact (decodeNat_ok (decodeNat_of_one h)).1
  · rw [decodeFetch_second] at h
    split at h
    · cases h
    · split at h
      · cases h
      · exact (decodeNat_ok (decodeNat_of_one h)).1

/-- The instructions that the decoding of both slots gives. -/
theorem decodeNat_of_pair {x y : Nat} {i j : Instr}
    (h : (do return .pair (← decodeNat x) (← decodeNat y)) = Except.ok (Fetched.pair i j)) :
    decodeNat x = .ok i ∧ decodeNat y = .ok j := by
  cases hx : decodeNat x with
  | error r => rw [hx] at h; cases h
  | ok k =>
    cases hy : decodeNat y with
    | error r => rw [hx, hy] at h; cases h
    | ok l => rw [hx, hy] at h; cases h; exact ⟨rfl, rfl⟩

theorem not_pair_of_one {x : Nat} {i j : Instr} :
    (do return .one (← decodeNat x)) ≠ Except.ok (Fetched.pair i j) := by
  cases hx : decodeNat x with
  | error r => intro h; cases h
  | ok k => intro h; cases h

theorem decodeFetch_pair_ok {w : Nat} {second : Bool} {i j : Instr} (h : decodeFetch w second = .ok (.pair i j)) :
    i.wf = true ∧ j.wf = true := by
  cases second
  · rw [decodeFetch_first] at h
    split at h
    · split at h
      · cases h
      · exact absurd h not_pair_of_one
    · split at h
      · split at h
        · cases h
        · split at h
          · cases h
          · obtain ⟨hi, hj⟩ := decodeNat_of_pair h
            exact ⟨(decodeNat_ok hi).1, (decodeNat_ok hj).1⟩
      · exact absurd h not_pair_of_one
  · rw [decodeFetch_second] at h
    split at h
    · cases h
    · split at h
      · cases h
      · exact absurd h not_pair_of_one

theorem fenceEnds_off (s : State) (p : Nat) : ((s.fenceEnds p).part p).off = (s.part p).off := by
  unfold State.fenceEnds
  dsimp only
  split
  · rfl
  · rw [State.modPart_eq, State.part_setPart_self]; rfl

theorem fenceEnds_launchAt (s : State) (p q : Nat) : (s.fenceEnds p).launchAt q = s.launchAt q := by
  unfold State.fenceEnds
  dsimp only
  split <;> rfl

/-- The word at a part's place: nothing stops the fetch there before (R191, R197, R262). -/
structure FetchesWord (s : State) (p w : Nat) (s1 : State) : Prop where
  held : ∀ h ∈ s.held, h.part ≠ p
  second : (s.part p).second = none
  code : (s.part p).off < (s.launchAt p).img.code
  budget : ¬((s.launchAt p).prologue = true ∧ 4096 ≤ (s.launchAt p).issued)
  fetch : (s.fenceEnds p).fetchWord p (s.part p).off = (s1, .word w)

section Attempt
variable {s s1 : State} {p w : Nat} (h : FetchesWord s p w s1)
include h

/-- A part whose word holds one instruction finds it, with the slot after it. -/
theorem find_one {i : Instr} (hd : decodeFetch w ((s.part p).off % 16 = 8) = .ok (.one i)) :
    (s.fenceEnds p).find p = (s1, .one i (if i.isLong then (s.part p).off + 16 else (s.part p).off + 8)) := by
  unfold State.find
  dsimp only
  rw [fenceEnds_off, fenceEnds_launchAt, if_neg (Nat.not_le.mpr h.code), if_neg (by simpa using h.budget), h.fetch]
  dsimp only
  rw [hd]

/-- A part whose word holds a legal pair finds it, with the word after it. -/
theorem find_pair {i j : Instr} (hd : decodeFetch w ((s.part p).off % 16 = 8) = .ok (.pair i j))
    (hl : pairLegal i j = true) : (s.fenceEnds p).find p = (s1, .pair i j ((s.part p).off + 16)) := by
  unfold State.find
  dsimp only
  rw [fenceEnds_off, fenceEnds_launchAt, if_neg (Nat.not_le.mpr h.code), if_neg (by simpa using h.budget), h.fetch]
  dsimp only
  rw [hd]
  exact if_pos hl

theorem attempt_one {i : Instr} (hd : decodeFetch w ((s.part p).off % 16 = 8) = .ok (.one i)) :
    s.attempt p = (s1.runOne p (if i.isLong then (s.part p).off + 16 else (s.part p).off + 8) i, .one i) := by
  unfold State.attempt
  dsimp only
  rw [if_neg (by simpa using h.held), if_neg (by simp [h.second]), find_one h hd]

theorem attempt_pair {i j : Instr} (hd : decodeFetch w ((s.part p).off % 16 = 8) = .ok (.pair i j))
    (hl : pairLegal i j = true) : s.attempt p = (s1.runPair p ((s.part p).off + 16) i j, .pair i j) := by
  unfold State.attempt
  dsimp only
  rw [if_neg (by simpa using h.held), if_neg (by simp [h.second]), find_pair h hd hl]

end Attempt

/-! ## The choice -/

/-- What the step leaves after the attempt of the one candidate of a core: `t` with the counts of the issue and of
the choice, or with the park (R267, R369). -/
def afterChoice (s0 t : State) (core p : Nat) (x : Issued) : State :=
  if t.waiting p then t.notePark s0 core p
  else
    let u := if t.committed p then t.noteIssue core (s0.launchOf (teamOf p)) x (s0.slots' p x) else t
    { ((u.notePark s0 core p).notePassed [s0.readyOf core p x] p).killDead with issue := {} }

theorem tryParts_one {s t : State} {core p : Nat} {x : Issued} (ha : s.attempt p = (.next t, x)) (hx : x ≠ .nothing) :
    s.tryParts core [p] =
      if t.waiting p then { s := t.notePark s core p, ready := [], parks := 1 }
      else { s := s, ready := [(s.readyOf core p x, .next t, x, 0)], parks := 0 } := by
  simp [State.tryParts, ha, hx]

/-- A core that may issue in this slot: it is released, and nothing holds the slot (R135, R198, R370). -/
structure MayChoose (s : State) (core : Nat) : Prop where
  lt : core < 256
  released : core % 64 = 0 ∨ s.released = true
  issuedNow : (s.core core).issuedNow = false
  slotsLeft : (s.core core).slotsLeft = 0
  withheld : (s.core core).withheld = false
  trbuf : (s.core core).trbuf.length < traceBuffer

/-- The choice of a core with one candidate part. -/
theorem choose_one {s s0 t : State} {core p : Nat} {busy : List Nat} {x : Issued}
    (hrun : (s.resumeParts (s.corePartIds core)).runSeconds core = .next s0) (hm : MayChoose s0 core)
    (hc : s0.candidates core busy = [p]) (ha : s0.attempt p = (.next t, x)) (hx : x ≠ .nothing) :
    s.choose core busy = .next (afterChoice s0 t core p x) := by
  obtain ⟨h1, h2, h3, h4, h5, h6⟩ := hm
  have hgo : (256 ≤ core || (core % 64 ≠ 0 && !s0.released) || (s0.core core).issuedNow || (s0.core core).slotsLeft ≠ 0
      || (s0.core core).withheld || traceBuffer ≤ (s0.core core).trbuf.length) = false := by
    simp only [h3, h4, h5, Bool.or_false, Bool.or_eq_false_iff, decide_eq_false_iff_not]
    refine ⟨⟨⟨by omega, ?_⟩, by simp⟩, by omega⟩
    obtain h | h := h2 <;> simp [h]
  unfold State.choose
  rw [hrun]
  simp only [Out.andThen, hgo, hc, tryParts_one ha hx]
  unfold afterChoice
  by_cases hw : t.waiting p = true
  · simp [hw, pickReady]
  · simp [hw, pickReady, State.readyOf, State.settleIssue, Out.map, Out.andThen, hx]

/-- A step of a device whose clocks run, at a core's turn, is that core's choice. -/
theorem step_issue {s : State} {core : Nat} {busy : List Nat} {rest : List Move} (hs : s.stopped = false)
    (ha : s.agenda = .issue core busy :: rest) : step s = ({ s with agenda := rest } : State).choose core busy := by
  unfold step State.next
  rw [hs, ha]
  rfl

end Sys2Proof.Machine

open Sys2Proof Sys2Proof.Machine

/-- Settles O6: the attempt runs what the word decodes to, and with one candidate the choice is that attempt. -/
theorem stepRunsDecodedInstruction : Obligations.StepRunsDecodedInstruction := by
  constructor
  · intro s s0 s1 core p w busy rest i hs hag a off next hrun h1 h2 h3 h4 h5 h6 hc hheld hsec hcode hbud hf hl hd
    have hw := decodeFetch_one_ok hd
    have ha := attempt_one ⟨hheld, hsec, hcode, hbud, hf⟩ hd
    rw [runOne_live hl] at ha
    obtain ⟨t, ht⟩ := exec_goesOn (isLane_of_wf hw) (s := s1.latch p _ .single none) hl
    rw [ht] at ha
    refine ⟨hw, t, ht, ?_⟩
    rw [step_issue hs hag]
    exact choose_one hrun ⟨h1, h2, h3, h4, h5, h6⟩ hc ha (by simp)
  · intro s s0 s1 core p w busy rest i j hs hag a off hrun h1 h2 h3 h4 h5 h6 hc hheld hsec hcode hbud hf hl hd hp
    obtain ⟨hi, hj⟩ := decodeFetch_pair_ok hd
    have ha := attempt_pair ⟨hheld, hsec, hcode, hbud, hf⟩ hd hp
    obtain ⟨t, ht⟩ := runPair_next (isLane_of_wf hi) (isLane_of_wf hj) s1 p ((s0.part p).off + 16)
    rw [ht] at ha
    refine ⟨hi, hj, t, ht, ?_⟩
    rw [step_issue hs hag]
    exact choose_one hrun ⟨h1, h2, h3, h4, h5, h6⟩ hc ha (by simp)

end

section
/-! A pair whose halves both go on by themselves (R20, R21): which half runs first, and what the other reads. -/

namespace Sys2Proof.Machine

/-- Every event of another agent answers a next state (chapter 95). -/
theorem exec_event_next {i : Instr} (h : i.isLane = false) (s : State) : ∃ t, exec i s = .next t := by
  unfold exec
  cases i
  any_goals exact absurd h (Bool.false_ne_true ∘ Eq.symm)
  all_goals exact ⟨_, rfl⟩

/-- With a live part at the latch, whatever is run answers a next state. -/
theorem exec_next {s : State} (hl : (s.part s.issue.part).life = .live) (i : Instr) : ∃ t, exec i s = .next t := by
  cases h : i.isLane with
  | true => exact exec_goesOn h hl
  | false => exact exec_event_next h s

/-! ## Which half runs first -/

theorem halfStop_none {a : State} {p : Nat} (hw : a.waiting p = false) (hs : a.stopClass p = none) (j : Instr) :
    a.halfStop p j = none := by
  have hr : a.stopRank p = none := by rw [State.stopRank, hw, hs]; rfl
  unfold State.halfStop
  rw [hr]
  exact ite_self _

theorem trapActs_false {a : State} {p : Nat} (hs : a.stopClass p = none) : a.trapActs p = false := by
  rw [State.trapActs, hs]; rfl

/-- A half that goes on by itself. -/
structure GoesOn (s : State) (p next : Nat) (i : Instr) (a : State) : Prop where
  run : s.runOne p next i = .next a
  waiting : a.waiting p = false
  stop : a.stopClass p = none

/-- A pair of which neither half stops runs slot 0's half first, unless `slot1First` says otherwise. -/
theorem runPair_goesOn {s a b : State} {p next : Nat} {i j : Instr} (hi : GoesOn s p next i a)
    (hj : GoesOn s.bump p next j b) (hf : s.pairFull p next i j = false) :
    s.runPair p next i j = if s.slot1First p i j then s.runBoth p next true j i else s.runBoth p next false i j := by
  unfold State.runPair
  rw [hi.run, hj.run]
  simp only [Out.andThen, halfStop_none hi.waiting hi.stop, halfStop_none hj.waiting hj.stop, firstStop,
    trapActs_false hi.stop, trapActs_false hj.stop, hf]
  simp

/-! ## The two halves -/

/-- The latch of the half that runs second, over the snapshot of what stood before the pair (R21). -/
def State.asSecond (t : State) (snap : Snap) : State := { t with issue := { t.issue with half := .second, pre := some snap } }

section Halves
variable {s t1 : State} {p next : Nat} {flip : Bool} {x y : Instr}
  (h1 : exec x ((if flip then s.bump else s).latch p next .first none) = .next t1) (hl : (s.part p).life = .live)
  (hp : (t1.asSecond (s.snap p flip)).poisonRead ((t1.asSecond (s.snap p flip)).ctx y.hdr) y = [])
include h1 hl hp

/-- Both halves, once the first has run and the second reads no poison. -/
theorem runBoth_unpoisoned :
    s.runBoth p next flip x y =
      if placedLast y && t1.accessOut p then
        .next (t1.modPart p fun z => { z with second := some { i := y, pre := s.snap p flip, next := next } })
      else
        Out.map ((t1.asSecond (s.snap p flip)).runLatched y) fun s3 =>
          if s3.waiting p then s.modPart p fun z => { z with wait := (s3.part p).wait }
          else if managesStash x && (s3.stopRank p).isSome then s3.uncommit s p
          else s3.joinFlags := by
  have hrun : ((if flip then s.bump else s).latch p next .first none).runLatched x = .next t1 := by
    rw [State.runLatched, if_pos, h1]
    cases flip <;> exact hl
  unfold State.runBoth
  dsimp only
  rw [hrun]
  unfold Out.andThen
  dsimp only
  unfold State.asSecond at hp
  rw [hp]
  rfl

/-- A second half whose place follows an access that is still outstanding is kept (R79). -/
theorem runBoth_kept (hy : placedLast y = true) (ho : t1.accessOut p = true) :
    s.runBoth p next flip x y =
      .next (t1.modPart p fun z => { z with second := some { i := y, pre := s.snap p flip, next := next } }) := by
  rw [runBoth_unpoisoned h1 hl hp, if_pos (by rw [hy, ho]; rfl)]

/-- Any other second half runs at once. -/
theorem runBoth_second (ho : placedLast y = false ∨ t1.accessOut p = false)
    (hl1 : (t1.part t1.issue.part).life = .live) {t2 : State} (h2 : exec y (t1.asSecond (s.snap p flip)) = .next t2) :
    s.runBoth p next flip x y = .next (
      if t2.waiting p then s.modPart p fun z => { z with wait := (t2.part p).wait }
      else if managesStash x && (t2.stopRank p).isSome then t2.uncommit s p
      else t2.joinFlags) := by
  have hno : (placedLast y && t1.accessOut p) = false := by
    obtain h | h := ho <;> simp [h]
  have hrun : (t1.asSecond (s.snap p flip)).runLatched y = .next t2 := by
    rw [State.runLatched, if_pos, h2]
    exact hl1
  rw [runBoth_unpoisoned h1 hl hp, hno, hrun]
  rfl

end Halves

end Sys2Proof.Machine

open Sys2Proof Sys2Proof.Machine

/-- Settles O7: of two halves that go on by themselves the pair runs one at the latch, and then the other over the
snapshot. -/
theorem pairRunsBothHalves : Obligations.PairRunsBothHalves := by
  intro s a b p next i j hl hi hj haw has hbw hbs hf flip x y
  have hpair : s.runPair p next i j = s.runBoth p next flip x y := by
    rw [runPair_goesOn ⟨hi, haw, has⟩ ⟨hj, hbw, hbs⟩ hf]
    show (if flip = true then _ else _) = _
    cases hflip : flip <;> simp [x, y, hflip]
  have hlf : (((if flip then s.bump else s).latch p next .first none).part p).life = .live := by
    cases flip <;> exact hl
  obtain ⟨t1, h1⟩ := exec_next hlf x
  refine ⟨t1, h1, ?_⟩
  intro snap u hl1 hp
  rw [hpair]
  refine ⟨fun hy ho => runBoth_kept h1 hl hp hy ho, fun ho => ?_⟩
  obtain ⟨t2, h2⟩ := exec_next (s := u) hl1 y
  have hrun := runBoth_second h1 hl hp ho hl1 h2
  refine ⟨t2, h2, fun hw => ?_, fun hw hm => ?_⟩
  · rw [hrun, if_pos hw]
  · rw [hrun, if_neg (by simp [hw]), if_neg]
    obtain h | h := hm <;> simp [h]

end

section
/-! Instructions that pass (R18, R129 to R134, R205, R206): what the end of an issue keeps, what a prefetch keeps of
the registers and parts, and each of the eight instructions. -/

namespace Sys2Proof.Machine

/-! ## Folds of steps that keep something -/

theorem foldl_keeps {α β : Type} (g : State → β) (f : State → α → State) (hf : ∀ s x, g (f s x) = g s)
    (xs : List α) (s : State) : g (xs.foldl f s) = g s := by
  induction xs generalizing s with
  | nil => rfl
  | cons x xs ih => exact (ih _).trans (hf s x)

/-! ## The end of an issue changes no deferred result -/

theorem count_defs (c e n : Nat) (s : State) : (s.count c e n).defs = s.defs := by
  refine foldl_keeps State.defs _ (fun s k => ?_) _ _
  split <;> rfl

theorem serve_defs (p l : Nat) (s : State) : (s.serve p l).defs = s.defs :=
  foldl_keeps State.defs (fun s x => s.modLane (laneId (teamOf p) x) fun y => { y with departed := false })
    (fun _ _ => rfl) (s.partLanes p) s

theorem censusNext_defs (p cur : Nat) (s : State) : (s.censusNext p cur).defs = s.defs := by
  unfold State.censusNext
  dsimp only
  split
  · rw [count_defs, serve_defs]
  · split
    · rw [count_defs, count_defs, serve_defs]; rfl
    · split <;> rfl

theorem fallInto_defs (p f : Nat) (s : State) : (s.fallInto p f).defs = s.defs :=
  (censusNext_defs p _ _).trans
    (foldl_keeps State.defs (fun s x => s.modLane (laneId (teamOf p) x) fun y => { y with wl := f })
      (fun _ _ => rfl) (s.activeSet p) s)

theorem advance_defs (p next : Nat) (s : State) : (s.advance p next).defs = s.defs := by
  unfold State.advance
  dsimp only
  split
  · rw [censusNext_defs]; rfl
  · split
    · rw [fallInto_defs]; rfl
    · rfl

@[simp] theorem finish_defs (p : Nat) (s : State) : (s.finish p).defs = s.defs := by
  unfold State.finish
  split
  · rfl
  · exact advance_defs p _ s

/-! ## What the frame of `LanesOnly` keeps -/

section
variable {p : Nat} {s t : State} (h : LanesOnly p s t)
include h

theorem LanesOnly.mem_eq : t.mem = s.mem := by rw [h.rest]

theorem LanesOnly.undo_eq : t.undo = s.undo := by rw [h.rest]

theorem LanesOnly.fills_eq : t.fills = s.fills := by rw [h.rest]

theorem LanesOnly.launch_eq (l : Nat) : t.launch l = s.launch l := by rw [h.rest]; rfl

theorem LanesOnly.smpctl_eq : t.smpctl = s.smpctl := by rw [h.rest]

/-- No part's operations, suspensions or life change. -/
theorem LanesOnly.part_still (q : Nat) :
    t.part q = { t.part q with ops := (s.part q).ops, susp := (s.part q).susp, life := (s.part q).life } := by
  by_cases e : q = p
  · subst e; rw [h.part]
  · rw [h.parts q e]

end

/-! ## The instructions that have no effect of their own -/

theorem sampled_off {s : State} (h : s.noSampling) (c : Ctx) (i : Instr) (old : State) (n : Nat) :
    s.sampled c i old n = s := by
  have h0 : bits s.smpctl 0 16 = 0 := h
  unfold State.sampled
  simp [h0]

theorem issued_noSampling {s : State} (h : s.noSampling) : s.issued.noSampling := by
  unfold State.noSampling at *
  rw [(issued_frame s).smpctl_eq]
  exact h

/-- An instruction whose effect is none passes. -/
theorem issue_passes {i : Instr} {s : State} {eff : Ctx → State → State} (hi : Issues i s)
    (he : eff (s.opCtx i.hdr) s.issued = s.issued) (hx : exec i s = issue i s eff) :
    ∃ t, exec i s = .next t ∧ t.regs = s.regs ∧ t.defs = s.defs ∧ LanesOnly s.issue.part s t := by
  refine ⟨_, hx.trans (issue_issues hi eff), ?_⟩
  rw [he]
  exact ⟨(finish_regs _ _).trans (issued_regs s), (finish_defs _ _).trans (issued_defs s),
    (issued_frame s).trans (lanesOnly_finish _ _)⟩

theorem nop_passes {s : State} {h : Hdr} (hi : Issues (.nop h) s) :
    ∃ t, exec (.nop h) s = .next t ∧ t.regs = s.regs ∧ t.defs = s.defs ∧ LanesOnly s.issue.part s t :=
  issue_passes (eff := fun _ s => s) hi rfl rfl

/-- A memory instruction has its effect alone where nothing is sampled. -/
theorem issueMem_issues {i : Instr} {s : State} {sectors : Ctx → State → Nat} {eff : Ctx → State → State}
    (hi : Issues i s) (hn : (eff (s.opCtx i.hdr) s.issued).noSampling) :
    issueMem i s sectors eff = .next ((eff (s.opCtx i.hdr) s.issued).finish s.issue.part) :=
  (issue_issues hi _).trans
    (congrArg (fun x : State => Host.Outcome.next (x.finish s.issue.part)) (sampled_off hn _ i _ _))

/-- A memory instruction with no effect passes where nothing is sampled. -/
theorem issueMem_passes {i : Instr} {s : State} {sectors : Ctx → State → Nat} (hi : Issues i s) (hs : s.noSampling)
    (hx : exec i s = issueMem i s sectors fun _ s => s) :
    ∃ t, exec i s = .next t ∧ t.regs = s.regs ∧ t.defs = s.defs ∧ LanesOnly s.issue.part s t :=
  issue_passes hi (sampled_off (issued_noSampling hs) _ i _ _) hx

theorem waitc_exec (h : Hdr) (a : Reg) (path : Path) (s : State) :
    exec (.waitc h a path) s = issueMem (.waitc h a path) s (fun _ _ => 0) fun _ s => s := rfl

theorem fence_exec (h : Hdr) (sco : Scope) (s : State) :
    exec (.fence h sco) s = issueMem (.fence h sco) s (fun _ _ => 0) fun _ s => s := rfl

/-! ## Beat -/

/-- The effect of `beat` (R205). -/
def beatEff (c : Ctx) (s : State) : State :=
  if c.ga.isEmpty || !(s.img c.t).pers then s
  else s.modLaunch (s.launchOf c.t) fun x => { x with watch := some 0 }

theorem beat_exec (h : Hdr) (s : State) : exec (.beat h) s = issue (.beat h) s beatEff := rfl

theorem beatEff_issued (s : State) (h : Hdr) :
    beatEff (s.opCtx h) s.issued =
      if s.actors (.beat h) ≠ [] ∧ (s.img s.issTeam).pers = true then
        s.issued.modLaunch (s.launchOf s.issTeam) fun x => { x with watch := some 0 }
      else s.issued := by
  have hf := issued_frame s
  have hpers : (s.issued.img s.issTeam).pers = (s.img s.issTeam).pers := by rw [hf.rest]; rfl
  have hlaunch : s.issued.launchOf s.issTeam = s.launchOf s.issTeam := by rw [hf.rest]; rfl
  show (if (s.actors (.beat h)).isEmpty || !(s.issued.img s.issTeam).pers then s.issued
    else s.issued.modLaunch (s.issued.launchOf s.issTeam) _) = _
  rw [hpers, hlaunch]
  by_cases ha : s.actors (.beat h) = [] <;> by_cases hp : (s.img s.issTeam).pers = true <;> simp [ha, hp]

theorem beat_passes {s : State} {h : Hdr} (hi : Issues (.beat h) s) :
    ∃ t, exec (.beat h) s = .next t ∧ t.regs = s.regs ∧ t.mem = s.mem
      ∧ (s.actors (.beat h) ≠ [] → (s.img s.issTeam).pers = true →
          t.launch (s.launchOf s.issTeam) = { s.launch (s.launchOf s.issTeam) with watch := some 0 })
      ∧ (s.actors (.beat h) = [] ∨ (s.img s.issTeam).pers = false → LanesOnly s.issue.part s t) := by
  by_cases hb : s.actors (.beat h) ≠ [] ∧ (s.img s.issTeam).pers = true
  · have he := (beatEff_issued s h).trans (if_pos hb)
    refine ⟨_, (beat_exec h s).trans (issue_issues hi beatEff), ?_⟩
    have hfin := lanesOnly_finish s.issue.part (beatEff (s.opCtx h) s.issued)
    refine ⟨?_, ?_, fun _ _ => ?_, fun hn => ?_⟩
    · exact (finish_regs _ _).trans ((congrArg State.regs he).trans (issued_regs s))
    · exact hfin.mem_eq.trans ((congrArg State.mem he).trans (issued_mem s))
    · refine (hfin.launch_eq _).trans ?_
      rw [he, ← (issued_frame s).launch_eq]
      exact State.launch_setLaunch_self ..
    · exact absurd hn (by simp [hb])
  · obtain ⟨t, hx, hr, -, hl⟩ :=
      issue_passes (i := .beat h) hi ((beatEff_issued s h).trans (if_neg hb)) (beat_exec h s)
    exact ⟨t, hx, hr, hl.mem_eq, fun ha hp => absurd ⟨ha, hp⟩ hb, fun _ => hl⟩

/-! ## Instruction prefetch -/

/-- Nothing but the fills asked for, and the numbers given out, differs. -/
def OnlyFills (s t : State) : Prop := t = { s with fills := t.fills, nextId := t.nextId }

theorem OnlyFills.refl (s : State) : OnlyFills s s := rfl

theorem OnlyFills.trans {a b c : State} (h : OnlyFills a b) (k : OnlyFills b c) : OnlyFills a c := by
  unfold OnlyFills at *
  rw [h] at k
  exact k

theorem onlyFills_foldl {α : Type} (f : State → α → State) (hf : ∀ s x, OnlyFills s (f s x)) (xs : List α) (s : State) :
    OnlyFills s (xs.foldl f s) := by
  induction xs generalizing s with
  | nil => exact .refl s
  | cons x xs ih => exact (hf s x).trans (ih _)

theorem askFill_onlyFills (p off : Nat) (pf : Bool) (s : State) : OnlyFills s (s.askFill p off pf) := by
  unfold State.askFill
  dsimp only
  split
  · exact .refl s
  · rfl

/-- A state that differs in its fills meets the frame but for them. -/
theorem OnlyFills.lanesOnly {p : Nat} {s t : State} (h : OnlyFills s t) : LanesOnly p { s with fills := t.fills } t :=
  .ofRegs p _ _ (by unfold OnlyFills at h; rw [h])

/-- The effect of `ipref` (R206). -/
def iprefEff (l : Lbl) (n : Fin 16) (c : Ctx) (s : State) : State :=
  if c.ga.isEmpty then s
  else
    match (s.img c.t).label l.val with
    | none => s
    | some (off, _) => (off :: (s.launchAt c.p).linesAfter off n.val).foldl (fun (s : State) o => s.askFill c.p o true) s

theorem iprefEff_onlyFills (l : Lbl) (n : Fin 16) (c : Ctx) (s : State) : OnlyFills s (iprefEff l n c s) := by
  unfold iprefEff
  split
  · exact .refl s
  · split
    · exact .refl s
    · exact onlyFills_foldl _ (fun s o => askFill_onlyFills c.p o true s) _ s

theorem ipref_exec (h : Hdr) (l : Lbl) (n : Fin 16) (s : State) :
    exec (.ipref h l n) s = issue (.ipref h l n) s (iprefEff l n) := rfl

/-- The frame from a state that has the fills of the second already. -/
theorem LanesOnly.withFills {p : Nat} {s t : State} (h : LanesOnly p s t) (f : List Fill) :
    LanesOnly p { s with fills := f } { t with fills := f } where
  rest := by have := congrArg (fun x : State => { x with fills := f }) h.rest; exact this
  parts := h.parts
  part := h.part
  lanes := h.lanes
  mine := h.mine
  cores := h.cores

theorem ipref_passes {s : State} {h : Hdr} {l : Lbl} {n : Fin 16} (hi : Issues (.ipref h l n) s) :
    ∃ t, exec (.ipref h l n) s = .next t ∧ t.regs = s.regs ∧ t.mem = s.mem ∧ t.defs = s.defs
      ∧ LanesOnly s.issue.part { s with fills := t.fills } t := by
  have he := iprefEff_onlyFills l n (s.opCtx h) s.issued
  have hfin := lanesOnly_finish s.issue.part (iprefEff l n (s.opCtx h) s.issued)
  refine ⟨_, (ipref_exec h l n s).trans (issue_issues hi (iprefEff l n)), ?_, ?_, ?_, ?_⟩
  · exact (finish_regs _ _).trans ((congrArg State.regs he).trans (issued_regs s))
  · exact hfin.mem_eq.trans ((congrArg State.mem he).trans (issued_mem s))
  · exact (finish_defs _ _).trans ((congrArg State.defs he).trans (issued_defs s))
  · have hfills : ((iprefEff l n (s.opCtx (Instr.ipref h l n).hdr) s.issued).finish s.issue.part).fills
        = (iprefEff l n (s.opCtx h) s.issued).fills := hfin.fills_eq
    rw [hfills]
    exact (((issued_frame s).withFills _).trans he.lanesOnly).trans hfin

/-! ## Counters and fences -/

theorem srcOps_issued (s : State) :
    s.issued.srcOps s.issue.part = match s.issue.pre with
      | some x => x.ops
      | none => s.issPart.ops := by
  unfold State.srcOps
  rw [issued_issue, (issued_frame s).part]
  rfl

/-- What `cntq` writes to each of its lanes, before the end of its issue (R133). -/
def cntqEff (d : Reg) (path : Path) (c : Ctx) (s : State) : State :=
  s.status c d (Part.counter { ops := s.srcOps c.p } path)

theorem cntq_exec (h : Hdr) (d : Reg) (path : Path) (s : State) :
    exec (.cntq h d path) s = issueMem (.cntq h d path) s (fun _ _ => 0) (cntqEff d path) := rfl

theorem cntqEff_noSampling {s : State} (hs : s.noSampling) (c : Ctx) (d : Reg) (path : Path) :
    (cntqEff d path c s).noSampling := by
  unfold State.noSampling
  rw [show (cntqEff d path c s).smpctl = s.smpctl from 
    foldl_keeps State.smpctl (fun a l => a.wr c.t l d (Part.counter { ops := s.srcOps c.p } path)) (fun _ _ => rfl) c.ga s]
  exact hs

/-- `cntq` is a fixed write of one word. -/
theorem cntqEff_eq (d : Reg) (path : Path) (c : Ctx) (s : State) :
    cntqEff d path c s = eachLane c.ga (laneWrites c.t
      (fun _ _ => [(d.val, Part.counter { ops := s.srcOps c.p } path)]) fun _ _ => 0) s := by
  refine congrArg (fun f => eachLane c.ga f s) ?_
  funext l a
  exact (raiseFlags_zero _ _ _).symm

theorem cntq_issues {s : State} {h : Hdr} {d : Reg} {path : Path} (hi : Issues (.cntq h d path) s)
    (hs : s.noSampling) :
    exec (.cntq h d path) s = issueLanes (.cntq h d path) s fun c => laneWrites c.t
      (fun _ _ => [(d.val, Part.counter { ops := s.issued.srcOps s.issue.part } path)]) fun _ _ => 0 := by
  have hn := cntqEff_noSampling (issued_noSampling hs) (s.opCtx h) d path
  rw [cntq_exec, issueMem_issues hi hn, cntqEff_eq]
  exact (issue_issues hi fun c s0 => eachLane c.ga (laneWrites c.t
    (fun _ _ => [(d.val, Part.counter { ops := s.issued.srcOps s.issue.part } path)]) fun _ _ => 0) s0).symm

theorem cntq_counts {s : State} {h : Hdr} {d : Reg} {path : Path} (hi : Issues (.cntq h d path) s)
    (hs : s.noSampling) :
    WritesWord (.cntq h d path) s d fun _ =>
      ((match s.issue.pre with
        | some x => x.ops
        | none => s.issPart.ops).filter fun o : Op => o.path = path).length := by
  refine (writes_of _ s hi _ _ [d.val] (fun _ _ => rfl) (by simp) (by simp) (fun _ _ _ _ => ⟨rfl, rfl⟩)
    (cntq_issues hi hs)).congr (fun l r hr => ?_) fun _ => rfl
  rw [List.mem_singleton] at hr
  subst hr
  rw [srcOps_issued]
  simp [lastOf, Part.counter]

/-- A store that is known to be performed is no longer among the replaced bytes. -/
theorem settled_not_done (done : Nat × Nat × Byte → Bool) (l : List (Nat × Nat × Byte)) :
    ∀ x ∈ settled done l, done x = false := by
  induction l with
  | nil => simp [settled]
  | cons y t ih =>
    intro x hx
    unfold settled at hx
    split at hx
    · exact ih x hx
    · next h =>
      obtain rfl | hx := List.mem_cons.mp hx
      · exact Bool.eq_false_iff.mpr fun hd => h (by rw [hd]; rfl)
      · exact ih x hx

/-- The effect of `fence.sys` (R134). -/
def fenceEff (c : Ctx) (s : State) : State :=
  if s.issue.half = .second then s.modPart c.p fun x => { x with fence := c.ga } else s.settleStores c.p c.ga

theorem fenceSys_exec (h : Hdr) (s : State) :
    exec (.fenceSys h) s = issueMem (.fenceSys h) s (fun _ _ => 0) fenceEff := rfl

theorem fenceEff_still (c : Ctx) (s : State) : (fenceEff c s).regs = s.regs ∧ (fenceEff c s).mem = s.mem
    ∧ (fenceEff c s).defs = s.defs ∧ (fenceEff c s).smpctl = s.smpctl := by
  unfold fenceEff
  split <;> exact ⟨rfl, rfl, rfl, rfl⟩

theorem fenceEff_undo {c : Ctx} {s : State} (hh : s.issue.half ≠ .second) :
    ∀ x ∈ (fenceEff c s).undo, ∀ o ∈ (s.part c.p).ops, o.id = x.1 / 1024 → x.1 % 1024 ∉ c.ga := by
  unfold fenceEff
  rw [if_neg hh]
  intro x hx o ho hid hm
  have hd := settled_not_done _ _ x hx
  simp only [Bool.and_eq_false_iff, List.any_eq_false, List.contains_eq_mem, decide_eq_false_iff_not] at hd
  obtain hd | hd := hd
  · exact hd o ho (by simp [hid])
  · exact hd hm

theorem fenceSys_passes {s : State} {h : Hdr} (hi : Issues (.fenceSys h) s) (hs : s.noSampling) :
    ∃ t, exec (.fenceSys h) s = .next t ∧ t.regs = s.regs ∧ t.mem = s.mem ∧ t.defs = s.defs
      ∧ (s.issue.half ≠ .second → ∀ x ∈ t.undo, ∀ o ∈ s.issPart.ops, o.id = x.1 / 1024 →
          x.1 % 1024 ∉ s.actors (.fenceSys h)) := by
  obtain ⟨hr, hm, hd, hc⟩ := fenceEff_still (s.opCtx h) s.issued
  have hn : (fenceEff (s.opCtx h) s.issued).noSampling := by
    unfold State.noSampling; rw [hc]; exact issued_noSampling hs
  have hx : exec (.fenceSys h) s = .next ((fenceEff (s.opCtx h) s.issued).finish s.issue.part) :=
    (fenceSys_exec h s).trans (issueMem_issues hi hn)
  have hfin := lanesOnly_finish s.issue.part (fenceEff (s.opCtx h) s.issued)
  refine ⟨_, hx, ?_, ?_, ?_, fun hh x hxu o ho => ?_⟩
  · exact (finish_regs _ _).trans (hr.trans (issued_regs s))
  · exact hfin.mem_eq.trans (hm.trans (issued_mem s))
  · exact (finish_defs _ _).trans (hd.trans (issued_defs s))
  · have ho' : o ∈ (s.issued.part s.issue.part).ops := by rw [(issued_frame s).part]; exact ho
    rw [hfin.undo_eq] at hxu
    exact fenceEff_undo (c := s.opCtx h) (by rw [issued_issue]; exact hh) x hxu o ho'

end Sys2Proof.Machine
end

section
/-! What a prefetch leaves alone (R131): along the whole way of an access to its sector, from the translation to the
copy that the core keeps, no register, deferred result, part or sampling control changes. -/

namespace Sys2Proof.Machine

/-- What the memory side of the machine never changes by itself: the registers, the deferred results, the parts and the
sampling control. -/
def State.laneSide (s : State) : FMap Word × List Deferred × FMap Part × Nat := (s.regs, s.defs, s.parts, s.smpctl)

/-! ## Homes -/

@[simp] theorem bump_laneSide (s : State) : s.bump.laneSide = s.laneSide := rfl

@[simp] theorem setCore_laneSide (s : State) (c : Nat) (x : Core) : (s.setCore c x).laneSide = s.laneSide := rfl

@[simp] theorem setDie_laneSide (s : State) (d : Nat) (x : Die) : (s.setDie d x).laneSide = s.laneSide := rfl

@[simp] theorem setSec_laneSide (s : State) (b k : Nat) (x : Sector) : (s.setSec b k x).laneSide = s.laneSide := rfl

@[simp] theorem setHome_laneSide (s : State) (sec : Nat) (h : Home) : (s.setHome sec h).laneSide = s.laneSide := by
  unfold State.setHome
  dsimp only
  split <;> rfl

@[simp] theorem putLine_laneSide (s : State) (vf : Nat) (ca : Cache) (line w : Nat) :
    (s.putLine vf ca line w).laneSide = s.laneSide := rfl

@[simp] theorem touchLine_laneSide (s : State) (x : L2Line) : (s.touchLine x).laneSide = s.laneSide := rfl

@[simp] theorem evictLine_laneSide (s : State) (line : Nat) : (s.evictLine line).laneSide = s.laneSide := rfl

@[simp] theorem evictFor_laneSide (s : State) (vf : Nat) (y : L2Line) : (s.evictFor vf y).laneSide = s.laneSide := by
  unfold State.evictFor
  rw [evictLine_laneSide]
  split <;> rfl

@[simp] theorem logged_laneSide (s : State) (x : Logged) : (s.logged x).laneSide = s.laneSide := by
  unfold State.logged
  split
  · rfl
  · split <;> rfl

@[simp] theorem lineArrives_laneSide (s : State) (line : Nat) : (s.lineArrives line).laneSide = s.laneSide := by
  unfold State.lineArrives
  split
  · exact logged_laneSide ..
  · rfl

@[simp] theorem fillLine_laneSide (s : State) (vf : Nat) (ca : Cache) (line : Nat) :
    (s.fillLine vf ca line).laneSide = s.laneSide := by
  have arrive : ((s.modFn vf fun f => { f with l2fill := addCount f.l2fill 1 }).lineArrives line).laneSide = s.laneSide :=
    lineArrives_laneSide ..
  unfold State.fillLine
  dsimp only
  split
  · split
    · exact touchLine_laneSide ..
    · rfl
  · split
    · exact (putLine_laneSide ..).trans arrive
    · exact (putLine_laneSide ..).trans ((evictFor_laneSide ..).trans arrive)
    · exact arrive

@[simp] theorem unpoison_laneSide (s : State) (pa n v m : Nat) : (s.unpoison pa n v m).1.laneSide = s.laneSide := by
  unfold State.unpoison
  split <;> rfl

@[simp] theorem putBytes_laneSide (s : State) (pa n data mask psn : Nat) :
    (s.putBytes pa n data mask psn).laneSide = s.laneSide := by
  refine foldl_keeps State.laneSide _ (fun s i => ?_) _ _
  split <;> rfl

@[simp] theorem writeBack_laneSide (s : State) (x : Sector) : (s.writeBack x).laneSide = s.laneSide :=
  putBytes_laneSide ..

@[simp] theorem setOwners_laneSide (s : State) (x : FMap Nat) : { s with owners := x }.laneSide = s.laneSide := rfl

@[simp] theorem recall_laneSide (s : State) (wr : Bool) (sec : Nat) : (s.recall wr sec).laneSide = s.laneSide := by
  unfold State.recall
  split
  · rfl
  · split
    · rfl
    · simp only [setHome_laneSide, setOwners_laneSide, setSec_laneSide, writeBack_laneSide]

@[simp] theorem raiseClock_laneSide (s : State) (core t : Nat) : (s.raiseClock core t).laneSide = s.laneSide := rfl

@[simp] theorem settleSec_laneSide (s : State) (sec : Nat) : (s.settleSec sec).laneSide = s.laneSide := rfl

@[simp] theorem grant_laneSide (s : State) (vf : Nat) (ca : Cache) (clock sec : Nat) (drop : Bool) :
    (s.grant vf ca clock sec drop).1.laneSide = s.laneSide := by
  simp [State.grant]

@[simp] theorem noteStore_laneSide (s : State) (num sec t : Nat) : (s.noteStore num sec t).laneSide = s.laneSide := rfl

@[simp] theorem takeTime_laneSide (s : State) (vf : Nat) (ca : Cache) (num clock sec : Nat) :
    (s.takeTime vf ca num clock sec).1.laneSide = s.laneSide := by
  simp [State.takeTime]

@[simp] theorem walkRead_laneSide (s : State) (d vf pa : Nat) : (s.walkRead d vf pa).1.laneSide = s.laneSide := by
  simp [State.walkRead]

@[simp] theorem orEntry_laneSide (s : State) (vf clock pa mask : Nat) :
    (s.orEntry vf clock pa mask).1.laneSide = s.laneSide := by
  simp [State.orEntry]

@[simp] theorem count_laneSide (s : State) (core evt n : Nat) : (s.count core evt n).laneSide = s.laneSide := by
  refine foldl_keeps State.laneSide _ (fun s k => ?_) _ _
  split <;> rfl

@[simp] theorem l1Put_laneSide (s : State) (core : Nat) (ca : Cache) (sec : Nat) (x : Copy) :
    (s.l1Put core ca sec x).laneSide = s.laneSide := by
  unfold State.l1Put
  dsimp only
  split
  · split
    · rfl
    · split <;> rfl
  · split <;> rfl

/-! ## Walks -/

@[simp] theorem addWalk_laneSide (s : State) (d : Nat) (e : WalkEntry) : (s.addWalk d e).laneSide = s.laneSide := rfl

@[simp] theorem keepPointer_laneSide (s : State) (d vf spid va lv table : Nat) :
    (s.keepPointer d vf spid va lv table).laneSide = s.laneSide := by
  unfold State.keepPointer
  split <;> rfl

@[simp] theorem walk2_laneSide (d vf spid fpa n : Nat) (s : State) (lv table : Nat) :
    (walk2 s d vf spid fpa n lv table).1.laneSide = s.laneSide := by
  induction n generalizing s lv table with
  | zero => rfl
  | succ n ih =>
    have hread := walkRead_laneSide s d vf (table + 8 * lvIndex lv fpa)
    unfold walk2
    dsimp only
    split
    · rfl
    · split
      · exact hread
      · split
        · split <;> exact hread
        · split
          · exact hread
          · exact (ih _ _ _).trans ((addWalk_laneSide ..).trans hread)

@[simp] theorem stage2_laneSide (s : State) (d vf spid fpa : Nat) : (s.stage2 d vf spid fpa).1.laneSide = s.laneSide := by
  unfold State.stage2
  dsimp only
  split
  · rfl
  · split
    · exact walk2_laneSide ..
    · split
      · exact walk2_laneSide ..
      · rfl

/-- The state of a pair that a definition takes apart. -/
theorem laneSide_of_fst {α : Type} {x : State × α} {s t : State} {r : α} (h : x.1.laneSide = s.laneSide)
    (e : x = (t, r)) : t.laneSide = s.laneSide := by
  rw [e] at h
  exact h

@[simp] theorem walk1_laneSide (d vf spid va n : Nat) (s : State) (lv table : Nat) :
    (walk1 s d vf spid va n lv table).1.laneSide = s.laneSide := by
  induction n generalizing s lv table with
  | zero => rfl
  | succ n ih =>
    unfold walk1
    split
    · next e => exact laneSide_of_fst (stage2_laneSide ..) e
    · next u y e =>
      have hu : u.laneSide = s.laneSide := laneSide_of_fst (stage2_laneSide ..) e
      have hread : ((u.keepPointer d vf spid va lv table).walkRead d vf y.pa).1.laneSide = s.laneSide :=
        (walkRead_laneSide ..).trans ((keepPointer_laneSide ..).trans hu)
      dsimp only
      split
      · exact hu
      · split
        · exact hu
        · split
          · exact hread
          · split
            · split
              · exact hread
              · split
                · next e => exact (laneSide_of_fst (stage2_laneSide ..) e).trans hread
                · next e => exact (laneSide_of_fst (stage2_laneSide ..) e).trans hread
            · split
              · exact hread
              · exact (ih _ _ _).trans hread

@[simp] theorem descriptor_laneSide (s : State) (d vf spid va : Nat) :
    (s.descriptor d vf spid va).1.laneSide = s.laneSide := by
  unfold State.descriptor
  dsimp only
  split
  · next e => exact laneSide_of_fst (stage2_laneSide ..) e
  · next u y e =>
    have hu : u.laneSide = s.laneSide := laneSide_of_fst (stage2_laneSide ..) e
    have hread : (u.walkRead d vf y.pa).1.laneSide = s.laneSide := (walkRead_laneSide ..).trans hu
    split
    · exact hu
    · split
      · exact hu
      · split
        · exact hread
        · split <;> exact hread

@[simp] theorem walk_laneSide (s : State) (d vf spid root va : Nat) :
    (s.walk d vf spid root va).1.laneSide = s.laneSide := by
  unfold State.walk
  split
  · exact walk1_laneSide ..
  · split
    · exact walk1_laneSide ..
    · split
      · next e => exact laneSide_of_fst (descriptor_laneSide ..) e
      · next e => exact (walk1_laneSide ..).trans (laneSide_of_fst (descriptor_laneSide ..) e)

@[simp] theorem raiseWho_laneSide (s : State) (w : Who) (t : Nat) : (s.raiseWho w t).laneSide = s.laneSide := by
  unfold State.raiseWho
  split
  · rfl
  · split <;> rfl

@[simp] theorem walkFor_laneSide (s : State) (w : Who) (fetch : Bool) (va : Nat) :
    (s.walkFor w fetch va).1.laneSide = s.laneSide := by
  unfold State.walkFor State.inWalk
  dsimp only
  split <;> simp

/-! ## Translations -/

@[simp] theorem keepTlb_laneSide (s : State) (core : Nat) (fetch : Bool) (e : Tlb) :
    (s.keepTlb core fetch e).laneSide = s.laneSide := rfl

@[simp] theorem translate_laneSide (s : State) (w : Who) (fetch : Bool) (va : Nat) :
    (s.translate w fetch va).1.laneSide = s.laneSide := by
  have hcount : (if fetch then s else s.count w.core 8 1).laneSide = s.laneSide := by
    split
    · rfl
    · exact count_laneSide ..
  unfold State.translate
  dsimp only
  split
  · rfl
  · split
    · rfl
    · split
      · exact (keepTlb_laneSide ..).trans hcount
      · split
        · next e => exact (laneSide_of_fst (walkFor_laneSide ..) e).trans hcount
        · next e => exact (keepTlb_laneSide ..).trans ((laneSide_of_fst (walkFor_laneSide ..) e).trans hcount)

@[simp] theorem resolve_laneSide (s : State) (w : Who) (kind va : Nat) :
    (s.resolve w kind va).1.laneSide = s.laneSide := by
  unfold State.resolve
  split
  · rfl
  · split
    · next e => exact laneSide_of_fst (translate_laneSide ..) e
    · next e =>
      split <;> exact laneSide_of_fst (translate_laneSide ..) e

@[simp] theorem markLeaf_laneSide (s : State) (w : Who) (m : Nat) (a : Option Nat) :
    (s.markLeaf w m a).laneSide = s.laneSide := by
  cases a with
  | none => rfl
  | some a => exact (raiseWho_laneSide ..).trans (orEntry_laneSide ..)

@[simp] theorem markUsed_laneSide (s : State) (w : Who) (e : Tlb) (dirty : Bool) :
    (s.markUsed w e dirty).laneSide = s.laneSide := by
  unfold State.markUsed
  split
  · rfl
  · simp

/-! ## The prefetch itself -/

@[simp] theorem await_laneSide (s : State) (report : Nat) (x : Waiter) : (s.await report x).laneSide = s.laneSide := by
  unfold State.await
  split <;> rfl

@[simp] theorem placeStash_laneSide (s : State) (w : Who) (b kind va : Nat) :
    (s.placeStash w b kind va).1.laneSide = s.laneSide := by
  unfold State.placeStash
  dsimp only
  split
  · rfl
  · split
    · rfl
    · split
      · split <;> rfl
      · split
        · next e => exact laneSide_of_fst (translate_laneSide ..) e
        · next u y e =>
          have hu : u.laneSide = s.laneSide := laneSide_of_fst (translate_laneSide ..) e
          split
          · exact hu
          · split
            · exact hu
            · split <;> exact hu

@[simp] theorem takeSec_laneSide (s : State) (w : Who) (ca : Cache) (b k : Nat) (x : Sector) (own place : Bool) :
    (s.takeSec w ca b k x own place).laneSide = s.laneSide := by
  unfold State.takeSec
  dsimp only
  split
  · exact (setSec_laneSide ..).trans ((fillLine_laneSide ..).trans (recall_laneSide ..))
  · refine (setSec_laneSide ..).trans ?_
    split
    · exact grant_laneSide ..
    · exact (fillLine_laneSide ..).trans (recall_laneSide ..)

@[simp] theorem fillSec_laneSide (s : State) (w : Who) (ca : Cache) (b k : Nat) (e : Tlb) (own place : Bool) :
    (s.fillSec w ca b k e own place).laneSide = s.laneSide := by
  simp [State.fillSec]

@[simp] theorem bringCopy_laneSide (s : State) (w : Who) (sec : Nat) : (s.bringCopy w sec).laneSide = s.laneSide := by
  unfold State.bringCopy
  dsimp only
  split <;> simp

/-- Whatever becomes of a prefetch, the lanes' side of the machine stands (R131). -/
theorem prefetch_laneSide (s : State) (p : Nat) (var : PfVar) (ea : Nat) :
    (s.prefetch p var ea).laneSide = s.laneSide := by
  have hstash := placeStash_laneSide s (s.who p) (blockOf (teamOf p)) kRead ea
  have hres := resolve_laneSide s (s.who p) kRead ea
  unfold State.prefetch
  dsimp only
  split
  · split
    · next e =>
      split
      · exact await_laneSide ..
      · exact (fillSec_laneSide ..).trans (laneSide_of_fst hstash e)
    · next e => exact laneSide_of_fst hstash e
    · next e =>
      split
      · exact await_laneSide ..
      · exact (setCore_laneSide ..).trans (laneSide_of_fst hstash e)
  · split
    · next e =>
      split
      · exact await_laneSide ..
      · exact (setCore_laneSide ..).trans (laneSide_of_fst hres e)
    · next e =>
      have hu := laneSide_of_fst hres e
      split
      · exact (setCore_laneSide ..).trans hu
      · split
        · exact await_laneSide ..
        · split
          · exact (fillLine_laneSide ..).trans ((markUsed_laneSide ..).trans hu)
          · exact (bringCopy_laneSide ..).trans ((markUsed_laneSide ..).trans hu)

/-- The prefetches of the lanes of `pfd` (R131). -/
def pfdEff (a : Reg) (off : BitVec 16) (var : PfVar) (c : Ctx) (s0 : State) : State :=
  eachLane c.ga (fun l s => s.prefetch c.p var (effAddr (s0.rd64 0 c.t l a) off)) s0

theorem pfd_exec (h : Hdr) (a : Reg) (off : BitVec 16) (var : PfVar) (s : State) :
    exec (.pfd h a off var) s = issueMem (.pfd h a off var) s
      (fun c s => countSectors (c.ga.map fun l => (effAddr (s.rd64 0 c.t l a) off, 1))) (pfdEff a off var) := rfl

theorem pfdEff_laneSide (a : Reg) (off : BitVec 16) (var : PfVar) (c : Ctx) (s : State) :
    (pfdEff a off var c s).laneSide = s.laneSide :=
  foldl_keeps State.laneSide _ (fun _ _ => prefetch_laneSide ..) c.ga s

theorem pfd_passes {s : State} {h : Hdr} {a : Reg} {off : BitVec 16} {var : PfVar} (hi : Issues (.pfd h a off var) s)
    (hs : s.noSampling) :
    ∃ t, exec (.pfd h a off var) s = .next t ∧ t.regs = s.regs ∧ t.defs = s.defs
      ∧ ∀ q, t.part q = { t.part q with ops := (s.part q).ops, susp := (s.part q).susp, life := (s.part q).life } := by
  have hside := pfdEff_laneSide a off var (s.opCtx h) s.issued
  simp only [State.laneSide, Prod.mk.injEq] at hside
  obtain ⟨hregs, hdefs, hparts, hsmp⟩ := hside
  have hn : (pfdEff a off var (s.opCtx h) s.issued).noSampling := by
    unfold State.noSampling
    rw [hsmp]
    exact issued_noSampling hs
  refine ⟨_, (pfd_exec h a off var s).trans (issueMem_issues hi hn), ?_, ?_, fun q => ?_⟩
  · exact (finish_regs _ _).trans (hregs.trans (issued_regs s))
  · exact (finish_defs _ _).trans (hdefs.trans (issued_defs s))
  · have hmid : (pfdEff a off var (s.opCtx h) s.issued).part q = s.issued.part q := by
      unfold State.part; rw [hparts]
    have hq := (lanesOnly_finish s.issue.part (pfdEff a off var (s.opCtx h) s.issued)).part_still q
    rw [hmid, (issued_frame s).part_still q] at hq
    exact hq

end Sys2Proof.Machine

open Sys2Proof Sys2Proof.Machine

/-- Settles O21, instruction by instruction: what the effect of each changes, and that the end of its issue keeps the
rest. -/
theorem passingInstructions : Obligations.PassingInstructions := by
  unfold Obligations.PassingInstructions
  constructor
  · intro s h l n a path sco
    refine ⟨nop_passes, beat_passes, ipref_passes, fun hi hs => ?_, fun hi hs => ?_⟩
    · exact issueMem_passes hi hs (waitc_exec h a path s)
    · exact issueMem_passes hi hs (fence_exec h sco s)
  · intro s h d a off var path hs
    exact ⟨fun hi => pfd_passes hi hs, fun hi => cntq_counts hi hs, fun hi => fenceSys_passes hi hs⟩

end

section
/-! What accesses leave alone (R62 to R71, R84): along the whole way of an access, from the walk to the bytes at a home, in a
stash or in a window, everything stands but memory, the caches and stashes, the times and the model's counters; and of a
function only its counters change. -/

namespace Sys2Proof.Machine

/-- What an access changes of no function: its enable, its reset and its fault queue. -/
def Fn.control (x : Fn) : Bool × Bool × Ring := (x.en, x.flrb, x.fq)

/-- That of every function. -/
def State.control (s : State) (f : Nat) : Bool × Bool × Ring := (s.fn f).control

/-- What stands apart from memory: the state without the fields that accesses change, and the functions' controls. -/
def State.apart (s : State) : State × (Nat → Bool × Bool × Ring) :=
  ({ s with
      mem := [], memPoison := [], l1 := [], l2 := [], owners := [], undo := [], stored := [], commits := [], blocks := []
      cores := [], dies := [], fns := [], guest := { s.guest with clock := 0 }, hostClock := 0, recording := false, rcsts := 0
      endt := 0, rclog := [], agenda := [], fresh := 0, nextId := 0 }, s.control)

section
variable {s t : State} (h : t.apart = s.apart)
include h

theorem apart_regs : t.regs = s.regs := congrArg (fun x => x.1.regs) h
theorem apart_held : t.held = s.held := congrArg (fun x => x.1.held) h
theorem apart_reports : t.reports = s.reports := congrArg (fun x => x.1.reports) h
theorem apart_control : t.control = s.control := congrArg Prod.snd h

end

/-- What the state of a pair keeps, where a definition takes the pair apart. -/
theorem of_fst {α β : Type} {g : State → β} {x : State × α} {t : State} {r : α} {b : β} (h : g x.1 = b)
    (e : x = (t, r)) : g t = b := by
  rw [e] at h
  exact h

/-! ## Homes -/

theorem setFn_control {s : State} {f : Nat} {x : Fn} (h : x.control = (s.fn f).control) :
    (s.setFn f x).control = s.control := by
  funext k
  unfold State.control
  by_cases e : k = f
  · rw [e, State.fn_setFn_self, h]
  · rw [State.fn_setFn_ne _ _ _ _ e]

theorem modFn_control (s : State) (f : Nat) {g : Fn → Fn} (h : ∀ x, (g x).control = x.control) :
    (s.modFn f g).control = s.control := setFn_control (h _)

/-- An update of a function's counters. -/
theorem modFn_apart (s : State) (f : Nat) {g : Fn → Fn} (h : ∀ x, (g x).control = x.control) :
    (s.modFn f g).apart = s.apart := congrArg (Prod.mk s.apart.1) (modFn_control s f h)

@[simp] theorem bump_apart (s : State) : s.bump.apart = s.apart := rfl
@[simp] theorem takeId_apart (s : State) : s.takeId.2.apart = s.apart := rfl
@[simp] theorem setCore_apart (s : State) (c : Nat) (x : Core) : (s.setCore c x).apart = s.apart := rfl
@[simp] theorem setDie_apart (s : State) (d : Nat) (x : Die) : (s.setDie d x).apart = s.apart := rfl
@[simp] theorem setBlock_apart (s : State) (b : Nat) (x : Block) : (s.setBlock b x).apart = s.apart := rfl
@[simp] theorem setSec_apart (s : State) (b k : Nat) (x : Sector) : (s.setSec b k x).apart = s.apart := rfl
@[simp] theorem setOwners_apart (s : State) (x : FMap Nat) : { s with owners := x }.apart = s.apart := rfl
@[simp] theorem settleSec_apart (s : State) (sec : Nat) : (s.settleSec sec).apart = s.apart := rfl
@[simp] theorem overwritten_apart (s : State) (pa n : Nat) : (s.overwritten pa n).apart = s.apart := rfl
@[simp] theorem noteStore_apart (s : State) (num sec t : Nat) : (s.noteStore num sec t).apart = s.apart := rfl
@[simp] theorem putLine_apart (s : State) (vf : Nat) (ca : Cache) (line w : Nat) :
    (s.putLine vf ca line w).apart = s.apart := rfl
@[simp] theorem touchLine_apart (s : State) (x : L2Line) : (s.touchLine x).apart = s.apart := rfl
@[simp] theorem evictLine_apart (s : State) (line : Nat) : (s.evictLine line).apart = s.apart := rfl
@[simp] theorem raiseClock_apart (s : State) (core t : Nat) : (s.raiseClock core t).apart = s.apart := rfl
@[simp] theorem l1Drop_apart (s : State) (core sec : Nat) : (s.l1Drop core sec).apart = s.apart := rfl
@[simp] theorem addWalk_apart (s : State) (d : Nat) (e : WalkEntry) : (s.addWalk d e).apart = s.apart := rfl
@[simp] theorem keepTlb_apart (s : State) (core : Nat) (fetch : Bool) (e : Tlb) :
    (s.keepTlb core fetch e).apart = s.apart := rfl
@[simp] theorem logPop_apart (s : State) (x : Logged) : (s.logPop x).apart = s.apart := rfl
@[simp] theorem settleStores_apart (s : State) (p : Nat) (ls : List Nat) : (s.settleStores p ls).apart = s.apart := rfl

@[simp] theorem setHome_apart (s : State) (sec : Nat) (h : Home) : (s.setHome sec h).apart = s.apart := by
  unfold State.setHome
  dsimp only
  split <;> rfl

@[simp] theorem evictFor_apart (s : State) (vf : Nat) (y : L2Line) : (s.evictFor vf y).apart = s.apart := by
  unfold State.evictFor
  rw [evictLine_apart]
  split
  · rfl
  · have hc : (s.modFn vf fun f => { f with l2evc := addCount f.l2evc 1 }).apart = s.apart :=
      modFn_apart _ _ fun _ => rfl
    refine Eq.trans ?_ hc
    exact modFn_apart _ _ fun _ => rfl

@[simp] theorem logged_apart (s : State) (x : Logged) : (s.logged x).apart = s.apart := by
  unfold State.logged
  split
  · rfl
  · split <;> rfl

@[simp] theorem lineArrives_apart (s : State) (line : Nat) : (s.lineArrives line).apart = s.apart := by
  unfold State.lineArrives
  split
  · exact logged_apart ..
  · rfl

@[simp] theorem fillLine_apart (s : State) (vf : Nat) (ca : Cache) (line : Nat) :
    (s.fillLine vf ca line).apart = s.apart := by
  have arrive : ((s.modFn vf fun f => { f with l2fill := addCount f.l2fill 1 }).lineArrives line).apart = s.apart :=
    (lineArrives_apart ..).trans (modFn_apart _ _ fun _ => rfl)
  unfold State.fillLine
  dsimp only
  split
  · split
    · exact touchLine_apart ..
    · rfl
  · split
    · exact (putLine_apart ..).trans arrive
    · exact (putLine_apart ..).trans ((evictFor_apart ..).trans arrive)
    · exact arrive

@[simp] theorem unpoison_apart (s : State) (pa n v m : Nat) : (s.unpoison pa n v m).1.apart = s.apart := by
  unfold State.unpoison
  split <;> rfl

@[simp] theorem putBytes_apart (s : State) (pa n data mask psn : Nat) :
    (s.putBytes pa n data mask psn).apart = s.apart := by
  refine foldl_keeps State.apart _ (fun s i => ?_) _ _
  split <;> rfl

@[simp] theorem writeBack_apart (s : State) (x : Sector) : (s.writeBack x).apart = s.apart := putBytes_apart ..

@[simp] theorem recall_apart (s : State) (wr : Bool) (sec : Nat) : (s.recall wr sec).apart = s.apart := by
  unfold State.recall
  split
  · rfl
  · split
    · rfl
    · simp only [setHome_apart, setOwners_apart, setSec_apart, writeBack_apart]

@[simp] theorem grant_apart (s : State) (vf : Nat) (ca : Cache) (clock sec : Nat) (drop : Bool) :
    (s.grant vf ca clock sec drop).1.apart = s.apart := by
  simp [State.grant]

@[simp] theorem takeTime_apart (s : State) (vf : Nat) (ca : Cache) (num clock sec : Nat) :
    (s.takeTime vf ca num clock sec).1.apart = s.apart := by
  simp [State.takeTime]

@[simp] theorem walkRead_apart (s : State) (d vf pa : Nat) : (s.walkRead d vf pa).1.apart = s.apart := by
  simp [State.walkRead]

@[simp] theorem orEntry_apart (s : State) (vf clock pa mask : Nat) :
    (s.orEntry vf clock pa mask).1.apart = s.apart := by
  simp [State.orEntry]

@[simp] theorem deviceWriteAt_apart (s : State) (vf clock pa n data : Nat) :
    (s.deviceWriteAt vf clock pa n data).apart = s.apart :=
  (putBytes_apart ..).trans ((overwritten_apart ..).trans
    (foldl_keeps State.apart _ (fun s x => takeTime_apart s vf .keep noLane clock x) _ s))

@[simp] theorem quietRead_apart (s : State) (vf : Nat) (ca : Cache) (pa n : Nat) :
    (s.quietRead vf ca pa n).1.apart = s.apart :=
  foldl_keeps State.apart _ (fun s x => (fillLine_apart (s.recall false x) vf ca (x / 4)).trans (recall_apart ..)) _ s

@[simp] theorem count_apart (s : State) (core evt n : Nat) : (s.count core evt n).apart = s.apart := by
  refine foldl_keeps State.apart _ (fun s k => ?_) _ _
  split <;> rfl

@[simp] theorem l1Put_apart (s : State) (core : Nat) (ca : Cache) (sec : Nat) (x : Copy) :
    (s.l1Put core ca sec x).apart = s.apart := by
  unfold State.l1Put
  dsimp only
  split
  · split
    · rfl
    · split <;> rfl
  · split <;> rfl

@[simp] theorem noteUndo_apart (s : State) (tag pa n mask : Nat) : (s.noteUndo tag pa n mask).apart = s.apart := by
  unfold State.noteUndo
  split <;> rfl

@[simp] theorem raiseWho_apart (s : State) (w : Who) (t : Nat) : (s.raiseWho w t).apart = s.apart := by
  unfold State.raiseWho
  split
  · rfl
  · split <;> rfl

/-! ## Walks -/

@[simp] theorem keepPointer_apart (s : State) (d vf spid va lv table : Nat) :
    (s.keepPointer d vf spid va lv table).apart = s.apart := by
  unfold State.keepPointer
  split <;> rfl

@[simp] theorem walk2_apart (d vf spid fpa n : Nat) (s : State) (lv table : Nat) :
    (walk2 s d vf spid fpa n lv table).1.apart = s.apart := by
  induction n generalizing s lv table with
  | zero => rfl
  | succ n ih =>
    have hread := walkRead_apart s d vf (table + 8 * lvIndex lv fpa)
    unfold walk2
    dsimp only
    split
    · rfl
    · split
      · exact hread
      · split
        · split <;> exact hread
        · split
          · exact hread
          · exact (ih _ _ _).trans ((addWalk_apart ..).trans hread)

@[simp] theorem stage2_apart (s : State) (d vf spid fpa : Nat) : (s.stage2 d vf spid fpa).1.apart = s.apart := by
  unfold State.stage2
  dsimp only
  split
  · rfl
  · split
    · exact walk2_apart ..
    · split
      · exact walk2_apart ..
      · rfl

@[simp] theorem walk1_apart (d vf spid va n : Nat) (s : State) (lv table : Nat) :
    (walk1 s d vf spid va n lv table).1.apart = s.apart := by
  induction n generalizing s lv table with
  | zero => rfl
  | succ n ih =>
    unfold walk1
    split
    · next e => exact of_fst (stage2_apart ..) e
    · next u y e =>
      have hu : u.apart = s.apart := of_fst (stage2_apart ..) e
      have hread : ((u.keepPointer d vf spid va lv table).walkRead d vf y.pa).1.apart = s.apart :=
        (walkRead_apart ..).trans ((keepPointer_apart ..).trans hu)
      dsimp only
      split
      · exact hu
      · split
        · exact hu
        · split
          · exact hread
          · split
            · split
              · exact hread
              · split
                · next e => exact (of_fst (stage2_apart ..) e).trans hread
                · next e => exact (of_fst (stage2_apart ..) e).trans hread
            · split
              · exact hread
              · exact (ih _ _ _).trans hread

@[simp] theorem descriptor_apart (s : State) (d vf spid va : Nat) :
    (s.descriptor d vf spid va).1.apart = s.apart := by
  unfold State.descriptor
  dsimp only
  split
  · next e => exact of_fst (stage2_apart ..) e
  · next u y e =>
    have hu : u.apart = s.apart := of_fst (stage2_apart ..) e
    have hread : (u.walkRead d vf y.pa).1.apart = s.apart := (walkRead_apart ..).trans hu
    split
    · exact hu
    · split
      · exact hu
      · split
        · exact hread
        · split <;> exact hread

@[simp] theorem walk_apart (s : State) (d vf spid root va : Nat) : (s.walk d vf spid root va).1.apart = s.apart := by
  unfold State.walk
  split
  · exact walk1_apart ..
  · split
    · exact walk1_apart ..
    · split
      · next e => exact of_fst (descriptor_apart ..) e
      · next e => exact (walk1_apart ..).trans (of_fst (descriptor_apart ..) e)

@[simp] theorem walkFor_apart (s : State) (w : Who) (fetch : Bool) (va : Nat) :
    (s.walkFor w fetch va).1.apart = s.apart := by
  unfold State.walkFor State.inWalk
  dsimp only
  split <;> simp

@[simp] theorem translate_apart (s : State) (w : Who) (fetch : Bool) (va : Nat) :
    (s.translate w fetch va).1.apart = s.apart := by
  have hcount : (if fetch then s else s.count w.core 8 1).apart = s.apart := by
    split
    · rfl
    · exact count_apart ..
  unfold State.translate
  dsimp only
  split
  · rfl
  · split
    · rfl
    · split
      · exact (keepTlb_apart ..).trans hcount
      · split
        · next e => exact (of_fst (walkFor_apart ..) e).trans hcount
        · next e => exact (keepTlb_apart ..).trans ((of_fst (walkFor_apart ..) e).trans hcount)

@[simp] theorem resolve_apart (s : State) (w : Who) (kind va : Nat) : (s.resolve w kind va).1.apart = s.apart := by
  unfold State.resolve
  split
  · rfl
  · split
    · next e => exact of_fst (translate_apart ..) e
    · next e =>
      split <;> exact of_fst (translate_apart ..) e

@[simp] theorem markLeaf_apart (s : State) (w : Who) (m : Nat) (a : Option Nat) :
    (s.markLeaf w m a).apart = s.apart := by
  cases a with
  | none => rfl
  | some a => exact (raiseWho_apart ..).trans (orEntry_apart ..)

@[simp] theorem markUsed_apart (s : State) (w : Who) (e : Tlb) (dirty : Bool) :
    (s.markUsed w e dirty).apart = s.apart := by
  unfold State.markUsed
  split
  · rfl
  · simp

/-! ## Accesses of lanes -/

@[simp] theorem readHome_apart (s : State) (w : Who) (ca : Cache) (pa n : Nat) :
    (s.readHome w ca pa n).1.apart = s.apart := by
  unfold State.readHome
  dsimp only
  split
  · split <;> simp
  · simp

@[simp] theorem storeHome_apart (s : State) (w : Who) (ca : Cache) (op pa n data psn : Nat) :
    (s.storeHome w ca op pa n data psn).apart = s.apart := by
  unfold State.storeHome
  dsimp only
  split <;> simp

@[simp] theorem takeSec_apart (s : State) (w : Who) (ca : Cache) (b k : Nat) (x : Sector) (own place : Bool) :
    (s.takeSec w ca b k x own place).apart = s.apart := by
  unfold State.takeSec
  dsimp only
  split
  · exact (setSec_apart ..).trans ((setOwners_apart ..).trans ((fillLine_apart ..).trans (recall_apart ..)))
  · rw [setSec_apart]
    split <;> simp

@[simp] theorem fillSec_apart (s : State) (w : Who) (ca : Cache) (b k : Nat) (e : Tlb) (own place : Bool) :
    (s.fillSec w ca b k e own place).apart = s.apart := by
  simp [State.fillSec]

@[simp] theorem refreshSec_apart (s : State) (w : Who) (ca : Cache) (b k : Nat) (own : Bool) :
    (s.refreshSec w ca b k own).apart = s.apart := by
  unfold State.refreshSec
  dsimp only
  split
  · rfl
  · exact takeSec_apart ..

@[simp] theorem readySec_apart (s : State) (w : Who) (ca : Cache) (b k : Nat) (e : Option Tlb) (own : Bool) :
    (s.readySec w ca b k e own).apart = s.apart := by
  unfold State.readySec
  split
  · exact fillSec_apart ..
  · exact refreshSec_apart ..
  · rfl

@[simp] theorem readStash_apart (s : State) (w : Who) (ca : Cache) (b k : Nat) (e : Option Tlb) (o n : Nat) :
    (s.readStash w ca b k e o n).1.apart = s.apart := by
  unfold State.readStash
  dsimp only
  split <;> simp

@[simp] theorem raiseWriter_apart (s : State) (w : Who) (t : Nat) : (s.raiseWriter w t).apart = s.apart := by
  unfold State.raiseWriter
  split <;> rfl

@[simp] theorem dirtySec_apart (s : State) (w : Who) (ca : Cache) (b k : Nat) (e : Option Tlb) :
    (s.dirtySec w ca b k e).apart = s.apart := by
  unfold State.dirtySec
  dsimp only
  split
  · split <;> simp
  · exact readySec_apart ..

@[simp] theorem putStash_apart (s : State) (w : Who) (op b k o n data psn : Nat) :
    (s.putStash w op b k o n data psn).apart = s.apart := by
  simp [State.putStash]

@[simp] theorem writeStash_apart (s : State) (w : Who) (ca : Cache) (op b k : Nat) (e : Option Tlb) (o n data psn : Nat) :
    (s.writeStash w ca op b k e o n data psn).apart = s.apart := by
  simp [State.writeStash]

@[simp] theorem atomStash_apart (s : State) (w : Who) (op b k : Nat) (e : Option Tlb) (o : Nat) (a : Access) (n : Nat) :
    (s.atomStash w op b k e o a n).1.apart = s.apart := by
  unfold State.atomStash
  dsimp only
  split
  · split <;> simp
  · simp

@[simp] theorem readPriv_apart (s : State) (w : Who) (b o n : Nat) : (s.readPriv w b o n).1.apart = s.apart := by
  simp [State.readPriv]

@[simp] theorem writePriv_apart (s : State) (w : Who) (b o n data psn : Nat) :
    (s.writePriv w b o n data psn).apart = s.apart := by
  simp [State.writePriv]

@[simp] theorem atomPriv_apart (s : State) (w : Who) (b o : Nat) (a : Access) (n : Nat) :
    (s.atomPriv w b o a n).1.apart = s.apart := by
  unfold State.atomPriv
  dsimp only
  split <;> simp

@[simp] theorem readConst_apart (s : State) (w : Who) (ca : Cache) (off n : Nat) :
    (s.readConst w ca off n).1.apart = s.apart := by
  unfold State.readConst
  dsimp only
  split <;> simp

@[simp] theorem outside_apart (s : State) (tag v : Nat) : (s.outside tag v).1.apart = s.apart := by
  unfold State.outside
  split
  · split <;> rfl
  · exact logged_apart ..

@[simp] theorem readWindow_apart (s : State) (pa n : Nat) : (s.readWindow pa n).1.apart = s.apart := by
  unfold State.readWindow
  split
  · rfl
  · simp

@[simp] theorem writeWindow_apart (s : State) (w : Who) (pa n data : Nat) :
    (s.writeWindow w pa n data).apart = s.apart := by
  unfold State.writeWindow
  split <;> rfl

@[simp] theorem atomHome_apart (s : State) (w : Who) (op pa n : Nat) (a : Access) (wr : Bool) :
    (s.atomHome w op pa n a wr).1.apart = s.apart := by
  unfold State.atomHome
  dsimp only
  split
  · rw [l1Drop_apart, raiseClock_apart]
    split <;> simp
  · simp

@[simp] theorem readChunk_apart (s : State) (w : Who) (a : Access) (c : Chunk) :
    (s.readChunk w a c).1.apart = s.apart := by
  unfold State.readChunk
  dsimp only
  split <;> simp

@[simp] theorem writeChunk_apart (s : State) (w : Who) (op : Nat) (a : Access) (c : Chunk) :
    (s.writeChunk w op a c).apart = s.apart := by
  unfold State.writeChunk
  dsimp only
  split <;> simp

@[simp] theorem atomChunk_apart (s : State) (w : Who) (op : Nat) (a : Access) (c : Chunk) :
    (s.atomChunk w op a c).1.apart = s.apart := by
  unfold State.atomChunk
  dsimp only
  split
  · split <;> simp
  all_goals simp

/-- A fold over a state and a value, each step of which keeps something of the state. -/
theorem foldl_fst_keeps {α β γ : Type} (g : State → β) (f : State × γ → α → State × γ)
    (hf : ∀ r x, g (f r x).1 = g r.1) (xs : List α) (r : State × γ) : g (xs.foldl f r).1 = g r.1 := by
  induction xs generalizing r with
  | nil => rfl
  | cons x xs ih => exact (ih _).trans (hf r x)

@[simp] theorem perform_apart (s : State) (w : Who) (op : Nat) (a : Access) (cs : List Chunk) :
    (s.perform w op a cs).1.apart = s.apart := by
  refine foldl_fst_keeps State.apart _ (fun r c => ?_) cs (s, 0, 0)
  split
  · exact readChunk_apart ..
  · exact writeChunk_apart ..
  · exact atomChunk_apart ..

@[simp] theorem startCommits_apart (s : State) (w : Who) (part lane op g seq : Nat) (a : Access) (cs : List Chunk) :
    (s.startCommits w part lane op g seq a cs).apart = s.apart := by
  refine foldl_keeps State.apart _ (fun s c => ?_) cs s
  split <;> rfl

@[simp] theorem performOr_apart (s : State) (w : Who) (part lane op g seq : Nat) (secs : List Nat) (a : Access)
    (cs : List Chunk) : (s.performOr w part lane op g seq secs a cs).1.apart = s.apart := by
  unfold State.performOr
  dsimp only
  split <;> simp

@[simp] theorem laneDo_apart (s : State) (w : Who) (part lane op g seq : Nat) (secs : List Nat) (a : Access)
    (cs : List Chunk) : (s.laneDo w part lane op g seq secs a cs).1.apart = s.apart := by
  unfold State.laneDo
  rw [performOr_apart]
  split <;> simp

/-! ## Accesses of other agents -/

@[simp] theorem homeRead_apart (s : State) (w : Who) (place : Bool) (pa n : Nat) (ca : Cache) :
    (s.homeRead w place pa n ca).1.apart = s.apart := by
  unfold State.homeRead
  split <;> simp

@[simp] theorem homeWrite_apart (s : State) (w : Who) (clock pa n data psn : Nat) (ca : Cache) :
    (s.homeWrite w clock pa n data psn ca).1.apart = s.apart := by
  simp [State.homeWrite]

@[simp] theorem writeRep_apart (s : State) (w : Who) (by' : Writer) (part : Nat) (e : Tlb) (pa n data psn : Nat)
    (ca : Cache) : (s.writeRep w by' part e pa n data psn ca).1.apart = s.apart := by
  unfold State.writeRep
  dsimp only
  split
  · split <;> rfl
  · rfl

@[simp] theorem writePage_apart (s : State) (w : Who) (by' : Writer) (part : Nat) (e : Tlb) (clock pa n data psn : Nat)
    (ca : Cache) : (s.writePage w by' part e clock pa n data psn ca).1.apart = s.apart := by
  unfold State.writePage
  split
  · rfl
  · split
    · exact writeRep_apart ..
    · split
      · rfl
      · exact (homeWrite_apart ..).trans (markUsed_apart ..)

@[simp] theorem agentPut_apart (s : State) (w : Who) (clock va n data : Nat) :
    (s.agentPut w clock va n data).1.apart = s.apart := by
  unfold State.agentPut
  split
  · next e => exact of_fst (resolve_apart ..) e
  · next u e h =>
    have hu : u.apart = s.apart := of_fst (resolve_apart ..) h
    dsimp only
    split
    · split
      · exact hu
      · exact (writeWindow_apart ..).trans ((markUsed_apart ..).trans hu)
    · exact (writePage_apart ..).trans hu

@[simp] theorem agentWrite_apart (s : State) (w : Who) (va n data : Nat) :
    (s.agentWrite w va n data).1.apart = s.apart := by
  refine foldl_fst_keeps State.apart _ (fun r x => ?_) _ (s, Got.ok 0)
  split
  · exact agentPut_apart ..
  · rfl

end Sys2Proof.Machine

end

section
/-! Invalidating translations (R45, R345): what `tinv` drops of every cache, what it leaves, and what it waits for. -/

namespace Sys2Proof.Machine

/-! ## Dropping stash sectors -/

/-- What giving up a stash sector leaves: the state without memory, homes and stashes, and the dies' translation caches. -/
def State.offHome (s : State) : State × (Nat → List Tlb) :=
  ({ s with mem := [], memPoison := [], l2 := [], owners := [], blocks := [], dies := [] }, fun d => (s.die d).stlb)

theorem foldTime_offHome (s : State) (d t : Nat) : (s.foldTime d t).offHome = s.offHome := by
  refine congrArg (Prod.mk s.offHome.1) (funext fun x => ?_)
  unfold State.foldTime
  by_cases hx : x = d
  · rw [hx, State.modDie_eq, State.die_setDie_self]
  · rw [State.modDie_eq, State.die_setDie_ne _ _ _ _ hx]

theorem setHome_offHome (s : State) (sec : Nat) (h : Home) : (s.setHome sec h).offHome = s.offHome := by
  unfold State.setHome
  dsimp only
  split
  · rfl
  · exact foldTime_offHome ..

theorem putBytes_offHome (s : State) (pa n data mask psn : Nat) :
    (s.putBytes pa n data mask psn).offHome = s.offHome := by
  refine foldl_keeps State.offHome _ (fun s i => ?_) _ _
  split <;> rfl

theorem cleanSec_offHome (s : State) (b k : Nat) : (s.cleanSec b k).offHome = s.offHome := by
  unfold State.cleanSec
  dsimp only
  split
  · exact putBytes_offHome s _ _ _ _ _
  · rfl

theorem dropSec_offHome (s : State) (b k : Nat) : (s.dropSec b k).offHome = s.offHome := by
  unfold State.dropSec
  dsimp only
  split
  · exact setHome_offHome ..
  · rfl

theorem retireSec_offHome (s : State) (b k : Nat) : (s.retireSec b k).offHome = s.offHome :=
  (dropSec_offHome ..).trans (cleanSec_offHome ..)

theorem dropCovered_offHome (s : State) (v : Inval) : (s.dropCovered v).offHome = s.offHome := by
  unfold State.dropCovered
  refine foldl_keeps State.offHome _ (fun s b => ?_) _ _
  exact foldl_keeps State.offHome _ (fun s k => retireSec_offHome s b.1 k) _ _

/-! ## Every cache -/

/-- A map whose values are all changed by a function that leaves the default alone. -/
theorem get_mapValues {α : Type} {d : α} {f : α → α} (hd : f d = d) (m : FMap α) (k : Nat) :
    FMap.get d (m.map fun x => (x.1, f x.2)) k = f (FMap.get d m k) := by
  induction m with
  | nil => exact hd.symm
  | cons x m ih =>
    obtain ⟨j, y⟩ := x
    simp only [List.map_cons, FMap.get_cons, ih]
    split <;> rfl

/-- No translation cache of a core or die holds a translation that `v` covers, and no instruction cache a line. -/
def Dropped (v : Tlb → Bool) (t : State) : Prop :=
  (∀ c, ∀ e, (e ∈ (t.core c).tlb ∨ e ∈ (t.core c).itlb) → v e = false)
    ∧ (∀ x, ∀ e ∈ (t.die x).stlb, v e = false) ∧ ∀ c, (t.core c).icache = []

/-- The caches of a core after an invalidation. -/
def Core.without (v : Inval) (c : Core) : Core :=
  { c with itlb := c.itlb.filter fun e => !v.tlb e, tlb := c.tlb.filter fun e => !v.tlb e, icache := [] }

/-- The caches of a die after an invalidation. -/
def Die.without (v : Inval) (d : Die) : Die :=
  { d with stlb := d.stlb.filter fun e => !v.tlb e, wcache := d.wcache.filter fun e => !v.walk e }

theorem invalidate_core (s : State) (v : Inval) (c : Nat) : (s.invalidate v).core c = (s.core c).without v := by
  have h : (s.invalidate v).cores = s.cores.map fun x : Nat × Core => (x.1, x.2.without v) :=
    congrArg (fun x => x.1.cores) (dropCovered_offHome _ v)
  unfold State.core
  rw [h]
  exact get_mapValues rfl s.cores c

theorem invalidate_stlb (s : State) (v : Inval) (d : Nat) :
    ((s.invalidate v).die d).stlb = (s.die d).stlb.filter fun e => !v.tlb e := by
  have h : ((s.invalidate v).die d).stlb = (FMap.get {} (s.dies.map fun x : Nat × Die => (x.1, x.2.without v)) d).stlb :=
    congrFun (congrArg Prod.snd (dropCovered_offHome _ v)) d
  rw [h, get_mapValues rfl s.dies d]
  rfl

theorem invalidate_dropped (s : State) (v : Inval) : Dropped v.tlb (s.invalidate v) := by
  have keep : ∀ (l : List Tlb), ∀ e ∈ l.filter (fun e => !v.tlb e), v.tlb e = false := fun l e he => by
    simpa using (List.mem_filter.mp he).2
  refine ⟨fun c e he => ?_, fun d e he => ?_, fun c => ?_⟩
  · rw [invalidate_core] at he
    exact he.elim (keep _ e) (keep _ e)
  · rw [invalidate_stlb] at he
    exact keep _ e he
  · rw [invalidate_core]
    rfl

section
variable (s : State) (v : Inval)

theorem invalidate_regs : (s.invalidate v).regs = s.regs := congrArg (fun x => x.1.regs) (dropCovered_offHome _ v)
theorem invalidate_parts : (s.invalidate v).parts = s.parts := congrArg (fun x => x.1.parts) (dropCovered_offHome _ v)
theorem invalidate_guest : (s.invalidate v).guest = s.guest := congrArg (fun x => x.1.guest) (dropCovered_offHome _ v)
theorem invalidate_nextId : (s.invalidate v).nextId = s.nextId :=
  congrArg (fun x => x.1.nextId) (dropCovered_offHome _ v)

end

theorem Dropped.of_caches {v : Tlb → Bool} {s t : State} (h : Dropped v s) (hc : t.cores = s.cores)
    (hd : t.dies = s.dies) : Dropped v t := by
  unfold Dropped State.core State.die at *
  rw [hc, hd]
  exact h

/-- The end of an issue fills no cache. -/
theorem Dropped.lanesOnly {v : Tlb → Bool} {p : Nat} {s t : State} (h : Dropped v s) (hl : LanesOnly p s t) :
    Dropped v t := by
  have hd : ∀ x, t.die x = s.die x := fun x => by rw [hl.rest]; rfl
  obtain ⟨hc, hs, hi⟩ := h
  refine ⟨fun c => ?_, fun x => ?_, fun c => ?_⟩
  · rw [hl.cores c]; exact hc c
  · rw [hd x]; exact hs x
  · rw [hl.cores c]; exact hi c

/-! ## The guest -/

/-- Neither the guest nor a write that the port holds has a translation that is asked for. -/
theorem askInvalidate_none {s : State} {v : Tlb → Bool} (hx : ∀ e ∈ s.guest.xlats, v e = false)
    (hw : ∀ x ∈ s.guest.writes, v x.e = false) : s.askInvalidate v = (0, s) := by
  have h1 : s.guest.xlats.filter v = [] := List.filter_eq_nil_iff.mpr fun e he => by simp [hx e he]
  have h2 : (s.guest.writes.map (·.e)).filter v = [] := List.filter_eq_nil_iff.mpr fun e he => by
    obtain ⟨x, hm, rfl⟩ := List.mem_map.mp he
    simp [hw x hm]
  unfold State.askInvalidate
  dsimp only
  rw [h1, h2]
  rfl

/-- The state in which the guest has been asked for some translations. -/
def State.asked (s : State) (v : Tlb → Bool) : State :=
  let es := s.guest.xlats.filter v
  { s with
    nextId := s.nextId + 1
    guest := { s.guest with invs := s.guest.invs ++
      [{ id := s.nextId, es := es ++ (s.guest.writes.map (·.e)).filter v, since := s.tick, acked := es.isEmpty }] } }

section
variable (s : State) (v : Tlb → Bool)

theorem asked_regs : (s.asked v).regs = s.regs := rfl
theorem asked_cores : (s.asked v).cores = s.cores := rfl
theorem asked_dies : (s.asked v).dies = s.dies := rfl

end

theorem askInvalidate_some {s : State} {v : Tlb → Bool} (hf : s.guest.frz = false)
    (h : (∃ e ∈ s.guest.xlats, v e = true) ∨ ∃ x ∈ s.guest.writes, v x.e = true) :
    s.askInvalidate v = (s.nextId, s.asked v) := by
  have hne : ((s.guest.xlats.filter v).isEmpty && ((s.guest.writes.map (·.e)).filter v).isEmpty) = false := by
    rw [Bool.and_eq_false_iff]
    obtain ⟨e, he, hv⟩ | ⟨x, hx, hv⟩ := h
    · exact .inl (List.isEmpty_eq_false_iff_exists_mem.mpr ⟨e, List.mem_filter.mpr ⟨he, hv⟩⟩)
    · exact .inr (List.isEmpty_eq_false_iff_exists_mem.mpr
        ⟨x.e, List.mem_filter.mpr ⟨List.mem_map.mpr ⟨x, hx, rfl⟩, hv⟩⟩)
  unfold State.askInvalidate
  dsimp only
  rw [hne, hf]
  rfl

/-! ## The cases of `tinv` -/

/-- A stalled part stays where it is at the end of its issue. -/
theorem finish_stall {s : State} {c : Ctx} {w : Wait} (hw : w ≠ .none) : (s.stall c w).finish c.p = s.stall c w := by
  have h : (s.stall c w).stoppedAt c.p = true := by
    unfold State.stoppedAt State.stall
    simp [hw]
  unfold State.finish
  rw [h]
  rfl

theorem stall_part (s : State) (c : Ctx) (w : Wait) : (s.stall c w).part c.p = { s.part c.p with wait := w } :=
  State.part_setPart_self ..

section
variable (s : State) (c : Ctx) (w : Wait)

theorem stall_regs : (s.stall c w).regs = s.regs := rfl
theorem stall_cores : (s.stall c w).cores = s.cores := rfl
theorem stall_dies : (s.stall c w).dies = s.dies := rfl
theorem stall_guest : (s.stall c w).guest = s.guest := rfl

end

section Cases
variable {s : State} {c : Ctx} {v : Inval}

/-- `tinv` waits for the commits of its function. -/
theorem tinv_commits (ha : (s.part c.p).ack = 0) (hk : ∃ k ∈ s.commits, k.vf = v.vf ∧ k.done = none) :
    s.tinv c v = s.stall c .commit := by
  have hany : (s.commits.any fun k => k.vf = v.vf && k.done.isNone) = true := by
    obtain ⟨k, hm, hv, hd⟩ := hk
    exact List.any_eq_true.mpr ⟨k, hm, by simp [hv, hd]⟩
  unfold State.tinv
  simp only [ha, hany, ne_eq, not_true_eq_false, if_false, if_true]

theorem no_commits (hk : ∀ k ∈ s.commits, k.vf ≠ v.vf ∨ k.done ≠ none) :
    (s.commits.any fun k => k.vf = v.vf && k.done.isNone) = false := by
  simp only [List.any_eq_false, Bool.and_eq_true, decide_eq_true_eq, Option.isNone_iff_eq_none, not_and_or]
  exact hk

/-- `tinv` with nothing to wait for. -/
theorem tinv_alone (ha : (s.part c.p).ack = 0) (hk : ∀ k ∈ s.commits, k.vf ≠ v.vf ∨ k.done ≠ none)
    (hx : ∀ e ∈ s.guest.xlats, v.tlb e = false) (hw : ∀ x ∈ s.guest.writes, v.tlb x.e = false) :
    s.tinv c v = s.invalidate v := by
  have hask : (s.invalidate v).askInvalidate v.tlb = (0, s.invalidate v) :=
    askInvalidate_none (by rw [invalidate_guest]; exact hx) (by rw [invalidate_guest]; exact hw)
  unfold State.tinv
  simp only [ha, no_commits hk, hask, ne_eq, not_true_eq_false, if_false, if_true, Bool.false_eq_true]

/-- `tinv` asks the guest, and waits for its acknowledgement. -/
theorem tinv_asks (ha : (s.part c.p).ack = 0) (hk : ∀ k ∈ s.commits, k.vf ≠ v.vf ∨ k.done ≠ none)
    (hf : s.guest.frz = false) (hn : s.nextId ≠ 0)
    (hg : (∃ e ∈ s.guest.xlats, v.tlb e = true) ∨ ∃ x ∈ s.guest.writes, v.tlb x.e = true) :
    s.tinv c v = (((s.invalidate v).asked v.tlb).modPart c.p fun x => { x with ack := s.nextId }).stall c .acknowledge := by
  have hask : (s.invalidate v).askInvalidate v.tlb = (s.nextId, (s.invalidate v).asked v.tlb) := by
    rw [askInvalidate_some (by rw [invalidate_guest]; exact hf) (by rw [invalidate_guest]; exact hg), invalidate_nextId]
  unfold State.tinv
  simp only [ha, no_commits hk, hask, hn, ne_eq, not_true_eq_false, if_false, Bool.false_eq_true]

/-- `tinv` still waits for the guest's acknowledgement. -/
theorem tinv_unacknowledged (ha : (s.part c.p).ack ≠ 0) (hy : ∃ y ∈ s.guest.invs, y.id = (s.part c.p).ack) :
    s.tinv c v = s.stall c .acknowledge := by
  have hany : (s.guest.invs.any fun x => x.id = (s.part c.p).ack) = true := by
    obtain ⟨y, hm, hid⟩ := hy
    exact List.any_eq_true.mpr ⟨y, hm, by simp [hid]⟩
  unfold State.tinv
  simp only [ha, hany, ne_eq, not_false_eq_true, if_true]

/-- The guest has acknowledged. -/
theorem tinv_acknowledged (ha : (s.part c.p).ack ≠ 0) (hy : ∀ y ∈ s.guest.invs, y.id ≠ (s.part c.p).ack) :
    s.tinv c v = s.modPart c.p fun x => { x with ack := 0 } := by
  have hany : (s.guest.invs.any fun x => x.id = (s.part c.p).ack) = false := by
    simpa [List.any_eq_false] using hy
  unfold State.tinv
  simp only [ha, hany, ne_eq, not_false_eq_true, if_true, Bool.false_eq_true, if_false]

end Cases

/-! ## The instructions -/

/-- What every `tinv` does where nothing holds it up (R45, R345). -/
def InvalidatesNow (i : Instr) (s : State) (v : Inval) : Prop :=
  s.issPart.ack = 0 → (∀ k ∈ s.commits, k.vf ≠ v.vf ∨ k.done ≠ none) → (∀ e ∈ s.guest.xlats, v.tlb e = false) →
    (∀ x ∈ s.guest.writes, v.tlb x.e = false) → ∃ t, exec i s = .next t ∧ t.regs = s.regs ∧ Dropped v.tlb t

/-- What every `tinv` waits for (R45, R345): the commits of its function, and the guest. -/
def InvalidatesInTurn (i : Instr) (s : State) (v : Inval) : Prop :=
  (s.issPart.ack = 0 → (∃ k ∈ s.commits, k.vf = v.vf ∧ k.done = none) → Answers i s fun t =>
    (t.part s.issue.part).wait = .commit ∧ t.regs = s.regs ∧ t.cores = s.cores ∧ t.dies = s.dies)
  ∧ (s.issPart.ack = 0 → (∀ k ∈ s.commits, k.vf ≠ v.vf ∨ k.done ≠ none) → s.guest.frz = false → s.nextId ≠ 0 →
      ((∃ e ∈ s.guest.xlats, v.tlb e = true) ∨ ∃ x ∈ s.guest.writes, v.tlb x.e = true) → Answers i s fun t =>
        (t.part s.issue.part).wait = .acknowledge ∧ t.regs = s.regs ∧ Dropped v.tlb t
          ∧ ∃ y ∈ t.guest.invs, y.id = (t.part s.issue.part).ack ∧ y.id ≠ 0)
  ∧ (s.issPart.ack ≠ 0 → (∃ y ∈ s.guest.invs, y.id = s.issPart.ack) → Answers i s fun t =>
      (t.part s.issue.part).wait = .acknowledge ∧ t.regs = s.regs ∧ t.guest = s.guest)
  ∧ (s.issPart.ack ≠ 0 → (∀ y ∈ s.guest.invs, y.id ≠ s.issPart.ack) → Answers i s fun t =>
      (t.part s.issue.part).ack = 0 ∧ t.regs = s.regs ∧ t.mem = s.mem)

theorem issued_ack (s : State) : (s.issued.part s.issue.part).ack = s.issPart.ack := by
  rw [(issued_frame s).part]
  rfl

theorem issued_commits (s : State) : s.issued.commits = s.commits := by rw [(issued_frame s).rest]

theorem issued_guest (s : State) : s.issued.guest = s.guest := by rw [(issued_frame s).rest]

theorem issued_nextId (s : State) : s.issued.nextId = s.nextId := by
  unfold State.issued
  split <;> rfl

theorem issued_cores (s : State) : s.issued.cores = s.cores := by
  unfold State.issued
  split <;> rfl

theorem issued_dies (s : State) : s.issued.dies = s.dies := by rw [(issued_frame s).rest]

/-- An instruction whose effect at the issue is that of `tinv` with some coverage. -/
def IsTinv (i : Instr) (s : State) (v : Inval) : Prop :=
  exec i s = .next ((s.issued.tinv (s.opCtx i.hdr) v).finish s.issue.part)

section
variable {i : Instr} {s : State} {v : Inval} (hx : IsTinv i s v)
include hx

theorem IsTinv.now : InvalidatesNow i s v := by
  intro ha hk hg hw
  have ht : s.issued.tinv (s.opCtx i.hdr) v = s.issued.invalidate v :=
    tinv_alone ((issued_ack s).trans ha) (by rw [issued_commits]; exact hk) (by rw [issued_guest]; exact hg)
      (by rw [issued_guest]; exact hw)
  refine ⟨_, hx, ?_, ?_⟩
  · rw [finish_regs, ht, invalidate_regs, issued_regs]
  · rw [ht]
    exact (invalidate_dropped _ v).lanesOnly (lanesOnly_finish ..)

theorem IsTinv.inTurn : InvalidatesInTurn i s v := by
  have hp : (s.opCtx i.hdr).p = s.issue.part := rfl
  refine ⟨fun ha hk => ?_, fun ha hk hf hn hg => ?_, fun ha hy => ?_, fun ha hy => ?_⟩
  · have ht : s.issued.tinv (s.opCtx i.hdr) v = s.issued.stall (s.opCtx i.hdr) .commit :=
      tinv_commits ((issued_ack s).trans ha) (by rw [issued_commits]; exact hk)
    refine ⟨_, hx, ?_⟩
    rw [ht, ← hp, finish_stall (by decide)]
    beta_reduce
    rw [stall_part]
    exact ⟨rfl, issued_regs s, issued_cores s, issued_dies s⟩
  · have ht := tinv_asks (c := s.opCtx i.hdr) ((issued_ack s).trans ha) (by rw [issued_commits]; exact hk)
      (by rw [issued_guest]; exact hf) (by rw [issued_nextId]; exact hn) (by rw [issued_guest]; exact hg)
    refine ⟨_, hx, ?_⟩
    rw [ht, ← hp, finish_stall (by decide)]
    beta_reduce
    rw [stall_part]
    rw [stall_regs, stall_guest]
    simp only [State.modPart_eq, State.part_setPart_self, State.setPart_regs, State.setPart_guest, asked_regs,
      invalidate_regs, issued_regs]
    refine ⟨trivial, trivial, (invalidate_dropped s.issued v).of_caches ?_ ?_, _,
      List.mem_append_right _ (List.mem_singleton_self _), ?_, ?_⟩
    · rw [stall_cores, State.setPart_cores, asked_cores]
    · rw [stall_dies, State.setPart_dies, asked_dies]
    · exact invalidate_nextId s.issued v
    · show (s.issued.invalidate v).nextId ≠ 0
      rw [invalidate_nextId, issued_nextId]
      exact hn
  · have ht : s.issued.tinv (s.opCtx i.hdr) v = s.issued.stall (s.opCtx i.hdr) .acknowledge :=
      tinv_unacknowledged (by rw [hp, issued_ack]; exact ha) (by rw [hp, issued_ack, issued_guest]; exact hy)
    refine ⟨_, hx, ?_⟩
    rw [ht, ← hp, finish_stall (by decide)]
    beta_reduce
    rw [stall_part]
    exact ⟨rfl, issued_regs s, issued_guest s⟩
  · have ht : s.issued.tinv (s.opCtx i.hdr) v = s.issued.modPart s.issue.part fun x => { x with ack := 0 } :=
      tinv_acknowledged (by rw [hp, issued_ack]; exact ha) (by rw [hp, issued_ack, issued_guest]; exact hy)
    have hl := lanesOnly_finish s.issue.part (s.issued.tinv (s.opCtx i.hdr) v)
    refine ⟨_, hx, ?_, ?_, ?_⟩
    · rw [hl.part, ht, State.modPart_eq, State.part_setPart_self]
    · rw [finish_regs, ht]; exact issued_regs s
    · rw [hl.mem_eq, ht]; exact issued_mem s

end

/-- The poster that an instruction's effect finds. -/
theorem poster_issued (s : State) (i : Instr) : s.issued.poster (s.opCtx i.hdr) = s.posterOf i := by
  have hh : ∀ t l, s.issued.isHelper t l = s.isHelper t l := fun t l => by
    unfold State.isHelper State.lane
    rw [issued_lanes]
  unfold State.poster State.owns
  simp only [hh]
  rfl

/-- The function that a `tinv` names: at level H that of its field, otherwise its own. -/
theorem targetVf_issued (s : State) (h : Hdr) (vf : Fin 64) :
    s.issued.targetVf (s.opCtx h) vf = if s.levelOf s.issTeam = .h then vf.val else s.vfOf s.issTeam := by
  have hf := (issued_frame s).rest
  have hl : s.issued.levelOf s.issTeam = s.levelOf s.issTeam := by rw [hf]; rfl
  have hv : s.issued.vfOf s.issTeam = s.vfOf s.issTeam := by rw [hf]; rfl
  unfold State.targetVf
  show (if s.issued.levelOf s.issTeam = .h then _ else s.issued.vfOf s.issTeam) = _
  rw [hl, hv]

/-- An effect for the poster, none where there is no poster. -/
def forPoster (f : Ctx → Nat → State → State) (c : Ctx) (s : State) : State :=
  match s.poster c with
  | none => s
  | some l => f c l s

theorem forPoster_issued {i : Instr} {s : State} {l : Nat} (hp : s.posterOf i = some l) (f : Ctx → Nat → State → State) :
    forPoster f (s.opCtx i.hdr) s.issued = f (s.opCtx i.hdr) l s.issued := by
  unfold forPoster
  rw [poster_issued, hp]

/-- What `tinv.va` does for its poster. -/
def tinvVaEff (o : TinvOps) (c : Ctx) (l : Nat) (s : State) : State :=
  if s.rd 3 c.t l o.n = 0 then s
  else s.tinv c (invalVa (s.targetVf c o.vf) (s.tinvSpid c l o) (s.rd64 0 c.t l o.a) (65536 * s.rd 3 c.t l o.n))

theorem tinvVa_exec (h : Hdr) (o : TinvOps) (s : State) :
    exec (.tinvVa h o) s = issue (.tinvVa h o) s (forPoster (tinvVaEff o)) := rfl

theorem tinvSp_exec (h : Hdr) (o : TinvOps) (s : State) : exec (.tinvSp h o) s = issue (.tinvSp h o) s
    (forPoster fun c l s => s.tinv c (invalSp (s.targetVf c o.vf) (s.tinvSpid c l o))) := rfl

theorem tinvFn_exec (h : Hdr) (o : TinvOps) (s : State) : exec (.tinvFn h o) s = issue (.tinvFn h o) s
    (forPoster fun c _ s => s.tinv c (invalFn (s.targetVf c o.vf))) := rfl

theorem tinvIpa_exec (h : Hdr) (o : TinvOps) (s : State) : exec (.tinvIpa h o) s = issue (.tinvIpa h o) s
    (forPoster fun c l s =>
      s.tinv c (invalIpa (s.targetVf c o.vf) (s.rd64 0 c.t l o.a) (65536 * s.rd 3 c.t l o.n))) := rfl

section
variable {h : Hdr} {o : TinvOps} {s : State} {l : Nat}

/-- An instruction whose effect for its poster is that of `tinv`. -/
theorem isTinv_of {i : Instr} {v : Inval} {f : Ctx → Nat → State → State} (hx : exec i s = issue i s (forPoster f))
    (hi : Issues i s) (hp : s.posterOf i = some l)
    (hf : f (s.opCtx i.hdr) l s.issued = s.issued.tinv (s.opCtx i.hdr) v) : IsTinv i s v := by
  have he := (forPoster_issued hp f).trans hf
  exact (hx.trans (issue_issues hi _)).trans (congrArg (fun x : State => Host.Outcome.next (x.finish s.issue.part)) he)

theorem tinvVa_isTinv (hn : s.src 3 l o.n ≠ 0) (hi : Issues (.tinvVa h o) s) (hp : s.posterOf (.tinvVa h o) = some l) :
    IsTinv (.tinvVa h o) s (invalVa (s.issued.targetVf (s.opCtx h) o.vf) (bits (s.src 2 l o.sp) 0 12) (s.src64 0 l o.a)
      (65536 * s.src 3 l o.n)) :=
  isTinv_of (tinvVa_exec h o s) hi hp (if_neg hn)

/-- An empty range takes nothing away. -/
theorem tinvVa_empty (hi : Issues (.tinvVa h o) s) (hp : s.posterOf (.tinvVa h o) = some l)
    (hn : s.src 3 l o.n = 0) :
    ∃ t, exec (.tinvVa h o) s = .next t ∧ t.regs = s.regs ∧ LanesOnly s.issue.part s t := by
  have he : tinvVaEff o (s.opCtx h) l s.issued = s.issued := if_pos hn
  obtain ⟨t, hx, hr, -, hl⟩ := issue_passes hi ((forPoster_issued hp _).trans he) (tinvVa_exec h o s)
  exact ⟨t, hx, hr, hl⟩

theorem tinvSp_isTinv (hi : Issues (.tinvSp h o) s) (hp : s.posterOf (.tinvSp h o) = some l) :
    IsTinv (.tinvSp h o) s (invalSp (s.issued.targetVf (s.opCtx h) o.vf) (bits (s.src 2 l o.sp) 0 12)) :=
  isTinv_of (tinvSp_exec h o s) hi hp rfl

theorem tinvFn_isTinv (hi : Issues (.tinvFn h o) s) (hp : s.posterOf (.tinvFn h o) = some l) :
    IsTinv (.tinvFn h o) s (invalFn (s.issued.targetVf (s.opCtx h) o.vf)) :=
  isTinv_of (tinvFn_exec h o s) hi hp rfl

theorem tinvIpa_isTinv (hi : Issues (.tinvIpa h o) s) (hp : s.posterOf (.tinvIpa h o) = some l) :
    IsTinv (.tinvIpa h o) s (invalIpa (s.issued.targetVf (s.opCtx h) o.vf) (s.src64 0 l o.a) (65536 * s.src 3 l o.n)) :=
  isTinv_of (tinvIpa_exec h o s) hi hp rfl

end

end Sys2Proof.Machine

open Sys2Proof Sys2Proof.Machine

/-- Settles O45: each variant is `tinv` with its own coverage, and `tinv` has one outcome for each thing that it may
wait for. -/
theorem translationsInvalidated : Obligations.TranslationsInvalidated := by
  unfold Obligations.TranslationsInvalidated
  intro s h o l lvl f base sp n dropped gone waits acts
  have acts_of : ∀ {i : Instr} {v : Inval} (tlb : Tlb → Bool), (Issues i s → s.posterOf i = some l → IsTinv i s v) →
      v.vf = f → v.tlb = tlb → acts i tlb := by
    intro i v tlb hx hf htlb
    rw [← htlb]
    show (Issues i s → s.posterOf i = some l → _) ∧ (Issues i s → s.posterOf i = some l → _)
    rw [← hf]
    exact ⟨fun hi hp => (hx hi hp).now, fun hi hp => (hx hi hp).inTurn⟩
  have hvf := targetVf_issued s h o.vf
  refine ⟨fun hn => ?_, tinvVa_empty, ?_, ?_, ?_⟩
  · refine acts_of _ (tinvVa_isTinv hn) hvf (funext fun e => ?_)
    simp only [invalVa, hvf, overlaps, ← Bool.and_assoc]
    rfl
  · refine acts_of _ tinvSp_isTinv hvf ?_
    rw [invalSp, hvf]
  · refine acts_of _ tinvFn_isTinv hvf ?_
    rw [invalFn, hvf]
  · refine acts_of _ tinvIpa_isTinv hvf (funext fun e => ?_)
    simp only [invalIpa, hvf, overlaps, ← Bool.and_assoc]
    rfl

end

section
/-! What ending a launch leaves of the functions (R332, R360): whatever its commits, stashes, graph and completion word do,
no function is enabled, disabled or reset by it, and no fault queue moves. -/

namespace Sys2Proof.Machine

@[simp] theorem takeId_control (s : State) : s.takeId.2.control = s.control := rfl

/-! ## Reports and completion words -/

@[simp] theorem await_control (s : State) (report : Nat) (x : Waiter) : (s.await report x).control = s.control := by
  unfold State.await
  split <;> rfl

@[simp] theorem reportViolation_control (s : State) (w : Who) (x : Stop) (kind : Nat) :
    (s.reportViolation w x kind).control = s.control := rfl

@[simp] theorem takeToken_control (s : State) (ring : Nat) : (s.takeToken ring).2.control = s.control :=
  setFn_control rfl

@[simp] theorem reportFault_control (s : State) (w : Who) (x : Stop) (kind : Nat) :
    (s.reportFault w x kind).2.control = s.control := by
  unfold State.reportFault
  dsimp only
  split
  · rfl
  · split
    · rfl
    · split
      · rfl
      · exact takeToken_control ..

@[simp] theorem raiseClock_control (s : State) (core t : Nat) : (s.raiseClock core t).control = s.control := rfl

/-- Both states that the write of a completion word answers with. -/
theorem writeDone_control {s u : State} {w : Who} {addr data : Nat} {again : Instr} {r : Option State}
    (hx : s.writeDone w addr data again = (r, u)) : u.control = s.control ∧ ∀ v, r = some v → v.control = s.control := by
  have hw := apart_control (agentWrite_apart s w addr 8 data)
  unfold State.writeDone at hx
  split at hx
  · next e =>
    have h := of_fst hw e
    cases hx
    exact ⟨h, fun u hu => Option.some.inj hu ▸ h⟩
  · next e =>
    cases hx
    exact ⟨(await_control ..).trans (of_fst hw e), by rintro u ⟨⟩⟩
  · next v x e =>
    have h := of_fst hw e
    split at hx
    · cases hx
      exact ⟨h, fun u hu => Option.some.inj hu ▸ h⟩
    · have hr : ((v.reportFault w x kWrite).2).control = s.control := (reportFault_control ..).trans h
      split at hx
      · next e => rw [e] at hr; cases hx; exact ⟨(await_control ..).trans hr, by rintro u ⟨⟩⟩
      · next e => rw [e] at hr; cases hx; exact ⟨hr, fun u hu => Option.some.inj hu ▸ hr⟩

/-! ## Graphs -/

@[simp] theorem modQueue_control (s : State) (g : Nat) (f : Queue → Queue) : (s.modQueue g f).control = s.control := rfl
@[simp] theorem setNode_control (s : State) (g n : Nat) (x : Node) : (s.setNode g n x).control = s.control := rfl
@[simp] theorem setLaunch_control (s : State) (l : Nat) (x : Launch) : (s.setLaunch l x).control = s.control := rfl
@[simp] theorem endRun_control (s : State) (g : Nat) : (s.endRun g).control = s.control := rfl
@[simp] theorem nodeDone_control (s : State) (g n time : Nat) : (s.nodeDone g n time).control = s.control := rfl

@[simp] theorem graphComplete_control (s : State) (g : Nat) : (s.graphComplete g).control = s.control := by
  unfold State.graphComplete
  split
  · rfl
  · dsimp only
    split
    · rfl
    · split
      · next e => exact (endRun_control ..).trans ((writeDone_control e).2 _ rfl)
      · next e => exact (writeDone_control e).1

@[simp] theorem checkGraph_control (s : State) (g : Nat) : (s.checkGraph g).control = s.control := by
  unfold State.checkGraph
  dsimp only
  split
  · exact graphComplete_control ..
  · rfl

@[simp] theorem passTime_control (s : State) (g : Nat) (x : Node) : (s.passTime g x).control = s.control := by
  refine foldl_keeps State.control _ (fun s y => ?_) _ s
  split <;> rfl

@[simp] theorem failNode_control (s : State) (g n status time : Nat) :
    (s.failNode g n status time).control = s.control := by
  unfold State.failNode
  dsimp only
  rw [checkGraph_control, modQueue_control]
  split
  · rfl
  · exact passTime_control ..

@[simp] theorem prologueGone_control (s : State) (l time status : Nat) :
    (s.prologueGone l time status).control = s.control := by
  unfold State.prologueGone
  split
  · exact checkGraph_control ..
  · rfl

@[simp] theorem traceLaunch_control (s : State) (l kind data : Nat) : (s.traceLaunch l kind data).control = s.control := by
  unfold State.traceLaunch State.trace
  dsimp only
  split
  · split <;> rfl
  · rfl

@[simp] theorem startKernel_control (s : State) (g n : Nat) : (s.startKernel g n).control = s.control := by
  unfold State.startKernel State.modNode
  dsimp only
  rw [setNode_control]
  split <;> simp only [setLaunch_control, takeId_control]

@[simp] theorem childDone_control (s : State) (l : Nat) : (s.childDone l).control = s.control := by
  unfold State.childDone
  dsimp only
  split
  · rfl
  · split
    · next e => exact (setLaunch_control ..).trans ((writeDone_control e).2 _ rfl)
    · next e => exact (writeDone_control e).1

@[simp] theorem endLaunch_control (s : State) (l status : Nat) : (s.endLaunch l status).control = s.control := by
  unfold State.endLaunch
  dsimp only
  split
  · simp only [apply_ite State.control, failNode_control, nodeDone_control, startKernel_control, setLaunch_control,
      traceLaunch_control, ite_self]
  · split
    · rw [prologueGone_control, setLaunch_control, traceLaunch_control]
    · rw [childDone_control, State.modLaunch_eq, setLaunch_control, traceLaunch_control]

/-! ## Commits -/

@[simp] theorem fixCommit_control (s : State) (k : Commit) (v m : Nat) : (s.fixCommit k v m).control = s.control := rfl
@[simp] theorem closeCommit_control (s : State) (k : Commit) (t : Nat) : (s.closeCommit k t).control = s.control := rfl

@[simp] theorem putCopies_apart (s : State) (k : Commit) (t old : Nat) : (s.putCopies k t old).apart = s.apart := by
  unfold State.putCopies
  split
  · exact foldl_keeps State.apart _ (fun s a => (putBytes_apart ..).trans (setHome_apart ..)) _ s
  · exact foldl_keeps State.apart _ (fun s a => setHome_apart ..) _ s

@[simp] theorem markCommit_apart (s : State) (k : Commit) : (s.markCommit k).apart = s.apart := by
  unfold State.markCommit
  split
  · exact markUsed_apart ..
  · rfl

@[simp] theorem updateOne_control (s : State) (k : Commit) : (s.updateOne k).control = s.control := by
  unfold State.updateOne
  extract_lets s1 old t s2 who num s3 own s4 s5
  have h1 : s1.apart = s.apart := markCommit_apart ..
  have h2 : s2.apart = s1.apart :=
    foldl_keeps State.apart _ (fun s a => (settleSec_apart ..).trans (fillLine_apart ..)) _ _
  have h3 : s3.apart = s2.apart := (foldl_keeps State.apart _ (fun s a => noteStore_apart ..) _ _).trans (putCopies_apart ..)
  have h4 : s4.apart = s3.apart := by
    unfold s4
    split
    · exact l1Drop_apart ..
    · exact l1Put_apart ..
    · rfl
  have h5 : s5.control = s.control :=
    (apart_control (raiseWho_apart ..)).trans ((closeCommit_control ..).trans
      (apart_control (h4.trans (h3.trans (h2.trans h1)))))
  split
  · exact (fixCommit_control ..).trans h5
  · exact h5

@[simp] theorem updatePlain_control (s : State) (k : Commit) : (s.updatePlain k).control = s.control := by
  have hm : ∀ (w : Who) (wr : Bool), (match k.tr with
      | some e => s.markUsed w e wr
      | none => s).apart = s.apart := fun w wr => by
    split
    · exact markUsed_apart ..
    · rfl
  unfold State.updatePlain
  dsimp only
  split
  · rw [fixCommit_control]
    exact apart_control ((atomHome_apart ..).trans (hm _ _))
  · exact apart_control ((storeHome_apart ..).trans (hm _ _))

@[simp] theorem guestMoves_control (s : State) (t : Nat) : (s.guestMoves t).control = s.control := rfl

@[simp] theorem updateCommit_control (s : State) (k : Commit) : (s.updateCommit k).control = s.control := by
  have hf : ∀ ks : List Commit, (ks.foldl (fun (s : State) x => if x.plain then s.updatePlain x else s.updateOne x) s).control
      = s.control := fun ks => foldl_keeps State.control _ (fun s x => by split <;> simp) ks s
  unfold State.updateCommit
  dsimp only
  split
  · rfl
  · split
    · split
      · exact hf _
      · exact guestMoves_control ..
    · exact hf _

@[simp] theorem endCommits_control (s : State) (gone : Nat → Bool) : (s.endCommits gone).control = s.control := by
  refine foldl_keeps State.control _ (fun s k => ?_) _ s
  split
  · exact updateCommit_control ..
  · rfl

/-! ## Clusters -/

@[simp] theorem retireSec_control (s : State) (b k : Nat) : (s.retireSec b k).control = s.control :=
  congrArg (fun x => x.1.control) (retireSec_offHome s b k)

@[simp] theorem drainStash_control (s : State) (b : Nat) : (s.drainStash b).control = s.control :=
  foldl_keeps State.control _ (fun s k => retireSec_control s b k) _ s

@[simp] theorem discardWork_control (s : State) (ks : List Nat) : (s.discardWork ks).control = s.control := rfl
@[simp] theorem dropReports_control (s : State) (l : Nat) : (s.dropReports l).control = s.control := rfl
@[simp] theorem quiesce_control (s : State) (which : Packet → Bool) : (s.quiesce which).control = s.control := rfl
@[simp] theorem removeCluster_control (s : State) (k : Nat) : (s.removeCluster k).control = s.control := rfl
@[simp] theorem noteEnd_control (s : State) (p : Nat) : (s.noteEnd p).control = s.control := rfl

@[simp] theorem freeSlots_control (s : State) (b : TagBind) : (s.freeSlots b).control = s.control := by
  unfold State.freeSlots
  dsimp only
  split <;> rfl

@[simp] theorem releaseClusters_control (s : State) (ks : List Nat) : (s.releaseClusters ks).control = s.control := by
  unfold State.releaseClusters
  refine (foldl_keeps State.control _ (fun s k => removeCluster_control s k) ks _).trans ?_
  refine foldl_keeps State.control _ (fun s x => ?_) _ s
  exact (foldl_keeps State.control _ (fun s (t : Nat × TagBind) => freeSlots_control s t.2) _ _).trans (noteEnd_control ..)

/-- Ending a launch leaves every function's controls (R332). -/
theorem terminate_control (s : State) (l status : Nat) (word : Bool) :
    (s.terminate l status false word).control = s.control := by
  unfold State.terminate
  simp only [Bool.false_eq_true, if_false, endLaunch_control, State.modLaunch_eq, setLaunch_control,
    releaseClusters_control]
  refine (foldl_keeps State.control _ (fun s k => ?_) _ _).trans ?_
  · exact foldl_keeps State.control _ (fun s b => drainStash_control s b) _ s
  · simp only [quiesce_control, dropReports_control, discardWork_control, releaseClusters_control, endCommits_control]

end Sys2Proof.Machine

end

section
/-! Host accesses, vectors, enables and resets (R356, R359, R360, R363, R365, R382): what arrives at the host's port, the
bytes that it reaches, and what a reset keeps of its function. -/

namespace Sys2Proof.Machine

/-! ## Arrival at the port -/

theorem fromHost_held {s : State} (h : s.hostHeld = true) (i : Instr) : s.fromHost i = s := if_pos h

/-- With nothing before it at the port, what arrives and can be done now is done. -/
theorem fromHost_acts {s t : State} {i : Instr} (h : s.hostHeld = false) (hq : s.hostQ = [])
    (ha : s.hostActs i = (t, true)) : s.fromHost i = t := by
  unfold State.fromHost
  simp only [h, hq, ha, Bool.false_eq_true, if_false, List.isEmpty_nil, Bool.not_true]

/-! ## Bytes at a home -/

theorem bit_ones {n j : Nat} (h : j < n) : bit (ones n) j = true := by
  have := Nat.testBit_two_pow_sub_one n j
  rw [Nat.testBit_eq_decide_div_mod_eq] at this
  unfold bit bits ones
  simpa [h] using this

/-- A write of all bytes holds its data. -/
theorem putBytes_holds (s : State) (pa n data psn : Nat) : (s.putBytes pa n data (ones n) psn).Holds pa n data :=
  fun j hj => by rw [putBytes_inside _ _ _ _ _ _ _ hj, bit_ones hj, if_pos rfl]

theorem holds_of_mem {s t : State} (h : t.mem = s.mem) {pa n data : Nat} (hs : s.Holds pa n data) : t.Holds pa n data := by
  unfold State.Holds State.memByte at *
  rw [h]
  exact hs

theorem homeWrite_holds (s : State) (w : Who) (clock pa n data psn : Nat) (ca : Cache) :
    (s.homeWrite w clock pa n data psn ca).1.Holds pa n data := putBytes_holds _ pa n data psn

/-- No stash owns the sector: nothing is recalled. -/
theorem recall_unowned {s : State} {sec : Nat} (h : s.owners.get 0 sec = 0) (wr : Bool) : s.recall wr sec = s := by
  unfold State.recall
  rw [h]

theorem setHome_memPoison (s : State) (sec : Nat) (h : Home) : (s.setHome sec h).memPoison = s.memPoison := by
  unfold State.setHome
  dsimp only
  split <;> rfl

theorem lineArrives_memPoison (s : State) (line : Nat) : (s.lineArrives line).memPoison = s.memPoison := by
  unfold State.lineArrives State.logged
  split
  · split
    · rfl
    · split <;> rfl
  · rfl

theorem evictFor_memPoison (s : State) (vf : Nat) (y : L2Line) : (s.evictFor vf y).memPoison = s.memPoison := by
  unfold State.evictFor
  split <;> rfl

theorem fillLine_memPoison (s : State) (vf : Nat) (ca : Cache) (line : Nat) :
    (s.fillLine vf ca line).memPoison = s.memPoison := by
  have arrive : ((s.modFn vf fun f => { f with l2fill := addCount f.l2fill 1 }).lineArrives line).memPoison = s.memPoison :=
    lineArrives_memPoison ..
  unfold State.fillLine
  dsimp only
  split
  · split <;> rfl
  · split
    · exact arrive
    · exact (evictFor_memPoison ..).trans arrive
    · exact arrive

/-- A grant of a sector that no stash owns changes neither the bytes of memory nor their poison. -/
theorem grant_unowned {s : State} {sec : Nat} (h : s.owners.get 0 sec = 0) (vf : Nat) (ca : Cache) (clock : Nat)
    (drop : Bool) : (s.grant vf ca clock sec drop).1.mem = s.mem
      ∧ (s.grant vf ca clock sec drop).1.memPoison = s.memPoison := by
  unfold State.grant
  rw [recall_unowned h]
  dsimp only
  rw [setHome_mem, setHome_memPoison, fillLine_mem, fillLine_memPoison]
  exact ⟨rfl, rfl⟩

/-- What a read finds depends on memory, its poison and the links. -/
theorem getBytes_congr {s t : State} (hm : t.mem = s.mem) (hp : t.memPoison = s.memPoison) (hl : t.lnkst = s.lnkst)
    (pa n : Nat) : t.getBytes pa n = s.getBytes pa n := by
  unfold State.getBytes State.memByte State.linkGone
  rw [hm, hp, hl]

theorem homeRead_unowned {s : State} {pa : Nat} (h : s.owners.get 0 (pa / 64) = 0) (w : Who) (n : Nat) (ca : Cache) :
    (s.homeRead w true pa n ca).1.mem = s.mem ∧ (s.homeRead w true pa n ca).2 = s.getBytes pa n := by
  obtain ⟨hm, hp⟩ := grant_unowned h w.fill ca (s.whoClock w) false
  exact ⟨(raiseWho_mem ..).trans hm,
    getBytes_congr hm hp (congrArg (fun x => x.1.lnkst) (grant_apart s w.fill ca (s.whoClock w) (pa / 64) false)) pa n⟩

/-! ## Accesses through the physical function -/

theorem physTlb_marked (s : State) (w u : Who) (va : Nat) (dirty : Bool) : s.markUsed u (physTlb w va) dirty = s := if_pos rfl

theorem physTlb_free (s : State) (w : Who) (va : Nat) : s.leafBusy (physTlb w va) = false := rfl

/-- A write of the host that no table translates. -/
theorem hostPerform_write {s : State} {pa : Nat} (hb : s.busySec pa = false) (vf n data : Nat) (w : Who) (va : Nat) :
    ∃ t, s.hostPerform vf pa n (physTlb w va) true data = (t, true) ∧ t.regs = s.regs ∧ t.Holds pa n data := by
  have hw : s.writePage (hostWho vf) (.host vf) 0 (physTlb w va) s.hostClock pa n data 0 .keep =
      ((s.homeWrite (hostWho vf) (max s.hostClock 0) pa n data 0 .keep).1,
        .ok (s.homeWrite (hostWho vf) (max s.hostClock 0) pa n data 0 .keep).2) := by
    unfold State.writePage
    rw [physTlb_free, hb, physTlb_marked]
    rfl
  unfold State.hostPerform
  dsimp only
  rw [if_pos rfl, hw]
  refine ⟨_, rfl, ?_, ?_⟩
  · exact apart_regs ((raiseWho_apart ..).trans (homeWrite_apart ..))
  · exact holds_of_mem (raiseWho_mem ..) (homeWrite_holds s (hostWho vf) (max s.hostClock 0) pa n data 0 .keep)

/-- A read of the host that no table translates. -/
theorem hostPerform_read {s : State} {pa : Nat} (hb : s.busySec pa = false) (ho : s.owners.get 0 (pa / 64) = 0)
    (vf n data : Nat) (w : Who) (va : Nat) :
    ∃ t, s.hostPerform vf pa n (physTlb w va) false data = (t, true) ∧ t.mem = s.mem ∧ t.regs = s.regs
      ∧ t.hostAnswer = some (s.getBytes pa n) := by
  obtain ⟨hm, hx⟩ := homeRead_unowned ho (hostWho vf) n .keep
  have hr : (s.homeRead (hostWho vf) true pa n .keep).1.regs = s.regs := apart_regs (homeRead_apart ..)
  unfold State.hostPerform
  dsimp only
  rw [if_neg Bool.false_ne_true, physTlb_free, hb, physTlb_marked]
  exact ⟨_, rfl, hm, hr, congrArg some hx⟩

/-- The record of an access of the host to no memory: a master of 7 (R47, R382). -/
theorem faultRecord_master (s : State) (w : Who) (x : Stop) (kind token : Nat) (hw : w.master < 16) (hk : kind < 4)
    (hl : x.level < 8) (hc : x.cause < 16) : bits (s.faultRecord w x kind token) 74 4 = w.master := by
  have hb : b2n x.stage2 < 2 := by cases x.stage2 <;> decide
  have hl' : (if 13 ≤ x.cause then 0 else x.level) < 8 := by split <;> omega
  unfold State.faultRecord bits
  generalize (if 13 ≤ x.cause then 0 else x.level) = lv at *
  generalize (if w.master = 7 then 0 else dieOf w.core) = d
  generalize (if (w.master = 4 || w.master = 7) = true then 0 else w.core % 64) = c
  omega

/-- A read of the host that fails. -/
theorem hostFails_read (s : State) (x : Nat) :
    (s.hostFails 64 0 x false 0 14 kRead).mem = s.mem ∧ (s.hostFails 64 0 x false 0 14 kRead).regs = s.regs
      ∧ (s.hostFails 64 0 x false 0 14 kRead).hostAnswer = none
      ∧ ∃ r, (s.hostFails 64 0 x false 0 14 kRead).reports = s.reports ++ [r] ∧ r.ring = 64 ∧ r.token = 0
        ∧ bits r.record 74 4 = 7 :=
  ⟨rfl, rfl, rfl, _, rfl, rfl, rfl, faultRecord_master s _ _ _ _ (by decide) (by decide) (by simp) (by simp)⟩

/-- An access of the host through the physical function, as far as it goes in one event. -/
theorem hostActs_physical {s : State} {vf x len : Nat} (hv : 64 ≤ vf) (hx : x < barBytes) (hl : len ≠ 0) (write : Bool)
    (data : Nat) : s.hostActs (.inboundHostAccess vf x len write data) =
      s.hostPlain 64 0 x (min len (64 - x % 64)) write data := by
  have hn : min len (64 - x % 64) ≠ 0 := by omega
  unfold State.hostActs State.throughBar2
  dsimp only
  rw [if_neg hn, if_neg (by omega), if_pos hv]

theorem hostPlain_memory {s : State} {x : Nat} (h : s.homed x = true) (ring vf n : Nat) (write : Bool) (data : Nat) :
    s.hostPlain ring vf x n write data = s.hostPerform ring x n (physTlb (hostWho vf) x) write data := if_pos h

theorem hostPlain_noMemory {s : State} {x : Nat} (h : s.homed x = false) (ring vf n data : Nat) :
    s.hostPlain ring vf x n false data = (s.hostFails ring vf x false 0 14 kRead, true) :=
  if_neg (by rw [h]; exact Bool.false_ne_true)

section Physical
variable {s : State} (hh : s.hostHeld = false) (hq : s.hostQ = []) {vf x len : Nat} (hv : 64 ≤ vf) (hx : x < barBytes)
  (hl : len ≠ 0) (data : Nat)
include hh hq hv hx hl

theorem hostWrite_holds (hm : s.homed x = true) (hb : s.busySec x = false) :
    Answers (.inboundHostAccess vf x len true data) s fun t =>
      t.regs = s.regs ∧ t.Holds x (min len (64 - x % 64)) data := by
  obtain ⟨t, ht, hr, hd⟩ := hostPerform_write hb 64 (min len (64 - x % 64)) data (hostWho 0) x
  refine ⟨t, congrArg Host.Outcome.next (fromHost_acts hh hq ?_), hr, hd⟩
  rw [hostActs_physical hv hx hl, hostPlain_memory hm, ht]

theorem hostRead_answers (hm : s.homed x = true) (hb : s.busySec x = false) (ho : s.owners.get 0 (x / 64) = 0) :
    Answers (.inboundHostAccess vf x len false data) s fun t => t.mem = s.mem ∧ t.regs = s.regs
      ∧ t.hostAnswer = some (s.getBytes x (min len (64 - x % 64))) := by
  obtain ⟨t, ht, hd⟩ := hostPerform_read hb ho 64 (min len (64 - x % 64)) data (hostWho 0) x
  refine ⟨t, congrArg Host.Outcome.next (fromHost_acts hh hq ?_), hd⟩
  rw [hostActs_physical hv hx hl, hostPlain_memory hm, ht]

theorem hostRead_noMemory (hm : s.homed x = false) :
    Answers (.inboundHostAccess vf x len false data) s fun t => t.mem = s.mem
      ∧ t.regs = s.regs ∧ t.hostAnswer = none ∧ ∃ r, t.reports = s.reports ++ [r] ∧ r.ring = 64 ∧ r.token = 0
        ∧ bits r.record 74 4 = 7 := by
  refine ⟨_, congrArg Host.Outcome.next (fromHost_acts hh hq ?_), hostFails_read s x⟩
  rw [hostActs_physical hv hx hl, hostPlain_noMemory hm]

end Physical

/-! ## Vectors, enables and bandwidths -/

theorem unmask_effect (s : State) (f e : Nat) :
    (s.unmask f e).mem = s.mem ∧ (s.unmask f e).regs = s.regs
      ∧ (s.unmask f e).msix.get {} (f * 64 + e) = ⟨false, false⟩
      ∧ (s.unmask f e).msgs = s.msgs
          ++ (if (s.msix.get {} (f * 64 + e)).pending ∧ (s.fn f).flrb = false then [(f, e)] else []) := by
  have hget := FMap.get_set_self {} s.msix (f * 64 + e) (⟨false, false⟩ : Msix)
  unfold State.unmask
  dsimp only
  by_cases h : (s.msix.get {} (f * 64 + e)).pending = true ∧ (s.fn f).flrb = false
  · rw [if_pos h, if_pos (by simpa [State.fn] using h)]
    exact ⟨rfl, rfl, hget, rfl⟩
  · rw [if_neg h, if_neg (by simpa [State.fn] using h), List.append_nil]
    exact ⟨rfl, rfl, hget, rfl⟩

/-- Nothing but the release of the compute cores may follow a layer or an enable (R363). -/
theorem checkRelease_eq (s : State) : s.checkRelease = { s with released := s.checkRelease.released } := by
  unfold State.checkRelease
  dsimp only
  split <;> rfl

theorem enWrite_effect (s : State) (f value : Nat) :
    (s.enWrite f value).mem = s.mem ∧ (s.enWrite f value).regs = s.regs
      ∧ (s.enWrite f value).fn f = { s.fn f with en := bit value 0 }
      ∧ ∀ k, k ≠ f → (s.enWrite f value).fn k = s.fn k := by
  unfold State.enWrite
  rw [checkRelease_eq]
  exact ⟨rfl, rfl, State.fn_setFn_self .., fun k hk => State.fn_setFn_ne _ _ _ _ hk⟩

/-! ## Function-level resets -/

/-- A part that wakes from its replays is all that changes. -/
theorem wakeReplay_eq (s : State) (p : Nat) : s.wakeReplay p = { s with parts := (s.wakeReplay p).parts } := by
  unfold State.wakeReplay
  split <;> rfl

theorem discardReports_keeps (s : State) (f : Nat) :
    (s.discardReports f).control = s.control ∧ (s.discardReports f).queues = s.queues := by
  have hk : ((s.discardReports f).control, (s.discardReports f).queues) = (s.control, s.queues) := by
    unfold State.discardReports
    refine foldl_keeps (fun s : State => (s.control, s.queues)) _ (fun s h => ?_) _ _
    dsimp only
    rw [wakeReplay_eq]
    rfl
  exact ⟨congrArg Prod.fst hk, congrArg Prod.snd hk⟩

theorem askInvalidate_keeps (s : State) (which : Tlb → Bool) :
    (s.askInvalidate which).2.control = s.control ∧ (s.askInvalidate which).2.queues = s.queues := by
  unfold State.askInvalidate
  dsimp only
  split <;> exact ⟨rfl, rfl⟩

theorem invalidate_keeps (s : State) (v : Inval) :
    (s.invalidate v).control = s.control ∧ (s.invalidate v).queues = s.queues :=
  ⟨congrArg (fun x => x.1.control) (dropCovered_offHome _ v), congrArg (fun x => x.1.queues) (dropCovered_offHome _ v)⟩

/-- A reset that starts holds FLRB, keeps EN and forgets the function's queues (R360). -/
theorem startReset_effect {s : State} {f : Nat} (h : (s.fn f).flrb = false) :
    ((s.startReset f).fn f).flrb = true ∧ ((s.startReset f).fn f).en = (s.fn f).en
      ∧ ∀ x ∈ (s.startReset f).queues, x.1 / 256 ≠ f := by
  unfold State.startReset
  rw [if_neg (by rw [h]; exact Bool.false_ne_true)]
  extract_lets s1 ls s2 s3 s4
  have h2 : s2.control = s1.control :=
    foldl_keeps State.control _ (fun s l => (setLaunch_control ..).trans (terminate_control s l 4 false)) ls s1
  clear_value s2
  have hctl : (((s4.dropUnowned f).discardReports f).invalidate (invalFn f) |>.askInvalidate fun e => e.vf = f).2.control
      = s1.control :=
    (askInvalidate_keeps ..).1.trans ((invalidate_keeps ..).1.trans ((discardReports_keeps ..).1.trans h2))
  have hq : (((s4.dropUnowned f).discardReports f).invalidate (invalFn f) |>.askInvalidate fun e => e.vf = f).2.queues
      = s2.queues.filter fun x => x.1 / 256 ≠ f :=
    (askInvalidate_keeps ..).2.trans ((invalidate_keeps ..).2.trans (discardReports_keeps ..).2)
  have h1 : s1.fn f = { s.fn f with flrb := true } := State.fn_setFn_self ..
  have hc := congrFun hctl f
  unfold State.control Fn.control at hc
  rw [h1, Prod.mk.injEq, Prod.mk.injEq] at hc
  obtain ⟨hen, hflrb, -⟩ := hc
  refine ⟨hflrb, hen, fun x hx => ?_⟩
  rw [hq, List.mem_filter] at hx
  simpa using hx.2

/-- A write of VFCTL that sets FLR with the bits that it reads as (R355, R360). -/
theorem vfctl_flr {x : Fn} (hp : x.pceil < 4) (hf : x.flrb = false) :
    bit (x.vfctl + 8) 3 = true ∧ bit (x.vfctl + 8) 0 = x.en := by
  unfold bit bits Fn.vfctl
  rw [hf]
  cases x.en <;> simp [b2n] <;> omega

theorem vfctlWrite_flr {s : State} {f : Nat} (hp : (s.fn f).pceil < 4) (hf : (s.fn f).flrb = false) :
    ((s.vfctlWrite f ((s.fn f).vfctl + 8)).fn f).flrb = true
      ∧ ((s.vfctlWrite f ((s.fn f).vfctl + 8)).fn f).en = (s.fn f).en
      ∧ ∀ x ∈ (s.vfctlWrite f ((s.fn f).vfctl + 8)).queues, x.1 / 256 ≠ f := by
  obtain ⟨h3, h0⟩ := vfctl_flr hp hf
  unfold State.vfctlWrite
  dsimp only
  rw [if_pos h3]
  set s1 := s.modFn f fun x => { x with pceil := bits ((s.fn f).vfctl + 8) 1 2 } with hs1
  obtain ⟨-, -, hfn, -⟩ := enWrite_effect s1 f ((s.fn f).vfctl + 8)
  have h1 : s1.fn f = { s.fn f with pceil := bits ((s.fn f).vfctl + 8) 1 2 } := State.fn_setFn_self ..
  have hflrb : ((s1.enWrite f ((s.fn f).vfctl + 8)).fn f).flrb = false := by rw [hfn, h1]; exact hf
  have hen : ((s1.enWrite f ((s.fn f).vfctl + 8)).fn f).en = (s.fn f).en := by rw [hfn]; exact h0
  rw [← hen]
  exact startReset_effect hflrb

end Sys2Proof.Machine

open Sys2Proof Sys2Proof.Machine

/-- Settles O57, clause by clause: what arrives at the host's port, and what is written of a function. -/
theorem hostAndFunctions : Obligations.HostAndFunctions := by
  unfold Obligations.HostAndFunctions
  intro s
  refine ⟨fun vf x len data write hh => ?_, fun hh hq vf x len data hv hx hl => ⟨fun hm hb => ⟨?_, fun ho => ?_⟩, fun hm => ?_⟩,
    fun hh hq vf v hvf hv => ?_, fun vf value hvf => ?_, fun vf i hvf hi hf => ?_, fun vf value => ?_⟩
  · exact congrArg Host.Outcome.next (fromHost_held hh _)
  · exact hostWrite_holds hh hq hv hx hl data hm hb
  · exact hostRead_answers hh hq hv hx hl data hm hb ho
  · exact hostRead_noMemory hh hq hv hx hl data hm
  · have ha : s.hostActs (.msiXVectorUnmask vf v) = (s.unmask vf v, true) :=
      congrArg (·, true) (if_pos (by simp [hvf, hv]))
    exact ⟨_, congrArg Host.Outcome.next (fromHost_acts hh hq ha), unmask_effect s vf v⟩
  · exact ⟨_, congrArg Host.Outcome.next (if_pos hvf), enWrite_effect s vf value⟩
  · obtain ⟨rfl, hh, hq⟩ | ⟨rfl, hp⟩ := hi
    · have ha : s.hostActs (.initiateFunctionLevelReset vf) = (s.startReset vf, true) := congrArg (·, true) (if_pos hvf)
      exact ⟨_, congrArg Host.Outcome.next (fromHost_acts hh hq ha), startReset_effect hf⟩
    · exact ⟨_, congrArg Host.Outcome.next (if_pos hvf), vfctlWrite_flr hp hf⟩
  · have hw : exec (.registerWrite vf 0x101 value) s =
        .next (s.modFn (vf % 64) fun x => { x with vfbw := bits (value % 2 ^ 64) 0 16 }) := rfl
    have hb : bits (value % 2 ^ 64) 0 16 = bits value 0 16 := by unfold bits; omega
    rw [hb] at hw
    exact ⟨_, hw, rfl, rfl, State.fn_setFn_self ..⟩

end

section
/-! Recalls and fault records (R47, R48, R53, R63): what a home takes back from a stash, and what a report leaves in its ring. -/

namespace Sys2Proof.Machine

/-! ## Recalls -/

/-- What the stash keeps of a sector that its home takes back (R63). -/
def Sector.kept (x : Sector) (wr : Bool) : Sector := if wr then {} else { x with st := .clean, dirty := 0 }

/-- The stashes and the owners of sectors: what the times of a home do not touch. -/
def State.holders (s : State) : FMap Block × FMap Nat := (s.blocks, s.owners)

theorem setHome_holders (s : State) (sec : Nat) (h : Home) : (s.setHome sec h).holders = s.holders := by
  unfold State.setHome
  dsimp only
  split <;> rfl

theorem putBytes_holders (s : State) (pa n data mask psn : Nat) : (s.putBytes pa n data mask psn).holders = s.holders := by
  refine foldl_keeps State.holders _ (fun s i => ?_) _ _
  split <;> rfl

/-- No stash owns the sector. -/
def State.disown (s : State) (sec : Nat) : State := { s with owners := s.owners.set 0 sec 0 }

section
variable {s : State} {sec b k : Nat} {x : Sector} (ho : s.owners.get 0 sec = b + 1)
  (hx : (s.block b).owned sec = some (k, x)) (wr : Bool)
include ho hx

theorem recall_owned : s.recall wr sec =
    (((s.writeBack x).setSec b k (x.kept wr)).disown sec).setHome sec ⟨x.wts, x.rts⟩ := by
  unfold State.recall
  rw [ho]
  dsimp only
  rw [hx]
  rfl

theorem recall_holders : (s.recall wr sec).holders = (((s.writeBack x).setSec b k (x.kept wr)).disown sec).holders :=
  (congrArg State.holders (recall_owned ho hx wr)).trans (setHome_holders ..)

theorem recall_owner : (s.recall wr sec).owners.get 0 sec = 0 :=
  calc
    _ = (((s.writeBack x).setSec b k (x.kept wr)).disown sec).owners.get 0 sec :=
      congrArg (fun h => h.2.get 0 sec) (recall_holders ho hx wr)
    _ = 0 := FMap.get_set_self 0 ((s.writeBack x).setSec b k (x.kept wr)).owners sec 0

/-- The stash that owned the sector changes in that sector alone. -/
theorem recall_block : ((s.recall wr sec).block b).secs = (s.block b).secs.set {} k (x.kept wr) := by
  have hw : (s.writeBack x).block b = s.block b := congrArg (fun h => h.1.get {} b) (putBytes_holders ..)
  calc
    _ = (((s.writeBack x).setSec b k (x.kept wr)).block b).secs :=
      congrArg (fun h => (FMap.get {} h.1 b).secs) (recall_holders ho hx wr)
    _ = ((s.writeBack x).block b).secs.set {} k (x.kept wr) := congrArg Block.secs (FMap.get_set_self ..)
    _ = _ := by rw [hw]

theorem recall_mem : (s.recall wr sec).mem = (s.writeBack x).mem := by
  rw [recall_owned ho hx, setHome_mem]
  rfl

/-- The dirty bytes are written back. -/
theorem recall_bytes {j : Nat} (hj : j < 64) : (s.recall wr sec).memByte (x.pa + j) =
    if bit x.dirty j then byteOf x.data j else s.memByte (x.pa + j) :=
  (congrArg (·.get 0 (x.pa + j)) (recall_mem ho hx wr)).trans (putBytes_inside s x.pa 64 x.data x.dirty x.poison j hj)

theorem recall_frame {a : Nat} (ha : a < x.pa ∨ x.pa + 64 ≤ a) : (s.recall wr sec).memByte a = s.memByte a :=
  (congrArg (·.get 0 a) (recall_mem ho hx wr)).trans (putBytes_outside s x.pa 64 x.data x.dirty x.poison a ha)

/-- RECALL (R63). -/
theorem recallSector_effect {pa : Nat} (hp : pa / 64 = sec) : Answers (.recallSector pa) s fun t =>
    t.regs = s.regs ∧ t.owners.get 0 (pa / 64) = 0
      ∧ (t.block b).secs.get {} k = { x with st := .clean, dirty := 0 }
      ∧ (∀ j, j < 64 → t.memByte (x.pa + j) = if bit x.dirty j then byteOf x.data j else s.memByte (x.pa + j))
      ∧ ∀ a, a < x.pa ∨ x.pa + 64 ≤ a → t.memByte a = s.memByte a := by
  subst hp
  have hr : (s.recall false (pa / 64)).regs = s.regs := apart_regs (recall_apart ..)
  refine ⟨_, rfl, hr, recall_owner ho hx false, ?_, fun j hj => recall_bytes ho hx false hj,
    fun a ha => recall_frame ho hx false ha⟩
  exact (congrArg (·.get {} k) (recall_block ho hx false)).trans (FMap.get_set_self ..)

/-- A recall for a write. -/
theorem recallWrite_effect : let t := s.recall true sec
    t.regs = s.regs ∧ t.owners.get 0 sec = 0 ∧ (t.block b).secs.get {} k = {}
      ∧ (∀ y, y ≠ k → (t.block b).secs.get {} y = (s.block b).secs.get {} y)
      ∧ (∀ j, j < 64 → t.memByte (x.pa + j) = if bit x.dirty j then byteOf x.data j else s.memByte (x.pa + j))
      ∧ ∀ a, a < x.pa ∨ x.pa + 64 ≤ a → t.memByte a = s.memByte a := by
  refine ⟨apart_regs (recall_apart s true sec), recall_owner ho hx true, ?_, fun y hy => ?_,
    fun j hj => recall_bytes ho hx true hj, fun a ha => recall_frame ho hx true ha⟩
  · exact (congrArg (·.get {} k) (recall_block ho hx true)).trans (FMap.get_set_self ..)
  · exact (congrArg (·.get {} y) (recall_block ho hx true)).trans (FMap.get_set_ne _ _ _ _ _ hy)

end

/-! ## Fault records -/

/-- What a signal leaves: memory, the registers, the reports and the functions' rings. -/
def State.unsignalled (s : State) : FMap Byte × FMap Word × List Report × (Nat → Bool × Bool × Ring) :=
  (s.mem, s.regs, s.reports, s.control)

theorem modFn_unsignalled (s : State) (f : Nat) {g : Fn → Fn} (h : ∀ x, (g x).control = x.control) :
    (s.modFn f g).unsignalled = s.unsignalled :=
  congrArg (fun c => (s.mem, s.regs, s.reports, c)) (modFn_control s f h)

theorem signal_unsignalled (s : State) (f e : Nat) : (s.signal f e).unsignalled = s.unsignalled := by
  unfold State.signal
  split
  · exact modFn_unsignalled s f fun _ => rfl
  · dsimp only
    split <;> rfl

theorem signalFault_unsignalled (s : State) (ring : Nat) : (s.signalFault ring).unsignalled = s.unsignalled := by
  unfold State.signalFault
  split
  · exact signal_unsignalled ..
  · have h := modFn_unsignalled s ring (g := fun x => { x with vfisr := x.vfisr ||| 1 }) fun _ => rfl
    dsimp only
    split
    · exact (signal_unsignalled ..).trans h
    · exact h

theorem deviceWrite_holds (s : State) (vf pa n data : Nat) : (s.deviceWrite vf pa n data).Holds pa n data :=
  putBytes_holds _ pa n data 0

/-- The reports after one of them is written: a violation's, of token 0, is over (R47, R48). -/
def State.reportsWritten (s : State) (r : Report) : List Report :=
  if r.token = 0 then s.reports.filter fun x => x.id ≠ r.id
  else s.reports.map fun x : Report => if x.id = r.id then { x with written := true } else x

theorem written_of_reportsWritten {s : State} {r x : Report} (hx : x ∈ s.reportsWritten r) (h : x.id = r.id) :
    x.written = true := by
  unfold State.reportsWritten at hx
  split at hx
  · simp [h] at hx
  · obtain ⟨y, -, rfl⟩ := List.mem_map.1 hx
    split at h
    next => simp [*]
    next hy => exact absurd h hy

/-- Where the next record of a ring goes (R48). -/
def Ring.slot (r : Ring) : Nat := r.addr + r.tail % r.size * 32

/-- A ring's entry is taken. -/
def Fn.enter (x : Fn) (tail : Nat) : Fn := { x with fq := { x.fq with tail := tail } }

/-- A report is written into a ring that has room, before the signal. -/
def State.reportPut (s : State) (r : Report) : State :=
  let ring := (s.fn r.ring).fq
  let t := (s.deviceWrite r.ring ring.slot 32 r.record).modFn r.ring fun x => x.enter ((ring.tail + 1) % ring.size)
  { t with reports := t.reportsWritten r }

theorem reportPut_mem (s : State) (r : Report) :
    (s.reportPut r).mem = (s.deviceWrite r.ring (s.fn r.ring).fq.slot 32 r.record).mem := rfl

theorem reportPut_regs (s : State) (r : Report) : (s.reportPut r).regs = s.regs :=
  (rfl : _ = (s.deviceWrite r.ring (s.fn r.ring).fq.slot 32 r.record).regs).trans (apart_regs (deviceWriteAt_apart ..))

theorem reportPut_holds (s : State) (r : Report) : (s.reportPut r).Holds (s.fn r.ring).fq.slot 32 r.record :=
  holds_of_mem (reportPut_mem s r) (deviceWrite_holds s r.ring (s.fn r.ring).fq.slot 32 r.record)

theorem reportPut_tail (s : State) (r : Report) :
    ((s.reportPut r).control r.ring).2.2.tail = ((s.fn r.ring).fq.tail + 1) % (s.fn r.ring).fq.size :=
  congrArg (fun x => x.fq.tail) (State.fn_setFn_self ..)

section
variable {s : State} {r : Report} (hw : r.written = false) (hz : (s.fn r.ring).fq.size ≠ 0)
include hw hz

theorem writeReport_full (hf : (s.fn r.ring).fq.full = true) : s.writeReport r = s := by
  unfold State.writeReport
  dsimp only
  rw [hw, if_neg Bool.false_ne_true, if_neg hz, if_pos hf]

theorem writeReport_room (hf : (s.fn r.ring).fq.full = false) :
    (s.writeReport r).unsignalled = (s.reportPut r).unsignalled := by
  unfold State.writeReport
  dsimp only
  rw [hw, if_neg Bool.false_ne_true, if_neg hz, hf, if_neg Bool.false_ne_true]
  split
  · exact signalFault_unsignalled ..
  · rfl

/-- A report is written into its ring (R47, R48). -/
theorem writeReport_effect (hf : (s.fn r.ring).fq.full = false) :
    let ring := (s.fn r.ring).fq
    (s.writeReport r).Holds (ring.addr + ring.tail % ring.size * 32) 32 r.record
      ∧ ((s.writeReport r).fn r.ring).fq.tail = (ring.tail + 1) % ring.size ∧ (s.writeReport r).regs = s.regs
      ∧ (∀ x ∈ (s.writeReport r).reports, x.id = r.id → x.written = true) := by
  have h := writeReport_room hw hz hf
  have hm : (s.writeReport r).mem = (s.reportPut r).mem := congrArg (·.1) h
  have hr : (s.writeReport r).regs = (s.reportPut r).regs := congrArg (·.2.1) h
  have hp : (s.writeReport r).reports = (s.reportPut r).reports := congrArg (·.2.2.1) h
  have hc : (s.writeReport r).control = (s.reportPut r).control := congrArg (·.2.2.2) h
  refine ⟨holds_of_mem hm (reportPut_holds s r), ?_, hr.trans (reportPut_regs s r), fun x hx => ?_⟩
  · exact (congrArg (fun c => (c r.ring).2.2.tail) hc).trans (reportPut_tail s r)
  · rw [hp] at hx
    exact written_of_reportsWritten hx

end

theorem faultRecord_exec {s : State} {id : Nat} {r : Report} (h : s.reports.find? (fun x => x.id = id) = some r) :
    exec (.faultRecord id) s = .next (if s.mayRecord id then s.writeReport r else s) := by
  have hid : r.id = id := by simpa using List.find?_some h
  change execFaultRecord id s = _
  unfold execFaultRecord
  rw [h]
  simp only [hid]

end Sys2Proof.Machine

end

section
/-! FRES (R45, R50, R331): what waits for a report goes on, or with ABORT ends. A freeze is monotone: no part thaws, no queue runs
again and no record is taken back, so that what one step of an ABORT freezes stays frozen to its end. -/

namespace Sys2Proof.Machine

/-! ## FRES without ABORT (R45, R50) -/

/-- What a resolved report leaves: memory, the registers, the reports and the accesses that are held. -/
def State.awaited (s : State) : FMap Byte × FMap Word × List Report × List Held := (s.mem, s.regs, s.reports, s.held)

theorem count_awaited (s : State) (core evt n : Nat) : (s.count core evt n).awaited = s.awaited := by
  refine foldl_keeps State.awaited _ (fun s k => ?_) _ _
  split <;> rfl

theorem countEngines_awaited (s : State) (r : Nat) : (s.countEngines r).awaited = s.awaited :=
  (foldl_keeps State.awaited _ (fun _ _ => count_awaited ..) _ _).trans <|
    (foldl_keeps State.awaited _ (fun _ _ => count_awaited ..) _ _).trans <|
      foldl_keeps State.awaited _ (fun _ _ => count_awaited ..) _ _

/-- What was held for a report walks again; nothing else of what is held changes. -/
theorem replayReport_awaited (s : State) (r : Nat) : (s.replayReport r).awaited =
    (s.mem, s.regs, s.reports, s.held.map fun h : Held => if h.report = r then { h with report := 0 } else h) := by
  have hc := countEngines_awaited s r
  have hm : (s.countEngines r).mem = s.mem := congrArg (·.1) hc
  have hr : (s.countEngines r).regs = s.regs := congrArg (·.2.1) hc
  have hp : (s.countEngines r).reports = s.reports := congrArg (·.2.2.1) hc
  have hh : (s.countEngines r).held = s.held := congrArg (·.2.2.2) hc
  unfold State.replayReport
  refine (foldl_keeps State.awaited _ (fun s x => ?_) _ _).trans ?_
  · split
    · rfl
    · split <;> rfl
    · rfl
  · unfold State.awaited
    dsimp only
    rw [hm, hr, hp, hh]

/-! ## Closing a report -/

theorem closeReport_written {s : State} {r : Report} (h : r.written = true) (abort : Bool) :
    (s.closeReport r abort).reports = s.reports.filter fun x => x.id ≠ r.id := if_pos h

theorem closeReport_token {s : State} {r x : Report} {abort : Bool} (hx : x ∈ (s.closeReport r abort).reports)
    (h : x.id = r.id) : x.token = 0 := by
  unfold State.closeReport at hx
  dsimp only at hx
  split at hx
  · simp [h] at hx
  · obtain ⟨y, -, rfl⟩ := List.mem_map.1 hx
    split at h
    next hy => rw [if_pos hy]
    next hy => exact absurd h hy

/-- A record that still waits for room stays (log 86). -/
theorem closeReport_unwritten {s : State} {r : Report} (hr : r ∈ s.reports) (h : r.written = false) (abort : Bool) :
    ∃ x ∈ (s.closeReport r abort).reports, x.id = r.id ∧ x.written = false := by
  unfold State.closeReport
  dsimp only
  rw [h, if_neg Bool.false_ne_true]
  refine ⟨_, List.mem_map_of_mem hr, ?_, ?_⟩ <;> simp [h]

/-! ## The register FRES (R50) -/

/-- What a value written to FRES says. -/
theorem fres_value {k : Nat} (hk : k < 2 ^ 16) (abort : Bool) : bits (k + b2n abort * 2 ^ 16) 0 16 = k
    ∧ bits (k + b2n abort * 2 ^ 16) 17 47 = 0 ∧ bit (k + b2n abort * 2 ^ 16) 16 = abort := by
  unfold bit bits
  cases abort <;> simp only [b2n] <;> norm_num <;> omega

section
variable {s : State} {vf k : Nat} {hyp : Bool} (hk : k < 2 ^ 16)
include hk

theorem fres_exec (abort : Bool) : exec (.fres hyp vf k abort) s =
    .next (s.fresWrite (if hyp then 64 else vf % 64) (k + b2n abort * 2 ^ 16)) := by
  change execFres hyp vf k abort s = _
  unfold execFres
  rw [Nat.mod_eq_of_lt hk]

/-- No report has the token. -/
theorem fres_other (hf : s.reports.find? (fun x => x.ring = (if hyp then 64 else vf % 64) && x.token = k) = none)
    (abort : Bool) : exec (.fres hyp vf k abort) s = .next s := by
  obtain ⟨ht, -, -⟩ := fres_value hk abort
  rw [fres_exec hk]
  unfold State.fresWrite
  dsimp only
  rw [ht]
  split
  · rfl
  · rw [hf]

/-- A report with the token is closed, and what waits for it goes on or ends. -/
theorem fres_resolves {r : Report} (h0 : k ≠ 0)
    (hf : s.reports.find? (fun x => x.ring = (if hyp then 64 else vf % 64) && x.token = k) = some r) (abort : Bool) :
    exec (.fres hyp vf k abort) s = .next (if abort then (s.closeReport r abort).abortReport r.id
      else (s.closeReport r abort).replayReport r.id) := by
  obtain ⟨ht, hz, ha⟩ := fres_value hk abort
  rw [fres_exec hk]
  unfold State.fresWrite
  dsimp only
  rw [ht, hz, ha, hf]
  simp [h0]

/-- FRES without ABORT. -/
theorem fresReplay_effect {r : Report} (h0 : k ≠ 0)
    (hf : s.reports.find? (fun x => x.ring = (if hyp then 64 else vf % 64) && x.token = k) = some r) :
    Answers (.fres hyp vf k false) s fun t => t.mem = s.mem ∧ t.regs = s.regs
      ∧ (r.written = true → t.reports = s.reports.filter fun x => x.id ≠ r.id)
      ∧ (∀ x ∈ t.reports, x.id = r.id → x.token = 0)
      ∧ (r.written = false → ∃ x ∈ t.reports, x.id = r.id ∧ x.written = false)
      ∧ t.held = s.held.map fun h : Held => if h.report = r.id then { h with report := 0 } else h := by
  have hw := replayReport_awaited (s.closeReport r false) r.id
  have hp : ((s.closeReport r false).replayReport r.id).reports = (s.closeReport r false).reports := congrArg (·.2.2.1) hw
  refine ⟨_, fres_resolves hk h0 hf false, congrArg (·.1) hw, congrArg (·.2.1) hw, fun h => ?_, fun x hx h => ?_,
    fun h => ?_, congrArg (·.2.2.2) hw⟩
  · exact hp.trans (closeReport_written h false)
  · exact closeReport_token (hp ▸ hx) h
  · exact hp ▸ closeReport_unwritten (List.mem_of_find?_eq_some hf) h false

end

/-! ## Freezing for a report that was resolved with ABORT (R50, R331) -/

/-- What a freeze leaves: memory, the registers, what is held, and where the teams stand. -/
def State.unfrozen (s : State) : FMap Byte × FMap Word × List Held × FMap Cluster × FMap Launch :=
  (s.mem, s.regs, s.held, s.clusters, s.launches)

/-- A part only freezes further: one that is frozen stays so with its trap, and so do its queues. -/
structure Part.Freezes (x y : Part) : Prop where
  stays : x.life = .frozen → y.life = .frozen ∧ y.susp = x.susp
  queues : ∀ e ∈ x.frozenQ, e ∈ y.frozenQ

/-- The machine only freezes further: no part thaws, and no record is taken back. -/
structure Freezing (s t : State) : Prop where
  rest : t.unfrozen = s.unfrozen
  part : ∀ p, (s.part p).Freezes (t.part p)
  traps : ∀ x ∈ s.trapOuts, x ∈ t.trapOuts

theorem Part.Freezes.refl (x : Part) : x.Freezes x := ⟨fun h => ⟨h, rfl⟩, fun _ h => h⟩

theorem Part.Freezes.trans {x y z : Part} (h : x.Freezes y) (k : y.Freezes z) : x.Freezes z where
  stays e := ⟨(k.stays (h.stays e).1).1, (k.stays (h.stays e).1).2.trans (h.stays e).2⟩
  queues e he := k.queues e (h.queues e he)

theorem Freezing.refl (s : State) : Freezing s s := ⟨rfl, fun _ => .refl _, fun _ h => h⟩

theorem Freezing.trans {s t u : State} (h : Freezing s t) (k : Freezing t u) : Freezing s u where
  rest := k.rest.trans h.rest
  part p := (h.part p).trans (k.part p)
  traps x hx := k.traps x (h.traps x hx)

theorem Freezing.foldl {α : Type} {f : State → α → State} {xs : List α} (hf : ∀ s, ∀ x ∈ xs, Freezing s (f s x)) (s : State) :
    Freezing s (xs.foldl f s) := by
  induction xs generalizing s with
  | nil => exact .refl s
  | cons x xs ih =>
    exact (hf s x List.mem_cons_self).trans (ih (fun s y hy => hf s y (List.mem_cons_of_mem x hy)) _)

theorem Freezing.resident {s t : State} (h : Freezing s t) (p : Nat) : t.resident p = s.resident p := by
  have hc : t.clusters = s.clusters := congrArg (·.2.2.2.1) h.rest
  unfold State.resident State.clusterOfTeam State.cluster
  rw [hc]

theorem Freezing.launchAt {s t : State} (h : Freezing s t) (p : Nat) : t.launchAt p = s.launchAt p :=
  congrArg (fun x => x.2.2.2.2.get {} (x.2.2.2.1.get {} (clusterOf (blockOf (teamOf p)))).launch) h.rest

theorem setPart_freezes {s t : State} {p : Nat} {x : Part} (hp : t.parts = (s.setPart p x).parts)
    (hx : (s.part p).Freezes x) (q : Nat) : (s.part q).Freezes (t.part q) := by
  have hq : t.part q = (s.setPart p x).part q := congrArg (·.get {} q) hp
  rw [hq]
  by_cases h : q = p
  · rw [h, State.part_setPart_self]
    exact hx
  · rw [State.part_setPart_ne _ _ _ _ h]
    exact .refl _

theorem Freezing.modPart {s : State} {p : Nat} {f : Part → Part} (h : (s.part p).Freezes (f (s.part p))) :
    Freezing s (s.modPart p f) := ⟨rfl, setPart_freezes rfl h, fun _ h => h⟩

/-! ### Class 14 -/

/-- A token fits its field (R50, R330). -/
theorem takeToken_small (s : State) (ring : Nat) : (s.takeToken ring).1 < 2 ^ 16 := by
  unfold State.takeToken
  dsimp only
  cases hk : List.find? (fun k => !(s.tokens ring).contains k)
    ((List.range ((s.tokens ring).length + 1)).map fun i => ((s.fn ring).nextToken + i + 65534) % 65535 + 1) with
  | none => decide
  | some k =>
    obtain ⟨i, -, rfl⟩ := List.mem_map.1 (List.mem_of_find?_eq_some hk)
    rw [Option.getD_some]
    omega

/-- A token taken changes nothing else of this. -/
theorem takeToken_takes (s : State) (ring : Nat) : (s.takeToken ring).1 < 2 ^ 16
    ∧ (s.takeToken ring).2.unfrozen = s.unfrozen ∧ (s.takeToken ring).2.parts = s.parts
    ∧ (s.takeToken ring).2.trapOuts = s.trapOuts := ⟨takeToken_small s ring, rfl, rfl, rfl⟩

/-- A record of class 14 goes out for a part, which changes by `f`. -/
structure Recorded (s t : State) (p : Nat) (f : Part → Part) : Prop where
  rest : t.unfrozen = s.unfrozen
  parts : t.parts = (s.modPart p f).parts
  out : ∃ x, t.trapOuts = s.trapOuts ++ [x] ∧ x.part = p ∧ bits x.record 16 5 = 14

theorem Recorded.freezing {s t : State} {p : Nat} {f : Part → Part} (h : Recorded s t p f)
    (hf : (s.part p).Freezes (f (s.part p))) : Freezing s t where
  rest := h.rest
  part := setPart_freezes h.parts hf
  traps x hx := by
    obtain ⟨y, hy, -⟩ := h.out
    rw [hy]
    exact List.mem_append_left _ hx

theorem Recorded.part {s t : State} {p : Nat} {f : Part → Part} (h : Recorded s t p f) : t.part p = f (s.part p) :=
  (congrArg (·.get {} p) h.parts).trans (State.part_setPart_self ..)

/-- The numbers that a record takes change nothing of this. -/
theorem Recorded.of_taken {s s1 t : State} {p : Nat} {f : Part → Part} (hu : s1.unfrozen = s.unfrozen)
    (hp : s1.parts = s.parts) (ho : s1.trapOuts = s.trapOuts) (h : Recorded s1 t p f) : Recorded s t p f where
  rest := h.rest.trans hu
  parts := by
    have hq : s1.part p = s.part p := congrArg (·.get {} p) hp
    rw [h.parts, State.modPart_eq, State.modPart_eq, hq]
    exact congrArg (·.set {} p (f (s.part p))) hp
  out := ho ▸ h.out

/-- A part as a trap of class 14 leaves it (R331). -/
def Part.frozenBy (x : Part) (u : Susp) (off : Nat) : Part :=
  { x with life := .frozen, susp := some u, off := off
           qTokens := match x.susp with
             | some v => if v.resolved.isSome then x.qTokens else v.token :: x.qTokens
             | none => x.qTokens }

/-- A trap of class 14 below level H. -/
theorem takeTrap_recorded {s : State} {p : Nat} {x : Trap} (hc : x.cls = 14) (hl : (s.launchAt p).level ≠ .h) :
    ∃ u, u.cls = 14 ∧ u.frz = true ∧ Recorded s (s.takeTrap p x) p (·.frozenBy u x.off) := by
  have h := takeToken_takes s (s.trapRing (teamOf p))
  have hl' : ¬ (s.launch (s.launchOf (teamOf p))).level = .h := hl
  unfold State.takeTrap
  rw [if_neg hl', hc]
  dsimp only
  generalize s.takeToken (s.trapRing (teamOf p)) = r at *
  obtain ⟨k, s1⟩ := r
  obtain ⟨hk, hu, hp, ho⟩ := h
  dsimp only at hk hu hp ho ⊢
  refine ⟨_, rfl, ?_, Recorded.of_taken hu hp ho ⟨rfl, rfl, _, rfl, rfl, ?_⟩⟩
  · rfl
  · exact (trapRecord_fields _ _ _ _ _ _ _ _ hk (by decide)).2

theorem queueRecord_recorded {s : State} {p : Nat} (hv : s.livePart p = true) (hl : (s.launchAt p).level ≠ .h) :
    ∃ k, Recorded s (s.queueRecord p) p fun x => { x with qTokens := k :: x.qTokens } := by
  have h := takeToken_takes s (s.trapRing (teamOf p))
  unfold State.queueRecord
  rw [hv, Bool.not_true, if_neg Bool.false_ne_true, if_neg hl]
  dsimp only
  generalize s.takeToken (s.trapRing (teamOf p)) = r at *
  obtain ⟨k, s1⟩ := r
  obtain ⟨hk, hu, hp, ho⟩ := h
  dsimp only at hk hu hp ho ⊢
  refine ⟨_, Recorded.of_taken hu hp ho ⟨rfl, rfl, _, rfl, rfl, ?_⟩⟩
  exact (trapRecord_fields _ _ _ _ _ _ _ _ hk (by decide)).2

/-! ### Freezing parts and queues -/

/-- A part is frozen by a trap of class 14: it holds the trap, and its record goes out (R331). -/
def Froze (t : State) (p : Nat) : Prop :=
  (∃ u, (t.part p).susp = some u ∧ u.cls = 14 ∧ u.frz = true) ∧ ∃ x ∈ t.trapOuts, x.part = p ∧ bits x.record 16 5 = 14

theorem Froze.mono {s t : State} {p : Nat} (h : Froze s p) (hp : (s.part p).life = .frozen) (k : Freezing s t) : Froze t p := by
  obtain ⟨⟨u, hu, hc⟩, x, hx, hr⟩ := h
  exact ⟨⟨u, ((k.part p).stays hp).2.trans hu, hc⟩, x, k.traps x hx, hr⟩

theorem Part.Freezes.of_thawed {x y : Part} (h : x.life ≠ .frozen) (hq : y.frozenQ = x.frozenQ) : x.Freezes y :=
  ⟨fun e => absurd e h, fun _ he => hq ▸ he⟩

theorem stopH_freezing (s : State) (d cls : Nat) : Freezing s (s.stopH d cls) :=
  ⟨rfl, fun p => .refl (s.part p), fun _ h => h⟩

section
variable {s : State} {p : Nat} {x : Trap}

theorem takeTrap_stopsH (hl : (s.launchAt p).level = .h) : s.takeTrap p x =
    (s.modPart p fun y => { y with life := .frozen, wait := .none }).stopH (dieOf (s.coreOf p)) x.cls := if_pos hl

variable (hc : x.cls = 14)
include hc

theorem takeTrap_life : ((s.takeTrap p x).part p).life = .frozen := by
  by_cases hl : (s.launchAt p).level = .h
  · rw [takeTrap_stopsH hl, stopH_part, State.modPart_eq, State.part_setPart_self]
  · obtain ⟨u, -, -, h⟩ := takeTrap_recorded hc hl
    rw [h.part]
    rfl

theorem takeTrap_froze (hl : (s.launchAt p).level ≠ .h) : Froze (s.takeTrap p x) p := by
  obtain ⟨u, hu, hf, h⟩ := takeTrap_recorded hc hl
  obtain ⟨y, hy, hr⟩ := h.out
  exact ⟨⟨u, congrArg Part.susp h.part, hu, hf⟩, y, hy ▸ List.mem_append_right _ List.mem_cons_self, hr⟩

theorem takeTrap_freezing (hp : (s.part p).life ≠ .frozen) : Freezing s (s.takeTrap p x) := by
  by_cases hl : (s.launchAt p).level = .h
  · rw [takeTrap_stopsH hl]
    exact (Freezing.modPart (.of_thawed hp rfl)).trans (stopH_freezing ..)
  · obtain ⟨u, -, -, h⟩ := takeTrap_recorded hc hl
    exact h.freezing (.of_thawed hp rfl)

end

/-- A part whose report was resolved with ABORT (R50, R331): it is frozen, by a trap of class 14 where it ran below level
H. -/
def Aborted (s t : State) (p : Nat) : Prop :=
  (t.part p).life = .frozen ∧ ((s.part p).life = .live → (s.launchAt p).level ≠ .h → Froze t p)

theorem Aborted.mono {s t u : State} {p : Nat} (h : Aborted s t p) (k : Freezing t u) : Aborted s u p :=
  ⟨((k.part p).stays h.1).1, fun hl hv => (h.2 hl hv).mono h.1 k⟩

theorem freezePart_freezing (s : State) (p : Nat) : Freezing s (s.freezePart p) := by
  unfold State.freezePart
  split
  next h =>
    simp only [Bool.and_eq_true, decide_eq_true_eq] at h
    exact takeTrap_freezing rfl h.2
  next => exact .refl s

theorem freezePart_aborted {s : State} {p : Nat} (hv : s.livePart p = true) : Aborted s (s.freezePart p) p := by
  unfold State.freezePart
  by_cases hf : (s.part p).life = .frozen
  · simp only [hf, ne_eq, not_true_eq_false, decide_false, Bool.and_false, Bool.false_eq_true, if_false]
    exact ⟨hf, fun h => absurd (hf.symm.trans h) (by decide)⟩
  · simp only [hf, hv, ne_eq, not_false_eq_true, decide_true, Bool.and_self, if_true]
    exact ⟨takeTrap_life rfl, fun _ hl => takeTrap_froze rfl hl⟩

theorem abortPart_freezing (s : State) (p : Nat) : Freezing s (s.abortPart p) := by
  unfold State.abortPart
  split
  · exact freezePart_freezing s p
  · split
    · exact Freezing.modPart ⟨fun h => ⟨h, rfl⟩, fun _ h => h⟩
    · exact .refl s

/-- Freezing one part leaves the others. -/
theorem freezePart_other (s : State) {p q : Nat} (h : q ≠ p) : (s.freezePart p).part q = s.part q := by
  unfold State.freezePart
  split
  · unfold State.trapAt
    dsimp only
    by_cases hl : (s.launchAt p).level = .h
    · rw [takeTrap_stopsH hl, stopH_part, State.modPart_eq, State.part_setPart_ne _ _ _ _ h]
    · obtain ⟨u, -, -, hr⟩ := takeTrap_recorded (s := s) (p := p)
        (x := { cls := 14, ga := (s.atInstr p).1, act := (s.atInstr p).2, off := (s.part p).off, next := s.afterInstr p })
        rfl hl
      exact (congrArg (·.get {} q) hr.parts).trans (State.part_setPart_ne _ _ _ _ h)
  · rfl

theorem abortPart_other (s : State) {p q : Nat} (h : q ≠ p) : (s.abortPart p).part q = s.part q := by
  unfold State.abortPart
  split
  · exact freezePart_other s h
  · split
    · exact State.part_setPart_ne _ _ _ _ h
    · rfl

theorem abortParts_freezing (s : State) (ps : List Nat) : Freezing s (ps.foldl (fun s p => s.abortPart p) s) :=
  .foldl (fun s p _ => abortPart_freezing s p) s

/-- Every resident part among those that are frozen is. -/
theorem abortParts_aborted {p : Nat} {ps : List Nat} (hp : p ∈ ps) {s : State} (hr : s.resident p = true)
    (hv : s.livePart p = true) : Aborted s (ps.foldl (fun s p => s.abortPart p) s) p := by
  induction ps generalizing s with
  | nil => cases hp
  | cons q qs ih =>
    by_cases h : p = q
    · subst h
      have ha : Aborted s (s.abortPart p) p := by
        unfold State.abortPart
        rw [if_pos hr]
        exact freezePart_aborted hv
      exact ha.mono (abortParts_freezing _ qs)
    · have hk := abortPart_freezing s q
      have ho : (s.abortPart q).part p = s.part p := abortPart_other s h
      have := ih ((List.mem_cons.1 hp).resolve_left h) ((hk.resident p).trans hr) (by
        unfold State.livePart at hv ⊢
        rw [ho]
        exact hv)
      unfold Aborted at this ⊢
      rw [ho, hk.launchAt] at this
      exact this

theorem queueRecord_freezing (s : State) (p : Nat) : Freezing s (s.queueRecord p) := by
  by_cases hv : s.livePart p = true
  · by_cases hl : (s.launchAt p).level = .h
    · unfold State.queueRecord
      rw [hv, Bool.not_true, if_neg Bool.false_ne_true, if_pos hl]
      exact stopH_freezing ..
    · obtain ⟨k, h⟩ := queueRecord_recorded hv hl
      exact h.freezing ⟨fun h => ⟨h, rfl⟩, fun _ h => h⟩
  · unfold State.queueRecord
    rw [Bool.not_eq_true] at hv
    rw [hv, Bool.not_false, if_pos rfl]
    exact .refl s

/-- A part with one more frozen queue. -/
def Part.freezeQ (x : Part) (eng : Path) : Part :=
  { x with frozenQ := if !x.frozenQ.contains eng then eng :: x.frozenQ else x.frozenQ }

theorem Part.mem_freezeQ (x : Part) (eng : Path) : eng ∈ (x.freezeQ eng).frozenQ := by
  unfold Part.freezeQ
  dsimp only
  split
  next => exact List.mem_cons_self
  next h => simpa using h

theorem Part.freezeQ_freezes (x : Part) (eng : Path) : x.Freezes (x.freezeQ eng) := by
  refine ⟨fun h => ⟨h, rfl⟩, fun e he => ?_⟩
  unfold Part.freezeQ
  dsimp only
  split
  · exact List.mem_cons_of_mem _ he
  · exact he

/-- What a queue's freeze does before its record goes out. -/
theorem freezeQueue_stops (s : State) (p : Nat) (eng : Path) (n : Nat) : ∃ t,
    s.freezeQueue p eng n = (if !(s.part p).frozenQ.contains eng then t.queueRecord p else t)
      ∧ Freezing s t ∧ t.part p = (s.part p).freezeQ eng :=
  ⟨_, rfl, ⟨rfl, setPart_freezes rfl (Part.freezeQ_freezes _ eng), fun _ h => h⟩, State.part_setPart_self ..⟩

theorem freezeQueue_records (s : State) (p : Nat) (eng : Path) (n : Nat) : ∃ t, Freezing t (s.freezeQueue p eng n)
    ∧ Freezing s t ∧ t.part p = (s.part p).freezeQ eng := by
  obtain ⟨t, h, ht⟩ := freezeQueue_stops s p eng n
  refine ⟨t, ?_, ht⟩
  rw [h]
  split
  · exact queueRecord_freezing t p
  · exact .refl t

theorem freezeQueue_freezing (s : State) (p : Nat) (eng : Path) (n : Nat) : Freezing s (s.freezeQueue p eng n) := by
  obtain ⟨t, h, k, -⟩ := freezeQueue_records s p eng n
  exact k.trans h

theorem freezeQueue_frozen (s : State) (p : Nat) (eng : Path) (n : Nat) :
    eng ∈ ((s.freezeQueue p eng n).part p).frozenQ := by
  obtain ⟨t, h, -, ht⟩ := freezeQueue_records s p eng n
  exact (h.part p).queues eng (ht ▸ Part.mem_freezeQ ..)

theorem abortQueue_freezing (s : State) (p : Nat) (eng : Path) (n : Nat) : Freezing s (s.abortQueue p eng n) := by
  unfold State.abortQueue
  split
  · exact freezeQueue_freezing s p eng n
  · exact Freezing.modPart ⟨fun h => ⟨h, rfl⟩, fun _ h => h⟩

section
variable {α : Type} {xs : List α} {f : State → α → State} {part : α → Nat} {eng : α → Path} {num : α → Nat}
  (hf : ∀ s, ∀ x ∈ xs, f s x = s.abortQueue (part x) (eng x) (num x)) (s : State)
include hf

theorem abortQueues_freezing : Freezing s (xs.foldl f s) :=
  .foldl (fun s x hx => hf s x hx ▸ abortQueue_freezing ..) s

/-- Every queue of a resident part among those that are frozen is. -/
theorem abortQueues_frozen {x : α} (hx : x ∈ xs) (hr : s.resident (part x) = true) :
    eng x ∈ ((xs.foldl f s).part (part x)).frozenQ := by
  induction xs generalizing s with
  | nil => cases hx
  | cons y ys ih =>
    have hs : Freezing s (f s y) := hf s y List.mem_cons_self ▸ abortQueue_freezing ..
    have hys : ∀ s, ∀ x ∈ ys, f s x = s.abortQueue (part x) (eng x) (num x) :=
      fun s x hx => hf s x (List.mem_cons_of_mem y hx)
    rcases List.mem_cons.1 hx with rfl | hx
    · refine ((abortQueues_freezing hys (f s x)).part _).queues _ ?_
      rw [hf s x List.mem_cons_self]
      unfold State.abortQueue
      rw [if_pos hr]
      exact freezeQueue_frozen ..
    · exact ih hys _ hx ((hs.resident _).trans hr)

end

/-! ## FRES with ABORT (R50, R331) -/

theorem mem_once {l : List Nat} {x : Nat} (h : x ∈ l) : x ∈ once l := by
  suffices ∀ r : List Nat, x ∈ r ∨ x ∈ l → x ∈ l.foldl (fun r x => if r.contains x then r else r ++ [x]) r from
    this [] (.inr h)
  clear h
  induction l with
  | nil => exact fun r h => h.resolve_right List.not_mem_nil
  | cons y l ih =>
    intro r h
    refine ih _ ?_
    rcases h with h | h
    · left
      dsimp only
      split
      · exact h
      · exact List.mem_append_left _ h
    · rcases List.mem_cons.1 h with rfl | h
      · left
        dsimp only
        split
        next hc => simpa using hc
        next => exact List.mem_append_right _ List.mem_cons_self
      · exact .inr h

/-- The parts whose accesses or fetches a report holds. -/
def State.heldParts (s : State) (r : Nat) : List Nat :=
  once ((s.held.filter fun h => h.report = r).map (·.part) ++ (s.fills.filter fun f => f.report = r && !f.pf).map (·.part))

/-- The parts of whose lanes a report holds accesses of the Runner. -/
def State.heldRuns (s : State) (r : Nat) : List Nat :=
  once ((s.lanes.filter fun x => x.2.reports.contains r).map fun x => s.partOf x.1)

/-- ABORT for a command that waits for the report. -/
def State.abortCmd (s : State) (k : Cmd) : State :=
  match k.node with
  | some (g, n) => s.failNode g n 4 k.time
  | none => s.abortQueue k.part k.eng k.id

/-- With no event waiting for the report, ABORT discards what it holds and freezes parts and queues. -/
theorem abortReport_freezes {s : State} {r : Nat} (hw : ∀ x ∈ s.waiters, x.1 ≠ r) : ∃ s0,
    s0.unfrozen = (s.mem, s.regs, s.held.filter fun h => h.report ≠ r, s.clusters, s.launches)
      ∧ s0.parts = s.parts
      ∧ s.abortReport r = (s.heldRuns r).foldl (fun s p => s.abortQueue p .t 0)
          ((s.tundish.filter fun e => e.reports.contains r).foldl (fun s e => s.abortQueue e.part .m e.id)
            ((s.cmds.filter fun k => k.reports.contains r).foldl State.abortCmd
              ((s.heldParts r).foldl (fun s p => s.abortPart p) s0))) := by
  have hn : (s.waiters.filter fun x => x.1 = r) = [] := List.filter_eq_nil_iff.2 fun x hx => by simpa using hw x hx
  unfold State.abortReport
  rw [hn]
  refine ⟨_, ?_, ?_, rfl⟩
  · rfl
  · rfl

section
variable {s : State} {r : Nat} (hw : ∀ x ∈ s.waiters, x.1 ≠ r) (hn : ∀ c ∈ s.cmds, r ∈ c.reports → c.node = none)
include hw hn

/-- What ABORT of a report does (R50, R331). -/
theorem abortReport_effect :
    (s.abortReport r).unfrozen = (s.mem, s.regs, s.held.filter fun h => h.report ≠ r, s.clusters, s.launches)
      ∧ (∀ h ∈ s.held, h.report = r → s.resident h.part = true → s.livePart h.part = true →
          Aborted s (s.abortReport r) h.part)
      ∧ (∀ c ∈ s.cmds, r ∈ c.reports → s.resident c.part = true → c.eng ∈ ((s.abortReport r).part c.part).frozenQ)
      ∧ ∀ e ∈ s.tundish, r ∈ e.reports → s.resident e.part = true →
          Path.m ∈ ((s.abortReport r).part e.part).frozenQ := by
  obtain ⟨s0, hu, hp, ht⟩ := abortReport_freezes hw
  have hc : ∀ s', ∀ k ∈ s.cmds.filter (fun k => k.reports.contains r), State.abortCmd s' k = s'.abortQueue k.part k.eng k.id := by
    intro s' k hk
    rw [List.mem_filter] at hk
    unfold State.abortCmd
    rw [hn k hk.1 (by simpa using hk.2)]
  rw [ht]
  generalize h1 : (s.heldParts r).foldl (fun s p => s.abortPart p) s0 = s1
  generalize h2 : (s.cmds.filter fun k => k.reports.contains r).foldl State.abortCmd s1 = s2
  generalize h3 : (s.tundish.filter fun e => e.reports.contains r).foldl (fun s e => s.abortQueue e.part .m e.id) s2 = s3
  generalize h4 : (s.heldRuns r).foldl (fun s p => s.abortQueue p .t 0) s3 = s4
  have k1 : Freezing s0 s1 := h1 ▸ abortParts_freezing ..
  have k2 : Freezing s1 s2 := h2 ▸ abortQueues_freezing hc s1
  have k3 : Freezing s2 s3 := h3 ▸ abortQueues_freezing (part := TEntry.part) (eng := fun _ => .m) (num := TEntry.id)
    (fun _ _ _ => rfl) s2
  have k4 : Freezing s3 s4 := h4 ▸ abortQueues_freezing (part := id) (eng := fun _ => .t) (num := fun _ => 0)
    (fun _ _ _ => rfl) s3
  have part0 (p : Nat) : s0.part p = s.part p := congrArg (·.get {} p) hp
  have hcl : s0.clusters = s.clusters := congrArg (·.2.2.2.1) hu
  have hla : s0.launches = s.launches := congrArg (·.2.2.2.2) hu
  have res0 (p : Nat) : s0.resident p = s.resident p := by
    unfold State.resident State.clusterOfTeam State.cluster
    rw [hcl]
  refine ⟨(k4.rest.trans (k3.rest.trans (k2.rest.trans k1.rest))).trans hu, fun h hh he hr hv => ?_, fun c hcs he hr => ?_,
    fun e hes he hr => ?_⟩
  · have ha : Aborted s0 s1 h.part := by
      refine h1 ▸ abortParts_aborted (mem_once ?_) ((res0 _).trans hr) ?_
      · exact List.mem_append_left _ (List.mem_map_of_mem (List.mem_filter.2 ⟨hh, by simpa using he⟩))
      · unfold State.livePart at hv ⊢
        rw [part0]
        exact hv
    have hl : s0.launchAt h.part = s.launchAt h.part := by
      unfold State.launchAt State.launchOf State.clusterOfTeam State.cluster State.launch
      rw [hcl, hla]
    have := ha.mono (k2.trans (k3.trans k4))
    unfold Aborted at this ⊢
    rw [part0, hl] at this
    exact this
  · refine ((k3.trans k4).part _).queues _ ?_
    exact h2 ▸ abortQueues_frozen hc s1 (List.mem_filter.2 ⟨hcs, by simpa using he⟩)
      ((k1.resident _).trans ((res0 _).trans hr))
  · refine (k4.part _).queues _ ?_
    exact h3 ▸ abortQueues_frozen (part := TEntry.part) (eng := fun _ => .m) (num := TEntry.id) (fun _ _ _ => rfl) s2
      (List.mem_filter.2 ⟨hes, by simpa using he⟩) (((k1.trans k2).resident _).trans ((res0 _).trans hr))

end

/-- FRES with ABORT. -/
theorem fresAbort_effect {s : State} {vf k : Nat} {hyp : Bool} (hk : k < 2 ^ 16) {r : Report} (h0 : k ≠ 0)
    (hf : s.reports.find? (fun x => x.ring = (if hyp then 64 else vf % 64) && x.token = k) = some r)
    (hw : ∀ x ∈ s.waiters, x.1 ≠ r.id) (hn : ∀ c ∈ s.cmds, r.id ∈ c.reports → c.node = none) :
    Answers (.fres hyp vf k true) s fun t => t.mem = s.mem ∧ t.regs = s.regs
      ∧ t.held = s.held.filter (fun h => h.report ≠ r.id)
      ∧ (∀ h ∈ s.held, h.report = r.id → s.resident h.part = true → s.livePart h.part = true →
          (t.part h.part).life = .frozen
          ∧ ((s.part h.part).life = .live → (s.launchAt h.part).level ≠ .h →
              (∃ u, (t.part h.part).susp = some u ∧ u.cls = 14 ∧ u.frz = true)
              ∧ ∃ x ∈ t.trapOuts, x.part = h.part ∧ bits x.record 16 5 = 14))
      ∧ (∀ c ∈ s.cmds, r.id ∈ c.reports → s.resident c.part = true → c.eng ∈ (t.part c.part).frozenQ)
      ∧ ∀ e ∈ s.tundish, r.id ∈ e.reports → s.resident e.part = true → Path.m ∈ (t.part e.part).frozenQ := by
  obtain ⟨hu, hparts, hcmds, htun⟩ := abortReport_effect (s := s.closeReport r true) hw hn
  exact ⟨_, fres_resolves hk h0 hf true, congrArg (·.1) hu, congrArg (·.2.1) hu, congrArg (·.2.2.1) hu, hparts, hcmds, htun⟩

end Sys2Proof.Machine

end

section
/-! Replays (R45, R49, R50): a recorded access leaves the record as it is performed. -/

namespace Sys2Proof.Machine

/-! ## Replays (R45, R49, R50) -/

section
variable {s t : State} (h : t.awaited = s.awaited)
include h

theorem awaited_mem : t.mem = s.mem := congrArg (·.1) h
theorem awaited_regs : t.regs = s.regs := congrArg (·.2.1) h
theorem awaited_held : t.held = s.held := congrArg (·.2.2.2) h

end

theorem modPart_awaited (s : State) (p : Nat) (f : Part → Part) : (s.modPart p f).awaited = s.awaited := rfl

theorem noteFar_awaited (s before : State) (p op : Nat) : (s.noteFar before p op).awaited = s.awaited := by
  unfold State.noteFar
  split <;> rfl

theorem countReplay_awaited (s : State) (h : Held) : (s.countReplay h).awaited = s.awaited := by
  unfold State.countReplay
  dsimp only
  rw [modPart_awaited, count_awaited]

theorem wakeReplay_awaited (s : State) (p : Nat) : (s.wakeReplay p).awaited = s.awaited := by
  unfold State.wakeReplay
  split <;> rfl

/-- A recorded access as it is performed: it has left the record, and its translations are those of now. -/
def State.redone (s : State) (w : Who) (h : Held) (secs : List Nat) (cs : List Chunk) : State × Option (List (Nat × Bool)) :=
  (s.dropHeld h.id).laneDo { w with lane := h.lane } h.part h.lane h.op h.res h.id secs h.acc (cs.map (s.refreshChunk w.core))

/-- What the replay notes of the access changes neither memory nor a register. -/
theorem replayDo_awaited (s : State) (w : Who) (h : Held) (secs : List Nat) (cs : List Chunk) :
    (s.replayDo w h secs cs).awaited = (s.redone w h secs cs).1.awaited := by
  unfold State.replayDo State.redone
  dsimp only
  rw [wakeReplay_awaited, countReplay_awaited, noteFar_awaited]
  split <;> rfl

theorem redone_apart (s : State) (w : Who) (h : Held) (secs : List Nat) (cs : List Chunk) :
    (s.redone w h secs cs).1.apart = (s.dropHeld h.id).apart := laneDo_apart ..

theorem replayDo_held (s : State) (w : Who) (h : Held) (secs : List Nat) (cs : List Chunk) :
    (s.replayDo w h secs cs).held = s.held.filter fun k => k.id ≠ h.id :=
  calc
    _ = (s.redone w h secs cs).1.held := awaited_held (replayDo_awaited ..)
    _ = (s.dropHeld h.id).held := apart_held (redone_apart ..)

theorem replayDo_regs (s : State) (w : Who) (h : Held) (secs : List Nat) (cs : List Chunk) :
    (s.replayDo w h secs cs).regs = s.regs :=
  calc
    _ = (s.redone w h secs cs).1.regs := awaited_regs (replayDo_awaited ..)
    _ = (s.dropHeld h.id).regs := apart_regs (redone_apart ..)

/-- The accesses that are performed together, one after the other. -/
def State.replayAll (s : State) (w : Who) (secs : List Nat) (xs : List (Held × List Chunk)) : State :=
  xs.foldl (fun s x => s.replayDo w x.1 secs x.2) s

theorem replayAll_nil (s : State) (w : Who) (secs : List Nat) : s.replayAll w secs [] = s := by
  unfold State.replayAll
  rw [List.foldl_nil]

theorem replayAll_cons (s : State) (w : Who) (secs : List Nat) (x : Held × List Chunk) (xs : List (Held × List Chunk)) :
    s.replayAll w secs (x :: xs) = (s.replayDo w x.1 secs x.2).replayAll w secs xs := by
  unfold State.replayAll
  rw [List.foldl_cons]

theorem replayAll_held {s : State} {w : Who} {secs : List Nat} {xs : List (Held × List Chunk)} {k : Held}
    (hk : k ∈ (s.replayAll w secs xs).held) : k ∈ s.held ∧ ∀ x ∈ xs, k.id ≠ x.1.id := by
  induction xs generalizing s with
  | nil => exact ⟨hk, fun x hx => absurd hx List.not_mem_nil⟩
  | cons y ys ih =>
    rw [replayAll_cons] at hk
    obtain ⟨hs, hys⟩ := ih hk
    rw [replayDo_held, List.mem_filter] at hs
    refine ⟨hs.1, fun x hx => ?_⟩
    rcases List.mem_cons.1 hx with rfl | hx
    · simpa using hs.2
    · exact hys x hx

/-- A replay in which every place is found and none has to wait. -/
theorem replay_performs {s s1 : State} {h : Held} {xs : List (Held × List Chunk)} (hf : (s.part h.part).life ≠ .frozen)
    (hw : ∀ k ∈ s.together h, k.report = 0 ∧ s.laneHeld k.team k.lane k.id = false)
    (hx : s.replayPlaces (s.who h.part) (s.together h) = (s1, none, false, xs)) :
    s.replay h = s1.replayAll (s.who h.part) (xs.flatMap fun x => repSectors x.1.acc x.2) xs := by
  have ha : ((s.together h).any fun k => k.report ≠ 0 || s.laneHeld k.team k.lane k.id) = false := by
    rw [List.any_eq_false]
    intro k hk
    obtain ⟨hr, hl⟩ := hw k hk
    simp [hr, hl]
  unfold State.replay
  dsimp only
  rw [ha, hx]
  simp only [hf, decide_false, Bool.or_false, Bool.false_eq_true, if_false]
  rfl

/-- The events that replay a recorded access (R46, R59). -/
theorem replay_exec {s : State} {i : Instr} {h : Held}
    (hi : (∃ id, i = .tableWalk id ∧ s.held.find? (fun x => x.id = id) = some h)
      ∨ ∃ b va, i = .stashFill b va ∧ s.held.find? (fun x => heldSector b (va / 64) x && x.report = 0) = some h)
    (hr : s.resident h.part = true) : exec i s = .next (s.replay h) := by
  rcases hi with ⟨id, rfl, hh⟩ | ⟨b, va, rfl, hh⟩
  · change execTableWalk id s = _
    unfold execTableWalk
    rw [hh]
    simp only [hr, if_true]
  · change execStashFill b va s = _
    unfold execStashFill
    rw [hh]
    simp only [hr, if_true]

/-! ### A store to one place -/

theorem refreshed_attr (s : State) (core : Nat) (e : Tlb) : (s.refreshed core e).attr = e.attr := by
  unfold State.refreshed
  cases hx : (s.core core).tlb.find? fun x => { x with acc := e.acc, dirty := e.dirty } = e with
  | none => rfl
  | some x =>
    have he := List.find?_some hx
    simp only [decide_eq_true_eq] at he
    rw [Option.getD_some, ← he]

theorem takeTime_mem {s : State} {sec : Nat} (h : s.owners.get 0 sec = 0) (vf : Nat) (ca : Cache) (num clock : Nat) :
    (s.takeTime vf ca num clock sec).1.mem = s.mem := by
  unfold State.takeTime
  rw [recall_unowned h]
  dsimp only
  exact (setHome_mem ..).trans (fillLine_mem ..)

/-- A store at a home that no stash owns writes its bytes (R62). -/
theorem storeHome_mem {s : State} {pa : Nat} (h : s.owners.get 0 (pa / 64) = 0) (w : Who) (ca : Cache) (op n data psn : Nat) :
    ∃ u : State, u.mem = s.mem ∧ (s.storeHome w ca op pa n data psn).mem = (u.putBytes pa n data (ones n) psn).mem := by
  refine ⟨((s.takeTime w.fill ca w.writes (s.core w.core).clock (pa / 64)).1.noteUndo op pa n (ones n)),
    (noteUndo_mem ..).trans (takeTime_mem h ..), ?_⟩
  unfold State.storeHome
  dsimp only
  split
  · rw [l1Put_mem, raiseClock_mem]
  · rw [raiseClock_mem]

section
variable {s : State} {x : Chunk} {e : Tlb} {pa : Nat} {a : Access} (hx : x.place = .home e pa) (hr : e.attr.rep = false)
include hx hr

theorem repSectors_home : repSectors a [x] = [] := by
  unfold repSectors replicated
  simp [hx, hr]

theorem committed_home : committed a [] x = false := by
  unfold committed replicated
  simp [hx, hr]

/-- One place of a store, through a translation that is marked already. -/
theorem laneDo_store (hs : a.kind = .store) (ha : e.acc = true) (hd : e.dirty = true) (w : Who) (part lane op g seq : Nat) :
    (s.laneDo w part lane op g seq [] a [x]).1 =
      s.storeHome w a.ca (op * 1024 + lane) pa x.n (bits a.data (8 * x.off) (8 * x.n)) (bits a.psn x.off x.n) := by
  have hl : ¬ a.kind = .load := by rw [hs]; decide
  have hw : onWindow [x] = false := by simp [onWindow, hx]
  have hc : committed a [] x = false := committed_home hx hr
  have hm : s.markUsed w e true = s := if_pos (by simp [ha, hd])
  unfold State.laneDo State.performOr
  rw [hw, Bool.and_false, if_neg Bool.false_ne_true]
  simp only [hl, if_false, List.filter_cons, hc, List.filter_nil, Bool.not_false, if_true, Bool.false_eq_true,
    List.isEmpty_nil]
  unfold State.startCommits State.perform
  simp only [List.foldl_nil, List.foldl_cons, hs]
  unfold State.writeChunk
  simp only [hx, hm]

end

theorem memByte_of_mem {s t : State} (h : t.mem = s.mem) (a : Nat) : t.memByte a = s.memByte a := congrArg (·.get 0 a) h

/-- A replayed store to one place on its own (R49). -/
theorem replayDo_store {s : State} {w : Who} {h : Held} {x : Chunk} {e : Tlb} {pa : Nat} (hs : h.acc.kind = .store)
    (hx : x.place = .home e pa) (hr : e.attr.rep = false) (ha : (s.refreshed w.core e).acc = true)
    (hd : (s.refreshed w.core e).dirty = true) (ho : s.owners.get 0 (pa / 64) = 0) :
    (s.replayDo w h [] [x]).regs = s.regs
      ∧ (s.replayDo w h [] [x]).Holds pa x.n (bits h.acc.data (8 * x.off) (8 * x.n))
      ∧ ∀ a, a < pa ∨ pa + x.n ≤ a → (s.replayDo w h [] [x]).memByte a = s.memByte a := by
  have hp : (s.refreshChunk w.core x).place = .home (s.refreshed w.core e) pa := by
    unfold State.refreshChunk
    rw [hx]
  have hr' : (s.refreshed w.core e).attr.rep = false := by rw [refreshed_attr, hr]
  have hst := laneDo_store (s := s.dropHeld h.id) hp hr' hs ha hd { w with lane := h.lane } h.part h.lane h.op h.res h.id
  obtain ⟨u, hu, hb⟩ := storeHome_mem (s := s.dropHeld h.id) ho { w with lane := h.lane } h.acc.ca (h.op * 1024 + h.lane) x.n
    (bits h.acc.data (8 * x.off) (8 * x.n)) (bits h.acc.psn x.off x.n)
  have hmem : (s.replayDo w h [] [x]).mem =
      (u.putBytes pa x.n (bits h.acc.data (8 * x.off) (8 * x.n)) (ones x.n) (bits h.acc.psn x.off x.n)).mem :=
    calc
      _ = (s.redone w h [] [x]).1.mem := awaited_mem (replayDo_awaited ..)
      _ = _ := (congrArg State.mem hst).trans hb
  refine ⟨replayDo_regs .., ?_, fun a ha => ?_⟩
  · exact holds_of_mem hmem fun j hj => putBytes_holds u pa x.n _ _ j hj
  · calc
      _ = (u.putBytes pa x.n (bits h.acc.data (8 * x.off) (8 * x.n)) (ones x.n) (bits h.acc.psn x.off x.n)).memByte a :=
        memByte_of_mem hmem a
      _ = u.memByte a := putBytes_outside _ _ _ _ _ _ _ ha
      _ = (s.dropHeld h.id).memByte a := memByte_of_mem hu a

/-- A recorded access that walks and is let through (R45, R49). -/
theorem replay_effect {s s1 : State} {i : Instr} {h : Held} {xs : List (Held × List Chunk)}
    (hi : exec i s = .next (s.replay h)) (hf : (s.part h.part).life ≠ .frozen)
    (hw : ∀ k ∈ s.together h, k.report = 0 ∧ s.laneHeld k.team k.lane k.id = false)
    (hx : s.replayPlaces (s.who h.part) (s.together h) = (s1, none, false, xs)) :
    Answers i s fun t => (∀ x ∈ xs, ∀ k ∈ t.held, k.id ≠ x.1.id)
      ∧ ∀ x e pa, xs = [(h, [x])] → h.acc.kind = .store → x.place = .home e pa → e.attr.rep = false →
          (s1.refreshed (s.coreOf h.part) e).acc = true → (s1.refreshed (s.coreOf h.part) e).dirty = true →
          s1.owners.get 0 (pa / 64) = 0 →
          t.regs = s1.regs ∧ t.Holds pa x.n (bits h.acc.data (8 * x.off) (8 * x.n))
            ∧ ∀ a, a < pa ∨ pa + x.n ≤ a → t.memByte a = s1.memByte a := by
  rw [replay_performs hf hw hx] at hi
  refine ⟨_, hi, fun x hx k hk => (replayAll_held hk).2 x hx, ?_⟩
  intro x e pa he hs hp hr ha hd ho
  subst he
  have hsecs : ([(h, [x])] : List (Held × List Chunk)).flatMap (fun x => repSectors x.1.acc x.2) = [] := by
    rw [List.flatMap_singleton]
    exact repSectors_home hp hr
  rw [hsecs, replayAll_cons, replayAll_nil]
  exact replayDo_store hs hp hr ha hd ho

end Sys2Proof.Machine

open Sys2Proof Sys2Proof.Machine

/-- Settles O49: a recorded access leaves the record as it is performed, a report is written where its ring has room, FRES
closes the report of its token alone, and a recall takes back what the owner's stash holds. -/
theorem faultsAndRecalls : Obligations.FaultsAndRecalls := by
  unfold Obligations.FaultsAndRecalls
  intro s
  refine ⟨fun i h s1 xs hi hr hf hw hx _ => replay_effect (replay_exec hi hr) hf hw hx, fun id r hf hw hz => ?_,
    fun hyp vf k hk => ⟨fun hf abort => fres_other hk hf abort, fun r h0 hf hw hn => fresAbort_effect hk h0 hf hw hn,
      fun r h0 hf => fresReplay_effect hk h0 hf⟩,
    fun pa b k x ho hx => recallSector_effect ho hx rfl, fun sec b k x ho hx => recallWrite_effect ho hx⟩
  refine ⟨fun hfull => ?_, fun hroom hmay => ?_⟩
  · rw [faultRecord_exec hf]
    rcases hfull with hfull | hmay
    · rw [writeReport_full hw hz hfull, ite_self]
    · rw [hmay, if_neg Bool.false_ne_true]
  · rw [Answers, faultRecord_exec hf, hmay, if_pos rfl]
    exact ⟨_, rfl, writeReport_effect hw hz hroom⟩
end
section
/-! What keeps memory in its canonical form (log 1): the rules that the lemmas about the model's operations are put together
from. Memory is written by `State.putByte` alone; every other operation is made of operations before it and of updates of
other fields. -/

namespace Sys2Proof.Machine

/-! ## Updates, pairs and folds -/

/-- An update of any fields but memory. -/
theorem put_canonical {s : State}
    {memPoison l1 l2 owners locks undo stored commits hostQ regs regPoison lanes parts teams defs held cmds tundish
     slots arrays fills launches clusters blocks queues released cores dies fns savebase msix msgs reports trapOuts
     waiters guest tick maxClock hostClock hostAnswer stopat stopDue haltDue stopped trip tripDue mgmt evsel smpctl
     rcctl rcact recording playing rcsts endt rclog rclogs lnkst fabid pwrlim spdm issue agenda fresh nextId}
    (w : s.Canonical) :
    State.Canonical ⟨s.mem, memPoison, l1, l2, owners, locks, undo, stored, commits, hostQ, regs, regPoison, lanes, parts, teams, defs,
      held, cmds, tundish, slots, arrays, fills, launches, clusters, blocks, queues, released, cores, dies, fns,
      savebase, msix, msgs, reports, trapOuts, waiters, guest, tick, maxClock, hostClock, hostAnswer, stopat,
      stopDue, haltDue, stopped, trip, tripDue, mgmt, evsel, smpctl, rcctl, rcact, recording, playing, rcsts, endt,
      rclog, rclogs, lnkst, fabid, pwrlim, spdm, issue, agenda, fresh, nextId⟩ := w

theorem ite_canonical {c : Prop} [Decidable c] {s t : State} (hs : s.Canonical) (ht : t.Canonical) :
    (if c then s else t).Canonical := by
  split
  · exact hs
  · exact ht

/-- The state of a pair, where a definition takes the pair apart. -/
theorem canonical_fst {α : Type} {x : State × α} {t : State} {r : α} (e : x = (t, r)) (w : x.1.Canonical) :
    t.Canonical := by
  rw [e] at w
  exact w

theorem canonical_snd {α : Type} {x : α × State} {t : State} {r : α} (e : x = (r, t)) (w : x.2.Canonical) :
    t.Canonical := by
  rw [e] at w
  exact w

theorem foldl_canonical {α : Type} {f : State → α → State} (hf : ∀ s x, s.Canonical → (f s x).Canonical) {xs : List α}
    {s : State} (w : s.Canonical) : (xs.foldl f s).Canonical := canonical_foldl f hf xs s w

/-- A fold over a state and a value. -/
theorem canonical_foldl_fst {α γ : Type} {f : State × γ → α → State × γ}
    (hf : ∀ r x, r.1.Canonical → (f r x).1.Canonical) {xs : List α} {r : State × γ} (w : r.1.Canonical) :
    (xs.foldl f r).1.Canonical := by
  induction xs generalizing r with
  | nil => exact w
  | cons x xs ih => exact ih (hf r x w)

theorem eachLane_canonical {f : Nat → State → State} (hf : ∀ l s, s.Canonical → (f l s).Canonical) {ls : List Nat}
    {s : State} (w : s.Canonical) : (eachLane ls f s).Canonical :=
  foldl_canonical (fun s l => hf l s) w

/-! ## States that an operation may answer -/

/-- Whatever state an operation answers is canonical. -/
def OptCanonical (o : Option State) : Prop := ∀ t, o = some t → t.Canonical

theorem some_canonical {s : State} (w : s.Canonical) : OptCanonical (some s) := by
  rintro t ⟨⟩
  exact w

theorem none_canonical : OptCanonical none := by
  intro t h
  cases h

theorem ite_optCanonical {c : Prop} [Decidable c] {o p : Option State} (ho : OptCanonical o) (hp : OptCanonical p) :
    OptCanonical (if c then o else p) := by
  split
  · exact ho
  · exact hp

theorem getD_canonical {o : Option State} {s : State} (h : OptCanonical o) (w : s.Canonical) : (o.getD s).Canonical := by
  cases o with
  | none => exact w
  | some t => exact h t rfl

theorem bind_canonical {α : Type} {o : Option α} {f : α → Option State} (h : ∀ x, OptCanonical (f x)) :
    OptCanonical (o.bind f) := by
  cases o with
  | none => exact none_canonical
  | some x => exact h x

theorem map_canonical {α : Type} {o : Option α} {f : α → State} (h : ∀ x, (f x).Canonical) :
    OptCanonical (o.map f) := by
  cases o with
  | none => exact none_canonical
  | some x => exact some_canonical (h x)

/-- A fold of operations that may answer no state. -/
theorem foldl_bind_canonical {α : Type} {f : State → α → Option State}
    (hf : ∀ u x, u.Canonical → OptCanonical (f u x)) {xs : List α} {o : Option State} (h : OptCanonical o) :
    OptCanonical (xs.foldl (fun r x => r.bind fun u => f u x) o) := by
  induction xs generalizing o with
  | nil => exact h
  | cons x xs ih =>
    refine ih fun t ht => ?_
    obtain ⟨u, hu, ht⟩ := Option.bind_eq_some_iff.mp ht
    exact hf u x (h u hu) t ht

/-- Where an outcome is a next state, it is canonical. -/
def OutCanonical (o : Out) : Prop := ∀ t, o = .next t → t.Canonical

theorem next_canonical {s : State} (w : s.Canonical) : OutCanonical (.next s) := by
  rintro t ⟨⟩
  exact w

theorem fault_canonical {x : Fault} : OutCanonical (.fault x) := by
  intro t h
  cases h

end Sys2Proof.Machine

end

section
/-! Memory stays canonical (log 1) under what touches lanes, registers and parts: none of it writes a byte of memory. -/

namespace Sys2Proof.Machine

/-! ## Lanes, parts, registers and traps -/

theorem setPart_canonical {s : State} {p : Nat} {x : Part} (w : s.Canonical) : (s.setPart p x).Canonical :=
  put_canonical w

theorem modPart_canonical {s : State} {p : Nat} {f : Part → Part} (w : s.Canonical) : (s.modPart p f).Canonical :=
  setPart_canonical w

theorem setLane_canonical {s : State} {l : Nat} {x : Lane} (w : s.Canonical) : (s.setLane l x).Canonical :=
  put_canonical w

theorem modLane_canonical {s : State} {l : Nat} {f : Lane → Lane} (w : s.Canonical) : (s.modLane l f).Canonical :=
  setLane_canonical w

theorem setCore_canonical {s : State} {c : Nat} {x : Core} (w : s.Canonical) : (s.setCore c x).Canonical :=
  put_canonical w

theorem modCore_canonical {s : State} {c : Nat} {f : Core → Core} (w : s.Canonical) : (s.modCore c f).Canonical :=
  setCore_canonical w

theorem setDie_canonical {s : State} {d : Nat} {x : Die} (w : s.Canonical) : (s.setDie d x).Canonical :=
  put_canonical w

theorem modDie_canonical {s : State} {d : Nat} {f : Die → Die} (w : s.Canonical) : (s.modDie d f).Canonical :=
  setDie_canonical w

theorem setFn_canonical {s : State} {f : Nat} {x : Fn} (w : s.Canonical) : (s.setFn f x).Canonical := put_canonical w

theorem modFn_canonical {s : State} {f : Nat} {g : Fn → Fn} (w : s.Canonical) : (s.modFn f g).Canonical :=
  setFn_canonical w

theorem setLaunch_canonical {s : State} {l : Nat} {x : Launch} (w : s.Canonical) : (s.setLaunch l x).Canonical :=
  put_canonical w

theorem modLaunch_canonical {s : State} {l : Nat} {f : Launch → Launch} (w : s.Canonical) :
    (s.modLaunch l f).Canonical := setLaunch_canonical w

theorem setCluster_canonical {s : State} {c : Nat} {x : Cluster} (w : s.Canonical) : (s.setCluster c x).Canonical :=
  put_canonical w

theorem modCluster_canonical {s : State} {c : Nat} {f : Cluster → Cluster} (w : s.Canonical) :
    (s.modCluster c f).Canonical := setCluster_canonical w

theorem setBlock_canonical {s : State} {b : Nat} {x : Block} (w : s.Canonical) : (s.setBlock b x).Canonical :=
  put_canonical w

theorem modBlock_canonical {s : State} {b : Nat} {f : Block → Block} (w : s.Canonical) : (s.modBlock b f).Canonical :=
  setBlock_canonical w

theorem setQueue_canonical {s : State} {q : Nat} {x : Queue} (w : s.Canonical) : (s.setQueue q x).Canonical :=
  put_canonical w

theorem modQueue_canonical {s : State} {q : Nat} {f : Queue → Queue} (w : s.Canonical) : (s.modQueue q f).Canonical :=
  setQueue_canonical w

theorem takeId_canonical {s : State} (w : s.Canonical) : s.takeId.2.Canonical := put_canonical w

theorem bump_canonical {s : State} (w : s.Canonical) : s.bump.Canonical := put_canonical w

theorem cover_canonical {s : State} {t p r mask : Nat} (w : s.Canonical) : (s.cover t p r mask).Canonical :=
  put_canonical w

theorem putReg_canonical {s : State} {t p r v : Nat} (w : s.Canonical) : (s.putReg t p r v).Canonical :=
  put_canonical w

theorem wr_canonical {s : State} {t p r v : Nat} (w : s.Canonical) : (s.wr t p r v).Canonical :=
  put_canonical (cover_canonical (putReg_canonical w))

theorem wr64_canonical {s : State} {t p r v : Nat} (w : s.Canonical) : (s.wr64 t p r v).Canonical :=
  wr_canonical (wr_canonical w)

theorem orReg_canonical {s : State} {t p r v : Nat} (w : s.Canonical) : (s.orReg t p r v).Canonical := by
  unfold State.orReg
  split
  · exact w
  · exact cover_canonical (putReg_canonical w)

theorem orFlags_canonical {s : State} {t p f : Nat} (w : s.Canonical) : (s.orFlags t p f).Canonical :=
  orReg_canonical w

theorem raiseFlags_canonical {s : State} {t p f : Nat} (w : s.Canonical) : (s.raiseFlags t p f).Canonical := by
  unfold State.raiseFlags
  dsimp only
  split
  · exact w
  · split
    · exact put_canonical (orFlags_canonical w)
    · exact orFlags_canonical w

theorem wrPred_canonical {s : State} {t p n : Nat} {b : Bool} (w : s.Canonical) : (s.wrPred t p n b).Canonical := by
  unfold State.wrPred
  dsimp only
  split
  · exact w
  · exact cover_canonical (putReg_canonical w)

theorem defer_canonical {s : State} {d : Deferred} (w : s.Canonical) : (s.defer d).Canonical := put_canonical w

theorem land_canonical {s : State} {d : Deferred} (w : s.Canonical) : (s.land d).Canonical := by
  unfold State.land
  dsimp only
  refine orFlags_canonical ?_
  split
  · split
    · exact put_canonical (put_canonical w)
    · exact put_canonical (putReg_canonical (put_canonical w))
  · split
    · exact put_canonical w
    · exact putReg_canonical (put_canonical w)

theorem count_canonical {s : State} {core evt n : Nat} (w : s.Canonical) : (s.count core evt n).Canonical :=
  canonical_of_mem (count_mem ..) w

theorem serve_canonical {s : State} {p l : Nat} (w : s.Canonical) : (s.serve p l).Canonical :=
  modPart_canonical (eachLane_canonical (fun _ _ w1 => modLane_canonical w1) w)

theorem censusNext_canonical {s : State} {p cur : Nat} (w : s.Canonical) : (s.censusNext p cur).Canonical := by
  unfold State.censusNext
  dsimp only
  split
  · exact count_canonical (serve_canonical w)
  · split
    · exact count_canonical (count_canonical (serve_canonical (modPart_canonical w)))
    · split <;> exact modPart_canonical w

theorem depart_canonical {s : State} {t l wl : Nat} (w : s.Canonical) : (s.depart t l wl).Canonical :=
  modLane_canonical w

theorem fallInto_canonical {s : State} {p f : Nat} (w : s.Canonical) : (s.fallInto p f).Canonical :=
  censusNext_canonical (eachLane_canonical (fun _ _ w1 => modLane_canonical w1) w)

theorem advance_canonical {s : State} {p next : Nat} (w : s.Canonical) : (s.advance p next).Canonical := by
  unfold State.advance
  dsimp only
  split
  · exact censusNext_canonical (modPart_canonical w)
  · split
    · exact fallInto_canonical (modPart_canonical w)
    · exact modPart_canonical w

theorem releaseLane_canonical {s : State} {p l : Nat} (w : s.Canonical) : (s.releaseLane p l).Canonical := by
  unfold State.releaseLane
  dsimp only
  split
  · exact modPart_canonical (modLane_canonical w)
  · exact modLane_canonical w

theorem resumeParts_canonical {s : State} {ps : List Nat} (w : s.Canonical) : (s.resumeParts ps).Canonical := by
  unfold State.resumeParts
  dsimp only
  refine foldl_canonical (fun s1 p w1 => ?_) w
  split
  · exact censusNext_canonical w1
  · exact w1

theorem signal_canonical {s : State} {f e : Nat} (w : s.Canonical) : (s.signal f e).Canonical := by
  unfold State.signal
  dsimp only
  split
  · exact modFn_canonical w
  · split <;> exact put_canonical w

theorem signalFault_canonical {s : State} {ring : Nat} (w : s.Canonical) : (s.signalFault ring).Canonical := by
  unfold State.signalFault
  dsimp only
  split
  · exact signal_canonical w
  · split
    · exact signal_canonical (modFn_canonical w)
    · exact modFn_canonical w

theorem signalTrap_canonical {s : State} {ring : Nat} {wd : Bool} (w : s.Canonical) :
    (s.signalTrap ring wd).Canonical := by
  unfold State.signalTrap
  dsimp only
  split
  · exact signal_canonical w
  · split
    · exact signal_canonical (modFn_canonical w)
    · exact modFn_canonical w

theorem takeToken_canonical {s : State} {ring : Nat} (w : s.Canonical) : (s.takeToken ring).2.Canonical :=
  modFn_canonical w

theorem stopH_canonical {s : State} {d cls : Nat} (w : s.Canonical) : (s.stopH d cls).Canonical :=
  put_canonical (modDie_canonical w)

theorem takeTrap_canonical {s : State} {p : Nat} {x : Trap} (w : s.Canonical) : (s.takeTrap p x).Canonical := by
  unfold State.takeTrap
  dsimp only
  split
  · exact stopH_canonical (modPart_canonical w)
  · exact put_canonical (modPart_canonical (takeId_canonical (takeToken_canonical w)))

theorem resume_canonical {s : State} {p var value : Nat} (w : s.Canonical) : (s.resume p var value).Canonical := by
  unfold State.resume
  dsimp only
  split
  · exact w
  · split
    · refine advance_canonical ?_
      split
      · exact eachLane_canonical (fun _ _ w1 => wr_canonical w1) (modPart_canonical w)
      · exact modPart_canonical w
    · exact foldl_canonical (fun _ _ w1 => put_canonical w1) (modPart_canonical w)
    · exact modPart_canonical w

/-! ## Issuing -/

theorem raise_canonical {s : State} {c : Ctx} {cls info : Nat} (w : s.Canonical) : (s.raise c cls info).Canonical :=
  takeTrap_canonical w

theorem stall_canonical {s : State} {c : Ctx} {who : Wait} (w : s.Canonical) : (s.stall c who).Canonical :=
  modPart_canonical w

theorem finish_canonical {s : State} {p : Nat} (w : s.Canonical) : (s.finish p).Canonical := by
  unfold State.finish
  split
  · exact w
  · exact advance_canonical w

theorem blocked_canonical {s : State} {c : Ctx} {i : Instr} (w : s.Canonical) : OptCanonical (s.blocked c i) := by
  unfold State.blocked
  split
  · exact some_canonical (raise_canonical w)
  · split
    · exact some_canonical (stall_canonical w)
    · split
      · exact some_canonical (takeTrap_canonical w)
      · split
        · exact some_canonical (stall_canonical w)
        · exact none_canonical

theorem issued_canonical {s : State} (w : s.Canonical) : s.issued.Canonical := canonical_of_mem (issued_mem ..) w

theorem issueRaw_canonical {i : Instr} {s : State} {eff : Ctx → State → State}
    (he : ∀ c u, u.Canonical → (eff c u).Canonical) (w : s.Canonical) : OutCanonical (issueRaw i s eff) := by
  have h := he (s.bump.ctx i.hdr) s.issued (issued_canonical w)
  unfold issueRaw
  dsimp only
  split
  · exact fault_canonical
  · split
    · exact next_canonical h
    · split
      · rename_i e
        exact next_canonical (blocked_canonical w _ e)
      · exact next_canonical h

theorem issue_canonical {i : Instr} {s : State} {eff : Ctx → State → State}
    (he : ∀ c u, u.Canonical → (eff c u).Canonical) (w : s.Canonical) : OutCanonical (issue i s eff) :=
  issueRaw_canonical (fun c u hu => finish_canonical (he c u hu)) w

theorem issueLanes_canonical {i : Instr} {s : State} {eff : Ctx → Nat → State → State}
    (he : ∀ c l u, u.Canonical → (eff c l u).Canonical) (w : s.Canonical) : OutCanonical (issueLanes i s eff) :=
  issue_canonical (fun c _ hu => eachLane_canonical (he c) hu) w

theorem raiseOp_canonical {s : State} {p : Nat} {path : Path} (w : s.Canonical) : (s.raiseOp p path).2.Canonical :=
  modPart_canonical (put_canonical w)

theorem post_canonical {s : State} {t l r : Nat} {val : Option Nat} {op group : Nat} (w : s.Canonical) :
    (s.post t l r val op group).Canonical := defer_canonical (put_canonical w)

theorem postFlags_canonical {s : State} {t l r v f : Nat} (w : s.Canonical) : (s.postFlags t l r v f).Canonical :=
  defer_canonical (put_canonical w)

theorem postPred_canonical {s : State} {t l n : Nat} {b : Bool} (w : s.Canonical) :
    (s.postPred t l n b).Canonical := by
  unfold State.postPred
  dsimp only
  split
  · exact w
  · exact defer_canonical (takeId_canonical w)

/-! ## Integer and logic instructions -/

theorem lane1_canonical {i : Instr} {d a : Reg} {f : Nat → Nat} {s : State} (w : s.Canonical) :
    OutCanonical (lane1 i d a f s) := issueLanes_canonical (fun _ _ _ w1 => wr_canonical w1) w

theorem lane2_canonical {i : Instr} {d a b : Reg} {f : Nat → Nat → Nat} {s : State} (w : s.Canonical) :
    OutCanonical (lane2 i d a b f s) := issueLanes_canonical (fun _ _ _ w1 => wr_canonical w1) w

theorem lane3_canonical {i : Instr} {d a b x : Reg} {f : Nat → Nat → Nat → Nat} {s : State} (w : s.Canonical) :
    OutCanonical (lane3 i d a b x f s) := issueLanes_canonical (fun _ _ _ w1 => wr_canonical w1) w

theorem laneP_canonical {i : Instr} {p : Pred} {a b : Reg} {f : Nat → Nat → Bool} {s : State} (w : s.Canonical) :
    OutCanonical (laneP i p a b f s) := issueLanes_canonical (fun _ _ _ w1 => wrPred_canonical w1) w

/-! ## Floating point -/

theorem wrF_canonical {s : State} {t l d : Nat} {r : Nat × Nat} (w : s.Canonical) : (s.wrF t l d r).Canonical :=
  raiseFlags_canonical (wr_canonical w)

theorem laneF1_canonical {i : Instr} {d a : Reg} {f : Nat → Nat × Nat} {s : State} (w : s.Canonical) :
    OutCanonical (laneF1 i d a f s) := issueLanes_canonical (fun _ _ _ w1 => wrF_canonical w1) w

theorem laneF2_canonical {i : Instr} {d a b : Reg} {f : Nat → Nat → Nat × Nat} {s : State} (w : s.Canonical) :
    OutCanonical (laneF2 i d a b f s) := issueLanes_canonical (fun _ _ _ w1 => wrF_canonical w1) w

theorem laneF3_canonical {i : Instr} {d a b x : Reg} {f : Nat → Nat → Nat → Nat × Nat} {s : State} (w : s.Canonical) :
    OutCanonical (laneF3 i d a b x f s) := issueLanes_canonical (fun _ _ _ w1 => wrF_canonical w1) w

theorem laneD1_canonical {i : Instr} {d a : Reg} {f : Nat → Nat × Nat} {s : State} (w : s.Canonical) :
    OutCanonical (laneD1 i d a f s) := issueLanes_canonical (fun _ _ _ w1 => postFlags_canonical w1) w

theorem laneD2_canonical {i : Instr} {d a b : Reg} {f : Nat → Nat → Nat × Nat} {s : State} (w : s.Canonical) :
    OutCanonical (laneD2 i d a b f s) := issueLanes_canonical (fun _ _ _ w1 => postFlags_canonical w1) w

/-! ## Conversions -/

theorem wrGroup_canonical {s : State} {t l r : Nat} {vs : List Nat} (w : s.Canonical) :
    (s.wrGroup t l r vs).Canonical := foldl_canonical (fun _ _ w1 => wr_canonical w1) w

theorem execCvt_canonical {h : Hdr} {d a : Reg} {dst src : TyCode} {rnd : Rnd} {sat ftz : Bool} {s : State}
    (w : s.Canonical) : OutCanonical (execCvt h d a dst src rnd sat ftz s) := by
  unfold execCvt
  dsimp only
  refine issueLanes_canonical (fun c' c u w1 => ?_) w
  split
  · exact raiseFlags_canonical (wr64_canonical w1)
  · exact wrF_canonical w1

end Sys2Proof.Machine

end

section
/-! Memory stays canonical (log 1) along the way of an access: a walk, a translation, the caches and stashes, and the bytes at
a home. -/

namespace Sys2Proof.Machine

/-! ## Homes and recalls -/

theorem setHome_canonical {s : State} {sec : Nat} {h : Home} (w : s.Canonical) : (s.setHome sec h).Canonical :=
  canonical_of_mem (setHome_mem ..) w

theorem evictLine_canonical {s : State} {line : Nat} (w : s.Canonical) : (s.evictLine line).Canonical :=
  canonical_of_mem (evictLine_mem ..) w

theorem logged_canonical {s : State} {x : Logged} (w : s.Canonical) : (s.logged x).Canonical :=
  canonical_of_mem (logged_mem ..) w

theorem logPop_canonical {s : State} {x : Logged} (w : s.Canonical) : (s.logPop x).Canonical := put_canonical w

theorem outside_canonical {s : State} {tag v : Nat} (w : s.Canonical) : (s.outside tag v).1.Canonical := by
  unfold State.outside
  split
  · split
    · exact logPop_canonical w
    · exact w
  · exact logged_canonical w

theorem fillLine_canonical {s : State} {vf : Nat} {ca : Cache} {line : Nat} (w : s.Canonical) :
    (s.fillLine vf ca line).Canonical := canonical_of_mem (fillLine_mem ..) w

theorem unpoison_canonical {s : State} {pa n v m : Nat} (w : s.Canonical) : (s.unpoison pa n v m).1.Canonical :=
  canonical_of_mem (unpoison_mem ..) w

theorem setSec_canonical {s : State} {b k : Nat} {x : Sector} (w : s.Canonical) : (s.setSec b k x).Canonical :=
  canonical_of_mem (setSec_mem ..) w

theorem raiseClock_canonical {s : State} {core t : Nat} (w : s.Canonical) : (s.raiseClock core t).Canonical :=
  canonical_of_mem (raiseClock_mem ..) w

theorem settleSec_canonical {s : State} {sec : Nat} (w : s.Canonical) : (s.settleSec sec).Canonical :=
  canonical_of_mem (settleSec_mem ..) w

theorem noteStore_canonical {s : State} {num sec t : Nat} (w : s.Canonical) : (s.noteStore num sec t).Canonical :=
  canonical_of_mem (noteStore_mem ..) w

/-! ## Walks and translations -/

theorem addWalk_canonical {s : State} {d : Nat} {e : WalkEntry} (w : s.Canonical) : (s.addWalk d e).Canonical :=
  modDie_canonical w

theorem walk2_canonical {s : State} {d vf spid fpa n lv table : Nat} (w : s.Canonical) :
    (walk2 s d vf spid fpa n lv table).1.Canonical := by
  induction n generalizing s lv table with
  | zero => exact w
  | succ n ih =>
    have h := walkRead_canonical s d vf (table + 8 * lvIndex lv fpa) w
    unfold walk2
    dsimp only
    split
    · exact w
    · split
      · exact h
      · split
        · split
          · exact h
          · exact h
        · split
          · exact h
          · exact ih (addWalk_canonical h)

theorem stage2_canonical {s : State} {d vf spid fpa : Nat} (w : s.Canonical) :
    (s.stage2 d vf spid fpa).1.Canonical := by
  unfold State.stage2
  dsimp only
  split
  · exact w
  · split
    · exact walk2_canonical w
    · split
      · exact walk2_canonical w
      · exact w

theorem keepPointer_canonical {s : State} {d vf spid va lv table : Nat} (w : s.Canonical) :
    (s.keepPointer d vf spid va lv table).Canonical := by
  unfold State.keepPointer
  split
  · exact w
  · exact addWalk_canonical w

theorem walk1_canonical {s : State} {d vf spid va n lv table : Nat} (w : s.Canonical) :
    (walk1 s d vf spid va n lv table).1.Canonical := by
  induction n generalizing s lv table with
  | zero => exact w
  | succ n ih =>
    unfold walk1
    split
    · rename_i e
      exact canonical_fst e (stage2_canonical w)
    · rename_i u y e
      have hu : u.Canonical := canonical_fst e (stage2_canonical w)
      have hr := walkRead_canonical _ d vf y.pa (keepPointer_canonical (s := u) (d := d) (vf := vf) (spid := spid)
        (va := va) (lv := lv) (table := table) hu)
      split
      · exact hu
      · split
        · exact hu
        · dsimp only
          split
          · exact hr
          · split
            · split
              · exact hr
              · split
                · rename_i e
                  exact canonical_fst e (stage2_canonical hr)
                · rename_i e
                  exact canonical_fst e (stage2_canonical hr)
            · split
              · exact hr
              · exact ih hr

theorem descriptor_canonical {s : State} {d vf spid va : Nat} (w : s.Canonical) :
    (s.descriptor d vf spid va).1.Canonical := by
  unfold State.descriptor
  dsimp only
  split
  · rename_i e
    exact canonical_fst e (stage2_canonical w)
  · rename_i u _ e
    have hu : u.Canonical := canonical_fst e (stage2_canonical w)
    split
    · exact hu
    · split
      · exact hu
      · split
        · exact walkRead_canonical _ _ _ _ hu
        · split <;> exact walkRead_canonical _ _ _ _ hu

theorem walk_canonical {s : State} {d vf spid root va : Nat} (w : s.Canonical) :
    (s.walk d vf spid root va).1.Canonical := by
  unfold State.walk
  split
  · exact walk1_canonical w
  · split
    · exact walk1_canonical w
    · split
      · rename_i e1
        exact canonical_fst e1 (descriptor_canonical w)
      · rename_i e1
        exact walk1_canonical (canonical_fst e1 (descriptor_canonical w))

theorem raiseWho_canonical {s : State} {who : Who} {t : Nat} (w : s.Canonical) : (s.raiseWho who t).Canonical :=
  canonical_of_mem (raiseWho_mem ..) w

theorem guestMoves_canonical {s : State} {t : Nat} (w : s.Canonical) : (s.guestMoves t).Canonical := put_canonical w

theorem keepTlb_canonical {s : State} {core : Nat} {fetch : Bool} {e : Tlb} (w : s.Canonical) :
    (s.keepTlb core fetch e).Canonical := modCore_canonical (modDie_canonical w)

theorem inWalk_canonical {α : Type} {s : State} {x : Who} {place : Bool} {f : State → State × α}
    (hf : ∀ s, s.Canonical → (f s).1.Canonical) (w : s.Canonical) : (s.inWalk x place f).1.Canonical :=
  have h := hf _ (modDie_canonical w)
  ite_canonical (raiseWho_canonical h) h

theorem walkFor_canonical {s : State} {who : Who} {fetch : Bool} {va : Nat} (w : s.Canonical) :
    (s.walkFor who fetch va).1.Canonical := inWalk_canonical (fun _ w1 => walk_canonical w1) w

theorem translate_canonical {s : State} {who : Who} {fetch : Bool} {va : Nat} (w : s.Canonical) :
    (s.translate who fetch va).1.Canonical := by
  unfold State.translate
  dsimp only
  split
  · exact w
  · split
    · exact w
    · split
      · refine keepTlb_canonical ?_
        split
        · exact w
        · exact count_canonical w
      · split
        · rename_i e2
          refine canonical_fst e2 (walkFor_canonical ?_)
          split
          · exact w
          · exact count_canonical w
        · rename_i e2
          refine keepTlb_canonical (canonical_fst e2 (walkFor_canonical ?_))
          split
          · exact w
          · exact count_canonical w

theorem resolve_canonical {s : State} {who : Who} {kind va : Nat} (w : s.Canonical) :
    (s.resolve who kind va).1.Canonical := by
  unfold State.resolve
  split
  · exact w
  · split
    · rename_i e
      exact canonical_fst e (translate_canonical w)
    · rename_i e
      split <;> exact canonical_fst e (translate_canonical w)

theorem markLeaf_canonical {s : State} {who : Who} {m : Nat} {a : Option Nat} (w : s.Canonical) :
    (s.markLeaf who m a).Canonical := by
  unfold State.markLeaf
  dsimp only
  split
  · exact raiseWho_canonical (orEntry_canonical _ _ _ _ _ w)
  · exact w

theorem markUsed_canonical {s : State} {who : Who} {e : Tlb} {dirty : Bool} (w : s.Canonical) :
    (s.markUsed who e dirty).Canonical := by
  unfold State.markUsed
  dsimp only
  split
  · exact w
  · exact modDie_canonical (modCore_canonical (markLeaf_canonical (markLeaf_canonical w)))

theorem reportViolation_canonical {s : State} {who : Who} {x : Stop} {kind : Nat} (w : s.Canonical) :
    (s.reportViolation who x kind).Canonical := put_canonical (put_canonical w)

theorem reportFault_canonical {s : State} {who : Who} {x : Stop} {kind : Nat} (w : s.Canonical) :
    (s.reportFault who x kind).2.Canonical := by
  unfold State.reportFault
  dsimp only
  split
  · exact w
  · split
    · exact w
    · split
      · exact put_canonical w
      · exact put_canonical (takeId_canonical (takeToken_canonical w))

/-! ## Places, the L1 and stashes -/

theorem await_canonical {s : State} {report : Nat} {x : Waiter} (w : s.Canonical) : (s.await report x).Canonical := by
  unfold State.await
  split
  · exact w
  · exact put_canonical w

theorem placeStash_canonical {s : State} {who : Who} {b kind va : Nat} (w : s.Canonical) :
    (s.placeStash who b kind va).1.Canonical := by
  unfold State.placeStash
  dsimp only
  split
  · exact w
  · split
    · exact w
    · split
      · split <;> exact w
      · split
        · rename_i e
          exact canonical_fst e (translate_canonical w)
        · rename_i u _ e
          have hu : u.Canonical := canonical_fst e (translate_canonical w)
          split
          · exact hu
          · split
            · exact hu
            · split <;> exact hu

theorem placeGlobal_canonical {s : State} {who : Who} {a : Access} {va : Nat} (w : s.Canonical) :
    (s.placeGlobal who a va).1.Canonical := by
  unfold State.placeGlobal
  dsimp only
  split
  · rename_i e
    exact canonical_fst e (resolve_canonical w)
  · rename_i u _ e
    have hu : u.Canonical := canonical_fst e (resolve_canonical w)
    split
    · exact hu
    · exact hu
    · split <;> exact hu
    · split <;> exact hu

theorem placeOf_canonical {s : State} {who : Who} {t : Nat} {a : Access} {off n : Nat} (w : s.Canonical) :
    (s.placeOf who t a off n).1.Canonical := by
  unfold State.placeOf
  split
  · exact placeGlobal_canonical w
  · exact placeStash_canonical w
  · exact w
  · exact w

theorem places_canonical {s : State} {who : Who} {t : Nat} {a : Access} (w : s.Canonical) :
    (s.places who t a).1.Canonical := by
  unfold State.places
  dsimp only
  refine canonical_foldl_fst (fun r x w1 => ?_) w
  split <;> exact placeOf_canonical w1

theorem l1Put_canonical {s : State} {core : Nat} {ca : Cache} {sec : Nat} {x : Copy} (w : s.Canonical) :
    (s.l1Put core ca sec x).Canonical := canonical_of_mem (l1Put_mem ..) w

theorem l1Drop_canonical {s : State} {core sec : Nat} (w : s.Canonical) : (s.l1Drop core sec).Canonical :=
  canonical_of_mem (l1Drop_mem ..) w

theorem noteUndo_canonical {s : State} {tag pa n mask : Nat} (w : s.Canonical) :
    (s.noteUndo tag pa n mask).Canonical := canonical_of_mem (noteUndo_mem ..) w

theorem takeSec_canonical {s : State} {who : Who} {ca : Cache} {b k : Nat} {x : Sector} {own place : Bool}
    (w : s.Canonical) : (s.takeSec who ca b k x own place).Canonical := by
  unfold State.takeSec
  dsimp only
  split
  · exact setSec_canonical (put_canonical (fillLine_canonical (recall_canonical _ _ _ w)))
  · refine setSec_canonical ?_
    split
    · exact grant_canonical _ _ _ _ _ _ w
    · exact fillLine_canonical (recall_canonical _ _ _ w)

theorem fillSec_canonical {s : State} {who : Who} {ca : Cache} {b k : Nat} {e : Tlb} {own place : Bool}
    (w : s.Canonical) : (s.fillSec who ca b k e own place).Canonical :=
  takeSec_canonical (count_canonical (markUsed_canonical w))

theorem refreshSec_canonical {s : State} {who : Who} {ca : Cache} {b k : Nat} {own : Bool} (w : s.Canonical) :
    (s.refreshSec who ca b k own).Canonical := by
  unfold State.refreshSec
  dsimp only
  split
  · exact w
  · exact takeSec_canonical w

theorem readySec_canonical {s : State} {who : Who} {ca : Cache} {b k : Nat} {e : Option Tlb} {own : Bool}
    (w : s.Canonical) : (s.readySec who ca b k e own).Canonical := by
  unfold State.readySec
  split
  · exact fillSec_canonical w
  · exact refreshSec_canonical w
  · exact w

theorem quietStash_canonical {s : State} {x : Who} {ca : Cache} {b k : Nat} {e : Option Tlb} {o n : Nat}
    (w : s.Canonical) : (s.quietStash x ca b k e o n).1.Canonical := by
  unfold State.quietStash
  extract_lets u y
  have hu : u.Canonical := by
    dsimp only [u]
    split
    · exact fillSec_canonical w
    · exact recall_canonical _ _ _ w
    · exact w
  split <;> exact hu

theorem readStash_canonical {s : State} {who : Who} {ca : Cache} {b k : Nat} {e : Option Tlb} {o n : Nat}
    (w : s.Canonical) : (s.readStash who ca b k e o n).1.Canonical := by
  unfold State.readStash
  dsimp only
  refine raiseClock_canonical ?_
  split
  · exact readySec_canonical w
  · exact setSec_canonical (settleSec_canonical (readySec_canonical w))

theorem dirtySec_canonical {s : State} {who : Who} {ca : Cache} {b k : Nat} {e : Option Tlb} (w : s.Canonical) :
    (s.dirtySec who ca b k e).Canonical := by
  unfold State.dirtySec
  dsimp only
  split
  · split
    · exact readySec_canonical w
    · exact readySec_canonical (modBlock_canonical (markUsed_canonical (readySec_canonical w)))
  · exact readySec_canonical w

theorem raiseWriter_canonical {s : State} {who : Who} {t : Nat} (w : s.Canonical) :
    (s.raiseWriter who t).Canonical := by
  unfold State.raiseWriter
  split
  · exact w
  · exact raiseClock_canonical w

theorem putStash_canonical {s : State} {who : Who} {op b k o n data psn : Nat} (w : s.Canonical) :
    (s.putStash who op b k o n data psn).Canonical :=
  raiseWriter_canonical (noteStore_canonical (setSec_canonical (noteUndo_canonical w)))

theorem writeStash_canonical {s : State} {who : Who} {ca : Cache} {op b k : Nat} {e : Option Tlb} {o n data psn : Nat}
    (w : s.Canonical) : (s.writeStash who ca op b k e o n data psn).Canonical :=
  putStash_canonical (dirtySec_canonical w)

theorem atomStash_canonical {s : State} {who : Who} {op b k : Nat} {e : Option Tlb} {o : Nat} {a : Access} {n : Nat}
    (w : s.Canonical) : (s.atomStash who op b k e o a n).1.Canonical := by
  unfold State.atomStash
  dsimp only
  split
  · split
    · exact putStash_canonical (settleSec_canonical (dirtySec_canonical (readySec_canonical w)))
    · exact readStash_canonical (dirtySec_canonical (readySec_canonical w))
  · exact readStash_canonical (readySec_canonical w)

theorem readPriv_canonical {s : State} {who : Who} {b o n : Nat} (w : s.Canonical) :
    (s.readPriv who b o n).1.Canonical := raiseClock_canonical (setBlock_canonical w)

theorem writePriv_canonical {s : State} {who : Who} {b o n data psn : Nat} (w : s.Canonical) :
    (s.writePriv who b o n data psn).Canonical := raiseWriter_canonical (noteStore_canonical (setBlock_canonical w))

theorem atomPriv_canonical {s : State} {who : Who} {b o : Nat} {a : Access} {n : Nat} (w : s.Canonical) :
    (s.atomPriv who b o a n).1.Canonical := by
  unfold State.atomPriv
  dsimp only
  split
  · exact writePriv_canonical w
  · exact readPriv_canonical w

theorem readConst_canonical {s : State} {x : Who} {ca : Cache} {off n : Nat} (w : s.Canonical) :
    (s.readConst x ca off n).1.Canonical := by
  unfold State.readConst
  dsimp only
  split
  · exact l1Put_canonical w
  · dsimp only
    exact l1Put_canonical (fillLine_canonical (count_canonical w))

theorem readWindow_canonical {s : State} {pa n : Nat} (w : s.Canonical) : (s.readWindow pa n).1.Canonical := by
  unfold State.readWindow
  split
  · exact w
  · exact outside_canonical (bump_canonical w)

theorem writeWindow_canonical {s : State} {who : Who} {pa n data : Nat} (w : s.Canonical) :
    (s.writeWindow who pa n data).Canonical := by
  unfold State.writeWindow
  split
  · exact put_canonical w
  · exact w

theorem readChunk_canonical {s : State} {who : Who} {a : Access} {c : Chunk} (w : s.Canonical) :
    (s.readChunk who a c).1.Canonical := by
  unfold State.readChunk
  dsimp only
  split
  · exact readHome_canonical _ _ _ _ _ (markUsed_canonical w)
  · exact readWindow_canonical (markUsed_canonical w)
  · exact readStash_canonical w
  · exact readPriv_canonical w
  · exact readConst_canonical w

theorem writeChunk_canonical {s : State} {who : Who} {op : Nat} {a : Access} {c : Chunk} (w : s.Canonical) :
    (s.writeChunk who op a c).Canonical := by
  unfold State.writeChunk
  dsimp only
  split
  · exact storeHome_canonical _ _ _ _ _ _ _ _ (markUsed_canonical w)
  · exact writeWindow_canonical (markUsed_canonical w)
  · exact writeStash_canonical w
  · exact writePriv_canonical w
  · exact w

theorem atomChunk_canonical {s : State} {who : Who} {op : Nat} {a : Access} {c : Chunk} (w : s.Canonical) :
    (s.atomChunk who op a c).1.Canonical := by
  unfold State.atomChunk
  dsimp only
  split
  · split
    · exact atomHome_canonical _ _ _ _ _ _ _ (markUsed_canonical (markUsed_canonical w))
    · exact atomHome_canonical _ _ _ _ _ _ _ (markUsed_canonical w)
  · exact markUsed_canonical (readWindow_canonical w)
  · exact atomStash_canonical w
  · exact atomPriv_canonical w
  · exact w

theorem perform_canonical {s : State} {who : Who} {op : Nat} {a : Access} {cs : List Chunk} (w : s.Canonical) :
    (s.perform who op a cs).1.Canonical := by
  unfold State.perform
  dsimp only
  refine canonical_foldl_fst (fun r c w1 => ?_) w
  split
  · exact readChunk_canonical w1
  · exact writeChunk_canonical w1
  · exact atomChunk_canonical w1

theorem modGroup_canonical {s : State} {g : Nat} {f : Deferred → Deferred} (w : s.Canonical) :
    (s.modGroup g f).Canonical := put_canonical w

theorem fixGroup_canonical {s : State} {g : Nat} {ws : List (Nat × Bool)} (w : s.Canonical) :
    (s.fixGroup g ws).Canonical := put_canonical w

/-! ## Fetch -/

theorem fetchWord_canonical {s : State} {p off : Nat} (w : s.Canonical) : (s.fetchWord p off).1.Canonical := by
  unfold State.fetchWord
  dsimp only
  split
  · rename_i e
    exact canonical_fst e (resolve_canonical w)
  · rename_i e
    split <;> exact canonical_fst e (resolve_canonical w)

theorem trapAt_canonical {s : State} {p cls : Nat} (w : s.Canonical) : (s.trapAt p cls).Canonical :=
  takeTrap_canonical w

theorem freezePart_canonical {s : State} {p : Nat} (w : s.Canonical) : (s.freezePart p).Canonical := by
  unfold State.freezePart
  split
  · exact trapAt_canonical w
  · exact w

theorem askFill_canonical {s : State} {p off : Nat} {pf : Bool} (w : s.Canonical) :
    (s.askFill p off pf).Canonical := by
  unfold State.askFill
  dsimp only
  split
  · exact w
  · exact put_canonical (takeId_canonical w)

theorem icPut_canonical {s : State} {p va pa : Nat} {lost : Bool} (w : s.Canonical) :
    (s.icPut p va pa lost).Canonical := by
  unfold State.icPut
  dsimp only
  refine modCore_canonical ?_
  split
  · exact unpoison_canonical (quietRead_canonical _ _ _ _ _ w)
  · exact readWindow_canonical w

theorem wakeFetch_canonical {s : State} {p : Nat} (w : s.Canonical) : (s.wakeFetch p).Canonical := by
  unfold State.wakeFetch
  split
  · exact modPart_canonical w
  · exact w

theorem fillArrives_canonical {s : State} {f : Fill} (w : s.Canonical) : (s.fillArrives f).Canonical := by
  unfold State.fillArrives
  dsimp only
  split
  · exact w
  · split
    · exact put_canonical w
    · split
      · rename_i u _ e
        have hu : u.Canonical := canonical_fst e (resolve_canonical (put_canonical w))
        split
        · exact w
        · split
          · exact icPut_canonical (markUsed_canonical hu)
          · exact wakeFetch_canonical (foldl_canonical (fun _ _ w1 => askFill_canonical w1)
              (icPut_canonical (markUsed_canonical hu)))
      · rename_i u _ e
        have hu : u.Canonical := canonical_fst e (resolve_canonical (put_canonical w))
        split
        · split
          · exact w
          · exact modCore_canonical hu
        · split
          · exact trapAt_canonical (wakeFetch_canonical (reportViolation_canonical hu))
          · split
            · rename_i e1
              exact put_canonical (canonical_snd e1 (reportFault_canonical hu))
            · rename_i e1
              exact freezePart_canonical (wakeFetch_canonical (canonical_snd e1 (reportFault_canonical hu)))

end Sys2Proof.Machine

end

section
/-! Memory stays canonical (log 1) under the accesses of lanes, barriers and the commands of the engines. -/

namespace Sys2Proof.Machine

/-! ## Accesses of lanes -/

theorem trace_canonical {s : State} {core ctx vf kind info launch data : Nat} (w : s.Canonical) :
    (s.trace core ctx vf kind info launch data).Canonical := by
  unfold State.trace
  split
  · exact w
  · exact modCore_canonical w

theorem drainTrace_canonical {s : State} {core : Nat} (w : s.Canonical) : (s.drainTrace core).Canonical := by
  unfold State.drainTrace
  dsimp only
  refine foldl_canonical (fun s1 r w1 => ?_) (modCore_canonical w)
  split
  · exact w1
  · exact modDie_canonical (quietWrite_canonical _ _ _ _ w1)

theorem sample_canonical {s : State} {p : Nat} {x : Smp} (w : s.Canonical) : (s.sample p x).Canonical := by
  unfold State.sample
  dsimp only
  split
  · exact trace_canonical w
  · exact w

theorem noteFar_canonical {s before : State} {p op : Nat} (w : s.Canonical) : (s.noteFar before p op).Canonical := by
  unfold State.noteFar
  dsimp only
  split
  · exact w
  · exact modPart_canonical w

theorem sampled_canonical {s : State} {c : Ctx} {i : Instr} {old : State} {sectors : Nat} (w : s.Canonical) :
    (s.sampled c i old sectors).Canonical := by
  unfold State.sampled
  dsimp only
  split
  · exact w
  · split
    · exact modCore_canonical w
    · split
      · exact sample_canonical (modCore_canonical w)
      · exact modPart_canonical (modCore_canonical w)

theorem issueMem_canonical {i : Instr} {s : State} {sectors : Ctx → State → Nat} {eff : Ctx → State → State}
    (he : ∀ c u, u.Canonical → (eff c u).Canonical) (w : s.Canonical) : OutCanonical (issueMem i s sectors eff) :=
  issue_canonical (fun c u hu => sampled_canonical (he c u hu)) w

theorem postWords_canonical {s : State} {t l : Nat} {dest : List Nat} {ws : Option (List (Nat × Bool))} {op : Nat}
    {note : Deferred → Deferred} (w : s.Canonical) : (s.postWords t l dest ws op note).2.Canonical :=
  foldl_canonical (fun _ _ w1 => defer_canonical (put_canonical w1)) (put_canonical w)

theorem settleStores_canonical {s : State} {p : Nat} {ls : List Nat} (w : s.Canonical) :
    (s.settleStores p ls).Canonical := put_canonical w

theorem holdAccess_canonical {s : State} {c : Ctx} {r : Req} {op g report : Nat} (w : s.Canonical) :
    (s.holdAccess c r op g report).Canonical := put_canonical (put_canonical w)

theorem startCommits_canonical {s : State} {who : Who} {part lane op g seq : Nat} {a : Access} {cs : List Chunk}
    (w : s.Canonical) : (s.startCommits who part lane op g seq a cs).Canonical := by
  unfold State.startCommits
  dsimp only
  refine foldl_canonical (fun s1 x w1 => ?_) w
  split
  · exact put_canonical (takeId_canonical w1)
  · exact w1

theorem performOr_canonical {s : State} {who : Who} {part lane op g seq : Nat} {secs : List Nat} {a : Access}
    {cs : List Chunk} (w : s.Canonical) : (s.performOr who part lane op g seq secs a cs).1.Canonical := by
  unfold State.performOr
  dsimp only
  split <;> exact perform_canonical (startCommits_canonical w)

theorem laneDo_canonical {s : State} {who : Who} {part lane op g seq : Nat} {secs : List Nat} {a : Access}
    {cs : List Chunk} (w : s.Canonical) : (s.laneDo who part lane op g seq secs a cs).1.Canonical := by
  unfold State.laneDo
  refine performOr_canonical ?_
  split
  · exact settleStores_canonical w
  · exact w

theorem laneAccess_canonical {s : State} {c : Ctx} {who : Who} {op : Nat} {joined : Bool} {secs : List Nat}
    {x : Walked} (w : s.Canonical) : (s.laneAccess c who op joined secs x).1.Canonical := by
  unfold State.laneAccess
  dsimp only
  split
  · exact postWords_canonical w
  · split
    · exact holdAccess_canonical (postWords_canonical w)
    · split
      · split
        · exact postWords_canonical w
        · split
          · rename_i e1
            exact holdAccess_canonical (postWords_canonical (canonical_snd e1 (reportFault_canonical w)))
          · rename_i e1
            exact canonical_snd e1 (reportFault_canonical w)
      · split
        · exact holdAccess_canonical (postWords_canonical w)
        · split
          · exact postWords_canonical (laneDo_canonical w)
          · exact put_canonical (postWords_canonical (laneDo_canonical w))

theorem walkAll_canonical {s : State} {c : Ctx} {who : Who} {rs : List Req} (w : s.Canonical) :
    (s.walkAll c who rs).1.Canonical := by
  unfold State.walkAll
  dsimp only
  refine canonical_foldl_fst (fun r x w1 => ?_) w
  split
  · exact w1
  · exact places_canonical w1

theorem violate_canonical {s : State} {c : Ctx} {who : Who} {x : Stop} {kind : Nat} (w : s.Canonical) :
    (s.violate c who x kind).Canonical := raise_canonical (reportViolation_canonical w)

theorem accesses_canonical {s : State} {c : Ctx} {path : Path} {rs : List Req} (w : s.Canonical) :
    (s.accesses c path rs).Canonical := by
  have ho {op : Nat} {joined : List Nat} {secs : List Nat} {xs : List Walked} {u : State} (hu : u.Canonical) :
      (xs.foldl (fun (r : State × Bool) x =>
        let y := r.1.laneAccess c (s.who c.p) op (joined.contains x.1.lane) secs x
        (y.1, r.2 || y.2)) (u, false)).1.Canonical := by
    refine canonical_foldl_fst (fun r x hr => ?_) hu
    exact laneAccess_canonical hr
  have hw : (s.walkAll c (s.who c.p) rs).1.Canonical := walkAll_canonical w
  unfold State.accesses
  dsimp only
  split
  · exact w
  · split
    · exact raise_canonical w
    · split
      · exact violate_canonical hw
      · split
        · exact stall_canonical w
        · split
          · exact raise_canonical (ho (raiseOp_canonical hw))
          · exact ho (raiseOp_canonical hw)

theorem countReplay_canonical {s : State} {h : Held} (w : s.Canonical) : (s.countReplay h).Canonical := by
  unfold State.countReplay
  exact modPart_canonical (count_canonical w)

theorem dropHeld_canonical {s : State} {id : Nat} (w : s.Canonical) : (s.dropHeld id).Canonical := put_canonical w

theorem wakeReplay_canonical {s : State} {p : Nat} (w : s.Canonical) : (s.wakeReplay p).Canonical := by
  unfold State.wakeReplay
  split
  · exact modPart_canonical w
  · exact w

theorem replayStops_canonical {s : State} {who : Who} {h : Held} {x : Stop} (w : s.Canonical) :
    (s.replayStops who h x).Canonical := by
  unfold State.replayStops
  dsimp only
  split
  · exact wakeReplay_canonical (fixGroup_canonical (dropHeld_canonical w))
  · split
    · exact freezePart_canonical (reportViolation_canonical (dropHeld_canonical w))
    · split
      · rename_i e
        exact put_canonical (canonical_snd e (reportFault_canonical w))
      · rename_i e
        exact freezePart_canonical (dropHeld_canonical (canonical_snd e (reportFault_canonical w)))

theorem replayDo_canonical {s : State} {who : Who} {h : Held} {secs : List Nat} {cs : List Chunk} (w : s.Canonical) :
    (s.replayDo who h secs cs).Canonical := by
  unfold State.replayDo
  dsimp only
  refine wakeReplay_canonical (countReplay_canonical (noteFar_canonical ?_))
  split
  · exact modGroup_canonical (fixGroup_canonical (laneDo_canonical (dropHeld_canonical w)))
  · exact laneDo_canonical (dropHeld_canonical w)

theorem replayPlaces_canonical {s : State} {who : Who} {hs : List Held} (w : s.Canonical) :
    (s.replayPlaces who hs).1.Canonical := by
  unfold State.replayPlaces
  refine canonical_foldl_fst (fun r h w1 => ?_) w
  split
  · exact w1
  · split
    · rename_i e
      exact canonical_fst e (places_canonical w1)
    · rename_i e
      exact canonical_fst e (places_canonical w1)

theorem replay_canonical {s : State} {h : Held} (w : s.Canonical) : (s.replay h).Canonical := by
  unfold State.replay
  dsimp only
  split
  · exact w
  · split
    · rename_i e
      exact replayStops_canonical (canonical_fst e (replayPlaces_canonical w))
    · rename_i e
      split
      · exact w
      · exact foldl_canonical (fun _ _ w1 => replayDo_canonical w1) (canonical_fst e (replayPlaces_canonical w))

theorem takeLock_canonical {s : State} {k : Commit} (w : s.Canonical) : (s.takeLock k).Canonical := put_canonical w

theorem lockCommit_canonical {s : State} {k : Commit} (w : s.Canonical) : (s.lockCommit k).Canonical := by
  unfold State.lockCommit
  dsimp only
  split
  · exact w
  · exact takeLock_canonical w

theorem unlockCommits_canonical {s : State} {which : Commit → Bool} (w : s.Canonical) :
    (s.unlockCommits which).Canonical := put_canonical w

theorem markCommit_canonical {s : State} {k : Commit} (w : s.Canonical) : (s.markCommit k).Canonical := by
  unfold State.markCommit
  split
  · exact markUsed_canonical w
  · exact w

theorem closeCommit_canonical {s : State} {k : Commit} {t : Nat} (w : s.Canonical) : (s.closeCommit k t).Canonical :=
  put_canonical w

theorem fixCommit_canonical {s : State} {k : Commit} {v m : Nat} (w : s.Canonical) : (s.fixCommit k v m).Canonical :=
  modGroup_canonical (fixGroup_canonical w)

theorem updateOne_canonical {s : State} {k : Commit} (w : s.Canonical) : (s.updateOne k).Canonical := by
  unfold State.updateOne
  extract_lets s1 old t s2 who num s3 own s4 s5
  have h2 : s2.Canonical :=
    foldl_canonical (fun _ _ hu => settleSec_canonical (fillLine_canonical hu)) (markCommit_canonical w)
  have h3 : s3.Canonical := foldl_canonical (fun _ _ hu => noteStore_canonical hu) (putCopies_canonical _ _ _ _ h2)
  have h4 : s4.Canonical := by
    dsimp only [s4]
    split
    · exact l1Drop_canonical h3
    · exact l1Put_canonical h3
    · exact h3
  have h5 : s5.Canonical := raiseWho_canonical (closeCommit_canonical h4)
  exact ite_canonical (fixCommit_canonical h5) h5

theorem updatePlain_canonical {s : State} {k : Commit} (w : s.Canonical) : (s.updatePlain k).Canonical := by
  unfold State.updatePlain
  dsimp only
  split
  · refine fixCommit_canonical (atomHome_canonical _ _ _ _ _ _ _ ?_)
    split
    · exact put_canonical (markUsed_canonical w)
    · exact put_canonical w
  · refine storeHome_canonical _ _ _ _ _ _ _ _ ?_
    split
    · exact put_canonical (markUsed_canonical w)
    · exact put_canonical w

theorem updateCommit_canonical {s : State} {k : Commit} (w : s.Canonical) : (s.updateCommit k).Canonical := by
  unfold State.updateCommit
  dsimp only
  split
  · exact w
  · split
    · split
      · refine foldl_canonical (fun s1 x3 w1 => ?_) w
        split
        · exact updatePlain_canonical w1
        · exact updateOne_canonical w1
      · exact guestMoves_canonical w
    · refine foldl_canonical (fun s1 x3 w1 => ?_) w
      split
      · exact updatePlain_canonical w1
      · exact updateOne_canonical w1

theorem endCommits_canonical {s : State} {gone : Nat → Bool} (w : s.Canonical) : (s.endCommits gone).Canonical := by
  unfold State.endCommits
  dsimp only
  refine put_canonical (foldl_canonical (fun s1 k w1 => ?_) w)
  split
  · exact updateCommit_canonical w1
  · exact w1

/-! ## Memory instructions -/

theorem laneMem_canonical {i : Instr} {path : Path} {rs : Ctx → State → List Req} {s : State} (w : s.Canonical) :
    OutCanonical (laneMem i path rs s) := issueMem_canonical (fun _ _ w1 => accesses_canonical w1) w

theorem execLdft_canonical {h : Hdr} {d a b : Reg} {t16 : Bool} {cnt : FtCount} {s : State} (w : s.Canonical) :
    OutCanonical (execLdft h d a b t16 cnt s) := by
  unfold execLdft
  dsimp only
  refine issueMem_canonical (fun c' u w1 => ?_) w
  split
  · exact raise_canonical w1
  · exact accesses_canonical w1

theorem smap_canonical {s : State} {b base len win stash : Nat} (w : s.Canonical) :
    (s.smap b base len win stash).Canonical := modBlock_canonical w

theorem dropSec_canonical {s : State} {b k : Nat} (w : s.Canonical) : (s.dropSec b k).Canonical := by
  unfold State.dropSec
  dsimp only
  split
  · exact setHome_canonical (put_canonical (setSec_canonical w))
  · exact setSec_canonical w

theorem cleanSec_canonical {s : State} {b k : Nat} (w : s.Canonical) : (s.cleanSec b k).Canonical := by
  unfold State.cleanSec
  dsimp only
  split
  · exact setSec_canonical (writeBack_canonical _ _ w)
  · exact w

theorem retireSec_canonical {s : State} {b k : Nat} (w : s.Canonical) : (s.retireSec b k).Canonical :=
  dropSec_canonical (cleanSec_canonical w)

theorem discard_canonical {s : State} {who : Who} {b : Nat} {ks : List Nat} (w : s.Canonical) :
    (s.discard who b ks).Canonical := by
  unfold State.discard
  dsimp only
  split
  · exact foldl_canonical (fun _ _ w1 => dropSec_canonical w1) w
  · exact raiseClock_canonical (foldl_canonical (fun _ _ w1 => noteStore_canonical (setHome_canonical w1))
      (foldl_canonical (fun _ _ w1 => dropSec_canonical w1) w))

theorem status_canonical {s : State} {c : Ctx} {d v : Nat} (w : s.Canonical) : (s.status c d v).Canonical :=
  eachLane_canonical (fun _ _ w1 => wr_canonical w1) w

theorem execSmap_canonical {h : Hdr} {d a b x : Reg} {s : State} (w : s.Canonical) :
    OutCanonical (execSmap h d a b x s) := by
  unfold execSmap
  dsimp only
  refine issueMem_canonical (fun c' u w1 => ?_) w
  split
  · exact w1
  · refine status_canonical ?_
    split
    · exact smap_canonical w1
    · exact w1

theorem execSunmap_canonical {h : Hdr} {d a : Reg} {s : State} (w : s.Canonical) :
    OutCanonical (execSunmap h d a s) := by
  unfold execSunmap
  dsimp only
  refine issueMem_canonical (fun c' u w1 => ?_) w
  split
  · exact w1
  · split
    · exact status_canonical w1
    · exact status_canonical (modBlock_canonical (foldl_canonical (fun _ _ w2 => retireSec_canonical w2) w1))

theorem bringCopy_canonical {s : State} {who : Who} {sec : Nat} (w : s.Canonical) :
    (s.bringCopy who sec).Canonical := by
  unfold State.bringCopy
  dsimp only
  refine l1Put_canonical (grant_canonical _ _ _ _ _ _ ?_)
  split
  · exact w
  · exact count_canonical w

theorem prefetch_canonical {s : State} {p : Nat} {var : PfVar} {ea : Nat} (w : s.Canonical) :
    (s.prefetch p var ea).Canonical := by
  unfold State.prefetch
  dsimp only
  split
  · split
    · rename_i e
      split
      · exact await_canonical w
      · exact fillSec_canonical (canonical_fst e (placeStash_canonical w))
    · rename_i e
      exact canonical_fst e (placeStash_canonical w)
    · rename_i e
      split
      · exact await_canonical w
      · exact modCore_canonical (canonical_fst e (placeStash_canonical w))
  · split
    · rename_i e
      split
      · exact await_canonical w
      · exact modCore_canonical (canonical_fst e (resolve_canonical w))
    · rename_i u _ e
      have hu : u.Canonical := canonical_fst e (resolve_canonical w)
      split
      · exact modCore_canonical hu
      · split
        · exact await_canonical w
        · split
          · exact fillLine_canonical (markUsed_canonical hu)
          · exact bringCopy_canonical (markUsed_canonical hu)

theorem prefetchAgain_canonical {s : State} {p : Nat} {var : PfVar} {ea : Nat} (w : s.Canonical) :
    (s.prefetchAgain p var ea).Canonical := by
  unfold State.prefetchAgain
  split
  · exact prefetch_canonical w
  · exact w

theorem execFenceSys_canonical {h : Hdr} {s : State} (w : s.Canonical) : OutCanonical (execFenceSys h s) := by
  unfold execFenceSys
  refine issueMem_canonical (fun c' u w1 => ?_) w
  split
  · exact modPart_canonical w1
  · exact settleStores_canonical w1

/-! ## Barriers -/

theorem setBar_canonical {s : State} {k : BarKey} {b : Barrier} (w : s.Canonical) : (s.setBar k b).Canonical := by
  unfold State.setBar
  split
  · exact modCluster_canonical w
  · exact modBlock_canonical w

theorem releaseBar_canonical {s : State} {k : BarKey} (w : s.Canonical) : (s.releaseBar k).Canonical := by
  unfold State.releaseBar
  dsimp only
  refine foldl_canonical (fun s1 x w1 => ?_) w
  split
  · split
    · exact releaseLane_canonical (raiseClock_canonical w1)
    · exact w1
  · exact w1

theorem dropPend_canonical {s : State} {k : BarKey} (w : s.Canonical) : (s.dropPend k).Canonical := put_canonical w

theorem completeBar_canonical {s : State} {k : BarKey} (w : s.Canonical) : (s.completeBar k).Canonical := by
  unfold State.completeBar
  dsimp only
  refine releaseBar_canonical (setBar_canonical (foldl_canonical (fun s1 x w1 => ?_) (dropPend_canonical w)))
  split
  · exact setLane_canonical w1
  · exact w1

theorem checkBar_canonical {s : State} {k : BarKey} (w : s.Canonical) : (s.checkBar k).Canonical := by
  unfold State.checkBar
  dsimp only
  split
  · exact completeBar_canonical w
  · exact w

theorem countArrival_canonical {s : State} {k : BarKey} {time : Nat} {command : Bool} (w : s.Canonical) :
    (s.countArrival k time command).Canonical := by
  unfold State.countArrival
  dsimp only
  split
  · exact completeBar_canonical (setBar_canonical w)
  · exact setBar_canonical w

theorem giveToken_canonical {s : State} {x : ArrStep} {t l tok : Nat} (w : s.Canonical) :
    (s.giveToken x t l tok).Canonical := by
  unfold State.giveToken
  split
  · exact modLane_canonical w
  · split
    · exact fixGroup_canonical w
    · exact w

theorem arrive_canonical {s : State} {x : ArrStep} (w : s.Canonical) : (s.arrive x).Canonical := by
  unfold State.arrive
  dsimp only
  split
  · exact checkBar_canonical (setBar_canonical w)
  · exact countArrival_canonical w
  · exact releaseBar_canonical (foldl_canonical (fun _ _ w1 => giveToken_canonical w1)
      (foldl_canonical (fun _ _ w1 => countArrival_canonical (giveToken_canonical (modLane_canonical w1))) w))

theorem arrivalStep_canonical {s : State} {d k : Nat} (w : s.Canonical) : (s.arrivalStep d k).Canonical := by
  unfold State.arrivalStep
  split
  · exact w
  · split
    · exact arrive_canonical (modDie_canonical w)
    · exact w

theorem sendArrival_canonical {s : State} {d : Nat} {x : ArrStep} (w : s.Canonical) : (s.sendArrival d x).Canonical :=
  modDie_canonical w

theorem lowerBar_canonical {s : State} {k : BarKey} {arrived : Bool} (w : s.Canonical) :
    (s.lowerBar k arrived).Canonical := by
  unfold State.lowerBar
  dsimp only
  split
  · exact w
  · split
    · exact setBar_canonical w
    · exact checkBar_canonical (setBar_canonical w)

theorem laneExit_canonical {s : State} {t l : Nat} (w : s.Canonical) : (s.laneExit t l).Canonical := by
  unfold State.laneExit
  dsimp only
  split
  · exact foldl_canonical (fun _ _ w1 => lowerBar_canonical w1) (modLane_canonical w)
  · exact modLane_canonical w

theorem leave_canonical {s : State} {t l wl : Nat} (w : s.Canonical) : (s.leave t l wl).Canonical := by
  unfold State.leave
  dsimp only
  split
  · exact laneExit_canonical (depart_canonical w)
  · exact depart_canonical w

theorem execBar_canonical {h : Hdr} {b : BarRef} {lb : Lbl} {s : State} (w : s.Canonical) :
    OutCanonical (execBar h b lb s) := by
  unfold execBar
  dsimp only
  refine issueMem_canonical (fun c' u w1 => ?_) w
  split
  · exact w1
  · exact sendArrival_canonical (eachLane_canonical (fun _ _ w2 => modLane_canonical (depart_canonical w2)) w1)

theorem execBarr_canonical {h : Hdr} {d : Reg} {b : BarRef} {s : State} (w : s.Canonical) :
    OutCanonical (execBarr h d b s) := by
  unfold execBarr
  dsimp only
  refine issueMem_canonical (fun c' u w1 => ?_) w
  split
  · exact w1
  · exact sendArrival_canonical (canonical_foldl_fst (fun _ _ w2 => postWords_canonical w2) w1)

theorem execBarw_canonical {h : Hdr} {a : Reg} {b : BarRef} {lb : Lbl} {s : State} (w : s.Canonical) :
    OutCanonical (execBarw h a b lb s) := by
  unfold execBarw
  dsimp only
  refine issueMem_canonical (fun c' u w1 => eachLane_canonical (fun l s1 w2 => ?_) w1) w
  split
  · exact modLane_canonical (depart_canonical w2)
  · exact raiseClock_canonical (depart_canonical w2)

theorem execBarinit_canonical {h : Hdr} {a : Reg} {b : BarRef} {s : State} (w : s.Canonical) :
    OutCanonical (execBarinit h a b s) := by
  unfold execBarinit
  dsimp only
  refine issueMem_canonical (fun c' u w1 => ?_) w
  split
  · exact w1
  · exact sendArrival_canonical w1

/-! ## Engine commands -/

theorem arriveOp_canonical {s : State} {p op : Nat} (w : s.Canonical) : (s.arriveOp p op).Canonical := by
  unfold State.arriveOp
  dsimp only
  split
  · exact w
  · split
    · exact sample_canonical (modPart_canonical (put_canonical w))
    · exact modPart_canonical (put_canonical w)

theorem writeRep_canonical {s : State} {who : Who} {by' : Writer} {part : Nat} {e : Tlb} {pa n data psn : Nat}
    {ca : Cache} (w : s.Canonical) : (s.writeRep who by' part e pa n data psn ca).1.Canonical := by
  unfold State.writeRep
  dsimp only
  split
  · split
    · exact put_canonical w
    · exact w
  · exact put_canonical (takeId_canonical w)

theorem writePage_canonical {s : State} {who : Who} {by' : Writer} {part : Nat} {e : Tlb} {clock pa n data psn : Nat}
    {ca : Cache} (w : s.Canonical) : (s.writePage who by' part e clock pa n data psn ca).1.Canonical := by
  unfold State.writePage
  dsimp only
  split
  · exact w
  · split
    · exact writeRep_canonical w
    · split
      · exact w
      · exact homeWrite_canonical _ _ _ _ _ _ _ _ (markUsed_canonical w)

theorem agentPiece_canonical {s : State} {who : Who} {va n : Nat} (w : s.Canonical) :
    (s.agentPiece who va n).1.Canonical := by
  unfold State.agentPiece
  dsimp only
  split
  · rename_i e
    exact canonical_fst e (resolve_canonical w)
  · rename_i u _ e
    have hu : u.Canonical := canonical_fst e (resolve_canonical w)
    split
    · exact hu
    · split
      · exact readWindow_canonical (markUsed_canonical hu)
      · split
        · exact hu
        · exact unpoison_canonical (homeRead_canonical _ _ _ _ _ _ (markUsed_canonical hu))

theorem agentRead_canonical {s : State} {who : Who} {va n : Nat} (w : s.Canonical) :
    (s.agentRead who va n).1.Canonical := by
  unfold State.agentRead
  split
  · exact w
  · refine canonical_foldl_fst (fun r x1 w1 => ?_) w
    split
    · split
      · rename_i e1
        exact canonical_fst e1 (agentPiece_canonical w1)
      · rename_i e1
        exact canonical_fst e1 (agentPiece_canonical w1)
    · exact w1

theorem agentPut_canonical {s : State} {who : Who} {clock va n data : Nat} (w : s.Canonical) :
    (s.agentPut who clock va n data).1.Canonical := by
  unfold State.agentPut
  dsimp only
  split
  · rename_i e
    exact canonical_fst e (resolve_canonical w)
  · rename_i u _ e
    have hu : u.Canonical := canonical_fst e (resolve_canonical w)
    split
    · split
      · exact hu
      · exact writeWindow_canonical (markUsed_canonical hu)
    · exact writePage_canonical hu

theorem agentWriteAt_canonical {s : State} {who : Who} {clock va n data : Nat} (w : s.Canonical) :
    (s.agentWriteAt who clock va n data).1.Canonical := by
  unfold State.agentWriteAt
  refine canonical_foldl_fst (fun r x w1 => ?_) w
  split
  · exact agentPut_canonical w1
  · exact w1

theorem agentWrite_canonical {s : State} {who : Who} {va n data : Nat} (w : s.Canonical) :
    (s.agentWrite who va n data).1.Canonical := agentWriteAt_canonical w

theorem oldByte_canonical {s : State} {e : Eng} {pa : Nat} {b : Byte} (w : s.Canonical) :
    (s.oldByte e pa b).1.Canonical := by
  unfold State.oldByte
  dsimp only
  split
  · exact w
  · exact put_canonical (bump_canonical w)

theorem engRead_canonical {s : State} {e : Eng} {sp : Space} {base off : Nat} (w : s.Canonical) :
    (s.engRead e sp base off).1.Canonical := by
  unfold State.engRead
  dsimp only
  split
  · split
    · rename_i e1
      exact canonical_fst e1 (resolve_canonical w)
    · rename_i u _ e1
      have hu : u.Canonical := canonical_fst e1 (resolve_canonical w)
      split
      · exact hu
      · split
        · exact hu
        · split
          · exact readWindow_canonical (markUsed_canonical hu)
          · split
            · exact hu
            · exact oldByte_canonical (homeRead_canonical _ _ _ _ _ _ (markUsed_canonical hu))
  · split
    · rename_i e1
      exact canonical_fst e1 (placeStash_canonical w)
    · rename_i u _ _ _ e1
      have hu : u.Canonical := canonical_fst e1 (placeStash_canonical w)
      split
      · split
        · exact hu
        · exact oldByte_canonical (readStash_canonical hu)
      · split
        · exact hu
        · exact oldByte_canonical (quietStash_canonical hu)
    · rename_i e1
      exact canonical_fst e1 (placeStash_canonical w)
  · split
    · split
      · exact readPriv_canonical (n := 1) w
      · exact w
    · exact w
    · exact w
  · split
    · exact fillLine_canonical w
    · exact w
    · exact w

theorem engWrite_canonical {s : State} {e : Eng} {sp : Space} {base off n data psn : Nat} (w : s.Canonical) :
    (s.engWrite e sp base off n data psn).1.Canonical := by
  unfold State.engWrite
  dsimp only
  split
  · split
    · rename_i e1
      exact canonical_fst e1 (resolve_canonical w)
    · rename_i u _ e1
      have hu : u.Canonical := canonical_fst e1 (resolve_canonical w)
      split
      · exact hu
      · split
        · split
          · exact hu
          · exact writeWindow_canonical (markUsed_canonical hu)
        · exact writePage_canonical hu
  · split
    · rename_i e1
      exact canonical_fst e1 (placeStash_canonical w)
    · rename_i u _ _ _ e1
      have hu : u.Canonical := canonical_fst e1 (placeStash_canonical w)
      split
      · exact hu
      · exact writeStash_canonical hu
    · rename_i e1
      exact canonical_fst e1 (placeStash_canonical w)
  · split
    · exact writePriv_canonical w
    · exact w
    · exact w
  · exact w

theorem engReadN_canonical {s : State} {e : Eng} {sp : Space} {base off n : Nat} (w : s.Canonical) :
    (s.engReadN e sp base off n).1.Canonical := by
  unfold State.engReadN
  refine canonical_foldl_fst (fun r i w1 => ?_) w
  split
  · split
    · rename_i e2
      exact canonical_fst e2 (engRead_canonical w1)
    · rename_i e2
      exact canonical_fst e2 (engRead_canonical w1)
    · rename_i e2
      exact canonical_fst e2 (engRead_canonical w1)
  · exact w1

theorem modCmd_canonical {s : State} {id : Nat} {f : Cmd → Cmd} (w : s.Canonical) : (s.modCmd id f).Canonical :=
  put_canonical w

theorem queueRecord_canonical {s : State} {p : Nat} (w : s.Canonical) : (s.queueRecord p).Canonical := by
  unfold State.queueRecord
  dsimp only
  split
  · exact w
  · split
    · exact stopH_canonical w
    · exact put_canonical (takeId_canonical (modPart_canonical (takeToken_canonical w)))

theorem freezeQueue_canonical {s : State} {p : Nat} {eng : Path} {from' : Nat} (w : s.Canonical) :
    (s.freezeQueue p eng from').Canonical := by
  unfold State.freezeQueue
  dsimp only
  split
  · exact queueRecord_canonical (put_canonical (modPart_canonical w))
  · exact put_canonical (modPart_canonical w)

theorem unfile_canonical {s : State} {rs : List Nat} (w : s.Canonical) : (s.unfile rs).Canonical := put_canonical w

theorem cmdViolates_canonical {s : State} {k : Cmd} {x : Stop} {kind : Nat} (w : s.Canonical) :
    (s.cmdViolates k x kind).Canonical := by
  unfold State.cmdViolates
  dsimp only
  split
  · exact modCmd_canonical (reportViolation_canonical (unfile_canonical (modCmd_canonical w)))
  · exact freezeQueue_canonical (reportViolation_canonical (unfile_canonical (modCmd_canonical w)))

theorem cmdStop_canonical {s : State} {k : Cmd} {x : Stop} {kind va : Nat} (w : s.Canonical) :
    (s.cmdStop k x kind va).Canonical := by
  unfold State.cmdStop
  split
  · exact cmdViolates_canonical w
  · split
    · exact w
    · split
      · exact cmdViolates_canonical w
      · split
        · rename_i e1
          exact modCmd_canonical (canonical_snd e1 (reportFault_canonical w))
        · rename_i u e1
          have hu : u.Canonical := canonical_snd e1 (reportFault_canonical w)
          split
          · exact modCmd_canonical hu
          · exact freezeQueue_canonical hu

theorem cmdChecked_canonical {s : State} {id : Nat} (w : s.Canonical) : (s.cmdChecked id).Canonical := by
  unfold State.cmdChecked
  split
  · split
    · exact w
    · split
      · exact cmdViolates_canonical w
      · exact w
  · exact w

theorem ladleRow_canonical {s : State} {k : Cmd} {sp : Space × Space} {rows : List Row} {runs : List Run}
    {buf : List (Nat × Nat × Nat × Byte × Bool)} {i : Nat} (w : s.Canonical) :
    (s.ladleRow k sp rows runs buf i).Canonical := by
  unfold State.ladleRow
  dsimp only
  split
  · exact w
  · split
    · exact w
    · split
      · rename_i e1
        exact cmdChecked_canonical (modCmd_canonical (unpoison_canonical (canonical_fst e1 (engReadN_canonical w))))
      · rename_i e1
        exact cmdStop_canonical (canonical_fst e1 (engReadN_canonical w))
      · rename_i e1
        exact canonical_fst e1 (engReadN_canonical w)

theorem ladleRead_canonical {s : State} {k : Cmd} {sp : Space × Space} {rows : List Row} {runs : List Run}
    {buf : List (Nat × Nat × Nat × Byte × Bool)} {i : Nat} (w : s.Canonical) :
    (s.ladleRead k sp rows runs buf i).Canonical := by
  unfold State.ladleRead
  dsimp only
  split
  · exact w
  · split
    · exact w
    · split
      · rename_i e1
        exact modCmd_canonical (canonical_fst e1 (engRead_canonical w))
      · rename_i e1
        exact cmdStop_canonical (canonical_fst e1 (engRead_canonical w))
      · rename_i e1
        exact canonical_fst e1 (engRead_canonical w)

theorem ladleCount_canonical {s : State} {core : Nat} (w : s.Canonical) : (s.ladleCount core).Canonical :=
  count_canonical (modCore_canonical w)

theorem ladleWrite_canonical {s : State} {k : Cmd} {sp : Space × Space} {rows : List Row} {runs : List Run}
    {buf : List (Nat × Nat × Nat × Byte × Bool)} {i : Nat} (w : s.Canonical) :
    (s.ladleWrite k sp rows runs buf i).Canonical := by
  unfold State.ladleWrite
  dsimp only
  split
  · exact w
  · split
    · exact w
    · split
      · rename_i e1
        exact modCmd_canonical (ladleCount_canonical (canonical_fst e1 (engWrite_canonical w)))
      · rename_i e1
        exact cmdStop_canonical (canonical_fst e1 (engWrite_canonical w))
      · rename_i e1
        exact canonical_fst e1 (engWrite_canonical w)

theorem gatherOne_canonical {s : State} {k : Cmd} {stash : Bool} {sz : Sz} {els : List (Nat × Nat × Nat)} {i : Nat}
    (w : s.Canonical) : (s.gatherOne k stash sz els i).Canonical := by
  unfold State.gatherOne
  dsimp only
  split
  · exact w
  · split
    · exact w
    · split
      · rename_i e1
        exact modCmd_canonical (modGroup_canonical (fixGroup_canonical (canonical_fst e1 (engReadN_canonical w))))
      · rename_i e1
        exact cmdStop_canonical (canonical_fst e1 (engReadN_canonical w))
      · rename_i e1
        exact canonical_fst e1 (engReadN_canonical w)

theorem scatterOne_canonical {s : State} {k : Cmd} {stash : Bool} {els : List (Nat × Byte × Bool)} {wrote : List Nat}
    {i : Nat} (w : s.Canonical) : (s.scatterOne k stash els wrote i).Canonical := by
  unfold State.scatterOne
  dsimp only
  split
  · exact w
  · split
    · exact w
    · split
      · split
        · exact modCmd_canonical w
        · split
          · rename_i e2
            exact modCmd_canonical (canonical_fst e2 (engWrite_canonical w))
          · rename_i e2
            exact cmdStop_canonical (canonical_fst e2 (engWrite_canonical w))
          · rename_i e2
            exact canonical_fst e2 (engWrite_canonical w)
      · split
        · exact modCmd_canonical w
        · split
          · rename_i e1
            exact modCmd_canonical (canonical_fst e1 (engWrite_canonical w))
          · rename_i e1
            exact cmdStop_canonical (canonical_fst e1 (engWrite_canonical w))
          · rename_i e1
            exact canonical_fst e1 (engWrite_canonical w)

theorem tcutOne_canonical {s : State} {k : Cmd} {stash : Bool} {ws : List (Nat × Nat)} {i : Nat} (w : s.Canonical) :
    (s.tcutOne k stash ws i).Canonical := by
  unfold State.tcutOne
  split
  · exact w
  · split
    · exact w
    · split
      · rename_i e1
        exact modCmd_canonical (canonical_fst e1 (engWrite_canonical w))
      · rename_i e1
        exact cmdStop_canonical (canonical_fst e1 (engWrite_canonical w))
      · rename_i e1
        exact canonical_fst e1 (engWrite_canonical w)

theorem cmdPiece_canonical {s : State} {id kind i : Nat} (w : s.Canonical) : (s.cmdPiece id kind i).Canonical := by
  unfold State.cmdPiece
  split
  · exact w
  · split
    · exact w
    · split
      · exact ladleRow_canonical w
      · exact ladleRead_canonical w
      · exact ladleWrite_canonical w
      · exact noteFar_canonical (gatherOne_canonical w)
      · exact noteFar_canonical (scatterOne_canonical w)
      · exact tcutOne_canonical w

theorem enginePiece_canonical {s : State} {id k : Nat} (w : s.Canonical) : (s.enginePiece id k).Canonical :=
  cmdPiece_canonical w

theorem cmdSweep_canonical {s : State} {id kind : Nat} (w : s.Canonical) : (s.cmdSweep id kind).Canonical :=
  canonical_foldl_fst (fun _ _ w1 => cmdPiece_canonical w1) w

theorem scatterSweep_canonical {s : State} {id : Nat} (w : s.Canonical) : (s.scatterSweep id).Canonical := by
  unfold State.scatterSweep
  induction List.range (s.piecesLeft id 2) with
  | nil => exact w
  | cons i l ih => exact cmdPiece_canonical ih

theorem cmdRun_canonical {s : State} {id : Nat} (w : s.Canonical) : (s.cmdRun id).Canonical := by
  unfold State.cmdRun
  split
  · exact scatterSweep_canonical w
  · exact cmdSweep_canonical (cmdSweep_canonical (cmdSweep_canonical w))

theorem dropCmd_canonical {s : State} {id : Nat} (w : s.Canonical) : (s.dropCmd id).Canonical := put_canonical w

theorem cmdBarrier_canonical {s : State} {k : Cmd} (w : s.Canonical) : (s.cmdBarrier k).Canonical := by
  unfold State.cmdBarrier
  split
  · exact w
  · exact arrive_canonical w

theorem cmdComplete_canonical {s : State} {k : Cmd} (w : s.Canonical) : (s.cmdComplete k).Canonical := by
  unfold State.cmdComplete
  dsimp only
  refine arriveOp_canonical (cmdBarrier_canonical (dropCmd_canonical ?_))
  split
  · exact raiseClock_canonical w
  · exact w

theorem pendBar_canonical {s : State} {t : Nat} {b : Option BarRef} (w : s.Canonical) : (s.pendBar t b).Canonical := by
  unfold State.pendBar
  dsimp only
  split
  · exact w
  · split
    · exact w
    · exact setBar_canonical w

theorem addCmd_canonical {s : State} {c : Ctx} {eng : Path} {op : Nat} {lanes : List Nat} {ord : Ord} {sco : Scope}
    {bar : Option BarRef} {ca : Cache} {body : CmdBody} (w : s.Canonical) :
    (s.addCmd c eng op lanes ord sco bar ca body).Canonical := pendBar_canonical (put_canonical (put_canonical w))

theorem postCmd_canonical {s : State} {c : Ctx} {eng : Path} {lanes : List Nat} {ord : Ord} {sco : Scope}
    {bar : Option BarRef} {ca : Cache} {body : CmdBody} (w : s.Canonical) :
    (s.postCmd c eng lanes ord sco bar ca body).Canonical := addCmd_canonical (modPart_canonical (put_canonical w))

theorem settleEmpty_canonical {s : State} (w : s.Canonical) : s.settleEmpty.Canonical := by
  unfold State.settleEmpty
  split
  · split
    · exact cmdComplete_canonical w
    · exact w
  · exact w

theorem execCpy_canonical {h : Hdr} {d a : Reg} {len : LenOp} {o : CpyOps} {s : State} (w : s.Canonical) :
    OutCanonical (execCpy h d a len o s) := by
  unfold execCpy
  dsimp only
  refine issue_canonical (fun c' u w1 => ?_) w
  split
  · exact w1
  · exact settleEmpty_canonical (postCmd_canonical w1)

theorem execCpyg_canonical {h : Hdr} {d a : Reg} {rowb : BitVec 32} {ix : Bool} {o : CpyOps} {s : State}
    (w : s.Canonical) : OutCanonical (execCpyg h d a rowb ix o s) := by
  unfold execCpyg
  dsimp only
  refine issue_canonical (fun c' u w1 => ?_) w
  split
  · exact w1
  · split
    · exact raise_canonical w1
    · exact settleEmpty_canonical (postCmd_canonical w1)

theorem execLdg_canonical {h : Hdr} {d a b : Reg} {sco : Scope} {sz : Sz} {iw : IxW} {ixs : Bool} {scl : Scale}
    {stash : Bool} {ord : Ord} {s : State} (w : s.Canonical) :
    OutCanonical (execLdg h d a b sco sz iw ixs scl stash ord s) := by
  unfold execLdg
  dsimp only
  refine issueMem_canonical (fun c' u w1 => ?_) w
  split
  · exact w1
  · split
    · exact raise_canonical w1
    · exact addCmd_canonical (canonical_foldl_fst (fun _ _ w2 => postWords_canonical w2) (raiseOp_canonical w1))

theorem execStg_canonical {h : Hdr} {d a b : Reg} {sco : Scope} {sz : Sz} {iw : IxW} {ixs : Bool} {scl : Scale}
    {stash : Bool} {ord : Ord} {s : State} (w : s.Canonical) :
    OutCanonical (execStg h d a b sco sz iw ixs scl stash ord s) := by
  unfold execStg
  dsimp only
  refine issueMem_canonical (fun c' u w1 => ?_) w
  split
  · exact w1
  · split
    · exact raise_canonical w1
    · exact postCmd_canonical w1

end Sys2Proof.Machine

end

section
/-! Memory stays canonical (log 1) under changes of width, graphs, launches, the life of clusters, and control instructions. -/

namespace Sys2Proof.Machine

/-! ## Width changes -/

theorem freeSlots_canonical {s : State} {b : TagBind} (w : s.Canonical) : (s.freeSlots b).Canonical := by
  unfold State.freeSlots
  dsimp only
  split <;> exact put_canonical w

theorem unbind_canonical {s : State} {p tag : Nat} (w : s.Canonical) : (s.unbind p tag).Canonical := by
  unfold State.unbind
  split
  · exact w
  · exact modPart_canonical (freeSlots_canonical w)

theorem freeTags_canonical {s : State} {p : Nat} (w : s.Canonical) : (s.freeTags p).Canonical := by
  unfold State.freeTags
  refine foldl_canonical (fun s1 x w1 => ?_) w
  split
  · exact w1
  · exact unbind_canonical w1

theorem releaseFuse_canonical {s : State} {p code : Nat} (w : s.Canonical) : (s.releaseFuse p code).Canonical := by
  unfold State.releaseFuse
  dsimp only
  split
  · exact w
  · exact advance_canonical (modPart_canonical (eachLane_canonical (fun _ _ w1 => wr_canonical w1) w))

theorem retirePart_canonical {s : State} {p : Nat} (w : s.Canonical) : (s.retirePart p).Canonical := by
  unfold State.retirePart
  dsimp only
  split
  · exact releaseFuse_canonical (freeTags_canonical (modPart_canonical w))
  · exact freeTags_canonical (modPart_canonical w)

theorem splitOne_canonical {s : State} {x : Part} {t lo who next : Nat} {first : Bool} (w : s.Canonical) :
    (s.splitOne x t lo who next first).Canonical := by
  unfold State.splitOne
  dsimp only
  split
  · split
    · exact retirePart_canonical (setPart_canonical w)
    · exact advance_canonical (setPart_canonical w)
  · split
    · exact retirePart_canonical (setPart_canonical w)
    · exact advance_canonical (setPart_canonical w)

theorem splitPart_canonical {s : State} {p n next : Nat} (w : s.Canonical) : (s.splitPart p n next).Canonical := by
  unfold State.splitPart
  dsimp only
  refine foldl_canonical (fun _ _ w1 => splitOne_canonical w1) ?_
  split
  · exact releaseFuse_canonical w
  · exact w

theorem execSplit_canonical {h : Hdr} {d : Reg} {n : Fin 16} {s : State} (w : s.Canonical) :
    OutCanonical (execSplit h d n s) := by
  unfold execSplit
  dsimp only
  refine issueRaw_canonical (fun c' u w1 => ?_) w
  split
  · exact finish_canonical w1
  · split
    · exact splitPart_canonical (status_canonical w1)
    · exact finish_canonical (status_canonical w1)

theorem join_canonical {s : State} {p q label : Nat} {lp lq : List Nat} (w : s.Canonical) :
    (s.join p q label lp lq).Canonical :=
  censusNext_canonical (eachLane_canonical (fun _ _ w1 => modLane_canonical w1)
    (setPart_canonical (setPart_canonical (setPart_canonical
    (eachLane_canonical (fun _ _ w1 => modLane_canonical w1) w)))))

theorem meet_canonical {s : State} {c : Ctx} {d label q : Nat} {f : FuseWait} (w : s.Canonical) :
    (s.meet c d label q f).Canonical := by
  unfold State.meet
  dsimp only
  split
  · exact join_canonical (eachLane_canonical (fun _ _ w1 => wr_canonical w1) (status_canonical w))
  · exact finish_canonical (releaseFuse_canonical (status_canonical w))

theorem fuseWith_canonical {i : Instr} {d label : Nat} {s : State} {absent : Ctx → State → State}
    (he : ∀ c u, u.Canonical → (absent c u).Canonical) (w : s.Canonical) :
    OutCanonical (fuseWith i d label s absent) := by
  refine issueRaw_canonical (fun c u w => ?_) w
  have code (k : Nat) : ((u.status c d k).finish c.p).Canonical := finish_canonical (status_canonical w)
  dsimp only
  split
  · exact finish_canonical w
  · split
    · exact code 4
    · split
      · exact code 3
      · split
        · exact code 1
        · split
          · exact meet_canonical w
          · exact he c u w

/-! ## Graphs -/

theorem setNode_canonical {s : State} {g n : Nat} {x : Node} (w : s.Canonical) : (s.setNode g n x).Canonical :=
  modQueue_canonical w

theorem modNode_canonical {s : State} {g n : Nat} {f : Node → Node} (w : s.Canonical) : (s.modNode g n f).Canonical :=
  setNode_canonical w

theorem endRun_canonical {s : State} {g : Nat} (w : s.Canonical) : (s.endRun g).Canonical := modQueue_canonical w

theorem writeDone_canonical {s : State} {x : Who} {addr data : Nat} {again : Instr} (w : s.Canonical) :
    (s.writeDone x addr data again).2.Canonical := by
  unfold State.writeDone
  split
  · rename_i e
    exact canonical_fst e (agentWrite_canonical w)
  · rename_i e
    exact await_canonical (canonical_fst e (agentWrite_canonical w))
  · rename_i e
    split
    · exact reportViolation_canonical (canonical_fst e (agentWrite_canonical w))
    · split
      · rename_i e1
        exact await_canonical (canonical_snd e1 (reportFault_canonical (canonical_fst e (agentWrite_canonical w))))
      · rename_i e1
        exact canonical_snd e1 (reportFault_canonical (canonical_fst e (agentWrite_canonical w)))

/-- Where the write is over, both states are the same. -/
theorem writeDone_some {s t u : State} {x : Who} {addr data : Nat} {again : Instr}
    (h : s.writeDone x addr data again = (some t, u)) : u = t := by
  unfold State.writeDone at h
  split at h
  · cases h; rfl
  · cases h
  · split at h
    · cases h; rfl
    · split at h
      · cases h
      · cases h; rfl

theorem canonical_done {s t u : State} {x : Who} {addr data : Nat} {again : Instr}
    (h : s.writeDone x addr data again = (some t, u)) (w : s.Canonical) : t.Canonical :=
  writeDone_some h ▸ canonical_snd h (writeDone_canonical w)

theorem graphComplete_canonical {s : State} {g : Nat} (w : s.Canonical) : (s.graphComplete g).Canonical := by
  unfold State.graphComplete
  dsimp only
  split
  · exact w
  · split
    · exact endRun_canonical w
    · split
      · rename_i e1
        exact endRun_canonical (canonical_done e1 (raiseClock_canonical w))
      · rename_i e1
        exact modQueue_canonical (canonical_snd e1 (writeDone_canonical (raiseClock_canonical w)))

theorem checkGraph_canonical {s : State} {g : Nat} (w : s.Canonical) : (s.checkGraph g).Canonical := by
  unfold State.checkGraph
  dsimp only
  split
  · exact graphComplete_canonical w
  · exact w

theorem nodeDone_canonical {s : State} {g n time : Nat} (w : s.Canonical) : (s.nodeDone g n time).Canonical :=
  modQueue_canonical (modNode_canonical w)

theorem arriveNode_canonical {s : State} {g n time : Nat} (w : s.Canonical) : (s.arriveNode g n time).Canonical := by
  unfold State.arriveNode
  dsimp only
  split
  · exact w
  · exact modNode_canonical (takeId_canonical w)

theorem passTime_canonical {s : State} {g : Nat} {x : Node} (w : s.Canonical) : (s.passTime g x).Canonical := by
  unfold State.passTime
  refine foldl_canonical (fun s1 y w1 => ?_) w
  split
  · exact modNode_canonical w1
  · exact w1

theorem failNode_canonical {s : State} {g n status time : Nat} (w : s.Canonical) :
    (s.failNode g n status time).Canonical := by
  unfold State.failNode
  dsimp only
  refine checkGraph_canonical (modQueue_canonical ?_)
  split
  · exact setNode_canonical w
  · exact passTime_canonical (setNode_canonical w)

theorem prologueGone_canonical {s : State} {l time status : Nat} (w : s.Canonical) :
    (s.prologueGone l time status).Canonical := by
  unfold State.prologueGone
  split
  · exact checkGraph_canonical (modQueue_canonical (modNode_canonical w))
  · exact w

theorem traceLaunch_canonical {s : State} {l kind data : Nat} (w : s.Canonical) :
    (s.traceLaunch l kind data).Canonical := by
  unfold State.traceLaunch
  dsimp only
  split
  · exact trace_canonical w
  · exact w

theorem startKernel_canonical {s : State} {g n : Nat} (w : s.Canonical) : (s.startKernel g n).Canonical := by
  unfold State.startKernel
  dsimp only
  refine modNode_canonical ?_
  split
  · exact setLaunch_canonical (takeId_canonical (setLaunch_canonical (takeId_canonical w)))
  · exact setLaunch_canonical (takeId_canonical w)

theorem finishNode_canonical {s : State} {g n : Nat} (w : s.Canonical) : (s.finishNode g n).Canonical := by
  unfold State.finishNode
  dsimp only
  split
  · exact graphComplete_canonical w
  · split
    · exact w
    · split
      · exact startKernel_canonical w
      · refine checkGraph_canonical ?_
        split
        · refine arriveNode_canonical ?_
          split
          · exact arriveNode_canonical (passTime_canonical (setNode_canonical (takeId_canonical w)))
          · exact passTime_canonical (setNode_canonical (takeId_canonical w))
        · split
          · exact arriveNode_canonical (passTime_canonical (setNode_canonical (takeId_canonical w)))
          · exact passTime_canonical (setNode_canonical (takeId_canonical w))

theorem readImage_canonical {s : State} {who : Who} {image params : Nat} (w : s.Canonical) :
    (s.readImage who image params).1.Canonical := by
  unfold State.readImage
  dsimp only
  split
  · exact w
  · split
    · rename_i e
      exact canonical_fst e (agentRead_canonical w)
    · rename_i e
      exact canonical_fst e (agentRead_canonical w)
    · rename_i u _ e
      have hu : u.Canonical := canonical_fst e (agentRead_canonical w)
      split
      · exact hu
      · split
        · rename_i e1
          exact canonical_fst e1 (agentRead_canonical hu)
        · rename_i e1
          exact canonical_fst e1 (agentRead_canonical hu)
        · rename_i u1 _ e1
          have hu1 : u1.Canonical := canonical_fst e1 (agentRead_canonical hu)
          split
          · exact hu1
          · split
            · rename_i e3
              exact canonical_fst e3 (agentRead_canonical hu1)
            · rename_i e3
              exact canonical_fst e3 (agentRead_canonical hu1)
            · rename_i u2 _ e3
              have hu2 : u2.Canonical := canonical_fst e3 (agentRead_canonical hu1)
              split
              · rename_i e4
                exact canonical_fst e4 (agentRead_canonical hu2)
              · rename_i e4
                exact canonical_fst e4 (agentRead_canonical hu2)
              · rename_i e4
                exact canonical_fst e4 (agentRead_canonical hu2)

theorem childDone_canonical {s : State} {l : Nat} (w : s.Canonical) : (s.childDone l).Canonical := by
  unfold State.childDone
  dsimp only
  split
  · exact setLaunch_canonical w
  · split
    · rename_i e
      exact setLaunch_canonical (canonical_done e (raiseClock_canonical w))
    · rename_i e
      exact canonical_snd e (writeDone_canonical (raiseClock_canonical w))

theorem endLaunch_canonical {s : State} {l status : Nat} (w : s.Canonical) : (s.endLaunch l status).Canonical := by
  unfold State.endLaunch
  dsimp only
  split
  · split
    · refine failNode_canonical ?_
      split
      · exact setLaunch_canonical (setLaunch_canonical (setLaunch_canonical (traceLaunch_canonical w)))
      · exact setLaunch_canonical (setLaunch_canonical (traceLaunch_canonical w))
    · split
      · split
        · exact startKernel_canonical (nodeDone_canonical (setLaunch_canonical
            (setLaunch_canonical (setLaunch_canonical (traceLaunch_canonical w)))))
        · exact nodeDone_canonical (setLaunch_canonical (setLaunch_canonical
            (setLaunch_canonical (traceLaunch_canonical w))))
      · split
        · exact startKernel_canonical (nodeDone_canonical (setLaunch_canonical
            (setLaunch_canonical (traceLaunch_canonical w))))
        · exact nodeDone_canonical (setLaunch_canonical (setLaunch_canonical (traceLaunch_canonical w)))
  · split
    · exact prologueGone_canonical (setLaunch_canonical (traceLaunch_canonical w))
    · exact childDone_canonical (modLaunch_canonical (traceLaunch_canonical w))

/-! ## Images and launches -/

theorem putWords_canonical {s : State} {addr : Nat → Nat} {ws : List Nat} (w : s.Canonical) :
    (s.putWords addr ws).Canonical := foldl_canonical (fun _ _ w1 => quietWrite_canonical _ _ _ _ w1) w

theorem dump_canonical {s : State} {vf k : Nat} (w : s.Canonical) : (s.dump vf k).Canonical := by
  unfold State.dump
  dsimp only
  split
  · exact w
  · split
    · exact modFn_canonical w
    · exact modFn_canonical (putWords_canonical w)

/-! ## Clusters -/

theorem placeTeam_canonical {s : State} {l : Launch} {t i core : Nat} (w : s.Canonical) :
    (s.placeTeam l t i core).Canonical := by
  unfold State.placeTeam
  dsimp only
  refine foldl_canonical (fun _ _ w1 => setPart_canonical w1) (foldl_canonical (fun s1 p w1 => ?_) (put_canonical w))
  split
  · exact w1
  · exact setLane_canonical w1

theorem kernelArrives_canonical {s : State} {l : Launch} {core : Nat} (w : s.Canonical) :
    (s.kernelArrives l core).Canonical := by
  unfold State.kernelArrives
  split
  · exact w
  · exact modCore_canonical w

theorem placeBlockAt_canonical {s : State} {l : Launch} {b : Nat} {cores : List Nat} (w : s.Canonical) :
    (s.placeBlockAt l b cores).Canonical :=
  foldl_canonical (fun _ _ w1 => placeTeam_canonical w1) (setBlock_canonical
    (foldl_canonical (fun _ _ w1 => kernelArrives_canonical w1) w))

theorem placeCluster_canonical {s : State} {l d : Nat} {cores : List (List Nat)} (w : s.Canonical) :
    (s.placeCluster l d cores).Canonical := by
  unfold State.placeCluster
  dsimp only
  refine modLaunch_canonical ?_
  split
  · exact traceLaunch_canonical (foldl_canonical (fun _ _ w1 => foldl_canonical
      (fun _ _ w2 => raiseClock_canonical w2) w1) (foldl_canonical (fun _ _ w1 => placeBlockAt_canonical w1)
      (setCluster_canonical (takeId_canonical w))))
  · exact foldl_canonical (fun _ _ w1 => foldl_canonical (fun _ _ w2 => raiseClock_canonical w2) w1)
      (foldl_canonical (fun _ _ w1 => placeBlockAt_canonical w1) (setCluster_canonical (takeId_canonical w)))

theorem distribute_canonical {s : State} {d : Nat} (w : s.Canonical) : (s.distribute d).Canonical := by
  unfold State.distribute
  split
  · exact w
  · split
    · exact w
    · split
      · exact placeCluster_canonical w
      · exact w

theorem drainStash_canonical {s : State} {b : Nat} (w : s.Canonical) : (s.drainStash b).Canonical :=
  foldl_canonical (fun _ _ w1 => retireSec_canonical w1) w

theorem removeCluster_canonical {s : State} {k : Nat} (w : s.Canonical) : (s.removeCluster k).Canonical :=
  put_canonical w

theorem retireCluster_canonical {s : State} {k : Nat} (w : s.Canonical) : (s.retireCluster k).Canonical := by
  unfold State.retireCluster
  dsimp only
  split
  · exact modLaunch_canonical (removeCluster_canonical w)
  · split
    · exact prologueGone_canonical (setLaunch_canonical (traceLaunch_canonical
        (modLaunch_canonical (removeCluster_canonical w))))
    · split
      · exact setLaunch_canonical (traceLaunch_canonical (modLaunch_canonical (removeCluster_canonical w)))
      · exact endLaunch_canonical (modLaunch_canonical (removeCluster_canonical w))

theorem afterRetire_canonical {s : State} {t : Nat} (w : s.Canonical) : (s.afterRetire t).Canonical := by
  unfold State.afterRetire
  dsimp only
  split
  · exact w
  · split
    · exact retireCluster_canonical (modBlock_canonical (drainStash_canonical w))
    · exact modBlock_canonical (drainStash_canonical w)

theorem noteEnd_canonical {s : State} {p : Nat} (w : s.Canonical) : (s.noteEnd p).Canonical := modLaunch_canonical w

theorem retireTeam_canonical {s : State} {p : Nat} (w : s.Canonical) : (s.retireTeam p).Canonical := by
  unfold State.retireTeam
  split
  · exact afterRetire_canonical (retirePart_canonical (noteEnd_canonical w))
  · exact w

theorem releaseArrays_canonical {s : State} {es : List TEntry} (w : s.Canonical) : (s.releaseArrays es).Canonical :=
  put_canonical w

theorem dropLatches_canonical {s : State} {ks : List Nat} (w : s.Canonical) : (s.dropLatches ks).Canonical :=
  put_canonical w

theorem discardWork_canonical {s : State} {ks : List Nat} (w : s.Canonical) : (s.discardWork ks).Canonical :=
  put_canonical (dropLatches_canonical (releaseArrays_canonical w))

theorem dropReports_canonical {s : State} {l : Nat} (w : s.Canonical) : (s.dropReports l).Canonical := put_canonical w

theorem quiesce_canonical {s : State} {which : Packet → Bool} (w : s.Canonical) : (s.quiesce which).Canonical :=
  put_canonical w

theorem releaseClusters_canonical {s : State} {ks : List Nat} (w : s.Canonical) : (s.releaseClusters ks).Canonical :=
  foldl_canonical (fun _ _ w1 => removeCluster_canonical w1)
    (foldl_canonical (fun _ _ w1 => foldl_canonical (fun _ _ w2 => freeSlots_canonical w2) (noteEnd_canonical w1)) w)

theorem terminate_canonical {s : State} {l status : Nat} {dump word : Bool} (w : s.Canonical) :
    (s.terminate l status dump word).Canonical := by
  unfold State.terminate
  dsimp only
  refine endLaunch_canonical (modLaunch_canonical (releaseClusters_canonical ?_))
  split
  · exact foldl_canonical (fun _ _ w1 => dump_canonical w1) (foldl_canonical
      (fun _ _ w1 => foldl_canonical (fun _ _ w2 => drainStash_canonical w2) w1)
      (quiesce_canonical (dropReports_canonical (discardWork_canonical
      (releaseClusters_canonical (discardWork_canonical (endCommits_canonical w)))))))
  · exact foldl_canonical (fun _ _ w1 => foldl_canonical (fun _ _ w2 => drainStash_canonical w2) w1)
      (quiesce_canonical (dropReports_canonical (discardWork_canonical
      (releaseClusters_canonical (discardWork_canonical (endCommits_canonical w))))))

theorem kill_canonical {s : State} {l : Nat} (w : s.Canonical) : (s.kill l).Canonical := by
  unfold State.kill
  split <;> exact terminate_canonical w

theorem killDead_canonical {s : State} (w : s.Canonical) : s.killDead.Canonical := by
  unfold State.killDead
  dsimp only
  refine foldl_canonical (fun s1 x w1 => ?_) w
  split
  · exact put_canonical w1
  · exact kill_canonical (put_canonical w1)

theorem stowTags_canonical {s : State} {p : Nat} (w : s.Canonical) : (s.stowTags p).Canonical :=
  foldl_canonical (fun _ _ w1 => modPart_canonical (put_canonical (freeSlots_canonical (put_canonical w1)))) w

theorem countSent_canonical {s : State} {d k : Nat} (w : s.Canonical) : (s.countSent d k).Canonical := by
  unfold State.countSent
  refine foldl_canonical (fun s1 x w1 => ?_) w
  split
  · exact arrivalStep_canonical w1
  · exact w1

theorem ungrant_canonical {s : State} {k : Nat} (w : s.Canonical) : (s.ungrant k).Canonical :=
  put_canonical (dropLatches_canonical (releaseArrays_canonical w))

theorem readyToSave_canonical {s : State} {k : Nat} (w : s.Canonical) : (s.readyToSave k).Canonical :=
  foldl_canonical (fun _ _ w1 => modPart_canonical (stowTags_canonical w1))
    (put_canonical (foldl_canonical (fun _ _ w1 => drainStash_canonical w1)
    (unlockCommits_canonical (countSent_canonical w))))

theorem saveCluster_canonical {s : State} {k at' : Nat} (w : s.Canonical) : (s.saveCluster k at').Canonical :=
  modLaunch_canonical (modCluster_canonical (putWords_canonical
    (put_canonical (quiesce_canonical (ungrant_canonical (readyToSave_canonical w))))))

theorem preempt_canonical {s : State} {k : Nat} (w : s.Canonical) : (s.preempt k).Canonical := by
  unfold State.preempt
  split
  · split
    · exact saveCluster_canonical w
    · exact w
  · exact w

theorem rebind_canonical {s : State} {p tag : Nat} {b : TagBind} (w : s.Canonical) : OptCanonical (s.rebind p tag b) :=
  map_canonical fun _ => modPart_canonical (put_canonical w)

theorem rebindAll_canonical {s : State} {ps : List Nat} (w : s.Canonical) : OptCanonical (s.rebindAll ps) :=
  foldl_bind_canonical (fun _ _ hu => rebind_canonical hu) (some_canonical w)

theorem moveTeams_canonical {s : State} {k d : Nat} {cores : List (List Nat)} (w : s.Canonical) :
    (s.moveTeams k d cores).Canonical :=
  put_canonical (foldl_canonical (fun _ _ w1 => modPart_canonical w1)
    (foldl_canonical (fun _ _ w1 => modPart_canonical w1) (foldl_canonical
    (fun _ _ w1 => foldl_canonical (fun _ _ w2 => put_canonical w2)
    (modBlock_canonical (foldl_canonical (fun _ _ w2 => kernelArrives_canonical w2) w1)))
    (modCluster_canonical (foldl_canonical (fun _ _ w1 => foldl_canonical (fun _ _ w2 => put_canonical w2) w1) w)))))

theorem applyResolved_canonical {s : State} {p : Nat} (w : s.Canonical) : (s.applyResolved p).Canonical := by
  unfold State.applyResolved
  extract_lets x s1 s2 u
  have h2 : s2.Canonical := foldl_canonical (fun _ _ hv => freezeQueue_canonical hv) (modPart_canonical w)
  have hu : u.Canonical := ite_canonical (ite_canonical (freezePart_canonical h2) h2) w
  split
  · split
    · exact kill_canonical hu
    · exact resume_canonical (raiseClock_canonical hu)
    · exact hu
  · exact hu

theorem repost_canonical {s : State} {k : Nat} (w : s.Canonical) : (s.repost k).Canonical := by
  unfold State.repost
  dsimp only
  split
  · exact foldl_canonical (fun _ _ w1 => arriveOp_canonical (eachLane_canonical (fun _ _ w2 => wr_canonical w2) w1))
      (put_canonical w)
  · exact put_canonical w

theorem restoreCluster_canonical {s : State} {k : Nat} (w : s.Canonical) : (s.restoreCluster k).Canonical := by
  unfold State.restoreCluster
  dsimp only
  split
  · exact w
  · split
    · exact w
    · split
      · exact w
      · split
        · exact w
        · rename_i u e1
          have hu : u.Canonical := (rebindAll_canonical (moveTeams_canonical w)) _ e1
          split
          · exact repost_canonical (foldl_canonical (fun _ _ w1 => applyResolved_canonical w1)
              (modLaunch_canonical (foldl_canonical (fun _ _ w1 => raiseClock_canonical w1)
              (modCluster_canonical hu))))
          · exact foldl_canonical (fun _ _ w1 => applyResolved_canonical w1)
              (modLaunch_canonical (foldl_canonical (fun _ _ w1 => raiseClock_canonical w1) (modCluster_canonical hu)))

/-! ## Control instructions -/

theorem prologueExit_canonical {s : State} {p : Nat} (w : s.Canonical) : (s.prologueExit p).Canonical := by
  unfold State.prologueExit
  dsimp only
  split
  · exact w
  · split
    · exact nodeDone_canonical (setLaunch_canonical (modNode_canonical (modLaunch_canonical w)))
    · split
      · exact failNode_canonical (setLaunch_canonical (traceLaunch_canonical
          (modNode_canonical (modLaunch_canonical w))))
      · split
        · exact failNode_canonical (setLaunch_canonical (traceLaunch_canonical
            (modNode_canonical (modLaunch_canonical w))))
        · exact modLaunch_canonical (modNode_canonical (modLaunch_canonical w))

theorem exitCheck_canonical {s : State} {p : Nat} (w : s.Canonical) : (s.exitCheck p).Canonical := by
  unfold State.exitCheck
  split
  · exact prologueExit_canonical w
  · exact w

theorem leaveAll_canonical {s : State} {c : Ctx} {ls : List Nat} {f : Nat → Nat} (w : s.Canonical) :
    (s.leaveAll c ls f).Canonical := exitCheck_canonical (eachLane_canonical (fun _ _ w1 => leave_canonical w1) w)

theorem execGoi_canonical {h : Hdr} {a : Reg} {s : State} (w : s.Canonical) : OutCanonical (execGoi h a s) := by
  unfold execGoi
  refine issue_canonical (fun c' u w1 => ?_) w
  split
  · exact raise_canonical w1
  · exact leaveAll_canonical w1

theorem execCalli_canonical {h : Hdr} {d a : Reg} {ret : Lbl} {s : State} (w : s.Canonical) :
    OutCanonical (execCalli h d a ret s) := by
  unfold execCalli
  refine issue_canonical (fun c' u w1 => ?_) w
  split
  · exact raise_canonical w1
  · exact leaveAll_canonical (status_canonical w1)

theorem execBeat_canonical {h : Hdr} {s : State} (w : s.Canonical) : OutCanonical (execBeat h s) := by
  unfold execBeat
  refine issue_canonical (fun c' u w1 => ?_) w
  split
  · exact w1
  · exact modLaunch_canonical w1

theorem execIpref_canonical {h : Hdr} {l : Lbl} {n : Fin 16} {s : State} (w : s.Canonical) :
    OutCanonical (execIpref h l n s) := by
  unfold execIpref
  refine issue_canonical (fun c' u w1 => ?_) w
  split
  · exact w1
  · split
    · exact w1
    · exact foldl_canonical (fun _ _ w2 => askFill_canonical w2) w1

theorem execTrap_canonical {h : Hdr} {code : BitVec 16} {s : State} (w : s.Canonical) :
    OutCanonical (execTrap h code s) := by
  unfold execTrap
  refine issue_canonical (fun c' u w1 => ?_) w
  split
  · exact w1
  · exact raise_canonical w1

theorem execBrk_canonical {h : Hdr} {code : BitVec 16} {s : State} (w : s.Canonical) :
    OutCanonical (execBrk h code s) := by
  unfold execBrk
  refine issue_canonical (fun c' u w1 => ?_) w
  split
  · exact w1
  · exact raise_canonical w1

theorem stage_canonical {s : State} {g n sel v : Nat} (w : s.Canonical) : (s.stage g n sel v).Canonical := by
  unfold State.stage
  dsimp only
  split
  · split
    · exact modNode_canonical w
    · exact setLaunch_canonical w
  · split
    · exact setLaunch_canonical w
    · split
      · exact setLaunch_canonical w
      · split <;> exact setLaunch_canonical w

theorem execPlset_canonical {h : Hdr} {a : Reg} {sel : Fin 4096} {s : State} (w : s.Canonical) :
    OutCanonical (execPlset h a sel s) := by
  unfold execPlset
  refine issueMem_canonical (fun c' u w1 => ?_) w
  split
  · split
    · exact w1
    · exact stage_canonical w1
  · exact w1

theorem execPlcan_canonical {h : Hdr} {s : State} (w : s.Canonical) : OutCanonical (execPlcan h s) := by
  unfold execPlcan
  refine issueMem_canonical (fun c' u w1 => ?_) w
  split
  · exact modNode_canonical w1
  · exact w1

theorem execPlrep_canonical {h : Hdr} {d : Reg} {s : State} (w : s.Canonical) : OutCanonical (execPlrep h d s) := by
  unfold execPlrep
  dsimp only
  refine issueMem_canonical (fun c' u w1 => ?_) w
  split
  · split
    · exact w1
    · split
      · exact status_canonical w1
      · exact status_canonical (modNode_canonical w1)
  · exact w1

theorem acceptSpace_canonical {s : State} {who : Who} {x : Launch} (w : s.Canonical) :
    (s.acceptSpace who x).1.Canonical := by
  unfold State.acceptSpace
  split
  · exact w
  · split
    · rename_i e
      exact canonical_fst e (inWalk_canonical (fun _ w1 => descriptor_canonical w1) w)
    · rename_i e
      split <;> exact canonical_fst e (inWalk_canonical (fun _ w1 => descriptor_canonical w1) w)

theorem commitChild_canonical {s : State} {core : Nat} {x : Launch} {root : Option Nat} (w : s.Canonical) :
    (s.commitChild core x root).Canonical := by
  unfold State.commitChild
  dsimp only
  split
  · exact setLaunch_canonical (takeId_canonical w)
  · exact endLaunch_canonical (setLaunch_canonical (takeId_canonical w))

theorem launchStop_canonical {s : State} {c : Ctx} {who : Who} {y : Stop} (w : s.Canonical) :
    (s.launchStop c who y).Canonical := by
  unfold State.launchStop
  split
  · exact violate_canonical w
  · split
    · rename_i e
      exact stall_canonical (await_canonical (canonical_snd e (reportFault_canonical w)))
    · rename_i e
      exact raise_canonical (canonical_snd e (reportFault_canonical w))

theorem execLaunch_canonical {h : Hdr} {d a : Reg} {s : State} (w : s.Canonical) :
    OutCanonical (execLaunch h d a s) := by
  unfold execLaunch
  dsimp only
  refine issueMem_canonical (fun c' u w1 => ?_) w
  split
  · exact w1
  · split
    · rename_i u1 _ e1
      have hu1 : u1.Canonical := canonical_fst e1 (readImage_canonical w1)
      split
      · split
        · rename_i e3
          exact foldl_canonical (fun _ _ w2 => postWords_canonical w2)
            (commitChild_canonical (canonical_fst e3 (acceptSpace_canonical hu1)))
        · rename_i e3
          exact stall_canonical (canonical_fst e3 (acceptSpace_canonical hu1))
        · rename_i e3
          exact launchStop_canonical (canonical_fst e3 (acceptSpace_canonical hu1))
      · exact foldl_canonical (fun _ _ w2 => postWords_canonical w2) hu1
    · rename_i e1
      exact stall_canonical (canonical_fst e1 (readImage_canonical w1))
    · rename_i e1
      exact launchStop_canonical (canonical_fst e1 (readImage_canonical w1))

end Sys2Proof.Machine

end

section
/-! Memory stays canonical (log 1) under the matrix arrays, traversals and the guest. -/

namespace Sys2Proof.Machine

/-! ## The matrix arrays -/

theorem setTile_canonical {s : State} {b : TagBind} {flags : Nat} {f : Nat → Nat → Nat × Bool} (w : s.Canonical) :
    (s.setTile b flags f).Canonical := by
  unfold State.setTile
  dsimp only
  split <;> exact put_canonical w

theorem enter_canonical {s : State} {c : Ctx} {q tag : Nat} {raises : Bool} {ord : Ord} {sco : Scope} {ca : Cache}
    {body : TBody} (w : s.Canonical) : (s.enter c q tag raises ord sco ca body).2.Canonical := by
  unfold State.enter
  dsimp only
  refine put_canonical (takeId_canonical ?_)
  split
  · exact raiseOp_canonical w
  · exact w

theorem entryRes_canonical {s : State} {gs : List Nat} (w : s.Canonical) : (s.entryRes gs).Canonical := by
  unfold State.entryRes
  split
  · exact put_canonical w
  · exact w

theorem postLanes_canonical {s : State} {c : Ctx} {op : Nat} {dest : List Nat} {flags : Bool} {ls : List Nat}
    (w : s.Canonical) : (s.postLanes c op dest flags ls).1.Canonical := by
  unfold State.postLanes
  dsimp only
  refine canonical_foldl_fst (fun r l w1 => ?_) w
  split
  · exact put_canonical (postWords_canonical w1)
  · exact postWords_canonical w1

theorem mmaIssue_canonical {paired : Bool} {tag : Fin 16} {a : Reg} {o : MmaOps} {c : Ctx} {s : State}
    (w : s.Canonical) : (mmaIssue paired tag a o c s).Canonical := by
  unfold mmaIssue
  dsimp only
  split
  · exact w
  · split
    · exact raise_canonical w
    · split
      · exact raise_canonical w
      · split
        · exact raise_canonical w
        · exact enter_canonical w

theorem execHad_canonical {h : Hdr} {d a : Reg} {n g : HadN} {norm : Bool} {s : State} (w : s.Canonical) :
    OutCanonical (execHad h d a n g norm s) := by
  unfold execHad
  dsimp only
  refine issue_canonical (fun c' u w1 => ?_) w
  split
  · exact w1
  · exact entryRes_canonical (postLanes_canonical (enter_canonical w1))

theorem execAcz_canonical {h : Hdr} {tag : Fin 16} {pair : Bool} {s : State} (w : s.Canonical) :
    OutCanonical (execAcz h tag pair s) := by
  unfold execAcz
  refine issue_canonical (fun c' u w1 => ?_) w
  split
  · exact w1
  · split
    · exact raise_canonical w1
    · exact enter_canonical w1

theorem execAcrel_canonical {h : Hdr} {tag : Fin 16} {s : State} (w : s.Canonical) :
    OutCanonical (execAcrel h tag s) := by
  unfold execAcrel
  refine issue_canonical (fun c' u w1 => ?_) w
  split
  · exact w1
  · exact enter_canonical w1

theorem execAcrelAll_canonical {h : Hdr} {s : State} (w : s.Canonical) : OutCanonical (execAcrelAll h s) := by
  unfold execAcrelAll
  dsimp only
  refine issue_canonical (fun c' u w1 => ?_) w
  split
  · exact w1
  · exact enter_canonical w1

theorem execAcld_canonical {h : Hdr} {tag : Fin 16} {a : Reg} {f : AcForm} {pair : Bool} {s : State} (w : s.Canonical)
    : OutCanonical (execAcld h tag a f pair s) := by
  unfold execAcld
  dsimp only
  refine issue_canonical (fun c' u w1 => ?_) w
  split
  · exact w1
  · split
    · split
      · exact raise_canonical w1
      · split
        · exact raise_canonical w1
        · exact enter_canonical w1
    · split
      · exact raise_canonical w1
      · exact enter_canonical w1

theorem execAcst_canonical {h : Hdr} {tag : Fin 16} {a : Reg} {f : AcForm} {s : State} (w : s.Canonical) :
    OutCanonical (execAcst h tag a f s) := by
  unfold execAcst
  dsimp only
  refine issue_canonical (fun c' u w1 => ?_) w
  split
  · exact w1
  · split
    · split
      · exact raise_canonical w1
      · exact enter_canonical w1
    · split
      · exact raise_canonical w1
      · exact entryRes_canonical (postLanes_canonical (enter_canonical w1))

theorem execAcstat_canonical {h : Hdr} {d : Reg} {tag : Fin 16} {clr : Bool} {s : State} (w : s.Canonical) :
    OutCanonical (execAcstat h d tag clr s) := by
  unfold execAcstat
  dsimp only
  refine issue_canonical (fun c' u w1 => ?_) w
  split
  · exact w1
  · exact entryRes_canonical (postLanes_canonical (enter_canonical w1))

theorem modEntry_canonical {s : State} {id : Nat} {f : TEntry → TEntry} (w : s.Canonical) :
    (s.modEntry id f).Canonical := put_canonical w

theorem occupy_canonical {s : State} {a : Nat} {paired : Bool} (w : s.Canonical) : (s.occupy a paired).Canonical := by
  unfold State.occupy
  dsimp only
  split <;> exact put_canonical w

theorem applyGrant_canonical {s : State} {e : TEntry} {a : Grant} (w : s.Canonical) :
    (s.applyGrant e a).Canonical := by
  unfold State.applyGrant
  dsimp only
  split
  · exact modEntry_canonical (occupy_canonical w)
  · exact modEntry_canonical (occupy_canonical w)
  · refine modEntry_canonical (occupy_canonical (modPart_canonical ?_))
    split <;> exact put_canonical w
  · exact modEntry_canonical (unbind_canonical w)

theorem tundishGrant_canonical {s : State} {flask : Nat} (w : s.Canonical) : (s.tundishGrant flask).Canonical := by
  unfold State.tundishGrant
  split
  · exact count_canonical (applyGrant_canonical w)
  · exact w

theorem entryFreezes_canonical {s : State} {e : TEntry} (w : s.Canonical) : (s.entryFreezes e).Canonical :=
  freezeQueue_canonical (modEntry_canonical (releaseArrays_canonical w))

theorem entryViolates_canonical {s : State} {e : TEntry} {x : Stop} {kind : Nat} (w : s.Canonical) :
    (s.entryViolates e x kind).Canonical :=
  entryFreezes_canonical (reportViolation_canonical (unfile_canonical (modEntry_canonical w)))

theorem entryStop_canonical {s : State} {e : TEntry} {x : Stop} {kind va : Nat} (w : s.Canonical) :
    (s.entryStop e x kind va).Canonical := by
  unfold State.entryStop
  split
  · exact entryViolates_canonical w
  · split
    · exact w
    · split
      · exact entryViolates_canonical w
      · split
        · rename_i e2
          exact modEntry_canonical (canonical_snd e2 (reportFault_canonical w))
        · rename_i e2
          exact entryFreezes_canonical (canonical_snd e2 (reportFault_canonical w))

theorem putTileWord_canonical {s : State} {e : TEntry} {a : Nat} {v : Nat × Bool} (w : s.Canonical) :
    (s.putTileWord e a v).1.Canonical := by
  unfold State.putTileWord
  split
  · rename_i e1
    exact canonical_fst e1 (engWrite_canonical w)
  · exact engWrite_canonical w

theorem entryPiece_canonical {s : State} {id i : Nat} (w : s.Canonical) : (s.entryPiece id i).Canonical := by
  unfold State.entryPiece
  dsimp only
  split
  · exact w
  · split
    · exact w
    · split
      · exact w
      · split
        · exact w
        · split
          · split
            · rename_i e3
              exact modEntry_canonical (canonical_fst e3 (putTileWord_canonical w))
            · rename_i e3
              exact entryStop_canonical (canonical_fst e3 (putTileWord_canonical w))
            · rename_i e3
              exact canonical_fst e3 (putTileWord_canonical w)
          · split
            · rename_i e2
              exact modEntry_canonical (canonical_fst e2 (engReadN_canonical w))
            · rename_i e2
              exact entryStop_canonical (canonical_fst e2 (engReadN_canonical w))
            · rename_i e2
              exact canonical_fst e2 (engReadN_canonical w)

theorem entryRun_canonical {s : State} {id : Nat} (w : s.Canonical) : (s.entryRun id).Canonical :=
  canonical_foldl_fst (fun _ _ w1 => entryPiece_canonical w1) w

theorem passTile_canonical {s : State} {b : TagBind} {buf : FMap (Nat × Nat)} {o : MmaOps} {x y : MOpnd}
    {sa sb : List Nat} {cent : Bool} (w : s.Canonical) : (s.passTile b buf o x y sa sb cent).Canonical := by
  unfold State.passTile
  dsimp only
  split <;> exact setTile_canonical w

theorem landRes_canonical {s : State} {gs : List Nat} {rows : List (List (Nat × Bool) × Nat)} (w : s.Canonical) :
    (s.landRes gs rows).Canonical :=
  foldl_canonical (fun _ _ w1 => foldl_canonical (fun _ _ w2 => land_canonical w2) (fixGroup_canonical w1)) w

theorem entryEffect_canonical {s : State} {e : TEntry} (w : s.Canonical) : (s.entryEffect e).Canonical := by
  unfold State.entryEffect
  dsimp only
  split
  · exact passTile_canonical w
  · exact landRes_canonical w
  · exact setTile_canonical w
  · exact unbind_canonical w
  · exact setTile_canonical w
  · exact setTile_canonical w
  · exact landRes_canonical w
  · split
    · exact put_canonical (landRes_canonical w)
    · exact landRes_canonical w
  · exact w

theorem freeArray_canonical {s : State} {e : TEntry} {a : Nat} (w : s.Canonical) : (s.freeArray e a).Canonical :=
  put_canonical w

theorem settleTags_canonical {s : State} {p : Nat} (w : s.Canonical) : (s.settleTags p).Canonical := by
  unfold State.settleTags
  dsimp only
  split
  · exact w
  · split
    · exact setPart_canonical (freeTags_canonical w)
    · exact freeTags_canonical w

theorem entryRetire_canonical {s : State} {e : TEntry} (w : s.Canonical) : (s.entryRetire e).Canonical := by
  unfold State.entryRetire
  extract_lets paired s1 s2 s3 s4
  have h1 : s1.Canonical := entryEffect_canonical w
  have h2 : s2.Canonical := by
    dsimp only [s2]
    split
    · exact ite_canonical (freeArray_canonical (freeArray_canonical h1)) (freeArray_canonical h1)
    · exact h1
  have h3 : s3.Canonical := put_canonical h2
  have h4 : s4.Canonical := ite_canonical (raiseClock_canonical h3) h3
  exact settleTags_canonical (arriveOp_canonical h4)

theorem passRetire_canonical {s : State} {id : Nat} (w : s.Canonical) : (s.passRetire id).Canonical := by
  unfold State.passRetire
  dsimp only
  split
  · exact w
  · split
    · exact w
    · split
      · exact entryRun_canonical w
      · split
        · exact entryRetire_canonical (entryRun_canonical w)
        · exact entryRun_canonical w

theorem matrixPiece_canonical {s : State} {id k : Nat} (w : s.Canonical) : (s.matrixPiece id k).Canonical :=
  entryPiece_canonical w

/-! ## Traversals -/

theorem nodeViolates_canonical {s : State} {p l : Nat} {x : Stop} (w : s.Canonical) :
    (s.nodeViolates p l x).Canonical :=
  freezeQueue_canonical (reportViolation_canonical (unfile_canonical
    (foldl_canonical (fun _ _ w1 => modLane_canonical w1) w)))

theorem nodeStop'_canonical {s : State} {p l : Nat} {v : Trav} {x : Stop} {a : Nat} (w : s.Canonical) :
    (s.nodeStop' p l v x a).Canonical := by
  unfold State.nodeStop'
  dsimp only
  split
  · exact nodeViolates_canonical w
  · split
    · exact w
    · split
      · exact nodeViolates_canonical w
      · split
        · rename_i e1
          exact modLane_canonical (canonical_snd e1 (reportFault_canonical w))
        · rename_i e1
          exact freezeQueue_canonical (canonical_snd e1 (reportFault_canonical w))

theorem nodeByte_canonical {s : State} {p l : Nat} {v : Trav} {a : Nat} (w : s.Canonical) :
    (s.nodeByte p l v a).Canonical := by
  unfold State.nodeByte
  dsimp only
  split
  · exact w
  · split
    · rename_i e
      exact modLane_canonical (unpoison_canonical (canonical_fst e (engRead_canonical w)))
    · rename_i e
      exact canonical_fst e (engRead_canonical w)
    · rename_i e
      exact nodeStop'_canonical (canonical_fst e (engRead_canonical w))

theorem nodeRead_canonical {s : State} {p l k : Nat} (w : s.Canonical) : (s.nodeRead p l k).Canonical := by
  unfold State.nodeRead
  split
  · exact w
  · split
    · split
      · exact nodeByte_canonical w
      · exact w
    · exact w

theorem nodeReads_canonical {s : State} {p l : Nat} {v : Trav} (w : s.Canonical) : (s.nodeReads p l v).Canonical := by
  unfold State.nodeReads
  dsimp only
  refine foldl_canonical (fun s1 a w1 => ?_) w
  split
  · exact nodeByte_canonical w1
  · exact w1

theorem released'_canonical {s : State} {p l : Nat} (w : s.Canonical) : (s.released' p l).Canonical := by
  unfold State.released'
  dsimp only
  split
  · exact modLane_canonical w
  · exact arriveOp_canonical (modLane_canonical w)

theorem putWindow_canonical {s : State} {p l : Nat} {v : Trav} {node : Nat} (w : s.Canonical) :
    (s.putWindow p l v node).Canonical := by
  unfold State.putWindow
  dsimp only
  refine foldl_canonical (fun s1 k w1 => ?_) w
  split
  · exact put_canonical (wr_canonical w1)
  · exact wr_canonical w1

theorem releaseTo_canonical {s : State} {p l : Nat} {v : Trav} {label kind word : Nat} (w : s.Canonical) :
    (s.releaseTo p l v label kind word).Canonical :=
  releaseLane_canonical (released'_canonical (modLane_canonical (wr_canonical w)))

theorem endTrav_canonical {s : State} {p l : Nat} {v : Trav} {reason : Nat} (w : s.Canonical) :
    (s.endTrav p l v reason).Canonical := by
  unfold State.endTrav
  dsimp only
  refine exitCheck_canonical (releaseLane_canonical ?_)
  split
  · exact laneExit_canonical (released'_canonical (modLane_canonical (wr_canonical (modLane_canonical w))))
  · exact released'_canonical (modLane_canonical (wr_canonical (modLane_canonical w)))

theorem visitChild_canonical {s : State} {p l : Nat} {v : Trav} {f : Frame} {c : Nat} (w : s.Canonical) :
    (s.visitChild p l v f c).Canonical := by
  unfold State.visitChild
  dsimp only
  split
  · split
    · exact modLane_canonical w
    · split
      · exact modLane_canonical w
      · exact releaseTo_canonical (modLane_canonical w)
  · split
    · exact modLane_canonical w
    · split
      · exact modLane_canonical w
      · exact releaseTo_canonical (modLane_canonical w)

theorem finishFrame_canonical {s : State} {p l : Nat} {v : Trav} {f : Frame} (w : s.Canonical) :
    (s.finishFrame p l v f).Canonical := by
  unfold State.finishFrame
  dsimp only
  split
  · exact modLane_canonical w
  · split
    · exact endTrav_canonical w
    · exact modLane_canonical w

theorem loadSegment_canonical {s : State} {p l : Nat} {v : Trav} (w : s.Canonical) :
    (s.loadSegment p l v).Canonical := by
  unfold State.loadSegment
  dsimp only
  split
  · exact endTrav_canonical w
  · exact modLane_canonical w

theorem runnerStep_canonical {s : State} {p l : Nat} {v : Trav} (w : s.Canonical) :
    (s.runnerStep p l v).Canonical := by
  unfold State.runnerStep
  dsimp only
  split
  · exact releaseTo_canonical (putWindow_canonical w)
  · exact releaseTo_canonical (putWindow_canonical w)
  · split
    · exact visitChild_canonical w
    · exact finishFrame_canonical w
  · exact loadSegment_canonical w
  · exact endTrav_canonical w

theorem runnerLoop_canonical {p l n : Nat} {s : State} (w : s.Canonical) : (State.runnerLoop p l n s).Canonical := by
  induction n generalizing s with
  | zero => exact w
  | succ n ih =>
    unfold State.runnerLoop
    split
    · exact w
    · dsimp only
      split
      · exact w
      · split
        · exact ih (runnerStep_canonical w)
        · split
          · exact nodeReads_canonical w
          · exact ih (nodeReads_canonical w)

theorem runnerRelease_canonical {s : State} {p l : Nat} (w : s.Canonical) : (s.runnerRelease p l).Canonical :=
  runnerLoop_canonical w

theorem travHelper_canonical {s : State} {c : Ctx} {vr don l : Nat} (w : s.Canonical) :
    (s.travHelper c vr don l).Canonical := leave_canonical (wr_canonical w)

theorem travLane_canonical {s : State} {c : Ctx} {v : Trav} {res : Bool} {op : Nat} {acq : Option Nat} {l root : Nat}
    (w : s.Canonical) : (s.travLane c v res op acq l root).Canonical := modLane_canonical (depart_canonical w)

theorem travIssue_canonical {res : Bool} {d a : Reg} {o : TravOps} {c : Ctx} {s0 : State} (w : s0.Canonical) :
    (travIssue res d a o c s0).Canonical := by
  unfold travIssue
  dsimp only
  split
  · exact eachLane_canonical (fun _ _ w1 => travHelper_canonical w1) w
  · split
    · exact raise_canonical w
    · split
      · exact raise_canonical w
      · exact eachLane_canonical (fun _ _ w1 => travHelper_canonical w1)
          (eachLane_canonical (fun _ _ w1 => travLane_canonical w1) (modPart_canonical (raiseOp_canonical w)))

theorem tretIssue_canonical {kinds : List Nat} {acq : Bool} {sco : Scope} {f : Trav → Nat → State → Frame → Frame}
    {c : Ctx} {s0 : State} (w : s0.Canonical) : (tretIssue kinds acq sco f c s0).Canonical := by
  unfold tretIssue
  dsimp only
  split
  · exact w
  · split
    · exact eachLane_canonical (fun _ _ w1 => modLane_canonical (depart_canonical w1)) (raiseOp_canonical w)
    · exact raise_canonical w

theorem stopLane_canonical {s : State} {c : Ctx} {v : Trav} {l : Nat} (w : s.Canonical) :
    (s.stopLane c v l).Canonical := leave_canonical (modLane_canonical (wr_canonical w))

theorem execTretStop_canonical {h : Hdr} {acq : Bool} {sco : Scope} {s : State} (w : s.Canonical) :
    OutCanonical (execTretStop h acq sco s) := by
  unfold execTretStop
  refine issue_canonical (fun c' u w1 => ?_) w
  split
  · exact w1
  · split
    · exact exitCheck_canonical (eachLane_canonical (fun _ _ w2 => stopLane_canonical w2) w1)
    · exact raise_canonical w1

theorem tcutIssue_canonical {d a : Reg} {o : TcutOps} {c : Ctx} {s : State} (w : s.Canonical) :
    (tcutIssue d a o c s).Canonical := by
  unfold tcutIssue
  dsimp only
  split
  · exact w
  · split
    · exact raise_canonical w
    · split
      · exact raise_canonical w
      · split
        · exact raise_canonical w
        · exact eachLane_canonical (fun _ _ w1 => modLane_canonical w1)
            (pendBar_canonical (put_canonical (takeId_canonical w)))

theorem tcutComplete_canonical {s : State} {id : Nat} (w : s.Canonical) : (s.tcutComplete id).Canonical := by
  unfold State.tcutComplete
  dsimp only
  split
  · exact w
  · split
    · exact w
    · split
      · exact cmdRun_canonical w
      · split
        · exact cmdComplete_canonical (cmdRun_canonical w)
        · exact cmdRun_canonical w

/-! ## The guest -/

theorem setGqueue_canonical {s : State} {q : Nat} {g : GQueue} (w : s.Canonical) : (s.setGqueue q g).Canonical :=
  put_canonical w

theorem modGqueue_canonical {s : State} {q : Nat} {f : GQueue → GQueue} (w : s.Canonical) :
    (s.modGqueue q f).Canonical := setGqueue_canonical w

theorem modGuest_canonical {s : State} {f : Guest → Guest} (w : s.Canonical) : (s.modGuest f).Canonical :=
  put_canonical w

theorem postPacket_canonical {s : State} {q : Nat} {x : Packet} {sco : Scope} (w : s.Canonical) :
    (s.postPacket q x sco).Canonical := modGqueue_canonical w

theorem execGpost_canonical {h : Hdr} {d a qr : Reg} {ord : Ord} {sco : Scope} {s : State} (w : s.Canonical) :
    OutCanonical (execGpost h d a qr ord sco s) := by
  unfold execGpost
  dsimp only
  refine issue_canonical (fun c' u w1 => ?_) w
  split
  · split
    · exact status_canonical w1
    · exact postPacket_canonical (raiseOp_canonical (status_canonical w1))
  · exact w1

theorem execGpoll_canonical {h : Hdr} {d qr : Reg} {s : State} (w : s.Canonical) :
    OutCanonical (execGpoll h d qr s) := by
  unfold execGpoll
  dsimp only
  refine issue_canonical (fun c' u w1 => ?_) w
  split
  · exact foldl_canonical (fun _ _ w2 => postWords_canonical w2) w1
  · exact w1

theorem guestDeliver_canonical {s : State} {q : Nat} (w : s.Canonical) : (s.guestDeliver q).Canonical := by
  unfold State.guestDeliver
  dsimp only
  split
  · exact w
  · split
    · exact w
    · split
      · split
        · exact guestMoves_canonical w
        · exact modGqueue_canonical (guestMoves_canonical w)
      · split
        · exact w
        · exact modGqueue_canonical w

theorem endPacket_canonical {s : State} {q : Nat} {k : Packet} {time : Nat} {behalf : Bool} (w : s.Canonical) :
    (s.endPacket q k time behalf).Canonical := by
  unfold State.endPacket
  dsimp only
  split
  · split
    · exact modGqueue_canonical w
    · split
      · exact failNode_canonical (modGqueue_canonical w)
      · exact nodeDone_canonical (modGqueue_canonical w)
  · refine arriveOp_canonical ?_
    split
    · exact modGqueue_canonical w
    · exact raiseClock_canonical (modGqueue_canonical w)

theorem guestKeeps_canonical {α : Type} {s : State} {r : State × Got α} (w : s.Canonical) (hr : r.1.Canonical) :
    (s.guestKeeps r).1.Canonical := by
  unfold State.guestKeeps
  dsimp only
  split
  · exact guestMoves_canonical w
  · exact hr

theorem writeCompl_canonical {s : State} {q : Nat} {k : Packet} {word : Nat} {rel : Bool} (w : s.Canonical) :
    (s.writeCompl q k word rel).1.Canonical := by
  unfold State.writeCompl
  dsimp only
  split
  · exact w
  · exact guestKeeps_canonical w (agentWriteAt_canonical w)

theorem setStatus_canonical {s : State} {q seq status : Nat} (w : s.Canonical) :
    (s.setStatus q seq status).Canonical := modGqueue_canonical w

theorem breakGuest_canonical {s : State} {code : Nat} (w : s.Canonical) : (s.breakGuest code).Canonical := by
  unfold State.breakGuest
  dsimp only
  split
  · exact w
  · exact modGuest_canonical (foldl_canonical (fun _ _ w1 => putBytes_canonical _ _ _ _ _ _ w1)
      (signalFault_canonical (modGuest_canonical w)))

theorem completeHead_canonical {s : State} {q : Nat} (w : s.Canonical) : (s.completeHead q).1.Canonical := by
  unfold State.completeHead
  dsimp only
  split
  · exact w
  · split
    · exact w
    · split
      · exact w
      · split
        · rename_i e2
          exact endPacket_canonical (canonical_fst e2 (writeCompl_canonical w))
        · rename_i e2
          exact await_canonical (canonical_fst e2 (writeCompl_canonical w))
        · rename_i u _ e2
          have hu : u.Canonical := canonical_fst e2 (writeCompl_canonical w)
          split
          · split
            · exact endPacket_canonical (reportViolation_canonical hu)
            · exact endPacket_canonical (breakGuest_canonical (reportViolation_canonical hu))
          · split
            · rename_i e3
              exact await_canonical (canonical_snd e3 (reportFault_canonical hu))
            · rename_i u1 e3
              have hu1 : u1.Canonical := canonical_snd e3 (reportFault_canonical hu)
              split
              · exact endPacket_canonical hu1
              · exact endPacket_canonical (breakGuest_canonical hu1)

theorem finishQueue_canonical {s : State} {q : Nat} (w : s.Canonical) : (s.finishQueue q).Canonical := by
  unfold State.finishQueue
  refine canonical_foldl_fst (fun r x w1 => ?_) w
  split
  · exact completeHead_canonical w1
  · exact w1

theorem loseCompletion_canonical {s : State} {q seq : Nat} (w : s.Canonical) : (s.loseCompletion q seq).Canonical := by
  unfold State.loseCompletion
  split
  · exact w
  · refine endPacket_canonical ?_
    split
    · exact w
    · exact breakGuest_canonical w

theorem finishQueues_canonical {s : State} (w : s.Canonical) : s.finishQueues.Canonical :=
  foldl_canonical (fun _ _ w1 => finishQueue_canonical w1) w

theorem freezeGuest_canonical {s : State} {code : Nat} (w : s.Canonical) : (s.freezeGuest code).Canonical := by
  unfold State.freezeGuest
  split
  · exact w
  · exact finishQueues_canonical (breakGuest_canonical w)

theorem guestReport_canonical {s : State} {q seq status : Nat} (w : s.Canonical) :
    (s.guestReport q seq status).Canonical := by
  unfold State.guestReport
  split
  · exact finishQueues_canonical w
  · split
    · exact w
    · split
      · split
        · exact finishQueues_canonical (finishQueue_canonical (setStatus_canonical w))
        · exact freezeGuest_canonical w
      · exact freezeGuest_canonical w

theorem answer_canonical {s : State} {x : Option (List Nat)} (w : s.Canonical) : (s.answer x).Canonical :=
  modGuest_canonical w

theorem guestAbort_canonical {s : State} {q vf spid : Nat} (w : s.Canonical) : (s.guestAbort q vf spid).Canonical :=
  modGqueue_canonical (answer_canonical w)

theorem walked_canonical {r : State × Res Tlb} (w : r.1.Canonical) : (walked r).1.Canonical := w

theorem guestTranslate_canonical {s : State} {q vf spid va : Nat} {write : Bool} (w : s.Canonical) :
    (s.guestTranslate q vf spid va write).Canonical := by
  unfold State.guestTranslate
  dsimp only
  split
  · exact w
  · split
    · exact answer_canonical w
    · split
      · rename_i e1
        exact await_canonical (canonical_fst e1 (guestKeeps_canonical w (walked_canonical (resolve_canonical w))))
      · rename_i e1
        exact answer_canonical (modGuest_canonical (canonical_fst e1
          (guestKeeps_canonical w (walked_canonical (resolve_canonical w)))))
      · rename_i u _ e1
        have hu : u.Canonical := canonical_fst e1 (guestKeeps_canonical w (walked_canonical (resolve_canonical w)))
        split
        · exact freezeGuest_canonical (reportViolation_canonical hu)
        · split
          · rename_i e2
            exact await_canonical (canonical_snd e2 (reportFault_canonical hu))
          · rename_i e2
            exact guestAbort_canonical (canonical_snd e2 (reportFault_canonical hu))

theorem guestHolds_canonical {s : State} {sec : Nat} {x : GSector} (w : s.Canonical) :
    (s.guestHolds sec x).Canonical := modGuest_canonical w

theorem guestOutside_canonical {s : State} {q pa kind : Nat} (w : s.Canonical) :
    (s.guestOutside q pa kind).Canonical := freezeGuest_canonical (reportViolation_canonical w)

theorem guestMark_canonical {s : State} {who : Who} {e : Tlb} {write : Bool} (w : s.Canonical) :
    (s.guestMark who e write).Canonical := modGuest_canonical (markUsed_canonical w)

theorem guestRead_canonical {s : State} {e : Tlb} {pa len : Nat} (w : s.Canonical) :
    OptCanonical (s.guestRead e pa len) := by
  unfold State.guestRead
  dsimp only
  split
  · exact none_canonical
  · split
    · exact none_canonical
    · exact some_canonical (answer_canonical (modGuest_canonical (guestHolds_canonical
        (grant_canonical _ _ _ _ _ _ (guestMark_canonical w)))))

theorem guestOwns_canonical {s : State} {e : Tlb} {sec : Nat} (w : s.Canonical) : (s.guestOwns e sec).1.Canonical := by
  unfold State.guestOwns
  dsimp only
  split
  · exact w
  · split
    · exact w
    · exact modGuest_canonical (guestHolds_canonical (takeTime_canonical _ _ _ _ _ _ (guestMark_canonical w)))

theorem guestWrite_canonical {s : State} {q : Nat} {e : Tlb} {pa len data : Nat} (w : s.Canonical) :
    (s.guestWrite q e pa len data).1.Canonical := by
  unfold State.guestWrite
  dsimp only
  split
  · exact guestOwns_canonical w
  · split
    · rename_i e1
      split
      · exact w
      · exact modGuest_canonical (canonical_fst e1 (writePage_canonical w))
    · rename_i e1
      exact canonical_fst e1 (writePage_canonical w)

theorem guestAccess_canonical {s : State} {q pa len : Nat} {write : Bool} {data : Nat} (w : s.Canonical) :
    (s.guestAccess q pa len write data).Canonical := by
  unfold State.guestAccess
  dsimp only
  split
  · exact w
  · split
    · exact guestOutside_canonical w
    · split
      · exact freezeGuest_canonical (reportViolation_canonical w)
      · split
        · exact w
        · split
          · split
            · split
              · exact w
              · exact modGuest_canonical (takeId_canonical w)
            · split
              · exact guestWrite_canonical w
              · exact modGuest_canonical (takeId_canonical (guestWrite_canonical w))
          · split
            · exact w
            · exact getD_canonical (guestRead_canonical w) w

theorem settleInvals_canonical {s : State} (w : s.Canonical) : s.settleInvals.Canonical := modGuest_canonical w

theorem guestWrites_canonical {s : State} (w : s.Canonical) : s.guestWrites.Canonical := by
  unfold State.guestWrites
  dsimp only
  split
  · refine finishQueues_canonical (settleInvals_canonical (foldl_canonical (fun s1 id w1 => ?_) w))
    split
    · exact w1
    · split
      · exact w1
      · split
        · rename_i e1
          exact modGuest_canonical (canonical_fst e1 (guestWrite_canonical w1))
        · rename_i e1
          exact canonical_fst e1 (guestWrite_canonical w1)
  · refine foldl_canonical (fun s1 id w1 => ?_) w
    split
    · exact w1
    · split
      · exact w1
      · split
        · rename_i e1
          exact modGuest_canonical (canonical_fst e1 (guestWrite_canonical w1))
        · rename_i e1
          exact canonical_fst e1 (guestWrite_canonical w1)

theorem guestAck_canonical {s : State} {id : Nat} (w : s.Canonical) : (s.guestAck id).Canonical := by
  unfold State.guestAck
  split
  · exact w
  · exact settleInvals_canonical (modGuest_canonical w)

theorem askInvalidate_canonical {s : State} {which : Tlb → Bool} (w : s.Canonical) :
    (s.askInvalidate which).2.Canonical := by
  unfold State.askInvalidate
  dsimp only
  split
  · exact w
  · exact modGuest_canonical (takeId_canonical w)

theorem snoop_canonical {s : State} {sec : Nat} (w : s.Canonical) : (s.snoop sec).Canonical := modGuest_canonical w

theorem leaseSnoop_canonical {s : State} {pa : Nat} (w : s.Canonical) : (s.leaseSnoop pa).Canonical := by
  unfold State.leaseSnoop
  split
  · split
    · exact snoop_canonical w
    · exact w
  · exact w

theorem snoopAnswer_canonical {s : State} {pa data : Nat} (w : s.Canonical) : (s.snoopAnswer pa data).Canonical := by
  unfold State.snoopAnswer
  dsimp only
  split
  · exact w
  · split
    · exact putBytes_canonical _ _ _ _ _ _ (setHome_canonical (guestHolds_canonical w))
    · exact modGuest_canonical w

theorem quiesceAnswer_canonical {s : State} {q seq : Nat} {returned : Bool} (w : s.Canonical) :
    (s.quiesceAnswer q seq returned).Canonical := by
  unfold State.quiesceAnswer
  dsimp only
  split
  · exact w
  · split
    · exact w
    · split
      · split
        · split
          · exact repost_canonical (modGqueue_canonical w)
          · exact modGqueue_canonical w
        · exact modGqueue_canonical w
      · split
        · exact finishQueues_canonical (finishQueue_canonical
            (setStatus_canonical (outside_canonical (bump_canonical w))))
        · exact freezeGuest_canonical w

theorem guestBreach_canonical {s : State} {code : Nat} (w : s.Canonical) : (s.guestBreach code).Canonical := by
  unfold State.guestBreach
  split
  · exact finishQueues_canonical w
  · split
    · exact freezeGuest_canonical w
    · exact w

theorem resetSocket_canonical {s : State} (w : s.Canonical) : s.resetSocket.Canonical := by
  unfold State.resetSocket
  dsimp only
  refine modGuest_canonical ?_
  split
  · exact freezeGuest_canonical (modGuest_canonical w)
  · exact modGuest_canonical w

end Sys2Proof.Machine

end

section
/-! Memory stays canonical (log 1) under registers, system instructions, the events of the device, and cross-lane instructions. -/

namespace Sys2Proof.Machine

/-! ## Device registers -/

theorem retry_canonical {s : State} {i : Instr} (w : s.Canonical) : (s.retry i).Canonical := put_canonical w

theorem countEngines_canonical {s : State} {r : Nat} (w : s.Canonical) : (s.countEngines r).Canonical :=
  foldl_canonical (fun _ _ w1 => count_canonical w1) (foldl_canonical (fun _ _ w1 => count_canonical w1)
    (foldl_canonical (fun _ _ w1 => count_canonical w1) w))

theorem replayReport_canonical {s : State} {r : Nat} (w : s.Canonical) : (s.replayReport r).Canonical := by
  unfold State.replayReport
  dsimp only
  refine foldl_canonical (fun s1 x w1 => ?_) (put_canonical (countEngines_canonical w))
  split
  · exact retry_canonical w1
  · split
    · exact modPart_canonical w1
    · exact w1
  · exact w1

theorem abortEvent_canonical {s : State} {a : Instr} (w : s.Canonical) : (s.abortEvent a).Canonical := by
  unfold State.abortEvent
  dsimp only
  split
  · exact guestAbort_canonical w
  · exact finishQueues_canonical (loseCompletion_canonical w)
  · split
    · exact setLaunch_canonical w
    · exact endLaunch_canonical w
  · split
    · exact graphComplete_canonical (modQueue_canonical w)
    · exact w
  · exact await_canonical (modQueue_canonical w)
  · exact endRun_canonical w
  · exact failNode_canonical w
  · exact failNode_canonical w
  · exact failNode_canonical w
  · exact failNode_canonical w
  · exact failNode_canonical w
  · exact failNode_canonical w
  · exact failNode_canonical w
  · exact w

theorem abortPart_canonical {s : State} {p : Nat} (w : s.Canonical) : (s.abortPart p).Canonical := by
  unfold State.abortPart
  split
  · exact freezePart_canonical w
  · split
    · exact modPart_canonical w
    · exact w

theorem abortQueue_canonical {s : State} {p : Nat} {eng : Path} {from' : Nat} (w : s.Canonical) :
    (s.abortQueue p eng from').Canonical := by
  unfold State.abortQueue
  split
  · exact freezeQueue_canonical w
  · exact modPart_canonical w

theorem abortReport_canonical {s : State} {r : Nat} (w : s.Canonical) : (s.abortReport r).Canonical := by
  unfold State.abortReport
  dsimp only
  refine foldl_canonical (fun s1 x w1 => ?_) (foldl_canonical (fun _ _ w1 => abortQueue_canonical w1)
    (foldl_canonical (fun _ _ w1 => abortQueue_canonical w1)
    (foldl_canonical (fun s1 k w1 => ?_) (foldl_canonical (fun _ _ w1 => abortPart_canonical w1) (put_canonical w)))))
  · split
    · exact abortEvent_canonical w1
    · exact abortPart_canonical w1
    · exact w1
  · split
    · exact failNode_canonical w1
    · exact abortQueue_canonical w1

theorem closeReport_canonical {s : State} {r : Report} {abort : Bool} (w : s.Canonical) :
    (s.closeReport r abort).Canonical := put_canonical w

theorem fresWrite_canonical {s : State} {ring value : Nat} (w : s.Canonical) : (s.fresWrite ring value).Canonical := by
  unfold State.fresWrite
  dsimp only
  split
  · exact w
  · split
    · exact w
    · split
      · exact abortReport_canonical (closeReport_canonical w)
      · exact replayReport_canonical (closeReport_canonical w)

theorem dropCovered_canonical {s : State} {v : Inval} (w : s.Canonical) : (s.dropCovered v).Canonical :=
  foldl_canonical (fun _ _ w1 => foldl_canonical (fun _ _ w2 => retireSec_canonical w2) w1) w

theorem invalidate_canonical {s : State} {v : Inval} (w : s.Canonical) : (s.invalidate v).Canonical :=
  dropCovered_canonical (put_canonical w)

theorem checkRelease_canonical {s : State} (w : s.Canonical) : s.checkRelease.Canonical := by
  unfold State.checkRelease
  dsimp only
  split
  · exact w
  · exact put_canonical w

theorem enWrite_canonical {s : State} {f value : Nat} (w : s.Canonical) : (s.enWrite f value).Canonical :=
  checkRelease_canonical (modFn_canonical w)

theorem clearQueues_canonical {s : State} {f : Nat} (w : s.Canonical) : (s.clearQueues f).Canonical := put_canonical w

theorem clearPending_canonical {s : State} {f : Nat} (w : s.Canonical) : (s.clearPending f).Canonical :=
  put_canonical w

theorem discardReports_canonical {s : State} {f : Nat} (w : s.Canonical) : (s.discardReports f).Canonical :=
  foldl_canonical (fun _ _ w1 => wakeReplay_canonical (fixGroup_canonical (bump_canonical w1))) (put_canonical w)

theorem dropUnowned_canonical {s : State} {f : Nat} (w : s.Canonical) : (s.dropUnowned f).Canonical := put_canonical w

theorem startReset_canonical {s : State} {f : Nat} (w : s.Canonical) : (s.startReset f).Canonical := by
  unfold State.startReset
  dsimp only
  split
  · exact w
  · exact askInvalidate_canonical (invalidate_canonical (discardReports_canonical
      (dropUnowned_canonical (put_canonical (quiesce_canonical
      (clearQueues_canonical (foldl_canonical (fun _ _ w1 => setLaunch_canonical (terminate_canonical w1))
      (clearPending_canonical (clearQueues_canonical (modFn_canonical w))))))))))

theorem finishReset_canonical {s : State} {f : Nat} (w : s.Canonical) : (s.finishReset f).Canonical := by
  unfold State.finishReset
  dsimp only
  split
  · exact w
  · split
    · exact askInvalidate_canonical w
    · exact put_canonical (modFn_canonical (dropUnowned_canonical (invalidate_canonical w)))

theorem evselWrite_canonical {s : State} {n value : Nat} (w : s.Canonical) : (s.evselWrite n value).Canonical :=
  put_canonical w

theorem trctlWrite_canonical {s : State} {d value : Nat} (w : s.Canonical) : (s.trctlWrite d value).Canonical :=
  modDie_canonical w

theorem stopatWrite_canonical {s : State} {value : Nat} (w : s.Canonical) : (s.stopatWrite value).Canonical :=
  put_canonical w

theorem stopNow_canonical {s : State} (w : s.Canonical) : s.stopNow.Canonical := by
  unfold State.stopNow
  split
  · exact put_canonical w
  · exact w

theorem goWrite_canonical {s : State} {value : Nat} (w : s.Canonical) : (s.goWrite value).Canonical := by
  unfold State.goWrite
  split
  · exact put_canonical w
  · exact w

theorem gqbWrite_canonical {s : State} {q value : Nat} (w : s.Canonical) : (s.gqbWrite q value).Canonical :=
  modGqueue_canonical w

theorem vfctlWrite_canonical {s : State} {f value : Nat} (w : s.Canonical) : (s.vfctlWrite f value).Canonical := by
  unfold State.vfctlWrite
  dsimp only
  split
  · exact startReset_canonical (enWrite_canonical (modFn_canonical w))
  · exact enWrite_canonical (modFn_canonical w)

theorem csrPut_canonical {s : State} {f n value : Nat} (w : s.Canonical) : (s.csrPut f n value).Canonical := by
  have fn (k : Nat) (g : Fn → Fn) : (s.modFn k g).Canonical := modFn_canonical w
  unfold State.csrPut
  refine ite_canonical (fn ..) ?_
  refine ite_canonical (fn ..) ?_
  refine ite_canonical (fn ..) ?_
  refine ite_canonical (fresWrite_canonical w) ?_
  refine ite_canonical (fn ..) ?_
  refine ite_canonical (fn ..) ?_
  refine ite_canonical (fn ..) ?_
  refine ite_canonical (fn ..) ?_
  refine ite_canonical (fn ..) ?_
  refine ite_canonical (ite_canonical (resetSocket_canonical w) w) ?_
  refine ite_canonical (gqbWrite_canonical w) ?_
  refine ite_canonical (fn ..) ?_
  refine ite_canonical (fresWrite_canonical w) ?_
  refine ite_canonical (fn ..) ?_
  refine ite_canonical (put_canonical w) ?_
  refine ite_canonical (vfctlWrite_canonical w) ?_
  refine ite_canonical (fn ..) ?_
  refine ite_canonical (fn ..) ?_
  refine ite_canonical (fn ..) ?_
  refine ite_canonical (ite_canonical (fn ..) w) ?_
  refine ite_canonical (evselWrite_canonical w) ?_
  refine ite_canonical (trctlWrite_canonical w) ?_
  refine ite_canonical (put_canonical w) ?_
  refine ite_canonical (stopatWrite_canonical w) ?_
  refine ite_canonical (goWrite_canonical w) ?_
  exact ite_canonical (put_canonical w) w

theorem csrWrite_canonical {s : State} {lvl : Level} {f n value : Nat} (w : s.Canonical) :
    (s.csrWrite lvl f n value).Canonical := by
  unfold State.csrWrite
  split
  · exact csrPut_canonical w
  · exact w

theorem dropNotify_canonical {s : State} {f : Nat} (w : s.Canonical) : (s.dropNotify f).Canonical := modFn_canonical w

theorem lnkstWrite_canonical {s : State} {n value : Nat} (w : s.Canonical) : (s.lnkstWrite n value).Canonical := by
  unfold State.lnkstWrite
  dsimp only
  split
  · exact put_canonical w
  · exact w

/-! ## System instructions -/

theorem execSys_canonical {h : Hdr} {d : Reg} {code : BitVec 16} {s : State} (w : s.Canonical) :
    OutCanonical (execSys h d code s) := by
  unfold execSys
  dsimp only
  refine issue_canonical (fun c' u w1 => ?_) w
  split
  · exact w1
  · exact takeTrap_canonical w1

theorem applyEret_canonical {s : State} {p var value time : Nat} (w : s.Canonical) :
    (s.applyEret p var value time).Canonical := by
  unfold State.applyEret
  dsimp only
  split
  · split
    · exact kill_canonical w
    · exact resume_canonical (raiseClock_canonical w)
  · exact modPart_canonical w

theorem eret_canonical {s0 : State} {c : Ctx} {d a b : Reg} {var : Nat} (w : s0.Canonical) :
    (s0.eret c d a b var).Canonical := by
  unfold State.eret
  dsimp only
  split
  · exact w
  · split
    · split
      · exact applyEret_canonical (status_canonical w)
      · exact status_canonical w
    · exact status_canonical w

theorem execCsrr_canonical {h : Hdr} {d : Reg} {csr : Fin 4096} {vf : Fin 64} {s : State} (w : s.Canonical) :
    OutCanonical (execCsrr h d csr vf s) := by
  unfold execCsrr
  dsimp only
  refine issue_canonical (fun c' u w1 => ?_) w
  split
  · exact w1
  · exact eachLane_canonical (fun _ _ w2 => wr64_canonical w2) (settleStores_canonical w1)

theorem execCsrw_canonical {h : Hdr} {a : Reg} {csr : Fin 4096} {vf : Fin 64} {s : State} (w : s.Canonical) :
    OutCanonical (execCsrw h a csr vf s) := by
  unfold execCsrw
  refine issue_canonical (fun c' u w1 => ?_) w
  split
  · exact w1
  · exact csrWrite_canonical (settleStores_canonical w1)

theorem tinv_canonical {s : State} {c : Ctx} {v : Inval} (w : s.Canonical) : (s.tinv c v).Canonical := by
  unfold State.tinv
  dsimp only
  split
  · split
    · exact stall_canonical w
    · exact modPart_canonical w
  · split
    · exact stall_canonical w
    · split
      · exact askInvalidate_canonical (invalidate_canonical w)
      · exact stall_canonical (modPart_canonical (askInvalidate_canonical (invalidate_canonical w)))

theorem execTinvVa_canonical {h : Hdr} {o : TinvOps} {s : State} (w : s.Canonical) :
    OutCanonical (execTinvVa h o s) := by
  unfold execTinvVa
  dsimp only
  refine issue_canonical (fun c' u w1 => ?_) w
  split
  · exact w1
  · split
    · exact w1
    · exact tinv_canonical w1

theorem execTinvSp_canonical {h : Hdr} {o : TinvOps} {s : State} (w : s.Canonical) :
    OutCanonical (execTinvSp h o s) := by
  unfold execTinvSp
  refine issue_canonical (fun c' u w1 => ?_) w
  split
  · exact w1
  · exact tinv_canonical w1

theorem execTinvFn_canonical {h : Hdr} {o : TinvOps} {s : State} (w : s.Canonical) :
    OutCanonical (execTinvFn h o s) := by
  unfold execTinvFn
  refine issue_canonical (fun c' u w1 => ?_) w
  split
  · exact w1
  · exact tinv_canonical w1

theorem execTinvIpa_canonical {h : Hdr} {o : TinvOps} {s : State} (w : s.Canonical) :
    OutCanonical (execTinvIpa h o s) := by
  unfold execTinvIpa
  refine issue_canonical (fun c' u w1 => ?_) w
  split
  · exact w1
  · exact tinv_canonical w1

theorem execTmark_canonical {h : Hdr} {a : Reg} {code : BitVec 16} {s : State} (w : s.Canonical) :
    OutCanonical (execTmark h a code s) := by
  unfold execTmark
  dsimp only
  refine issue_canonical (fun c' u w1 => ?_) w
  split
  · exact w1
  · split
    · exact trace_canonical w1
    · exact w1

/-! ## Events of the fetch and the memory system -/

theorem execInstructionFetchFill_canonical {id : Nat} {s : State} (w : s.Canonical) :
    OutCanonical (execInstructionFetchFill id s) := by
  unfold execInstructionFetchFill
  refine next_canonical ?_
  split
  · split
    · exact fillArrives_canonical w
    · exact w
  · exact w

theorem gatherFor_canonical {s : State} {g : Nat} (w : s.Canonical) : (s.gatherFor g).Canonical := by
  unfold State.gatherFor
  split
  · exact cmdPiece_canonical w
  · exact w

theorem landOne_canonical {s : State} {d : Deferred} (w : s.Canonical) : (s.landOne d).Canonical :=
  land_canonical (put_canonical w)

theorem landGroup_canonical {s : State} {g : Nat} (w : s.Canonical) : (s.landGroup g).Canonical := by
  unfold State.landGroup
  dsimp only
  split
  · split
    · refine foldl_canonical (fun s1 d w1 => ?_) (gatherFor_canonical w)
      split
      · exact landOne_canonical w1
      · exact w1
    · exact gatherFor_canonical w
  · split
    · refine foldl_canonical (fun s1 d w1 => ?_) w
      split
      · exact landOne_canonical w1
      · exact w1
    · exact w

theorem pathArrives_canonical {s : State} {op : Nat} (w : s.Canonical) : (s.pathArrives op).Canonical := by
  unfold State.pathArrives
  dsimp only
  split
  · exact w
  · split
    · exact w
    · split
      · split
        · exact w
        · split
          · split
            · exact cmdComplete_canonical (cmdRun_canonical w)
            · exact cmdRun_canonical w
          · exact cmdRun_canonical w
      · split
        · exact arriveOp_canonical w
        · exact w

theorem execTableWalk_canonical {id : Nat} {s : State} (w : s.Canonical) : OutCanonical (execTableWalk id s) := by
  unfold execTableWalk
  refine next_canonical ?_
  split
  · split
    · exact replay_canonical w
    · exact w
  · exact w

theorem writeReport_canonical {s : State} {r : Report} (w : s.Canonical) : (s.writeReport r).Canonical := by
  unfold State.writeReport
  dsimp only
  split
  · exact w
  · split
    · split
      · exact put_canonical w
      · exact abortReport_canonical (put_canonical w)
    · split
      · exact w
      · split
        · exact signalFault_canonical (put_canonical (modFn_canonical (deviceWrite_canonical _ _ _ _ _ w)))
        · exact put_canonical (modFn_canonical (deviceWrite_canonical _ _ _ _ _ w))

theorem execFaultRecord_canonical {id : Nat} {s : State} (w : s.Canonical) : OutCanonical (execFaultRecord id s) := by
  unfold execFaultRecord
  refine next_canonical ?_
  split
  · split
    · exact writeReport_canonical w
    · exact w
  · exact w

theorem execStashFill_canonical {block va : Nat} {s : State} (w : s.Canonical) :
    OutCanonical (execStashFill block va s) := by
  unfold execStashFill
  refine next_canonical ?_
  split
  · split
    · exact replay_canonical w
    · exact w
  · exact w

theorem clockAdvance_canonical {s : State} {core : Nat} (w : s.Canonical) : (s.clockAdvance core).Canonical :=
  modCore_canonical w

theorem clockRaise_canonical {s : State} {core : Nat} (w : s.Canonical) : (s.clockRaise core).Canonical :=
  modCore_canonical w

theorem execClockAdvance_canonical {core : Nat} {s : State} (w : s.Canonical) :
    OutCanonical (execClockAdvance core s) := by
  unfold execClockAdvance
  refine next_canonical ?_
  split
  · exact clockAdvance_canonical w
  · exact w

theorem execClockRaise_canonical {core : Nat} {s : State} (w : s.Canonical) :
    OutCanonical (execClockRaise core s) := by
  unfold execClockRaise
  refine next_canonical ?_
  split
  · exact clockRaise_canonical w
  · exact w

theorem startClocks_canonical {s : State} (w : s.Canonical) : s.startClocks.Canonical := by
  unfold State.startClocks
  dsimp only
  split
  · refine put_canonical (modGuest_canonical (foldl_canonical (fun _ _ w1 => clockRaise_canonical w1) ?_))
    split
    · exact modGuest_canonical (foldl_canonical (fun _ _ w1 => clockAdvance_canonical w1) w)
    · exact w
  · split
    · exact modGuest_canonical (foldl_canonical (fun _ _ w1 => clockAdvance_canonical w1) w)
    · exact w

theorem execReplicatedCommitLock_canonical {id : Nat} {s : State} (w : s.Canonical) :
    OutCanonical (execReplicatedCommitLock id s) := by
  unfold execReplicatedCommitLock
  refine next_canonical ?_
  split
  · exact lockCommit_canonical w
  · exact w

theorem execReplicatedCommitUpdate_canonical {id : Nat} {s : State} (w : s.Canonical) :
    OutCanonical (execReplicatedCommitUpdate id s) := by
  unfold execReplicatedCommitUpdate
  refine next_canonical ?_
  split
  · exact updateCommit_canonical w
  · exact w

theorem linkError_canonical {s : State} {link why : Nat} (w : s.Canonical) : (s.linkError link why).Canonical := by
  unfold State.linkError
  dsimp only
  split
  · exact put_canonical w
  · exact signal_canonical (put_canonical w)

theorem missCommit_canonical {s : State} {k : Commit} {link : Nat} (w : s.Canonical) :
    (s.missCommit k link).Canonical := by
  unfold State.missCommit
  dsimp only
  refine linkError_canonical ?_
  split
  · exact fixGroup_canonical (closeCommit_canonical (foldl_canonical
      (fun _ _ w1 => putBytes_canonical _ _ _ _ _ _ w1) w))
  · exact closeCommit_canonical (foldl_canonical (fun _ _ w1 => putBytes_canonical _ _ _ _ _ _ w1) w)

theorem execCommitBoundMissed_canonical {id link : Nat} {s : State} (w : s.Canonical) :
    OutCanonical (execCommitBoundMissed id link s) := by
  unfold execCommitBoundMissed
  refine next_canonical ?_
  split
  · split
    · exact missCommit_canonical w
    · exact w
  · exact w

theorem ladleDone_canonical {s : State} {id : Nat} (w : s.Canonical) : (s.ladleDone id).Canonical := by
  unfold State.ladleDone
  dsimp only
  split
  · exact cmdRun_canonical w
  · split
    · split
      · exact failNode_canonical (dropCmd_canonical (cmdRun_canonical w))
      · split
        · exact nodeDone_canonical (dropCmd_canonical (cmdRun_canonical w))
        · exact cmdRun_canonical w
    · split
      · exact cmdComplete_canonical (cmdRun_canonical w)
      · exact cmdRun_canonical w

theorem writeTrap_canonical {s : State} {x : TrapOut} (w : s.Canonical) : (s.writeTrap x).Canonical := by
  unfold State.writeTrap
  extract_lets ring l cls s1 pro empty time s2 s3 s4 core s5
  have h1 : s1.Canonical := put_canonical w
  have h3 : s3.Canonical := modFn_canonical (deviceWriteAt_canonical _ _ _ _ _ _ h1)
  have h4 : s4.Canonical := ite_canonical (signalTrap_canonical h3) h3
  have h5 : s5.Canonical := ite_canonical (trace_canonical h4) h4
  refine ite_canonical h1 (ite_canonical (ite_canonical h1 (kill_canonical h1)) (ite_canonical w ?_))
  exact ite_canonical (terminate_canonical h5) h5

theorem execTrapRecord_canonical {id : Nat} {s : State} (w : s.Canonical) : OutCanonical (execTrapRecord id s) := by
  unfold execTrapRecord
  refine next_canonical ?_
  split
  · exact writeTrap_canonical w
  · exact w

theorem stallTest_canonical {s : State} {core : Nat} (w : s.Canonical) : (s.stallTest core).Canonical := by
  unfold State.stallTest
  dsimp only
  split
  · exact w
  · split
    · exact modCore_canonical w
    · exact foldl_canonical (fun _ _ w1 => trapAt_canonical w1) (modCore_canonical w)

theorem watchdogFires_canonical {s : State} {l : Nat} (w : s.Canonical) : (s.watchdogFires l).Canonical := by
  unfold State.watchdogFires
  dsimp only
  split
  · exact w
  · split
    · exact w
    · exact terminate_canonical (put_canonical (takeId_canonical w))

theorem watchdogs_canonical {s : State} (w : s.Canonical) : s.watchdogs.Canonical :=
  foldl_canonical (fun _ _ w1 => watchdogFires_canonical w1) w

/-! ## The host, graphs and boot -/

theorem takeDesc_canonical {s : State} {g x pa : Nat} (w : s.Canonical) : (s.takeDesc g x pa).1.Canonical := by
  unfold State.takeDesc
  dsimp only
  refine modQueue_canonical ?_
  split
  · exact deviceWriteAt_canonical _ _ _ _ _ _ w
  · exact w

theorem readRing_canonical {s : State} {f q pa ring size n head : Nat} (w : s.Canonical) :
    (s.readRing f q pa ring size n head).1.Canonical := by
  induction n generalizing s head with
  | zero => exact w
  | succ n ih =>
    have h : ((s.raiseClock (s.walkerWho (f * 256 + q)).core (s.queue (f * 256 + q)).time).agentRead
        (s.walkerWho (f * 256 + q)) (ring + 64 * head) 64).1.Canonical :=
      agentRead_canonical (raiseClock_canonical w)
    unfold State.readRing
    dsimp only
    split
    · rename_i e
      exact ih (deviceWriteAt_canonical _ _ _ _ _ _ (modQueue_canonical (canonical_fst e h)))
    · rename_i e
      exact await_canonical (modQueue_canonical (canonical_fst e h))
    · rename_i e
      split
      · exact reportViolation_canonical (canonical_fst e h)
      · split
        · rename_i e1
          exact await_canonical (modQueue_canonical (canonical_snd e1 (reportFault_canonical (canonical_fst e h))))
        · rename_i e1
          exact canonical_snd e1 (reportFault_canonical (canonical_fst e h))

theorem serveNotify_canonical {s : State} {f q tail : Nat} {left : Option Nat} (w : s.Canonical) :
    (s.serveNotify f q tail left).1.Canonical := by
  unfold State.serveNotify
  dsimp only
  split
  · exact dropNotify_canonical w
  · split
    · rename_i u _ e
      have hu : u.Canonical := canonical_fst e (inWalk_canonical (fun _ w1 => stage2_canonical w1) w)
      split
      · rename_i e1
        exact await_canonical (canonical_snd e1 (reportFault_canonical hu))
      · rename_i e1
        exact dropNotify_canonical (canonical_snd e1 (reportFault_canonical hu))
    · rename_i u _ e
      have hu : u.Canonical := canonical_fst e (inWalk_canonical (fun _ w1 => stage2_canonical w1) w)
      split
      · exact dropNotify_canonical hu
      · split
        · exact await_canonical hu
        · split
          · exact dropNotify_canonical (modQueue_canonical (unpoison_canonical (deviceRead_canonical _ _ _ _ hu)))
          · exact readRing_canonical (takeDesc_canonical (unpoison_canonical (deviceRead_canonical _ _ _ _ hu)))

theorem keepTails_canonical {s : State} {g : Nat} {ts : List Nat} (w : s.Canonical) : (s.keepTails g ts).Canonical :=
  modQueue_canonical w

theorem serveTails_canonical {s : State} {f q : Nat} {left : Option Nat} {ts : List Nat} (w : s.Canonical) :
    (s.serveTails f q left ts).Canonical := by
  induction ts generalizing s left with
  | nil => exact w
  | cons t ts ih =>
    unfold State.serveTails
    split
    · rename_i e
      exact ih (keepTails_canonical (modQueue_canonical (canonical_fst e (serveNotify_canonical w))))
    · rename_i e
      exact canonical_fst e (serveNotify_canonical w)

theorem notify_canonical {s : State} {f q tail : Nat} (w : s.Canonical) : (s.notify f q tail).Canonical := by
  unfold State.notify
  dsimp only
  split
  · exact dropNotify_canonical w
  · split
    · exact keepTails_canonical w
    · split
      · rename_i e
        exact canonical_fst e (serveNotify_canonical w)
      · rename_i e
        exact keepTails_canonical (canonical_fst e (serveNotify_canonical w))

theorem notifyAgain_canonical {s : State} {f q : Nat} (w : s.Canonical) : (s.notifyAgain f q).Canonical := by
  unfold State.notifyAgain
  dsimp only
  split
  · exact w
  · split
    · exact await_canonical w
    · exact serveTails_canonical w

theorem startNodes_canonical {s : State} {g : Nat} {rs : List Nat} (w : s.Canonical) : (s.startNodes g rs).Canonical :=
  foldl_canonical (fun _ _ w1 => setNode_canonical (put_canonical w1)) w

theorem startSubmission_canonical {s : State} {f q : Nat} (w : s.Canonical) : (s.startSubmission f q).Canonical := by
  unfold State.startSubmission
  dsimp only
  split
  · split
    · exact w
    · split
      · rename_i u _ e2
        have hu : u.Canonical := canonical_fst e2 (agentRead_canonical (raiseClock_canonical w))
        split
        · split
          · exact graphComplete_canonical (modQueue_canonical hu)
          · exact startNodes_canonical (modQueue_canonical hu)
        · split
          · exact graphComplete_canonical (modQueue_canonical hu)
          · exact startNodes_canonical (modQueue_canonical hu)
      · rename_i e2
        exact await_canonical (canonical_fst e2 (agentRead_canonical (raiseClock_canonical w)))
      · rename_i u _ e2
        have hu : u.Canonical := canonical_fst e2 (agentRead_canonical (raiseClock_canonical w))
        split
        · exact graphComplete_canonical (modQueue_canonical (reportViolation_canonical hu))
        · split
          · rename_i e3
            exact await_canonical (canonical_snd e3 (reportFault_canonical hu))
          · rename_i e3
            exact graphComplete_canonical (modQueue_canonical (canonical_snd e3 (reportFault_canonical hu)))
  · exact w

theorem execSubmissionStart_canonical {vf q : Nat} {s : State} (w : s.Canonical) :
    OutCanonical (execSubmissionStart vf q s) := by
  unfold execSubmissionStart
  refine next_canonical ?_
  split
  · exact startSubmission_canonical w
  · exact w

theorem nodeStop_canonical {s : State} {g n : Nat} {who : Who} {x : Stop} {kind : Nat} {again : Instr}
    (w : s.Canonical) : (s.nodeStop g n who x kind again).Canonical := by
  unfold State.nodeStop
  dsimp only
  split
  · exact failNode_canonical (reportViolation_canonical w)
  · split
    · rename_i e
      exact await_canonical (canonical_snd e (reportFault_canonical w))
    · rename_i e
      exact failNode_canonical (canonical_snd e (reportFault_canonical w))

theorem enterNode_canonical {s : State} {g n : Nat} (w : s.Canonical) : (s.enterNode g n).Canonical := by
  unfold State.enterNode
  dsimp only
  split
  · exact w
  · split
    · rename_i e
      exact modNode_canonical (modDie_canonical (canonical_fst e (agentRead_canonical (raiseClock_canonical w))))
    · rename_i e
      exact await_canonical (canonical_fst e (agentRead_canonical (raiseClock_canonical w)))
    · rename_i e
      exact nodeStop_canonical (canonical_fst e (agentRead_canonical (raiseClock_canonical w)))

theorem beginNode_canonical {s : State} {g n : Nat} (w : s.Canonical) : (s.beginNode g n).Canonical :=
  modNode_canonical (raiseClock_canonical w)

theorem execNodeStartKernel_canonical {graph node : Nat} {s : State} (w : s.Canonical) :
    OutCanonical (execNodeStartKernel graph node s) := by
  unfold execNodeStartKernel
  refine next_canonical ?_
  split
  · exact startKernel_canonical (beginNode_canonical w)
  · exact w

theorem startCopy_canonical {s : State} {g n : Nat} (w : s.Canonical) : (s.startCopy g n).Canonical :=
  modNode_canonical (put_canonical (put_canonical (beginNode_canonical w)))

theorem execNodeStartCopy_canonical {graph node : Nat} {s : State} (w : s.Canonical) :
    OutCanonical (execNodeStartCopy graph node s) := by
  unfold execNodeStartCopy
  refine next_canonical ?_
  split
  · exact startCopy_canonical w
  · exact w

theorem withWord_canonical {s : State} {g n : Nat} {again : Instr} {f : State → Nat → State}
    (hf : ∀ u x, u.Canonical → (f u x).Canonical) (w : s.Canonical) : (s.withWord g n again f).Canonical := by
  have h : ((s.beginNode g n).agentRead (s.walkerWho g) (nOpa (s.node g n).raw) 4).1.Canonical :=
    agentRead_canonical (beginNode_canonical w)
  unfold State.withWord
  dsimp only
  split
  · rename_i e
    exact nodeDone_canonical (hf _ _ (canonical_fst e h))
  · rename_i e
    exact await_canonical (canonical_fst e h)
  · rename_i e
    exact nodeStop_canonical (canonical_fst e h)

theorem execNodeConditional_canonical {graph node : Nat} {s : State} (w : s.Canonical) :
    OutCanonical (execNodeConditional graph node s) := by
  unfold execNodeConditional
  refine next_canonical ?_
  split
  · exact withWord_canonical (fun _ _ w1 => modNode_canonical w1) w
  · exact w

theorem execNodeWhile_canonical {graph node : Nat} {s : State} (w : s.Canonical) :
    OutCanonical (execNodeWhile graph node s) := by
  unfold execNodeWhile
  refine next_canonical ?_
  split
  · exact withWord_canonical (fun _ _ w1 => modNode_canonical w1) w
  · exact w

theorem execNodeJoin_canonical {graph node : Nat} {s : State} (w : s.Canonical) :
    OutCanonical (execNodeJoin graph node s) := by
  unfold execNodeJoin
  refine next_canonical ?_
  split
  · exact nodeDone_canonical (beginNode_canonical w)
  · exact w

theorem hostSignal_canonical {s : State} {g n : Nat} (w : s.Canonical) : (s.hostSignal g n).Canonical := by
  unfold State.hostSignal
  dsimp only
  split
  · rename_i u _ e
    have hu : u.Canonical := canonical_fst e (agentWrite_canonical (beginNode_canonical w))
    refine nodeDone_canonical ?_
    split
    · exact hu
    · exact signal_canonical hu
  · rename_i e
    exact await_canonical (canonical_fst e (agentWrite_canonical (beginNode_canonical w)))
  · rename_i e
    exact nodeStop_canonical (canonical_fst e (agentWrite_canonical (beginNode_canonical w)))

theorem execNodeHostSignal_canonical {graph node : Nat} {s : State} (w : s.Canonical) :
    OutCanonical (execNodeHostSignal graph node s) := by
  unfold execNodeHostSignal
  refine next_canonical ?_
  split
  · exact hostSignal_canonical w
  · exact w

theorem postNode_canonical {s : State} {g n x : Nat} (w : s.Canonical) : (s.postNode g n x).Canonical := by
  unfold State.postNode
  dsimp only
  split
  · exact await_canonical (modNode_canonical w)
  · split
    · exact failNode_canonical w
    · exact postPacket_canonical (modNode_canonical w)

theorem guestNode_canonical {s : State} {g n : Nat} (w : s.Canonical) : (s.guestNode g n).Canonical := by
  unfold State.guestNode
  dsimp only
  split
  · exact postNode_canonical w
  · split
    · rename_i e1
      exact postNode_canonical (modNode_canonical (canonical_fst e1 (agentRead_canonical (beginNode_canonical w))))
    · rename_i e1
      exact await_canonical (canonical_fst e1 (agentRead_canonical (beginNode_canonical w)))
    · rename_i e1
      exact nodeStop_canonical (canonical_fst e1 (agentRead_canonical (beginNode_canonical w)))

theorem execNodeGuest_canonical {graph node : Nat} {s : State} (w : s.Canonical) :
    OutCanonical (execNodeGuest graph node s) := by
  unfold execNodeGuest
  refine next_canonical ?_
  split
  · exact guestNode_canonical w
  · exact w

theorem acceptLaunch_canonical {s : State} {l root : Nat} {img : Img} {consts : FMap Byte} (w : s.Canonical) :
    (s.acceptLaunch l root img consts).Canonical := by
  unfold State.acceptLaunch
  dsimp only
  split
  · split
    · exact endLaunch_canonical w
    · split
      · split
        · exact placeCluster_canonical (setLaunch_canonical w)
        · exact await_canonical w
      · exact await_canonical w
  · split
    · exact setLaunch_canonical w
    · split
      · exact endLaunch_canonical w
      · split
        · exact endLaunch_canonical w
        · exact setLaunch_canonical w

theorem noteReads_canonical {s : State} {l : Nat} (w : s.Canonical) : (s.noteReads l).Canonical :=
  modLaunch_canonical w

theorem readLaunch_canonical {s : State} {l : Nat} (w : s.Canonical) : (s.readLaunch l).Canonical := by
  unfold State.readLaunch
  dsimp only
  split
  · exact childDone_canonical w
  · split
    · exact w
    · split
      · rename_i e
        exact endLaunch_canonical (noteReads_canonical (canonical_fst e
          (acceptSpace_canonical (raiseClock_canonical w))))
      · rename_i u _ e
        have hu : u.Canonical := canonical_fst e (acceptSpace_canonical (raiseClock_canonical w))
        split
        · rename_i e1
          exact endLaunch_canonical (noteReads_canonical (canonical_fst e1 (readImage_canonical hu)))
        · rename_i e1
          exact acceptLaunch_canonical (noteReads_canonical (canonical_fst e1 (readImage_canonical hu)))
        · rename_i e1
          exact await_canonical (canonical_fst e1 (readImage_canonical hu))
        · rename_i u1 _ e1
          have hu1 : u1.Canonical := canonical_fst e1 (readImage_canonical hu)
          split
          · exact endLaunch_canonical (reportViolation_canonical (noteReads_canonical hu1))
          · split
            · rename_i e2
              exact await_canonical (canonical_snd e2 (reportFault_canonical (noteReads_canonical hu1)))
            · rename_i e2
              exact endLaunch_canonical (canonical_snd e2 (reportFault_canonical (noteReads_canonical hu1)))
      · rename_i e
        exact await_canonical (canonical_fst e (acceptSpace_canonical (raiseClock_canonical w)))
      · rename_i u _ e
        have hu : u.Canonical := canonical_fst e (acceptSpace_canonical (raiseClock_canonical w))
        split
        · exact endLaunch_canonical (reportViolation_canonical (noteReads_canonical hu))
        · split
          · rename_i e1
            exact await_canonical (canonical_snd e1 (reportFault_canonical (noteReads_canonical hu)))
          · rename_i e1
            exact endLaunch_canonical (canonical_snd e1 (reportFault_canonical (noteReads_canonical hu)))

theorem overBudget_canonical {s : State} {p : Nat} (w : s.Canonical) : (s.overBudget p).Canonical := by
  unfold State.overBudget
  dsimp only
  split
  · exact terminate_canonical w
  · exact w

theorem hostFails_canonical {s : State} {ring vf x : Nat} {stage2 : Bool} {level cause kind : Nat} (w : s.Canonical) :
    (s.hostFails ring vf x stage2 level cause kind).Canonical := by
  unfold State.hostFails
  dsimp only
  split <;> exact put_canonical (takeId_canonical w)

theorem hostPerform_canonical {s : State} {vf pa n : Nat} {e : Tlb} {write : Bool} {data : Nat} (w : s.Canonical) :
    (s.hostPerform vf pa n e write data).1.Canonical := by
  unfold State.hostPerform
  dsimp only
  split
  · split
    · rename_i e2
      exact raiseWho_canonical (canonical_fst e2 (writePage_canonical w))
    · rename_i e2
      exact canonical_fst e2 (writePage_canonical w)
  · split
    · exact w
    · exact put_canonical (homeRead_canonical _ _ _ _ _ _ (markUsed_canonical w))

theorem hostThrough_canonical {s : State} {f x n : Nat} {y : Leaf2} {write : Bool} {data : Nat} (w : s.Canonical) :
    (s.hostThrough f x n y write data).1.Canonical := by
  unfold State.hostThrough
  dsimp only
  split
  · exact hostFails_canonical w
  · split
    · exact hostFails_canonical w
    · split
      · exact hostFails_canonical w
      · exact hostPerform_canonical w

theorem hostPlain_canonical {s : State} {ring vf x n : Nat} {write : Bool} {data : Nat} (w : s.Canonical) :
    (s.hostPlain ring vf x n write data).1.Canonical := by
  unfold State.hostPlain
  split
  · exact hostPerform_canonical w
  · exact hostFails_canonical w

theorem throughBar2_canonical {s : State} {vf x n : Nat} {write : Bool} {data : Nat} (w : s.Canonical) :
    (s.throughBar2 vf x n write data).1.Canonical := by
  unfold State.throughBar2
  split
  · exact hostPlain_canonical w
  · split
    · exact hostPlain_canonical w
    · split
      · rename_i u _ e
        have hu : u.Canonical := canonical_fst e (inWalk_canonical (fun _ w1 => stage2_canonical w1) w)
        split
        · exact hu
        · exact hostFails_canonical hu
      · rename_i e
        exact hostThrough_canonical (canonical_fst e (inWalk_canonical (fun _ w1 => stage2_canonical w1) w))

theorem deviceReg_canonical {s : State} {addr value : Nat} (w : s.Canonical) : (s.deviceReg addr value).Canonical := by
  unfold State.deviceReg
  dsimp only
  split
  · split
    · split
      · exact dropNotify_canonical w
      · split
        · exact w
        · exact notify_canonical w
    · exact w
  · split
    · exact lnkstWrite_canonical w
    · split
      · exact put_canonical w
      · split
        · exact put_canonical w
        · exact w

theorem throughBar0_canonical {s : State} {vf o n : Nat} {write : Bool} {data : Nat} (w : s.Canonical) :
    (s.throughBar0 vf o n write data).Canonical := by
  unfold State.throughBar0
  dsimp only
  split
  · exact w
  · split
    · exact put_canonical (readWindow_canonical w)
    · split
      · exact deviceReg_canonical w
      · exact w

theorem unmask_canonical {s : State} {f e : Nat} (w : s.Canonical) : (s.unmask f e).Canonical := by
  unfold State.unmask
  dsimp only
  split <;> exact put_canonical w

theorem hostActs_canonical {s : State} {a : Instr} (w : s.Canonical) : (s.hostActs a).1.Canonical := by
  unfold State.hostActs
  dsimp only
  split
  · split
    · exact w
    · split
      · exact throughBar0_canonical w
      · exact throughBar2_canonical w
  · split
    · exact notify_canonical w
    · exact w
  · split
    · exact startReset_canonical w
    · exact w
  · split
    · exact unmask_canonical w
    · exact w
  · exact w

theorem fromHost_canonical {s : State} {i : Instr} (w : s.Canonical) : (s.fromHost i).Canonical := by
  unfold State.fromHost
  split
  · exact w
  · split
    · exact put_canonical w
    · split
      · rename_i e
        exact canonical_fst e (hostActs_canonical w)
      · rename_i e
        exact put_canonical (canonical_fst e (hostActs_canonical w))

theorem drainHost_canonical {s : State} (w : s.Canonical) : s.drainHost.Canonical := by
  unfold State.drainHost
  refine canonical_foldl_fst (fun r i w1 => ?_) w
  split
  · exact w1
  · split
    · rename_i e
      exact put_canonical (canonical_fst e (hostActs_canonical w1))
    · rename_i e
      exact canonical_fst e (hostActs_canonical w1)

theorem execQnotify_canonical {vf q tail : Nat} {s : State} (w : s.Canonical) :
    OutCanonical (execQnotify vf q tail s) := by
  unfold execQnotify
  refine next_canonical ?_
  split
  · exact fromHost_canonical w
  · split
    · exact notifyAgain_canonical w
    · exact w

theorem execFlr_canonical {vf : Nat} {s : State} (w : s.Canonical) : OutCanonical (execFlr vf s) := by
  unfold execFlr
  refine next_canonical ?_
  split
  · exact vfctlWrite_canonical w
  · exact w

theorem execVfctlEn_canonical {vf value : Nat} {s : State} (w : s.Canonical) :
    OutCanonical (execVfctlEn vf value s) := by
  unfold execVfctlEn
  refine next_canonical ?_
  split
  · exact enWrite_canonical w
  · exact w

theorem execEvsel_canonical {n value : Nat} {s : State} (w : s.Canonical) : OutCanonical (execEvsel n value s) := by
  unfold execEvsel
  refine next_canonical ?_
  split
  · exact evselWrite_canonical w
  · exact w

theorem execTrctl_canonical {die value : Nat} {s : State} (w : s.Canonical) :
    OutCanonical (execTrctl die value s) := by
  unfold execTrctl
  refine next_canonical ?_
  split
  · exact trctlWrite_canonical w
  · exact w

theorem execRegisterWrite_canonical {vf addr value : Nat} {s : State} (w : s.Canonical) :
    OutCanonical (execRegisterWrite vf addr value s) := by
  unfold execRegisterWrite
  refine next_canonical ?_
  split
  · split
    · exact csrWrite_canonical w
    · exact w
  · split
    · exact deviceReg_canonical w
    · exact w

theorem poisonCrossing_canonical {s : State} {n : Nat} (w : s.Canonical) : (s.poisonCrossing n).Canonical :=
  put_canonical w

theorem loseLink_canonical {s : State} {n : Nat} (w : s.Canonical) : (s.loseLink n).Canonical := by
  unfold State.loseLink
  dsimp only
  split
  · exact w
  · refine linkError_canonical ?_
    split
    · exact put_canonical (poisonCrossing_canonical w)
    · split
      · exact freezeGuest_canonical (modGuest_canonical (put_canonical (poisonCrossing_canonical w)))
      · exact modGuest_canonical (put_canonical (poisonCrossing_canonical w))

theorem execLinkLost_canonical {link : Nat} {s : State} (w : s.Canonical) : OutCanonical (execLinkLost link s) := by
  unfold execLinkLost
  refine next_canonical ?_
  split
  · exact loseLink_canonical w
  · exact w

theorem trainLink_canonical {s : State} {n : Nat} (w : s.Canonical) : (s.trainLink n).Canonical := by
  unfold State.trainLink
  dsimp only
  split
  · split
    · exact modDie_canonical (put_canonical (outside_canonical (outside_canonical (bump_canonical w))))
    · exact modGuest_canonical (put_canonical (outside_canonical (outside_canonical (bump_canonical w))))
  · split
    · exact modDie_canonical (put_canonical (outside_canonical (outside_canonical (bump_canonical w))))
    · exact put_canonical (outside_canonical (outside_canonical (bump_canonical w)))

theorem execLinkTrained_canonical {link : Nat} {s : State} (w : s.Canonical) :
    OutCanonical (execLinkTrained link s) := by
  unfold execLinkTrained
  refine next_canonical ?_
  split
  · exact trainLink_canonical w
  · exact w

theorem execReplayRetriesExhausted_canonical {link : Nat} {s : State} (w : s.Canonical) :
    OutCanonical (execReplayRetriesExhausted link s) := by
  unfold execReplayRetriesExhausted
  refine next_canonical ?_
  split
  · exact linkError_canonical w
  · exact w

theorem stopSoon_canonical {s : State} (w : s.Canonical) : s.stopSoon.Canonical := put_canonical w

theorem diverges_canonical {s : State} (w : s.Canonical) : s.diverges.Canonical := stopSoon_canonical (put_canonical w)

theorem execRecastLogFull_canonical {s : State} (w : s.Canonical) : OutCanonical (execRecastLogFull s) := by
  unfold execRecastLogFull
  refine next_canonical ?_
  split
  · exact put_canonical w
  · exact w

theorem logPasses_canonical {s : State} (w : s.Canonical) : s.logPasses.Canonical := by
  unfold State.logPasses
  split
  · exact put_canonical w
  · exact w

theorem logEnds_canonical {s : State} (w : s.Canonical) : s.logEnds.Canonical := by
  unfold State.logEnds
  split
  · exact stopSoon_canonical (put_canonical w)
  · exact w

theorem cleared_canonical {s : State} (w : s.Canonical) : s.cleared.Canonical := put_canonical w

theorem recast_canonical {s : State} (w : s.Canonical) : s.recast.Canonical := by
  unfold State.recast
  dsimp only
  split
  · exact w
  · split
    · exact put_canonical w
    · split
      · exact put_canonical w
      · exact replayLines_canonical _ (put_canonical w)

theorem deviceReset_canonical {s : State} (w : s.Canonical) : s.deviceReset.Canonical := by
  unfold State.deviceReset
  split
  · exact w
  · exact recast_canonical (cleared_canonical w)

theorem bootFails_canonical {s : State} {d why : Nat} (w : s.Canonical) : (s.bootFails d why).Canonical :=
  put_canonical (modDie_canonical w)

theorem leaveLayer_canonical {s : State} {d layer : Nat} (w : s.Canonical) : (s.leaveLayer d layer).Canonical := by
  unfold State.leaveLayer
  dsimp only
  split
  · exact w
  · exact modDie_canonical (setLaunch_canonical (terminate_canonical w))

theorem putThrough_canonical {s : State} {d f va : Nat} {bs : List Nat} (w : s.Canonical) :
    OptCanonical (s.putThrough d f va bs) := by
  refine foldl_bind_canonical (fun u x hu => ?_) (some_canonical w)
  split
  · exact none_canonical
  · exact ite_optCanonical
      (some_canonical (foldl_canonical (fun _ _ hv => quietWrite_canonical _ _ _ _ hv) hu)) none_canonical

theorem putImage_canonical {s : State} {d layer : Nat} {image : List Nat} (w : s.Canonical) :
    OptCanonical (s.putImage d layer image) := by
  unfold State.putImage
  split
  · exact some_canonical (putBytes_canonical _ _ _ _ _ _ w)
  · exact putThrough_canonical w

theorem placeLayer_canonical {s : State} {d layer : Nat} {image : List Nat} (w : s.Canonical) :
    OptCanonical (s.placeLayer d layer image) := by
  unfold State.placeLayer
  refine bind_canonical fun g => ?_
  refine bind_canonical fun cores t ht => ?_
  obtain ⟨u, hu, rfl⟩ := Option.map_eq_some_iff.mp ht
  have hc : u.Canonical := putImage_canonical (takeId_canonical w) _ hu
  dsimp only
  split
  · exact modDie_canonical (placeCluster_canonical (setLaunch_canonical hc))
  · exact placeCluster_canonical (setLaunch_canonical hc)

theorem startRom_canonical {s : State} {d : Nat} (w : s.Canonical) : (s.startRom d).Canonical :=
  getD_canonical (placeLayer_canonical (modDie_canonical w)) (modDie_canonical w)

theorem enterLayer_canonical {s : State} {d layer m : Nat} (w : s.Canonical) : (s.enterLayer d layer m).Canonical := by
  unfold State.enterLayer
  dsimp only
  split
  · exact modDie_canonical w
  · exact modFn_canonical (modDie_canonical w)

theorem startLayer_canonical {s : State} {d layer : Nat} (w : s.Canonical) : (s.startLayer d layer).Canonical := by
  unfold State.startLayer
  dsimp only
  split
  · exact w
  · split
    · split
      · exact w
      · exact startRom_canonical w
    · split
      · split
        · exact w
        · split
          · exact bootFails_canonical w
          · split
            · split
              · rename_i e2
                exact checkRelease_canonical ((placeLayer_canonical
                  (enterLayer_canonical (leaveLayer_canonical w))) _ e2)
              · exact checkRelease_canonical (enterLayer_canonical (leaveLayer_canonical w))
            · exact bootFails_canonical w
      · split
        · exact w
        · split
          · exact bootFails_canonical w
          · split
            · split
              · rename_i e2
                exact checkRelease_canonical ((placeLayer_canonical
                  (enterLayer_canonical (leaveLayer_canonical w))) _ e2)
              · exact w
            · exact bootFails_canonical w

theorem execLayerStart_canonical {die layer : Nat} {s : State} (w : s.Canonical) :
    OutCanonical (execLayerStart die layer s) := by
  unfold execLayerStart
  refine next_canonical ?_
  split
  · exact startLayer_canonical w
  · exact w

theorem spdmAnswer_canonical {s : State} {x : List Nat} (w : s.Canonical) : (s.spdmAnswer x).Canonical := by
  unfold State.spdmAnswer
  split
  · exact put_canonical w
  · exact w

theorem execSpdmUnsupportedRequest_canonical {code : Nat} {s : State} (w : s.Canonical) :
    OutCanonical (execSpdmUnsupportedRequest code s) := by
  unfold execSpdmUnsupportedRequest
  refine next_canonical ?_
  split
  · exact w
  · exact spdmAnswer_canonical w

/-! ## Cross-lane instructions -/

theorem postWide_canonical {s : State} {wide : Bool} {t l d v : Nat} (w : s.Canonical) :
    (s.postWide wide t l d v).Canonical := by
  unfold State.postWide
  dsimp only
  split
  · exact post_canonical (post_canonical (takeId_canonical w))
  · exact post_canonical (takeId_canonical w)

theorem crossLane_canonical {i : Instr} {d a : Reg} {wide : Bool} {s : State} (w : s.Canonical) :
    OutCanonical (crossLane i d a wide s) :=
  issue_canonical (fun _ _ w1 => eachLane_canonical (fun _ _ w2 => postWide_canonical w2) w1) w

end Sys2Proof.Machine

end

section
/-! Memory stays canonical (log 1) under every instruction, every event and every move, so under every step. -/

namespace Sys2Proof.Machine

/-! ## Every instruction and event -/

theorem exec_canonical {i : Instr} {s : State} (w : s.Canonical) : OutCanonical (exec i s) := by
  unfold exec
  cases i
  case nop => exact issue_canonical (fun _ _ w1 => w1) w
  case go | gosel | exit => exact issue_canonical (fun _ _ w1 => leaveAll_canonical w1) w
  case goi => exact execGoi_canonical w
  case call => exact issue_canonical (fun _ _ w1 => leaveAll_canonical (status_canonical w1)) w
  case calli => exact execCalli_canonical w
  case beat => exact execBeat_canonical w
  case ipref => exact execIpref_canonical w
  case trap => exact execTrap_canonical w
  case brk => exact execBrk_canonical w
  case split => exact execSplit_canonical w
  case fuse => exact fuseWith_canonical (fun _ _ w1 => modPart_canonical w1) w
  case fuset => exact fuseWith_canonical (fun _ _ w1 => finish_canonical (status_canonical w1)) w
  case iadd | isub | imul | imulh | imin | imax | shl | shr | sha | rot | iand | ior | ixor | bfx =>
    exact lane2_canonical w
  case iadc => exact issueLanes_canonical (fun _ _ _ w1 => wrPred_canonical (wr_canonical w1)) w
  case imad | fsh | lop3 | bfi | prmt => exact lane3_canonical w
  case imadw | lea | add64 => exact issueLanes_canonical (fun _ _ _ w1 => wr64_canonical w1) w
  case iabs | ineg | popc | clz | ctz | brev | mov | movhi | fclass => exact lane1_canonical w
  case icmp => exact laneP_canonical w
  case sel | movi => exact issueLanes_canonical (fun _ _ _ w1 => wr_canonical w1) w
  case cmp64 | pbit => exact issueLanes_canonical (fun _ _ _ w1 => wrPred_canonical w1) w
  case fadd | fsub | fmul | fmin | fmax | fscale => exact laneF2_canonical w
  case ffma | fdot2 => exact laneF3_canonical w
  case fcmp => exact issueLanes_canonical (fun _ _ _ w1 => raiseFlags_canonical (wrPred_canonical w1)) w
  case frnd => exact laneF1_canonical w
  case frcp | frsq | fsqrt | fexp2 | flog2 | fsin | fcos | ftanh => exact laneD1_canonical w
  case fdiv => exact laneD2_canonical w
  case cvt => exact execCvt_canonical w
  case pack | qnt => exact issueLanes_canonical (fun _ _ _ w1 => wrF_canonical w1) w
  case unpk | dqn => exact issueLanes_canonical (fun _ _ _ w1 => raiseFlags_canonical (wrGroup_canonical w1)) w
  case plx | pli => exact issueLanes_canonical (fun _ _ _ w1 => wrGroup_canonical w1) w
  case shuf | shufImm | qswap | qbc => exact crossLane_canonical w
  case vote | elect =>
    exact issue_canonical (fun _ _ w1 => eachLane_canonical (fun _ _ w2 => postPred_canonical w2) w1) w
  case ballot | ballotWord | matchAny | ired | iscan | sread =>
    exact issue_canonical (fun _ _ w1 => eachLane_canonical (fun _ _ w2 => postWide_canonical w2) w1) w
  case matchAll =>
    exact issue_canonical (fun _ _ w1 => eachLane_canonical (fun _ _ w2 => postPred_canonical (postWide_canonical w2)) w1) w
  case fred | fscan =>
    exact issue_canonical (fun _ _ w1 => eachLane_canonical (fun _ _ w2 => postFlags_canonical w2) w1) w
  case ld | st | atom | red => exact laneMem_canonical w
  case ldg => exact execLdg_canonical w
  case stg => exact execStg_canonical w
  case ldft => exact execLdft_canonical w
  case smap => exact execSmap_canonical w
  case sunmap => exact execSunmap_canonical w
  case sflush => exact issueMem_canonical (fun _ _ w1 => foldl_canonical (fun _ _ w2 => cleanSec_canonical w2) w1) w
  case sdrop => exact issueMem_canonical (fun _ _ w1 => discard_canonical w1) w
  case pfd => exact issueMem_canonical (fun _ _ w1 => eachLane_canonical (fun _ _ w2 => prefetch_canonical w2) w1) w
  case waitc | fence => exact issueMem_canonical (fun _ _ w1 => w1) w
  case cntq => exact issueMem_canonical (fun _ _ w1 => status_canonical w1) w
  case fenceSys => exact execFenceSys_canonical w
  case bar => exact execBar_canonical w
  case barr => exact execBarr_canonical w
  case barw => exact execBarw_canonical w
  case barinit => exact execBarinit_canonical w
  case cpy => exact execCpy_canonical w
  case cpyg => exact execCpyg_canonical w
  case plset => exact execPlset_canonical w
  case plcan => exact execPlcan_canonical w
  case plrep => exact execPlrep_canonical w
  case launch => exact execLaunch_canonical w
  case mma | mmap => exact issue_canonical (fun _ _ w1 => mmaIssue_canonical w1) w
  case had => exact execHad_canonical w
  case acz => exact execAcz_canonical w
  case acrel => exact execAcrel_canonical w
  case acrelAll => exact execAcrelAll_canonical w
  case acld => exact execAcld_canonical w
  case acst => exact execAcst_canonical w
  case acstat => exact execAcstat_canonical w
  case trav | tres => exact issue_canonical (fun _ _ w1 => travIssue_canonical w1) w
  case tretDesc | tretSkip | tretCont => exact issue_canonical (fun _ _ w1 => tretIssue_canonical w1) w
  case tretStop => exact execTretStop_canonical w
  case tcut => exact issue_canonical (fun _ _ w1 => tcutIssue_canonical w1) w
  case tstat => exact issue_canonical (fun _ _ w1 => foldl_canonical (fun _ _ w2 => postWords_canonical w2) w1) w
  case gpost => exact execGpost_canonical w
  case gpoll => exact execGpoll_canonical w
  case sys => exact execSys_canonical w
  case eretAgain | eretNext | eretZero | eretKill => exact issue_canonical (fun _ _ w1 => eret_canonical w1) w
  case csrr => exact execCsrr_canonical w
  case csrw => exact execCsrw_canonical w
  case tinvVa => exact execTinvVa_canonical w
  case tinvSp => exact execTinvSp_canonical w
  case tinvFn => exact execTinvFn_canonical w
  case tinvIpa => exact execTinvIpa_canonical w
  case tmark => exact execTmark_canonical w
  case instructionFetchFill => exact execInstructionFetchFill_canonical w
  case deferredResultArrival => exact next_canonical (landGroup_canonical w)
  case pathArrival => exact next_canonical (pathArrives_canonical w)
  case teamRetire => exact next_canonical (retireTeam_canonical w)
  case tableWalk => exact execTableWalk_canonical w
  case faultRecord => exact execFaultRecord_canonical w
  case fres => exact next_canonical (fresWrite_canonical w)
  case stashFill => exact execStashFill_canonical w
  case recallSector => exact next_canonical (snoop_canonical (recall_canonical _ _ _ w))
  case clockAdvance => exact execClockAdvance_canonical w
  case clockRaise => exact execClockRaise_canonical w
  case replicatedCommitLock => exact execReplicatedCommitLock_canonical w
  case replicatedCommitUpdate => exact execReplicatedCommitUpdate_canonical w
  case commitBoundMissed => exact execCommitBoundMissed_canonical w
  case ladleComplete => exact next_canonical (ladleDone_canonical w)
  case barrierArrivalStep => exact next_canonical (arrivalStep_canonical w)
  case tundishGrant => exact next_canonical (tundishGrant_canonical w)
  case passRetire => exact next_canonical (passRetire_canonical w)
  case runnerRelease => exact next_canonical (runnerRelease_canonical w)
  case tcutComplete => exact next_canonical (tcutComplete_canonical w)
  case guestPacketDeliver => exact next_canonical (guestDeliver_canonical w)
  case guestCompletionReport => exact next_canonical (guestReport_canonical w)
  case guestTranslationRequest => exact next_canonical (guestTranslate_canonical w)
  case guestAccess => exact next_canonical (guestAccess_canonical w)
  case guestInvalidationAck => exact next_canonical (guestAck_canonical w)
  case guestLeaseSnoop => exact next_canonical (leaseSnoop_canonical w)
  case guestQuiesceAnswer => exact next_canonical (quiesceAnswer_canonical w)
  case guestBreach => exact next_canonical (guestBreach_canonical w)
  case trapRecord => exact execTrapRecord_canonical w
  case stallDetectorTest => exact next_canonical (stallTest_canonical w)
  case watchdog => exact next_canonical (watchdogFires_canonical w)
  case qnotify => exact execQnotify_canonical w
  case submissionStart => exact execSubmissionStart_canonical w
  case dependenceEntry => exact next_canonical (enterNode_canonical w)
  case nodeStartKernel => exact execNodeStartKernel_canonical w
  case nodeStartCopy => exact execNodeStartCopy_canonical w
  case nodeConditional => exact execNodeConditional_canonical w
  case nodeWhile => exact execNodeWhile_canonical w
  case nodeJoin => exact execNodeJoin_canonical w
  case nodeHostSignal => exact execNodeHostSignal_canonical w
  case nodeGuest => exact execNodeGuest_canonical w
  case nodeFinish => exact next_canonical (finishNode_canonical w)
  case imageRead => exact next_canonical (readLaunch_canonical w)
  case prologueBudgetExceeded => exact next_canonical (overBudget_canonical w)
  case clusterPlace => exact next_canonical (distribute_canonical w)
  case preempt => exact next_canonical (preempt_canonical w)
  case clusterRestore => exact next_canonical (restoreCluster_canonical w)
  case inboundHostAccess | initiateFunctionLevelReset | msiXVectorUnmask =>
    exact next_canonical (fromHost_canonical w)
  case flr => exact execFlr_canonical w
  case vfctlEn => exact execVfctlEn_canonical w
  case gsctlRst => exact next_canonical (csrPut_canonical w)
  case evsel => exact execEvsel_canonical w
  case trctl => exact execTrctl_canonical w
  case stopat => exact next_canonical (stopatWrite_canonical w)
  case stop => exact next_canonical (stopNow_canonical w)
  case goWrite => exact next_canonical (goWrite_canonical w)
  case thermalTrip => exact next_canonical (put_canonical w)
  case linkLost => exact execLinkLost_canonical w
  case recastLogFull => exact execRecastLogFull_canonical w
  case recastLogEnd => exact next_canonical (logEnds_canonical w)
  case deviceReset => exact next_canonical (deviceReset_canonical w)
  case layerStart => exact execLayerStart_canonical w
  case getVersion | getCapabilities | negotiateAlgorithms | getDigests | getCertificate | challenge
      | getMeasurements => exact next_canonical (spdmAnswer_canonical w)
  case spdmUnsupportedRequest => exact execSpdmUnsupportedRequest_canonical w
  case registerWrite => exact execRegisterWrite_canonical w
  case linkTrained => exact execLinkTrained_canonical w
  case replayRetriesExhausted => exact execReplayRetriesExhausted_canonical w
  case guestSnoopOrRecallAnswer => exact next_canonical (snoopAnswer_canonical w)

/-! ## Storage errors -/

theorem countError_canonical {s : State} {d : Nat} (w : s.Canonical) : (s.countError d).Canonical := modDie_canonical w

theorem logError_canonical {s : State} {d : Nat} (w : s.Canonical) : (s.logError d).Canonical := modDie_canonical w

theorem poisonCopy_canonical {s : State} {core pa : Nat} (w : s.Canonical) : (s.poisonCopy core pa).Canonical := by
  unfold State.poisonCopy
  split
  · exact l1Put_canonical w
  · exact w

theorem poisonSector_canonical {s : State} {b va : Nat} (w : s.Canonical) : (s.poisonSector b va).Canonical := by
  unfold State.poisonSector
  dsimp only
  split
  · exact w
  · refine setSec_canonical ?_
    split
    · exact logError_canonical w
    · exact w

theorem poisonPriv_canonical {s : State} {b o : Nat} (w : s.Canonical) : (s.poisonPriv b o).Canonical :=
  modBlock_canonical w

theorem poisonSlot_canonical {s : State} {core slot word : Nat} (w : s.Canonical) :
    (s.poisonSlot core slot word).Canonical := by
  unfold State.poisonSlot
  dsimp only
  split
  · exact put_canonical w
  · exact w

theorem poisonReg_canonical {s : State} {t l r : Nat} (w : s.Canonical) : (s.poisonReg t l r).Canonical := by
  unfold State.poisonReg
  dsimp only
  split
  · exact countError_canonical (put_canonical w)
  · exact w

theorem dropLine_canonical {s : State} {pa : Nat} (w : s.Canonical) : (s.dropLine pa).Canonical :=
  logError_canonical (evictLine_canonical (foldl_canonical (fun _ _ w1 => recall_canonical _ _ _ w1) w))

theorem dropSector_canonical {s : State} {b va : Nat} (w : s.Canonical) : (s.dropSector b va).Canonical := by
  unfold State.dropSector
  split
  · exact w
  · exact logError_canonical (retireSec_canonical w)

theorem storageError_canonical {s : State} {a : StorageError} (w : s.Canonical) : (s.storageError a).Canonical := by
  unfold State.storageError
  dsimp only
  split
  · split
    · exact countError_canonical w
    · exact w
  · split
    · exact putBytes_canonical _ _ _ _ _ _ w
    · exact w
  · exact poisonCopy_canonical w
  · exact poisonSector_canonical w
  · split
    · exact w
    · exact poisonPriv_canonical w
  · exact poisonSlot_canonical w
  · exact poisonReg_canonical w
  · split
    · exact logError_canonical (put_canonical w)
    · exact w
  · split
    · exact dropLine_canonical w
    · exact w
  · exact dropSector_canonical w

theorem storageMove_canonical {s : State} {e : StorageError} (w : s.Canonical) : (s.storageMove e).Canonical := by
  unfold State.storageMove
  split
  · split
    · exact storageError_canonical (logPop_canonical w)
    · exact diverges_canonical w
  · exact logged_canonical (storageError_canonical w)

theorem countCorrected_canonical {s : State} {n : Nat} (w : s.Canonical) : (s.countCorrected n).Canonical := by
  unfold State.countCorrected
  dsimp only
  split
  · exact put_canonical w
  · exact w

theorem linkCorrects_canonical {s : State} {n : Nat} (w : s.Canonical) : (s.linkCorrects n).Canonical := by
  unfold State.linkCorrects
  split
  · exact w
  · split
    · split
      · exact countCorrected_canonical (logPop_canonical w)
      · exact w
    · exact logged_canonical (countCorrected_canonical w)

theorem withhold_canonical {s : State} {core : Nat} (w : s.Canonical) : (s.withhold core).Canonical := by
  unfold State.withhold
  dsimp only
  split
  · exact w
  · split
    · split
      · exact modCore_canonical (logPop_canonical w)
      · exact stopSoon_canonical w
    · exact logged_canonical (modCore_canonical w)

/-! ## The choice of a core, and the end of a tick -/

theorem latch_canonical {s : State} {p next : Nat} {half : Half} {pre : Option Snap} (w : s.Canonical) :
    (s.latch p next half pre).Canonical := put_canonical w

theorem joinFlags_canonical {s : State} (w : s.Canonical) : s.joinFlags.Canonical :=
  foldl_canonical (fun _ _ w1 => orFlags_canonical w1) w

theorem pairPoison_canonical {s : State} {p next : Nat} {flip : Bool} {ks : List (Nat × Nat)} {j : Instr}
    (w : s.Canonical) : (s.pairPoison p next flip ks j).Canonical := takeTrap_canonical (latch_canonical w)

theorem uncommit_canonical {u s : State} {p : Nat} (w : s.Canonical) : (u.uncommit s p).Canonical := w

theorem trapHere_canonical {s : State} {p cls : Nat} {ga : List Nat} {next : Nat} (w : s.Canonical) :
    (s.trapHere p cls ga next).Canonical := takeTrap_canonical w

theorem find_canonical {s : State} {p : Nat} (w : s.Canonical) : (s.find p).1.Canonical := by
  unfold State.find
  dsimp only
  split
  · exact w
  · split
    · exact w
    · split
      · rename_i u _ e
        have hu : u.Canonical := canonical_fst e (fetchWord_canonical w)
        split
        · exact hu
        · split <;> exact hu
        · exact hu
      · rename_i e
        exact canonical_fst e (fetchWord_canonical w)

theorem fenceEnds_canonical {s : State} {p : Nat} (w : s.Canonical) : (s.fenceEnds p).Canonical := by
  unfold State.fenceEnds
  dsimp only
  split
  · exact w
  · exact modPart_canonical (settleStores_canonical w)

theorem noteIssue_canonical {s : State} {core l : Nat} {i : Issued} {slots : Nat} (w : s.Canonical) :
    (s.noteIssue core l i slots).Canonical := by
  have h (n : Nat) (f : Core → Core) : ((s.modCore core f).count core 1 n).Canonical :=
    count_canonical (modCore_canonical w)
  unfold State.noteIssue
  extract_lets engines s1 s2 s3
  have hs : s3.Canonical := by
    dsimp only [s3]
    split
    · exact ite_canonical (count_canonical (h ..)) (h ..)
    · exact h ..
  split
  · exact hs
  · exact modLaunch_canonical hs

theorem notePassed_canonical {s : State} {rs : List Ready} {p : Nat} (w : s.Canonical) :
    (s.notePassed rs p).Canonical := by
  unfold State.notePassed
  refine foldl_canonical (fun s1 r w1 => ?_) w
  split
  · exact w1
  · exact modPart_canonical w1

theorem notePark_canonical {s old : State} {core p : Nat} (w : s.Canonical) : (s.notePark old core p).Canonical := by
  unfold State.notePark
  split
  · exact count_canonical w
  · exact w

theorem retryAll_canonical {s : State} (w : s.Canonical) : s.retryAll.Canonical := by
  unfold State.retryAll
  dsimp only
  refine put_canonical (foldl_canonical (fun s1 w1 w2 => ?_) (put_canonical w))
  split
  · split
    · exact modPart_canonical w2
    · exact w2
  · exact prefetchAgain_canonical w2
  · exact w2

theorem drainTraces_canonical {s : State} (w : s.Canonical) : s.drainTraces.Canonical :=
  foldl_canonical (fun _ _ w1 => drainTrace_canonical w1) w

theorem endAgents_canonical {s : State} (w : s.Canonical) : s.endAgents.Canonical :=
  foldl_canonical (fun _ _ w1 => finishReset_canonical w1) (retryAll_canonical
    (guestWrites_canonical (drainHost_canonical (killDead_canonical
    (watchdogs_canonical (put_canonical (foldl_canonical (fun _ _ w1 => stallTest_canonical w1)
    (foldl_canonical (fun _ _ w1 => modCore_canonical w1) (drainTraces_canonical
    (foldl_canonical (fun _ _ w1 => resumeParts_canonical w1) w))))))))))

theorem tripNow_canonical {s : State} (w : s.Canonical) : s.tripNow.Canonical := put_canonical w

theorem endTick_canonical {s : State} (w : s.Canonical) : s.endTick.Canonical := by
  unfold State.endTick
  dsimp only
  split
  · exact tripNow_canonical (logEnds_canonical (logPasses_canonical w))
  · split
    · exact stopNow_canonical (logEnds_canonical (logPasses_canonical w))
    · exact replayLines_canonical _ (put_canonical (startClocks_canonical
        (put_canonical (endAgents_canonical (logEnds_canonical (logPasses_canonical w))))))

theorem evictTlb_canonical {s : State} {cache at' k : Nat} (w : s.Canonical) : (s.evictTlb cache at' k).Canonical := by
  unfold State.evictTlb
  split
  · exact modCore_canonical w
  · exact modCore_canonical w
  · exact modDie_canonical w
  · exact modDie_canonical w

theorem andThen_canonical {o : Out} {f : State → Out} (ho : OutCanonical o)
    (hf : ∀ u, u.Canonical → OutCanonical (f u)) : OutCanonical (o.andThen f) := by
  cases o with
  | next s => exact hf s (ho s rfl)
  | fault x => exact ho
  | refused x => exact ho

theorem outMap_canonical {o : Out} {f : State → State} (ho : OutCanonical o)
    (hf : ∀ u, u.Canonical → (f u).Canonical) : OutCanonical (o.map f) :=
  andThen_canonical ho fun u hu => next_canonical (hf u hu)

theorem runLatched_canonical {s : State} {i : Instr} (w : s.Canonical) : OutCanonical (s.runLatched i) := by
  unfold State.runLatched
  split
  · exact exec_canonical w
  · exact next_canonical w

theorem runOne_canonical {s : State} {p next : Nat} {i : Instr} (w : s.Canonical) :
    OutCanonical (s.runOne p next i) := runLatched_canonical (latch_canonical w)

/-- What the halves of a pair do to memory is kept, or undone as a whole (R52, R329). -/
theorem runBoth_canonical {s : State} {p next : Nat} {flip : Bool} {i j : Instr} (w : s.Canonical) :
    OutCanonical (s.runBoth p next flip i j) := by
  unfold State.runBoth
  refine andThen_canonical (runLatched_canonical (latch_canonical (ite_canonical (bump_canonical w) w))) fun u hu => ?_
  have hs : State.Canonical { u with issue := { u.issue with half := .second, pre := some (s.snap p flip) } } :=
    put_canonical hu
  dsimp only
  split
  · exact next_canonical (pairPoison_canonical w)
  · split
    · exact next_canonical (modPart_canonical hu)
    · exact outMap_canonical (runLatched_canonical hs) fun v hv =>
        ite_canonical (modPart_canonical w) (ite_canonical (uncommit_canonical w) (joinFlags_canonical hv))

theorem runSecond_canonical {s : State} {p : Nat} (w : s.Canonical) : OutCanonical (s.runSecond p) := by
  unfold State.runSecond
  split
  · exact next_canonical w
  · split
    · exact next_canonical w
    · exact outMap_canonical (runLatched_canonical (latch_canonical (modPart_canonical w))) fun v hv =>
        put_canonical (ite_canonical (modPart_canonical hv) hv)

theorem runSeconds_canonical {s : State} {core : Nat} (w : s.Canonical) : OutCanonical (s.runSeconds core) :=
  List.foldlRecOn _ _ (next_canonical w) fun _ ho _ _ => andThen_canonical ho fun _ hu => runSecond_canonical hu

theorem runPair_canonical {s : State} {p next : Nat} {i j : Instr} (w : s.Canonical) :
    OutCanonical (s.runPair p next i j) := by
  unfold State.runPair
  refine andThen_canonical (runOne_canonical w) fun a ha => ?_
  refine andThen_canonical (runOne_canonical (bump_canonical w)) fun b hb => ?_
  split
  · exact next_canonical ha
  · exact next_canonical hb
  · split
    · exact next_canonical ha
    · split
      · exact next_canonical (modPart_canonical w)
      · split <;> exact runBoth_canonical w

theorem attempt_canonical {s : State} {p : Nat} (w : s.Canonical) : OutCanonical (s.attempt p).1 := by
  have h : ((s.fenceEnds p).find p).1.Canonical := find_canonical (fenceEnds_canonical w)
  unfold State.attempt
  dsimp only
  split
  · exact next_canonical (modPart_canonical w)
  · split
    · exact next_canonical (modPart_canonical w)
    · split <;> rename_i e <;> have hu := canonical_fst e h
      · exact next_canonical (trapHere_canonical hu)
      · exact next_canonical hu
      · exact next_canonical (modPart_canonical (askFill_canonical hu))
      · exact next_canonical (trapHere_canonical hu)
      · exact runOne_canonical hu
      · exact runPair_canonical hu

/-- What a core has found by trying its parts is canonical: its state, and what each ready part would give. -/
def Tried.Canonical (t : Tried) : Prop := t.s.Canonical ∧ ∀ x ∈ t.ready, OutCanonical x.2.1

theorem Tried.ready_append {t : Tried} {x : Ready × Out × Issued × Nat} (h : t.Canonical) (hx : OutCanonical x.2.1) :
    Tried.Canonical { t with ready := t.ready ++ [x] } := by
  refine ⟨h.1, fun y hy => ?_⟩
  rcases List.mem_append.mp hy with hy | hy
  · exact h.2 y hy
  · rw [List.mem_singleton.mp hy]
    exact hx

theorem tryParts_canonical {s : State} {core : Nat} {ps : List Nat} (w : s.Canonical) :
    (s.tryParts core ps).Canonical := by
  unfold State.tryParts
  refine List.foldlRecOn _ _ ⟨w, fun _ hx => absurd hx List.not_mem_nil⟩ fun t ht p _ => ?_
  have h : OutCanonical (t.s.attempt p).1 := attempt_canonical ht.1
  split
  · rename_i u i e
    rw [e] at h
    split
    · exact ⟨notePark_canonical (h u rfl), ht.2⟩
    · split
      · exact ht
      · exact Tried.ready_append ht h
  · rename_i o i _ e
    rw [e] at h
    exact Tried.ready_append ht h

theorem settleIssue_canonical {s before : State} {core : Nat} {rs : List Ready} {p slots : Nat} {i : Issued} {o : Out}
    (ho : OutCanonical o) : OutCanonical (s.settleIssue core rs p slots i o before) :=
  outMap_canonical ho fun _ hu =>
    put_canonical (killDead_canonical (notePassed_canonical
      (notePark_canonical (ite_canonical (noteIssue_canonical hu) hu))))

theorem choose_canonical {s : State} {core : Nat} {busy : List Nat} (w : s.Canonical) :
    OutCanonical (s.choose core busy) := by
  unfold State.choose
  refine andThen_canonical (runSeconds_canonical (resumeParts_canonical w)) fun u hu => ?_
  have ht : (u.tryParts core (u.candidates core busy)).Canonical := tryParts_canonical hu
  dsimp only
  split
  · exact next_canonical hu
  · split
    · exact next_canonical ht.1
    · split
      · exact next_canonical ht.1
      · rename_i e
        refine settleIssue_canonical ?_
        split
        · exact ht.2 _ (List.mem_of_find?_eq_some e)
        · exact attempt_canonical ht.1

theorem event_canonical {s : State} {i : Instr} (w : s.Canonical) : OutCanonical (s.event i) := by
  unfold State.event
  split
  · exact next_canonical w
  · split
    · exact exec_canonical w
    · split
      · split
        · exact exec_canonical (logPop_canonical w)
        · exact next_canonical (ite_canonical (diverges_canonical w) w)
      · exact exec_canonical (logged_canonical w)

theorem move_canonical {s : State} {m : Move} (w : s.Canonical) : OutCanonical (s.move m) := by
  cases m with
  | tick => exact next_canonical (endTick_canonical w)
  | issue core busy => exact choose_canonical w
  | event i => exact event_canonical w
  | again i =>
    show OutCanonical (if i.isLane then .next s else exec i s)
    split
    · exact next_canonical w
    · exact exec_canonical w
  | storage e => exact next_canonical (storageMove_canonical w)
  | linkCorrected n => exact next_canonical (linkCorrects_canonical w)
  | withhold core => exact next_canonical (withhold_canonical w)
  | holdTrace core => exact next_canonical (ite_canonical (modCore_canonical w) w)
  | cooled d => exact next_canonical (modDie_canonical w)
  | engine id k => exact next_canonical (matrixPiece_canonical (enginePiece_canonical w))
  | node p l k => exact next_canonical (nodeRead_canonical w)
  | evict cache at' k => exact next_canonical (evictTlb_canonical w)

theorem step_canonical {s : State} (w : s.Canonical) : OutCanonical (step s) := by
  unfold step State.next
  split
  · split
    · exact move_canonical (put_canonical w)
    · exact next_canonical w
  · split
    · exact move_canonical w
    · exact move_canonical (put_canonical w)

end Sys2Proof.Machine

open Sys2Proof Sys2Proof.Machine

/-- Settles O9: every operation that the step is made of keeps memory canonical, since each byte that it writes goes through
`FMap.set`. -/
theorem memoryStaysCanonical : Obligations.MemoryStaysCanonical := by
  unfold Obligations.MemoryStaysCanonical
  intro s t w h
  exact step_canonical w t h

end

section
/-! The control registers (R70, R342): what `csrr` writes to its lanes, and what `csrw` leaves of the registers. -/

namespace Sys2Proof.Machine

/-! ## A pair written to each of some lanes -/

theorem wr64_get (s : State) (t l r v k : Nat) :
    (s.wr64 t l r v).regs.get 0 k
      = if k = regKey t l (r + 1) then BitVec.ofNat 32 (v / 2 ^ 32)
        else if k = regKey t l r then BitVec.ofNat 32 v else s.regs.get 0 k := by
  unfold State.wr64
  rw [wr_get, wr_get]

/-- A register word that one lane sets and that no lane sets to anything else. -/
theorem eachLane_get_of_set {f : Nat → State → State} {k x : Nat} {w : Word} (hset : ∀ s, (f x s).regs.get 0 k = w)
    (hkeep : ∀ y s, s.regs.get 0 k = w → (f y s).regs.get 0 k = w) {ls : List Nat} (hx : x ∈ ls) (s : State) :
    (eachLane ls f s).regs.get 0 k = w := by
  have stays : ∀ (ys : List Nat) (s : State), s.regs.get 0 k = w → (eachLane ys f s).regs.get 0 k = w := by
    intro ys
    induction ys with
    | nil => exact fun _ h => h
    | cons y ys ih => exact fun s h => ih (f y s) (hkeep y s h)
  induction ls generalizing s with
  | nil => exact absurd hx List.not_mem_nil
  | cons y ys ih =>
    obtain rfl | hx := List.mem_cons.mp hx
    · exact stays ys _ (hset s)
    · exact ih hx (f y s)

/-- A register word that no lane writes. -/
theorem eachLane_get_of_kept {f : Nat → State → State} {k : Nat} {ls : List Nat}
    (hkeep : ∀ y ∈ ls, ∀ s, (f y s).regs.get 0 k = s.regs.get 0 k) (s : State) :
    (eachLane ls f s).regs.get 0 k = s.regs.get 0 k := by
  induction ls generalizing s with
  | nil => rfl
  | cons y ys ih =>
    exact (ih (fun z hz => hkeep z (List.mem_cons_of_mem _ hz)) (f y s)).trans (hkeep y List.mem_cons_self s)

section
variable {t r v x k : Nat} {ls : List Nat} (s : State)

theorem eachLane_wr64_low (hr : r + 1 < 256) (hx : x ∈ ls) :
    (eachLane ls (fun l s => s.wr64 t l r v) s).reg t x r = v % 2 ^ 32 := by
  have high : ∀ y, regKey t x r ≠ regKey t y (r + 1) := fun y e => by
    have := (regKey_inj (by omega) hr e).2
    omega
  have h := eachLane_get_of_set (f := fun l s => s.wr64 t l r v) (k := regKey t x r) (w := BitVec.ofNat 32 v)
    (fun s => by rw [wr64_get, if_neg (high x), if_pos rfl])
    (fun y s h => by rw [wr64_get, if_neg (high y), h, ite_self]) hx s
  unfold State.reg
  rw [h, BitVec.toNat_ofNat]

theorem eachLane_wr64_high (hr : r + 1 < 256) (hx : x ∈ ls) :
    (eachLane ls (fun l s => s.wr64 t l r v) s).reg t x (r + 1) = v / 2 ^ 32 % 2 ^ 32 := by
  have low : ∀ y, regKey t x (r + 1) ≠ regKey t y r := fun y e => by
    have := (regKey_inj hr (by omega) e).2
    omega
  have h := eachLane_get_of_set (f := fun l s => s.wr64 t l r v) (k := regKey t x (r + 1))
    (w := BitVec.ofNat 32 (v / 2 ^ 32)) (fun s => by rw [wr64_get, if_pos rfl])
    (fun y s h => by rw [wr64_get, if_neg (low y), h, ite_self]) hx s
  unfold State.reg
  rw [h, BitVec.toNat_ofNat]

theorem eachLane_wr64_other (hk : ∀ x ∈ ls, k ≠ regKey t x r ∧ k ≠ regKey t x (r + 1)) :
    (eachLane ls (fun l s => s.wr64 t l r v) s).regs.get 0 k = s.regs.get 0 k :=
  eachLane_get_of_kept (fun y hy s => by rw [wr64_get, if_neg (hk y hy).2, if_neg (hk y hy).1]) s

end

theorem pairOk_lt {d : Reg} (h : pairOk d = true) : d.val + 1 < 256 := by
  simp only [pairOk, Bool.and_eq_true, decide_eq_true_eq] at h
  omega

/-! ## What the frame of registers and places leaves alone -/

section
variable {p : Nat} {s t : State} (h : LanesOnly p s t)
include h

theorem LanesOnly.fns_eq : t.fns = s.fns := by rw [h.rest]

theorem LanesOnly.agenda_eq : t.agenda = s.agenda := by rw [h.rest]

theorem LanesOnly.savebase_eq : t.savebase = s.savebase := by rw [h.rest]

theorem LanesOnly.fn_eq (f : Nat) : t.fn f = s.fn f := by
  unfold State.fn
  rw [h.fns_eq]

theorem LanesOnly.csrRead_eq (lvl : Level) (d f n : Nat) : t.csrRead lvl d f n = s.csrRead lvl d f n := by
  rw [h.rest]
  rfl

theorem LanesOnly.coreOf_eq (q : Nat) : t.coreOf q = s.coreOf q := by
  rw [h.rest]
  rfl

theorem LanesOnly.levelOf_eq (q : Nat) : t.levelOf q = s.levelOf q := by
  rw [h.rest]
  rfl

end

/-- The function that a control register instruction acts on: the one named at level H, otherwise its own. -/
def State.csrVf (s : State) (vf : Fin 64) : Nat := if s.levelOf s.issTeam = .h then vf.val else s.vfOf s.issTeam

/-! ## `csrr` -/

/-- What `csrr` does for its poster. -/
def csrrEff (d : Reg) (csr : Fin 4096) (vf : Fin 64) (c : Ctx) (l : Nat) (s : State) : State :=
  eachLane c.ga (fun i t => t.wr64 c.t i d.val
    (s.csrRead (s.levelOf c.t) (dieOf (s.coreOf c.p)) (s.targetVf c vf) csr.val)) (s.settleStores c.p [l])

theorem csrr_exec (h : Hdr) (d : Reg) (csr : Fin 4096) (vf : Fin 64) (s : State) :
    exec (.csrr h d csr vf) s = issue (.csrr h d csr vf) s (forPoster (csrrEff d csr vf)) := rfl

/-- The value that `csrr` reads: the register as it stands before the issue. -/
theorem csrrEff_issued (h : Hdr) (d : Reg) (csr : Fin 4096) (vf : Fin 64) (l : Nat) (s : State) :
    csrrEff d csr vf (s.opCtx h) l s.issued
      = eachLane (s.opCtx h).ga (fun i t => t.wr64 s.issTeam i d.val
          (s.csrRead (s.levelOf s.issTeam) (dieOf (s.coreOf s.issue.part)) (s.csrVf vf) csr.val))
        (s.issued.settleStores s.issue.part [l]) := by
  have hf := issued_frame s
  unfold csrrEff
  rw [hf.csrRead_eq, hf.levelOf_eq, hf.coreOf_eq, targetVf_issued]
  rfl

theorem csrrEff_mem (d : Reg) (csr : Fin 4096) (vf : Fin 64) (c : Ctx) (l : Nat) (s : State) :
    (csrrEff d csr vf c l s).mem = s.mem :=
  (LanesOnly.foldl _ (fun s x => lanesOnly_wr64 c.p c.t x d.val _ s) c.ga (s.settleStores c.p [l])).mem_eq

theorem csrrEff_fns (d : Reg) (csr : Fin 4096) (vf : Fin 64) (c : Ctx) (l : Nat) (s : State) :
    (csrrEff d csr vf c l s).fns = s.fns :=
  (LanesOnly.foldl _ (fun s x => lanesOnly_wr64 c.p c.t x d.val _ s) c.ga (s.settleStores c.p [l])).fns_eq

section
variable {h : Hdr} {d : Reg} {csr : Fin 4096} {vf : Fin 64} {s : State} {l : Nat}

/-- `csrr` writes the value at the reader's level to the pair of every acting lane, and to no other register (R342). -/
theorem csrr_writes (hi : Issues (.csrr h d csr vf) s) (hw : (Instr.csrr h d csr vf).wf = true)
    (hp : s.posterOf (.csrr h d csr vf) = some l) (v : Nat)
    (hv : v = s.csrRead (s.levelOf s.issTeam) (dieOf (s.coreOf s.issue.part)) (s.csrVf vf) csr.val) :
    ∃ t, exec (.csrr h d csr vf) s = .next t ∧ t.mem = s.mem ∧ t.fns = s.fns
      ∧ (∀ x ∈ s.actors (.csrr h d csr vf),
          t.reg s.issTeam x d.val = v % 2 ^ 32 ∧ t.reg s.issTeam x (d.val + 1) = v / 2 ^ 32 % 2 ^ 32)
      ∧ ∀ k, (∀ x ∈ s.actors (.csrr h d csr vf),
          k ≠ regKey s.issTeam x d.val ∧ k ≠ regKey s.issTeam x (d.val + 1)) → t.regs.get 0 k = s.regs.get 0 k := by
  have hd : d.val + 1 < 256 := pairOk_lt hw
  have hl := lanesOnly_finish s.issue.part (csrrEff d csr vf (s.opCtx h) l s.issued)
  have he := csrrEff_issued h d csr vf l s
  rw [← hv] at he
  refine ⟨_, ?_, hl.mem_eq.trans ((csrrEff_mem ..).trans (issued_mem s)),
    hl.fns_eq.trans ((csrrEff_fns ..).trans (issued_frame s).fns_eq), fun x hx => ⟨?_, ?_⟩, fun k hk => ?_⟩
  · rw [csrr_exec, issue_issues hi, forPoster_issued hp]
    rfl
  · rw [State.reg, finish_regs, he]
    exact eachLane_wr64_low _ hd hx
  · rw [State.reg, finish_regs, he]
    exact eachLane_wr64_high _ hd hx
  · rw [finish_regs, he]
    exact (eachLane_wr64_other _ hk).trans (congrArg (FMap.get 0 · k) (issued_regs s))

end

/-! ## `csrw` -/

/-- A write above the writer's level is ignored (R342). -/
theorem csrWrite_ignored (s : State) {lvl : Level} (f : Nat) {n : Nat} (v : Nat) (hl : lvl ≠ .h)
    (hn : csrSWrites n = false) : s.csrWrite lvl f n v = s := by
  unfold State.csrWrite
  rw [hn, Bool.or_false, if_neg (by simpa using hl)]

theorem csrWrite_levelH (s : State) (f n v : Nat) : s.csrWrite .h f n v = s.csrPut f n v := rfl

/-- SPTBL is written by every level that may write control registers. -/
theorem csrWrite_sptbl (s : State) (lvl : Level) (f v : Nat) :
    s.csrWrite lvl f 0x000 v = s.modFn f fun x => { x with sptbl := baseBits v 1 } := by
  have hn : csrSWrites 0x000 = true := rfl
  unfold State.csrWrite
  rw [hn, Bool.or_true, if_pos rfl]
  rfl

theorem csrPut_savebase (s : State) (f v : Nat) :
    s.csrPut f 0x088 v = { s with savebase := s.savebase.set 0 0 (baseBits v 6) } := rfl

theorem csrPut_l2waym (s : State) (f v : Nat) :
    s.csrPut f 0x007 v = s.modFn f fun x => { x with l2waym := bits v 0 16 } := rfl

theorem fn_modFn_self (s : State) (f : Nat) (g : Fn → Fn) : (s.modFn f g).fn f = g (s.fn f) :=
  State.fn_setFn_self s f _

/-- What `csrw` does for its poster. -/
def csrwEff (a : Reg) (csr : Fin 4096) (vf : Fin 64) (c : Ctx) (l : Nat) (s : State) : State :=
  (s.settleStores c.p [l]).csrWrite (s.levelOf c.t) (s.targetVf c vf) csr.val (s.rd64 0 c.t l a)

theorem csrw_exec (h : Hdr) (a : Reg) (csr : Fin 4096) (vf : Fin 64) (s : State) :
    exec (.csrw h a csr vf) s = issue (.csrw h a csr vf) s (forPoster (csrwEff a csr vf)) := rfl

/-- The state in which `csrw` writes: its poster's stores are settled. -/
def State.csrwAt (s : State) (l : Nat) : State := s.issued.settleStores s.issue.part [l]

section
variable {h : Hdr} {a : Reg} {csr : Fin 4096} {vf : Fin 64} {s : State} {l : Nat}

theorem csrwAt_mem (s : State) (l : Nat) : (s.csrwAt l).mem = s.mem := issued_mem s

theorem csrwAt_regs (s : State) (l : Nat) : (s.csrwAt l).regs = s.regs := issued_regs s

theorem csrwAt_fns (s : State) (l : Nat) : (s.csrwAt l).fns = s.fns := (issued_frame s).fns_eq

theorem csrwAt_agenda (s : State) (l : Nat) : (s.csrwAt l).agenda = s.agenda := (issued_frame s).agenda_eq

theorem csrwAt_fn (s : State) (l f : Nat) : (s.csrwAt l).fn f = s.fn f := (issued_frame s).fn_eq f

/-- `csrw` is the write of its poster's value at its part's level (R342). -/
theorem csrw_issues (hi : Issues (.csrw h a csr vf) s) (hp : s.posterOf (.csrw h a csr vf) = some l) :
    exec (.csrw h a csr vf) s = .next (((s.csrwAt l).csrWrite (s.levelOf s.issTeam) (s.csrVf vf) csr.val
      (s.src64 0 l a)).finish s.issue.part) := by
  have he : csrwEff a csr vf (s.opCtx h) l s.issued
      = (s.csrwAt l).csrWrite (s.levelOf s.issTeam) (s.csrVf vf) csr.val (s.src64 0 l a) := by
    unfold csrwEff
    rw [(issued_frame s).levelOf_eq, targetVf_issued]
    rfl
  rw [csrw_exec, issue_issues hi, forPoster_issued hp]
  exact congrArg (fun x : State => Host.Outcome.next (x.finish s.issue.part)) he

theorem csrw_ignored (hi : Issues (.csrw h a csr vf) s) (hp : s.posterOf (.csrw h a csr vf) = some l)
    (hl : s.levelOf s.issTeam ≠ .h) (hn : csrSWrites csr.val = false) :
    ∃ t, exec (.csrw h a csr vf) s = .next t ∧ t.mem = s.mem ∧ t.regs = s.regs ∧ t.fns = s.fns
      ∧ t.agenda = s.agenda := by
  have hf := lanesOnly_finish s.issue.part (s.csrwAt l)
  refine ⟨_, csrw_issues hi hp, ?_⟩
  rw [csrWrite_ignored _ _ _ hl hn]
  exact ⟨hf.mem_eq.trans (csrwAt_mem s l), (finish_regs ..).trans (csrwAt_regs s l), hf.fns_eq.trans (csrwAt_fns s l),
    hf.agenda_eq.trans (csrwAt_agenda s l)⟩

theorem csrw_sptbl (hi : Issues (.csrw h a 0x000 vf) s) (hp : s.posterOf (.csrw h a 0x000 vf) = some l) :
    ∃ t, exec (.csrw h a 0x000 vf) s = .next t ∧ t.mem = s.mem ∧ t.regs = s.regs
      ∧ t.fn (s.csrVf vf) = { s.fn (s.csrVf vf) with sptbl := baseBits (s.src64 0 l a) 1 } := by
  have hw := csrWrite_sptbl (s.csrwAt l) (s.levelOf s.issTeam) (s.csrVf vf) (s.src64 0 l a)
  refine ⟨_, csrw_issues hi hp, ?_⟩
  rw [show ((0x000 : Fin 4096)).val = 0x000 from rfl, hw]
  refine ⟨(lanesOnly_finish ..).mem_eq.trans (csrwAt_mem s l), (finish_regs ..).trans (csrwAt_regs s l), ?_⟩
  rw [(lanesOnly_finish ..).fn_eq, fn_modFn_self, csrwAt_fn]

theorem csrw_savebase (hi : Issues (.csrw h a 0x088 vf) s) (hp : s.posterOf (.csrw h a 0x088 vf) = some l)
    (hl : s.levelOf s.issTeam = .h) :
    ∃ t, exec (.csrw h a 0x088 vf) s = .next t ∧ t.mem = s.mem ∧ t.regs = s.regs
      ∧ t.savebase.get 0 0 = baseBits (s.src64 0 l a) 6 := by
  have hw := csrPut_savebase (s.csrwAt l) (s.csrVf vf) (s.src64 0 l a)
  refine ⟨_, csrw_issues hi hp, ?_⟩
  rw [hl, csrWrite_levelH, show ((0x088 : Fin 4096)).val = 0x088 from rfl, hw]
  refine ⟨(lanesOnly_finish ..).mem_eq.trans (csrwAt_mem s l), (finish_regs ..).trans (csrwAt_regs s l), ?_⟩
  rw [(lanesOnly_finish ..).savebase_eq]
  exact FMap.get_set_self ..

/-- L2WAYM is written at level H, for the function that the instruction names, and at no other level (R70). -/
theorem csrw_l2waym (hi : Issues (.csrw h a 0x007 vf) s) (hp : s.posterOf (.csrw h a 0x007 vf) = some l) :
    ∃ t, exec (.csrw h a 0x007 vf) s = .next t
      ∧ (s.levelOf s.issTeam = .h → (t.fn vf.val).l2waym = bits (s.src64 0 l a) 0 16)
      ∧ (s.levelOf s.issTeam ≠ .h → ∀ f, (t.fn f).l2waym = (s.fn f).l2waym) := by
  refine ⟨_, csrw_issues hi hp, fun hl => ?_, fun hl f => ?_⟩
  · have hv : s.csrVf vf = vf.val := if_pos hl
    have hw := csrPut_l2waym (s.csrwAt l) vf.val (s.src64 0 l a)
    rw [hl, csrWrite_levelH, show ((0x007 : Fin 4096)).val = 0x007 from rfl, hv, hw, (lanesOnly_finish ..).fn_eq,
      fn_modFn_self]
  · rw [csrWrite_ignored _ _ _ hl rfl, (lanesOnly_finish ..).fn_eq, csrwAt_fn]

end

/-! ## Level U -/

/-- An instruction of a higher level than its part's never decodes at it (R339). -/
theorem decodeTrap_above {s : State} {t : Nat} {i : Instr} (hl : (s.levelOf t).num < i.level.num) :
    s.decodeTrap t i ≠ none := by
  have hu : s.unprivileged t i = true := by
    simp [State.unprivileged, hl]
  unfold State.decodeTrap
  rw [hu]
  split <;> simp

end Sys2Proof.Machine

open Sys2Proof Sys2Proof.Machine

/-- Settles O44: `csrr` writes what the register held before the issue; `csrw` is one write of the registers, of which
the numbers 0x000, 0x007 and 0x088 have a case each, and which is none above the writer's level. -/
theorem controlRegisters : Obligations.ControlRegisters := by
  unfold Obligations.ControlRegisters
  refine ⟨fun s h d a csr vf l =>
      ⟨fun hi hw hp => csrr_writes hi hw hp _ rfl, fun hi hp => ⟨csrw_ignored hi hp, ?_, ?_⟩⟩,
    fun s h a d vf l => ⟨csrw_l2waym, fun hi hw hl hp => ?_, fun hl => ?_⟩⟩
  · rintro rfl
    exact csrw_sptbl hi hp
  · rintro hl rfl
    exact csrw_savebase hi hp hl
  · obtain ⟨t, hx, -, -, hv, -⟩ := csrr_writes hi hw hp _ rfl
    refine ⟨t, hx, fun x hx => (hv x hx).1.trans ?_⟩
    have hf : s.csrVf vf = s.vfOf s.issTeam := if_neg (by rw [hl]; decide)
    rw [hl, hf]
    rfl
  · have hu : (s.levelOf s.issTeam).num < Level.num .s := by rw [hl]; decide
    exact ⟨decodeTrap_above hu, decodeTrap_above hu⟩

end

section
/-! One lane's load and store at a home (R62, R66, R79, R84, R116): the bytes that a copy of a sector gives, the times of a
home after a fill, and the way of one access that nothing holds up. -/

namespace Sys2Proof.Machine

/-! ## The bytes of part of a sector -/

/-- The middle digits of a number. -/
theorem bits_middle {a b c o n : Nat} (ha : a < 2 ^ o) (hb : b < 2 ^ n) : bits (a + 2 ^ o * (b + 2 ^ n * c)) o n = b := by
  unfold bits
  rw [Nat.add_mul_div_left _ _ (Nat.two_pow_pos o), Nat.div_eq_of_lt ha, Nat.zero_add, Nat.add_mul_mod_self_left,
    Nat.mod_eq_of_lt hb]

theorem leNat_append (xs ys : List Byte) : leNat (xs ++ ys) = leNat xs + 2 ^ (8 * xs.length) * leNat ys := by
  induction xs with
  | nil => simp [leNat]
  | cons x xs ih =>
    have hp : 2 ^ (8 * (x :: xs).length) = 256 * 2 ^ (8 * xs.length) := by
      rw [List.length_cons, Nat.mul_add, Nat.pow_add, Nat.mul_comm]
    rw [List.cons_append, leNat, leNat, ih, hp, Nat.mul_add, Nat.mul_assoc, Nat.add_assoc]

theorem leNat_lt (xs : List Byte) : leNat xs < 2 ^ (8 * xs.length) := by
  induction xs with
  | nil => simp [leNat]
  | cons x xs ih =>
    have hx := x.isLt
    rw [leNat, List.length_cons, Nat.mul_add, Nat.pow_add]
    omega

/-- Some of the bytes that a range of addresses holds, as a number. -/
theorem leNat_slice (f : Nat → Byte) {o n m : Nat} (h : o + n ≤ m) :
    bits (leNat ((List.range m).map f)) (8 * o) (8 * n) = leNat ((List.range n).map fun i => f (o + i)) := by
  obtain ⟨r, rfl⟩ := Nat.exists_eq_add_of_le h
  have ho := leNat_lt ((List.range o).map f)
  have hn := leNat_lt ((List.range n).map fun i => f (o + i))
  rw [List.length_map, List.length_range] at ho hn
  rw [Nat.add_assoc, List.range_add, List.map_append, leNat_append, List.map_map, List.range_add, List.map_append,
    leNat_append, List.length_map, List.length_map, List.length_range, List.length_range]
  exact bits_middle ho hn

/-- A mask with the bits of a predicate below `n`. -/
def maskOf (p : Nat → Bool) (n : Nat) : Nat := (List.range n).foldl (fun m i => if p i then m + 2 ^ i else m) 0

theorem maskOf_succ (p : Nat → Bool) (n : Nat) : maskOf p (n + 1) = maskOf p n + if p n then 2 ^ n else 0 := by
  unfold maskOf
  rw [List.range_succ, List.foldl_append, List.foldl_cons, List.foldl_nil]
  split <;> rfl

theorem maskOf_lt (p : Nat → Bool) (n : Nat) : maskOf p n < 2 ^ n := by
  induction n with
  | zero => exact Nat.one_pos
  | succ n ih =>
    rw [maskOf_succ, Nat.pow_succ]
    split <;> omega

theorem maskOf_add (p : Nat → Bool) (a b : Nat) :
    maskOf p (a + b) = maskOf p a + 2 ^ a * maskOf (fun i => p (a + i)) b := by
  induction b with
  | zero => rfl
  | succ b ih =>
    rw [← Nat.add_assoc, maskOf_succ, maskOf_succ, ih, Nat.mul_add, Nat.pow_add, Nat.add_assoc, mul_ite, Nat.mul_zero]

theorem maskOf_slice (p : Nat → Bool) {o n m : Nat} (h : o + n ≤ m) :
    bits (maskOf p m) o n = maskOf (fun i => p (o + i)) n := by
  obtain ⟨r, rfl⟩ := Nat.exists_eq_add_of_le h
  rw [Nat.add_assoc, maskOf_add, maskOf_add]
  exact bits_middle (maskOf_lt ..) (maskOf_lt ..)

/-- Whether a byte is read as poisoned (R73, R75). -/
def State.poisoned (s : State) (pa : Nat) : Bool := s.memPoison.get false pa || s.linkGone pa

theorem getBytes_eq (s : State) (pa n : Nat) :
    s.getBytes pa n
      = (leNat ((List.range n).map fun i => s.memByte (pa + i)), maskOf (fun i => s.poisoned (pa + i)) n) := rfl

/-- An access that lies in one sector finds its bytes in the sector's. -/
theorem getBytes_sector (s : State) {pa n : Nat} (h : pa % 64 + n ≤ 64) :
    (bits (s.getBytes (pa / 64 * 64) 64).1 (8 * (pa % 64)) (8 * n), bits (s.getBytes (pa / 64 * 64) 64).2 (pa % 64) n)
      = s.getBytes pa n := by
  have e : ∀ i, pa / 64 * 64 + (pa % 64 + i) = pa + i := fun i => by omega
  rw [getBytes_eq, getBytes_eq, leNat_slice _ h, maskOf_slice _ h]
  simp only [e]

/-- An aligned access of up to 64 bytes lies in one sector. -/
theorem aligned_in_sector {pa n : Nat} (hn : n ∣ 64) (ha : pa % n = 0) : pa % 64 + n ≤ 64 := by
  obtain ⟨k, hk⟩ := hn
  have hd : n ∣ pa % 64 := (Nat.dvd_mod_iff ⟨k, hk⟩).mpr (Nat.dvd_of_mod_eq_zero ha)
  obtain ⟨j, hj⟩ := hd
  have hlt : n * j < n * k := by
    have := Nat.mod_lt pa (show 0 < 64 by decide)
    omega
  have hjk : j + 1 ≤ k := Nat.lt_of_mul_lt_mul_left hlt
  calc
    pa % 64 + n = n * (j + 1) := by rw [hj, Nat.mul_add, Nat.mul_one]
    _ ≤ n * k := Nat.mul_le_mul_left n hjk
    _ = 64 := hk.symm

/-! ## What an access at a home goes by -/

/-- What decides where an access of a core takes its place at a home, and what it finds there (R62, R66, R70, R84). -/
def State.homeView (s : State) :
    (FMap Byte × FMap Bool × FMap Nat × FMap (List L1Line) × FMap (List L2Line) × FMap Nat × FMap Nat
      × List (Nat × Nat × Nat)) × (Nat → Nat) × (Nat → Nat) × (Nat → Nat) :=
  ((s.mem, s.memPoison, s.lnkst, s.l1, s.l2, s.owners, s.locks, s.stored), fun f => (s.fn f).l2waym,
    fun c => (s.core c).clock, fun d => (s.die d).memTime)

section
variable {s t : State} (h : t.homeView = s.homeView)
include h

theorem homeView_mem : t.mem = s.mem := congrArg (·.1.1) h
theorem homeView_memPoison : t.memPoison = s.memPoison := congrArg (·.1.2.1) h
theorem homeView_lnkst : t.lnkst = s.lnkst := congrArg (·.1.2.2.1) h
theorem homeView_l1 : t.l1 = s.l1 := congrArg (·.1.2.2.2.1) h
theorem homeView_l2 : t.l2 = s.l2 := congrArg (·.1.2.2.2.2.1) h
theorem homeView_owners : t.owners = s.owners := congrArg (·.1.2.2.2.2.2.1) h
theorem homeView_locks : t.locks = s.locks := congrArg (·.1.2.2.2.2.2.2.1) h
theorem homeView_stored : t.stored = s.stored := congrArg (·.1.2.2.2.2.2.2.2) h
theorem homeView_waym (f : Nat) : (t.fn f).l2waym = (s.fn f).l2waym := congrFun (congrArg (·.2.1) h) f
theorem homeView_clock (c : Nat) : (t.core c).clock = (s.core c).clock := congrFun (congrArg (·.2.2.1) h) c
theorem homeView_memTime (d : Nat) : (t.die d).memTime = (s.die d).memTime := congrFun (congrArg (·.2.2.2) h) d

theorem homeView_getBytes (pa n : Nat) : t.getBytes pa n = s.getBytes pa n :=
  getBytes_congr (homeView_mem h) (homeView_memPoison h) (homeView_lnkst h) pa n

theorem homeView_l1Copy (core sec : Nat) : t.l1Copy core sec = s.l1Copy core sec := by
  unfold State.l1Copy
  rw [homeView_l1 h]

theorem homeView_inLease (w : Who) (sec wts rts : Nat) : t.inLease w sec wts rts = s.inLease w sec wts rts := by
  unfold State.inLease State.readTime
  rw [homeView_clock h, homeView_stored h]

theorem homeView_home (sec : Nat) : t.home sec = s.home sec := by
  unfold State.home
  rw [homeView_l2 h, homeView_memTime h]

theorem homeView_freeWay (vf : Nat) (set : List L2Line) : t.freeWay vf set = s.freeWay vf set := by
  unfold State.freeWay
  rw [homeView_waym h]

theorem homeView_victim (vf : Nat) (set : List L2Line) : t.victim vf set = s.victim vf set := by
  unfold State.victim State.pinned
  rw [homeView_waym h, homeView_owners h, homeView_locks h]

end

theorem lineArrives_homeView (s : State) (line : Nat) : (s.lineArrives line).homeView = s.homeView := by
  unfold State.lineArrives State.logged
  split
  · split
    · rfl
    · split <;> rfl
  · rfl

/-- An update of a function's counters. -/
theorem modFn_homeView (s : State) (f : Nat) {g : Fn → Fn} (h : ∀ x, (g x).l2waym = x.l2waym) :
    (s.modFn f g).homeView = s.homeView := by
  have hw : (fun k => ((s.modFn f g).fn k).l2waym) = fun k => (s.fn k).l2waym := by
    funext k
    by_cases e : k = f
    · rw [e, fn_modFn_self, h]
    · rw [State.modFn_eq, State.fn_setFn_ne _ _ _ _ e]
  exact congrArg (fun x => (s.homeView.1, x, s.homeView.2.2)) hw

/-- An update of a core that leaves its clock. -/
theorem modCore_homeView (s : State) (c : Nat) {g : Core → Core} (h : ∀ x, (g x).clock = x.clock) :
    (s.modCore c g).homeView = s.homeView := by
  have hc : (fun k => ((s.modCore c g).core k).clock) = fun k => (s.core k).clock := by
    funext k
    by_cases e : k = c
    · rw [e, State.modCore_eq, State.core_setCore_self, h]
    · rw [State.modCore_eq, State.core_setCore_ne _ _ _ _ e]
  exact congrArg (fun x => (s.homeView.1, s.homeView.2.1, x, s.homeView.2.2.2)) hc

/-- An update of a die that leaves its memory time. -/
theorem modDie_homeView (s : State) (d : Nat) {g : Die → Die} (h : ∀ x, (g x).memTime = x.memTime) :
    (s.modDie d g).homeView = s.homeView := by
  have hd : (fun k => ((s.modDie d g).die k).memTime) = fun k => (s.die k).memTime := by
    funext k
    by_cases e : k = d
    · rw [e, State.modDie_eq, State.die_setDie_self, h]
    · rw [State.modDie_eq, State.die_setDie_ne _ _ _ _ e]
  exact congrArg (fun x => (s.homeView.1, s.homeView.2.1, s.homeView.2.2.1, x)) hd

theorem count_homeView (s : State) (core evt n : Nat) : (s.count core evt n).homeView = s.homeView := by
  refine foldl_keeps State.homeView _ (fun s k => ?_) _ _
  split
  · exact modCore_homeView s core fun _ => rfl
  · rfl

theorem issued_homeView (s : State) : s.issued.homeView = s.homeView := by
  unfold State.issued
  split <;> rfl

theorem raiseOp_homeView (s : State) (p : Nat) (path : Path) : (s.raiseOp p path).2.homeView = s.homeView := rfl

/-! ## The times of a home after a fill -/

/-- The time that evicting a line folds into its die's memory time (R62). -/
def State.evictTime (s : State) (line : Nat) : Nat :=
  (((s.l2.get [] (l2Key line)).filter fun x => x.line = line).flatMap fun x => x.secs.map fun y => y.2.rts).foldl max 0

/-- The line that a fill evicts, if any (R70, R71). -/
def State.evicts (s : State) (vf line : Nat) : Option L2Line :=
  let set := s.l2.get [] (l2Key line)
  if (set.find? fun x => x.line = line).isSome || (s.freeWay vf set).isSome then none else s.victim vf set

/-- The memory time of a die after a fill. -/
def State.memTimeAfter (s : State) (vf line d : Nat) : Nat :=
  match s.evicts vf line with
  | none => (s.die d).memTime
  | some y => if d = homeDie (y.line * 256) then max (s.die d).memTime (s.evictTime y.line) else (s.die d).memTime

theorem le_memTimeAfter (s : State) (vf line d : Nat) : (s.die d).memTime ≤ s.memTimeAfter vf line d := by
  unfold State.memTimeAfter
  split
  · exact le_refl _
  · split
    · exact le_max_left ..
    · exact le_refl _

/-- The times of a sector whose line is not in the L2 (R62). -/
theorem home_of_absent {s : State} {sec : Nat}
    (h : (s.l2.get [] (l2Key (sec / 4))).find? (fun x => x.line = sec / 4) = none) :
    s.home sec = ⟨(s.die (homeDie (sec * 64))).memTime, (s.die (homeDie (sec * 64))).memTime⟩ := by
  unfold State.home
  dsimp only
  rw [h]

theorem home_of_present {s : State} {sec : Nat} {x : L2Line}
    (h : (s.l2.get [] (l2Key (sec / 4))).find? (fun x => x.line = sec / 4) = some x) :
    s.home sec = ((x.secs.find? fun y => y.1 = sec).map (·.2)).getD
      ⟨(s.die (homeDie (sec * 64))).memTime, (s.die (homeDie (sec * 64))).memTime⟩ := by
  unfold State.home
  dsimp only
  rw [h]

theorem touchLine_home (s : State) {sec : Nat} {x : L2Line}
    (h : (s.l2.get [] (l2Key (sec / 4))).find? (fun x => x.line = sec / 4) = some x) :
    (s.touchLine x).home sec = s.home sec := by
  have hx : x.line = sec / 4 := by simpa using List.find?_some h
  have ht : ((s.touchLine x).l2.get [] (l2Key (sec / 4))).find? (fun x => x.line = sec / 4) = some x := by
    unfold State.touchLine
    dsimp only
    rw [hx, FMap.get_set_self, List.find?_cons_of_pos (by simp [hx])]
  rw [home_of_present ht, home_of_present h]
  rfl

/-- A line just entered has no times of its own yet: its sectors have the memory time (R62). -/
theorem putLine_home {s : State} {sec : Nat} (h : (s.l2.get [] (l2Key (sec / 4))).find? (fun x => x.line = sec / 4) = none)
    (vf : Nat) (ca : Cache) (w : Nat) : (s.putLine vf ca (sec / 4) w).home sec
      = ⟨(s.die (homeDie (sec * 64))).memTime, (s.die (homeDie (sec * 64))).memTime⟩ := by
  have hp : ((s.putLine vf ca (sec / 4) w).l2.get [] (l2Key (sec / 4))).find? (fun x => x.line = sec / 4)
      = some { line := sec / 4, way := w, vf := vf, secs := [] } := by
    unfold State.putLine
    dsimp only
    rw [FMap.get_set_self]
    split
    · exact List.find?_cons_of_pos (by simp)
    · rw [List.find?_append, h, Option.none_or]
      exact List.find?_cons_of_pos (by simp)
  rw [home_of_present hp]
  rfl

/-- Evicting a line takes no other line into a set. -/
theorem evictFor_absent {s : State} {k line : Nat} (h : (s.l2.get [] k).find? (fun x => x.line = line) = none)
    (vf : Nat) (y : L2Line) : ((s.evictFor vf y).l2.get [] k).find? (fun x => x.line = line) = none := by
  have hl : ∀ u : State, u.l2 = s.l2 → ((u.evictLine y.line).l2.get [] k).find? (fun x => x.line = line) = none := by
    intro u hu
    have he : (u.evictLine y.line).l2
        = u.l2.set [] (l2Key y.line) ((u.l2.get [] (l2Key y.line)).filter fun x => x.line ≠ y.line) := rfl
    rw [he, hu, FMap.get_set]
    split
    · next e =>
      subst e
      rw [List.find?_eq_none] at h ⊢
      exact fun x hx => h x (List.mem_of_mem_filter hx)
    · exact h
  unfold State.evictFor
  split
  · exact hl s rfl
  · exact hl _ rfl

theorem homeView_memTimeAfter {s t : State} (h : t.homeView = s.homeView) (vf line d : Nat) :
    t.memTimeAfter vf line d = s.memTimeAfter vf line d := by
  unfold State.memTimeAfter State.evicts State.evictTime
  rw [homeView_l2 h]
  simp only [homeView_freeWay h, homeView_victim h, homeView_memTime h]

theorem modDie_memTime (s : State) (d e : Nat) (f : Die → Die) :
    ((s.modDie e f).die d).memTime = if d = e then (f (s.die e)).memTime else (s.die d).memTime := by
  rw [State.modDie_eq]
  split
  · next h => rw [h, State.die_setDie_self]
  · next h => rw [State.die_setDie_ne _ _ _ _ h]

theorem evictFor_memTime (s : State) (vf : Nat) (y : L2Line) (d : Nat) : ((s.evictFor vf y).die d).memTime
    = if d = homeDie (y.line * 256) then max (s.die d).memTime (s.evictTime y.line) else (s.die d).memTime := by
  have hl : ∀ u : State, u.l2 = s.l2 → u.dies = s.dies → ((u.evictLine y.line).die d).memTime
      = if d = homeDie (y.line * 256) then max (s.die d).memTime (s.evictTime y.line) else (s.die d).memTime := by
    intro u hu hd
    have hdie : ∀ d, u.die d = s.die d := fun d => by unfold State.die; rw [hd]
    have ht : u.evictTime y.line = s.evictTime y.line := by unfold State.evictTime; rw [hu]
    have h : ((u.evictLine y.line).die d).memTime = if d = homeDie (y.line * 256)
        then max (u.die (homeDie (y.line * 256))).memTime (u.evictTime y.line) else (u.die d).memTime :=
      modDie_memTime { u with l2 := _ } d _ _
    rw [h, hdie, hdie, ht]
    split
    · next e => rw [e]
    · rfl
  unfold State.evictFor
  split
  · exact hl s rfl rfl
  · exact hl _ rfl rfl

/-- The times that a sector's home has once its line is in the L2: those that it had, or the memory time after the eviction
that makes room for it (R62, R71). -/
theorem home_fillLine (s : State) (vf : Nat) (ca : Cache) (sec : Nat) : (s.fillLine vf ca (sec / 4)).home sec =
    if ((s.l2.get [] (l2Key (sec / 4))).find? fun x => x.line = sec / 4).isSome then s.home sec
    else ⟨s.memTimeAfter vf (sec / 4) (homeDie (sec * 64)), s.memTimeAfter vf (sec / 4) (homeDie (sec * 64))⟩ := by
  cases hf : (s.l2.get [] (l2Key (sec / 4))).find? fun x => x.line = sec / 4 with
  | some x =>
    unfold State.fillLine
    dsimp only
    rw [hf, Option.isSome_some, if_pos rfl]
    dsimp only
    split
    · exact touchLine_home s hf
    · rfl
  | none =>
    have hu : ((s.modFn vf fun f => { f with l2fill := addCount f.l2fill 1 }).lineArrives (sec / 4)).homeView = s.homeView :=
      (lineArrives_homeView ..).trans (modFn_homeView s vf fun _ => rfl)
    rw [← homeView_memTimeAfter hu]
    unfold State.fillLine
    dsimp only
    rw [hf]
    generalize (s.modFn vf fun f => { f with l2fill := addCount f.l2fill 1 }).lineArrives (sec / 4) = u at hu ⊢
    rw [← homeView_l2 hu] at hf ⊢
    unfold State.memTimeAfter State.evicts
    dsimp only
    rw [hf]
    cases hw : u.freeWay vf (u.l2.get [] (l2Key (sec / 4))) with
    | some w =>
      dsimp only
      rw [putLine_home hf]
      rfl
    | none =>
      cases hv : u.victim vf (u.l2.get [] (l2Key (sec / 4))) with
      | some y =>
        dsimp only
        rw [putLine_home (evictFor_absent hf vf y), evictFor_memTime]
        rfl
      | none =>
        dsimp only
        rw [home_of_absent hf]
        rfl

/-- A fill takes no home back in time. -/
theorem home_le_fillLine (s : State) (vf : Nat) (ca : Cache) (sec : Nat) :
    (s.home sec).rts ≤ ((s.fillLine vf ca (sec / 4)).home sec).rts := by
  rw [home_fillLine]
  split
  · exact le_refl _
  · next h =>
    rw [home_of_absent (by simpa using h)]
    exact le_memTimeAfter ..

end Sys2Proof.Machine
end

section
/-! The way of one access that nothing holds up (R31, R49, R52, R62): `HomeAccess` leads it to one place at a home, and
what is performed there is what the instruction does. -/

namespace Sys2Proof.Machine

/-! ## Marks of a translation -/

/-- No entry is left in which ACC or DIRTY may have to be set: both are set, or no leaf stands behind the translation. -/
def Tlb.Marked (e : Tlb) : Prop := (e.acc = true ∧ e.dirty = true) ∨ (e.s1 = none ∧ e.s2 = none)

theorem leafBusy_marked {e : Tlb} (h : e.Marked) (s : State) : s.leafBusy e = false := by
  unfold State.leafBusy
  obtain ⟨ha, hd⟩ | ⟨h1, h2⟩ := h
  · rw [ha, hd]
    rfl
  · rw [h1, h2]
    exact Bool.and_false _

/-- Marking such a translation changes translation caches only. -/
theorem markUsed_homeView {e : Tlb} (h : e.Marked) (s : State) (w : Who) (dirty : Bool) :
    (s.markUsed w e dirty).homeView = s.homeView := by
  unfold State.markUsed
  split
  · rfl
  · next hn =>
    obtain ⟨ha, hd⟩ | ⟨h1, h2⟩ := h
    · exact absurd (by simp [ha, hd]) hn
    · have hleaf : ∀ (u : State) (m : Nat), u.markLeaf w m none = u := fun _ _ => rfl
      dsimp only
      rw [h1, h2, hleaf, hleaf, modDie_homeView, modCore_homeView]
      · exact fun _ => rfl
      · exact fun _ => rfl

/-! ## One place at a home -/

/-- The wts by which a grant of an unowned sector says whether the sector has been written (R62). -/
theorem grant_wts {s : State} {sec : Nat} (h : s.owners.get 0 sec = 0) (vf : Nat) (ca : Cache) (clock : Nat) :
    (s.grant vf ca clock sec).2.wts =
      if ((s.l2.get [] (l2Key (sec / 4))).find? fun x => x.line = sec / 4).isSome then (s.home sec).wts
      else s.memTimeAfter vf (sec / 4) (homeDie (sec * 64)) := by
  have hv : (s.settleSec sec).homeView = s.homeView := rfl
  unfold State.grant
  rw [recall_unowned h]
  dsimp only
  rw [home_fillLine, homeView_l2 hv, homeView_home hv, homeView_memTimeAfter hv]
  split <;> rfl

theorem homeView_grantWts {s t : State} (h : t.homeView = s.homeView) {sec : Nat} (ho : s.owners.get 0 sec = 0) (vf : Nat)
    (ca : Cache) (clock : Nat) : (t.grant vf ca clock sec).2.wts = (s.grant vf ca clock sec).2.wts := by
  rw [grant_wts ho, grant_wts (by rw [homeView_owners h]; exact ho), homeView_l2 h, homeView_home h,
    homeView_memTimeAfter h]

/-- What a read by a core finds (R62, R66, R84): its copy's bytes while the lease reaches, or where the grant finds the
sector's write time unchanged, and those of memory otherwise. -/
def State.found (s : State) (w : Who) (ca : Cache) (pa n : Nat) : Nat × Nat :=
  match s.l1Copy w.core (pa / 64) with
  | some x =>
    if s.inLease w (pa / 64) x.wts x.rts = true
        ∨ x.wts = (s.grant w.fill ca (s.core w.core).clock (pa / 64)).2.wts then
      (bits x.data (8 * (pa % 64)) (8 * n), bits x.poison (pa % 64) n)
    else s.getBytes pa n
  | none => s.getBytes pa n

theorem homeView_found {s t : State} (h : t.homeView = s.homeView) {pa : Nat} (ho : s.owners.get 0 (pa / 64) = 0) (w : Who)
    (ca : Cache) (n : Nat) : t.found w ca pa n = s.found w ca pa n := by
  unfold State.found
  rw [homeView_l1Copy h, homeView_clock h, homeView_getBytes h]
  simp only [homeView_inLease h, homeView_grantWts h ho]

/-- The bytes of a sector of which a grant has just sent a copy. -/
theorem copyAt_granted {s : State} {pa n : Nat} (ho : s.owners.get 0 (pa / 64) = 0) (hs : pa % 64 + n ≤ 64) (vf : Nat)
    (ca : Cache) (clock wts rts : Nat) :
    let x := (s.grant vf ca clock (pa / 64)).1.copyAt (pa / 64) wts rts
    (bits x.data (8 * (pa % 64)) (8 * n), bits x.poison (pa % 64) n) = s.getBytes pa n := by
  obtain ⟨hm, hp⟩ := grant_unowned ho vf ca clock false
  have hl : (s.grant vf ca clock (pa / 64)).1.lnkst = s.lnkst :=
    congrArg (fun x => x.1.lnkst) (grant_apart s vf ca clock (pa / 64) false)
  unfold State.copyAt
  dsimp only
  rw [getBytes_congr hm hp hl]
  exact getBytes_sector s hs

theorem readHome_found {s : State} {pa n : Nat} (ho : s.owners.get 0 (pa / 64) = 0) (hs : pa % 64 + n ≤ 64) (w : Who)
    (ca : Cache) : (s.readHome w ca pa n).2 = s.found w ca pa n := by
  unfold State.readHome State.found
  dsimp only
  cases hc : s.l1Copy w.core (pa / 64) with
  | none =>
    have hv := count_homeView s w.core 6 1
    dsimp only
    rw [← homeView_getBytes hv, homeView_l1Copy hv, hc]
    exact copyAt_granted (by rw [homeView_owners hv]; exact ho) hs ..
  | some x =>
    dsimp only
    by_cases hl : s.inLease w (pa / 64) x.wts x.rts = true
    · rw [if_pos hl, if_pos (.inl hl)]
    · rw [if_neg hl]
      dsimp only
      by_cases hw : x.wts = (s.grant w.fill ca (s.core w.core).clock (pa / 64)).2.wts
      · rw [if_pos (.inr hw)]
        unfold State.granted
        dsimp only
        rw [if_pos hw]
      · rw [if_neg (by rintro (h | h) <;> contradiction)]
        unfold State.granted
        dsimp only
        rw [if_neg hw]
        exact copyAt_granted ho hs ..

theorem readHome_mem {s : State} {pa : Nat} (ho : s.owners.get 0 (pa / 64) = 0) (w : Who) (ca : Cache) (n : Nat) :
    (s.readHome w ca pa n).1.mem = s.mem := by
  have fetch (u : State) (hu : u.owners.get 0 (pa / 64) = 0) (k m : Nat) (x : Copy) :
      (((u.grant w.fill ca k (pa / 64)).1.l1Put w.core ca (pa / 64) x).raiseClock w.core m).mem = u.mem :=
    (raiseClock_mem ..).trans ((l1Put_mem ..).trans (grant_unowned hu w.fill ca k false).1)
  unfold State.readHome
  dsimp only
  split
  · split
    · exact (raiseClock_mem ..).trans (l1Put_mem ..)
    · exact fetch s ho ..
  · have hv := count_homeView s w.core 6 1
    exact (fetch _ (by rw [homeView_owners hv]; exact ho) ..).trans (homeView_mem hv)

theorem l1Put_cores (s : State) (core : Nat) (ca : Cache) (sec : Nat) (x : Copy) :
    (s.l1Put core ca sec x).cores = s.cores := by
  unfold State.l1Put
  dsimp only
  split
  · split
    · rfl
    · split <;> rfl
  · split <;> rfl

/-- The core's clock follows a store's place, which is after every read that the home has granted (R62, R84). -/
theorem storeHome_clock {s : State} {pa : Nat} (ho : s.owners.get 0 (pa / 64) = 0) (w : Who) (ca : Cache)
    (op n data psn : Nat) :
    (s.home (pa / 64)).rts < ((s.storeHome w ca op pa n data psn).core w.core).clock
      ∧ (s.core w.core).clock ≤ ((s.storeHome w ca op pa n data psn).core w.core).clock := by
  have ht : (s.takeTime w.fill ca w.writes (s.core w.core).clock (pa / 64)).2
      = max (s.core w.core).clock (((s.fillLine w.fill ca (pa / 64 / 4)).home (pa / 64)).rts + 1) := by
    unfold State.takeTime
    rw [recall_unowned ho]
  have hle := home_le_fillLine s w.fill ca (pa / 64)
  have raised (u : State) (t : Nat) : t ≤ ((u.raiseClock w.core t).core w.core).clock := by
    unfold State.raiseClock
    rw [State.modCore_eq, State.core_setCore_self]
    exact le_max_right ..
  have hc : max (s.core w.core).clock (((s.fillLine w.fill ca (pa / 64 / 4)).home (pa / 64)).rts + 1)
      ≤ ((s.storeHome w ca op pa n data psn).core w.core).clock := by
    rw [← ht]
    unfold State.storeHome
    dsimp only
    split
    · unfold State.core
      rw [l1Put_cores]
      exact raised ..
    · exact raised ..
  omega

/-! ## The one chunk of an aligned access -/

/-- The chunk of an access that goes whole to one place at a home. -/
def homeChunk (a : Access) (e : Tlb) (pa : Nat) : Chunk := ⟨0, a.n, 0, .home e pa⟩

section
variable {a : Access} {e : Tlb} {pa : Nat}

theorem pieces_aligned (hels : a.els = []) (ha : a.ea % a.n = 0) : a.pieces = [(0, a.n, 0)] := by
  unfold Access.pieces
  rw [hels, if_neg (by decide), if_pos ha]

theorem onWindow_homeChunk : onWindow [homeChunk a e pa] = false := rfl

theorem winWaits_homeChunk (s : State) (t p l k : Nat) : s.winWaits t p l k a [homeChunk a e pa] = false := rfl

theorem refreshChunk_homeChunk (s : State) (core : Nat) :
    s.refreshChunk core (homeChunk a e pa) = homeChunk a (s.refreshed core e) pa := rfl

/-- A sector that no commit has locked and the guest does not own can be reached. -/
theorem busyHome_homeChunk {s : State} (hm : e.Marked) (hr : e.attr.rep = false) (hb : s.busySec pa = false) (w : Who)
    (load : Bool) : s.busyHome w load (homeChunk a e pa) = false := by
  have hcopy : copyOf e.attr.rep (dieOf w.core) pa = pa := by rw [hr]; rfl
  unfold State.busyHome homeChunk
  dsimp only
  rw [leafBusy_marked hm, hcopy, ite_self, hb]
  rfl

theorem busy_homeChunk {s : State} (hm : e.Marked) (hr : e.attr.rep = false) (hb : s.busySec pa = false) (w : Who)
    (load : Bool) : s.busy w load [homeChunk a e pa] = false := by
  have hh := busyHome_homeChunk (a := a) hm hr hb w
  unfold State.busy State.heldHomes
  simp only [List.filter_cons, List.any_cons, hh]
  simp

/-- An access with one place at a home is performed there, and its result is known. -/
theorem laneDo_homeChunk {s : State} (hm : e.Marked) (hr : e.attr.rep = false) (hb : s.busySec pa = false) (w : Who)
    (part lane op g seq : Nat) : s.laneDo w part lane op g seq [] a [homeChunk a e pa]
      = ((s.perform w (op * 1024 + lane) a [homeChunk a e pa]).1,
          some (resultWords a (s.perform w (op * 1024 + lane) a [homeChunk a e pa]).2.1
            (s.perform w (op * 1024 + lane) a [homeChunk a e pa]).2.2)) := by
  have hc : committed a [] (homeChunk a e pa) = false := committed_home rfl hr
  have hh : s.busyHome w true (homeChunk a e pa) = false := busyHome_homeChunk hm hr hb w true
  have hcs : (if a.kind = .load then s.heldHomes w [homeChunk a e pa]
        ++ [homeChunk a e pa].filter (fun c => !s.busyHome w true c)
      else [homeChunk a e pa].filter fun x => !committed a [] x) = [homeChunk a e pa] := by
    split
    · simp [State.heldHomes, hh]
    · simp [hc]
  have hrep : [homeChunk a e pa].filter (committed a []) = [] := by simp [hc]
  unfold State.laneDo State.performOr
  dsimp only
  rw [onWindow_homeChunk, Bool.and_false, if_neg Bool.false_ne_true, hcs, hrep]
  rfl

/-- A load of one place. -/
theorem perform_load (s : State) (hk : a.kind = .load) (hr : e.attr.rep = false) (w : Who) (op : Nat) :
    s.perform w op a [homeChunk a e pa] = (s.markUsed w e false).readHome w a.ca pa a.n := by
  have hread : s.readChunk w a (homeChunk a e pa) = (s.markUsed w e false).readHome w a.ca pa a.n := by
    unfold State.readChunk homeChunk
    dsimp only
    rw [hr]
    rfl
  unfold State.perform
  rw [List.foldl_cons, List.foldl_nil, hk]
  dsimp only
  rw [hread]
  simp [homeChunk]

/-- A store to one place. -/
theorem perform_store (s : State) (hk : a.kind = .store) (w : Who) (op : Nat) :
    s.perform w op a [homeChunk a e pa] = ((s.markUsed w e true).storeHome w a.ca op pa a.n
      (bits a.data (8 * 0) (8 * a.n)) (bits a.psn 0 a.n), 0, 0) := by
  unfold State.perform
  rw [List.foldl_cons, List.foldl_nil, hk]
  rfl

end

/-! ## Translation at the issue -/

/-- The first element with a property is also the first with any property that implies it. -/
theorem find?_of_imp {α : Type} {P Q : α → Bool} {x : α} {l : List α} (hPQ : ∀ y, P y = true → Q y = true)
    (hP : P x = true) (h : l.find? Q = some x) : l.find? P = some x := by
  rw [List.find?_eq_some_iff_append] at h ⊢
  obtain ⟨-, as, bs, hl, has⟩ := h
  refine ⟨hP, as, bs, hl, fun a ha => ?_⟩
  cases hp : P a with
  | false => rfl
  | true =>
    have := has a ha
    rw [hPQ a hp] at this
    exact this

theorem issued_core (s : State) (c : Nat) : s.issued.core c = s.core c := by
  unfold State.core
  rw [issued_cores]

theorem issued_who (s : State) (p : Nat) : s.issued.who p = s.who p := by
  rw [(issued_frame s).rest]
  rfl

theorem issued_isHelper (s : State) (t l : Nat) : s.issued.isHelper t l = s.isHelper t l := by
  unfold State.isHelper State.lane
  rw [issued_lanes]

section
variable {s : State} {kind va : Nat} {e : Tlb} (h : s.Translated kind va e)
include h

theorem translated_marked : e.Marked := by
  obtain ⟨-, -, -, ha, hd⟩ := h
  exact .inl ⟨ha, hd⟩

theorem translate_of_translated : s.issued.translate (s.who s.issue.part) false va = (s.issued, .ok e) := by
  obtain ⟨-, hf, -⟩ := h
  unfold State.translate
  dsimp only
  split
  · next hl =>
    rw [if_pos hl] at hf
    rw [hf]
  · next hl =>
    rw [if_neg hl] at hf
    rw [if_neg Bool.false_ne_true, issued_core, (issued_frame s).fn_eq, hf]

theorem resolve_of_translated (hk : kind ≠ kFetch) :
    s.issued.resolve (s.who s.issue.part) kind va = (s.issued, .ok e) := by
  have hv : s.issued.violation e va kind (s.who s.issue.part).lvl ((s.who s.issue.part).master = 4) = none := by
    obtain ⟨-, -, hv, -⟩ := h
    rw [← hv, (issued_frame s).rest]
    rfl
  have ht := translate_of_translated h
  obtain ⟨hlt, -⟩ := h
  unfold State.resolve
  rw [if_neg (by omega), decide_eq_false hk, ht]
  dsimp only
  rw [hv]

/-- What the core's cache knows of the translation by the time of the access: it is the same page, and still no entry has
to be marked. -/
theorem refreshed_marked {u : State} (hu : u.cores = s.cores) :
    (u.refreshed (s.who s.issue.part).core e).Marked := by
  obtain ⟨-, hf, -, ha, hd⟩ := h
  have hc : u.core (s.who s.issue.part).core = s.core (s.who s.issue.part).core := by
    unfold State.core
    rw [hu]
  unfold State.refreshed
  rw [hc]
  cases hx : (s.core (s.who s.issue.part).core).tlb.find? fun x => { x with acc := e.acc, dirty := e.dirty } = e with
  | none => exact .inl ⟨ha, hd⟩
  | some x =>
    have he : { x with acc := e.acc, dirty := e.dirty } = e := by simpa using List.find?_some hx
    rw [Option.getD_some]
    split at hf
    · refine .inr ⟨?_, ?_⟩
      · exact (congrArg Tlb.s1 he).trans (congrArg Tlb.s1 hf)
      · exact (congrArg Tlb.s2 he).trans (congrArg Tlb.s2 hf)
    · rw [find?_of_imp (fun y hy => ?_) (by simp) hf] at hx
      · rw [← Option.some.inj hx]
        exact .inl ⟨ha, hd⟩
      · have hye : { y with acc := e.acc, dirty := e.dirty } = e := by simpa using hy
        rw [← List.find?_some hf, ← hye]
        rfl

end

end Sys2Proof.Machine
end

section
/-! The instruction whose one access `HomeAccess` describes (R31, R49, R52, R62): what its issue leaves. -/

namespace Sys2Proof.Machine

/-- The state in which the accesses of an instruction on path `g` are performed: its arrival is outstanding (R102). -/
def State.raised (s : State) : State := (s.issued.raiseOp s.issue.part .g).2

theorem raised_homeView (s : State) : s.raised.homeView = s.homeView :=
  (raiseOp_homeView ..).trans (issued_homeView s)

theorem raised_cores (s : State) : s.raised.cores = s.cores := issued_cores s

theorem raised_ops (s : State) :
    (s.raised.part s.issue.part).ops = s.issPart.ops ++ [{ id := s.nextId, path := .g }] := by
  have hops : (s.issued.part s.issue.part).ops = s.issPart.ops := by
    rw [(issued_frame s).part]
    rfl
  have hr : (s.raised.part s.issue.part).ops
      = (s.issued.part s.issue.part).ops ++ [{ id := s.issued.nextId, path := .g }] := by
    show ((s.issued.takeId.2.setPart s.issue.part _).part s.issue.part).ops = _
    rw [State.part_setPart_self]
    rfl
  rw [hr, hops, issued_nextId]

/-- The lane whose access it is. -/
def State.whoLane (s : State) (l : Nat) : Who := { s.who s.issue.part with lane := l }

section
variable {s : State} {i : Instr} {l pa : Nat} {a : Access} (H : HomeAccess s i l a pa)
include H

/-! ## Nothing holds the access up -/

theorem HomeAccess.busySec : s.raised.busySec pa = false := by
  have hb : s.raised.busySec pa = s.busySec pa := by
    unfold State.busySec
    rw [homeView_locks (raised_homeView s), show s.raised.guest = s.issued.guest from rfl, issued_guest]
  rw [hb]
  unfold State.busySec
  rw [H.unlocked]
  simpa using H.guest

theorem HomeAccess.notHelper : s.issued.isHelper s.issTeam l = false := (issued_isHelper ..).trans H.own

theorem HomeAccess.notHeld (k : Nat) : s.raised.laneHeld s.issTeam l k = false := by
  have hheld : s.raised.held = s.held := by
    show s.issued.held = s.held
    rw [(issued_frame s).rest]
  have hcommits : s.raised.commits = s.commits := issued_commits s
  have hdefs : s.raised.defs = s.defs := issued_defs s
  unfold State.laneHeld
  rw [hheld, hcommits, hdefs, Bool.or_eq_false_iff, Bool.or_eq_false_iff, List.any_eq_false, List.any_eq_false,
    List.any_eq_false]
  refine ⟨⟨fun h hm => ?_, fun c hm => ?_⟩, fun d hm => ?_⟩
  · have hne := H.held h hm
    simp only [Bool.and_eq_true, decide_eq_true_eq]
    rintro ⟨⟨ht, hl⟩, -⟩
    exact hne ⟨ht, hl⟩
  · have hne := H.commits c hm
    simp only [Bool.and_eq_true, decide_eq_true_eq]
    rintro ⟨⟨⟨ht, hl⟩, -⟩, -⟩
    exact hne ⟨ht, hl⟩
  · have hne := H.windows d hm
    simp only [Bool.and_eq_true, decide_eq_true_eq]
    rintro ⟨⟨⟨ht, hl⟩, hh⟩, -⟩
    exact hne ⟨ht, hl, hh⟩

/-! ## Its place -/

/-- The page of the access is one of first-tier memory, which is no window, so that no alignment rule of a window stops
it (R74, R117). -/
theorem HomeAccess.notMisaligned (hels : a.els = []) : s.issued.misaligned (s.who s.issue.part) a = false := by
  obtain ⟨e, he, -, hpa⟩ := H.translated
  have hbm := H.hbm
  have hw : s.issued.windowAt (s.who s.issue.part) a.ea = none := by
    unfold State.windowAt
    split
    · rfl
    · rw [translate_of_translated he]
      dsimp only
      rw [← hpa, hbm]
  unfold State.misaligned
  rw [pieces_aligned hels H.aligned, H.global]
  split
  · simp [H.aligned]
  · simp [hw, H.aligned]

/-- The walk of the access finds the one place at its home. -/
theorem HomeAccess.places (hels : a.els = []) : ∃ e, s.Translated a.kind.num a.ea e ∧ e.attr.rep = false
    ∧ s.issued.places (s.who s.issue.part) s.issTeam a = (s.issued, .ok [homeChunk a e pa]) := by
  obtain ⟨e, he, hr, hpa⟩ := H.translated
  have hk : a.kind.num ≠ kFetch := by cases a.kind <;> decide
  have hplace : s.issued.placeOf (s.who s.issue.part) s.issTeam a 0 a.n = (s.issued, .ok (.home e pa)) := by
    unfold State.placeOf State.placeGlobal
    rw [H.global]
    dsimp only
    rw [Nat.add_zero, resolve_of_translated he hk]
    dsimp only
    rw [← hpa, H.hbm]
  refine ⟨e, he, hr, ?_⟩
  unfold State.places
  rw [pieces_aligned hels H.aligned, List.foldl_cons, List.foldl_nil]
  dsimp only
  rw [hplace]
  rfl

end

/-! ## The access is performed -/

/-- The one access performed: the state after it, and the value and poison that it found. -/
def State.homePerformed (s : State) (l : Nat) (a : Access) (e : Tlb) (pa : Nat) : State × Nat × Nat :=
  s.raised.perform (s.whoLane l) (s.issued.nextId * 1024 + l) a [homeChunk a e pa]

/-- The state in which the deferred results of the access are posted too. -/
def State.homeDone (s : State) (l : Nat) (a : Access) (ds : List Nat) (e : Tlb) (pa : Nat) (note : Deferred → Deferred) :
    State :=
  ((s.homePerformed l a e pa).1.postWords s.issTeam l ds
    (some (resultWords a (s.homePerformed l a e pa).2.1 (s.homePerformed l a e pa).2.2)) s.issued.nextId note).2

/-- A note that leaves a deferred result's place, value and poison as they are. -/
def Notes (note : Deferred → Deferred) : Prop := ∀ d, (note d).team = d.team ∧ (note d).lane = d.lane
  ∧ (note d).reg = d.reg ∧ (note d).val = d.val ∧ (note d).poison = d.poison

theorem noteResult_notes (a : Access) (cs : List Chunk) (links : List Nat) : Notes (noteResult a cs links) :=
  fun _ => ⟨rfl, rfl, rfl, rfl, rfl⟩

section
variable {s : State} {i : Instr} {l pa : Nat} {a : Access} (H : HomeAccess s i l a pa) {e : Tlb} (ds : List Nat)
include H

theorem HomeAccess.laneAccess (he : s.Translated a.kind.num a.ea e) (hr : e.attr.rep = false) :
    ∃ note, Notes note ∧ s.raised.laneAccess (s.opCtx i.hdr) (s.who s.issue.part) s.issued.nextId false []
        (⟨l, a, ds⟩, .ok [homeChunk a e pa])
      = (s.homeDone l a ds (s.raised.refreshed (s.who s.issue.part).core e) pa note, false) := by
  have hm : (s.raised.refreshed (s.who s.issue.part).core e).Marked := refreshed_marked he (raised_cores s)
  have hr' : (s.raised.refreshed (s.who s.issue.part).core e).attr.rep = false := by rw [refreshed_attr, hr]
  have hhelp : s.raised.isHelper (s.opCtx i.hdr).t l = false := H.notHelper
  have hheld : s.raised.laneHeld (s.opCtx i.hdr).t l s.raised.nextId = false := H.notHeld _
  refine ⟨_, noteResult_notes a [homeChunk a (s.raised.refreshed (s.who s.issue.part).core e) pa]
    (s.raised.linksFor (s.whoLane l) a.kind [homeChunk a (s.raised.refreshed (s.who s.issue.part).core e) pa]), ?_⟩
  unfold State.laneAccess
  dsimp only
  rw [hhelp, hheld, Bool.false_and, if_neg Bool.false_ne_true, if_neg Bool.false_ne_true, List.map_cons, List.map_nil,
    refreshChunk_homeChunk, busy_homeChunk hm hr' H.busySec, winWaits_homeChunk, laneDo_homeChunk hm hr' H.busySec]
  rfl

theorem HomeAccess.accesses (hels : a.els = []) : ∃ e note, e.Marked ∧ e.attr.rep = false ∧ Notes note
    ∧ s.issued.accesses (s.opCtx i.hdr) .g [⟨l, a, ds⟩] = s.homeDone l a ds e pa note := by
  obtain ⟨e, he, hr, hpl⟩ := H.places hels
  obtain ⟨note, hn, hla⟩ := H.laneAccess ds he hr
  refine ⟨_, note, refreshed_marked he (raised_cores s), by rw [refreshed_attr, hr], hn, ?_⟩
  have hga : (s.opCtx i.hdr).ga = [l] := H.lanes
  have hmis := H.notMisaligned hels
  have hhelp : s.issued.isHelper (s.opCtx i.hdr).t l = false := H.notHelper
  have hwho : s.issued.who (s.opCtx i.hdr).p = s.who s.issue.part := issued_who ..
  have hpl' : s.issued.places (s.who s.issue.part) (s.opCtx i.hdr).t a = (s.issued, .ok [homeChunk a e pa]) := hpl
  have hwalk : s.issued.walkAll (s.opCtx i.hdr) (s.who s.issue.part) [⟨l, a, ds⟩]
      = (s.issued, [(⟨l, a, ds⟩, .ok [homeChunk a e pa])]) := by
    unfold State.walkAll
    rw [List.foldl_cons, List.foldl_nil]
    dsimp only
    rw [hhelp, Bool.false_and, if_neg Bool.false_ne_true]
    rw [hpl']
    rfl
  have hstops : s.issued.stopsOf (s.opCtx i.hdr) [(⟨l, a, ds⟩, .ok [homeChunk a e pa])] = [] := rfl
  have hbusy : s.raised.busy (s.who s.issue.part) false [homeChunk a e pa] = false :=
    busy_homeChunk (translated_marked he) hr H.busySec _ _
  have hjoined : s.raised.joinedLanes (s.opCtx i.hdr) (s.who s.issue.part)
      [(⟨l, a, ds⟩, .ok [homeChunk a e pa])] = [] := by
    have hheld : s.raised.laneHeld (s.opCtx i.hdr).t l s.raised.nextId = false := H.notHeld _
    unfold State.joinedLanes
    simp only [List.filter_cons, hheld, hbusy, winWaits_homeChunk, Bool.or_self, Bool.and_false, Bool.false_eq_true,
      if_false, List.filter_nil, List.map_nil, List.isEmpty_nil, if_true]
  unfold State.accesses
  dsimp only
  rw [hga, hwho, List.isEmpty_cons, if_neg Bool.false_ne_true, List.any_cons, List.any_nil, hmis, Bool.and_false,
    Bool.or_false, if_neg Bool.false_ne_true, hwalk]
  dsimp only
  rw [hstops]
  have hraise : s.issued.raiseOp (s.opCtx i.hdr).p .g = (s.issued.nextId, s.raised) := rfl
  have hsecs : repSectors a [homeChunk a e pa] = [] := repSectors_home rfl hr
  simp only [List.find?_nil, List.isEmpty_nil, Bool.not_true, Bool.false_and, Bool.false_eq_true, if_false, hraise, hjoined,
    List.flatMap_cons, List.flatMap_nil, hsecs, List.append_nil, List.foldl_cons, List.foldl_nil, List.contains_nil, hla,
    Bool.or_self]

end

end Sys2Proof.Machine
end

section
/-! A load and a store of one lane (R62, R66, R79, R84, R116). -/

namespace Sys2Proof.Machine

/-- The bytes of the low part of a number. -/
theorem byteOf_bits (v : Nat) {n j : Nat} (h : j < n) : byteOf (bits v (8 * 0) (8 * n)) j = byteOf v j := by
  obtain ⟨k, rfl⟩ := Nat.exists_eq_add_of_lt h
  have hp : 2 ^ (8 * (j + k + 1)) = 256 ^ j * (256 * 256 ^ k) := by
    rw [Nat.pow_mul, show (2 : Nat) ^ 8 = 256 from rfl, Nat.pow_succ, Nat.pow_add]
    ring
  apply BitVec.eq_of_toNat_eq
  unfold byteOf bits
  rw [BitVec.toNat_ofNat, BitVec.toNat_ofNat, Nat.mul_zero, Nat.pow_zero, Nat.div_one, hp, Nat.mod_mul_right_div_self]
  exact Nat.mod_mul_right_mod ..

/-! ## Posted words -/

/-- Deferred results posted one after the other, each under an id of its own. -/
def deferEach {α : Type} (mk : Nat → α → Deferred) (xs : List α) (s : State) : State :=
  xs.foldl (fun s x => s.takeId.2.defer (mk s.takeId.1 x)) s

theorem deferEach_posts {α β : Type} {mk : Nat → α → Deferred} {g : Deferred → β} {h : α → β}
    (hg : ∀ id x, g (mk id x) = h x) (xs : List α) (s : State) :
    ∃ new k, deferEach mk xs s = { s with defs := s.defs ++ new, nextId := k } ∧ new.map g = xs.map h := by
  induction xs generalizing s with
  | nil => exact ⟨[], s.nextId, by rw [List.append_nil]; rfl, rfl⟩
  | cons x xs ih =>
    obtain ⟨new, k, he, hn⟩ := ih (s.takeId.2.defer (mk s.takeId.1 x))
    refine ⟨mk s.takeId.1 x :: new, k, ?_, by rw [List.map_cons, List.map_cons, hg, hn]⟩
    show deferEach mk xs (s.takeId.2.defer (mk s.takeId.1 x)) = _
    rw [he]
    simp [State.defer, State.takeId]

/-- Where a deferred result goes, and what it brings. -/
def Deferred.result (d : Deferred) : Nat × Nat × Nat × Option Nat × Bool := (d.team, d.lane, d.reg, d.val, d.poison)

/-- A result whose words are known is posted word by word to its registers (R195). -/
theorem postWords_posts (s : State) (t l : Nat) {dest : List Nat} {ws : List (Nat × Bool)} (hlen : dest.length = ws.length)
    (op : Nat) {note : Deferred → Deferred} (hn : Notes note) :
    ∃ new k, (s.postWords t l dest (some ws) op note).2 = { s with defs := s.defs ++ new, nextId := k }
      ∧ new.map Deferred.result = (dest.zip ws).map fun x => (t, l, x.1, some x.2.1, x.2.2) := by
  have hg : ∀ id (x : Nat × Nat), Deferred.result (note
      { id := id, team := t, lane := l, reg := x.1, mask := 0xFFFFFFFF, val := (ws[x.2]?).map (·.1)
        poison := ((ws[x.2]?).map (·.2)).getD false, op := op, group := s.takeId.1 })
      = (t, l, x.1, (ws[x.2]?).map (·.1), ((ws[x.2]?).map (·.2)).getD false) := by
    intro id x
    unfold Deferred.result
    obtain ⟨ht, hl, hr, hv, hp⟩ := hn { id := id, team := t, lane := l, reg := x.1, mask := 0xFFFFFFFF
                                        val := (ws[x.2]?).map (·.1), poison := ((ws[x.2]?).map (·.2)).getD false
                                        op := op, group := s.takeId.1 }
    rw [ht, hl, hr, hv, hp]
  obtain ⟨new, k, he, hnew⟩ := deferEach_posts hg dest.zipIdx s.takeId.2
  refine ⟨new, k, he, hnew.trans ?_⟩
  refine List.ext_getElem (by simp [hlen]) fun j hj hj' => ?_
  have hw : j < ws.length := by
    rw [List.length_map, List.length_zip] at hj'
    omega
  simp [hw]

/-! ## What the instruction leaves -/

section
variable {s t : State} (h : t.apart = s.apart)
include h

theorem apart_smpctl : t.smpctl = s.smpctl := congrArg (fun x => x.1.smpctl) h
theorem apart_parts : t.parts = s.parts := congrArg (fun x => x.1.parts) h
theorem apart_defs : t.defs = s.defs := congrArg (fun x => x.1.defs) h

end

section
variable {s : State} {l pa : Nat} {a : Access} {ds : List Nat} {e : Tlb} {note : Deferred → Deferred}

theorem homePerformed_apart : (s.homePerformed l a e pa).1.apart = s.raised.apart := perform_apart ..

/-- The deferred results of the access are all that stands after it beside what it did. -/
theorem homeDone_posts
    (hlen : ds.length = (resultWords a (s.homePerformed l a e pa).2.1 (s.homePerformed l a e pa).2.2).length)
    (hn : Notes note) : ∃ new k, s.homeDone l a ds e pa note =
        { (s.homePerformed l a e pa).1 with defs := (s.homePerformed l a e pa).1.defs ++ new, nextId := k }
      ∧ new.map Deferred.result
        = (ds.zip (resultWords a (s.homePerformed l a e pa).2.1 (s.homePerformed l a e pa).2.2)).map fun x =>
            (s.issTeam, l, x.1, some x.2.1, x.2.2) :=
  postWords_posts _ _ _ hlen _ hn

/-- What an instruction with one access at a home leaves: `u` is the state after the access, `found` what it found. -/
structure LeavesHome (s t : State) (l : Nat) (ds : List Nat) (a : Access) (u : State) (found : Nat × Nat) : Prop where
  regs : t.regs = s.regs
  mem : t.mem = u.mem
  clock : ∀ c, (t.core c).clock = (u.core c).clock
  arrival : RaisesArrival s t .g
  defs : ∃ new, t.defs = s.defs ++ new
    ∧ new.map Deferred.result
      = (ds.zip (resultWords a found.1 found.2)).map fun x => (s.issTeam, l, x.1, some x.2.1, x.2.2)

theorem homeDone_leaves
    (hlen : ds.length = (resultWords a (s.homePerformed l a e pa).2.1 (s.homePerformed l a e pa).2.2).length)
    (hn : Notes note) : LeavesHome s ((s.homeDone l a ds e pa note).finish s.issue.part) l ds a
      (s.homePerformed l a e pa).1 (s.homePerformed l a e pa).2 := by
  obtain ⟨new, k, hd, hnew⟩ := homeDone_posts hlen hn
  have ha : (s.homePerformed l a e pa).1.apart = s.raised.apart := homePerformed_apart
  have hf := lanesOnly_finish s.issue.part (s.homeDone l a ds e pa note)
  refine ⟨?_, ?_, fun c => ?_, ?_, new, ?_, hnew⟩
  · rw [finish_regs, hd]
    exact (apart_regs ha).trans (issued_regs s)
  · rw [hf.mem_eq, hd]
  · rw [hf.cores c, hd]
    rfl
  · have hp : (s.homeDone l a ds e pa note).parts = s.raised.parts := by
      rw [hd]
      exact (apart_parts ha :)
    unfold RaisesArrival
    rw [hf.part]
    show ((s.homeDone l a ds e pa note).part s.issue.part).ops = _
    unfold State.part
    rw [hp]
    exact raised_ops s
  · rw [finish_defs, hd]
    show (s.homePerformed l a e pa).1.defs ++ new = _
    rw [apart_defs ha]
    exact congrArg (· ++ new) (issued_defs s)

end

section
variable {s : State} {i : Instr} {l pa : Nat} {a : Access} (H : HomeAccess s i l a pa) {ds : List Nat}
  {rs : Ctx → State → List Req}
include H

/-- An instruction with one access that nothing holds up performs it and completes. -/
theorem HomeAccess.performs (hels : a.els = []) (hx : exec i s = laneMem i .g rs s)
    (hr : rs (s.opCtx i.hdr) s.issued = [⟨l, a, ds⟩]) (hlen : ∀ v m, ds.length = (resultWords a v m).length) :
    ∃ e t, e.Marked ∧ e.attr.rep = false ∧ exec i s = .next t
      ∧ LeavesHome s t l ds a (s.homePerformed l a e pa).1 (s.homePerformed l a e pa).2 := by
  obtain ⟨e, note, hm, hrep, hn, ha⟩ := H.accesses ds hels
  have heff : s.issued.accesses (s.opCtx i.hdr) .g (rs (s.opCtx i.hdr) s.issued) = s.homeDone l a ds e pa note := by
    rw [hr, ha]
  have hsamp : (s.homeDone l a ds e pa note).noSampling := by
    obtain ⟨new, k, hd, -⟩ := homeDone_posts (s := s) (l := l) (pa := pa) (e := e) (hlen _ _) hn
    have hs : s.raised.noSampling := issued_noSampling H.sampling
    unfold State.noSampling at *
    rw [hd]
    show bits (s.homePerformed l a e pa).1.smpctl 0 16 = 0
    rw [apart_smpctl homePerformed_apart, hs]
  refine ⟨e, _, hm, hrep, ?_, homeDone_leaves (hlen _ _) hn⟩
  rw [hx, laneMem, issueMem_issues H.issues (by rw [heff]; exact hsamp), heff]

/-- A load finds what its core's copy or the home holds, and leaves memory (R62, R66, R84). -/
theorem HomeAccess.loads (hk : a.kind = .load) (hels : a.els = []) (hdvd : a.n ∣ 64) (hx : exec i s = laneMem i .g rs s)
    (hr : rs (s.opCtx i.hdr) s.issued = [⟨l, a, ds⟩]) (hlen : ∀ v m, ds.length = (resultWords a v m).length) :
    ∃ t u, exec i s = .next t ∧ u.mem = s.mem ∧ LeavesHome s t l ds a u (s.found (s.whoLane l) a.ca pa a.n) := by
  obtain ⟨e, t, hm, hrep, ht, hl⟩ := H.performs hels hx hr hlen
  have hp : s.homePerformed l a e pa = (s.raised.markUsed (s.whoLane l) e false).readHome (s.whoLane l) a.ca pa a.n :=
    perform_load _ hk hrep _ _
  have hv : (s.raised.markUsed (s.whoLane l) e false).homeView = s.homeView :=
    (markUsed_homeView hm ..).trans (raised_homeView s)
  have ho : (s.raised.markUsed (s.whoLane l) e false).owners.get 0 (pa / 64) = 0 := by
    rw [homeView_owners hv]
    exact H.unowned
  rw [hp, readHome_found ho (aligned_in_sector hdvd H.aligned'), homeView_found hv H.unowned] at hl
  exact ⟨t, _, ht, (readHome_mem ho ..).trans (homeView_mem hv), hl⟩

/-- A store writes its bytes and no others, at a time after every read that the home has granted (R62, R79). -/
theorem HomeAccess.stores (hk : a.kind = .store) (hels : a.els = []) (hx : exec i s = laneMem i .g rs s)
    (hr : rs (s.opCtx i.hdr) s.issued = [⟨l, a, []⟩]) :
    ∃ t u, exec i s = .next t ∧ LeavesHome s t l [] a u (0, 0) ∧ u.Holds pa a.n a.data
      ∧ (∀ x, x < pa ∨ pa + a.n ≤ x → u.memByte x = s.memByte x)
      ∧ (s.home (pa / 64)).rts < (u.core (s.coreOf s.issue.part)).clock
      ∧ (s.core (s.coreOf s.issue.part)).clock ≤ (u.core (s.coreOf s.issue.part)).clock := by
  have hlen : ∀ v m, ([] : List Nat).length = (resultWords a v m).length := fun v m => by
    unfold resultWords
    rw [hk]
    rfl
  obtain ⟨e, t, hm, hrep, ht, hl⟩ := H.performs hels hx hr hlen
  have hp := perform_store (e := e) (pa := pa) s.raised hk (s.whoLane l) (s.issued.nextId * 1024 + l)
  have hv : (s.raised.markUsed (s.whoLane l) e true).homeView = s.homeView :=
    (markUsed_homeView hm ..).trans (raised_homeView s)
  have ho : (s.raised.markUsed (s.whoLane l) e true).owners.get 0 (pa / 64) = 0 := by
    rw [homeView_owners hv]
    exact H.unowned
  have hl' := hl
  unfold State.homePerformed at hl'
  rw [hp] at hl'
  obtain ⟨hrts, hclk⟩ := storeHome_clock ho (s.whoLane l) a.ca (s.issued.nextId * 1024 + l) a.n
    (bits a.data (8 * 0) (8 * a.n)) (bits a.psn 0 a.n)
  rw [homeView_home hv] at hrts
  rw [homeView_clock hv] at hclk
  obtain ⟨b, hb, hmem⟩ := storeHome_mem ho (s.whoLane l) a.ca (s.issued.nextId * 1024 + l) a.n
    (bits a.data (8 * 0) (8 * a.n)) (bits a.psn 0 a.n)
  refine ⟨t, _, ht, hl', fun j hj => ?_, fun x hx => ?_, hrts, hclk⟩
  · rw [holds_of_mem hmem (putBytes_holds b pa a.n _ _) j hj]
    exact byteOf_bits a.data hj
  · rw [memByte_of_mem hmem, putBytes_outside _ _ _ _ _ _ _ hx, memByte_of_mem hb, memByte_of_mem (homeView_mem hv)]

end

end Sys2Proof.Machine
end

section
/-! `ld` and `st` of one lane on memory (R62, R66, R79, R84, R116). -/

namespace Sys2Proof.Machine

/-- The access of a lane's `ld` on global memory. -/
def State.ldAccess (s : State) (a : Reg) (off : BitVec 16) (sz : Sz) (acq : Bool) (ca : Cache) (l : Nat) : Access :=
  { kind := .load, sp := .global, ea := effAddr (s.src64 0 l a) off, n := Sz.bytes sz, sz := sz, ca := ca, acq := acq }

/-- The data of a lane's `st`. -/
def State.stData (s : State) (d : Reg) (sz : Sz) (l : Nat) : Nat :=
  joinWords ((List.range (szRegs sz d).length).map fun k => s.src (8 + k) l (d.val + k))

/-- The access of a lane's `st` on global memory. -/
def State.stAccess (s : State) (d a : Reg) (off : BitVec 16) (sz : Sz) (rel : Bool) (ca : Cache) (l : Nat) : Access :=
  { kind := .store, sp := .global, ea := effAddr (s.src64 0 l a) off, n := Sz.bytes sz, data := s.stData d sz l, ca := ca
    rel := rel }

theorem ld_exec (h : Hdr) (d a : Reg) (off : BitVec 16) (sz : Sz) (acq : Bool) (ca : Cache) (s : State) :
    exec (.ld h d a off sz .global acq ca) s = laneMem (.ld h d a off sz .global acq ca) .g
      (fun c s => s.ldReqs c d a off sz .global acq ca) s := rfl

theorem st_exec (h : Hdr) (d a : Reg) (off : BitVec 16) (sz : Sz) (rel : Bool) (ca : Cache) (s : State) :
    exec (.st h d a off sz .global rel ca) s = laneMem (.st h d a off sz .global rel ca) .g
      (fun c s => s.stReqs c d a off sz .global rel ca) s := rfl

theorem bytes_dvd_sector (sz : Sz) : Sz.bytes sz ∣ 64 := by cases sz <;> decide

/-- A load gives a word to each register of its destination (R116). -/
theorem ld_words (s : State) (d a : Reg) (off : BitVec 16) (sz : Sz) (acq : Bool) (ca : Cache) (l v m : Nat) :
    (szRegs sz d).length = (resultWords (s.ldAccess a off sz acq ca l) v m).length := by cases sz <;> rfl

theorem ldReqs_one {s : State} {c : Ctx} {l : Nat} (hl : c.ga = [l]) (ht : c.t = s.issTeam) (d a : Reg) (off : BitVec 16)
    (sz : Sz) (acq : Bool) (ca : Cache) :
    s.issued.ldReqs c d a off sz .global acq ca = [⟨l, s.ldAccess a off sz acq ca l, szRegs sz d⟩] := by
  unfold State.ldReqs
  rw [hl, ht]
  rfl

theorem stReqs_one {s : State} {c : Ctx} {l : Nat} (hl : c.ga = [l]) (ht : c.t = s.issTeam)
    (ho : s.issued.isHelper s.issTeam l = false) (d a : Reg) (off : BitVec 16) (sz : Sz) (rel : Bool) (ca : Cache) :
    s.issued.stReqs c d a off sz .global rel ca = [⟨l, s.stAccess d a off sz rel ca l, []⟩] := by
  have hown : s.issued.owns c = [l] := by
    unfold State.owns
    rw [hl, ht, List.filter_cons, ho]
    rfl
  unfold State.stReqs
  rw [hown, ht]
  rfl

end Sys2Proof.Machine

open Sys2Proof Sys2Proof.Machine

/-- Settles O30: with nothing to hold it up, the one access is `readHome` or `storeHome` in a state that a home cannot tell
from that before the issue. -/
theorem homeLoadsAndStores : Obligations.HomeLoadsAndStores := by
  unfold Obligations.HomeLoadsAndStores
  constructor
  · intro s h d a off sz acq ca l pa i acc w sec _ H found
    obtain ⟨t, u, ht, hu, hleaves⟩ := H.loads rfl rfl (bytes_dvd_sector sz) (ld_exec h d a off sz acq ca s)
      (ldReqs_one (s := s) H.lanes rfl d a off sz acq ca) (ld_words s d a off sz acq ca l)
    obtain ⟨new, hdefs, hnew⟩ := hleaves.defs
    exact ⟨t, new, ht, hleaves.mem.trans hu, hleaves.regs, hleaves.arrival, hdefs, hnew⟩
  · intro s h d a off sz rel ca l pa i data acc core _ H
    obtain ⟨t, u, ht, hleaves, hin, hout, hrts, hclk⟩ := H.stores rfl rfl (st_exec h d a off sz rel ca s)
      (stReqs_one (s := s) H.lanes rfl H.notHelper d a off sz rel ca)
    obtain ⟨new, hdefs, hnew⟩ := hleaves.defs
    have hnil : new = [] := List.map_eq_nil_iff.mp hnew
    rw [hnil, List.append_nil] at hdefs
    refine ⟨t, ht, hleaves.regs, hdefs, hleaves.arrival, fun k hk => ?_, fun x hx => ?_, ?_, ?_⟩
    · rw [memByte_of_mem hleaves.mem]
      exact hin k hk
    · rw [memByte_of_mem hleaves.mem]
      exact hout x hx
    · rw [hleaves.clock]
      exact hrts
    · rw [hleaves.clock]
      exact hclk
end

section
/-! The state at reset (R70, R355, R363, R368, R372, R380). -/

open Sys2Proof Sys2Proof.Machine

/-- Settles O10: `State.reset` lists these fields, and every function and every core is at its default. -/
theorem resetState : Obligations.ResetState :=
  ⟨reset_canonical, rfl, rfl, rfl, rfl, rfl, rfl, rfl, rfl, rfl, rfl, fun _ => ⟨rfl, rfl, rfl, fun _ => rfl⟩⟩

end

section
/-! What reads and writes of memory leave alone, said once for every view of the state: a view that looks at none of the
fields of memory, of the caches and of the times sees nothing of a walk or of an access at a home (R62 to R71, R84). -/

namespace Sys2Proof.Machine

/-- A view of the state that looks neither at memory and the caches of homes nor at the times, counters and free values
that accesses move; it may look at the stashes. -/
def OffHome {β : Type} (g : State → β) : Prop :=
  ∀ (s : State) mem memPoison l1 l2 undo stored cores dies fns k hostClock recording rcsts endt rclog fresh,
    g { s with
      mem := mem, memPoison := memPoison, l1 := l1, l2 := l2, undo := undo, stored := stored, cores := cores, dies := dies
      fns := fns, guest := { s.guest with clock := k }, hostClock := hostClock, recording := recording, rcsts := rcsts
      endt := endt, rclog := rclog, fresh := fresh } = g s

/-- Such a view that does not look at the stashes either. -/
structure OffMemory {β : Type} (g : State → β) : Prop where
  home : OffHome g
  stash : ∀ (s : State) owners blocks, g { s with owners := owners, blocks := blocks } = g s

namespace OffHome

section
variable {β : Type} {g : State → β} (h : OffHome g) (s : State)
include h

/-- An update of fields that the view does not look at. -/
theorem put {mem memPoison l1 l2 undo stored cores dies fns k hostClock recording rcsts endt rclog fresh} :
    g { s with
      mem := mem, memPoison := memPoison, l1 := l1, l2 := l2, undo := undo, stored := stored, cores := cores, dies := dies
      fns := fns, guest := { s.guest with clock := k }, hostClock := hostClock, recording := recording, rcsts := rcsts
      endt := endt, rclog := rclog, fresh := fresh } = g s :=
  h s ..

theorem putBytes (pa n data mask psn : Nat) : g (s.putBytes pa n data mask psn) = g s :=
  foldl_keeps g _ (fun s i => by
    split
    · exact h.put s
    · rfl) _ _

theorem setHome (sec : Nat) (x : Home) : g (s.setHome sec x) = g s := by
  unfold State.setHome
  dsimp only
  split <;> exact h.put s

theorem evictFor (vf : Nat) (y : L2Line) : g (s.evictFor vf y) = g s := by
  have evict : ∀ u : State, g (u.evictLine y.line) = g u := fun u => h.put u
  unfold State.evictFor
  rw [evict]
  split
  · rfl
  · exact (h.put _).trans (h.put s)

theorem lineArrives (line : Nat) : g (s.lineArrives line) = g s := by
  unfold State.lineArrives State.logged
  split
  · split
    · rfl
    · split <;> exact h.put s
  · rfl

theorem fillLine (vf : Nat) (ca : Cache) (line : Nat) : g (s.fillLine vf ca line) = g s := by
  have arrive : g ((s.modFn vf fun f => { f with l2fill := addCount f.l2fill 1 }).lineArrives line) = g s :=
    (h.lineArrives _ _).trans (h.put s)
  unfold State.fillLine
  dsimp only
  split
  · split
    · exact h.put s
    · rfl
  · split
    · exact (h.put _).trans arrive
    · exact (h.put _).trans ((h.evictFor ..).trans arrive)
    · exact arrive

theorem settleSec (sec : Nat) : g (s.settleSec sec) = g s := h.put s

theorem noteStore (num sec t : Nat) : g (s.noteStore num sec t) = g s := h.put s

theorem raiseClock (core t : Nat) : g (s.raiseClock core t) = g s := h.put s

theorem l1Drop (core sec : Nat) : g (s.l1Drop core sec) = g s := h.put s

theorem unpoison (pa n v m : Nat) : g (s.unpoison pa n v m).1 = g s := by
  unfold State.unpoison
  split
  · rfl
  · exact h.put s

theorem count (core evt n : Nat) : g (s.count core evt n) = g s :=
  foldl_keeps g _ (fun s k => by
    split
    · exact h.put s
    · rfl) _ _

theorem raiseWho (w : Who) (t : Nat) : g (s.raiseWho w t) = g s := by
  unfold State.raiseWho
  split
  · exact h.put s
  · split <;> exact h.put s

theorem l1Put (core : Nat) (ca : Cache) (sec : Nat) (x : Copy) : g (s.l1Put core ca sec x) = g s := by
  unfold State.l1Put
  dsimp only
  split
  · split
    · rfl
    · split <;> exact h.put s
  · split
    · exact h.put s
    · exact h.put s
    · rfl

theorem noteUndo (tag pa n mask : Nat) : g (s.noteUndo tag pa n mask) = g s := by
  unfold State.noteUndo
  split <;> exact h.put s

end

end OffHome

namespace OffMemory

section
variable {β : Type} {g : State → β} (h : OffMemory g) (s : State)
include h

/-! ## Homes -/

theorem recallSec (wr : Bool) (sec : Nat) : g (s.recall wr sec) = g s := by
  have disown : ∀ (u : State) owners, g { u with owners := owners } = g u := fun u owners => h.stash u owners u.blocks
  have setSec : ∀ (u : State) (b k : Nat) (x : Sector), g (u.setSec b k x) = g u := fun u b k x => h.stash u u.owners _
  unfold State.recall
  split
  · rfl
  · split
    · exact disown ..
    · exact (h.home.setHome ..).trans ((disown ..).trans ((setSec ..).trans (h.home.putBytes s ..)))

theorem grant (vf : Nat) (ca : Cache) (clock sec : Nat) (drop : Bool) : g (s.grant vf ca clock sec drop).1 = g s :=
  (h.home.setHome ..).trans ((h.home.fillLine ..).trans ((h.home.settleSec ..).trans (h.recallSec ..)))

theorem takeTime (vf : Nat) (ca : Cache) (num clock sec : Nat) : g (s.takeTime vf ca num clock sec).1 = g s :=
  (h.home.noteStore ..).trans ((h.home.setHome ..).trans ((h.home.fillLine ..).trans (h.recallSec ..)))

/-! ## Walks -/

theorem walkRead (d vf pa : Nat) : g (s.walkRead d vf pa).1 = g s :=
  (h.home.unpoison ..).trans ((h.home.put _).trans (h.grant ..))

theorem addWalk (d : Nat) (e : WalkEntry) : g (s.addWalk d e) = g s := h.home.put s

theorem keepPointer (d vf spid va lv table : Nat) : g (s.keepPointer d vf spid va lv table) = g s := by
  unfold State.keepPointer
  split
  · rfl
  · exact h.addWalk ..

theorem walk2 (d vf spid fpa n lv table : Nat) : g (walk2 s d vf spid fpa n lv table).1 = g s := by
  induction n generalizing s lv table with
  | zero => rfl
  | succ n ih =>
    have hread := h.walkRead s d vf (table + 8 * lvIndex lv fpa)
    unfold Machine.walk2
    dsimp only
    split
    · rfl
    · split
      · exact hread
      · split
        · split <;> exact hread
        · split
          · exact hread
          · exact (ih ..).trans ((h.addWalk ..).trans hread)

theorem stage2 (d vf spid fpa : Nat) : g (s.stage2 d vf spid fpa).1 = g s := by
  unfold State.stage2
  dsimp only
  split
  · rfl
  · split
    · exact h.walk2 ..
    · split
      · exact h.walk2 ..
      · rfl

theorem walk1 (d vf spid va n lv table : Nat) : g (walk1 s d vf spid va n lv table).1 = g s := by
  induction n generalizing s lv table with
  | zero => rfl
  | succ n ih =>
    unfold Machine.walk1
    split
    · next e => exact of_fst (h.stage2 ..) e
    · next u y e =>
      have hu : g u = g s := of_fst (h.stage2 ..) e
      have hread : g ((u.keepPointer d vf spid va lv table).walkRead d vf y.pa).1 = g s :=
        (h.walkRead ..).trans ((h.keepPointer ..).trans hu)
      dsimp only
      split
      · exact hu
      · split
        · exact hu
        · split
          · exact hread
          · split
            · split
              · exact hread
              · split <;> next e => exact (of_fst (h.stage2 ..) e).trans hread
            · split
              · exact hread
              · exact (ih ..).trans hread

theorem descriptor (d vf spid va : Nat) : g (s.descriptor d vf spid va).1 = g s := by
  unfold State.descriptor
  dsimp only
  split
  · next e => exact of_fst (h.stage2 ..) e
  · next u y e =>
    have hu : g u = g s := of_fst (h.stage2 ..) e
    have hread : g (u.walkRead d vf y.pa).1 = g s := (h.walkRead ..).trans hu
    split
    · exact hu
    · split
      · exact hu
      · split
        · exact hread
        · split <;> exact hread

theorem walk (d vf spid root va : Nat) : g (s.walk d vf spid root va).1 = g s := by
  unfold State.walk
  split
  · exact h.walk1 ..
  · split
    · exact h.walk1 ..
    · split
      · next e => exact of_fst (h.descriptor ..) e
      · next e => exact (h.walk1 ..).trans (of_fst (h.descriptor ..) e)

theorem walkFor (w : Who) (fetch : Bool) (va : Nat) : g (s.walkFor w fetch va).1 = g s := by
  have hw := fun u : State => h.walk u (dieOf w.core) w.vf w.spid w.root va
  unfold State.walkFor State.inWalk
  dsimp only
  split
  · exact (h.home.raiseWho ..).trans ((hw _).trans (h.home.put s))
  · exact (hw _).trans (h.home.put s)

theorem keepTlb (core : Nat) (fetch : Bool) (e : Tlb) : g (s.keepTlb core fetch e) = g s := h.home.put s

theorem translate (w : Who) (fetch : Bool) (va : Nat) : g (s.translate w fetch va).1 = g s := by
  have hcount : g (if fetch then s else s.count w.core 8 1) = g s := by
    split
    · rfl
    · exact h.home.count ..
  unfold State.translate
  dsimp only
  split
  · rfl
  · split
    · rfl
    · split
      · exact (h.keepTlb ..).trans hcount
      · split
        · next e => exact (of_fst (h.walkFor ..) e).trans hcount
        · next e => exact (h.keepTlb ..).trans ((of_fst (h.walkFor ..) e).trans hcount)

/-! ## Accesses at a home -/

theorem markLeaf (w : Who) (m : Nat) (a : Option Nat) : g (s.markLeaf w m a) = g s := by
  cases a with
  | none => rfl
  | some a => exact (h.home.raiseWho ..).trans ((h.home.putBytes ..).trans ((h.home.settleSec ..).trans (h.takeTime ..)))

theorem markUsed (w : Who) (e : Tlb) (dirty : Bool) : g (s.markUsed w e dirty) = g s := by
  unfold State.markUsed
  split
  · rfl
  · exact (h.home.put _).trans ((h.home.put _).trans ((h.markLeaf ..).trans (h.markLeaf ..)))

theorem storeHome (w : Who) (ca : Cache) (op pa n data psn : Nat) : g (s.storeHome w ca op pa n data psn) = g s := by
  unfold State.storeHome
  dsimp only
  split
  · exact (h.home.l1Put ..).trans ((h.home.raiseClock ..).trans ((h.home.putBytes ..).trans ((h.home.noteUndo ..).trans (h.takeTime ..))))
  · exact (h.home.raiseClock ..).trans ((h.home.putBytes ..).trans ((h.home.noteUndo ..).trans (h.takeTime ..)))

theorem atomHome (w : Who) (op pa n : Nat) (a : Access) (wr : Bool) : g (s.atomHome w op pa n a wr).1 = g s := by
  unfold State.atomHome
  dsimp only
  split
  · refine (h.home.l1Drop ..).trans ((h.home.raiseClock ..).trans ?_)
    split
    · exact (h.home.putBytes ..).trans ((h.home.noteUndo ..).trans ((h.home.settleSec ..).trans (h.takeTime ..)))
    · exact (h.home.noteUndo ..).trans ((h.home.settleSec ..).trans (h.takeTime ..))
  · exact (h.home.l1Drop ..).trans ((h.home.raiseClock ..).trans (h.grant ..))

end

end OffMemory

theorem nextId_offMemory : OffMemory State.nextId := ⟨by intro s; intros; rfl, fun _ _ _ => rfl⟩

theorem owners_offHome : OffHome State.owners := by
  intro s
  intros
  rfl

end Sys2Proof.Machine
end

section
/-! The cores' clocks (R85). -/

namespace Sys2Proof.Machine

/-- An update of one core is all that changes. -/
theorem modCore_rest (s : State) (c : Nat) (f : Core → Core) : s.modCore c f = { s with cores := (s.modCore c f).cores } := rfl

theorem modCore_core_self (s : State) (c : Nat) (f : Core → Core) : (s.modCore c f).core c = f (s.core c) := by
  rw [State.modCore_eq, State.core_setCore_self]

theorem modCore_core_ne (s : State) {c d : Nat} (f : Core → Core) (h : d ≠ c) : (s.modCore c f).core d = s.core d := by
  rw [State.modCore_eq, State.core_setCore_ne _ _ _ _ h]

theorem clockAdvance_exec {c : Nat} (h : c < 256) (s : State) : exec (.clockAdvance c) s = .next (s.clockAdvance c) :=
  congrArg Host.Outcome.next (if_pos h)

theorem clockRaise_exec {c : Nat} (h : c < 256) (s : State) : exec (.clockRaise c) s = .next (s.clockRaise c) :=
  congrArg Host.Outcome.next (if_pos h)

end Sys2Proof.Machine

open Sys2Proof Sys2Proof.Machine

/-- Settles O50: each event is an update of the one core, by a test of the tick and of the tick noted. -/
theorem clocksMove : Obligations.ClocksMove := by
  unfold Obligations.ClocksMove
  intro s c hc x
  refine ⟨⟨_, clockAdvance_exec hc s, modCore_rest .., fun d hd => modCore_core_ne s _ hd, ?_⟩,
    ⟨_, clockRaise_exec hc s, modCore_rest .., fun d hd => modCore_core_ne s _ hd, ?_⟩⟩
  · have hx : (s.clockAdvance c).core c
        = if s.tick % 8 = 0 && x.advanced ≠ s.tick then { x with clock := x.clock + 1, advanced := s.tick } else x :=
      modCore_core_self ..
    by_cases h : s.tick % 8 = 0 ∧ x.advanced ≠ s.tick
    · rw [hx, if_pos (by simpa using h), if_pos h]
      exact ⟨rfl, rfl⟩
    · rw [hx, if_neg (by simpa using h), if_neg h]
      exact ⟨rfl, rfl⟩
  · have hx : (s.clockRaise c).core c = if s.tick % 256 = 0 && x.raised ≠ s.tick then
          { x with clock := max x.clock s.maxClock, raised := s.tick } else x := modCore_core_self ..
    by_cases h : s.tick % 256 = 0 ∧ x.raised ≠ s.tick
    · rw [hx, if_pos (by simpa using h), if_pos h]
      exact ⟨rfl, rfl⟩
    · rw [hx, if_neg (by simpa using h), if_neg h]
      exact ⟨rfl, rfl⟩
end

section
/-! An atomic of one lane at a home (R82, R119, R120): it finds the old value, and writes the new one unless it is a
compare that fails. -/

namespace Sys2Proof.Machine

/-! ## One place at a home -/

/-- A state's bytes as a number depend on memory alone. -/
theorem getBytes_fst_of_mem {s t : State} (h : t.mem = s.mem) (pa n : Nat) : (t.getBytes pa n).1 = (s.getBytes pa n).1 := by
  unfold State.getBytes State.memByte
  rw [h]

/-- Where no stash owns the sector, the last store's bytes are those of memory. -/
theorem peek_unowned {s : State} {pa n : Nat} (ho : s.owners.get 0 (pa / 64) = 0) (hs : pa % 64 + n ≤ 64) :
    s.peek pa n = (s.getBytes pa n).1 := by
  unfold State.peek State.getBytes
  refine congrArg leNat (List.map_congr_left fun i hi => ?_)
  have hi' : i < n := List.mem_range.mp hi
  unfold State.peekByte
  rw [show (pa + i) / 64 = pa / 64 by omega, ho]

section
variable {s : State} {pa n : Nat} {a : Access} (ho : s.owners.get 0 (pa / 64) = 0)
include ho

theorem atomHome_finds (w : Who) (op : Nat) (wr : Bool) :
    (s.atomHome w op pa n a wr).2.1 = (s.getBytes pa n).1 := by
  unfold State.atomHome
  split
  · exact getBytes_fst_of_mem (takeTime_mem ho ..) pa n
  · exact getBytes_fst_of_mem (grant_unowned ho w.fill a.ca _ true).1 pa n

/-- An atomic that writes leaves memory as a store of its new value does. -/
theorem atomHome_writes (hw : atomWrites a.aop (s.getBytes pa n).1 a.cmp = true) (w : Who) (op : Nat) :
    ∃ u : State, u.mem = s.mem ∧ (s.atomHome w op pa n a true).1.mem
      = (u.putBytes pa n (atomNew a.aop a.aty a.rnd (s.getBytes pa n).1 a.data) (ones n) 0).mem := by
  let v := (s.takeTime w.fill a.ca w.writes (s.core w.core).clock (pa / 64)).1
  have hv : v.mem = s.mem := takeTime_mem ho ..
  have hg : (v.getBytes pa n).1 = (s.getBytes pa n).1 := getBytes_fst_of_mem hv pa n
  refine ⟨(v.settleSec (pa / 64)).noteUndo op pa n (ones n), (noteUndo_mem ..).trans hv, ?_⟩
  unfold State.atomHome
  rw [if_pos rfl]
  dsimp only
  rw [l1Drop_mem, raiseClock_mem, hg, if_pos hw]

theorem atomHome_reads (w : Who) (op : Nat) : (s.atomHome w op pa n a false).1.mem = s.mem := by
  unfold State.atomHome
  rw [if_neg Bool.false_ne_true]
  dsimp only
  rw [l1Drop_mem, raiseClock_mem]
  exact (grant_unowned ho w.fill a.ca _ true).1

end

theorem perform_atom (s : State) {a : Access} {e : Tlb} {pa : Nat} (hk : a.kind = .atom) (w : Who) (op : Nat) :
    s.perform w op a [homeChunk a e pa] = s.atomChunk w op a (homeChunk a e pa) := by
  unfold State.perform
  rw [List.foldl_cons, List.foldl_nil, hk]

/-- An atomic on one place: what it finds, and the bytes that it leaves there and beside it. -/
structure AtomAt (s u : State) (a : Access) (pa : Nat) (old : Nat) : Prop where
  found : old = (s.getBytes pa a.n).1
  stands : atomWrites a.aop old a.cmp = false → u.mem = s.mem
  writes : atomWrites a.aop old a.cmp = true → u.Holds pa a.n (atomNew a.aop a.aty a.rnd old a.data)
  beside : ∀ x, x < pa ∨ pa + a.n ≤ x → u.memByte x = s.memByte x

theorem atomChunk_at {s : State} {a : Access} {e : Tlb} {pa : Nat} (hm : e.Marked) (ho : s.owners.get 0 (pa / 64) = 0)
    (hs : pa % 64 + a.n ≤ 64) (w : Who) (op : Nat) :
    AtomAt s (s.atomChunk w op a (homeChunk a e pa)).1 a pa (s.atomChunk w op a (homeChunk a e pa)).2.1 := by
  have hm' : Tlb.Marked { e with acc := true } := hm.imp (fun h => ⟨rfl, h.2⟩) id
  have hv : (s.markUsed w e false).homeView = s.homeView := markUsed_homeView hm ..
  have hv' : ((s.markUsed w e false).markUsed w { e with acc := true } true).homeView = s.homeView :=
    (markUsed_homeView hm' ..).trans hv
  have ho1 := (congrArg (·.get 0 (pa / 64)) (homeView_owners hv)).trans ho
  have ho2 := (congrArg (·.get 0 (pa / 64)) (homeView_owners hv')).trans ho
  have hg1 := getBytes_fst_of_mem (homeView_mem hv) pa a.n
  have hg2 := getBytes_fst_of_mem (homeView_mem hv') pa a.n
  unfold State.atomChunk homeChunk
  dsimp only
  rw [peek_unowned ho1 hs, hg1]
  split
  · next hw =>
    have hf := (atomHome_finds (a := a) (n := a.n) ho2 w op true).trans hg2
    obtain ⟨u, hu, hmem⟩ := atomHome_writes (a := a) (n := a.n) ho2 (by rw [hg2]; exact hw) w op
    rw [hg2] at hmem
    refine ⟨hf, fun h => ?_, fun _ => ?_, fun x hx => ?_⟩
    · rw [hf, hw] at h
      exact absurd h (by decide)
    · rw [hf]
      exact holds_of_mem hmem (putBytes_holds u pa a.n _ 0)
    · rw [memByte_of_mem hmem, putBytes_outside _ _ _ _ _ _ _ hx, memByte_of_mem hu, memByte_of_mem (homeView_mem hv')]
  · next hw =>
    have hf := (atomHome_finds (a := a) (n := a.n) ho1 w op false).trans hg1
    have hmem : ((s.markUsed w e false).atomHome w op pa a.n a false).1.mem = s.mem :=
      (atomHome_reads ho1 w op).trans (homeView_mem hv)
    refine ⟨hf, fun _ => hmem, fun h => absurd (hf ▸ h) hw, fun x _ => memByte_of_mem hmem x⟩

/-! ## An access that gives no result -/

/-- An access with no destination posts nothing. -/
theorem homeDone_nil (s : State) (l : Nat) (a : Access) (e : Tlb) (pa : Nat) (note : Deferred → Deferred) :
    s.homeDone l a [] e pa note = (s.homePerformed l a e pa).1.takeId.2 := rfl

theorem homeDone_nil_leaves (s : State) (l : Nat) (a : Access) (e : Tlb) (pa : Nat) (note : Deferred → Deferred) :
    LeavesHome s ((s.homeDone l a [] e pa note).finish s.issue.part) l [] a (s.homePerformed l a e pa).1
      (s.homePerformed l a e pa).2 := by
  have ha : (s.homePerformed l a e pa).1.apart = s.raised.apart := homePerformed_apart
  have hf := lanesOnly_finish s.issue.part (s.homeDone l a [] e pa note)
  rw [homeDone_nil] at hf ⊢
  refine ⟨(finish_regs ..).trans ((apart_regs ha).trans (issued_regs s)), hf.mem_eq, fun c => ?_, ?_, [], ?_, rfl⟩
  · rw [hf.cores c]
    rfl
  · unfold RaisesArrival
    rw [hf.part]
    exact (congrArg (fun x => (x.get {} s.issue.part).ops) (apart_parts ha)).trans (raised_ops s)
  · rw [finish_defs, List.append_nil]
    exact (apart_defs ha).trans (issued_defs s)

section
variable {s : State} {i : Instr} {l pa : Nat} {a : Access} (H : HomeAccess s i l a pa) {ds : List Nat}
  {rs : Ctx → State → List Req}
include H

/-- An instruction whose one access gives no result performs it and completes. -/
theorem HomeAccess.performs_nil (hels : a.els = []) (hx : exec i s = laneMem i .g rs s)
    (hr : rs (s.opCtx i.hdr) s.issued = [⟨l, a, []⟩]) :
    ∃ e t, e.Marked ∧ e.attr.rep = false ∧ exec i s = .next t
      ∧ LeavesHome s t l [] a (s.homePerformed l a e pa).1 (s.homePerformed l a e pa).2 := by
  obtain ⟨e, note, hm, hrep, hn, ha⟩ := H.accesses [] hels
  have hsamp : (s.homeDone l a [] e pa note).noSampling := by
    have hs : s.raised.noSampling := issued_noSampling H.sampling
    exact (congrArg (bits · 0 16) (apart_smpctl homePerformed_apart)).trans hs
  refine ⟨e, _, hm, hrep, ?_, homeDone_nil_leaves s l a e pa note⟩
  rw [hx, laneMem, issueMem_issues H.issues (by rw [hr, ha]; exact hsamp), hr, ha]

/-- An atomic is one place at its home; where it gives a result, that is the old value. -/
theorem HomeAccess.atoms (hk : a.kind = .atom) (hels : a.els = []) (hdvd : a.n ∣ 64) (hx : exec i s = laneMem i .g rs s)
    (hr : rs (s.opCtx i.hdr) s.issued = [⟨l, a, ds⟩]) (hds : ds = [] ∨ ds.length = a.n / 4) :
    ∃ t u found, exec i s = .next t ∧ LeavesHome s t l ds a u found ∧ AtomAt s u a pa found.1 := by
  have hlen : ∀ v m, (resultWords a v m).length = a.n / 4 := fun v m => by
    unfold resultWords
    rw [hk]
    simp
  have hp : ∃ e t, e.Marked ∧ e.attr.rep = false ∧ exec i s = .next t
      ∧ LeavesHome s t l ds a (s.homePerformed l a e pa).1 (s.homePerformed l a e pa).2 := by
    obtain rfl | hds := hds
    · exact H.performs_nil hels hx hr
    · exact H.performs hels hx hr fun v m => hds.trans (hlen v m).symm
  obtain ⟨e, t, hm, hrep, ht, hl⟩ := hp
  have hv := raised_homeView s
  have hat := atomChunk_at (a := a) hm ((congrArg (·.get 0 (pa / 64)) (homeView_owners hv)).trans H.unowned)
    (aligned_in_sector hdvd H.aligned') (s.whoLane l) (s.issued.nextId * 1024 + l)
  obtain ⟨hfound, hstands, hwrites, hbeside⟩ := hat
  have hmem := homeView_mem hv
  refine ⟨t, _, _, ht, hl, ?_⟩
  unfold State.homePerformed
  rw [perform_atom _ hk]
  exact ⟨hfound.trans (getBytes_fst_of_mem hmem ..), fun h => (hstands h).trans hmem, hwrites,
    fun x hx => (hbeside x hx).trans (memByte_of_mem hmem x)⟩

end

/-! ## `atom` and `red` -/

/-- The access of a lane's `atom`, or with `none` of its `red`, on global memory. -/
def State.atomAccess (s : State) (a b c : Reg) (op : AtomOp) (ty : AtomTy) (rnd : Rnd) (ord : Ord) (l : Nat) : Access :=
  let n := if ty.wide then 2 else 1
  let word (slot : Nat) (r : Reg) := joinWords ((List.range n).map fun k => s.src (slot + k) l (r.val + k))
  { kind := .atom, sp := .global, ea := s.src64 0 l a, n := AtomTy.bytes ty, data := word 8 b, aop := op, aty := ty
    rnd := rnd, acq := ord = .acq || ord = .acqrel, rel := ord = .rel || ord = .acqrel
    cmp := if op = .cas then word 12 c else 0 }

/-- The registers of an atomic's result. -/
def atomDest (ty : AtomTy) : Option Nat → List Nat
  | some d => (List.range (if ty.wide then 2 else 1)).map (d + ·)
  | none => []

theorem atomReqs_one {s : State} {c : Ctx} {l : Nat} (hl : c.ga = [l]) (ht : c.t = s.issTeam)
    (ho : s.issued.isHelper s.issTeam l = false) (d : Option Nat) (a b x : Reg) (op : AtomOp) (ty : AtomTy) (rnd : Rnd)
    (ord : Ord) : s.issued.atomReqs c d a b x op ty rnd .global ord
      = [⟨l, s.atomAccess a b x op ty rnd ord l, atomDest ty d⟩] := by
  have hown : s.issued.owns c = [l] := by
    unfold State.owns
    rw [hl, ht, List.filter_cons, ho]
    rfl
  unfold State.atomReqs
  rw [hown, ht]
  cases d <;> rfl

theorem atom_exec (h : Hdr) (d a b c : Reg) (op : AtomOp) (ty : AtomTy) (rnd : Rnd) (ord : Ord) (s : State) :
    exec (.atom h d a b c op ty rnd .global ord) s = laneMem (.atom h d a b c op ty rnd .global ord) .g
      (fun x s => s.atomReqs x (some d.val) a b c op ty rnd .global ord) s := rfl

theorem red_exec (h : Hdr) (a b : Reg) (op : AtomOp) (ty : AtomTy) (rnd : Rnd) (ord : Ord) (s : State) :
    exec (.red h a b op ty rnd .global ord) s = laneMem (.red h a b op ty rnd .global ord) .g
      (fun x s => s.atomReqs x none a b b op ty rnd .global ord) s := rfl

theorem atomBytes_dvd_sector (ty : AtomTy) : AtomTy.bytes ty ∣ 64 := by cases ty <;> decide

/-- The words of an atomic's type (R120). -/
theorem atomBytes_words (ty : AtomTy) : AtomTy.bytes ty / 4 = if ty.wide then 2 else 1 := by cases ty <;> decide

theorem atomDest_length (ty : AtomTy) (d : Nat) : (atomDest ty (some d)).length = AtomTy.bytes ty / 4 := by
  rw [atomBytes_words, atomDest, List.length_map, List.length_range]

/-- `red` has no compare (R119). -/
theorem wf_red {h : Hdr} {a b : Reg} {op : AtomOp} {ty : AtomTy} {rnd : Rnd} {sp : Space} {ord : Ord}
    (hw : (Instr.red h a b op ty rnd sp ord).wf = true) : op ≠ .cas := by
  simp only [Instr.wf, Bool.and_eq_true, decide_eq_true_eq] at hw
  obtain ⟨⟨⟨⟨-, hop⟩, -⟩, -⟩, -⟩ := hw
  exact hop

/-- The words of the old value and where they go. -/
theorem atomDest_words (s : State) (a b c : Reg) (op : AtomOp) (ty : AtomTy) (rnd : Rnd) (ord : Ord) (l d v m t : Nat) :
    ((atomDest ty (some d)).zip (resultWords (s.atomAccess a b c op ty rnd ord l) v m)).map
        (fun x => (t, l, x.1, some x.2.1))
      = (List.range (if ty.wide then 2 else 1)).map fun k => (t, l, d + k, some (bits v (32 * k) 32)) := by
  have hw : resultWords (s.atomAccess a b c op ty rnd ord l) v m
      = (List.range (AtomTy.bytes ty / 4)).map fun k => (bits v (32 * k) 32, decide (bits m (4 * k) 4 ≠ 0)) := rfl
  rw [hw, atomBytes_words, atomDest, List.zip_map', List.map_map]
  rfl

/-- Byte by byte, an atomic leaves the new value, or the old bytes where it is a compare that fails. -/
theorem AtomAt.byte {s u : State} {a : Access} {pa old : Nat} (h : AtomAt s u a pa old) {k : Nat} (hk : k < a.n) :
    u.memByte (pa + k) = if a.aop = .cas ∧ old ≠ a.cmp then s.memByte (pa + k)
      else byteOf (atomNew a.aop a.aty a.rnd old a.data) k := by
  by_cases hc : a.aop = .cas ∧ old ≠ a.cmp
  · rw [if_pos hc]
    exact memByte_of_mem (h.stands (by simp [atomWrites, hc])) _
  · rw [if_neg hc]
    refine h.writes ?_ k hk
    unfold atomWrites
    by_cases hop : a.aop = .cas
    · simp [not_not.mp (not_and.mp hc hop)]
    · simp [hop]

end Sys2Proof.Machine

open Sys2Proof Sys2Proof.Machine

/-- Settles O31: the one access is `atomHome` in a state that a home cannot tell from that before the issue. -/
theorem atomicAtHome : Obligations.AtomicAtHome := by
  unfold Obligations.AtomicAtHome
  intro s h d a b c op ty rnd ord l pa i hi n word acc old hwf H
  obtain rfl | rfl := hi
  · have H' : HomeAccess s _ l (s.atomAccess a b c op ty rnd ord l) pa := { H with }
    obtain ⟨t, u, found, ht, hleaves, hat⟩ := H'.atoms rfl rfl (atomBytes_dvd_sector ty)
      (atom_exec h d a b c op ty rnd ord s)
      (atomReqs_one (s := s) H.lanes rfl H.notHelper (some d.val) a b c op ty rnd ord) (.inr (atomDest_length ty d))
    obtain ⟨new, hdefs, hnew⟩ := hleaves.defs
    have hold : found.1 = old := hat.found
    rw [hold] at hat hnew
    refine ⟨t, new, ht, hleaves.regs, hleaves.arrival, hdefs, fun _ => ?_, fun e => (by injection e), fun k hk => ?_,
      fun x hx => (memByte_of_mem hleaves.mem x).trans (hat.beside x hx)⟩
    · have hmap := congrArg (List.map fun x : Nat × Nat × Nat × Option Nat × Bool => (x.1, x.2.1, x.2.2.1, x.2.2.2.1)) hnew
      rw [List.map_map, List.map_map] at hmap
      exact hmap.trans (atomDest_words ..)
    · exact (memByte_of_mem hleaves.mem _).trans (hat.byte hk)
  · have hop := wf_red hwf
    have hcmp : (s.atomAccess a b b op ty rnd ord l).cmp = acc.cmp := (if_neg hop).trans (if_neg hop).symm
    have H' : HomeAccess s _ l (s.atomAccess a b b op ty rnd ord l) pa := { H with }
    obtain ⟨t, u, found, ht, hleaves, hat⟩ := H'.atoms rfl rfl (atomBytes_dvd_sector ty) (red_exec h a b op ty rnd ord s)
      (atomReqs_one (s := s) H.lanes rfl H.notHelper none a b b op ty rnd ord) (.inl rfl)
    obtain ⟨new, hdefs, hnew⟩ := hleaves.defs
    have hold : found.1 = old := hat.found
    rw [hold] at hat
    have hnil : new = [] := List.map_eq_nil_iff.mp hnew
    refine ⟨t, new, ht, hleaves.regs, hleaves.arrival, hdefs, fun e => (by injection e), fun _ => hnil, fun k hk => ?_,
      fun x hx => (memByte_of_mem hleaves.mem x).trans (hat.beside x hx)⟩
    rw [memByte_of_mem hleaves.mem, hat.byte hk, hcmp]
    rfl
end

section
/-! `launch` (R264): the reads of a child's image leave the machine beside memory alone, and the code is posted for every
acting lane. -/

namespace Sys2Proof.Machine

/-! ## Reads of an agent -/

@[simp] theorem agentPiece_apart (s : State) (w : Who) (va n : Nat) : (s.agentPiece w va n).1.apart = s.apart := by
  unfold State.agentPiece
  split
  · next h => exact of_fst (resolve_apart ..) h
  · next h =>
    have hu := of_fst (g := State.apart) (resolve_apart ..) h
    dsimp only
    split
    · exact hu
    · split
      · exact (readWindow_apart ..).trans ((markUsed_apart ..).trans hu)
      · split
        · exact hu
        · exact (unpoison_apart ..).trans ((homeRead_apart ..).trans ((markUsed_apart ..).trans hu))

@[simp] theorem agentRead_apart (s : State) (w : Who) (va n : Nat) : (s.agentRead w va n).1.apart = s.apart := by
  unfold State.agentRead
  split
  · rfl
  · refine foldl_fst_keeps State.apart _ (fun r x => ?_) _ (s, Got.ok 0)
    split
    · split <;> next h => exact of_fst (agentPiece_apart ..) h
    · rfl

/-- Reading an image (R383) leaves the machine beside memory alone. -/
theorem readImage_apart (s : State) (w : Who) (image params : Nat) : (s.readImage w image params).1.apart = s.apart := by
  have read {s u : State} {va n : Nat} {r : Got Nat} (h : s.agentRead w va n = (u, r)) : u.apart = s.apart :=
    of_fst (agentRead_apart ..) h
  unfold State.readImage
  split
  · rfl
  · split
    · next h => exact read h
    · next h => exact read h
    · next s1 _ h1 =>
      have e1 : s1.apart = s.apart := read h1
      split
      · exact e1
      · dsimp only
        split
        · next h => exact (read h).trans e1
        · next h => exact (read h).trans e1
        · next s2 _ h2 =>
          have e2 : s2.apart = s.apart := (read h2).trans e1
          split
          · exact e2
          · split
            · next h => exact (read h).trans e2
            · next h => exact (read h).trans e2
            · next s3 _ h3 =>
              have e3 : s3.apart = s.apart := (read h3).trans e2
              split
              · next h => exact (read h).trans e3
              · next h => exact (read h).trans e3
              · next h => exact (read h).trans e3

/-- So does reading the descriptor of a launch's space (R35, R36). -/
theorem acceptSpace_apart (s : State) (w : Who) (x : Launch) : (s.acceptSpace w x).1.apart = s.apart := by
  have walk : (s.inWalk w true fun s => s.descriptor x.die x.vf x.spid x.image).1.apart = s.apart := by
    unfold State.inWalk
    exact (raiseWho_apart ..).trans ((descriptor_apart ..).trans (setDie_apart ..))
  unfold State.acceptSpace
  split
  · rfl
  · split
    · next h => exact of_fst walk h
    · next h =>
      have hu := of_fst (g := State.apart) walk h
      split <;> exact hu

theorem noSampling_of_apart {s t : State} (h : t.apart = s.apart) (hs : s.noSampling) : t.noSampling := by
  unfold State.noSampling at *
  rw [apart_smpctl h, hs]

/-! ## Answers -/

/-- One word answered to each of some lanes of a team. -/
def State.answerAll (s : State) (t : Nat) (ls : List Nat) (d k : Nat) : State :=
  ls.foldl (fun s i => (s.postWords t i [d] (some [(k, false)]) 0).2) s

/-- A code is a deferred result of each lane, and nothing else changes. -/
theorem answerAll_posts (s : State) (t : Nat) (ls : List Nat) (d k : Nat) :
    ∃ new n, s.answerAll t ls d k = { s with defs := s.defs ++ new, nextId := n }
      ∧ new.map Deferred.result = ls.map fun i => (t, i, d, some k, false) := by
  induction ls generalizing s with
  | nil => exact ⟨[], s.nextId, by rw [List.append_nil]; rfl, rfl⟩
  | cons i ls ih =>
    obtain ⟨new, n, hs, hnew⟩ := postWords_posts s t i (dest := [d]) (ws := [(k, false)]) rfl 0 (note := id)
      fun _ => ⟨rfl, rfl, rfl, rfl, rfl⟩
    obtain ⟨new', n', hs', hnew'⟩ := ih (s.postWords t i [d] (some [(k, false)]) 0).2
    refine ⟨new ++ new', n', ?_, by rw [List.map_append, hnew, hnew']; rfl⟩
    show ((s.postWords t i [d] (some [(k, false)]) 0).2).answerAll t ls d k = _
    rw [hs', hs, List.append_assoc]

/-! ## `launch` -/

/-- What `launch` does for its poster, once the image reads: it answers a code other than 0 at once, and 0 after the commit of
the child. -/
theorem launch_exec (h : Hdr) (d a : Reg) (s : State) : ∃ eff : Ctx → State → State,
    exec (.launch h d a) s = issueMem (.launch h d a) s (fun c s => s.launchSectors c a) eff
      ∧ ∀ c s0 l s1 im, s0.poster c = some l →
        s0.readImage (s0.who c.p) (s0.childOf c l a).image (s0.childOf c l a).paramAt = (s1, .ok im) →
        (s1.launchCode c (s0.childOf c l a) im ≠ 0 →
          eff c s0 = s1.answerAll c.t c.ga d.val (s1.launchCode c (s0.childOf c l a) im))
        ∧ ∀ img consts root s2, s1.launchCode c (s0.childOf c l a) im = 0 → im = some (img, consts) →
          s1.acceptSpace (s0.who c.p) (s0.childOf c l a) = (s2, .ok root) →
          eff c s0 = (s2.commitChild (s0.who c.p).core { s0.childOf c l a with img := img, consts := consts } root).answerAll
            c.t c.ga d.val 0 := by
  rw [show exec (.launch h d a) s = execLaunch h d a s from rfl]
  unfold execLaunch
  refine ⟨_, rfl, fun c s0 l s1 im hp hr => ⟨fun hk => ?_, fun img consts root s2 hk him hs => ?_⟩⟩
  · dsimp only
    rw [hp]
    dsimp only
    rw [hr]
    dsimp only
    split
    · contradiction
    · rfl
  · subst him
    dsimp only
    rw [hp]
    dsimp only
    rw [hr]
    dsimp only
    rw [hk]
    simp only [hs]
    rfl

/-- The child's record when its space is good. -/
theorem commitChild_launch (s : State) (core : Nat) (x : Launch) (r : Nat) :
    (s.commitChild core x (some r)).launch s.nextId = { x with
      order := s.nextId, st := .pending, time := (s.core core).clock + 1, endTime := (s.core core).clock + 1
      root := r + 1 } := State.launch_setLaunch_self ..

section
variable {s u : State} {h : Hdr} {d a : Reg} {k : Nat} {sectors : Ctx → State → Nat} {eff : Ctx → State → State}

/-- A memory instruction that answers a code to its acting lanes, in a state in which nothing is sampled. -/
theorem issueMem_answers (hi : Issues (.launch h d a) s) (hu : u.noSampling)
    (hx : exec (.launch h d a) s = issueMem (.launch h d a) s sectors eff)
    (he : eff (s.opCtx (Instr.launch h d a).hdr) s.issued = u.answerAll s.issTeam (s.actors (.launch h d a)) d.val k) :
    ∃ t new, exec (.launch h d a) s = .next t ∧ t.defs = u.defs ++ new
      ∧ new.map (fun d => (d.team, d.lane, d.reg, d.val))
        = (s.actors (.launch h d a)).map (fun i => (s.issTeam, i, d.val, some k))
      ∧ t.launches = u.launches ∧ t.regs = u.regs := by
  obtain ⟨new, n, ha, hnew⟩ := answerAll_posts u s.issTeam (s.actors (.launch h d a)) d.val k
  rw [ha] at he
  have hf := lanesOnly_finish s.issue.part { u with defs := u.defs ++ new, nextId := n }
  refine ⟨_, new, hx.trans (issueMem_issues hi (by rw [he]; exact hu)), ?_, ?_, ?_, ?_⟩
  · rw [finish_defs, he]
  · have hmap := congrArg (List.map fun x : Nat × Nat × Nat × Option Nat × Bool => (x.1, x.2.1, x.2.2.1, x.2.2.2.1)) hnew
    rw [List.map_map, List.map_map] at hmap
    exact hmap
  · rw [he, hf.rest]
  · rw [finish_regs, he]

end

end Sys2Proof.Machine

open Sys2Proof Sys2Proof.Machine
/-- Settles O37: what `launch` does once the image reads is an answer of its code, before which a code of 0 commits the
child. -/
theorem childLaunches : Obligations.ChildLaunches := by
  unfold Obligations.ChildLaunches
  intro s s1 h d a l im hs hi hp c x w hr k codes
  obtain ⟨eff, hx, heff⟩ := launch_exec h d a s
  have hposter : s.issued.poster c = some l := (poster_issued s (.launch h d a)).trans hp
  obtain ⟨hrefused, haccepted⟩ := heff c s.issued l s1 im hposter hr
  have h1 : s1.noSampling :=
    noSampling_of_apart (of_fst (g := State.apart) (readImage_apart ..) hr) (issued_noSampling hs)
  refine ⟨fun hk => issueMem_answers hi h1 hx (hrefused hk), fun img consts root s2 hk him hroot => ?_⟩
  have h2 : s2.noSampling := noSampling_of_apart (of_fst (g := State.apart) (acceptSpace_apart ..) hroot) h1
  have he := haccepted img consts (some root) s2 hk him hroot
  obtain ⟨t, new, ht, hdefs, hnew, hlaunches, -⟩ :=
    issueMem_answers (u := s2.commitChild w.core { x with img := img, consts := consts } (some root)) hi h2 hx he
  rw [← hk] at hnew
  exact ⟨t, new, ht, hdefs, hnew, (congrArg (·.get {} s2.nextId) hlaunches).trans (commitChild_launch ..)⟩
end

section
/-! A trap that an instruction raises as its effect (R329, R330): the part stops at its instruction, so that nothing follows
the trap in the same issue. -/

namespace Sys2Proof.FMap

/-- What a write lists beside the value written was listed before. -/
theorem mem_insert {α : Type} {k : Nat} {v : α} {m : FMap α} {x : Nat × α} (h : x ∈ insert k v m) :
    x = (k, v) ∨ x ∈ m := by
  induction m with
  | nil => exact .inl (by simpa [insert] using h)
  | cons c m ih =>
    obtain ⟨j, w⟩ := c
    unfold insert at h
    split at h
    · simpa using h
    · split at h
      · rw [List.mem_cons] at h
        exact h.imp_right (List.mem_cons_of_mem _)
      · obtain rfl | h := List.mem_cons.mp h
        · exact .inr List.mem_cons_self
        · exact (ih h).imp_right (List.mem_cons_of_mem _)

/-- What a write leaves out is what its index read as. -/
theorem mem_of_insert {α : Type} (d : α) {k : Nat} (v : α) {m : FMap α} {x : Nat × α} (h : x ∈ m) :
    x ∈ insert k v m ∨ x = (k, get d m k) := by
  induction m with
  | nil => cases h
  | cons c m ih =>
    obtain ⟨j, w⟩ := c
    unfold insert
    rw [get_cons]
    split
    · exact .inl (List.mem_cons_of_mem _ h)
    · split
      · next e =>
        obtain rfl | h := List.mem_cons.mp h
        · exact .inr (by rw [e])
        · exact .inl (List.mem_cons_of_mem _ h)
      · obtain rfl | h := List.mem_cons.mp h
        · exact .inl List.mem_cons_self
        · exact (ih h).imp_left (List.mem_cons_of_mem _)

theorem insert_self_mem {α : Type} (k : Nat) (v : α) (m : FMap α) : (k, v) ∈ insert k v m := by
  induction m with
  | nil => exact List.mem_cons_self
  | cons c m ih =>
    unfold insert
    split
    · exact List.mem_cons_self
    · split
      · exact List.mem_cons_self
      · exact List.mem_cons_of_mem _ ih

/-- An index reads as the default or as something listed. -/
theorem get_mem {α : Type} (d : α) (m : FMap α) (k : Nat) : get d m k = d ∨ (k, get d m k) ∈ m := by
  induction m with
  | nil => exact .inl rfl
  | cons c m ih =>
    obtain ⟨j, w⟩ := c
    rw [get_cons]
    split
    · next e => exact .inr (by rw [e]; exact List.mem_cons_self)
    · exact ih.imp_right (List.mem_cons_of_mem _)

end Sys2Proof.FMap

namespace Sys2Proof.Machine

/-! ## Tokens of a state in which one part has been written -/

/-- The tokens that a part holds (R50, R330). -/
def Part.tokens (x : Part) : List Nat := (x.susp.map (·.token)).toList ++ x.qTokens

/-- A write of a part that keeps its tokens keeps those of every ring. -/
theorem tokens_setPart (s : State) (p : Nat) {x : Part} (hx : x ≠ {}) (ht : x.tokens = (s.part p).tokens) (ring k : Nat) :
    k ∈ (s.setPart p x).tokens ring ↔ k ∈ s.tokens ring := by
  have hparts : k ∈ (s.setPart p x).parts.flatMap (fun y => y.2.tokens) ↔ k ∈ s.parts.flatMap fun y => y.2.tokens := by
    have hset : (s.setPart p x).parts = FMap.insert p x s.parts := if_neg hx
    rw [hset, List.mem_flatMap, List.mem_flatMap]
    constructor
    · rintro ⟨y, hy, hk⟩
      obtain rfl | hy := FMap.mem_insert hy
      · dsimp only at hk
        rw [ht] at hk
        obtain e | hm := FMap.get_mem {} s.parts p
        · unfold State.part at hk
          rw [e] at hk
          cases hk
        · exact ⟨_, hm, hk⟩
      · exact ⟨y, hy, hk⟩
    · rintro ⟨y, hy, hk⟩
      obtain hy | hy := FMap.mem_of_insert {} (k := p) x hy
      · exact ⟨y, hy, hk⟩
      · rw [hy] at hk
        exact ⟨(p, x), FMap.insert_self_mem .., ht ▸ hk⟩
  unfold State.tokens
  rw [List.mem_append, List.mem_append]
  exact or_congr_right hparts

/-- The issue of a live part's instruction keeps the tokens outstanding. -/
theorem tokens_issued {s : State} (hl : (s.part s.issue.part).life = .live) (ring k : Nat) :
    k ∈ s.issued.tokens ring ↔ k ∈ s.tokens ring := by
  unfold State.issued
  split
  · rfl
  · refine tokens_setPart s s.issue.part (x := { s.part s.issue.part with wait := .none, fence := [] }) (fun e => ?_) rfl
      ring k
    have hlife := congrArg Part.life e
    dsimp only at hlife
    rw [hl] at hlife
    cases hlife

/-- A new token is not outstanding, where fewer are than there are numbers (R50, R330). -/
theorem takeToken_fresh {s : State} {ring : Nat} {used : List Nat} (hu : used.length < 65535)
    (hs : ∀ k ∈ s.tokens ring, k ∈ used) :
    (s.takeToken ring).1 ∉ s.tokens ring ∧ 1 ≤ (s.takeToken ring).1 ∧ (s.takeToken ring).1 < 2 ^ 16 := by
  by_cases hlen : (s.tokens ring).length < 65535
  · exact takeToken_free s ring hlen
  obtain ⟨k, hk, hn⟩ := exists_free used (s.fn ring).nextToken hu
  unfold State.takeToken
  dsimp only
  cases hf : List.find? (fun k => !(s.tokens ring).contains k)
    ((List.range ((s.tokens ring).length + 1)).map fun i => ((s.fn ring).nextToken + i + 65534) % 65535 + 1) with
  | none =>
    obtain ⟨i, hi, rfl⟩ := List.mem_map.mp hk
    have hi' : i ∈ List.range ((s.tokens ring).length + 1) := by
      rw [List.mem_range] at *
      omega
    have hfree := List.find?_eq_none.mp hf _ (List.mem_map_of_mem hi')
    exact absurd (hs _ (by simpa using hfree)) hn
  | some j =>
    have hfree : j ∉ s.tokens ring := by simpa using List.find?_some hf
    obtain ⟨i, -, hi⟩ := List.mem_map.mp (List.mem_of_find?_eq_some hf)
    rw [Option.getD_some]
    exact ⟨hfree, by omega, by omega⟩

/-! ## The trap -/

/-- A trap that suspends a part below level H, in a state that shows what one before it does. -/
theorem takeTrap_traps {s u : State} {p : Nat} {x : Trap} (hl : (u.launch (u.launchOf (teamOf p))).level ≠ .h)
    (hc : x.cls < 2 ^ 5) (h14 : x.cls ≠ 14) (hring : u.trapRing (teamOf p) = s.trapRing (teamOf p))
    (hfree : (u.takeToken (u.trapRing (teamOf p))).1 ∉ s.tokens (s.trapRing (teamOf p)))
    (hlo : 1 ≤ (u.takeToken (u.trapRing (teamOf p))).1) (hhi : (u.takeToken (u.trapRing (teamOf p))).1 < 2 ^ 16)
    (hout : u.trapOuts = s.trapOuts) (hregs : u.regs = s.regs) (hmem : u.mem = s.mem) (hdefs : u.defs = s.defs)
    (hlanes : u.lanes = s.lanes) (hparts : ∀ q, q ≠ p → u.part q = s.part q) : Trapped s (u.takeTrap p x) p x.cls := by
  have eff : ∃ y, (u.takeToken (u.trapRing (teamOf p))).2 = u.modFn (u.trapRing (teamOf p)) fun z =>
      { z with nextToken := y } := ⟨_, rfl⟩
  unfold State.takeTrap
  rw [if_neg hl]
  dsimp only
  generalize u.takeToken (u.trapRing (teamOf p)) = r at *
  obtain ⟨k, v⟩ := r
  obtain ⟨y, hy⟩ := eff
  dsimp only at hy hfree hlo hhi ⊢
  subst hy
  simp only [State.takeId, State.modPart, State.setPart, State.modFn, State.setFn]
  refine ⟨{ cls := x.cls, token := k, frz := frozenClass x.cls || (u.launch (u.launchOf (teamOf p))).prologue,
            next := x.next, poison := x.poison, dest := x.dest, lanes := x.lanes }, _, ?_, ?_, rfl, hfree, hlo, hhi,
    congrArg (· ++ [_]) hout, rfl, hring, ?_, ?_, hregs, hmem, hdefs, hlanes, fun q hq => Eq.trans ?_ (hparts q hq)⟩
  · rw [State.part, FMap.get_set_self]
    exact if_neg h14
  · rw [State.part, FMap.get_set_self]
    rfl
  · exact (trapRecord_fields _ _ _ _ _ _ _ _ hhi hc).1
  · exact (trapRecord_fields _ _ _ _ _ _ _ _ hhi hc).2
  · exact FMap.get_set_ne _ _ _ _ _ hq

/-- A trap raised by the effect of an instruction, in a part below level H. -/
theorem issued_raise_trapped {s : State} {c : Ctx} {cls : Nat} (info : Nat) (hp : c.p = s.issue.part)
    (hlive : (s.part s.issue.part).life = .live) (hl : (s.launchAt s.issue.part).level ≠ .h)
    (ht : (s.tokens (s.trapRing s.issTeam)).length < 65535) (hc : cls < 2 ^ 5) (h14 : cls ≠ 14) :
    Trapped s (s.issued.raise c cls info) s.issue.part cls := by
  have hf := issued_frame s
  have hring : ∀ t, s.issued.trapRing t = s.trapRing t := fun t => by rw [hf.rest]; rfl
  have hlevel : (s.issued.launch (s.issued.launchOf (teamOf s.issue.part))).level ≠ .h := by
    rw [hf.rest]
    exact hl
  have htok := tokens_issued hlive (s.trapRing s.issTeam)
  obtain ⟨hfree, hlo, hhi⟩ := takeToken_fresh ht fun k hk => (htok k).mp hk
  rw [htok] at hfree
  rw [State.raise, hp]
  refine takeTrap_traps (x := s.issued.mkTrap c cls info) hlevel hc h14 (hring _) ?_ ?_ ?_ ?_ (issued_regs s) (issued_mem s)
    (issued_defs s) (issued_lanes s) hf.parts
  · rw [hring]
    exact hfree
  · rw [hring]
    exact hlo
  · rw [hring]
    exact hhi
  · rw [hf.rest]

theorem Trapped.stoppedAt {s t : State} {p cls : Nat} (h : Trapped s t p cls) : t.stoppedAt p = true := by
  obtain ⟨u, x, hlife, -⟩ := h
  unfold State.stoppedAt
  dsimp only
  rw [hlife]
  rfl

/-- A memory instruction whose effect is a trap does nothing after it: it is not sampled (R371). -/
theorem issueMem_traps {i : Instr} {s : State} {sectors : Ctx → State → Nat} {eff : Ctx → State → State} {cls : Nat}
    (hi : Issues i s) (hx : exec i s = issueMem i s sectors eff)
    (he : eff (s.opCtx i.hdr) s.issued = s.issued.raise (s.opCtx i.hdr) cls 0)
    (hl : (s.launchAt s.issue.part).level ≠ .h) (ht : (s.tokens (s.trapRing s.issTeam)).length < 65535)
    (hc : cls < 2 ^ 5) (h14 : cls ≠ 14) : ∃ t, exec i s = .next t ∧ Trapped s t s.issue.part cls := by
  have hlive : (s.part s.issue.part).life = .live := by
    obtain ⟨h, -⟩ := hi
    exact h
  have htrap := issued_raise_trapped (s := s) (c := s.opCtx i.hdr) 0 rfl hlive hl ht hc h14
  have hstop := htrap.stoppedAt
  refine ⟨s.issued.raise (s.opCtx i.hdr) cls 0, hx.trans ((issue_issues hi _).trans ?_), htrap⟩
  have hsample : ∀ n, (s.issued.raise (s.opCtx i.hdr) cls 0).sampled (s.opCtx i.hdr) i s.issued n
      = s.issued.raise (s.opCtx i.hdr) cls 0 := fun n => by
    have hstop' : (s.issued.raise (s.opCtx i.hdr) cls 0).stoppedAt (s.opCtx i.hdr).p = true := hstop
    unfold State.sampled
    dsimp only
    rw [hstop', Bool.or_true, if_pos rfl]
  rw [he, hsample]
  unfold State.finish
  rw [hstop, Bool.true_or, if_pos rfl]

end Sys2Proof.Machine
end

section
/-! The accesses of an instruction's lanes (R52, R79, R102, R113): walks that stop no lane let the instruction complete, with
its arrival raised and a deferred result for every destination. -/

namespace Sys2Proof.Machine

/-! ## Walks of all lanes -/

section
variable {β : Type} {g : State → β} (hg : ∀ (s : State) w fetch va, g (s.translate w fetch va).1 = g s)
include hg

theorem resolve_keeps (s : State) (w : Who) (kind va : Nat) : g (s.resolve w kind va).1 = g s := by
  unfold State.resolve
  split
  · rfl
  · split
    · next e => exact of_fst (hg ..) e
    · next e => split <;> exact of_fst (hg ..) e

theorem placeStash_keeps (s : State) (w : Who) (b kind va : Nat) : g (s.placeStash w b kind va).1 = g s := by
  unfold State.placeStash
  dsimp only
  split
  · rfl
  · split
    · rfl
    · split
      · split <;> rfl
      · split
        · next e => exact of_fst (hg ..) e
        · next u y e =>
          have hu : g u = g s := of_fst (hg ..) e
          split
          · exact hu
          · split
            · exact hu
            · split <;> exact hu

theorem placeGlobal_keeps (s : State) (w : Who) (a : Access) (va : Nat) : g (s.placeGlobal w a va).1 = g s := by
  unfold State.placeGlobal
  split
  · next e => exact of_fst (resolve_keeps hg ..) e
  · next u y e =>
    have hu : g u = g s := of_fst (resolve_keeps hg ..) e
    dsimp only
    split
    · exact hu
    · exact hu
    · split <;> exact hu
    · split <;> exact hu

theorem placeOf_keeps (s : State) (w : Who) (t : Nat) (a : Access) (off n : Nat) : g (s.placeOf w t a off n).1 = g s := by
  unfold State.placeOf
  split
  · exact placeGlobal_keeps hg ..
  · exact placeStash_keeps hg ..
  · rfl
  · rfl

theorem places_keeps (s : State) (w : Who) (t : Nat) (a : Access) : g (s.places w t a).1 = g s := by
  refine foldl_fst_keeps g _ (fun r x => ?_) _ (s, Res.ok [])
  dsimp only
  split <;> exact placeOf_keeps hg ..

/-- What translation leaves alone, the walks of all lanes leave alone. -/
theorem walkAll_keeps (s : State) (c : Ctx) (w : Who) (rs : List Req) : g (s.walkAll c w rs).1 = g s := by
  refine foldl_fst_keeps g _ (fun r x => ?_) rs (s, ([] : List Walked))
  split
  · rfl
  · exact places_keeps hg ..

end

/-- The walks find something for every request, in order. -/
theorem walkAll_requests (s : State) (c : Ctx) (w : Who) (rs : List Req) : (s.walkAll c w rs).2.map (·.1) = rs := by
  have step : ∀ (rs : List Req) (r : State × List Walked), ((rs.foldl (fun (r : State × List Walked) x =>
      if r.1.isHelper c.t x.lane && (x.acc.bad || r.1.misaligned w x.acc) then (r.1, r.2 ++ [(x, .ok [])])
      else ((r.1.places w c.t x.acc).1, r.2 ++ [(x, (r.1.places w c.t x.acc).2)])) r).2).map (·.1)
        = r.2.map (·.1) ++ rs := by
    intro rs
    induction rs with
    | nil => exact fun r => (List.append_nil _).symm
    | cons x rs ih =>
      intro r
      rw [List.foldl_cons, ih]
      split <;> simp
  exact step rs (s, [])

/-! ## What one access posts -/

/-- What an access of a lane changes of no lane and no part, and what controls sampling. -/
def State.bodies (s : State) : FMap Word × FMap Part × FMap Lane × Nat := (s.regs, s.parts, s.lanes, s.smpctl)

/-- The register that a deferred result goes to. -/
def Deferred.dst (d : Deferred) : Nat × Nat × Nat := (d.team, d.lane, d.reg)

/-- From one state to another only deferred results of some registers are posted, as far as lanes and parts can tell. -/
structure PostsTo (s u : State) (ds : List (Nat × Nat × Nat)) : Prop where
  bodies : u.bodies = s.bodies
  defs : ∃ new, u.defs = s.defs ++ new ∧ new.map Deferred.dst = ds

theorem PostsTo.trans {s u v : State} {ds es : List (Nat × Nat × Nat)} (h : PostsTo s u ds) (k : PostsTo u v es) :
    PostsTo s v (ds ++ es) := by
  obtain ⟨new, hu, hnew⟩ := h.defs
  obtain ⟨new', hv, hnew'⟩ := k.defs
  exact ⟨k.bodies.trans h.bodies, new ++ new', by rw [hv, hu, List.append_assoc], by rw [List.map_append, hnew, hnew']⟩

theorem PostsTo.of_apart {s u : State} (h : u.apart = s.apart) : PostsTo s u [] :=
  ⟨congrArg (fun x => (x.1.regs, x.1.parts, x.1.lanes, x.1.smpctl)) h, [], by rw [apart_defs h, List.append_nil], rfl⟩

theorem PostsTo.isHelper {s u : State} {ds : List (Nat × Nat × Nat)} (h : PostsTo s u ds) (t l : Nat) :
    u.isHelper t l = s.isHelper t l := by
  have hl : u.lanes = s.lanes := congrArg (·.2.2.1) h.bodies
  unfold State.isHelper State.lane
  rw [hl]

/-- The words of a result, known or to come, are posted to its registers. -/
theorem postWords_postsTo (s : State) (t l : Nat) (dest : List Nat) (ws : Option (List (Nat × Bool))) (op : Nat)
    {note : Deferred → Deferred} (hn : Notes note) :
    PostsTo s (s.postWords t l dest ws op note).2 (dest.map fun d => (t, l, d)) := by
  obtain ⟨new, k, he, hnew⟩ := deferEach_posts (g := Deferred.dst) (h := fun x : Nat × Nat => (t, l, x.1))
    (mk := fun id x => note { id := id, team := t, lane := l, reg := x.1, mask := 0xFFFFFFFF
                              val := (ws.bind fun l => l[x.2]?).map (·.1)
                              poison := ((ws.bind fun l => l[x.2]?).map (·.2)).getD false, op := op, group := s.takeId.1 })
    (fun id x => by
      obtain ⟨ht, hl, hr, -⟩ := hn { id := id, team := t, lane := l, reg := x.1, mask := 0xFFFFFFFF
                                     val := (ws.bind fun l => l[x.2]?).map (·.1)
                                     poison := ((ws.bind fun l => l[x.2]?).map (·.2)).getD false, op := op
                                     group := s.takeId.1 }
      unfold Deferred.dst
      rw [ht, hl, hr])
    dest.zipIdx s.takeId.2
  have hs : (s.postWords t l dest ws op note).2 = { s.takeId.2 with defs := s.takeId.2.defs ++ new, nextId := k } := he
  refine ⟨by rw [hs]; rfl, new, by rw [hs]; rfl, hnew.trans ?_⟩
  conv_rhs => rw [← List.zipIdx_map_fst 0 dest, List.map_map]
  rfl

theorem id_notes : Notes id := fun _ => ⟨rfl, rfl, rfl, rfl, rfl⟩

/-- Nothing stops an access but, for a helper lane, a fault or a violation (R138). -/
def Unstopped (s : State) (c : Ctx) (x : Walked) : Prop :=
  ∀ st, x.2 = .stop st → s.isHelper c.t x.1.lane = true ∧ st.cause ≠ busyCause

/-- An access that nothing stops is performed, is entered in the replay record, starts its commits, or reads 0: whichever,
its destinations wait for their results. -/
theorem laneAccess_posts {s : State} {c : Ctx} {x : Walked} (hx : Unstopped s c x) (w : Who) (op : Nat) (joined : Bool)
    (secs : List Nat) : PostsTo s (s.laneAccess c w op joined secs x).1 (x.1.dest.map fun d => (c.t, x.1.lane, d))
      ∧ (s.laneAccess c w op joined secs x).2 = false := by
  obtain ⟨r, q⟩ := x
  have zero := fun ws => postWords_postsTo s c.t r.lane r.dest (some ws) op id_notes
  have hold : ∀ report, PostsTo s ((s.postWords c.t r.lane r.dest none op).2.holdAccess c r op
      (s.postWords c.t r.lane r.dest none op).1 report) (r.dest.map fun d => (c.t, r.lane, d)) := fun report =>
    ⟨(postWords_postsTo s c.t r.lane r.dest none op id_notes).bodies,
      (postWords_postsTo s c.t r.lane r.dest none op id_notes).defs⟩
  unfold State.laneAccess
  dsimp only
  split
  · exact ⟨zero _, rfl⟩
  · split
    · exact ⟨hold 0, rfl⟩
    · cases q with
      | stop st =>
        obtain ⟨hh, hc⟩ := hx st rfl
        have hcond : (s.isHelper c.t r.lane && decide (st.cause ≠ busyCause)) = true := by
          rw [show s.isHelper c.t r.lane = true from hh, decide_eq_true hc]
          rfl
        dsimp only
        rw [if_pos hcond]
        exact ⟨zero _, rfl⟩
      | ok cs =>
        dsimp only
        split
        · exact ⟨hold 0, rfl⟩
        · have hdo := PostsTo.of_apart (laneDo_apart s { w with lane := r.lane } c.p r.lane op 0 s.nextId secs r.acc
            (cs.map (s.refreshChunk w.core)))
          generalize s.laneDo { w with lane := r.lane } c.p r.lane op 0 s.nextId secs r.acc
            (cs.map (s.refreshChunk w.core)) = y at *
          obtain ⟨u, ws⟩ := y
          dsimp only at hdo ⊢
          split
          · exact ⟨hdo.trans (postWords_postsTo u c.t r.lane r.dest ws op (noteResult_notes _ _ _)), rfl⟩
          · have hp := hdo.trans (postWords_postsTo u c.t r.lane r.dest none op id_notes)
            exact ⟨⟨hp.bodies, hp.defs⟩, rfl⟩

/-- The accesses of all lanes, one after the other. -/
theorem lanesAccess_post {c : Ctx} {w : Who} {op : Nat} {joined : List Nat} {secs : List Nat} (xs : List Walked) {s : State}
    (hx : ∀ x ∈ xs, Unstopped s c x) :
    PostsTo s (xs.foldl (fun (r : State × Bool) x =>
        ((r.1.laneAccess c w op (joined.contains x.1.lane) secs x).1,
          r.2 || (r.1.laneAccess c w op (joined.contains x.1.lane) secs x).2)) (s, false)).1
        (xs.flatMap fun x => x.1.dest.map fun d => (c.t, x.1.lane, d))
      ∧ (xs.foldl (fun (r : State × Bool) x =>
        ((r.1.laneAccess c w op (joined.contains x.1.lane) secs x).1,
          r.2 || (r.1.laneAccess c w op (joined.contains x.1.lane) secs x).2)) (s, false)).2 = false := by
  induction xs generalizing s with
  | nil => exact ⟨⟨rfl, [], (List.append_nil _).symm, rfl⟩, rfl⟩
  | cons x xs ih =>
    obtain ⟨hp, hb⟩ := laneAccess_posts (hx x List.mem_cons_self) w op (joined.contains x.1.lane) secs
    rw [List.foldl_cons, List.flatMap_cons, hb, Bool.or_false]
    obtain ⟨hps, hbs⟩ := ih (s := (s.laneAccess c w op (joined.contains x.1.lane) secs x).1) fun y hy st hst => by
      rw [hp.isHelper]
      exact hx y (List.mem_cons_of_mem _ hy) st hst
    exact ⟨hp.trans hps, hbs⟩

/-! ## An instruction's accesses -/

/-- What raising an arrival leaves of the parts (R102). -/
theorem raiseOp_part (s : State) (p : Nat) (path : Path) :
    ((s.raiseOp p path).2.part p).ops = (s.part p).ops ++ [{ id := s.nextId, path := path }]
      ∧ ∀ q, q ≠ p → (s.raiseOp p path).2.part q = s.part q := by
  refine ⟨?_, fun q hq => State.part_setPart_ne _ _ _ _ hq⟩
  exact congrArg Part.ops (State.part_setPart_self s.takeId.2 p _)

/-- Accesses of which one is misaligned raise class 4, and none is performed (R117, R120). -/
theorem accesses_misaligned {s : State} {c : Ctx} {rs : List Req} (hga : c.ga ≠ []) {r : Req} (hr : r ∈ rs)
    (hh : s.isHelper c.t r.lane = false) (hm : s.misaligned (s.who c.p) r.acc = true) (path : Path) :
    s.accesses c path rs = s.raise c 4 0 := by
  have hany : (rs.any fun r => !s.isHelper c.t r.lane && s.misaligned (s.who c.p) r.acc) = true :=
    List.any_eq_true.mpr ⟨r, hr, by rw [hh, hm]; rfl⟩
  unfold State.accesses
  dsimp only
  rw [if_neg (by simpa using hga), if_pos hany]

/-- What accesses that are aligned and that nothing stops leave: an operation more, and a deferred result for each
destination. -/
structure Accessed (s t : State) (p : Nat) (path : Path) (ds : List (Nat × Nat × Nat)) : Prop where
  regs : t.regs = s.regs
  smpctl : t.smpctl = s.smpctl
  ops : (t.part p).ops = (s.part p).ops ++ [{ id := s.nextId, path := path }]
  parts : ∀ q, q ≠ p → t.part q = s.part q
  defs : ∃ new, t.defs = s.defs ++ new ∧ new.map Deferred.dst = ds

theorem accesses_accessed {s : State} {c : Ctx} {rs : List Req} (hga : c.ga ≠ [])
    (hal : ∀ r ∈ rs, s.isHelper c.t r.lane = false → s.misaligned (s.who c.p) r.acc = false)
    (hstop : (s.probe c (s.who c.p) rs).2 = []) (path : Path) :
    Accessed s (s.accesses c path rs) c.p path (rs.flatMap fun r => r.dest.map fun d => (c.t, r.lane, d)) := by
  have hany : (rs.any fun r => !s.isHelper c.t r.lane && s.misaligned (s.who c.p) r.acc) = false := by
    refine List.any_eq_false.mpr fun r hr => ?_
    cases hh : s.isHelper c.t r.lane with
    | true => simp
    | false => simp [hal r hr hh]
  have hwalk : (s.walkAll c (s.who c.p) rs).1.apart = s.apart :=
    walkAll_keeps (fun s w fetch va => translate_apart s w fetch va) s c (s.who c.p) rs
  have hid : (s.walkAll c (s.who c.p) rs).1.nextId = s.nextId :=
    walkAll_keeps nextId_offMemory.translate s c (s.who c.p) rs
  have hreqs := walkAll_requests s c (s.who c.p) rs
  have hstops : s.stopsOf c (s.walkAll c (s.who c.p) rs).2 = [] := hstop
  unfold State.accesses
  dsimp only
  rw [if_neg (by simpa using hga), if_neg (by rw [hany]; exact Bool.false_ne_true), hstops]
  generalize s.walkAll c (s.who c.p) rs = y at *
  obtain ⟨s1, xs⟩ := y
  dsimp only at hwalk hid hreqs hstops ⊢
  have hparts : s1.parts = s.parts := apart_parts hwalk
  have hlanes : s1.lanes = s.lanes := congrArg (fun x => x.1.lanes) hwalk
  obtain ⟨hops, hothers⟩ := raiseOp_part s1 c.p path
  have hun : ∀ x ∈ xs, Unstopped (s1.raiseOp c.p path).2 c x := fun x hx st hst => by
    have hnone := List.filterMap_eq_nil_iff.mp hstops x hx
    rw [hst] at hnone
    have hh : (s1.raiseOp c.p path).2.isHelper c.t x.1.lane = s.isHelper c.t x.1.lane := by
      unfold State.isHelper State.lane
      rw [← hlanes]
      rfl
    rw [hh]
    by_contra hn
    dsimp only at hnone
    rw [if_neg (by simpa using hn)] at hnone
    cases hnone
  have post := fun joined secs => lanesAccess_post (w := s.who c.p) (op := (s1.raiseOp c.p path).1) (joined := joined)
    (secs := secs) xs hun
  have hds : (xs.flatMap fun x => x.1.dest.map fun d => (c.t, x.1.lane, d))
      = rs.flatMap fun r => r.dest.map fun d => (c.t, r.lane, d) := by
    rw [← hreqs, List.flatMap_map]
  have done : ∀ {u : State}, PostsTo (s1.raiseOp c.p path).2 u (xs.flatMap fun x => x.1.dest.map fun d => (c.t, x.1.lane, d)) →
      Accessed s u c.p path (rs.flatMap fun r => r.dest.map fun d => (c.t, r.lane, d)) := fun {u} hp => by
    have hpart : u.parts = (s1.raiseOp c.p path).2.parts := congrArg (·.2.1) hp.bodies
    have hq : ∀ q, u.part q = (s1.raiseOp c.p path).2.part q := fun q => by unfold State.part; rw [hpart]
    have h1 : ∀ q, s1.part q = s.part q := fun q => by unfold State.part; rw [hparts]
    have hd : (s1.raiseOp c.p path).2.defs = s.defs := (apart_defs hwalk :)
    obtain ⟨new, hu, hnew⟩ := hp.defs
    refine ⟨(congrArg (·.1) hp.bodies).trans (apart_regs hwalk), (congrArg (·.2.2.2) hp.bodies).trans (apart_smpctl hwalk),
      ?_, fun q hne => ?_, new, hd ▸ hu, hnew.trans hds⟩
    · rw [hq, hops, h1, hid]
    · rw [hq, hothers q hne, h1]
  rw [List.find?_nil]
  dsimp only
  rw [if_neg (by simp), if_neg (by rw [(post _ _).2]; exact Bool.false_ne_true)]
  exact done (post _ _).1

end Sys2Proof.Machine
end

section
/-! The instructions by which lanes access memory (R79, R102, R113, R116, R117, R120, R125): each performs the accesses of
`State.requestsOf`, or takes its alignment trap. -/

namespace Sys2Proof.Machine

/-- What a lane memory instruction does, by whether its accesses are aligned. -/
structure AccessesLanes (i : Instr) (s : State) (eff : Ctx → State → State) : Prop where
  aligned : ¬s.badAlignment i → ∀ path, raises i = some path →
    eff (s.opCtx i.hdr) s.issued = s.issued.accesses (s.opCtx i.hdr) path (s.requestsOf i)
  trap : s.actors i ≠ [] → s.badAlignment i → eff (s.opCtx i.hdr) s.issued = s.issued.raise (s.opCtx i.hdr) 4 0

/-- An access that breaks its own alignment rule traps wherever the accesses of the instruction begin. -/
theorem accesses_traps {i : Instr} {s : State} {r : Req} (hga : s.actors i ≠ []) (hr : r ∈ s.requestsOf i)
    (hh : s.isHelper s.issTeam r.lane = false) (hm : s.issued.misaligned (s.issued.who s.issue.part) r.acc = true)
    (path : Path) : s.issued.accesses (s.opCtx i.hdr) path (s.requestsOf i) = s.issued.raise (s.opCtx i.hdr) 4 0 :=
  accesses_misaligned hga hr ((issued_isHelper ..).trans hh) hm path

theorem laneMem_accesses {i : Instr} {s : State} {p : Path} (hp : raises i = some p)
    (hft : s.badAlignment i → ∃ r ∈ s.requestsOf i, s.isHelper s.issTeam r.lane = false
      ∧ s.issued.misaligned (s.issued.who s.issue.part) r.acc = true) {rs : Ctx → State → List Req}
    (hr : rs (s.opCtx i.hdr) s.issued = s.requestsOf i) :
    AccessesLanes i s fun c s => s.accesses c p (rs c s) where
  aligned _ path h := by
    rw [hp] at h
    cases h
    rw [hr]
  trap hga hb := by
    obtain ⟨r, hm, hh, ha⟩ := hft hb
    rw [hr]
    exact accesses_traps hga hm hh ha p

/-- The instructions whose alignment rule is that of each of their accesses. -/
theorem laneMem_exec {i : Instr} {s : State} (p : Path) (rs : Ctx → State → List Req) (hx : exec i s = laneMem i p rs s)
    (hp : raises i = some p) (hr : rs (s.opCtx i.hdr) s.issued = s.requestsOf i)
    (hft : s.badAlignment i → ∃ r ∈ s.requestsOf i, s.isHelper s.issTeam r.lane = false
      ∧ s.issued.misaligned (s.issued.who s.issue.part) r.acc = true) :
    ∃ sectors eff, exec i s = issueMem i s sectors eff ∧ AccessesLanes i s eff :=
  ⟨_, _, hx, laneMem_accesses hp hft hr⟩

theorem laneAccess_exec {i : Instr} (hi : Instr.isLaneAccess i = true) (s : State) :
    ∃ sectors eff, exec i s = issueMem i s sectors eff ∧ AccessesLanes i s eff := by
  cases i
  case ld h d a off sz sp acq ca =>
    exact laneMem_exec (raises.spPath sp) (fun c s => s.ldReqs c d a off sz sp acq ca) rfl rfl rfl (·.resolve_right id)
  case st h d a off sz sp rel ca =>
    exact laneMem_exec (raises.spPath sp) (fun c s => s.stReqs c d a off sz sp rel ca) rfl rfl rfl (·.resolve_right id)
  case atom h d a b x op ty rnd sp ord =>
    exact laneMem_exec (raises.spPath sp) (fun c s => s.atomReqs c (some d.val) a b x op ty rnd sp ord) rfl rfl rfl
      (·.resolve_right id)
  case red h a b op ty rnd sp ord =>
    exact laneMem_exec (raises.spPath sp) (fun c s => s.atomReqs c none a b b op ty rnd sp ord) rfl rfl rfl
      (·.resolve_right id)
  case ldft h d a b t16 cnt =>
    have hx : exec (.ldft h d a b t16 cnt) s = execLdft h d a b t16 cnt s := rfl
    unfold execLdft at hx
    refine ⟨_, _, hx, fun hb path hp => ?_, fun hga hb => ?_⟩
    · cases hp
      exact if_neg fun hf => hb (.inr hf)
    · by_cases hf : s.issued.ftMisaligned (s.opCtx h) a b = true
      · exact if_pos hf
      · obtain ⟨r, hr, hh, hm⟩ := hb.resolve_right hf
        exact (if_neg hf).trans (accesses_traps hga hr hh hm .s)
  all_goals exact absurd hi Bool.false_ne_true

end Sys2Proof.Machine

open Sys2Proof Sys2Proof.Machine

/-- Settles O29: aligned accesses that nothing stops only raise the arrival and post their results, and a misaligned one is
the trap alone. -/
theorem laneAccesses : Obligations.LaneAccesses := by
  unfold Obligations.LaneAccesses
  refine ⟨fun s i path hi _ hpath hiss hsamp hga hal hprobe => ?_, fun s i hi hiss hga hb hl ht => ?_⟩
  · obtain ⟨sectors, eff, hx, heff⟩ := laneAccess_exec hi s
    have he := heff.aligned hal path hpath
    have halign : ∀ r ∈ s.requestsOf i, s.issued.isHelper (s.opCtx i.hdr).t r.lane = false →
        s.issued.misaligned (s.issued.who (s.opCtx i.hdr).p) r.acc = false := fun r hr hh => by
      refine Bool.eq_false_iff.mpr fun hm => hal (.inl ⟨r, hr, ?_, hm⟩)
      rw [← issued_isHelper]
      exact hh
    have ha := accesses_accessed (c := s.opCtx i.hdr) hga halign hprobe path
    rw [← he] at ha
    have hn : (eff (s.opCtx i.hdr) s.issued).noSampling := by
      unfold State.noSampling
      rw [ha.smpctl]
      exact issued_noSampling hsamp
    have hf := lanesOnly_finish s.issue.part (eff (s.opCtx i.hdr) s.issued)
    obtain ⟨new, hdefs, hnew⟩ := ha.defs
    refine ⟨_, hx.trans (issueMem_issues hiss hn), ?_, ?_, fun q hq => ?_, fun _ => ⟨new, ?_, hnew⟩⟩
    · have hops : (s.issued.part s.issue.part).ops = s.issPart.ops := by
        rw [(issued_frame s).part]
        rfl
      unfold RaisesArrival
      rw [hf.part]
      show ((eff (s.opCtx i.hdr) s.issued).part (s.opCtx i.hdr).p).ops = _
      rw [ha.ops, issued_nextId]
      exact congrArg (· ++ _) hops
    · rw [finish_regs, ha.regs, issued_regs]
    · rw [hf.parts q hq, ha.parts q hq, (issued_frame s).parts q hq]
    · rw [finish_defs, hdefs, issued_defs]
  · obtain ⟨sectors, eff, hx, heff⟩ := laneAccess_exec hi s
    exact issueMem_traps hiss hx (heff.trap hga hb) hl ht (by decide) (by decide)
end

section
/-! Replicated commits, one at a time (R81, R107 to R109): what the second step of a commit, and that of a plain access among
its instruction's commits, does to memory, to the locks and to the commits. -/

namespace Sys2Proof.Machine

/-! ## Bytes written to several places -/

theorem Holds.of_memByte {s t : State} {pa n data : Nat} (hs : s.Holds pa n data)
    (h : ∀ j, j < n → t.memByte (pa + j) = s.memByte (pa + j)) : t.Holds pa n data :=
  fun j hj => (h j hj).trans (hs j hj)

/-- Two ranges of bytes share none. -/
def Apart (a n b m : Nat) : Prop := b + m ≤ a ∨ a + n ≤ b

/-- Set the times of a place's home and write the same bytes there. -/
def State.putCopy (s : State) (x : Home) (n data psn a : Nat) : State :=
  (s.setHome (a / 64) x).putBytes a n data (ones n) psn

theorem putCopy_outside (s : State) (x : Home) (n data psn a : Nat) {b : Nat} (h : b < a ∨ a + n ≤ b) :
    (s.putCopy x n data psn a).memByte b = s.memByte b :=
  (putBytes_outside _ _ _ _ _ _ _ h).trans (memByte_of_mem (setHome_mem ..) b)

theorem putCopies_outside (x : Home) (n data psn : Nat) (as : List Nat) {b : Nat} (h : ∀ a ∈ as, b < a ∨ a + n ≤ b)
    (s : State) : (as.foldl (fun s a => s.putCopy x n data psn a) s).memByte b = s.memByte b := by
  induction as generalizing s with
  | nil => rfl
  | cons a as ih =>
    exact (ih (fun a ha => h a (List.mem_cons_of_mem _ ha)) _).trans
      (putCopy_outside _ _ _ _ _ _ (h a List.mem_cons_self))

/-- Places that are apart all hold the bytes afterwards. -/
theorem putCopies_hold (x : Home) {n : Nat} (data psn : Nat) {as : List Nat}
    (h : as.Pairwise fun a b => Apart a n b n) (s : State) :
    ∀ a ∈ as, (as.foldl (fun s a => s.putCopy x n data psn a) s).Holds a n data := by
  induction as generalizing s with
  | nil => exact fun a ha => absurd ha List.not_mem_nil
  | cons a as ih =>
    obtain ⟨ha, has⟩ := List.pairwise_cons.mp h
    intro b hb
    obtain rfl | hb := List.mem_cons.mp hb
    · refine Holds.of_memByte (s := s.putCopy x n data psn b) (putBytes_holds _ _ _ _ _) fun j hj =>
        putCopies_outside x n data psn as (fun a' ha' => ?_) _
      have := ha a' ha'
      unfold Apart at this
      omega
    · exact ih has _ b hb

/-- The copies of a sector's bytes lie apart (R41). -/
theorem copies_apart (pa : Nat) {n : Nat} (hn : n ≤ 64) : (copies pa).Pairwise fun a b => Apart a n b n := by
  unfold copies Apart
  rw [List.pairwise_map]
  refine List.Pairwise.imp (fun {d e} (h : d < e) => ?_) List.pairwise_lt_range
  have hd : dieBytes = 0x3000000000 := rfl
  rw [hd]
  omega

/-! ## The commit of one lane -/

/-- No leaf has to be marked for a commit: its translation has ACC and DIRTY, or it has none (R44). -/
def Commit.Marked (k : Commit) : Prop := (k.tr.all fun e => e.acc && e.dirty) = true

theorem markUsed_marked {e : Tlb} (h : (e.acc && e.dirty) = true) (s : State) (w : Who) (dirty : Bool) :
    s.markUsed w e dirty = s := by
  rw [Bool.and_eq_true] at h
  exact if_pos (by rw [h.1, h.2]; rfl)

theorem markCommit_marked {k : Commit} (h : k.Marked) (s : State) : s.markCommit k = s := by
  unfold State.markCommit
  cases ht : k.tr with
  | none => rfl
  | some e =>
    unfold Commit.Marked at h
    rw [ht] at h
    exact markUsed_marked h ..

/-- What a commit changes beside memory: the locks, the commits outstanding, the registers and the guest's sectors. -/
def State.ledger (s : State) : FMap Nat × List Commit × FMap Word × List (Nat × GSector) :=
  (s.locks, s.commits, s.regs, s.guest.secs)

theorem ledger_offMemory : OffMemory State.ledger := ⟨by intro s; intros; rfl, fun _ _ _ => rfl⟩

section
variable {β : Type} {g : State → β}

theorem OffMemory.markCommit (h : OffMemory g) (s : State) (k : Commit) : g (s.markCommit k) = g s := by
  unfold State.markCommit
  split
  · exact h.markUsed ..
  · rfl

theorem OffHome.putCopies (h : OffHome g) (s : State) (k : Commit) (t old : Nat) : g (s.putCopies k t old) = g s := by
  unfold State.putCopies
  split
  · exact foldl_keeps g _ (fun _ _ => (h.putBytes ..).trans (h.setHome ..)) _ _
  · exact foldl_keeps g _ (fun _ _ => h.setHome ..) _ _

end

theorem OffHome.fillCopies {β : Type} {g : State → β} (h : OffHome g) (vf : Nat) (ca : Cache) (as : List Nat) (s : State) :
    g (as.foldl (fun s a => (s.fillLine vf ca (a / 256)).settleSec (a / 64)) s) = g s :=
  foldl_keeps g _ (fun _ _ => (h.settleSec ..).trans (h.fillLine ..)) _ _

theorem OffHome.noteCopies {β : Type} {g : State → β} (h : OffHome g) (num t : Nat) (as : List Nat) (s : State) :
    g (as.foldl (fun s a => s.noteStore num (a / 64) t) s) = g s := foldl_keeps g (fun s a => s.noteStore num (a / 64) t) (fun _ _ => h.noteStore ..) _ _

theorem fillCopies_mem (vf : Nat) (ca : Cache) (as : List Nat) (s : State) :
    (as.foldl (fun s a => (s.fillLine vf ca (a / 256)).settleSec (a / 64)) s).mem = s.mem :=
  foldl_keeps State.mem _ (fun _ _ => (settleSec_mem ..).trans (fillLine_mem ..)) _ _

theorem noteCopies_mem (num t : Nat) (as : List Nat) (s : State) :
    (as.foldl (fun s a => s.noteStore num (a / 64) t) s).mem = s.mem :=
  foldl_keeps State.mem (fun s a => s.noteStore num (a / 64) t) (fun _ _ => rfl) _ _

theorem closeCommit_mem (s : State) (k : Commit) (t : Nat) : (s.closeCommit k t).mem = s.mem := rfl
theorem closeCommit_owners (s : State) (k : Commit) (t : Nat) : (s.closeCommit k t).owners = s.owners := rfl
theorem fixCommit_mem (s : State) (k : Commit) (v m : Nat) : (s.fixCommit k v m).mem = s.mem := rfl
theorem fixCommit_owners (s : State) (k : Commit) (v m : Nat) : (s.fixCommit k v m).owners = s.owners := rfl
theorem fixCommit_ledger (s : State) (k : Commit) (v m : Nat) : (s.fixCommit k v m).ledger = s.ledger := rfl

/-- What closing a commit leaves of the ledger depends on the ledger alone. -/
theorem closeCommit_ledger {s u : State} (h : u.ledger = s.ledger) (k : Commit) (t : Nat) :
    (u.closeCommit k t).ledger = (s.closeCommit k t).ledger := by
  have hl : u.locks = s.locks := congrArg (·.1) h
  have hc : u.commits = s.commits := congrArg (·.2.1) h
  have hr : (u.regs, u.guest.secs) = (s.regs, s.guest.secs) := congrArg (·.2.2) h
  unfold State.closeCommit State.ledger
  dsimp only
  rw [hl, hc]
  exact congrArg _ (congrArg _ hr)

/-- What the second step of a commit does: its leaves are marked, its bytes are placed and it is closed. -/
theorem updateOne_effect (s : State) (k : Commit) : ∃ (u : State) (t old : Nat), u.mem = (s.markCommit k).mem
    ∧ (s.updateOne k).mem = (u.putCopies k t old).mem ∧ (s.updateOne k).owners = (s.markCommit k).owners
    ∧ (s.updateOne k).ledger = (s.closeCommit k t).ledger := by
  unfold State.updateOne
  extract_lets s1 old t s2 _ num s3 own s4 s5
  have following : ∀ {β : Type} (g : State → β), OffHome g → g s4 = g s3 := by
    intro β g h
    unfold s4
    split
    · exact h.l1Drop ..
    · exact h.l1Put ..
    · rfl
  have placing : ∀ {β : Type} (g : State → β), OffHome g → g s4 = g s1 := fun g h =>
    (following g h).trans ((h.noteCopies ..).trans ((h.putCopies ..).trans (h.fillCopies ..)))
  have followMem : s4.mem = s3.mem := by
    unfold s4
    split
    · exact l1Drop_mem ..
    · exact l1Put_mem ..
    · rfl
  have mem : s5.mem = (s2.putCopies k t old.1).mem :=
    (raiseWho_mem ..).trans ((closeCommit_mem ..).trans (followMem.trans (noteCopies_mem ..)))
  have owners : s5.owners = s1.owners := (owners_offHome.raiseWho ..).trans <|
    (closeCommit_owners ..).trans (placing _ owners_offHome)
  have ledger : s5.ledger = (s.closeCommit k t).ledger := (ledger_offMemory.home.raiseWho ..).trans
    (closeCommit_ledger ((placing _ ledger_offMemory.home).trans (ledger_offMemory.markCommit ..)) k t)
  refine ⟨s2, t, old.1, fillCopies_mem .., ?_⟩
  clear_value s5
  split
  · exact ⟨(fixCommit_mem ..).trans mem, (fixCommit_owners ..).trans owners, (fixCommit_ledger ..).trans ledger⟩
  · exact ⟨mem, owners, ledger⟩

end Sys2Proof.Machine
end

section
/-! The commits of one instruction's lanes on a sector, ended one after another (R81, R107, R109). -/

namespace Sys2Proof.Machine

/-! ## A sector that no stash owns stays so -/

theorem unowned_of_owners {s t : State} (h : t.owners = s.owners) {a : Nat} (hs : s.owners.get 0 a = 0) :
    t.owners.get 0 a = 0 := by
  rw [h]
  exact hs

theorem recall_stays_unowned {s : State} {a : Nat} (h : s.owners.get 0 a = 0) (wr : Bool) (sec : Nat) :
    (s.recall wr sec).owners.get 0 a = 0 := by
  have disowned : ∀ u : State, u.owners.get 0 a = 0 → (u.owners.set 0 sec 0).get 0 a = 0 := fun u hu => by
    rw [FMap.get_set, hu, ite_self]
  unfold State.recall
  split
  · exact h
  · split
    · exact disowned s h
    · next x _ =>
      dsimp only
      exact unowned_of_owners (owners_offHome.setHome ..)
        (disowned (s.writeBack x) (unowned_of_owners (owners_offHome.putBytes ..) h))

theorem takeTime_stays_unowned {s : State} {a : Nat} (h : s.owners.get 0 a = 0) (vf : Nat) (ca : Cache)
    (num clock sec : Nat) : (s.takeTime vf ca num clock sec).1.owners.get 0 a = 0 :=
  unowned_of_owners ((owners_offHome.noteStore ..).trans ((owners_offHome.setHome ..).trans
    (owners_offHome.fillLine ..))) (recall_stays_unowned h true sec)

theorem grant_stays_unowned {s : State} {a : Nat} (h : s.owners.get 0 a = 0) (vf : Nat) (ca : Cache)
    (clock sec : Nat) (drop : Bool) : (s.grant vf ca clock sec drop).1.owners.get 0 a = 0 :=
  unowned_of_owners ((owners_offHome.setHome ..).trans ((owners_offHome.fillLine ..).trans
    (owners_offHome.settleSec ..))) (recall_stays_unowned h drop sec)

theorem markLeaf_stays_unowned {s : State} {a : Nat} (h : s.owners.get 0 a = 0) (w : Who) (m : Nat) (leaf : Option Nat) :
    (s.markLeaf w m leaf).owners.get 0 a = 0 := by
  cases leaf with
  | none => exact h
  | some pa =>
    exact unowned_of_owners ((owners_offHome.raiseWho ..).trans ((owners_offHome.putBytes ..).trans
      (owners_offHome.settleSec ..))) (takeTime_stays_unowned h ..)

theorem markUsed_stays_unowned {s : State} {a : Nat} (h : s.owners.get 0 a = 0) (w : Who) (e : Tlb) (dirty : Bool) :
    (s.markUsed w e dirty).owners.get 0 a = 0 := by
  unfold State.markUsed
  split
  · exact h
  · exact markLeaf_stays_unowned (markLeaf_stays_unowned h ..) ..

theorem markCommit_stays_unowned {s : State} {a : Nat} (h : s.owners.get 0 a = 0) (k : Commit) :
    (s.markCommit k).owners.get 0 a = 0 := by
  unfold State.markCommit
  split
  · exact markUsed_stays_unowned h ..
  · exact h

theorem storeHome_stays_unowned {s : State} {a : Nat} (h : s.owners.get 0 a = 0) (w : Who) (ca : Cache)
    (op pa n data psn : Nat) : (s.storeHome w ca op pa n data psn).owners.get 0 a = 0 := by
  refine unowned_of_owners ?_ (takeTime_stays_unowned h w.fill ca w.writes (s.core w.core).clock (pa / 64))
  have h := owners_offHome
  unfold State.storeHome
  dsimp only
  split
  · exact (h.l1Put ..).trans ((h.raiseClock ..).trans ((h.putBytes ..).trans (h.noteUndo ..)))
  · exact (h.raiseClock ..).trans ((h.putBytes ..).trans (h.noteUndo ..))

theorem atomHome_stays_unowned {s : State} {b : Nat} (hb : s.owners.get 0 b = 0) (w : Who) (op pa n : Nat) (a : Access)
    (wr : Bool) : (s.atomHome w op pa n a wr).1.owners.get 0 b = 0 := by
  have h := owners_offHome
  unfold State.atomHome
  split
  · refine unowned_of_owners ?_
      (takeTime_stays_unowned hb w.fill a.ca w.writes (s.core w.core).clock (pa / 64))
    dsimp only
    refine (h.l1Drop ..).trans ((h.raiseClock ..).trans ?_)
    split
    · exact (h.putBytes ..).trans ((h.noteUndo ..).trans (h.settleSec ..))
    · exact (h.noteUndo ..).trans (h.settleSec ..)
  · exact unowned_of_owners ((h.l1Drop ..).trans (h.raiseClock ..)) (grant_stays_unowned hb ..)

theorem putBytes_when_outside (c : Bool) (u : State) (pa n data mask psn : Nat) {b : Nat} (h : b < pa ∨ pa + n ≤ b) :
    (if c then u.putBytes pa n data mask psn else u).memByte b = u.memByte b := by
  cases c
  · rfl
  · exact putBytes_outside _ _ _ _ _ _ _ h

/-- An atomic at a home that no stash owns leaves the bytes beside its own. -/
theorem atomHome_outside {s : State} {pa n : Nat} (ho : s.owners.get 0 (pa / 64) = 0) (w : Who) (op : Nat) (a : Access)
    (wr : Bool) {b : Nat} (h : b < pa ∨ pa + n ≤ b) : (s.atomHome w op pa n a wr).1.memByte b = s.memByte b := by
  unfold State.atomHome
  cases wr
  · rw [if_neg Bool.false_ne_true]
    dsimp only
    rw [memByte_of_mem (l1Drop_mem ..), memByte_of_mem (raiseClock_mem ..)]
    exact memByte_of_mem (grant_unowned ho ..).1 b
  · rw [if_pos rfl]
    dsimp only
    rw [memByte_of_mem (l1Drop_mem ..), memByte_of_mem (raiseClock_mem ..), putBytes_when_outside _ _ _ _ _ _ _ h]
    exact memByte_of_mem ((noteUndo_mem ..).trans ((settleSec_mem ..).trans (takeTime_mem ho ..))) b

/-- A store at a home that no stash owns leaves the bytes beside its own. -/
theorem storeHome_outside {s : State} {pa n : Nat} (ho : s.owners.get 0 (pa / 64) = 0) (w : Who) (ca : Cache)
    (op data psn : Nat) {b : Nat} (h : b < pa ∨ pa + n ≤ b) :
    (s.storeHome w ca op pa n data psn).memByte b = s.memByte b := by
  obtain ⟨u, hu, hmem⟩ := storeHome_mem ho w ca op n data psn
  rw [memByte_of_mem hmem, putBytes_outside _ _ _ _ _ _ _ h]
  exact memByte_of_mem hu b

/-! ## One commit, or one plain access among them -/

/-- Take a commit off the list. -/
def State.dropCommit (s : State) (id : Nat) : State := { s with commits := s.commits.filter fun x => x.id ≠ id }

/-- The leaves of a plain access's translation are marked, and it leaves the list. -/
def State.openPlain (s : State) (k : Commit) (wr : Bool) : State :=
  (match k.tr with
    | some e => s.markUsed { k.who with lane := k.lane } e wr
    | none => s).dropCommit k.id

theorem openPlain_ledger (s : State) (k : Commit) (wr : Bool) :
    (s.openPlain k wr).ledger = (s.dropCommit k.id).ledger := by
  unfold State.openPlain
  split
  · next e _ =>
    have h := ledger_offMemory.markUsed s { k.who with lane := k.lane } e wr
    have hc : (s.markUsed { k.who with lane := k.lane } e wr).commits = s.commits := congrArg (·.2.1) h
    exact congrArg₂ (fun x (y : List Commit) => (x.1, y.filter fun x => x.id ≠ k.id, x.2.2)) h hc
  · rfl

theorem openPlain_stays_unowned {s : State} {a : Nat} (h : s.owners.get 0 a = 0) (k : Commit) (wr : Bool) :
    (s.openPlain k wr).owners.get 0 a = 0 := by
  unfold State.openPlain
  split
  · exact markUsed_stays_unowned h ..
  · exact h

theorem openPlain_marked {k : Commit} (h : k.Marked) (s : State) (wr : Bool) :
    s.openPlain k wr = s.dropCommit k.id := by
  unfold State.openPlain
  cases ht : k.tr with
  | none => rfl
  | some e =>
    unfold Commit.Marked at h
    rw [ht] at h
    exact congrArg (·.dropCommit k.id) (markUsed_marked h ..)

/-- A plain access is performed at its home once its commit has left the list. -/
theorem updatePlain_effect (s : State) (k : Commit) : ∃ (wr : Bool) (w : Who) (tag : Nat),
    (∃ v m, s.updatePlain k = ((s.openPlain k wr).atomHome w tag k.pa k.len k.acc wr).1.fixCommit k v m)
    ∨ ∃ data psn, s.updatePlain k = (s.openPlain k wr).storeHome w k.acc.ca tag k.pa k.len data psn := by
  refine ⟨k.acc.kind ≠ .atom || atomWrites k.acc.aop (s.peek k.pa k.len) k.acc.cmp, { k.who with lane := k.lane },
    k.op * 1024 + k.lane, ?_⟩
  unfold State.updatePlain State.openPlain
  dsimp only
  split
  · exact .inl ⟨_, _, rfl⟩
  · exact .inr ⟨_, _, rfl⟩

theorem updatePlain_ledger (s : State) (k : Commit) : (s.updatePlain k).ledger = (s.dropCommit k.id).ledger := by
  obtain ⟨wr, w, tag, ⟨v, m, h⟩ | ⟨data, psn, h⟩⟩ := updatePlain_effect s k
  · rw [h, fixCommit_ledger, ledger_offMemory.atomHome, openPlain_ledger]
  · rw [h, ledger_offMemory.storeHome, openPlain_ledger]

theorem updatePlain_stays_unowned {s : State} {a : Nat} (ho : s.owners.get 0 a = 0) (k : Commit) :
    (s.updatePlain k).owners.get 0 a = 0 := by
  obtain ⟨wr, w, tag, ⟨v, m, h⟩ | ⟨data, psn, h⟩⟩ := updatePlain_effect s k
  · rw [h, fixCommit_owners]
    exact atomHome_stays_unowned (openPlain_stays_unowned ho k wr) ..
  · rw [h]
    exact storeHome_stays_unowned (openPlain_stays_unowned ho k wr) ..

theorem updatePlain_outside {s : State} {k : Commit} (hm : k.Marked) (ho : s.owners.get 0 (k.pa / 64) = 0) {b : Nat}
    (hb : b < k.pa ∨ k.pa + k.len ≤ b) : (s.updatePlain k).memByte b = s.memByte b := by
  obtain ⟨wr, w, tag, ⟨v, m, h⟩ | ⟨data, psn, h⟩⟩ := updatePlain_effect s k <;> rw [openPlain_marked hm] at h
  · rw [h, memByte_of_mem (fixCommit_mem ..)]
    exact atomHome_outside (s := s.dropCommit k.id) ho w tag k.acc wr hb
  · rw [h]
    exact storeHome_outside (s := s.dropCommit k.id) ho w k.acc.ca tag data psn hb

theorem updateOne_stays_unowned {s : State} {a : Nat} (ho : s.owners.get 0 a = 0) (k : Commit) :
    (s.updateOne k).owners.get 0 a = 0 := by
  obtain ⟨_, _, _, _, _, howners, _⟩ := updateOne_effect s k
  rw [howners]
  exact markCommit_stays_unowned ho k

/-- The places of a commit's bytes: one for a plain access, four copies else. -/
def Commit.homes (k : Commit) : List Nat := if k.plain then [k.pa] else copies k.pa

theorem putCopies_beside {k : Commit} {b : Nat} (h : ∀ a ∈ copies k.pa, b < a ∨ a + k.len ≤ b) (s : State) (t old : Nat) :
    (s.putCopies k t old).memByte b = s.memByte b := by
  unfold State.putCopies
  split
  · exact putCopies_outside ⟨t, t⟩ k.len _ _ _ h s
  · exact memByte_of_mem (foldl_keeps State.mem _ (fun _ _ => setHome_mem ..) _ _) b

theorem updateOne_outside {s : State} {k : Commit} (hm : k.Marked) {b : Nat}
    (hb : ∀ a ∈ copies k.pa, b < a ∨ a + k.len ≤ b) : (s.updateOne k).memByte b = s.memByte b := by
  obtain ⟨u, t, old, hu, hmem, _, _⟩ := updateOne_effect s k
  rw [memByte_of_mem hmem, putCopies_beside hb, memByte_of_mem hu, markCommit_marked hm]

/-- A commit of a store leaves its bytes at all four copies (R107). -/
theorem updateOne_holds {k : Commit} (hk : k.acc.kind = .store) (hn : k.len ≤ 64) (s : State) :
    ∀ a ∈ copies k.pa, (s.updateOne k).Holds a k.len (bits k.acc.data (8 * k.off) (8 * k.len)) := by
  obtain ⟨u, t, old, hu, hmem, _, _⟩ := updateOne_effect s k
  have hv : k.value old = some (bits k.acc.data (8 * k.off) (8 * k.len)) := by
    unfold Commit.value
    rw [hk]
  intro a ha
  refine holds_of_mem hmem ?_
  unfold State.putCopies
  rw [hv]
  exact putCopies_hold ⟨t, t⟩ _ (bits k.acc.psn k.off k.len) (copies_apart k.pa hn) u a ha

end Sys2Proof.Machine
end

section
/-! O51 (R81, R107 to R109): a replicated commit's lock, its second step and the bound that it may miss. -/

namespace Sys2Proof.Machine

/-! ## Commits ended in turn -/

/-- One commit of the second step, or one plain access among them. -/
def State.endCommit (s : State) (x : Commit) : State := if x.plain then s.updatePlain x else s.updateOne x

theorem endCommit_ledger (s : State) (x : Commit) : ∃ t, (s.endCommit x).ledger
    = (if x.plain then s.dropCommit x.id else s.closeCommit x t).ledger := by
  unfold State.endCommit
  split
  · exact ⟨0, updatePlain_ledger ..⟩
  · obtain ⟨_, t, _, _, _, _, h⟩ := updateOne_effect s x
    exact ⟨t, h⟩

theorem endCommit_regs (s : State) (x : Commit) : (s.endCommit x).regs = s.regs := by
  obtain ⟨t, h⟩ := endCommit_ledger s x
  refine (congrArg (·.2.2.1) h).trans ?_
  split <;> rfl

theorem endCommit_sectors (s : State) (x : Commit) : (s.endCommit x).guest.secs = s.guest.secs := by
  obtain ⟨t, h⟩ := endCommit_ledger s x
  refine (congrArg (·.2.2.2) h).trans ?_
  split <;> rfl

/-- A commit of a lane leaves the list; the others of the list stand. -/
theorem endCommit_commits {x : Commit} (hl : x.by' = .lane) (s : State) :
    (s.endCommit x).commits = s.commits.filter fun y => y.id ≠ x.id := by
  obtain ⟨t, h⟩ := endCommit_ledger s x
  refine (congrArg (·.2.1) h).trans ?_
  split
  · rfl
  · exact if_pos hl

theorem endCommit_unlocks {x : Commit} (hp : x.plain = false) (s : State) :
    (s.endCommit x).locks.get 0 (lockKey (x.pa / 64)) = 0 := by
  obtain ⟨t, h⟩ := endCommit_ledger s x
  rw [if_neg (ne_true_of_eq_false hp)] at h
  have hl : (s.endCommit x).locks = s.locks.set 0 (lockKey (x.pa / 64)) 0 := congrArg (·.1) h
  rw [hl, FMap.get_set_self]

theorem endCommit_stays_unlocked {s : State} {x : Commit} (h0 : s.locks.get 0 (lockKey (x.pa / 64)) = 0) :
    (s.endCommit x).locks.get 0 (lockKey (x.pa / 64)) = 0 := by
  cases hp : x.plain
  · exact endCommit_unlocks hp s
  · obtain ⟨t, h⟩ := endCommit_ledger s x
    rw [if_pos hp] at h
    have hl : (s.endCommit x).locks = s.locks := congrArg (·.1) h
    rw [hl, h0]

theorem endCommit_stays_unowned {s : State} {a : Nat} (ho : s.owners.get 0 a = 0) (x : Commit) :
    (s.endCommit x).owners.get 0 a = 0 := by
  unfold State.endCommit
  split
  · exact updatePlain_stays_unowned ho x
  · exact updateOne_stays_unowned ho x

theorem endCommit_outside {s : State} {x : Commit} (hm : x.Marked) (ho : x.plain = true → s.owners.get 0 (x.pa / 64) = 0)
    {b : Nat} (hb : ∀ a ∈ x.homes, b < a ∨ a + x.len ≤ b) : (s.endCommit x).memByte b = s.memByte b := by
  unfold Commit.homes at hb
  unfold State.endCommit
  cases hp : x.plain <;> simp only [hp, Bool.false_eq_true, if_true, if_false] at hb ⊢
  · exact updateOne_outside hm hb
  · exact updatePlain_outside hm (ho hp) (hb _ (List.mem_singleton_self _))

/-- What one element of a list sets, and the others keep, stands after all of them. -/
theorem foldl_establishes {σ α : Type} {f : σ → α → σ} (Q P : σ → Prop) {xs : List α} {k : α} (hk : k ∈ xs)
    (hQ : ∀ x ∈ xs, ∀ s, Q s → Q (f s x)) (set : ∀ s, Q s → P (f s k))
    (keep : ∀ x ∈ xs, x ≠ k → ∀ s, Q s → P s → P (f s x)) {s : σ} (hs : Q s) : P (xs.foldl f s) := by
  obtain ⟨as, bs, rfl⟩ := List.append_of_mem hk
  rw [List.foldl_append, List.foldl_cons]
  have before : Q (as.foldl f s) :=
    List.foldlRecOn as f hs fun u hu x hx => hQ x (List.mem_append_left _ hx) u hu
  have after : ∀ u, Q u ∧ P u → Q (bs.foldl f u) ∧ P (bs.foldl f u) := fun u hu => by
    refine List.foldlRecOn bs f (motive := fun u => Q u ∧ P u) hu fun v ⟨hq, hp⟩ x hx => ?_
    have hx : x ∈ as ++ k :: bs := List.mem_append_right _ (List.mem_cons_of_mem _ hx)
    refine ⟨hQ x hx v hq, ?_⟩
    by_cases he : x = k
    · rw [he]
      exact set v hq
    · exact keep x hx he v hq hp
  exact (after _ ⟨hQ k hk _ before, set _ before⟩).2

/-! ## The commits that end in one move -/

section
variable {s : State} {k x : Commit}

theorem siblings_of_lane (hl : k.by' = .lane) (hx : x ∈ s.siblings k) :
    x.by' = .lane ∧ lockKey (x.pa / 64) = lockKey (k.pa / 64) := by
  unfold State.siblings at hx
  rw [if_pos hl] at hx
  simp only [List.mem_flatMap, List.mem_filter, Bool.and_eq_true, decide_eq_true_eq] at hx
  obtain ⟨_, _, ⟨_, ⟨⟨hb, _⟩, _⟩, hkey⟩, _⟩ := hx
  exact ⟨hb, hkey⟩

theorem siblings_of_other (hl : k.by' ≠ .lane) : s.siblings k = [k] := if_neg hl

theorem siblings_key (hx : x ∈ s.siblings k) : lockKey (x.pa / 64) = lockKey (k.pa / 64) := by
  by_cases hl : k.by' = .lane
  · exact (siblings_of_lane hl hx).2
  · rw [siblings_of_other hl] at hx
    rw [List.mem_singleton.mp hx]

theorem mem_siblings_self (hk : k ∈ s.commits) (hlane : k.by' = .lane → k.lane < 1024) : k ∈ s.siblings k := by
  unfold State.siblings
  split
  · next hl =>
    exact List.mem_flatMap.mpr ⟨k.lane, List.mem_range.mpr (hlane hl), by simp [hk, hl]⟩
  · exact List.mem_singleton_self k

end

theorem updateCommit_eq {s : State} {k : Commit} (hlock : k.locked = true) (hp : k.plain = false)
    (hhere : s.commitHere k = true) (hbusy : ∀ x ∈ s.siblings k, s.commitBusy x = false)
    (hbound : s.tick ≤ k.lockTick + 3500) (hguest : ∀ q, k.by' = .guest q → s.guest.secs = []) :
    s.updateCommit k = (s.siblings k).foldl State.endCommit s := by
  have hmay : s.mayUpdate k (s.siblings k) = true := by
    unfold State.mayUpdate
    have hb : (s.siblings k).any s.commitBusy = false := by
      simpa using hbusy
    have hc : commitBound = 3500 := rfl
    simp [hhere, hb, hp, hlock, hc, hbound]
  have hsecs : ((s.siblings k).foldl State.endCommit s).guest.secs = s.guest.secs :=
    foldl_keeps (fun s => s.guest.secs) _ endCommit_sectors _ _
  unfold State.updateCommit
  dsimp only
  rw [hmay, Bool.not_true, if_neg Bool.false_ne_true]
  split
  · next q hq =>
    refine if_pos ?_
    unfold State.guestMay
    exact (congrArg (List.all · _) (hsecs.trans (hguest q hq))).trans rfl
  · rfl

/-! ## A commit that misses its bound -/

theorem byteOf_leNat (f : Nat → Byte) {n j : Nat} (h : j < n) : byteOf (leNat ((List.range n).map f)) j = f j := by
  have hs : bits (leNat ((List.range n).map f)) (8 * j) (8 * 1) = (f j).toNat := leNat_slice f (o := j) (n := 1) h
  have hv : byteOf (leNat ((List.range n).map f)) j
      = BitVec.ofNat 8 (bits (leNat ((List.range n).map f)) (8 * j) (8 * 1)) := by
    apply BitVec.eq_of_toNat_eq
    unfold byteOf bits
    rw [BitVec.toNat_ofNat, BitVec.toNat_ofNat, Nat.mod_mod, Nat.pow_mul]
  rw [hv, hs, BitVec.ofNat_toNat, BitVec.setWidth_eq]

/-- The 64 bytes of a sector are poisoned as they stand. -/
def State.poisonSec (s : State) (a : Nat) : State := s.putBytes a 64 (s.getBytes a 64).1 (ones 64) (ones 64)

theorem poisonSec_memByte (s : State) (a b : Nat) : (s.poisonSec a).memByte b = s.memByte b := by
  unfold State.poisonSec
  by_cases h : b < a ∨ a + 64 ≤ b
  · exact putBytes_outside _ _ _ _ _ _ _ h
  · obtain ⟨j, rfl⟩ := Nat.exists_eq_add_of_le (show a ≤ b by omega)
    have hj : j < 64 := by omega
    rw [putBytes_inside _ _ _ _ _ _ _ hj, if_pos (bit_ones hj)]
    exact byteOf_leNat (fun i => s.memByte (a + i)) hj

/-- Bytes written with all their poison bits are poisoned, and no other byte loses its poison. -/
theorem putBytes_poisons (s : State) (a data : Nat) {m n : Nat} (hn : n ≤ m) (b : Nat)
    (h : s.memPoison.get false b = true ∨ (a ≤ b ∧ b < a + n)) :
    (s.putBytes a n data (ones m) (ones m)).memPoison.get false b = true := by
  induction n with
  | zero =>
    obtain h | h := h
    · exact h
    · omega
  | succ n ih =>
    have ih := ih (by omega)
    rw [putBytes_succ, if_pos (bit_ones (by omega)), bit_ones (show n < m by omega)]
    change ((s.putBytes a n data (ones m) (ones m)).memPoison.set false (a + n) true).get false b = true
    rw [FMap.get_set]
    split
    · rfl
    · exact ih (h.imp_right fun h => by omega)

theorem poisonSec_stays {s : State} {b : Nat} (h : s.memPoison.get false b = true) (a : Nat) :
    (s.poisonSec a).memPoison.get false b = true := putBytes_poisons s a _ (Nat.le_refl 64) b (.inl h)

theorem poisonSec_poisons (s : State) (a : Nat) {j : Nat} (hj : j < 64) :
    (s.poisonSec a).memPoison.get false (a + j) = true :=
  putBytes_poisons s a _ (Nat.le_refl 64) (a + j) (.inr (by omega))

theorem poisonSecs_memByte (as : List Nat) (s : State) (b : Nat) :
    (as.foldl State.poisonSec s).memByte b = s.memByte b :=
  foldl_keeps (fun s => s.memByte b) _ (fun s a => poisonSec_memByte s a b) _ _

theorem poisonSecs_poisons {as : List Nat} {a j : Nat} (ha : a ∈ as) (hj : j < 64) (s : State) :
    (as.foldl State.poisonSec s).memPoison.get false (a + j) = true :=
  foldl_establishes (fun _ => True) (fun s => s.memPoison.get false (a + j) = true) ha (fun _ _ _ _ => trivial)
    (fun s _ => poisonSec_poisons s a hj) (fun a' _ _ _ _ h => poisonSec_stays h a') trivial

/-- An uncorrectable error of a link touches its status and the messages alone, and sets UE (R378). -/
theorem linkError_effect (s : State) (link why : Nat) : ∃ y msix msgs,
    s.linkError link why = { s with lnkst := s.lnkst.set 0 link y, msix := msix, msgs := msgs }
      ∧ bit y 1 = true := by
  have hy : bit (s.lnkst.get 0 link - bits (s.lnkst.get 0 link) 1 3 * 2 + 2 + why * 4) 1 = true := by
    unfold bit bits
    simp only [Nat.pow_one, decide_eq_true_eq]
    omega
  unfold State.linkError State.signal
  dsimp only
  split
  · exact ⟨_, _, _, rfl, hy⟩
  · rw [if_neg (by omega)]
    split
    · exact ⟨_, _, _, rfl, hy⟩
    · exact ⟨_, _, _, rfl, hy⟩

end Sys2Proof.Machine
end

section
namespace Sys2Proof.Machine

section
variable {s : State} {k : Commit}

theorem lockCommit_eq (hl : k.locked = false) (hp : k.plain = false) (h0 : s.locks.get 0 (lockKey (k.pa / 64)) = 0)
    (hfirst : (s.commits.find? fun x => lockKey (x.pa / 64) = lockKey (k.pa / 64) && !x.plain && x.done.isNone
        && s.commitHere x).map (·.id) = some k.id) : s.lockCommit k = s.takeLock k := by
  unfold State.lockCommit
  dsimp only
  rw [hl, hp, h0, hfirst]
  exact if_neg (by simp)

theorem takeLock_locks (s : State) (k : Commit) : (s.takeLock k).locks.get 0 (lockKey (k.pa / 64)) = k.id :=
  FMap.get_set_self ..

theorem takeLock_commits {x : Commit} (hx : x ∈ (s.takeLock k).commits) (hid : x.id = k.id) :
    x.locked = true ∧ x.lockTick = s.tick := by
  obtain ⟨y, _, rfl⟩ := List.mem_map.mp hx
  by_cases hy : y.id = k.id
  · simp [hy]
  · simp [hy] at hid

theorem closeCommit_unlocks (s : State) (k : Commit) (t : Nat) :
    (s.closeCommit k t).locks.get 0 (lockKey (k.pa / 64)) = 0 :=
  FMap.get_set_self 0 s.locks (lockKey (k.pa / 64)) 0

/-- What a closed commit that is no lane's shows to its writer (log 23). -/
theorem closeCommit_done (hl : k.by' ≠ .lane) {t : Nat} {x : Commit} (hx : x ∈ (s.closeCommit k t).commits)
    (hid : x.id = k.id) : x.locked = false ∧ x.done.isSome = true := by
  unfold State.closeCommit at hx
  rw [if_neg hl] at hx
  obtain ⟨y, _, rfl⟩ := List.mem_map.mp hx
  by_cases hy : y.id = k.id
  · simp [hy]
  · simp [hy] at hid

end

/-! ## The second step -/

/-- The commit and those which end with it are ended in turn. -/
def State.endAll (s : State) (k : Commit) : State := (s.siblings k).foldl State.endCommit s

section
variable {s : State} {k : Commit}

theorem endAll_unlocks (hk : k ∈ s.siblings k) (hp : k.plain = false) :
    (s.endAll k).locks.get 0 (lockKey (k.pa / 64)) = 0 := by
  refine foldl_establishes (fun _ => True) (fun t : State => t.locks.get 0 (lockKey (k.pa / 64)) = 0) hk
    (fun _ _ _ _ => trivial) (fun t _ => endCommit_unlocks hp t) (fun x hx _ t _ h0 => ?_) trivial
  rw [← siblings_key hx] at h0 ⊢
  exact endCommit_stays_unlocked h0

theorem endAll_holds (hk : k ∈ s.siblings k) (hp : k.plain = false) (hs : k.acc.kind = .store) (hn : k.len ≤ 64)
    (others : ∀ x ∈ s.siblings k, x ≠ k → (x.Marked ∧ (x.plain = true → s.owners.get 0 (x.pa / 64) = 0))
      ∧ ∀ a ∈ copies k.pa, ∀ b ∈ x.homes, b + x.len ≤ a ∨ a + k.len ≤ b) :
    ∀ a ∈ copies k.pa, (s.endAll k).Holds a k.len (bits k.acc.data (8 * k.off) (8 * k.len)) := by
  intro a ha
  refine foldl_establishes
    (fun t : State => ∀ x ∈ s.siblings k, x ≠ k → x.plain = true → t.owners.get 0 (x.pa / 64) = 0)
    (fun t : State => t.Holds a k.len (bits k.acc.data (8 * k.off) (8 * k.len))) hk
    (fun x _ t ho y hy hne hpl => endCommit_stays_unowned (ho y hy hne hpl) x) (fun t _ => ?_)
    (fun x hx hne t ho hh => ?_) (fun x hx hne => (others x hx hne).1.2)
  · unfold State.endCommit
    rw [if_neg (ne_true_of_eq_false hp)]
    exact updateOne_holds hs hn t a ha
  · obtain ⟨⟨hm, _⟩, hapart⟩ := others x hx hne
    refine Holds.of_memByte hh fun j hj => endCommit_outside hm (ho x hx hne) fun b hb => ?_
    have := hapart a ha b hb
    omega

/-- The commits of lanes have left the list. -/
theorem endAll_closed (hl : k.by' = .lane) {x : Commit} (hx : x ∈ s.siblings k) :
    ∀ y ∈ (s.endAll k).commits, y.id ≠ x.id := by
  have lane : ∀ y ∈ s.siblings k, y.by' = .lane := fun y hy => (siblings_of_lane hl hy).1
  refine foldl_establishes (fun _ => True) (fun t : State => ∀ y ∈ t.commits, y.id ≠ x.id) hx
    (fun _ _ _ _ => trivial) (fun t _ y hy => ?_) (fun z hz _ t _ h y hy => ?_) trivial
  · rw [endCommit_commits (lane x hx)] at hy
    exact of_decide_eq_true (List.mem_filter.mp hy).2
  · rw [endCommit_commits (lane z hz)] at hy
    exact h y (List.mem_filter.mp hy).1

theorem endAll_done (hl : k.by' ≠ .lane) (hp : k.plain = false) {x : Commit} (hx : x ∈ (s.endAll k).commits)
    (hid : x.id = k.id) : x.locked = false ∧ x.done.isSome = true := by
  obtain ⟨t, hledger⟩ := endCommit_ledger s k
  rw [if_neg (ne_true_of_eq_false hp)] at hledger
  have hcommits : (s.endAll k).commits = (s.closeCommit k t).commits := by
    unfold State.endAll
    rw [siblings_of_other hl]
    exact congrArg (·.2.1) hledger
  rw [hcommits] at hx
  exact closeCommit_done hl hx hid

theorem endAll_regs : (s.endAll k).regs = s.regs := foldl_keeps State.regs _ endCommit_regs _ _

theorem endAll_outside
    (marked : ∀ x ∈ s.siblings k, x.Marked ∧ (x.plain = true → s.owners.get 0 (x.pa / 64) = 0)) {b : Nat}
    (hb : ∀ x ∈ s.siblings k, ∀ a ∈ x.homes, b < a ∨ a + x.len ≤ b) : (s.endAll k).memByte b = s.memByte b := by
  refine (List.foldlRecOn (s.siblings k) State.endCommit
    (motive := fun t => (∀ x ∈ s.siblings k, x.plain = true → t.owners.get 0 (x.pa / 64) = 0)
      ∧ t.memByte b = s.memByte b) ⟨fun x hx => (marked x hx).2, rfl⟩ fun t ⟨ho, hmem⟩ x hx => ?_).2
  exact ⟨fun y hy hpl => endCommit_stays_unowned (ho y hy hpl) x,
    (endCommit_outside (marked x hx).1 (ho x hx) (hb x hx)).trans hmem⟩

end

/-! ## The bound -/

theorem missCommit_eq {k : Commit} (hs : k.acc.kind = .store) (s : State) (link : Nat) : ∃ t, s.missCommit k link
    = (((copies (k.pa / 64 * 64)).foldl State.poisonSec s).closeCommit k t).linkError link 3 := by
  refine ⟨((copies (k.pa / 64 * 64)).foldl State.poisonSec s).whoClock k.who, ?_⟩
  unfold State.missCommit
  dsimp only
  rw [if_neg (by rw [hs]; decide)]
  rfl

theorem poisonSecs_regs (as : List Nat) (s : State) : (as.foldl State.poisonSec s).regs = s.regs :=
  foldl_keeps State.regs _ (fun s a => congrArg (·.2.2.1)
    (ledger_offMemory.home.putBytes s a 64 (s.getBytes a 64).1 (ones 64) (ones 64))) _ _

/-- What ends a commit of a lane once its bytes are poisoned: memory stands, the sector is unlocked, and the link shows
the error. -/
theorem closeMissed_effect {k : Commit} (hl : k.by' = .lane) (u : State) (t link : Nat) :
    let v := (u.closeCommit k t).linkError link 3
    v.mem = u.mem ∧ v.memPoison = u.memPoison ∧ v.regs = u.regs ∧ (∀ x ∈ v.commits, x.id ≠ k.id)
      ∧ v.locks.get 0 (lockKey (k.pa / 64)) = 0 ∧ bit (v.lnkst.get 0 link) 1 = true := by
  intro v
  obtain ⟨y, msix, msgs, hv, hy⟩ := linkError_effect (u.closeCommit k t) link 3
  unfold v
  rw [hv]
  refine ⟨rfl, rfl, rfl, fun x hx => ?_, closeCommit_unlocks u k t, ?_⟩
  · unfold State.closeCommit at hx
    rw [if_pos hl] at hx
    exact of_decide_eq_true (List.mem_filter.mp hx).2
  · change bit ((FMap.set 0 _ link y).get 0 link) 1 = true
    rw [FMap.get_set_self]
    exact hy

end Sys2Proof.Machine
end

open Sys2Proof Sys2Proof.Machine

/-- Settles O51: the commits that end in one move are folded over the state; each writes its own homes alone, and what
one of them sets the others keep. -/
theorem replicatedCommits : Obligations.ReplicatedCommits := by
  unfold Obligations.ReplicatedCommits
  intro s id k hfind hstore hlen
  have hid : k.id = id := by simpa using List.find?_some hfind
  have hmem : k ∈ s.commits := List.mem_of_find?_eq_some hfind
  subst hid
  refine ⟨?lock, ?update, ?missed⟩
  case lock =>
    intro hl hp h0 hfirst
    have hexec : exec (.replicatedCommitLock k.id) s = .next (s.takeLock k) := by
      change execReplicatedCommitLock k.id s = _
      unfold execReplicatedCommitLock
      rw [hfind]
      exact congrArg _ (lockCommit_eq hl hp h0 hfirst)
    exact ⟨_, hexec, rfl, rfl, takeLock_locks s k, fun x hx hid => takeLock_commits hx hid⟩
  case update =>
    intro hl hp hhere hbusy hbound hlane hguest
    have hself := mem_siblings_self hmem hlane
    have hexec : exec (.replicatedCommitUpdate k.id) s = .next (s.endAll k) := by
      change execReplicatedCommitUpdate k.id s = _
      unfold execReplicatedCommitUpdate
      rw [hfind]
      exact congrArg _ (updateCommit_eq hl hp hhere hbusy hbound hguest)
    refine ⟨_, hexec, endAll_unlocks hself hp, fun others => ?_, fun hl x hx => endAll_closed hl hx,
      fun hl x hx hid => endAll_done hl hp hx hid, fun _ => endAll_regs, fun marked b hb => endAll_outside marked hb⟩
    refine endAll_holds hself hp hstore hlen fun x hx hne => ?_
    obtain ⟨hmarked, _, hapart⟩ := others x hx hne
    exact ⟨hmarked, hapart⟩
  case missed =>
    intro link hl hlane hbound hlink
    have hover : (k.overdue s.tick && decide (link < 18)) = true := by
      unfold Commit.overdue commitBound
      simp [hl, hbound, hlink]
    have hexec : exec (.commitBoundMissed k.id link) s = .next (s.missCommit k link) := by
      change execCommitBoundMissed k.id link s = _
      unfold execCommitBoundMissed
      rw [hfind]
      exact congrArg _ (if_pos hover)
    obtain ⟨t, hmiss⟩ := missCommit_eq hstore s link
    obtain ⟨hmem, hpsn, hregs, hclosed, hunlocked, herror⟩ :=
      closeMissed_effect hlane ((copies (k.pa / 64 * 64)).foldl State.poisonSec s) t link
    rw [← hmiss] at hmem hpsn hregs hclosed hunlocked herror
    refine ⟨_, hexec, hregs.trans (poisonSecs_regs _ s), hclosed, hunlocked, herror,
      fun b => (memByte_of_mem hmem b).trans (poisonSecs_memByte _ s b), fun a ha j hj => ?_⟩
    rw [hpsn]
    exact poisonSecs_poisons ha hj s

section
/-! The arrival of an operation on its path (R102, R103): its own part's operations change, and beside them the bytes that
stores have replaced (R95) and the trace of the core (R371). -/

namespace Sys2Proof.Machine

/-- A trace record goes into its core's buffer (R370). -/
theorem trace_cores (s : State) (core ctx vf kind info launch data : Nat) :
    ∃ cores, s.trace core ctx vf kind info launch data = { s with cores := cores } := by
  unfold State.trace
  split
  · exact ⟨s.cores, rfl⟩
  · exact ⟨_, rfl⟩

theorem sample_cores (s : State) (p : Nat) (x : Smp) : ∃ cores, s.sample p x = { s with cores := cores } := by
  unfold State.sample
  dsimp only
  split
  · exact trace_cores ..
  · exact ⟨s.cores, rfl⟩

/-- A core's clock is raised, or nothing changes. -/
theorem raiseClock_if_cores (s : State) (core t : Nat) (c : Bool) :
    ∃ cores, (if c then s.raiseClock core t else s) = { s with cores := cores } := by
  split
  · exact ⟨_, rfl⟩
  · exact ⟨s.cores, rfl⟩

/-- A part at which an operation has arrived on a path (R103). -/
def Part.arrive (x : Part) (path : Path) (op : Nat) : Part :=
  { x with ops := dropArrived path (x.ops.map fun q => if q.id = op then { q with arrived := true } else q) }

/-- An operation in flight arrives: the counter of its path falls over the operations that this releases. -/
theorem arriveOp_of_find {s : State} {p op : Nat} {o : Op} (h : (s.part p).ops.find? (fun q => q.id = op) = some o) :
    ∃ cores, s.arriveOp p op = { s with
      undo := settled (fun x => x.1 / 1024 = op) s.undo, parts := s.parts.set {} p ((s.part p).arrive o.path op)
      cores := cores } := by
  unfold State.arriveOp
  rw [h]
  dsimp only
  split
  · exact sample_cores ..
  · exact ⟨s.cores, rfl⟩

/-- What an arrival changes, whatever is in flight. -/
theorem arriveOp_changes (s : State) (p op : Nat) :
    ∃ undo parts cores, s.arriveOp p op = { s with undo := undo, parts := parts, cores := cores }
      ∧ ∀ q, q ≠ p → parts.get {} q = s.part q := by
  cases h : (s.part p).ops.find? (fun q => q.id = op) with
  | none =>
    refine ⟨s.undo, s.parts, s.cores, ?_, fun _ _ => rfl⟩
    unfold State.arriveOp
    rw [h]
  | some o =>
    obtain ⟨cores, ho⟩ := arriveOp_of_find h
    exact ⟨_, _, cores, ho, fun q hq => FMap.get_set_ne _ _ _ _ _ hq⟩

theorem arriveOp_lanes (s : State) (p op : Nat) : (s.arriveOp p op).lanes = s.lanes := by
  obtain ⟨_, _, _, h, -⟩ := arriveOp_changes s p op
  rw [h]

theorem arriveOp_regs (s : State) (p op : Nat) : (s.arriveOp p op).regs = s.regs := by
  obtain ⟨_, _, _, h, -⟩ := arriveOp_changes s p op
  rw [h]

end Sys2Proof.Machine
end

section
/-! Deferred results, path arrivals and fills (R103, R189, R195, R198): what each event does where the state calls for it. -/

namespace Sys2Proof.Machine

/-! ## A deferred result lands (R195) -/

section
variable {s : State} {d : Deferred}

/-- A merge under no mask keeps a word as it is. -/
theorem mergeBits_zero {old : Nat} (new : Nat) (h : old < 2 ^ 32) : mergeBits old new 0 = old := by
  unfold mergeBits
  rw [Nat.and_zero, Nat.or_zero]
  exact Nat.and_two_pow_sub_one_of_lt_two_pow h

/-- What is left of the deferred results when one has landed: it is gone, and those issued before it to its register have lost
its bits. -/
def Deferred.landedFrom (d : Deferred) (ds : List Deferred) : List Deferred :=
  (ds.filter fun e => e.id ≠ d.id).map fun e =>
    if e.team = d.team && e.lane = d.lane && e.reg = d.reg && e.id < d.id then
      { e with mask := e.mask &&& (0xFFFFFFFF - d.mask) } else e

theorem Deferred.landedFrom_gone {ds : List Deferred} {e : Deferred} (h : e ∈ d.landedFrom ds) : e.id ≠ d.id := by
  obtain ⟨x, hx, rfl⟩ := List.mem_map.mp h
  have hne : x.id ≠ d.id := by simpa using (List.mem_filter.mp hx).2
  split <;> exact hne

/-- A result without flags lands: it writes the bits that no later write has taken. -/
theorem land_changes (h : d.flags = 0) : ∃ regs regPoison,
    s.land d = { s with defs := d.landedFrom s.defs, regs := regs, regPoison := regPoison }
      ∧ regs.get 0 (regKey d.team d.lane d.reg)
        = BitVec.ofNat 32 (mergeBits (s.reg d.team d.lane d.reg) (d.val.getD 0) d.mask)
      ∧ ∀ k, k ≠ regKey d.team d.lane d.reg → regs.get 0 k = s.regs.get 0 k := by
  have noFlags : ∀ u : State, u.orFlags d.team d.lane d.flags = u := fun u => by rw [h]; rfl
  unfold State.land
  dsimp only
  rw [noFlags]
  by_cases hm : d.mask = 0
  · refine ⟨s.regs, s.regPoison, ?_, ?_, fun _ _ => rfl⟩
    · rw [if_pos hm, if_neg (by simp [hm])]
      rfl
    · rw [hm, mergeBits_zero (old := s.reg d.team d.lane d.reg) _ (BitVec.isLt _)]
      simp [State.reg]
  · rw [if_neg hm]
    split <;> exact ⟨_, _, rfl, FMap.get_set_self .., fun k hk => FMap.get_set_ne _ _ _ _ _ hk⟩

/-- A group of one result with its value known lands as that result. -/
theorem landGroup_single {g : Nat} (hgroup : s.defs.filter (fun e => e.group = g) = [d]) (hval : d.val.isSome = true)
    (hst : (s.clusterOfTeam d.team).st = .resident) (hid : ∀ e ∈ s.defs, e.id = d.id → e = d) :
    s.landGroup g = s.landOne d := by
  have hmem (e : Deferred) : (e ∈ s.defs ∧ e.group = g) ↔ e = d := by
    rw [← List.mem_singleton (a := e), ← hgroup, List.mem_filter, decide_eq_true_eq]
  obtain ⟨hd, hg⟩ := (hmem d).mpr rfl
  have known : (s.defs.any fun e => e.group = g && e.val.isNone) = false := by
    rw [List.any_eq_false]
    intro e he
    simp only [Bool.and_eq_true, decide_eq_true_eq, not_and]
    intro heg
    obtain rfl := (hmem e).mp ⟨he, heg⟩
    simp [Option.isSome_iff_ne_none.mp hval]
  have found : s.defs.find? (fun e => e.id = d.id) = some d := by
    obtain ⟨e, he⟩ := Option.isSome_iff_exists.mp
      (List.find?_isSome.mpr ⟨d, hd, by simp⟩ : (s.defs.find? fun e => e.id = d.id).isSome = true)
    rw [he, hid e (List.mem_of_find?_eq_some he) (by simpa using List.find?_some he)]
  unfold State.landGroup
  dsimp only
  rw [known, if_neg Bool.false_ne_true, hgroup, if_pos (by simp [hval, hst]), List.foldl_cons, List.foldl_nil, found]

end

/-! ## An arrival on a path (R103) -/

theorem pathArrives_eq {s : State} {op p : Nat} {o : Op} (hop : s.opPart op = some (p, o)) (hres : s.resident p = true)
    (hpath : o.path = .g ∨ o.path = .s ∨ o.path = .c) (hdone : s.opDone op = true) :
    s.pathArrives op = s.arriveOp p op := by
  have hx : o.path ≠ .x := by rintro e; simp [e] at hpath
  unfold State.pathArrives
  rw [hop]
  dsimp only
  rw [hres, if_neg (by decide), if_neg hx, if_pos (by simpa [hdone, or_assoc] using hpath)]

/-! ## A part retires (R189) -/

/-- Memory, and the life of every part. -/
def State.lives (s : State) : FMap Byte × (Nat → Life) := (s.mem, fun q => (s.part q).life)

theorem modPart_lives (s : State) (p : Nat) (f : Part → Part) (h : ∀ x, (f x).life = x.life) :
    (s.modPart p f).lives = s.lives := by
  refine congrArg (Prod.mk s.mem) (funext fun q => ?_)
  by_cases e : q = p
  · rw [e, State.modPart_eq, State.part_setPart_self, h]
  · rw [State.modPart_eq, State.part_setPart_ne _ _ _ _ e]

theorem LanesOnly.lives_eq {p : Nat} {s t : State} (h : LanesOnly p s t) : t.lives = s.lives :=
  Prod.ext h.mem_eq (funext fun q => (congrArg Part.life (h.part_still q)).trans rfl)

theorem freeSlots_lives (s : State) (b : TagBind) : (s.freeSlots b).lives = s.lives := by
  unfold State.freeSlots
  dsimp only
  split <;> rfl

theorem unbind_lives (s : State) (p tag : Nat) : (s.unbind p tag).lives = s.lives := by
  unfold State.unbind
  split
  · rfl
  · exact (modPart_lives _ p _ (by exact fun _ => rfl)).trans (freeSlots_lives ..)

theorem freeTags_lives (s : State) (p : Nat) : (s.freeTags p).lives = s.lives :=
  foldl_keeps State.lives _ (fun s x => by
    split
    · rfl
    · exact unbind_lives ..) _ s

theorem releaseFuse_lives (s : State) (p code : Nat) : (s.releaseFuse p code).lives = s.lives := by
  unfold State.releaseFuse
  split
  · rfl
  · next f _ =>
    have give : LanesOnly p s (eachLane f.lanes (fun l s => s.wr (teamOf p) l f.dest code) s) :=
      .foldl _ (fun s l => lanesOnly_wr p _ l _ _ s) _ s
    exact (lanesOnly_advance p _ _).lives_eq.trans ((modPart_lives _ p _ (by exact fun _ => rfl)).trans give.lives_eq)

theorem retirePart_lives (s : State) (p : Nat) :
    (s.retirePart p).mem = s.mem ∧ ((s.retirePart p).part p).life = .retired := by
  have hlives : (s.retirePart p).lives
      = (s.modPart p fun x => { x with life := .retired, wait := .none, trav := none, fuse := none }).lives := by
    unfold State.retirePart
    dsimp only
    split
    · exact (releaseFuse_lives ..).trans (freeTags_lives ..)
    · exact freeTags_lives ..
  refine ⟨congrArg Prod.fst hlives, (congrFun (congrArg Prod.snd hlives) p).trans ?_⟩
  exact congrArg Part.life (State.part_setPart_self s p _)

/-- A part retires while others of its block go on. -/
theorem retireTeam_eq {s : State} {p : Nat} (hmay : s.mayRetire p = true)
    (hblock : ((s.noteEnd p).retirePart p).blockDone (blockOf (teamOf p)) = false) :
    s.retireTeam p = (s.noteEnd p).retirePart p := by
  unfold State.retireTeam
  rw [if_pos hmay]
  unfold State.afterRetire
  dsimp only
  rw [hblock]
  rfl

/-! ## A line fill arrives (R198) -/

theorem teams_offMemory : OffMemory State.teams := ⟨by intro s; intros; rfl, fun _ _ _ => rfl⟩

theorem askFill_cores (s : State) (p off : Nat) (pf : Bool) : (s.askFill p off pf).cores = s.cores := by
  unfold State.askFill
  dsimp only
  split <;> rfl

theorem wakeFetch_cores (s : State) (p : Nat) : (s.wakeFetch p).cores = s.cores := by
  unfold State.wakeFetch
  split <;> rfl

theorem wakeFetch_wait (s : State) (p : Nat) : ((s.wakeFetch p).part p).wait ≠ .fetch := by
  unfold State.wakeFetch
  split
  · rw [State.modPart_eq, State.part_setPart_self]
    exact Wait.noConfusion
  · assumption

/-- The line put into a cache stands first in it (R197). -/
theorem icPut_head (s : State) (p va pa : Nat) (lost : Bool) :
    ∃ x, ((s.icPut p va pa lost).core (s.coreOf p)).icache.head? = some x ∧ x.line = pa / 128 := by
  unfold State.icPut
  dsimp only
  rw [State.modCore_eq]
  refine ⟨_, (congrArg (fun c : Core => c.icache.head?) (State.core_setCore_self _ (s.coreOf p) _)).trans rfl, rfl⟩

/-- A demand fill whose address resolves, and which nothing keeps waiting: it puts its line, which the caches keep while the
next two are asked for, and its part goes on. -/
theorem fillArrives_demand {s s1 : State} {f : Fill} {e : Tlb} {va pa : Nat}
    (hva : (s.launchAt f.part).codeVa f.off = va) (hpa : e.phys (dieOf (s.who f.part).core) va = pa)
    (hreport : f.report = 0) (hpf : f.pf = false) (hlive : (s.part f.part).life = .live)
    (hres : State.resolve { s with fills := s.fills.filter fun x => x.id ≠ f.id } (s.who f.part) kFetch va = (s1, .ok e))
    (hleaf : s1.leafBusy e = false) (hlow : s1.busySec (pa / 128 * 128) = false)
    (hhigh : s1.busySec (pa / 128 * 128 + 64) = false) :
    ((s.fillArrives f).part f.part).wait ≠ .fetch
      ∧ (s.fillArrives f).cores = ((s1.markUsed (s.who f.part) e false).icPut f.part va pa f.lost).cores := by
  have free : (s1.leafBusy e || s1.busySec (pa / 128 * 128) || s1.busySec (pa / 128 * 128 + 64)) = false := by
    rw [hleaf, hlow, hhigh]
    rfl
  unfold State.fillArrives
  dsimp only
  rw [if_neg (not_not_intro hreport), if_neg (by simp [hlive]), hva, hres]
  dsimp only
  rw [hpa, free, if_neg Bool.false_ne_true, hpf, if_neg Bool.false_ne_true]
  exact ⟨wakeFetch_wait _ _, (wakeFetch_cores ..).trans
    (foldl_keeps State.cores _ (fun s o => askFill_cores s f.part o true) _ _)⟩

end Sys2Proof.Machine

open Sys2Proof Sys2Proof.Machine

/-- Settles O48: each event is one update of the state where its condition holds. A result lands as the merge of the bits that
it still covers; an arrival is `arriveOp`; a part retires beside others of its block; and a fill puts its line first. -/
theorem arrivalsAndFills : Obligations.ArrivalsAndFills := by
  unfold Obligations.ArrivalsAndFills
  intro s
  refine ⟨?result, ?path, ?retire, ?fill⟩
  case result =>
    intro g d hgroup hval hst hflags hid
    have hexec : exec (.deferredResultArrival g) s = .next (s.landOne d) :=
      congrArg _ (landGroup_single hgroup hval hst hid)
    obtain ⟨regs, psn, hland, hself, hother⟩ := land_changes
      (s := { s with
        undo := settled (fun x => x.1 = d.op * 1024 + d.lane) s.undo, parts := s.parts.map (landedLast d) }) hflags
    refine ⟨_, hexec, ?_⟩
    unfold State.landOne
    rw [hland]
    exact ⟨rfl, fun e he => Deferred.landedFrom_gone he, hself, hother⟩
  case path =>
    intro op p o hop hfind hres hpath _ hdone
    have hexec : exec (.pathArrival op) s = .next (s.arriveOp p op) :=
      congrArg _ (pathArrives_eq hop hres hpath hdone)
    obtain ⟨cores, harrive⟩ := arriveOp_of_find hfind
    refine ⟨_, hexec, ?_⟩
    rw [harrive]
    exact ⟨rfl, rfl, congrArg Part.ops (FMap.get_set_self ..)⟩
  case retire =>
    intro p hmay hblock
    have hexec : exec (.teamRetire p) s = .next ((s.noteEnd p).retirePart p) :=
      congrArg _ (retireTeam_eq hmay hblock)
    obtain ⟨hmem, hlife⟩ := retirePart_lives (s.noteEnd p) p
    exact ⟨_, hexec, hlife, hmem⟩
  case fill =>
    intro id f s1 e hfind hres hreport hpf hlive va pa hresolve hleaf hlow hhigh
    obtain rfl : f.id = id := by simpa using List.find?_some hfind
    obtain ⟨hwait, hcores⟩ := fillArrives_demand rfl rfl hreport hpf hlive hresolve hleaf hlow hhigh
    have hexec : exec (.instructionFetchFill f.id) s = .next (s.fillArrives f) := by
      change execInstructionFetchFill f.id s = _
      unfold execInstructionFetchFill
      rw [hfind]
      exact congrArg _ (if_pos hres)
    have hteams : (s1.markUsed (s.who f.part) e false).teams = s.teams :=
      (teams_offMemory.markUsed ..).trans
        (of_fst (g := State.teams) (resolve_keeps (fun s => teams_offMemory.translate s)
          { s with fills := s.fills.filter fun x => x.id ≠ f.id } (s.who f.part) kFetch va) hresolve)
    have hcore : (s1.markUsed (s.who f.part) e false).coreOf f.part = s.coreOf f.part :=
      congrArg (fun m => (FMap.get {} m (teamOf f.part)).core) hteams
    obtain ⟨x, hhead, hline⟩ := icPut_head (s1.markUsed (s.who f.part) e false) f.part va pa f.lost
    rw [hcore] at hhead
    have hcache := congrArg (fun m => (FMap.get {} m (s.coreOf f.part)).icache.head?) hcores
    exact ⟨_, hexec, hwait, x, hcache.trans hhead, hline⟩
end

section
/-! Barriers and the completion of commands (R103, R236 to R241, R246, R251, R306): an arrival that completes no phase is one
write of the barrier, and what completes one leaves memory and registers alone. -/

namespace Sys2Proof.Machine

/-! ## What the barrier unit leaves alone -/

/-- A view of the state that looks at nothing that the barrier unit changes: lanes and parts that it releases, the barriers
and the cores' clocks, and which commands PEND counts. -/
structure OffBarriers {β : Type} (g : State → β) : Prop where
  put : ∀ (s : State) lanes parts cores clusters blocks,
    g { s with lanes := lanes, parts := parts, cores := cores, clusters := clusters, blocks := blocks } = g s
  dropPend : ∀ (s : State) (k : BarKey), g (s.dropPend k) = g s

namespace OffBarriers

section
variable {β : Type} {g : State → β} (h : OffBarriers g) (s : State)
include h

theorem setBar (k : BarKey) (b : Barrier) : g (s.setBar k b) = g s := by
  unfold State.setBar
  split <;> exact h.put s ..

theorem releaseLane (p l : Nat) : g (s.releaseLane p l) = g s := by
  unfold State.releaseLane
  dsimp only
  split <;> exact h.put s ..

theorem releaseBar (k : BarKey) : g (s.releaseBar k) = g s := by
  refine foldl_keeps g _ (fun u x => ?_) _ _
  split
  · split
    · exact (h.releaseLane ..).trans (h.put u ..)
    · rfl
  · rfl

theorem completeBar (k : BarKey) : g (s.completeBar k) = g s := by
  unfold State.completeBar
  refine (h.releaseBar ..).trans ((h.setBar ..).trans ((foldl_keeps g _ (fun u x => ?_) _ _).trans (h.dropPend s k)))
  split
  · exact h.put u ..
  · rfl

theorem countArrival (k : BarKey) (time : Nat) (command : Bool) : g (s.countArrival k time command) = g s := by
  unfold State.countArrival
  dsimp only
  split
  · exact (h.completeBar ..).trans (h.setBar ..)
  · exact h.setBar ..

theorem cmdBarrier (k : Cmd) : g (s.cmdBarrier k) = g s := by
  unfold State.cmdBarrier
  split
  · rfl
  · exact h.countArrival ..

end

end OffBarriers

/-- Memory, registers and the numbers of the commands. -/
def State.cmdView (s : State) : FMap Byte × FMap Word × List Nat := (s.mem, s.regs, s.cmds.map (·.id))

theorem cmdView_offBarriers : OffBarriers State.cmdView where
  put _ _ _ _ _ _ := rfl
  dropPend s k := by
    have ids : (s.dropPend k).cmds.map (·.id) = s.cmds.map (·.id) := by
      unfold State.dropPend
      rw [List.map_map]
      refine List.map_congr_left fun c _ => ?_
      dsimp only [Function.comp_apply]
      split <;> rfl
    exact congrArg (fun x => (s.mem, s.regs, x)) ids

/-! ## One arrival -/

@[simp] theorem bar_setBar_self (s : State) (k : BarKey) (b : Barrier) : (s.setBar k b).bar k = b := by
  unfold State.setBar State.bar
  split
  · rw [State.modCluster_eq, State.cluster_setCluster_self]
    exact FMap.get_set_self ..
  · rw [State.modBlock_eq, State.block_setBlock_self]
    exact FMap.get_set_self ..

@[simp] theorem bar_setLane (s : State) (l : Nat) (x : Lane) (k : BarKey) : (s.setLane l x).bar k = s.bar k := rfl
@[simp] theorem bar_setDie (s : State) (d : Nat) (x : Die) (k : BarKey) : (s.setDie d x).bar k = s.bar k := rfl

/-- The barrier after one arrival that completes no phase. -/
def Barrier.arrive (b : Barrier) (time : Nat) (command : Bool) : Barrier :=
  { b with arr := b.arr + 1, time := max b.time time, pend := if command then b.pend - 1 else b.pend }

theorem countArrival_short {s : State} {k : BarKey} (h : (s.bar k).arr + 1 ≠ (s.bar k).exp) (time : Nat) (command : Bool) :
    s.countArrival k time command = s.setBar k ((s.bar k).arrive time command) :=
  if_neg h

theorem cmdBarrier_short {s : State} {k : Cmd} {b : BarRef} (hbar : k.bar = some b)
    (h : (s.bar (barKey (teamOf k.part) b)).arr + 1 ≠ (s.bar (barKey (teamOf k.part) b)).exp) :
    s.cmdBarrier k = s.setBar (barKey (teamOf k.part) b)
      ((s.bar (barKey (teamOf k.part) b)).arrive (s.core k.core).clock k.pend) := by
  unfold State.cmdBarrier
  rw [hbar]
  exact countArrival_short h ..

/-! ## A command with nothing left -/

section
variable {s : State} {id : Nat} {k : Cmd} (hfind : s.cmds.find? (fun x => x.id = id) = some k) (hdone : k.body.done = true)
include hfind hdone

theorem piecesLeft_done (kind : Nat) : s.piecesLeft id kind = 0 := by
  have hleft : k.body.left = (0, 0, 0) := of_decide_eq_true hdone
  unfold State.piecesLeft
  rw [hfind]
  dsimp only
  rw [hleft]
  split <;> rfl

theorem cmdSweep_done (kind : Nat) : s.cmdSweep id kind = s := by
  unfold State.cmdSweep
  rw [piecesLeft_done hfind hdone]
  rfl

theorem cmdRun_done : s.cmdRun id = s := by
  unfold State.cmdRun
  split
  · unfold State.scatterSweep
    rw [piecesLeft_done hfind hdone]
    rfl
  · rw [cmdSweep_done hfind hdone, cmdSweep_done hfind hdone, cmdSweep_done hfind hdone]

end

/-- A command's arrival at its barrier keeps the numbers of the commands. -/
theorem cmdBarrier_gone {s : State} {k : Cmd} {id : Nat} (h : ∀ x ∈ s.cmds, x.id ≠ id) :
    ∀ x ∈ (s.cmdBarrier k).cmds, x.id ≠ id := by
  have hids : (s.cmdBarrier k).cmds.map (·.id) = s.cmds.map (·.id) :=
    congrArg (fun v => v.2.2) (cmdView_offBarriers.cmdBarrier s k)
  intro x hx hid
  obtain ⟨y, hy, hyx⟩ := List.mem_map.mp (hids ▸ List.mem_map_of_mem (f := Cmd.id) hx)
  exact h y hy (hyx.trans hid)

/-- An arrival that completes no phase raises ARR, and lowers PEND where that counts the command; EXP stands (log 83). -/
theorem cmdBarrier_bar {s : State} {k : Cmd} {b : BarRef} (hbar : k.bar = some b)
    (h : (s.bar (barKey (teamOf k.part) b)).arr + 1 ≠ (s.bar (barKey (teamOf k.part) b)).exp) :
    ((s.cmdBarrier k).bar (barKey (teamOf k.part) b)).arr = (s.bar (barKey (teamOf k.part) b)).arr + 1
      ∧ ((s.cmdBarrier k).bar (barKey (teamOf k.part) b)).pend
        = (s.bar (barKey (teamOf k.part) b)).pend - (if k.pend then 1 else 0) := by
  rw [cmdBarrier_short hbar h, bar_setBar_self]
  unfold Barrier.arrive
  cases k.pend <;> exact ⟨rfl, rfl⟩

/-- A command completes (R99, R246): it is gone, its barrier counts it, and its operation arrives. -/
theorem cmdComplete_changes (s : State) (k : Cmd) : ∃ undo parts cores cores', ∃ u : State,
    u = State.cmdBarrier (State.dropCmd { s with cores := cores } k.id) k
      ∧ s.cmdComplete k = { u with undo := undo, parts := parts, cores := cores' }
      ∧ ∀ q, q ≠ k.part → parts.get {} q = u.part q := by
  obtain ⟨cores, hraise⟩ := raiseClock_if_cores s k.core k.time (isRel k.ord)
  obtain ⟨undo, parts, cores', harrive, hparts⟩ :=
    arriveOp_changes (State.cmdBarrier (State.dropCmd { s with cores := cores } k.id) k) k.part k.op
  refine ⟨undo, parts, cores, cores', _, rfl, ?_, hparts⟩
  unfold State.cmdComplete
  dsimp only
  rw [hraise]
  exact harrive

/-- A command has completed: it is gone, and no part but its own has changed unless it arrives at a barrier, whose count has
risen. -/
def Completed (k : Cmd) (s t : State) : Prop :=
  t.mem = s.mem ∧ t.regs = s.regs ∧ (∀ x ∈ t.cmds, x.id ≠ k.id)
    ∧ (k.bar = none → ∀ p, p ≠ k.part → t.part p = s.part p)
    ∧ ∀ b, k.bar = some b → let q := barKey (teamOf k.part) b
        (s.bar q).arr + 1 ≠ (s.bar q).exp →
        (t.bar q).arr = (s.bar q).arr + 1 ∧ (t.bar q).pend = (s.bar q).pend - (if k.pend then 1 else 0)

theorem cmdComplete_completed (s : State) (k : Cmd) : Completed k s (s.cmdComplete k) := by
  obtain ⟨undo, parts, cores, cores', u, hu, hcomplete, hparts⟩ := cmdComplete_changes s k
  have hview : u.cmdView = (State.dropCmd { s with cores := cores } k.id).cmdView :=
    hu ▸ cmdView_offBarriers.cmdBarrier ..
  have gone : ∀ x ∈ (State.dropCmd { s with cores := cores } k.id).cmds, x.id ≠ k.id := fun x hx =>
    of_decide_eq_true (List.mem_filter.mp hx).2
  rw [hcomplete]
  refine ⟨congrArg Prod.fst hview, congrArg (fun v => v.2.1) hview, ?_, fun hbar p hp => ?_, fun b hbar hq => ?_⟩
  · rw [hu]
    exact cmdBarrier_gone gone
  · refine (hparts p hp).trans ?_
    rw [hu]
    unfold State.cmdBarrier
    rw [hbar]
    rfl
  · have hcount := cmdBarrier_bar (s := State.dropCmd { s with cores := cores } k.id) hbar hq
    rw [← hu] at hcount
    exact hcount

/-- A command that may act is neither frozen nor of a cluster that is away. -/
theorem cmdRuns_iff {s : State} {k : Cmd} (h : s.cmdRuns k = true) : k.frozen = false ∧ k.here s = true := by
  unfold State.cmdRuns at h
  simp only [Bool.and_eq_true, Bool.not_eq_true'] at h
  exact h.1

section
variable {s : State} {id : Nat} {k : Cmd} (hfind : s.cmds.find? (fun x => x.id = id) = some k)
  (hreports : k.reports = []) (hruns : s.cmdRuns k = true) (hdone : k.body.done = true)
include hfind hreports hruns hdone

theorem tcutComplete_done (heng : k.eng = .t) : s.tcutComplete id = s.cmdComplete k := by
  have hfind' := find?_of_imp (P := fun x : Cmd => x.id = id && x.eng = .t) (fun x hx => (Bool.and_eq_true_iff.mp hx).1)
    (by simpa [heng] using List.find?_some hfind) hfind
  unfold State.tcutComplete
  rw [hfind']
  dsimp only
  rw [hruns, cmdRun_done hfind hdone, hfind]
  dsimp only
  rw [hdone, (cmdRuns_iff hruns).1, hreports]
  rfl

theorem ladleDone_done (hnode : k.node = none) (heng : k.eng = .l) (hfrozen : ∀ j ∈ s.cmds, j.frozen = false) :
    s.ladleDone id = s.cmdComplete k := by
  have hfind' := find?_of_imp (P := fun x : Cmd => x.id = id && x.eng = .l) (fun x hx => (Bool.and_eq_true_iff.mp hx).1)
    (by simpa [heng] using List.find?_some hfind) hfind
  obtain ⟨hthaw, hhere⟩ := cmdRuns_iff hruns
  have hres : s.resident k.part = true := by
    unfold Cmd.here at hhere
    rwa [hnode] at hhere
  have hnone : (s.cmds.any fun j => j.part = k.part && j.eng = .l && j.node.isNone && j.frozen && j.id < k.id) = false := by
    rw [List.any_eq_false]
    intro j hj
    simp [hfrozen j hj]
  unfold State.ladleDone
  dsimp only
  rw [cmdRun_done hfind hdone, hfind']
  dsimp only
  rw [hnode]
  dsimp only
  have hid : k.id = id := by simpa using List.find?_some hfind
  rw [← hid, hdone, hthaw, hreports, hres, hnone]
  rfl

end

end Sys2Proof.Machine
end

section
/-! An arrival step of one lane (R238, R239): it gives the lane its token and counts it, and where that completes no phase no
lane is released. -/

namespace Sys2Proof

theorem FMap.mem_set {α : Type} [DecidableEq α] {d : α} {m : FMap α} {k : Nat} {v : α} {x : Nat × α}
    (h : x ∈ set d m k v) : x = (k, v) ∨ x ∈ m := by
  unfold set at h
  split at h
  · exact .inr (List.mem_filter.mp h).1
  · exact mem_insert h

end Sys2Proof

namespace Sys2Proof.Machine

/-- Every token of the barrier that a lane is held at is pending. -/
def Lane.Waits (k : BarKey) (ph : Nat) (y : Lane) : Prop :=
  ∀ tok, y.hold = some (.barrier k.cl k.ix (some tok)) → tokenPending ph tok = true

theorem tokenPending_self (ph : Nat) : tokenPending ph ph = true := by
  have h : (ph + 2 ^ 32 - ph % 2 ^ 32) % 2 ^ 32 = 0 := by omega
  unfold tokenPending
  dsimp only
  rw [h]
  rfl

/-- A lane that is given a new hold waits as the hold says; the others wait as before. -/
theorem waits_modLane {s : State} {k : BarKey} {P : Lane → Prop} (h : ∀ y ∈ s.barLanes k, P y.2) (h0 : P {}) (l : Nat)
    {f : Lane → Lane} (hf : ∀ y, P y → P (f y)) : ∀ y ∈ (s.modLane l f).barLanes k, P y.2 := by
  intro y hy
  obtain ⟨hmem, hreach⟩ := List.mem_filter.mp hy
  obtain rfl | hmem := FMap.mem_set hmem
  · refine hf _ ?_
    obtain hdefault | hlisted := FMap.get_mem ({} : Lane) s.lanes l
    · exact (show s.lane l = {} from hdefault) ▸ h0
    · exact h _ (List.mem_filter.mpr ⟨hlisted, hreach⟩)
  · exact h y (List.mem_filter.mpr ⟨hmem, hreach⟩)

/-- A fold whose every step leaves the state as it is. -/
theorem foldl_stays {α : Type} {f : State → α → State} {s : State} {xs : List α} (h : ∀ x ∈ xs, f s x = s) :
    xs.foldl f s = s := by
  induction xs with
  | nil => rfl
  | cons x xs ih =>
    rw [List.foldl_cons, h x List.mem_cons_self]
    exact ih fun y hy => h y (List.mem_cons_of_mem _ hy)

/-- A barrier releases no lane while every token of it is pending. -/
theorem releaseBar_waits {s : State} {k : BarKey} (h : ∀ y ∈ s.barLanes k, y.2.Waits k (s.bar k).ph) :
    s.releaseBar k = s := by
  refine foldl_stays fun y hy => ?_
  split
  · next cl ix tok hold =>
    refine if_neg fun hc => ?_
    simp only [Bool.and_eq_true, decide_eq_true_eq, Bool.not_eq_true'] at hc
    obtain ⟨⟨rfl, rfl⟩, hover⟩ := hc
    exact Bool.false_ne_true (hover.symm.trans (h y hy tok hold))
  · rfl

/-- What a step of one lane changes: the lane's arrival bit and its hold, and the barrier. -/
def State.arriveLane (s : State) (d n : Nat) (x : ArrStep) (l : Nat) : State :=
  ((((s.modDie d fun y => { y with arrivals := y.arrivals.eraseIdx n }).modLane (laneId (teamOf x.part) l) fun y =>
    { y with arrived := y.arrived ||| 2 ^ x.key.bit }).modLane (laneId (teamOf x.part) l) fun y =>
      { y with hold := some (.barrier x.cl x.ix (some (s.bar x.key).ph)) }).setBar x.key
        ((s.bar x.key).arrive (s.core (s.coreOf x.part)).clock false))

theorem setBar_lanes (s : State) (k : BarKey) (b : Barrier) : (s.setBar k b).lanes = s.lanes := by
  unfold State.setBar
  split <;> rfl

theorem arriveLane_changes (s : State) (d n : Nat) (x : ArrStep) (l : Nat) :
    (s.arriveLane d n x l).mem = s.mem ∧ (s.arriveLane d n x l).regs = s.regs
      ∧ (s.arriveLane d n x l).bar x.key = (s.bar x.key).arrive (s.core (s.coreOf x.part)).clock false
      ∧ ((s.arriveLane d n x l).lane (laneId (teamOf x.part) l)).hold
        = some (.barrier x.cl x.ix (some (s.bar x.key).ph)) := by
  unfold State.arriveLane
  generalize hu : State.modLane _ _ (fun y => { y with hold := _ }) = u
  have hview := cmdView_offBarriers.setBar u x.key ((s.bar x.key).arrive (s.core (s.coreOf x.part)).clock false)
  have hlane : (u.lane (laneId (teamOf x.part) l)).hold = some (.barrier x.cl x.ix (some (s.bar x.key).ph)) := by
    rw [← hu, State.modLane_eq, State.lane_setLane_self]
  refine ⟨(congrArg Prod.fst hview).trans ?_, (congrArg (fun v => v.2.1) hview).trans ?_, bar_setBar_self .., ?_⟩
  · rw [← hu]
    rfl
  · rw [← hu]
    rfl
  · unfold State.lane
    rw [setBar_lanes]
    exact hlane

/-- A step of one lane that completes no phase: the lane's own token is pending, and no other lane holds one. -/
theorem arrivalStep_single {s : State} {d n l : Nat} {x : ArrStep} (hx : (s.die d).arrivals[n]? = some x)
    (hmay : s.mayArrive d n x = true) (hinit : x.init = none) (hcmd : x.cmdTime = none) (hlanes : x.lanes = [l])
    (hhelpers : x.helpers = []) (hholds : x.holds = true) (hshort : (s.bar x.key).arr + 1 ≠ (s.bar x.key).exp)
    (hwaits : ∀ y ∈ s.barLanes x.key, ∀ tok, y.2.hold ≠ some (.barrier x.cl x.ix (some tok))) :
    s.arrivalStep d n = s.arriveLane d n x l := by
  have waits : ∀ y ∈ (s.arriveLane d n x l).barLanes x.key, y.2.Waits x.key (s.bar x.key).ph := by
    unfold State.barLanes State.arriveLane
    rw [setBar_lanes]
    refine waits_modLane (P := Lane.Waits x.key (s.bar x.key).ph) ?_ (fun _ h => nomatch h) _ fun y _ tok h => ?_
    · refine waits_modLane (P := Lane.Waits x.key (s.bar x.key).ph) ?_ (fun _ h => nomatch h) _ fun y h => h
      exact fun y hy tok h => absurd h (hwaits y hy tok)
    · cases h
      exact tokenPending_self _
  obtain ⟨-, -, hbar, -⟩ := arriveLane_changes s d n x l
  have hrelease : (s.arriveLane d n x l).releaseBar x.key = s.arriveLane d n x l :=
    releaseBar_waits (by rw [hbar]; exact waits)
  have give (u : State) (tok : Nat) : u.giveToken x (teamOf x.part) l tok
      = u.modLane (laneId (teamOf x.part) l) fun y => { y with hold := some (.barrier x.cl x.ix (some tok)) } := if_pos hholds
  unfold State.arrivalStep
  rw [hx]
  dsimp only
  rw [if_pos hmay]
  unfold State.arrive
  rw [hinit, hcmd, hlanes, hhelpers]
  dsimp only
  rw [List.foldl_cons, List.foldl_nil, List.foldl_nil, give]
  rw [countArrival_short (by simpa only [State.modLane_eq, State.modDie_eq, bar_setLane, bar_setDie] using hshort)]
  simp only [State.modLane_eq, State.modDie_eq, bar_setLane, bar_setDie]
  exact hrelease

end Sys2Proof.Machine
end

section
/-! The Tundish (R271, R273, R274, R287): a grant occupies arrays, and an entry that retires gives up its place, its arrays
and what its part no longer needs of its slots. -/

namespace Sys2Proof.Machine

/-! ## A grant (R273, R275) -/

/-- Counting an event changes the core's counters alone (R369). -/
theorem count_cores (s : State) (core evt n : Nat) : ∃ cores, s.count core evt n = { s with cores := cores } := by
  unfold State.count
  generalize List.range 8 = ks
  induction ks generalizing s with
  | nil => exact ⟨s.cores, rfl⟩
  | cons k ks ih =>
    rw [List.foldl_cons]
    split
    · obtain ⟨cores, h⟩ := ih (s.modCore core fun c => { c with ev := c.ev.set 0 k (c.ev.get 0 k + n) })
      exact ⟨cores, h⟩
    · exact ih s

theorem occupy_arrays (s : State) (a : Nat) (paired : Bool) :
    ∃ arrays, s.occupy a paired = { s with arrays := arrays } ∧ (arrays.get {} a).busy = true := by
  unfold State.occupy
  dsimp only
  split
  · refine ⟨_, rfl, ?_⟩
    rw [FMap.get_set]
    split
    · rfl
    · rw [FMap.get_set_self]
  · exact ⟨_, rfl, by rw [FMap.get_set_self]⟩

/-- The grant of a tag's own array. -/
theorem tundishGrant_own {s : State} {f : Nat} {e : TEntry} {b : TagBind}
    (h : (sortBy grantBefore (s.tundish.filter fun e => e.flask = f)).findSome? (fun e => (s.grantOf e).map fun g => (e, g))
      = some (e, .own b)) :
    ∃ arrays cores, s.tundishGrant f = { s with
        arrays := arrays, cores := cores
        tundish := s.tundish.map fun x => if x.id = e.id then { x with array := some b.core } else x }
      ∧ (arrays.get {} b.core).busy = true := by
  obtain ⟨arrays, hoccupy, hbusy⟩ := occupy_arrays s b.core b.paired
  obtain ⟨cores, hcount⟩ := count_cores (s.applyGrant e (.own b)) e.core 10 1
  refine ⟨arrays, cores, ?_, hbusy⟩
  unfold State.tundishGrant
  rw [h]
  refine hcount.trans ?_
  unfold State.applyGrant State.modEntry
  dsimp only
  rw [hoccupy]

/-! ## Slots given back (R270, R271) -/

/-- A slot reads +0, with no poison. -/
def Slot4k.Zero (x : Slot4k) : Prop := x.words = [] ∧ x.poison = []

/-- Slots have been given back to their free lists, and tags of parts with them: a slot that reads +0 still does. -/
def GivesBack (s t : State) : Prop :=
  ∃ slots parts, t = { s with slots := slots, parts := parts } ∧ ∀ k, (s.slots.get {} k).Zero → (slots.get {} k).Zero

theorem GivesBack.refl (s : State) : GivesBack s s := ⟨s.slots, s.parts, rfl, fun _ h => h⟩

theorem GivesBack.trans {s t u : State} (h : GivesBack s t) (k : GivesBack t u) : GivesBack s u := by
  obtain ⟨slots, parts, rfl, hz⟩ := h
  obtain ⟨slots', parts', rfl, hz'⟩ := k
  exact ⟨slots', parts', rfl, fun k hk => hz' k (hz k hk)⟩

theorem GivesBack.foldl {α : Type} {f : State → α → State} (hf : ∀ s x, GivesBack s (f s x)) (xs : List α) (s : State) :
    GivesBack s (xs.foldl f s) := by
  induction xs generalizing s with
  | nil => exact .refl s
  | cons x xs ih => exact (hf s x).trans (ih _)

theorem zero_set {m : FMap Slot4k} {x : Slot4k} (hx : x.Zero) {a k : Nat} (h : k = a ∨ (m.get {} k).Zero) :
    ((m.set {} a x).get {} k).Zero := by
  rw [FMap.get_set]
  split
  · exact hx
  · next hne => exact h.resolve_left hne

theorem givesBack_freeSlots (s : State) (b : TagBind) : GivesBack s (s.freeSlots b) := by
  unfold State.freeSlots
  have free : Slot4k.Zero {} := ⟨rfl, rfl⟩
  dsimp only
  split
  · exact ⟨_, s.parts, rfl, fun k h => zero_set free (.inr (zero_set free (.inr h)))⟩
  · exact ⟨_, s.parts, rfl, fun k h => zero_set free (.inr h)⟩

theorem givesBack_unbind (s : State) (p tag : Nat) : GivesBack s (s.unbind p tag) := by
  unfold State.unbind
  split
  · exact .refl s
  · exact (givesBack_freeSlots s _).trans ⟨_, _, rfl, fun _ h => h⟩

theorem givesBack_freeTags (s : State) (p : Nat) : GivesBack s (s.freeTags p) :=
  .foldl (fun s x => by
    split
    · exact .refl s
    · exact givesBack_unbind ..) _ s

theorem givesBack_settleTags (s : State) (p : Nat) : GivesBack s (s.settleTags p) := by
  unfold State.settleTags
  split
  · exact .refl s
  · dsimp only
    split
    · exact (givesBack_freeTags s p).trans ⟨_, _, rfl, fun _ h => h⟩
    · exact givesBack_freeTags s p

/-! ## An entry retires (R274) -/

theorem freeArray_busy (s : State) (e : TEntry) (a c : Nat) (h : c = a ∨ (s.arrays.get ({} : MArray) c).busy = false) :
    ((s.freeArray e a).arrays.get {} c).busy = false := by
  unfold State.freeArray
  dsimp only
  rw [FMap.get_set]
  split
  · split <;> rfl
  · next hne => exact h.resolve_left hne

/-- What an entry gives up as it retires: its place in the Tundish, its operation in flight, and what a part that has retired
needed of its slots. -/
def State.leaveTundish (s : State) (e : TEntry) : State :=
  let s := { s with tundish := s.tundish.filter fun x => x.id ≠ e.id }
  ((if isRel e.ord then s.raiseClock e.core e.time else s).arriveOp e.part e.op).settleTags e.part

theorem leaveTundish_changes (s : State) (e : TEntry) : ∃ undo parts cores slots,
    s.leaveTundish e = { s with
      undo := undo, parts := parts, cores := cores, slots := slots, tundish := s.tundish.filter fun x => x.id ≠ e.id }
    ∧ ∀ k, (s.slots.get {} k).Zero → (slots.get {} k).Zero := by
  let v : State := { s with tundish := s.tundish.filter fun x => x.id ≠ e.id }
  obtain ⟨cores, hraise⟩ := raiseClock_if_cores v e.core e.time (isRel e.ord)
  obtain ⟨undo, parts, cores', harrive, -⟩ := arriveOp_changes { v with cores := cores } e.part e.op
  obtain ⟨slots, parts', hsettle, hzero⟩ :=
    givesBack_settleTags (State.arriveOp { v with cores := cores } e.part e.op) e.part
  rw [harrive] at hsettle hzero
  refine ⟨undo, parts', cores', slots, ?_, hzero⟩
  unfold State.leaveTundish
  dsimp only
  rw [hraise, harrive]
  exact hsettle

/-- An entry that has been granted an array retires: its effect is carried out, and its arrays are free (R274, R275). -/
theorem entryRetire_granted (s : State) {e : TEntry} {a : Nat} (h : e.array = some a) :
    ∃ arrays, s.entryRetire e = State.leaveTundish { s.entryEffect e with arrays := arrays } e
      ∧ (arrays.get {} a).busy = false := by
  have own (u : State) : ((u.freeArray e a).arrays.get {} a).busy = false := freeArray_busy u e a a (.inl rfl)
  have free (u : State) (paired : Bool) : ∃ arrays,
      (if paired then (u.freeArray e a).freeArray e (a ^^^ 1) else u.freeArray e a) = { u with arrays := arrays }
        ∧ (arrays.get {} a).busy = false := by
    split
    · exact ⟨_, rfl, freeArray_busy _ e _ a (.inr (own u))⟩
    · exact ⟨_, rfl, own u⟩
  unfold State.entryRetire
  rw [h]
  dsimp only
  obtain ⟨arrays, hfree, hidle⟩ := free (s.entryEffect e) _
  exact ⟨arrays, congrArg (State.leaveTundish · e) hfree, hidle⟩

/-! ## `acz` (R287) -/

/-- Every word of a bound tile reads +0, with no poison. -/
def TagBind.Zero (b : TagBind) (slots : FMap Slot4k) : Prop := ∀ j, j < tileWidth (some b) → (slots.get {} (b.key j)).Zero

theorem tileWord_zero {s : State} {b : TagBind} (h : b.Zero s.slots) (i : Nat) {j : Nat} (hj : j < tileWidth (some b)) :
    s.tileWord (some b) i j = (0, false) := by
  obtain ⟨hwords, hpoison⟩ := h j hj
  unfold State.tileWord
  dsimp only
  rw [hwords, hpoison]
  rfl

/-- Every column of a tile lies in the slot of its first column, or in that of column 32. -/
theorem key_of_lt {b : TagBind} {j : Nat} (h : j < 32) : b.key j = b.key 0 :=
  (if_pos h).trans (if_pos (by decide)).symm

theorem key_of_le {b : TagBind} {j : Nat} (h : ¬ j < 32) : b.key j = b.key 32 :=
  (if_neg h).trans (if_neg (by decide)).symm

/-- A tile of zeros, whatever its flags (R287). -/
theorem setTile_zero (s : State) (b : TagBind) (flags : Nat) :
    ∃ slots, s.setTile b flags (fun _ _ => (0, false)) = { s with slots := slots } ∧ b.Zero slots := by
  unfold State.setTile
  dsimp only
  split
  · refine ⟨_, rfl, fun j _ => zero_set ?_ ?_⟩
    · simp [Slot4k.Zero]
    · by_cases hj : j < 32
      · refine .inr (zero_set ?_ (.inl (key_of_lt hj)))
        simp [Slot4k.Zero]
      · exact .inl (key_of_le hj)
  · next hp =>
    refine ⟨_, rfl, fun j hj => zero_set ?_ (.inl (key_of_lt ?_))⟩
    · simp [Slot4k.Zero]
    · simpa [tileWidth, hp] using hj

theorem acz_noPieces {s : State} {e : TEntry} {pair : Bool} (hbody : e.body = .acz pair)
    (htodo : e.todo = none ∨ e.todo = some []) : e.todo.getD (s.pieces e) = [] := by
  have hpieces : s.pieces e = [] := by
    unfold State.pieces
    rw [hbody]
  obtain h | h := htodo <;> rw [h]
  · exact hpieces
  · rfl

/-- An `acz` moves nothing: once it is granted, it retires. -/
theorem passRetire_acz {s : State} {id : Nat} {e : TEntry} {pair : Bool}
    (hfind : s.tundish.find? (fun x => x.id = id) = some e) (hbody : e.body = .acz pair)
    (htodo : e.todo = none ∨ e.todo = some []) (hgranted : e.granted = true) (hhere : s.entryHere e = true)
    (hreports : e.reports = []) : s.passRetire id = s.entryRetire e := by
  have hnone : e.todo.getD (s.pieces e) = [] := acz_noPieces hbody htodo
  have hleft : s.todoLeft id = 0 := by
    unfold State.todoLeft
    rw [hfind]
    exact congrArg List.length hnone
  have hrun : s.entryRun id = s := by
    unfold State.entryRun
    rw [hleft]
    rfl
  have hthaw : e.frozen = false := by
    unfold State.entryHere at hhere
    simpa using (Bool.and_eq_true_iff.mp hhere).1
  unfold State.passRetire
  rw [hfind]
  dsimp only
  rw [hgranted, hhere, hrun, hfind]
  dsimp only
  rw [hnone, hthaw, hreports]
  rfl

theorem entryEffect_acz {s : State} {e : TEntry} {pair : Bool} {b : TagBind} (hbody : e.body = .acz pair)
    (htag : s.tagOf e.part e.tag = some b) : s.entryEffect e = s.setTile b 0 fun _ _ => (0, false) := by
  unfold State.entryEffect
  rw [hbody, htag]

end Sys2Proof.Machine
end

section
/-! The Runner's release of a lane (R297, R298, R301): the lane goes to its routine with the visit word. -/

namespace Sys2Proof.Machine

/-- What a lane waits for of the Runner is over; everything else of the lane stands. -/
def Lane.served (y : Lane) : Lane :=
  { y with tOp := 0, acq := none, acqSys := false, work := .idle, rbuf := [], parked := [] }

theorem released'_changes (s : State) (p l : Nat) :
    (s.released' p l).lane (laneId (teamOf p) l) = (s.lane (laneId (teamOf p) l)).served
      ∧ (s.released' p l).regs = s.regs := by
  have own : (s.modLane (laneId (teamOf p) l) Lane.served).lane (laneId (teamOf p) l)
      = (s.lane (laneId (teamOf p) l)).served :=
    State.lane_setLane_self ..
  unfold State.released'
  dsimp only
  split
  · exact ⟨own, rfl⟩
  · have hlanes := arriveOp_lanes (s.modLane (laneId (teamOf p) l) Lane.served) p (s.lane (laneId (teamOf p) l)).tOp
    exact ⟨(congrArg (fun m => FMap.get ({} : Lane) m (laneId (teamOf p) l)) hlanes).trans own, arriveOp_regs ..⟩

theorem releaseLane_changes (s : State) (p l : Nat) :
    (s.releaseLane p l).lane (laneId (teamOf p) l) = { s.lane (laneId (teamOf p) l) with hold := none, departed := true }
      ∧ (s.releaseLane p l).regs = s.regs := by
  unfold State.releaseLane
  dsimp only
  split <;> exact ⟨State.lane_setLane_self .., rfl⟩

/-- A lane is released to a routine: it wants the label, nothing holds it, and its register VR has the word. -/
theorem releaseTo_changes (s : State) (p l : Nat) (v : Trav) (label kind word : Nat) :
    (s.releaseTo p l v label kind word).lane (laneId (teamOf p) l)
        = { (s.lane (laneId (teamOf p) l)).served with wl := label, lastKind := kind, hold := none, departed := true }
      ∧ (s.releaseTo p l v label kind word).reg (teamOf p) l v.vr = word % 2 ^ 32 := by
  unfold State.releaseTo
  dsimp only
  generalize hu : ((s.wr (teamOf p) l v.vr word).modLane (laneId (teamOf p) l) fun y =>
    { y with wl := label, lastKind := kind }) = u
  have hlane : u.lane (laneId (teamOf p) l) = { s.lane (laneId (teamOf p) l) with wl := label, lastKind := kind } := by
    rw [← hu, State.modLane_eq, State.lane_setLane_self, State.lane_wr]
  have hreg : u.reg (teamOf p) l v.vr = word % 2 ^ 32 := by
    rw [← hu]
    exact congrArg BitVec.toNat ((wr_get s (teamOf p) l v.vr word _).trans (if_pos rfl))
  obtain ⟨hserved, hregs⟩ := released'_changes u p l
  obtain ⟨hfree, hregs'⟩ := releaseLane_changes (u.released' p l) p l
  constructor
  · rw [hfree, hserved, hlane]
    rfl
  · unfold State.reg
    rw [hregs', hregs]
    exact hreg

theorem putWindow_lanes (s : State) (p l : Nat) (v : Trav) (node : Nat) : (s.putWindow p l v node).lanes = s.lanes := by
  unfold State.putWindow
  dsimp only
  refine foldl_keeps State.lanes _ (fun u k => ?_) _ s
  split <;> simp only [State.wr_lanes]

/-- The visit word of a node's entry is one word (R298). -/
theorem visitWord_enter (depth child : Nat) : visitWord 0 depth child 0 0 % 2 ^ 32 = visitWord 0 depth child 0 0 := by
  have hdepth : depth % 64 < 64 := Nat.mod_lt _ (by decide)
  have hchild : child % 16 < 16 := Nat.mod_lt _ (by decide)
  refine Nat.mod_eq_of_lt ?_
  unfold visitWord
  omega

/-- The Runner does nothing for a lane that it does not hold. -/
theorem runnerLoop_released {s : State} {p l : Nat} (h : (s.lane (laneId (teamOf p) l)).hold = none) (n : Nat) :
    State.runnerLoop p l n s = s := by
  have hfor : s.runnerFor p l = false := by
    unfold State.runnerFor
    dsimp only
    rw [h]
    rfl
  cases n with
  | zero => rfl
  | succ n =>
    unfold State.runnerLoop
    split
    · rfl
    · rw [hfor]
      rfl

/-- A step with nothing to read that lets go of the lane is the Runner's last. -/
theorem runnerLoop_last {s : State} {p l : Nat} {v : Trav} (htrav : (s.part p).trav = some v)
    (hfor : s.runnerFor p l = true) (hmissing : v.missing (s.lane (laneId (teamOf p) l)) = [])
    (hfree : ((s.runnerStep p l v).lane (laneId (teamOf p) l)).hold = none) (n : Nat) :
    State.runnerLoop p l (n + 1) s = s.runnerStep p l v := by
  unfold State.runnerLoop
  rw [htrav]
  dsimp only
  rw [hfor, hmissing]
  exact runnerLoop_released hfree n

theorem runnerStep_enter {s : State} {p l : Nat} (v : Trav) {f : Frame} (hwork : (s.lane (laneId (teamOf p) l)).work = .enter)
    (htop : (s.lane (laneId (teamOf p) l)).frames.getLast? = some f) :
    s.runnerStep p l v = (s.putWindow p l v f.node).releaseTo p l v v.ent 0
      (visitWord 0 ((s.lane (laneId (teamOf p) l)).frames.length - 1) f.child 0 0) := by
  unfold State.runnerStep
  dsimp only
  rw [hwork, htop]

end Sys2Proof.Machine
end

section
/-! O52: commands, arrivals, grants, retirements and releases (R103, R238, R246, R273, R287, R297, R306). -/

open Sys2Proof Sys2Proof.Machine

/-- Settles O52: a command, an arrival, a grant, an `acz` and a release each come down to one update of the state where their
conditions hold; what else the event does leaves the parts of the state that the statement speaks of alone. -/
theorem enginesComplete : Obligations.EnginesComplete := by
  unfold Obligations.EnginesComplete
  intro s
  refine ⟨?command, ?arrival, ?grant, ?zero, ?release⟩
  case command =>
    intro id k hfind hnode hreports hruns hdone _
    obtain rfl : k.id = id := by simpa using List.find?_some hfind
    have completed := cmdComplete_completed s k
    refine ⟨fun heng => ⟨_, congrArg Host.Outcome.next ?_, completed⟩,
      fun heng hthawed => ⟨_, congrArg Host.Outcome.next ?_, completed⟩⟩
    · exact tcutComplete_done hfind hreports hruns hdone heng
    · exact ladleDone_done hfind hreports hruns hdone hnode heng hthawed
  case arrival =>
    intro d n x l hx hmay hinit hcmd hlanes hhelpers hholds hshort hwaits
    have hexec : exec (.barrierArrivalStep d n) s = .next (s.arriveLane d n x l) :=
      congrArg _ (arrivalStep_single hx hmay hinit hcmd hlanes hhelpers hholds hshort hwaits)
    obtain ⟨hmem, hregs, hbar, hhold⟩ := arriveLane_changes s d n x l
    exact ⟨_, hexec, hmem, hregs, congrArg Barrier.arr hbar, hhold⟩
  case grant =>
    intro f e b hgrant
    obtain ⟨arrays, cores, hown, hbusy⟩ := tundishGrant_own hgrant
    refine ⟨_, congrArg Host.Outcome.next hown, rfl, rfl, rfl, hbusy, fun x hx hid => ?_⟩
    obtain ⟨y, _, rfl⟩ := List.mem_map.mp hx
    by_cases hy : y.id = e.id
    · simp [hy]
    · simp [hy] at hid
  case zero =>
    intro id e pair b hfind hbody hgranted hhere hreports htodo htag
    obtain rfl : e.id = id := by simpa using List.find?_some hfind
    have harray : e.array.isSome = true := by
      unfold TEntry.granted at hgranted
      rwa [hbody] at hgranted
    obtain ⟨a, ha⟩ := Option.isSome_iff_exists.mp harray
    obtain ⟨slots, hset, hzero⟩ := setTile_zero s b 0
    obtain ⟨arrays, hretire, hidle⟩ := entryRetire_granted s ha
    rw [entryEffect_acz hbody htag, hset] at hretire
    obtain ⟨undo, parts, cores, slots', hleave, hkept⟩ :=
      leaveTundish_changes { s with slots := slots, arrays := arrays } e
    have hexec : exec (.passRetire e.id) s = _ := congrArg Host.Outcome.next
      ((passRetire_acz hfind hbody htodo hgranted hhere hreports).trans (hretire.trans hleave))
    refine ⟨_, hexec, rfl, fun x hx => of_decide_eq_true (List.mem_filter.mp hx).2, fun c hc => ?_, fun i j _ hj => ?_⟩
    · obtain rfl := Option.some.inj (ha.symm.trans hc)
      exact hidle
    · exact tileWord_zero (fun j hj => hkept _ (hzero j hj)) i hj
  case release =>
    intro p l v f htrav hfor y hwork htop hmissing
    have hstep := runnerStep_enter v hwork htop
    obtain ⟨hlane, hreg⟩ := releaseTo_changes (s.putWindow p l v f.node) p l v v.ent 0
      (visitWord 0 (y.frames.length - 1) f.child 0 0)
    rw [← hstep] at hlane hreg
    have hexec : exec (.runnerRelease p l) s = .next (s.runnerStep p l v) :=
      congrArg _ (runnerLoop_last htrav hfor hmissing (congrArg Lane.hold hlane) 2047)
    exact ⟨_, hexec, congrArg Lane.wl hlane, congrArg Lane.hold hlane, congrArg Lane.lastKind hlane,
      hreg.trans (visitWord_enter ..)⟩
end

section
/-! Gathers and scatters (R94, R123, R124): what posting a command leaves alone, the addresses of the elements, and the
bytes that a scatter writes where lanes overlap. -/

namespace Sys2Proof.Machine

/-! ## A memory instruction where nothing is sampled -/

section
variable {i : Instr} {s : State} {sectors : Ctx → State → Nat} {eff : Ctx → State → State} (hi : Issues i s)
  (hs : s.noSampling) (hx : exec i s = issueMem i s sectors eff)
include hi hs hx

/-- An effect that leaves the control of sampling alone is followed by the end of the issue alone. -/
theorem issueMem_ends {u : State} (he : eff (s.opCtx i.hdr) s.issued = u) (hu : u.smpctl = s.smpctl) :
    exec i s = .next (u.finish s.issue.part) := by
  have hn : u.noSampling := by
    unfold State.noSampling
    rw [hu]
    exact hs
  subst he
  exact hx.trans (issueMem_issues hi hn)

/-- An instruction whose effect is none on this state passes. -/
theorem issueMem_idle (he : eff (s.opCtx i.hdr) s.issued = s.issued) :
    ∃ t, exec i s = .next t ∧ t.regs = s.regs ∧ t.defs = s.defs ∧ LanesOnly s.issue.part s t :=
  ⟨_, issueMem_ends hi hs hx he (issued_frame s).smpctl_eq, (finish_regs ..).trans (issued_regs s),
    (finish_defs ..).trans (issued_defs s), (issued_frame s).trans (lanesOnly_finish ..)⟩

end

/-! ## The end of an issue moves the part's place alone -/

/-- The state without parts, lanes and cores. -/
def State.offPlaces (s : State) : State := { s with parts := [], lanes := [], cores := [] }

theorem count_offPlaces (c e n : Nat) (s : State) : (s.count c e n).offPlaces = s.offPlaces :=
  foldl_keeps State.offPlaces _ (fun s k => by split <;> rfl) _ _

theorem serve_offPlaces (p l : Nat) (s : State) : (s.serve p l).offPlaces = s.offPlaces :=
  foldl_keeps State.offPlaces (fun s x => s.modLane (laneId (teamOf p) x) fun y => { y with departed := false })
    (fun _ _ => rfl) (s.partLanes p) s

theorem censusNext_offPlaces (p cur : Nat) (s : State) : (s.censusNext p cur).offPlaces = s.offPlaces := by
  unfold State.censusNext
  dsimp only
  split
  · rw [count_offPlaces, serve_offPlaces]
  · split
    · rw [count_offPlaces, count_offPlaces, serve_offPlaces]
      rfl
    · split <;> rfl

theorem fallInto_offPlaces (p f : Nat) (s : State) : (s.fallInto p f).offPlaces = s.offPlaces :=
  (censusNext_offPlaces p _ _).trans
    (foldl_keeps State.offPlaces (fun s x => s.modLane (laneId (teamOf p) x) fun y => { y with wl := f })
      (fun _ _ => rfl) (s.activeSet p) s)

theorem finish_offPlaces (p : Nat) (s : State) : (s.finish p).offPlaces = s.offPlaces := by
  unfold State.finish
  split
  · rfl
  · unfold State.advance
    dsimp only
    split
    · exact censusNext_offPlaces ..
    · split
      · exact fallInto_offPlaces ..
      · rfl

theorem finish_cmds (p : Nat) (s : State) : (s.finish p).cmds = s.cmds :=
  (congrArg State.cmds (finish_offPlaces p s) :)

/-! ## The frame of a command -/

theorem PostsOnly.of_lanesOnly {p : Nat} {s t : State} (h : LanesOnly p s t) (hr : t.regs = s.regs)
    (hp : t.regPoison = s.regPoison) (hc : t.cmds = s.cmds) : PostsOnly p s t where
  rest := by
    have hrest := h.rest
    rw [hr, hp] at hrest
    rw [hc]
    exact hrest
  parts := h.parts
  part := by
    have hpart := h.part
    have hops : (t.part p).ops = (s.part p).ops := by rw [h.part]
    rw [hops]
    exact hpart
  lanes := h.lanes
  mine := h.mine
  cores := h.cores

theorem PostsOnly.trans {p : Nat} {s t u : State} (h : PostsOnly p s t) (k : PostsOnly p t u) : PostsOnly p s u where
  rest := by
    have hrest := k.rest
    rw [h.rest] at hrest
    exact hrest
  parts q hq := (k.parts q hq).trans (h.parts q hq)
  part := by rw [k.part, h.part]
  lanes l := by rw [k.lanes l, h.lanes l]
  mine l hl := by
    have hlanes : t.partLanes p = s.partLanes p := by
      simp only [State.partLanes]
      rw [h.part]
    exact (k.mine l (by rw [hlanes]; exact hl)).trans (h.mine l hl)
  cores c := by rw [k.cores c, h.cores c]

theorem issued_postsOnly (s : State) : PostsOnly s.issue.part s s.issued :=
  .of_lanesOnly (issued_frame s) (issued_regs s) (by unfold State.issued; split <;> rfl) (by rw [(issued_frame s).rest])

theorem finish_postsOnly (p : Nat) (s : State) : PostsOnly p s (s.finish p) :=
  .of_lanesOnly (lanesOnly_finish p s) (finish_regs p s) (congrArg State.regPoison (finish_offPlaces p s) :)
    (finish_cmds p s)

/-- An operation in flight is raised, and commands and deferred results are listed (R94, R102). -/
def State.posted (s : State) (p : Nat) (path : Path) (cmds : List Cmd) (defs : List Deferred) (id : Nat) : State :=
  { (s.raiseOp p path).2 with cmds := cmds, defs := defs, nextId := id }

theorem posted_postsOnly (s : State) (p : Nat) (path : Path) (cmds : List Cmd) (defs : List Deferred) (id : Nat) :
    PostsOnly p s (s.posted p path cmds defs id) where
  rest := rfl
  parts := (raiseOp_part s p path).2
  part := by
    have hpart : (s.posted p path cmds defs id).part p
        = { s.part p with ops := ((s.posted p path cmds defs id).part p).ops } := by
      rw [show (s.posted p path cmds defs id).part p = _ from State.part_setPart_self s.takeId.2 p _]
      rfl
    rw [hpart]
  lanes _ := rfl
  mine _ _ := rfl
  cores _ := rfl

/-- A memory instruction that posts: what it answers. -/
theorem issueMem_posts {i : Instr} {s : State} {sectors : Ctx → State → Nat} {eff : Ctx → State → State} {path : Path}
    {cmds : List Cmd} {defs : List Deferred} {id : Nat} (hi : Issues i s) (hs : s.noSampling)
    (hx : exec i s = issueMem i s sectors eff)
    (he : eff (s.opCtx i.hdr) s.issued = s.issued.posted s.issue.part path cmds defs id) :
    ∃ t, exec i s = .next t ∧ PostsOnly s.issue.part s t ∧ RaisesArrival s t path ∧ t.cmds = cmds ∧ t.defs = defs := by
  have hops : ((s.issued.posted s.issue.part path cmds defs id).part s.issue.part).ops
      = s.issPart.ops ++ [{ id := s.nextId, path := path }] := by
    refine (raiseOp_part s.issued s.issue.part path).1.trans ?_
    rw [(issued_frame s).part, issued_nextId]
    rfl
  refine ⟨_, issueMem_ends hi hs hx he (issued_frame s).smpctl_eq, ?_, ?_, finish_cmds .., finish_defs ..⟩
  · exact ((issued_postsOnly s).trans (posted_postsOnly ..)).trans (finish_postsOnly ..)
  · unfold RaisesArrival
    rw [(lanesOnly_finish s.issue.part _).part]
    exact hops

/-- A command that counts at no barrier is listed last. -/
theorem addCmd_listed (s : State) (c : Ctx) (eng : Path) (op : Nat) (lanes : List Nat) (ord : Ord) (sco : Scope) (ca : Cache)
    (body : CmdBody) : ∃ k, s.addCmd c eng op lanes ord sco none ca body = { s.takeId.2 with cmds := s.cmds ++ [k] }
      ∧ k.eng = eng ∧ k.part = c.p ∧ k.lanes = lanes ∧ k.ord = ord ∧ k.sco = sco ∧ k.body = body :=
  ⟨_, rfl, rfl, rfl, rfl, rfl, rfl, rfl⟩

/-! ## The elements -/

section
variable (a b : Reg) (sz : Sz) (iw : IxW) (ixs : Bool) (scl : Scale)

/-- What a gather or scatter does, by its elements: nothing without any, the trap for a misaligned one, or its post. -/
def byElems (post : Ctx → State → State) (c : Ctx) (s : State) : State :=
  if (s.elems c a b iw ixs scl).isEmpty then s
  else if (s.elems c a b iw ixs scl).any fun x => x.2 % Sz.bytes sz ≠ 0 then s.raise c 4 0
  else post c s

/-- The address that a lane's element has at the issue (R124). -/
def State.addrAt (s : State) (h : Hdr) (l : Nat) : Nat := s.issued.elemAddr (s.opCtx h) a b iw ixs scl l

theorem addrAt_eq (s : State) (h : Hdr) (l : Nat) :
    s.addrAt a b iw ixs scl h l = wrap 64 ((((s.opCtx h).ga.head?.elim 0 fun x => s.src64 0 x a : Nat) : Int)
      + (if ixs then sint (ixWidth iw) (if iw = .ix64 then s.src64 2 l b else s.src 2 l b)
          else (((if iw = .ix64 then s.src64 2 l b else s.src 2 l b) % 2 ^ ixWidth iw : Nat) : Int))
        * (scaleFactor scl : Int)) := by
  unfold State.addrAt State.elemAddr
  cases (s.opCtx h).ga.head? <;> rfl

theorem elems_issued (s : State) (i : Instr) :
    s.issued.elems (s.opCtx i.hdr) a b iw ixs scl
      = (s.participantsOf i).map fun l => (l, s.addrAt a b iw ixs scl i.hdr l) := by
  have hown : s.issued.owns (s.opCtx i.hdr) = s.participantsOf i :=
    List.filter_congr fun l _ => by rw [issued_isHelper]; rfl
  unfold State.elems
  rw [hown]
  rfl

variable {a b sz iw ixs scl} {post : Ctx → State → State} {i : Instr} {s : State}

theorem byElems_none (h : s.participantsOf i = []) :
    byElems a b sz iw ixs scl post (s.opCtx i.hdr) s.issued = s.issued := by
  unfold byElems
  rw [elems_issued, h]
  rfl

theorem byElems_misaligned (h : ∃ l ∈ s.participantsOf i, s.addrAt a b iw ixs scl i.hdr l % Sz.bytes sz ≠ 0) :
    byElems a b sz iw ixs scl post (s.opCtx i.hdr) s.issued = s.issued.raise (s.opCtx i.hdr) 4 0 := by
  obtain ⟨l, hl, hm⟩ := h
  have hany : (((s.participantsOf i).map fun l => (l, s.addrAt a b iw ixs scl i.hdr l)).any
      fun x => x.2 % Sz.bytes sz ≠ 0) = true :=
    List.any_eq_true.mpr ⟨_, List.mem_map_of_mem hl, decide_eq_true hm⟩
  have hsome : ((s.participantsOf i).map fun l => (l, s.addrAt a b iw ixs scl i.hdr l)).isEmpty = false := by
    rw [List.isEmpty_map]
    exact List.isEmpty_eq_false_iff.mpr (List.ne_nil_of_mem hl)
  unfold byElems
  rw [elems_issued, hsome, if_neg Bool.false_ne_true, if_pos hany]

theorem byElems_aligned (hsome : s.participantsOf i ≠ [])
    (h : ∀ l ∈ s.participantsOf i, s.addrAt a b iw ixs scl i.hdr l % Sz.bytes sz = 0) :
    byElems a b sz iw ixs scl post (s.opCtx i.hdr) s.issued = post (s.opCtx i.hdr) s.issued := by
  have hany : ¬(((s.participantsOf i).map fun l => (l, s.addrAt a b iw ixs scl i.hdr l)).any
      fun x => x.2 % Sz.bytes sz ≠ 0) = true := by
    simpa using h
  unfold byElems
  rw [elems_issued, if_neg (by simpa using hsome), if_neg hany]

end

/-! ## What a gather posts -/

/-- Words to come are listed for their registers, and nothing else changes (R195). -/
theorem postWords_toCome (s : State) (t l : Nat) (dest : List Nat) (op : Nat) :
    ∃ new id, (s.postWords t l dest none op).2 = { s with defs := s.defs ++ new, nextId := id }
      ∧ new.map Deferred.dst = dest.map fun r => (t, l, r) := by
  obtain ⟨new, id, he, hnew⟩ := deferEach_posts (g := Deferred.dst) (h := fun x : Nat × Nat => (t, l, x.1))
    (mk := fun id x => { id := id, team := t, lane := l, reg := x.1, mask := 0xFFFFFFFF, val := none, poison := false
                         op := op, group := s.takeId.1 })
    (fun _ _ => rfl) dest.zipIdx s.takeId.2
  refine ⟨new, id, he, hnew.trans ?_⟩
  conv_rhs => rw [← List.zipIdx_map_fst 0 dest, List.map_map]
  rfl

/-- Each element posts its words in turn, and the gather keeps the group of each. -/
theorem postElems_posts (t : Nat) (dest : List Nat) (op : Nat) (els : List (Nat × Nat)) (s : State)
    (gs : List (Nat × Nat × Nat)) :
    ∃ new id gs', els.foldl (fun (r : State × List (Nat × Nat × Nat)) x =>
        ((r.1.postWords t x.1 dest none op).2, r.2 ++ [(x.1, x.2, (r.1.postWords t x.1 dest none op).1)])) (s, gs)
          = ({ s with defs := s.defs ++ new, nextId := id }, gs ++ gs')
      ∧ gs'.map (fun x => (x.1, x.2.1)) = els
      ∧ new.map Deferred.dst = els.flatMap fun x => dest.map fun r => (t, x.1, r) := by
  induction els generalizing s gs with
  | nil => exact ⟨[], s.nextId, [], by rw [List.append_nil, List.append_nil]; rfl, rfl, rfl⟩
  | cons x els ih =>
    obtain ⟨n1, id1, hs1, hn1⟩ := postWords_toCome s t x.1 dest op
    obtain ⟨n2, id2, gs2, he, hg2, hn2⟩ := ih (s.postWords t x.1 dest none op).2
      (gs ++ [(x.1, x.2, (s.postWords t x.1 dest none op).1)])
    refine ⟨n1 ++ n2, id2, (x.1, x.2, (s.postWords t x.1 dest none op).1) :: gs2, ?_, ?_, ?_⟩
    · rw [List.foldl_cons, he, hs1]
      simp
    · rw [List.map_cons, hg2]
    · rw [List.map_append, hn1, hn2, List.flatMap_cons]


/-- The bytes of a lane's element, from its address up. -/
def elemBytes (n addr v : Nat) : List (Nat × Byte × Bool) := (List.range n).map fun j => (addr + j, byteOf v j, false)

section
variable {s : State} {h : Hdr} {d a b : Reg} {sco : Scope} {sz : Sz} {iw : IxW} {ixs : Bool} {scl : Scale} {stash : Bool}
  {ord : Ord}

/-- A command of the issuing part for the lanes of its instruction, on path `x` (R123, R124). -/
structure ElemCmd (s : State) (i : Instr) (ord : Ord) (sco : Scope) (k : Cmd) : Prop where
  eng : k.eng = .x
  part : k.part = s.issue.part
  lanes : k.lanes = s.participantsOf i
  ord : k.ord = ord
  sco : k.sco = sco

/-- The command of a gather or scatter, posted after the results of its lanes are listed. -/
theorem addCmd_posted (s : State) (i : Instr) (op : Nat) (ord : Ord) (sco : Scope) (body : CmdBody) (defs : List Deferred)
    (id : Nat) : ∃ k id',
      (State.addCmd { (s.issued.raiseOp s.issue.part .x).2 with defs := defs, nextId := id } (s.opCtx i.hdr) .x op
          ((s.issued.elems (s.opCtx i.hdr) a b iw ixs scl).map (·.1)) ord sco none .keep body)
        = s.issued.posted s.issue.part .x (s.cmds ++ [k]) defs id'
      ∧ ElemCmd s i ord sco k ∧ k.body = body := by
  have hlanes : (s.issued.elems (s.opCtx i.hdr) a b iw ixs scl).map (·.1) = s.participantsOf i := by
    rw [elems_issued, List.map_map]
    exact List.map_id _
  have hcmds : s.issued.cmds = s.cmds := by rw [(issued_frame s).rest]
  obtain ⟨k, he, heng, hpart, hls, hord, hsco, hbody⟩ := addCmd_listed
    { (s.issued.raiseOp s.issue.part .x).2 with defs := defs, nextId := id } (s.opCtx i.hdr) .x op
    ((s.issued.elems (s.opCtx i.hdr) a b iw ixs scl).map (·.1)) ord sco .keep body
  refine ⟨k, id + 1, he.trans ?_, ⟨heng, hpart, hls.trans hlanes, hord, hsco⟩, hbody⟩
  rw [← hcmds]
  rfl

/-- `ldg` posts a gather of its elements, and results to come for each lane. -/
theorem ldg_exec (s : State) : ∃ sectors post,
    exec (.ldg h d a b sco sz iw ixs scl stash ord) s
      = issueMem (.ldg h d a b sco sz iw ixs scl stash ord) s sectors (byElems a b sz iw ixs scl post)
    ∧ ∃ k new id gs, post (s.opCtx h) s.issued
        = s.issued.posted s.issue.part .x (s.cmds ++ [k]) (s.defs ++ new) id
      ∧ ElemCmd s (.ldg h d a b sco sz iw ixs scl stash ord) ord sco k ∧ k.body = .gather stash sz gs
      ∧ gs.map (fun x => (x.1, x.2.1)) = s.issued.elems (s.opCtx h) a b iw ixs scl
      ∧ new.map Deferred.dst = (s.issued.elems (s.opCtx h) a b iw ixs scl).flatMap fun x =>
          (szRegs sz d).map fun r => (s.issTeam, x.1, r) := by
  have hx : exec (.ldg h d a b sco sz iw ixs scl stash ord) s = execLdg h d a b sco sz iw ixs scl stash ord s := rfl
  unfold execLdg at hx
  dsimp only at hx
  refine ⟨_, _, hx, ?_⟩
  obtain ⟨new, id, gs, he, hgs, hnew⟩ := postElems_posts (s.opCtx h).t (szRegs sz d)
    (s.issued.raiseOp (s.opCtx h).p .x).1 (s.issued.elems (s.opCtx h) a b iw ixs scl)
    (s.issued.raiseOp (s.opCtx h).p .x).2 []
  obtain ⟨k, id', hk, hcmd, hbody⟩ := addCmd_posted (a := a) (b := b) (iw := iw) (ixs := ixs) (scl := scl) s
    (.ldg h d a b sco sz iw ixs scl stash ord) (s.issued.raiseOp (s.opCtx h).p .x).1 ord sco (.gather stash sz gs)
    (s.defs ++ new) id
  refine ⟨k, new, id', gs, ?_, hcmd, hbody, hgs, hnew⟩
  rw [he, ← hk, ← issued_defs s]
  rfl

/-- `stg` posts a scatter of the bytes of its lanes' data registers. -/
theorem stg_exec (s : State) : ∃ sectors post,
    exec (.stg h d a b sco sz iw ixs scl stash ord) s
      = issueMem (.stg h d a b sco sz iw ixs scl stash ord) s sectors (byElems a b sz iw ixs scl post)
    ∧ ∃ k id, post (s.opCtx h) s.issued = s.issued.posted s.issue.part .x (s.cmds ++ [k]) s.defs id
      ∧ ElemCmd s (.stg h d a b sco sz iw ixs scl stash ord) ord sco k
      ∧ k.body = .scatter stash (scatterBytes ((s.issued.elems (s.opCtx h) a b iw ixs scl).flatMap fun x =>
          elemBytes (Sz.bytes sz) x.2 (s.issued.rdWords 8 s.issTeam x.1 d (szRegs sz d).length))) [] := by
  have hx : exec (.stg h d a b sco sz iw ixs scl stash ord) s = execStg h d a b sco sz iw ixs scl stash ord s := rfl
  unfold execStg at hx
  dsimp only at hx
  refine ⟨_, _, hx, ?_⟩
  rw [← issued_defs s]
  exact addCmd_posted s (.stg h d a b sco sz iw ixs scl stash ord) (s.issued.raiseOp (s.opCtx h).p .x).1 ord sco
    (.scatter stash _ []) s.issued.defs s.issued.takeId.2.nextId

/-- A gather or scatter acts by its elements, and its post is one command. -/
theorem elems_exec {i : Instr} (s : State)
    (hi : i = .ldg h d a b sco sz iw ixs scl stash ord ∨ i = .stg h d a b sco sz iw ixs scl stash ord) :
    ∃ sectors post, exec i s = issueMem i s sectors (byElems a b sz iw ixs scl post)
      ∧ ∃ k defs id, post (s.opCtx i.hdr) s.issued = s.issued.posted s.issue.part .x (s.cmds ++ [k]) defs id
        ∧ ElemCmd s i ord sco k
        ∧ (i = .ldg h d a b sco sz iw ixs scl stash ord → ∃ gs, k.body = .gather stash sz gs
            ∧ gs.map (fun x => (x.1, x.2.1)) = s.issued.elems (s.opCtx i.hdr) a b iw ixs scl
            ∧ defs.map Deferred.dst = s.defs.map Deferred.dst ++ (s.issued.elems (s.opCtx i.hdr) a b iw ixs scl).flatMap
                fun x => (szRegs sz d).map fun r => (s.issTeam, x.1, r))
        ∧ (i = .stg h d a b sco sz iw ixs scl stash ord → defs = s.defs
            ∧ k.body = .scatter stash (scatterBytes ((s.issued.elems (s.opCtx i.hdr) a b iw ixs scl).flatMap fun x =>
                elemBytes (Sz.bytes sz) x.2 (s.issued.rdWords 8 s.issTeam x.1 d (szRegs sz d).length))) []) := by
  obtain rfl | rfl := hi
  · obtain ⟨sectors, post, hx, k, new, id, gs, hpost, hcmd, hbody, hgs, hnew⟩ := ldg_exec (h := h) (d := d) (a := a) (b := b)
      (sco := sco) (sz := sz) (iw := iw) (ixs := ixs) (scl := scl) (stash := stash) (ord := ord) s
    exact ⟨sectors, post, hx, k, _, id, hpost, hcmd, fun _ => ⟨gs, hbody, hgs, by rw [List.map_append, hnew]; rfl⟩, nofun⟩
  · obtain ⟨sectors, post, hx, k, id, hpost, hcmd, hbody⟩ := stg_exec (h := h) (d := d) (a := a) (b := b)
      (sco := sco) (sz := sz) (iw := iw) (ixs := ixs) (scl := scl) (stash := stash) (ord := ord) s
    exact ⟨sectors, post, hx, k, _, id, hpost, hcmd, nofun, fun _ => ⟨rfl, hbody⟩⟩

end

/-! ## The bytes of a scatter -/

theorem scatterBytes_concat (ws : List (Nat × Byte × Bool)) (x : Nat × Byte × Bool) :
    scatterBytes (ws ++ [x]) = (scatterBytes ws).filter (fun y => y.1 ≠ x.1) ++ [x] :=
  List.foldl_concat ..

/-- Of bytes written after others, the later ones stay where both have one (R124). -/
theorem mem_scatterBytes_append (ws xs : List (Nat × Byte × Bool)) (z : Nat × Byte × Bool) :
    z ∈ scatterBytes (ws ++ xs) ↔ z ∈ scatterBytes xs ∨ (z ∈ scatterBytes ws ∧ ∀ x ∈ xs, x.1 ≠ z.1) := by
  induction xs using List.reverseRecOn with
  | nil => simp [scatterBytes]
  | append_singleton xs x ih =>
    rw [← List.append_assoc, scatterBytes_concat, scatterBytes_concat]
    simp only [List.mem_append, List.mem_filter, List.mem_singleton, decide_eq_true_eq, ih, or_imp, forall_and, forall_eq]
    tauto

/-- Bytes with places of their own all stay. -/
theorem mem_scatterBytes_of_nodup {xs : List (Nat × Byte × Bool)} (h : (xs.map (·.1)).Nodup) (z : Nat × Byte × Bool) :
    z ∈ scatterBytes xs ↔ z ∈ xs := by
  induction xs with
  | nil => rfl
  | cons x xs ih =>
    obtain ⟨hx, hxs⟩ := List.nodup_cons.mp h
    rw [← List.singleton_append, mem_scatterBytes_append, ih hxs, List.mem_append]
    have hone : z ∈ scatterBytes [x] ↔ z = x := List.mem_singleton
    rw [hone, List.mem_singleton]
    refine ⟨fun h => h.symm.imp_left And.left, fun h => h.symm.imp_right fun e => ⟨e, ?_⟩⟩
    rintro y hy hk
    rw [e] at hk
    exact hx (List.mem_map.mpr ⟨y, hy, hk⟩)

/-- Of lanes' bytes, those of the last lane that writes a place stay (R124). -/
theorem mem_scatterBytes_flatMap {α : Type} {f : α → List (Nat × Byte × Bool)} (hf : ∀ l, ((f l).map (·.1)).Nodup)
    (ls : List α) (z : Nat × Byte × Bool) :
    z ∈ scatterBytes (ls.flatMap f) ↔ ∃ us l vs, ls = us ++ l :: vs ∧ z ∈ f l ∧ ∀ m ∈ vs, ∀ x ∈ f m, x.1 ≠ z.1 := by
  induction ls with
  | nil => simp [scatterBytes]
  | cons l ls ih =>
    rw [List.flatMap_cons, mem_scatterBytes_append, ih, mem_scatterBytes_of_nodup (hf l)]
    constructor
    · rintro (⟨us, m, vs, rfl, hz, hlast⟩ | ⟨hz, hlast⟩)
      · exact ⟨l :: us, m, vs, rfl, hz, hlast⟩
      · exact ⟨[], l, ls, rfl, hz, fun m hm x hx => hlast x (List.mem_flatMap.mpr ⟨m, hm, hx⟩)⟩
    · rintro ⟨us, m, vs, he, hz, hlast⟩
      obtain ⟨rfl, he⟩ | ⟨us, rfl, rfl⟩ := List.cons_eq_append_iff.mp he
      · obtain ⟨rfl, rfl⟩ := List.cons.inj he
        refine .inr ⟨hz, fun x hx => ?_⟩
        obtain ⟨m, hm, hx⟩ := List.mem_flatMap.mp hx
        exact hlast m hm x hx
      · exact .inl ⟨us, m, vs, rfl, hz, hlast⟩

theorem elemBytes_nodup (n addr v : Nat) : ((elemBytes n addr v).map (·.1)).Nodup := by
  unfold elemBytes
  rw [List.map_map]
  exact List.nodup_range.map fun _ _ h => Nat.add_left_cancel h

theorem mem_elemBytes {n addr v x : Nat} {y : Byte} {p : Bool} :
    (x, y, p) ∈ elemBytes n addr v ↔ p = false ∧ ∃ j, j < n ∧ x = addr + j ∧ y = byteOf v j := by
  unfold elemBytes
  simp only [List.mem_map, List.mem_range, Prod.mk.injEq]
  constructor
  · rintro ⟨j, hj, rfl, rfl, rfl⟩
    exact ⟨rfl, j, hj, rfl, rfl⟩
  · rintro ⟨rfl, j, hj, rfl, rfl⟩
    exact ⟨j, hj, rfl, rfl, rfl⟩

/-- An element has no byte at a place outside it. -/
theorem elemBytes_outside {n addr v x : Nat} :
    (∀ z ∈ elemBytes n addr v, z.1 ≠ x) ↔ (x < addr ∨ addr + n ≤ x) := by
  unfold elemBytes
  simp only [List.forall_mem_map, List.mem_range]
  refine ⟨fun h => ?_, fun h j hj => by omega⟩
  by_contra hn
  exact h (x - addr) (by omega) (by omega)

/-- What a scatter writes at a place (R124). -/
theorem mem_scatterBytes_elems (n : Nat) (addr v : Nat → Nat) (ls : List Nat) (x : Nat) (y : Byte) (p : Bool) :
    (x, y, p) ∈ scatterBytes (ls.flatMap fun l => elemBytes n (addr l) (v l)) ↔ p = false ∧ ∃ us l vs, ls = us ++ l :: vs
      ∧ ∃ j, j < n ∧ x = addr l + j ∧ y = byteOf (v l) j ∧ ∀ m ∈ vs, x < addr m ∨ addr m + n ≤ x := by
  rw [mem_scatterBytes_flatMap fun l => elemBytes_nodup ..]
  simp only [mem_elemBytes, elemBytes_outside]
  constructor
  · rintro ⟨us, l, vs, hls, ⟨hp, j, hj, hx, hy⟩, hlast⟩
    exact ⟨hp, us, l, vs, hls, j, hj, hx, hy, hlast⟩
  · rintro ⟨hp, us, l, vs, hls, j, hj, hx, hy, hlast⟩
    exact ⟨us, l, vs, hls, ⟨hp, j, hj, hx, hy⟩, hlast⟩

end Sys2Proof.Machine

open Sys2Proof Sys2Proof.Machine

/-- Settles O32: a gather and a scatter pass, trap or post by their elements alone, and of a scatter's bytes the last lane's
stay. -/
theorem gatherAndScatter : Obligations.GatherAndScatter := by
  unfold Obligations.GatherAndScatter
  intro s h d a b sco sz iw ixs scl stash ord i hi hiss hs index addr lanes data
  have haddr : ∀ l, s.addrAt a b iw ixs scl i.hdr l = addr l := fun l => (addrAt_eq ..).trans rfl
  have helems : s.issued.elems (s.opCtx i.hdr) a b iw ixs scl = lanes.map fun l => (l, addr l) := by
    rw [elems_issued]
    exact List.map_congr_left fun l _ => by rw [haddr]
  obtain ⟨sectors, post, hx, k, defs, id, hpost, hcmd, hgather, hscatter⟩ := elems_exec s hi
  rw [helems] at hgather hscatter
  refine ⟨fun hnone => issueMem_idle hiss hs hx (byElems_none hnone), fun hsome hal => ?_, fun ⟨l, hl, hmis⟩ hlevel ht => ?_⟩
  · obtain ⟨t, ht, hframe, hraise, hcmds, hdefs⟩ := issueMem_posts hiss hs hx
      ((byElems_aligned hsome fun l hl => by rw [haddr]; exact hal l hl).trans hpost)
    refine ⟨t, k, ht, hframe, hcmds, hraise, hcmd.eng, hcmd.part, hcmd.lanes, hcmd.ord, hcmd.sco, fun e => ?_, fun e => ?_⟩
    · obtain ⟨gs, hbody, hgs, hnew⟩ := hgather e
      rw [List.flatMap_map] at hnew
      exact ⟨gs, hbody, hgs, by rw [hdefs]; exact hnew⟩
    · obtain ⟨hsame, hbody⟩ := hscatter e
      rw [List.flatMap_map] at hbody
      exact ⟨hdefs.trans hsame, _, hbody, mem_scatterBytes_elems (Sz.bytes sz) addr data lanes⟩
  · exact issueMem_traps hiss hx (byElems_misaligned ⟨l, hl, by rw [haddr]; exact hmis⟩) hlevel ht (by decide) (by decide)
end

section
/-! Stash ranges, flush and drop (R57 to R65, R127 to R129): what cleaning, retiring and discarding sectors of a stash does to
the stash and to memory, and the four instructions that do so. -/

namespace Sys2Proof.Machine

/-! ## The sectors of one stash -/

/-- A sector of a block's stash. -/
def State.sec (s : State) (b k : Nat) : Sector := (s.block b).secs.get {} k

/-- The blocks but for the sectors of block `b`. -/
def State.besides (s : State) (b q : Nat) : Block := if q = b then { s.block q with secs := [] } else s.block q

theorem besides_block {s t : State} {b : Nat} (h : t.besides b = s.besides b) {q : Nat} (hq : q ≠ b) :
    t.block q = s.block q := by
  have hb := congrFun h q
  unfold State.besides at hb
  rwa [if_neg hq, if_neg hq] at hb

theorem besides_ranges {s t : State} {b : Nat} (h : t.besides b = s.besides b) :
    (t.block b).ranges = (s.block b).ranges := by
  have hb := congrFun h b
  unfold State.besides at hb
  rw [if_pos rfl, if_pos rfl] at hb
  exact (congrArg Block.ranges hb :)

theorem block_of_holders {s t : State} (h : t.holders = s.holders) (q : Nat) : t.block q = s.block q :=
  (congrArg (fun x : FMap Block × FMap Nat => FMap.get {} x.1 q) h :)

theorem sec_of_holders {s t : State} (h : t.holders = s.holders) (b : Nat) : t.sec b = s.sec b := by
  unfold State.sec
  rw [block_of_holders h]

theorem besides_of_holders {s t : State} (h : t.holders = s.holders) (b : Nat) : t.besides b = s.besides b := by
  funext q
  unfold State.besides
  rw [block_of_holders h]

theorem setSec_sec (s : State) (b k : Nat) (x : Sector) : (s.setSec b k x).sec b = Function.update (s.sec b) k x := by
  funext j
  unfold State.sec State.setSec
  rw [State.modBlock_eq, State.block_setBlock_self, FMap.get_set, Function.update_apply]

theorem setSec_besides (s : State) (b k : Nat) (x : Sector) : (s.setSec b k x).besides b = s.besides b := by
  funext q
  unfold State.besides State.setSec
  rw [State.modBlock_eq]
  split
  · next h => rw [h, State.block_setBlock_self]
  · next h => rw [State.block_setBlock_ne _ _ _ _ h]

/-! ## One sector -/

/-- A sector has no dirty byte at an address. -/
def Sector.Spares (x : Sector) (y : Nat) : Prop :=
  x.st = .dirty → y < x.pa ∨ x.pa + 64 ≤ y ∨ bit x.dirty (y - x.pa) = false

/-- What a sector is once its dirty bytes are written back (R64). -/
def Sector.cleaned (x : Sector) : Sector := if x.st = .dirty then { x with st := .owned, dirty := 0 } else x

/-- A step on one sector of stash `b` at a time: the sector becomes what `g` says, and no other changes. -/
structure StashStep (b : Nat) (g : Sector → Sector) (f : State → Nat → State) : Prop where
  sec : ∀ s k, (f s k).sec b = Function.update (s.sec b) k (g (s.sec b k))
  besides : ∀ s k, (f s k).besides b = s.besides b
  idem : ∀ x, g (g x) = g x

/-- A step that writes the dirty bytes of its sector to memory, and no others. -/
structure WritesBack (b : Nat) (g : Sector → Sector) (f : State → Nat → State) : Prop extends StashStep b g f where
  spared : ∀ s k y, (s.sec b k).Spares y → (f s k).memByte y = s.memByte y
  written : ∀ s k j, (s.sec b k).st = .dirty → j < 64 → bit (s.sec b k).dirty j = true →
    (f s k).memByte ((s.sec b k).pa + j) = byteOf (s.sec b k).data j
  clean : ∀ x, (g x).st ≠ .dirty

theorem Sector.cleaned_st (x : Sector) : x.cleaned.st ≠ .dirty := by
  unfold Sector.cleaned
  split
  · nofun
  · assumption

theorem writeBack_holders (s : State) (x : Sector) : (s.writeBack x).holders = s.holders := putBytes_holders ..

theorem writeBack_spared {s : State} {x : Sector} (hx : x.st = .dirty) {y : Nat} (h : x.Spares y) :
    (s.writeBack x).memByte y = s.memByte y := by
  by_cases hout : y < x.pa ∨ x.pa + 64 ≤ y
  · exact putBytes_outside _ _ _ _ _ _ _ hout
  · obtain ⟨j, rfl⟩ := Nat.exists_eq_add_of_le (show x.pa ≤ y by omega)
    have hbit : bit x.dirty j = false := by
      obtain h | h | h := h hx
      · omega
      · omega
      · rwa [Nat.add_sub_cancel_left] at h
    have hin := putBytes_inside s x.pa 64 x.data x.dirty x.poison j (by omega)
    rw [hbit] at hin
    exact hin

theorem writeBack_written (s : State) (x : Sector) {j : Nat} (hj : j < 64) (hb : bit x.dirty j = true) :
    (s.writeBack x).memByte (x.pa + j) = byteOf x.data j :=
  (putBytes_inside s x.pa 64 x.data x.dirty x.poison j hj).trans (if_pos hb)

theorem cleanSec_dirty {s : State} {b k : Nat} (h : (s.sec b k).st = .dirty) :
    s.cleanSec b k = (s.writeBack (s.sec b k)).setSec b k (s.sec b k).cleaned := by
  unfold Sector.cleaned
  rw [if_pos h]
  exact if_pos h

theorem cleanSec_clean {s : State} {b k : Nat} (h : (s.sec b k).st ≠ .dirty) : s.cleanSec b k = s := if_neg h

theorem cleanSec_writesBack (b : Nat) : WritesBack b Sector.cleaned fun s k => s.cleanSec b k where
  sec s k := by
    by_cases h : (s.sec b k).st = .dirty
    · rw [cleanSec_dirty h, setSec_sec, sec_of_holders (writeBack_holders ..)]
    · rw [cleanSec_clean h, Sector.cleaned, if_neg h, Function.update_eq_self]
  besides s k := by
    by_cases h : (s.sec b k).st = .dirty
    · rw [cleanSec_dirty h, setSec_besides, besides_of_holders (writeBack_holders ..)]
    · rw [cleanSec_clean h]
  idem x := if_neg x.cleaned_st
  spared s k y hy := by
    by_cases h : (s.sec b k).st = .dirty
    · rw [cleanSec_dirty h]
      exact writeBack_spared h hy
    · rw [cleanSec_clean h]
  written s k j h hj hb := by
    rw [cleanSec_dirty h]
    exact writeBack_written s _ hj hb
  clean := Sector.cleaned_st

theorem dropSec_holders (s : State) (b k : Nat) : ∃ o, (s.dropSec b k).holders = ((s.setSec b k {}).blocks, o) := by
  unfold State.dropSec
  dsimp only
  split
  · exact ⟨_, setHome_holders ..⟩
  · exact ⟨_, rfl⟩

theorem dropSec_stashStep (b : Nat) : StashStep b (fun _ => {}) fun s k => s.dropSec b k where
  sec s k := by
    obtain ⟨o, h⟩ := dropSec_holders s b k
    exact (sec_of_holders (s := { s.setSec b k {} with owners := o }) h b).trans (setSec_sec ..)
  besides s k := by
    obtain ⟨o, h⟩ := dropSec_holders s b k
    exact (besides_of_holders (s := { s.setSec b k {} with owners := o }) h b).trans (setSec_besides ..)
  idem _ := rfl

theorem dropSec_mem (s : State) (b k : Nat) : (s.dropSec b k).mem = s.mem := by
  unfold State.dropSec
  dsimp only
  split
  · exact setHome_mem ..
  · rfl

theorem retireSec_writesBack (b : Nat) : WritesBack b (fun _ => {}) fun s k => s.retireSec b k where
  sec s k := by
    rw [State.retireSec, (dropSec_stashStep b).sec, (cleanSec_writesBack b).sec, Function.update_idem]
  besides s k := ((dropSec_stashStep b).besides ..).trans ((cleanSec_writesBack b).besides ..)
  idem _ := rfl
  spared s k y hy := (memByte_of_mem (dropSec_mem ..) y).trans ((cleanSec_writesBack b).spared s k y hy)
  written s k j h hj hb := (memByte_of_mem (dropSec_mem ..) _).trans ((cleanSec_writesBack b).written s k j h hj hb)
  clean _ := nofun

/-! ## Sectors one after the other -/

section
variable {b : Nat} {g : Sector → Sector} {f : State → Nat → State}

theorem StashStep.foldl_besides (h : StashStep b g f) (ks : List Nat) (s : State) :
    (ks.foldl f s).besides b = s.besides b := foldl_keeps (State.besides · b) f h.besides ks s

theorem StashStep.foldl_sec (h : StashStep b g f) (ks : List Nat) (s : State) (x : Nat) :
    (ks.foldl f s).sec b x = if x ∈ ks then g (s.sec b x) else s.sec b x := by
  induction ks generalizing s with
  | nil => simp
  | cons k ks ih =>
    rw [List.foldl_cons, ih, h.sec, Function.update_apply]
    by_cases hx : x = k
    · subst hx
      simp [h.idem]
    · simp [hx]

/-- What has no dirty byte at an address still has none after a step. -/
theorem WritesBack.spares_step (h : WritesBack b g f) (s : State) (k : Nat) {x y : Nat} (hx : x ≠ k → (s.sec b x).Spares y) :
    ((f s k).sec b x).Spares y := by
  rw [h.sec, Function.update_apply]
  split
  · exact fun hd => absurd hd (h.clean _)
  · next hne => exact hx hne

theorem WritesBack.foldl_spared (h : WritesBack b g f) {y : Nat} (ks : List Nat) (s : State)
    (hy : ∀ k ∈ ks, (s.sec b k).Spares y) : (ks.foldl f s).memByte y = s.memByte y := by
  induction ks generalizing s with
  | nil => rfl
  | cons k ks ih =>
    have hks : ∀ x ∈ ks, ((f s k).sec b x).Spares y := fun x hx =>
      h.spares_step s k fun _ => hy x (List.mem_cons_of_mem _ hx)
    exact (ih _ hks).trans (h.spared s k y (hy k List.mem_cons_self))

/-- A dirty byte that no other of the sectors has reaches memory. -/
theorem WritesBack.foldl_written (h : WritesBack b g f) {x j : Nat} (hj : j < 64) (ks : List Nat) (s : State) (hx : x ∈ ks)
    (hd : (s.sec b x).st = .dirty) (hb : bit (s.sec b x).dirty j = true)
    (ho : ∀ k ∈ ks, k ≠ x → (s.sec b k).Spares ((s.sec b x).pa + j)) :
    (ks.foldl f s).memByte ((s.sec b x).pa + j) = byteOf (s.sec b x).data j := by
  induction ks generalizing s with
  | nil => cases hx
  | cons k ks ih =>
    by_cases hk : x = k
    · subst hk
      refine (h.foldl_spared ks (f s x) fun k hk => h.spares_step s x (ho k (List.mem_cons_of_mem _ hk))).trans ?_
      exact h.written s x j hd hj hb
    · have hsame : (f s k).sec b x = s.sec b x := by rw [h.sec, Function.update_of_ne hk]
      have ih' := ih (f s k) ((List.mem_cons.mp hx).resolve_left hk)
      rw [hsame] at ih'
      exact ih' hd hb fun y hy hne => h.spares_step s k fun _ => ho y (List.mem_cons_of_mem _ hy) hne

/-- What a walk that writes back has done to stash `k` and to memory: each of its sectors has become what `g` says, and its
dirty bytes are in memory where no other of them has a byte. -/
structure WroteBack (s u : State) (k : Nat) (g : Sector → Sector) (ks : List Nat) : Prop where
  block : ∀ q, q ≠ k → u.block q = s.block q
  sec : ∀ x, u.sec k x = if x ∈ ks then g (s.sec k x) else s.sec k x
  written : ∀ x ∈ ks, (s.sec k x).st = .dirty →
    (∀ y ∈ ks, y ≠ x → (s.sec k y).pa + 64 ≤ (s.sec k x).pa ∨ (s.sec k x).pa + 64 ≤ (s.sec k y).pa) →
    ∀ j, j < 64 → bit (s.sec k x).dirty j = true → u.memByte ((s.sec k x).pa + j) = byteOf (s.sec k x).data j
  spared : ∀ y, (∀ x ∈ ks, (s.sec k x).Spares y) → u.memByte y = s.memByte y

theorem WritesBack.foldl_wroteBack (h : WritesBack b g f) (ks : List Nat) (s : State) :
    WroteBack s (ks.foldl f s) b g ks where
  block _ hq := besides_block (h.foldl_besides ks s) hq
  sec x := h.foldl_sec ks s x
  written _ hx hd ho _ hj hb := h.foldl_written hj ks s hx hd hb fun k hk hne _ => by
    have hapart := ho k hk hne
    omega
  spared _ hy := h.foldl_spared ks s hy

end

/-! ## Discarding -/

/-- What giving up sectors and taking a time keep, discarding keeps of what the drops leave. -/
theorem discard_keeps {β : Type} {g : State → β} (hh : ∀ s sec h, g (State.setHome s sec h) = g s)
    (hn : ∀ s num sec t, g (State.noteStore s num sec t) = g s) (hc : ∀ s core t, g (State.raiseClock s core t) = g s)
    (s : State) (w : Who) (b : Nat) (ks : List Nat) :
    g (s.discard w b ks) = g (ks.foldl (fun s k => s.dropSec b k) s) := by
  unfold State.discard
  dsimp only
  split
  · rfl
  · rw [hc]
    exact foldl_keeps g _ (fun s k => by rw [hn, hh]) _ _

theorem discard_holders (s : State) (w : Who) (b : Nat) (ks : List Nat) :
    (s.discard w b ks).holders = (ks.foldl (fun s k => s.dropSec b k) s).holders :=
  discard_keeps setHome_holders (fun _ _ _ _ => rfl) (fun _ _ _ => rfl) s w b ks

theorem discard_mem (s : State) (w : Who) (b : Nat) (ks : List Nat) : (s.discard w b ks).mem = s.mem :=
  (discard_keeps (g := State.mem) setHome_mem noteStore_mem raiseClock_mem s w b ks).trans
    (foldl_keeps State.mem _ (fun s k => dropSec_mem s b k) ks s)

theorem apart_of_offHome {s t : State} (h : t.offHome = s.offHome) : t.apart = s.apart :=
  (congrArg (fun x : State × (Nat → List Tlb) => x.1.apart) h :)

theorem discard_apart (s : State) (w : Who) (b : Nat) (ks : List Nat) : (s.discard w b ks).apart = s.apart :=
  (discard_keeps setHome_apart noteStore_apart raiseClock_apart s w b ks).trans
    (foldl_keeps State.apart _ (fun s k => apart_of_offHome (dropSec_offHome s b k)) ks s)

/-- A running maximum is no less than where it starts and than each of its terms. -/
theorem le_foldl_max {α : Type} (g : α → Nat) (xs : List α) (m : Nat) :
    m ≤ xs.foldl (fun t x => max t (g x)) m ∧ ∀ x ∈ xs, g x ≤ xs.foldl (fun t x => max t (g x)) m := by
  induction xs generalizing m with
  | nil => exact ⟨le_rfl, nofun⟩
  | cons x xs ih =>
    obtain ⟨hm, hxs⟩ := ih (max m (g x))
    rw [List.foldl_cons, List.forall_mem_cons]
    exact ⟨(le_max_left ..).trans hm, (le_max_right ..).trans hm, hxs⟩

/-- The core's clock passes the leases of the dirty sectors that it discards (R65). -/
theorem discard_clock (s : State) (w : Who) {b x : Nat} {ks : List Nat} (hx : x ∈ ks) (hd : (s.sec b x).st = .dirty) :
    (s.sec b x).rts < ((s.discard w b ks).core w.core).clock := by
  have hmem : x ∈ ks.filter fun k => (s.sec b k).st = .dirty := List.mem_filter.mpr ⟨hx, decide_eq_true hd⟩
  have hsome : ¬(ks.filter fun k => (s.sec b k).st = .dirty).isEmpty = true := by
    rw [List.isEmpty_iff]
    exact List.ne_nil_of_mem hmem
  have hmax := (le_foldl_max (fun k => (s.sec b k).rts + 1) (ks.filter fun k => (s.sec b k).st = .dirty)
    (s.core w.core).clock).2 x hmem
  obtain ⟨u, hu⟩ : ∃ u, s.discard w b ks = State.raiseClock u w.core ((ks.filter fun k => (s.sec b k).st = .dirty).foldl
      (fun t k => max t ((s.sec b k).rts + 1)) (s.core w.core).clock) := ⟨_, if_neg hsome⟩
  rw [hu, State.raiseClock, modCore_core_self]
  exact hmax.trans (le_max_right ..)

/-! ## What the instructions leave alone -/

theorem issued_block (s : State) (q : Nat) : s.issued.block q = s.block q := by
  rw [(issued_frame s).rest]
  rfl

theorem issued_img (s : State) (t : Nat) : s.issued.img t = s.img t := by
  rw [(issued_frame s).rest]
  rfl

theorem issued_memByte (s : State) (y : Nat) : s.issued.memByte y = s.memByte y := memByte_of_mem (issued_mem s) y

section
variable {p : Nat} {s t : State} (h : LanesOnly p s t)
include h

theorem LanesOnly.block_eq (q : Nat) : t.block q = s.block q := by
  rw [h.rest]
  rfl

theorem LanesOnly.memByte_eq (y : Nat) : t.memByte y = s.memByte y := memByte_of_mem h.mem_eq y

theorem LanesOnly.memPoison_eq : t.memPoison = s.memPoison := by rw [h.rest]

theorem LanesOnly.blocks_eq : t.blocks = s.blocks := by rw [h.rest]

/-- The frame from a state that has memory and stashes of the second already. -/
theorem LanesOnly.withStash (m : FMap Byte) (mp : FMap Bool) (b : FMap Block) :
    LanesOnly p { s with mem := m, memPoison := mp, blocks := b } { t with mem := m, memPoison := mp, blocks := b } where
  rest := (congrArg (fun x : State => { x with mem := m, memPoison := mp, blocks := b }) h.rest :)
  parts := h.parts
  part := h.part
  lanes := h.lanes
  mine := h.mine
  cores := h.cores

end

theorem issued_sec (s : State) (b : Nat) : s.issued.sec b = s.sec b := by
  unfold State.sec
  rw [issued_block]

section
variable {s u : State} {k : Nat} {g : Sector → Sector} {ks : List Nat}

theorem WroteBack.of_issued (h : WroteBack s.issued u k g ks) : WroteBack s u k g ks := by
  obtain ⟨hblock, hsec, hwritten, hspared⟩ := h
  rw [issued_sec] at hsec hwritten hspared
  exact ⟨fun q hq => (hblock q hq).trans (issued_block ..), hsec, hwritten,
    fun y hy => (hspared y hy).trans (issued_memByte ..)⟩

/-- Nothing of it is lost where only registers and places change after it. -/
theorem WroteBack.ends (h : WroteBack s u k g ks) {p : Nat} {t : State} (ht : LanesOnly p u t) : WroteBack s t k g ks where
  block q hq := (ht.block_eq q).trans (h.block q hq)
  sec x := by
    refine Eq.trans ?_ (h.sec x)
    unfold State.sec
    rw [ht.block_eq]
  written x hx hd ho j hj hb := (ht.memByte_eq _).trans (h.written x hx hd ho j hj hb)
  spared y hy := (ht.memByte_eq y).trans (h.spared y hy)

end

/-- What discarding sectors of stash `b` leaves of the stash, of memory and of a core's clock (R65, R129). -/
structure Discarded (s u : State) (core b : Nat) (ks : List Nat) : Prop where
  regs : u.regs = s.regs
  defs : u.defs = s.defs
  smpctl : u.smpctl = s.smpctl
  mem : u.mem = s.mem
  block : ∀ q, q ≠ b → u.block q = s.block q
  sec : ∀ x, u.sec b x = if x ∈ ks then {} else s.sec b x
  clock : ∀ x ∈ ks, (s.sec b x).st = .dirty → (s.sec b x).rts < (u.core core).clock

theorem discard_discarded (s : State) (w : Who) (b : Nat) (ks : List Nat) :
    Discarded s (s.discard w b ks) w.core b ks := by
  have happ := discard_apart s w b ks
  have hheld := discard_holders s w b ks
  have hbesides := (dropSec_stashStep b).foldl_besides ks s
  have hsec := (dropSec_stashStep b).foldl_sec ks s
  rw [← besides_of_holders hheld] at hbesides
  rw [← sec_of_holders hheld] at hsec
  exact ⟨apart_regs happ, apart_defs happ, apart_smpctl happ, discard_mem .., fun q hq => besides_block hbesides hq, hsec,
    fun x hx hd => discard_clock s w hx hd⟩

theorem Discarded.of_issued {s u : State} {core b : Nat} {ks : List Nat} (h : Discarded s.issued u core b ks) :
    Discarded s u core b ks := by
  obtain ⟨hregs, hdefs, hsmpctl, hmem, hblock, hsec, hclock⟩ := h
  rw [issued_sec] at hsec hclock
  exact ⟨hregs.trans (issued_regs s), hdefs.trans (issued_defs s), hsmpctl.trans (issued_frame s).smpctl_eq,
    hmem.trans (issued_mem s), fun q hq => (hblock q hq).trans (issued_block ..), hsec, hclock⟩

/-- The state without memory and blocks. -/
def State.offStash (s : State) : State := { s with mem := [], memPoison := [], blocks := [] }

/-- The frame of an instruction that changes memory and stashes at its issue, and then registers of its lanes. -/
theorem lanesOnly_aroundStash {s u t : State} (hu : u.offStash = s.issued.offStash) (h : LanesOnly s.issue.part u t) :
    LanesOnly s.issue.part { s with mem := t.mem, memPoison := t.memPoison, blocks := t.blocks } t := by
  have hstash : u = { s.issued with mem := u.mem, memPoison := u.memPoison, blocks := u.blocks } :=
    congrArg (fun x : State => { x with mem := u.mem, memPoison := u.memPoison, blocks := u.blocks }) hu
  have hissue := (issued_frame s).withStash u.mem u.memPoison u.blocks
  rw [← hstash] at hissue
  rw [h.mem_eq, h.memPoison_eq, h.blocks_eq]
  exact hissue.trans h

theorem cleanSec_offStash (s : State) (b k : Nat) : (s.cleanSec b k).offStash = s.offStash := by
  by_cases h : (s.sec b k).st = .dirty
  · rw [cleanSec_dirty h]
    exact foldl_keeps State.offStash _ (fun s i => by split <;> rfl) _ _
  · rw [cleanSec_clean h]

/-! ## Status words -/

theorem status_get (s : State) (c : Ctx) (d v y : Nat) : (s.status c d v).regs.get 0 y
    = if ∃ l ∈ c.ga, y = regKey c.t l d then BitVec.ofNat 32 v else s.regs.get 0 y := by
  unfold State.status eachLane
  generalize c.ga = ls
  induction ls generalizing s with
  | nil => simp
  | cons l ls ih =>
    rw [List.foldl_cons, ih, wr_get]
    by_cases hy : ∃ l ∈ ls, y = regKey c.t l d
    · obtain ⟨x, hx, hy⟩ := hy
      rw [if_pos ⟨x, hx, hy⟩, if_pos ⟨x, List.mem_cons_of_mem _ hx, hy⟩]
    · rw [if_neg hy]
      simp only [List.exists_mem_cons_iff, or_iff_left hy]

theorem lanesOnly_status (p : Nat) (c : Ctx) (d v : Nat) (s : State) : LanesOnly p s (s.status c d v) :=
  .foldl _ (fun s l => lanesOnly_wr p c.t l d v s) c.ga s

theorem lanesOnly_answer (p : Nat) (c : Ctx) (d v : Nat) (s : State) : LanesOnly p s ((s.status c d v).finish p) :=
  (lanesOnly_status ..).trans (lanesOnly_finish ..)

/-- Every acting lane holds the status, and no other register and no block but one has changed. -/
theorem status_answers {i : Instr} {s u : State} {d : Reg} {v k : Nat} (hv : v < 2 ^ 32) (hu : u.regs = s.regs)
    (hb : ∀ q, q ≠ k → u.block q = s.block q) :
    (∀ x ∈ s.actors i, ((u.status (s.opCtx i.hdr) d v).finish s.issue.part).reg s.issTeam x d = v)
      ∧ (∀ y, (∀ x ∈ s.actors i, y ≠ regKey s.issTeam x d) →
          ((u.status (s.opCtx i.hdr) d v).finish s.issue.part).regs.get 0 y = s.regs.get 0 y)
      ∧ ∀ q, q ≠ k → ((u.status (s.opCtx i.hdr) d v).finish s.issue.part).block q = s.block q := by
  refine ⟨fun x hx => ?_, fun y hy => ?_, fun q hq => ((lanesOnly_answer ..).block_eq q).trans (hb q hq)⟩
  · unfold State.reg
    rw [finish_regs, status_get, if_pos ⟨x, hx, rfl⟩, BitVec.toNat_ofNat, Nat.mod_eq_of_lt hv]
  · rw [finish_regs, status_get, if_neg fun ⟨x, hx, he⟩ => hy x hx he, hu]

/-! ## Creating a range -/

theorem get_below {α : Type} (d : α) (m : FMap α) (n o : Nat) :
    FMap.get d (below m n) o = if o < n then FMap.get d m o else d := by
  induction m with
  | nil => exact (ite_self d).symm
  | cons c m ih =>
    obtain ⟨j, v⟩ := c
    have hcons : below ((j, v) :: m) n = if j < n then (j, v) :: below m n else below m n := by
      unfold below
      rw [List.filter_cons]
      simp only [decide_eq_true_eq]
    rw [hcons, FMap.get_cons]
    by_cases hj : j < n
    · rw [if_pos hj, FMap.get_cons, ih]
      by_cases ho : o = j
      · rw [if_pos ho, if_pos ho, if_pos (ho ▸ hj)]
      · rw [if_neg ho, if_neg ho]
    · rw [if_neg hj, ih]
      by_cases ho : o < n
      · rw [if_pos ho, if_pos ho, if_neg (by omega)]
      · rw [if_neg ho, if_neg ho]

/-- The statuses of `smap` are the few of its table (R127). -/
theorem smapStatus_lt (x : Block) (stash base len win : Nat) : smapStatus x stash base len win < 2 ^ 32 := by
  unfold smapStatus
  repeat' split
  all_goals omega

/-- A new range is the last of its block, and the block's own bytes that its window takes over are forgotten (R127, R128). -/
theorem smap_block (s : State) (b base len win stash : Nat) :
    ((s.smap b base len win stash).block b).ranges = (s.block b).ranges ++ [⟨base, len, win⟩]
      ∧ ((s.smap b base len win stash).block b).secs = (s.block b).secs
      ∧ ∀ o, ((s.smap b base len win stash).block b).priv.get 0 o
        = if o < ((s.smap b base len win stash).block b).privSize stash then (s.block b).priv.get 0 o else 0 := by
  unfold State.smap
  rw [State.modBlock_eq, State.block_setBlock_self]
  exact ⟨rfl, rfl, fun o => get_below ..⟩

/-- A range is created where no reason stands against it (R127). -/
def State.smapTry (s : State) (b base len win stash : Nat) : State :=
  if smapStatus (s.block b) stash base len win = 0 then s.smap b base len win stash else s

theorem smapTry_offStash (s : State) (b base len win stash : Nat) :
    (s.smapTry b base len win stash).offStash = s.offStash := by
  unfold State.smapTry
  split <;> rfl

theorem smapTry_created {s : State} {b base len win stash : Nat} (h : smapStatus (s.block b) stash base len win = 0) :
    s.smapTry b base len win stash = s.smap b base len win stash := if_pos h

theorem smapTry_refused {s : State} {b base len win stash : Nat} (h : smapStatus (s.block b) stash base len win ≠ 0) :
    s.smapTry b base len win stash = s := if_neg h

theorem smapTry_mem (s : State) (b base len win stash : Nat) :
    (s.smapTry b base len win stash).mem = s.mem ∧ (s.smapTry b base len win stash).memPoison = s.memPoison := by
  unfold State.smapTry
  split <;> exact ⟨rfl, rfl⟩

theorem smapTry_block_ne (s : State) (b base len win stash : Nat) {q : Nat} (hq : q ≠ b) :
    (s.smapTry b base len win stash).block q = s.block q := by
  unfold State.smapTry
  split
  · exact State.block_setBlock_ne _ _ _ _ hq
  · rfl

section
variable {s : State} {h : Hdr} {d a b c : Reg} {l : Nat} (hs : s.noSampling)
include hs

/-- `smap` creates its range where its status is 0, and answers the status. -/
theorem smap_exec (hi : Issues (.smap h d a b c) s) (hl : (s.actors (.smap h d a b c)).head? = some l) :
    exec (.smap h d a b c) s = .next (State.finish (State.status
      (s.issued.smapTry (blockOf s.issTeam) (s.src64 0 l a) (s.src 2 l b) (s.src 4 l c) (s.img s.issTeam).stash)
      (s.opCtx h) d
      (smapStatus (s.block (blockOf s.issTeam)) (s.img s.issTeam).stash (s.src64 0 l a) (s.src 2 l b) (s.src 4 l c)))
      s.issue.part) := by
  have hx : exec (.smap h d a b c) s = execSmap h d a b c s := rfl
  unfold execSmap at hx
  have hl' : (s.opCtx h).ga.head? = some l := hl
  refine issueMem_ends hi hs hx ?_ ?_
  · dsimp only [Instr.hdr]
    rw [hl']
    dsimp only
    rw [issued_img, ← issued_block s]
    rfl
  · exact (lanesOnly_status s.issue.part ..).smpctl_eq.trans
      (Eq.trans (congrArg State.smpctl (smapTry_offStash s.issued ..) :) (issued_frame s).smpctl_eq)

end

/-! ## Taking a range away, cleaning and discarding -/

/-- What `sunmap` leaves of stash `k`, of its ranges and of memory, before it answers (R128). -/
structure Unmapped (s u : State) (k base : Nat) (gone : List Nat) : Prop extends WroteBack s u k (fun _ => {}) gone where
  regs : u.regs = s.regs
  smpctl : u.smpctl = s.smpctl
  ranges : ∀ r, r ∈ (u.block k).ranges ↔ r ∈ (s.block k).ranges ∧ r.base ≠ base

/-- Take the ranges with a base from a block. -/
def State.takeRanges (s : State) (k base : Nat) : State :=
  s.modBlock k fun y => { y with ranges := y.ranges.filter fun q => q.base ≠ base }

theorem takeRanges_sec (s : State) (k base : Nat) : (s.takeRanges k base).sec k = s.sec k := by
  unfold State.takeRanges State.sec
  rw [State.modBlock_eq, State.block_setBlock_self]

/-- Retiring the sectors of a range and taking the range away (R64, R128). -/
theorem retireAll_unmapped (s : State) (k base : Nat) (gone : List Nat) :
    Unmapped s ((gone.foldl (fun s j => s.retireSec k j) s).takeRanges k base) k base gone := by
  have hoff : (gone.foldl (fun s j => s.retireSec k j) s).offHome = s.offHome :=
    foldl_keeps State.offHome _ (fun s j => retireSec_offHome s k j) gone s
  have hranges := besides_ranges ((retireSec_writesBack k).foldl_besides gone s)
  obtain ⟨hblock, hsec, hwritten, hspared⟩ := (retireSec_writesBack k).foldl_wroteBack gone s
  generalize gone.foldl (fun s j => s.retireSec k j) s = v at *
  have happ := apart_of_offHome hoff
  refine ⟨⟨fun q hq => ?_, fun x => ?_, hwritten, hspared⟩, apart_regs happ, apart_smpctl happ, fun r => ?_⟩
  · exact (State.block_setBlock_ne _ _ _ _ hq).trans (hblock q hq)
  · rw [takeRanges_sec, hsec]
  · unfold State.takeRanges
    rw [State.modBlock_eq, State.block_setBlock_self]
    dsimp only
    rw [hranges, List.mem_filter, decide_eq_true_eq]

theorem Unmapped.of_none {s : State} {k base : Nat} (h : ∀ r ∈ (s.block k).ranges, r.base ≠ base) :
    Unmapped s s k base [] :=
  ⟨⟨fun _ _ => rfl, fun _ => (if_neg List.not_mem_nil).symm, nofun, fun _ _ => rfl⟩, rfl, rfl,
    fun r => ⟨fun hr => ⟨hr, h r hr⟩, And.left⟩⟩

theorem Unmapped.of_issued {s u : State} {k base : Nat} {gone : List Nat} (h : Unmapped s.issued u k base gone) :
    Unmapped s u k base gone :=
  ⟨h.toWroteBack.of_issued, h.regs.trans (issued_regs s), h.smpctl.trans (issued_frame s).smpctl_eq, fun r => by
    rw [h.ranges, issued_block]⟩

section
variable {s : State} {h : Hdr} {d a b c : Reg} {all : Bool} {l : Nat} (hs : s.noSampling)
include hs

/-- `sunmap` unmaps what lies at its base, and answers whether a range did. -/
theorem sunmap_exec (hi : Issues (.sunmap h d a) s) (hl : (s.actors (.sunmap h d a)).head? = some l) :
    ∃ u, exec (.sunmap h d a) s = .next (State.finish (u.status (s.opCtx h) d
        (if (s.block (blockOf s.issTeam)).ranges.any (fun r => r.base = s.src64 0 l a) then 0 else 1)) s.issue.part)
      ∧ Unmapped s u (blockOf s.issTeam) (s.src64 0 l a) (s.issued.unmapSet (s.opCtx h) a) := by
  have hx : exec (.sunmap h d a) s = execSunmap h d a s := rfl
  unfold execSunmap at hx
  have hl' : (s.opCtx h).ga.head? = some l := hl
  have answers : ∀ {u : State} {st : Nat}, u.smpctl = s.smpctl → (u.status (s.opCtx h) d st).smpctl = s.smpctl :=
    fun hu => (lanesOnly_status s.issue.part ..).smpctl_eq.trans hu
  cases hr : (s.issued.block (blockOf s.issTeam)).ranges.find? fun r => r.base = s.src64 0 l a with
  | none =>
    have hr' : (s.issued.block (blockOf (s.opCtx h).t)).ranges.find? (fun r => r.base = s.issued.rd64 0 (s.opCtx h).t l a)
      = none := hr
    have hgone : s.issued.unmapSet (s.opCtx h) a = [] := by
      unfold State.unmapSet
      rw [hl']
      dsimp only
      rw [hr']
    rw [issued_block, List.find?_eq_none] at hr
    have hany : ¬((s.block (blockOf s.issTeam)).ranges.any fun r => r.base = s.src64 0 l a) = true := by simpa using hr
    have hu : Unmapped s s.issued (blockOf s.issTeam) (s.src64 0 l a) [] :=
      .of_issued (.of_none fun r hm => by rw [issued_block] at hm; simpa using hr r hm)
    rw [hgone, if_neg hany]
    refine ⟨_, issueMem_ends hi hs hx ?_ (answers hu.smpctl), hu⟩
    dsimp only [Instr.hdr]
    rw [hl']
    dsimp only
    rw [hr']
  | some r =>
    have hr' : (s.issued.block (blockOf (s.opCtx h).t)).ranges.find? (fun r => r.base = s.issued.rd64 0 (s.opCtx h).t l a)
      = some r := hr
    have hgone : s.issued.unmapSet (s.opCtx h) a = (s.issued.block (blockOf s.issTeam)).covered r.base r.len := by
      unfold State.unmapSet
      rw [hl']
      dsimp only
      rw [hr']
      rfl
    rw [issued_block] at hr
    have hbase := List.find?_some hr
    have hany : ((s.block (blockOf s.issTeam)).ranges.any fun r => r.base = s.src64 0 l a) = true :=
      List.any_eq_true.mpr ⟨r, List.mem_of_find?_eq_some hr, hbase⟩
    have hu := (retireAll_unmapped s.issued (blockOf s.issTeam) (s.src64 0 l a)
      ((s.issued.block (blockOf s.issTeam)).covered r.base r.len)).of_issued
    rw [hgone, if_pos hany]
    refine ⟨_, issueMem_ends hi hs hx ?_ (answers hu.smpctl), hu⟩
    dsimp only [Instr.hdr]
    rw [hl']
    dsimp only
    rw [hr']
    rfl

/-- `sflush` cleans the sectors that it covers, one after the other (R129). -/
theorem sflush_exec (hi : Issues (.sflush h a b all) s) :
    ∃ u, exec (.sflush h a b all) s = .next (u.finish s.issue.part) ∧ u.offStash = s.issued.offStash
      ∧ WroteBack s u (blockOf s.issTeam) Sector.cleaned (s.issued.flushSet (s.opCtx h) a b all) := by
  have hx : exec (.sflush h a b all) s = execSflush h a b all s := rfl
  unfold execSflush at hx
  have hoff := foldl_keeps State.offStash _ (fun u k => cleanSec_offStash u (blockOf s.issTeam) k)
    (s.issued.flushSet (s.opCtx h) a b all) s.issued
  have hwrote := ((cleanSec_writesBack (blockOf s.issTeam)).foldl_wroteBack (s.issued.flushSet (s.opCtx h) a b all)
    s.issued).of_issued
  have hsmpctl := (congrArg State.smpctl hoff :)
  exact ⟨_, issueMem_ends hi hs hx rfl (hsmpctl.trans (issued_frame s).smpctl_eq), hoff, hwrote⟩

/-- `sdrop` discards the sectors that it covers (R129). -/
theorem sdrop_exec (hi : Issues (.sdrop h a b all) s) : ∃ u, exec (.sdrop h a b all) s = .next (u.finish s.issue.part)
    ∧ Discarded s u (s.coreOf s.issue.part) (blockOf s.issTeam) (s.issued.flushSet (s.opCtx h) a b all) := by
  have hx : exec (.sdrop h a b all) s = execSdrop h a b all s := rfl
  unfold execSdrop at hx
  have hu := (discard_discarded s.issued (s.who s.issue.part) (blockOf s.issTeam)
    (s.issued.flushSet (s.opCtx h) a b all)).of_issued
  refine ⟨_, issueMem_ends hi hs hx ?_ hu.smpctl, hu⟩
  exact congrArg (fun w => s.issued.discard w (blockOf s.issTeam) (s.issued.flushSet (s.opCtx h) a b all)) (issued_who ..)

end

/-- With no lane to act, neither changes anything. -/
theorem ranges_idle {s : State} {h : Hdr} {d a b c : Reg} {i : Instr} (hi : i = .smap h d a b c ∨ i = .sunmap h d a)
    (hiss : Issues i s) (hs : s.noSampling) (hnone : s.actors i = []) :
    ∃ t, exec i s = .next t ∧ t.regs = s.regs ∧ t.defs = s.defs ∧ LanesOnly s.issue.part s t := by
  obtain ⟨sectors, eff, hx, he⟩ : ∃ sectors eff, exec i s = issueMem i s sectors eff
      ∧ ∀ c u, Ctx.ga c = [] → eff c u = u := by
    obtain rfl | rfl := hi
    · have hx : exec (.smap h d a b c) s = execSmap h d a b c s := rfl
      unfold execSmap at hx
      exact ⟨_, _, hx, fun c u hc => by rw [hc]; rfl⟩
    · have hx : exec (.sunmap h d a) s = execSunmap h d a s := rfl
      unfold execSunmap at hx
      exact ⟨_, _, hx, fun c u hc => by rw [hc]; rfl⟩
  exact issueMem_idle hiss hs hx (he _ _ hnone)

end Sys2Proof.Machine

open Sys2Proof Sys2Proof.Machine

/-- Settles O33: each instruction is one walk over the sectors of its stash, and what a walk does is what its step does to
one sector. -/
theorem stashRanges : Obligations.StashRanges := by
  unfold Obligations.StashRanges
  refine ⟨fun s h d a b c l hs => ⟨fun hi hl => ?smap, fun hi hl => ?sunmap, fun i hi hiss hnone => ?idle⟩,
    fun s h a b all hs => ⟨fun hi => ?sflush, fun hi => ?sdrop⟩⟩
  case smap =>
    intro st
    have hframe := lanesOnly_answer s.issue.part (s.opCtx h) d st
      (s.issued.smapTry (blockOf s.issTeam) (s.src64 0 l a) (s.src 2 l b) (s.src 4 l c) (s.img s.issTeam).stash)
    have hoff := smapTry_offStash s.issued (blockOf s.issTeam) (s.src64 0 l a) (s.src 2 l b) (s.src 4 l c)
      (s.img s.issTeam).stash
    have hregs := (congrArg State.regs hoff :)
    refine ⟨_, smap_exec hs hi hl, status_answers (smapStatus_lt ..) (hregs.trans (issued_regs s)) fun q hq => ?_,
      ?_, fun hne => ?_, fun he => ?_⟩
    · exact (smapTry_block_ne _ _ _ _ _ _ hq).trans (issued_block ..)
    · have haround := lanesOnly_aroundStash hoff hframe
      obtain ⟨hmem, hpoison⟩ := smapTry_mem s.issued (blockOf s.issTeam) (s.src64 0 l a) (s.src 2 l b) (s.src 4 l c)
        (s.img s.issTeam).stash
      rw [hframe.mem_eq, hframe.memPoison_eq, hmem, hpoison, issued_mem, (issued_frame s).memPoison_eq] at haround
      exact haround
    · rw [hframe.block_eq, smapTry_refused (by rw [issued_block]; exact hne), issued_block]
    · rw [hframe.block_eq, smapTry_created (by rw [issued_block]; exact he), ← issued_block s]
      exact smap_block ..
  case sunmap =>
    obtain ⟨u, hx, hu⟩ := sunmap_exec hs hi hl
    have hframe := lanesOnly_answer s.issue.part (s.opCtx h) d
      (if (s.block (blockOf s.issTeam)).ranges.any (fun r => r.base = s.src64 0 l a) then 0 else 1) u
    have hend := hu.toWroteBack.ends hframe
    refine ⟨_, hx, status_answers (by split <;> decide) hu.regs hu.block, fun r => ?_,
      fun x hx => (hend.sec x).trans (if_pos hx), fun x hx => (hend.sec x).trans (if_neg hx), hend.written, hend.spared⟩
    rw [hframe.block_eq]
    exact hu.ranges r
  case idle => exact ranges_idle hi hiss hs hnone
  case sflush =>
    obtain ⟨u, hx, hoff, hu⟩ := sflush_exec hs hi
    have hend := hu.ends (lanesOnly_finish s.issue.part u)
    have hregs : u.regs = s.issued.regs := (congrArg State.regs hoff :)
    have hdefs : u.defs = s.issued.defs := (congrArg State.defs hoff :)
    refine ⟨_, hx, ?_, ?_, lanesOnly_aroundStash hoff (lanesOnly_finish ..), fun x hx => (hend.sec x).trans (if_pos hx),
      fun x hx => (hend.sec x).trans (if_neg hx), hend.block, hend.written, hend.spared⟩
    · rw [finish_regs, hregs, issued_regs]
    · rw [finish_defs, hdefs, issued_defs]
  case sdrop =>
    obtain ⟨u, hx, hu⟩ := sdrop_exec hs hi
    have hframe := lanesOnly_finish s.issue.part u
    refine ⟨_, hx, (finish_regs ..).trans hu.regs, hframe.mem_eq.trans hu.mem, (finish_defs ..).trans hu.defs,
      fun x hx => ?_, fun x hx => ?_, fun q hq => (hframe.block_eq q).trans (hu.block q hq), fun x hx hd => ?_⟩
    · rw [hframe.block_eq]
      exact (hu.sec x).trans (if_pos hx)
    · rw [hframe.block_eq]
      exact (hu.sec x).trans (if_neg hx)
    · rw [hframe.cores]
      exact hu.clock x hx hd
end

section
/-! The five flags of arithmetic (R143) and the operations of the add, multiply and compare group (R176, R177): whatever
an operation reads, what it raises lies in the five low bits of v255. -/

namespace Sys2Proof.Machine

/-! ## Flags of rounding -/

/-- Flags that lie in the five low bits of v255 (R143). -/
def FiveFlags (f : Nat) : Prop := f < 2 ^ 5

theorem FiveFlags.zero : FiveFlags 0 := show _ < _ by decide
theorem FiveFlags.nv : FiveFlags fNV := show _ < _ by decide
theorem FiveFlags.ov : FiveFlags fOF := show _ < _ by decide
theorem FiveFlags.uf : FiveFlags fUF := show _ < _ by decide
theorem FiveFlags.nx : FiveFlags fNX := show _ < _ by decide

theorem FiveFlags.or {a b : Nat} (ha : FiveFlags a) (hb : FiveFlags b) : FiveFlags (a ||| b) := Nat.or_lt_two_pow ha hb

/-- A flag that is raised on a condition. -/
theorem FiveFlags.ite {c : Prop} [Decidable c] {f : Nat} (h : FiveFlags f) : FiveFlags (if c then f else 0) := by
  split
  · exact h
  · exact .zero

theorem FiveFlags.lt_word {f : Nat} (h : FiveFlags f) : f < 2 ^ 32 := Nat.lt_trans h (by decide)

/-- One of two results, each with its flags. -/
theorem ite_flags {α : Type} {c : Prop} [Decidable c] {x y : α × Nat} (hx : FiveFlags x.2) (hy : FiveFlags y.2) :
    FiveFlags (if c then x else y).2 := by
  split
  · exact hx
  · exact hy

theorem roundF_flags (x : Ext) (f : FFmt) (m : Rnd) (sat : Bool) : FiveFlags (roundF x f m sat).2 := by
  unfold roundF
  split
  · exact FiveFlags.nv.ite
  · exact ite_flags .zero (ite_flags .nv .nv)
  · refine ite_flags .zero ?_
    extract_lets k ge d q rem inexact q' nx uf code toMax r
    have rounded : FiveFlags (nx ||| uf) := FiveFlags.nx.ite.or FiveFlags.uf.ite
    exact ite_flags ((rounded.or .ov).or .nx) rounded

theorem ftzOut_flags (ftz : Bool) (f : FFmt) {r : Nat × Nat} (h : FiveFlags r.2) : FiveFlags (ftzOut ftz f r).2 :=
  ite_flags ((h.or .uf).or .nx) h

theorem finishF_flags (f : FFmt) (m : FMod) {x : Ext × Nat} (h : FiveFlags x.2) : FiveFlags (finishF f m x).2 :=
  (ftzOut_flags _ _ (roundF_flags ..)).or h

theorem nanRule_flags (xs : List Ext) {x : Ext × Nat} (h : FiveFlags x.2) : FiveFlags (nanRule xs x).2 :=
  ite_flags FiveFlags.nv.ite h

/-! ## Flags of exact results -/

/-- A sum is invalid for infinities of opposite signs alone. -/
theorem addE_flags (m : Rnd) : ∀ a b : Ext, FiveFlags (addE m a b).2
  | .inf _, .inf _ => ite_flags .zero .nv
  | .nan _, _ | .inf _, .nan _ | .fin .., .nan _ => .zero
  | .inf _, .fin .. | .fin .., .inf _ | .fin .., .fin .. => .zero

/-- A product is invalid for zero times an infinity alone. -/
theorem mulE_flags : ∀ a b : Ext, FiveFlags (mulE a b).2
  | .inf _, .fin .. | .fin .., .inf _ => ite_flags .nv .zero
  | .nan _, _ | .inf _, .nan _ | .fin .., .nan _ => .zero
  | .inf _, .inf _ | .fin .., .fin .. => .zero

theorem fmaE_flags (m : Rnd) (a b c : Ext) : FiveFlags (fmaE m a b c).2 := ite_flags (mulE_flags a b) (addE_flags ..)

theorem scaleE_flags (b : Nat) : ∀ x : Ext, FiveFlags (scaleE b x).2
  | .nan _ | .inf _ | .fin .. => .zero

theorem rndE_flags (m : Rnd) : ∀ x : Ext, FiveFlags (rndE m x).2
  | .nan _ | .inf _ => .zero
  | .fin .. => FiveFlags.nx.ite

theorem un_flags {f : Ext → Ext × Nat} (h : ∀ a, FiveFlags (f a).2) : ∀ xs : List Ext, FiveFlags (un f xs).2
  | [] => .zero
  | a :: _ => h a

theorem bin_flags {f : Ext → Ext → Ext × Nat} (h : ∀ a b, FiveFlags (f a b).2) : ∀ xs : List Ext, FiveFlags (bin f xs).2
  | [] | [_] => .zero
  | a :: b :: _ => h a b

/-! ## Flags of elements and words -/

theorem elemF_flags (f : FFmt) (m : FMod) (ops : List Nat) {g : List Ext → Ext × Nat} (h : ∀ xs, FiveFlags (g xs).2) :
    FiveFlags (elemF f m ops g).2 := finishF_flags _ _ (nanRule_flags _ (h _))

theorem packEls_flags (w n : Nat) {g : Nat → Nat × Nat} (h : ∀ e, FiveFlags (g e).2) : FiveFlags (packEls w n g).2 :=
  List.foldlRecOn (motive := fun r : Nat × Nat => FiveFlags r.2) _ _ .zero fun _ hr e _ => hr.or (h e)

theorem wordF_flags (ty : FTy) (m : FMod) (ops : List Nat) {g : List Ext → Ext × Nat} (h : ∀ xs, FiveFlags (g xs).2) :
    FiveFlags (wordF ty m ops g).2 := packEls_flags _ _ fun _ => elemF_flags _ _ _ h

theorem frndElem_flags (f : FFmt) (rnd : Rnd) (ftz : Bool) (a : Nat) : FiveFlags (frndElem f rnd ftz a).2 :=
  elemF_flags _ _ _ (un_flags (rndE_flags rnd))

theorem ffmaElem_flags (f : FFmt) (m : FMod) (a b c : Nat) : FiveFlags (ffmaElem f m a b c).2 := by
  unfold ffmaElem
  refine finishF_flags _ _ ((nanRule_flags _ (fmaE_flags ..)).or ?_)
  split
  · exact .zero
  · exact mulE_flags ..

/-- A minimum or a maximum raises NV for a signalling operand, and nothing else. -/
theorem minmaxF_flags (f : FFmt) (mx : Bool) (a b : Nat) : FiveFlags (minmaxF f mx a b).2 := by
  have nv := FiveFlags.nv.ite (c := ((decodeF f a).isSnan || (decodeF f b).isSnan) = true)
  exact ite_flags nv (ite_flags nv (ite_flags nv (ite_flags nv nv)))

theorem minmaxWord_flags (ty : FTy) (mx ftz : Bool) (a b : Nat) : FiveFlags (minmaxWord ty mx ftz a b).2 :=
  packEls_flags _ _ fun _ => minmaxF_flags ..

theorem fdot2Val_flags (ty : FTy) (m : FMod) (a b c : Nat) : FiveFlags (fdot2Val ty m a b c).2 :=
  finishF_flags _ _ (nanRule_flags _
    ((((mulE_flags ..).or (mulE_flags ..)).or (addE_flags ..)).or (addE_flags ..)))

theorem fcmpVal_flags (cc : FCond) (ftz : Bool) (a b : Nat) : FiveFlags (fcmpVal cc ftz a b).2 := by
  cases cc <;> exact FiveFlags.nv.ite

end Sys2Proof.Machine
end

section
/-! The lanes of an instruction one after the other (R19, R195): a lane that writes registers of its own, or posts results to
them, changes no read of another lane, so that every lane reads what stood before the instruction. -/

namespace Sys2Proof.Machine

/-- What the sources of one lane find, by the number of the source and the register. -/
def State.laneReads (s : State) (t l : Nat) : Nat → Nat → Nat := fun slot r => s.rd slot t l r

/-- A predicate source by what a lane's sources find (R142, R169). -/
def predOf (rd : Nat → Nat → Nat) (slot : Nat) (x : PSrc) : Bool :=
  (x.n.val = 0 || bit (rd slot (x.n.val / 32)) (x.n.val % 32)) != x.neg

theorem rdPred_eq (s : State) (slot t l : Nat) (x : PSrc) : s.rdPred slot t l x = predOf (s.laneReads t l) slot x := rfl

theorem predReg_lt (p : Pred) : p.val / 32 < 256 := by omega

theorem predOf_congr {rd rd' : Nat → Nat → Nat} (h : ∀ slot r, r < 256 → rd slot r = rd' slot r) (slot : Nat) (x : PSrc) :
    predOf rd slot x = predOf rd' slot x := by
  unfold predOf
  rw [h _ _ (predReg_lt x.n)]

/-- Two states that keep the same snapshot show a lane the same where, without a snapshot, it finds the same. -/
theorem sameReads_of_live {s u : State} {t l : Nat} (hpre : u.issue.pre = s.issue.pre)
    (h : ∀ slot r, r < 256 → readThrough u.fresh u.defs t l r slot (u.regs.get 0 (regKey t l r)).toNat
      = readThrough s.fresh s.defs t l r slot (s.regs.get 0 (regKey t l r)).toNat) : SameReads t l s u := by
  intro slot r hr
  cases hp : s.issue.pre with
  | some x => exact rd_snapshot hp (hpre.trans hp) slot t l r
  | none =>
    unfold State.rd State.srcRegs State.srcDefs State.srcFresh
    rw [hpre, hp]
    exact congrArg (· % 2 ^ 32) (h slot r hr)

/-- An update of each lane, by what the lane's own sources find, that no other lane's sources see. -/
structure OwnReads (t : Nat) (F : Nat → (Nat → Nat → Nat) → State → State) : Prop where
  congr : ∀ l {rd rd'}, (∀ slot r, r < 256 → rd slot r = rd' slot r) → F l rd = F l rd'
  pre : ∀ l rd s, (F l rd s).issue.pre = s.issue.pre
  others : ∀ {l k} rd s, l ≠ k → SameReads t l s (F k rd s)

section
variable {t : Nat} {F : Nat → (Nat → Nat → Nat) → State → State} (hF : OwnReads t F)
include hF

/-- What a lane's sources find once another lane, or in a pair with a snapshot any lane, is done. -/
theorem OwnReads.sameReads {l k : Nat} {rd : Nat → Nat → Nat} {s0 s : State} (hs : SameReads t l s0 s)
    (h : l ≠ k ∨ ∃ x, s0.issue.pre = some x ∧ s.issue.pre = some x) : SameReads t l s0 (F k rd s) := by
  obtain h | ⟨x, h0, h1⟩ := h
  · exact hs.trans (hF.others rd s h)
  · exact fun slot r _ => rd_snapshot h0 ((hF.pre ..).trans h1) slot t l r

/-- Every lane reads what stood before the first. -/
theorem OwnReads.eachLane_eq {s0 : State} {ls : List Nat} {s : State} (hs : ∀ l ∈ ls, SameReads t l s0 s)
    (hd : ls.Nodup ∨ ∃ x, s0.issue.pre = some x ∧ s.issue.pre = some x) :
    eachLane ls (fun l u => F l (u.laneReads t l) u) s = eachLane ls (fun l u => F l (s0.laneReads t l) u) s := by
  induction ls generalizing s with
  | nil => rfl
  | cons k ls ih =>
    have hk : F k (s.laneReads t k) = F k (s0.laneReads t k) := hF.congr k (hs k List.mem_cons_self)
    show eachLane ls _ (F k (s.laneReads t k) s) = eachLane ls _ (F k (s0.laneReads t k) s)
    rw [hk]
    refine ih (fun l hl => hF.sameReads (hs l (List.mem_cons_of_mem _ hl)) (hd.imp_left fun hn => ?_)) ?_
    · rintro rfl
      exact (List.nodup_cons.mp hn).1 hl
    · obtain hn | ⟨x, h0, h1⟩ := hd
      · exact .inl (List.nodup_cons.mp hn).2
      · exact .inr ⟨x, h0, (hF.pre ..).trans h1⟩

end

/-- An instruction whose lanes read their own registers and change no read of another lane. -/
theorem issueLanes_reads {i : Instr} {s : State} (hi : Issues i s) {F : Nat → Nat → (Nat → Nat → Nat) → State → State}
    (hF : OwnReads s.issTeam (F s.issTeam)) :
    issueLanes i s (fun c l u => F c.t l (u.laneReads c.t l) u)
      = .next ((eachLane (s.actors i) (fun l u => F s.issTeam l (s.src · l ·) u) s.issued).finish s.issue.part) := by
  have hd : (s.actors i).Nodup ∨ ∃ x, s.issued.issue.pre = some x ∧ s.issued.issue.pre = some x := by
    cases hp : s.issue.pre with
    | none => exact .inl (guarded_nodup s.bump s.issue.part i.hdr hp)
    | some x => exact .inr ⟨x, by rw [issued_issue, hp], by rw [issued_issue, hp]⟩
  refine (issue_issues hi _).trans (congrArg (fun u : State => Host.Outcome.next (u.finish s.issue.part)) ?_)
  exact hF.eachLane_eq (fun _ _ _ _ _ => rfl) hd

end Sys2Proof.Machine
end

section
/-! Instructions that write one predicate (R142, R143, R169): each lane has the bit written and its flags ORed into v255. -/

namespace Sys2Proof.Machine

/-! ## One lane -/

/-- Every bit of a word but one. -/
theorem testBit_allBut (k j : Nat) (hk : k < 32) : (0xFFFFFFFF - 2 ^ k).testBit j = (decide (j < 32) && !decide (k = j)) := by
  have hlt : 2 ^ k < 2 ^ 32 := Nat.pow_lt_pow_right (by decide) hk
  have he : 0xFFFFFFFF - 2 ^ k = 2 ^ 32 - (2 ^ k + 1) := by omega
  rw [he, Nat.testBit_two_pow_sub_succ hlt, Nat.testBit_two_pow]

/-- Setting or clearing one bit of a word. -/
theorem mergeBits_bit {old k : Nat} (h : old < 2 ^ 32) (hk : k < 32) (b : Bool) :
    mergeBits old (if b then 2 ^ k else 0) (2 ^ k)
      = if b then old ||| 2 ^ k else old &&& (0xFFFFFFFF - 2 ^ k) := by
  unfold mergeBits
  cases b with
  | false => simp
  | true =>
    refine Nat.eq_of_testBit_eq fun j => ?_
    have hj : old.testBit j = true → j < 32 := fun hb => by
      by_contra hn
      rw [Nat.testBit_lt_two_pow (Nat.lt_of_lt_of_le h (Nat.pow_le_pow_right (by decide) (by omega)))] at hb
      exact Bool.false_ne_true hb
    simp only [if_true, Nat.and_self, Nat.testBit_or, Nat.testBit_and, testBit_allBut k j hk, Nat.testBit_two_pow]
    cases hb : old.testBit j with
    | false => simp
    | true => by_cases e : k = j <;> simp [e, hj hb]

theorem reg_lt (s : State) (t l r : Nat) : s.reg t l r < 2 ^ 32 := BitVec.isLt _

/-- A bit of a predicate register (R142). -/
theorem predBit_lt (p : Pred) : p.val % 32 < 32 := Nat.mod_lt _ (by decide)

theorem putPred_lt (p : Pred) (b : Bool) (r : Nat) {old : Nat} (h : old < 2 ^ 32) : putPred p b r old < 2 ^ 32 := by
  unfold putPred
  split_ifs
  · exact h
  · exact Nat.or_lt_two_pow h (Nat.pow_lt_pow_right (by decide) (predBit_lt p))
  · exact Nat.lt_of_le_of_lt Nat.and_le_left h

theorem putPred_other {p : Pred} {r : Nat} (h : p.val = 0 ∨ r ≠ p.val / 32) (b : Bool) (old : Nat) :
    putPred p b r old = old := if_pos h

theorem putPred_self {p : Pred} (hp : p.val ≠ 0) (b : Bool) {old : Nat} (h : old < 2 ^ 32) :
    putPred p b (p.val / 32) old = mergeBits old (if b then 2 ^ (p.val % 32) else 0) (2 ^ (p.val % 32)) := by
  rw [mergeBits_bit h (predBit_lt p)]
  exact if_neg (by simpa using hp)

theorem wrPred_get_other (s : State) (t l : Nat) (p : Pred) (b : Bool) {k : Nat} (hk : k ≠ regKey t l (p.val / 32)) :
    (s.wrPred t l p b).regs.get 0 k = s.regs.get 0 k := by
  unfold State.wrPred
  split
  · rfl
  · exact FMap.get_set_ne _ _ _ _ _ hk

/-- What a predicate write does to each register word of its lane (R142, R169). -/
theorem wrPred_reg (s : State) (t l : Nat) (p : Pred) (b : Bool) {r : Nat} (hr : r < 256) :
    (s.wrPred t l p b).reg t l r = putPred p b r (s.reg t l r) := by
  by_cases hp : p.val = 0
  · rw [putPred_other (.inl hp), State.wrPred, if_pos hp]
  · by_cases e : r = p.val / 32
    · subst e
      have word := putPred_lt p b (p.val / 32) (reg_lt s t l (p.val / 32))
      rw [putPred_self hp b (reg_lt ..)] at word ⊢
      rw [State.wrPred, if_neg hp]
      exact (congrArg BitVec.toNat (FMap.get_set_self ..)).trans ((BitVec.toNat_ofNat ..).trans (Nat.mod_eq_of_lt word))
    · rw [putPred_other (.inr e), State.reg, wrPred_get_other _ _ _ _ _ fun h => e (regKey_inj hr (predReg_lt p) h).2]
      rfl

theorem wrPred_issue (s : State) (t l n : Nat) (b : Bool) : (s.wrPred t l n b).issue = s.issue := by
  unfold State.wrPred
  split <;> rfl

/-- No other lane sees the write. -/
theorem sameReads_wrPred (s : State) {t l k : Nat} (p : Pred) (b : Bool) (hl : l ≠ k) :
    SameReads t l s (s.wrPred t k p b) := by
  refine sameReads_of_live (by rw [wrPred_issue]) fun slot q hq => ?_
  rw [wrPred_get_other _ _ _ _ _ fun e => hl (regKey_inj hq (predReg_lt p) e).1]
  unfold State.wrPred
  split
  · rfl
  · exact readThrough_cover _ t l k q slot _ (p.val / 32) _ _ hl

/-- One predicate of a lane is written, and flags are ORed into its v255. -/
def State.wrPredF (s : State) (t l : Nat) (p : Pred) (v : Bool × Nat) : State := (s.wrPred t l p v.1).raiseFlags t l v.2

/-- What each register word of the lane is then. -/
def predWord (p : Pred) (v : Bool × Nat) (r old : Nat) : Nat := putPred p v.1 r old ||| (if r = 255 then v.2 else 0)

theorem raiseFlags_reg (s : State) (t l : Nat) {f r : Nat} (hf : f < 2 ^ 32) (hr : r < 256) :
    (s.raiseFlags t l f).reg t l r = s.reg t l r ||| (if r = 255 then f else 0) := by
  unfold State.reg
  rw [raiseFlags_get _ _ _ _ _ hf]
  by_cases e : r = 255
  · rw [if_pos (by rw [e]), if_pos e, BitVec.toNat_or, BitVec.toNat_ofNat, Nat.mod_eq_of_lt hf]
  · rw [if_neg fun h => e (regKey_inj hr (by decide) h).2, if_neg e, Nat.or_zero]

section
variable (s : State) (t l : Nat) (p : Pred) (v : Bool × Nat)

theorem wrPredF_reg (hv : v.2 < 2 ^ 32) {r : Nat} (hr : r < 256) :
    (s.wrPredF t l p v).reg t l r = predWord p v r (s.reg t l r) := by
  unfold State.wrPredF predWord
  rw [raiseFlags_reg _ _ _ hv hr, wrPred_reg _ _ _ _ _ hr]

theorem wrPredF_get_other (hv : v.2 < 2 ^ 32) {k : Nat} (hk : ∀ r, r < 256 → k ≠ regKey t l r) :
    (s.wrPredF t l p v).regs.get 0 k = s.regs.get 0 k := by
  unfold State.wrPredF
  rw [raiseFlags_get _ _ _ _ _ hv, if_neg (hk 255 (by decide)), wrPred_get_other _ _ _ _ _ (hk _ (predReg_lt p))]

theorem wrPredF_reg_other (hv : v.2 < 2 ^ 32) {x r : Nat} (hr : r < 256) (hx : x ≠ l) :
    (s.wrPredF t l p v).reg t x r = s.reg t x r := by
  unfold State.reg
  rw [wrPredF_get_other _ _ _ _ _ hv fun q hq h => hx (regKey_inj hr hq h).1]

theorem lanesOnly_wrPredF (q : Nat) : LanesOnly q s (s.wrPredF t l p v) :=
  (lanesOnly_wrPred ..).trans (lanesOnly_raiseFlags ..)

theorem wrPredF_pre : (s.wrPredF t l p v).issue.pre = s.issue.pre := by
  unfold State.wrPredF
  rw [raiseFlags_pre, wrPred_issue]

theorem sameReads_wrPredF (hv : v.2 < 2 ^ 32) {x : Nat} (hx : x ≠ l) : SameReads t x s (s.wrPredF t l p v) :=
  (sameReads_wrPred s p v.1 hx).trans (sameReads_raiseFlags _ t x l v.2 hx hv)

end

/-! ## All lanes -/

/-- Writing the same predicate and flags again changes nothing. -/
theorem predWord_predWord (p : Pred) (v : Bool × Nat) (r old : Nat) :
    predWord p v r (predWord p v r old) = predWord p v r old := by
  unfold predWord
  by_cases h : r = 255
  · have hp : p.val = 0 ∨ r ≠ p.val / 32 := .inr (by omega)
    rw [putPred_other hp, putPred_other hp, Nat.or_assoc, Nat.or_self]
  · rw [if_neg h, Nat.or_zero, Nat.or_zero]
    unfold putPred
    split_ifs
    · rfl
    · rw [Nat.or_assoc, Nat.or_self]
    · rw [Nat.and_assoc, Nat.and_self]

section
variable {t : Nat} {p : Pred} {v : Nat → Bool × Nat} (hv : ∀ l, (v l).2 < 2 ^ 32) (s : State)
include hv

theorem eachLane_wrPredF_reg (ls : List Nat) (l : Nat) {r : Nat} (hr : r < 256) :
    (eachLane ls (fun x u => u.wrPredF t x p (v x)) s).reg t l r
      = if l ∈ ls then predWord p (v l) r (s.reg t l r) else s.reg t l r := by
  induction ls generalizing s with
  | nil => rfl
  | cons x ls ih =>
    refine (ih (s.wrPredF t x p (v x))).trans ?_
    by_cases e : l = x
    · subst e
      rw [wrPredF_reg _ _ _ _ _ (hv l) hr, predWord_predWord, ite_self, if_pos List.mem_cons_self]
    · rw [wrPredF_reg_other _ _ _ _ _ (hv x) hr e]
      simp only [List.mem_cons, e, false_or]

end

/-- Lanes that each write one predicate and raise flags, by what their own sources find. -/
theorem writesPred_of {i : Instr} {s : State} (hi : Issues i s) {p : Pred} {f : (Nat → Nat → Nat) → Bool × Nat}
    (hf : ∀ rd, (f rd).2 < 2 ^ 32) (hc : ∀ rd rd', (∀ slot r, r < 256 → rd slot r = rd' slot r) → f rd = f rd')
    (he : exec i s = issueLanes i s fun c l u => u.wrPredF c.t l p (f (u.laneReads c.t l))) :
    WritesPred i s p fun l => f (s.src · l ·) := by
  have hF : OwnReads s.issTeam fun l rd u => u.wrPredF s.issTeam l p (f rd) := {
    congr := fun l rd rd' h => by rw [hc rd rd' h]
    pre := fun l rd u => wrPredF_pre ..
    others := fun rd u h => sameReads_wrPredF _ _ _ _ _ (hf rd) h }
  have hv : ∀ l, (f (s.src · l ·)).2 < 2 ^ 32 := fun l => hf _
  refine ⟨_, he.trans (issueLanes_reads hi (F := fun t l rd u => u.wrPredF t l p (f rd)) hF), fun l hl r hr => ?_,
    fun k hk => ?_, ?_⟩
  · unfold State.reg
    rw [finish_regs]
    refine (eachLane_wrPredF_reg hv s.issued (s.actors i) l hr).trans ?_
    rw [if_pos hl]
    unfold State.reg
    rw [issued_regs]
    rfl
  · rw [finish_regs]
    refine (eachLane_get_of_kept (fun x hx u => ?_) s.issued).trans (by rw [issued_regs])
    exact wrPredF_get_other _ _ _ _ _ (hv x) (hk x hx)
  · exact (issued_frame s).trans ((LanesOnly.foldl _ (fun u l => lanesOnly_wrPredF u _ l p _ _) _ _).trans
      (lanesOnly_finish ..))

/-- The same for a predicate without flags. -/
theorem writesPred_quiet {i : Instr} {s : State} (hi : Issues i s) {p : Pred} {f : (Nat → Nat → Nat) → Bool}
    (hc : ∀ rd rd', (∀ slot r, r < 256 → rd slot r = rd' slot r) → f rd = f rd')
    (he : exec i s = issueLanes i s fun c l u => u.wrPred c.t l p (f (u.laneReads c.t l))) :
    WritesPred i s p fun l => (f (s.src · l ·), 0) := by
  refine writesPred_of hi (f := fun rd => (f rd, 0)) (fun _ => FiveFlags.zero.lt_word) (fun rd rd' h => by rw [hc rd rd' h]) ?_
  simp only [State.wrPredF, raiseFlags_zero]
  exact he

/-! ## The instructions -/

/-- The value of a word under an integer type (R172). -/
theorem ival_eq (ty : ITy) (x : Nat) : ival ty x = ITy.int ty (BitVec.ofNat 32 x) := by
  cases ty with
  | i32 =>
    simp only [ival, ITy.int, sint, BitVec.toInt_eq_toNat_cond, BitVec.toNat_ofNat]
    split <;> split <;> omega
  | n32 => simp [ival, ITy.int]

theorem condHolds_iff (c : Cond) (x y : Int) : condHolds c x y = true ↔ Cond.Holds c x y := by
  cases c <;> simp [condHolds, Cond.Holds]

section
variable {s : State} {h : Hdr} {p : Pred} {a b : Reg}

theorem icmp_writes {ty : ITy} {cc : Cond} (hi : Issues (.icmp h p a b ty cc) s) :
    WritesPred (.icmp h p a b ty cc) s p fun l => (condHolds cc (ival ty (s.src 0 l a)) (ival ty (s.src 2 l b)), 0) :=
  writesPred_quiet hi (f := fun rd => condHolds cc (ival ty (rd 0 a)) (ival ty (rd 2 b)))
    (fun rd rd' e => by rw [e 0 a a.isLt, e 2 b b.isLt]) rfl

theorem pbit_writes {pa pb : PSrc} {op : PbOp} (hi : Issues (.pbit h p pa pb op) s) :
    WritesPred (.pbit h p pa pb op) s p fun l => (pbVal op (s.srcP 0 l pa) (s.srcP 2 l pb), 0) :=
  writesPred_quiet hi (f := fun rd => pbVal op (predOf rd 0 pa) (predOf rd 2 pb))
    (fun rd rd' e => by rw [predOf_congr e, predOf_congr e]) rfl

theorem fcmp_writes {cc : FCond} {ftz : Bool} (hi : Issues (.fcmp h p a b cc ftz) s) :
    WritesPred (.fcmp h p a b cc ftz) s p fun l => fcmpVal cc ftz (s.src 0 l a) (s.src 2 l b) :=
  writesPred_of hi (f := fun rd => fcmpVal cc ftz (rd 0 a) (rd 2 b)) (fun _ => (fcmpVal_flags ..).lt_word)
    (fun rd rd' e => by rw [e 0 a a.isLt, e 2 b b.isLt]) rfl

end

end Sys2Proof.Machine

open Sys2Proof Sys2Proof.Machine

/-- Settles O16: each instruction is the write of one predicate by what the lane's own sources find, and `fcmp` raises none but
the five flags. -/
theorem predicateResults : Obligations.PredicateResults := by
  unfold Obligations.PredicateResults
  refine fun s h p a b => ⟨fun ty cc hi => ⟨_, fun l => ?_, icmp_writes hi⟩, fun pa pb op hi => ?_,
    fun cc ftz => fcmp_writes⟩
  · rw [condHolds_iff, ival_eq, ival_eq]
    rfl
  · cases op <;> exact pbit_writes hi

end

section
/-! Deferred results of an instruction's lanes (R171, R195): what posting one adds, and what the instruction answers. -/

namespace Sys2Proof.Machine

/-! ## Posting -/

/-- What a deferred result brings, and where to. -/
def Deferred.body (d : Deferred) : Nat × Nat × Nat × Nat × Option Nat × Nat :=
  (d.team, d.lane, d.reg, d.mask, d.val, d.flags)

/-- The body of a known result of lane `l` of team `t`. -/
def postBody (t l : Nat) (x : Nat × Nat × Nat × Nat) : Nat × Nat × Nat × Nat × Option Nat × Nat :=
  (t, l, x.1, x.2.1, some x.2.2.1, x.2.2.2)

/-- From one state to another only deferred results with these bodies are added, and numbers given out. -/
def Adds (s u : State) (bs : List (Nat × Nat × Nat × Nat × Option Nat × Nat)) : Prop :=
  ∃ new n, u = { s with defs := s.defs ++ new, nextId := n } ∧ new.map Deferred.body = bs

theorem Adds.refl (s : State) : Adds s s [] := ⟨[], s.nextId, by rw [List.append_nil], rfl⟩

theorem Adds.trans {s u v : State} {bs cs : List (Nat × Nat × Nat × Nat × Option Nat × Nat)} (h : Adds s u bs)
    (k : Adds u v cs) : Adds s v (bs ++ cs) := by
  obtain ⟨new, n, rfl, hnew⟩ := h
  obtain ⟨new', n', rfl, hnew'⟩ := k
  exact ⟨new ++ new', n', by rw [List.append_assoc], by rw [List.map_append, hnew, hnew']⟩

/-- Each lane adds its results. -/
theorem eachLane_adds {f : Nat → State → State} {b : Nat → List (Nat × Nat × Nat × Nat × Option Nat × Nat)}
    (h : ∀ l u, Adds u (f l u) (b l)) (ls : List Nat) (s : State) : Adds s (eachLane ls f s) (ls.flatMap b) := by
  induction ls generalizing s with
  | nil => exact .refl s
  | cons l ls ih => exact (h l s).trans (ih (f l s))

theorem postFlags_adds (s : State) (t l r v f : Nat) :
    Adds s (s.postFlags t l r v f) [postBody t l (r, 0xFFFFFFFF, v, f)] := ⟨[_], _, rfl, rfl⟩

theorem post_adds (s : State) (t l r v g : Nat) :
    Adds s (s.post t l r (some v) 0 g) [postBody t l (r, 0xFFFFFFFF, v, 0)] := ⟨[_], _, rfl, rfl⟩

/-- A word, or a pair (R144, R195). -/
theorem postWide_adds (s : State) (wide : Bool) (t l : Nat) (d : Reg) (v : Nat) :
    Adds s (s.postWide wide t l d v) ((wordPost wide d v).map (postBody t l)) := by
  have numbered : Adds s s.takeId.2 [] := ⟨[], s.nextId + 1, by rw [List.append_nil]; rfl, rfl⟩
  have low := numbered.trans (post_adds s.takeId.2 t l d (v % 2 ^ 32) s.takeId.1)
  cases wide with
  | false => exact low
  | true => exact low.trans (post_adds _ t l (d.val + 1) (v / 2 ^ 32 % 2 ^ 32) s.takeId.1)

/-- The results that an instruction's effect adds are those that it posts. -/
theorem posts_of_adds {i : Instr} {s u : State} {ls : List Nat} {f : Nat → List (Nat × Nat × Nat × Nat)}
    (hx : exec i s = .next (u.finish s.issue.part))
    (h : Adds s.issued u (ls.flatMap fun l => (f l).map (postBody s.issTeam l))) : Posts i s ls f := by
  obtain ⟨new, n, rfl, hnew⟩ := h
  refine ⟨_, new, hx, ?_, hnew, ?_, ?_⟩
  · rw [finish_defs]
    exact congrArg (· ++ new) (issued_defs s)
  · rw [finish_regs]
    exact issued_regs s
  · exact (issued_frame s).trans ((LanesOnly.ofRegs s.issue.part s.issued _ rfl).trans (lanesOnly_finish ..))

/-! ## Results of a lane's own sources -/

/-- No other lane sees a result posted. -/
theorem sameReads_postFlags (s : State) {t l k : Nat} (r v f : Nat) (h : l ≠ k) :
    SameReads t l s (s.postFlags t k r v f) := by
  refine sameReads_of_live rfl fun slot q _ => ?_
  unfold State.postFlags State.takeId State.defer readThrough
  dsimp only
  rw [List.foldl_append]
  simp [h.symm]

/-- Lanes that each post one word with flags, by what their own sources find (R171). -/
theorem posts_of {i : Instr} {s : State} (hi : Issues i s) {d : Reg} {f : (Nat → Nat → Nat) → Nat × Nat}
    (hc : ∀ rd rd', (∀ slot r, r < 256 → rd slot r = rd' slot r) → f rd = f rd')
    (he : exec i s = issueLanes i s fun c l u =>
      u.postFlags c.t l d (f (u.laneReads c.t l)).1 (f (u.laneReads c.t l)).2) :
    Posts i s (s.actors i) fun l => [(d.val, 0xFFFFFFFF, (f (s.src · l ·)).1, (f (s.src · l ·)).2)] := by
  have hF : OwnReads s.issTeam fun l rd u => u.postFlags s.issTeam l d (f rd).1 (f rd).2 := {
    congr := fun l rd rd' h => by rw [hc rd rd' h]
    pre := fun l rd u => rfl
    others := fun rd u h => sameReads_postFlags u _ _ _ h }
  refine posts_of_adds (he.trans (issueLanes_reads hi (F := fun t l rd u => u.postFlags t l d (f rd).1 (f rd).2) hF)) ?_
  refine eachLane_adds (fun l u => ?_) (s.actors i) s.issued
  exact postFlags_adds ..

section
variable {i : Instr} {s : State} {d : Reg} (hi : Issues i s)
include hi

theorem laneD1_posts {a : Reg} {f : Nat → Nat × Nat} (he : exec i s = laneD1 i d a f s) :
    Posts i s (s.actors i) fun l => [(d.val, 0xFFFFFFFF, (f (s.src 0 l a)).1, (f (s.src 0 l a)).2)] :=
  posts_of hi (f := fun rd => f (rd 0 a)) (fun rd rd' e => by rw [e 0 a a.isLt]) he

/-- One operand of the special-function group, element by element (R178). -/
theorem special_posts {a : Reg} {ty : FTy} {m : FMod} {g : Ext → Ext × Nat}
    (he : exec i s = laneD1 i d a (fun x => wordF ty m [x] (un g)) s) :
    Posts i s (s.actors i) fun l =>
      [(d.val, 0xFFFFFFFF, (wordF ty m [s.src 0 l a] (un g)).1, (wordF ty m [s.src 0 l a] (un g)).2)] :=
  laneD1_posts hi (f := fun x => wordF ty m [x] (un g)) he

theorem laneD2_posts {a b : Reg} {f : Nat → Nat → Nat × Nat} (he : exec i s = laneD2 i d a b f s) :
    Posts i s (s.actors i) fun l =>
      [(d.val, 0xFFFFFFFF, (f (s.src 0 l a) (s.src 2 l b)).1, (f (s.src 0 l a) (s.src 2 l b)).2)] :=
  posts_of hi (f := fun rd => f (rd 0 a) (rd 2 b)) (fun rd rd' e => by rw [e 0 a a.isLt, e 2 b b.isLt]) he

/-- Lanes that each post a word or a pair, computed before the first result is posted (R145, R223). -/
theorem wide_posts {wide : Bool} {v : Ctx → State → Nat → Nat}
    (he : exec i s = issue i s fun c s0 => eachLane c.ga (fun l u => u.postWide wide c.t l d (v c s0 l)) s0) :
    Posts i s (s.actors i) fun l => wordPost wide d (v (s.opCtx i.hdr) s.issued l) := by
  refine posts_of_adds (he.trans (issue_issues hi _)) (eachLane_adds (fun l u => ?_) (s.actors i) s.issued)
  exact postWide_adds ..

end

end Sys2Proof.Machine

open Sys2Proof Sys2Proof.Machine

/-- Settles O17: the fixed group writes what its lanes' own sources give, with none but the five flags, and each lane of the
special-function group posts one word with the flags of its own. -/
theorem floatResults : Obligations.FloatResults := by
  unfold Obligations.FloatResults
  refine ⟨fun s h d a b c ty rnd sat ftz => ⟨fun hi => ?fadd, fun hi => ?fsub, fun hi => ?fmul, fun hi => ?ffma,
      fun hi => ?fmin, fun hi => ?fmax, fun hi => ?fclass, fun hi => ?frnd, fun hi => ?fscale, fun hi => ?fdot2⟩,
    fun s h d a b ty rnd sat ftz => ?special⟩
  case fadd =>
    exact laneF2_writes _ d a b (fun x y => wordF ty ⟨rnd, sat, ftz⟩ [x, y] (bin (addE rnd))) s hi
      (fun _ _ => (wordF_flags _ _ _ (bin_flags (addE_flags rnd))).lt_word) rfl
  case fsub =>
    exact laneF2_writes _ d a b (fun x y => wordF ty ⟨rnd, sat, ftz⟩ [x, y] (bin fun p q => addE rnd p q.negate)) s hi
      (fun _ _ => (wordF_flags _ _ _ (bin_flags fun p q => addE_flags rnd p q.negate)).lt_word) rfl
  case fmul =>
    exact laneF2_writes _ d a b (fun x y => wordF ty ⟨rnd, sat, ftz⟩ [x, y] (bin mulE)) s hi
      (fun _ _ => (wordF_flags _ _ _ (bin_flags mulE_flags)).lt_word) rfl
  case ffma =>
    exact laneF3_writes _ d a b c (fun x y z => packEls (ofFTy ty).width (FTy.els ty) fun e =>
        ffmaElem (ofFTy ty) ⟨rnd, sat, ftz⟩ (elem (ofFTy ty) x e) (elem (ofFTy ty) y e) (elem (ofFTy ty) z e)) s hi
      (fun _ _ _ => (packEls_flags _ _ fun _ => ffmaElem_flags ..).lt_word) rfl
  case fmin =>
    exact laneF2_writes _ d a b (minmaxWord ty false ftz) s hi (fun _ _ => (minmaxWord_flags ..).lt_word) rfl
  case fmax =>
    exact laneF2_writes _ d a b (minmaxWord ty true ftz) s hi (fun _ _ => (minmaxWord_flags ..).lt_word) rfl
  case fclass => exact lane1_writes _ d a (fclassVal ty) s hi rfl
  case frnd =>
    exact laneF1_writes _ d a (fun x => packEls (ofFTy ty).width (FTy.els ty) fun e =>
        frndElem (ofFTy ty) rnd ftz (elem (ofFTy ty) x e)) s hi
      (fun _ => (packEls_flags _ _ fun _ => frndElem_flags ..).lt_word) rfl
  case fscale =>
    exact laneF2_writes _ d a b (fun x y => wordF ty ⟨rnd, sat, ftz⟩ [x] (un (scaleE y))) s hi
      (fun _ y => (wordF_flags _ _ _ (un_flags (scaleE_flags y))).lt_word) rfl
  case fdot2 =>
    exact laneF3_writes _ d a b c (fdot2Val ty ⟨rnd, sat, ftz⟩) s hi (fun _ _ _ => (fdot2Val_flags ..).lt_word) rfl
  case special =>
    exact ⟨fun hi => special_posts hi rfl, fun hi => special_posts hi rfl, fun hi => special_posts hi rfl,
      fun hi => laneD2_posts hi (f := fun x y => wordF ty ⟨rnd, sat, ftz⟩ [x, y] (bin divE)) rfl,
      fun hi => special_posts hi rfl, fun hi => special_posts hi rfl, fun hi => special_posts hi rfl,
      fun hi => special_posts hi rfl, fun hi => special_posts hi rfl⟩

end

section
/-! `sread` (R145, R234): issuing changes none of its sources. -/

namespace Sys2Proof.Machine

/-- As an instruction issues, nothing of a part changes but what it waits for. -/
theorem issued_part_keeps {β : Type} (g : Part → β) (hg : ∀ x : Part, g { x with wait := .none, fence := [] } = g x)
    (s : State) (q : Nat) : g (s.issued.part q) = g (s.part q) := by
  unfold State.issued
  split
  · rfl
  · by_cases e : q = s.issue.part
    · subst e
      exact (congrArg g (State.part_setPart_self s s.issue.part _)).trans (hg _)
    · exact congrArg g (State.part_setPart_ne s _ q _ e)

theorem sreadVal_issued (s : State) (c : Ctx) (l : Nat) (src : SReg) :
    s.issued.sreadVal c l src = s.sreadVal c l src := by
  cases src
  case wl => exact issued_part_keeps Part.cur (fun _ => rfl) s c.p
  case sweeps => exact issued_part_keeps Part.sweeps (fun _ => rfl) s c.p
  all_goals
    unfold State.issued
    split <;> rfl

end Sys2Proof.Machine

open Sys2Proof Sys2Proof.Machine

/-- Settles O28: every lane's value is computed before the first is posted, from a state whose sources are those before the
issue. -/
theorem sourcesRead : Obligations.SourcesRead := by
  unfold Obligations.SourcesRead
  intro s h d src hi
  have hp := wide_posts hi (d := d) (wide := src.wide) (v := fun c s0 l => s0.sreadVal c l src) rfl
  simp only [sreadVal_issued] at hp
  cases src <;> exact hp

end

section
/-! Results for registers (R143, R195, R274): the deferred groups that an entry of the Tundish has for its rows are fixed and
land one after another. -/

namespace Sys2Proof.Machine

/-- The deferred results of one group, in the order in which they were posted. -/
def State.groupDefs (s : State) (g : Nat) : List Deferred := s.defs.filter fun d => d.group = g

/-- The number of the register word that a deferred result is for. -/
def Deferred.key (d : Deferred) : Nat := regKey d.team d.lane d.reg

/-- The number of v255 of the lane that a deferred result is for: its flags go there (R143). -/
def Deferred.flagKey (d : Deferred) : Nat := regKey d.team d.lane 255

/-- A result that the landing of `d` does not change: it is another one, for another word, and not for the word that takes the
flags of `d`. -/
def Deferred.Apart (x d : Deferred) : Prop := x.id ≠ d.id ∧ x.key ≠ d.key ∧ x.key ≠ d.flagKey

/-- An update of deferred results changes no group of which it changes no member. -/
theorem filter_group_map {ds : List Deferred} {f : Deferred → Deferred} {g : Nat} (hgroup : ∀ d, (f d).group = d.group)
    (h : ∀ d ∈ ds, d.group = g → f d = d) : (ds.map f).filter (fun d => d.group = g) = ds.filter fun d => d.group = g := by
  have same : (fun d : Deferred => decide (d.group = g)) ∘ f = fun d => decide (d.group = g) :=
    funext fun d => congrArg (fun x => decide (x = g)) (hgroup d)
  rw [List.filter_map, same]
  refine (List.map_congr_left fun d hd => ?_).trans (List.map_id _)
  obtain ⟨hmem, hg⟩ := List.mem_filter.mp hd
  exact h d hmem (of_decide_eq_true hg)

/-! ## Flags -/

section
variable {s : State} {t l f g k : Nat}

theorem orFlags_get_flagKey : (s.orFlags t l f).regs.get 0 (regKey t l 255) = BitVec.ofNat 32 (s.reg t l 255 ||| f) := by
  unfold State.orFlags State.orReg
  split
  · next h => simp [h, State.reg]
  · exact FMap.get_set_self ..

theorem orFlags_get_ne (hk : f = 0 ∨ k ≠ regKey t l 255) : (s.orFlags t l f).regs.get 0 k = s.regs.get 0 k := by
  unfold State.orFlags State.orReg
  split
  · rfl
  · next h => exact FMap.get_set_ne _ _ _ _ _ (hk.resolve_left h)

theorem orFlags_groupDefs (h : ∀ x ∈ s.groupDefs g, x.key ≠ regKey t l 255) :
    (s.orFlags t l f).groupDefs g = s.groupDefs g := by
  unfold State.orFlags State.orReg
  split
  · rfl
  · refine filter_group_map (fun x => ?_) fun x hx hg => if_neg fun e => ?_
    · split <;> rfl
    · have hkey : x.key ≠ regKey t l 255 := h x (List.mem_filter.mpr ⟨hx, decide_eq_true hg⟩)
      simp only [Bool.and_eq_true, decide_eq_true_eq] at e
      obtain ⟨⟨rfl, rfl⟩, hreg⟩ := e
      exact hkey (congrArg (regKey x.team x.lane) hreg)

end

/-! ## One result lands -/

section
variable {s : State} {d : Deferred} {g k : Nat}

/-- A result lands, and then its flags. -/
theorem land_flags (s : State) (d : Deferred) :
    s.land d = (s.land { d with flags := 0 }).orFlags d.team d.lane d.flags := rfl

theorem land_get_key (h : d.key ≠ d.flagKey) :
    (s.land d).regs.get 0 d.key = BitVec.ofNat 32 (mergeBits (s.reg d.team d.lane d.reg) (d.val.getD 0) d.mask) := by
  obtain ⟨regs, poison, hland, hself, -⟩ := land_changes (s := s) (d := { d with flags := 0 }) rfl
  rw [land_flags, orFlags_get_ne (.inr h), hland]
  exact hself

theorem land_get_flagKey (h : d.key ≠ d.flagKey) :
    (s.land d).regs.get 0 d.flagKey = BitVec.ofNat 32 (s.reg d.team d.lane 255 ||| d.flags) := by
  obtain ⟨regs, poison, hland, -, hother⟩ := land_changes (s := s) (d := { d with flags := 0 }) rfl
  refine (congrArg (FMap.get 0 · d.flagKey) (congrArg State.regs (land_flags s d))).trans (orFlags_get_flagKey.trans ?_)
  have hold : (s.land { d with flags := 0 }).reg d.team d.lane 255 = s.reg d.team d.lane 255 := by
    rw [hland]
    exact congrArg BitVec.toNat (hother d.flagKey h.symm)
  rw [hold]

theorem land_get_ne (hk : k ≠ d.key) (hf : d.flags = 0 ∨ k ≠ d.flagKey) : (s.land d).regs.get 0 k = s.regs.get 0 k := by
  obtain ⟨regs, poison, hland, -, hother⟩ := land_changes (s := s) (d := { d with flags := 0 }) rfl
  rw [land_flags, orFlags_get_ne hf, hland]
  exact hother k hk

theorem land_groupDefs (h : ∀ x ∈ s.groupDefs g, x.Apart d) : (s.land d).groupDefs g = s.groupDefs g := by
  obtain ⟨regs, poison, hland, -, -⟩ := land_changes (s := s) (d := { d with flags := 0 }) rfl
  have member {x : Deferred} (hx : x ∈ s.defs) (hg : x.group = g) : x.Apart d :=
    h x (List.mem_filter.mpr ⟨hx, decide_eq_true hg⟩)
  have hkept : (s.land { d with flags := 0 }).groupDefs g = s.groupDefs g := by
    rw [hland]
    refine (filter_group_map (fun x => ?_) fun x hx hg => if_neg fun e => ?_).trans ?_
    · split <;> rfl
    · obtain ⟨-, hkey, -⟩ := member (List.mem_filter.mp hx).1 hg
      simp only [Bool.and_eq_true, decide_eq_true_eq] at e
      obtain ⟨⟨⟨hteam, hlane⟩, hreg⟩, -⟩ := e
      exact hkey (by unfold Deferred.key; rw [hteam, hlane, hreg])
    · rw [List.filter_filter]
      refine List.filter_congr fun x hx => ?_
      by_cases hg : x.group = g
      · simp [hg, (member hx hg).1]
      · simp [hg]
  rw [land_flags, orFlags_groupDefs, hkept]
  intro x hx
  rw [hkept] at hx
  exact (h x hx).2.2

end

/-! ## Results land one after another -/

section
variable {ds : List Deferred} {s : State} {d : Deferred} {g k : Nat}

theorem landAll_get_ne (h : ∀ d ∈ ds, k ≠ d.key ∧ (d.flags = 0 ∨ k ≠ d.flagKey)) :
    (ds.foldl State.land s).regs.get 0 k = s.regs.get 0 k := by
  induction ds generalizing s with
  | nil => rfl
  | cons d ds ih =>
    obtain ⟨⟨hkey, hflags⟩, hrest⟩ := List.forall_mem_cons.mp h
    exact (ih hrest).trans (land_get_ne hkey hflags)

theorem landAll_groupDefs (h : ∀ d ∈ ds, ∀ x ∈ s.groupDefs g, x.Apart d) :
    (ds.foldl State.land s).groupDefs g = s.groupDefs g := by
  induction ds generalizing s with
  | nil => rfl
  | cons d ds ih =>
    obtain ⟨hfirst, hrest⟩ := List.forall_mem_cons.mp h
    have hkept : (s.land d).groupDefs g = s.groupDefs g := land_groupDefs hfirst
    exact (ih (by rwa [hkept])).trans hkept

/-- Of results for different words, each leaves its bits in its own. -/
theorem landAll_get_key (hd : d ∈ ds) (hkeys : (ds.map Deferred.key).Nodup)
    (hflags : ∀ x ∈ ds, ∀ y ∈ ds, x.key ≠ y.flagKey) :
    (ds.foldl State.land s).regs.get 0 d.key
      = BitVec.ofNat 32 (mergeBits (s.reg d.team d.lane d.reg) (d.val.getD 0) d.mask) := by
  induction ds generalizing s with
  | nil => exact absurd hd List.not_mem_nil
  | cons x ds ih =>
    obtain ⟨hnew, hkeys⟩ := List.nodup_cons.mp hkeys
    have other {y : Deferred} (hy : y ∈ ds) : y.key ≠ x.key := fun e => hnew (e ▸ List.mem_map_of_mem hy)
    obtain rfl | hd := List.mem_cons.mp hd
    · refine (landAll_get_ne fun y hy => ⟨(other hy).symm, .inr ?_⟩).trans (land_get_key ?_)
      · exact hflags d (by simp) y (by simp [hy])
      · exact hflags d (by simp) d (by simp)
    · refine (ih hd hkeys fun y hy z hz => hflags y (by simp [hy]) z (by simp [hz])).trans ?_
      have hold : (s.land x).reg d.team d.lane d.reg = s.reg d.team d.lane d.reg :=
        congrArg BitVec.toNat (land_get_ne (k := d.key) (other hd) (.inr (hflags d (by simp [hd]) x (by simp))))
      rw [hold]

/-- Where the first result alone has flags, they are added to v255 of its lane. -/
theorem landAll_get_flagKey (hflags : ∀ x ∈ d :: ds, ∀ y ∈ d :: ds, x.key ≠ y.flagKey)
    (hrest : ∀ x ∈ ds, x.flags = 0) :
    ((d :: ds).foldl State.land s).regs.get 0 d.flagKey = BitVec.ofNat 32 (s.reg d.team d.lane 255 ||| d.flags) := by
  refine (landAll_get_ne (ds := ds) fun x hx => ⟨?_, .inl (hrest x hx)⟩).trans (land_get_flagKey ?_)
  · exact (hflags x (by simp [hx]) d (by simp)).symm
  · exact hflags d (by simp) d (by simp)

end

/-! ## A row for a group -/

/-- A result of a group whose members have these numbers takes its word of a row (R195). -/
def Deferred.fixed (ids : List Nat) (ws : List (Nat × Bool)) (d : Deferred) : Deferred :=
  match ws[ids.findIdx fun i => i = d.id]? with
  | some (v, psn) => { d with val := some v, poison := psn }
  | none => d

/-- The first result of a group carries the flags of the row. -/
def withFlags (f : Nat) : List Deferred → List Deferred
  | [] => []
  | d :: ds => { d with flags := f } :: ds

/-- What of a deferred result says which it is and where it goes. -/
def Deferred.place (d : Deferred) : Nat × Nat × Nat := (d.id, d.key, d.flagKey)

theorem fixed_place (ids : List Nat) (ws : List (Nat × Bool)) (d : Deferred) : (d.fixed ids ws).place = d.place := by
  unfold Deferred.fixed
  split <;> rfl

theorem fixed_group (ids : List Nat) (ws : List (Nat × Bool)) (d : Deferred) : (d.fixed ids ws).group = d.group := by
  unfold Deferred.fixed
  split <;> rfl

theorem fixed_flags (ids : List Nat) (ws : List (Nat × Bool)) (d : Deferred) : (d.fixed ids ws).flags = d.flags := by
  unfold Deferred.fixed
  split <;> rfl

theorem withFlags_place (f : Nat) (ds : List Deferred) : (withFlags f ds).map Deferred.place = ds.map Deferred.place := by
  cases ds <;> rfl

/-- The member at a position takes the word at that position. -/
theorem fixed_get {ds : List Deferred} {ws : List (Nat × Bool)} {k : Nat} {d : Deferred} {w : Nat × Bool}
    (hids : (ds.map Deferred.id).Nodup) (hd : ds[k]? = some d) (hw : ws[k]? = some w) :
    d.fixed (ds.map Deferred.id) ws = { d with val := some w.1, poison := w.2 } := by
  obtain ⟨hk, rfl⟩ := List.getElem?_eq_some_iff.mp hd
  have hfind : (ds.map Deferred.id).findIdx (fun i => i = ds[k].id) = k := by
    have h := hids.idxOf_getElem k (by simpa using hk)
    rw [List.getElem_map] at h
    exact h
  unfold Deferred.fixed
  rw [hfind, hw]

theorem fixGroup_defs (s : State) (g : Nat) (ws : List (Nat × Bool)) :
    (s.fixGroup g ws).defs = s.defs.map fun d =>
      if d.group = g then d.fixed ((s.groupDefs g).map Deferred.id) ws else d := rfl

theorem fixGroup_groupDefs_self (s : State) (g : Nat) (ws : List (Nat × Bool)) :
    (s.fixGroup g ws).groupDefs g = (s.groupDefs g).map (Deferred.fixed ((s.groupDefs g).map Deferred.id) ws) := by
  unfold State.groupDefs
  rw [fixGroup_defs, List.filter_map]
  have same : ((fun d : Deferred => decide (d.group = g)) ∘ fun d =>
      if d.group = g then d.fixed ((s.groupDefs g).map Deferred.id) ws else d) = fun d => decide (d.group = g) := by
    funext d
    simp only [Function.comp]
    split
    · rw [fixed_group]
    · rfl
  rw [same]
  refine List.map_congr_left fun d hd => ?_
  exact if_pos (of_decide_eq_true (List.mem_filter.mp hd).2)

theorem fixGroup_groupDefs_ne (s : State) {g g' : Nat} (ws : List (Nat × Bool)) (h : g' ≠ g) :
    (s.fixGroup g ws).groupDefs g' = s.groupDefs g' := by
  refine filter_group_map (fun d => ?_) fun d _ hd => if_neg fun e => h (hd.symm.trans e)
  split
  · exact fixed_group ..
  · rfl

/-- What lands for a row: the group once it has the words of the row, and first of it the flags. -/
def State.landing (s : State) (g : Nat) (row : List (Nat × Bool) × Nat) : List Deferred :=
  withFlags row.2 ((s.fixGroup g row.1).groupDefs g)

/-- A group is fixed to the words of a row, and lands with the flags of the row. -/
def State.landRow (s : State) (g : Nat) (row : List (Nat × Bool) × Nat) : State :=
  (s.landing g row).foldl State.land (s.fixGroup g row.1)

/-- A result lands with its position in its group: the flags go with the first. -/
def landAt (f : Nat) (s : State) (d : Deferred × Nat) : State :=
  s.land (if d.2 = 0 then { d.1 with flags := f } else d.1)

theorem landAt_later (f n : Nat) (ds : List Deferred) (s : State) :
    (ds.zipIdx (n + 1)).foldl (landAt f) s = ds.foldl State.land s := by
  induction ds generalizing n s with
  | nil => rfl
  | cons d ds ih => exact ih (n + 1) (s.land d)

theorem landAt_all (f : Nat) (ds : List Deferred) (s : State) :
    ds.zipIdx.foldl (landAt f) s = (withFlags f ds).foldl State.land s := by
  cases ds with
  | nil => rfl
  | cons d ds => exact landAt_later f 0 ds _

/-- The results of an entry land row by row. -/
theorem landRes_eq (s : State) (gs : List Nat) (rows : List (List (Nat × Bool) × Nat)) :
    s.landRes gs rows = (gs.zip rows).foldl (fun u x => u.landRow x.1 x.2) s :=
  congrArg (fun step => (gs.zip rows).foldl step s) (funext fun u => funext fun x =>
    landAt_all x.2.2 ((u.fixGroup x.1 x.2.1).groupDefs x.1) (u.fixGroup x.1 x.2.1))

/-! ## What a row delivers -/

/-- Groups whose results do not touch one another as they land: they are for different words, none of which takes flags of any
of them; different groups are for lanes of their own; and no result has flags before it lands. -/
structure Separate (s : State) (gs : List Nat) : Prop where
  ids : ∀ g ∈ gs, ((s.groupDefs g).map Deferred.id).Nodup
  keys : ∀ g ∈ gs, ((s.groupDefs g).map Deferred.key).Nodup
  flags : ∀ g ∈ gs, ∀ d ∈ s.groupDefs g, d.flags = 0
  noFlagKey : ∀ g ∈ gs, ∀ g' ∈ gs, ∀ d ∈ s.groupDefs g, ∀ x ∈ s.groupDefs g', d.key ≠ x.flagKey
  other : ∀ g ∈ gs, ∀ g' ∈ gs, g ≠ g' → ∀ d ∈ s.groupDefs g, ∀ x ∈ s.groupDefs g',
    d.id ≠ x.id ∧ d.key ≠ x.key ∧ d.flagKey ≠ x.flagKey

/-- From `s` to `t` a row has come to the registers that its group is for. -/
def Delivered (s t : State) (g : Nat) (row : List (Nat × Bool) × Nat) : Prop :=
  ∀ (k : Nat) d w, (s.groupDefs g)[k]? = some d → row.1[k]? = some w →
    t.regs.get 0 d.key = BitVec.ofNat 32 (mergeBits (s.reg d.team d.lane d.reg) w.1 d.mask)
    ∧ (k = 0 → t.regs.get 0 d.flagKey = BitVec.ofNat 32 (s.reg d.team d.lane 255 ||| row.2))

/-- A word is not one that a group is for, and takes no flags of the group. -/
def State.Off (s : State) (k g : Nat) : Prop := ∀ d ∈ s.groupDefs g, k ≠ d.key ∧ k ≠ d.flagKey

/-- The words of one of separate groups are off the others. -/
theorem Separate.off {s : State} {gs : List Nat} (h : Separate s gs) {g g' : Nat} (hg : g ∈ gs) (hg' : g' ∈ gs)
    (hne : g ≠ g') {d : Deferred} (hd : d ∈ s.groupDefs g) : s.Off d.key g' ∧ s.Off d.flagKey g' := by
  refine ⟨fun x hx => ⟨?_, h.noFlagKey g hg g' hg' d hd x hx⟩, fun x hx => ⟨(h.noFlagKey g' hg' g hg x hx d hd).symm, ?_⟩⟩
  · exact (h.other g hg g' hg' hne d hd x hx).2.1
  · exact (h.other g hg g' hg' hne d hd x hx).2.2

section
variable {s : State} {g k : Nat} {gs : List Nat} {row : List (Nat × Bool) × Nat}

/-- What lands for a row is the group that it goes to, as to numbers and places. -/
theorem landing_place (s : State) (g : Nat) (row : List (Nat × Bool) × Nat) :
    (s.landing g row).map Deferred.place = (s.groupDefs g).map Deferred.place := by
  rw [State.landing, withFlags_place, fixGroup_groupDefs_self, List.map_map]
  exact List.map_congr_left fun d _ => fixed_place ..

theorem mem_of_landing {d : Deferred} (h : d ∈ s.landing g row) :
    ∃ x ∈ s.groupDefs g, x.id = d.id ∧ x.key = d.key ∧ x.flagKey = d.flagKey := by
  have hplace := List.mem_map_of_mem (f := Deferred.place) h
  rw [landing_place] at hplace
  obtain ⟨x, hx, e⟩ := List.mem_map.mp hplace
  simp only [Deferred.place, Prod.mk.injEq] at e
  exact ⟨x, hx, e⟩

theorem landRow_get_off (h : s.Off k g) : (s.landRow g row).regs.get 0 k = s.regs.get 0 k := by
  have hfix : (s.fixGroup g row.1).regs = s.regs := rfl
  unfold State.landRow
  rw [← hfix]
  refine landAll_get_ne fun d hd => ?_
  obtain ⟨x, hx, -, hkey, hflag⟩ := mem_of_landing hd
  obtain ⟨h1, h2⟩ := h x hx
  exact ⟨hkey ▸ h1, .inr (hflag ▸ h2)⟩

theorem landRow_groupDefs {g' : Nat} (h : Separate s gs) (hg : g ∈ gs) (hg' : g' ∈ gs) (hne : g' ≠ g) :
    (s.landRow g row).groupDefs g' = s.groupDefs g' := by
  have hfix := fixGroup_groupDefs_ne s row.1 hne
  refine (landAll_groupDefs fun d hd x hx => ?_).trans hfix
  rw [hfix] at hx
  obtain ⟨y, hy, hid, hkey, hflag⟩ := mem_of_landing hd
  obtain ⟨h1, h2, -⟩ := h.other g' hg' g hg hne x hx y hy
  rw [hid] at h1
  rw [hkey] at h2
  exact ⟨h1, h2, fun e => h.noFlagKey g' hg' g hg x hx y hy (e.trans hflag.symm)⟩

theorem landRow_delivers (h : Separate s gs) (hg : g ∈ gs) : Delivered s (s.landRow g row) g row := by
  intro k d w hd hw
  have hfix := fixed_get (h.ids g hg) hd hw
  have hnoFlagKey : ∀ x ∈ s.landing g row, ∀ y ∈ s.landing g row, x.key ≠ y.flagKey := by
    intro x hx y hy
    obtain ⟨x', hx', -, hkey, -⟩ := mem_of_landing hx
    obtain ⟨y', hy', -, -, hflag⟩ := mem_of_landing hy
    exact hkey ▸ hflag ▸ h.noFlagKey g hg g hg x' hx' y' hy'
  have hkeys : ((s.landing g row).map Deferred.key).Nodup := by
    have e := congrArg (List.map fun p : Nat × Nat × Nat => p.2.1) (landing_place s g row)
    rw [List.map_map, List.map_map] at e
    exact e ▸ h.keys g hg
  have hat : ((s.fixGroup g row.1).groupDefs g)[k]? = some { d with val := some w.1, poison := w.2 } := by
    rw [fixGroup_groupDefs_self, List.getElem?_map, hd, Option.map_some, hfix]
  have hrest : ∀ x ∈ (s.fixGroup g row.1).groupDefs g, x.flags = 0 := by
    rw [fixGroup_groupDefs_self]
    intro x hx
    obtain ⟨y, hy, rfl⟩ := List.mem_map.mp hx
    rw [fixed_flags, h.flags g hg y hy]
  unfold State.landRow
  unfold State.landing at *
  generalize (s.fixGroup g row.1).groupDefs g = ds at *
  cases ds with
  | nil => simp at hat
  | cons a ds =>
    cases k with
    | zero =>
      obtain rfl := Option.some.inj hat
      refine ⟨landAll_get_key (d := { d with val := some w.1, poison := w.2, flags := row.2 }) ?_ hkeys hnoFlagKey,
        fun _ => ?_⟩
      · exact List.mem_cons_self
      · exact landAll_get_flagKey (d := { d with val := some w.1, poison := w.2, flags := row.2 }) hnoFlagKey
          fun x hx => hrest x (List.mem_cons_of_mem _ hx)
    | succ k =>
      refine ⟨landAll_get_key (d := { d with val := some w.1, poison := w.2 }) ?_ hkeys hnoFlagKey, fun e => by cases e⟩
      exact List.mem_cons_of_mem _ (List.mem_of_getElem? (by simpa using hat))

end

/-- A row that a state delivers is delivered all the same from an earlier one in which the group stood alike. -/
theorem Delivered.of_same {s u t : State} {g : Nat} {row : List (Nat × Bool) × Nat} (h : Delivered u t g row)
    (hdefs : u.groupDefs g = s.groupDefs g)
    (hregs : ∀ d ∈ s.groupDefs g, u.regs.get 0 d.key = s.regs.get 0 d.key
      ∧ u.regs.get 0 d.flagKey = s.regs.get 0 d.flagKey) :
    Delivered s t g row := by
  intro k d w hd hw
  obtain ⟨hkey, hflag⟩ := hregs d (List.mem_of_getElem? hd)
  have hreg : u.reg d.team d.lane d.reg = s.reg d.team d.lane d.reg := congrArg BitVec.toNat hkey
  have hreg' : u.reg d.team d.lane 255 = s.reg d.team d.lane 255 := congrArg BitVec.toNat hflag
  rw [← hreg, ← hreg']
  exact h k d w (hdefs ▸ hd) hw

/-- Groups stay separate while they stand. -/
theorem Separate.of_same {s u : State} {gs hs : List Nat} (h : Separate s gs) (hsub : ∀ g ∈ hs, g ∈ gs)
    (hdefs : ∀ g ∈ hs, u.groupDefs g = s.groupDefs g) : Separate u hs where
  ids g hg := hdefs g hg ▸ h.ids g (hsub g hg)
  keys g hg := hdefs g hg ▸ h.keys g (hsub g hg)
  flags g hg := hdefs g hg ▸ h.flags g (hsub g hg)
  noFlagKey g hg g' hg' := hdefs g hg ▸ hdefs g' hg' ▸ h.noFlagKey g (hsub g hg) g' (hsub g' hg')
  other g hg g' hg' := hdefs g hg ▸ hdefs g' hg' ▸ h.other g (hsub g hg) g' (hsub g' hg')

/-- Each row comes to its group, and no other word changes. -/
theorem landRows_deliver {xs : List (Nat × List (Nat × Bool) × Nat)} {s : State} (hnodup : (xs.map (·.1)).Nodup)
    (h : Separate s (xs.map (·.1))) :
    (∀ x ∈ xs, Delivered s (xs.foldl (fun u x => u.landRow x.1 x.2) s) x.1 x.2)
    ∧ ∀ k, (∀ g ∈ xs.map (·.1), s.Off k g) →
      (xs.foldl (fun u x => u.landRow x.1 x.2) s).regs.get 0 k = s.regs.get 0 k := by
  induction xs generalizing s with
  | nil => exact ⟨fun _ hx => absurd hx List.not_mem_nil, fun _ _ => rfl⟩
  | cons x xs ih =>
    obtain ⟨hnew, hnodup⟩ := List.nodup_cons.mp hnodup
    have hx : x.1 ∈ (x :: xs).map (·.1) := List.mem_cons_self
    have old {g : Nat} (hg : g ∈ xs.map (·.1)) : g ∈ (x :: xs).map (·.1) := List.mem_cons_of_mem _ hg
    have ne {g : Nat} (hg : g ∈ xs.map (·.1)) : g ≠ x.1 := by
      rintro rfl
      exact hnew hg
    have hdefs : ∀ g ∈ xs.map (·.1), (s.landRow x.1 x.2).groupDefs g = s.groupDefs g := fun g hg =>
      landRow_groupDefs h hx (old hg) (ne hg)
    obtain ⟨hrows, hothers⟩ := ih hnodup (h.of_same (fun g => old) hdefs)
    have off {k : Nat} (hk : ∀ g ∈ xs.map (·.1), s.Off k g) :
        ((x :: xs).foldl (fun u x => u.landRow x.1 x.2) s).regs.get 0 k = (s.landRow x.1 x.2).regs.get 0 k :=
      hothers k fun g hg d hd => hk g hg d (hdefs g hg ▸ hd)
    refine ⟨List.forall_mem_cons.mpr ⟨fun k d w hd hw => ?_, fun y hy => ?_⟩, fun k hk => ?_⟩
    · have hmem := List.mem_of_getElem? hd
      obtain ⟨hkey, hflag⟩ := landRow_delivers (row := x.2) h hx k d w hd hw
      refine ⟨(off fun g hg => ?_).trans hkey, fun e => (off fun g hg => ?_).trans (hflag e)⟩
      · exact (h.off hx (old hg) (ne hg).symm hmem).1
      · exact (h.off hx (old hg) (ne hg).symm hmem).2
    · have hg : y.1 ∈ xs.map (·.1) := List.mem_map_of_mem hy
      refine (hrows y hy).of_same (hdefs _ hg) fun d hd => ?_
      obtain ⟨hkey, hflag⟩ := h.off (old hg) hx (ne hg) hd
      exact ⟨landRow_get_off hkey, landRow_get_off hflag⟩
    · obtain ⟨hfirst, hrest⟩ := List.forall_mem_cons.mp hk
      exact (off hrest).trans (landRow_get_off hfirst)

theorem map_fst_zip_sublist {α β : Type} (xs : List α) (ys : List β) : ((xs.zip ys).map (·.1)).Sublist xs := by
  induction xs generalizing ys with
  | nil => exact .slnil
  | cons x xs ih =>
    cases ys with
    | nil => exact List.nil_sublist _
    | cons y ys => exact (ih ys).cons_cons x

theorem landRes_delivers {s : State} {gs : List Nat} {rows : List (List (Nat × Bool) × Nat)} (hnodup : gs.Nodup)
    (h : Separate s gs) {n g : Nat} {row : List (Nat × Bool) × Nat} (hg : gs[n]? = some g) (hrow : rows[n]? = some row) :
    Delivered s (s.landRes gs rows) g row := by
  have hsub := map_fst_zip_sublist gs rows
  have hsep : Separate s ((gs.zip rows).map (·.1)) := h.of_same (fun g hg => hsub.subset hg) fun _ _ => rfl
  rw [landRes_eq]
  have hmem : (g, row) ∈ gs.zip rows := List.mem_of_getElem? (i := n) (List.getElem?_zip_eq_some.mpr ⟨hg, hrow⟩)
  exact (landRows_deliver (hnodup.sublist hsub) hsep).1 _ hmem

/-! ## What landing leaves alone -/

/-- The accumulator slots and the parts. -/
def State.slotsAndParts (s : State) : FMap Slot4k × FMap Part := (s.slots, s.parts)

theorem orFlags_slotsAndParts (s : State) (t l f : Nat) : (s.orFlags t l f).slotsAndParts = s.slotsAndParts := by
  unfold State.orFlags State.orReg
  split <;> rfl

theorem land_slotsAndParts (s : State) (d : Deferred) : (s.land d).slotsAndParts = s.slotsAndParts := by
  obtain ⟨regs, poison, hland, -, -⟩ := land_changes (s := s) (d := { d with flags := 0 }) rfl
  rw [land_flags, orFlags_slotsAndParts, hland]
  rfl

theorem landRow_slotsAndParts (s : State) (g : Nat) (row : List (Nat × Bool) × Nat) :
    (s.landRow g row).slotsAndParts = s.slotsAndParts :=
  foldl_keeps State.slotsAndParts _ land_slotsAndParts _ _

theorem landRes_slotsAndParts (s : State) (gs : List Nat) (rows : List (List (Nat × Bool) × Nat)) :
    (s.landRes gs rows).slotsAndParts = s.slotsAndParts := by
  rw [landRes_eq]
  exact foldl_keeps State.slotsAndParts _ (fun u x => landRow_slotsAndParts u _ _) _ s

end Sys2Proof.Machine
end

section
/-! Tiles (R165 to R167, R270, R275, R284): what a tile reads once all of its words have been replaced, and the words and flags
that a pass leaves. -/

namespace Sys2Proof.Machine

/-! ## Replacing a tile -/

/-- A slot that holds 32 columns of `f`, from column `lo` on. -/
def slotOf (f : Nat → Nat → Nat × Bool) (lo : Nat) : Slot4k :=
  let ws := (List.range 1024).map fun k => (k, f (k / 32) (lo + k % 32))
  { used := true
    words := (ws.filter fun x => x.2.1 ≠ 0).map fun x => (x.1, x.2.1)
    poison := (ws.filter fun x => x.2.2).map (·.1) }

/-- The words that are not 0 of a list, each under its own number, read back. -/
theorem get_listed (g : Nat → Nat × Bool) {ks : List Nat} {k : Nat} (h : k ∈ ks) :
    FMap.get 0 (((ks.map fun k => (k, g k)).filter fun x => x.2.1 ≠ 0).map fun x => (x.1, x.2.1)) k = (g k).1 := by
  have absent {ks : List Nat} (h0 : (g k).1 = 0) :
      FMap.get 0 (((ks.map fun k => (k, g k)).filter fun x => x.2.1 ≠ 0).map fun x => (x.1, x.2.1)) k = 0 := by
    induction ks with
    | nil => rfl
    | cons j ks ih =>
      rw [List.map_cons, List.filter_cons]
      split
      · next hj =>
        rw [List.map_cons, FMap.get_cons, if_neg, ih]
        rintro rfl
        simp [h0] at hj
      · exact ih
  by_cases h0 : (g k).1 = 0
  · rw [absent h0, h0]
  · induction ks with
    | nil => exact absurd h List.not_mem_nil
    | cons j ks ih =>
      rw [List.map_cons, List.filter_cons]
      by_cases hj : k = j
      · subst hj
        rw [if_pos (by simpa using h0), List.map_cons, FMap.get_cons, if_pos rfl]
      · have hks := ih ((List.mem_cons.mp h).resolve_left hj)
        split
        · rw [List.map_cons, FMap.get_cons, if_neg hj, hks]
        · exact hks

theorem slotOf_word (f : Nat → Nat → Nat × Bool) (lo : Nat) {i c : Nat} (hi : i < 32) (hc : c < 32) :
    ((slotOf f lo).words.get 0 (32 * i + c), (slotOf f lo).poison.contains (32 * i + c)) = f i (lo + c) := by
  have hrow : (32 * i + c) / 32 = i := by omega
  have hcol : (32 * i + c) % 32 = c := by omega
  have hmem : 32 * i + c ∈ List.range 1024 := List.mem_range.mpr (by omega)
  unfold slotOf
  refine Prod.ext ?_ (Bool.eq_iff_iff.mpr ?_)
  · dsimp only
    rw [get_listed (fun k => f (k / 32) (lo + k % 32)) hmem, hrow, hcol]
  · dsimp only
    rw [List.contains_iff_mem, List.mem_map]
    constructor
    · rintro ⟨x, hx, hk⟩
      obtain ⟨hlisted, hpoison⟩ := List.mem_filter.mp hx
      obtain ⟨k, -, rfl⟩ := List.mem_map.mp hlisted
      obtain rfl : k = 32 * i + c := hk
      rwa [hrow, hcol] at hpoison
    · intro hpoison
      refine ⟨(32 * i + c, f i (lo + c)), List.mem_filter.mpr ⟨List.mem_map.mpr ⟨_, hmem, ?_⟩, hpoison⟩, rfl⟩
      rw [hrow, hcol]

section
variable {s : State} {b : TagBind} {flags : Nat} {f : Nat → Nat → Nat × Bool}

theorem setTile_slots (s : State) (b : TagBind) (flags : Nat) (f : Nat → Nat → Nat × Bool) :
    ∃ slots, s.setTile b flags f = { s with slots := slots } := by
  unfold State.setTile
  dsimp only
  split <;> exact ⟨_, rfl⟩

/-- The slots of a tile's two halves are different ones: they belong to the two arrays of a pair (R275). -/
theorem key_ne (h : b.slot < 64) (h2 : b.slot2 < 64) : b.key 0 ≠ b.key 32 := by
  have hcore : b.core ^^^ 1 ≠ b.core := fun e => by
    have := congrArg (b.core ^^^ ·) e
    simp at this
  rw [TagBind.key, if_pos (by decide), TagBind.key, if_neg (by decide)]
  unfold slotKey
  omega

/-- The slot of the first columns of a tile that has been replaced. -/
theorem setTile_get_first (h : b.slot < 64) (h2 : b.slot2 < 64) :
    (s.setTile b flags f).slots.get {} (b.key 0) = { slotOf f 0 with flags := flags } := by
  unfold State.setTile
  dsimp only
  split
  · rw [FMap.get_set_ne _ _ _ _ _ (key_ne h h2), FMap.get_set_self, slotOf]
  · rw [FMap.get_set_self, slotOf]

/-- The slot of the other columns of a paired tile. -/
theorem setTile_get_second (hp : b.paired = true) :
    (s.setTile b flags f).slots.get {} (b.key 32) = slotOf f 32 := by
  unfold State.setTile
  dsimp only
  rw [if_pos hp, FMap.get_set_self, slotOf]

theorem setTile_tileFlags (h : b.slot < 64) (h2 : b.slot2 < 64) : (s.setTile b flags f).tileFlags b = flags :=
  congrArg Slot4k.flags (setTile_get_first h h2)

theorem setTile_tileWord (h : b.slot < 64) (h2 : b.slot2 < 64) {i j : Nat} (hi : i < 32) (hj : j < tileWidth (some b)) :
    (s.setTile b flags f).tileWord (some b) i j = f i j := by
  unfold State.tileWord
  dsimp only
  by_cases hlow : j < 32
  · rw [key_of_lt hlow, setTile_get_first h h2, Nat.mod_eq_of_lt hlow]
    dsimp only
    rw [slotOf_word f 0 hi hlow, Nat.zero_add]
  · have hp : b.paired = true := by
      by_contra hp
      simp only [tileWidth, if_neg hp] at hj
      exact hlow hj
    have hcol : j % 32 < 32 := Nat.mod_lt _ (by decide)
    have hsum : 32 + j % 32 = j := by
      simp only [tileWidth, if_pos hp] at hj
      omega
    rw [key_of_le hlow, setTile_get_second hp, slotOf_word f 32 hi hcol, hsum]

end

/-! ## A pass (R165 to R167) -/

theorem getD_map_range {α : Type} (g : Nat → α) {n i : Nat} (h : i < n) (d : α) : ((List.range n).map g).getD i d = g i := by
  simp [List.getD_eq_getElem?_getD, h]

/-- Bits of flags that are ORed together. -/
theorem bit_or (x y n : Nat) : bit (x ||| y) n = true ↔ bit x n = true ∨ bit y n = true := by
  have h (z : Nat) : bit z n = z.testBit n := by
    rw [Nat.testBit_eq_decide_div_mod_eq]
    rfl
  rw [h, h, h, Nat.testBit_or, Bool.or_eq_true]

theorem bit_foldl_or {α : Type} (g : α → Nat) (n : Nat) (xs : List α) (a : Nat) :
    bit (xs.foldl (fun f x => f ||| g x) a) n = true ↔ bit a n = true ∨ ∃ x ∈ xs, bit (g x) n = true := by
  induction xs generalizing a with
  | nil => simp
  | cons x xs ih => rw [List.foldl_cons, ih, bit_or, or_assoc, List.exists_mem_cons_iff]

theorem bit_foldl_foldl_or {α : Type} (g : α → Nat) (n : Nat) (xs : List (List α)) (a : Nat) :
    bit (xs.foldl (fun f r => r.foldl (fun f x => f ||| g x) f) a) n = true
      ↔ bit a n = true ∨ ∃ r ∈ xs, ∃ x ∈ r, bit (g x) n = true := by
  induction xs generalizing a with
  | nil => simp
  | cons r xs ih => rw [List.foldl_cons, ih, bit_foldl_or, or_assoc, List.exists_mem_cons_iff]

/-- A sum of products along two rows of elements. -/
theorem foldl_zip_products (a c : Nat → Int) (ks : List Nat) :
    ((ks.map a).zip (ks.map c)).foldl (fun (t : Int) (z : Int × Int) => t + z.1 * z.2) 0
      = (ks.map fun k => a k * c k).sum := by
  rw [List.zip_map', List.sum_eq_foldl, List.foldl_map, List.foldl_map]

/-- Whether a pass leaves a word of the tile with poison. -/
def State.passPoison (s : State) (b : TagBind) (buf : FMap (Nat × Nat)) (o : MmaOps) (x y : MOpnd) (sa sb : List Nat)
    (i j : Nat) : Bool :=
  (s.tileWord (some b) i j).2 || opPoison o.ta x o.ka.val buf 0 i (scaleA o sa)
    || opPoison o.tb y o.kb.val buf 1 j (scaleB o sb)

/-- The integer product of two elements of an integer pass. -/
def opProduct (buf : FMap (Nat × Nat)) (o : MmaOps) (x y : MOpnd) (i j m : Nat) : Int :=
  opInt o.ta o.ka.val (opCode o.ta x o.ka.val buf 0 i m) * opInt o.tb o.kb.val (opCode o.tb y o.kb.val buf 1 j m)

/-- The new word of a tile and its flags in a pass that is not an integer pass. -/
def State.passSum (s : State) (b : TagBind) (buf : FMap (Nat × Nat)) (o : MmaOps) (x y : MOpnd) (sa sb : List Nat)
    (cent : Bool) (i j : Nat) : Nat × Nat :=
  dotAdd (s.tileWord (some b) i j).1 (opChunks o.ta x o.ka.val cent buf 0 i (scaleA o sa))
    (opChunks o.tb y o.kb.val cent buf 1 j (scaleB o sb))

section
variable (s : State) (b : TagBind) (buf : FMap (Nat × Nat)) {o : MmaOps} (x y : MOpnd) (sa sb : List Nat) (cent : Bool)

/-- The sums of an integer pass are exact, modulo 2^32 (R167). -/
theorem passTile_int (h : mmaIsInt o = true) : ∃ f, s.passTile b buf o x y sa sb cent = s.setTile b (s.tileFlags b) f
    ∧ ∀ i j, i < 32 → j < tileWidth (some b) → f i j = (wrap 32 ((s.tileWord (some b) i j).1
        + ((List.range 64).map (opProduct buf o x y i j)).sum), s.passPoison b buf o x y sa sb i j) := by
  unfold State.passTile
  dsimp only
  rw [if_pos h]
  refine ⟨_, rfl, fun i j hi hj => ?_⟩
  simp only [getD_map_range _ hi, getD_map_range _ hj, foldl_zip_products]
  rfl

/-- The sums of any other pass are made chunk by chunk, and their flags are added to the tile's (R165, R166). -/
theorem passTile_float (h : mmaIsInt o = false) : ∃ flags f, s.passTile b buf o x y sa sb cent = s.setTile b flags f
    ∧ (∀ i j, i < 32 → j < tileWidth (some b) →
        f i j = ((s.passSum b buf o x y sa sb cent i j).1, s.passPoison b buf o x y sa sb i j))
    ∧ ∀ n, bit flags n = true ↔ bit (s.tileFlags b) n = true
        ∨ ∃ i j, i < 32 ∧ j < tileWidth (some b) ∧ bit (s.passSum b buf o x y sa sb cent i j).2 n = true := by
  have results : ((List.range 32).map fun i => (List.range (tileWidth (some b))).map fun j =>
      dotAdd (s.tileWord (some b) i j).1
        (((List.range 32).map fun i => opChunks o.ta x o.ka.val cent buf 0 i (scaleA o sa)).getD i [])
        (((List.range (tileWidth (some b))).map fun j => opChunks o.tb y o.kb.val cent buf 1 j (scaleB o sb)).getD j []))
      = (List.range 32).map fun i => (List.range (tileWidth (some b))).map (s.passSum b buf o x y sa sb cent i) := by
    refine List.map_congr_left fun i hi => List.map_congr_left fun j hj => ?_
    rw [getD_map_range _ (List.mem_range.mp hi), getD_map_range _ (List.mem_range.mp hj)]
    rfl
  unfold State.passTile
  dsimp only
  rw [if_neg (by simp [h]), results]
  refine ⟨_, _, rfl, fun i j hi hj => ?_, fun n => ?_⟩
  · simp only [getD_map_range _ hi, getD_map_range _ hj]
    rfl
  · rw [bit_foldl_foldl_or]
    simp only [List.mem_map, List.mem_range]
    refine or_congr_right ⟨?_, ?_⟩
    · rintro ⟨_, ⟨i, hi, rfl⟩, _, hz, hbit⟩
      obtain ⟨j, hj, rfl⟩ := List.mem_map.mp hz
      exact ⟨i, j, hi, List.mem_range.mp hj, hbit⟩
    · rintro ⟨i, j, hi, hj, hbit⟩
      exact ⟨_, ⟨i, hi, rfl⟩, _, List.mem_map.mpr ⟨j, List.mem_range.mpr hj, rfl⟩, hbit⟩

end

end Sys2Proof.Machine
end

section
/-! An entry of the Tundish retires (R274): once its memory has been moved, its effect is all that is left to do. -/

namespace Sys2Proof.Machine

/-- An entry that has been granted what it needs, may be acted on, and has moved its memory without a report outstanding. -/
structure ReadyToRetire (s : State) (e : TEntry) : Prop where
  find : s.tundish.find? (fun x => x.id = e.id) = some e
  granted : e.granted = true
  here : s.entryHere e = true
  reports : e.reports = []
  moved : e.todo.getD (s.pieces e) = []

theorem passRetire_ready {s : State} {e : TEntry} (h : ReadyToRetire s e) : s.passRetire e.id = s.entryRetire e := by
  have hleft : s.todoLeft e.id = 0 := by
    unfold State.todoLeft
    rw [h.find]
    exact congrArg List.length h.moved
  have hrun : s.entryRun e.id = s := by
    unfold State.entryRun
    rw [hleft]
    rfl
  have hthaw : e.frozen = false := by
    have hhere := h.here
    unfold State.entryHere at hhere
    simpa using (Bool.and_eq_true_iff.mp hhere).1
  unfold State.passRetire
  rw [h.find]
  dsimp only
  rw [h.granted, h.here, hrun, h.find]
  dsimp only
  rw [h.moved, hthaw, h.reports]
  rfl

/-- An entry retires: its effect is carried out, its arrays change, and it leaves. -/
theorem entryRetire_eq (s : State) (e : TEntry) :
    ∃ arrays, s.entryRetire e = State.leaveTundish { s.entryEffect e with arrays := arrays } e := by
  cases h : e.array with
  | some a =>
    obtain ⟨arrays, hretire, -⟩ := entryRetire_granted s h
    exact ⟨arrays, hretire⟩
  | none =>
    refine ⟨(s.entryEffect e).arrays, ?_⟩
    unfold State.entryRetire
    rw [h]
    rfl

theorem arriveOp_life (s : State) (p op : Nat) : ((s.arriveOp p op).part p).life = (s.part p).life := by
  cases h : (s.part p).ops.find? (fun q => q.id = op) with
  | none =>
    unfold State.arriveOp
    rw [h]
  | some o =>
    obtain ⟨cores, ho⟩ := arriveOp_of_find h
    rw [ho]
    exact (congrArg Part.life (FMap.get_set_self ({} : Part) s.parts p ((s.part p).arrive o.path op))).trans rfl

/-- While its part has not retired, an entry that leaves gives back no slot. -/
theorem leaveTundish_slots {s : State} {e : TEntry} (h : (s.part e.part).life ≠ .retired) :
    (s.leaveTundish e).slots = s.slots := by
  let v : State := { s with tundish := s.tundish.filter fun x => x.id ≠ e.id }
  obtain ⟨cores, hraise⟩ := raiseClock_if_cores v e.core e.time (isRel e.ord)
  obtain ⟨undo, parts, cores', harrive, -⟩ := arriveOp_changes { v with cores := cores } e.part e.op
  have hlife : ((State.arriveOp { v with cores := cores } e.part e.op).part e.part).life ≠ .retired := by
    rwa [arriveOp_life]
  unfold State.leaveTundish
  dsimp only
  rw [hraise]
  unfold State.settleTags
  rw [if_pos hlife, harrive]

/-- What a state is like once an entry has retired by its effect, as far as registers, tiles and the Tundish go. -/
theorem passRetire_leaves {s : State} {e : TEntry} (h : ReadyToRetire s e) {P : State → Prop}
    (hP : ∀ t : State, t.regs = (s.entryEffect e).regs
      → (((s.entryEffect e).part e.part).life ≠ .retired → t.slots = (s.entryEffect e).slots) → P t) :
    Answers (.passRetire e.id) s fun t => (∀ x ∈ t.tundish, x.id ≠ e.id) ∧ P t := by
  obtain ⟨arrays, hretire⟩ := entryRetire_eq s e
  obtain ⟨undo, parts, cores, slots, hleave, -⟩ := leaveTundish_changes { s.entryEffect e with arrays := arrays } e
  have hexec : exec (.passRetire e.id) s = .next (State.leaveTundish { s.entryEffect e with arrays := arrays } e) :=
    congrArg Host.Outcome.next ((passRetire_ready h).trans hretire)
  refine ⟨_, hexec, fun x hx => ?_, hP _ ?_ fun hlife => leaveTundish_slots hlife⟩
  · rw [hleave] at hx
    exact of_decide_eq_true (List.mem_filter.mp hx).2
  · rw [hleave]

/-! ## Entries that change a tile -/

/-- Words and flags of a tile lie in its slots. -/
theorem tileWord_of_slots {s t : State} (h : t.slots = s.slots) (b : Option TagBind) : t.tileWord b = s.tileWord b := by
  funext i j
  unfold State.tileWord
  rw [h]

theorem tileFlags_of_slots {s t : State} (h : t.slots = s.slots) (b : TagBind) : t.tileFlags b = s.tileFlags b := by
  unfold State.tileFlags
  rw [h]

/-- The registers stand and a tile reads `f`. -/
def TileIs (s t : State) (k : TagBind) (f : Nat → Nat → Nat × Bool) : Prop :=
  t.regs = s.regs ∧ ∀ i j, i < 32 → j < tileWidth (some k) → t.tileWord (some k) i j = f i j

section
variable {s : State} {e : TEntry} {k : TagBind} (h : ReadyToRetire s e) (hlife : (s.part e.part).life ≠ .retired)
  (hslot : k.slot < 64) (hslot2 : k.slot2 < 64)
include h hlife hslot hslot2

/-- An entry whose effect replaces a tile leaves the new one. -/
theorem leaves_setTile {flags : Nat} {f g : Nat → Nat → Nat × Bool} (heffect : s.entryEffect e = s.setTile k flags f)
    (hf : ∀ i j, i < 32 → j < tileWidth (some k) → f i j = g i j) :
    Answers (.passRetire e.id) s fun t =>
      (∀ x ∈ t.tundish, x.id ≠ e.id) ∧ t.tileFlags k = flags ∧ TileIs s t k g := by
  refine passRetire_leaves h fun t hregs hslots => ?_
  obtain ⟨slots, hset⟩ := setTile_slots s k flags f
  have heff := heffect.trans hset
  have hstands : t.slots = (s.setTile k flags f).slots := (hslots (by rw [heff]; exact hlife)).trans (by rw [heffect])
  refine ⟨?_, ?_, fun i j hi hj => ?_⟩
  · rw [tileFlags_of_slots hstands, setTile_tileFlags hslot hslot2]
  · rw [hregs, heff]
  · rw [tileWord_of_slots hstands, setTile_tileWord hslot hslot2 hi hj, hf i j hi hj]

end

/-- The effect of an `acstat` on the tile (R290): with `.clr` its flags are clear, and the results land all the same. -/
theorem entryEffect_acstat {s : State} {e : TEntry} {clr : Bool} (hbody : e.body = .acstat clr) :
    (s.entryEffect e).regs = (s.landRes e.res (e.res.map fun _ => ([(s.statWord (s.tagOf e.part e.tag), false)], 0))).regs
    ∧ (s.entryEffect e).parts = s.parts
    ∧ ∀ k, s.tagOf e.part e.tag = some k →
        (s.entryEffect e).tileFlags k = if clr then 0 else s.tileFlags k := by
  obtain ⟨hslots, hparts⟩ := Prod.mk.inj
    (landRes_slotsAndParts s e.res (e.res.map fun _ => ([(s.statWord (s.tagOf e.part e.tag), false)], 0)))
  unfold State.entryEffect
  rw [hbody]
  dsimp only
  cases htag : s.tagOf e.part e.tag with
  | none =>
    rw [htag] at hparts
    cases clr <;> exact ⟨rfl, hparts, fun k hk => by cases hk⟩
  | some b =>
    rw [htag] at hparts hslots
    cases clr with
    | false => exact ⟨rfl, hparts, fun k _ => tileFlags_of_slots hslots k⟩
    | true =>
      refine ⟨rfl, hparts, fun k hk => ?_⟩
      obtain rfl := Option.some.inj hk
      exact congrArg Slot4k.flags (FMap.get_set_self ..)

/-! ## Entries that deliver to registers -/

/-- What keeps the deferred results of groups separate, said of all of them together. -/
theorem separate_of_all {s : State} {gs : List Nat} (hids : (s.defs.map (·.id)).Nodup)
    (hkeys : ((s.defs.filter fun d => gs.contains d.group).map fun d => regKey d.team d.lane d.reg).Nodup)
    (hall : ∀ d ∈ s.defs.filter fun d => gs.contains d.group, d.flags = 0
      ∧ ∀ x ∈ s.defs.filter fun d => gs.contains d.group, regKey d.team d.lane d.reg ≠ regKey x.team x.lane 255
        ∧ (d.group ≠ x.group → regKey d.team d.lane 255 ≠ regKey x.team x.lane 255)) : Separate s gs := by
  have inAll {g : Nat} (hg : g ∈ gs) {d : Deferred} (hd : d ∈ s.groupDefs g) :
      d ∈ s.defs.filter fun d => gs.contains d.group := by
    obtain ⟨hmem, hgroup⟩ := List.mem_filter.mp hd
    refine List.mem_filter.mpr ⟨hmem, ?_⟩
    rw [of_decide_eq_true hgroup]
    simpa using hg
  have group {g : Nat} {d : Deferred} (hd : d ∈ s.groupDefs g) : d.group = g := of_decide_eq_true (List.mem_filter.mp hd).2
  have sub {g : Nat} (hg : g ∈ gs) : (s.groupDefs g).Sublist (s.defs.filter fun d => gs.contains d.group) := by
    have e : s.groupDefs g = (s.defs.filter fun d => gs.contains d.group).filter fun d => d.group = g := by
      rw [List.filter_filter]
      refine List.filter_congr fun d _ => ?_
      by_cases hd : d.group = g
      · simp [hd, hg]
      · simp [hd]
    rw [e]
    exact List.filter_sublist
  refine {
    ids := fun g hg => hids.sublist (List.filter_sublist.map _)
    keys := fun g hg => hkeys.sublist ((sub hg).map _)
    flags := fun g hg d hd => (hall d (inAll hg hd)).1
    noFlagKey := fun g hg g' hg' d hd x hx => ((hall d (inAll hg hd)).2 x (inAll hg' hx)).1
    other := fun g hg g' hg' hne d hd x hx => ?_ }
  have hdx : d ≠ x := fun e => hne ((group hd).symm.trans (e ▸ group hx))
  refine ⟨fun e => hdx ?_, fun e => hdx ?_, ((hall d (inAll hg hd)).2 x (inAll hg' hx)).2 ?_⟩
  · exact List.inj_on_of_nodup_map hids (List.mem_filter.mp hd).1 (List.mem_filter.mp hx).1 e
  · exact List.inj_on_of_nodup_map hkeys (inAll hg hd) (inAll hg' hx) e
  · rw [group hd, group hx]
    exact hne

/-- An entry whose effect lands rows delivers each to the registers that wait for it. -/
theorem leaves_delivered {s : State} {e : TEntry} {rows : List (List (Nat × Bool) × Nat)} (h : ReadyToRetire s e)
    (heffect : (s.entryEffect e).regs = (s.landRes e.res rows).regs) (hnodup : e.res.Nodup) (hsep : Separate s e.res) :
    Answers (.passRetire e.id) s fun t => (∀ x ∈ t.tundish, x.id ≠ e.id)
      ∧ ∀ (n : Nat) g r, e.res[n]? = some g → rows[n]? = some r → Delivered s t g r := by
  refine passRetire_leaves h fun t hregs _ n g r hg hr k d w hd hw => ?_
  rw [hregs, heffect]
  exact landRes_delivers hnodup hsep hg hr k d w hd hw

end Sys2Proof.Machine

open Sys2Proof Sys2Proof.Machine

/-- Settles O60: an entry that is ready retires by its effect alone; the effect replaces the tile word by word, or lands each
row in the registers that wait for it, and no register that a row goes to is one that another row or its flags change. -/
theorem passResults : Obligations.PassResults := by
  unfold Obligations.PassResults
  intro s e hfind hgranted hhere hreports hmoved
  have h : ReadyToRetire s e := ⟨hfind, hgranted, hhere, hreports, hmoved⟩
  have rowsLand {rows : List (List (Nat × Bool) × Nat)} (heffect : (s.entryEffect e).regs = (s.landRes e.res rows).regs)
      (hnodup : e.res.Nodup) hids hkeys hall := leaves_delivered h heffect hnodup (separate_of_all hids hkeys hall)
  refine ⟨fun k hk hlife hslot hslot2 => ⟨?pass, ?acld, ?acldReg, ?acst, ?clear⟩, ?had, ?acstReg, ?acstat⟩
  case pass =>
    intro paired ra o x y sa sb cent hbody
    have heffect : s.entryEffect e = s.passTile k e.buf o x y sa sb cent := by
      unfold State.entryEffect
      rw [hbody, hk]
    rw [hk]
    refine ⟨fun hint => ?_, fun hfloat => ?_⟩
    · obtain ⟨f, htile, hf⟩ := passTile_int s k e.buf x y sa sb cent hint
      exact leaves_setTile h hlife hslot hslot2 (heffect.trans htile) hf
    · obtain ⟨flags, f, htile, hf, hflags⟩ := passTile_float s k e.buf x y sa sb cent hfloat
      obtain ⟨t, hexec, hgone, hkept, htileIs⟩ := leaves_setTile h hlife hslot hslot2 (heffect.trans htile) hf
      exact ⟨t, hexec, hgone, htileIs, fun n => hkept ▸ hflags n⟩
  case acld =>
    intro base pitch sp pair hbody
    have heffect : s.entryEffect e = s.setTile k (s.tileFlags k) fun i j =>
        ((e.buf.get (0, 0) (i * 64 + j)).1, (e.buf.get (0, 0) (i * 64 + j)).2 ≠ 0) := by
      unfold State.entryEffect
      rw [hbody, hk]
    exact leaves_setTile h hlife hslot hslot2 heffect fun _ _ _ _ => rfl
  case acldReg =>
    intro rows hbody
    have heffect : s.entryEffect e = s.setTile k (s.tileFlags k) fun i j => ((rows.getD i []).getD j 0, false) := by
      unfold State.entryEffect
      rw [hbody, hk]
    exact leaves_setTile h hlife hslot hslot2 heffect fun _ _ _ _ => rfl
  case acst =>
    intro base pitch sp hbody
    have heffect : s.entryEffect e = s := by
      unfold State.entryEffect
      rw [hbody]
    refine passRetire_leaves h fun t hregs hslots => ?_
    rw [heffect] at hregs hslots
    exact ⟨tileFlags_of_slots (hslots hlife) k, hregs, fun i j _ _ => by rw [tileWord_of_slots (hslots hlife), hk]⟩
  case clear =>
    intro clr hbody
    obtain ⟨-, hparts, hflags⟩ := entryEffect_acstat (s := s) hbody
    have hlife' : ((s.entryEffect e).part e.part).life ≠ .retired := by
      unfold State.part
      rw [hparts]
      exact hlife
    exact passRetire_leaves h fun t _ hslots => (tileFlags_of_slots (hslots hlife') k).trans (hflags k hk)
  case had =>
    intro n norm rows hbody
    refine rowsLand ?_
    unfold State.entryEffect
    rw [hbody]
  case acstReg =>
    intro rs hbody
    refine rowsLand ?_
    unfold State.entryEffect
    rw [hbody]
  case acstat =>
    intro clr hbody
    exact rowsLand (entryEffect_acstat hbody).1
end

section
/-! Fixed results of an instruction's lanes (R144, R171, R195): a word, a pair or a group that each lane writes by what its own
sources find, with the flags that it raises. -/

namespace Sys2Proof.Machine

/-! ## Sources -/

theorem rd_lt (s : State) (slot t l r : Nat) : s.rd slot t l r < 2 ^ 32 := Nat.mod_lt _ (by decide)

theorem src_lt (s : State) (slot l r : Nat) : s.src slot l r < 2 ^ 32 := rd_lt ..

theorem src_eq_srcW (s : State) (slot l : Nat) (r : Reg) : s.src slot l r = (s.srcW slot l r).toNat :=
  (Nat.mod_eq_of_lt (src_lt s slot l r)).symm

/-- A pair source by what a lane's sources find (R144). -/
def pairOf (rd : Nat → Nat → Nat) (slot r : Nat) : Nat := rd slot r + 2 ^ 32 * rd (slot + 1) (r + 1)

theorem src64_eq_srcD (s : State) (slot l : Nat) (r : Reg) : s.src64 slot l r = (s.srcD slot l r).toNat := by
  have low := src_lt s slot l r
  have high := src_lt s (slot + 1) l (r + 1)
  have pair : s.src64 slot l r = s.src slot l r + 2 ^ 32 * s.src (slot + 1) l (r + 1) := rfl
  exact (Nat.mod_eq_of_lt (by omega)).symm

/-- Two ways to read that agree on the registers there are. -/
def ReadsAlike (rd rd' : Nat → Nat → Nat) : Prop := ∀ slot r, r < 256 → rd slot r = rd' slot r

section
variable {rd rd' : Nat → Nat → Nat} (h : ReadsAlike rd rd')
include h

theorem ReadsAlike.reg (slot : Nat) (r : Reg) : rd slot r = rd' slot r := h slot r r.isLt

theorem ReadsAlike.pair (slot : Nat) {r : Reg} (hr : r.val + 1 < 256) : pairOf rd slot r = pairOf rd' slot r := by
  unfold pairOf
  rw [h.reg slot r, h (slot + 1) (r + 1) hr]

theorem ReadsAlike.group {r : Reg} {n : Nat} (hr : r.val + n ≤ 256) :
    (List.range n).map (fun k => rd k (r + k)) = (List.range n).map (fun k => rd' k (r + k)) :=
  List.map_congr_left fun k hk => h k _ (by have := List.mem_range.mp hk; omega)

end

theorem groupOk_le {n : Nat} {r : Reg} (h : groupOk n r = true) : r.val + n ≤ 256 := by
  simp only [groupOk, Bool.and_eq_true, decide_eq_true_eq] at h
  omega

/-! ## Writes of a lane -/

/-- The writes of a group from register `d` up. -/
def groupWrites (d : Nat) (vs : List Nat) : List (Nat × Nat) := vs.zipIdx.map fun x => (d + x.2, x.1)

theorem wrGroup_eq_wrs (s : State) (t l d : Nat) (vs : List Nat) : s.wrGroup t l d vs = wrs s t l (groupWrites d vs) := by
  unfold State.wrGroup wrs groupWrites
  rw [List.foldl_map]

theorem groupWrites_regs (d : Nat) (vs : List Nat) :
    (groupWrites d vs).map (·.1) = (List.range vs.length).map (d + ·) := by
  unfold groupWrites
  rw [List.map_map, List.range_eq_range', ← List.zipIdx_map_snd 0 vs, List.map_map]
  rfl

theorem groupWrites_concat (d : Nat) (vs : List Nat) (v : Nat) :
    groupWrites d (vs ++ [v]) = groupWrites d vs ++ [(d + vs.length, v)] := by
  simp [groupWrites, List.zipIdx_append]

theorem lastOf_concat (xs : List (Nat × Nat)) (x : Nat × Nat) (r : Nat) :
    lastOf (xs ++ [x]) r = if x.1 = r then some x.2 else lastOf xs r := by
  simp [lastOf]

/-- Each register of a group gets the value of its place. -/
theorem lastOf_groupWrites (d : Nat) (vs : List Nat) {k : Nat} (hk : k < vs.length) :
    lastOf (groupWrites d vs) (d + k) = some vs[k] := by
  induction vs using List.reverseRecOn with
  | nil => exact absurd hk (Nat.not_lt_zero k)
  | append_singleton vs v ih =>
    rw [groupWrites_concat, lastOf_concat]
    by_cases e : k = vs.length
    · subst e
      simp
    · have hk' : k < vs.length := by
        rw [List.length_append, List.length_singleton] at hk
        omega
      rw [if_neg (show ¬ d + vs.length = d + k by omega), ih hk', List.getElem_append_left hk']

/-! ## All lanes -/

/-- A word result as a bit vector. -/
theorem writesW_of {i : Instr} {s : State} {d : Reg} {w : Nat → Nat} {v : Nat → Word} (h : WritesWord i s d w)
    (hv : ∀ l, w l = (v l).toNat) : WritesW i s d v := by
  rw [funext hv] at h
  exact h

section
variable {i : Instr} {s : State} {d : Reg} (hi : Issues i s)
include hi

/-- Lanes that each write a group of `n` registers and raise flags. -/
theorem group_writes {n : Nat} {v : (Nat → Nat → Nat) → Nat → Nat} {f : (Nat → Nat → Nat) → Nat} (hd : d.val + n ≤ 256)
    (hf : ∀ rd, f rd < 2 ^ 32) (hc : ∀ rd rd', ReadsAlike rd rd' → v rd = v rd' ∧ f rd = f rd')
    (he : exec i s = issueLanes i s fun c l u =>
      (u.wrGroup c.t l d ((List.range n).map (v (u.laneReads c.t l)))).raiseFlags c.t l (f (u.laneReads c.t l))) :
    WritesGroup i s d n (fun l => v (s.src · l ·)) fun l => f (s.src · l ·) := by
  refine (writes_of i s hi (fun _ rd => groupWrites d ((List.range n).map (v rd))) (fun _ => f) ((List.range n).map (d.val + ·))
    (fun _ _ => ?regs) (fun r hr => ?below) (fun _ => hf) (fun _ rd rd' h => ?reads) ?exec).congr (fun l r hr => ?value)
    fun _ => rfl
  case regs => rw [groupWrites_regs, List.length_map, List.length_range]
  case below =>
    obtain ⟨k, hk, rfl⟩ := List.mem_map.mp hr
    have := List.mem_range.mp hk
    omega
  case reads =>
    obtain ⟨hv, hf'⟩ := hc rd rd' h
    exact ⟨by rw [hv], hf'⟩
  case exec =>
    rw [he]
    simp only [wrGroup_eq_wrs]
    rfl
  case value =>
    obtain ⟨k, hk, rfl⟩ := List.mem_map.mp hr
    have hk := List.mem_range.mp hk
    rw [lastOf_groupWrites _ _ (by simpa using hk), Option.getD_some, List.getElem_map, List.getElem_range,
      Nat.add_sub_cancel_left]

/-- Lanes that each write a group and raise no flag. -/
theorem group_writes_quiet {n : Nat} {v : (Nat → Nat → Nat) → Nat → Nat} (hd : d.val + n ≤ 256)
    (hc : ∀ rd rd', ReadsAlike rd rd' → v rd = v rd')
    (he : exec i s = issueLanes i s fun c l u => u.wrGroup c.t l d ((List.range n).map (v (u.laneReads c.t l)))) :
    WritesGroup i s d n (fun l => v (s.src · l ·)) fun _ => 0 :=
  group_writes hi (f := fun _ => 0) hd (fun _ => FiveFlags.zero.lt_word) (fun rd rd' h => ⟨hc rd rd' h, rfl⟩)
    (by simp only [raiseFlags_zero]; exact he)

/-- Lanes that each write one word and raise flags. -/
theorem wordF_writes {f : (Nat → Nat → Nat) → Nat × Nat} (hf : ∀ rd, (f rd).2 < 2 ^ 32)
    (hc : ∀ rd rd', ReadsAlike rd rd' → f rd = f rd')
    (he : exec i s = issueLanes i s fun c l u => u.wrF c.t l d (f (u.laneReads c.t l))) :
    WritesF i s d fun l => f (s.src · l ·) :=
  group_writes hi (n := 1) (v := fun rd _ => (f rd).1) (f := fun rd => (f rd).2) d.isLt hf
    (fun rd rd' h => by rw [hc rd rd' h]; exact ⟨rfl, rfl⟩) he

/-- Lanes that each write one word. -/
theorem word_writes {f : (Nat → Nat → Nat) → Nat} (hc : ∀ rd rd', ReadsAlike rd rd' → f rd = f rd')
    (he : exec i s = issueLanes i s fun c l u => u.wr c.t l d (f (u.laneReads c.t l))) :
    WritesWord i s d fun l => f (s.src · l ·) :=
  group_writes_quiet hi (n := 1) (v := fun rd _ => f rd) d.isLt (fun rd rd' h => by rw [hc rd rd' h]) he

/-- Lanes that each write a pair and raise flags (R144). -/
theorem pairF_writes {f : (Nat → Nat → Nat) → Nat × Nat} (hd : d.val + 1 < 256) (hf : ∀ rd, (f rd).2 < 2 ^ 32)
    (hc : ∀ rd rd', ReadsAlike rd rd' → f rd = f rd')
    (he : exec i s = issueLanes i s fun c l u =>
      (u.wr64 c.t l d (f (u.laneReads c.t l)).1).raiseFlags c.t l (f (u.laneReads c.t l)).2) :
    Writes i s [d.val, d.val + 1] (fun l r => if r = d.val then (f (s.src · l ·)).1 else (f (s.src · l ·)).1 / 2 ^ 32)
      fun l => (f (s.src · l ·)).2 := by
  refine (group_writes hi (n := 2) (v := fun rd k => if k = 0 then (f rd).1 else (f rd).1 / 2 ^ 32)
    (f := fun rd => (f rd).2) hd hf (fun rd rd' h => by rw [hc rd rd' h]; exact ⟨rfl, rfl⟩) he).congr
    (fun l r hr => ?_) fun _ => rfl
  obtain ⟨k, -, rfl⟩ := List.mem_map.mp hr
  simp

/-- Lanes that each write a pair, given as a bit vector. -/
theorem pair_writes {f : (Nat → Nat → Nat) → Nat} {v : Nat → DWord} (hd : pairOk d = true)
    (hc : ∀ rd rd', ReadsAlike rd rd' → f rd = f rd')
    (he : exec i s = issueLanes i s fun c l u => u.wr64 c.t l d (f (u.laneReads c.t l)))
    (hv : ∀ l, f (s.src · l ·) = (v l).toNat) : WritesPair i s d v := by
  refine (pairF_writes hi (f := fun rd => (f rd, 0)) (pairOk_lt hd) (fun _ => FiveFlags.zero.lt_word)
    (fun rd rd' h => by rw [hc rd rd' h]) (by simp only [raiseFlags_zero]; exact he)).congr (fun l r _ => ?_) fun _ => rfl
  split <;> simp [hv]

/-- One word from one source word, as bit vectors. -/
theorem lane1_writesW {a : Reg} {f : Nat → Nat} {g : Word → Word} (he : exec i s = lane1 i d a f s)
    (hg : ∀ x : Word, f x.toNat = (g x).toNat) : WritesW i s d fun l => g (s.srcW 0 l a) :=
  writesW_of (lane1_writes i d a f s hi he) fun l => by rw [src_eq_srcW, hg]

/-- One word from two source words, as bit vectors. -/
theorem lane2_writesW {a b : Reg} {f : Nat → Nat → Nat} {g : Word → Word → Word}
    (he : exec i s = lane2 i d a b f s) (hg : ∀ x y : Word, f x.toNat y.toNat = (g x y).toNat) :
    WritesW i s d fun l => g (s.srcW 0 l a) (s.srcW 2 l b) :=
  writesW_of (lane2_writes i d a b f s hi he) fun l => by rw [src_eq_srcW, src_eq_srcW, hg]

/-- One word from three source words, as bit vectors. -/
theorem lane3_writesW {a b c : Reg} {f : Nat → Nat → Nat → Nat} {g : Word → Word → Word → Word}
    (he : exec i s = lane3 i d a b c f s) (hg : ∀ x y z : Word, f x.toNat y.toNat z.toNat = (g x y z).toNat) :
    WritesW i s d fun l => g (s.srcW 0 l a) (s.srcW 2 l b) (s.srcW 4 l c) :=
  writesW_of (lane3_writes i d a b c f s hi he) fun l => by rw [src_eq_srcW, src_eq_srcW, src_eq_srcW, hg]

end

end Sys2Proof.Machine
end

section
/-! Integers and words (R6, R172): the model's wrapping, its signed values and its bit ranges as operations on bit vectors. -/

namespace Sys2Proof.Machine

/-! ## Wrapping and signed values -/

theorem wrap_eq (w : Nat) (x : Int) : wrap w x = (BitVec.ofInt w x).toNat := by
  rw [BitVec.toNat_ofInt, Nat.cast_pow]
  rfl

theorem sint_eq {w : Nat} (x : BitVec w) : sint w x.toNat = x.toInt := by
  have hw : 2 ^ w = 2 * 2 ^ (w - 1) ∨ w = 0 := by
    cases w with
    | zero => exact .inr rfl
    | succ n => exact .inl (Nat.pow_succ')
  obtain hw | rfl := hw
  · simp only [sint, Nat.mod_eq_of_lt x.isLt, BitVec.toInt_eq_toNat_cond, Nat.cast_pow, Nat.cast_ofNat]
    split_ifs <;> omega
  · rw [BitVec.eq_nil x]
    rfl

theorem ival_toNat (ty : ITy) (x : Word) : ival ty x.toNat = ITy.int ty x := by
  rw [ival_eq, BitVec.ofNat_toNat, BitVec.setWidth_eq]

@[simp] theorem ofInt_int (ty : ITy) (x : Word) : BitVec.ofInt 32 (ITy.int ty x) = x := by
  cases ty with
  | i32 => exact BitVec.ofInt_toInt
  | n32 => exact (BitVec.ofInt_natCast ..).trans (BitVec.ofNat_toNat ..) |>.trans (BitVec.setWidth_eq x)

theorem ofInt_int_64 (ty : ITy) (x : Word) : BitVec.ofInt 64 (ITy.int ty x) = ITy.widen ty x := by
  cases ty with
  | i32 => rfl
  | n32 => exact (BitVec.ofInt_natCast ..).trans (BitVec.ofNat_toNat ..)

theorem ofInt_sub (w : Nat) (x y : Int) : BitVec.ofInt w (x - y) = BitVec.ofInt w x - BitVec.ofInt w y := by
  rw [Int.sub_eq_add_neg, BitVec.ofInt_add, BitVec.ofInt_neg, BitVec.sub_eq_add_neg]

theorem ofInt_toNat {w : Nat} (x : BitVec w) : BitVec.ofInt w x.toNat = x := by
  rw [BitVec.ofInt_natCast, BitVec.ofNat_toNat, BitVec.setWidth_eq]

theorem narrow_wrapped (ty : ITy) (x : Int) : narrow ty false x = (BitVec.ofInt 32 x).toNat := wrap_eq 32 x

theorem narrow_clamped (ty : ITy) (x : Int) : narrow ty true x = (ITy.clamp ty x).toNat := by
  cases ty with
  | i32 =>
    simp only [narrow, ITy.clamp, if_true]
    split_ifs with low high
    · rw [show max (-(2 : Int) ^ 31) (min x (2 ^ 31 - 1)) = -2147483648 by omega]
      rfl
    · rw [show max (-(2 : Int) ^ 31) (min x (2 ^ 31 - 1)) = 2147483647 by omega]
      rfl
    · rw [show max (-(2 : Int) ^ 31) (min x (2 ^ 31 - 1)) = x by omega, wrap_eq]
  | n32 =>
    simp only [narrow, ITy.clamp, if_true]
    split_ifs with low high
    · rw [show max 0 (min x ((2 : Int) ^ 32 - 1)) = 0 by omega]
      rfl
    · rw [show max 0 (min x ((2 : Int) ^ 32 - 1)) = 4294967295 by omega]
      rfl
    · rw [show max 0 (min x ((2 : Int) ^ 32 - 1)) = x by omega, wrap_eq]

/-- The high word of an integer of 64 bits. -/
theorem ofInt_high (x : Int) : BitVec.ofInt 32 (x / 2 ^ 32) = ((BitVec.ofInt 64 x) >>> 32).setWidth 32 := by
  apply BitVec.eq_of_toNat_eq
  simp only [BitVec.toNat_ofInt, BitVec.toNat_setWidth, BitVec.toNat_ushiftRight, Nat.shiftRight_eq_div_pow]
  omega

/-! ## Bits -/

theorem bit_eq_testBit (x i : Nat) : bit x i = x.testBit i := by
  rw [Nat.testBit_eq_decide_div_mod_eq]
  rfl

theorem bit_toNat {w : Nat} (x : BitVec w) (i : Nat) : bit x.toNat i = x.getLsbD i := bit_eq_testBit ..

theorem bit_toNat_eq {w : Nat} (x : BitVec w) : bit x.toNat = x.getLsbD := funext (bit_toNat x)

theorem bits_one (x i : Nat) : bits x i 1 = (bit x i).toNat := by
  have h : bits x i 1 < 2 := Nat.mod_lt _ (by decide)
  unfold bit
  interval_cases bits x i 1 <;> rfl

theorem bits_toNat {w : Nat} (x : BitVec w) (lo n : Nat) : bits x.toNat lo n = (x.extractLsb' lo n).toNat := by
  rw [BitVec.extractLsb'_toNat, Nat.shiftRight_eq_div_pow]
  rfl

theorem ofBits_succ (n : Nat) (f : Nat → Bool) : ofBits (n + 1) f = (f n).toNat * 2 ^ n + ofBits n f := by
  unfold ofBits
  rw [List.range_succ, List.foldl_concat]
  cases f n <;> simp [Nat.add_comm]

theorem ofBits_lt (n : Nat) (f : Nat → Bool) : ofBits n f < 2 ^ n := by
  induction n with
  | zero => exact Nat.one_pos
  | succ n ih =>
    rw [ofBits_succ, Nat.pow_succ']
    cases f n <;> simp <;> omega

/-- A word made from its bits has those bits. -/
theorem testBit_ofBits (n : Nat) (f : Nat → Bool) {i : Nat} (hi : i < n) : (ofBits n f).testBit i = f i := by
  induction n with
  | zero => exact absurd hi (Nat.not_lt_zero i)
  | succ n ih =>
    rw [ofBits_succ, Nat.mul_comm, Nat.testBit_two_pow_mul_add _ (ofBits_lt n f)]
    by_cases e : i < n
    · rw [if_pos e, ih e]
    · have hn : i = n := by omega
      subst hn
      rw [if_neg e, Nat.sub_self]
      cases f i <;> rfl

theorem ofBits_toNat (f : Nat → Bool) : ofBits 32 f = (BitVec.ofNat 32 (ofBits 32 f)).toNat :=
  (Nat.mod_eq_of_lt (ofBits_lt 32 f)).symm

theorem getLsbD_ofBits (f : Nat → Bool) {i : Nat} (hi : i < 32) : (BitVec.ofNat 32 (ofBits 32 f)).getLsbD i = f i := by
  rw [BitVec.getLsbD_ofNat, testBit_ofBits 32 f hi, decide_eq_true hi, Bool.true_and]

end Sys2Proof.Machine
end

section
/-! Sums and products of integers (R172): as operations on words, modulo 2^32, clamped to the type, or in 64 bits. -/

namespace Sys2Proof.Machine

/-! ## Words -/

section
variable (ty : ITy) (x y z : Word)

theorem iadd_word : narrow ty false (ival ty x.toNat + ival ty y.toNat) = (x + y).toNat := by
  rw [narrow_wrapped, ival_toNat, ival_toNat, BitVec.ofInt_add, ofInt_int, ofInt_int]

theorem isub_word : narrow ty false (ival ty x.toNat - ival ty y.toNat) = (x - y).toNat := by
  rw [narrow_wrapped, ival_toNat, ival_toNat, ofInt_sub, ofInt_int, ofInt_int]

theorem imul_word : narrow ty false (ival ty x.toNat * ival ty y.toNat) = (x * y).toNat := by
  rw [narrow_wrapped, ival_toNat, ival_toNat, BitVec.ofInt_mul, ofInt_int, ofInt_int]

theorem imad_word : narrow ty false (ival ty x.toNat * ival ty y.toNat + ival ty z.toNat) = (x * y + z).toNat := by
  rw [narrow_wrapped, ival_toNat, ival_toNat, ival_toNat, BitVec.ofInt_add, BitVec.ofInt_mul, ofInt_int, ofInt_int, ofInt_int]

theorem iadd_clamped : narrow ty true (ival ty x.toNat + ival ty y.toNat)
    = (ITy.clamp ty (ITy.int ty x + ITy.int ty y)).toNat := by
  rw [narrow_clamped, ival_toNat, ival_toNat]

theorem isub_clamped : narrow ty true (ival ty x.toNat - ival ty y.toNat)
    = (ITy.clamp ty (ITy.int ty x - ITy.int ty y)).toNat := by
  rw [narrow_clamped, ival_toNat, ival_toNat]

theorem imul_clamped : narrow ty true (ival ty x.toNat * ival ty y.toNat)
    = (ITy.clamp ty (ITy.int ty x * ITy.int ty y)).toNat := by
  rw [narrow_clamped, ival_toNat, ival_toNat]

theorem imad_clamped : narrow ty true (ival ty x.toNat * ival ty y.toNat + ival ty z.toNat)
    = (ITy.clamp ty (ITy.int ty x * ITy.int ty y + ITy.int ty z)).toNat := by
  rw [narrow_clamped, ival_toNat, ival_toNat, ival_toNat]

theorem imulh_word : imulhVal ty x.toNat y.toNat = (((ITy.widen ty x * ITy.widen ty y) >>> 32).setWidth 32).toNat := by
  unfold imulhVal
  rw [wrap_eq, ival_toNat, ival_toNat, ofInt_high, BitVec.ofInt_mul, ofInt_int_64, ofInt_int_64]

theorem imadw_dword (c : DWord) : imadwVal ty x.toNat y.toNat c.toNat = (ITy.widen ty x * ITy.widen ty y + c).toNat := by
  unfold imadwVal
  rw [wrap_eq, ival_toNat, ival_toNat, BitVec.ofInt_add, BitVec.ofInt_mul, ofInt_int_64, ofInt_int_64, ofInt_toNat]

end

/-! ## Instructions -/

theorem imadw_writes {s : State} {h : Hdr} {d a b c : Reg} {ty : ITy} (hw : (Instr.imadw h d a b c ty).wf = true)
    (hi : Issues (.imadw h d a b c ty) s) :
    WritesPair (.imadw h d a b c ty) s d fun l =>
      ITy.widen ty (s.srcW 0 l a) * ITy.widen ty (s.srcW 2 l b) + s.srcD 4 l c := by
  obtain ⟨hd, hc⟩ : pairOk d = true ∧ pairOk c = true := by simpa [Instr.wf] using hw
  refine pair_writes hi (f := fun rd => imadwVal ty (rd 0 a) (rd 2 b) (pairOf rd 4 c)) hd (fun rd rd' e => ?_) rfl fun l => ?_
  · rw [e.reg 0 a, e.reg 2 b, e.pair 4 (pairOk_lt hc)]
  · show imadwVal ty (s.src 0 l a) (s.src 2 l b) (s.src64 4 l c) = _
    rw [src_eq_srcW, src_eq_srcW, src64_eq_srcD, imadw_dword]

end Sys2Proof.Machine

open Sys2Proof Sys2Proof.Machine

/-- Settles O11: wrapping is a ring homomorphism from the integers to words, so the type matters only to what is clamped and to
the high words of products. -/
theorem integerResults : Obligations.IntegerResults := by
  unfold Obligations.IntegerResults
  refine ⟨fun s h d a b c ty => ⟨fun hi => ?iadd, fun hi => ?iaddSat, fun hi => ?isub, fun hi => ?isubSat, fun hi => ?imul,
    fun hi => ?imulSat, fun hi => ?imad, fun hi => ?imadSat⟩, fun s h d a b c ty => ⟨fun hi => ?imulh, imadw_writes⟩⟩
  case iadd =>
    exact lane2_writesW hi (f := fun x y => narrow ty false (ival ty x + ival ty y)) rfl (iadd_word ty)
  case iaddSat =>
    exact lane2_writesW hi (f := fun x y => narrow ty true (ival ty x + ival ty y)) rfl (iadd_clamped ty)
  case isub =>
    exact lane2_writesW hi (f := fun x y => narrow ty false (ival ty x - ival ty y)) rfl (isub_word ty)
  case isubSat =>
    exact lane2_writesW hi (f := fun x y => narrow ty true (ival ty x - ival ty y)) rfl (isub_clamped ty)
  case imul =>
    exact lane2_writesW hi (f := fun x y => narrow ty false (ival ty x * ival ty y)) rfl (imul_word ty)
  case imulSat =>
    exact lane2_writesW hi (f := fun x y => narrow ty true (ival ty x * ival ty y)) rfl (imul_clamped ty)
  case imad =>
    exact lane3_writesW hi (f := fun x y z => narrow ty false (ival ty x * ival ty y + ival ty z)) rfl
      (imad_word ty)
  case imadSat =>
    exact lane3_writesW hi (f := fun x y z => narrow ty true (ival ty x * ival ty y + ival ty z)) rfl
      (imad_clamped ty)
  case imulh => exact lane2_writesW hi (f := imulhVal ty) rfl (imulh_word ty)

end

section
/-! Sums and comparisons of pairs (R144, R175). -/

namespace Sys2Proof.Machine

/-! ## Double words -/

/-- The index of `lea`, widened as its modifier says (R175). -/
theorem ofInt_index (ixs : Bool) (y : Word) : BitVec.ofInt 64 (if ixs then sint 32 y.toNat else (y.toNat : Int))
    = if ixs then y.signExtend 64 else y.setWidth 64 := by
  cases ixs with
  | true => exact congrArg (BitVec.ofInt 64) (sint_eq y)
  | false => exact ofInt_int_64 .n32 y

theorem lea_dword (ixs : Bool) (scl : Scale) (x : DWord) (y : Word) :
    leaVal ixs scl x.toNat y.toNat
      = (x + (if ixs then y.signExtend 64 else y.setWidth 64) * BitVec.ofInt 64 (2 ^ scl.code)).toNat := by
  unfold leaVal
  rw [wrap_eq, BitVec.ofInt_add, BitVec.ofInt_mul, ofInt_toNat, ofInt_index]

theorem add64_dword (sub : Bool) (x y : DWord) :
    add64Val sub x.toNat y.toNat = (if sub then x - y else x + y).toNat := by
  unfold add64Val
  rw [wrap_eq]
  cases sub with
  | true => exact congrArg BitVec.toNat ((ofInt_sub ..).trans (congrArg₂ _ (ofInt_toNat x) (ofInt_toNat y)))
  | false => exact congrArg BitVec.toNat ((BitVec.ofInt_add ..).trans (congrArg₂ _ (ofInt_toNat x) (ofInt_toNat y)))

theorem cond64Holds_iff (cc : Cond64) (x y : DWord) : cond64Holds cc x.toNat y.toNat = true ↔ Cond64.Holds cc x y := by
  unfold cond64Holds
  rw [sint_eq, sint_eq]
  cases cc <;> simp [Cond64.Holds, BitVec.toNat_inj]

/-! ## Instructions -/

section
variable {s : State} {h : Hdr} {d a b : Reg}

theorem lea_writes {ixs : Bool} {scl : Scale} (hw : (Instr.lea h d a b ixs scl).wf = true)
    (hi : Issues (.lea h d a b ixs scl) s) :
    WritesPair (.lea h d a b ixs scl) s d fun l =>
      s.srcD 0 l a + (if ixs then (s.srcW 2 l b).signExtend 64 else (s.srcW 2 l b).setWidth 64)
        * BitVec.ofInt 64 (2 ^ scl.code) := by
  obtain ⟨hd, ha⟩ : pairOk d = true ∧ pairOk a = true := by simpa [Instr.wf] using hw
  refine pair_writes hi (f := fun rd => leaVal ixs scl (pairOf rd 0 a) (rd 2 b)) hd (fun rd rd' e => ?_) rfl fun l => ?_
  · rw [e.pair 0 (pairOk_lt ha), e.reg 2 b]
  · show leaVal ixs scl (s.src64 0 l a) (s.src 2 l b) = _
    rw [src64_eq_srcD, src_eq_srcW, lea_dword]

theorem add64_writes {sub : Bool} (hw : (Instr.add64 h d a b sub).wf = true) (hi : Issues (.add64 h d a b sub) s) :
    WritesPair (.add64 h d a b sub) s d fun l =>
      if sub then s.srcD 0 l a - s.srcD 2 l b else s.srcD 0 l a + s.srcD 2 l b := by
  obtain ⟨⟨hd, ha⟩, hb⟩ : (pairOk d = true ∧ pairOk a = true) ∧ pairOk b = true := by simpa [Instr.wf] using hw
  refine pair_writes hi (f := fun rd => add64Val sub (pairOf rd 0 a) (pairOf rd 2 b)) hd (fun rd rd' e => ?_) rfl fun l => ?_
  · rw [e.pair 0 (pairOk_lt ha), e.pair 2 (pairOk_lt hb)]
  · show add64Val sub (s.src64 0 l a) (s.src64 2 l b) = _
    rw [src64_eq_srcD, src64_eq_srcD, add64_dword]

theorem cmp64_writes {p : Pred} {cc : Cond64} (hw : (Instr.cmp64 h p a b cc).wf = true) (hi : Issues (.cmp64 h p a b cc) s) :
    WritesPred (.cmp64 h p a b cc) s p fun l => (cond64Holds cc (s.src64 0 l a) (s.src64 2 l b), 0) := by
  obtain ⟨ha, hb⟩ : pairOk a = true ∧ pairOk b = true := by simpa [Instr.wf] using hw
  refine writesPred_quiet hi (f := fun rd => cond64Holds cc (pairOf rd 0 a) (pairOf rd 2 b)) (fun rd rd' e => ?_) rfl
  have e : ReadsAlike rd rd' := e
  rw [e.pair 0 (pairOk_lt ha), e.pair 2 (pairOk_lt hb)]

end

end Sys2Proof.Machine

open Sys2Proof Sys2Proof.Machine

/-- Settles O12: each instruction is one integer operation on the numbers of its pairs, taken modulo 2^64. -/
theorem addressArithmetic : Obligations.AddressArithmetic := by
  unfold Obligations.AddressArithmetic
  refine fun s h d a b => ⟨fun ixs scl hw hi => ?lea, fun sub => add64_writes,
    fun p cc hw hi => ⟨_, fun l => ?cmp64, cmp64_writes hw hi⟩⟩
  case lea => cases scl <;> exact lea_writes hw hi
  case cmp64 => rw [src64_eq_srcD, src64_eq_srcD, cond64Holds_iff]

end

section
/-! Addition with a carry (R173): each lane writes a word and then the predicate of its carry out. -/

namespace Sys2Proof.Machine

/-! ## Lanes that leave functions of their registers -/

/-- An update of one lane's registers: `word` says what each register word is then, by what the lane's sources find. -/
structure LaneWords (F : Nat → Nat → (Nat → Nat → Nat) → State → State) (word : (Nat → Nat → Nat) → Nat → Nat → Nat) :
    Prop where
  reads : ∀ t, OwnReads t (F t)
  reg : ∀ t l rd u r, r < 256 → (F t l rd u).reg t l r = word rd r (u.reg t l r)
  other : ∀ t l rd u k, (∀ r, r < 256 → k ≠ regKey t l r) → (F t l rd u).regs.get 0 k = u.regs.get 0 k
  again : ∀ rd r old, word rd r (word rd r old) = word rd r old
  frame : ∀ p t l rd u, LanesOnly p u (F t l rd u)

section
variable {F : Nat → Nat → (Nat → Nat → Nat) → State → State} {word : (Nat → Nat → Nat) → Nat → Nat → Nat}
  (hF : LaneWords F word)
include hF

theorem LaneWords.reg_other {t l x r : Nat} (hr : r < 256) (hx : x ≠ l) (rd : Nat → Nat → Nat) (u : State) :
    (F t l rd u).reg t x r = u.reg t x r := by
  unfold State.reg
  rw [hF.other _ _ _ _ _ fun q hq h => hx (regKey_inj hr hq h).1]

theorem LaneWords.eachLane_reg (t : Nat) (rd : Nat → Nat → Nat → Nat) (ls : List Nat) (u : State) (l : Nat) {r : Nat}
    (hr : r < 256) :
    (eachLane ls (fun x u => F t x (rd x) u) u).reg t l r
      = if l ∈ ls then word (rd l) r (u.reg t l r) else u.reg t l r := by
  induction ls generalizing u with
  | nil => rfl
  | cons x ls ih =>
    refine (ih (F t x (rd x) u)).trans ?_
    by_cases e : l = x
    · subst e
      rw [hF.reg _ _ _ _ _ hr, hF.again, ite_self, if_pos List.mem_cons_self]
    · rw [hF.reg_other hr e]
      simp only [List.mem_cons, e, false_or]

/-- An instruction whose lanes update their registers so. -/
theorem LaneWords.leaves {i : Instr} {s : State} (hi : Issues i s)
    (he : exec i s = issueLanes i s fun c l u => F c.t l (u.laneReads c.t l) u) :
    Leaves i s fun l r => word (s.src · l ·) r (s.reg s.issTeam l r) := by
  refine ⟨_, he.trans (issueLanes_reads hi (hF.reads s.issTeam)), fun l hl r hr => ?_, fun k hk => ?_, ?_⟩
  · unfold State.reg
    rw [finish_regs]
    refine (hF.eachLane_reg s.issTeam (fun l => (s.src · l ·)) (s.actors i) s.issued l hr).trans ?_
    rw [if_pos hl]
    unfold State.reg
    rw [issued_regs]
  · rw [finish_regs]
    refine (eachLane_get_of_kept (fun x hx u => ?_) s.issued).trans (by rw [issued_regs])
    exact hF.other _ _ _ _ _ (hk x hx)
  · exact (issued_frame s).trans ((LanesOnly.foldl _ (fun u l => hF.frame ..) _ _).trans (lanesOnly_finish ..))

end

/-! ## A word and a carry -/

/-- A word is written, and then a predicate. -/
def State.wrCarry (s : State) (t l : Nat) (d : Reg) (p : Pred) (v : Nat × Bool) : State :=
  (s.wr t l d v.1).wrPred t l p v.2

/-- What each register word of the lane is then. -/
def carryWord (d : Reg) (p : Pred) (v : Nat × Bool) (r old : Nat) : Nat :=
  putPred p v.2 r (if r = d.val then v.1 % 2 ^ 32 else old)

theorem wr_reg (s : State) (t l r v : Nat) {q : Nat} (hr : r < 256) (hq : q < 256) :
    (s.wr t l r v).reg t l q = if q = r then v % 2 ^ 32 else s.reg t l q := by
  unfold State.reg
  rw [wr_get]
  by_cases e : q = r
  · rw [if_pos (congrArg _ e), if_pos e, BitVec.toNat_ofNat]
  · rw [if_neg fun h => e (regKey_inj hq hr h).2, if_neg e]

/-- Writing the same predicate again changes nothing. -/
theorem putPred_putPred (p : Pred) (b : Bool) (r old : Nat) : putPred p b r (putPred p b r old) = putPred p b r old := by
  unfold putPred
  split_ifs
  · rfl
  · rw [Nat.or_assoc, Nat.or_self]
  · rw [Nat.and_assoc, Nat.and_self]

theorem laneWords_wrCarry (d : Reg) (p : Pred) {v : (Nat → Nat → Nat) → Nat × Bool}
    (hc : ∀ rd rd', ReadsAlike rd rd' → v rd = v rd') :
    LaneWords (fun t l rd u => u.wrCarry t l d p (v rd)) fun rd => carryWord d p (v rd) where
  reads t := {
    congr := fun l rd rd' h => by rw [hc rd rd' h]
    pre := fun l rd u => by
      unfold State.wrCarry
      rw [wrPred_issue]
      rfl
    others := fun rd u h => (sameReads_wr u t _ _ _ _ h d.isLt).trans (sameReads_wrPred _ p _ h) }
  reg t l rd u r hr := by
    unfold State.wrCarry carryWord
    rw [wrPred_reg _ _ _ _ _ hr, wr_reg _ _ _ _ _ d.isLt hr]
  other t l rd u k hk := by
    unfold State.wrCarry
    rw [wrPred_get_other _ _ _ _ _ (hk _ (predReg_lt p)), wr_get, if_neg (hk d d.isLt)]
  again rd r old := by
    unfold carryWord
    by_cases e : r = d.val
    · rw [if_pos e, if_pos e]
    · rw [if_neg e, if_neg e, putPred_putPred]
  frame q t l rd u := (lanesOnly_wr ..).trans (lanesOnly_wrPred ..)

/-! ## The instruction -/

/-- What a lane's sources give for `iadc` (R173). -/
def iadcOf (a b : Reg) (p : Pred) (sub : Bool) (rd : Nat → Nat → Nat) : Nat × Bool :=
  iadcVal sub (rd 0 a) (rd 2 b) (if p.val = 0 then 0 else b2n (predOf rd 4 ⟨false, p⟩))

theorem iadcOf_congr (a b : Reg) (p : Pred) (sub : Bool) {rd rd' : Nat → Nat → Nat} (h : ReadsAlike rd rd') :
    iadcOf a b p sub rd = iadcOf a b p sub rd' := by
  unfold iadcOf
  rw [h.reg 0 a, h.reg 2 b, predOf_congr h]

theorem iadc_leaves {s : State} {h : Hdr} {d a b : Reg} {p : Pred} {sub : Bool} (hi : Issues (.iadc h d a b p sub) s) :
    Leaves (.iadc h d a b p sub) s fun l r => carryWord d p (iadcOf a b p sub (s.src · l ·)) r (s.reg s.issTeam l r) :=
  (laneWords_wrCarry d p fun _ _ => iadcOf_congr a b p sub).leaves hi rfl

theorem not_toNat (x : Word) : x.toNat ^^^ 0xFFFFFFFF = (~~~x).toNat := by
  rw [← BitVec.xor_allOnes, BitVec.toNat_xor]
  rfl

/-- The sum that `iadc` splits into a word and a carry. -/
theorem iadcVal_word (sub : Bool) (x y : Word) (cin : Nat) :
    iadcVal sub x.toNat y.toNat cin
      = ((x.toNat + (if sub then ~~~y else y).toNat + cin) % 2 ^ 32,
        decide (2 ^ 32 ≤ x.toNat + (if sub then ~~~y else y).toNat + cin)) := by
  unfold iadcVal
  rw [not_toNat]
  cases sub <;> rfl

end Sys2Proof.Machine

open Sys2Proof Sys2Proof.Machine

/-- Settles O15: the word is written first, so that a predicate that lies in the destination keeps its carry. -/
theorem carryAddition : Obligations.CarryAddition := by
  unfold Obligations.CarryAddition
  intro s h d a b p sub hi sum
  have value : ∀ l, iadcOf a b p sub (s.src · l ·) = (sum l % 2 ^ 32, decide (2 ^ 32 ≤ sum l)) := fun l => by
    have carry : (if p.val = 0 then 0 else b2n (predOf (s.src · l ·) 4 ⟨false, p⟩))
        = if p.val ≠ 0 ∧ s.srcP 4 l ⟨false, p⟩ = true then 1 else 0 := by
      show (if p.val = 0 then 0 else b2n (s.srcP 4 l ⟨false, p⟩)) = _
      by_cases hp : p.val = 0 <;> simp [hp, b2n]
    unfold iadcOf
    rw [carry]
    show iadcVal sub (s.src 0 l a) (s.src 2 l b) _ = _
    rw [src_eq_srcW, src_eq_srcW, iadcVal_word]
  have leaves := iadc_leaves hi
  simp only [value, carryWord, Nat.mod_mod] at leaves
  exact leaves

end

section
/-! Choices, moves, shifts and logic (R172) as operations on words. -/

namespace Sys2Proof.Machine

/-! ## Choices and moves -/

theorem minVal_word (ty : ITy) (x y : Word) :
    minVal ty x.toNat y.toNat = (if ITy.int ty x ≤ ITy.int ty y then x else y).toNat := by
  unfold minVal
  rw [ival_toNat, ival_toNat, apply_ite BitVec.toNat]

theorem maxVal_word (ty : ITy) (x y : Word) :
    maxVal ty x.toNat y.toNat = (if ITy.int ty x ≤ ITy.int ty y then y else x).toNat := by
  unfold maxVal
  rw [ival_toNat, ival_toNat, apply_ite BitVec.toNat]

/-- The one word whose opposite and absolute value are no signed words. -/
theorem toInt_eq_least (x : Word) : x.toInt = -2147483648 ↔ x = 0x80000000#32 :=
  ⟨fun h => BitVec.eq_of_toInt_eq h, fun h => h ▸ rfl⟩

/-- Clamping changes no value of a signed word. -/
theorem narrow_i32_inRange {x : Int} (low : -2147483648 ≤ x) (high : x ≤ 2147483647) (sat : Bool) :
    narrow .i32 sat x = (BitVec.ofInt 32 x).toNat := by
  cases sat with
  | false => exact narrow_wrapped .i32 x
  | true =>
    rw [narrow_clamped]
    unfold ITy.clamp
    rw [if_neg (by omega), if_neg (by omega)]

/-- 2^31 is clamped to the greatest signed word, or wraps to the least (R172). -/
theorem narrow_i32_over (sat : Bool) :
    narrow .i32 sat 2147483648 = (if sat then 0x7FFFFFFF#32 else 0x80000000#32).toNat := by
  cases sat <;> rfl

theorem inegVal_word (sat : Bool) (x : Word) : inegVal sat x.toNat
    = (if x = 0x80000000#32 then (if sat then 0x7FFFFFFF#32 else 0x80000000#32) else -x).toNat := by
  unfold inegVal
  rw [sint_eq]
  by_cases e : x = 0x80000000#32
  · rw [if_pos e, (toInt_eq_least x).mpr e]
    exact narrow_i32_over sat
  · have least := mt (toInt_eq_least x).mp e
    have low := x.le_toInt
    have high := x.toInt_lt
    rw [if_neg e, narrow_i32_inRange (by omega) (by omega), BitVec.ofInt_neg, BitVec.ofInt_toInt]

theorem iabsVal_word (sat : Bool) (x : Word) : iabsVal sat x.toNat
    = (if x = 0x80000000#32 then (if sat then 0x7FFFFFFF#32 else 0x80000000#32)
      else if x.toInt < 0 then -x else x).toNat := by
  by_cases neg : x.toInt < 0
  · rw [if_pos neg, ← inegVal_word]
    unfold iabsVal inegVal
    rw [sint_eq, Int.ofNat_natAbs_of_nonpos (Int.le_of_lt neg)]
  · have e : x ≠ 0x80000000#32 := fun e => neg (by rw [e]; decide)
    have high := x.toInt_lt
    unfold iabsVal
    rw [sint_eq, Int.natAbs_of_nonneg (Int.not_lt.mp neg), narrow_i32_inRange (by omega) (by omega), BitVec.ofInt_toInt,
      if_neg e, if_neg neg]

theorem movi_word (imm : BitVec 28) : wrap 32 (sint 28 imm.toNat) = (imm.signExtend 32).toNat := by
  rw [wrap_eq, sint_eq]
  rfl

theorem movhi_word (imm : BitVec 16) (x : Word) :
    imm.toNat * 2 ^ 16 + x.toNat % 2 ^ 16 = (imm ++ x.setWidth 16).toNat := by
  rw [BitVec.toNat_append, BitVec.toNat_setWidth, ← Nat.shiftLeft_add_eq_or_of_lt (Nat.mod_lt _ (by decide)),
    Nat.shiftLeft_eq]

/-! ## Shifts -/

theorem shlVal_word (x y : Word) : shlVal x.toNat y.toNat = (x <<< y.toNat).toNat := by
  unfold shlVal
  rw [BitVec.toNat_shiftLeft, Nat.shiftLeft_eq]
  split_ifs with h
  · rfl
  · have zero : 2 ^ 32 ∣ x.toNat * 2 ^ y.toNat := Dvd.dvd.mul_left (pow_dvd_pow 2 (Nat.le_of_not_lt h)) _
    exact (Nat.mod_eq_zero_of_dvd zero).symm

theorem shrVal_word (x y : Word) : shrVal x.toNat y.toNat = (x >>> y.toNat).toNat := by
  unfold shrVal
  rw [BitVec.toNat_ushiftRight, Nat.shiftRight_eq_div_pow]
  split_ifs with h
  · rfl
  · have small : x.toNat < 2 ^ y.toNat :=
      Nat.lt_of_lt_of_le x.isLt (Nat.pow_le_pow_right (by decide) (Nat.le_of_not_lt h))
    exact (Nat.div_eq_of_lt small).symm

/-- From 31 places on an arithmetic shift leaves the sign alone. -/
theorem toInt_div_min (x : Word) (n : Nat) : x.toInt / 2 ^ min n 31 = x.toInt / 2 ^ n := by
  by_cases h : n ≤ 31
  · rw [Nat.min_eq_left h]
  · have low := x.le_toInt
    have high := x.toInt_lt
    have big : (2 : Int) ^ 31 ≤ 2 ^ n := pow_le_pow_right₀ (by decide) (by omega)
    rw [Nat.min_eq_right (by omega)]
    by_cases neg : x.toInt < 0
    · have all (m : Int) (hm : (2 : Int) ^ 31 ≤ m) : x.toInt / m = -1 :=
        (Int.ediv_eq_iff_of_pos (by omega)).mpr (by omega)
      rw [all _ (le_refl _), all _ big]
    · rw [Int.ediv_eq_zero_of_lt (by omega) (by omega), Int.ediv_eq_zero_of_lt (by omega) (by omega)]

theorem shaVal_word (x y : Word) : shaVal x.toNat y.toNat = (x.sshiftRight y.toNat).toNat := by
  unfold shaVal
  rw [wrap_eq, sint_eq, toInt_div_min, BitVec.sshiftRight_eq, Int.shiftRight_eq_div_pow, Nat.cast_pow, Nat.cast_ofNat]

/-- A rotation left as a sum of the bits that stay and those that come round. -/
theorem toNat_rotateLeft_add (x : Word) {n : Nat} (hn : n < 32) :
    (x.rotateLeft n).toNat = x.toNat * 2 ^ n % 2 ^ 32 + x.toNat / 2 ^ (32 - n) := by
  have round : x.toNat / 2 ^ (32 - n) < 2 ^ n := by
    rw [Nat.div_lt_iff_lt_mul (Nat.two_pow_pos _), ← Nat.pow_add, Nat.add_sub_cancel' (Nat.le_of_lt hn)]
    exact x.isLt
  have stay : x.toNat * 2 ^ n % 2 ^ 32 = (x.toNat % 2 ^ (32 - n)) <<< n := by
    rw [Nat.shiftLeft_eq, ← Nat.mul_mod_mul_right, ← Nat.pow_add, Nat.sub_add_cancel (Nat.le_of_lt hn)]
  rw [BitVec.toNat_rotateLeft, Nat.mod_eq_of_lt hn, Nat.shiftLeft_eq, Nat.shiftRight_eq_div_pow, stay,
    Nat.shiftLeft_add_eq_or_of_lt round]

theorem rotateRight_eq_rotateLeft (x : Word) {n : Nat} (hn : n < 32) : x.rotateRight n = x.rotateLeft ((32 - n) % 32) := by
  by_cases h0 : n = 0
  · subst h0
    exact BitVec.eq_of_toNat_eq (by
      simp [BitVec.rotateRight_def, BitVec.rotateLeft_def, Nat.shiftRight_eq_div_pow, Nat.div_eq_of_lt x.isLt])
  · rw [BitVec.rotateRight_def, BitVec.rotateLeft_def, Nat.mod_mod, Nat.mod_eq_of_lt hn,
      Nat.mod_eq_of_lt (show 32 - n < 32 by omega), Nat.sub_sub_self (Nat.le_of_lt hn), BitVec.or_comm]

theorem rotVal_word (right : Bool) (x y : Word) : rotVal right x.toNat y.toNat
    = (if right then x.rotateRight (y.toNat % 32) else x.rotateLeft (y.toNat % 32)).toNat := by
  have hn : y.toNat % 32 < 32 := Nat.mod_lt _ (by decide)
  cases right with
  | true =>
    exact (toNat_rotateLeft_add x (Nat.mod_lt _ (by decide))).symm.trans
      (congrArg BitVec.toNat (rotateRight_eq_rotateLeft x hn).symm)
  | false => exact (toNat_rotateLeft_add x hn).symm

/-- A pair of words as one double word. -/
theorem toNat_pair (x y : Word) : (y ++ x).toNat = y.toNat * 2 ^ 32 + x.toNat := by
  rw [BitVec.toNat_append, ← Nat.shiftLeft_add_eq_or_of_lt x.isLt, Nat.shiftLeft_eq]

theorem fshVal_word (left : Bool) (x y z : Word) : fshVal left x.toNat y.toNat z.toNat
    = (if left then (((y ++ x) <<< (z.toNat % 32)) >>> 32).setWidth 32
      else ((y ++ x) >>> (z.toNat % 32)).setWidth 32).toNat := by
  unfold fshVal
  rw [← toNat_pair]
  cases left with
  | true =>
    show (y ++ x).toNat * 2 ^ (z.toNat % 32) / 2 ^ 32 % 2 ^ 32 = (((y ++ x) <<< (z.toNat % 32) >>> 32).setWidth 32).toNat
    rw [BitVec.toNat_setWidth, BitVec.toNat_ushiftRight, BitVec.toNat_shiftLeft, Nat.shiftLeft_eq, Nat.shiftRight_eq_div_pow]
    generalize (y ++ x).toNat * 2 ^ (z.toNat % 32) = v
    omega
  | false =>
    show (y ++ x).toNat / 2 ^ (z.toNat % 32) / 2 ^ 0 % 2 ^ 32 = (((y ++ x) >>> (z.toNat % 32)).setWidth 32).toNat
    rw [BitVec.toNat_setWidth, BitVec.toNat_ushiftRight, Nat.shiftRight_eq_div_pow, Nat.pow_zero, Nat.div_one]

/-! ## Bits of words -/

/-- The place of a bit in the table of `lop3`. -/
theorem lop3Val_bit (lut : Fin 256) (x y z : Word) {i : Nat} (hi : i < 32) :
    (BitVec.ofNat 32 (lop3Val lut x.toNat y.toNat z.toNat)).getLsbD i
      = (BitVec.ofNat 8 lut.val).getLsbD (4 * (x.getLsbD i).toNat + 2 * (y.getLsbD i).toNat + (z.getLsbD i).toNat) := by
  unfold lop3Val
  rw [getLsbD_ofBits _ hi, bits_one, bits_one, bits_one, bit_toNat, bit_toNat, bit_toNat, bit_eq_testBit, BitVec.getLsbD_ofNat]
  have hx := (x.getLsbD i).toNat_lt
  have hy := (y.getLsbD i).toNat_lt
  have hz := (z.getLsbD i).toNat_lt
  rw [decide_eq_true (by omega), Bool.true_and]

theorem popcVal_word (x : Word) : popcVal x.toNat = ((List.range 32).filter fun i => x.getLsbD i).length := by
  unfold popcVal
  rw [bit_toNat_eq]

theorem brevVal_bit (x : Word) {i : Nat} (hi : i < 32) :
    (BitVec.ofNat 32 (brevVal x.toNat)).getLsbD i = x.getLsbD (31 - i) := by
  unfold brevVal
  rw [getLsbD_ofBits _ hi, bit_toNat]

/-- The first place below `n` at which a test holds, or `n`. -/
theorem find_range (n : Nat) (q : Nat → Bool) :
    ((List.range n).find? q).getD n ≤ n ∧ (∀ i, i < ((List.range n).find? q).getD n → q i = false)
      ∧ (((List.range n).find? q).getD n < n → q (((List.range n).find? q).getD n) = true) := by
  cases h : (List.range n).find? q with
  | none =>
    refine ⟨le_refl n, fun i hi => ?_, fun hn => absurd hn (Nat.lt_irrefl n)⟩
    simpa using List.find?_eq_none.mp h i (List.mem_range.mpr hi)
  | some k =>
    have hk : q k = true ∧ k < n ∧ ∀ i < k, q i = false := by
      simpa using List.find?_range_eq_some.mp h
    obtain ⟨holds, below, before⟩ := hk
    exact ⟨Nat.le_of_lt below, before, fun _ => holds⟩

theorem clzVal_spec (x : Word) : clzVal x.toNat ≤ 32 ∧ (∀ i, i < clzVal x.toNat → x.getMsbD i = false)
    ∧ (clzVal x.toNat < 32 → x.getMsbD (clzVal x.toNat) = true) := by
  obtain ⟨le, before, at_⟩ := find_range 32 fun i => bit x.toNat (31 - i)
  have msb {i : Nat} (hi : i < 32) : x.getMsbD i = bit x.toNat (31 - i) := by
    rw [BitVec.getMsbD_eq_getLsbD, decide_eq_true hi, Bool.true_and, bit_toNat]
  exact ⟨le, fun i hi => (msb (Nat.lt_of_lt_of_le hi le)).trans (before i hi), fun hlt => (msb hlt).trans (at_ hlt)⟩

theorem ctzVal_spec (x : Word) : ctzVal x.toNat ≤ 32 ∧ (∀ i, i < ctzVal x.toNat → x.getLsbD i = false)
    ∧ (ctzVal x.toNat < 32 → x.getLsbD (ctzVal x.toNat) = true) := by
  unfold ctzVal
  rw [bit_toNat_eq]
  exact find_range 32 x.getLsbD

end Sys2Proof.Machine
end

section
/-! O13 (R172): choices, moves, shifts and logic. -/

namespace Sys2Proof.Machine

section
variable {s : State} {h : Hdr} {d a b c : Reg}

theorem sel_writes {p : PSrc} (hi : Issues (.sel h d a b p) s) :
    WritesW (.sel h d a b p) s d fun l => if s.srcP 4 l p then s.srcW 0 l a else s.srcW 2 l b := by
  refine writesW_of (word_writes hi (f := fun rd => if predOf rd 4 p then rd 0 a else rd 2 b) (fun rd rd' e => ?_) rfl)
    fun l => ?_
  · rw [predOf_congr e, e.reg 0 a, e.reg 2 b]
  · show (if s.srcP 4 l p then s.src 0 l a else s.src 2 l b) = _
    rw [src_eq_srcW, src_eq_srcW, apply_ite BitVec.toNat]

theorem movi_writes {imm : BitVec 28} (hi : Issues (.movi h d imm) s) :
    WritesW (.movi h d imm) s d fun _ => imm.signExtend 32 :=
  writesW_of (word_writes hi (f := fun _ => wrap 32 (sint 28 imm.toNat)) (fun _ _ _ => rfl) rfl) fun _ => movi_word imm

theorem lop3_writes {lut : Fin 256} (hi : Issues (.lop3 h d a b c lut) s) :
    WritesW (.lop3 h d a b c lut) s d fun l =>
      BitVec.ofNat 32 (lop3Val lut (s.srcW 0 l a).toNat (s.srcW 2 l b).toNat (s.srcW 4 l c).toNat) :=
  lane3_writesW hi (f := lop3Val lut) (g := fun x y z => BitVec.ofNat 32 (lop3Val lut x.toNat y.toNat z.toNat)) rfl
    fun _ _ _ => ofBits_toNat _

theorem popc_writes (hi : Issues (.popc h d a) s) :
    WritesWord (.popc h d a) s d fun l => ((List.range 32).filter fun i => (s.srcW 0 l a).getLsbD i).length := by
  simpa only [src_eq_srcW, popcVal_word] using lane1_writes _ d a popcVal s hi rfl

theorem clz_writes (hi : Issues (.clz h d a) s) : WritesWord (.clz h d a) s d fun l => clzVal (s.srcW 0 l a).toNat := by
  simpa only [src_eq_srcW] using lane1_writes _ d a clzVal s hi rfl

theorem ctz_writes (hi : Issues (.ctz h d a) s) : WritesWord (.ctz h d a) s d fun l => ctzVal (s.srcW 0 l a).toNat := by
  simpa only [src_eq_srcW] using lane1_writes _ d a ctzVal s hi rfl

theorem brev_writes (hi : Issues (.brev h d a) s) :
    WritesW (.brev h d a) s d fun l => BitVec.ofNat 32 (brevVal (s.srcW 0 l a).toNat) :=
  lane1_writesW hi (f := brevVal) (g := fun x => BitVec.ofNat 32 (brevVal x.toNat)) rfl fun _ => ofBits_toNat _

end

end Sys2Proof.Machine

open Sys2Proof Sys2Proof.Machine

/-- Settles O13: each instruction writes one function of its source words. -/
theorem logicShiftsAndMoves : Obligations.LogicShiftsAndMoves := by
  unfold Obligations.LogicShiftsAndMoves
  refine ⟨fun s h d a b ty => ⟨fun hi => ?imin, fun hi => ?imax, fun sat hi => ?iabs, fun sat hi => ?ineg, fun p => sel_writes,
      fun hi => ?mov, fun imm => movi_writes, fun imm hi => ?movhi⟩,
    fun s h d a b c => ⟨fun hi => ?shl, fun hi => ?shr, fun hi => ?sha, fun right hi => ?rot, fun left hi => ?fsh⟩,
    fun s h d a b c => ⟨fun hi => ?iand, fun hi => ?ior, fun hi => ?ixor,
      fun lut hi => ⟨_, fun l i hlt => ?lop3, lop3_writes hi⟩,
      popc_writes, fun hi => ⟨_, fun l => clzVal_spec _, clz_writes hi⟩, fun hi => ⟨_, fun l => ctzVal_spec _, ctz_writes hi⟩,
      fun hi => ⟨_, fun l i hlt => brevVal_bit _ hlt, brev_writes hi⟩⟩⟩
  case imin => exact (lane2_writesW hi (f := minVal ty) rfl (minVal_word ty) :)
  case imax => exact (lane2_writesW hi (f := maxVal ty) rfl (maxVal_word ty) :)
  case iabs => exact lane1_writesW hi (f := iabsVal sat) rfl (iabsVal_word sat)
  case ineg => exact lane1_writesW hi (f := inegVal sat) rfl (inegVal_word sat)
  case mov => exact lane1_writesW hi (f := fun x => x) (g := fun x => x) rfl fun _ => rfl
  case movhi => exact lane1_writesW hi (f := fun x => imm.toNat * 2 ^ 16 + x % 2 ^ 16) rfl (movhi_word imm)
  case shl => exact lane2_writesW hi (f := shlVal) rfl shlVal_word
  case shr => exact lane2_writesW hi (f := shrVal) rfl shrVal_word
  case sha => exact lane2_writesW hi (f := shaVal) rfl shaVal_word
  case rot => exact lane2_writesW hi (f := rotVal right) rfl (rotVal_word right)
  case fsh => exact lane3_writesW hi (f := fshVal left) rfl (fshVal_word left)
  case iand => exact lane2_writesW hi (f := fun x y => x &&& y) rfl fun x y => (BitVec.toNat_and x y).symm
  case ior => exact lane2_writesW hi (f := fun x y => x ||| y) rfl fun x y => (BitVec.toNat_or x y).symm
  case ixor => exact lane2_writesW hi (f := fun x y => x ^^^ y) rfl fun x y => (BitVec.toNat_xor x y).symm
  case lop3 => exact lop3Val_bit lut _ _ _ hlt

end

section
/-! Bit fields and byte permutation (R174). -/

namespace Sys2Proof.Machine

/-! ## Extraction -/

/-- Fewer bits of an integer are a truncation of more. -/
theorem setWidth_ofInt {v w : Nat} (h : v ≤ w) (x : Int) : (BitVec.ofInt w x).setWidth v = BitVec.ofInt v x := by
  apply BitVec.eq_of_toNat_eq
  have hd : ((2 : Int) ^ v) ∣ 2 ^ w := pow_dvd_pow 2 h
  have hw : (0 : Int) ≤ x % 2 ^ w := Int.emod_nonneg _ (by positivity)
  have hv : (0 : Int) ≤ x % 2 ^ v := Int.emod_nonneg _ (by positivity)
  rw [BitVec.toNat_setWidth, BitVec.toNat_ofInt, BitVec.toNat_ofInt]
  zify
  rw [Int.toNat_of_nonneg hw, Int.toNat_of_nonneg hv, Int.emod_emod_of_dvd _ hd]

/-- The place of a field and its length, as `bfx` and `bfi` take them from a word (R174). -/
def fieldPos (y : Word) : Nat := (y.extractLsb' 0 8).toNat
def fieldLen (y : Word) : Nat := min (y.extractLsb' 8 8).toNat 32

theorem fieldLen_le (y : Word) : fieldLen y ≤ 32 := Nat.min_le_right ..

theorem bfx_i32_bits (x : Word) (pos : Nat) {len : Nat} (h : len ≤ 32) :
    (ival .i32 x.toNat / 2 ^ pos % 2 ^ len).toNat = ((x.sshiftRight pos).setWidth len).toNat := by
  rw [ival_toNat, BitVec.sshiftRight_eq, setWidth_ofInt h, BitVec.toNat_ofInt, Int.shiftRight_eq_div_pow, Nat.cast_pow,
    Nat.cast_pow]
  rfl

theorem bfx_n32_bits (x : Word) (pos len : Nat) :
    (ival .n32 x.toNat / 2 ^ pos % 2 ^ len).toNat = ((x >>> pos).setWidth len).toNat := by
  rw [ival_toNat, BitVec.toNat_setWidth, BitVec.toNat_ushiftRight, Nat.shiftRight_eq_div_pow]
  exact Int.toNat_natCast (x.toNat / 2 ^ pos % 2 ^ len)

theorem wrap_sint {len : Nat} (z : BitVec len) : wrap 32 (sint len z.toNat) = (z.signExtend 32).toNat := by
  rw [sint_eq, wrap_eq]
  rfl

/-- A field of no bits is 0. -/
theorem signExtend_empty {len : Nat} (h : len = 0) (z : BitVec len) : z.signExtend 32 = 0#32 := by
  subst h
  rw [BitVec.eq_nil z]
  rfl

theorem bfxVal_i32 (x y : Word) :
    bfxVal .i32 x.toNat y.toNat = (((x.sshiftRight (fieldPos y)).setWidth (fieldLen y)).signExtend 32).toNat := by
  unfold bfxVal
  rw [bits_toNat, bits_toNat]
  show (if fieldLen y = 0 then 0
    else wrap 32 (sint (fieldLen y) (ival .i32 x.toNat / 2 ^ fieldPos y % 2 ^ fieldLen y).toNat)) = _
  rw [bfx_i32_bits x _ (fieldLen_le y), wrap_sint]
  split_ifs with h
  · rw [signExtend_empty h]
    rfl
  · rfl

theorem bfxVal_n32 (x y : Word) :
    bfxVal .n32 x.toNat y.toNat = (((x >>> fieldPos y).setWidth (fieldLen y)).setWidth 32).toNat := by
  unfold bfxVal
  rw [bits_toNat, bits_toNat]
  show (if fieldLen y = 0 then 0 else (ival .n32 x.toNat / 2 ^ fieldPos y % 2 ^ fieldLen y).toNat) = _
  have fits : 2 ^ fieldLen y ≤ 2 ^ 32 := Nat.pow_le_pow_right (by decide) (fieldLen_le y)
  rw [bfx_n32_bits, BitVec.toNat_setWidth 32, Nat.mod_eq_of_lt (Nat.lt_of_lt_of_le (BitVec.isLt _) fits)]
  split_ifs with h
  · rw [BitVec.toNat_setWidth, h, Nat.pow_zero, Nat.mod_one]
  · rfl

/-! ## Insertion -/

theorem bfiVal_bit (x y z : Word) {k : Nat} (hk : k < 32) : (BitVec.ofNat 32 (bfiVal x.toNat y.toNat z.toNat)).getLsbD k
    = if fieldPos z ≤ k ∧ k < fieldPos z + fieldLen z then x.getLsbD (k - fieldPos z) else y.getLsbD k := by
  unfold bfiVal
  rw [getLsbD_ofBits _ hk, bits_toNat, bits_toNat, bit_toNat, bit_toNat]
  show (if decide (fieldPos z ≤ k) && decide (k < fieldPos z + fieldLen z) then x.getLsbD (k - fieldPos z) else y.getLsbD k) = _
  simp only [Bool.and_eq_true, decide_eq_true_eq]

/-! ## Bytes -/

/-- A word from its four bytes, byte 0 first. -/
def fourBytes (f : Nat → Byte) : Nat := (List.range 4).foldl (fun v i => v + (f i).toNat * 256 ^ i) 0

section
variable (f : Nat → Byte)

theorem fourBytes_eq : fourBytes f
    = 0 + (f 0).toNat * 256 ^ 0 + (f 1).toNat * 256 ^ 1 + (f 2).toNat * 256 ^ 2 + (f 3).toNat * 256 ^ 3 := by
  unfold fourBytes
  rw [show List.range 4 = [0, 1, 2, 3] from rfl, List.foldl_cons, List.foldl_cons, List.foldl_cons, List.foldl_cons,
    List.foldl_nil]

theorem fourBytes_toNat : fourBytes f = (BitVec.ofNat 32 (fourBytes f)).toNat := by
  rw [BitVec.toNat_ofNat, fourBytes_eq]
  omega

/-- A word made from its bytes has those bytes. -/
theorem extractLsb'_fourBytes {i : Nat} (hi : i < 4) : (BitVec.ofNat 32 (fourBytes f)).extractLsb' (8 * i) 8 = f i := by
  apply BitVec.eq_of_toNat_eq
  rw [BitVec.extractLsb'_toNat, ← fourBytes_toNat, fourBytes_eq, Nat.shiftRight_eq_div_pow]
  interval_cases i <;> omega

end

/-- The byte that `prmt` chooses for place `i` (R174). -/
def prmtByte (x y z : Word) (i : Nat) : Byte :=
  let sel := (z.extractLsb' (4 * i) 4).toNat
  let byte : Byte := (y ++ x).extractLsb' (8 * (sel % 8)) 8
  if sel < 8 then byte else if byte.msb then 0xFF#8 else 0x00#8

theorem prmtVal_bytes (x y z : Word) : prmtVal x.toNat y.toNat z.toNat = fourBytes (prmtByte x y z) := by
  have byte (i : Nat) : (let s := bits z.toNat (4 * i) 4
      let b := bits (x.toNat + y.toNat * 2 ^ 32) (8 * (s % 8)) 8
      if s < 8 then b else if 128 ≤ b then 255 else 0) = (prmtByte x y z i).toNat := by
    rw [Nat.add_comm, ← toNat_pair]
    simp only [bits_toNat, prmtByte, BitVec.msb_eq_decide, apply_ite BitVec.toNat, decide_eq_true_eq]
    rfl
  unfold prmtVal fourBytes
  exact congrFun (congrArg (List.foldl · 0) (funext fun v => funext fun i => congrArg (v + · * 256 ^ i) (byte i))) _

/-! ## Instructions -/

section
variable {s : State} {h : Hdr} {d a b c : Reg}

theorem bfi_writes (hi : Issues (.bfi h d a b c) s) : WritesW (.bfi h d a b c) s d fun l =>
    BitVec.ofNat 32 (bfiVal (s.srcW 0 l a).toNat (s.srcW 2 l b).toNat (s.srcW 4 l c).toNat) :=
  lane3_writesW hi (f := bfiVal) (g := fun x y z => BitVec.ofNat 32 (bfiVal x.toNat y.toNat z.toNat)) rfl
    fun _ _ _ => ofBits_toNat _

theorem prmt_writes (hi : Issues (.prmt h d a b c) s) : WritesW (.prmt h d a b c) s d fun l =>
    BitVec.ofNat 32 (fourBytes (prmtByte (s.srcW 0 l a) (s.srcW 2 l b) (s.srcW 4 l c))) :=
  lane3_writesW hi (f := prmtVal) (g := fun x y z => BitVec.ofNat 32 (fourBytes (prmtByte x y z))) rfl
    fun x y z => (prmtVal_bytes x y z).trans (fourBytes_toNat _)

end

end Sys2Proof.Machine

open Sys2Proof Sys2Proof.Machine

/-- Settles O14: a word made bit by bit, or byte by byte, has those bits or bytes. -/
theorem bitFields : Obligations.BitFields := by
  unfold Obligations.BitFields
  refine fun s h d a b c => ⟨fun ty hi => ?bfx, fun hi => ⟨_, fun l k hk => bfiVal_bit _ _ _ hk, bfi_writes hi⟩,
    fun hi => ⟨_, fun l i hi => extractLsb'_fourBytes _ hi, prmt_writes hi⟩⟩
  case bfx =>
    cases ty with
    | i32 => exact (lane2_writesW hi (f := bfxVal .i32) rfl bfxVal_i32 :)
    | n32 => exact (lane2_writesW hi (f := bfxVal .n32) rfl bfxVal_n32 :)

end

section
/-! Conversions (R179 to R182): what they raise lies in the five low bits of v255, and each lane converts its own words. -/

namespace Sys2Proof.Machine

/-! ## Flags -/

theorem toInt_flags (w : Nat) (sg : Bool) (m : Rnd) : ∀ x : Ext, FiveFlags (toInt w sg m x).2
  | .nan _ | .inf _ => .nv
  | .fin .. => by
    show FiveFlags (if _ then fNV else if _ then fNX else 0)
    split
    · exact .nv
    · exact FiveFlags.nx.ite

theorem cvtVal_flags (dst src : TyCode) (m : FMod) (a : Nat) : FiveFlags (cvtVal dst src m a).2 := by
  unfold cvtVal
  extract_lets x nv
  have hnv : FiveFlags nv := FiveFlags.nv.ite
  cases TyCode.ffmt? dst with
  | some f => exact finishF_flags f m hnv
  | none => exact (toInt_flags ..).or hnv

theorem packWord_flags (w : Nat) {rs : List (Nat × Nat)} (h : ∀ r ∈ rs, FiveFlags r.2) : FiveFlags (packWord w rs).2 :=
  List.foldlRecOn (motive := fun r : Nat × Nat => FiveFlags r.2) _ _ .zero fun _ hr _ hx =>
    hr.or (h _ (List.fst_mem_of_mem_zipIdx hx))

theorem packVal_flags (tc : TyCode) (m : FMod) (xs : List Nat) : FiveFlags (packVal tc m xs).2 := by
  unfold packVal
  cases TyCode.ffmt? tc with
  | none => exact .zero
  | some f =>
    refine packWord_flags _ fun r hr => ?_
    obtain ⟨a, -, rfl⟩ := List.mem_map.mp hr
    exact finishF_flags _ _ FiveFlags.nv.ite

theorem qntVal_flags (tc : TyCode) (m : FMod) (xs : List Nat) (s : Nat) : FiveFlags (qntVal tc m xs s).2 := by
  refine ite_flags .zero (packWord_flags _ fun r hr => ?_)
  obtain ⟨a, -, rfl⟩ := List.mem_map.mp hr
  cases TyCode.ffmt? tc with
  | some f => exact finishF_flags _ _ FiveFlags.nv.ite
  | none => exact (toInt_flags ..).or FiveFlags.nv.ite

theorem unpkElem_flags (tc : TyCode) (a k : Nat) : FiveFlags (unpkElem tc a k).2 := by
  unfold unpkElem
  cases TyCode.ffmt? tc with
  | some f => exact FiveFlags.nv.ite
  | none => exact .zero

theorem scaleApply_flags (s : Nat) (f : FFmt) (m : Rnd) : ∀ x : Ext, FiveFlags (scaleApply x s f m).2
  | .nan _ | .inf _ | .fin .. => ite_flags .zero (roundF_flags ..)

theorem dqnElem_flags (tc : TyCode) (m : FMod) (a s k : Nat) : FiveFlags (dqnElem tc m a s k).2 :=
  ftzOut_flags _ _ (scaleApply_flags ..)

/-- The flags of several results together. -/
theorem flags_foldl {rs : List (Nat × Nat)} (h : ∀ r ∈ rs, FiveFlags r.2) : FiveFlags (rs.foldl (fun f r => f ||| r.2) 0) :=
  List.foldlRecOn (motive := FiveFlags) _ _ .zero fun _ hf r hr => hf.or (h r hr)

/-! ## Lanes -/

/-- A group of source words by what a lane's sources find. -/
def groupOf (rd : Nat → Nat → Nat) (r n : Nat) : List Nat := (List.range n).map fun k => rd k (r + k)

theorem rdGroup_eq (s : State) (t l r n : Nat) : s.rdGroup 0 t l r n = groupOf (s.laneReads t l) r n := by
  unfold State.rdGroup groupOf
  simp only [Nat.zero_add]
  rfl

section
variable {s : State} {h : Hdr} {d a b : Reg} {rnd : Rnd} {sat ftz : Bool} {tc : TyCode}

/-- Lanes that each write a group element by element, with the flags of every element. -/
theorem elements_writes {i : Instr} (hi : Issues i s) {n : Nat} {e : (Nat → Nat → Nat) → Nat → Nat × Nat}
    (hd : d.val + n ≤ 256) (hf : ∀ rd k, FiveFlags (e rd k).2) (hc : ∀ rd rd', ReadsAlike rd rd' → e rd = e rd')
    (he : exec i s = issueLanes i s fun c l u =>
      let rs := (List.range n).map (e (u.laneReads c.t l))
      (u.wrGroup c.t l d (rs.map (·.1))).raiseFlags c.t l (rs.foldl (fun f r => f ||| r.2) 0)) :
    WritesGroup i s d n (fun l k => (e (s.src · l ·) k).1)
      fun l => ((List.range n).map (e (s.src · l ·))).foldl (fun f r => f ||| r.2) 0 := by
  refine group_writes hi (v := fun rd k => (e rd k).1)
    (f := fun rd => ((List.range n).map (e rd)).foldl (fun f r => f ||| r.2) 0) hd (fun rd => (flags_foldl fun r hr => ?_).lt_word) (fun rd rd' h => by rw [hc rd rd' h]; exact ⟨rfl, rfl⟩) ?_
  · obtain ⟨k, -, rfl⟩ := List.mem_map.mp hr
    exact hf rd k
  · rw [he]
    simp only [List.map_map]
    rfl

/-- What a lane's sources give for `cvt` (R180). -/
def cvtOf (dst src : TyCode) (m : FMod) (a : Reg) (rd : Nat → Nat → Nat) : Nat × Nat :=
  cvtVal dst src m (if src.wide then pairOf rd 0 a else rd 0 a)

theorem cvtOf_congr {dst src : TyCode} {m : FMod} (ha : pairIf src.wide a = true) {rd rd' : Nat → Nat → Nat}
    (e : ReadsAlike rd rd') : cvtOf dst src m a rd = cvtOf dst src m a rd' := by
  unfold cvtOf
  cases hs : src.wide with
  | false => exact congrArg (cvtVal dst src m) (e.reg 0 a)
  | true =>
    have hp : pairOk a = true := by simpa [pairIf, hs] using ha
    exact congrArg (cvtVal dst src m) (e.pair 0 (pairOk_lt hp))

theorem cvt_writes_pair {dst src : TyCode} (hd : pairIf dst.wide d = true) (ha : pairIf src.wide a = true)
    (hi : Issues (.cvt h d a dst src rnd sat ftz) s) (hw : dst.wide = true) :
    Writes (.cvt h d a dst src rnd sat ftz) s [d.val, d.val + 1]
      (fun l q => if q = d.val then (cvtOf dst src ⟨rnd, sat, ftz⟩ a (s.src · l ·)).1
        else (cvtOf dst src ⟨rnd, sat, ftz⟩ a (s.src · l ·)).1 / 2 ^ 32)
      fun l => (cvtOf dst src ⟨rnd, sat, ftz⟩ a (s.src · l ·)).2 := by
  have hp : pairOk d = true := by simpa [pairIf, hw] using hd
  refine pairF_writes hi (f := cvtOf dst src ⟨rnd, sat, ftz⟩ a) (pairOk_lt hp) (fun _ => (cvtVal_flags ..).lt_word)
    (fun _ _ => cvtOf_congr ha) ?_
  show execCvt h d a dst src rnd sat ftz s = _
  unfold execCvt
  simp only [hw, if_true]
  rfl

theorem cvt_writes_word {dst src : TyCode} (ha : pairIf src.wide a = true) (hi : Issues (.cvt h d a dst src rnd sat ftz) s)
    (hw : dst.wide = false) :
    WritesF (.cvt h d a dst src rnd sat ftz) s d fun l => cvtOf dst src ⟨rnd, sat, ftz⟩ a (s.src · l ·) := by
  refine wordF_writes hi (f := cvtOf dst src ⟨rnd, sat, ftz⟩ a) (fun _ => (cvtVal_flags ..).lt_word)
    (fun _ _ => cvtOf_congr ha) ?_
  show execCvt h d a dst src rnd sat ftz s = _
  unfold execCvt
  simp only [hw, Bool.false_eq_true, if_false]
  rfl

theorem pack_writes (hw : (Instr.pack h d a tc rnd sat ftz).wf = true) (hi : Issues (.pack h d a tc rnd sat ftz) s) :
    WritesF (.pack h d a tc rnd sat ftz) s d fun l =>
      packVal tc ⟨rnd, sat, ftz⟩ (groupOf (s.src · l ·) a (packCount tc)) := by
  simp only [Instr.wf, Bool.and_eq_true] at hw
  obtain ⟨-, ha⟩ := hw
  refine wordF_writes hi (f := fun rd => packVal tc ⟨rnd, sat, ftz⟩ (groupOf rd a (packCount tc)))
    (fun _ => (packVal_flags ..).lt_word) (fun rd rd' e => congrArg (packVal tc _) (e.group (groupOk_le ha))) ?_
  show execPack h d a tc rnd sat ftz s = _
  unfold execPack
  simp only [rdGroup_eq]

theorem qnt_writes (hw : (Instr.qnt h d a b tc rnd sat ftz).wf = true) (hi : Issues (.qnt h d a b tc rnd sat ftz) s) :
    WritesF (.qnt h d a b tc rnd sat ftz) s d fun l =>
      qntVal tc ⟨rnd, sat, ftz⟩ (groupOf (s.src · l ·) a (packCount tc)) (s.src 16 l b) := by
  simp only [Instr.wf, Bool.and_eq_true] at hw
  obtain ⟨-, ha⟩ := hw
  refine wordF_writes hi (f := fun rd => qntVal tc ⟨rnd, sat, ftz⟩ (groupOf rd a (packCount tc)) (rd 16 b))
    (fun _ => (qntVal_flags ..).lt_word) (fun rd rd' e => congrArg₂ (qntVal tc _) (e.group (groupOk_le ha)) (e.reg 16 b)) ?_
  show execQnt h d a b tc rnd sat ftz s = _
  unfold execQnt
  simp only [rdGroup_eq]
  rfl

theorem unpk_writes (hw : (Instr.unpk h d a tc).wf = true) (hi : Issues (.unpk h d a tc) s) :
    WritesGroup (.unpk h d a tc) s d (packCount tc) (fun l k => (unpkElem tc (s.src 0 l a) k).1) fun l =>
      ((List.range (packCount tc)).map (unpkElem tc (s.src 0 l a))).foldl (fun f r => f ||| r.2) 0 := by
  simp only [Instr.wf, Bool.and_eq_true] at hw
  obtain ⟨-, hd⟩ := hw
  exact elements_writes hi (e := fun rd => unpkElem tc (rd 0 a)) (groupOk_le hd) (fun _ _ => unpkElem_flags ..)
    (fun rd rd' e => by rw [e.reg 0 a]) rfl

theorem dqn_writes (hw : (Instr.dqn h d a b tc rnd ftz).wf = true) (hi : Issues (.dqn h d a b tc rnd ftz) s) :
    WritesGroup (.dqn h d a b tc rnd ftz) s d (packCount tc)
      (fun l k => (dqnElem tc ⟨rnd, false, ftz⟩ (s.src 0 l a) (s.src 16 l b) k).1) fun l =>
      ((List.range (packCount tc)).map (dqnElem tc ⟨rnd, false, ftz⟩ (s.src 0 l a) (s.src 16 l b))).foldl
        (fun f r => f ||| r.2) 0 := by
  simp only [Instr.wf, Bool.and_eq_true] at hw
  obtain ⟨-, hd⟩ := hw
  exact elements_writes hi (e := fun rd => dqnElem tc ⟨rnd, false, ftz⟩ (rd 0 a) (rd 16 b)) (groupOk_le hd)
    (fun _ _ => dqnElem_flags ..) (fun rd rd' e => by rw [e.reg 0 a, e.reg 16 b]) rfl

end

end Sys2Proof.Machine

open Sys2Proof Sys2Proof.Machine

/-- Settles O18: each lane converts what its own sources find, and no conversion raises more than the five flags. -/
theorem conversions : Obligations.Conversions := by
  unfold Obligations.Conversions
  refine fun s h d a b rnd sat ftz => ⟨fun dst src hw hi => ?cvt, fun tc => pack_writes, fun tc => unpk_writes,
    fun tc => qnt_writes, fun tc => dqn_writes⟩
  case cvt =>
    simp only [Instr.wf, Bool.and_eq_true] at hw
    obtain ⟨⟨-, hd⟩, ha⟩ := hw
    cases hwide : dst.wide with
    | true => exact cvt_writes_pair hd ha hi hwide
    | false => exact cvt_writes_word ha hi hwide

end

section
/-! Elements and bit planes (R183): `plx` makes words bit by bit, and `pli` byte by byte, from a group of source words. -/

namespace Sys2Proof.Machine

/-- A bit of a bit range. -/
theorem bit_bits (x lo : Nat) {w i : Nat} (h : i < w) : bit (bits x lo w) i = bit x (lo + i) := by
  rw [bit_eq_testBit, bit_eq_testBit, bits, Nat.testBit_mod_two_pow, decide_eq_true h, Bool.true_and,
    Nat.testBit_div_two_pow, Nat.add_comm]

theorem groupOf_getD (rd : Nat → Nat → Nat) (r : Nat) {k n : Nat} (h : k < n) : (groupOf rd r n).getD k 0 = rd k (r + k) :=
  getD_map_range _ h 0

section
variable {s : State} {h : Hdr} {d a : Reg} {k : Fin 16}

/-! ## Planes from elements -/

theorem plx_writes (hw : (Instr.plx h d a k).wf = true) (hi : Issues (.plx h d a k) s) :
    WritesGroup (.plx h d a k) s d k.val (fun l p => plxWord (groupOf (s.src · l ·) a 8) p) fun _ => 0 := by
  simp only [Instr.wf, Bool.and_eq_true, decide_eq_true_eq] at hw
  obtain ⟨⟨⟨-, ha⟩, -⟩, hd⟩ := hw
  refine group_writes_quiet hi (v := fun rd => plxWord (groupOf rd a 8)) (by omega)
    (fun rd rd' e => congrArg plxWord (e.group (groupOk_le ha))) ?_
  show execPlx h d a k s = _
  unfold execPlx
  simp only [rdGroup_eq]

theorem plxWord_bit (l : Nat) {p e : Nat} (hp : p < 8) (he : e < 32) :
    (BitVec.ofNat 32 (plxWord (groupOf (s.src · l ·) a 8) p)).getLsbD e
      = (BitVec.ofNat 32 (s.src (e / 4) l (a.val + e / 4))).getLsbD (8 * (e % 4) + (7 - p)) := by
  unfold plxWord groupElem
  rw [getLsbD_ofBits _ he, groupOf_getD _ _ (by omega), bit_bits _ _ (by omega), bit_eq_testBit, BitVec.getLsbD_ofNat,
    decide_eq_true (by omega), Bool.true_and]

/-! ## Elements from planes -/

/-- Element `e` as its `n` planes give it, plane 0 first (R183). -/
def planesOf (rd : Nat → Nat → Nat) (r n e : Nat) : Nat := (List.range n).foldl (fun q p => 2 * q + bits (rd p (r + p)) e 1) 0

/-- The byte that `pli` makes of an element (R183). -/
def pliByte (rd : Nat → Nat → Nat) (r n w j : Nat) : Byte :=
  BitVec.ofInt 8 (sint n (planesOf rd r n (4 * w + j)) * 2 ^ (8 - n))

theorem pliElem_groupOf (rd : Nat → Nat → Nat) (r n w j : Nat) :
    pliElem (groupOf rd r n) n (4 * w + j) = (pliByte rd r n w j).toNat := by
  have planes : (List.range n).foldl (fun v p => 2 * v + bits ((groupOf rd r n).getD p 0) (4 * w + j) 1) 0
      = planesOf rd r n (4 * w + j) :=
    List.foldl_ext _ _ _ fun v p hp => by rw [groupOf_getD rd r (List.mem_range.mp hp)]
  unfold pliElem pliByte
  rw [wrap_eq, planes]

theorem pliWord_groupOf (rd : Nat → Nat → Nat) (r n w : Nat) :
    pliWord (groupOf rd r n) n w = fourBytes (pliByte rd r n w) := by
  unfold pliWord fourBytes
  simp only [pliElem_groupOf]

theorem pli_writes (hw : (Instr.pli h d a k).wf = true) (hi : Issues (.pli h d a k) s) :
    WritesGroup (.pli h d a k) s d 8 (fun l w => fourBytes (pliByte (s.src · l ·) a k.val w)) fun _ => 0 := by
  simp only [Instr.wf, Bool.and_eq_true, decide_eq_true_eq] at hw
  obtain ⟨⟨⟨-, hd⟩, -⟩, ha⟩ := hw
  simp only [← pliWord_groupOf]
  refine group_writes_quiet hi (v := fun rd => pliWord (groupOf rd a k.val) k.val) (groupOk_le hd)
    (fun rd rd' e => congrArg (pliWord · k.val) (e.group (by omega))) ?_
  show execPli h d a k s = _
  unfold execPli
  simp only [rdGroup_eq]

end

end Sys2Proof.Machine

open Sys2Proof Sys2Proof.Machine

/-- Settles O19: the words that `plx` writes are made of their bits, and those that `pli` writes of their bytes. -/
theorem planeWords : Obligations.PlaneWords := by
  unfold Obligations.PlaneWords
  refine fun s h d a k => ⟨fun hw hi => ⟨fun l p => BitVec.ofNat 32 (plxWord (groupOf (s.src · l ·) a 8) p),
      fun l p e => plxWord_bit l, ?plx⟩,
    fun hw hi => ⟨fun l w => BitVec.ofNat 32 (fourBytes (pliByte (s.src · l ·) a k.val w)),
      fun l w j _ hj => extractLsb'_fourBytes _ hj, ?pli⟩⟩
  case plx =>
    have words (l p : Nat) : (BitVec.ofNat 32 (plxWord (groupOf (s.src · l ·) a 8) p)).toNat
        = plxWord (groupOf (s.src · l ·) a 8) p := (ofBits_toNat _).symm
    simp only [words]
    exact plx_writes hw hi
  case pli =>
    simp only [← fourBytes_toNat]
    exact pli_writes hw hi

end
